-- ==== Sys2Proof/Word.lean ====
section
/-! DEFINITION. The word types of the Aedmon A8 (R4, R5, R56): bytes, register words and the wide float pattern. -/
namespace Sys2Proof

/-- A register word (00_scope.md, "Registers are 64 bits wide"). -/
abbrev Word := BitVec 64

/-- One byte of memory. -/
abbrev Byte := BitVec 8

/-- The 32-bit pattern of an F32 value (R56). -/
abbrev F32 := BitVec 32

end Sys2Proof
end

