-- ==== Sys2Proof/Syntax.lean ====
section
/-! DEFINITION. The commands of the block: one constructor of `Instr` for each row of spec/opcode_table.json, with the
operands that the row's event carries, and the data types of those operands. -/
namespace Sys2Proof

/-- Who issues course items (R39, Table 2.4): a queue or a cluster. -/
inductive Issuer
  | queue (q : Nat)
  | cluster (g : Nat)
  deriving DecidableEq, Repr

/-- What a tensor is for (Table 3.9, R60, R104, R106). -/
inductive Role
  | activation | weight | gradient | optState | residualStream | other
  deriving DecidableEq, Repr

/-- An entry of the tensor table: id, layer (0xFFFF none, R320), role, format code (Table 3.1), logical shape (R83) and
its quantisation descriptor, 32 bytes (Table 4.1). -/
structure TensorEntry where
  tid : Nat
  layer : Nat
  role : Role
  fmt : Nat
  shape : List Nat
  quant : Option (List Byte)
  deriving DecidableEq, Repr

/-- A matrix product: the two operands' tensor ids and the axis of each that is the reduced dimension (R99, R100). -/
structure ProductDecl where
  a : Nat
  b : Nat
  axisA : Nat
  axisB : Nat
  deriving DecidableEq, Repr

/-- Where a stage queue delivers (Table 2.4). -/
inductive StageEnd
  | local (i : Issuer)
  | remote (fa : Nat)
  deriving DecidableEq, Repr

/-- A stage-queue descriptor (R47, Table 2.4) of stage queue `k` of die `die`. -/
structure StageDesc where
  die : Nat
  k : Nat
  producer : Issuer
  consumer : StageEnd
  buffer : Nat
  size : Nat
  depth : Nat
  deriving DecidableEq, Repr

/-- A member of a chain (Table 5.3). -/
structure ChainMember where
  dev : Nat
  cluster : Nat
  tile : Nat
  deriving DecidableEq, Repr

/-- A chain descriptor (R126, Table 5.3). -/
structure ChainDesc where
  id : Nat
  len : Nat
  comp : Nat
  rows : Nat
  members : List ChainMember
  dest : Nat
  destTid : Nat
  deriving DecidableEq, Repr

/-- A layer's learning rate and range record (R105). -/
structure LayerEntry where
  layer : Nat
  lr : F32
  record : Nat
  deriving DecidableEq, Repr

/-- A barrier that the course program declares: its number and its member clusters (R156). -/
structure BarrierDesc where
  id : Nat
  members : List Nat
  deriving DecidableEq, Repr

/-- A dense fold item (R226, Table 9.2); the binding is its 64 bytes. -/
structure DenseItem where
  region : Nat
  grad : Nat
  rows : Nat
  cols : Nat
  binding : List Byte
  deriving DecidableEq, Repr

/-- What a course item does when it issues. -/
inductive ItemKind
  /-- start a tile program: cluster, entry address divided by 8, address of its arguments (R348) -/
  | launch (g entry args : Nat)
  /-- run a yealm descriptor with a drift group (R187, R316) -/
  | yealm (desc drift : Nat)
  /-- convert a tensor under its descriptor from F32 at one address to its format at another (R94 to R103) -/
  | convert (tid src dst : Nat)
  /-- fold a dense region (R226) -/
  | denseFold (d : DenseItem)
  /-- take a range digest at the tick of the planned batten (R309) -/
  | rangeDigest (id base len : Nat)
  /-- move a shard (R174); `dev` is the destination module -/
  | move (table shard dev dest : Nat)
  /-- flip a snapshot table (R180) -/
  | flip (table : Nat)
  /-- take a streaming batch into effect (R181) -/
  | stream (table first count staging : Nat)
  deriving DecidableEq, Repr

/-- An item of a work set: its issuer, its planned batten (0 to PLANNED − 1) and what it does. -/
structure CourseItem where
  issuer : Issuer
  batten : Nat
  kind : ItemKind
  deriving DecidableEq, Repr

/-- A parsed course program (R36, R37, R38, R83, R99, R105, R126, R183). The spec gives its content and not the layout
of its image, so COURSE_LOAD carries the parsed program beside the image's address (assumption log 2). -/
structure CourseProgram where
  number : Nat
  startBatten : Nat
  planned : Nat
  runSeed : Word
  inputDigest : Word
  repro : Bool
  ieee : Bool
  gradMode : Nat
  counterBase : Nat
  devices : List Nat
  queues : List Nat
  tensors : List TensorEntry
  products : List ProductDecl
  stages : List StageDesc
  chains : List ChainDesc
  barriers : List BarrierDesc
  lockRanges : List (Nat × Nat)
  tables : List Nat
  trained : List Nat
  layers : List LayerEntry
  items : List CourseItem
  deriving DecidableEq, Repr

/-- The fields of a fabric request's header that a target acts on (R275, Table 11.4). -/
structure FabHdr where
  src : Nat
  dst : Nat
  epoch : Nat
  tag : Nat
  course : Nat
  pbatten : Nat
  reissue : Bool
  wadding : Bool
  deriving DecidableEq, Repr

/-- The header of a fabric response (R275): the module that answers and the TAG of the request. -/
structure RspHdr where
  src : Nat
  tag : Nat
  deriving DecidableEq, Repr

/-- Two port time stamps of an exchange of R286, in quarters of a tb: of the message that one side sends or receives first
and of the one that it receives or sends then. -/
structure Stamps where
  first : Nat
  last : Nat
  deriving DecidableEq, Repr

/-- A row of a running sum (R126, R288): the digest of the members so far and the values. -/
structure ChainRow where
  digest : Word
  data : List Byte
  deriving DecidableEq, Repr

/-- A chunk of a collective's result (R290): its number and its values. -/
structure CollChunk where
  index : Nat
  data : List Byte
  deriving DecidableEq, Repr

/-- What a Jefort flit carries (R269): sequence number, virtual channel and credits returned for each of the four virtual
channels in its link header, and 240 bytes of transaction data. -/
structure Flit where
  seq : Nat
  vc : Nat
  credits : List Nat
  data : List Byte
  deriving DecidableEq, Repr

/-- Who made a memory request (Table 10.4). -/
inductive Req
  | engine | host | remote | scrub | oldLine | partialWrite
  deriving DecidableEq, Repr

/-- Who writes memory (Table 7.6, R308): the host through BAR0, a tile program, a command queue, a remote module with
the COURSE field of its request, an ingest port, and the writers inside the module that the course lock admits or that
write the directory. -/
inductive Writer
  | host
  | tile (g : Nat)
  | command (q : Nat)
  | remote (dev course : Nat)
  | ingest (port : Nat)
  | update
  | migration
  | streaming
  | device
  deriving DecidableEq, Repr


/-- The context of a RoCE queue pair (R294, ROCE_QP_SET): the peer's queue pair, the next PSN to send and the next to
receive, and how often a timed-out request is sent again. The manual does not give the layout of the 256-byte context,
so ROCE_QP_SET carries its content (assumption log 16). -/
structure QpContext where
  peer : Nat
  /-- packets travel over IPv6, otherwise over IPv4 -/
  ip6 : Bool
  sendPsn : Nat
  recvPsn : Nat
  retries : Nat
  deriving DecidableEq, Repr

/-- The frames of a RoCE message that arrives (R293, R294): bytes of the longest, IP version, destination address and UDP
port, congestion mark, whether the ICRC and the frame check sequence hold, and uncorrectable FEC codewords. -/
structure EthFrame where
  len : Nat
  ip6 : Bool
  dst : Nat
  udp : Nat
  ecn : Bool
  icrcOk : Bool
  fcsOk : Bool
  fec : Nat
  deriving DecidableEq, Repr

/-- A queue pair of a port and the frames that reach it (R293, R294). -/
structure QpFrame where
  qp : Fin 1024
  f : EthFrame
  deriving DecidableEq, Repr

/-- The header of a RoCE request that arrives (R294): port, queue pair, PSN of its first packet, whether the operation is
one that Table 11.13 supports, and its frames. -/
structure RoceHdr where
  port : Fin 2
  qp : Fin 1024
  psn : Nat
  supported : Bool
  f : EthFrame
  deriving DecidableEq, Repr

/-- What a budget update gives a die (R375): budget and present power in W, matrix and memory duty in sixteenths. -/
structure DieBudget where
  watts : Nat
  power : Nat
  matrix : Nat
  memory : Nat
  deriving DecidableEq, Repr

/-- What comes of a read that the module made of host memory (R350). -/
inductive HostAns
  | data (bytes : List Byte)
  | error
  | poison
  | timeout
  deriving DecidableEq, Repr

/-- A configuration request of the host (R325): addresses for the BARs (none while memory decoding is off), D0 or D3hot,
MSI-X enable, another supported request, or one that the module does not support. -/
inductive ConfigReq
  | bars (bar0 bar2 : Option Nat)
  | power (d3hot : Bool)
  | msix (on : Bool)
  | other
  | unsupported
  deriving DecidableEq, Repr


/-- The commands: one constructor per row of spec/opcode_table.json. -/
inductive Instr
  /-- REGISTER_WRITE (R8): A write to a register field that has no row of its own sets, ignores, clears or rejects fields by access type. -/
  | registerWrite (addr : Nat) (bytes : List Byte) (by_ : Writer)
  /-- READ_CLEAR (R8): A read of an RC field returns its value and clears it to zero in the same access. -/
  | readClear (addr : Nat) (by_ : Writer)
  /-- CFG_DEVNUM_WRITE (R22): A write of the fabric device number takes effect on die 0 only while every Jefort port is down. -/
  | cfgDevnumWrite (die : Fin 8) (value : Word)
  /-- TBN_SETTING_WRITE (R30): A write to TBN_INTERVAL, TBN_SLOTS, TBN_OVR or TBN_SYNC in IDLE becomes pending until the next tick; otherwise it is rejected. -/
  | tbnSettingWrite (die : Fin 8) (which : Fin 4) (value : Word)
  /-- TBN_STAGGER_WRITE (R54): A write to TBN_STAGGER is accepted in any course state and takes effect at the next tick. -/
  | tbnStaggerWrite (die : Fin 8) (value : Word)
  /-- TICK (R28): TBN_TIME reaches TBN_NEXT_TICK; TBN_BATTEN increments and the next tick is computed. -/
  | tick
  /-- WORK_SLOT_BEGIN (R32): A work slot begins; course item issue resumes and barrier release is staggered. -/
  | workSlotBegin
  /-- COURSE_ITEM_ISSUE (R32): An issuer issues the next course-program item of its work set in the work slot. -/
  | courseItemIssue (item : Nat)
  /-- WORK_SLOT_END (R41): The work slot ends; control cores stop and an incomplete work set is an overrun handled by the mode. -/
  | workSlotEnd
  /-- QUANTUM_END (R41): An elastic deferral quantum ends; the batten is extended again or proceeds to its non-work slots. -/
  | quantumEnd
  /-- CALIBRATION_SLOT (R260): The calibration slot begins; each controller starts retraining one channel, urgent ones first. -/
  | calibrationSlot
  /-- RETRAIN_END (R262): A channel retrain ends by 2,000 tb, keeping or restoring its settings, and the channel resumes. -/
  | retrainEnd (ctl : Fin 24) (converged : Bool) (margin : Nat)
  /-- SCRUB_SLOT (R258): The scrub slot begins; each controller reads lines at every channel's scrub pointer. -/
  | scrubSlot (cut : List (Nat × Nat))
  /-- LEDGER_SLOT (R322): The ledger slot begins; batten accounting, load records and stall totals are written. -/
  | ledgerSlot
  /-- ENERGY_REFIT (R388): Every 1,000 battens die 0 refits the energy coefficients. -/
  | energyRefit (coef : List F32)
  /-- SYNC (R286): A follower receives the master's batten sync message with its settings. -/
  | sync (h : FabHdr) (batten time : Nat) (interval slots ovr stagger : Word)
  /-- SYNC_MISSED (R35): An expected sync message does not arrive; after four misses the follower enters holdover. -/
  | syncMissed
  /-- DELAY_REQ (R286): The master receives a two-way time measurement request and answers it. -/
  | delayReq (h : FabHdr) (rtt held : Nat)
  /-- DELAY_RSP (R34): The follower receives the timing answer, computes its offset and may set LOCKED. -/
  | delayRsp (h : RspHdr) (status : Nat) (own peer : Stamps)
  /-- NOT_DONE (R42): The master receives a follower's report that its work set is incomplete at this quantum end. -/
  | notDone (h : FabHdr) (course : Nat)
  /-- EXTEND (R42): A participant receives the master's decision to extend the batten by a quantum. -/
  | extend (h : FabHdr) (course : Nat)
  /-- PROCEED (R42): A participant receives the master's decision to end deferral at this quantum end. -/
  | proceed (h : FabHdr) (course : Nat)
  /-- ABORT (R287): A participant receives a domain abort for its running course and aborts it. -/
  | abortCourseMsg (h : FabHdr) (course cause : Nat)
  /-- ADDS_DONE (R287): The master receives a participant's report that all its adds are acknowledged. -/
  | addsDone (h : FabHdr) (course : Nat)
  /-- ALL_ADDS_DONE (R287): A participant learns that every add of the domain has been accepted. -/
  | allAddsDone (h : FabHdr) (course : Nat)
  /-- FOLD_BEGIN (R224): All non-fold items, chains and adds have completed and the fold of the course begins. -/
  | foldBegin
  /-- FOLD_ROW (R225): An update unit folds one touched row, running the UPD sequence of its table's program. -/
  | foldRow (u : Fin 24) (whole : Bool)
  /-- DENSE_FOLD_ITEM (R227): A unit folds a dense item in STAT, COL and UPD phases. -/
  | denseFoldItem (u : Fin 24) (whole : Bool)
  /-- FOLD_END (R23): Every unit has finished its fold; history appends and range records are written. -/
  | foldEnd
  /-- DIGEST_CAPTURE (R308): Once all course writes complete, every controller copies its region digests and the digest exchange starts. -/
  | digestCapture
  /-- DIGEST (R311): A module receives a peer's region or sub-digests and compares or bisects. -/
  | digest (h : FabHdr) (course level rank base : Nat) (entries : List (Nat × Word))
  /-- DIGEST_WAIT_TIMEOUT (R311): A peer's level-0 digests have not arrived in time and probing starts. -/
  | digestWaitTimeout (rank : Nat)
  /-- LEDGER_RECORD_WRITE (R317): The course ledger record is assembled and written; the course returns to IDLE and the lock releases. -/
  | ledgerRecordWrite
  /-- COURSE_END_POINT (R318): With the ledger off, the course reaches its end point and returns to IDLE without a record. -/
  | courseEndPoint
  /-- ABORT_COMPLETE (R36): In-flight operations of an aborted course have completed and its aborted record is written. -/
  | abortComplete
  /-- REPAIR (R315): A deviant reads differing lines from the reference rank, writes them and re-exchanges digests. -/
  | repair
  /-- COMPARE_HALT_RELEASE (R314): Clearing MISMATCH releases the next course held under the halt policy. -/
  | compareHaltRelease
  /-- BARRIER_SATISFIED (R53): A barrier is satisfied and the die signals the pending release to its power controller. -/
  | barrierSatisfied (id : Fin 256)
  /-- POWER_READY (R380): The power controller gives the ready indication for a release. -/
  | powerReady (die : Fin 8)
  /-- PWR_WAIT_TIMEOUT (R53): The wait for power readiness expires; a timeout is counted and release proceeds. -/
  | pwrWaitTimeout (die : Fin 8)
  /-- GROUP_RELEASE (R53): Cluster group k is released k x STEP cycles after readiness. -/
  | groupRelease (die k : Fin 8)
  /-- SQ_CREDIT (R48): A remote stage-queue credit return arrives at the producer. -/
  | sqCredit (h : FabHdr) (addr : Nat)
  /-- PROGRAM_START (R134): A delivered launch starts on a free cluster, loading PC, s1-s8 and the conversion context. -/
  | programStart (g : Fin 1024)
  /-- PROGRAM_COMPLETE (R137): All work issued before END has completed and the launching command completes. -/
  | programComplete (g : Fin 1024)
  /-- CC_HALT (R163): A write of HALT in dormer mode stops the control core at its next instruction boundary. -/
  | ccHalt (g : Fin 1024) (halt : Bool)
  /-- CC_STEP (R163): A write of STEP while halted in dormer mode issues one instruction. -/
  | ccStep (g : Fin 1024)
  /-- SCALAR_REGISTER_WRITE (R140): A write through the scalar window takes effect only while no tile program runs. -/
  | scalarRegisterWrite (g : Fin 1024) (n : Fin 64) (value : Word)
  /-- PROGRAM_MEMORY_WRITE (R140): A write to program memory takes effect only while no tile program runs. -/
  | programMemoryWrite (g : Fin 1024) (off : Nat) (bytes : List Byte)
  /-- NOP (R143): Tile instruction with no operation. -/
  | nop (g : Fin 1024)
  /-- ALU (R143): Integer operation on two registers. -/
  | alu (g : Fin 1024)
  /-- ALUI (R143): Integer operation on a register and a sign-extended immediate. -/
  | alui (g : Fin 1024)
  /-- LIH (R143): Loads the immediate into the high half of a register. -/
  | lih (g : Fin 1024)
  /-- FALU (R143): F32 scalar operation selected by FN. -/
  | falu (g : Fin 1024)
  /-- SSCALE (R144): Computes an S16 scale, and a zero point for U8, from scalar amax or range. -/
  | sscale (g : Fin 1024)
  /-- BR (R143): Conditional branch relative to the PC. -/
  | br (g : Fin 1024)
  /-- JAL (R143): Jump and link relative to the PC. -/
  | jal (g : Fin 1024)
  /-- JALR (R143): Jump and link to a register address. -/
  | jalr (g : Fin 1024)
  /-- LDL (R145): Loads 8 bytes from the local buffer. -/
  | ldl (g : Fin 1024)
  /-- STL (R145): Posts an 8-byte store to the local buffer. -/
  | stl (g : Fin 1024)
  /-- LDM (R145): Issues an 8-byte load from module memory. -/
  | ldm (g : Fin 1024)
  /-- LDM_RESPONSE (R145): The response of an LDM arrives and its register write completes. -/
  | ldmResponse (g : Fin 1024) (rd : Fin 64)
  /-- STM (R145): Posts an 8-byte store to module memory. -/
  | stm (g : Fin 1024)
  /-- DMA (R146): Starts a described transfer on a DMA channel after checking every byte. -/
  | dma (g : Fin 1024)
  /-- DMA_COMPLETE (R146): A channel's transfer has moved its last row. -/
  | dmaComplete (g : Fin 1024) (ch : Fin 4)
  /-- WAIT (R147): Blocks the control core until the selected operation classes complete. -/
  | wait (g : Fin 1024)
  /-- MCFG (R148): Sets panel formats, scale layouts and destination tensor id for later MMAs. -/
  | mcfg (g : Fin 1024)
  /-- MMA (R149): Issues a matrix instruction accumulating two panels into a tile. -/
  | mma (g : Fin 1024)
  /-- MMA_ARRAY_ENTRY (R112): A fetched matrix instruction enters the array when it and its tile are free. -/
  | mmaArrayEntry (g : Fin 1024)
  /-- CHUNK_PROMOTION (R116): A chunk of up to 64 K steps ends and is promoted into the tile with one rounding. -/
  | chunkPromotion (g : Fin 1024)
  /-- SEGMENT_CLOSE (R118): A plain tile's segment reaches 2^20 terms and is chained into the segment registers. -/
  | segmentClose (g : Fin 1024)
  /-- MMA_COMPLETE (R112): A matrix instruction drains and completes, freeing its tile's scoreboard. -/
  | mmaComplete (g : Fin 1024)
  /-- AUDIT_UNIT (R161): An audit unit of 64 K steps runs on the vector engine. -/
  | auditUnit (g : Fin 1024)
  /-- COMP_CHANGE (R123): A write to ACC_CTRL.COMP designates or releases compensated tiles or is rejected. -/
  | compChange (g : Fin 1024) (value : Word)
  /-- ACCUMULATOR_ACCESS (R131): An access to the accumulator window reads or writes a tile in dormer mode, or is refused outside it. -/
  | accumulatorAccess (g : Fin 1024) (off len : Nat) (data : Option (List Byte))
  /-- DORMER_ACCESS_TIMEOUT (R131): A dormer access to a busy tile waits 500 us and then fails with a gutter event. -/
  | dormerAccessTimeout (g : Fin 1024)
  /-- ACC_SEG_WRITE (R132): A dormer write to segment registers sets them and marks the course not reproducible. -/
  | accSegWrite (g : Fin 1024) (t : Fin 32) (value : Word)
  /-- VCTX (R152): Sets the vector conversion context. -/
  | vctx (g : Fin 1024)
  /-- VLD (R153): Loads 32 rows into a vector buffer, converting exactly to F32. -/
  | vld (g : Fin 1024)
  /-- VST (R153): Stores rows from a buffer to memory, rounding to the format. -/
  | vst (g : Fin 1024)
  /-- VGATHER (R153): Gathers elements by index into a buffer. -/
  | vgather (g : Fin 1024)
  /-- VSCATTER (R153): Scatters buffer elements by index in element order. -/
  | vscatter (g : Fin 1024)
  /-- VTRD (R153): Reads the readout values of a tile into a buffer. -/
  | vtrd (g : Fin 1024)
  /-- VBCAST (R153): Broadcasts a scalar into every element of a buffer. -/
  | vbcast (g : Fin 1024)
  /-- VOP (R153): Element-wise arithmetic selected by FN. -/
  | vop (g : Fin 1024)
  /-- VFN (R153): Element-wise function rounded once. -/
  | vfn (g : Fin 1024)
  /-- VCMP (R153): Sets a mask from an element-wise comparison. -/
  | vcmp (g : Fin 1024)
  /-- VMSK (R153): Computes a mask by a mask operation. -/
  | vmsk (g : Fin 1024)
  /-- VHAD (R153): Applies the 64-point rotation to each row of a buffer pair. -/
  | vhad (g : Fin 1024)
  /-- VROW (R153): Reduces each row and writes the result to every element of the row. -/
  | vrow (g : Fin 1024)
  /-- VSCALE (R153): Computes a scale, and zero point for U8, per row. -/
  | vscale (g : Fin 1024)
  /-- VSUM (R155): Reduces a buffer to a scalar summary in fixed element order. -/
  | vsum (g : Fin 1024)
  /-- VECTOR_OP_COMPLETE (R154): A vector instruction leaves the engine and the next one starts. -/
  | vectorOpComplete (g : Fin 1024)
  /-- EOB (R156): Marks the end of the issuer's items for its planned batten. -/
  | eob (g : Fin 1024)
  /-- BAR (R156): Waits at a declared barrier. -/
  | bar (g : Fin 1024)
  /-- SQPUSH (R156): Waits for a credit and pushes one entry into a stage queue. -/
  | sqpush (g : Fin 1024)
  /-- SQPOP (R156): Waits for an entry, copies it out and returns a credit. -/
  | sqpop (g : Fin 1024)
  /-- CHN (R156): Acts as this cluster's member of a chain for one tile. -/
  | chn (g : Fin 1024)
  /-- END (R137): Ends a tile program, waiting for its issued work. -/
  | endProgram (g : Fin 1024)
  /-- CHAIN_SUM (R288): A member receives a running-sum row, adds its partial and passes it on or writes DEST. -/
  | chainSum (h : FabHdr) (id member row : Nat) (sum : ChainRow)
  /-- COLL_RESULT (R290): A member receives the all-reduce result on the reverse chain and writes DEST. -/
  | collResult (h : FabHdr) (id : Nat) (chunk : CollChunk)
  /-- LINE_RESPONSE (R194): A requested row line returns to the yealm engine and its terms are accumulated. -/
  | lineResponse (die : Fin 8) (pick : Nat)
  /-- DESCRIPTOR_COMPLETE (R189): All outputs of a yealm descriptor are visible and all its adds accepted or refused. -/
  | descriptorComplete (die : Fin 8) (q : Fin 16384)
  /-- STAGE_ROWS (R204): A home engine receives rows to stage, sorts them and assigns slots. -/
  | stageRows (die : Fin 8)
  /-- STAGING_READ_ISSUE (R207): Staging reads for a row issue, after the previous fold for trained tables. -/
  | stagingReadIssue (die : Fin 8)
  /-- STAGING_COPY_DONE (R207): A row's copy into the eaves completes and its record becomes valid. -/
  | stagingCopyDone (die : Fin 8)
  /-- LOCAL_ROW_ADD (R216): An update unit receives a local row add and accepts, places or refuses it. -/
  | localRowAdd (u : Fin 24)
  /-- UPD_END (R232): Update instruction ending the sequence. -/
  | updEnd (u : Fin 24)
  /-- LDG (R232): Loads each element's gradient. -/
  | ldg (u : Fin 24)
  /-- LDW (R232): Loads each element's present master value. -/
  | ldw (u : Fin 24)
  /-- LDS (R236): Loads a state slot decoded to F32. -/
  | lds (u : Fin 24)
  /-- LDP (R232): Loads a hyperparameter broadcast. -/
  | ldp (u : Fin 24)
  /-- LDK (R232): Loads a constant such as lr', N or ROWS. -/
  | ldk (u : Fin 24)
  /-- LDCOL (R233): Loads the column sums accumulated by CACC. -/
  | ldcol (u : Fin 24)
  /-- FADD (R233): Element-wise F32 add. -/
  | fadd (u : Fin 24)
  /-- FSUB (R233): Element-wise F32 subtract. -/
  | fsub (u : Fin 24)
  /-- FMUL (R233): Element-wise F32 multiply. -/
  | fmul (u : Fin 24)
  /-- FDIV (R233): Element-wise F32 divide. -/
  | fdiv (u : Fin 24)
  /-- FMA (R233): Element-wise fused multiply-add. -/
  | fma (u : Fin 24)
  /-- FMIN (R233): Element-wise minimum. -/
  | fmin (u : Fin 24)
  /-- FMAX (R233): Element-wise maximum. -/
  | fmax (u : Fin 24)
  /-- FABS (R233): Element-wise absolute value. -/
  | fabs (u : Fin 24)
  /-- FNEG (R233): Element-wise negation. -/
  | fneg (u : Fin 24)
  /-- FSQRT (R233): Element-wise square root. -/
  | fsqrt (u : Fin 24)
  /-- FRSQRT (R233): Element-wise reciprocal square root rounded once. -/
  | frsqrt (u : Fin 24)
  /-- FSEL (R233): Element-wise selection on a positive operand. -/
  | fsel (u : Fin 24)
  /-- RSUM (R233): Row sum broadcast to every element. -/
  | rsum (u : Fin 24)
  /-- RAMAX (R233): Row amax broadcast to every element. -/
  | ramax (u : Fin 24)
  /-- CACC (R233): Adds a row to the per-column accumulators. -/
  | cacc (u : Fin 24)
  /-- STS (R236): Stores to a state slot in its format and rounding. -/
  | sts (u : Fin 24)
  /-- STW (R234): Writes the updated row, its scale and split-master residues. -/
  | stw (u : Fin 24)
  /-- MEM_READ (R243): A read request takes effect at a memory controller and is decoded by the check code. -/
  | memRead (line : Nat) (who : Req) (upset : Nat)
  /-- WRITE_BACK (R254): The corrected line is written back unless a write to the line arrived since. -/
  | writeBack (line : Nat)
  /-- MEM_WRITE (R243): A whole-line write takes effect at a controller, with digest and mirror updates. -/
  | memWrite (line : Nat) (bytes : List Byte) (by_ : Writer) (wadding : Bool)
  /-- PARTIAL_WRITE (R244): A partial write reads, corrects, merges and rewrites its line as one step. -/
  | partialWrite (line off : Nat) (bytes : List Byte) (by_ : Writer) (wadding : Bool)
  /-- CHANNEL_ISSUE (R242): A controller issues a queued request to a channel, oldest ready first. -/
  | channelIssue (chan : Fin 2176) (pick : Nat)
  /-- REFRESH (R264): A refresh falls due and is performed on its bank. -/
  | refresh (chan : Fin 2176) (bank : Fin 64) (mr4 : Nat)
  /-- DIGEST_SCAN_END (R305): A region's digest scan ends and the region becomes valid or stays invalid. -/
  | digestScanEnd (region : Nat)
  /-- DKEY_WRITE (R305): A write to LDG_DKEY rescans every enabled region. -/
  | dkeyWrite (die : Fin 8) (value : Word)
  /-- MOVE_ITEM (R174): A scheduled move item starts copying a shard. -/
  | moveItem (item : Nat)
  /-- MOVE_COPY_END (R176): Copying of a shard's ranges ends. -/
  | moveCopyEnd (table shard : Nat)
  /-- MOVE_FORWARD_CLOSE (R177): The forwarding window closes; STATE becomes resident and the move completes. -/
  | moveForwardClose (table shard : Nat)
  /-- STREAM_ROW_WRITE (R181): A row of a streaming batch is written atomically with its residue cleared. -/
  | streamRowWrite
  /-- FLIT_RECEIVE (R269): A Jefort flit arrives; a CRC failure discards it and requests replay. -/
  | flitReceive (port : Fin 32) (f : Flit) (fec : Nat) (crcOk : Bool)
  /-- REPLAY_REQUEST (R269): A sender receives a replay request and replays from that flit. -/
  | replayRequest (port : Fin 32) (seq : Nat)
  /-- FEC_LOCK_LOSS (R269): FEC lock has been lost for 1 us and the link goes down. -/
  | fecLockLoss (port : Fin 32)
  /-- LINK_TRAINING_END (R270): A port ends training with an IDENT exchange and comes up or is miswired. -/
  | linkTrainingEnd (port : Fin 32) (ok : Bool) (strap : Fin 4) (maxver dev : Nat) (valid : Bool) (peerPort : Fin 32) (slot : Fin 4)
  /-- PORT_RETRAIN (R297): A write of RETRAIN takes the link down and retrains it. -/
  | portRetrain (port : Fin 32) (value : Word)
  /-- READ (R276): A target serves a fabric read of up to 4 KiB. -/
  | read (h : FabHdr) (addr len : Nat)
  /-- STORE (R276): A target serves a fabric store with byte mask. -/
  | store (h : FabHdr) (addr : Nat) (data : List (Byte × Bool))
  /-- ATOMIC_W96 (R277): A target adds W96 accumulators into containers at memory. -/
  | atomicW96 (h : FabHdr) (addr : Nat) (accs : List Nat)
  /-- ROW_ADD (R277): A target update unit receives a remote row add. -/
  | rowAdd (h : FabHdr) (table row count : Nat) (accs : List Nat)
  /-- YEALM_REQ (R278): A target yealm engine serves a remote row request. -/
  | yealmReq (h : FabHdr) (table : Nat) (rows : List Nat)
  /-- READ_RSP (R276): A source receives the data of a fabric read. -/
  | readRsp (h : RspHdr) (status : Nat) (unc : Bool) (bytes : List Byte)
  /-- ACK (R276): A source receives the acknowledgement of a store, atomic or control message. -/
  | ack (h : RspHdr) (status : Nat)
  /-- YEALM_RSP (R278): A requesting engine receives row payloads and shard versions. -/
  | yealmRsp (h : RspHdr) (status : Nat) (unc : Bool) (bytes : List Byte) (shards : List (Nat × Nat × Nat))
  /-- PROBE (R283): A module receives a probe and answers it. -/
  | probe (port : Fin 32) (src tag : Nat)
  /-- PROBE_RSP (R283): A probing module receives a probe answer and ends probing. -/
  | probeRsp (port : Fin 32) (src rtt : Nat)
  /-- IDENT (R273): A module receives a bring-up identity request and answers it. -/
  | ident (port : Fin 32) (src tag : Nat) (strap : Fin 4)
  /-- IDENT_RSP (R273): A module receives a peer's identity answer. -/
  | identRsp (port : Fin 32) (tag dev : Nat) (valid : Bool) (peerPort : Fin 32) (slot : Fin 4)
  /-- REQ_TIMEOUT_EXPIRY (R282): A request has had no response in REQ_TIMEOUT; it is reissued or completes with TIMEOUT. -/
  | reqTimeoutExpiry (tag : Nat)
  /-- PROBE_WAIT_EXPIRY (R283): A wait for a peer exceeds PROBE_US with nothing received and probing starts. -/
  | probeWaitExpiry (dev : Fin 2048)
  /-- PROBE_ROUND (R283): A probe round is sent; after LOSS_COUNT unanswered rounds the peer is lost. -/
  | probeRound (dev : Fin 2048)
  /-- LEVEL_PROBE (R291): Every 1,000 battens one probe per port measures level round trips. -/
  | levelProbe
  /-- JFL_LOST_CLEAR (R285): Writing 1 to a JFL_LOST bit readmits the device. -/
  | jflLostClear (word : Fin 32) (mask : Word)
  /-- RESPONDER_RDMA_WRITE (R295): An ingest port receives an RDMA WRITE and checks it against its memory region. -/
  | responderRdmaWrite (h : RoceHdr) (rkey va : Nat) (data : List Byte)
  /-- RESPONDER_WRITE_WITH_IMMEDIATE (R296): An RDMA WRITE with immediate arrives and a completion is written to the bound queue. -/
  | responderWriteWithImmediate (h : RoceHdr) (rkey va : Nat) (data : List Byte) (imm : Nat)
  /-- RESPONDER_RDMA_READ (R294): An ingest port serves an RDMA READ request. -/
  | responderRdmaRead (h : RoceHdr) (rkey va len : Nat)
  /-- ROCE_ACK (R294): A requester queue pair receives an ACK or NAK. -/
  | roceAck (port : Fin 2) (dest : QpFrame) (psn : Nat) (nak : Option Nat)
  /-- ROCE_ACK_TIMEOUT (R294): A queue pair's ACK timeout expires and go-back-N retransmission starts. -/
  | roceAckTimeout (port : Fin 2) (qp : Fin 1024)
  /-- CNP (R294): A congestion notification arrives and halves the queue pair's send rate. -/
  | cnp (port : Fin 2) (dest : QpFrame)
  /-- RATE_RESTORE (R294): A queue pair's send rate is restored stepwise over 55 us. -/
  | rateRestore (port : Fin 2) (qp : Fin 1024) (rate : Rat)
  /-- HOST_WRITE (R331): A posted write from the host through BAR0 takes effect in PCIe order. -/
  | hostWrite (addr : Nat) (bytes : List Byte) (poison : Bool)
  /-- HOST_READ (R332): A host read is ordered behind posted writes and answered within 1 ms. -/
  | hostRead (addr len : Nat)
  /-- DOORBELL (R333): A plain doorbell sets SQ_TAIL or CQ_HEAD on arrival. -/
  | doorbell (q : Fin 16384) (head : Bool) (value : Nat)
  /-- FENCED_DOORBELL (R333): A fenced doorbell takes effect after earlier posted writes. -/
  | fencedDoorbell (q : Fin 16384) (head : Bool) (value drain : Nat)
  /-- QP_QDB_WRITE (R333): A write to QP_QDB acts as a plain doorbell. -/
  | qpQdbWrite (q : Fin 16384) (value : Word)
  /-- QUEUE_ARM (R338): Writing ARM = 1 arms a queue and sets QEPOCH, or is refused. -/
  | queueArm (q : Fin 16384) (value : Word)
  /-- QUEUE_DISARM (R338): Writing ARM = 0 disarms a queue. -/
  | queueDisarm (q : Fin 16384) (value : Word)
  /-- PACKET_TAKE (R334): A queue processor takes the next packet, checks it and starts the command. -/
  | packetTake (q : Fin 16384) (ring : HostAns)
  /-- PACKET_REREAD (R334): An invalid packet is re-read after 250 ns; after 2 us it is a torn packet. -/
  | packetReread (q : Fin 16384) (ring : HostAns)
  /-- COMPLETION_RECORD (R343): A completed command's record is written when the CQ has room, then its MSI-X. -/
  | completionRecord (q : Fin 16384)
  /-- HOST_LINK_DOWN (R336): The host link goes down; HIF_EPOCH increments and host-ring queues suspend. -/
  | hostLinkDown
  /-- PERST (R337): PERST# is asserted with the effect of the configured scope. -/
  | perst
  /-- HOT_RESET (R337): A hot reset arrives with the effect of the configured scope. -/
  | hotReset
  /-- LINK_DISABLE (R337): A link disable arrives with the effect of the configured scope. -/
  | linkDisable
  /-- FUNCTION_LEVEL_RESET (R337): A function level reset disarms queues and aborts the course. -/
  | functionLevelReset
  /-- HOST_LINK_TRAIN (R327): The host link trains for PCIe or CXL. -/
  | hostLinkTrain (cxl : Bool) (speed width : Nat)
  /-- CXL_MEM_REQUEST (R328): A host CXL.mem request is served, flipping a device-owned page to shared. -/
  | cxlMemRequest (line : Nat) (data : Option (List Byte))
  /-- CMD_NOP (R347): Command that does nothing and completes. -/
  | cmdNop (q : Fin 16384) (seq : Nat)
  /-- GET_INTERFACE (R344): Negotiates the queue's interface version. -/
  | getInterface (q : Fin 16384) (seq : Nat)
  /-- LAUNCH (R348): Launches a tile program on a cluster. -/
  | launch (q : Fin 16384) (seq : Nat)
  /-- ABORT_COURSE (R349): Aborts an ARMED or RUNNING course. -/
  | abortCourse (q : Fin 16384) (seq : Nat)
  /-- COURSE_LOAD (R349): Checks and arms a course program. -/
  | courseLoad (q : Fin 16384) (seq : Nat) (prog : Option CourseProgram)
  /-- COURSE_WAIT (R349): Waits for a course's record or end point. -/
  | courseWait (q : Fin 16384) (seq : Nat)
  /-- DMA_COPY (R350): Copies bytes between module and host memory. -/
  | dmaCopy (q : Fin 16384) (seq : Nat)
  /-- DMA_FILL (R350): Fills a range with an 8-byte pattern. -/
  | dmaFill (q : Fin 16384) (seq : Nat)
  /-- RDMA_WRITE (R294): Issues an RDMA WRITE as requester. -/
  | rdmaWrite (q : Fin 16384) (seq : Nat)
  /-- RDMA_READ (R294): Issues an RDMA READ as requester. -/
  | rdmaRead (q : Fin 16384) (seq : Nat)
  /-- MR_REGISTER (R295): Registers a memory region and returns an rkey. -/
  | mrRegister (q : Fin 16384) (seq : Nat)
  /-- MR_DEREGISTER (R295): Removes a memory region. -/
  | mrDeregister (q : Fin 16384) (seq : Nat)
  /-- ROCE_QP_SET (R294): Sets the context of a RoCEv2 queue pair. -/
  | roceQpSet (q : Fin 16384) (seq : Nat) (ctx : QpContext)
  /-- BIAS_SET (R328): Changes the bias of a range of HDM pages. -/
  | biasSet (q : Fin 16384) (seq : Nat)
  /-- TABLE_DIRECTORY (R164): Places the table directory and rewrites defined tables there. -/
  | tableDirectory (q : Fin 16384) (seq : Nat)
  /-- TABLE_DEFINE (R165): Checks and defines a table with its shard list. -/
  | tableDefine (q : Fin 16384) (seq : Nat)
  /-- TABLE_DELETE (R165): Clears VALID of a defined table. -/
  | tableDelete (q : Fin 16384) (seq : Nat)
  /-- SHARD_MOVE (R174): Starts a move of a shard within the module. -/
  | shardMove (q : Fin 16384) (seq : Nat)
  /-- EAVES_DEFINE (R185): Defines each die's eaves. -/
  | eavesDefine (q : Fin 16384) (seq : Nat)
  /-- YLM_RUN (R187): Runs a yealm descriptor on the owning die's engine. -/
  | ylmRun (q : Fin 16384) (seq : Nat)
  /-- YLM_PREFETCH (R204): Plans and stages the next course's bulk rows into the eaves. -/
  | ylmPrefetch (q : Fin 16384) (seq : Nat)
  /-- UPD_PROGRAM (R229): Checks and loads an update program slot. -/
  | updProgram (q : Fin 16384) (seq : Nat)
  /-- UPD_BIND (R231): Writes a table's update binding. -/
  | updBind (q : Fin 16384) (seq : Nat)
  /-- TABLE_FLIP (R180): Schedules a snapshot flip between courses. -/
  | tableFlip (q : Fin 16384) (seq : Nat)
  /-- STREAM_BATCH (R181): Schedules a streaming batch of rows. -/
  | streamBatch (q : Fin 16384) (seq : Nat)
  /-- COLLECTIVE (R289): Runs a chain collective over module buffers. -/
  | collective (q : Fin 16384) (seq : Nat)
  /-- FABRIC_COPY (R347): Copies bytes between fabric addresses. -/
  | fabricCopy (q : Fin 16384) (seq : Nat)
  /-- FABRIC_IDENT (R347): Returns JFL_PSTATUS of a port. -/
  | fabricIdent (q : Fin 16384) (seq : Nat)
  /-- DIGEST_ENABLE (R305): Enables region digests and scans them. -/
  | digestEnable (q : Fin 16384) (seq : Nat)
  /-- DIGEST_DISABLE (R305): Disables region digests. -/
  | digestDisable (q : Fin 16384) (seq : Nat)
  /-- LDG_SUBDIGEST (R309): Writes the sub-digests of a unit. -/
  | ldgSubdigest (q : Fin 16384) (seq : Nat)
  /-- LDG_RANGE_DIGEST (R309): Computes the list digest of a range. -/
  | ldgRangeDigest (q : Fin 16384) (seq : Nat)
  /-- LDG_TABLE_DIGEST (R309): Computes placement-independent digests of a table. -/
  | ldgTableDigest (q : Fin 16384) (seq : Nat)
  /-- LOAD_HINT (R378): Announces a heavy phase to the power controllers. -/
  | loadHint (q : Fin 16384) (seq : Nat)
  /-- POWER_CAP (R377): Sets the module power cap. -/
  | powerCap (q : Fin 16384) (seq : Nat)
  /-- GUT_FREEZE (R415): Stops the gutter rings from taking records. -/
  | gutFreeze (q : Fin 16384) (seq : Nat)
  /-- GUT_THAW (R415): Restarts recording and writes held records. -/
  | gutThaw (q : Fin 16384) (seq : Nat)
  /-- GUT_COPY (R416): Copies the newest records of a ring. -/
  | gutCopy (q : Fin 16384) (seq : Nat)
  /-- GUT_FILTER (R417): Loads the gutter filter table. -/
  | gutFilter (q : Fin 16384) (seq : Nat)
  /-- ATTEST (R404): Writes a signed attestation report. -/
  | attest (q : Fin 16384) (seq : Nat)
  /-- DORMER_UNLOCK (R402): Checks a dormer token and enters dormer mode. -/
  | dormerUnlock (q : Fin 16384) (seq : Nat)
  /-- DORMER_LOCK (R403): Ends dormer mode. -/
  | dormerLock (q : Fin 16384) (seq : Nat)
  /-- MEASUREMENTS (R404): Writes the eight measurement registers. -/
  | measurements (q : Fin 16384) (seq : Nat)
  /-- DORMER_EXPIRY (R403): The token's duration has passed and dormer mode ends. -/
  | dormerExpiry
  /-- SETTINGS_COMMIT (R401): COMMIT snapshots staging and starts writing a new settings block. -/
  | settingsCommit
  /-- SETTINGS_REVERT (R401): REVERT reloads staging from the block in force. -/
  | settingsRevert
  /-- COMMIT_DONE (R401): The last page of a committed block is written and it is in force. -/
  | commitDone (ok : Bool)
  /-- STATUS (R398): Soffit message returning security and firmware status. -/
  | status (crcOk : Bool)
  /-- INTAKE_BEGIN (R398): Soffit message erasing the non-booted bank for intake. -/
  | intakeBegin (crcOk uart : Bool)
  /-- INTAKE_DATA (R398): Soffit message writing the next image chunk. -/
  | intakeData (crcOk : Bool) (off : Nat) (bytes : List Byte)
  /-- INTAKE_END (R398): Soffit message checking the header and length of the intake. -/
  | intakeEnd (crcOk : Bool)
  /-- ACTIVATE (R398): Soffit message setting TRIAL and starting a module reset. -/
  | activate (crcOk force : Bool)
  /-- RESET (R398): Soffit message starting a module reset. -/
  | reset (crcOk : Bool)
  /-- GUT_READ (R416): Soffit message returning NV ring records. -/
  | gutRead (crcOk : Bool) (start count : Nat)
  /-- POWER_ON (R358): The 48 V input is applied and supply qualification begins. -/
  | powerOn
  /-- SUPPLY_QUALIFIED (R358): The input has stayed at or above 42 V for 10 ms and rails ramp. -/
  | supplyQualified
  /-- POWER_GOOD (R358): Every die reports power-good and the boot ROM starts. -/
  | powerGood
  /-- ROM_BOOT (R396): The ROM reads the trip latch, selects and verifies a firmware bank. -/
  | romBoot
  /-- DIE_BRING_UP (R358): Die links train, firmware loads into all dies and the timebase is released. -/
  | dieBringUp (bad : Option (Fin 8))
  /-- SETTINGS_READ (R360): The settings block is read, migrated if needed and the epoch written to flash. -/
  | settingsRead (fresh : List Nat)
  /-- CHANNEL_TRAINING_ROUND (R361): A round of channel training ends and the next round or a retry begins. -/
  | channelTrainingRound (ctl : Fin 24) (bad : List Nat)
  /-- STACK_FILL (R362): A trained stack or package is zero-filled and enters service. -/
  | stackFill (dev : Fin 48)
  /-- SERVICES_START (R358): Queue processors and engines start and cluster memories are zeroed. -/
  | servicesStart
  /-- READY (R368): The module becomes ready and records CFG_MEMSTATE. -/
  | ready
  /-- MODULE_RESET (R364): A module reset drains controllers into self-refresh and restarts at S1. -/
  | moduleReset (cause : Nat)
  /-- CHANNEL_RESTORE (R365): After a module reset a channel leaves self-refresh and retrains once. -/
  | channelRestore (chan : Fin 2176) (ok : Bool)
  /-- WATCHDOG_EXPIRY (R356): Queue-processor firmware has not served its watchdog for 500 ms. -/
  | watchdogExpiry (die : Fin 8)
  /-- INPUT_SAMPLE (R374): Die 0 measures input power every 1 us. -/
  | inputSample (mv ma : Nat)
  /-- BUDGET_UPDATE (R375): Every 10 us die 0 sets per-die budgets and dies adjust issue duty. -/
  | budgetUpdate (b : List DieBudget)
  /-- CAP_STEP (R375): Every 100 us under duty throttling the cap request moves one step higher. -/
  | capStep (die : Fin 8) (duty : Nat)
  /-- CAP_RELAX (R375): Every 1 ms below 95 % of budget the cap request moves one step lower. -/
  | capRelax (die : Fin 8)
  /-- VF_STEP_CHANGE (R372): A die's V/F step change completes its voltage slew and frequency change. -/
  | vfStepChange (die : Fin 8)
  /-- GRANT_REQUEST (R380): Die 0 grants a die's expected power, lowering duties if needed. -/
  | grantRequest (die : Fin 8) (matrix memory : Nat)
  /-- HINT_LEAD (R380): START minus LEAD_US is reached and preparation for a hint begins. -/
  | hintLead (die : Fin 8)
  /-- HINT_HOLD_END (R380): HOLD_US after release ends and the guard slews back. -/
  | hintHoldEnd (die : Fin 8)
  /-- HINT_EXPIRY (R378): A hint's duration ends and policy entry 0 applies. -/
  | hintExpiry (die : Fin 8)
  /-- PWR_COEF_WRITE (R388): A coefficient write applies from the next batten. -/
  | pwrCoefWrite (die : Fin 8) (k : Fin 16) (value : Word)
  /-- PWR_POLICY_WRITE (R379): A policy entry write in IDLE is copied to all dies at the next tick. -/
  | pwrPolicyWrite (die : Fin 8) (cls : Fin 16) (value : Word)
  /-- PWR_CAP_WRITE (R377): Writing PWR_CAP sets the cap as POWER_CAP does. -/
  | pwrCapWrite (die : Fin 8) (value : Word)
  /-- DROOP_DETECT (R381): A group's rail falls below DROOP_MV and its clock period doubles. -/
  | droopDetect (die group : Fin 8)
  /-- DROOP_RECOVER (R381): 16 cycles after the rail recovers the group's clock returns to normal. -/
  | droopRecover (die group : Fin 8) (cycles : Nat)
  /-- THERMAL_SAMPLE (R382): Every 10 us a die reads its junction sensors. -/
  | thermalSample (die : Fin 8) (temps : List Int)
  /-- THERMAL_STEP (R382): Every 100 us at or above THROTTLE_C the thermal request or duty throttles further. -/
  | thermalStep (die : Fin 8)
  /-- THERMAL_RELAX (R382): Every 1 ms below THROTTLE_C - 3 C one throttle action is undone. -/
  | thermalRelax (die : Fin 8)
  /-- TRIP (R383): A trip sensor reaches 115 C; power-stage enable is removed and the trip latched. -/
  | trip (die : Fin 8) (temp : Nat)
  /-- SAG_BEGIN (R384): Input falls below 41 V; NV writes are inhibited and every die steps up. -/
  | sagBegin (mv : Nat)
  /-- SAG_END (R384): Input has held at or above 42 V for 10 ms; NV writes resume. -/
  | sagEnd
  /-- SUPPLY_COLLAPSE (R386): Input falls below 38 V; clocks stop and a power-on reset follows. -/
  | supplyCollapse (mv : Nat)
  /-- OVERVOLTAGE (R384): Input rises above 62 V and the power stage switches off. -/
  | overvoltage (mv : Nat)
  /-- OVERVOLTAGE_CLEAR (R384): Input returns below 60 V and the module starts as after power-on. -/
  | overvoltageClear (mv : Nat)
  /-- FLASH_PAGE_DONE (R385): A flash page program or erase completes. -/
  | flashPageDone
  /-- GUTTER_EVENT (R410): A block raises an event that passes or is refused by its token bucket. -/
  | gutterEvent (die : Fin 8) (code payload : Nat)
  /-- GUTTER_DRAIN (R412): A slice drains a record from its intake queue into its RAM ring, folding repeats. -/
  | gutterDrain (die : Fin 8)
  /-- FOLD_WINDOW_CLOSE (R411): A record's fold window closes and NV-bound records are queued. -/
  | foldWindowClose (die : Fin 8)
  /-- DROP_REPORT (R412): One second after a drop report, another is recorded if records were dropped. -/
  | dropReport (die : Fin 8)
  /-- NV_PAGE_PROGRAM (R414): The master programs four queued records into the NV ring. -/
  | nvPageProgram (firstOk secondOk : Bool)
  /-- SECTOR_ERASE (R414): The master erases the sector ahead of the NV write pointer. -/
  | sectorErase
  /-- FREEZE_TIMEOUT (R415): A freeze has lasted 10 s and recording restarts. -/
  | freezeTimeout
  /-- OPSEC_ADVANCE (R408): An operating second passes; at multiples of 3,600 a checkpoint is written. -/
  | opsecAdvance
  /-- STAGE_QUEUE_COPY_COMPLETE (R48): The copy of one stage-queue entry by SQPUSH or SQPOP completes; the entry becomes poppable or its credit is returned, and WAIT bit 6 can release. -/
  | stageQueueCopyComplete (g : Fin 1024)
  /-- HOST_MEMORY_READ_COMPLETION (R350): A completion for a read that the A8 made of host memory arrives, carrying data, an error or poison. -/
  | hostMemoryReadCompletion (q : Fin 16384) (seq : Nat) (ans : HostAns)
  /-- HOST_COMPLETION_TIMEOUT (R350): A read that the A8 made of host memory gets no completion in time; the command ends with HOST_ERROR detail 3 and CPL_TIMEOUT counts. -/
  | hostCompletionTimeout (q : Fin 16384) (seq : Nat)
  /-- CXL_CACHE_RESPONSE (R328): The host answers a CXL.cache request, letting a shared-page access or a page recall of BIAS_SET proceed. -/
  | cxlCacheResponse (page : Nat)
  /-- CONFIGURATION_ACCESS (R325): A host configuration request assigns BARs, sets D0 or D3hot, or enables MSI-X, which changes whether the BARs decode. -/
  | configurationAccess (req : ConfigReq)
  /-- INGEST_LINK_STATE_CHANGE (R298): An ingest port gains or loses FEC lock or link, changing LINK_UP and FEC_LOCK. -/
  | ingestLinkStateChange (port : Fin 2) (up fec : Bool)
  /-- TRANSCEIVER_PRESENCE_CHANGE (R298): A transceiver is inserted into or removed from an OSFP cage, changing MODULE_PRESENT. -/
  | transceiverPresenceChange (port : Fin 2) (present : Bool)
  /-- RDMA_READ_RESPONSE (R294): A requester queue pair receives RDMA READ response packets and writes their data into module memory. -/
  | rdmaReadResponse (port : Fin 2) (dest : QpFrame) (psn : Nat) (bytes : List Byte)
  /-- PRIORITY_FLOW_CONTROL_FRAME (R293): An ingest port receives a priority flow control frame for PFC_PRIO and pauses or resumes sending on that priority. -/
  | priorityFlowControlFrame (port : Fin 2) (prio : Fin 8) (pause : Bool)
  /-- HINT_START (R378): A hint's START time is reached, and its policy entry and FLOOR come into force on the named dies. -/
  | hintStart (die : Fin 8)
  deriving DecidableEq, Repr

end Sys2Proof
end

