-- ==== Sys2Proof/Decode.lean ====
section
/-! DEFINITION. The block takes commands, and the table gives their rows no bits: no word spells a command. -/
namespace Sys2Proof

/-- The command that a word spells by the bits of spec/opcode_table.json; the table gives no row bits. -/
def decodeTableWord (_nbits _w : Nat) : Option Instr := none

end Sys2Proof
end

