-- ==== Sys2Proof/Machine/Num.lean ====
section
/-! DEFINITION. Number formats, rounding and F32 arithmetic of 03_number_formats_and_rounding.md (R55 to R85, R433).
Values are exact rationals with a sign kept apart, so that every rounding happens once. -/
namespace Sys2Proof.Machine

/-- The events of R77, in the order of priority (non-finite, saturation, underflow). -/
inductive Ev | nonfin | sat | ufl
  deriving DecidableEq, Repr

/-- At most one event per element (R77). -/
abbrev Evt := Option Ev

/-- The event that counts when several cases apply (R77). -/
def worst (a b : Evt) : Evt :=
  match a, b with
  | some .nonfin, _ => some .nonfin
  | _, some .nonfin => some .nonfin
  | some .sat, _ => some .sat
  | _, some .sat => some .sat
  | some .ufl, _ => some .ufl
  | none, e => e

/-- The formats of Table 3.1. -/
inductive Fmt | f32 | bf16 | f16 | f8a | f8b | i8 | u8 | w96 | s16
  deriving DecidableEq, Repr

/-- FMT codes of Table 3.1; 0x9 to 0xF are reserved (R55). -/
def fmtOfCode (c : Nat) : Option Fmt :=
  match c with
  | 0 => some .f32 | 1 => some .bf16 | 2 => some .f16 | 3 => some .f8a | 4 => some .f8b
  | 5 => some .i8 | 6 => some .u8 | 7 => some .w96 | 8 => some .s16 | _ => none

/-- Bytes of one element of a format (R57 to R61; W96 by its container, R64). -/
def Fmt.bytes : Fmt → Nat
  | .f32 => 4 | .bf16 => 2 | .f16 => 2 | .f8a => 1 | .f8b => 1 | .i8 => 1 | .u8 => 1 | .w96 => 16 | .s16 => 2

/-- The formats that carry a scale (Table 4.1). -/
def Fmt.scaled : Fmt → Bool
  | .f8a | .f8b | .i8 | .u8 => true
  | _ => false

/-- Shape of a floating format (Table 3.2, R57, R58). -/
structure FSpec where
  ebits : Nat
  fbits : Nat
  bias : Nat
  hasInf : Bool
  deriving DecidableEq, Repr

def specF32 : FSpec := ⟨8, 23, 127, true⟩
def specBF16 : FSpec := ⟨8, 7, 127, true⟩
def specF16 : FSpec := ⟨5, 10, 15, true⟩
def specF8a : FSpec := ⟨4, 3, 7, false⟩
def specF8b : FSpec := ⟨5, 2, 15, false⟩

/-- The float shape of a format, none for the integer formats. -/
def Fmt.spec : Fmt → Option FSpec
  | .f32 => some specF32 | .bf16 => some specBF16 | .s16 => some specBF16 | .f16 => some specF16
  | .f8a => some specF8a | .f8b => some specF8b | _ => none

/-- 2 to the power e, exactly. -/
def pow2 (e : Int) : Rat :=
  if 0 ≤ e then ((2 ^ e.toNat : Nat) : Rat) else mkRat 1 (2 ^ (-e).toNat)

/-- Floor of log2 of a positive rational. -/
def ilog2 (r : Rat) : Int :=
  let e : Int := (Nat.log2 r.num.toNat : Int) - (Nat.log2 r.den : Int)
  if r < pow2 e then e - 1 else if pow2 (e + 1) ≤ r then e + 1 else e

/-- Floor of a non-negative rational. -/
def floorNat (r : Rat) : Nat := r.num.toNat / r.den

/-- Magnitude rounded half away from zero to an integer (R69). -/
def rnaNat (m : Rat) : Nat := floorNat (m + mkRat 1 2)

/-- Signed RNA to an integer (R69). -/
def rnaInt (x : Rat) : Int :=
  if x < 0 then - (rnaNat (-x) : Int) else (rnaNat x : Int)

/-- A decoded value: magnitude and sign apart, so that -0 keeps its sign (R73). -/
inductive FV
  | nan
  | inf (neg : Bool)
  | fin (neg : Bool) (m : Rat)
  deriving DecidableEq, Repr

/-- The signed rational of a finite value; 0 for the others. -/
def FV.val : FV → Rat
  | .fin true m => -m
  | .fin false m => m
  | _ => 0

def FV.neg : FV → Bool
  | .fin n _ => n
  | .inf n => n
  | .nan => false

/-- True for NaN and infinity. -/
def FV.nonfinite : FV → Bool
  | .fin _ _ => false
  | _ => true

/-- Largest finite value (Table 3.2; every code of F8a and F8b is finite, Tables 3.3 and 3.4). -/
def FSpec.maxFin (s : FSpec) : Rat :=
  let top : Nat := if s.hasInf then 2 ^ s.ebits - 2 else 2 ^ s.ebits - 1
  ((2 ^ (s.fbits + 1) - 1 : Nat) : Rat) * pow2 ((top : Int) - s.bias - s.fbits)

/-- Decode of a code of a floating format (R56 to R58). -/
def decodeFloat (s : FSpec) (code : Nat) : FV :=
  let frac := code % 2 ^ s.fbits
  let e := code / 2 ^ s.fbits % 2 ^ s.ebits
  let neg := code / 2 ^ (s.fbits + s.ebits) % 2 == 1
  if s.hasInf && e == 2 ^ s.ebits - 1 then
    if frac = 0 then .inf neg else .nan
  else if e = 0 then .fin neg ((frac : Rat) * pow2 (1 - (s.bias : Int) - s.fbits))
  else .fin neg (((2 ^ s.fbits + frac : Nat) : Rat) * pow2 ((e : Int) - s.bias - s.fbits))

/-- Exponent of the spacing of representable values at magnitude m > 0 (subnormals included, R56). -/
def FSpec.quantum (s : FSpec) (m : Rat) : Int :=
  max (ilog2 m) (1 - (s.bias : Int)) - s.fbits

/-- Code of a magnitude that is representable and at most the largest finite value. -/
def FSpec.encode (s : FSpec) (neg : Bool) (m : Rat) : Nat :=
  let sgn := if neg then 2 ^ (s.fbits + s.ebits) else 0
  if m = 0 then sgn
  else
    let q := s.quantum m
    let sig := floorNat (m * pow2 (-q))
    if sig < 2 ^ s.fbits then sgn + sig
    else sgn + (((q + s.fbits + s.bias).toNat) * 2 ^ s.fbits + (sig - 2 ^ s.fbits))

def FSpec.infCode (s : FSpec) (neg : Bool) : Nat :=
  (if neg then 2 ^ (s.fbits + s.ebits) else 0) + (2 ^ s.ebits - 1) * 2 ^ s.fbits

/-- The canonical quiet NaN (R76). -/
def FSpec.nanCode (s : FSpec) : Nat :=
  (2 ^ s.ebits - 1) * 2 ^ s.fbits + 2 ^ (s.fbits - 1)

/-- A rounding choice of an operation: RNA, or SR with the word's bits [63:32] (R69, R81). -/
inductive Rnd
  | rna
  | sr (u : Nat)
  deriving DecidableEq, Repr

/-- Rounding of a non-negative magnitude, in units of the grid, to an integer count of units (R69, R81). -/
def roundUnits (r : Rnd) (y : Rat) : Nat :=
  match r with
  | .rna => rnaNat y
  | .sr u =>
    let lo := floorNat y
    let f := floorNat ((y - (lo : Rat)) * ((2 ^ 32 : Nat) : Rat))
    if u < f then lo + 1 else lo

/-- One rounding of an exact signed value into a floating format (R69 to R73, R76, R81). -/
def roundFloat (s : FSpec) (ieee : Bool) (r : Rnd) (neg : Bool) (m : Rat) : Nat × Evt :=
  if m = 0 then (s.encode neg 0, none)
  else if s.maxFin < m then
    if ieee && s.hasInf then
      let q := s.quantum m
      let m' := (rnaNat (m * pow2 (-q)) : Rat) * pow2 q
      if s.maxFin < m' then (s.infCode neg, some .sat) else (s.encode neg s.maxFin, some .sat)
    else (s.encode neg s.maxFin, some .sat)
  else
    let q := s.quantum m
    let n := roundUnits r (m * pow2 (-q))
    (s.encode neg ((n : Rat) * pow2 q), if n = 0 then some .ufl else none)

/-- Decode of an F32 pattern. -/
def dec32 (a : F32) : FV := decodeFloat specF32 a.toNat

/-- One RNA rounding to F32 (R70). -/
def rna32 (ieee neg : Bool) (m : Rat) : F32 × Evt :=
  let p := roundFloat specF32 ieee .rna neg m
  (BitVec.ofNat 32 p.1, p.2)

/-- RNA of a signed exact value to F32; `zneg` is the sign that an exact zero takes (R73). -/
def rna32s (ieee : Bool) (zneg : Bool) (x : Rat) : F32 × Evt :=
  if x = 0 then rna32 ieee zneg 0
  else if x < 0 then rna32 ieee true (-x) else rna32 ieee false x

def maxF32 : F32 := 0x7F7FFFFF#32
def nan32 : F32 := 0x7FC00000#32
def inf32 (neg : Bool) : F32 := if neg then 0xFF800000#32 else 0x7F800000#32
def max32 (neg : Bool) : F32 := if neg then 0xFF7FFFFF#32 else 0x7F7FFFFF#32
def zero32 (neg : Bool) : F32 := if neg then 0x80000000#32 else 0#32
def one32 : F32 := 0x3F800000#32

/-- Replacement of a non-finite operand under saturating numerics (Table 3.7). `big` is the largest finite value
of the operand's own format. -/
def replaceNonfin (big : Rat) (v : FV) : FV × Evt :=
  match v with
  | .nan => (.fin false 0, some .nonfin)
  | .inf n => (.fin n big, some .nonfin)
  | .fin n m => (.fin n m, none)

/-- The F32 operations that the A8 names: FALU, VOP, VFN and the update units share them (R143, R153, R233). -/
inductive FOp
  | add | sub | mul | div | sqrt | rsqrt | recip | fma | min | max | abs | neg
  | exp2 | log2 | tanh | exp | sigmoid
  deriving DecidableEq, Repr

/-- Number of operands of an operation. -/
def FOp.arity : FOp → Nat
  | .add | .sub | .mul | .div | .min | .max => 2
  | .fma => 3
  | _ => 1

/-! ### Functions whose exact value is irrational

A value is enclosed by integer arithmetic with 320 fraction bits; every F32 rounding is decided far above that
grid (assumption log 13). -/

/-- Fraction bits of the fixed-point evaluation. -/
def fxBits : Nat := 320

/-- The fixed-point unit. -/
def fxOne : Int := 2 ^ fxBits

def fxMul (a b : Int) : Int := a * b / fxOne

/-- Fixed-point floor of a rational. -/
def fxOfRat (r : Rat) : Int := r.num * fxOne / (r.den : Int)

def fxToRat (a : Int) : Rat := mkRat a (2 ^ fxBits)

/-- Sum of the exponential series, terms k+1 onward, `t` the k-th term. -/
def fxExpTail (y : Int) : (fuel k : Nat) → (t : Int) → Int
  | 0, _, _ => 0
  | fuel + 1, k, t =>
    let t' := fxMul t y / ((k : Int) + 1)
    t' + fxExpTail y fuel (k + 1) t'

/-- e to the power y for |y| below 1. -/
def fxExp (y : Int) : Int := fxOne + fxExpTail y 90 0 fxOne

/-- Odd powers series of the inverse hyperbolic tangent, `p` the current power. -/
def fxAtanhTail (z2 : Int) : (fuel k : Nat) → (p : Int) → Int
  | 0, _, _ => 0
  | fuel + 1, k, p => p / (2 * (k : Int) + 1) + fxAtanhTail z2 fuel (k + 1) (fxMul p z2)

/-- Natural logarithm of a rational in [1, 2). -/
def fxLn (m : Rat) : Int :=
  let z := fxOfRat ((m - 1) / (m + 1))
  2 * fxAtanhTail (fxMul z z) 220 0 z

/-- Natural logarithm of 2. -/
def fxLn2 : Int :=
  let z := fxOfRat (mkRat 1 3)
  2 * fxAtanhTail (fxMul z z) 220 0 z

/-- e to the power x as a rational, for |x| at most 200. -/
def expRat (x : Rat) : Rat :=
  let n := (x / (fxToRat fxLn2)).floor
  fxToRat (fxExp (fxOfRat x - n * fxLn2)) * pow2 n

/-- 2 to the power x as a rational, exact at integers. -/
def exp2Rat (x : Rat) : Rat :=
  let n := x.floor
  if x = (n : Rat) then pow2 n
  else fxToRat (fxExp (fxMul (fxOfRat (x - (n : Rat))) fxLn2)) * pow2 n

/-- log2 of a positive rational, exact at powers of two. -/
def log2Rat (x : Rat) : Rat :=
  let e := ilog2 x
  let m := x * pow2 (-e)
  if m = 1 then (e : Rat) else (e : Rat) + mkRat (fxLn m) 1 / (fxLn2 : Rat)

/-- Integer square root by bisection on bits. -/
def isqrtAux (n : Nat) : (bits : Nat) → (acc : Nat) → Nat
  | 0, acc => acc
  | b + 1, acc =>
    let c := acc + 2 ^ b
    isqrtAux n b (if c * c ≤ n then c else acc)

def isqrt (n : Nat) : Nat := isqrtAux n (Nat.log2 n / 2 + 1) 0

/-- Square root of a non-negative rational: exact where it is rational on the grid, else the midpoint of the cell of
the grid 2^-320 that holds it. -/
def sqrtRat (x : Rat) : Rat :=
  let n := floorNat (x * ((2 ^ (2 * fxBits) : Nat) : Rat))
  let s := isqrt n
  if (s : Rat) * (s : Rat) = x * ((2 ^ (2 * fxBits) : Nat) : Rat) then mkRat s (2 ^ fxBits)
  else mkRat (2 * s + 1) (2 ^ (fxBits + 1))

/-- The outcome of an operation on finite operands before it is given a mode. -/
inductive Raw
  | val (neg : Bool) (m : Rat)
  | divZero (neg : Bool)
  | logZero
  | invalid
  deriving DecidableEq, Repr

/-- Signed exact value with the sign of an exact zero. -/
def rawOf (zneg : Bool) (x : Rat) : Raw :=
  if x = 0 then .val zneg 0 else if x < 0 then .val true (-x) else .val false x

/-- Sum of two finite values: opposite signs cancel to +0 (R73). -/
def rawSum (na : Bool) (a : Rat) (nb : Bool) (b : Rat) : Raw :=
  rawOf (na && nb) ((if na then -a else a) + (if nb then -b else b))

/-- A value that every format underflows, of the given sign (below half of 2^-149). -/
def tinyMag : Rat := pow2 (-200)

/-- A magnitude beyond every format of the A8. -/
def hugeMag : Rat := pow2 200

/-- e to x with the far ends cut where the result is beyond F32 on either side. -/
def expCut (x : Rat) : Rat :=
  if (100 : Rat) < x then hugeMag else if x < (-120 : Rat) then tinyMag else expRat x

/-- The exact operation on finite operands (R70, R73, R75, R433). -/
def FOp.core (op : FOp) (na : Bool) (a : Rat) (nb : Bool) (b : Rat) (nc : Bool) (c : Rat) : Raw :=
  let x : Rat := if na then -a else a
  let y : Rat := if nb then -b else b
  match op with
  | .add => rawSum na a nb b
  | .sub => rawSum na a (!nb) b
  | .mul => .val (na != nb) (a * b)
  | .fma => rawSum (na != nb) (a * b) nc c
  | .div => if b = 0 then (if a = 0 then .invalid else .divZero (na != nb)) else .val (na != nb) (a / b)
  | .sqrt => if a = 0 then .val na 0 else if na then .invalid else .val false (sqrtRat a)
  | .rsqrt => if a = 0 then .divZero na else if na then .invalid else .val false (sqrtRat (1 / a))
  | .recip => if a = 0 then .divZero na else .val na (1 / a)
  | .min => if x = y then .val (na || nb) a else if x < y then .val na a else .val nb b
  | .max => if x = y then .val (na && nb) a else if y < x then .val na a else .val nb b
  | .abs => .val false a
  | .neg => .val (!na) a
  | .exp2 => if (200 : Rat) < x then .val false hugeMag else if x < (-200 : Rat) then .val false tinyMag
             else .val false (exp2Rat x)
  | .log2 => if a = 0 then .logZero else if na then .invalid else rawOf false (log2Rat a)
  | .tanh => if a = 0 then .val na 0 else if (40 : Rat) < a then .val na (1 - pow2 (-100))
             else (let t := expRat (-(2 * a)); .val na ((1 - t) / (1 + t)))
  | .exp => .val false (expCut x)
  | .sigmoid => if x < 0 then (let t := expCut x; .val false (t / (1 + t)))
                else .val false (1 / (1 + expCut (-x)))

/-- A raw result under a numerics mode (Table 3.7, R76). -/
def Raw.finish (ieee : Bool) (r : Raw) : F32 × Evt :=
  match r with
  | .val n m => rna32 ieee n m
  | .divZero n => (if ieee then inf32 n else max32 n, some .sat)
  | .logZero => (if ieee then inf32 true else max32 true, some .sat)
  | .invalid => (if ieee then nan32 else zero32 false, some .nonfin)

/-- An operation with a non-finite operand under IEEE numerics (R76). Operands that the operation does not have are
finite. -/
def FOp.ieeeSpecial (op : FOp) (a b c : FV) : F32 :=
  if a = .nan || b = .nan || c = .nan then nan32
  else
    let isInf (v : FV) : Bool := v.nonfinite
    match op with
    | .add | .sub =>
      let nb := if op = .sub then !b.neg else b.neg
      if isInf a && isInf b then (if a.neg = nb then inf32 a.neg else nan32)
      else if isInf a then inf32 a.neg else inf32 nb
    | .mul => if a.val = 0 && !isInf a || b.val = 0 && !isInf b then nan32 else inf32 (a.neg != b.neg)
    | .fma =>
      if isInf a || isInf b then
        if a.val = 0 && !isInf a || b.val = 0 && !isInf b then nan32
        else if isInf c && c.neg != (a.neg != b.neg) then nan32
        else inf32 (a.neg != b.neg)
      else inf32 c.neg
    | .div => if isInf a && isInf b then nan32 else if isInf a then inf32 (a.neg != b.neg) else zero32 (a.neg != b.neg)
    | .sqrt => if a.neg then nan32 else inf32 false
    | .rsqrt => if a.neg then nan32 else zero32 false
    | .recip => zero32 a.neg
    | .min =>
      let lt : Bool := if isInf a then a.neg else !b.neg
      let p := if lt then a else b
      if isInf p then inf32 p.neg else (rna32 true p.neg (if p.neg then -p.val else p.val)).1
    | .max =>
      let gt : Bool := if isInf a then !a.neg else b.neg
      let p := if gt then a else b
      if isInf p then inf32 p.neg else (rna32 true p.neg (if p.neg then -p.val else p.val)).1
    | .abs => inf32 false
    | .neg => inf32 (!a.neg)
    | .exp2 | .exp => if a.neg then zero32 false else inf32 false
    | .log2 => if a.neg then nan32 else inf32 false
    | .tanh => if a.neg then 0xBF800000#32 else one32
    | .sigmoid => if a.neg then zero32 false else one32

/-- Magnitude of a finite decoded value. -/
def FV.mag : FV → Rat
  | .fin _ m => m
  | _ => 0

/-- An F32 operation of the A8, with its event (R70, R75 to R77). Unused operands are +0. -/
def f32op (ieee : Bool) (op : FOp) (a b c : F32) : F32 × Evt :=
  let va := dec32 a
  let vb := if 2 ≤ op.arity then dec32 b else .fin false 0
  let vc := if 3 ≤ op.arity then dec32 c else .fin false 0
  if ieee && (va.nonfinite || vb.nonfinite || vc.nonfinite) then (op.ieeeSpecial va vb vc, some .nonfin)
  else
    let ra := replaceNonfin specF32.maxFin va
    let rb := replaceNonfin specF32.maxFin vb
    let rc := replaceNonfin specF32.maxFin vc
    let r := (op.core ra.1.neg ra.1.mag rb.1.neg rb.1.mag rc.1.neg rc.1.mag).finish ieee
    (r.1, worst (worst ra.2 (worst rb.2 rc.2)) r.2)

/-- Comparison conditions of BR and VCMP. -/
inductive Cond | eq | ne | lt | le | gt | ge
  deriving DecidableEq, Repr

/-- Order of two decoded values, with infinities beyond every finite value; none when either is NaN. -/
def FV.cmp (a b : FV) : Option Ordering :=
  let key (v : FV) : Rat := match v with
    | .inf n => if n then -hugeMag else hugeMag
    | v => v.val
  if a = .nan || b = .nan then none
  else if key a < key b then some .lt else if key b < key a then some .gt else some .eq

/-- A comparison under R73: a NaN makes every condition false except NE (R143, R153). -/
def f32cmp (c : Cond) (a b : F32) : Bool :=
  match (dec32 a).cmp (dec32 b), c with
  | none, .ne => true
  | none, _ => false
  | some o, .eq => o = .eq
  | some o, .ne => o ≠ .eq
  | some o, .lt => o = .lt
  | some o, .le => o ≠ .gt
  | some o, .gt => o = .gt
  | some o, .ge => o ≠ .lt

/-- FCVTI of Table 6.3: RNA to a signed 64-bit integer, saturating at ±(2^63 - 1). -/
def fcvti (a : F32) : Word × Evt :=
  let top : Nat := 2 ^ 63 - 1
  match dec32 a with
  | .nan => (0#64, some .nonfin)
  | .inf n => (if n then BitVec.ofInt 64 (-(top : Int)) else BitVec.ofNat 64 top, some .nonfin)
  | .fin n m =>
    let k := rnaNat m
    let ev : Evt := if (top : Rat) < m then some .sat else if k = 0 && m ≠ 0 then some .ufl else none
    let k' := min k top
    (if n then BitVec.ofInt 64 (-(k' : Int)) else BitVec.ofNat 64 k', ev)

/-- ICVTF of Table 6.3: a signed 64-bit integer to F32 by RNA. -/
def icvtf (a : Word) : F32 × Evt := rna32s false false (a.toInt : Rat)

/-! ### Scales, conversions and the rounding stream -/

/-- Reading an S16 scale: an invalid code acts as 1.0 and counts one non-finite event (R61). -/
def readS16 (code : Nat) : Rat × Evt :=
  if 1 ≤ code ∧ code ≤ 0x7F7F then ((decodeFloat specBF16 code).val, none) else (1, some .nonfin)

/-- Codes of the negative end for integer formats, two's complement of a byte. -/
def byteOfInt (k : Int) : Nat := (k % 256).toNat

/-- A scaled or plain conversion of a finite or non-finite value to a format (R62, R69 to R72, R75, R76, R81).
`big` is the largest finite value of the source format, `s` the scale and `z` the U8 zero point. -/
def convert (f : Fmt) (ieee : Bool) (r : Rnd) (big : Rat) (s : Rat) (z : Nat) (v : FV) : Nat × Evt :=
  let fin (neg : Bool) (m : Rat) : Nat × Evt :=
    match f with
    | .i8 =>
      if 127 < m then (byteOfInt (if neg then -127 else 127), some .sat)
      else
        let k := roundUnits r m
        (byteOfInt (if neg then -(k : Int) else k), if k = 0 ∧ m ≠ 0 then some .ufl else none)
    | .u8 =>
      let x : Rat := if neg then -m else m
      if x < -(z : Rat) then (0, some .sat)
      else if ((255 - z : Int) : Rat) < x then (255, some .sat)
      else
        let k := roundUnits r m
        let q : Int := (if neg then -(k : Int) else k) + z
        (if q < 0 then 0 else if 255 < q then 255 else q.toNat, if k = 0 ∧ m ≠ 0 then some .ufl else none)
    | .w96 => (0, none)
    | .s16 =>
      if neg || m = 0 then (1, some .ufl)
      else
        let p := roundFloat specBF16 false .rna false m
        if p.1 = 0 then (1, some .ufl) else p
    | f => match f.spec with
      | some sp => roundFloat sp (ieee && sp.hasInf) r neg m
      | none => (0, none)
  match v with
  | .fin n m => fin n (m / s)
  | .nan =>
    match f with
    | .f32 | .bf16 | .f16 =>
      (if ieee then (match f.spec with | some sp => sp.nanCode | none => 0) else 0, some .nonfin)
    | .u8 => (z, some .nonfin)
    | .s16 => (1, some .nonfin)
    | _ => (0, some .nonfin)
  | .inf n =>
    match ieee, f with
    | true, .f32 => (specF32.infCode n, some .nonfin)
    | true, .bf16 => (specBF16.infCode n, some .nonfin)
    | true, .f16 => (specF16.infCode n, some .nonfin)
    | _, _ => ((fin n (big / s)).1, some .nonfin)

/-- S16 from an exact positive value by RNA; a result of zero or below becomes 0x0001 with an underflow (R61). -/
def rnaS16 (x : Rat) : Nat × Evt :=
  if x ≤ 0 then (1, some .ufl)
  else
    let p := roundFloat specBF16 false .rna false x
    if p.1 = 0 then (1, some .ufl) else (p.1, none)

/-- Exact decode of a stored element into F32 terms: value q × s or (q − z) × s, or the float itself (R59 to R62). -/
def decodeElem (f : Fmt) (code : Nat) (s : Rat) (z : Nat) : FV :=
  let scaleFV (neg : Bool) (m : Rat) : FV := .fin neg (m * s)
  match f with
  | .i8 =>
    let k : Int := if code < 128 then code else (code : Int) - 256
    scaleFV (k < 0) (if k < 0 then -(k : Rat) else (k : Rat))
  | .u8 =>
    let k : Int := (code : Int) - z
    scaleFV (k < 0) (if k < 0 then -(k : Rat) else (k : Rat))
  | .f8a => match decodeFloat specF8a code with | .fin n m => scaleFV n m | v => v
  | .f8b => match decodeFloat specF8b code with | .fin n m => scaleFV n m | v => v
  | .w96 => .fin false 0
  | f => match f.spec with | some sp => decodeFloat sp code | none => .fin false 0

/-- Largest finite value of a format's own codes (Table 3.7, second row). -/
def Fmt.big (f : Fmt) : Rat :=
  match f.spec with | some sp => sp.maxFin | none => 255

/-- 64-bit rotate left (00_scope.md). -/
def rotl64 (x : Word) (k : Nat) : Word := x.rotateLeft k

/-- One round of the rounding stream (R82). -/
def streamRounds (k : Word) : List Nat → Nat → Word → Word → Word × Word
  | [], _, x, y => (x, y)
  | r :: rs, j, x, y =>
    let kj := k + BitVec.ofNat 64 j * 0xA3C59B176E2DF049#64
    let x' := x + y + kj
    let y' := rotl64 y r ^^^ x'
    streamRounds k rs (j + 1) x' y'

/-- The rounding-stream word of run seed k, course c, tensor t and element i (R82). -/
def streamWord (k c : Word) (t i : Nat) : Word :=
  let p := streamRounds k [14, 52, 23, 5, 37, 46, 11, 58, 32, 19] 0 c (BitVec.ofNat 64 (t * 2 ^ 40 + i))
  p.1 + rotl64 p.2 29

/-- The rounding of an element whose RND field is `sr` (R81): bits [63:32] of its stream word. -/
def rndOf (sr : Bool) (k c : Word) (t i : Nat) : Rnd :=
  if sr then .sr ((streamWord k c t i).toNat / 2 ^ 32) else .rna

/-! ### W96 -/

/-- Largest addend magnitude (R65). -/
def addendMax : Nat := 2 ^ 48 - 1

/-- W96 addend of one input value (R65). -/
def addendOf (e : Int) (v : FV) : Int × Evt :=
  match v with
  | .nan => (0, some .nonfin)
  | .inf n => (if n then -(addendMax : Int) else addendMax, some .nonfin)
  | .fin n m =>
    let k := rnaNat (m * pow2 (-e))
    let ev : Evt := if addendMax < k then some .sat else if k = 0 ∧ m ≠ 0 then some .ufl else none
    let k' := min k addendMax
    (if n then -(k' : Int) else k', ev)

/-- Accumulation modulo 2^104 (R66): the accumulator is the pattern of G and N. -/
def accAdd (acc : Nat) (a : Int) : Nat := (((acc : Int) + a) % ((2 ^ 104 : Nat) : Int)).toNat

/-- The signed integer of a 104-bit accumulator. -/
def accInt (acc : Nat) : Int := if acc < 2 ^ 103 then acc else (acc : Int) - (2 ^ 104 : Nat)

/-- The integer that a readout takes, and whether it saturates (R67). -/
def readoutInt (acc : Nat) : Int × Bool :=
  let acc := acc % 2 ^ 104
  let top := acc / 2 ^ 95
  if top = 0 ∨ top = 2 ^ 9 - 1 then (accInt acc, false)
  else if acc / 2 ^ 103 = 1 then (-((2 ^ 95 - 1 : Nat) : Int), true) else (((2 ^ 95 - 1 : Nat) : Int), true)

/-- Readout of an accumulator to a float format by RNA, with its event and SAT (R67). -/
def readoutW96 (sp : FSpec) (ieee : Bool) (e : Int) (acc : Nat) : Nat × Evt × Bool :=
  let p := readoutInt acc
  let n := p.1
  let m : Rat := (n.natAbs : Rat) * pow2 e
  let q := roundFloat sp ieee .rna (n < 0) m
  (q.1, worst (if p.2 then some .sat else none) q.2, p.2)

/-- Signed value of a WEXP, PWEXP or SEXP byte (R63, R230). -/
def sexp8 (b : Nat) : Int := if b % 256 < 128 then ((b % 256 : Nat) : Int) else ((b % 256 : Nat) : Int) - 256

/-! ### Compensated pairs (R122) -/

/-- Rounding to a significand of `bits` bits with unbounded exponent by RNA (R115). -/
def roundSig (bits : Nat) (x : Rat) : Rat :=
  if x = 0 then 0
  else
    let m := if x < 0 then -x else x
    let q := ilog2 m - (bits : Int) + 1
    let r : Rat := (rnaNat (m * pow2 (-q)) : Rat) * pow2 q
    if x < 0 then -r else r

/-- s := rna(hi + p), e := (hi + p) − s exactly, lo := rna(lo + e) for an exact finite addend p (R118, R122).
Under IEEE numerics a non-finite hi or s makes e the IEEE result of the same formula (assumption log 14). `pz` says
that a zero `p` is −0. -/
def compAddExact (ieee : Bool) (hi lo : F32) (p : Rat) (pz : Bool) : F32 × F32 × Evt :=
  let vh := dec32 hi
  if ieee && vh.nonfinite then
    (if vh = .nan then nan32 else hi, nan32, some .nonfin)
  else
    let rh := replaceNonfin specF32.maxFin vh
    let x := rh.1.val + p
    let s := rna32s ieee (rh.1.neg && pz) x
    let sv := dec32 s.1
    if sv.nonfinite then
      (s.1, (f32op ieee .add lo (inf32 (!sv.neg)) 0#32).1, worst rh.2 (worst s.2 (some .nonfin)))
    else
      let e := x - sv.val
      let vl := dec32 lo
      if ieee && vl.nonfinite then (s.1, if vl = .nan then nan32 else lo, worst s.2 (some .nonfin))
      else
        let rl := replaceNonfin specF32.maxFin vl
        let l := rna32s ieee false (rl.1.val + e)
        (s.1, l.1, worst (worst rh.2 rl.2) (worst s.2 l.2))

/-- A compensated add of an F32 value (R122, R126, R155). -/
def compAdd (ieee : Bool) (hi lo v : F32) : F32 × F32 × Evt :=
  let vv := dec32 v
  if ieee && vv.nonfinite then
    let s := f32op ieee .add hi v 0#32
    (s.1, nan32, some .nonfin)
  else
    let rv := replaceNonfin specF32.maxFin vv
    let r := compAddExact ieee hi lo rv.1.val rv.1.neg
    (r.1, r.2.1, worst rv.2 r.2.2)

/-- The single rounding of a compensated pair (R122). -/
def compFinal (ieee : Bool) (hi lo : F32) : F32 × Evt := f32op ieee .add hi lo 0#32

/-- Sum of a list as a compensated pair, rounded once (R155): +0 for none. -/
def compSum (ieee : Bool) (xs : List F32) : F32 × Evt :=
  match xs with
  | [] => (0#32, none)
  | x :: rest =>
    let r := rest.foldl (fun (acc : F32 × F32 × Evt) v =>
      let q := compAdd ieee acc.1 acc.2.1 v
      (q.1, q.2.1, worst acc.2.2 q.2.2)) (x, 0#32, none)
    let f := compFinal ieee r.1 r.2.1
    (f.1, worst r.2.2 f.2)

/-- The first extreme value in element order, NaN left out, +0 when none remains (R155). -/
def extreme (lt : F32 → F32 → Bool) : List F32 → F32
  | xs =>
    match xs.filter (fun x => (dec32 x) ≠ .nan) with
    | [] => 0#32
    | x :: rest => rest.foldl (fun best y => if lt y best then y else best) x

def reduceMax (xs : List F32) : F32 := extreme (fun y b => f32cmp .gt y b) xs
def reduceMin (xs : List F32) : F32 := extreme (fun y b => f32cmp .lt y b) xs
def reduceAmax (xs : List F32) : F32 := extreme (fun y b => f32cmp .gt y b) (xs.map (fun x => x &&& 0x7FFFFFFF#32))

end Sys2Proof.Machine
end

