-- ==== Sys2Proof/Config.lean ====
section
/-! DEFINITION. What the manual leaves to an implementation or to a standard it only names: opaque constants
without a body. No proof can see their values (assumption log 9 and 12). -/
namespace Sys2Proof

/-- The n-th value that the module draws where the manual gives none (SEC_CHALLENGE, R402). -/
opaque Config.freeValue : Nat → Word

/-- The hash SM3 of GB/T 32905 (R391), named and not described by the manual: bytes to 32 bytes. -/
opaque Config.sm3 : List Byte → List Byte

/-- SM2 signature verification of GB/T 32918.2 (R391): public key x‖y, message after Z, signature r‖s. -/
opaque Config.sm2Verify : List Byte → List Byte → List Byte → Bool

/-- SM2 signature by the device identity key (R404) over SM3(Z ‖ message). -/
opaque Config.sm2Sign : List Byte → List Byte

/-- Unwrapping of a content key under the device identity key (R391, R394 step 5); none when it does not decrypt. -/
opaque Config.sm2Unwrap : List Byte → Option (List Byte)

/-- SM4 in counter mode (R391): key, initial counter block, ciphertext. -/
opaque Config.sm4Ctr : List Byte → List Byte → List Byte → List Byte

/-- Fused root hashes of the image signers, slots 0 to 3 (Table 16.1). -/
opaque Config.imageRoot : Nat → List Byte

/-- Fused root hashes of the dormer-token signers, slots 0 and 1 (Table 16.1). -/
opaque Config.dormerRoot : Nat → List Byte

/-- The SM3 of the boot ROM (Table 16.4, MEAS[0]). -/
opaque Config.romHash : List Byte

/-- The identity certificate kept in flash (R391). -/
opaque Config.certificate : List Byte

/-- Values that the manual calls unspecified in memory (scratch beyond the pairs of R192, outputs of a failed
descriptor under R194 and R196): a free byte for each draw and position. -/
opaque Config.freeByte : Nat → Nat → Byte

end Sys2Proof
end

