-- ==== Sys2Proof/Machine/Regs.lean ====
section
/-! DEFINITION. The register tables of the spec (R21, R54, R133, R163, R213, R239, R265, R266, R297, R298, R324,
R354, R355, R389, R406, R419): each register by name, its fields with place, access type, reset value and the range
that its Meaning states (R431). A bit in no field is reserved (R10). -/
namespace Sys2Proof.Machine

/-- The registers of the spec by their names. -/
inductive Reg
  | cfgIdent | cfgDie | cfgBondout | cfgDevnum | cfgMemstate | cfgSerial | tbnTime | tbnBatten | tbnNextTick
  | tbnInterval | tbnSlots | tbnOvr | tbnSync | tbnOffset | tbnCourse | tbnCstate | tbnOvrcnt | tbnStagger
  | tbnBarcnt | tbnStatus | tbnStq | accCtrl | accStatus | accHazcnt | accLsum | accTstat | accSeg | accSegsel
  | ccCtrl | ccState | ccFault | ccFaddr | ccRetired | vecStatus | dmaStatus | dmaBytes | audCtrl | audCnt
  | audExt | audLast | ylmCtrl | ylmStatus | ylmOutstanding | ylmStageBase | ylmEaves | ylmIndices | ylmFetches
  | ylmEavesCnt | ylmDedupCnt | ylmStageCnt | ylmBagCnt | ylmAdds | ylmMoeCnt | ylmRemoteCnt | updUctrl
  | updDeltaBase | updDeltaCfg | updSpillBase | updSpillCfg | updOcc | updStatus | updAdds | updFoldcnt
  | updHeadcnt | updBindBase | updProgValid | memCtrl | memStatus | memCecnt | memUecnt | memErraddr
  | memErrinfo | memCal | memScrub | memCh | blkCtrl | blkErrinfo | blkRefrate | blkCh | jflPctrl | jflPstatus
  | jflPerr | jflPtx | jflPrx | jflCfg | jflStatus | jflCnt | jflDupcnt | jflEpoch | jflSyncRtt | jflLevel
  | jflLost | ethCtrl | ethStatus | ethMac | ethIp4 | ethIp6Hi | ethIp6Lo | ethQpBase | ethMrBase | ethRxbytes
  | ethTxbytes | ethErrcnt | ethCong | ldgCtrl | ldgDkey | ldgRingBase | ldgDetailBase | ldgBattenBase
  | ldgRingCfg | ldgDetailCfg | ldgBattenCfg | ldgHead | ldgDhead | ldgBhead | ldgExport | ldgExportAddr
  | ldgExportRkey | ldgCmp | ldgCmpPeers | ldgStatus | ldgCnt | ldgDen | ldgCmpen | ldgDinv | ldgDigest
  | hifLink | hifCtrl | hifEpoch | hifStatus | hifDropcnt | hifErrcnt | hifFence | hifBiasCnt | qpFwver
  | qpStatus | qpPackets | qpSqbase | qpCqbase | qpQcfg | qpQstate | qpQseq | qpQdb | qpQerr | qpQidx | qpQcnt
  | pwrCtrl | pwrCap | pwrState | pwrTemp | pwrSupply | pwrInput | pwrStatus | pwrCnt | pwrDroopcnt | pwrEnergy
  | pwrIdle | pwrCoef | pwrPolicy | secStatus | secRollback | secFwver | secFwdigest | secChallenge | secDormer
  | secMeas | cfgSetctrl | cfgSetstatus | gutCtrl | gutStatus | gutHead | gutDrop | gutSuppress | gutHeld
  | gutTime | gutNv
  deriving DecidableEq, Repr

/-- Access types (R8, Table 0.3). -/
inductive Acc | rw | ro | wo | w1c | rc
  deriving DecidableEq, Repr

/-- One field of a register: its lowest bit, width, access type, reset value, and the least and greatest value
that a write may give it (R431). -/
structure FieldInfo where
  lo : Nat
  wid : Nat
  acc : Acc
  rst : Nat
  least : Nat
  most : Nat
  deriving DecidableEq, Repr

/-- A named field of a register. -/
structure Fld where
  reg : Reg
  lo : Nat
  wid : Nat
  deriving DecidableEq, Repr

/-- A field that may take every value of its width. -/
def fi (lo wid : Nat) (a : Acc) (rst : Nat) : FieldInfo := ⟨lo, wid, a, rst, 0, 2 ^ wid - 1⟩

/-- A field with a stated range. -/
def fr (lo wid : Nat) (a : Acc) (rst least most : Nat) : FieldInfo := ⟨lo, wid, a, rst, least, most⟩

def fs_cfgIdent : List FieldInfo := [fi 0 16 .ro 20301, fi 16 16 .ro 168, fi 32 8 .ro 176, fi 40 4 .ro 8]
def fs_cfgDie : List FieldInfo := [fi 0 3 .ro 0, fi 3 1 .ro 0, fi 4 2 .ro 0]
def fs_cfgBondout : List FieldInfo := [fi 0 1 .ro 0, fi 1 1 .ro 0, fi 2 1 .ro 0, fi 3 1 .ro 0, fi 4 1 .ro 0]
def fs_cfgDevnum : List FieldInfo := [fi 0 11 .rw 0, fi 16 1 .rw 0]
def fs_cfgMemstate : List FieldInfo := [fi 0 16 .ro 0, fi 16 32 .ro 0]
def fs_cfgSerial : List FieldInfo := [fi 0 64 .ro 0]
def fs_tbnTime : List FieldInfo := [fi 0 64 .ro 0]
def fs_tbnBatten : List FieldInfo := [fi 0 64 .ro 0]
def fs_tbnNextTick : List FieldInfo := [fi 0 64 .ro 250000]
def fs_tbnInterval : List FieldInfo := [fr 0 15 .rw 250 20 20000]
def fs_tbnSlots : List FieldInfo := [fi 0 8 .rw 20, fi 8 8 .rw 10, fi 16 8 .rw 10]
def fs_tbnOvr : List FieldInfo := [fr 0 2 .rw 0 0 2, fr 2 10 .rw 10 1 1000, fr 12 8 .rw 64 1 255]
def fs_tbnSync : List FieldInfo := [fr 0 2 .rw 0 0 2, fi 2 1 .ro 0, fi 3 1 .ro 0, fi 16 8 .ro 0]
def fs_tbnOffset : List FieldInfo := [fi 0 32 .ro 0]
def fs_tbnCourse : List FieldInfo := [fi 0 64 .ro 0]
def fs_tbnCstate : List FieldInfo := [fi 0 3 .ro 0, fi 16 17 .ro 0, fi 40 16 .ro 0]
def fs_tbnOvrcnt : List FieldInfo := [fi 0 32 .rc 0, fi 32 32 .rc 0]
def fs_tbnStagger : List FieldInfo := [fr 0 7 .rw 16 8 64, fr 8 5 .rw 4 1 31]
def fs_tbnBarcnt : List FieldInfo := [fi 0 32 .rc 0, fi 32 32 .rc 0]
def fs_tbnStatus : List FieldInfo := [fi 0 1 .w1c 0, fi 1 1 .w1c 0, fi 2 1 .w1c 0, fi 3 1 .w1c 0, fi 4 1 .w1c 0, fi 5 1 .w1c 0, fi 6 1 .w1c 0]
def fs_tbnStq : List FieldInfo := [fi 0 9 .ro 0, fi 9 1 .ro 0, fi 16 24 .rc 0, fi 40 24 .rc 0]
def fs_accCtrl : List FieldInfo := [fi 0 1 .rw 1, fi 8 8 .rw 0]
def fs_accStatus : List FieldInfo := [fi 0 32 .ro 0, fi 32 1 .w1c 0, fi 33 1 .w1c 0, fi 34 1 .w1c 0, fi 35 1 .w1c 0, fi 36 1 .w1c 0]
def fs_accHazcnt : List FieldInfo := [fi 0 32 .rc 0, fi 32 32 .rc 0]
def fs_accLsum : List FieldInfo := [fi 0 32 .rc 0, fi 32 32 .rc 0]
def fs_accTstat : List FieldInfo := [fi 0 32 .ro 0, fi 32 1 .ro 0, fi 33 1 .ro 0, fi 34 1 .ro 0, fi 35 1 .ro 0, fi 36 12 .ro 0, fi 48 16 .ro 0]
def fs_accSeg : List FieldInfo := [fi 0 32 .rw 0, fi 32 32 .rw 0]
def fs_accSegsel : List FieldInfo := [fi 0 10 .rw 0]
def fs_ccCtrl : List FieldInfo := [fi 0 1 .rw 0, fi 1 1 .wo 0]
def fs_ccState : List FieldInfo := [fi 0 2 .ro 0, fi 2 1 .ro 0, fi 3 1 .ro 0, fi 4 1 .ro 0, fi 5 1 .ro 0, fi 6 1 .ro 0, fi 16 14 .ro 0, fi 32 18 .ro 0]
def fs_ccFault : List FieldInfo := [fi 0 8 .ro 0, fi 8 1 .ro 0, fi 16 18 .ro 0]
def fs_ccFaddr : List FieldInfo := [fi 0 64 .ro 0]
def fs_ccRetired : List FieldInfo := [fi 0 64 .ro 0]
def fs_vecStatus : List FieldInfo := [fi 0 1 .ro 0, fi 1 1 .ro 0, fi 2 1 .ro 0, fi 8 5 .ro 0]
def fs_dmaStatus : List FieldInfo := [fi 0 4 .ro 0]
def fs_dmaBytes : List FieldInfo := [fi 0 64 .rc 0]
def fs_audCtrl : List FieldInfo := [fi 0 16 .rw 64, fi 16 1 .rw 1]
def fs_audCnt : List FieldInfo := [fi 0 32 .rc 0, fi 32 32 .rc 0]
def fs_audExt : List FieldInfo := [fi 0 32 .rc 0, fi 32 16 .rc 0, fi 48 2 .ro 0]
def fs_audLast : List FieldInfo := [fi 0 30 .ro 0, fi 30 5 .ro 0, fi 35 5 .ro 0]
def fs_ylmCtrl : List FieldInfo := [fi 0 1 .rw 0, fi 1 1 .rw 0]
def fs_ylmStatus : List FieldInfo := [fi 0 5 .ro 0, fi 8 1 .w1c 0, fi 9 1 .w1c 0, fi 10 1 .w1c 0, fi 11 1 .w1c 0]
def fs_ylmOutstanding : List FieldInfo := [fi 0 15 .ro 0, fi 16 15 .rc 0]
def fs_ylmStageBase : List FieldInfo := [fi 6 37 .rw 0]
def fs_ylmEaves : List FieldInfo := [fi 0 32 .ro 0, fi 32 32 .ro 0]
def fs_ylmIndices : List FieldInfo := [fi 0 64 .rc 0]
def fs_ylmFetches : List FieldInfo := [fi 0 64 .rc 0]
def fs_ylmEavesCnt : List FieldInfo := [fi 0 32 .rc 0, fi 32 32 .rc 0]
def fs_ylmDedupCnt : List FieldInfo := [fi 0 32 .rc 0, fi 32 16 .rc 0]
def fs_ylmStageCnt : List FieldInfo := [fi 0 32 .rc 0, fi 32 32 .rc 0]
def fs_ylmBagCnt : List FieldInfo := [fi 0 32 .rc 0, fi 32 32 .rc 0]
def fs_ylmAdds : List FieldInfo := [fi 0 64 .rc 0]
def fs_ylmMoeCnt : List FieldInfo := [fi 0 32 .rc 0, fi 32 32 .rc 0]
def fs_ylmRemoteCnt : List FieldInfo := [fi 0 32 .rc 0, fi 32 16 .rc 0]
def fs_updUctrl : List FieldInfo := [fi 0 1 .rw 0]
def fs_updDeltaBase : List FieldInfo := [fi 6 37 .rw 0]
def fs_updDeltaCfg : List FieldInfo := [fr 0 9 .rw 0 0 257, fi 16 24 .rw 0]
def fs_updSpillBase : List FieldInfo := [fi 6 37 .rw 0]
def fs_updSpillCfg : List FieldInfo := [fi 0 24 .rw 0]
def fs_updOcc : List FieldInfo := [fi 0 24 .ro 0, fi 24 24 .ro 0]
def fs_updStatus : List FieldInfo := [fi 0 1 .w1c 0, fi 1 1 .w1c 0, fi 2 1 .w1c 0, fi 3 1 .w1c 0, fi 4 1 .w1c 0, fi 5 1 .w1c 0, fi 8 1 .ro 0]
def fs_updAdds : List FieldInfo := [fi 0 64 .rc 0]
def fs_updFoldcnt : List FieldInfo := [fi 0 32 .rc 0, fi 32 32 .rc 0]
def fs_updHeadcnt : List FieldInfo := [fi 0 32 .rc 0, fi 32 32 .rc 0]
def fs_updBindBase : List FieldInfo := [fi 6 37 .rw 0]
def fs_updProgValid : List FieldInfo := [fi 0 64 .ro 0]
def fs_memCtrl : List FieldInfo := [fi 0 1 .rw 1, fi 1 1 .rw 1, fr 2 10 .rw 256 1 750, fr 16 8 .rw 16 1 255, fr 24 8 .rw 20 1 50]
def fs_memStatus : List FieldInfo := [fi 0 1 .w1c 0, fi 1 1 .w1c 0, fi 2 1 .w1c 0, fi 3 1 .w1c 0, fi 4 1 .w1c 0, fi 5 1 .w1c 0, fi 8 1 .ro 0, fi 9 7 .ro 0]
def fs_memCecnt : List FieldInfo := [fi 0 32 .rc 0, fi 32 32 .rc 0]
def fs_memUecnt : List FieldInfo := [fi 0 32 .rc 0, fi 32 32 .rc 0]
def fs_memErraddr : List FieldInfo := [fi 6 37 .ro 0, fi 59 1 .ro 0, fi 60 2 .ro 0, fi 63 1 .w1c 0]
def fs_memErrinfo : List FieldInfo := [fi 0 7 .ro 0, fi 8 6 .ro 0, fi 16 6 .ro 0, fi 24 2 .ro 0, fi 32 32 .ro 0]
def fs_memCal : List FieldInfo := [fi 0 32 .rc 0, fi 32 16 .rc 0]
def fs_memScrub : List FieldInfo := [fi 0 24 .ro 0, fi 32 32 .rc 0]
def fs_memCh : List FieldInfo := [fi 0 16 .rc 0, fi 16 16 .rc 0, fi 32 4 .ro 0, fi 40 8 .ro 0]
def fs_blkCtrl : List FieldInfo := [fi 0 1 .rw 1, fi 1 1 .rw 1, fr 2 10 .rw 64 1 80, fr 16 8 .rw 16 1 255, fr 24 8 .rw 20 1 50]
def fs_blkErrinfo : List FieldInfo := [fi 0 4 .ro 0, fi 8 6 .ro 0, fi 16 6 .ro 0, fi 24 2 .ro 0, fi 32 32 .ro 0]
def fs_blkRefrate : List FieldInfo := [fi 0 4 .ro 0, fi 4 4 .ro 0, fi 8 4 .ro 0, fi 12 4 .ro 0]
def fs_blkCh : List FieldInfo := [fi 0 16 .rc 0, fi 16 16 .rc 0, fi 32 4 .ro 0, fi 40 8 .ro 0]
def fs_jflPctrl : List FieldInfo := [fi 0 1 .rw 0, fi 1 1 .wo 0, fr 2 2 .rw 2 1 2]
def fs_jflPstatus : List FieldInfo := [fi 0 3 .ro 0, fi 3 2 .ro 0, fi 5 2 .ro 0, fi 8 11 .ro 0, fi 19 1 .ro 0, fi 20 5 .ro 0, fi 25 2 .ro 0, fi 32 16 .ro 0]
def fs_jflPerr : List FieldInfo := [fi 0 32 .rc 0, fi 32 16 .rc 0, fi 48 16 .rc 0]
def fs_jflPtx : List FieldInfo := [fi 0 64 .rc 0]
def fs_jflPrx : List FieldInfo := [fi 0 64 .rc 0]
def fs_jflCfg : List FieldInfo := [fr 0 11 .rw 100 10 2000, fr 11 2 .rw 2 0 3, fr 16 10 .rw 100 10 1000, fr 26 4 .rw 4 2 15]
def fs_jflStatus : List FieldInfo := [fi 0 1 .w1c 0, fi 1 1 .w1c 0, fi 2 1 .w1c 0, fi 3 1 .w1c 0, fi 4 1 .w1c 0, fi 5 1 .w1c 0, fi 6 1 .w1c 0]
def fs_jflCnt : List FieldInfo := [fi 0 32 .rc 0, fi 32 32 .rc 0]
def fs_jflDupcnt : List FieldInfo := [fi 0 32 .rc 0, fi 32 32 .rc 0]
def fs_jflEpoch : List FieldInfo := [fi 0 16 .ro 0]
def fs_jflSyncRtt : List FieldInfo := [fi 0 32 .ro 0]
def fs_jflLevel : List FieldInfo := [fi 0 6 .ro 0, fi 8 24 .ro 0]
def fs_jflLost : List FieldInfo := [fi 0 64 .w1c 0]
def fs_ethCtrl : List FieldInfo := [fi 0 1 .rw 0, fr 1 2 .rw 2 0 2, fi 3 3 .rw 3, fi 6 1 .rw 1, fi 7 1 .rw 1]
def fs_ethStatus : List FieldInfo := [fi 0 1 .ro 0, fi 1 1 .ro 0, fi 2 1 .ro 0, fi 8 1 .w1c 0, fi 9 1 .w1c 0, fi 10 1 .w1c 0]
def fs_ethMac : List FieldInfo := [fi 0 48 .ro 0]
def fs_ethIp4 : List FieldInfo := [fi 0 32 .rw 0, fr 32 6 .rw 0 0 32]
def fs_ethIp6Hi : List FieldInfo := [fi 0 64 .rw 0]
def fs_ethIp6Lo : List FieldInfo := [fi 0 64 .rw 0]
def fs_ethQpBase : List FieldInfo := [fi 6 37 .rw 0]
def fs_ethMrBase : List FieldInfo := [fi 6 37 .rw 0]
def fs_ethRxbytes : List FieldInfo := [fi 0 64 .rc 0]
def fs_ethTxbytes : List FieldInfo := [fi 0 64 .rc 0]
def fs_ethErrcnt : List FieldInfo := [fi 0 16 .rc 0, fi 16 16 .rc 0, fi 32 16 .rc 0, fi 48 16 .rc 0]
def fs_ethCong : List FieldInfo := [fi 0 32 .rc 0, fi 32 32 .rc 0]
def fs_ldgCtrl : List FieldInfo := [fi 0 1 .rw 0, fi 1 1 .rw 0, fr 2 2 .rw 0 0 2]
def fs_ldgDkey : List FieldInfo := [fi 0 64 .rw 0]
def fs_ldgRingBase : List FieldInfo := [fi 10 33 .rw 0]
def fs_ldgDetailBase : List FieldInfo := [fi 10 33 .rw 0]
def fs_ldgBattenBase : List FieldInfo := [fi 10 33 .rw 0]
def fs_ldgRingCfg : List FieldInfo := [fi 0 24 .rw 0]
def fs_ldgDetailCfg : List FieldInfo := [fi 0 24 .rw 0]
def fs_ldgBattenCfg : List FieldInfo := [fi 0 24 .rw 0]
def fs_ldgHead : List FieldInfo := [fi 0 32 .ro 0, fi 32 32 .ro 0]
def fs_ldgDhead : List FieldInfo := [fi 0 40 .ro 0]
def fs_ldgBhead : List FieldInfo := [fi 0 40 .ro 0]
def fs_ldgExport : List FieldInfo := [fr 0 2 .rw 0 0 2, fi 2 1 .rw 0, fi 3 10 .rw 0, fi 16 24 .rw 0]
def fs_ldgExportAddr : List FieldInfo := [fi 0 64 .rw 0]
def fs_ldgExportRkey : List FieldInfo := [fi 0 32 .rw 0]
def fs_ldgCmp : List FieldInfo := [fi 0 7 .rw 0, fi 8 6 .rw 0]
def fs_ldgCmpPeers : List FieldInfo := [fi 6 37 .rw 0]
def fs_ldgStatus : List FieldInfo := [fi 0 1 .w1c 0, fi 1 1 .w1c 0, fi 2 1 .w1c 0, fi 3 1 .w1c 0, fi 4 1 .w1c 0, fi 5 1 .w1c 0, fi 6 1 .w1c 0, fi 7 1 .w1c 0, fi 8 1 .w1c 0, fi 9 1 .w1c 0, fi 16 1 .ro 0, fi 17 1 .ro 0]
def fs_ldgCnt : List FieldInfo := [fi 0 32 .rc 0, fi 32 32 .rc 0]
def fs_ldgDen : List FieldInfo := [fi 0 64 .ro 0]
def fs_ldgCmpen : List FieldInfo := [fi 0 64 .rw 0]
def fs_ldgDinv : List FieldInfo := [fi 0 64 .ro 0]
def fs_ldgDigest : List FieldInfo := [fi 0 64 .ro 0]
def fs_hifLink : List FieldInfo := [fi 0 2 .ro 0, fi 4 3 .ro 0, fi 8 4 .ro 0, fi 32 16 .ro 0]
def fs_hifCtrl : List FieldInfo := [fi 0 1 .rw 0, fr 1 2 .rw 0 0 2, fi 3 1 .rw 1]
def fs_hifEpoch : List FieldInfo := [fi 0 16 .ro 0]
def fs_hifStatus : List FieldInfo := [fi 0 1 .w1c 0, fi 1 1 .w1c 0, fi 2 1 .w1c 0, fi 3 1 .w1c 0, fi 4 1 .w1c 0, fi 5 1 .w1c 0, fi 6 1 .w1c 0]
def fs_hifDropcnt : List FieldInfo := [fi 0 32 .rc 0, fi 32 32 .rc 0]
def fs_hifErrcnt : List FieldInfo := [fi 0 16 .rc 0, fi 16 16 .rc 0, fi 32 16 .rc 0]
def fs_hifFence : List FieldInfo := [fi 0 32 .rc 0, fi 32 32 .rc 0]
def fs_hifBiasCnt : List FieldInfo := [fi 0 32 .rc 0, fi 32 32 .rc 0]
def fs_qpFwver : List FieldInfo := [fi 0 32 .ro 0, fi 32 8 .ro 1, fi 40 8 .ro 2]
def fs_qpStatus : List FieldInfo := [fi 0 1 .w1c 0, fi 1 1 .w1c 0, fi 2 1 .w1c 0, fi 16 12 .ro 0, fi 32 12 .ro 0]
def fs_qpPackets : List FieldInfo := [fi 0 64 .rc 0]
def fs_qpSqbase : List FieldInfo := [fi 6 58 .rw 0]
def fs_qpCqbase : List FieldInfo := [fi 6 58 .rw 0]
def fs_qpQcfg : List FieldInfo := [fr 0 5 .rw 0 4 16, fr 8 5 .rw 0 4 17, fi 16 1 .rw 0, fi 17 1 .rw 0, fi 18 1 .rw 0, fr 20 2 .rw 2 1 2, fi 24 2 .rw 0, fi 32 11 .rw 0, fi 43 1 .rw 0, fi 48 1 .rw 0]
def fs_qpQstate : List FieldInfo := [fi 0 2 .ro 0, fi 8 7 .ro 0, fi 16 16 .ro 0]
def fs_qpQseq : List FieldInfo := [fi 0 32 .rw 0, fi 32 32 .ro 0]
def fs_qpQdb : List FieldInfo := [fi 0 32 .wo 0, fi 32 1 .wo 0]
def fs_qpQerr : List FieldInfo := [fi 0 8 .ro 0, fi 8 8 .ro 0, fi 32 32 .ro 0]
def fs_qpQidx : List FieldInfo := [fi 0 32 .rw 0, fi 32 32 .rw 0]
def fs_qpQcnt : List FieldInfo := [fi 0 64 .rc 0]
def fs_pwrCtrl : List FieldInfo := [fi 0 1 .rw 1, fi 1 1 .rw 1, fi 4 4 .rw 0, fr 8 8 .rw 100 85 100, fr 16 8 .rw 95 70 100, fr 24 8 .rw 40 20 80]
def fs_pwrCap : List FieldInfo := [fr 0 12 .rw 2800 1200 2800]
def fs_pwrState : List FieldInfo := [fi 0 4 .ro 0, fi 8 5 .ro 16, fi 16 5 .ro 16, fi 24 1 .ro 0, fi 25 1 .ro 0, fi 26 1 .ro 0, fi 27 1 .ro 0, fi 28 4 .ro 0]
def fs_pwrTemp : List FieldInfo := [fi 0 12 .ro 0, fi 16 12 .rc 0]
def fs_pwrSupply : List FieldInfo := [fi 0 16 .ro 0, fi 16 16 .rc 65535, fi 32 1 .ro 0, fi 33 1 .ro 0]
def fs_pwrInput : List FieldInfo := [fi 0 12 .ro 0, fi 16 12 .rc 0]
def fs_pwrStatus : List FieldInfo := [fi 0 1 .w1c 0, fi 1 1 .w1c 0, fi 2 1 .w1c 0, fi 3 1 .w1c 0, fi 4 1 .w1c 0, fi 5 1 .w1c 0, fi 6 1 .w1c 0]
def fs_pwrCnt : List FieldInfo := [fi 0 16 .rc 0, fi 16 16 .rc 0, fi 32 32 .rc 0]
def fs_pwrDroopcnt : List FieldInfo := [fi 0 32 .rc 0, fi 32 32 .rc 0]
def fs_pwrEnergy : List FieldInfo := [fi 0 64 .ro 0]
def fs_pwrIdle : List FieldInfo := [fi 0 64 .rc 0]
def fs_pwrCoef : List FieldInfo := [fi 0 32 .rw 0]
def fs_pwrPolicy : List FieldInfo := [fi 0 64 .rw 0]
def fs_secStatus : List FieldInfo := [fi 0 1 .ro 0, fi 1 1 .ro 0, fi 2 1 .ro 0, fi 3 1 .ro 0, fi 4 1 .ro 0, fi 5 1 .w1c 0, fi 6 1 .w1c 0, fi 7 1 .w1c 0]
def fs_secRollback : List FieldInfo := [fi 0 8 .ro 0, fi 8 8 .ro 0, fi 16 8 .ro 255]
def fs_secFwver : List FieldInfo := [fi 0 64 .ro 0]
def fs_secFwdigest : List FieldInfo := [fi 0 64 .ro 0]
def fs_secChallenge : List FieldInfo := [fi 0 64 .ro 0]
def fs_secDormer : List FieldInfo := [fi 0 32 .ro 0, fi 32 2 .ro 0]
def fs_secMeas : List FieldInfo := [fi 0 64 .ro 0]
def fs_cfgSetctrl : List FieldInfo := [fi 0 1 .wo 0, fi 1 1 .wo 0]
def fs_cfgSetstatus : List FieldInfo := [fi 0 16 .ro 0, fi 16 32 .ro 0, fi 48 1 .ro 0, fi 49 1 .w1c 0]
def fs_gutCtrl : List FieldInfo := [fi 0 1 .ro 0, fi 1 1 .rw 1]
def fs_gutStatus : List FieldInfo := [fi 0 1 .w1c 0, fi 1 1 .w1c 0, fi 2 1 .w1c 0]
def fs_gutHead : List FieldInfo := [fi 0 14 .ro 0, fi 32 32 .ro 0]
def fs_gutDrop : List FieldInfo := [fi 0 16 .rc 0, fi 16 16 .rc 0, fi 32 16 .rc 0, fi 48 16 .rc 0]
def fs_gutSuppress : List FieldInfo := [fi 0 32 .rc 0, fi 32 32 .rc 0]
def fs_gutHeld : List FieldInfo := [fi 0 16 .ro 0, fi 16 16 .ro 0]
def fs_gutTime : List FieldInfo := [fi 0 32 .ro 0, fi 32 24 .ro 0]
def fs_gutNv : List FieldInfo := [fi 0 17 .ro 0, fi 32 13 .ro 0, fi 48 16 .rc 0]

/-- The fields of each register, from its table (assumption log 7 for factory and firmware values). -/
def Reg.fields : Reg → List FieldInfo
  | .cfgIdent => fs_cfgIdent
  | .cfgDie => fs_cfgDie
  | .cfgBondout => fs_cfgBondout
  | .cfgDevnum => fs_cfgDevnum
  | .cfgMemstate => fs_cfgMemstate
  | .cfgSerial => fs_cfgSerial
  | .tbnTime => fs_tbnTime
  | .tbnBatten => fs_tbnBatten
  | .tbnNextTick => fs_tbnNextTick
  | .tbnInterval => fs_tbnInterval
  | .tbnSlots => fs_tbnSlots
  | .tbnOvr => fs_tbnOvr
  | .tbnSync => fs_tbnSync
  | .tbnOffset => fs_tbnOffset
  | .tbnCourse => fs_tbnCourse
  | .tbnCstate => fs_tbnCstate
  | .tbnOvrcnt => fs_tbnOvrcnt
  | .tbnStagger => fs_tbnStagger
  | .tbnBarcnt => fs_tbnBarcnt
  | .tbnStatus => fs_tbnStatus
  | .tbnStq => fs_tbnStq
  | .accCtrl => fs_accCtrl
  | .accStatus => fs_accStatus
  | .accHazcnt => fs_accHazcnt
  | .accLsum => fs_accLsum
  | .accTstat => fs_accTstat
  | .accSeg => fs_accSeg
  | .accSegsel => fs_accSegsel
  | .ccCtrl => fs_ccCtrl
  | .ccState => fs_ccState
  | .ccFault => fs_ccFault
  | .ccFaddr => fs_ccFaddr
  | .ccRetired => fs_ccRetired
  | .vecStatus => fs_vecStatus
  | .dmaStatus => fs_dmaStatus
  | .dmaBytes => fs_dmaBytes
  | .audCtrl => fs_audCtrl
  | .audCnt => fs_audCnt
  | .audExt => fs_audExt
  | .audLast => fs_audLast
  | .ylmCtrl => fs_ylmCtrl
  | .ylmStatus => fs_ylmStatus
  | .ylmOutstanding => fs_ylmOutstanding
  | .ylmStageBase => fs_ylmStageBase
  | .ylmEaves => fs_ylmEaves
  | .ylmIndices => fs_ylmIndices
  | .ylmFetches => fs_ylmFetches
  | .ylmEavesCnt => fs_ylmEavesCnt
  | .ylmDedupCnt => fs_ylmDedupCnt
  | .ylmStageCnt => fs_ylmStageCnt
  | .ylmBagCnt => fs_ylmBagCnt
  | .ylmAdds => fs_ylmAdds
  | .ylmMoeCnt => fs_ylmMoeCnt
  | .ylmRemoteCnt => fs_ylmRemoteCnt
  | .updUctrl => fs_updUctrl
  | .updDeltaBase => fs_updDeltaBase
  | .updDeltaCfg => fs_updDeltaCfg
  | .updSpillBase => fs_updSpillBase
  | .updSpillCfg => fs_updSpillCfg
  | .updOcc => fs_updOcc
  | .updStatus => fs_updStatus
  | .updAdds => fs_updAdds
  | .updFoldcnt => fs_updFoldcnt
  | .updHeadcnt => fs_updHeadcnt
  | .updBindBase => fs_updBindBase
  | .updProgValid => fs_updProgValid
  | .memCtrl => fs_memCtrl
  | .memStatus => fs_memStatus
  | .memCecnt => fs_memCecnt
  | .memUecnt => fs_memUecnt
  | .memErraddr => fs_memErraddr
  | .memErrinfo => fs_memErrinfo
  | .memCal => fs_memCal
  | .memScrub => fs_memScrub
  | .memCh => fs_memCh
  | .blkCtrl => fs_blkCtrl
  | .blkErrinfo => fs_blkErrinfo
  | .blkRefrate => fs_blkRefrate
  | .blkCh => fs_blkCh
  | .jflPctrl => fs_jflPctrl
  | .jflPstatus => fs_jflPstatus
  | .jflPerr => fs_jflPerr
  | .jflPtx => fs_jflPtx
  | .jflPrx => fs_jflPrx
  | .jflCfg => fs_jflCfg
  | .jflStatus => fs_jflStatus
  | .jflCnt => fs_jflCnt
  | .jflDupcnt => fs_jflDupcnt
  | .jflEpoch => fs_jflEpoch
  | .jflSyncRtt => fs_jflSyncRtt
  | .jflLevel => fs_jflLevel
  | .jflLost => fs_jflLost
  | .ethCtrl => fs_ethCtrl
  | .ethStatus => fs_ethStatus
  | .ethMac => fs_ethMac
  | .ethIp4 => fs_ethIp4
  | .ethIp6Hi => fs_ethIp6Hi
  | .ethIp6Lo => fs_ethIp6Lo
  | .ethQpBase => fs_ethQpBase
  | .ethMrBase => fs_ethMrBase
  | .ethRxbytes => fs_ethRxbytes
  | .ethTxbytes => fs_ethTxbytes
  | .ethErrcnt => fs_ethErrcnt
  | .ethCong => fs_ethCong
  | .ldgCtrl => fs_ldgCtrl
  | .ldgDkey => fs_ldgDkey
  | .ldgRingBase => fs_ldgRingBase
  | .ldgDetailBase => fs_ldgDetailBase
  | .ldgBattenBase => fs_ldgBattenBase
  | .ldgRingCfg => fs_ldgRingCfg
  | .ldgDetailCfg => fs_ldgDetailCfg
  | .ldgBattenCfg => fs_ldgBattenCfg
  | .ldgHead => fs_ldgHead
  | .ldgDhead => fs_ldgDhead
  | .ldgBhead => fs_ldgBhead
  | .ldgExport => fs_ldgExport
  | .ldgExportAddr => fs_ldgExportAddr
  | .ldgExportRkey => fs_ldgExportRkey
  | .ldgCmp => fs_ldgCmp
  | .ldgCmpPeers => fs_ldgCmpPeers
  | .ldgStatus => fs_ldgStatus
  | .ldgCnt => fs_ldgCnt
  | .ldgDen => fs_ldgDen
  | .ldgCmpen => fs_ldgCmpen
  | .ldgDinv => fs_ldgDinv
  | .ldgDigest => fs_ldgDigest
  | .hifLink => fs_hifLink
  | .hifCtrl => fs_hifCtrl
  | .hifEpoch => fs_hifEpoch
  | .hifStatus => fs_hifStatus
  | .hifDropcnt => fs_hifDropcnt
  | .hifErrcnt => fs_hifErrcnt
  | .hifFence => fs_hifFence
  | .hifBiasCnt => fs_hifBiasCnt
  | .qpFwver => fs_qpFwver
  | .qpStatus => fs_qpStatus
  | .qpPackets => fs_qpPackets
  | .qpSqbase => fs_qpSqbase
  | .qpCqbase => fs_qpCqbase
  | .qpQcfg => fs_qpQcfg
  | .qpQstate => fs_qpQstate
  | .qpQseq => fs_qpQseq
  | .qpQdb => fs_qpQdb
  | .qpQerr => fs_qpQerr
  | .qpQidx => fs_qpQidx
  | .qpQcnt => fs_qpQcnt
  | .pwrCtrl => fs_pwrCtrl
  | .pwrCap => fs_pwrCap
  | .pwrState => fs_pwrState
  | .pwrTemp => fs_pwrTemp
  | .pwrSupply => fs_pwrSupply
  | .pwrInput => fs_pwrInput
  | .pwrStatus => fs_pwrStatus
  | .pwrCnt => fs_pwrCnt
  | .pwrDroopcnt => fs_pwrDroopcnt
  | .pwrEnergy => fs_pwrEnergy
  | .pwrIdle => fs_pwrIdle
  | .pwrCoef => fs_pwrCoef
  | .pwrPolicy => fs_pwrPolicy
  | .secStatus => fs_secStatus
  | .secRollback => fs_secRollback
  | .secFwver => fs_secFwver
  | .secFwdigest => fs_secFwdigest
  | .secChallenge => fs_secChallenge
  | .secDormer => fs_secDormer
  | .secMeas => fs_secMeas
  | .cfgSetctrl => fs_cfgSetctrl
  | .cfgSetstatus => fs_cfgSetstatus
  | .gutCtrl => fs_gutCtrl
  | .gutStatus => fs_gutStatus
  | .gutHead => fs_gutHead
  | .gutDrop => fs_gutDrop
  | .gutSuppress => fs_gutSuppress
  | .gutHeld => fs_gutHeld
  | .gutTime => fs_gutTime
  | .gutNv => fs_gutNv

/-- Every register, in the order of the spec. -/
def allRegs : List Reg :=
  [.cfgIdent, .cfgDie, .cfgBondout, .cfgDevnum, .cfgMemstate, .cfgSerial, .tbnTime, .tbnBatten, .tbnNextTick,
   .tbnInterval, .tbnSlots, .tbnOvr, .tbnSync, .tbnOffset, .tbnCourse, .tbnCstate, .tbnOvrcnt, .tbnStagger,
   .tbnBarcnt, .tbnStatus, .tbnStq, .accCtrl, .accStatus, .accHazcnt, .accLsum, .accTstat, .accSeg, .accSegsel,
   .ccCtrl, .ccState, .ccFault, .ccFaddr, .ccRetired, .vecStatus, .dmaStatus, .dmaBytes, .audCtrl, .audCnt,
   .audExt, .audLast, .ylmCtrl, .ylmStatus, .ylmOutstanding, .ylmStageBase, .ylmEaves, .ylmIndices, .ylmFetches,
   .ylmEavesCnt, .ylmDedupCnt, .ylmStageCnt, .ylmBagCnt, .ylmAdds, .ylmMoeCnt, .ylmRemoteCnt, .updUctrl,
   .updDeltaBase, .updDeltaCfg, .updSpillBase, .updSpillCfg, .updOcc, .updStatus, .updAdds, .updFoldcnt,
   .updHeadcnt, .updBindBase, .updProgValid, .memCtrl, .memStatus, .memCecnt, .memUecnt, .memErraddr,
   .memErrinfo, .memCal, .memScrub, .memCh, .blkCtrl, .blkErrinfo, .blkRefrate, .blkCh, .jflPctrl, .jflPstatus,
   .jflPerr, .jflPtx, .jflPrx, .jflCfg, .jflStatus, .jflCnt, .jflDupcnt, .jflEpoch, .jflSyncRtt, .jflLevel,
   .jflLost, .ethCtrl, .ethStatus, .ethMac, .ethIp4, .ethIp6Hi, .ethIp6Lo, .ethQpBase, .ethMrBase, .ethRxbytes,
   .ethTxbytes, .ethErrcnt, .ethCong, .ldgCtrl, .ldgDkey, .ldgRingBase, .ldgDetailBase, .ldgBattenBase,
   .ldgRingCfg, .ldgDetailCfg, .ldgBattenCfg, .ldgHead, .ldgDhead, .ldgBhead, .ldgExport, .ldgExportAddr,
   .ldgExportRkey, .ldgCmp, .ldgCmpPeers, .ldgStatus, .ldgCnt, .ldgDen, .ldgCmpen, .ldgDinv, .ldgDigest,
   .hifLink, .hifCtrl, .hifEpoch, .hifStatus, .hifDropcnt, .hifErrcnt, .hifFence, .hifBiasCnt, .qpFwver,
   .qpStatus, .qpPackets, .qpSqbase, .qpCqbase, .qpQcfg, .qpQstate, .qpQseq, .qpQdb, .qpQerr, .qpQidx, .qpQcnt,
   .pwrCtrl, .pwrCap, .pwrState, .pwrTemp, .pwrSupply, .pwrInput, .pwrStatus, .pwrCnt, .pwrDroopcnt, .pwrEnergy,
   .pwrIdle, .pwrCoef, .pwrPolicy, .secStatus, .secRollback, .secFwver, .secFwdigest, .secChallenge, .secDormer,
   .secMeas, .cfgSetctrl, .cfgSetstatus, .gutCtrl, .gutStatus, .gutHead, .gutDrop, .gutSuppress, .gutHeld,
   .gutTime, .gutNv]

namespace F
def CFG_IDENT_VENDOR : Fld := ⟨.cfgIdent, 0, 16⟩
def CFG_IDENT_PRODUCT : Fld := ⟨.cfgIdent, 16, 16⟩
def CFG_IDENT_STEPPING : Fld := ⟨.cfgIdent, 32, 8⟩
def CFG_IDENT_DIES : Fld := ⟨.cfgIdent, 40, 4⟩
def CFG_DIE_DIE : Fld := ⟨.cfgDie, 0, 3⟩
def CFG_DIE_ROW : Fld := ⟨.cfgDie, 3, 1⟩
def CFG_DIE_COL : Fld := ⟨.cfgDie, 4, 2⟩
def CFG_BONDOUT_HIF : Fld := ⟨.cfgBondout, 0, 1⟩
def CFG_BONDOUT_ETH : Fld := ⟨.cfgBondout, 1, 1⟩
def CFG_BONDOUT_SOFFIT : Fld := ⟨.cfgBondout, 2, 1⟩
def CFG_BONDOUT_SEC : Fld := ⟨.cfgBondout, 3, 1⟩
def CFG_BONDOUT_GUT_MASTER : Fld := ⟨.cfgBondout, 4, 1⟩
def CFG_DEVNUM_DEVNUM : Fld := ⟨.cfgDevnum, 0, 11⟩
def CFG_DEVNUM_VALID : Fld := ⟨.cfgDevnum, 16, 1⟩
def CFG_MEMSTATE_NEAR_UP : Fld := ⟨.cfgMemstate, 0, 16⟩
def CFG_MEMSTATE_BULK_UP : Fld := ⟨.cfgMemstate, 16, 32⟩
def CFG_SERIAL_SERIAL : Fld := ⟨.cfgSerial, 0, 64⟩
def TBN_TIME_TIME : Fld := ⟨.tbnTime, 0, 64⟩
def TBN_BATTEN_BATTEN : Fld := ⟨.tbnBatten, 0, 64⟩
def TBN_NEXT_TICK_NEXT : Fld := ⟨.tbnNextTick, 0, 64⟩
def TBN_INTERVAL_INTERVAL_US : Fld := ⟨.tbnInterval, 0, 15⟩
def TBN_SLOTS_CAL_PM : Fld := ⟨.tbnSlots, 0, 8⟩
def TBN_SLOTS_SCRUB_PM : Fld := ⟨.tbnSlots, 8, 8⟩
def TBN_SLOTS_LEDGER_PM : Fld := ⟨.tbnSlots, 16, 8⟩
def TBN_OVR_MODE : Fld := ⟨.tbnOvr, 0, 2⟩
def TBN_OVR_QUANTUM_US : Fld := ⟨.tbnOvr, 2, 10⟩
def TBN_OVR_MAXDEFER : Fld := ⟨.tbnOvr, 12, 8⟩
def TBN_SYNC_ROLE : Fld := ⟨.tbnSync, 0, 2⟩
def TBN_SYNC_LOCKED : Fld := ⟨.tbnSync, 2, 1⟩
def TBN_SYNC_HOLDOVER : Fld := ⟨.tbnSync, 3, 1⟩
def TBN_SYNC_MISSED : Fld := ⟨.tbnSync, 16, 8⟩
def TBN_OFFSET_OFFSET : Fld := ⟨.tbnOffset, 0, 32⟩
def TBN_COURSE_COURSE : Fld := ⟨.tbnCourse, 0, 64⟩
def TBN_CSTATE_STATE : Fld := ⟨.tbnCstate, 0, 3⟩
def TBN_CSTATE_BIDX : Fld := ⟨.tbnCstate, 16, 17⟩
def TBN_CSTATE_PLANNED : Fld := ⟨.tbnCstate, 40, 16⟩
def TBN_OVRCNT_OVERRUNS : Fld := ⟨.tbnOvrcnt, 0, 32⟩
def TBN_OVRCNT_DEFER_QUANTA : Fld := ⟨.tbnOvrcnt, 32, 32⟩
def TBN_STAGGER_STEP : Fld := ⟨.tbnStagger, 0, 7⟩
def TBN_STAGGER_PWR_WAIT : Fld := ⟨.tbnStagger, 8, 5⟩
def TBN_BARCNT_RELEASES : Fld := ⟨.tbnBarcnt, 0, 32⟩
def TBN_BARCNT_PWR_TIMEOUTS : Fld := ⟨.tbnBarcnt, 32, 32⟩
def TBN_STATUS_OVERRUN : Fld := ⟨.tbnStatus, 0, 1⟩
def TBN_STATUS_OVR_FAULT : Fld := ⟨.tbnStatus, 1, 1⟩
def TBN_STATUS_SYNC_LOST : Fld := ⟨.tbnStatus, 2, 1⟩
def TBN_STATUS_SLIP : Fld := ⟨.tbnStatus, 3, 1⟩
def TBN_STATUS_CARRY : Fld := ⟨.tbnStatus, 4, 1⟩
def TBN_STATUS_STQ_NONEMPTY_AT_END : Fld := ⟨.tbnStatus, 5, 1⟩
def TBN_STATUS_SETTING_REJECTED : Fld := ⟨.tbnStatus, 6, 1⟩
def TBN_STQ_FILL : Fld := ⟨.tbnStq, 0, 9⟩
def TBN_STQ_VALID : Fld := ⟨.tbnStq, 9, 1⟩
def TBN_STQ_STALL_US : Fld := ⟨.tbnStq, 16, 24⟩
def TBN_STQ_STARVE_US : Fld := ⟨.tbnStq, 40, 24⟩
def ACC_CTRL_STRICT : Fld := ⟨.accCtrl, 0, 1⟩
def ACC_CTRL_COMP : Fld := ⟨.accCtrl, 8, 8⟩
def ACC_STATUS_BUSY : Fld := ⟨.accStatus, 0, 32⟩
def ACC_STATUS_HAZARD_FAULT : Fld := ⟨.accStatus, 32, 1⟩
def ACC_STATUS_LSOVF_FAULT : Fld := ⟨.accStatus, 33, 1⟩
def ACC_STATUS_PARTNER_FAULT : Fld := ⟨.accStatus, 34, 1⟩
def ACC_STATUS_COMP_CHANGE_REJECTED : Fld := ⟨.accStatus, 35, 1⟩
def ACC_STATUS_LONGSUM_ANY : Fld := ⟨.accStatus, 36, 1⟩
def ACC_HAZCNT_HAZARD_WAITS : Fld := ⟨.accHazcnt, 0, 32⟩
def ACC_HAZCNT_JOIN_WAITS : Fld := ⟨.accHazcnt, 32, 32⟩
def ACC_LSUM_LSOVF_COUNT : Fld := ⟨.accLsum, 0, 32⟩
def ACC_LSUM_SEGMENTS_CLOSED : Fld := ⟨.accLsum, 32, 32⟩
def ACC_TSTAT_TERMS : Fld := ⟨.accTstat, 0, 32⟩
def ACC_TSTAT_LONGSUM : Fld := ⟨.accTstat, 32, 1⟩
def ACC_TSTAT_OVER : Fld := ⟨.accTstat, 33, 1⟩
def ACC_TSTAT_COMP : Fld := ⟨.accTstat, 34, 1⟩
def ACC_TSTAT_PARTNER : Fld := ⟨.accTstat, 35, 1⟩
def ACC_TSTAT_SEGS : Fld := ⟨.accTstat, 36, 12⟩
def ACC_TSTAT_SATCNT : Fld := ⟨.accTstat, 48, 16⟩
def ACC_SEG_SEG_HI : Fld := ⟨.accSeg, 0, 32⟩
def ACC_SEG_SEG_LO : Fld := ⟨.accSeg, 32, 32⟩
def ACC_SEGSEL_ELEM : Fld := ⟨.accSegsel, 0, 10⟩
def CC_CTRL_HALT : Fld := ⟨.ccCtrl, 0, 1⟩
def CC_CTRL_STEP : Fld := ⟨.ccCtrl, 1, 1⟩
def CC_STATE_STATE : Fld := ⟨.ccState, 0, 2⟩
def CC_STATE_SLOT_WAIT : Fld := ⟨.ccState, 2, 1⟩
def CC_STATE_BAR_WAIT : Fld := ⟨.ccState, 3, 1⟩
def CC_STATE_SQ_WAIT : Fld := ⟨.ccState, 4, 1⟩
def CC_STATE_REG_WAIT : Fld := ⟨.ccState, 5, 1⟩
def CC_STATE_HALTED : Fld := ⟨.ccState, 6, 1⟩
def CC_STATE_QUEUE : Fld := ⟨.ccState, 16, 14⟩
def CC_STATE_PC : Fld := ⟨.ccState, 32, 18⟩
def CC_FAULT_CODE : Fld := ⟨.ccFault, 0, 8⟩
def CC_FAULT_VALID : Fld := ⟨.ccFault, 8, 1⟩
def CC_FAULT_PC : Fld := ⟨.ccFault, 16, 18⟩
def CC_FADDR_ADDR : Fld := ⟨.ccFaddr, 0, 64⟩
def CC_RETIRED_COUNT : Fld := ⟨.ccRetired, 0, 64⟩
def VEC_STATUS_BUSY : Fld := ⟨.vecStatus, 0, 1⟩
def VEC_STATUS_AUDIT : Fld := ⟨.vecStatus, 1, 1⟩
def VEC_STATUS_AUDIT_PRIORITY : Fld := ⟨.vecStatus, 2, 1⟩
def VEC_STATUS_QDEPTH : Fld := ⟨.vecStatus, 8, 5⟩
def DMA_STATUS_BUSY : Fld := ⟨.dmaStatus, 0, 4⟩
def DMA_BYTES_BYTES : Fld := ⟨.dmaBytes, 0, 64⟩
def AUD_CTRL_RATE : Fld := ⟨.audCtrl, 0, 16⟩
def AUD_CTRL_EN : Fld := ⟨.audCtrl, 16, 1⟩
def AUD_CNT_SAMPLED : Fld := ⟨.audCnt, 0, 32⟩
def AUD_CNT_AGREED : Fld := ⟨.audCnt, 32, 32⟩
def AUD_EXT_MAXRHO : Fld := ⟨.audExt, 0, 32⟩
def AUD_EXT_EXCLUDED : Fld := ⟨.audExt, 32, 16⟩
def AUD_EXT_PENDING : Fld := ⟨.audExt, 48, 2⟩
def AUD_LAST_ORDINAL : Fld := ⟨.audLast, 0, 30⟩
def AUD_LAST_TILE : Fld := ⟨.audLast, 30, 5⟩
def AUD_LAST_ROW : Fld := ⟨.audLast, 35, 5⟩
def YLM_CTRL_FORCE_SORT : Fld := ⟨.ylmCtrl, 0, 1⟩
def YLM_CTRL_EAVES_OFF : Fld := ⟨.ylmCtrl, 1, 1⟩
def YLM_STATUS_ACTIVE : Fld := ⟨.ylmStatus, 0, 5⟩
def YLM_STATUS_DESC_ERROR : Fld := ⟨.ylmStatus, 8, 1⟩
def YLM_STATUS_REMOTE_FAIL : Fld := ⟨.ylmStatus, 9, 1⟩
def YLM_STATUS_STAGE_ERROR : Fld := ⟨.ylmStatus, 10, 1⟩
def YLM_STATUS_SETTING_REJECTED : Fld := ⟨.ylmStatus, 11, 1⟩
def YLM_OUTSTANDING_CURRENT : Fld := ⟨.ylmOutstanding, 0, 15⟩
def YLM_OUTSTANDING_PEAK : Fld := ⟨.ylmOutstanding, 16, 15⟩
def YLM_STAGE_BASE_BASE : Fld := ⟨.ylmStageBase, 6, 37⟩
def YLM_EAVES_ENTRIES : Fld := ⟨.ylmEaves, 0, 32⟩
def YLM_EAVES_HALF : Fld := ⟨.ylmEaves, 32, 32⟩
def YLM_INDICES_INDICES : Fld := ⟨.ylmIndices, 0, 64⟩
def YLM_FETCHES_LINES : Fld := ⟨.ylmFetches, 0, 64⟩
def YLM_EAVES_CNT_HITS : Fld := ⟨.ylmEavesCnt, 0, 32⟩
def YLM_EAVES_CNT_EAVES_BYPASS : Fld := ⟨.ylmEavesCnt, 32, 32⟩
def YLM_DEDUP_CNT_SORTPATH : Fld := ⟨.ylmDedupCnt, 0, 32⟩
def YLM_DEDUP_CNT_PLAN_STALE : Fld := ⟨.ylmDedupCnt, 32, 16⟩
def YLM_STAGE_CNT_STAGED : Fld := ⟨.ylmStageCnt, 0, 32⟩
def YLM_STAGE_CNT_EAVES_FULL : Fld := ⟨.ylmStageCnt, 32, 32⟩
def YLM_BAG_CNT_EMPTY : Fld := ⟨.ylmBagCnt, 0, 32⟩
def YLM_BAG_CNT_BADIDX : Fld := ⟨.ylmBagCnt, 32, 32⟩
def YLM_ADDS_ROW_ADDS : Fld := ⟨.ylmAdds, 0, 64⟩
def YLM_MOE_CNT_DISPATCHED : Fld := ⟨.ylmMoeCnt, 0, 32⟩
def YLM_MOE_CNT_DROPPED : Fld := ⟨.ylmMoeCnt, 32, 32⟩
def YLM_REMOTE_CNT_REQUESTS : Fld := ⟨.ylmRemoteCnt, 0, 32⟩
def YLM_REMOTE_CNT_FAILED : Fld := ⟨.ylmRemoteCnt, 32, 16⟩
def UPD_UCTRL_MODE : Fld := ⟨.updUctrl, 0, 1⟩
def UPD_DELTA_BASE_BASE : Fld := ⟨.updDeltaBase, 6, 37⟩
def UPD_DELTA_CFG_ENTRY_LINES : Fld := ⟨.updDeltaCfg, 0, 9⟩
def UPD_DELTA_CFG_ENTRIES : Fld := ⟨.updDeltaCfg, 16, 24⟩
def UPD_SPILL_BASE_BASE : Fld := ⟨.updSpillBase, 6, 37⟩
def UPD_SPILL_CFG_RECORDS : Fld := ⟨.updSpillCfg, 0, 24⟩
def UPD_OCC_USED : Fld := ⟨.updOcc, 0, 24⟩
def UPD_OCC_SPILLED : Fld := ⟨.updOcc, 24, 24⟩
def UPD_STATUS_SPILL : Fld := ⟨.updStatus, 0, 1⟩
def UPD_STATUS_DELTA_FULL : Fld := ⟨.updStatus, 1, 1⟩
def UPD_STATUS_HEADROOM : Fld := ⟨.updStatus, 2, 1⟩
def UPD_STATUS_ROW_SKIPPED : Fld := ⟨.updStatus, 3, 1⟩
def UPD_STATUS_REMOTE_REFUSED : Fld := ⟨.updStatus, 4, 1⟩
def UPD_STATUS_SETTING_REJECTED : Fld := ⟨.updStatus, 5, 1⟩
def UPD_STATUS_FOLDING : Fld := ⟨.updStatus, 8, 1⟩
def UPD_ADDS_ADDS : Fld := ⟨.updAdds, 0, 64⟩
def UPD_FOLDCNT_ROWS : Fld := ⟨.updFoldcnt, 0, 32⟩
def UPD_FOLDCNT_DENSE_ROWS : Fld := ⟨.updFoldcnt, 32, 32⟩
def UPD_HEADCNT_HEADROOM_ROWS : Fld := ⟨.updHeadcnt, 0, 32⟩
def UPD_HEADCNT_SKIPPED_ROWS : Fld := ⟨.updHeadcnt, 32, 32⟩
def UPD_BIND_BASE_BASE : Fld := ⟨.updBindBase, 6, 37⟩
def UPD_PROG_VALID_VALID : Fld := ⟨.updProgValid, 0, 64⟩
def MEM_CTRL_SCRUB_EN : Fld := ⟨.memCtrl, 0, 1⟩
def MEM_CTRL_CAL_EN : Fld := ⟨.memCtrl, 1, 1⟩
def MEM_CTRL_SCRUB_LINES : Fld := ⟨.memCtrl, 2, 10⟩
def MEM_CTRL_CE_URGENT : Fld := ⟨.memCtrl, 16, 8⟩
def MEM_CTRL_MARGIN_FLOOR : Fld := ⟨.memCtrl, 24, 8⟩
def MEM_STATUS_CE : Fld := ⟨.memStatus, 0, 1⟩
def MEM_STATUS_UE : Fld := ⟨.memStatus, 1, 1⟩
def MEM_STATUS_PARTIAL_DROPPED : Fld := ⟨.memStatus, 2, 1⟩
def MEM_STATUS_CAL_FAIL : Fld := ⟨.memStatus, 3, 1⟩
def MEM_STATUS_MARGIN_LOW : Fld := ⟨.memStatus, 4, 1⟩
def MEM_STATUS_SETTING_REJECTED : Fld := ⟨.memStatus, 5, 1⟩
def MEM_STATUS_CAL_ACTIVE : Fld := ⟨.memStatus, 8, 1⟩
def MEM_STATUS_CAL_CH : Fld := ⟨.memStatus, 9, 7⟩
def MEM_CECNT_DEMAND_CE : Fld := ⟨.memCecnt, 0, 32⟩
def MEM_CECNT_SCRUB_CE : Fld := ⟨.memCecnt, 32, 32⟩
def MEM_UECNT_DEMAND_UE : Fld := ⟨.memUecnt, 0, 32⟩
def MEM_UECNT_SCRUB_UE : Fld := ⟨.memUecnt, 32, 32⟩
def MEM_ERRADDR_LINE : Fld := ⟨.memErraddr, 6, 37⟩
def MEM_ERRADDR_SCRUB : Fld := ⟨.memErraddr, 59, 1⟩
def MEM_ERRADDR_TYPE : Fld := ⟨.memErraddr, 60, 2⟩
def MEM_ERRADDR_VALID : Fld := ⟨.memErraddr, 63, 1⟩
def MEM_ERRINFO_CH : Fld := ⟨.memErrinfo, 0, 7⟩
def MEM_ERRINFO_SYM0 : Fld := ⟨.memErrinfo, 8, 6⟩
def MEM_ERRINFO_SYM1 : Fld := ⟨.memErrinfo, 16, 6⟩
def MEM_ERRINFO_NSYM : Fld := ⟨.memErrinfo, 24, 2⟩
def MEM_ERRINFO_TIME : Fld := ⟨.memErrinfo, 32, 32⟩
def MEM_CAL_RETRAINS : Fld := ⟨.memCal, 0, 32⟩
def MEM_CAL_FAILS : Fld := ⟨.memCal, 32, 16⟩
def MEM_SCRUB_POINTER : Fld := ⟨.memScrub, 0, 24⟩
def MEM_SCRUB_PASSES : Fld := ⟨.memScrub, 32, 32⟩
def MEM_CH_CE : Fld := ⟨.memCh, 0, 16⟩
def MEM_CH_UE : Fld := ⟨.memCh, 16, 16⟩
def MEM_CH_CALFAIL_SEQ : Fld := ⟨.memCh, 32, 4⟩
def MEM_CH_MARGIN : Fld := ⟨.memCh, 40, 8⟩
def BLK_CTRL_SCRUB_EN : Fld := ⟨.blkCtrl, 0, 1⟩
def BLK_CTRL_CAL_EN : Fld := ⟨.blkCtrl, 1, 1⟩
def BLK_CTRL_SCRUB_LINES : Fld := ⟨.blkCtrl, 2, 10⟩
def BLK_CTRL_CE_URGENT : Fld := ⟨.blkCtrl, 16, 8⟩
def BLK_CTRL_MARGIN_FLOOR : Fld := ⟨.blkCtrl, 24, 8⟩
def BLK_ERRINFO_CH : Fld := ⟨.blkErrinfo, 0, 4⟩
def BLK_ERRINFO_SYM0 : Fld := ⟨.blkErrinfo, 8, 6⟩
def BLK_ERRINFO_SYM1 : Fld := ⟨.blkErrinfo, 16, 6⟩
def BLK_ERRINFO_NSYM : Fld := ⟨.blkErrinfo, 24, 2⟩
def BLK_ERRINFO_TIME : Fld := ⟨.blkErrinfo, 32, 32⟩
def BLK_REFRATE_RATE0 : Fld := ⟨.blkRefrate, 0, 4⟩
def BLK_REFRATE_RATE1 : Fld := ⟨.blkRefrate, 4, 4⟩
def BLK_REFRATE_RATE2 : Fld := ⟨.blkRefrate, 8, 4⟩
def BLK_REFRATE_RATE3 : Fld := ⟨.blkRefrate, 12, 4⟩
def BLK_CH_CE : Fld := ⟨.blkCh, 0, 16⟩
def BLK_CH_UE : Fld := ⟨.blkCh, 16, 16⟩
def BLK_CH_CALFAIL_SEQ : Fld := ⟨.blkCh, 32, 4⟩
def BLK_CH_MARGIN : Fld := ⟨.blkCh, 40, 8⟩
def JFL_PCTRL_EN : Fld := ⟨.jflPctrl, 0, 1⟩
def JFL_PCTRL_RETRAIN : Fld := ⟨.jflPctrl, 1, 1⟩
def JFL_PCTRL_MAXVER : Fld := ⟨.jflPctrl, 2, 2⟩
def JFL_PSTATUS_STATE : Fld := ⟨.jflPstatus, 0, 3⟩
def JFL_PSTATUS_VERSION : Fld := ⟨.jflPstatus, 3, 2⟩
def JFL_PSTATUS_LEVEL : Fld := ⟨.jflPstatus, 5, 2⟩
def JFL_PSTATUS_PEER_DEVNUM : Fld := ⟨.jflPstatus, 8, 11⟩
def JFL_PSTATUS_PEER_VALID : Fld := ⟨.jflPstatus, 19, 1⟩
def JFL_PSTATUS_PEER_PORT : Fld := ⟨.jflPstatus, 20, 5⟩
def JFL_PSTATUS_PEER_SLOT : Fld := ⟨.jflPstatus, 25, 2⟩
def JFL_PSTATUS_TRAININGS : Fld := ⟨.jflPstatus, 32, 16⟩
def JFL_PERR_REPLAYS : Fld := ⟨.jflPerr, 0, 32⟩
def JFL_PERR_FEC_UNCORR : Fld := ⟨.jflPerr, 32, 16⟩
def JFL_PERR_DOWNS : Fld := ⟨.jflPerr, 48, 16⟩
def JFL_PTX_FLITS : Fld := ⟨.jflPtx, 0, 64⟩
def JFL_PRX_FLITS : Fld := ⟨.jflPrx, 0, 64⟩
def JFL_CFG_REQ_TIMEOUT : Fld := ⟨.jflCfg, 0, 11⟩
def JFL_CFG_RETRIES : Fld := ⟨.jflCfg, 11, 2⟩
def JFL_CFG_PROBE_US : Fld := ⟨.jflCfg, 16, 10⟩
def JFL_CFG_LOSS_COUNT : Fld := ⟨.jflCfg, 26, 4⟩
def JFL_STATUS_LINK_DOWN : Fld := ⟨.jflStatus, 0, 1⟩
def JFL_STATUS_PEER_LOST : Fld := ⟨.jflStatus, 1, 1⟩
def JFL_STATUS_TIMEOUT : Fld := ⟨.jflStatus, 2, 1⟩
def JFL_STATUS_MISWIRED : Fld := ⟨.jflStatus, 3, 1⟩
def JFL_STATUS_VERSION_LINK1 : Fld := ⟨.jflStatus, 4, 1⟩
def JFL_STATUS_STALE : Fld := ⟨.jflStatus, 5, 1⟩
def JFL_STATUS_SETTING_REJECTED : Fld := ⟨.jflStatus, 6, 1⟩
def JFL_CNT_TIMEOUTS : Fld := ⟨.jflCnt, 0, 32⟩
def JFL_CNT_REISSUES : Fld := ⟨.jflCnt, 32, 32⟩
def JFL_DUPCNT_DUPLICATES : Fld := ⟨.jflDupcnt, 0, 32⟩
def JFL_DUPCNT_STALE_DROPPED : Fld := ⟨.jflDupcnt, 32, 32⟩
def JFL_EPOCH_EPOCH : Fld := ⟨.jflEpoch, 0, 16⟩
def JFL_SYNC_RTT_RTT_NS : Fld := ⟨.jflSyncRtt, 0, 32⟩
def JFL_LEVEL_PORTS_UP : Fld := ⟨.jflLevel, 0, 6⟩
def JFL_LEVEL_RTT_NS : Fld := ⟨.jflLevel, 8, 24⟩
def JFL_LOST_LOST : Fld := ⟨.jflLost, 0, 64⟩
def ETH_CTRL_EN : Fld := ⟨.ethCtrl, 0, 1⟩
def ETH_CTRL_MTU : Fld := ⟨.ethCtrl, 1, 2⟩
def ETH_CTRL_PFC_PRIO : Fld := ⟨.ethCtrl, 3, 3⟩
def ETH_CTRL_PFC_EN : Fld := ⟨.ethCtrl, 6, 1⟩
def ETH_CTRL_ECN_EN : Fld := ⟨.ethCtrl, 7, 1⟩
def ETH_STATUS_LINK_UP : Fld := ⟨.ethStatus, 0, 1⟩
def ETH_STATUS_FEC_LOCK : Fld := ⟨.ethStatus, 1, 1⟩
def ETH_STATUS_MODULE_PRESENT : Fld := ⟨.ethStatus, 2, 1⟩
def ETH_STATUS_QP_ERROR : Fld := ⟨.ethStatus, 8, 1⟩
def ETH_STATUS_LOCK_REFUSED : Fld := ⟨.ethStatus, 9, 1⟩
def ETH_STATUS_SETTING_REJECTED : Fld := ⟨.ethStatus, 10, 1⟩
def ETH_MAC_MAC : Fld := ⟨.ethMac, 0, 48⟩
def ETH_IP4_ADDR : Fld := ⟨.ethIp4, 0, 32⟩
def ETH_IP4_PREFIX : Fld := ⟨.ethIp4, 32, 6⟩
def ETH_IP6_HI_ADDR_HI : Fld := ⟨.ethIp6Hi, 0, 64⟩
def ETH_IP6_LO_ADDR_LO : Fld := ⟨.ethIp6Lo, 0, 64⟩
def ETH_QP_BASE_BASE : Fld := ⟨.ethQpBase, 6, 37⟩
def ETH_MR_BASE_BASE : Fld := ⟨.ethMrBase, 6, 37⟩
def ETH_RXBYTES_BYTES : Fld := ⟨.ethRxbytes, 0, 64⟩
def ETH_TXBYTES_BYTES : Fld := ⟨.ethTxbytes, 0, 64⟩
def ETH_ERRCNT_FCS_ERR : Fld := ⟨.ethErrcnt, 0, 16⟩
def ETH_ERRCNT_FEC_UNCORR : Fld := ⟨.ethErrcnt, 16, 16⟩
def ETH_ERRCNT_NAK_SENT : Fld := ⟨.ethErrcnt, 32, 16⟩
def ETH_ERRCNT_ICRC_ERR : Fld := ⟨.ethErrcnt, 48, 16⟩
def ETH_CONG_ECN_MARKED : Fld := ⟨.ethCong, 0, 32⟩
def ETH_CONG_CNP_SENT : Fld := ⟨.ethCong, 32, 32⟩
def LDG_CTRL_EN : Fld := ⟨.ldgCtrl, 0, 1⟩
def LDG_CTRL_CMP_EN : Fld := ⟨.ldgCtrl, 1, 1⟩
def LDG_CTRL_POLICY : Fld := ⟨.ldgCtrl, 2, 2⟩
def LDG_DKEY_KEY : Fld := ⟨.ldgDkey, 0, 64⟩
def LDG_RING_BASE_BASE : Fld := ⟨.ldgRingBase, 10, 33⟩
def LDG_DETAIL_BASE_BASE : Fld := ⟨.ldgDetailBase, 10, 33⟩
def LDG_BATTEN_BASE_BASE : Fld := ⟨.ldgBattenBase, 10, 33⟩
def LDG_RING_CFG_SIZE : Fld := ⟨.ldgRingCfg, 0, 24⟩
def LDG_DETAIL_CFG_SIZE : Fld := ⟨.ldgDetailCfg, 0, 24⟩
def LDG_BATTEN_CFG_SIZE : Fld := ⟨.ldgBattenCfg, 0, 24⟩
def LDG_HEAD_RECORDS : Fld := ⟨.ldgHead, 0, 32⟩
def LDG_HEAD_EXPORTED : Fld := ⟨.ldgHead, 32, 32⟩
def LDG_DHEAD_OFFSET : Fld := ⟨.ldgDhead, 0, 40⟩
def LDG_BHEAD_OFFSET : Fld := ⟨.ldgBhead, 0, 40⟩
def LDG_EXPORT_MODE : Fld := ⟨.ldgExport, 0, 2⟩
def LDG_EXPORT_PORT : Fld := ⟨.ldgExport, 2, 1⟩
def LDG_EXPORT_QP : Fld := ⟨.ldgExport, 3, 10⟩
def LDG_EXPORT_EXP_ENTRIES : Fld := ⟨.ldgExport, 16, 24⟩
def LDG_EXPORT_ADDR_EXP_ADDR : Fld := ⟨.ldgExportAddr, 0, 64⟩
def LDG_EXPORT_RKEY_EXP_RKEY : Fld := ⟨.ldgExportRkey, 0, 32⟩
def LDG_CMP_NREPL : Fld := ⟨.ldgCmp, 0, 7⟩
def LDG_CMP_RANK : Fld := ⟨.ldgCmp, 8, 6⟩
def LDG_CMP_PEERS_BASE : Fld := ⟨.ldgCmpPeers, 6, 37⟩
def LDG_STATUS_NOT_REPRO : Fld := ⟨.ldgStatus, 0, 1⟩
def LDG_STATUS_MISMATCH : Fld := ⟨.ldgStatus, 1, 1⟩
def LDG_STATUS_WIDESPREAD : Fld := ⟨.ldgStatus, 2, 1⟩
def LDG_STATUS_NO_MAJORITY : Fld := ⟨.ldgStatus, 3, 1⟩
def LDG_STATUS_DIGEST_FAULT : Fld := ⟨.ldgStatus, 4, 1⟩
def LDG_STATUS_REPAIR_FAIL : Fld := ⟨.ldgStatus, 5, 1⟩
def LDG_STATUS_DRIFT : Fld := ⟨.ldgStatus, 6, 1⟩
def LDG_STATUS_RING_WRAP : Fld := ⟨.ldgStatus, 7, 1⟩
def LDG_STATUS_EXPORT_FAIL : Fld := ⟨.ldgStatus, 8, 1⟩
def LDG_STATUS_SETTING_REJECTED : Fld := ⟨.ldgStatus, 9, 1⟩
def LDG_STATUS_BUILDING : Fld := ⟨.ldgStatus, 16, 1⟩
def LDG_STATUS_COMPARING : Fld := ⟨.ldgStatus, 17, 1⟩
def LDG_CNT_MISMATCHES : Fld := ⟨.ldgCnt, 0, 32⟩
def LDG_CNT_NOT_REPRO : Fld := ⟨.ldgCnt, 32, 32⟩
def LDG_DEN_EN : Fld := ⟨.ldgDen, 0, 64⟩
def LDG_CMPEN_CMP : Fld := ⟨.ldgCmpen, 0, 64⟩
def LDG_DINV_INV : Fld := ⟨.ldgDinv, 0, 64⟩
def LDG_DIGEST_D : Fld := ⟨.ldgDigest, 0, 64⟩
def HIF_LINK_MODE : Fld := ⟨.hifLink, 0, 2⟩
def HIF_LINK_SPEED : Fld := ⟨.hifLink, 4, 3⟩
def HIF_LINK_WIDTH : Fld := ⟨.hifLink, 8, 4⟩
def HIF_LINK_TRAININGS : Fld := ⟨.hifLink, 32, 16⟩
def HIF_CTRL_CXL_EN : Fld := ⟨.hifCtrl, 0, 1⟩
def HIF_CTRL_PERST_SCOPE : Fld := ⟨.hifCtrl, 1, 2⟩
def HIF_CTRL_RO_HOSTBOUND : Fld := ⟨.hifCtrl, 3, 1⟩
def HIF_EPOCH_EPOCH : Fld := ⟨.hifEpoch, 0, 16⟩
def HIF_STATUS_LINK_DOWN : Fld := ⟨.hifStatus, 0, 1⟩
def HIF_STATUS_PERST : Fld := ⟨.hifStatus, 1, 1⟩
def HIF_STATUS_FLR : Fld := ⟨.hifStatus, 2, 1⟩
def HIF_STATUS_POISON_RX : Fld := ⟨.hifStatus, 3, 1⟩
def HIF_STATUS_UR_SENT : Fld := ⟨.hifStatus, 4, 1⟩
def HIF_STATUS_HOST_ERROR : Fld := ⟨.hifStatus, 5, 1⟩
def HIF_STATUS_SETTING_REJECTED : Fld := ⟨.hifStatus, 6, 1⟩
def HIF_DROPCNT_WRITES : Fld := ⟨.hifDropcnt, 0, 32⟩
def HIF_DROPCNT_COMPLETIONS : Fld := ⟨.hifDropcnt, 32, 32⟩
def HIF_ERRCNT_POISON_RX : Fld := ⟨.hifErrcnt, 0, 16⟩
def HIF_ERRCNT_UR_SENT : Fld := ⟨.hifErrcnt, 16, 16⟩
def HIF_ERRCNT_CPL_TIMEOUT : Fld := ⟨.hifErrcnt, 32, 16⟩
def HIF_FENCE_FENCED : Fld := ⟨.hifFence, 0, 32⟩
def HIF_FENCE_MAX_DRAIN_NS : Fld := ⟨.hifFence, 32, 32⟩
def HIF_BIAS_CNT_HOST_FLIPS : Fld := ⟨.hifBiasCnt, 0, 32⟩
def HIF_BIAS_CNT_BIAS_SETS : Fld := ⟨.hifBiasCnt, 32, 32⟩
def QP_FWVER_VERSION : Fld := ⟨.qpFwver, 0, 32⟩
def QP_FWVER_IFMIN : Fld := ⟨.qpFwver, 32, 8⟩
def QP_FWVER_IFMAX : Fld := ⟨.qpFwver, 40, 8⟩
def QP_STATUS_TORN : Fld := ⟨.qpStatus, 0, 1⟩
def QP_STATUS_DOORBELL_RANGE : Fld := ⟨.qpStatus, 1, 1⟩
def QP_STATUS_SETTING_REJECTED : Fld := ⟨.qpStatus, 2, 1⟩
def QP_STATUS_ARMED : Fld := ⟨.qpStatus, 16, 12⟩
def QP_STATUS_SUSPENDED : Fld := ⟨.qpStatus, 32, 12⟩
def QP_PACKETS_PACKETS : Fld := ⟨.qpPackets, 0, 64⟩
def QP_SQBASE_BASE : Fld := ⟨.qpSqbase, 6, 58⟩
def QP_CQBASE_BASE : Fld := ⟨.qpCqbase, 6, 58⟩
def QP_QCFG_SQ_LOG2 : Fld := ⟨.qpQcfg, 0, 5⟩
def QP_QCFG_CQ_LOG2 : Fld := ⟨.qpQcfg, 8, 5⟩
def QP_QCFG_SQ_HOST : Fld := ⟨.qpQcfg, 16, 1⟩
def QP_QCFG_CQ_HOST : Fld := ⟨.qpQcfg, 17, 1⟩
def QP_QCFG_WADDING : Fld := ⟨.qpQcfg, 18, 1⟩
def QP_QCFG_VERSION : Fld := ⟨.qpQcfg, 20, 2⟩
def QP_QCFG_PRIO : Fld := ⟨.qpQcfg, 24, 2⟩
def QP_QCFG_MSIX_VEC : Fld := ⟨.qpQcfg, 32, 11⟩
def QP_QCFG_IRQ_EN : Fld := ⟨.qpQcfg, 43, 1⟩
def QP_QCFG_ARM : Fld := ⟨.qpQcfg, 48, 1⟩
def QP_QSTATE_STATE : Fld := ⟨.qpQstate, 0, 2⟩
def QP_QSTATE_INFLIGHT : Fld := ⟨.qpQstate, 8, 7⟩
def QP_QSTATE_QEPOCH : Fld := ⟨.qpQstate, 16, 16⟩
def QP_QSEQ_NEXT_SEQ : Fld := ⟨.qpQseq, 0, 32⟩
def QP_QSEQ_LAST_DONE : Fld := ⟨.qpQseq, 32, 32⟩
def QP_QDB_VALUE : Fld := ⟨.qpQdb, 0, 32⟩
def QP_QDB_WHICH : Fld := ⟨.qpQdb, 32, 1⟩
def QP_QERR_STATUS : Fld := ⟨.qpQerr, 0, 8⟩
def QP_QERR_DETAIL : Fld := ⟨.qpQerr, 8, 8⟩
def QP_QERR_SEQ : Fld := ⟨.qpQerr, 32, 32⟩
def QP_QIDX_SQ_HEAD : Fld := ⟨.qpQidx, 0, 32⟩
def QP_QIDX_CQ_TAIL : Fld := ⟨.qpQidx, 32, 32⟩
def QP_QCNT_COUNT : Fld := ⟨.qpQcnt, 0, 64⟩
def PWR_CTRL_REFIT_EN : Fld := ⟨.pwrCtrl, 0, 1⟩
def PWR_CTRL_HINT_EN : Fld := ⟨.pwrCtrl, 1, 1⟩
def PWR_CTRL_MIN_STEP : Fld := ⟨.pwrCtrl, 4, 4⟩
def PWR_CTRL_THROTTLE_C : Fld := ⟨.pwrCtrl, 8, 8⟩
def PWR_CTRL_WARN_C : Fld := ⟨.pwrCtrl, 16, 8⟩
def PWR_CTRL_DROOP_MV : Fld := ⟨.pwrCtrl, 24, 8⟩
def PWR_CAP_CAP_W : Fld := ⟨.pwrCap, 0, 12⟩
def PWR_STATE_STEP : Fld := ⟨.pwrState, 0, 4⟩
def PWR_STATE_MM_DUTY : Fld := ⟨.pwrState, 8, 5⟩
def PWR_STATE_MEM_DUTY : Fld := ⟨.pwrState, 16, 5⟩
def PWR_STATE_CAUSE_CAP : Fld := ⟨.pwrState, 24, 1⟩
def PWR_STATE_CAUSE_THERM : Fld := ⟨.pwrState, 25, 1⟩
def PWR_STATE_CAUSE_SUPPLY : Fld := ⟨.pwrState, 26, 1⟩
def PWR_STATE_CAUSE_CLASS : Fld := ⟨.pwrState, 27, 1⟩
def PWR_STATE_CLASS : Fld := ⟨.pwrState, 28, 4⟩
def PWR_TEMP_TJ_MAX : Fld := ⟨.pwrTemp, 0, 12⟩
def PWR_TEMP_TJ_PEAK : Fld := ⟨.pwrTemp, 16, 12⟩
def PWR_SUPPLY_VIN_MV : Fld := ⟨.pwrSupply, 0, 16⟩
def PWR_SUPPLY_MIN_MV : Fld := ⟨.pwrSupply, 16, 16⟩
def PWR_SUPPLY_SAG : Fld := ⟨.pwrSupply, 32, 1⟩
def PWR_SUPPLY_NV_INHIBIT : Fld := ⟨.pwrSupply, 33, 1⟩
def PWR_INPUT_P1MS_W : Fld := ⟨.pwrInput, 0, 12⟩
def PWR_INPUT_P10US_PEAK_W : Fld := ⟨.pwrInput, 16, 12⟩
def PWR_STATUS_CAP_THROTTLE : Fld := ⟨.pwrStatus, 0, 1⟩
def PWR_STATUS_THERM_THROTTLE : Fld := ⟨.pwrStatus, 1, 1⟩
def PWR_STATUS_THERM_WARN : Fld := ⟨.pwrStatus, 2, 1⟩
def PWR_STATUS_SAG : Fld := ⟨.pwrStatus, 3, 1⟩
def PWR_STATUS_CAP_EXCESS : Fld := ⟨.pwrStatus, 4, 1⟩
def PWR_STATUS_HINT_LATE : Fld := ⟨.pwrStatus, 5, 1⟩
def PWR_STATUS_SETTING_REJECTED : Fld := ⟨.pwrStatus, 6, 1⟩
def PWR_CNT_SAG_EPISODES : Fld := ⟨.pwrCnt, 0, 16⟩
def PWR_CNT_HINT_LATE : Fld := ⟨.pwrCnt, 16, 16⟩
def PWR_CNT_CAP_EXCESS_UJ : Fld := ⟨.pwrCnt, 32, 32⟩
def PWR_DROOPCNT_DROOP_EVENTS : Fld := ⟨.pwrDroopcnt, 0, 32⟩
def PWR_DROOPCNT_STRETCHED : Fld := ⟨.pwrDroopcnt, 32, 32⟩
def PWR_ENERGY_DIE_UJ : Fld := ⟨.pwrEnergy, 0, 64⟩
def PWR_IDLE_IDLE_UJ : Fld := ⟨.pwrIdle, 0, 64⟩
def PWR_COEF_COEF : Fld := ⟨.pwrCoef, 0, 32⟩
def PWR_POLICY_ENTRY : Fld := ⟨.pwrPolicy, 0, 64⟩
def SEC_STATUS_CERTIFIED : Fld := ⟨.secStatus, 0, 1⟩
def SEC_STATUS_DORMER : Fld := ⟨.secStatus, 1, 1⟩
def SEC_STATUS_BANK : Fld := ⟨.secStatus, 2, 1⟩
def SEC_STATUS_TRIAL : Fld := ⟨.secStatus, 3, 1⟩
def SEC_STATUS_INTAKE_BUSY : Fld := ⟨.secStatus, 4, 1⟩
def SEC_STATUS_INTAKE_DONE : Fld := ⟨.secStatus, 5, 1⟩
def SEC_STATUS_INTAKE_ERROR : Fld := ⟨.secStatus, 6, 1⟩
def SEC_STATUS_UNLOCK_FAIL : Fld := ⟨.secStatus, 7, 1⟩
def SEC_ROLLBACK_COUNTER : Fld := ⟨.secRollback, 0, 8⟩
def SEC_ROLLBACK_SVN_RUNNING : Fld := ⟨.secRollback, 8, 8⟩
def SEC_ROLLBACK_SVN_OTHER : Fld := ⟨.secRollback, 16, 8⟩
def SEC_FWVER_IMAGE_VERSION : Fld := ⟨.secFwver, 0, 64⟩
def SEC_FWDIGEST_DIGEST : Fld := ⟨.secFwdigest, 0, 64⟩
def SEC_CHALLENGE_CHALLENGE : Fld := ⟨.secChallenge, 0, 64⟩
def SEC_DORMER_REMAINING_S : Fld := ⟨.secDormer, 0, 32⟩
def SEC_DORMER_SCOPE : Fld := ⟨.secDormer, 32, 2⟩
def SEC_MEAS_BYTES : Fld := ⟨.secMeas, 0, 64⟩
def CFG_SETCTRL_COMMIT : Fld := ⟨.cfgSetctrl, 0, 1⟩
def CFG_SETCTRL_REVERT : Fld := ⟨.cfgSetctrl, 1, 1⟩
def CFG_SETSTATUS_VERSION : Fld := ⟨.cfgSetstatus, 0, 16⟩
def CFG_SETSTATUS_SEQUENCE : Fld := ⟨.cfgSetstatus, 16, 32⟩
def CFG_SETSTATUS_PENDING : Fld := ⟨.cfgSetstatus, 48, 1⟩
def CFG_SETSTATUS_COMMIT_ERROR : Fld := ⟨.cfgSetstatus, 49, 1⟩
def GUT_CTRL_FROZEN : Fld := ⟨.gutCtrl, 0, 1⟩
def GUT_CTRL_NV_EN : Fld := ⟨.gutCtrl, 1, 1⟩
def GUT_STATUS_DROPPED : Fld := ⟨.gutStatus, 0, 1⟩
def GUT_STATUS_NV_ERROR : Fld := ⟨.gutStatus, 1, 1⟩
def GUT_STATUS_FILTER_REJECTED : Fld := ⟨.gutStatus, 2, 1⟩
def GUT_HEAD_RAM_NEXT : Fld := ⟨.gutHead, 0, 14⟩
def GUT_HEAD_WRITTEN : Fld := ⟨.gutHead, 32, 32⟩
def GUT_DROP_CLASS0 : Fld := ⟨.gutDrop, 0, 16⟩
def GUT_DROP_CLASS1 : Fld := ⟨.gutDrop, 16, 16⟩
def GUT_DROP_CLASS2 : Fld := ⟨.gutDrop, 32, 16⟩
def GUT_DROP_CLASS3 : Fld := ⟨.gutDrop, 48, 16⟩
def GUT_SUPPRESS_SUPPRESSED : Fld := ⟨.gutSuppress, 0, 32⟩
def GUT_SUPPRESS_FOLDED : Fld := ⟨.gutSuppress, 32, 32⟩
def GUT_HELD_HELD : Fld := ⟨.gutHeld, 0, 16⟩
def GUT_HELD_HELD_DROPPED : Fld := ⟨.gutHeld, 16, 16⟩
def GUT_TIME_OPSEC : Fld := ⟨.gutTime, 0, 32⟩
def GUT_TIME_PWRCYC : Fld := ⟨.gutTime, 32, 24⟩
def GUT_NV_NV_NEXT : Fld := ⟨.gutNv, 0, 17⟩
def GUT_NV_QUEUED : Fld := ⟨.gutNv, 32, 13⟩
def GUT_NV_NV_DROP : Fld := ⟨.gutNv, 48, 16⟩
end F

/-- The place of a register in `allRegs`. -/
def Reg.num (r : Reg) : Nat := r.ctorIdx

/-- The bits of one field at a value. -/
def FieldInfo.at (f : FieldInfo) (v : Nat) : Nat := v % 2 ^ f.wid * 2 ^ f.lo

/-- The word that gives every field of a register its reset value. -/
def Reg.rstWord (r : Reg) : Nat := (r.fields.map (fun f => f.at f.rst)).sum

/-- The level of a Jefort port: 0 tray, 1 rack, 2 hall (R267, Table 11.1). -/
def portLevel (p : Nat) : Nat :=
  match p % 4 with
  | 0 => 0
  | 1 => 1
  | 2 => 2
  | _ => if p / 4 % 2 = 0 then 0 else 1

/-- The reset values of PWR_COEF (Table 15.5, as F32 patterns). -/
def coefReset : List Nat :=
  [0x4400C000, 0x4480C000, 0x4580C000, 0x42700000, 0x42200000, 0x4480C000, 0x4549E000, 0x40A00000, 0x457A0000, 0x43FA0000, 0x00000000, 0x00000000, 0x00000000, 0x00000000, 0x00000000, 0x4782AA00]

/-- The reset word of an instance of a register: the table's values, the straps of CFG_DIE and CFG_BONDOUT (R21), the
level of a port (R267), the coefficients (Table 15.5) and the random challenge (R402). -/
def regReset (r : Reg) (inst idx : Nat) : Word :=
  match r with
  | .cfgDie => BitVec.ofNat 64 (inst % 8 + 8 * (inst % 8 / 4) + 16 * (inst % 4))
  | .cfgBondout => if inst = 0 then 0x1F#64 else if inst = 4 then 2#64 else 0#64
  | .pwrCoef => BitVec.ofNat 64 (coefReset.getD idx 0)
  | .secChallenge => Config.freeValue 0
  | .jflPstatus => BitVec.ofNat 64 (r.rstWord + portLevel inst * 2 ^ 5)
  | _ => BitVec.ofNat 64 r.rstWord

end Sys2Proof.Machine
end

