-- ==== Sys2Proof/Machine/Sparse.lean ====
section
/-! DEFINITION. Sparse tables: lists of (key, value) pairs in one canonical form, strictly rising keys and no entry
equal to what an unlisted key reads as. Memory, the register file and every keyed part of the machine use them. -/
namespace Sys2Proof.Machine

/-- A table by number; an unlisted key reads as a default that the reader names. -/
abbrev Sparse (V : Type) := List (Nat × V)

/-- The value at a key, `d` where nothing is listed. -/
def Sparse.get {V : Type} (d : V) : Sparse V → Nat → V
  | [], _ => d
  | (a, v) :: m, k => if a = k then v else Sparse.get d m k

/-- The table without a key. -/
def Sparse.del {V : Type} : Sparse V → Nat → Sparse V
  | [], _ => []
  | (a, v) :: m, k => if a = k then Sparse.del m k else (a, v) :: Sparse.del m k

/-- The table with a key listed. -/
def Sparse.ins {V : Type} : Sparse V → Nat → V → Sparse V
  | [], k, x => [(k, x)]
  | (a, v) :: m, k, x =>
    if k < a then (k, x) :: (a, v) :: m else if a = k then (k, x) :: m else (a, v) :: Sparse.ins m k x

/-- Writing a key; the default `d` of that key is not listed. -/
def Sparse.put {V : Type} [DecidableEq V] (d : V) (m : Sparse V) (k : Nat) (x : V) : Sparse V :=
  match m with
  | [] => if x = d then [] else [(k, x)]
  | p :: m => if x = d then Sparse.del (p :: m) k else Sparse.ins (p :: m) k x

/-- Every key is above `b` and the keys rise strictly. -/
def Sparse.rising {V : Type} : Option Nat → Sparse V → Bool
  | _, [] => true
  | b, (a, _) :: m => (match b with | none => true | some n => decide (n < a)) && Sparse.rising (some a) m

/-- The canonical form against the defaults `d`. -/
def Sparse.wf {V : Type} [DecidableEq V] (d : Nat → V) (m : Sparse V) : Bool :=
  Sparse.rising none m && m.all (fun p => decide (p.2 ≠ d p.1))

/-- The keys that are listed. -/
def Sparse.keys {V : Type} (m : Sparse V) : List Nat := m.map Prod.fst

end Sys2Proof.Machine
end

