-- ==== Sys2Proof/Machine/State.lean ====
section
/-! DEFINITION. The state of the block as plain data, the reasons a step can stop, and the state after reset. -/
namespace Sys2Proof.Machine

/-- The reasons for which the block stops with a fault. There is none: what the spec calls a fault is an effect of its
own on the state (Table 6.8, Table 12.10, Table 13.9), and such an effect is a next state here. -/
inductive Fault
  deriving DecidableEq, Repr

/-- The reasons for which a command is refused. -/
inductive Refusal
  /-- the command has no meaning yet; raised by an arm of `exec` only; safe -/
  | notModelled (mnemonic : String)
  deriving DecidableEq, Repr

/-- What the module sends to the outside (assumption log 10). -/
inductive Msg
  /-- host-bound data write: bus address, bytes, relaxed ordering (R335) -/
  | hostData (addr : Nat) (bytes : List Byte) (relaxed : Bool)
  /-- completion record written to host memory (R342) -/
  | hostRecord (addr : Nat) (bytes : List Byte)
  /-- MSI-X message of a vector (R343) -/
  | msix (vec : Nat)
  /-- read request to host memory for a command (queue, sequence): bus address and length (R350) -/
  | hostRead (q seq addr len : Nat)
  /-- completion of a host read: address, bytes, poisoned (R332, R255) -/
  | hostCpl (addr : Nat) (bytes : List Byte) (poison : Bool)
  /-- completion of a host configuration or unsupported request: status 0 success, 1 unsupported (R325) -/
  | hostStatus (code : Nat)
  /-- a fabric request by a port: operation of Table 11.3, the rest of its header, LEN, ADDR, payload (R274, R275) -/
  | fabric (port op : Nat) (h : FabHdr) (len addr : Nat) (payload : List Byte)
  /-- a fabric response by a port: operation, status of Table 11.5, UNCORR, source and target device, tag, payload -/
  | fabricRsp (port op status : Nat) (uncorr : Bool) (src dst tag : Nat) (payload : List Byte)
  /-- a RoCE message: port, queue pair, kind (0 write, 1 read, 2 read response, 3 ACK, 4 NAK, 5 CNP), PSN, address (for a
  NAK its code), rkey, bytes -/
  | roce (port qp kind psn addr rkey : Nat) (bytes : List Byte)
  /-- an answer on the soffit port (R398) -/
  | soffit (code : Nat) (bytes : List Byte)
  /-- a link-layer message of a Jefort port: kind 0 requests the replay of the flits from a sequence number on (R269) -/
  | link (port kind seq : Nat)
  /-- a flit that leaves a Jefort port again out of its replay buffer (R269) -/
  | flit (port : Nat) (f : Flit)
  /-- a source module's report, to another participant, that a shard's copying has ended (R176) -/
  | moveReport (dev table shard : Nat)
  /-- a CXL.cache request for a page (R328) -/
  | cxlCache (page : Nat)
  deriving DecidableEq, Repr

/-- A gutter record before its CRC (R407, Table 17.1); `time` is TBN_TIME at the first occurrence (TBLOW is its low 32
bits) and `payload` is bytes 16 to 59 read as one little-endian number. -/
structure GRec where
  code : Nat
  cls : Nat
  rep : Nat
  opsec : Nat
  pwrcyc : Nat
  die : Nat
  time : Nat
  payload : Nat
  deriving DecidableEq, Repr

/-- The zero record: erased flash, padding and a RAM ring slot never written. -/
def GRec.blank : GRec := ⟨0, 0, 0, 0, 0, 0, 0, 0⟩

/-- One die's gutter slice (R410 to R413). -/
structure Slice where
  /-- code ↦ (missing tokens × 10^9, time of the last account) of the code's bucket (R410); default full -/
  deficit : Sparse (Nat × Nat)
  /-- the intake queue of at most 256, oldest first (R412) -/
  intake : List GRec
  /-- the RAM ring by slot (R413) -/
  ring : Sparse GRec
  /-- the fold window of the newest record is open (R411) -/
  win : Bool
  /-- time of the last 0x0002 that was recorded (R412) -/
  dropAt : Option Nat
  /-- class ↦ drops since that report -/
  drops : Sparse Nat
  deriving DecidableEq, Repr

def Slice.init : Slice := ⟨[], [], [], false, none, []⟩

/-- The gutter: slices, the master's NV queue and NV ring (R414), the freeze (R415) and the filter table (R417). -/
structure Gut where
  slices : Sparse Slice
  /-- records waiting for flash with the time each was queued -/
  nvQueue : List (GRec × Nat)
  nvRing : Sparse GRec
  /-- records written to the NV ring since manufacture, and the index of the oldest readable one -/
  nvAbs : Nat
  nvOld : Nat
  /-- start of the freeze in force -/
  frozenAt : Option Nat
  /-- filter entry ↦ its 64-bit word -/
  filter : Sparse Nat
  deriving DecidableEq, Repr

def Gut.init : Gut := ⟨[], [], [], 0, 0, none, []⟩

/-- A request in a channel's reorder queue (R242): its line, whether it writes, and how many younger requests have
passed it. -/
structure ChReq where
  line : Nat
  write : Bool
  passed : Nat
  deriving DecidableEq, Repr

/-- The bytes and the mark that a controller last returned (R254, R255). -/
structure MemResp where
  line : Nat
  bytes : List Byte
  uncorr : Bool
  deriving DecidableEq, Repr

/-- A request that a full reorder queue holds at its sender (R242): its line, the bytes and their place in it of a write,
and whose it is. -/
structure HeldReq where
  line : Nat
  off : Nat
  bytes : Option (List Byte)
  by_ : Writer
  wad : Bool
  who : Req
  upset : Nat
  deriving DecidableEq, Repr

/-- The memory controllers. Controllers 0 to 15 serve the near stacks, 16 to 23 the bulk packages of dies 0 to 7;
channel numbers are 128 per stack, then 16 per bulk controller from 2,048 on. -/
structure Mc where
  /-- channel ↦ its reorder queue, oldest first (R242) -/
  queue : Sparse (List ChReq)
  /-- channel ↦ requests that its full queue stops at their senders, oldest first (R242) -/
  stopped : Sparse (List HeldReq)
  /-- corrected lines whose write-back is still to come, with the pattern by which the corrected codeword differs from
  that of the line's bytes (R254) -/
  writeBack : List (Nat × Nat)
  /-- channel ↦ lines (near) or groups (bulk) scrubbed since reset; its scrub pointer is this modulo the channel's
  size (R258) -/
  scrub : Sparse Nat
  /-- controller ↦ next channel of the calibration rotation (R260) -/
  rot : Sparse Nat
  /-- channel ↦ corrected reads in this batten (R260) -/
  ceBatten : Sparse Nat
  /-- channels that are urgent, ascending (R260) -/
  urgent : List Nat
  /-- controller ↦ value of MEM_CTRL or BLK_CTRL that waits for the next tick (R265) -/
  ctrlPend : Sparse (Option Word)
  /-- the last response of a read request -/
  resp : Option MemResp
  /-- channel × 64 + bank ↦ refreshes performed (R264) -/
  refreshes : Sparse Nat
  /-- bulk packages whose MR4 has been read in this batten (R263) -/
  mr4 : List Nat
  deriving DecidableEq, Repr

def Mc.init : Mc := ⟨[], [], [], [], [], [], [], [], none, [], []⟩

/-- A matrix instruction in flight (R109, R112, R149), with the configuration that MCFG gave it. -/
structure MmaOp where
  serial : Nat
  tile : Nat
  aAddr : Nat
  bAddr : Nat
  sAddr : Nat
  tAddr : Nat
  k : Nat
  clear : Bool
  fmtA : Nat
  fmtB : Nat
  sgA : Nat
  sgB : Nat
  tid : Nat
  wadding : Bool
  /-- K steps promoted so far, and whether it has entered the array -/
  steps : Nat
  entered : Bool
  /-- ordinal of the instruction in the course when it is sampled for audit, and the audited row (R158) -/
  audit : Option (Nat × Nat)
  /-- elements of the audited row that counted a saturation or non-finite event (R160) -/
  excl : Bool
  deriving DecidableEq, Repr

/-- A vector instruction in the vector queue: its word, and the scalar operands that it read at issue (R139, R153). -/
structure VecOp where
  serial : Nat
  word : Nat
  ra : Word
  rb : Word
  rs : Word
  /-- the conversion context at issue (R152) -/
  tid : Nat
  base : Nat
  pitch : Nat
  wadding : Bool
  started : Bool
  /-- rows that it processes: 32, fewer when a tick cuts it short (R137) -/
  rows : Nat
  deriving DecidableEq, Repr

/-- A DMA transfer in a channel's queue (R146). -/
structure DmaOp where
  serial : Nat
  dir : Nat
  src : Nat
  dst : Nat
  rowBytes : Nat
  rows : Nat
  sstride : Nat
  dstride : Nat
  wadding : Bool
  /-- rows moved so far, while a pinned range or a busy tile holds it up -/
  row : Nat
  deriving DecidableEq, Repr

/-- A launch: the command (queue, sequence) or course item behind it, entry address, address of its arguments, wadding
(R134, R348). -/
structure Launch where
  q : Nat
  cmd : Option (Nat × Nat)
  item : Option Nat
  entry : Nat
  args : Nat
  wadding : Bool
  deriving DecidableEq, Repr

/-- An audit in progress (R159 to R161): the values of the row before and after, the panels it reads, and progress. -/
structure Audit where
  op : MmaOp
  ordinal : Nat
  row : Nat
  before : List F32
  after : Option (List F32)
  /-- K steps recomputed; per column the compensated pair E and the sum A of magnitudes -/
  steps : Nat
  cols : List (F32 × F32 × Rat)
  excl : Bool
  deriving DecidableEq, Repr

/-- A stage-queue copy under way (R156, WAIT bit 6): die × 512 + k, ring slot, local buffer offset, push or pop. -/
structure SqCopy where
  key : Nat
  slot : Nat
  off : Nat
  push : Bool
  serial : Nat
  /-- its fabric requests are on their way (R276) -/
  sent : Bool
  deriving DecidableEq, Repr

/-- A dormer access that waits for a busy tile (R131): whose it is, offset in the accumulator window, length, whether it
writes, the bytes of a write of the host, since when, its serial number in the cluster's scoreboard, and whether its
500 µs have ended before its block came back for it. -/
structure AccWait where
  by_ : Writer
  off : Nat
  len : Nat
  write : Bool
  data : Option (List Byte)
  since : Nat
  serial : Nat
  expired : Bool
  deriving DecidableEq, Repr

/-- A cluster beside its registers (R18, R134 to R163). -/
structure Cluster where
  /-- local buffer and program memory by offset -/
  lb : Sparse Byte
  pm : Sparse Byte
  /-- scalar registers s1 to s63 -/
  sreg : Sparse Word
  /-- tile × 1024 + element ↦ partial (or hi, or lo of a partner); segment registers; terms of the open segment -/
  acc : Sparse F32
  segHi : Sparse F32
  segLo : Sparse F32
  segTerms : Sparse Nat
  /-- tile ↦ DEST_TID of the instruction that last entered it (R125) -/
  tileTid : Sparse Nat
  /-- buffer × 1024 + element of v0 to v3; masks m1 to m3 and status bits SATB and NFB per buffer as 1,024-bit sets -/
  vbuf : Sparse F32
  masks : Sparse Nat
  satb : Sparse Nat
  nfb : Sparse Nat
  /-- conversion context (R152) -/
  ctxTid : Nat
  ctxBase : Nat
  ctxPitch : Nat
  /-- matrix configuration (R148) -/
  fmtA : Nat
  fmtB : Nat
  sgA : Nat
  sgB : Nat
  destTid : Nat
  /-- engine queues; the serial number of the next instruction issued to an engine -/
  mq : List MmaOp
  vq : List VecOp
  dq : Sparse (List DmaOp)
  serial : Nat
  /-- planned batten ↦ the serial number at its end-of-batten marker: what the program issued before it is older (R39) -/
  marks : Sparse Nat
  /-- LDM loads whose response is outstanding, oldest first: register, the value read, the die that owns the address
  (R12), and the serial number -/
  ldm : List (Nat × Word × Nat × Nat)
  /-- launches that wait, and the program that runs; END has issued -/
  waiting : List Launch
  run : Option Launch
  ending : Bool
  /-- a faulted program whose engines still complete what it issued: its launch, status and detail (R157) -/
  faulted : Option (Launch × Nat × Nat)
  /-- a dormer single step is allowed (R163 STEP) -/
  step : Bool
  /-- barrier at which the program waits; EOB reached and the following batten's work slot awaited -/
  bar : Option Nat
  eobWait : Bool
  /-- since when SQPUSH or SQPOP has waited (R49) -/
  sqSince : Option Nat
  /-- stage-queue copies, chains in which this cluster's member stage is under way, as (chain, tile, serial) -/
  copies : List SqCopy
  chains : List (Nat × Nat × Nat)
  /-- next ordinal of a course matrix instruction; audits pending -/
  ordinal : Nat
  audits : List Audit
  /-- dormer accesses to busy tiles that wait (R131) -/
  accWait : List AccWait
  /-- external writes to pinned local-buffer ranges, held until the audits end (R161) -/
  held : List (Nat × List Byte × Option (Nat × Nat × Nat))
  deriving DecidableEq, Repr

/-- A cluster after a reset whose scope includes it (R134, R148, R357). -/
def Cluster.init : Cluster :=
  ⟨[], [], [], [], [], [], [], [], [], [], [], [], 0xFFFFFF, 0, 0, 0, 0, 0, 0, 0xFFFFFF, [], [], [], 0, [], [], [], none, false,
   none, false, none, false, none, [], [], 0, [], [], []⟩

/-- The batten frame (R28 to R35, R53, R54). -/
structure Frame where
  /-- slot in progress: 5 ticked and the work slot to begin, 0 work, 1 work slot over, 2 calibration, 3 scrub, 4 ledger
  (Table 2.1) -/
  slot : Nat
  /-- deferral of this batten so far, in tb, and its quanta (R28, R41) -/
  deferTb : Nat
  quanta : Nat
  /-- the batten is being extended: its work slot ended with an incomplete work set (R41) -/
  deferring : Bool
  /-- settings that wait for the next tick, by the number of their register (R30, R54) -/
  pend : Sparse (Option Word)
  /-- after a slip: the next SYNC gives TBN_BATTEN and TBN_TIME (R35) -/
  resync : Bool
  /-- consecutive battens with an offset within ±40 ns (R34) -/
  good : Nat
  /-- followers that reported an incomplete work set for this quantum end (R42), on the master -/
  notDone : List Nat
  /-- participants that reported their adds acknowledged (R287), on the master; and what the module was told -/
  addsDone : List Nat
  allAdds : Bool
  /-- die ↦ 0 no release pending, 1 signalled, 2 ready (R53) -/
  release : Sparse Nat
  /-- cluster groups released since the last release began, as die × 8 + k -/
  groups : List Nat
  /-- die ↦ TBN_TIME at which its pending release was signalled (R53) -/
  signalAt : Sparse Nat
  /-- cluster groups that this work slot has still to release for the first time, as die × 8 + k (R53) -/
  opening : List Nat
  /-- a decision of the master that waits for the quantum end: some true extend, some false proceed -/
  decision : Option Bool
  /-- the module that sent the last SYNC -/
  master : Option Nat
  /-- who was last to complete in a batten that overran: cluster or queue, and its number (R41) -/
  late : Option (Bool × Nat)
  /-- the issuer whose operation of the course was the last to complete: cluster or queue, and its number (R41) -/
  lastDone : Option (Bool × Nat)
  /-- this follower has told the master, for the coming quantum end, that its work set is incomplete (R42) -/
  asked : Bool
  /-- on the master: the modules that have asked for a time measurement -/
  followers : List Nat
  /-- a course was ARMED, RUNNING or CLOSING in this batten (R322) -/
  inCourse : Bool
  deriving DecidableEq, Repr

def Frame.init : Frame := ⟨0, 0, 0, false, [], false, 0, [], [], false, [], [], [], [], none, none, none, none, false, [], false⟩

/-- A field of the course ledger record by byte offset and length (Table 12.6). -/
structure LFld where
  off : Nat
  len : Nat
  deriving DecidableEq, Repr

/-- One entry of a stage queue: pushed and not yet poppable while its copy runs (R48). -/
structure StageEntry where
  slot : Nat
  /-- bytes of it that have arrived from a remote producer -/
  got : Nat
  ready : Bool
  popping : Bool
  /-- the module that stored it, when the producer is remote -/
  src : Option Nat
  deriving DecidableEq, Repr

/-- A stage queue of the running course (R47, R48): its entries in push order, the credits its producer holds, the
next ring slot, and the stall and starve time of this batten (R49). -/
structure StageQ where
  entries : List StageEntry
  credits : Nat
  next : Nat
  stallUs : Nat
  starveUs : Nat
  deriving DecidableEq, Repr

def StageQ.init : StageQ := ⟨[], 0, 0, 0, 0⟩

/-- An external write counted for section 11 (R308, R321). -/
structure ExtWrite where
  src : Nat
  dev : Nat
  count : Nat
  first : Nat
  deriving DecidableEq, Repr

/-- A fabric mark for section 6 (R321). -/
structure FabMark where
  dev : Nat
  op : Nat
  status : Nat
  count : Nat
  time : Nat
  deriving DecidableEq, Repr

/-- A chain in progress: for each row, how many members have added and the running sum of its 32 elements as
(high, low) F32 pairs (R126, R288). -/
structure ChainRun where
  /-- row ↦ members whose partial the running sum holds -/
  got : Sparse Nat
  /-- row × 32 + column ↦ running sum -/
  sum : Sparse (F32 × F32)
  /-- members (by index) that wait in CHN at this module -/
  waiting : List Nat
  /-- rows whose result has been written -/
  written : Nat
  deriving DecidableEq, Repr

def ChainRun.init : ChainRun := ⟨[], [], [], 0⟩

/-- The course in progress or last run (R36 to R50, R96, R105, R183, R316 to R321). -/
structure Course where
  prog : Option CourseProgram
  /-- start batten resolved under R37 -/
  start : Nat
  /-- places in `prog.items` of the items issued, and of those whose operations have completed -/
  issued : List Nat
  done : List Nat
  /-- planned batten whose work set issues now -/
  plan : Nat
  /-- cluster ↦ end-of-batten markers reached (R156 EOB) -/
  eob : Sparse Nat
  /-- battens added under skip (R41) -/
  added : Nat
  /-- 0 not begun, 1 fold running, 2 fold ended (R224, R432) -/
  fold : Nat
  captured : Bool
  /-- the ledger slot has taken the accounts of the course's last batten (R49, R319) -/
  accounted : Bool
  lock : Bool
  /-- barrier ↦ clusters that wait at it -/
  barriers : Sparse (List Nat)
  /-- die × 512 + k ↦ stage queue -/
  stages : Sparse StageQ
  /-- chain id ↦ its progress -/
  chains : Sparse ChainRun
  /-- tensor ↦ S16 scale of a Delayed tensor in this course, 0 when it runs as Current (R96) -/
  delayed : Sparse Nat
  /-- tensor ↦ course amax as an F32 pattern, with `converted` the tensors converted (R97) -/
  amax : Sparse Nat
  converted : List Nat
  /-- layer ↦ k and lr' of R105, and the largest update magnitude U of the course -/
  layerK : Sparse (Int × F32)
  layerU : Sparse Nat
  /-- record byte offset ↦ value of the ledger record (Table 12.6) -/
  led : Sparse Nat
  /-- layer × 32 + byte offset ↦ value of the layer's entry (Table 12.11) -/
  layerLed : Sparse Nat
  /-- detail entries by section type, in order of entry (R321) -/
  sections : List (Nat × List Byte)
  externs : List ExtWrite
  marks : List FabMark
  /-- drift pairs: (group, table, shard) as one number ↦ version and bank first reported (R316) -/
  drift : Sparse (Option (Nat × Nat))
  /-- queue ↦ energy in µJ for section 4 -/
  energy : Sparse Nat
  /-- cluster ↦ AUD_CTRL in force since the course started (R158); unlisted: its reset value -/
  aud : Sparse Nat
  /-- the queue that issued the COURSE_LOAD (R233) -/
  queue : Nat
  /-- tiles (cluster × 32 + tile) that have counted in LONGSUM (Table 12.6) -/
  longTiles : List Nat
  /-- counter increments were dropped: the event of R80 has been recorded -/
  ctrDropped : Bool
  deriving DecidableEq, Repr

def Course.init : Course :=
  ⟨none, 0, [], [], 0, [], 0, 0, false, false, false, [], [], [], [], [], [], [], [], [], [], [], [], [], [], [], [], 0, [], false⟩

/-- A shard move in progress (R174 to R178): its ranges as (source, destination, length) of local addresses, whether the
copy has ended, whether it is forwarding, and the command or course item that started it. -/
structure MoveRun where
  table : Nat
  shard : Nat
  dest : Nat
  ranges : List (Nat × Nat × Nat)
  copied : Bool
  fwd : Bool
  cmd : Option (Nat × Nat)
  item : Option Nat
  /-- planned batten of a course item, or of the course at the switch -/
  plan : Nat
  /-- between modules (takes effect at a course boundary, R176); source lines written since they were copied there -/
  remote : Bool
  dirty : List Nat
  /-- TBN_BATTEN of the tick at which it took effect -/
  effect : Nat
  /-- the course whose item started it has ended -/
  ended : Bool
  /-- between modules: the end of copying has been reported in a course-end exchange (R176) -/
  told : Bool
  /-- device of the shard when the move started -/
  source : Nat
  deriving DecidableEq, Repr

/-- A streaming batch: table, first row, count, staging address (R181), rows already written, the command that waits for
it, and TBN_BATTEN of the tick at which it took effect. -/
structure Batch where
  table : Nat
  first : Nat
  count : Nat
  staging : Nat
  written : Nat
  cmd : Option (Nat × Nat)
  live : Option Nat
  deriving DecidableEq, Repr

/-- Tables and placement (chapter 7): the directory's address, moves, scheduled flips and batches, shard load counts
and the eaves. -/
structure Tables where
  /-- local address of the directory; none until the first TABLE_DIRECTORY (R164) -/
  dir : Option Nat
  moves : List MoveRun
  /-- flips that wait, with the command that waits for each (R180) -/
  flips : List (Nat × Option (Nat × Nat))
  batches : List Batch
  /-- (table × 4096 + shard) × 4 + k ↦ lookups and adds of this batten and of the course (R173) -/
  load : Sparse Nat
  /-- die × 4 + {0 base, 1 size, 2 entry size} ↦ eaves of the die (R185) -/
  eaves : Sparse Nat
  /-- planned batten ↦ the tables (id, descriptor, shard list) in force at its start, kept while items of it are still
  to issue and a tick has changed the tables since (R46) -/
  views : Sparse (List (Nat × List Byte × List Byte))
  /-- moves that switched at the course boundary before the next course, as entries of its detail section 5 (R176) -/
  switches : List (List Byte)
  /-- writes that a forwarding source has still to send to another module: table, shard, fabric address and bytes (R177) -/
  outbound : List (Nat × Nat × Nat × List Byte)
  deriving DecidableEq, Repr

def Tables.init : Tables := ⟨none, [], [], [], [], [], [], [], []⟩

/-- A unit of work of a yealm descriptor: a unique row of a lookup or scatter, an assignment of a dispatch or combine.
`pos` are the places of the index list that it stands for. -/
structure YUnit where
  key : Nat
  pos : List Nat
  /-- where its bytes lie: device and address there, and their number -/
  dev : Nat
  addr : Nat
  len : Nat
  /-- shard of the row and its local index there -/
  shard : Nat
  place : Nat
  /-- slot that a staging plan names (R206) -/
  slot : Option Nat
  deriving DecidableEq, Repr

/-- What an engine has still to request (R194 to R196): a unit whose source is not yet found, one 64-byte line of a
unit, or a remote request by its number. -/
inductive YWork
  | unit (u : Nat)
  | line (u i : Nat)
  | part (k : Nat)
  deriving DecidableEq, Repr

/-- A remote request of a descriptor: the units that it serves and, for a read of an expert's row, the byte offset. -/
structure YPart where
  dev : Nat
  units : List Nat
  off : Nat
  deriving DecidableEq, Repr

/-- A yealm descriptor that an engine has received (R187 to R189, R434). -/
structure YDesc where
  id : Nat
  q : Nat
  cmd : Option (Nat × Nat)
  item : Option Nat
  addr : Nat
  raw : List Byte
  /-- the number of the course that it belongs to, 0 for none; its drift group; the planned batten whose tables it
  reads -/
  course : Nat
  drift : Nat
  plan : Option Nat
  wadding : Bool
  started : Bool
  /-- descriptor and shard list of its table as it sees them (R46) -/
  table : List Byte
  list : List Byte
  /-- its index list and offsets (R190) -/
  idx : List Nat
  offs : List Nat
  units : List YUnit
  parts : List YPart
  todo : List YWork
  /-- requests that have no response yet -/
  out : List YWork
  /-- unit × 2048 + line ↦ bytes received -/
  buf : Sparse (List Byte)
  /-- bag × 16384 + element ↦ sum (104 bits); bag ↦ contributions received -/
  acc : Sparse Nat
  got : Sparse Nat
  /-- adds and remote stores sent and not yet accepted or refused -/
  acks : Nat
  /-- status and detail that it will complete with, 0 for SUCCESS -/
  err : Nat
  detail : Nat
  deriving DecidableEq, Repr

/-- A row to be staged, at its home engine (R204, R207): its target course, its entry of the eaves of the die, where it
lies, what its record gives, and whether it still waits for the fold of the course before (`trained`). -/
structure StageRow where
  course : Nat
  slot : Nat
  table : Nat
  row : Nat
  shard : Nat
  addr : Nat
  len : Nat
  base : Nat
  bank : Nat
  ver : Nat
  trained : Bool
  /-- its reads have issued; lines that have no response yet -/
  issued : Bool
  lines : Nat
  deriving DecidableEq, Repr

/-- A YLM_PREFETCH in progress (R204): its command, target course, and the descriptors' plans: per descriptor its
address of the plan, and its positions as (table, row, home die), none for a row that is not staged. -/
structure Prefetch where
  q : Nat
  seq : Nat
  course : Nat
  /-- PLAN_ADDR and, for each position, the row and its home die when it may be staged -/
  plans : List (Nat × List (Option (Nat × Nat × Nat)))
  /-- home dies that have still to take their rows, and rows staged so far -/
  homes : List Nat
  staged : Nat
  deriving DecidableEq, Repr

/-- The yealm engines (chapter 8) beside their registers. -/
structure Ylm where
  /-- die ↦ descriptors in order of receipt; serial number of the next one -/
  descs : Sparse (List YDesc)
  /-- die ↦ local requests in the order in which its engine issued them, as (descriptor, work) (R12) -/
  sent : Sparse (List (Nat × YWork))
  serial : Nat
  /-- YLM_PREFETCH commands in progress, oldest first -/
  prefetch : List Prefetch
  /-- the target courses for which a YLM_PREFETCH was accepted -/
  targets : List Nat
  /-- the number of the last course whose fold completed here (R207) -/
  folded : Nat
  /-- die ↦ rows of the present target course at the home engine -/
  rows : Sparse (List StageRow)
  deriving DecidableEq, Repr

def Ylm.init : Ylm := ⟨[], [], 0, [], [], 0, []⟩

/-- Digest logic, replica compare and the ledger's rings (R303 to R323). -/
structure Replay where
  /-- regions whose scan is in progress (R305) -/
  scans : List Nat
  /-- region ↦ captured D_r (R308) -/
  captured : Sparse Word
  /-- rank ↦ region ↦ level-0 digest received, as rank × 8192 + region ↦ value -/
  peerDigest : Sparse (Option Word)
  /-- ranks whose level-0 digests have arrived -/
  ranksIn : List Nat
  /-- regions with a deviant: (region, reference rank, deviant ranks as a mask) -/
  deviants : List (Nat × Nat × Nat)
  /-- units being narrowed, as (level, base) (R313), and sub-digests: (rank, level, base, values) -/
  narrowing : List (Nat × Nat)
  subs : List (Nat × Nat × Nat × List Word)
  /-- differing lines found: (address, deviant mask) -/
  lines : List (Nat × Nat)
  /-- regions marked widespread -/
  widespread : List Nat
  /-- regions with a digest fault -/
  faults : List Nat
  /-- the next course is held: halt or unfinished repair (R314), with its lines still to repair -/
  held : Bool
  repairs : List (Nat × Nat)
  /-- the exchange after a repair: regions repaired, whether this rank has sent its digests, those received, and from
  which ranks -/
  fixed : List Nat
  fixedSent : Bool
  again : Sparse (Option Word)
  againIn : List Nat
  /-- repaired lines and regions that the next record gives (R315) -/
  priorLines : Nat
  priorRegions : Nat
  /-- CRC of the previous record -/
  prevCrc : Nat
  /-- batten items of this batten (Table 12.13) -/
  battenItems : List (List Byte)
  /-- records in the ring that have not been exported, and those that exporting still owes (R317, R323) -/
  unexported : List Nat
  backlog : List Nat
  deriving DecidableEq, Repr

def Replay.init : Replay := ⟨[], [], [], [], [], [], [], [], [], [], false, [], [], false, [], [], 0, 0, 0, [], [], []⟩

/-- A command in flight (R340): its queue and sequence, opcode, the 64 bytes of its packet, the QEPOCH at acceptance,
whether its row has run and it waits, numbers that say what it waits for, and whether a scope 1 event has discarded its
completion (Table 13.4). -/
structure Cmd where
  q : Nat
  seq : Nat
  op : Nat
  pkt : List Byte
  epoch : Nat
  wadding : Bool
  running : Bool
  aux : List Nat
  dropped : Bool
  /-- the planned batten that the course in progress had reached when the command was taken -/
  plan : Nat
  deriving DecidableEq, Repr

/-- A completed command whose record is still to be written (R342, R343). -/
structure DoneCmd where
  q : Nat
  seq : Nat
  op : Nat
  status : Nat
  detail : Nat
  result : Nat
  resultWritten : Bool
  epoch : Nat
  irq : Bool
  dropped : Bool
  time : Nat
  /-- port × 1024 + queue pair that it completes an ingest of (R296) -/
  qp : Option Nat
  deriving DecidableEq, Repr

/-- What a queue holds beside its registers: the last SQ_TAIL and CQ_HEAD, doorbells recorded while it is not ARMED
(R333), re-reads made of the packet at SQ_HEAD and the time of the last read (R334), and a packet with FENCE that was
taken under an epoch and waits for earlier commands (R339), with the mark that its completion is discarded. -/
structure QExtra where
  sqTail : Nat
  cqHead : Nat
  recTail : Option Nat
  recHead : Option Nat
  rereads : Nat
  rereading : Bool
  readAt : Nat
  fence : Option (List Byte × Nat × Bool)
  deriving DecidableEq, Repr

def QExtra.init : QExtra := ⟨0, 0, none, none, 0, false, 0, none⟩

/-- The command queues (R333 to R343). -/
structure Queues where
  inflight : List Cmd
  done : List DoneCmd
  extra : Sparse QExtra
  /-- die × 8 + service class ↦ one more than the queue served last (R340) -/
  served : Sparse Nat
  deriving DecidableEq, Repr

def Queues.init : Queues := ⟨[], [], [], []⟩

/-- A read that the module made of host memory and that has no completion yet (R350). -/
structure HostRead where
  q : Nat
  seq : Nat
  addr : Nat
  len : Nat
  deriving DecidableEq, Repr

/-- The host interface (R325 to R337): power state, base addresses, MSI-X, page bias, and reads outstanding. -/
structure HostIf where
  d3hot : Bool
  /-- addresses that configuration gave the BARs, while memory decoding is enabled -/
  bar0 : Option Nat
  bar2 : Option Nat
  msixOn : Bool
  /-- double word of the MSI-X table ↦ its value; the vector controls (every fourth) reset to masked -/
  msix : Sparse Nat
  /-- vectors with their pending bit set -/
  pba : List Nat
  /-- pages of the HDM range that are shared (R328) -/
  shared : List Nat
  reads : List HostRead
  /-- a scope 0 event keeps the page biases through the retraining that belongs to it (R337) -/
  keepBias : Bool
  deriving DecidableEq, Repr

def HostIf.init : HostIf := ⟨false, none, none, false, [], [], [], [], false⟩

/-- A load hint on a die (R378, R380): START, duration in tb, class; phase 0 waiting, 1 preparing, 2 in force. -/
structure Hint where
  start : Nat
  dur : Nat
  cls : Nat
  phase : Nat
  deriving DecidableEq, Repr

/-- A die's power controller beside its registers (R371 to R382). -/
structure DiePwr where
  /-- cap request and thermal request for a step; duty lowerings of 2/16 made for temperature (R375, R382) -/
  capReq : Nat
  thermReq : Nat
  thermCut : Nat
  /-- duties that the budget sets, in sixteenths, and the budget itself in W -/
  capDuty : Nat
  memDuty : Nat
  budget : Nat
  /-- since when MM_DUTY is below 16/16, the power below 95 % of the budget, TJ_MAX at or above THROTTLE_C, and TJ_MAX
  below THROTTLE_C − 3 °C -/
  dutySince : Option Nat
  belowSince : Option Nat
  hotSince : Option Nat
  coolSince : Option Nat
  hint : Option Hint
  /-- millivolts by which the rail stands above the setpoint for the entry in force, whether EXPECT_W is granted, and
  until when the guard is held -/
  guard : Nat
  granted : Bool
  holdUntil : Option Nat
  /-- groups whose clock is stretched, as a mask -/
  droop : Nat
  deriving DecidableEq, Repr

def DiePwr.init : DiePwr := ⟨0, 0, 0, 16, 16, 2800, none, none, none, none, none, 0, false, none, 0⟩

/-- Power, thermal and supply (chapter 15). -/
structure Pwr where
  dies : Sparse DiePwr
  /-- input power of the last 1,000 µs in W, newest first -/
  samples : List Nat
  /-- a sag episode: its start, its OPSEC at the start, its lowest voltage in mV, and since when the input has stayed at
  or above 42 V -/
  sag : Option (Nat × Nat × Nat)
  okSince : Option Nat
  /-- coefficients and policy entries that wait for the next batten: die × 16 + k, class -/
  coefPend : Sparse (Option Word)
  policyPend : Sparse (Option Word)
  /-- the cap that binds before TBN_TIME `capAt`, when CAP_W was changed (R377) -/
  capOld : Nat
  capAt : Nat
  /-- the power stage is off, by overvoltage or trip; every die's clocks have stopped below 38 V -/
  off : Bool
  stopped : Bool
  /-- queue × 16 + class ↦ activity of this batten (R387) -/
  act : Sparse Nat
  /-- battens since the last refit (R388); since when a die is held back, for THROTTLE_US (Table 12.6) -/
  refit : Nat
  throttle : Option Nat
  /-- µs of it in this batten (Table 12.13) -/
  throttleUs : Nat
  deriving DecidableEq, Repr

def Pwr.init : Pwr := ⟨[], [], none, none, [], [], 2800, 0, false, false, [], 0, none, 0⟩

/-- Flash work, done one at a time (R385): a settings block with its fields (R401), a page of the directory (R370), a
page or an erase of the gutter's NV ring (R414). -/
inductive FlashJob
  | settings (fields : List Byte)
  | directory
  | page
  | erase
  deriving DecidableEq, Repr

/-- The flash and fuses (R390, R392): what no reset changes. -/
structure Flash where
  /-- directory: ACTIVE bank, TRIAL flag, JFL_EPOCH, power-cycle count -/
  active : Nat
  trial : Bool
  epoch : Nat
  pwrcyc : Nat
  /-- settings copies 0 and 1 -/
  copies : List (List Byte)
  /-- bank × 2^27 + offset ↦ byte; erased: 0xFF -/
  banks : Sparse Byte
  /-- rollback counter and revocation fuses of the image and dormer root slots -/
  counter : Nat
  imageRevoked : Nat
  dormerRevoked : Nat
  deriving DecidableEq, Repr

def Flash.init : Flash := ⟨0, false, 0, 0, [[], []], [], 0, 0, 0⟩

/-- Intake of an image (R398): its bank, the next offset, and whether INTAKE_END has succeeded since the reset. -/
structure Intake where
  bank : Nat
  next : Nat
  busy : Bool
  done : Bool
  deriving DecidableEq, Repr

/-- The flashing beside its registers (chapter 16). -/
structure Sec where
  flash : Flash
  /-- the page program or erase under way, and the work that waits for it in order -/
  job : Option FlashJob
  jobs : List FlashJob
  /-- staging: the bytes 256 to 4,095 of a block by offset (R401) -/
  staging : Sparse Byte
  /-- fields of the block in force (R400), those that S4 loaded, and the copy that holds the block in force -/
  fields : List Byte
  live : List Byte
  copy : Nat
  /-- flags of the booted image; a trial image runs and is not confirmed; the bank verified after ACTIVE failed -/
  certRelease : Bool
  confirm : Bool
  svn : Nat
  intake : Intake
  /-- end of dormer mode in TBN_TIME; an unlock happened since the start -/
  dormerEnd : Option Nat
  unlocked : Bool
  deriving DecidableEq, Repr

def Sec.init : Sec := ⟨.init, none, [], [], [], [], 0, false, false, 0, ⟨0, 0, false, false⟩, none, false⟩

/-- Start-up (chapter 14). Stages: 0 to 7 are S0 to S7, 8 ready, 9 recovery, 10 stopped by a failed die, 11 without
power. -/
structure Start where
  stage : Nat
  cause : Nat
  /-- a reset was requested and takes place when the started flash work has ended: its cause code (R386) -/
  request : Option Nat
  /-- stack or package (0 to 15, 16 to 47) ↦ training rounds ended, retries included (R361) -/
  rounds : Sparse Nat
  /-- channels (module-wide numbers) that failed their last attempt, and channels restored after a module reset -/
  failed : List Nat
  restored : List Nat
  /-- stacks and packages (0 to 15, 16 to 47) that must train in full, that have trained, and that have failed -/
  full : List Nat
  trained : List Nat
  dead : List Nat
  /-- SERVICES_START has run -/
  services : Bool
  /-- the power stage's latch of a thermal trip: die and temperature in 0.25 °C (R383) -/
  trip : Option (Nat × Nat)
  deriving DecidableEq, Repr

def Start.init : Start := ⟨0, 1, none, [], [], [], List.range 48, [], [], false, none⟩

/-- What a fabric request of this module serves: a read or store of FABRIC_COPY (queue, sequence, offset), a yealm
request or row add of a descriptor (die, descriptor place, request number), an entry of a remote stage queue, a chain's
DEST, an exported record, a line or region to repair, a remote shard move, an add of another module that is forwarded,
a FABRIC_IDENT, domain control or digests. -/
inductive FabOwner
  | copyRead (q seq off : Nat)
  | copyStore (q seq off len : Nat)
  | yealm (die desc k : Nat)
  | add (die desc : Nat)
  | stage (key slot : Nat)
  | chain (id : Nat)
  | record (n : Nat)
  | repair (addr len : Nat)
  | move (table shard : Nat)
  | forward (src epoch tag : Nat)
  | ident (q seq : Nat)
  | control
  /-- a message of a collective's hop (queue, sequence) -/
  | coll (q seq : Nat)
  deriving DecidableEq, Repr

/-- An outstanding fabric request at its source (R275, R281, R282): its header (with its tag), target, operation, address,
length read, payload, queue, the port that it leaves by (32: none is up), the port of its issue and the ports that
reached the target then (R272), reissues made, and whether it waits at the source for earlier requests (R272). -/
structure FabReq where
  tag : Nat
  dev : Nat
  op : Nat
  addr : Nat
  len : Nat
  payload : List Byte
  owner : FabOwner
  q : Nat
  port : Nat
  via : Nat
  ways : List Nat
  tries : Nat
  held : Bool
  hdr : FabHdr
  deriving DecidableEq, Repr

/-- One hop of a chain or collective (R288): its id, the sending member, COLL_RESULT or CHAIN_SUM, the receiving module,
its port, and what was sent on it and is not acknowledged: row or chunk, sequence number of its last flit, payload. -/
structure Hop where
  id : Nat
  member : Nat
  op : Nat
  dev : Nat
  port : Nat
  q : Nat
  hdr : FabHdr
  rows : List (Nat × Nat × List Byte)
  deriving DecidableEq, Repr

/-- A request that this module applied as a target, with its response (R281). -/
structure Applied where
  src : Nat
  epoch : Nat
  tag : Nat
  time : Nat
  op : Nat
  status : Nat
  unc : Bool
  payload : List Byte
  deriving DecidableEq, Repr

/-- A probing of a peer: rounds without an answer so far (R283). -/
structure Probing where
  dev : Nat
  rounds : Nat
  deriving DecidableEq, Repr

/-- A COLLECTIVE in progress (R289, R290): its command, descriptor, this member's place, whether its digests agreed,
chunks passed forward, chunks written, and the first chunks that wait for this member's input. -/
structure CollRun where
  q : Nat
  seq : Nat
  kind : Nat
  comp : Bool
  fmt : Nat
  id : Nat
  elems : Nat
  src : Nat
  dest : Nat
  members : List Nat
  tid : Nat
  me : Nat
  fwd : Nat
  written : Nat
  /-- status that a refused part of DEST will end it with; 0 none -/
  stop : Nat
  deriving DecidableEq, Repr

/-- The fabric (chapter 11) beside its registers. -/
structure Fab where
  reqs : List FabReq
  tag : Nat
  applied : List Applied
  /-- source ↦ newest epoch seen -/
  newest : Sparse (Option Nat)
  probing : List Probing
  /-- port ↦ last measured round trip in tb; level ↦ the port that the rotation comes to next -/
  rtt : Sparse Nat
  rot : Sparse Nat
  /-- port ↦ flit replayed last, and how often in a row; next flit sequence number expected -/
  replay : Sparse (Nat × Nat)
  expect : Sparse Nat
  /-- port ↦ the replay buffer of at most 512 flits, oldest first, and the next flit's sequence number (R269) -/
  tx : Sparse (List Flit × Nat)
  /-- port × 4 + virtual channel ↦ credits that this end still has to return; credits that the peer has returned -/
  owed : Sparse Nat
  credit : Sparse Nat
  /-- port hops of chains and collectives (R288) -/
  hops : List Hop
  /-- master: DELAY_REQ round trips of the last 16 battens, newest first; this batten's largest -/
  rtts : List Nat
  rttNow : Nat
  colls : List CollRun
  deriving DecidableEq, Repr

def Fab.init : Fab := ⟨[], 0, [], [], [], [], [], [], [], [], [], [], [], [], 0, []⟩

/-- A row add of this module on its way to an update unit (R203, R216): the unit it is addressed to, its row, sums and
addend count, the descriptor (die, number) that sent it and its queue. -/
structure RowAdd where
  unit : Nat
  table : Nat
  row : Nat
  accs : List Nat
  count : Nat
  die : Nat
  desc : Nat
  q : Nat
  deriving DecidableEq, Repr

/-- A row that an update unit processes (R222, R225, R227): an embedding row, or the present row of a dense item with
its phase (0 STAT, 1 COL, 2 UPD). -/
structure UpdRun where
  /-- place of the dense item in the course program -/
  dense : Option Nat
  table : Nat
  row : Nat
  /-- binding, row bytes: local index, stored row and residue row (or the dense row), base of the state slots -/
  binding : List Byte
  place : Nat
  addr : Nat
  res : Nat
  base : Nat
  n : Nat
  phase : Nat
  /-- next instruction of the program -/
  pc : Nat
  /-- the 104-bit sums of an embedding row; the row is one of the fold, whose entries are freed at its end -/
  accs : List Nat
  fold : Bool
  /-- register × 16384 + element -/
  regs : Sparse F32
  /-- column accumulators (R233) and the column sums -/
  cols : Sparse (F32 × F32)
  sums : Sparse F32
  /-- the queue on which events count -/
  q : Option Nat
  deriving DecidableEq, Repr

/-- The update units beside their registers (chapter 9). -/
structure Upd where
  /-- the program slots, slot × 512 + byte -/
  prog : Sparse Byte
  adds : List RowAdd
  /-- unit ↦ the row that it processes -/
  runs : Sparse (Option UpdRun)
  deriving DecidableEq, Repr

def Upd.init : Upd := ⟨[], [], []⟩

/-- A memory region of an ingest port (R295): rkey, base, length, rights and bound hardware queue. -/
structure MemRegion where
  rkey : Nat
  base : Nat
  len : Nat
  read : Bool
  write : Bool
  queue : Nat
  deriving DecidableEq, Repr

/-- A request that a queue pair has made (R294): the command or the exported record behind it, its first PSN and its
packets, its ranges, whether it is on its way, and the bytes of a read that have come. -/
structure RoceReq where
  cmd : Option (Nat × Nat)
  record : Option Nat
  read : Bool
  psn : Nat
  packets : Nat
  laddr : Nat
  raddr : Nat
  len : Nat
  rkey : Nat
  sent : Bool
  got : Nat
  deriving DecidableEq, Repr

/-- A queue pair (R294): its context with the PSNs as they stand, the error state, retries made, requests outstanding,
its send rate as a part of the full rate, and when it last lowered that rate and last sent a CNP. -/
structure QueuePair where
  ctx : QpContext
  err : Bool
  tries : Nat
  reqs : List RoceReq
  rate : Rat
  cutAt : Option Nat
  cnpAt : Option Nat
  deriving DecidableEq, Repr

/-- The ingest ports beside their registers (R294 to R296). -/
structure Eth where
  /-- port × 1024 + queue pair ↦ the queue pair, once ROCE_QP_SET has set it -/
  qps : Sparse (Option QueuePair)
  /-- port × 4096 + entry ↦ memory region -/
  regions : Sparse (Option MemRegion)
  /-- ports on which a flow control frame has paused PFC_PRIO -/
  paused : List Nat
  /-- port, queue pair and packet that a pause holds back, oldest first: acknowledgements, responses, CNPs -/
  waiting : List (Nat × Nat × Msg)
  deriving DecidableEq, Repr

def Eth.init : Eth := ⟨[], [], [], []⟩
/-- The state of the module: everything the spec gives it. `free` counts the free values drawn, `sent` holds what the
module has sent to the outside, `pending` the commands that wait, first in first out; these three are the model's own
(assumption logs 9, 10, 1). -/
structure State where
  /-- the registers, by `regCode`; unlisted: the reset value (R8) -/
  regs : Sparse Word
  /-- near and bulk memory by local address: the bytes last written; unlisted: 0 (R362) -/
  mem : List Host.Cell
  /-- line ↦ the 576-bit pattern by which its stored codeword differs from that of its bytes (R248 to R255) -/
  upset : Sparse Nat
  mc : Mc
  clusters : Sparse Cluster
  gut : Gut
  frame : Frame
  course : Course
  tables : Tables
  ylm : Ylm
  replay : Replay
  queues : Queues
  host : HostIf
  pwr : Pwr
  sec : Sec
  start : Start
  fab : Fab
  upd : Upd
  eth : Eth
  sent : List Msg
  free : Nat
  pending : List Instr
  deriving DecidableEq, Repr

/-- The module at power-on, before start-up (stage S0, R358): every register at its reset value, nothing in memory. -/
def State.reset : State where
  regs := []
  mem := []
  upset := []
  mc := .init
  clusters := []
  gut := .init
  frame := .init
  course := .init
  tables := .init
  ylm := .init
  replay := .init
  queues := .init
  host := .init
  pwr := .init
  sec := .init
  start := .init
  fab := .init
  upd := .init
  eth := .init
  sent := []
  free := 1
  pending := []

end Sys2Proof.Machine
end

