-- ==== Sys2Proof/Machine/Ops.lean ====
section
/-! DEFINITION. The shared operations of the block over its state: registers and their fields, time, bytes, the
address map, the gutter, the course's marks, the check code of memory lines, region digests, and lines read and
written at a controller. -/
namespace Sys2Proof.Machine

/-- The answer of a meaning. -/
abbrev Out := Host.Outcome State Fault Refusal

/-! ## Registers -/

/-- The key of a register instance: register, instance (die, cluster, queue, unit, stack or port), index. No register has
2^20 instances or indexes. -/
def regCode (r : Reg) (inst idx : Nat) : Nat := (r.num * 2 ^ 20 + inst % 2 ^ 20) * 2 ^ 20 + idx % 2 ^ 20

/-- The reset word of the register instance with a key. -/
def regDefault (c : Nat) : Word := regReset (allRegs.getD (c / 2 ^ 40) .cfgIdent) (c / 2 ^ 20 % 2 ^ 20) (c % 2 ^ 20)

/-- The word of a register instance. -/
def State.rd (s : State) (r : Reg) (inst idx : Nat) : Word :=
  Sparse.get (regDefault (regCode r inst idx)) s.regs (regCode r inst idx)

/-- Setting the whole word of a register instance. -/
def State.wr (s : State) (r : Reg) (inst idx : Nat) (w : Word) : State :=
  { s with regs := Sparse.put (regDefault (regCode r inst idx)) s.regs (regCode r inst idx) w }

/-- A field of a word. -/
def fget (lo wid : Nat) (w : Word) : Nat := w.toNat / 2 ^ lo % 2 ^ wid

/-- A word with a field replaced, the value cut to the field's width. -/
def fset (lo wid : Nat) (w : Word) (v : Nat) : Word :=
  BitVec.ofNat 64 (w.toNat % 2 ^ lo + (v % 2 ^ wid) * 2 ^ lo + w.toNat / 2 ^ (lo + wid) * 2 ^ (lo + wid))

/-- The value of a named field. -/
def State.get (s : State) (f : Fld) (inst : Nat := 0) (idx : Nat := 0) : Nat := fget f.lo f.wid (s.rd f.reg inst idx)

/-- The state with a named field set. -/
def State.set (s : State) (f : Fld) (v : Nat) (inst : Nat := 0) (idx : Nat := 0) : State :=
  s.wr f.reg inst idx (fset f.lo f.wid (s.rd f.reg inst idx) v)

/-- Adding to a counter field, which saturates at its largest value. -/
def State.bump (s : State) (f : Fld) (n : Nat) (inst : Nat := 0) (idx : Nat := 0) : State :=
  s.set f (min (s.get f inst idx + n) (2 ^ f.wid - 1)) inst idx

/-- Adding to a counter field that wraps. -/
def State.bumpWrap (s : State) (f : Fld) (n : Nat) (inst : Nat := 0) (idx : Nat := 0) : State :=
  s.set f (s.get f inst idx + n) inst idx

/-- Whether a one-bit field is 1. -/
def State.bit (s : State) (f : Fld) (inst : Nat := 0) (idx : Nat := 0) : Bool := s.get f inst idx == 1

/-! ## Time, free values, messages -/

/-- TBN_TIME of the module reference (R28). -/
def State.now (s : State) : Nat := s.get F.TBN_TIME_TIME

/-- The timebase at the moment `t` of a timed event, when that moment is still to come (assumption log 3). -/
def State.advanceTo (s : State) (t : Nat) : State := if s.now < t then s.set F.TBN_TIME_TIME t else s

/-- Sending a message. -/
def State.send (s : State) (m : Msg) : State := { s with sent := s.sent ++ [m] }

/-- Sending messages in order. -/
def State.sendAll (s : State) (ms : List Msg) : State := { s with sent := s.sent ++ ms }

/-- The course state of Table 2.2: 0 IDLE, 1 ARMED, 2 RUNNING, 3 CLOSING, 4 ABORTED. -/
def State.cstate (s : State) : Nat := s.get F.TBN_CSTATE_STATE

/-- A course is ARMED, RUNNING or CLOSING. -/
def State.courseLive (s : State) : Bool := 1 ≤ s.cstate && s.cstate ≤ 3

/-! ## Bytes -/

/-- The `n` low bytes of a number, least significant first (R5). -/
def leBytes : Nat → Nat → List Byte
  | 0, _ => []
  | n + 1, v => BitVec.ofNat 8 v :: leBytes n (v / 256)

/-- The number that bytes spell, least significant first (R5). -/
def ofLe : List Byte → Nat
  | [] => 0
  | b :: bs => b.toNat + 256 * ofLe bs

/-- The field of `n` bytes at offset `o` of a byte string. -/
def fieldLe (bs : List Byte) (o n : Nat) : Nat := ofLe ((bs.drop o).take n)

/-- A byte string padded with zeros, or cut, to a length. -/
def padTo (n : Nat) (bs : List Byte) : List Byte := (bs ++ List.replicate (n - bs.length) 0#8).take n

/-- A byte string with bytes replaced from an offset on. -/
def patch (bs : List Byte) (o : Nat) (new : List Byte) : List Byte :=
  bs.take o ++ new ++ bs.drop (o + new.length)

/-- `a` rounded up to a multiple of `b`, divided by `b`. -/
def ceilDiv (a b : Nat) : Nat := (a + b - 1) / b

/-- Bytes of a byte table from an address on. -/
def tableBytes (m : Sparse Byte) (a : Nat) : Nat → List Byte
  | 0 => []
  | n + 1 => Sparse.get 0#8 m a :: tableBytes m (a + 1) n

/-- A byte table with bytes written from an address on. -/
def tablePut (m : Sparse Byte) (a : Nat) : List Byte → Sparse Byte
  | [] => m
  | b :: bs => tablePut (Sparse.put 0#8 m a b) (a + 1) bs

/-- The bytes last written to memory. -/
def State.raw (s : State) (a n : Nat) : List Byte := tableBytes s.mem a n

/-- Memory with bytes written. -/
def State.rawPut (s : State) (a : Nat) (bs : List Byte) : State := { s with mem := tablePut s.mem a bs }

/-- One step of a CRC whose lowest bit goes first. -/
def crcBit (poly c : Nat) : Nat := if c % 2 = 1 then (c / 2) ^^^ poly else c / 2

/-- CRC-32C of bytes (R407, R319). -/
def crc32c (bs : List Byte) : Nat :=
  let step (c : Nat) (b : Byte) : Nat := (List.range 8).foldl (fun x _ => crcBit 0x82F63B78 x) (c ^^^ b.toNat)
  (bs.foldl step 0xFFFFFFFF) ^^^ 0xFFFFFFFF

/-- The packet CRC: polynomial 0x1021, initial value 0xFFFF, highest bit first (R334). -/
def crc16 (bs : List Byte) : Nat :=
  let bit (c : Nat) : Nat := if c ≥ 0x8000 then (c * 2 ^^^ 0x1021) % 65536 else c * 2
  bs.foldl (fun c b => (List.range 8).foldl (fun x _ => bit x) (c ^^^ (b.toNat * 256))) 0xFFFF

/-! ## Address map -/

/-- Where a local address lies (R15, Table 1.3). -/
inductive Loc
  | near (stack off : Nat)
  | bulk (pkg off : Nat)
  | window (die off : Nat)
  | hole
  deriving DecidableEq, Repr

def windowSize : Nat := 0x20_0000_0000
def nearSize : Nat := 0x14_0000_0000
def bulkSize : Nat := 0x1C_0000_0000
def winBase : Nat := 0x700_0000_0000
def winSize : Nat := 0x10_0000_0000

/-- The range of Table 1.3 that holds a local address. -/
def locOf (a : Nat) : Loc :=
  if a < 0x200_0000_0000 then .near (a / windowSize) (a % windowSize)
  else if a < 0x600_0000_0000 then .bulk ((a - 0x200_0000_0000) / windowSize) (a % windowSize)
  else if winBase ≤ a ∧ a < winBase + 8 * winSize then .window ((a - winBase) / winSize) (a % winSize)
  else .hole

/-- A stack or package is in service (CFG_MEMSTATE). -/
def State.nearUp (s : State) (st : Nat) : Bool := s.get F.CFG_MEMSTATE_NEAR_UP / 2 ^ st % 2 == 1
def State.bulkUp (s : State) (p : Nat) : Bool := s.get F.CFG_MEMSTATE_BULK_UP / 2 ^ p % 2 == 1

/-- An address is not unmapped under R16. -/
def State.mapped (s : State) (a : Nat) : Bool :=
  match locOf a with
  | .near st o => decide (o < nearSize) && s.nearUp st
  | .bulk p o => decide (o < bulkSize) && s.bulkUp p
  | .window _ _ => true
  | .hole => false

/-- Every byte of a range is mapped. Below the die windows such a range lies in one stack or package, since each
window ends in an unpopulated part (R15). -/
def State.rangeMapped (s : State) (a n : Nat) : Bool :=
  n == 0 ||
  (match locOf a with
   | .near st o => decide (o + n ≤ nearSize) && s.nearUp st
   | .bulk p o => decide (o + n ≤ bulkSize) && s.bulkUp p
   | .window _ _ => decide (a + n ≤ winBase + 8 * winSize)
   | .hole => false)

/-- A range lies in memory that is in service. -/
def State.memRange (s : State) (a n : Nat) : Bool := decide (a + n ≤ 0x600_0000_0000) && s.rangeMapped a n

/-- The die that owns an address (Table 1.3). -/
def ownerDie (a : Nat) : Nat :=
  match locOf a with
  | .near st _ => st / 2
  | .bulk p _ => p / 4
  | .window d _ => d
  | .hole => 0

/-- The controller of a memory address: 0 to 15 the near stacks, 16 to 23 the bulk controllers of the dies. -/
def ctlOf (a : Nat) : Nat :=
  match locOf a with
  | .near st _ => st
  | .bulk p _ => 16 + p / 4
  | _ => 0

/-- The channel of a line within its controller (R245, R246, R266). -/
def chanOf (ln : Nat) : Nat :=
  match locOf (ln * 64) with
  | .near _ o =>
    let n := o / 64
    (n ^^^ (n / 2 ^ 7) ^^^ (n / 2 ^ 14) ^^^ (n / 2 ^ 21) ^^^ (n / 2 ^ 28)) % 128
  | .bulk p o =>
    let n := o / 64
    4 * (p % 4) + (n ^^^ (n / 4) ^^^ (n / 2 ^ 9) ^^^ (n / 2 ^ 17)) % 4
  | _ => 0

/-- The place of a line in its channel: line within the channel (near) or group (bulk) (R245, R246). -/
def chanPlace (ln : Nat) : Nat :=
  match locOf (ln * 64) with
  | .near _ o => o / 64 / 128
  | .bulk _ o => o / 64 / 4 / 7
  | _ => 0

/-- The slot of a bulk line in its group (R246). -/
def bulkSlot (ln : Nat) : Nat :=
  match locOf (ln * 64) with
  | .bulk _ o => o / 64 / 4 % 7
  | _ => 0

/-- Byte addresses within a bulk channel of the data line of a line and of the check line of its group (R246). -/
def dataLine (ln : Nat) : Nat := chanPlace ln * 512 + bulkSlot ln * 64
def checkLine (ln : Nat) : Nat := chanPlace ln * 512 + 448

/-- The index within its package of the line that channel `ch`, group `g` and slot `j` hold: the inverse of R246. -/
def bulkLine (ch g j : Nat) : Nat :=
  let m := 7 * g + j
  4 * m + (ch ^^^ m ^^^ (m / 2 ^ 7) ^^^ (m / 2 ^ 15)) % 4

/-- The module-wide number of a channel of a controller. -/
def chanKey (ctl ch : Nat) : Nat := if ctl < 16 then 128 * ctl + ch else 2048 + 16 * (ctl - 16) + ch

/-- The module-wide channel of a line. -/
def lineChan (ln : Nat) : Nat := chanKey (ctlOf (ln * 64)) (chanOf ln)

/-! ## Gutter -/

/-- The class of an event code (Table 17.3). -/
def evClass (code : Nat) : Nat :=
  if code ∈ [0x0101, 0x0107, 0x0108, 0x0502, 0x0503, 0x0604] then 0
  else if code ∈ [0x0002, 0x0104, 0x0301, 0x0302, 0x0401, 0x0402, 0x0506, 0x0601, 0x0602, 0x0603, 0x0702, 0x0801,
    0x0803, 0x0804, 0x0805] then 1
  else if code ∈ [0x0001, 0x0501] then 3
  else 2

/-- The filter entry of a code (R417). -/
def Gut.entryOf (g : Gut) (code : Nat) : Option Nat :=
  (g.filter.map Prod.snd).find? (fun e => e % 65536 == code)

/-- Rate and burst of a code's bucket (R410, R417). -/
def Gut.rate (g : Gut) (code : Nat) : Nat × Nat :=
  match g.entryOf code with
  | some e => (e / 2 ^ 16 % 256, e / 2 ^ 24 % 256)
  | none => (16, 64)

/-- The filter disables a code. -/
def Gut.disabled (g : Gut) (code : Nat) : Bool :=
  match g.entryOf code with
  | some e => e / 2 ^ 33 % 2 == 1
  | none => false

/-- A record is NV-bound: class 0 or 1, code 0x0001, or its filter entry sets NV (R414). -/
def Gut.nvBound (g : Gut) (r : GRec) : Bool :=
  r.cls ≤ 1 || r.code == 1 ||
  (match g.entryOf r.code with
   | some e => e / 2 ^ 32 % 2 == 1
   | none => false)

def State.slice (s : State) (die : Nat) : Slice := Sparse.get .init s.gut.slices die

def State.setSlice (s : State) (die : Nat) (x : Slice) : State :=
  { s with gut := { s.gut with slices := Sparse.put .init s.gut.slices die x } }

/-- The drop counter of a class (GUT_DROP). -/
def dropFld (c : Nat) : Fld := ⟨.gutDrop, 16 * c, 16⟩

/-- A record of a class is dropped or displaced in a slice (R412). -/
def State.gutDropped (s : State) (die c : Nat) : State :=
  let s := (s.bump (dropFld c) 1 die).set F.GUT_STATUS_DROPPED 1 die
  let s := if s.gut.frozenAt.isSome then s.bump F.GUT_HELD_HELD_DROPPED 1 die else s
  let x := s.slice die
  s.setSlice die { x with drops := Sparse.put 0 x.drops c (Sparse.get 0 x.drops c + 1) }

/-- The place of the youngest record whose class is numbered above `c`. -/
def youngestAbove (c : Nat) (q : List GRec) : Option Nat :=
  (List.range q.length).reverse.find? (fun i => decide (c < (q.getD i .blank).cls))

/-- A record arrives at a slice's intake queue (R412): whether it was accepted, and the state. -/
def State.intake (s : State) (die : Nat) (r : GRec) : Bool × State :=
  let x := s.slice die
  let hold (s : State) : State := if s.gut.frozenAt.isSome then s.bump F.GUT_HELD_HELD 1 die else s
  if x.intake.length < 256 then (true, hold (s.setSlice die { x with intake := x.intake ++ [r] }))
  else match youngestAbove r.cls x.intake with
    | some i =>
      let gone := x.intake.getD i .blank
      (true, (s.setSlice die { x with intake := x.intake.eraseIdx i ++ [r] }).gutDropped die gone.cls)
    | none => (false, s.gutDropped die r.cls)

/-- A new record of a code with a payload. -/
def State.newRec (s : State) (die code payload : Nat) : GRec :=
  ⟨code, evClass code, 0, s.get F.GUT_TIME_OPSEC, s.get F.GUT_TIME_PWRCYC, die, s.now, payload⟩

/-- The payload of 0x0002: the drops of the four classes (Table 17.3). -/
def dropPayload (d : Sparse Nat) : Nat :=
  Sparse.get 0 d 0 + Sparse.get 0 d 1 * 2 ^ 32 + Sparse.get 0 d 2 * 2 ^ 64 + Sparse.get 0 d 3 * 2 ^ 96

/-- Recording 0x0002 with the drops since the last one; its counts stay when it is itself dropped (R412). -/
def State.dropReport (s : State) (die : Nat) : State :=
  let x := s.slice die
  let r := s.newRec die 2 (dropPayload x.drops)
  let s0 := s.setSlice die { x with drops := [], dropAt := some s.now }
  let p := s0.intake die r
  if p.1 then p.2 else (s.intake die r).2

/-- The slice has recorded no 0x0002 in the preceding second. -/
def State.reportDue (s : State) (die : Nat) : Bool :=
  match (s.slice die).dropAt with
  | none => true
  | some t => decide (t + 1000000000 ≤ s.now)

/-- Taking a token of a code's bucket (R410); none when it is empty. -/
def State.takeToken (s : State) (die code : Nat) : Option State :=
  let x := s.slice die
  let p := s.gut.rate code
  let d := Sparse.get (0, 0) x.deficit code
  let left := d.1 - p.1 * (s.now - d.2)
  if left + 1000000000 ≤ p.2 * 1000000000 then
    some (s.setSlice die { x with deficit := Sparse.put (0, 0) x.deficit code (left + 1000000000, s.now) })
  else none

/-- A block of a die raises an event (R410, R412). -/
def State.raise (s : State) (die code payload : Nat) : State :=
  if s.gut.disabled code then s.bump F.GUT_SUPPRESS_SUPPRESSED 1 die
  else
    match (if evClass code = 0 then some s else s.takeToken die code) with
    | none => s.bump F.GUT_SUPPRESS_SUPPRESSED 1 die
    | some s1 =>
      let before := (s1.slice die).drops
      let s2 := (s1.intake die (s1.newRec die code payload)).2
      if (s2.slice die).drops ≠ before ∧ s2.reportDue die then s2.dropReport die else s2

/-- A payload field at a record byte offset (Table 17.3). -/
def plAt (off v : Nat) : Nat := v * 256 ^ (off - 16)

/-! ## Ledger and marks of the course -/

def L_CAUSES : LFld := ⟨4, 4⟩
def L_CE : LFld := ⟨216, 8⟩
def L_UE : LFld := ⟨224, 8⟩

/-- A ledger field of the course. -/
def State.ledGet (s : State) (f : LFld) : Nat := Sparse.get 0 s.course.led f.off

def State.ledSet (s : State) (f : LFld) (v : Nat) : State :=
  { s with course := { s.course with led := Sparse.put 0 s.course.led f.off (v % 256 ^ f.len) } }

/-- Adding to a ledger counter, which saturates (R319), while a course is in progress. -/
def State.ledBump (s : State) (f : LFld) (n : Nat) : State :=
  if s.cstate = 0 then s else s.ledSet f (min (s.ledGet f + n) (256 ^ f.len - 1))

/-- Setting a bit of CAUSES (Table 12.9). -/
def State.cause (s : State) (b : Nat) : State := s.ledSet L_CAUSES (s.ledGet L_CAUSES ||| 2 ^ b)

/-- Marking a live course with a cause. -/
def State.markLive (s : State) (b : Nat) : State := if s.courseLive then s.cause b else s

/-! ## The check code (R248 to R252) -/

/-- Multiplication by α in GF(2^16) (R248). -/
def gfDouble (a : Nat) : Nat := if a < 0x8000 then 2 * a else (2 * a) ^^^ 0x1100B

/-- Multiplication in GF(2^16), bit by bit of the second operand. -/
def gfMulBits : Nat → Nat → Nat → Nat
  | 0, _, _ => 0
  | n + 1, a, b => (if b % 2 = 1 then a else 0) ^^^ gfMulBits n (gfDouble a) (b / 2)

def gfMul (a b : Nat) : Nat := gfMulBits 16 a b

/-- A power of α. -/
def alphaPow : Nat → Nat
  | 0 => 1
  | n + 1 => gfDouble (alphaPow n)

/-- `a` to the power `2^n − 1` times itself for each step: the inverse of `a` is `a^(2^16 − 2)`. -/
def gfInvAux : Nat → Nat → Nat → Nat
  | 0, acc, _ => acc
  | n + 1, acc, sq => gfInvAux n (gfMul acc (gfMul sq sq)) (gfMul sq sq)

def gfInv (a : Nat) : Nat := gfInvAux 15 1 a

/-- Symbol `j` of a 576-bit codeword pattern (R248, R249). -/
def symOf (e j : Nat) : Nat := e / 2 ^ (16 * j) % 65536

/-- Syndrome `i` of a pattern: its value at α^i, symbol j being the coefficient of x^(35 − j) (R251, R252). -/
def syndrome (e i : Nat) : Nat :=
  (List.range 36).foldl (fun acc j => gfMul acc (alphaPow i) ^^^ symOf e j) 0

/-- The check symbols of 32 data symbols (R251), as the pattern of symbols 32 to 35. -/
def checkSyms (data : List Nat) : Nat × Nat × Nat × Nat :=
  data.foldl (fun r d =>
    let f := d ^^^ r.1
    (r.2.1 ^^^ gfMul f 0x000F, r.2.2.1 ^^^ gfMul f 0x0036, r.2.2.2 ^^^ gfMul f 0x0078, gfMul f 0x0040)) (0, 0, 0, 0)

/-- Check symbol `32 + i` of a line as it is stored: that of its data with what has struck it since (R248, R251). -/
def State.checkSym (s : State) (ln i : Nat) : Nat :=
  let bs := s.raw (ln * 64) 64
  let r := checkSyms ((List.range 32).map (fun j => fieldLe bs (2 * j) 2))
  (if i = 0 then r.1 else if i = 1 then r.2.1 else if i = 2 then r.2.2.1 else r.2.2.2) ^^^
    symOf (Sparse.get 0 s.upset ln) (32 + i)

/-- The check line of a group of a bulk package: the check symbols of slot j in bytes 8j to 8j + 7, symbol 32 + i of it in
bytes 8j + 2i and 8j + 2i + 1 (R250); its reserved bytes 56 to 63 are written as zero (R246). `base` is the package's
address. -/
def State.checkLineBytes (s : State) (base ch g : Nat) : List Byte :=
  padTo 64 (((List.range 7).map (fun j =>
    ((List.range 4).map (fun i => leBytes 2 (s.checkSym (base / 64 + bulkLine ch g j) i))).flatten)).flatten)

/-- What the decoder makes of a read (Table 10.2): the symbols it corrects, at most two. -/
inductive Decoded
  | clean
  | corrected (fix : List (Nat × Nat))
  | uncorrectable
  deriving DecidableEq, Repr

/-- One symbol in error. -/
def decodeOne (s0 s1 s2 s3 : Nat) : Option (List (Nat × Nat)) :=
  (List.range 36).findSome? (fun p =>
    let x := alphaPow (35 - p)
    if gfMul x s0 = s1 ∧ gfMul x s1 = s2 ∧ gfMul x s2 = s3 then some [(p, s0)] else none)

/-- Two symbols in error. -/
def decodeTwo (s0 s1 s2 s3 : Nat) : Option (List (Nat × Nat)) :=
  (List.range 36).findSome? (fun p => (List.range 36).findSome? (fun r =>
    if p < r then
      let x := alphaPow (35 - p)
      let y := alphaPow (35 - r)
      let d := x ^^^ y
      let u := s1 ^^^ gfMul y s0
      let v := s1 ^^^ gfMul x s0
      if gfMul (gfMul x x) u ^^^ gfMul (gfMul y y) v = gfMul d s2 ∧
         gfMul (gfMul x (gfMul x x)) u ^^^ gfMul (gfMul y (gfMul y y)) v = gfMul d s3 then
        some [(p, gfMul u (gfInv d)), (r, gfMul v (gfInv d))]
      else none
    else none))

/-- Decoding the difference of a stored codeword from the codeword of its bytes. The code is linear, so this decides
as decoding the stored codeword does (R252). -/
def decodeLine (e : Nat) : Decoded :=
  if e = 0 then .clean
  else
    let s0 := syndrome e 0
    let s1 := syndrome e 1
    let s2 := syndrome e 2
    let s3 := syndrome e 3
    if s0 = 0 ∧ s1 = 0 ∧ s2 = 0 ∧ s3 = 0 then .clean
    else match (if s0 = 0 then none else decodeOne s0 s1 s2 s3) with
      | some f => .corrected f
      | none =>
        match decodeTwo s0 s1 s2 s3 with
        | some f => .corrected f
        | none => .uncorrectable

/-- A pattern with symbols corrected. -/
def applyFix (e : Nat) (fix : List (Nat × Nat)) : Nat := fix.foldl (fun x p => x ^^^ (p.2 * 2 ^ (16 * p.1))) e

/-- Bytes of a line with the data part of a pattern added (R248: symbol j is bytes 2j and 2j + 1). -/
def xorLine (bs : List Byte) (e : Nat) : List Byte := leBytes 64 (ofLe bs ^^^ (e % 2 ^ 512))

/-- The bytes of a line as a read gives them: corrected where they can be, as stored where they cannot (R252, R255). -/
def State.lineAsRead (s : State) (ln : Nat) : List Byte :=
  let e := Sparse.get 0 s.upset ln
  let bs := s.raw (ln * 64) 64
  match decodeLine e with
  | .corrected fix => xorLine bs (applyFix e fix)
  | _ => xorLine bs e

/-- Bytes of memory as reads give them. Lines whose codewords are as they were written read as they were written. -/
def State.asRead (s : State) (a n : Nat) : List Byte :=
  let first := a / 64
  let past := (a + n + 63) / 64
  if s.upset.any (fun p => decide (first ≤ p.1) && decide (p.1 < past)) then
    (((List.range (past - first)).flatMap (fun i => s.lineAsRead (first + i))).drop (a % 64)).take n
  else s.raw a n

/-! ## Region digests (R303 to R307) -/

/-- The line hash of eight 64-bit words (R303). -/
def lineHash (k a : Word) (ws : List Word) : Word :=
  let rot := [29, 41, 17, 53, 11, 37, 23, 47]
  let p := (ws.zip rot).foldl (fun (p : Word × Word) wr =>
    let x := p.1 + wr.1
    let y := rotl64 p.2 wr.2 ^^^ x
    (x + y, y)) (k ^^^ a, rotl64 k 32 + 0x8C3F5E21A7D40B69#64)
  let q := (List.range 4).foldl (fun (p : Word × Word) _ =>
    let x := p.1 + rotl64 p.2 13
    (x, rotl64 p.2 31 ^^^ x)) p
  q.1 ^^^ q.2

/-- The eight words of a 64-byte block. -/
def lineWords (bs : List Byte) : List Word := (List.range 8).map (fun j => BitVec.ofNat 64 (fieldLe bs (8 * j) 8))

def hashBytes (k : Word) (a : Nat) (bs : List Byte) : Word := lineHash k (BitVec.ofNat 64 a) (lineWords bs)

/-- The list digest of a byte string (R307). -/
def listDigest (bs : List Byte) : Word :=
  (List.range (ceilDiv bs.length 64)).foldl
    (fun acc i => acc + hashBytes 0#64 (64 * i) (padTo 64 ((bs.drop (64 * i)).take 64))) 0#64

/-- The digest key in force (LDG_DKEY). -/
def State.dkey (s : State) : Word := s.rd .ldgDkey 0 0

/-- A region may be digest-enabled: it is one of the 4,864 regions of memory (R304). -/
def regionReal (r : Nat) : Bool :=
  (decide (r < 2048) && decide (r % 128 < 80)) ||
  (decide (2048 ≤ r) && decide (r < 6144) && decide ((r - 2048) % 128 < 112))

/-- Bit `r` of an array of 64-bit registers. -/
def State.regBit (s : State) (reg : Reg) (r : Nat) : Bool := (s.rd reg 0 (r / 64)).toNat / 2 ^ (r % 64) % 2 == 1

def State.setRegBit (s : State) (reg : Reg) (r : Nat) (b : Bool) : State :=
  let w := s.rd reg 0 (r / 64)
  s.wr reg 0 (r / 64) (fset (r % 64) 1 w (if b then 1 else 0))

def State.denabled (s : State) (r : Nat) : Bool := s.regBit .ldgDen r
def State.dinvalid (s : State) (r : Nat) : Bool := s.regBit .ldgDinv r

/-- Any region touched by a range is digest-enabled. -/
def State.rangeEnabled (s : State) (a n : Nat) : Bool :=
  n != 0 && (List.range ((a + n - 1) / 2 ^ 30 + 1 - a / 2 ^ 30)).any (fun i => s.denabled (a / 2 ^ 30 + i))

/-- A region loses validity (R305). -/
def State.invalidate (s : State) (r : Nat) : State :=
  if s.denabled r then (s.setRegBit .ldgDinv r true).wr .ldgDigest 0 r 0#64 else s

/-- The digest update of a write to a line of a valid region (R306). -/
def State.digestWrite (s : State) (ln : Nat) (old new : List Byte) : State :=
  let r := ln / 2 ^ 24
  if s.denabled r && !s.dinvalid r then
    s.wr .ldgDigest 0 r (s.rd .ldgDigest 0 r + hashBytes s.dkey (ln * 64) new - hashBytes s.dkey (ln * 64) old)
  else s

/-! ## Lines at a controller -/

/-- What a read of a line gives. -/
structure LineRead where
  bytes : List Byte
  unc : Bool
  st : State

/-- The instance of the MEM-layout registers of a controller, and its channel register. -/
def chanReg (ctl : Nat) : Reg := if ctl < 16 then .memCh else .blkCh
def chanInst (ctl : Nat) : Nat := if ctl < 16 then ctl else ctl - 16
def ctlDie (ctl : Nat) : Nat := if ctl < 16 then ctl / 2 else ctl - 16
def errInfoReg (ctl : Nat) : Reg := if ctl < 16 then .memErrinfo else .blkErrinfo

/-- The payload of a memory event (Table 17.2). -/
def State.memPayload (s : State) (ctl ch : Nat) : Nat :=
  plAt 16 (s.rd .memErraddr ctl 0).toNat + plAt 24 (s.rd (errInfoReg ctl) (chanInst ctl) 0).toNat +
  plAt 32 (if ctl < 16 then ctl % 2 else 2) + plAt 33 ch

/-- The error log captures an error (R257). -/
def State.logError (s : State) (ctl ch ln : Nat) (scrub : Bool) (fix : List (Nat × Nat)) (unc : Bool) : State :=
  if s.get F.MEM_ERRADDR_VALID ctl = 0 ∨ (unc = true ∧ s.get F.MEM_ERRADDR_TYPE ctl = 1) then
    let s := s.wr .memErraddr ctl 0 (BitVec.ofNat 64
      (ln * 64 + (if scrub then 2 ^ 59 else 0) + (if unc then 2 else 1) * 2 ^ 60 + 2 ^ 63))
    let f := if unc then [] else fix
    s.wr (errInfoReg ctl) (chanInst ctl) 0 (BitVec.ofNat 64
      (ch + (f.getD 0 (0, 0)).1 * 2 ^ 8 + (f.getD 1 (0, 0)).1 * 2 ^ 16 + f.length * 2 ^ 24 + s.now % 2 ^ 32 * 2 ^ 32))
  else s

/-- Counting and recording a corrected read (R254, R257, R260): the line is to be written back. -/
def State.corrected (s : State) (who : Req) (ln : Nat) (fix : List (Nat × Nat)) : State :=
  let ctl := ctlOf (ln * 64)
  let ch := chanOf ln
  let scrub := decide (who = .scrub)
  let s := (s.set F.MEM_STATUS_CE 1 ctl).bump (if scrub then F.MEM_CECNT_SCRUB_CE else F.MEM_CECNT_DEMAND_CE) 1 ctl
  let s := s.bump ⟨chanReg ctl, 0, 16⟩ 1 (chanInst ctl) ch
  let s := s.logError ctl ch ln scrub fix false
  let s := s.raise (ctlDie ctl) 0x0501 (s.memPayload ctl ch)
  let s := s.ledBump L_CE 1
  let key := chanKey ctl ch
  let n := Sparse.get 0 s.mc.ceBatten key + 1
  let urgentAt := s.get (if ctl < 16 then F.MEM_CTRL_CE_URGENT else F.BLK_CTRL_CE_URGENT) (chanInst ctl)
  let mc := { s.mc with
    ceBatten := Sparse.put 0 s.mc.ceBatten key n
    urgent := if n = urgentAt ∧ key ∉ s.mc.urgent then (s.mc.urgent ++ [key]).mergeSort (· ≤ ·) else s.mc.urgent
    writeBack := s.mc.writeBack.filter (fun p => p.1 != ln) ++ [(ln, applyFix (Sparse.get 0 s.upset ln) fix)] }
  { s with mc := mc }

/-- Counting and recording an uncorrectable read (R255, R257), with the mark of a live course unless the bytes go to
no requester. -/
def State.uncorrected (s : State) (who : Req) (ln : Nat) : State :=
  let ctl := ctlOf (ln * 64)
  let ch := chanOf ln
  let scrub := decide (who = .scrub)
  let s := (s.set F.MEM_STATUS_UE 1 ctl).bump (if scrub then F.MEM_UECNT_SCRUB_UE else F.MEM_UECNT_DEMAND_UE) 1 ctl
  let s := s.bump ⟨chanReg ctl, 16, 16⟩ 1 (chanInst ctl) ch
  let s := s.logError ctl ch ln scrub [] true
  let s := s.raise (ctlDie ctl) 0x0502 (s.memPayload ctl ch)
  let s := s.ledBump L_UE 1
  if who = .scrub ∨ who = .oldLine then s else s.markLive 1

/-- A read of a line takes effect (R243, R252, Table 10.2). -/
def State.readLine (s : State) (who : Req) (ln : Nat) : LineRead :=
  let e := Sparse.get 0 s.upset ln
  let bs := s.raw (ln * 64) 64
  match decodeLine e with
  | .clean => ⟨xorLine bs e, false, s⟩
  | .corrected fix => ⟨xorLine bs (applyFix e fix), false, s.corrected who ln fix⟩
  | .uncorrectable => ⟨xorLine bs e, true, s.uncorrected who ln⟩

/-- The bytes of a line and a clean codeword for them; a pending write-back of the line is cancelled (R254). -/
def State.storeLine (s : State) (ln : Nat) (bs : List Byte) : State :=
  { s.rawPut (ln * 64) bs with
    upset := Sparse.put 0 s.upset ln 0
    mc := { s.mc with writeBack := s.mc.writeBack.filter (fun p => p.1 != ln) } }

/-- A whole-line write (R243, R306, R305): in a valid region the old line is read first. -/
def State.writeLineAt (s : State) (ln : Nat) (bs : List Byte) : State :=
  let r := ln / 2 ^ 24
  if s.denabled r && !s.dinvalid r then
    let o := s.readLine .oldLine ln
    if o.unc then (o.st.storeLine ln bs).invalidate r
    else (o.st.storeLine ln bs).digestWrite ln o.bytes bs
  else s.storeLine ln bs

/-- A partial write of a line (R244, R256): `off` and bytes within the line. -/
def State.writePartAt (s : State) (ln off : Nat) (bs : List Byte) : State :=
  let o := s.readLine .partialWrite ln
  let ctl := ctlOf (ln * 64)
  if o.unc then
    let s := (o.st.set F.MEM_STATUS_PARTIAL_DROPPED 1 ctl).raise (ctlDie ctl) 0x0503 (o.st.memPayload ctl (chanOf ln))
    s.invalidate (ln / 2 ^ 24)
  else
    let new := patch o.bytes off bs
    (o.st.storeLine ln new).digestWrite ln o.bytes new

/-- Bytes written within one line. -/
def State.writeIn (s : State) (ln off : Nat) (bs : List Byte) : State :=
  if off = 0 ∧ bs.length = 64 then s.writeLineAt ln bs else s.writePartAt ln off bs

/-- The line to which a move redirects a write (R177: forwarding), and the line to which it mirrors it (R175). -/
def MoveRun.target (m : MoveRun) (ln : Nat) : Option Nat :=
  m.ranges.findSome? (fun r => if r.1 / 64 ≤ ln ∧ ln < (r.1 + r.2.2 + 63) / 64 then some (r.2.1 / 64 + (ln - r.1 / 64)) else none)

/-- The lines of this module that a write to a line reaches, its own first (R175, R177). -/
def State.writeTargets (s : State) (ln : Nat) : List Nat :=
  match s.tables.moves.findSome? (fun m => if m.fwd then (m.target ln).map (fun d => (m.remote, d)) else none) with
  | some (true, _) => []
  | some (false, d) => [d]
  | none =>
    ln :: s.tables.moves.filterMap (fun m => if m.copied && !m.fwd && !m.remote then m.target ln else none)

/-- A line written since a move to another module copied it; its bytes go there again at the switch (R175). -/
def MoveRun.touch (ln : Nat) (m : MoveRun) : MoveRun :=
  if m.remote && m.copied && !m.fwd && (m.target ln).isSome && !m.dirty.contains ln then { m with dirty := m.dirty ++ [ln] }
  else m

def State.noteDirty (s : State) (ln : Nat) : State :=
  if s.tables.moves.any (·.remote) then { s with tables := { s.tables with moves := s.tables.moves.map (MoveRun.touch ln) } } else s

/-- A write to a source that forwards to another module is owed to that module (R177). -/
def State.forwardOut (s : State) (ln off : Nat) (bs : List Byte) : State :=
  match s.tables.moves.find? (fun m => m.fwd && m.remote && (m.target ln).isSome) with
  | none => s
  | some m =>
    let a := m.dest / 2 ^ 43 * 2 ^ 43 + (m.target ln).getD 0 * 64 + off
    { s with tables := { s.tables with outbound := s.tables.outbound ++ [(m.table, m.shard, a, bs)] } }

/-- A write of bytes within one line, with the mirrored and forwarded writes of moves. -/
def State.writeLine (s : State) (ln off : Nat) (bs : List Byte) : State :=
  (((s.writeTargets ln).foldl (fun s l => s.writeIn l off bs) s).forwardOut ln off bs).noteDirty ln

/-- A write of bytes to memory, line by line in ascending order (R243). -/
def writeLines : Nat → State → Nat → List Byte → State
  | 0, s, _, _ => s
  | n + 1, s, a, bs =>
    if bs = [] then s
    else
      let k := 64 - a % 64
      writeLines n (s.writeLine (a / 64) (a % 64) (bs.take k)) (a + k) (bs.drop k)

/-- A write of bytes to near or bulk memory. -/
def State.writeMem (s : State) (a : Nat) (bs : List Byte) : State := writeLines (bs.length / 64 + 2) s a bs

/-- What a read of bytes gives: the bytes, whether a line was uncorrectable, the state. -/
structure MemRead where
  bytes : List Byte
  unc : Bool
  st : State

/-- A read of bytes from memory, line by line in ascending order. -/
def readLines (who : Req) : Nat → State → Nat → Nat → MemRead
  | 0, s, _, _ => ⟨[], false, s⟩
  | k + 1, s, a, n =>
    if n = 0 then ⟨[], false, s⟩
    else
      let m := min n (64 - a % 64)
      let r := s.readLine who (a / 64)
      let rest := readLines who k r.st (a + m) (n - m)
      ⟨(r.bytes.drop (a % 64)).take m ++ rest.bytes, r.unc || rest.unc, rest.st⟩

/-- A read of bytes of near or bulk memory. -/
def State.readMem (s : State) (who : Req) (a n : Nat) : MemRead := readLines who (n / 64 + 2) s a n

/-! ## Protection of ranges (R52, R164, R183, R184) -/

/-- Two ranges overlap. -/
def overlaps (a n b m : Nat) : Bool := n != 0 && m != 0 && decide (a < b + m) && decide (b < a + n)

/-- Tables with VALID = 1 in the directory (R164, Table 7.1: byte 2, bit 7). -/
def State.definedTables (s : State) : List Nat :=
  match s.tables.dir with
  | none => []
  | some d => s.mem.filterMap (fun c =>
      if d ≤ c.1 ∧ c.1 < d + 0x400000 ∧ (c.1 - d) % 64 = 2 ∧ 128 ≤ c.2.toNat then some ((c.1 - d) / 64) else none)

/-- The descriptor bytes of a table (Table 7.1). -/
def State.descOf (s : State) (t : Nat) : List Byte :=
  match s.tables.dir with
  | none => List.replicate 64 0#8
  | some d => s.asRead (d + 64 * t) 64

/-- Shard list base and number of shards of a descriptor. -/
def descShardList (d : List Byte) : Nat := fieldLe d 24 8
def descShards (d : List Byte) : Nat := fieldLe d 6 2

/-- A range overlaps the region table of an ingest port that is enabled or has a region (R295; assumption log 16). -/
def State.inRegionTable (s : State) (a n : Nat) : Bool :=
  [0, 1].any (fun p => (s.bit F.ETH_CTRL_EN p || s.eth.regions.any (fun m => m.1 / 4096 == p && m.2.isSome)) &&
    overlaps a n (s.get F.ETH_MR_BASE_BASE p * 64) 0x2_0000)

/-- A range overlaps the directory or a defined table's shard list (R164), or a region table of an ingest port (R295). -/
def State.inDirectory (s : State) (a n : Nat) : Bool :=
  s.inRegionTable a n ||
  match s.tables.dir with
  | none => false
  | some d => overlaps a n d 0x400000 || s.definedTables.any (fun t =>
      overlaps a n (descShardList (s.descOf t)) (64 * descShards (s.descOf t)))

/-- A range overlaps a locked range while the course lock is engaged (R183). -/
def State.inLock (s : State) (a n : Nat) : Bool :=
  s.course.lock && (match s.course.prog with
    | none => false
    | some p => p.lockRanges.any (fun r => overlaps a n r.1 r.2))

/-- Why a write is refused. -/
inductive WriteStop
  /-- WADDING_PROTECTED (R52) -/
  | wadding
  /-- locked or directory range (Table 7.6) -/
  | locked
  deriving DecidableEq, Repr

/-- Whether a write of a range is refused: wadding on digest-enabled or locked regions (R52), any writer but those of
R184 on locked ranges, any writer but the A8 itself on the directory and shard lists (R164). -/
def State.writeStop (s : State) (w : Writer) (wad : Bool) (a n : Nat) : Option WriteStop :=
  if wad && (s.rangeEnabled a n || s.inLock a n) then some .wadding
  else if (match w with
    | .device => false
    | .update | .migration | .streaming => s.inDirectory a n
    | _ => s.inDirectory a n || s.inLock a n) then some .locked
  else none

/-- Counting an external write (R308, section 11 of R321): source code, device, address. -/
def State.noteExternal (s : State) (src dev a n : Nat) : State :=
  if s.courseLive && s.rangeEnabled a n then
    let l := s.course.externs
    let hit := l.any (fun e => e.src == src && e.dev == dev)
    let l := if hit then l.map (fun e => if e.src == src && e.dev == dev then { e with count := e.count + 1 } else e)
      else l ++ [⟨src, dev, 1, a⟩]
    ({ s with course := { s.course with externs := l } }).cause 5
  else s

/-- A write by a writer that is external to the running course is noted (R308). -/
def State.noteWriter (s : State) (w : Writer) (a n : Nat) : State :=
  match w with
  | .host => s.noteExternal 0 0 a n
  | .ingest _ => s.noteExternal 1 0 a n
  | .command q =>
    if (match s.course.prog with | some p => p.queues.contains q | none => false) then s else s.noteExternal 2 0 a n
  | .remote dev course =>
    if course = s.get F.TBN_COURSE_COURSE % 2 ^ 32 then s else s.noteExternal 3 dev a n
  | _ => s

end Sys2Proof.Machine
end

