-- ==== Sys2Proof/Machine/Operands.lean ====
section
/-! DEFINITION. The operand forms of commands: the packet of Table 13.5, the opcodes of Table 13.8 with the parameter
bytes they name, and the life of a command from acceptance to its completion (R340 to R353). -/
namespace Sys2Proof.Machine

/-! ## Statuses (Table 13.9) -/

def stSuccess : Nat := 0x00
def stPreempted : Nat := 0x01
def stWadding : Nat := 0x02
def stTorn : Nat := 0x03
def stVersion : Nat := 0x04
def stBadOpcode : Nat := 0x05
def stBadParam : Nat := 0x06
def stNotIdle : Nat := 0x07
def stCourseRejected : Nat := 0x08
def stNotLocked : Nat := 0x09
def stStartPassed : Nat := 0x0A
def stConflict : Nat := 0x0B
def stUnmapped : Nat := 0x0C
def stLocked : Nat := 0x0D
def stHostError : Nat := 0x0E
def stDescInvalid : Nat := 0x0F
def stUnknownTable : Nat := 0x10
def stOffsets : Nat := 0x11
def stIndexRange : Nat := 0x12
def stRemoteFailed : Nat := 0x13
def stProgramInvalid : Nat := 0x14
def stCollMismatch : Nat := 0x15
def stPeerLost : Nat := 0x16
def stTimeout : Nat := 0x17
def stRefused : Nat := 0x18
def stOverrun : Nat := 0x19
def stTileFault : Nat := 0x1A
def stAborted : Nat := 0x1B
def stDenied : Nat := 0x1C

/-! ## Opcodes (Table 13.8) -/

/-- A row of Table 13.8: opcode, offered by version 1, issued by wadding queues, accepted in IDLE only, and the byte
ranges of its parameters as (offset, length). -/
structure OpRow where
  op : Nat
  v1 : Bool
  wad : Bool
  idle : Bool
  params : List (Nat × Nat)

def opRows : List OpRow := [
  ⟨0x0000, true, true, false, []⟩,
  ⟨0x0001, true, true, false, [(16, 1)]⟩,
  ⟨0x0002, false, true, false, [(16, 4), (24, 8)]⟩,
  ⟨0x0003, false, false, false, [(16, 8)]⟩,
  ⟨0x0100, false, false, true, [(16, 12)]⟩,
  ⟨0x0101, false, true, false, [(16, 8)]⟩,
  ⟨0x0200, true, true, false, [(16, 25)]⟩,
  ⟨0x0201, true, true, false, [(16, 25)]⟩,
  ⟨0x0202, false, true, false, [(16, 1), (18, 2), (24, 24)]⟩,
  ⟨0x0203, false, true, false, [(16, 1), (18, 2), (24, 24)]⟩,
  ⟨0x0204, false, false, false, [(16, 20)]⟩,
  ⟨0x0205, false, false, false, [(16, 5)]⟩,
  ⟨0x0206, false, false, false, [(16, 11)]⟩,
  ⟨0x0207, false, false, false, [(16, 13)]⟩,
  ⟨0x0300, false, false, true, [(16, 8)]⟩,
  ⟨0x0301, false, false, true, [(16, 16)]⟩,
  ⟨0x0302, false, false, true, [(16, 2)]⟩,
  ⟨0x0303, false, false, false, [(16, 4), (24, 8)]⟩] ++ [
  ⟨0x0304, false, false, true, [(16, 8)]⟩,
  ⟨0x0305, false, true, false, [(16, 8)]⟩,
  ⟨0x0306, false, false, false, [(16, 18)]⟩,
  ⟨0x0307, false, false, true, [(16, 1), (24, 10)]⟩,
  ⟨0x0308, false, false, true, [(16, 2), (24, 8)]⟩,
  ⟨0x0309, false, false, true, [(16, 2)]⟩,
  ⟨0x030A, false, false, false, [(16, 2), (24, 12), (40, 8)]⟩,
  ⟨0x0400, false, false, false, [(16, 8)]⟩,
  ⟨0x0401, false, true, false, [(16, 24)]⟩,
  ⟨0x0402, false, true, false, [(16, 1)]⟩,
  ⟨0x0500, false, false, true, [(16, 4)]⟩,
  ⟨0x0501, false, false, true, [(16, 4)]⟩,
  ⟨0x0502, false, true, false, [(16, 9), (32, 8)]⟩,
  ⟨0x0503, false, true, false, [(16, 16)]⟩,
  ⟨0x0504, false, true, false, [(16, 2), (24, 8)]⟩,
  ⟨0x0600, false, false, false, [(16, 12)]⟩,
  ⟨0x0601, false, false, false, [(16, 3)]⟩] ++ [
  ⟨0x0700, true, false, false, []⟩,
  ⟨0x0701, true, false, false, []⟩,
  ⟨0x0702, true, false, false, [(16, 1), (24, 12)]⟩,
  ⟨0x0703, false, false, false, [(16, 8)]⟩,
  ⟨0x0800, false, false, false, [(16, 17)]⟩,
  ⟨0x0801, false, false, false, [(16, 8)]⟩,
  ⟨0x0802, false, false, false, []⟩,
  ⟨0x0803, false, false, false, [(16, 8)]⟩]

def opRow (op : Nat) : Option OpRow := opRows.find? (fun r => r.op == op)

/-! ## Packet fields -/

/-- A parameter of a command's packet: `n` bytes at an offset from the start of the packet. -/
def Cmd.par (c : Cmd) (o n : Nat) : Nat := fieldLe c.pkt o n

/-- The COURSE field of a packet (Table 13.5). -/
def Cmd.course (c : Cmd) : Nat := c.par 8 4

/-- The byte offset of the first reserved bit that is not zero: byte 2 [7:3], bytes 14 and 15, and parameter bytes that
Table 13.8 does not name (R339, R346 check 6). -/
def reservedAt (pkt : List Byte) (row : OpRow) : Option Nat :=
  if fieldLe pkt 2 1 ≥ 8 then some 2
  else if fieldLe pkt 14 2 ≠ 0 then some (if fieldLe pkt 14 1 ≠ 0 then 14 else 15)
  else (List.range 48).findSome? (fun i =>
    let o := 16 + i
    if fieldLe pkt o 1 ≠ 0 && !(row.params.any (fun r => decide (r.1 ≤ o) && decide (o < r.1 + r.2))) then some o else none)

/-- The number of the course in progress, low 32 bits (R341). -/
def State.courseLow (s : State) : Nat := s.get F.TBN_COURSE_COURSE % 2 ^ 32

/-! ## The operations of a course (R39, R41) -/

/-- A queue is one of those that take part in the course (R38). -/
def State.listed (s : State) (q : Nat) : Bool := match s.course.prog with | some p => p.queues.contains q | none => false

/-- An issuer of the course: the queue of an item or a command, or a cluster; and who issues an item. -/
def issuerPair (x : Issuer) : Bool × Nat := match x with | .queue q => (false, q) | .cluster g => (true, g)

/-- An operation of the course has completed: its issuer is the last to complete (R41). -/
def State.noteDone (s : State) (x : Bool × Nat) : State :=
  if s.courseLive then { s with frame := { s.frame with lastDone := some x } } else s

/-- A command in flight is an operation of the work set of a queue that takes part in the course (R39, R341, R434): data
movement, yealm work or a collective. Launches count on their clusters. -/
def State.setCommand (s : State) (c : Cmd) : Bool :=
  s.courseLive && !c.wadding && s.listed c.q &&
  ([0x0200, 0x0201, 0x0202, 0x0203, 0x0305, 0x0400, 0x0401].contains c.op) &&
  ((c.course != 0 && c.course == s.courseLow) || c.op == 0x0305)

/-! ## Commands in flight -/

/-- Commands of a queue in flight. -/
def State.inflightOf (s : State) (q : Nat) : List Cmd := s.queues.inflight.filter (fun c => c.q == q)

/-- A command in flight by queue and sequence. -/
def State.cmd? (s : State) (q seq : Nat) : Option Cmd := s.queues.inflight.find? (fun c => c.q == q && c.seq == seq)

/-- INFLIGHT follows the list. -/
def State.syncInflight (s : State) (q : Nat) : State := s.set F.QP_QSTATE_INFLIGHT (s.inflightOf q).length q

def State.setInflight (s : State) (l : List Cmd) : State := { s with queues := { s.queues with inflight := l } }

/-- A command in flight is replaced. -/
def State.putCmd (s : State) (c : Cmd) : State :=
  s.setInflight (s.queues.inflight.map (fun d => if d.q == c.q && d.seq == c.seq then c else d))

/-- A command runs on: its row has run, and `aux` says what it waits for. -/
def State.cmdWaits (s : State) (c : Cmd) (aux : List Nat) : State := s.putCmd { c with running := true, aux := aux }

/-- The die of a queue (R338). -/
def queueDie (q : Nat) : Nat := q / 2048

/-- The completion of a command takes place: it leaves the flight, the queue's registers and counters take note
(R353, R355), a YLM_PREFETCH that failed sets STAGE_ERROR (R213), and its record waits to be written in order of completion (R343). -/
def State.completeFull (s : State) (c : Cmd) (status detail result : Nat) (written : Bool) : State :=
  let s := if s.setCommand c then s.noteDone (false, c.q) else s
  let s := s.setInflight (s.queues.inflight.filter (fun d => !(d.q == c.q && d.seq == c.seq)))
  let s := (s.syncInflight c.q).set F.QP_QSEQ_LAST_DONE c.seq c.q
  let s := s.bump F.QP_QCNT_COUNT 1 c.q 5
  let s := if status = stSuccess then s
    else ((((s.bump F.QP_QCNT_COUNT 1 c.q 6).set F.QP_QERR_STATUS status c.q).set F.QP_QERR_DETAIL detail c.q).set
      F.QP_QERR_SEQ c.seq c.q)
  let s := if c.op = 0x0306 ∧ status ≠ stSuccess then s.set F.YLM_STATUS_STAGE_ERROR 1 (queueDie c.q) else s
  let flags := c.par 2 1
  let d : DoneCmd := ⟨c.q, c.seq, c.op, status, detail, result, written, c.epoch, flags / 2 % 2 == 1, c.dropped, s.now, none⟩
  -- NOCMPL: no record on SUCCESS
  if status = stSuccess ∧ flags / 4 % 2 = 1 then s
  else { s with queues := { s.queues with done := s.queues.done ++ [d] } }

def State.complete (s : State) (c : Cmd) (status detail result : Nat) : State := s.completeFull c status detail result false

/-- SUCCESS with a result. -/
def State.succeed (s : State) (c : Cmd) (result : Nat) : State := s.complete c stSuccess 0 result

/-- A status other than SUCCESS, without a result. -/
def State.fail (s : State) (c : Cmd) (status detail : Nat) : State := s.complete c status detail 0

/-- The effect of a command row: the accepted command of that opcode at (queue, sequence) runs; with no such command
there is no occasion for the row and the state stays (assumption log 4). -/
def State.runCmd (s : State) (op q seq : Nat) (f : Cmd → State → State) : State :=
  match s.cmd? q seq with
  | some c => if c.op = op ∧ c.running = false then f c s else s
  | none => s

/-- A command of the block that waits, by queue and sequence. -/
def State.withWaiting (s : State) (qs : Option (Nat × Nat)) (f : Cmd → State → State) : State :=
  match qs with
  | none => s
  | some p =>
    match s.cmd? p.1 p.2 with
    | some c => f c s
    | none => s

/-- Completing every command in flight that satisfies `p` with a status. -/
def State.completeAll (s : State) (p : Cmd → Bool) (status detail : Nat) : State :=
  (s.queues.inflight.filter p).foldl (fun s c => s.fail c status detail) s

/-- A queue is a wadding queue (R345). -/
def State.queueWadding (s : State) (q : Nat) : Bool := s.bit F.QP_QCFG_WADDING q

/-- An address parameter must be a 64-byte-aligned local address ("A" of Table 13.8): BAD_PARAM at its offset. -/
def State.needA (s : State) (c : Cmd) (o : Nat) (k : Nat → State) : State :=
  let a := c.par o 8
  if a % 64 ≠ 0 ∨ 2 ^ 43 ≤ a then s.fail c stBadParam o else k a

/-- UNMAPPED for a range that is not in service memory, judged before any data moves, with its gutter event (R16). -/
def State.needMem (s : State) (c : Cmd) (a n : Nat) (k : State) : State :=
  if s.memRange a n then k
  else (s.raise (queueDie c.q) 0x0202 (plAt 16 a + plAt 24 2)).fail c stUnmapped 0

/-- A command writes its output to a local address, where nothing protects it (Tables 1.4, 7.6, R52). -/
def State.putOutput (s : State) (c : Cmd) (a : Nat) (bs : List Byte) (k : State → State) : State :=
  s.needMem c a bs.length (
    match s.writeStop (.command c.q) c.wadding a bs.length with
    | some .wadding => s.fail c stWadding 0
    | some .locked => s.fail c stLocked 0
    | none => k ((s.noteWriter (.command c.q) a bs.length).writeMem a bs))

/-! ## Host-bound writes (R335, R336) -/

/-- Host-bound writes of a queue reach the link: the link is up and the queue's epoch is current. -/
def State.hostReach (s : State) (q : Nat) : Bool :=
  s.get F.HIF_LINK_MODE != 0 && s.get F.QP_QSTATE_QEPOCH q == s.get F.HIF_EPOCH_EPOCH

/-- Host-bound data writes of a command, in payloads of at most 512 bytes: sent, or discarded and counted. -/
def hostWrites : Nat → State → Nat → Nat → List Byte → State
  | 0, s, _, _, _ => s
  | n + 1, s, q, a, bs =>
    if bs = [] then s
    else
      let s := if s.hostReach q then s.send (.hostData a (bs.take 512) (s.bit F.HIF_CTRL_RO_HOSTBOUND))
        else s.bump F.HIF_DROPCNT_WRITES 1
      hostWrites n s q (a + 512) (bs.drop 512)

def State.hostWrite (s : State) (q a : Nat) (bs : List Byte) : State := hostWrites (bs.length / 512 + 1) s q a bs

/-- A double word of the MSI-X table; vector controls reset to masked. -/
def State.msixWord (s : State) (k : Nat) : Nat := Sparse.get (if k % 4 = 3 then 1 else 0) s.host.msix k

/-- A queue's MSI-X vector is sent (R343); while MSI-X is off or the vector masked, its pending bit is set. -/
def State.msix (s : State) (v : Nat) : State :=
  if s.host.msixOn && s.msixWord (4 * v + 3) % 2 == 0 then s.send (.msix v)
  else if v ∈ s.host.pba then s
  else { s with host := { s.host with pba := s.host.pba ++ [v] } }

end Sys2Proof.Machine
end

