-- ==== Sys2Proof/Machine/Flags.lean ====
section
/-! DEFINITION. The flags of numeric results: the events of R75 to R80 and where they are counted, and scales computed
from amax and range (R90 to R93, R101). -/
namespace Sys2Proof.Machine

/-- Counts of the four events (R78, Table 3.8). -/
structure EvCount where
  sat : Nat
  ufl : Nat
  nonfin : Nat
  degen : Nat
  deriving DecidableEq, Repr

def EvCount.zero : EvCount := ⟨0, 0, 0, 0⟩

/-- One result's event added (R77). -/
def EvCount.add (c : EvCount) (e : Evt) : EvCount :=
  match e with
  | none => c
  | some .sat => { c with sat := c.sat + 1 }
  | some .ufl => { c with ufl := c.ufl + 1 }
  | some .nonfin => { c with nonfin := c.nonfin + 1 }

def EvCount.addDegen (c : EvCount) : EvCount := { c with degen := c.degen + 1 }

/-- Counts of a list of events. -/
def EvCount.ofList (es : List Evt) : EvCount := es.foldl EvCount.add .zero

def EvCount.list (c : EvCount) : List Nat := [c.sat, c.ufl, c.nonfin, c.degen]

/-- The number of events. -/
def EvCount.total (c : EvCount) : Nat := c.sat + c.ufl + c.nonfin + c.degen

/-- The numerics mode of the course: IEEE, saturating when no course is in progress (R74). -/
def State.ieee (s : State) : Bool :=
  s.cstate != 0 && (match s.course.prog with | some p => p.ieee | none => false)

/-- The layer of a tensor id, 0xFFFF without one (R320). -/
def State.layerOf (s : State) (tid : Nat) : Nat :=
  match s.course.prog with
  | none => 0xFFFF
  | some p =>
    match p.tensors.find? (fun t => t.tid == tid) with
    | some t => t.layer
    | none => 0xFFFF

/-- A field of a layer's ledger entry (Table 12.11), which saturates at its length. -/
def State.layerBump (s : State) (layer : Nat) (f : LFld) (n : Nat) : State :=
  if n = 0 then s
  else
    let k := layer * 32 + f.off
    let v := min (Sparse.get 0 s.course.layerLed k + n) (256 ^ f.len - 1)
    { s with course := { s.course with layerLed := Sparse.put 0 s.course.layerLed k v } }

/-- Adding to a counter of the tensor's entry in memory, saturating at 2^64 − 1 (R79); where R164 or R184
refuses the write, nothing is counted there. -/
def State.counterAdd (s : State) (a n : Nat) : State :=
  if n = 0 ∨ (s.inDirectory a 8 || s.inLock a 8) = true then s
  else
    let r := s.readMem .engine a 8
    r.st.writeMem a (leBytes 8 (min (ofLe r.bytes + n) (2 ^ 64 - 1)))

/-- The counter entry of a tensor takes its events; an unmapped entry drops them, with one gutter event for the course
(R79, R80, R84). With no course in progress the counters are those of the last course program (assumption log 45). -/
def State.entryAdd (s : State) (tid : Nat) (c : EvCount) : State :=
  match s.course.prog with
  | none => s
  | some p =>
    if tid = 0xFFFFFF ∨ c.total = 0 then s
    else
      let a := p.counterBase + 32 * tid
      if s.memRange a 32 then
        (((s.counterAdd a c.sat).counterAdd (a + 8) c.ufl).counterAdd (a + 16) c.nonfin).counterAdd (a + 24) c.degen
      else if s.course.ctrDropped then s
      else
        let s := { s with course := { s.course with ctrDropped := true } }
        s.raise 0 0x0204 (plAt 16 a + plAt 24 p.number)

/-- Counting the events of results that a tensor received, issued by a queue (R78). -/
def State.countEvents (s : State) (q tid : Nat) (c : EvCount) : State :=
  if c.total = 0 then s
  else
    let s := (((s.bump F.QP_QCNT_COUNT c.sat q 0).bump F.QP_QCNT_COUNT c.ufl q 1).bump F.QP_QCNT_COUNT c.nonfin q 2).bump
      F.QP_QCNT_COUNT c.degen q 3
    let s := s.entryAdd tid c
    if s.cstate = 0 then s
    else
      let s := (((s.ledBump ⟨128, 8⟩ c.sat).ledBump ⟨136, 8⟩ c.ufl).ledBump ⟨144, 8⟩ c.nonfin).ledBump ⟨152, 8⟩ c.degen
      let l := s.layerOf tid
      (((s.layerBump l ⟨8, 4⟩ c.sat).layerBump l ⟨12, 4⟩ c.ufl).layerBump l ⟨16, 4⟩ c.nonfin).layerBump l ⟨20, 2⟩ c.degen

/-- The rounding of an element of a tensor: SR draws at the seed and number of the course
program, the last one when no course is in progress (R81 to R83, assumption log 46). -/
def State.rndFor (s : State) (sr : Bool) (tid idx : Nat) : Rnd :=
  match s.course.prog with
  | some p => rndOf sr p.runSeed (BitVec.ofNat 64 p.number) tid idx
  | none => rndOf sr 0#64 (s.rd .tbnCourse 0 0) tid idx

/-! ## Scales (R90 to R93, R101) -/

/-- QMAX (R90). -/
def qmax : Fmt → Rat
  | .f8a => 480
  | .f8b => 114688
  | .i8 => 127
  | _ => 255

/-- The least power of two not below `x`, which is positive. -/
def pow2Ceil (x : Rat) : Rat :=
  let e := ilog2 x
  if pow2 e < x then pow2 (e + 1) else pow2 e

/-- The S16 code of a positive value and its event (R61). -/
def s16Of (x : Rat) : Nat × Evt := rnaS16 x

/-- The scale of one symmetric group from a positive effective amax (R92), with its event. -/
def scaleOf (qm : Rat) (pow : Bool) (a : Rat) : Nat × Evt :=
  let qt := a / qm
  if pow then
    let p := s16Of (pow2Ceil qt)
    (min p.1 0x7F7F, p.2)
  else
    let p := s16Of qt
    let bumped := if qm < a / (readS16 p.1).1 then p.1 + 1 else p.1
    (min bumped 0x7F7F, p.2)

/-- What a scale computation gives: S16 code, zero point, whether the group is degenerate, and its event. -/
structure ScaleRes where
  scale : Nat
  zp : Nat
  degen : Bool
  ev : Evt
  deriving DecidableEq, Repr

/-- The scale of an F8a, F8b or I8 group from its amax (R92, Table 4.3). -/
def symScale (f : Fmt) (pow : Bool) (amax : Rat) : ScaleRes :=
  if amax = 0 then ⟨0x3F80, 0, true, none⟩
  else
    let p := scaleOf (qmax f) pow amax
    ⟨p.1, 0, false, p.2⟩

/-- 2^-126, the smallest normal F32 value. -/
def minNormal : Rat := pow2 (-126)

/-- The scale and zero point of a U8 group from its minimum and maximum (R93, Table 4.3). -/
def u8Scale (pow : Bool) (lo hi : Rat) : ScaleRes :=
  if lo = hi then
    if hi = 0 then ⟨0x3F80, 0, true, none⟩
    else
      let m := max (if hi < 0 then -hi else hi) minNormal
      let p := scaleOf 255 false m
      ⟨p.1, if hi < 0 then 255 else 0, true, p.2⟩
  else
    let l := min lo 0
    let h := max hi 0
    let p := scaleOf 255 pow (h - l)
    let z := rnaNat ((-l) / (readS16 p.1).1)
    ⟨p.1, min z 255, false, p.2⟩

/-- F32 operand of a scale computation after R144: a NaN is +0, an infinity the largest finite value; with its event. -/
def scaleInput (x : F32) : Rat × Evt :=
  let p := replaceNonfin specF32.maxFin (dec32 x)
  (p.1.val, p.2)

/-- An element loaded: converted exactly to F32, special inputs as Table 3.7 or R76; an invalid S16 code is 1.0 (R61). -/
def loadElem (ieee : Bool) (f : Fmt) (scale : Rat) (z code : Nat) : F32 × Evt :=
  let x := decodeElem f code scale z
  if f = .s16 then let p := readS16 code; ((rna32 ieee false p.1).1, p.2)
  else if f.scaled then rna32 ieee x.neg x.mag
  else
    let p := convert .f32 ieee .rna f.big 1 0 x
    (BitVec.ofNat 32 p.1, p.2)

/-- Largest magnitude among the finite values of a list (R91). -/
def finiteAmax (xs : List F32) : Rat :=
  xs.foldl (fun m x => match dec32 x with | .fin _ v => max m v | _ => m) 0

/-- Minimum and maximum of the finite values of a list; 0 and 0 for none. -/
def finiteRange (xs : List F32) : Rat × Rat :=
  let vs := xs.filterMap (fun x => match dec32 x with | .fin n v => some (if n then -v else v) | _ => none)
  match vs with
  | [] => (0, 0)
  | v :: rest => rest.foldl (fun p x => (min p.1 x, max p.2 x)) (v, v)

/-- The rotation of a run of 64 values (R98): values with, for each position, the first event of R77's order. -/
def hadStage (ieee : Bool) (h : Nat) (x : List (F32 × Evt)) : List (F32 × Evt) :=
  (List.range x.length).map (fun i =>
    let j := if i / h % 2 = 0 then i else i - h
    let a := x.getD j (0#32, none)
    let b := x.getD (j + h) (0#32, none)
    let r := f32op ieee (if i = j then .add else .sub) a.1 b.1 0#32
    (r.1, worst (x.getD i (0#32, none)).2 r.2))

def hadamard (ieee : Bool) (xs : List F32) : List (F32 × Evt) :=
  let x0 := xs.map (fun v => (v, (none : Evt)))
  let x := [1, 2, 4, 8, 16, 32].foldl (fun x h => hadStage ieee h x) x0
  x.map (fun p =>
    let r := f32op ieee .mul p.1 0x3E000000#32 0#32
    (r.1, worst p.2 r.2))

end Sys2Proof.Machine
end

