-- ==== Sys2Proof/Machine/FabricOps.lean ====
section
/-! DEFINITION. Shared operations on the fabric: device number, ports and their levels, routing, sending requests and
messages, and the loss of a peer (chapter 11). -/
namespace Sys2Proof.Machine

def State.setCourse (s : State) (c : Course) : State := { s with course := c }

/-- Activity of a queue in a class of Table 15.5 (R387). -/
def State.act (s : State) (q k n : Nat) : State :=
  if n = 0 then s
  else
    let i := q * 16 + k
    { s with pwr := { s.pwr with act := Sparse.put 0 s.pwr.act i (Sparse.get 0 s.pwr.act i + n) } }

/-- Bursts of memory that a queue's accesses make, for the energy model (R387): 64 bytes each. -/
def State.actMem (s : State) (q a n : Nat) : State :=
  s.act q (if a < 0x200_0000_0000 then 5 else 6) (if a < 0x600_0000_0000 ∧ n ≠ 0 then (a % 64 + n + 63) / 64 else 0)

def State.updFab (s : State) (f : Fab → Fab) : State := { s with fab := f s.fab }

/-- The device number of the module, and whether it is assigned. -/
def State.devnum (s : State) : Nat := s.get F.CFG_DEVNUM_DEVNUM
def State.devValid (s : State) : Bool := s.bit F.CFG_DEVNUM_VALID

/-- A Jefort port is up. -/
def State.portUp (s : State) (p : Nat) : Bool := s.get F.JFL_PSTATUS_STATE p == 2

/-- The ports of a level in ascending order, numbered 0 tray, 1 rack, 2 hall (R267). -/
def levelPorts (l : Nat) : List Nat := (List.range 32).filter (fun p => portLevel p == l)

/-- The index of a port within its level. -/
def portIndex (p : Nat) : Nat := ((levelPorts (portLevel p)).filter (fun q => decide (q < p))).length

/-- JFL_LEVEL counts the ports of each level that are up (R291). -/
def State.syncLevels (s : State) : State :=
  (List.range 3).foldl (fun s l => s.set F.JFL_LEVEL_PORTS_UP ((levelPorts l).filter s.portUp).length 0 l) s

/-- The level that a request to a device takes (R271). -/
def State.levelTo (s : State) (d : Nat) : Nat :=
  let me := s.devnum
  if d / 4 = me / 4 then 0 else if d / 64 = me / 64 then 1 else 2

/-- The up ports of the level that reach a device (R272): in the tray, the four ports to its slot. -/
def State.portsTo (s : State) (d : Nat) : List Nat :=
  let l := s.levelTo d
  (levelPorts l).filter (fun p => s.portUp p &&
    (l != 0 || (s.devnum % 4) ^^^ (portIndex p % 3 + 1) == d % 4))

/-- The hash that places reads, stores and W96 atomics on a port (R272). -/
def routeHash (addr d : Nat) : Nat :=
  let a := addr / 64 % 2 ^ 37
  (a ^^^ (a / 2 ^ 11) ^^^ d) % 65536

/-- Sync traffic: SYNC, DELAY_REQ and DELAY_RSP (R286). -/
def isSync (op : Nat) : Bool := op == 0x20 || op == 0x21 || op == 0xA1

/-- Reads, stores and W96 atomics: their port is chosen by hash (R272). -/
def isHashed (op : Nat) : Bool := decide (1 ≤ op) && decide (op ≤ 3)

/-- The port of a message: by hash for reads, stores and W96 atomics, the lowest-numbered up port for sync traffic (R286),
in rotation for others (R272): the first up port from the one that the rotation of the level has come to. -/
def State.pickPort (s : State) (d op addr : Nat) : Option Nat × State :=
  let ps := s.portsTo d
  if isSync op then (ps.head?, s)
  else if isHashed op then (ps[routeHash addr d % ps.length]?, s)
  else
    let l := s.levelTo d
    match (ps.find? (fun p => decide (Sparse.get 0 s.fab.rot l ≤ p))).or ps.head? with
    | none => (none, s)
    | some p => (some p, s.updFab (fun f => { f with rot := Sparse.put 0 f.rot l (p + 1) }))

/-- No port of the level reaches the target: such a message leaves nowhere. -/
def noPort : Nat := 32

/-! ## Flits (R269, R274, R275) -/

/-- The virtual channel of an operation (Table 11.3): requests 0, control 2, management 3; responses take the fourth. -/
def vcOf (op : Nat) : Nat := if 0x80 ≤ op then 1 else if op < 0x10 then 0 else if op < 0x30 then 2 else 3

/-- The bytes of a request: its 32-byte header (Table 11.4) and its payload. -/
def reqBytes (op : Nat) (h : FabHdr) (len addr : Nat) (payload : List Byte) : List Byte :=
  leBytes 1 op ++ leBytes 1 (cond h.wadding 1 0 + cond h.reissue 2 0) ++ leBytes 2 h.src ++ leBytes 2 h.dst ++
  leBytes 2 h.epoch ++ leBytes 4 h.tag ++ leBytes 4 len ++ leBytes 8 addr ++ leBytes 4 h.pbatten ++ leBytes 4 h.course ++ payload

/-- The bytes of a response: its 16-byte header (R275) and its payload. -/
def rspBytes (op status : Nat) (unc : Bool) (src dst tag : Nat) (payload : List Byte) : List Byte :=
  leBytes 1 op ++ leBytes 1 status ++ leBytes 2 (cond unc 1 0) ++ leBytes 2 src ++ leBytes 2 dst ++ leBytes 4 tag ++
  leBytes 4 payload.length ++ payload

/-- Pieces of 240 bytes of transaction data. -/
def flitData : Nat → List Byte → List (List Byte)
  | 0, _ => []
  | n + 1, bs => padTo 240 (bs.take 240) :: flitData n (bs.drop 240)

/-- The flits of a message on a port, from a sequence number on; the first returns the credits that are owed. -/
def flitsOf (seq vc : Nat) (credits : List Nat) (bytes : List Byte) : List Flit :=
  (flitData (ceilDiv bytes.length 240) bytes).zipIdx.map (fun d =>
    ⟨seq + d.2, vc, if d.2 = 0 then credits else [0, 0, 0, 0], d.1⟩)

/-- A message leaves a port in flits (R269, R297): they are counted, as activity of a queue too (R387), and the last 512
stay in the replay buffer. -/
def State.sendFlits (s : State) (q p vc : Nat) (bytes : List Byte) (m : Msg) : State :=
  let n := ceilDiv bytes.length 240
  let x := Sparse.get ([], 0) s.fab.tx p
  let fl := flitsOf x.2 vc ((List.range 4).map (fun v => Sparse.get 0 s.fab.owed (4 * p + v))) bytes
  let l := x.1 ++ fl
  let s := s.updFab (fun f => { f with
    tx := Sparse.put ([], 0) f.tx p (l.drop (l.length - 512), x.2 + n)
    owed := (List.range 4).foldl (fun m v => Sparse.put 0 m (4 * p + v) 0) f.owed })
  ((s.bump F.JFL_PTX_FLITS n p).act q 8 n).send m

/-- A request or control message leaves a port. -/
def State.sendReq (s : State) (q p op : Nat) (h : FabHdr) (len addr : Nat) (payload : List Byte) : State :=
  s.sendFlits q p (vcOf op) (reqBytes op h len addr payload) (.fabric p op h len addr payload)

/-- A response leaves a port. -/
def State.sendAns (s : State) (p op status : Nat) (unc : Bool) (dst tag : Nat) (payload : List Byte) : State :=
  s.sendFlits 0 p (vcOf op) (rspBytes op status unc s.devnum dst tag payload)
    (.fabricRsp p op status unc s.devnum dst tag payload)

/-- A device is marked lost in JFL_LOST. -/
def State.devLost (s : State) (d : Nat) : Bool := (s.rd .jflLost 0 (d / 64)).toNat / 2 ^ (d % 64) % 2 == 1

/-- A write of CFG_DEVNUM on a die (R22): on die 0 while every Jefort port is down; otherwise ignored, with an event. -/
def State.writeDevnum (s : State) (die : Nat) (w : Word) : State :=
  if die ≠ 0 then s
  else if (List.range 32).all (fun p => s.get F.JFL_PSTATUS_STATE p == 0) then
    (s.set F.CFG_DEVNUM_DEVNUM (w.toNat % 2048)).set F.CFG_DEVNUM_VALID (w.toNat / 2 ^ 16 % 2)
  else s.raise 0 0x0203 (plAt 16 (winBase + 0x9_0000_0018))

/-- The sequence number of a flit is still in a port's replay buffer: it may not have been acknowledged. -/
def State.unacked (s : State) (p seq : Nat) : Bool :=
  let x := Sparse.get ([], 0) s.fab.tx p
  decide (x.2 ≤ seq + 512) && decide (seq < x.2)

/-- The port that a hop moves to when its own is down: the next up port of those that reach its target (R288). -/
def State.nextUp (s : State) (d p : Nat) : Option Nat :=
  let ps := s.portsTo d
  (ps.find? (fun k => decide (p < k))).or ps.head?

/-- What a hop sent and was not acknowledged leaves again on a port. -/
def State.resendRows (s : State) (h : Hop) (p : Nat) : State :=
  let r := h.rows.foldl (fun (x : State × List (Nat × Nat × List Byte)) w =>
    let s := x.1.sendReq h.q p h.op h.hdr w.2.2.length 0 w.2.2
    (s, x.2 ++ [(w.1, (Sparse.get ([], 0) s.fab.tx p).2 - 1, w.2.2)])) (s, [])
  r.1.updFab (fun f => { f with hops := f.hops.map (fun x => if x = h then { x with port := p, rows := r.2 } else x) })

/-- Hops whose port is down move to the next up port, and send again what was not acknowledged (R288). -/
def State.rehop (s : State) : State :=
  s.fab.hops.foldl (fun s h =>
    if s.portUp h.port then s
    else match s.nextUp h.dev h.port with
      | some p => s.resendRows h p
      | none => s.updFab (fun f => { f with hops := f.hops.map (fun x => if x = h then { x with port := noPort } else x) })) s

/-- A link that was up goes down (R269): its counters, and training starts again unless EN is 0. What was acknowledged
of the hops on it is settled; they move to the next up port (R288). -/
def State.linkDown (s : State) (p : Nat) : State :=
  let wasUp := s.portUp p
  let s := if wasUp then (s.bump F.JFL_PERR_DOWNS 1 p).set F.JFL_STATUS_LINK_DOWN 1 else s
  let s := s.set F.JFL_PSTATUS_VERSION 0 p
  let s := s.set F.JFL_PSTATUS_STATE (if s.bit F.JFL_PCTRL_EN p then 1 else 0) p
  let clear (m : Sparse Nat) : Sparse Nat := (List.range 4).foldl (fun m v => Sparse.put 0 m (4 * p + v) 0) m
  let s := s.updFab (fun f => { f with
    replay := Sparse.put (0, 0) f.replay p (0, 0), expect := Sparse.put 0 f.expect p 0
    tx := Sparse.put ([], 0) f.tx p ([], 0), owed := clear f.owed, credit := clear f.credit
    hops := f.hops.map (fun h => if h.port = p then { h with rows := h.rows.filter (fun w => s.unacked p w.2.1) } else h) })
  s.syncLevels.rehop

/-- A write of JFL_PCTRL of a port (R269, R297): MAXVER out of range rejects it; EN starts training, clearing it takes
the link down, RETRAIN takes it down and trains again. -/
def State.writePctrl (s : State) (p : Nat) (w : Word) : State :=
  let v := w.toNat
  let ver := v / 4 % 4
  if ver = 0 ∨ ver = 3 then s.set F.JFL_STATUS_SETTING_REJECTED 1
  else
    let was := s.bit F.JFL_PCTRL_EN p
    let en := v % 2
    let s := (s.set F.JFL_PCTRL_EN en p).set F.JFL_PCTRL_MAXVER ver p
    if en = 0 then (if s.get F.JFL_PSTATUS_STATE p = 0 then s else s.linkDown p)
    else if v / 2 % 2 = 1 then s.linkDown p
    else if was then s
    else (s.set F.JFL_PSTATUS_STATE 1 p)

/-- A write of JFL_CFG on die 0 (R281, R297). -/
def State.writeJflCfg (s : State) (w : Word) : State :=
  let v := w.toNat
  let t := v % 2048
  let r := v / 2 ^ 11 % 4
  let pu := v / 2 ^ 16 % 1024
  let lc := v / 2 ^ 26 % 16
  if s.cstate = 0 ∧ 10 ≤ t ∧ t ≤ 2000 ∧ 10 ≤ pu ∧ pu ≤ 1000 ∧ 2 ≤ lc ∧ (r + 1) * t ≤ 8000 then
    (((s.set F.JFL_CFG_REQ_TIMEOUT t).set F.JFL_CFG_RETRIES r).set F.JFL_CFG_PROBE_US pu).set F.JFL_CFG_LOSS_COUNT lc
  else s.set F.JFL_STATUS_SETTING_REJECTED 1

/-- Clearing bits of JFL_LOST readmits devices: the next request of each sets its newest epoch (R285). -/
def State.clearLost (s : State) (w : Nat) (mask : Word) : State :=
  let old := s.rd .jflLost 0 w
  let s := s.wr .jflLost 0 w (old &&& ~~~mask)
  (List.range 64).foldl (fun s b =>
    if (old &&& mask).toNat / 2 ^ b % 2 = 1 then
      s.updFab (fun f => { f with newest := Sparse.put none f.newest (64 * w + b) none })
    else s) s

/-! ## Sending -/

/-- Outcomes at the source beside Table 11.5: a timeout and a lost peer. -/
def fsTimeout : Nat := 0x100
def fsLost : Nat := 0x101

/-- Why nothing is sent to a device: no device number is assigned (R273), or the peer is lost (R284). -/
def State.noSend (s : State) (d : Nat) : Option Nat :=
  if !s.devValid then some 4 else if s.devLost d then some fsLost else none

/-- The number of the course in a request's header (Table 11.4). -/
def State.hdrCourse (s : State) : Nat := if s.cstate = 0 then 0 else s.courseLow

/-- The header of a message of this module (Table 11.4): `plan` is the planned batten of the issuing operation. -/
def State.hdr (s : State) (dst tag plan : Nat) (wad : Bool) : FabHdr :=
  ⟨s.devnum, dst, s.get F.JFL_EPOCH_EPOCH, tag, s.hdrCourse, if s.cstate = 0 then 0 else plan % 2 ^ 32, false, wad⟩

/-- The next tag. -/
def State.nextTag (s : State) : State := s.updFab (fun f => { f with tag := (f.tag + 1) % 2 ^ 32 })

/-- Operations that Link 1 does not carry (Table 11.10); of CHAIN_SUM and COLL_RESULT it carries some. -/
def notOnLink1 : List Nat := [0x03, 0x04, 0x05, 0x10, 0x20, 0x21, 0x22, 0x23]

/-- A port does not carry an operation (R292): it runs version 1. -/
def State.link1Stops (s : State) (p op : Nat) : Bool := s.get F.JFL_PSTATUS_VERSION p == 1 && notOnLink1.contains op

/-- Link 1 does not carry a chain's or a collective's message (Table 11.10): only F32 collectives without COMP. -/
def State.hopStops (s : State) (p : Nat) (plain : Bool) : Bool := s.get F.JFL_PSTATUS_VERSION p == 1 && !plain

/-- Two targets are reached by the same ports: the same level, and in the tray the same slot. -/
def State.sameWays (s : State) (d e : Nat) : Bool :=
  s.levelTo d == s.levelTo e && (s.levelTo d != 0 || d % 4 == e % 4)

/-- An earlier request holds a later one at the source (R272): the ports that reach the target have changed since, the
later one's port with them, and the earlier one was issued on its old port. -/
def State.holds (s : State) (o r : FabReq) : Bool :=
  isHashed r.op && s.sameWays o.dev r.dev && o.ways != r.ways && o.ways != [] &&
  o.via != r.port && o.ways.getD (routeHash r.addr r.dev % o.ways.length) noPort == o.via

/-- What the LEN field says: the bytes that a READ asks for, or the payload's. -/
def FabReq.size (r : FabReq) : Nat := if r.op = 1 then r.len else r.payload.length

/-- A request leaves by its port. -/
def State.emit (s : State) (r : FabReq) : State :=
  if r.port = noPort then s else s.sendReq r.q r.port r.op r.hdr r.size r.addr r.payload

/-- A request that expects a response is issued: it is outstanding, and sent unless it is held or no port of its level is
up (it then waits for its timeout, R282). One that its link does not carry is refused: its outcome (R292). -/
def State.request (s : State) (q dev op addr len : Nat) (payload : List Byte) (owner : FabOwner) (plan : Nat) (wad : Bool) :
    Option Nat × State :=
  let p := s.pickPort dev op addr
  let port := p.1.getD noPort
  if port ≠ noPort ∧ s.link1Stops port op = true then (some 9, s.set F.JFL_STATUS_VERSION_LINK1 1)
  else
    let s := p.2
    let r : FabReq := ⟨s.fab.tag, dev, op, addr, len, payload, owner, q, port, port, s.portsTo dev, 0, false,
      s.hdr dev s.fab.tag plan wad⟩
    let r := { r with held := s.fab.reqs.any (fun o => s.holds o r) }
    let s := (s.updFab (fun f => { f with reqs := f.reqs ++ [r] })).nextTag
    (none, if r.held then s else s.emit r)

/-- A held request whose way is clear takes the port that is its own by now, and leaves (R272). -/
def State.release (s : State) (r : FabReq) : State :=
  let port := (s.pickPort r.dev r.op r.addr).1.getD noPort
  let r' := { r with port := port, via := port, ways := s.portsTo r.dev, held := false }
  if (s.fab.reqs.takeWhile (fun o => o.tag != r.tag)).any (fun o => s.holds o r') then s
  else (s.updFab (fun f => { f with reqs := f.reqs.map (fun x => if x.tag = r.tag then r' else x) })).emit r'

/-- The outstanding request with a tag leaves; held requests whose way is clear are sent (R272). -/
def State.dropReq (s : State) (tag : Nat) : State :=
  let s := s.updFab (fun f => { f with reqs := f.reqs.filter (fun r => r.tag != tag) })
  (s.fab.reqs.filter (·.held)).foldl State.release s

/-- A message that expects no response leaves by a port that its class gives it: nothing when none is up. What forbids it
is answered: no device number, a lost peer, a link that does not carry it. -/
def State.tell (s : State) (q dev op addr : Nat) (payload : List Byte) (plan : Nat) : Option Nat × State :=
  match s.noSend dev with
  | some st => (some st, s)
  | none =>
    let p := s.pickPort dev op addr
    match p.1 with
    | none => (none, s)
    | some port =>
      if s.link1Stops port op then (some 9, s.set F.JFL_STATUS_VERSION_LINK1 1)
      else (none, p.2.nextTag.sendReq q port op (s.hdr dev s.fab.tag plan false) payload.length addr payload)

/-! ## Hops of chains and collectives (R288) -/

def Hop.is (h : Hop) (id i op dev : Nat) : Bool := h.id == id && h.member == i && h.op == op && h.dev == dev

/-- A hop's port: the one that it has, or (id + i) mod u among the up ports that reach the next member. -/
def State.hopPort (s : State) (dev op id i : Nat) : Option Nat :=
  match s.fab.hops.find? (fun h => h.is id i op dev) with
  | some h => if s.portUp h.port then some h.port else s.nextUp dev h.port
  | none =>
    let ps := s.portsTo dev
    ps[(id + i) % ps.length]?

/-- A row or chunk leaves on its hop's port: chain id, receiving member, row or chunk, digest, data. It is kept until the
link layer has it acknowledged. -/
def State.sendHop (s : State) (q dev op id i row : Nat) (digest : Word) (data : List Byte) (plan : Nat) : State :=
  match s.hopPort dev op id i with
  | none => s
  | some p =>
    let b := leBytes 2 id ++ leBytes 2 (i + 1) ++ leBytes 4 row ++ leBytes 8 digest.toNat ++ data
    let h := s.hdr dev s.fab.tag plan false
    let s := s.nextTag.sendReq q p op h b.length 0 b
    let keep := match s.fab.hops.find? (fun h => h.is id i op dev) with | some h => h.rows | none => []
    let rows := keep.filter (fun w => s.unacked p w.2.1) ++ [(row, (Sparse.get ([], 0) s.fab.tx p).2 - 1, b)]
    s.updFab (fun f => { f with hops := f.hops.filter (fun h => !h.is id i op dev) ++ [⟨id, i, op, dev, p, q, h, rows⟩] })

/-- The hops of a chain or collective that begins are chosen anew. -/
def State.newHops (s : State) (id : Nat) : State := s.updFab (fun f => { f with hops := f.hops.filter (fun h => h.id != id) })

/-! ## Marks, probing, domain control -/

/-- Counting a fabric mark for detail section 6 of a live course (R282, R321). -/
def State.fabMark (s : State) (dev op status : Nat) : State :=
  if s.cstate = 0 then s
  else
    let l := s.course.marks
    let hit := l.any (fun m => m.dev == dev && m.op == op && m.status == status)
    let l := if hit then l.map (fun m => if m.dev == dev && m.op == op && m.status == status then { m with count := m.count + 1 } else m)
      else l ++ [⟨dev, op, status, 1, s.now⟩]
    s.setCourse { s.course with marks := l }

/-- A flit of a peer has arrived: probing of it ends (R283). -/
def State.heard (s : State) (dev : Nat) : State :=
  s.updFab (fun f => { f with probing := f.probing.filter (fun p => p.dev != dev) })

/-- Probing of a peer starts, unless it runs already or the peer is lost (R283). -/
def State.startProbing (s : State) (dev : Nat) : State :=
  if s.devLost dev || s.fab.probing.any (fun p => p.dev == dev) then s
  else s.updFab (fun f => { f with probing := f.probing ++ [⟨dev, 0⟩] })

/-- Domain control is sent to every other participant of the course (R287) but a lost one; nothing leaves without a
device number. -/
def State.tellAll (s : State) (msg : Nat) (extra : List Byte) : State :=
  match s.course.prog with
  | none => s
  | some p =>
    (p.devices.filter (fun d => d != s.devnum)).foldl (fun s d =>
      if (s.noSend d).isSome then s
      else (s.request 0 d 0x22 0 0 (leBytes 1 msg ++ leBytes 8 p.number ++ extra) .control s.course.plan false).2) s

end Sys2Proof.Machine
end

