-- ==== Sys2Proof/Machine/CourseOps.lean ====
section
/-! DEFINITION. Shared operations on the course in progress: its abort, the release of what waits for it, and clusters
as the course drives them (R36, R44, R134, R157, R341). -/
namespace Sys2Proof.Machine

/-- A cluster beside its registers. -/
def State.cl (s : State) (g : Nat) : Cluster := Sparse.get .init s.clusters g

def State.setCl (s : State) (g : Nat) (c : Cluster) : State := { s with clusters := Sparse.put .init s.clusters g c }

/-- No engine of a cluster holds work of an earlier program. -/
def Cluster.enginesIdle (c : Cluster) : Bool :=
  c.mq.isEmpty && c.vq.isEmpty && (List.range 4).all (fun h => (Sparse.get [] c.dq h).isEmpty) && c.copies.isEmpty &&
  c.chains.isEmpty

/-- The control core of a cluster leaves its program: it is idle and waits for nothing. -/
def State.coreIdle (s : State) (g : Nat) : State :=
  let s := (((s.set F.CC_STATE_STATE 0 g).set F.CC_STATE_SLOT_WAIT 0 g).set F.CC_STATE_BAR_WAIT 0 g).set
    F.CC_STATE_SQ_WAIT 0 g
  let c := s.cl g
  (s.set F.CC_STATE_REG_WAIT 0 g).setCl g
    { c with run := none, ending := false, bar := none, eobWait := false, sqSince := none
             accWait := c.accWait.filter (fun x => x.by_ != .tile g || !c.enginesIdle) }

/-- The faulted program of a cluster ends: its launching command completes with the fault (R157). -/
def State.endFaulted (s : State) (g : Nat) : State :=
  match (s.cl g).faulted with
  | none => s
  | some f => (s.setCl g { (s.cl g) with faulted := none }).withWaiting f.1.cmd (fun c s => s.fail c f.2.1 f.2.2)

/-- It ends once the engines have completed what it issued. -/
def State.drainFaulted (s : State) (g : Nat) : State := if (s.cl g).enginesIdle then s.endFaulted g else s

/-- A command launched a program that has faulted and whose engines still work. -/
def State.faultHeld (s : State) (c : Cmd) : Bool :=
  s.clusters.any (fun p => match p.2.faulted with | some f => f.1.cmd == some (c.q, c.seq) | none => false)

/-- A launch belongs to the course in progress: it is a course item, or its command is bound to a course. -/
def State.launchBound (s : State) (l : Launch) : Bool :=
  l.item.isSome || (match l.cmd with
    | some p => (match s.cmd? p.1 p.2 with | some c => c.course != 0 | none => true)
    | none => true)

/-- The commands of planned battens up to `b` that are operations of their work sets. -/
def State.openCommands (s : State) (b : Nat) : List Cmd :=
  s.queues.inflight.filter (fun c => s.setCommand c && decide (c.plan ≤ b))

/-- The planned batten of a launch: of its item, or the one in which its command was taken. -/
def State.launchPlan (s : State) (l : Launch) : Nat :=
  match l.item with
  | some i => (match s.course.prog with
    | some p => (match p.items[i]? with | some x => x.batten | none => s.course.plan)
    | none => s.course.plan)
  | none => (match l.cmd with
    | some p => (match s.cmd? p.1 p.2 with | some c => c.plan | none => s.course.plan)
    | none => s.course.plan)

/-- The planned batten whose work set a cluster's program now issues. -/
def State.programPlan (s : State) (g : Nat) : Nat :=
  match (s.cl g).run with
  | some l => if l.wadding then s.course.plan else min s.course.plan (Sparse.get 0 s.course.eob g)
  | none => s.course.plan

/-- A cluster's course program stops at its next instruction boundary because its course has aborted (R44, R341);
its engines complete what was issued. Launches of the course that wait go with it. -/
def State.stopCourseCore (s : State) (g : Nat) : State :=
  let c := s.cl g
  let bound (l : Launch) : Bool := !l.wadding && s.launchBound l
  let s := s.setCl g { c with waiting := c.waiting.filter (fun l => !bound l) }
  match c.run with
  | some l => if bound l then s.coreIdle g else s
  | none => s

/-- Commands bound to the course in flight complete with a status (R341, R44); the commands that act on the course
itself (ABORT_COURSE, COURSE_WAIT) go on waiting for it, and the LAUNCH of a faulted program for its engines (R157). -/
def State.completeBound (s : State) (status detail : Nat) : State :=
  let low := s.courseLow
  s.completeAll (fun c => c.course == low && c.course != 0 && c.op != 0x0003 && c.op != 0x0101 && !s.faultHeld c) status detail

/-- The clusters that hold anything. -/
def State.clusterKeys (s : State) : List Nat := (Sparse.keys s.clusters).filter (fun g => decide (g < 1024))

/-- Clearing MISMATCH, or NO_MAJORITY where no deviant was found, releases the next course that is held as under halt
(R314, R315; assumption log 38), not one whose repair is in progress. -/
def State.haltRelease (s : State) : State :=
  if s.bit F.LDG_STATUS_COMPARING then s else { s with replay := { s.replay with held := false } }

/-- The course enters ABORTED with a cause of Table 12.10 (R36, R44, R341): CAUSES bit 0, ABORT_CAUSE, a course that a compare
held releases the hold (R314), course issue stops, bound commands complete with ABORTED and the cause, or OVERRUN for cause 1. Only a live course aborts. -/
def State.abortHere (s : State) (why : Nat) : State :=
  if s.courseLive then
    let s := (s.ledSet ⟨122, 1⟩ why).cause 0
    let s := if s.cstate = 1 then s.haltRelease else s
    let s := s.set F.TBN_CSTATE_STATE 4
    let s := s.clusterKeys.foldl (fun s g => s.stopCourseCore g) s
    let s := if why = 1 then s.completeBound stOverrun 0 else s.completeBound stAborted why
    { s with frame := { s.frame with deferring := false } }
  else s

/-- An abort that this module detects: every other participant is told (R287). -/
def State.abortCourse (s : State) (why : Nat) : State :=
  if s.courseLive then (s.abortHere why).tellAll 3 (leBytes 1 why) else s

/-- A member of a chain of the course on this cluster has not passed its running sum on (R128). -/
def State.chainOwes (s : State) (g : Nat) : Bool :=
  match s.course.prog with
  | none => false
  | some p => p.chains.any (fun ch =>
      let x := Sparse.get ChainRun.init s.course.chains ch.id
      ch.members.zipIdx.any (fun m => m.1.dev == s.get F.CFG_DEVNUM_DEVNUM && m.1.cluster == g &&
        !(List.range ch.rows).all (fun r => decide (m.2 < Sparse.get 0 x.got r))))

/-- A tile program's fault (R157): the core stops, CC_FAULT and CC_FADDR are set, the launch completes with the fault once
the engines have completed what was issued; a course program's fault aborts the course with cause 4, or 5 where a chain
loses a member that has not passed its sum on (R128). -/
def State.tileFault (s : State) (g code addr : Nat) : State :=
  let pc := s.get F.CC_STATE_PC g
  let s := ((((s.set F.CC_FAULT_CODE code g).set F.CC_FAULT_VALID 1 g).set F.CC_FAULT_PC pc g).wr .ccFaddr g 0
    (BitVec.ofNat 64 addr))
  let run := (s.cl g).run
  let wad := match run with | some l => l.wadding | none => false
  let s := s.coreIdle g
  let s := s.setCl g { (s.cl g) with
    faulted := run.map (fun l => if l.wadding && code == 0x0A then (l, stWadding, 0) else (l, stTileFault, code)) }
  let s := (s.drainFaulted g).set F.CC_STATE_STATE 3 g
  if wad then s else s.abortCourse (if s.chainOwes g then 5 else 4)

/-- A cluster runs a course tile program that has not ended. -/
def State.runsCourse (s : State) (g : Nat) : Bool :=
  match (s.cl g).run with
  | some l => !l.wadding
  | none => false

/-- The queue that launched the program of a cluster (R78). -/
def State.launchQueue (s : State) (g : Nat) : Nat := s.get F.CC_STATE_QUEUE g

/-- Dormer mode is in force with a SCOPE bit: 0 accumulator and segment access, 1 HALT and STEP (R402, R403). -/
def State.dormer (s : State) (b : Nat) : Bool :=
  s.bit F.SEC_STATUS_DORMER && s.get F.SEC_DORMER_SCOPE / 2 ^ b % 2 == 1

/-- A dormer write to an accumulator during a course marks it (R132). -/
def State.markDormer (s : State) : State := if s.cstate = 0 then s else s.cause 3

end Sys2Proof.Machine
end

