-- ==== Sys2Proof/Machine/ResetOps.lean ====
section
/-! DEFINITION. Power-on and module reset (R356, R357, R364, Table 14.2), flash work (R385), and how the input and the
power stage end a run (R383, R384, R386). -/
namespace Sys2Proof.Machine

/-- A value that the manual leaves to the implementation is drawn (assumption log 9). -/
def State.draw (s : State) : Word × State := (Config.freeValue s.free, { s with free := s.free + 1 })

/-- A settings copy that was being written when the reset came fails its hash (R401): it is as absent. -/
def Sec.torn (x : Sec) : Flash :=
  match x.job with
  | some (.settings _) => { x.flash with copies := x.flash.copies.set (1 - x.copy) [] }
  | _ => x.flash

/-- The gutter after a power-on: the NV ring in flash is kept (Table 14.2). -/
def Gut.afterPowerOn (g : Gut) : Gut := { Gut.init with nvRing := g.nvRing, nvAbs := g.nvAbs, nvOld := g.nvOld }

/-- The gutter after a module reset: the RAM rings are kept as well (R413). -/
def Gut.afterModuleReset (g : Gut) : Gut :=
  { g.afterPowerOn with slices := g.slices.map (fun (p : Nat × Slice) => (p.1, { Slice.init with ring := p.2.ring })) }

/-- Registers that do not start at a table value: the rollback counter of the fuses, a new challenge, and the NV ring's
write index. -/
def State.loadFuses (s : State) : State :=
  let p := s.draw
  (((p.2.set F.SEC_ROLLBACK_COUNTER s.sec.flash.counter).wr .secChallenge 0 0 p.1)).set F.GUT_NV_NV_NEXT (s.gut.nvAbs % 131072)

/-- A power-on reset with its cause code, at a stage (Table 14.1, Table 14.2). -/
def State.powerOnReset (s : State) (cause stage : Nat) : State :=
  let t : State := { State.reset with
    gut := s.gut.afterPowerOn
    sec := { Sec.init with flash := s.sec.torn }
    start := { Start.init with stage := stage, cause := cause, trip := s.start.trip }
    sent := s.sent, free := s.free, pending := s.pending }
  t.loadFuses

/-- The memories in service, as bits [47:0] of CFG_MEMSTATE. -/
def State.inService (s : State) : Nat := s.get F.CFG_MEMSTATE_NEAR_UP + s.get F.CFG_MEMSTATE_BULK_UP * 2 ^ 16

/-- A module reset with its cause code (R364, R369): memory in service and the gutter's rings are kept, memory that was not
in service trains in full, operating seconds and the power-cycle count go on, and start-up begins again at S1. -/
def State.moduleReset (s : State) (cause : Nat) : State :=
  let t : State := { State.reset with
    mem := s.mem
    upset := s.upset
    gut := s.gut.afterModuleReset
    sec := { Sec.init with flash := s.sec.torn }
    start := { Start.init with
      stage := 1, cause := cause, full := (List.range 48).filter (fun m => s.inService / 2 ^ m % 2 == 0),
      trip := s.start.trip }
    sent := s.sent, free := s.free, pending := s.pending }
  let t := (t.set F.GUT_TIME_OPSEC (s.get F.GUT_TIME_OPSEC)).set F.GUT_TIME_PWRCYC (s.get F.GUT_TIME_PWRCYC)
  ((List.range 8).foldl (fun t d => t.set F.GUT_HEAD_RAM_NEXT (s.get F.GUT_HEAD_RAM_NEXT d) d) t).loadFuses

/-- The module has power and its clocks run. -/
def State.powered (s : State) : Bool := s.start.stage != 11 && !s.pwr.stopped

/-- The soffit port is up from S2 on, in recovery and after a failed start as well (R358, R360, R369). -/
def State.soffitUp (s : State) : Bool := s.powered && decide (2 ≤ s.start.stage)

/-- The timebase counts and battens run: S3 has released them (R358). -/
def State.timeRuns (s : State) : Bool := s.powered && decide (4 ≤ s.start.stage) && decide (s.start.stage ≤ 8)

/-- NV writes are inhibited (R385). -/
def State.nvInhibit (s : State) : Bool := s.bit F.PWR_SUPPLY_NV_INHIBIT

/-- The next flash work starts when the controller is free and NV writes are not inhibited (R385). -/
def State.flashStart (s : State) : State :=
  match s.sec.job, s.sec.jobs with
  | none, j :: rest => if s.nvInhibit then s else { s with sec := { s.sec with job := some j, jobs := rest } }
  | _, _ => s

/-- Flash work falls due: it joins the work that waits, in order. -/
def State.flashAdd (s : State) (j : FlashJob) : State := { s with sec := { s.sec with jobs := s.sec.jobs ++ [j] } }.flashStart

/-! ## Settings blocks (R400, R401) -/

/-- A settings block: its 256-byte header and its fields. -/
def settingsBlock (version seq : Nat) (fields : List Byte) : List Byte :=
  let f := padTo 3840 fields
  padTo 256 ([0x4F#8, 0x4D#8, 0x53#8, 0x54#8] ++ leBytes 2 version ++ leBytes 2 4096 ++ leBytes 4 seq ++
    padTo 32 (Config.sm3 f)) ++ f

/-- A copy holds a valid block: MAGIC, LENGTH and hash (R400). -/
def blockValid (b : List Byte) : Bool :=
  b.take 4 == [0x4F#8, 0x4D#8, 0x53#8, 0x54#8] && fieldLe b 6 2 == 4096 && b.length == 4096 &&
  (b.drop 12).take 32 == padTo 32 (Config.sm3 (b.drop 256))

/-- A block of these fields is to be committed (R401): it waits behind a commit that is pending. -/
def State.commitFields (s : State) (fields : List Byte) : State :=
  (s.set F.CFG_SETSTATUS_PENDING 1).flashAdd (.settings (padTo 3840 fields))

/-- S4 ends when every one of its flash writes has completed (R360). -/
def State.endS4 (s : State) : State :=
  if s.start.stage = 4 ∧ s.sec.live ≠ [] ∧ s.sec.job = none ∧ s.sec.jobs = [] then { s with start := { s.start with stage := 5 } } else s

/-- The flash work in progress ends and the next may start. -/
def State.jobDone (s : State) : State := ({ s with sec := { s.sec with job := none } }.flashStart).endS4

end Sys2Proof.Machine
end

