-- ==== Sys2Proof/Machine/Gutter.lean ====
section
/-! DEFINITION. The gutter (chapter 17): events, drains, folding, the NV ring, the freeze and its commands. -/
namespace Sys2Proof.Machine

/-- The 64 bytes of a record, with its CRC (R407, Table 17.1); the zero record is 64 zero bytes. -/
def GRec.bytes (r : GRec) : List Byte :=
  if r = .blank then List.replicate 64 0#8
  else
    let b := leBytes 2 r.code ++ leBytes 1 r.cls ++ leBytes 1 r.rep ++ leBytes 4 r.opsec ++ leBytes 3 r.pwrcyc ++
      leBytes 1 r.die ++ leBytes 4 r.time ++ leBytes 44 r.payload
    b ++ leBytes 4 (crc32c b)

/-- Slot of the newest record of a RAM ring. -/
def lastSlot (next : Nat) : Nat := (next + 16383) % 16384

/-- The NV queue takes a record whose window closed; when it is full, the displacement rule applies (R414). -/
def State.nvPush (s : State) (r : GRec) : State :=
  let g := s.gut
  let s :=
    if g.nvQueue.length < 4096 then { s with gut := { g with nvQueue := g.nvQueue ++ [(r, s.now)] } }
    else
      let s1 := s.bump F.GUT_NV_NV_DROP 1
      match youngestAbove r.cls (g.nvQueue.map Prod.fst) with
      | some i => { s1 with gut := { s1.gut with nvQueue := g.nvQueue.eraseIdx i ++ [(r, s.now)] } }
      | none => s1
  s.set F.GUT_NV_QUEUED s.gut.nvQueue.length

/-- The fold window of a slice's newest record closes (R411, R414). -/
def State.closeWindow (s : State) (die : Nat) : State :=
  let x := s.slice die
  if x.win then
    let r := Sparse.get .blank x.ring (lastSlot (s.get F.GUT_HEAD_RAM_NEXT die))
    let s := s.setSlice die { x with win := false }
    if s.gut.nvBound r then s.nvPush r else s
  else s

/-- A record folds into the newest record of the ring (R411). -/
def Slice.folds (x : Slice) (last r : GRec) : Bool :=
  x.win && last.code == r.code && last.payload == r.payload && decide (r.time < last.time + 1000000000) &&
  decide (last.rep < 255)

/-- A slice drains the oldest record of its intake queue (R411 to R413). -/
def State.drain (s : State) (die : Nat) : State :=
  let x := s.slice die
  match x.intake with
  | [] => s
  | r :: rest =>
    let next := s.get F.GUT_HEAD_RAM_NEXT die
    let last := Sparse.get .blank x.ring (lastSlot next)
    if x.folds last r then
      let x1 := { x with intake := rest, ring := Sparse.put .blank x.ring (lastSlot next) { last with rep := last.rep + 1 } }
      let s := (s.setSlice die x1).bump F.GUT_SUPPRESS_FOLDED 1 die
      if last.rep + 1 = 255 then s.closeWindow die else s
    else
      let s := (s.setSlice die { x with intake := rest }).closeWindow die
      let y := s.slice die
      let s := s.setSlice die { y with ring := Sparse.put .blank y.ring next r, win := true }
      (s.set F.GUT_HEAD_RAM_NEXT ((next + 1) % 16384) die).bumpWrap F.GUT_HEAD_WRITTEN 1 die

/-- Draining everything a slice held. -/
def drainMany : Nat → State → Nat → State
  | 0, s, _ => s
  | n + 1, s, die => drainMany n (s.drain die) die

/-- The freeze ends (R415): the held records are written in order, one 0x0003 with the counts is recorded. -/
def State.thaw (s : State) : State :=
  let held := ((List.range 8).map (fun d => s.get F.GUT_HELD_HELD d)).sum
  let gone := ((List.range 8).map (fun d => s.get F.GUT_HELD_HELD_DROPPED d)).sum
  let s := { s with gut := { s.gut with frozenAt := none } }
  let s := s.set F.GUT_CTRL_FROZEN 0
  let s := (List.range 8).foldl (fun s d => drainMany 256 s d) s
  s.raise 0 0x0003 (plAt 16 held + plAt 20 gone)

/-- Records that arrived during the freeze. -/
def State.heldTotal (s : State) : Nat :=
  ((List.range 8).map (fun d => s.get F.GUT_HELD_HELD d + s.get F.GUT_HELD_HELD_DROPPED d)).sum

/-- GUTTER_EVENT (R410): a block of the die raises an event; codes outside Table 17.3 are recorded by no block. -/
def execGutterEvent (die : Fin 8) (code payload : Nat) (s : State) : Out :=
  .next (if evCodes.contains code then s.raise die code (payload % 256 ^ 44) else s)
where
  evCodes : List Nat := [0x0001, 0x0002, 0x0003, 0x0101, 0x0102, 0x0103, 0x0104, 0x0105, 0x0106, 0x0107, 0x0108,
    0x0201, 0x0202, 0x0203, 0x0204, 0x0205, 0x0206, 0x0301, 0x0302, 0x0401, 0x0402, 0x0501, 0x0502, 0x0503, 0x0504,
    0x0505, 0x0506, 0x0601, 0x0602, 0x0603, 0x0604, 0x0701, 0x0702, 0x0801, 0x0802, 0x0803, 0x0804, 0x0805]

/-- GUTTER_DRAIN (R412): not while the gutter is frozen (R415). -/
def execGutterDrain (die : Fin 8) (s : State) : Out :=
  .next (if s.gut.frozenAt.isSome then s else s.drain die)

/-- FOLD_WINDOW_CLOSE (R411): 1 s after the first occurrence of the newest record. -/
def execFoldWindowClose (die : Fin 8) (s : State) : Out :=
  .next (
    let x := s.slice die
    if x.win then
      let r := Sparse.get .blank x.ring (lastSlot (s.get F.GUT_HEAD_RAM_NEXT die))
      (s.advanceTo (r.time + 1000000000)).closeWindow die
    else s)

/-- DROP_REPORT (R412): one second after a 0x0002, another when records were dropped or displaced since. -/
def execDropReport (die : Fin 8) (s : State) : Out :=
  .next (
    let x := s.slice die
    match x.dropAt with
    | none => s
    | some t =>
      let s := s.advanceTo (t + 1000000000)
      if x.drops = [] then s.setSlice die { x with dropAt := none } else s.dropReport die)

/-- Records of a page placed in the NV ring from the write pointer on. -/
def nvPlace (g : Gut) : List GRec → Gut
  | [] => g
  | r :: rs => nvPlace { g with nvRing := Sparse.put .blank g.nvRing (g.nvAbs % 131072) r, nvAbs := g.nvAbs + 1 } rs

/-- NV writes may start: NV_EN, no freeze, the flash free, and NV writes not inhibited by a supply sag (R385, R414,
R415). -/
def State.nvReady (s : State) : Bool :=
  s.bit F.GUT_CTRL_NV_EN && s.gut.frozenAt.isNone && !s.nvInhibit && s.sec.job.isNone

/-- Work of the flash that has started (R385); FLASH_PAGE_DONE ends it. -/
def State.flashBusy (s : State) (j : FlashJob) : State := { s with sec := { s.sec with job := some j } }

/-- The slot of a record index stands erased: it holds no readable record (R414). -/
def Gut.erased (g : Gut) (i : Nat) : Bool := decide (i < g.nvOld + 131072)

/-- The 64 KiB sector of a record index, 1,024 records, is erased; the oldest readable record moves on. -/
def Gut.eraseSector (g : Gut) (i : Nat) : Gut :=
  let lo := i / 1024 % 128 * 1024
  { g with
    nvRing := g.nvRing.filter (fun p => !(decide (lo ≤ p.1) && decide (p.1 < lo + 1024)))
    nvOld := max g.nvOld ((i / 1024 - 127) * 1024) }

/-- The page at the write pointer is passed over after a failed verify; the next page has its sector erased first. -/
def Gut.skipPage (g : Gut) : Gut :=
  let g1 := { g with nvAbs := g.nvAbs + 4 }
  if g1.erased g1.nvAbs then g1 else g1.eraseSector g1.nvAbs

/-- NV_PAGE_PROGRAM (R414): one page of four records, when four are queued or 1 s after the oldest was queued, into a
sector that was erased before it. A program whose verify fails is retried once at the next page and sets NV_ERROR. -/
def execNvPageProgram (firstOk secondOk : Bool) (s : State) : Out :=
  .next (
    match s.gut.nvQueue with
    | [] => s
    | (_, t) :: _ =>
      if s.nvReady = false ∨ s.gut.erased s.gut.nvAbs = false then s
      else
        let s := if s.gut.nvQueue.length < 4 then s.advanceTo (t + 1000000000) else s
        let recs := (s.gut.nvQueue.take 4).map Prod.fst
        let page := recs ++ List.replicate (4 - recs.length) GRec.blank
        let g0 := { s.gut with nvQueue := s.gut.nvQueue.drop 4 }
        let g := if firstOk then nvPlace g0 page
          else if secondOk then nvPlace g0.skipPage page
          else { g0.skipPage with nvAbs := g0.nvAbs + 8 }
        let s := { s with gut := g }.flashBusy .page
        let s := if firstOk then s else s.set F.GUT_STATUS_NV_ERROR 1
        (s.set F.GUT_NV_NV_NEXT (g.nvAbs % 131072)).set F.GUT_NV_QUEUED g.nvQueue.length)

/-- SECTOR_ERASE (R414): the 64 KiB sector ahead of the write pointer is erased once the sector before it is full, so
that 130,048 records stay readable. Inside a sector nothing is due. -/
def execSectorErase (s : State) : Out :=
  .next (
    if s.nvInhibit || s.gut.frozenAt.isSome || s.sec.job.isSome || s.gut.nvAbs % 1024 != 0 then s
    else { s with gut := s.gut.eraseSector s.gut.nvAbs }.flashBusy .erase)

/-- FREEZE_TIMEOUT (R415): after 10 s of freeze recording restarts. -/
def execFreezeTimeout (s : State) : Out :=
  .next (
    match s.gut.frozenAt with
    | none => s
    | some t => (s.advanceTo (t + 10000000000)).thaw)

/-- OPSEC_ADVANCE (R408): OPSEC advances at the next TBN_TIME that is a multiple of 10^9; at non-zero multiples of
3,600 the master writes a checkpoint. -/
def execOpsecAdvance (s : State) : Out :=
  .next (
    let s := s.advanceTo ((s.now / 1000000000 + 1) * 1000000000)
    let n := s.get F.GUT_TIME_OPSEC + 1
    let s := s.set F.GUT_TIME_OPSEC n
    if n % 3600 = 0 then s.raise 0 1 0 else s)

/-- GUT_FREEZE (R415). -/
def execGutFreeze (q : Fin 16384) (seq : Nat) (s : State) : Out :=
  .next (s.runCmd 0x0700 q seq (fun c s =>
    if s.gut.frozenAt.isSome then s.succeed c 0
    else
      let s := { s with gut := { s.gut with frozenAt := some s.now } }
      let s := s.set F.GUT_CTRL_FROZEN 1
      let s := (List.range 8).foldl (fun s d => s.wr .gutHeld d 0 0#64) s
      s.succeed c 0))

/-- GUT_THAW (R415): RESULT holds the records that arrived meanwhile. -/
def execGutThaw (q : Fin 16384) (seq : Nat) (s : State) : Out :=
  .next (s.runCmd 0x0701 q seq (fun c s =>
    if s.gut.frozenAt.isSome then s.thaw.succeed c s.heldTotal else s.succeed c 0))

/-- The newest `n` records of a RAM ring, oldest first (R416). -/
def State.ramNewest (s : State) (die n : Nat) : List GRec :=
  let next := s.get F.GUT_HEAD_RAM_NEXT die
  let ring := (s.slice die).ring
  ((List.range (min n 16384)).map (fun i => Sparse.get .blank ring ((next + 16383 - i) % 16384))).filter (· ≠ .blank)
    |>.reverse

/-- The records of the NV ring from index `a` up to `n` of them, by their index since manufacture. -/
def State.nvFrom (s : State) (a n : Nat) : List GRec :=
  (List.range (min n (s.gut.nvAbs - a))).map (fun i => Sparse.get .blank s.gut.nvRing ((a + i) % 131072))

/-- GUT_COPY (R416): die 0 to 7, or 0xFF for the NV ring. -/
def execGutCopy (q : Fin 16384) (seq : Nat) (s : State) : Out :=
  .next (s.runCmd 0x0702 q seq (fun c s =>
    let die := c.par 16 1
    let most := c.par 32 4
    if 8 ≤ die ∧ die ≠ 0xFF then s.fail c stBadParam 16
    else s.needA c 24 (fun a =>
      let recs := if die = 0xFF then s.nvFrom (max s.gut.nvOld (s.gut.nvAbs - most)) most else s.ramNewest die most
      s.putOutput c a (recs.map GRec.bytes).flatten (fun s => s.succeed c recs.length))))

/-- The entries of a filter table image. -/
def filterEntries (bs : List Byte) : List Nat := (List.range 256).map (fun i => fieldLe bs (8 * i) 8)

/-- A filter table is accepted (R417): no class-0 code, no zero rate or burst on a used entry, no code twice. -/
def filterOk (es : List Nat) : Bool :=
  let used := es.filter (fun e => e % 65536 != 0)
  used.all (fun e => evClass (e % 65536) != 0 && e / 2 ^ 16 % 256 != 0 && e / 2 ^ 24 % 256 != 0) &&
  (used.map (fun e => e % 65536)).Nodup

/-- GUT_FILTER (R417): takes effect at completion, with all buckets full. -/
def execGutFilter (q : Fin 16384) (seq : Nat) (s : State) : Out :=
  .next (s.runCmd 0x0703 q seq (fun c s => s.needA c 16 (fun a => s.needMem c a 2048 (
    let r := s.readMem .engine a 2048
    let es := filterEntries r.bytes
    if filterOk es then
      let tbl : Sparse Nat := ((List.range 256).zip es).filter (fun p => p.2 ≠ 0)
      let s := { r.st with gut := { r.st.gut with
        filter := tbl, slices := r.st.gut.slices.map (fun (p : Nat × Slice) => (p.1, { p.2 with deficit := [] })) } }
      s.succeed c 0
    else ((List.range 8).foldl (fun s d => s.set F.GUT_STATUS_FILTER_REJECTED 1 d) r.st).fail c stBadParam 16))))

/-- GUT_READ (R416, R398): NV ring records by index for the soffit port, after an 8-byte header of the oldest readable
index and the next write index; in recovery and before ready too. Counts outside 1 to 1,024 are refused (status 1); a frame
whose CRC fails is discarded without reply. -/
def execGutRead (crcOk : Bool) (start count : Nat) (s : State) : Out :=
  .next (
    if crcOk = false ∨ s.soffitUp = false then s
    else if count = 0 ∨ 1024 < count then s.send (.soffit 1 [])
    else
      let recs := (List.range count).map (fun i => Sparse.get .blank s.gut.nvRing ((start + i) % 131072))
      s.send (.soffit 0 (leBytes 4 (s.gut.nvOld % 131072) ++ leBytes 4 (s.gut.nvAbs % 131072) ++
        (recs.map GRec.bytes).flatten)))

end Sys2Proof.Machine
end

