-- ==== Sys2Proof/Machine/Memory.lean ====
section
/-! DEFINITION. The memory controllers (chapter 10): reads and writes at a controller, write-backs, the reorder queues,
refresh, live calibration and patrol scrub. -/
namespace Sys2Proof.Machine

/-! ## Slots of a batten (R31, Table 2.1) -/

/-- Lengths of the calibration, scrub and ledger slots in tb. -/
def State.calLen (s : State) : Nat := max (s.get F.TBN_SLOTS_CAL_PM * s.get F.TBN_INTERVAL_INTERVAL_US) 2500
def State.scrubLen (s : State) : Nat := max (s.get F.TBN_SLOTS_SCRUB_PM * s.get F.TBN_INTERVAL_INTERVAL_US) 1000
def State.ledgerLen (s : State) : Nat := max (s.get F.TBN_SLOTS_LEDGER_PM * s.get F.TBN_INTERVAL_INTERVAL_US) 2000

/-- TBN_TIME at which the ledger, scrub and calibration slots of this batten begin. -/
def State.ledgerAt (s : State) : Nat := s.get F.TBN_NEXT_TICK_NEXT - s.ledgerLen
def State.scrubAt (s : State) : Nat := s.ledgerAt - s.scrubLen
def State.calAt (s : State) : Nat := s.scrubAt - s.calLen

/-! ## Requests -/

/-- A line is in memory that is in service. -/
def State.lineUp (s : State) (ln : Nat) : Bool := s.memRange (ln * 64) 64

/-- The reorder queue of a channel (R242). -/
def State.chanQueue (s : State) (ch : Nat) : List ChReq := Sparse.get [] s.mc.queue ch

/-- The channel's queue has room; otherwise the controller stops the sender (R242). -/
def State.chanRoom (s : State) (ln : Nat) : Bool := decide ((s.chanQueue (lineChan ln)).length < 32)

/-- A request enters its channel's queue. -/
def State.enqueue (s : State) (ln : Nat) (write : Bool) : State :=
  { s with mc := { s.mc with
    queue := Sparse.put [] s.mc.queue (lineChan ln) (s.chanQueue (lineChan ln) ++ [⟨ln, write, 0⟩]) } }

/-- A read request that its channel's queue takes: it takes effect; `upset` is what has struck the line's stored
codeword. -/
def State.arriveRead (s : State) (line : Nat) (who : Req) (upset : Nat) : State :=
  let s := s.enqueue line false
  let s := { s with upset := Sparse.put 0 s.upset line (Sparse.get 0 s.upset line ^^^ upset % 2 ^ 576) }
  let r := s.readLine who line
  { r.st with mc := { r.st.mc with resp :=
    if who = .scrub ∨ who = .oldLine ∨ who = .partialWrite then r.st.mc.resp else some ⟨line, r.bytes, r.unc⟩ } }

/-- WRITE_BACK (R254): the line as it was corrected at the read replaces the stored codeword, whatever has struck that
since; nothing of its data or digest changes. -/
def execWriteBack (line : Nat) (s : State) : Out :=
  .next (
    match s.mc.writeBack.find? (fun p => p.1 == line) with
    | some p => { s with
        upset := Sparse.put 0 s.upset line p.2
        mc := { s.mc with writeBack := s.mc.writeBack.filter (fun p => p.1 != line) } }
    | none => s)

/-- A write that the protection rules refuse, at the controller: nothing is written (Table 7.6); a request of the host is
recorded. -/
def State.refuseWrite (s : State) (w : Writer) (a : Nat) : State :=
  match w with
  | .host => s.raise (ownerDie a) 0x0203 (plAt 16 a)
  | _ => s

/-- A write request that its channel's queue takes. -/
def State.arriveWrite (s : State) (line off : Nat) (bytes : List Byte) (w : Writer) (wad : Bool) : State :=
  match s.writeStop w wad (line * 64 + off) bytes.length with
  | some _ => s.refuseWrite w (line * 64 + off)
  | none => ((s.enqueue line true).noteWriter w (line * 64 + off) bytes.length).writeLine line off bytes

/-- A request arrives; nothing of a line that is not in service. -/
def State.arrive (s : State) (r : HeldReq) : State :=
  if s.lineUp r.line then
    (match r.bytes with
      | some bs => s.arriveWrite r.line r.off bs r.by_ r.wad
      | none => s.arriveRead r.line r.who r.upset)
  else s

/-- The requests that a channel's full queue stops at their senders (R242). -/
def State.stoppedReqs (s : State) (ch : Nat) : List HeldReq := Sparse.get [] s.mc.stopped ch

def State.setStopped (s : State) (ch : Nat) (l : List HeldReq) : State :=
  { s with mc := { s.mc with stopped := Sparse.put [] s.mc.stopped ch l } }

/-- A request reaches its controller: a full queue stops its sender, and a later request of the channel stays behind it, so
that nothing of one source is reordered (R242, R261). -/
def State.take (s : State) (r : HeldReq) : State :=
  let k := lineChan r.line
  if s.chanRoom r.line && s.stoppedReqs k == [] then s.arrive r else s.setStopped k (s.stoppedReqs k ++ [r])

/-- Senders that were stopped go on, oldest first, while the channel's queue has room. -/
def State.takeIn (s : State) (k : Nat) : List HeldReq → State
  | [] => s.setStopped k []
  | r :: rest => if s.chanRoom r.line then (s.arrive r).takeIn k rest else s.setStopped k (r :: rest)

/-- MEM_READ (R243, R252): a read of a line for `who`; `upset` is what has struck the line's stored codeword. -/
def execMemRead (line : Nat) (who : Req) (upset : Nat) (s : State) : Out :=
  .next (s.take ⟨line, 0, none, .host, false, who, upset⟩)

/-- MEM_WRITE (R243, R306): a whole line of 64 bytes. -/
def execMemWrite (line : Nat) (bytes : List Byte) (by_ : Writer) (wadding : Bool) (s : State) : Out :=
  .next (s.take ⟨line, 0, some (padTo 64 bytes), by_, wadding, .engine, 0⟩)

/-- PARTIAL_WRITE (R244, R256): fewer than 64 bytes within a line. -/
def execPartialWrite (line off : Nat) (bytes : List Byte) (by_ : Writer) (wadding : Bool) (s : State) : Out :=
  .next (
    if bytes ≠ [] ∧ bytes.length < 64 ∧ off + bytes.length ≤ 64 then s.take ⟨line, off, some bytes, by_, wadding, .engine, 0⟩
    else s)

/-- The channel number within its controller, and the controller, of a module-wide channel. -/
def chanCtl (k : Nat) : Nat := if k < 2048 then k / 128 else 16 + (k - 2048) / 16
def chanIn (k : Nat) : Nat := if k < 2048 then k % 128 else (k - 2048) % 16

/-- A channel is being retrained (R261). -/
def State.retraining (s : State) (k : Nat) : Bool :=
  s.bit F.MEM_STATUS_CAL_ACTIVE (chanCtl k) && s.get F.MEM_STATUS_CAL_CH (chanCtl k) == chanIn k

/-- The request that issues: one that 64 younger requests have passed before any other (R242). -/
def issuePick (q : List ChReq) (pick : Nat) : Nat :=
  match (List.range q.length).find? (fun i => decide (64 ≤ (q.getD i ⟨0, false, 0⟩).passed)) with
  | some i => i
  | none => if pick < q.length then pick else 0

/-- A queue after the request at a place has issued: those before it have been passed once more. -/
def issueAt (q : List ChReq) (i : Nat) : List ChReq :=
  (q.take i).map (fun r => { r with passed := r.passed + 1 }) ++ q.drop (i + 1)

/-- CHANNEL_ISSUE (R242): `pick` is the oldest request whose bank is ready; a sender that the full queue had stopped goes
on. Nothing issues during a retrain (R261). -/
def execChannelIssue (chan : Fin 2176) (pick : Nat) (s : State) : Out :=
  .next (
    let q := s.chanQueue chan
    if q = [] ∨ s.retraining chan = true then s
    else
      let s := { s with mc := { s.mc with queue := Sparse.put [] s.mc.queue chan (issueAt q (issuePick q pick)) } }
      s.takeIn chan (s.stoppedReqs chan))

/-- REFRESH (R264): performed on its bank; on the bulk tier the package's MR4 is read once per batten and BLK_REFRATE
shows its refresh-rate code (R263, R266). -/
def execRefresh (chan : Fin 2176) (bank : Fin 64) (mr4 : Nat) (s : State) : Out :=
  .next (
    let k := chan.val * 64 + bank.val
    let s := { s with mc := { s.mc with refreshes := Sparse.put 0 s.mc.refreshes k (Sparse.get 0 s.mc.refreshes k + 1) } }
    let p := (chan.val - 2048) / 4
    if 2048 ≤ chan.val ∧ p ∉ s.mc.mr4 then
      { s.set ⟨.blkRefrate, 4 * (p % 4), 4⟩ mr4 (p / 4) with mc := { s.mc with mr4 := s.mc.mr4 ++ [p] } }
    else s)

/-! ## Live calibration (R260 to R262) -/

def ctlChans (ctl : Nat) : Nat := if ctl < 16 then 128 else 16

/-- A channel of a controller belongs to a device in service. -/
def State.chanUp (s : State) (ctl ch : Nat) : Bool :=
  if ctl < 16 then s.nearUp ctl else s.bulkUp (4 * (ctl - 16) + ch / 4)

/-- The controller's CAL_EN and SCRUB_EN. -/
def State.calEn (s : State) (ctl : Nat) : Bool :=
  s.bit (if ctl < 16 then F.MEM_CTRL_CAL_EN else F.BLK_CTRL_CAL_EN) (chanInst ctl)
def State.scrubEn (s : State) (ctl : Nat) : Bool :=
  s.bit (if ctl < 16 then F.MEM_CTRL_SCRUB_EN else F.BLK_CTRL_SCRUB_EN) (chanInst ctl)

/-- A controller starts retraining one channel: the urgent one with the lowest number, or the next of its rotation. -/
def State.calibrate (s : State) (ctl : Nat) : State :=
  if s.calEn ctl = false then s
  else
    let start (s : State) (ch : Nat) : State :=
      if s.chanUp ctl ch then (s.set F.MEM_STATUS_CAL_ACTIVE 1 ctl).set F.MEM_STATUS_CAL_CH ch ctl else s
    match s.mc.urgent.find? (fun k => chanCtl k == ctl) with
    | some k => start { s with mc := { s.mc with urgent := s.mc.urgent.erase k } } (chanIn k)
    | none =>
      let ch := Sparse.get 0 s.mc.rot ctl
      start { s with mc := { s.mc with rot := Sparse.put 0 s.mc.rot ctl ((ch + 1) % ctlChans ctl) } } ch

/-- CALIBRATION_SLOT (R260): after the work slot. -/
def execCalibrationSlot (s : State) : Out :=
  .next (
    if s.frame.slot = 1 then
      let s := s.advanceTo s.calAt
      let s := { s with frame := { s.frame with slot := 2 } }
      (List.range 24).foldl State.calibrate s
    else s)

/-- RETRAIN_END (R262): the outcome of a retrain and its smallest lane margin. -/
def execRetrainEnd (ctl : Fin 24) (converged : Bool) (margin : Nat) (s : State) : Out :=
  .next (
    if s.bit F.MEM_STATUS_CAL_ACTIVE ctl then
      let ch := s.get F.MEM_STATUS_CAL_CH ctl
      let seqF : Fld := ⟨chanReg ctl, 32, 4⟩
      let s := (s.set F.MEM_STATUS_CAL_ACTIVE 0 ctl).bump F.MEM_CAL_RETRAINS 1 ctl
      if converged then
        let s := (s.set ⟨chanReg ctl, 40, 8⟩ margin (chanInst ctl) ch).set seqF 0 (chanInst ctl) ch
        let floor := s.get (if ctl.val < 16 then F.MEM_CTRL_MARGIN_FLOOR else F.BLK_CTRL_MARGIN_FLOOR) (chanInst ctl)
        if margin < floor then
          (s.set F.MEM_STATUS_MARGIN_LOW 1 ctl).raise (ctlDie ctl) 0x0505 (s.memPayload ctl ch)
        else s
      else
        let s := ((s.set F.MEM_STATUS_CAL_FAIL 1 ctl).bump seqF 1 (chanInst ctl) ch).bump F.MEM_CAL_FAILS 1 ctl
        s.raise (ctlDie ctl) 0x0504 (s.memPayload ctl ch)
    else s)

/-! ## Patrol scrub (R258, R259) -/

/-- Lines of a near channel, groups of a bulk channel. -/
def scrubSize (ctl : Nat) : Nat := if ctl < 16 then 10485760 else 2 ^ 26

/-- SCRUB_LINES of a controller. -/
def State.scrubLines (s : State) (ctl : Nat) : Nat :=
  s.get (if ctl < 16 then F.MEM_CTRL_SCRUB_LINES else F.BLK_CTRL_SCRUB_LINES) (chanInst ctl)

/-- Lines or groups that a channel reads in this slot: SCRUB_LINES, or fewer where the slot ended first. -/
def State.scrubCount (s : State) (cut : List (Nat × Nat)) (k : Nat) : Nat :=
  let ctl := chanCtl k
  if s.scrubEn ctl && s.chanUp ctl (chanIn k) then
    match cut.find? (fun p => p.1 == k) with
    | some p => min p.2 (s.scrubLines ctl)
    | none => s.scrubLines ctl
  else 0

/-- A line falls to this slot's scrub of its channel. -/
def State.scrubbed (s : State) (cut : List (Nat × Nat)) (ln : Nat) : Bool :=
  let k := lineChan ln
  let size := scrubSize (chanCtl k)
  let ptr := Sparse.get 0 s.mc.scrub k % size
  s.lineUp ln && decide ((chanPlace ln + size - ptr) % size < s.scrubCount cut k)

/-- The place of a line in this slot's scrub of its channel: by distance from the channel's pointer, then by slot. -/
def State.scrubRank (s : State) (ln : Nat) : Nat :=
  let k := lineChan ln
  let size := scrubSize (chanCtl k)
  (chanPlace ln + size - Sparse.get 0 s.mc.scrub k % size) % size * 8 + bulkSlot ln

/-- The channels of a controller that are in service. -/
def State.chansUp (s : State) (ctl : Nat) : List Nat := (List.range (ctlChans ctl)).filter (s.chanUp ctl)

/-- POINTER and PASSES of a controller after its channels' pointers moved (R265). -/
def State.scrubRegs (s : State) (before : Sparse Nat) (ctl : Nat) : State :=
  let low (m : Sparse Nat) (f : Nat → Nat) : Nat :=
    match (s.chansUp ctl).map (fun ch => f (Sparse.get 0 m (chanKey ctl ch))) with
    | [] => 0
    | x :: xs => xs.foldl min x
  let size := scrubSize ctl
  let s1 := s.set ⟨.memScrub, 0, if ctl < 16 then 24 else 26⟩ (low s.mc.scrub (· % size)) ctl
  s1.bump F.MEM_SCRUB_PASSES (low s.mc.scrub (· / size) - low before (· / size)) ctl

/-- SCRUB_SLOT (R258): every controller reads at its channels' pointers; a clean line changes nothing, so only lines with
an upset are read here. `cut` names channels whose reads were not all issued by the end of the slot. -/
def execScrubSlot (cut : List (Nat × Nat)) (s : State) : Out :=
  .next (
    if s.frame.slot = 2 then
      let s := s.advanceTo s.scrubAt
      let s := { s with frame := { s.frame with slot := 3 } }
      let counts := (List.range 2176).map (fun k => (k, s.scrubCount cut k))
      let hit := ((Sparse.keys s.upset).filter (s.scrubbed cut)).mergeSort (fun a b => s.scrubRank a ≤ s.scrubRank b)
      let before := s.mc.scrub
      let s := hit.foldl (fun s ln => (s.readLine .scrub ln).st) s
      let after : Sparse Nat := (counts.map (fun p => (p.1, Sparse.get 0 before p.1 + p.2))).filter (fun p => p.2 ≠ 0)
      let s := { s with mc := { s.mc with scrub := after } }
      (List.range 24).foldl (fun s ctl => s.scrubRegs before ctl) s
    else s)

end Sys2Proof.Machine
end

