-- ==== Sys2Proof/Machine/Power.lean ====
section
/-! DEFINITION. Power, thermal and supply behaviour (chapter 15). -/
namespace Sys2Proof.Machine

def State.dp (s : State) (d : Nat) : DiePwr := Sparse.get .init s.pwr.dies d

def State.setDp (s : State) (d : Nat) (x : DiePwr) : State :=
  { s with pwr := { s.pwr with dies := Sparse.put .init s.pwr.dies d x } }

/-! ## Requests for a step and a duty (R373, R375, R382) -/

/-- The policy entry in force on a die: the class of a hint that has started, entry 0 without one (R378). -/
def DiePwr.cls (x : DiePwr) : Nat :=
  match x.hint with
  | some h => if h.phase = 2 then h.cls else 0
  | none => 0

/-- A field of a policy entry (Table 15.1), by byte offset and length. -/
def State.policy (s : State) (d cls off len : Nat) : Nat := fget (8 * off) (8 * len) (s.rd .pwrPolicy d cls)

/-- The largest request for a step, without the increment of a sag episode (R373). -/
def State.stepBase (s : State) (d : Nat) : Nat :=
  let x := s.dp d
  max (max (s.get F.PWR_CTRL_MIN_STEP d) (s.policy d x.cls 5 1 % 16)) (max x.capReq x.thermReq)

/-- The step that a die is to take (R373). -/
def State.stepTarget (s : State) (d : Nat) : Nat := min 15 (s.stepBase d + (if s.pwr.sag.isSome then 1 else 0))

/-- Matrix issue duty of a die: the budget's, lowered for temperature, halved where a sag finds the die at step 15. -/
def State.mmDuty (s : State) (d : Nat) : Nat :=
  let x := s.dp d
  let m := min x.capDuty (16 - 2 * x.thermCut)
  if s.pwr.sag.isSome ∧ s.stepBase d = 15 then m / 2 else m

/-- PWR_STATE follows the requests: duties, causes and class. The step itself changes when VF_STEP_CHANGE completes. -/
def State.refreshDie (s : State) (d : Nat) : State :=
  let x := s.dp d
  let above (r : Nat) : Nat := if s.get F.PWR_CTRL_MIN_STEP d < r then 1 else 0
  let s1 := ((s.set F.PWR_STATE_MM_DUTY (s.mmDuty d) d).set F.PWR_STATE_MEM_DUTY x.memDuty d).set F.PWR_STATE_CLASS x.cls d
  (((s1.set F.PWR_STATE_CAUSE_CAP (above x.capReq) d).set F.PWR_STATE_CAUSE_THERM (above x.thermReq) d).set
    F.PWR_STATE_CAUSE_SUPPLY (if s.pwr.sag.isSome then 1 else 0) d).set
    F.PWR_STATE_CAUSE_CLASS (above (s.policy d x.cls 5 1 % 16)) d

/-- A die is held back in the sense of THROTTLE_US (Table 12.6). -/
def State.heldBack (s : State) (d : Nat) : Bool :=
  s.bit F.PWR_STATE_CAUSE_CAP d || s.bit F.PWR_STATE_CAUSE_THERM d || s.bit F.PWR_STATE_CAUSE_SUPPLY d ||
  decide (s.get F.PWR_STATE_MM_DUTY d < 16) || decide (s.get F.PWR_STATE_MEM_DUTY d < 16)

/-- THROTTLE_US of the course takes the whole microseconds since the last account. -/
def State.settleThrottle (s : State) : State :=
  let on : Option Nat := if (List.range 8).any s.heldBack then some s.now else none
  match s.pwr.throttle with
  | some t =>
    let us := (s.now - t) / 1000
    let s := s.ledBump ⟨312, 4⟩ us
    { s with pwr := { s.pwr with throttle := on.map (fun n => n - (n - t) % 1000), throttleUs := s.pwr.throttleUs + us } }
  | none => { s with pwr := { s.pwr with throttle := on } }

/-- A die's requests changed. -/
def State.refreshPwr (s : State) (d : Nat) : State := (s.refreshDie d).settleThrottle

/-- Every die's requests changed. -/
def State.refreshAll (s : State) : State := ((List.range 8).foldl State.refreshDie s).settleThrottle

/-- Changing a die's controller. -/
def State.updDp (s : State) (d : Nat) (f : DiePwr → DiePwr) : State := (s.setDp d (f (s.dp d))).refreshPwr d

/-! ## Cap and budgets (R374 to R377) -/

/-- A cap that R374 allows. -/
def capOk (w : Nat) : Bool := decide (1200 ≤ w) && decide (w ≤ 2800) && w % 25 == 0

/-- The cap is set (R377): it binds from 1 ms on. -/
def State.setCap (s : State) (w : Nat) : State :=
  let old := s.get F.PWR_CAP_CAP_W
  { s.set F.PWR_CAP_CAP_W w with pwr := { s.pwr with capOld := old, capAt := s.now + 1000000 } }

/-- The cap that binds now. -/
def State.capNow (s : State) : Nat := if s.now < s.pwr.capAt then s.pwr.capOld else s.get F.PWR_CAP_CAP_W

/-- A write of PWR_CAP (R377, R389): die 0 only; other dies mirror it. -/
def State.writeCap (s : State) (die : Nat) (v : Word) : State :=
  if die ≠ 0 then s
  else if capOk (fget 0 12 v) then s.setCap (fget 0 12 v) else s.set F.PWR_STATUS_SETTING_REJECTED 1 0

def execPwrCapWrite (die : Fin 8) (value : Word) (s : State) : Out := .next (s.writeCap die value)

/-- A write of a coefficient waits for the next batten (R388). -/
def State.writeCoef (s : State) (die k : Nat) (v : Word) : State :=
  { s with pwr := { s.pwr with coefPend := Sparse.put none s.pwr.coefPend (16 * die + k) (some (BitVec.ofNat 64 (fget 0 32 v))) } }

def execPwrCoefWrite (die : Fin 8) (k : Fin 16) (value : Word) (s : State) : Out := .next (s.writeCoef die k value)

/-- A write of a policy entry (R379): on die 0 and in IDLE, within the ranges of Table 15.1; the other dies have it at the
next tick. -/
def State.writePolicy (s : State) (die cls : Nat) (v : Word) : State :=
  if die ≠ 0 ∨ s.cstate ≠ 0 ∨ 50 < fget 16 8 v ∨ 15 < fget 40 8 v then s.set F.PWR_STATUS_SETTING_REJECTED 1 die
  else
    let w : Word := BitVec.ofNat 64 (fget 0 48 v)
    ({ s.wr .pwrPolicy 0 cls w with pwr := { s.pwr with policyPend := Sparse.put none s.pwr.policyPend cls (some w) } }).refreshPwr 0

def execPwrPolicyWrite (die : Fin 8) (cls : Fin 16) (value : Word) (s : State) : Out := .next (s.writePolicy die cls value)

/-- Coefficients and policy entries that waited take effect at the tick (R379, R388). -/
def State.applyPower (s : State) : State :=
  let s := s.pwr.coefPend.foldl (fun s p => match p.2 with
    | some w => s.wr .pwrCoef (p.1 / 16) (p.1 % 16) w
    | none => s) s
  let s := s.pwr.policyPend.foldl (fun s p => match p.2 with
    | some w => (List.range 8).foldl (fun s d => s.wr .pwrPolicy d p.1 w) s
    | none => s) s
  { s with pwr := { s.pwr with coefPend := [], policyPend := [] } }.refreshAll

/-- ENERGY_REFIT (R388): every 1,000 battens in the ledger slot; `coef` is the outcome of the fit for c_0 to c_9 and c_15,
a negative or missing one counting as 0. -/
def execEnergyRefit (coef : List F32) (s : State) : Out :=
  .next (
    if s.bit F.PWR_CTRL_REFIT_EN && decide (1000 ≤ s.pwr.refit) && s.frame.slot == 4 then
      let ks := [0, 1, 2, 3, 4, 5, 6, 7, 8, 9, 15]
      let s := (ks.zip (coef ++ List.replicate 11 0#32)).foldl (fun s p =>
        let v : F32 := if (dec32 p.2).neg || (dec32 p.2).nonfinite then 0#32 else p.2
        (List.range 8).foldl (fun s d => s.writeCoef d p.1 (v.setWidth 64)) s) s
      { s with pwr := { s.pwr with refit := 0 } }
    else s)

/-- Sum of the newest samples. -/
def sampleSum (xs : List Nat) (n : Nat) : Nat := (xs.take n).sum

/-- INPUT_SAMPLE (R374, R376, R384): die 0 measures input voltage (mV) and current (mA) at each microsecond. A 1 ms window
ends at every whole millisecond. -/
def execInputSample (mv ma : Nat) (s : State) : Out :=
  .next (
    let s := s.advanceTo ((s.now / 1000 + 1) * 1000)
    let xs : List Nat := (mv * ma / 1000000 :: s.pwr.samples).take 1000
    let ok : Option Nat := if mv < 42000 then none else if s.pwr.okSince.isSome then s.pwr.okSince else some s.now
    let sag := s.pwr.sag.map (fun p => (p.1, p.2.1, min p.2.2 mv))
    let s := { s with pwr := { s.pwr with samples := xs, okSince := ok, sag := sag } }
    let s := (s.set F.PWR_SUPPLY_VIN_MV (min mv 65535)).set F.PWR_INPUT_P1MS_W (min 4095 (xs.sum / xs.length))
    let low := s.get F.PWR_SUPPLY_MIN_MV
    let s : State := if low = 0 ∨ mv < low then s.set F.PWR_SUPPLY_MIN_MV (min mv 65535) else s
    let p10 := min 4095 (sampleSum xs 10 / (min 10 xs.length))
    let s : State := if s.get F.PWR_INPUT_P10US_PEAK_W < p10 then s.set F.PWR_INPUT_P10US_PEAK_W p10 else s
    if s.now % 1000000 = 0 ∧ xs.length = 1000 ∧ s.capNow * 1000 < xs.sum then
      let excess := xs.sum - s.capNow * 1000
      ((s.set F.PWR_STATUS_CAP_EXCESS 1).bump F.PWR_CNT_CAP_EXCESS_UJ excess).raise 0 0x0801 (plAt 16 excess)
    else s)

/-- A budget reaches a die: its duties within R375's limits, and whether its power has fallen below 95 %. -/
def State.giveBudget (s : State) (d : Nat) (b : DieBudget) : State :=
  let x := s.dp d
  let mm := max 4 (min 16 b.matrix)
  let mem := if mm = 4 ∧ x.capReq = 15 then max 4 (min 16 b.memory) else 16
  let y := { x with
    budget := b.watts, capDuty := mm, memDuty := mem
    dutySince := if mm = 16 then none else if x.dutySince.isSome then x.dutySince else some s.now
    belowSince := if 95 * b.watts ≤ 100 * b.power then none else if x.belowSince.isSome then x.belowSince else some s.now }
  let s := (s.setDp d y).refreshDie d
  if mm < x.capDuty ∨ mem < x.memDuty then s.set F.PWR_STATUS_CAP_THROTTLE 1 d else s

/-- BUDGET_UPDATE (R375): every 10 µs die 0 gives each die its budget; how it divides the cap is open, so the budgets and
the duties that hold the dies to them come with the command. -/
def execBudgetUpdate (b : List DieBudget) (s : State) : Out :=
  .next (
    let s := s.advanceTo ((s.now / 10000 + 1) * 10000)
    (((List.range 8).zip b).foldl (fun s p => s.giveBudget p.1 p.2) s).settleThrottle)

/-- CAP_STEP (R375): 100 µs with MM_DUTY below 16/16 move the cap request one step higher; `duty` is what the budget then
allows. -/
def execCapStep (die : Fin 8) (duty : Nat) (s : State) : Out :=
  .next (
    let x := s.dp die
    match x.dutySince with
    | none => s
    | some t =>
      let s := s.advanceTo (t + 100000)
      let m := max x.capDuty (min 16 duty)
      let y := { x with
        capReq := min 15 (x.capReq + 1), capDuty := m, dutySince := if m = 16 then none else some s.now
        memDuty := if m = 4 ∧ 15 ≤ x.capReq + 1 then x.memDuty else 16 }
      ((s.setDp die y).set F.PWR_STATUS_CAP_THROTTLE 1 die).refreshPwr die)

/-- CAP_RELAX (R375): 1 ms below 95 % of the budget moves the cap request one step lower. -/
def execCapRelax (die : Fin 8) (s : State) : Out :=
  .next (
    let x := s.dp die
    match x.belowSince with
    | none => s
    | some t =>
      let s := s.advanceTo (t + 1000000)
      s.updDp die (fun x => { x with capReq := x.capReq - 1, belowSince := some s.now, memDuty := 16 }))

/-- VF_STEP_CHANGE (R372): the die reaches the step that its requests ask for. -/
def execVfStepChange (die : Fin 8) (s : State) : Out := .next (s.set F.PWR_STATE_STEP (s.stepTarget die) die)

/-- POWER_CAP (R377, R401): byte 18 = 1 also commits the block in force with only CAP_W changed. -/
def execPowerCap (q : Fin 16384) (seq : Nat) (s : State) : Out :=
  .next (s.runCmd 0x0601 q seq (fun c s =>
    let w := c.par 16 2
    if capOk w = false then s.fail c stBadParam 16
    else
      let s := s.setCap w
      let s := if c.par 18 1 = 1 then s.commitFields (leBytes 2 w ++ s.sec.fields.drop 2) else s
      s.succeed c w))

/-! ## Load hints (R378, R380) -/

/-- A hint reaches a die; one that comes after START − LEAD_US is prepared at once and counts as late. -/
def State.takeHint (s : State) (h : Hint) (d : Nat) : State :=
  if s.bit F.PWR_CTRL_HINT_EN d = false then s
  else
    let lead := s.policy d h.cls 3 1 * 1000
    let late := decide (h.start ≠ 0) && decide (h.start < s.now + lead)
    let x := s.dp d
    let now : Bool := late && decide (h.start ≤ s.now)
    let guard := if late then max x.guard (s.policy d h.cls 2 1) else x.guard
    let s1 := s.updDp d (fun x => { x with
      hint := some { h with phase := if now then 2 else if late then 1 else 0 }, guard := guard, granted := x.granted && !late })
    if late then (s1.set F.PWR_STATUS_HINT_LATE 1 d).bump F.PWR_CNT_HINT_LATE 1 d else s1

/-- LOAD_HINT (R378). -/
def execLoadHint (q : Fin 16384) (seq : Nat) (s : State) : Out :=
  .next (s.runCmd 0x0600 q seq (fun c s =>
    let cls := c.par 24 1
    let mask := c.par 25 1
    let us := c.par 26 2
    if cls = 0 ∨ 15 < cls then s.fail c stBadParam 24
    else if mask = 0 then s.fail c stBadParam 25
    else if us = 0 then s.fail c stBadParam 26
    else
      let h : Hint := ⟨c.par 16 8, us * 1000, cls, 0⟩
      (((List.range 8).filter (fun d => mask / 2 ^ d % 2 == 1)).foldl (fun s d => s.takeHint h d) s).succeed c 0))

/-- A die prepares for the entry of a class: the rail rises to its guard and EXPECT_W is asked of die 0 (R380). -/
def State.prepare (s : State) (d cls : Nat) : State :=
  s.updDp d (fun x => { x with guard := max x.guard (s.policy d cls 2 1), granted := false })

/-- HINT_LEAD (R380): START − LEAD_US of a hint is reached. -/
def execHintLead (die : Fin 8) (s : State) : Out :=
  .next (
    match (s.dp die).hint with
    | some h =>
      if h.phase = 0 ∧ h.start ≠ 0 then
        let s := s.advanceTo (h.start - s.policy die h.cls 3 1 * 1000)
        (s.updDp die (fun x => { x with hint := some { h with phase := 1 } })).prepare die h.cls
      else s
    | none => s)

/-- HINT_START (R378): the START of a hint is reached and its entry comes into force. -/
def execHintStart (die : Fin 8) (s : State) : Out :=
  .next (
    match (s.dp die).hint with
    | some h =>
      if h.phase < 2 ∧ h.start ≠ 0 then
        let s := s.advanceTo h.start
        let s := if h.phase = 0 then s.prepare die h.cls else s
        s.updDp die (fun x => { x with hint := some { h with phase := 2 } })
      else s
    | none => s)

/-- HINT_EXPIRY (R378): the duration of a hint in force ends and entry 0 applies. -/
def execHintExpiry (die : Fin 8) (s : State) : Out :=
  .next (
    match (s.dp die).hint with
    | some h =>
      if h.phase = 2 then (s.advanceTo (h.start + h.dur)).updDp die (fun x => { x with hint := none }) else s
    | none => s)

/-- HINT_HOLD_END (R380): HOLD_US after a release the guard slews back to the setpoint. -/
def execHintHoldEnd (die : Fin 8) (s : State) : Out :=
  .next (
    match (s.dp die).holdUntil with
    | some t => (s.advanceTo t).updDp die (fun x => { x with holdUntil := none, guard := 0, granted := false })
    | none => s)

/-- GRANT_REQUEST (R380): die 0 grants EXPECT_W, at duties that fit the cap: never higher than those in force. -/
def execGrantRequest (die : Fin 8) (matrix memory : Nat) (s : State) : Out :=
  .next (
    if (s.dp die).granted then s
    else
      s.updDp die (fun x =>
        let mm := min x.capDuty (max 4 (min 16 matrix))
        { x with
          granted := true, capDuty := mm
          dutySince := if mm = 16 then none else if x.dutySince.isSome then x.dutySince else some s.now
          memDuty := if mm = 4 ∧ x.capReq = 15 then min x.memDuty (max 4 (min 16 memory)) else x.memDuty }))

/-- The ready indication is due (R380): the guard of the entry in force stands and EXPECT_W is granted. -/
def State.railReady (s : State) (d : Nat) : Bool :=
  let x := s.dp d
  x.granted && decide (s.policy d x.cls 2 1 ≤ x.guard)

/-! ## Droop (R381) -/

def execDroopDetect (die group : Fin 8) (s : State) : Out :=
  .next (
    let x := s.dp die
    if x.droop / 2 ^ group.val % 2 = 1 then s
    else (s.setDp die { x with droop := x.droop ||| 2 ^ group.val }).bump F.PWR_DROOPCNT_DROOP_EVENTS 1 die)

/-- DROOP_RECOVER (R381): 16 cycles after the rail has recovered; `cycles` is how long the stretch lasted. -/
def execDroopRecover (die group : Fin 8) (cycles : Nat) (s : State) : Out :=
  .next (
    let x := s.dp die
    if x.droop / 2 ^ group.val % 2 = 1 then
      (s.setDp die { x with droop := x.droop ^^^ 2 ^ group.val }).bump F.PWR_DROOPCNT_STRETCHED cycles die
    else s)

/-! ## Temperature (R382, R383) -/

/-- A signed 12-bit field. -/
def signed12 (v : Nat) : Int := if v < 2048 then v else (v : Int) - 4096
def field12 (i : Int) : Nat := ((max (-2048) (min 2047 i)) % 4096).toNat

/-- THERMAL_SAMPLE (R382): the junction sensors in units of 0.25 °C. -/
def execThermalSample (die : Fin 8) (temps : List Int) (s : State) : Out :=
  .next (
    match temps with
    | [] => s
    | t :: ts =>
      let s := s.advanceTo ((s.now / 10000 + 1) * 10000)
      let hot := ts.foldl max t
      let was := signed12 (s.get F.PWR_TEMP_TJ_MAX die)
      let warn : Int := 4 * (s.get F.PWR_CTRL_WARN_C die : Nat)
      let limit : Int := 4 * (s.get F.PWR_CTRL_THROTTLE_C die : Nat)
      let s := s.set F.PWR_TEMP_TJ_MAX (field12 hot) die
      let s := if signed12 (s.get F.PWR_TEMP_TJ_PEAK die) < hot then s.set F.PWR_TEMP_TJ_PEAK (field12 hot) die else s
      let s := if was < warn ∧ warn ≤ hot then
          (s.set F.PWR_STATUS_THERM_WARN 1 die).raise die 0x0802 (plAt 16 (field12 hot)) else s
      let x := s.dp die
      s.setDp die { x with
        hotSince := if hot < limit then none else if x.hotSince.isSome then x.hotSince else some s.now
        coolSince := if limit - 12 ≤ hot then none else if x.coolSince.isSome then x.coolSince else some s.now })

/-- THERMAL_STEP (R382): 100 µs at or above THROTTLE_C. -/
def execThermalStep (die : Fin 8) (s : State) : Out :=
  .next (
    let x := s.dp die
    match x.hotSince with
    | none => s
    | some t =>
      let s := s.advanceTo (t + 100000)
      let s := if x.thermReq = 0 ∧ x.thermCut = 0 then
          (s.set F.PWR_STATUS_THERM_THROTTLE 1 die).raise die 0x0803 (plAt 16 (s.get F.PWR_TEMP_TJ_MAX die)) else s
      s.updDp die (fun x => if x.thermReq < 15 then { x with thermReq := x.thermReq + 1, hotSince := some s.now }
        else { x with thermCut := min 6 (x.thermCut + 1), hotSince := some s.now }))

/-- THERMAL_RELAX (R382): 1 ms below THROTTLE_C − 3 °C undoes one action, in the reverse order. -/
def execThermalRelax (die : Fin 8) (s : State) : Out :=
  .next (
    match (s.dp die).coolSince with
    | none => s
    | some t =>
      let s := s.advanceTo (t + 1000000)
      s.updDp die (fun x => if 0 < x.thermCut then { x with thermCut := x.thermCut - 1, coolSince := some s.now }
        else { x with thermReq := x.thermReq - 1, coolSince := some s.now }))

/-- TRIP (R383, R366): a trip sensor reaches 115 °C; every rail falls and the power stage latches die and temperature. -/
def execTrip (die : Fin 8) (temp : Nat) (s : State) : Out :=
  .next (
    if temp < 460 ∨ s.start.stage = 11 then s
    else
      let s := { s with start := { s.start with trip := some (die.val, temp) } }
      let s := s.powerOnReset 3 11
      { s with pwr := { s.pwr with off := true } })

/-! ## Supply (R384 to R386) -/

/-- SAG_BEGIN (R384): below 41.0 V for 1 µs; NV writes are inhibited and every die moves one step higher. -/
def execSagBegin (mv : Nat) (s : State) : Out :=
  .next (
    if 41000 ≤ mv ∨ s.pwr.sag.isSome then s
    else
      let s := { s with pwr := { s.pwr with sag := some (s.now, s.get F.GUT_TIME_OPSEC, mv), okSince := none } }
      let s := ((s.set F.PWR_SUPPLY_SAG 1).set F.PWR_SUPPLY_NV_INHIBIT 1).set F.PWR_SUPPLY_VIN_MV mv
      let s := ((s.set F.PWR_STATUS_SAG 1).bump F.PWR_CNT_SAG_EPISODES 1).refreshAll
      s.raise 0 0x0804 (plAt 16 mv))

/-- SAG_END (R384): 10 ms at or above 42.0 V; NV writes resume, and deferred flash work starts in order (R385). -/
def execSagEnd (s : State) : Out :=
  .next (
    match s.pwr.sag, s.pwr.okSince with
    | some (t, ops, low), some ok =>
      let s := s.advanceTo (ok + 10000000)
      let s := { s with pwr := { s.pwr with sag := none } }
      let s := ((s.set F.PWR_SUPPLY_SAG 0).set F.PWR_SUPPLY_NV_INHIBIT 0).refreshAll
      (s.raise 0 0x0805 (plAt 16 ops + plAt 20 (t % 2 ^ 32) + plAt 24 ((s.now - t) / 1000 % 2 ^ 32) + plAt 28 low)).flashStart
    | _, _ => s)

/-- SUPPLY_COLLAPSE (R384, R386): below 38.0 V for 10 µs; a flash page program already started completes first, then the
power-on reset of cause 2 follows. -/
def execSupplyCollapse (mv : Nat) (s : State) : Out :=
  .next (
    if 38000 ≤ mv ∨ s.start.stage = 11 then s
    else if s.sec.job.isSome && s.sec.job != some .erase then
      { s with pwr := { s.pwr with stopped := true }, start := { s.start with request := some 2 } }
    else s.powerOnReset 2 0)

/-- OVERVOLTAGE (R384): above 62.0 V for 10 µs the power stage switches off. -/
def execOvervoltage (mv : Nat) (s : State) : Out :=
  .next (
    if mv ≤ 62000 ∨ s.start.stage = 11 then s
    else
      let s := s.powerOnReset 1 11
      { s with pwr := { s.pwr with off := true } })

/-- OVERVOLTAGE_CLEAR (R384): on return below 60.0 V the module starts as after input is applied; after a trip it does not
(R366). -/
def execOvervoltageClear (mv : Nat) (s : State) : Out :=
  .next (if 60000 ≤ mv ∨ s.start.stage ≠ 11 ∨ s.pwr.off = false ∨ s.start.trip.isSome then s else s.powerOnReset 1 0)

/-! ## Releases of cluster groups (R53, R380) -/

/-- A release is signalled to a die's power controller: it prepares for the entry that the release brings into force
(R53, R380); a hint for the next release is that entry (R378). -/
def State.signalRelease (s : State) (d : Nat) : State :=
  let s : State := { s with frame := { s.frame with
    release := Sparse.put 0 s.frame.release d 1, groups := s.frame.groups.filter (fun x => x / 8 != d)
    signalAt := Sparse.put 0 s.frame.signalAt d s.now } }
  match (s.dp d).hint with
  | some h =>
    if h.phase = 0 ∧ h.start = 0 then (s.updDp d (fun x => { x with hint := some { h with phase := 1 } })).prepare d h.cls
    else if h.phase = 1 then s
    else s.prepare d (s.dp d).cls
  | none => s.prepare d 0

/-- A work slot begins: every group is to be released, and the eight dies signal it (R53). -/
def State.openSlot (s : State) : State :=
  (List.range 8).foldl State.signalRelease { s with frame := { s.frame with opening := List.range 64 } }

end Sys2Proof.Machine
end

