-- ==== Sys2Proof/Machine/ClusterOps.lean ====
section
/-! DEFINITION. Shared operations on a cluster: its memories and scalar registers, the scoreboard of its tiles, readout,
compensated tiles, the accumulator window, and what its status registers show (chapters 5 and 6). -/
namespace Sys2Proof.Machine

/-- Sizes of the local buffer and of program memory (Table 1.6). -/
def lbSize : Nat := 0x20_0000
def pmSize : Nat := 0x4_0000

/-- Changing a cluster beside its registers. -/
def State.updCl (s : State) (g : Nat) (f : Cluster → Cluster) : State := s.setCl g (f (s.cl g))

/-- Local address of an offset in the window of a cluster (R15, R17). -/
def clusterAddr (g off : Nat) : Nat := winBase + (g / 128) * winSize + (g % 128) * 0x1000_0000 + off

/-! ## Scalar registers and local buffer -/

/-- A scalar register; s0 reads as zero (R138). -/
def State.sreg (s : State) (g n : Nat) : Word := if n = 0 then 0#64 else Sparse.get 0#64 (s.cl g).sreg n

/-- Writing a scalar register; writes to s0 are discarded (R138). -/
def State.setSreg (s : State) (g n : Nat) (v : Word) : State :=
  if n = 0 then s else s.updCl g (fun c => { c with sreg := Sparse.put 0#64 c.sreg n v })

def State.lbRead (s : State) (g a n : Nat) : List Byte := tableBytes (s.cl g).lb a n

def State.lbPut (s : State) (g a : Nat) (bs : List Byte) : State :=
  s.updCl g (fun c => { c with lb := tablePut c.lb a bs })

/-- A number of `n` bytes in the local buffer. -/
def State.lbNat (s : State) (g a n : Nat) : Nat := ofLe (s.lbRead g a n)

/-- The cluster runs a tile program. -/
def State.runsAny (s : State) (g : Nat) : Bool := (s.cl g).run.isSome

/-- A write through the scalar window (R140). -/
def State.scalarWrite (s : State) (g n : Nat) (v : Word) : State :=
  if s.runsAny g then s.raise (g / 128) 0x0203 (plAt 16 (clusterAddr g (0x70_0000 + 8 * n))) else s.setSreg g n v

/-- A write to program memory (R140). -/
def State.programWrite (s : State) (g off : Nat) (bs : List Byte) : State :=
  if s.runsAny g then s.raise (g / 128) 0x0203 (plAt 16 (clusterAddr g (0x100_0000 + off)))
  else s.updCl g (fun c => { c with pm := tablePut c.pm off bs })

/-! ## F32 tables as bytes -/

/-- Bytes of a table of F32 patterns. -/
def f32Bytes (m : Sparse F32) (off n : Nat) : List Byte :=
  (List.range n).map (fun i => BitVec.ofNat 8 ((Sparse.get 0#32 m ((off + i) / 4)).toNat / 256 ^ ((off + i) % 4)))

/-- A table of F32 patterns with bytes written. -/
def f32Put (m : Sparse F32) : Nat → List Byte → Sparse F32
  | _, [] => m
  | o, b :: bs =>
    let old := (Sparse.get 0#32 m (o / 4)).toNat
    f32Put (Sparse.put 0#32 m (o / 4) (BitVec.ofNat 32 (ofLe (patch (leBytes 4 old) (o % 4) [b])))) (o + 1) bs

/-- The entries of a table whose key lies outside a block of 1,024. -/
def dropBlock {V : Type} (m : Sparse V) (t : Nat) : Sparse V := m.filter (fun p => p.1 / 1024 != t)

/-- The 1,024 values of a block (a tile or a vector buffer). -/
def blockVals (m : Sparse F32) (t : Nat) : List F32 :=
  let b := m.filter (fun p => p.1 / 1024 == t)
  (List.range 1024).map (fun e => Sparse.get 0#32 b (t * 1024 + e))

/-- A table with a block replaced by 1,024 values. -/
def putBlock (m : Sparse F32) (t : Nat) (vs : List F32) : Sparse F32 :=
  m.filter (fun p => decide (p.1 < t * 1024)) ++
  ((vs.take 1024).zipIdx.filterMap (fun p => if p.1 = 0#32 then none else some (t * 1024 + p.2, p.1))) ++
  m.filter (fun p => decide ((t + 1) * 1024 ≤ p.1))

/-! ## Instruction fields (R141, Table 6.1) -/

def bits (w lo n : Nat) : Nat := w / 2 ^ lo % 2 ^ n

/-- A value of `n` bits read as a signed integer. -/
def sext (n v : Nat) : Int := if v < 2 ^ (n - 1) then v else (v : Int) - (2 ^ n : Nat)

/-- Format V. -/
structure VecF where
  op : Nat
  vd : Nat
  va : Nat
  vb : Nat
  mask : Nat
  sb : Nat
  rs : Nat
  ra : Nat
  rb : Nat
  fn : Nat
  fmt : Nat
  rnd : Nat
  ss : Nat
  t : Nat
  rsv : Nat

def vecF (w : Nat) : VecF :=
  ⟨bits w 0 8, bits w 8 2, bits w 10 2, bits w 12 2, bits w 14 2, bits w 16 1, bits w 17 6, bits w 23 6, bits w 29 6,
   bits w 35 5, bits w 40 4, bits w 44 1, bits w 45 1, bits w 46 5, bits w 51 13⟩

/-- The tile that a queued vector instruction reads (VTRD). -/
def vtrdTile (w : Nat) : Option Nat := if bits w 0 8 = 0x45 then some (bits w 46 5) else none

/-! ## The scoreboard (R130) -/

/-- A waiting access touches a tile. -/
def AccWait.touches (x : AccWait) (t : Nat) : Bool := decide (x.off / 0x1000 ≤ t) && decide (t ≤ (x.off + x.len - 1) / 0x1000)

/-- The operations that name a tile, dormer accesses that wait among them (R131): serial number and whether they write
it. -/
def Cluster.tileUses (c : Cluster) (t : Nat) : List (Nat × Bool) :=
  (c.mq.filter (fun o => o.tile == t)).map (fun o => (o.serial, true)) ++
  (c.vq.filter (fun v => vtrdTile v.word == some t)).map (fun v => (v.serial, false)) ++
  (c.chains.filter (fun x => x.2.1 == t)).map (fun x => (x.2.2, false)) ++
  (c.accWait.filter (fun x => x.touches t && !x.expired)).map (fun x => (x.serial, x.write))

def Cluster.tileBusy (c : Cluster) (t : Nat) : Bool := (c.tileUses t) != []

/-- An operation on a tile conflicts: one of the two writes it. -/
def Cluster.tileConflict (c : Cluster) (t : Nat) (write : Bool) : Bool := (c.tileUses t).any (fun u => u.2 || write)

/-- Operations on a tile that were issued before a serial number have completed, but for those that do not conflict. -/
def Cluster.tileClear (c : Cluster) (t serial : Nat) (write : Bool) : Bool :=
  !(c.tileUses t).any (fun u => decide (u.1 < serial) && (u.2 || write))

/-! ## Pinned ranges (R159, R161) -/

/-- Bytes of one element, 0 for a reserved code. -/
def codeBytes (f : Nat) : Nat := match fmtOfCode f with | some x => x.bytes | none => 0

/-- Bytes of the scales that an MMA reads for one panel (R148). -/
def scaleBytes (f sg k : Nat) : Nat :=
  match fmtOfCode f with
  | some x =>
    if x.scaled then (if sg = 0 then 1 else if sg = 1 then 32 else 32 * ceilDiv k 64) * (if x = .u8 then 4 else 2) else 0
  | none => 0

/-- The local buffer ranges that an audit pins: row i of panel A, panel B and both scale arrays. -/
def Audit.pins (a : Audit) : List (Nat × Nat) :=
  let o := a.op
  let e := codeBytes o.fmtA
  (List.range o.k).map (fun k => (o.aAddr + (32 * k + a.row) * e, e)) ++
  [(o.bAddr, 32 * o.k * codeBytes o.fmtB), (o.sAddr, scaleBytes o.fmtA o.sgA o.k), (o.tAddr, scaleBytes o.fmtB o.sgB o.k)]

/-- A local buffer range is pinned. -/
def Cluster.pinned (c : Cluster) (a n : Nat) : Bool :=
  c.audits.any (fun u => u.pins.any (fun r => overlaps a n r.1 r.2))

/-- A write waits for a pinned range: audit units take precedence (R161). -/
def State.pinWait (s : State) (g : Nat) : State := s.set F.VEC_STATUS_AUDIT_PRIORITY 1 g

/-- A write of the local buffer from outside the cluster; into a pinned range it is held until the audits end. -/
def State.lbExternal (s : State) (g a : Nat) (bs : List Byte) : State :=
  if (s.cl g).pinned a bs.length then (s.updCl g (fun c => { c with held := c.held ++ [(a, bs, none)] })).pinWait g
  else s.lbPut g a bs

/-! ## What the status registers show (R133, R163) -/

/-- Vector instructions that wait in the queue. -/
def Cluster.vecWaiting (c : Cluster) : Nat := (c.vq.filter (fun v => !v.started)).length

/-- The status registers of a cluster follow its queues. -/
def State.syncEngines (s : State) (g : Nat) : State :=
  let c := s.cl g
  let busy := (List.range 32).foldl (fun m t => if c.tileBusy t then m + 2 ^ t else m) 0
  let dma := (List.range 4).foldl (fun m h => if Sparse.get [] c.dq h = [] then m else m + 2 ^ h) 0
  let s := s.set F.ACC_STATUS_BUSY busy g
  let s := s.set F.VEC_STATUS_BUSY (if c.vq.any (·.started) then 1 else 0) g
  let s := s.set F.VEC_STATUS_QDEPTH c.vecWaiting g
  (s.set F.DMA_STATUS_BUSY dma g).set F.AUD_EXT_PENDING c.audits.length g

/-! ## Tiles -/

/-- A tile is designated compensated, or lent as a partner (R121). -/
def State.tileComp (s : State) (g t : Nat) : Bool := s.bit F.ACC_TSTAT_COMP g t
def State.tilePartner (s : State) (g t : Nat) : Bool := s.bit F.ACC_TSTAT_PARTNER g t

/-- A tile is cleared: elements, segments, term counter and per-tile status, but for COMP and PARTNER (R109, R133). -/
def State.clearTile (s : State) (g t : Nat) : State :=
  let s := s.updCl g (fun c => { c with
    acc := dropBlock c.acc t, segHi := dropBlock c.segHi t, segLo := dropBlock c.segLo t
    segTerms := Sparse.put 0 c.segTerms t 0 })
  let keep := (s.get F.ACC_TSTAT_COMP g t) * 2 ^ 34 + (s.get F.ACC_TSTAT_PARTNER g t) * 2 ^ 35
  s.wr .accTstat g t (BitVec.ofNat 64 keep)

/-- Clearing a tile by CLEAR: with a compensated tile, its partner's elements too (R109). -/
def State.clearByFlag (s : State) (g t : Nat) : State :=
  if s.tileComp g t then (s.clearTile g t).clearTile g (t + 24) else s.clearTile g t

/-- An element of a tile. -/
def Cluster.elem (c : Cluster) (t e : Nat) : F32 := Sparse.get 0#32 c.acc (t * 1024 + e)

/-- The readout value of an element, and its event (R119, R122, R125). -/
def State.readout (s : State) (g t e : Nat) : F32 × Evt :=
  let c := s.cl g
  let v := c.elem t e
  if s.tileComp g t then compFinal s.ieee v (c.elem (t + 24) e)
  else if s.get F.ACC_TSTAT_SEGS g t = 0 then (v, none)
  else
    let r := compAdd s.ieee (Sparse.get 0#32 c.segHi (t * 1024 + e)) (Sparse.get 0#32 c.segLo (t * 1024 + e)) v
    let f := compFinal s.ieee r.1 r.2.1
    (f.1, worst r.2.2 f.2)

/-- Counting the events of a tile: SATCNT, the tensor and the launching queue (R125). -/
def State.tileEvents (s : State) (g t tid : Nat) (n : EvCount) : State :=
  (s.bump F.ACC_TSTAT_SATCNT n.total g t).countEvents (s.launchQueue g) tid n

/-- The tensor whose terms a tile holds (R125). -/
def State.tileTid (s : State) (g t : Nat) : Nat := Sparse.get 0xFFFFFF (s.cl g).tileTid t

/-- A bit of the course's FLAGS (Table 12.8), and of a layer's LFLAGS (Table 12.11). -/
def State.ledFlag (s : State) (b : Nat) : State :=
  if s.cstate = 0 then s else s.ledSet ⟨2, 2⟩ (s.ledGet ⟨2, 2⟩ ||| 2 ^ b)

def State.layerFlag (s : State) (layer b : Nat) : State :=
  if s.cstate = 0 then s
  else
    let k := layer * 32 + 3
    { s with course := { s.course with
        layerLed := Sparse.put 0 s.course.layerLed k (Sparse.get 0 s.course.layerLed k ||| 2 ^ b) } }

/-- LONGSUM of a tile is set, with the course's long-sum flag, whether or not LONGSUM stood from an earlier course (R118,
R122, R320); a tile counts once in a course. -/
def State.longSum (s : State) (g t tid : Nat) : State :=
  let s := (s.set F.ACC_TSTAT_LONGSUM 1 g t).set F.ACC_STATUS_LONGSUM_ANY 1 g
  let k := g * 32 + t
  let s := if s.cstate = 0 ∨ s.course.longTiles.contains k then s
    else { (s.ledBump ⟨172, 4⟩ 1) with course := { (s.ledBump ⟨172, 4⟩ 1).course with longTiles := s.course.longTiles ++ [k] } }
  (s.ledFlag 6).layerFlag (s.layerOf tid) 0

/-- A write of ACC_CTRL (R123): ignored as a whole when a pair that changes is in use. -/
def State.compChange (s : State) (g v : Nat) : State :=
  let old := s.get F.ACC_CTRL_COMP g
  let new := v / 2 ^ 8 % 256
  let changed := (List.range 8).filter (fun j => decide (old / 2 ^ j % 2 ≠ new / 2 ^ j % 2))
  let c := s.cl g
  if changed.any (fun j => c.tileBusy j || c.tileBusy (j + 24)) then s.set F.ACC_STATUS_COMP_CHANGE_REJECTED 1 g
  else
    let s := (s.set F.ACC_CTRL_STRICT (v % 2) g).set F.ACC_CTRL_COMP new g
    changed.foldl (fun s j =>
      let b := new / 2 ^ j % 2
      (((s.clearTile g j).clearTile g (j + 24)).set F.ACC_TSTAT_COMP b g j).set F.ACC_TSTAT_PARTNER b g (j + 24)) s

/-! ## Dormer accesses (R131, R132) -/

/-- Local address of an offset in the accumulator window. -/
def accAddr (g off : Nat) : Nat := clusterAddr g (0x40_0000 + off)

/-- An access outside dormer mode records one event. -/
def State.accRefused (s : State) (g off : Nat) (write : Bool) : State :=
  s.raise (g / 128) 0x0206 (plAt 16 (accAddr g off) + plAt 25 (if write then 1 else 0))

/-- A write to the accumulator file takes effect, and marks a course. -/
def State.accPut (s : State) (g off : Nat) (bs : List Byte) : State :=
  (s.updCl g (fun c => { c with acc := f32Put c.acc off bs })).markDormer

/-- The tiles that an access touches are busy for a read or a write. -/
def State.accBusy (s : State) (g off n : Nat) (write : Bool) : Bool :=
  (List.range ((off + n - 1) / 0x1000 + 1 - off / 0x1000)).any (fun i => (s.cl g).tileConflict (off / 0x1000 + i) write)

/-- The tiles that an access touches are free of the conflicting operations issued before a serial number. -/
def Cluster.accFree (c : Cluster) (off n serial : Nat) (write : Bool) : Bool :=
  (List.range ((off + n - 1) / 0x1000 + 1 - off / 0x1000)).all (fun i => c.tileClear (off / 0x1000 + i) serial write)

/-- A read of the accumulator window that does not wait: bytes and state. -/
def State.accRead (s : State) (g off n : Nat) : List Byte × State :=
  if s.dormer 0 then (f32Bytes (s.cl g).acc off n, s)
  else (List.replicate n 0xFF#8, s.accRefused g off false)

/-- A write of the accumulator window that does not wait. -/
def State.accWrite (s : State) (g off : Nat) (bs : List Byte) : State :=
  if s.dormer 0 then s.accPut g off bs else s.accRefused g off true

/-- ACC_SEG as it reads: the segment registers of the selected element, zero outside dormer mode. -/
def State.segRead (s : State) (g t : Nat) : Word :=
  if s.dormer 0 then
    let k := t * 1024 + s.get F.ACC_SEGSEL_ELEM g
    BitVec.ofNat 64 ((Sparse.get 0#32 (s.cl g).segHi k).toNat + (Sparse.get 0#32 (s.cl g).segLo k).toNat * 2 ^ 32)
  else 0#64

/-- A write of ACC_SEG: ignored outside dormer mode. -/
def State.segWrite (s : State) (g t : Nat) (v : Word) : State :=
  if s.dormer 0 then
    let k := t * 1024 + s.get F.ACC_SEGSEL_ELEM g
    (s.updCl g (fun c => { c with
      segHi := Sparse.put 0#32 c.segHi k (BitVec.ofNat 32 v.toNat)
      segLo := Sparse.put 0#32 c.segLo k (BitVec.ofNat 32 (v.toNat / 2 ^ 32)) })).markDormer
  else s

/-! ## HALT and STEP (R163) -/

/-- A write of CC_CTRL; ignored outside dormer mode with its SCOPE bit. -/
def State.ccCtrl (s : State) (g : Nat) (v : Word) : State :=
  if s.dormer 1 then
    let h := v.toNat % 2
    let step := s.bit F.CC_STATE_HALTED g && v.toNat / 2 % 2 == 1 && h == 1
    let s := (s.set F.CC_CTRL_HALT h g).set F.CC_STATE_HALTED h g
    s.updCl g (fun c => { c with step := step })
  else s

end Sys2Proof.Machine
end

