-- ==== Sys2Proof/Machine/QueueOps.lean ====
section
/-! DEFINITION. Shared operations on the command queues: states, doorbells, arming (R333, R338, R343). -/
namespace Sys2Proof.Machine

def State.qx (s : State) (q : Nat) : QExtra := Sparse.get .init s.queues.extra q

def State.setQx (s : State) (q : Nat) (x : QExtra) : State :=
  { s with queues := { s.queues with extra := Sparse.put .init s.queues.extra q x } }

/-- `a − b` modulo 2^32. -/
def sub32 (a b : Nat) : Nat := (a + 2 ^ 32 - b % 2 ^ 32) % 2 ^ 32

/-- Entries of a queue's rings. -/
def State.sqEntries (s : State) (q : Nat) : Nat := 2 ^ s.get F.QP_QCFG_SQ_LOG2 q
def State.cqEntries (s : State) (q : Nat) : Nat := 2 ^ s.get F.QP_QCFG_CQ_LOG2 q

/-- The base addresses of a queue's rings. -/
def State.sqBase (s : State) (q : Nat) : Nat := s.get F.QP_SQBASE_BASE q * 64
def State.cqBase (s : State) (q : Nat) : Nat := s.get F.QP_CQBASE_BASE q * 64

/-- Queue states: 0 DISARMED, 1 ARMED, 2 SUSPENDED, 3 STOPPED. -/
def State.qState (s : State) (q : Nat) : Nat := s.get F.QP_QSTATE_STATE q

/-- A queue enters a state; the counts of QP_STATUS follow (R355). -/
def State.setQState (s : State) (q st : Nat) : State :=
  let d := queueDie q
  let old := s.qState q
  let adj (s : State) (f : Fld) (was is : Bool) : State :=
    s.set f (s.get f d + (if is then 1 else 0) - (if was then 1 else 0)) d
  let s := adj s F.QP_STATUS_ARMED (old == 1) (st == 1)
  let s := adj s F.QP_STATUS_SUSPENDED (decide (2 ≤ old)) (decide (2 ≤ st))
  (s.set F.QP_QSTATE_STATE st q).set F.QP_QCFG_ARM (if st = 1 then 1 else 0) q

/-- An SQ_TAIL value is valid: within the ring, and not behind the last value written (R333). -/
def State.tailOk (s : State) (q v : Nat) : Bool :=
  let head := s.get F.QP_QIDX_SQ_HEAD q
  decide (sub32 v head ≤ s.sqEntries q) && decide (sub32 (s.qx q).sqTail head ≤ sub32 v head)

/-- A CQ_HEAD value is valid: not beyond CQ_TAIL (R333). -/
def State.headOk (s : State) (q v : Nat) : Bool := decide (sub32 (s.get F.QP_QIDX_CQ_TAIL q) v < 2 ^ 31)

/-- A doorbell value acts on an ARMED queue; an invalid one is ignored, with its bit and event (R333). -/
def State.bell (s : State) (q : Nat) (head : Bool) (v : Nat) : State :=
  if head then
    if s.headOk q v then s.setQx q { s.qx q with cqHead := v }
    else (s.set F.QP_STATUS_DOORBELL_RANGE 1 (queueDie q)).raise (queueDie q) 0x0701 (plAt 16 q + plAt 20 v)
  else if s.tailOk q v then s.setQx q { s.qx q with sqTail := v }
  else (s.set F.QP_STATUS_DOORBELL_RANGE 1 (queueDie q)).raise (queueDie q) 0x0701 (plAt 16 q + plAt 20 v)

/-- A doorbell write: acts at once on an ARMED queue, and is recorded otherwise (R333). -/
def State.doorbell (s : State) (q : Nat) (head : Bool) (v : Nat) : State :=
  if s.qState q = 1 then s.bell q head v
  else if head then s.setQx q { s.qx q with recHead := some v }
  else s.setQx q { s.qx q with recTail := some v }

/-- A ring may be armed: in host memory, or mapped module memory (R338). -/
def State.ringOk (s : State) (host : Bool) (base n : Nat) : Bool := host || s.memRange base n

/-- The values a queue starts from when it is armed: an SQ_TAIL or CQ_HEAD that no longer fits the rings gives way to
SQ_HEAD and CQ_TAIL (assumption log 15). -/
def State.armIndexes (s : State) (q : Nat) : State :=
  let x := s.qx q
  let head := s.get F.QP_QIDX_SQ_HEAD q
  let tail := s.get F.QP_QIDX_CQ_TAIL q
  s.setQx q { x with
    sqTail := if sub32 x.sqTail head ≤ s.sqEntries q then x.sqTail else head
    cqHead := if sub32 tail x.cqHead ≤ s.cqEntries q then x.cqHead else tail
    recTail := none, recHead := none, rereads := 0, rereading := false }

/-- Arming (R336, R338). -/
def State.armQueue (s : State) (q : Nat) : State :=
  let n := s.get F.QP_QCFG_SQ_LOG2 q
  let m := s.get F.QP_QCFG_CQ_LOG2 q
  if 4 ≤ n ∧ n ≤ 16 ∧ 4 ≤ m ∧ m ≤ 17 ∧ s.ringOk (s.bit F.QP_QCFG_SQ_HOST q) (s.sqBase q) (64 * 2 ^ n) = true ∧
      s.ringOk (s.bit F.QP_QCFG_CQ_HOST q) (s.cqBase q) (32 * 2 ^ m) = true then
    let x := s.qx q
    let s := ((s.set F.QP_QSTATE_QEPOCH (s.get F.HIF_EPOCH_EPOCH) q).setQState q 1).armIndexes q
    let s := match x.recTail with | some v => s.bell q false v | none => s
    match x.recHead with | some v => s.bell q true v | none => s
  else s.set F.QP_STATUS_SETTING_REJECTED 1 (queueDie q)

/-- Disarming (R338). -/
def State.disarmQueue (s : State) (q : Nat) : State := s.setQState q 0

/-- The fields of QP_QCFG that a write may change while the queue is not ARMED: all but ARM and reserved bits. -/
def qcfgMask : Nat :=
  0x1F + 0x1F * 2 ^ 8 + 7 * 2 ^ 16 + 3 * 2 ^ 20 + 3 * 2 ^ 24 + 0x7FF * 2 ^ 32 + 2 ^ 43

/-- The values that QP_QCFG may take (R431). -/
def qcfgOk (v : Nat) : Bool :=
  let n := v % 32
  let m := v / 2 ^ 8 % 32
  let ver := v / 2 ^ 20 % 4
  decide (4 ≤ n ∧ n ≤ 16) && decide (4 ≤ m ∧ m ≤ 17) && decide (ver = 1 ∨ ver = 2)

/-- A write of QP_QCFG (R338): a field out of range rejects it as a whole (R431); the other fields change only while the queue is not ARMED;
then ARM arms or disarms the queue. -/
def State.writeQcfg (s : State) (q : Nat) (w : Word) : State :=
  let v := w.toNat
  let d := queueDie q
  let old := (s.rd .qpQcfg q 0).toNat
  if qcfgOk v = false then s.set F.QP_STATUS_SETTING_REJECTED 1 d
  else
    let s :=
      if s.qState q = 1 then
        if v &&& qcfgMask ≠ old &&& qcfgMask then s.set F.QP_STATUS_SETTING_REJECTED 1 d else s
      else s.wr .qpQcfg q 0 (BitVec.ofNat 64 ((v &&& qcfgMask) + old / 2 ^ 48 % 2 * 2 ^ 48))
    if v / 2 ^ 48 % 2 = 1 then s.armQueue q
    else if s.qState q = 0 then s else s.disarmQueue q

/-- A write of another queue register that is writable only while the queue is not ARMED (R338). -/
def State.writeQueueReg (s : State) (r : Reg) (q : Nat) (mask : Nat) (w : Word) : State :=
  if s.qState q = 1 then s.set F.QP_STATUS_SETTING_REJECTED 1 (queueDie q)
  else s.wr r q 0 (BitVec.ofNat 64 ((w.toNat &&& mask) ||| ((s.rd r q 0).toNat &&& (2 ^ 64 - 1 - mask))))

/-- A write of QP_QDB acts as a plain doorbell (R333, R355). -/
def State.writeQdb (s : State) (q : Nat) (w : Word) : State := s.doorbell q (w.toNat / 2 ^ 32 % 2 == 1) (w.toNat % 2 ^ 32)

end Sys2Proof.Machine
end

