-- ==== Sys2Proof/Machine/Security.lean ====
section
/-! DEFINITION. Security, firmware and settings (chapter 16): measurements, image banks, soffit messages, the settings
block, dormer unlock and attestation. -/
namespace Sys2Proof.Machine

/-! ## Measurements (R395) -/

/-- MEAS[i] as 32 bytes. -/
def State.meas (s : State) (i : Nat) : List Byte :=
  ((List.range 4).map (fun w => leBytes 8 (s.rd .secMeas 0 (4 * i + w)).toNat)).flatten

/-- MEAS[i] := SM3(MEAS[i] ‖ v). -/
def State.extend (s : State) (i : Nat) (v : List Byte) : State :=
  let h := padTo 32 (Config.sm3 (s.meas i ++ v))
  (List.range 4).foldl (fun s w => s.wr .secMeas 0 (4 * i + w) (BitVec.ofNat 64 (fieldLe h (8 * w) 8))) s

/-- All eight measurements, 256 bytes. -/
def State.allMeas (s : State) : List Byte := ((List.range 8).map s.meas).flatten

/-! ## Settings fields (Table 16.7), by offset and size -/

/-- A field of the settings that S4 loaded. -/
def State.setting (s : State) (off size : Nat) : Nat := fieldLe s.sec.live off size

/-- SEC_STATUS.CERTIFIED is assessed (R405). -/
def State.assess (s : State) : State :=
  s.set F.SEC_STATUS_CERTIFIED
    (if s.sec.certRelease && s.setting 4 1 == 1 && s.setting 5 1 == 0 && s.sec.live != [] && !s.sec.unlocked then 1 else 0)

/-! ## Dormer mode (R402, R403) -/

/-- The unrevoked root slots of a list of root hashes hold a hash. -/
def rootAdmits (root : Nat → List Byte) (n revoked : Nat) (h : List Byte) : Bool :=
  (List.range n).any (fun i => revoked / 2 ^ i % 2 == 0 && root i == h)

/-- Only zeros in a range of a byte string. -/
def zeros (bs : List Byte) (o n : Nat) : Bool := fieldLe bs o n == 0

/-- The first check of Table 16.8 that a token fails. -/
def State.tokenFails (s : State) (t : List Byte) : Option Nat :=
  let dur := fieldLe t 24 4
  if !(t.take 4 == [0x4F#8, 0x4D#8, 0x44#8, 0x54#8] && zeros t 4 4 && zeros t 29 35 && decide (60 ≤ dur) &&
      decide (dur ≤ 86400) && decide (fieldLe t 28 1 ≤ 3)) then some 1
  else if fieldLe t 8 8 ≠ (s.rd .cfgSerial 0 0).toNat then some 2
  else if fieldLe t 16 8 ≠ (s.rd .secChallenge 0 0).toNat then some 3
  else if !rootAdmits Config.dormerRoot 2 s.sec.flash.dormerRevoked (Config.sm3 ((t.drop 64).take 64)) then some 4
  else if !Config.sm2Verify ((t.drop 64).take 64) (t.take 128) ((t.drop 128).take 64) then some 5
  else if s.setting 4 1 ≠ 0 then some 6
  else none

/-- Dormer mode ends (R403). -/
def State.endDormer (s : State) : State :=
  let s := (s.set F.SEC_STATUS_DORMER 0).wr .secDormer 0 0 0#64
  { s with sec := { s.sec with dormerEnd := none } }

/-- DORMER_UNLOCK (R402, R403). -/
def execDormerUnlock (q : Fin 16384) (seq : Nat) (s : State) : Out :=
  .next (s.runCmd 0x0801 q seq (fun c s => s.needA c 16 (fun a => s.needMem c a 192 (
    let r := s.readMem .engine a 192
    let s := r.st
    let verdict := s.tokenFails r.bytes
    let p := s.draw
    let s := p.2.wr .secChallenge 0 0 p.1
    match verdict with
    | some d => (s.set F.SEC_STATUS_UNLOCK_FAIL 1).fail c stDenied d
    | none =>
      let dur := fieldLe r.bytes 24 4
      let s := (s.extend 3 (Config.sm3 r.bytes)).set F.SEC_STATUS_DORMER 1
      let s := (s.set F.SEC_DORMER_SCOPE (fieldLe r.bytes 28 1)).set F.SEC_DORMER_REMAINING_S dur
      let s := { s with sec := { s.sec with dormerEnd := some (s.now + dur * 1000000000), unlocked := true } }
      s.assess.succeed c 0))))

/-- DORMER_LOCK (R403). -/
def execDormerLock (q : Fin 16384) (seq : Nat) (s : State) : Out :=
  .next (s.runCmd 0x0802 q seq (fun c s => s.endDormer.succeed c 0))

/-- DORMER_EXPIRY (R403): DURATION seconds have passed. -/
def execDormerExpiry (s : State) : Out :=
  .next (
    match s.sec.dormerEnd with
    | some t => (s.advanceTo t).endDormer
    | none => s)

/-! ## Attestation (R404) -/

/-- Bytes 0 to 335 of a report (Table 16.9). -/
def State.report (s : State) (nonce : List Byte) : List Byte :=
  let flags := s.get F.SEC_STATUS_CERTIFIED + 2 * s.get F.SEC_STATUS_DORMER + 4 * s.get F.SEC_STATUS_BANK +
    8 * s.get F.SEC_STATUS_TRIAL
  leBytes 2 1 ++ leBytes 2 400 ++ leBytes 4 flags ++ leBytes 8 (s.rd .cfgSerial 0 0).toNat ++
  leBytes 8 (s.rd .cfgIdent 0 0).toNat ++ padTo 32 nonce ++ s.allMeas ++ leBytes 4 (s.get F.SEC_ROLLBACK_COUNTER) ++
  leBytes 4 (s.get F.SEC_ROLLBACK_SVN_RUNNING) ++ leBytes 8 (s.get F.SEC_FWDIGEST_DIGEST) ++
  leBytes 2 (s.get F.CFG_SETSTATUS_VERSION) ++ leBytes 4 (s.get F.CFG_SETSTATUS_SEQUENCE) ++ leBytes 2 0

/-- ATTEST (R404). -/
def execAttest (q : Fin 16384) (seq : Nat) (s : State) : Out :=
  .next (s.runCmd 0x0800 q seq (fun c s => s.needA c 16 (fun nonce => s.needA c 24 (fun out =>
    let cert := if c.par 32 1 % 2 = 1 then Config.certificate.take 2048 else []
    let n := 400 + cert.length
    s.needMem c nonce 32 (
      let r := s.readMem .engine nonce 32
      let rep := r.st.report r.bytes
      r.st.putOutput c out (rep ++ padTo 64 (Config.sm2Sign rep) ++ cert) (fun s => s.succeed c n))))))

/-- MEASUREMENTS (R404). -/
def execMeasurements (q : Fin 16384) (seq : Nat) (s : State) : Out :=
  .next (s.runCmd 0x0803 q seq (fun c s => s.needA c 16 (fun out =>
    s.putOutput c out s.allMeas (fun s => s.succeed c 256))))

/-! ## Settings window (R401) -/

/-- COMMIT snapshots staging (R401). -/
def State.settingsCommit (s : State) : State := s.commitFields (tableBytes s.sec.staging 0 3840)

def execSettingsCommit (s : State) : Out := .next s.settingsCommit

/-- Bytes of a settings block that a field of Table 16.7 holds, by offset from byte 256; the others are reserved (R10). -/
def settingsByte (o : Nat) : Bool := decide (o < 6) || (decide (8 ≤ o) && decide (o < 13)) || (decide (16 ≤ o) && decide (o < 24))

/-- Bytes at an offset of the settings fields with the reserved ones zero. -/
def settingsHeld (o : Nat) (bs : List Byte) : List Byte :=
  bs.zipIdx.map (fun p => if settingsByte (o + p.2) then p.1 else 0#8)

/-- Staging is loaded from fields. -/
def State.loadStaging (s : State) (fields : List Byte) : State :=
  { s with sec := { s.sec with staging := tablePut [] 0 (settingsHeld 0 fields) } }

/-- REVERT reloads staging from the block in force (R401). -/
def State.settingsRevert (s : State) : State := s.loadStaging s.sec.fields

def execSettingsRevert (s : State) : Out := .next s.settingsRevert

/-- COMMIT_DONE (R401): the last page of the block is written, and it is in force; or its verification fails. -/
def execCommitDone (ok : Bool) (s : State) : Out :=
  .next (
    match s.sec.job with
    | some (.settings f) =>
      let target := 1 - s.sec.copy
      let n := s.get F.CFG_SETSTATUS_SEQUENCE + 1
      let block := if ok then settingsBlock 3 n f else []
      let more := if s.sec.jobs.any (fun j => match j with | .settings _ => true | _ => false) then 1 else 0
      let fl := { s.sec.flash with copies := s.sec.flash.copies.set target block }
      let s := { s with sec := { s.sec with flash := fl } }.set F.CFG_SETSTATUS_PENDING more
      let s := if ok then
          let s := (s.set F.CFG_SETSTATUS_VERSION 3).set F.CFG_SETSTATUS_SEQUENCE n
          { s with sec := { s.sec with fields := f, copy := target } }
        else s.set F.CFG_SETSTATUS_COMMIT_ERROR 1
      s.jobDone
    | _ => s)

/-- Once ACTIVE names the booted bank, the rollback counter is raised to its image's SVN, and the image is confirmed
(R397). -/
def State.confirmed (s : State) : State :=
  let s := s.set F.SEC_STATUS_TRIAL 0
  let s := if s.sec.flash.counter < s.sec.svn then
      let s := { s with sec := { s.sec with flash := { s.sec.flash with counter := s.sec.svn } } }
      (s.set F.SEC_ROLLBACK_COUNTER s.sec.svn).extend 4 (leBytes 8 s.sec.svn)
    else s
  s.raise 0 0x0105 (plAt 16 (s.get F.SEC_STATUS_BANK) + plAt 20 s.sec.svn)

/-- The directory page holds the epoch and power-cycle count in use, and a confirmed bank (R370, R397). -/
def State.writeDirectory (s : State) : State :=
  let fl := { s.sec.flash with
    epoch := s.get F.JFL_EPOCH_EPOCH, pwrcyc := s.get F.GUT_TIME_PWRCYC
    active := if s.sec.confirm then s.get F.SEC_STATUS_BANK else s.sec.flash.active }
  let t : State := { s with sec := { s.sec with flash := fl, confirm := false } }
  if s.sec.confirm then t.confirmed else t

/-- FLASH_PAGE_DONE (R385, R386): a page program or an erase completes; a suspended erase does not while NV writes are
inhibited. A reset that waited for it follows. -/
def execFlashPageDone (s : State) : Out :=
  .next (
    let resume (s : State) : State :=
      match s.start.request with
      | some cause => s.powerOnReset cause 0
      | none => s
    match s.sec.job with
    | none => s
    | some (.settings _) => resume s
    | some .directory => resume s.writeDirectory.jobDone
    | some .page => resume s.jobDone
    | some .erase => if s.nvInhibit then s else resume s.jobDone)

/-! ## Firmware banks (R393, R394) -/

/-- Bytes of a bank. -/
def State.bankBytes (s : State) (b o n : Nat) : List Byte :=
  (List.range n).map (fun i => Sparse.get 0xFF#8 s.sec.flash.banks (b * 2 ^ 27 + o + i))

/-- The 512-byte header of a bank. -/
def State.header (s : State) (b : Nat) : List Byte := s.bankBytes b 0 512

/-- Step 1 of R394: the fixed values of Table 16.3 and BODY_LEN. -/
def headerOk (h : List Byte) : Bool :=
  h.take 4 == [0x4F#8, 0x4D#8, 0x46#8, 0x57#8] && fieldLe h 4 2 == 1 && fieldLe h 6 2 == 0xA8 && fieldLe h 8 1 == 0xB0 &&
  fieldLe h 24 4 % 16 == 0 && decide (fieldLe h 24 4 ≤ 0x7FFFE00)

/-- The first step of R394 that a bank fails. -/
@[irreducible] def State.bankFails (s : State) (b : Nat) : Option Nat :=
  let h := s.header b
  let cipher := s.bankBytes b 512 (fieldLe h 24 4)
  let pub := (h.drop 320).take 64
  if !headerOk h then some 1
  else if !rootAdmits Config.imageRoot 4 s.sec.flash.imageRevoked (Config.sm3 pub) then some 2
  else if !Config.sm2Verify pub (h.take 384 ++ cipher) ((h.drop 384).take 64) then some 3
  else if fieldLe h 12 4 < s.sec.flash.counter ∨ 64 < fieldLe h 12 4 then some 4
  else match Config.sm2Unwrap ((h.drop 80).take 113) with
    | none => some 5
    | some key =>
      if Config.sm3 (Config.sm4Ctr key ((h.drop 64).take 16) cipher) == (h.drop 32).take 32 then none else some 6

/-! ## Soffit service (R398, R399) -/

/-- A soffit message: one whose CRC fails is discarded without reply. -/
def State.onSoffit (s : State) (crcOk : Bool) (f : State → State) : State :=
  if crcOk && s.soffitUp then f s else s

/-- STATUS. -/
def execStatus (crcOk : Bool) (s : State) : Out :=
  .next (s.onSoffit crcOk (fun s => s.send (.soffit 0 (leBytes 8 (s.rd .secStatus 0 0).toNat ++
    leBytes 8 (s.rd .secRollback 0 0).toNat ++ leBytes 8 (s.rd .secFwver 0 0).toNat ++ leBytes 8 (s.rd .cfgSerial 0 0).toNat))))

/-- The image that runs: none before S3 and in recovery. -/
def State.booted (s : State) : Bool := decide (3 ≤ s.start.stage) && s.start.stage != 9

/-- The bank that intake writes: the one that is not booted; in recovery, the one that a trial would verify. -/
def State.intakeBank (s : State) : Nat :=
  1 - (if s.booted then s.get F.SEC_STATUS_BANK else s.sec.flash.active)

/-- SVN_OTHER follows the header of the bank that is not booted (R406). -/
def State.noteOther (s : State) : State :=
  if s.booted then
    let o := s.header (1 - s.get F.SEC_STATUS_BANK)
    s.set F.SEC_ROLLBACK_SVN_OTHER (if headerOk o then fieldLe o 12 4 else 0xFF)
  else s

/-- INTAKE_BEGIN: while NV writes are inhibited the erase waits (R385, R399). -/
def execIntakeBegin (crcOk uart : Bool) (s : State) : Out :=
  .next (s.onSoffit crcOk (fun s =>
    if s.sec.intake.busy || s.sec.flash.trial || s.bit F.SEC_STATUS_TRIAL ||
        (uart && s.sec.live != [] && s.setting 5 1 == 0) then s.send (.soffit 1 [])
    else if s.nvInhibit then s
    else
      let b := s.intakeBank
      let fl := { s.sec.flash with banks := s.sec.flash.banks.filter (fun p => p.1 / 2 ^ 27 != b) }
      let s := { s with sec := { s.sec with flash := fl, intake := ⟨b, 0, true, s.sec.intake.done⟩ } }
      (s.noteOther.set F.SEC_STATUS_INTAKE_BUSY 1).send (.soffit 0 [])))

/-- INTAKE_DATA: while NV writes are inhibited the write, and with it the answer, waits (R399). -/
def execIntakeData (crcOk : Bool) (off : Nat) (bytes : List Byte) (s : State) : Out :=
  .next (s.onSoffit crcOk (fun s =>
    let i := s.sec.intake
    if !i.busy || off != i.next || decide (65536 < bytes.length) || decide (2 ^ 27 < off + bytes.length) then
      s.send (.soffit 1 [])
    else if s.nvInhibit then s
    else
      let put := (List.range bytes.length).foldl (fun m k =>
        Sparse.put 0xFF#8 m (i.bank * 2 ^ 27 + off + k) (bytes.getD k 0xFF#8)) s.sec.flash.banks
      let s := { s with sec := { s.sec with
        flash := { s.sec.flash with banks := put }, intake := { i with next := off + bytes.length } } }
      s.noteOther.send (.soffit 0 [])))

/-- INTAKE_END: step 1 of R394 and the total length. -/
def execIntakeEnd (crcOk : Bool) (s : State) : Out :=
  .next (s.onSoffit crcOk (fun s =>
    let i := s.sec.intake
    if !i.busy then s.send (.soffit 1 [])
    else
      let h := s.header i.bank
      let ok := headerOk h && i.next == 512 + fieldLe h 24 4
      let s := { s with sec := { s.sec with intake := { i with busy := false, done := i.done || ok } } }
      ((s.set F.SEC_STATUS_INTAKE_BUSY 0).set (if ok then F.SEC_STATUS_INTAKE_DONE else F.SEC_STATUS_INTAKE_ERROR) 1).send
        (.soffit (if ok then 0 else 2) [])))

/-- ACTIVATE: TRIAL is set in flash, which waits while NV writes are inhibited (R385), and a module reset of cause 7 starts. -/
def execActivate (crcOk force : Bool) (s : State) : Out :=
  .next (s.onSoffit crcOk (fun s =>
    if !s.sec.intake.done || (s.courseLive && !force) then s.send (.soffit 1 [])
    else if s.nvInhibit then s
    else
      let s := { s with sec := { s.sec with flash := { s.sec.flash with trial := true } } }
      (s.send (.soffit 0 [])).moduleReset 7))

/-- RESET: a module reset of cause 5 starts. -/
def execReset (crcOk : Bool) (s : State) : Out :=
  .next (s.onSoffit crcOk (fun s => (s.send (.soffit 0 [])).moduleReset 5))

end Sys2Proof.Machine
end

