-- ==== Sys2Proof/Machine/Access.lean ====
section
/-! DEFINITION. Access to the local address space: the register maps of the blocks, register reads and writes by access
type, and reads and writes of memory, windows and holes by their source (R7 to R10, R13, R15 to R20, R431). -/
namespace Sys2Proof.Machine

/-! ## Register maps (Tables 1.5 and 1.6) -/

/-- A row of a block's register map: offset, number of indexes and their step, number of sets and their pitch. -/
structure MapRow where
  reg : Reg
  off : Nat
  n : Nat
  step : Nat
  sets : Nat
  pitch : Nat

def one (r : Reg) (off : Nat) : MapRow := ⟨r, off, 1, 0, 1, 0⟩

/-- The set and index that a row gives an offset. -/
def MapRow.hit (m : MapRow) (o : Nat) : Option (Nat × Nat) :=
  if o < m.off then none
  else
    let d := o - m.off
    let set := if m.pitch = 0 then 0 else d / m.pitch
    let rest := if m.pitch = 0 then d else d % m.pitch
    let i := if m.step = 0 then 0 else rest / m.step
    let left := if m.step = 0 then rest else rest % m.step
    if left = 0 ∧ i < m.n ∧ set < m.sets then some (set, i) else none

def cluMap : List MapRow := [
  one .ccCtrl 0x0, one .ccState 0x8, one .ccFault 0x10, one .ccFaddr 0x18, one .ccRetired 0x20,
  one .vecStatus 0x1000, one .dmaStatus 0x2000, one .dmaBytes 0x2008, one .audCtrl 0x3000, one .audCnt 0x3008,
  one .audExt 0x3010, one .audLast 0x3018, one .accCtrl 0x4000, one .accStatus 0x4008, one .accHazcnt 0x4010,
  one .accLsum 0x4018, ⟨.accTstat, 0x4100, 32, 8, 1, 0x0⟩, ⟨.accSeg, 0x4200, 32, 8, 1, 0x0⟩, one .accSegsel 0x4300]

def qpMap : List MapRow := [
  one .qpFwver 0x0, one .qpStatus 0x8, one .qpPackets 0x10, ⟨.qpSqbase, 0x10000, 1, 0, 2048, 0x40⟩,
  ⟨.qpCqbase, 0x10008, 1, 0, 2048, 0x40⟩, ⟨.qpQcfg, 0x10010, 1, 0, 2048, 0x40⟩,
  ⟨.qpQstate, 0x10018, 1, 0, 2048, 0x40⟩, ⟨.qpQseq, 0x10020, 1, 0, 2048, 0x40⟩, ⟨.qpQdb, 0x10028, 1, 0, 2048, 0x40⟩,
  ⟨.qpQerr, 0x10030, 1, 0, 2048, 0x40⟩, ⟨.qpQidx, 0x10038, 1, 0, 2048, 0x40⟩, ⟨.qpQcnt, 0x40000, 8, 8, 2048, 0x40⟩]

def ylmMap : List MapRow := [
  one .ylmCtrl 0x0, one .ylmStatus 0x8, one .ylmOutstanding 0x10, one .ylmStageBase 0x18, one .ylmEaves 0x20,
  one .ylmIndices 0x28, one .ylmFetches 0x30, one .ylmEavesCnt 0x38, one .ylmDedupCnt 0x40, one .ylmStageCnt 0x48,
  one .ylmBagCnt 0x50, one .ylmAdds 0x58, one .ylmMoeCnt 0x60, one .ylmRemoteCnt 0x68]

def updMap : List MapRow := [
  ⟨.updUctrl, 0x0, 1, 0, 3, 0x100⟩, ⟨.updDeltaBase, 0x8, 1, 0, 3, 0x100⟩, ⟨.updDeltaCfg, 0x10, 1, 0, 3, 0x100⟩,
  ⟨.updSpillBase, 0x18, 1, 0, 3, 0x100⟩, ⟨.updSpillCfg, 0x20, 1, 0, 3, 0x100⟩, ⟨.updOcc, 0x28, 1, 0, 3, 0x100⟩,
  ⟨.updStatus, 0x30, 1, 0, 3, 0x100⟩, ⟨.updAdds, 0x38, 1, 0, 3, 0x100⟩, ⟨.updFoldcnt, 0x40, 1, 0, 3, 0x100⟩,
  ⟨.updHeadcnt, 0x48, 1, 0, 3, 0x100⟩, one .updBindBase 0x400, one .updProgValid 0x408]

def memMap : List MapRow := [
  ⟨.memCtrl, 0x0, 1, 0, 2, 0x10000⟩, ⟨.memStatus, 0x8, 1, 0, 2, 0x10000⟩, ⟨.memCecnt, 0x10, 1, 0, 2, 0x10000⟩,
  ⟨.memUecnt, 0x18, 1, 0, 2, 0x10000⟩, ⟨.memErraddr, 0x20, 1, 0, 2, 0x10000⟩, ⟨.memErrinfo, 0x28, 1, 0, 2, 0x10000⟩,
  ⟨.memCal, 0x30, 1, 0, 2, 0x10000⟩, ⟨.memScrub, 0x38, 1, 0, 2, 0x10000⟩, ⟨.memCh, 0x100, 128, 8, 2, 0x10000⟩]

def blkMap : List MapRow := [
  one .blkCtrl 0x0, one .memStatus 0x8, one .memCecnt 0x10, one .memUecnt 0x18, one .memErraddr 0x20,
  one .blkErrinfo 0x28, one .memCal 0x30, one .memScrub 0x38, one .blkRefrate 0x40, ⟨.blkCh, 0x100, 16, 8, 1, 0x0⟩]

def jflMap : List MapRow := [
  ⟨.jflPctrl, 0x0, 1, 0, 4, 0x100⟩, ⟨.jflPstatus, 0x8, 1, 0, 4, 0x100⟩, ⟨.jflPerr, 0x10, 1, 0, 4, 0x100⟩,
  ⟨.jflPtx, 0x18, 1, 0, 4, 0x100⟩, ⟨.jflPrx, 0x20, 1, 0, 4, 0x100⟩, one .jflCfg 0x1000, one .jflStatus 0x1008,
  one .jflCnt 0x1010, one .jflDupcnt 0x1018, one .jflEpoch 0x1020, one .jflSyncRtt 0x1028,
  ⟨.jflLevel, 0x1040, 3, 8, 1, 0x0⟩, ⟨.jflLost, 0x1100, 32, 8, 1, 0x0⟩]

def tbnMap : List MapRow := [
  one .tbnTime 0x0, one .tbnBatten 0x8, one .tbnNextTick 0x10, one .tbnInterval 0x18, one .tbnSlots 0x20,
  one .tbnOvr 0x28, one .tbnSync 0x30, one .tbnOffset 0x38, one .tbnCourse 0x40, one .tbnCstate 0x48,
  one .tbnOvrcnt 0x50, one .tbnStagger 0x58, one .tbnBarcnt 0x60, one .tbnStatus 0x68,
  ⟨.tbnStq, 0x100, 512, 8, 1, 0x0⟩]

def ldgMap : List MapRow := [
  one .ldgCtrl 0x0, one .ldgDkey 0x8, one .ldgRingBase 0x10, one .ldgRingCfg 0x18, one .ldgDetailBase 0x20,
  one .ldgDetailCfg 0x28, one .ldgBattenBase 0x30, one .ldgBattenCfg 0x38, one .ldgHead 0x40, one .ldgDhead 0x48,
  one .ldgBhead 0x50, one .ldgExport 0x58, one .ldgExportAddr 0x60, one .ldgExportRkey 0x68, one .ldgCmp 0x70,
  one .ldgCmpPeers 0x78, one .ldgStatus 0x80, one .ldgCnt 0x88, ⟨.ldgDen, 0x100, 96, 8, 1, 0x0⟩,
  ⟨.ldgCmpen, 0x400, 96, 8, 1, 0x0⟩, ⟨.ldgDinv, 0x700, 96, 8, 1, 0x0⟩, ⟨.ldgDigest, 0x10000, 6144, 8, 1, 0x0⟩]

def pwrMap : List MapRow := [
  one .pwrCtrl 0x0, one .pwrCap 0x8, one .pwrState 0x10, one .pwrTemp 0x18, one .pwrSupply 0x20, one .pwrInput 0x28,
  one .pwrStatus 0x30, one .pwrCnt 0x38, one .pwrDroopcnt 0x40, one .pwrEnergy 0x48, one .pwrIdle 0x50,
  ⟨.pwrCoef, 0x100, 16, 8, 1, 0x0⟩, ⟨.pwrPolicy, 0x1000, 16, 8, 1, 0x0⟩]

def gutMap : List MapRow := [
  one .gutCtrl 0x0, one .gutStatus 0x8, one .gutHead 0x10, one .gutDrop 0x18, one .gutSuppress 0x20,
  one .gutHeld 0x28, one .gutTime 0x30, one .gutNv 0x38]

def secMap : List MapRow := [
  one .secStatus 0x0, one .secRollback 0x8, one .secFwver 0x10, one .secFwdigest 0x18, one .secChallenge 0x20,
  one .secDormer 0x28, ⟨.secMeas, 0x100, 32, 8, 1, 0x0⟩]

def hifMap : List MapRow := [
  one .hifLink 0x0, one .hifCtrl 0x8, one .hifEpoch 0x10, one .hifStatus 0x18, one .hifDropcnt 0x20,
  one .hifErrcnt 0x28, one .hifFence 0x30, one .hifBiasCnt 0x38]

def ethMap : List MapRow := [
  one .ethCtrl 0x0, one .ethStatus 0x8, one .ethMac 0x10, one .ethIp4 0x18, one .ethIp6Hi 0x20, one .ethIp6Lo 0x28,
  one .ethQpBase 0x30, one .ethMrBase 0x38, one .ethRxbytes 0x40, one .ethTxbytes 0x48, one .ethErrcnt 0x50,
  one .ethCong 0x58]

def cfgMap : List MapRow := [
  one .cfgIdent 0x0, one .cfgDie 0x8, one .cfgBondout 0x10, one .cfgDevnum 0x18, one .cfgMemstate 0x20,
  one .cfgSerial 0x28, one .cfgSetctrl 0x1000, one .cfgSetstatus 0x1008]

/-- The map of a block by its place in the die window: 128 + k for the block at 0x8_0000_0000 + k × 256 MiB. -/
def blockMap (b : Nat) : List MapRow :=
  match b with
  | 128 => qpMap
  | 129 => ylmMap
  | 130 => updMap
  | 131 => memMap
  | 132 => blkMap
  | 133 => jflMap
  | 134 => tbnMap
  | 135 => ldgMap
  | 136 => pwrMap
  | 137 => gutMap
  | 138 => secMap
  | 139 => hifMap
  | 140 => ethMap
  | 144 => cfgMap
  | _ => []

/-- The instance of a register that a set of a die's block names: mirrored and module registers have one, number 0. -/
def instOf (r : Reg) (die set : Nat) : Nat :=
  match r with
  | .cfgDie | .cfgBondout | .tbnOvrcnt | .tbnBarcnt | .tbnStatus | .tbnStq | .qpFwver | .qpStatus | .qpPackets
  | .ylmCtrl | .ylmStatus | .ylmOutstanding | .ylmStageBase | .ylmEaves | .ylmIndices | .ylmFetches | .ylmEavesCnt
  | .ylmDedupCnt | .ylmStageCnt | .ylmBagCnt | .ylmAdds | .ylmMoeCnt | .ylmRemoteCnt
  | .blkCtrl | .blkErrinfo | .blkRefrate | .blkCh | .pwrCtrl | .pwrState | .pwrTemp | .pwrStatus | .pwrCnt
  | .pwrDroopcnt | .pwrEnergy | .pwrIdle | .pwrCoef | .gutStatus | .gutHead | .gutDrop | .gutSuppress | .gutHeld => die
  | .qpSqbase | .qpCqbase | .qpQcfg | .qpQstate | .qpQseq | .qpQdb | .qpQerr | .qpQidx | .qpQcnt => die * 2048 + set
  | .updUctrl | .updDeltaBase | .updDeltaCfg | .updSpillBase | .updSpillCfg | .updOcc | .updStatus | .updAdds
  | .updFoldcnt | .updHeadcnt => 3 * die + set
  | .memCtrl | .memErrinfo | .memCh | .memStatus | .memCecnt | .memUecnt | .memErraddr | .memCal | .memScrub =>
    2 * die + set
  | .jflPctrl | .jflPstatus | .jflPerr | .jflPtx | .jflPrx => 4 * die + set
  | .ethCtrl | .ethStatus | .ethMac | .ethIp4 | .ethIp6Hi | .ethIp6Lo | .ethQpBase | .ethMrBase | .ethRxbytes
  | .ethTxbytes | .ethErrcnt | .ethCong => die / 4
  | _ => 0

/-- A register instance. -/
structure RegId where
  reg : Reg
  inst : Nat
  idx : Nat
  deriving DecidableEq, Repr

/-- The die of the module-wide part of a block (R13): HIF, SEC and the settings window on die 0, ETH on dies 0 and 4,
GUT_NV on die 0 (R419). -/
def regOnDie (r : Reg) (b die : Nat) : Bool :=
  if b = 138 ∨ b = 139 then die == 0
  else if b = 140 then die == 0 || die == 4
  else match r with
    | .cfgSetctrl | .cfgSetstatus | .gutNv => die == 0
    | _ => true

/-- The register at an offset of a block of a die; none for a reserved offset. -/
def regAt (b die o : Nat) : Option RegId :=
  (blockMap b).findSome? (fun m =>
    match m.hit o with
    | none => none
    | some p =>
      if regOnDie m.reg b die then
        let inst := if b = 132 then (match m.reg with
          | .memStatus | .memCecnt | .memUecnt | .memErraddr | .memCal | .memScrub => 16 + die
          | r => instOf r die p.1) else instOf m.reg die p.1
        some ⟨m.reg, inst, p.2⟩
      else none)

/-- The register at an offset of a cluster's control window. -/
def clusterRegAt (g o : Nat) : Option RegId :=
  cluMap.findSome? (fun m => match m.hit o with | some p => some ⟨m.reg, g, p.2⟩ | none => none)

/-! ## Where an address of a die window leads -/

/-- What lies at an address of a die window. -/
inductive Place
  /-- memory ranges of a cluster window, by offset in the range -/
  | lb (g off : Nat)
  | acc (g off : Nat)
  | vbuf (g off : Nat)
  | pm (g off : Nat)
  /-- read-only memory ranges: update programs, RAM ring of a die's slice, copy of the filter table -/
  | prog (off : Nat)
  | ring (die off : Nat)
  | filter (off : Nat)
  /-- register space: a scalar register, a register, a word of staging, a word of the bias table -/
  | scalar (g n : Nat)
  | reg (r : RegId)
  | staging (off : Nat)
  | bias (w : Nat)
  /-- register space with no register there, and offsets that belong to nothing -/
  | reserved
  | nothing
  deriving DecidableEq, Repr

/-- The place of an address in a die window (R17, R18, Tables 1.5 and 1.6). Register space is looked up by its
8-byte unit. -/
def placeOf (die off : Nat) : Place :=
  let b := off / 0x1000_0000
  let o := off % 0x1000_0000
  let w := o / 8 * 8
  if b < 128 then
    let g := die * 128 + b
    if o < 0x20_0000 then .lb g o
    else if 0x40_0000 ≤ o ∧ o < 0x42_0000 then .acc g (o - 0x40_0000)
    else if 0x60_0000 ≤ o ∧ o < 0x60_4000 then .vbuf g (o - 0x60_0000)
    else if 0x70_0000 ≤ o ∧ o < 0x70_0200 then .scalar g ((o - 0x70_0000) / 8)
    else if 0x80_0000 ≤ o ∧ o < 0x81_0000 then
      match clusterRegAt g (w - 0x80_0000) with | some r => .reg r | none => .reserved
    else if 0x100_0000 ≤ o ∧ o < 0x104_0000 then .pm g (o - 0x100_0000)
    else .nothing
  else if b = 130 ∧ 0x1_0000 ≤ o ∧ o < 0x1_8000 then .prog (o - 0x1_0000)
  else if b = 137 ∧ 0x10_0000 ≤ o ∧ o < 0x20_0000 then .ring die (o - 0x10_0000)
  else if b = 137 ∧ 0x1000 ≤ o ∧ o < 0x1800 then .filter (o - 0x1000)
  else if b = 144 ∧ 0x1100 ≤ o ∧ o < 0x2000 then (if die = 0 then .staging (w - 0x1100) else .reserved)
  else if b = 139 ∧ 0x100_0000 ≤ o ∧ o < 0x106_0000 then (if die = 0 then .bias ((o - 0x100_0000) / 8) else .reserved)
  else if b ≤ 140 ∨ b = 144 then
    match regAt b die w with | some r => .reg r | none => .reserved
  else .nothing

/-- Edges of the ranges of Tables 1.5 and 1.6 within a block of a die window. -/
def placeEdges (b : Nat) : List Nat :=
  if b < 128 then
    [0x20_0000, 0x40_0000, 0x42_0000, 0x60_0000, 0x60_4000, 0x70_0000, 0x70_0200, 0x80_0000, 0x81_0000, 0x100_0000, 0x104_0000]
  else if b = 130 then [0x1_0000, 0x1_8000]
  else if b = 137 then [0x1000, 0x1800, 0x10_0000, 0x20_0000]
  else if b = 139 then [0x100_0000, 0x106_0000]
  else []

/-- Bytes from an offset of a die window to the end of the range that holds it. -/
def placeRoom (off : Nat) : Nat :=
  let o := off % 0x1000_0000
  (((placeEdges (off / 0x1000_0000)).find? (fun e => decide (o < e))).getD 0x1000_0000) - o

/-- The pieces of a range of the die windows within one range of Tables 1.5 and 1.6 each, as (address, length). -/
def windowPieces : Nat → Nat → Nat → List (Nat × Nat)
  | 0, _, _ => []
  | k + 1, a, n =>
    if n = 0 then []
    else
      let m := min n (placeRoom ((a - winBase) % winSize))
      (a, m) :: windowPieces k (a + m) (n - m)

/-- Register space, which takes naturally aligned 8-byte accesses only (R7). -/
def Place.register : Place → Bool
  | .scalar _ _ | .reg _ | .staging _ | .bias _ | .reserved => true
  | _ => false

/-- The cluster whose accumulator file an address names. -/
def Place.isAcc : Place → Bool
  | .acc _ _ => true
  | _ => false

/-! ## Reading a register (R8) -/

/-- The fields of a register that a read clears. -/
def rcMask (r : Reg) : Nat := ((r.fields.filter (fun f => f.acc == .rc)).map (fun f => (2 ^ f.wid - 1) * 2 ^ f.lo)).sum

/-- The fields that a read shows: all but write-only ones. -/
def shownMask (r : Reg) : Nat := ((r.fields.filter (fun f => f.acc != .wo)).map (fun f => (2 ^ f.wid - 1) * 2 ^ f.lo)).sum

/-- A register's word with its RC fields cleared; the largest CURRENT since then begins at the present one (R213). -/
def State.clearRc (s : State) (r : RegId) : State :=
  if rcMask r.reg = 0 then s
  else
    let t := s.wr r.reg r.inst r.idx (BitVec.ofNat 64 ((s.rd r.reg r.inst r.idx).toNat &&& (2 ^ 64 - 1 - rcMask r.reg)))
    if r.reg = .ylmOutstanding then t.set F.YLM_OUTSTANDING_PEAK (t.get F.YLM_OUTSTANDING_CURRENT r.inst) r.inst else t

/-- A region's digest and its LDG_DINV bit read zero on dies that do not own it (R324). -/
def regionDie (r : Nat) : Nat := ownerDie (r * 2 ^ 30)

/-- The bits of a word of region bits whose regions a die owns. -/
def regionMask (die w : Nat) : Nat :=
  (List.range 64).foldl (fun m b => if regionDie (64 * w + b) = die then m + 2 ^ b else m) 0

/-- The value that a read of a register on a die returns. BLK_SCRUB.POINTER has 26 bits where MEM_SCRUB's has 24 (R265,
R266). -/
def State.regValue (s : State) (die : Nat) (r : RegId) : Word :=
  let w := s.rd r.reg r.inst r.idx
  match r.reg with
  | .accSeg => s.segRead r.inst r.idx
  | .ldgDigest => if regionDie r.idx = die then w else 0#64
  | .ldgDinv => BitVec.ofNat 64 (w.toNat &&& regionMask die r.idx)
  | .gutCtrl => if die = 0 then w else BitVec.ofNat 64 (w.toNat % 2)
  | .secDormer =>
    let left := match s.sec.dormerEnd with | some t => (t - s.now) / 1000000000 | none => 0
    fset 0 32 w left
  | .qpFwver => if s.start.stage = 8 then w else 0#64
  | .memScrub => BitVec.ofNat 64 (w.toNat &&& (shownMask .memScrub ||| (if 16 ≤ r.inst then 2 ^ 26 - 1 else 0)))
  | reg => BitVec.ofNat 64 (w.toNat &&& shownMask reg)

/-! ## Writing a register (R8, R431) -/

/-- A word with its writable fields set and its W1C bits cleared by a write; none when a field leaves its range. -/
def applyWrite (r : Reg) (old v : Nat) : Option Nat :=
  r.fields.foldl (fun acc f =>
    match acc with
    | none => none
    | some w =>
      let x := v / 2 ^ f.lo % 2 ^ f.wid
      let put (n : Nat) : Nat := (fset f.lo f.wid (BitVec.ofNat 64 w) n).toNat
      match f.acc with
      | .rw => if f.least ≤ x ∧ x ≤ f.most then some (put x) else none
      | .w1c => some (put ((w / 2 ^ f.lo % 2 ^ f.wid) &&& (2 ^ f.wid - 1 - x)))
      | _ => some w) (some old)

/-- The state with a register written by the access types of its fields, `rej` where a field leaves its range. -/
def State.plainWrite (s : State) (r : RegId) (v : Word) (rej : State → State) : State :=
  match applyWrite r.reg (s.rd r.reg r.inst r.idx).toNat v.toNat with
  | some w => s.wr r.reg r.inst r.idx (BitVec.ofNat 64 w)
  | none => rej s

/-- A plain write under a condition; otherwise it is ignored and rejected. -/
def State.writeIf (s : State) (c : Bool) (r : RegId) (v : Word) (rej : State → State) : State :=
  if c then s.plainWrite r v rej else rej s

/-! ### Timebase settings (R29 to R31, R54) -/

/-- The number of a timebase setting: 0 TBN_INTERVAL, 1 TBN_SLOTS, 2 TBN_OVR, 3 TBN_SYNC, 4 TBN_STAGGER. -/
def settingReg (k : Nat) : Reg :=
  match k with
  | 0 => .tbnInterval
  | 1 => .tbnSlots
  | 2 => .tbnOvr
  | 3 => .tbnSync
  | _ => .tbnStagger

/-- The value that a setting takes at the next tick. -/
def State.settingNext (s : State) (k : Nat) : Word :=
  match Sparse.get none s.frame.pend k with
  | some w => w
  | none => s.rd (settingReg k) 0 0

/-- Length of the work slot in tb for an interval and slot word (R31, Table 2.1). -/
def workLen (us : Nat) (slots : Word) : Int :=
  (1000 * us : Nat) - ((max (fget 0 8 slots * us) 2500 + max (fget 8 8 slots * us) 1000 + max (fget 16 8 slots * us) 2000 : Nat) : Int)

/-- A setting keeps the work slot at half the interval or more (R31). -/
def State.halfKept (s : State) (k : Nat) (w : Word) : Bool :=
  let iv := fget 0 15 (if k = 0 then w else s.settingNext 0)
  let sl := if k = 1 then w else s.settingNext 1
  decide (2 ≤ k) || decide ((1000 * iv : Nat) ≤ 2 * workLen iv sl)

/-- The event of an ignored write of a timebase setting. -/
def State.tbnRejected (s : State) (die k : Nat) (event : Bool) : State :=
  let s := s.set F.TBN_STATUS_SETTING_REJECTED 1 die
  let off := match k with | 0 => 0x18 | 1 => 0x20 | 2 => 0x28 | 3 => 0x30 | _ => 0x58
  if event then s.raise die 0x0203 (plAt 16 (winBase + die * winSize + 0x8_6000_0000 + off)) else s

/-- A write of a timebase setting: on die 0, TBN_STAGGER in any state and the others in IDLE; on a follower the first
three are mirrors. An accepted value waits for the next tick. -/
def State.writeSetting (s : State) (die k : Nat) (v : Word) : State :=
  if die ≠ 0 then s.tbnRejected die k true
  else if k ≤ 2 ∧ s.get F.TBN_SYNC_ROLE = 2 then s
  else if k ≤ 3 ∧ s.cstate ≠ 0 then s.tbnRejected die k true
  else
    let r := settingReg k
    match applyWrite r (s.settingNext k).toNat v.toNat with
    | none => s.tbnRejected die k false
    | some w =>
      let w := BitVec.ofNat 64 w
      if s.halfKept k w then { s with frame := { s.frame with pend := Sparse.put none s.frame.pend k (some w) } }
      else s.tbnRejected die k true

/-! ### Digests and ledger (R305, R314, R324) -/

/-- Scans of regions start (R305): their DINV bits are set and their digests read zero until the scan ends. -/
def State.startScans (s : State) (rs : List Nat) : State :=
  let s := rs.foldl (fun s r => (s.setRegBit .ldgDinv r true).wr .ldgDigest 0 r 0#64) s
  let l := s.replay.scans ++ rs.filter (fun r => !s.replay.scans.contains r)
  ({ s with replay := { s.replay with scans := l } }).set F.LDG_STATUS_BUILDING (if l = [] then 0 else 1)

/-- The regions that are digest-enabled, ascending. -/
def State.enabledRegions (s : State) : List Nat :=
  ((List.range 96).map (fun w =>
    let x := (s.rd .ldgDen 0 w).toNat
    if x = 0 then [] else (List.range 64).filterMap (fun b => if x / 2 ^ b % 2 = 1 then some (64 * w + b) else none))).flatten

/-- A write of LDG_DKEY on die 0 in IDLE: every enabled region is scanned again. -/
def State.writeDkey (s : State) (v : Word) : State :=
  if s.cstate = 0 then (s.wr .ldgDkey 0 0 v).startScans s.enabledRegions
  else s.set F.LDG_STATUS_SETTING_REJECTED 1

/-- What a ledger register may be set to, beyond the ranges of its fields (R324). -/
def State.ledgerOk (s : State) (r : Reg) (w : Nat) : Bool :=
  let v := BitVec.ofNat 64 w
  match r with
  | .ldgRingCfg => decide (16 ≤ fget 0 24 v) || (fget 0 24 v == 0 && !s.bit F.LDG_CTRL_EN)
  | .ldgDetailCfg | .ldgBattenCfg => decide (1 ≤ fget 0 24 v) || !s.bit F.LDG_CTRL_EN
  | .ldgCtrl =>
    (fget 0 1 v == 0 || (decide (16 ≤ s.get F.LDG_RING_CFG_SIZE) && decide (1 ≤ s.get F.LDG_DETAIL_CFG_SIZE) &&
      decide (1 ≤ s.get F.LDG_BATTEN_CFG_SIZE))) &&
    (fget 1 1 v == 0 || decide (2 ≤ s.get F.LDG_CMP_NREPL))
  | .ldgExport => fget 0 2 v == 0 || decide (1 ≤ fget 16 24 v)
  | .ldgExportAddr => w % 1024 == 0 && (s.get F.LDG_EXPORT_MODE != 1 || decide (w < 2 ^ 54))
  | .ldgCmp => decide (fget 0 7 v ≤ 64) && (!s.bit F.LDG_CTRL_CMP_EN || decide (2 ≤ fget 0 7 v)) &&
    (decide (fget 8 6 v < fget 0 7 v) || w == 0)
  | _ => true

/-- A ring of the ledger is set: the records written since, and the next offsets, start at zero (R317). -/
def State.ringSet (s : State) (r : Reg) : State :=
  match r with
  | .ldgRingBase | .ldgRingCfg =>
    { s.set F.LDG_HEAD_RECORDS 0 with replay := { s.replay with unexported := [], backlog := [] } }
  | .ldgDetailBase | .ldgDetailCfg => s.set F.LDG_DHEAD_OFFSET 0
  | .ldgBattenBase | .ldgBattenCfg => s.set F.LDG_BHEAD_OFFSET 0
  | _ => s

/-- A write of a ledger setting (R324): in IDLE, within its ranges. -/
def State.writeLedger (s : State) (r : RegId) (v : Word) : State :=
  let rej (s : State) : State := s.set F.LDG_STATUS_SETTING_REJECTED 1
  match applyWrite r.reg (s.rd r.reg r.inst r.idx).toNat v.toNat with
  | some w =>
    if s.cstate = 0 && s.ledgerOk r.reg w then (s.wr r.reg r.inst r.idx (BitVec.ofNat 64 w)).ringSet r.reg else rej s
  | none => rej s

/-! ### Other blocks -/

/-- A write of MEM_CTRL or BLK_CTRL waits for the next tick (R265, R266). -/
def State.writeMemCtrl (s : State) (ctl : Nat) (r : RegId) (v : Word) : State :=
  let old := match Sparse.get none s.mc.ctrlPend ctl with | some w => w | none => s.rd r.reg r.inst 0
  match applyWrite r.reg old.toNat v.toNat with
  | some w => { s with mc := { s.mc with ctrlPend := Sparse.put none s.mc.ctrlPend ctl (some (BitVec.ofNat 64 w)) } }
  | none => s.set F.MEM_STATUS_SETTING_REJECTED 1 ctl

/-- A write of PWR_CTRL (R389): WARN_C is 70 to THROTTLE_C. -/
def State.writePwrCtrl (s : State) (die : Nat) (v : Word) : State :=
  let rej (s : State) : State := s.set F.PWR_STATUS_SETTING_REJECTED 1 die
  if fget 8 8 v < fget 16 8 v then rej s
  else ((s.plainWrite ⟨.pwrCtrl, die, 0⟩ v rej)).refreshPwr die

/-- A delta entry has 2 to 257 lines, or 0 (R239). -/
def State.writeUpd (s : State) (r : RegId) (v : Word) : State :=
  let rej (s : State) : State := s.set F.UPD_STATUS_SETTING_REJECTED 1 r.inst
  if r.reg = .updDeltaCfg ∧ fget 0 9 v = 1 then rej s
  else s.writeIf (s.cstate == 0) r v rej

/-- A write of a register on a die through its window: `a` is its address. -/
def State.regWrite (s : State) (die : Nat) (r : RegId) (v : Word) : State :=
  let free (s : State) : State := s
  match r.reg with
  | .cfgDevnum => s.writeDevnum die v
  | .tbnInterval => s.writeSetting die 0 v
  | .tbnSlots => s.writeSetting die 1 v
  | .tbnOvr => s.writeSetting die 2 v
  | .tbnSync => s.writeSetting die 3 v
  | .tbnStagger => s.writeSetting die 4 v
  | .ccCtrl => s.ccCtrl r.inst v
  | .accCtrl => s.compChange r.inst v.toNat
  | .accSeg => s.segWrite r.inst r.idx v
  | .ylmCtrl | .ylmStageBase => s.writeIf (s.cstate == 0) r v (fun s => s.set F.YLM_STATUS_SETTING_REJECTED 1 die)
  | .updUctrl | .updDeltaBase | .updDeltaCfg | .updSpillBase | .updSpillCfg => s.writeUpd r v
  | .updBindBase => if die = 0 then s.plainWrite r v free else s
  | .memCtrl => s.writeMemCtrl r.inst r v
  | .blkCtrl => s.writeMemCtrl (16 + r.inst) r v
  | .jflPctrl => s.writePctrl r.inst v
  | .jflCfg => if die = 0 then s.writeJflCfg v else s
  | .jflLost => if die = 0 then s.clearLost r.idx v else s
  | .jflStatus => if die = 0 then s.plainWrite r v free else s
  | .ethCtrl | .ethIp4 | .ethIp6Hi | .ethIp6Lo | .ethQpBase | .ethMrBase =>
    s.writeIf (!s.bit F.ETH_CTRL_EN r.inst) r v (fun s => s.set F.ETH_STATUS_SETTING_REJECTED 1 r.inst)
  | .ldgDkey => if die = 0 then s.writeDkey v else s
  | .ldgCtrl | .ldgRingBase | .ldgDetailBase | .ldgBattenBase | .ldgRingCfg | .ldgDetailCfg | .ldgBattenCfg | .ldgExport
  | .ldgExportAddr | .ldgExportRkey | .ldgCmp | .ldgCmpPeers | .ldgCmpen => if die = 0 then s.writeLedger r v else s
  | .ldgStatus =>
    if die = 0 then
      let t := s.plainWrite r v free
      if v.toNat / 2 % 2 = 1 ∨ (v.toNat / 8 % 2 = 1 ∧ s.bit F.LDG_STATUS_MISMATCH = false) then t.haltRelease else t
    else s
  | .hifCtrl => s.plainWrite r v (fun s => s.set F.HIF_STATUS_SETTING_REJECTED 1)
  | .qpSqbase => s.writeQueueReg .qpSqbase r.inst (2 ^ 64 - 64) v
  | .qpCqbase => s.writeQueueReg .qpCqbase r.inst (2 ^ 64 - 64) v
  | .qpQseq => s.writeQueueReg .qpQseq r.inst (2 ^ 32 - 1) v
  | .qpQidx => s.writeQueueReg .qpQidx r.inst (2 ^ 64 - 1) v
  | .qpQcfg => s.writeQcfg r.inst v
  | .qpQdb => s.writeQdb r.inst v
  | .pwrCtrl => s.writePwrCtrl die v
  | .pwrCap => s.writeCap die v
  | .pwrCoef => s.writeCoef die r.idx v
  | .pwrPolicy => s.writePolicy die r.idx v
  | .gutCtrl => if die = 0 then s.plainWrite r v free else s
  | .cfgSetctrl =>
    let s := if v.toNat % 2 = 1 then s.settingsCommit else s
    if v.toNat / 2 % 2 = 1 then s.settingsRevert else s
  | _ => s.plainWrite r v free

/-! ## Windows -/

/-- What an access to a range gives: the bytes of a read, whether a line was uncorrectable, whether part of the range
was unmapped, whether the access waits for a busy tile (R131), and the state. -/
structure BusRead where
  bytes : List Byte
  unc : Bool
  miss : Bool
  waits : Bool
  st : State

/-- The event of a register access that is not a naturally aligned 8-byte one (R7). -/
def State.badAccess (s : State) (die a n : Nat) (write : Bool) : State :=
  s.raise die 0x0201 (plAt 16 a + plAt 24 (n % 256) + plAt 25 (if write then 1 else 0))

/-- The blocks that the host sees before the module is ready (Table 14.5): CFG and HIF, and all but QP once the services
run; QP reads as reserved until ready (R368). -/
def State.hostSees (s : State) (b : Nat) : Bool :=
  b == 139 || b == 144 || s.start.stage == 8 || (s.start.stage == 7 && s.start.services && b != 128)

/-- A remote request may not reach the SEC window of die 0 or an accumulator file (R19). -/
def remoteShut (a n : Nat) : Bool :=
  match locOf a with
  | .window d o =>
    (d == 0 && overlaps o n 0x8_A000_0000 0x1000_0000) ||
    (decide (o < 0x8_0000_0000) && overlaps (o % 0x1000_0000) n 0x40_0000 0x2_0000)
  | _ => false

/-- Bytes of the RAM ring of a slice (R413). -/
def State.ringBytes (s : State) (die off n : Nat) : List Byte :=
  let x := s.slice die
  let first := off / 64
  (((List.range (n / 64 + 2)).map (fun i => (Sparse.get GRec.blank x.ring (first + i)).bytes)).flatten.drop (off % 64)).take n

/-- Bytes of the copy of the filter table (R419): 256 words. -/
def State.filterBytes (s : State) (off n : Nat) : List Byte :=
  (((List.range 256).map (fun i => leBytes 8 (Sparse.get 0 s.gut.filter i))).flatten.drop off).take n

/-- A word of the bias table (R354): one bit for each shared page, zero under PCIe. -/
def State.biasWord (s : State) (w : Nat) : Nat :=
  if s.get F.HIF_LINK_MODE = 2 then
    (s.host.shared.filter (fun p => decide (p / 64 = w))).foldl (fun m p => m ||| 2 ^ (p % 64)) 0
  else 0

/-- A read of what stands at an offset of a die window, `a` its address (R7, R8, R10). Before the host sees a block, its
window behaves as reserved offsets for an access of any size and alignment (Table 14.5, assumption log 20). -/
def State.placeRead (s : State) (host : Bool) (a n die off : Nat) (p : Place) : BusRead :=
  let ok (bs : List Byte) (s : State) : BusRead := ⟨padTo n bs, false, false, false, s⟩
  if host && !s.hostSees (off / 0x1000_0000) then ok [] s
  else if p.register && !(n == 8 && a % 8 == 0) then ⟨List.replicate n 0xFF#8, false, false, false, s.badAccess die a n false⟩
  else match p with
    | .lb g o => ok (s.lbRead g o (min n (lbSize - o))) s
    | .acc g o =>
      let r := s.accRead g o (min n (0x2_0000 - o))
      ok r.1 r.2
    | .vbuf g o => ok (f32Bytes (s.cl g).vbuf o (min n (0x4000 - o))) s
    | .pm g o => ok (tableBytes (s.cl g).pm o (min n (pmSize - o))) s
    | .prog o => ok (tableBytes s.upd.prog o (min n (0x8000 - o))) s
    | .ring d o => ok (s.ringBytes d o (min n (0x10_0000 - o))) s
    | .filter o => ok (s.filterBytes o (min n (0x800 - o))) s
    | .scalar g k => ok (leBytes 8 (s.sreg g k).toNat) s
    | .reg r => ok (leBytes 8 (s.regValue die r).toNat) (s.clearRc r)
    | .staging o => ok (tableBytes s.sec.staging o 8) s
    | .bias w => ok (leBytes 8 (s.biasWord w)) s
    | .reserved | .nothing => ok [] s

/-- A read at an address of a die window within one range. -/
def State.pieceRead (s : State) (host : Bool) (a n : Nat) : BusRead :=
  let die := (a - winBase) / winSize
  let off := (a - winBase) % winSize
  s.placeRead host a n die off (placeOf die off)

/-- The pieces of an access to the die windows; all edges are multiples of 64. -/
def windowParts (a n : Nat) : List (Nat × Nat) := windowPieces (n / 64 + 2) a n

/-- The cluster and offset of a piece in an accumulator window, where dormer mode opens it (R131). -/
def State.pieceAcc (s : State) (a : Nat) : Option (Nat × Nat) :=
  if s.dormer 0 then
    match placeOf ((a - winBase) / winSize) ((a - winBase) % winSize) with
    | .acc g o => some (g, o)
    | _ => none
  else none

/-- The turn of an access at its tiles (R130, R131). -/
inductive AccTurn
  | go
  | wait
  | late
  deriving DecidableEq, Repr

/-- The waiting access of a block that comes back for its turn: of any but the host, and no posted write. -/
def Cluster.accOf (c : Cluster) (w : Writer) (off n : Nat) (write : Bool) : Option AccWait :=
  c.accWait.find? (fun x => x.by_ == w && x.off == off && x.len == n && x.write == write && x.data.isNone)

/-- The turn of an access: it goes when its tiles are free for it, waits behind the operations issued before it, and has
come too late 500 µs after it began to wait. The host's waiting accesses have their own rows. -/
def State.accTurn (s : State) (w : Writer) (g off n : Nat) (write : Bool) : AccTurn :=
  match if w = .host then none else (s.cl g).accOf w off n write with
  | some x =>
    if x.expired || decide (x.since + 500000 ≤ s.now) then .late
    else if (s.cl g).accFree off n x.serial write then .go else .wait
  | none => if s.accBusy g off n write then .wait else .go

/-- A piece of an access must wait for a busy tile. -/
def State.pieceWaits (s : State) (w : Writer) (a n : Nat) (write : Bool) : Bool :=
  match s.pieceAcc a with
  | some p => s.accTurn w p.1 p.2 n write == .wait
  | none => false

/-- An access to a busy tile takes its place behind the operations that the tile has (R130, R131). -/
def State.accHold (s : State) (w : Writer) (g off n : Nat) (write : Bool) (data : Option (List Byte)) : State :=
  s.updCl g (fun c => { c with accWait := c.accWait ++ [⟨w, off, n, write, data, s.now, c.serial, false⟩], serial := c.serial + 1 })

/-- The pieces of an access of a block in accumulator windows take their places, unless they have them. -/
def State.accJoin (s : State) (w : Writer) (ps : List (Nat × Nat)) (write : Bool) : State :=
  if w = .host then s
  else ps.foldl (fun s p =>
    match s.pieceAcc p.1 with
    | some x => if ((s.cl x.1).accOf w x.2 p.2 write).isSome then s else s.accHold w x.1 x.2 p.2 write none
    | none => s) s

/-- A waiting access leaves its place; one that has come too late has its gutter event (R131). -/
def State.accLeave (s : State) (w : Writer) (g off n : Nat) (write : Bool) : State :=
  match (s.cl g).accOf w off n write with
  | none => s
  | some x =>
    let late := s.accTurn w g off n write == .late
    let s := s.updCl g (fun c => { c with accWait := c.accWait.erase x })
    if late && !x.expired then s.raise (g / 128) 0x0205 (plAt 16 (accAddr g off) + plAt 25 (if write then 1 else 0)) else s

/-- A piece of a read: one that has waited too long reads as all ones. -/
def State.turnRead (s : State) (w : Writer) (a n : Nat) : BusRead :=
  match s.pieceAcc a with
  | none => s.pieceRead (w == .host) a n
  | some p =>
    let late := s.accTurn w p.1 p.2 n false == .late
    let t := if w = .host then s else s.accLeave w p.1 p.2 n false
    if late then ⟨List.replicate n 0xFF#8, false, false, false, t⟩ else t.pieceRead (w == .host) a n

/-- A read of the die windows: range by range where it passes an edge (R18). -/
def State.windowRead (s : State) (w : Writer) (a n : Nat) : BusRead :=
  let ps := if a % 64 + n ≤ 64 then [(a, n)] else windowParts a n
  if ps.any (fun p => s.pieceWaits w p.1 p.2 false) then ⟨[], false, false, true, s.accJoin w ps false⟩
  else ps.foldl (fun r p =>
    let x := r.st.turnRead w p.1 p.2
    { r with bytes := r.bytes ++ x.bytes, st := x.st }) ⟨[], false, false, false, s⟩

/-- A write to what stands at an offset of a die window. -/
def State.placeWrite (s : State) (host : Bool) (a : Nat) (bs : List Byte) (die off : Nat) (p : Place) : State :=
  let n := bs.length
  let v : Word := BitVec.ofNat 64 (ofLe bs)
  if host && !s.hostSees (off / 0x1000_0000) then s
  else if p.register && !(n == 8 && a % 8 == 0) then s.badAccess die a n true
  else match p with
    | .lb g o => s.lbExternal g o (bs.take (lbSize - o))
    | .acc g o =>
      s.accWrite g o (bs.take (0x2_0000 - o))
    | .vbuf g o => s.updCl g (fun c => { c with vbuf := f32Put c.vbuf o (bs.take (0x4000 - o)) })
    | .pm g o => s.programWrite g o (bs.take (pmSize - o))
    | .prog _ | .ring _ _ => s.raise die 0x0203 (plAt 16 a)
    | .scalar g k => s.scalarWrite g k v
    | .reg r => s.regWrite die r v
    | .staging o => { s with sec := { s.sec with staging := tablePut s.sec.staging o (settingsHeld o bs) } }
    | .filter _ | .bias _ | .reserved | .nothing => s

/-- A write at an address of a die window within one range. -/
def State.pieceWrite (s : State) (host : Bool) (a : Nat) (bs : List Byte) : State :=
  let die := (a - winBase) / winSize
  let off := (a - winBase) % winSize
  s.placeWrite host a bs die off (placeOf die off)

/-- A piece of a write: one that has waited too long is dropped. -/
def State.turnWrite (s : State) (w : Writer) (a : Nat) (bs : List Byte) : State :=
  match s.pieceAcc a with
  | none => s.pieceWrite (w == .host) a bs
  | some p =>
    let late := s.accTurn w p.1 p.2 bs.length true == .late
    let t := if w = .host then s else s.accLeave w p.1 p.2 bs.length true
    if late then t else t.pieceWrite (w == .host) a bs

/-- A write to the die windows: range by range where it passes an edge (R18); true when it waits for a busy tile. -/
def State.windowWrite (s : State) (w : Writer) (a : Nat) (bs : List Byte) : Bool × State :=
  let ps := if a % 64 + bs.length ≤ 64 then [(a, bs.length)] else windowParts a bs.length
  if ps.any (fun p => s.pieceWaits w p.1 p.2 true) then (true, s.accJoin w ps true)
  else (false, ps.foldl (fun s p => s.turnWrite w p.1 ((bs.drop (p.1 - a)).take p.2)) s)

/-! ## Dormer accesses that wait (R131) -/

/-- A host access that meets a busy tile: its busy parts wait, its other parts take effect. -/
def State.windowHold (s : State) (a n : Nat) (data : Option (List Byte)) : State :=
  (windowParts a n).foldl (fun s p =>
    let part := data.map (fun bs => (bs.drop (p.1 - a)).take p.2)
    if s.pieceWaits .host p.1 p.2 data.isSome then
      (match s.pieceAcc p.1 with
       | some x => s.accHold .host x.1 x.2 p.2 data.isSome part
       | none => s)
    else match part with
      | some bs => s.pieceWrite true p.1 bs
      | none =>
        let r := s.pieceRead true p.1 p.2
        r.st.send (.hostCpl p.1 r.bytes false)) s

/-- A host access that waited takes effect: a write at once, a read with its completion to the host. -/
def State.accServe (s : State) (g : Nat) (x : AccWait) : State :=
  match x.data with
  | some bs => s.accWrite g x.off bs
  | none =>
    let r := s.accRead g x.off x.len
    r.2.send (.hostCpl (accAddr g x.off) r.1 false)

/-- Host accesses and posted writes whose tiles are free now take effect, in order; other blocks come back for theirs. -/
def State.accRetry (s : State) (g : Nat) : State :=
  (s.cl g).accWait.foldl (fun s x =>
    if (x.by_ = .host ∨ x.data.isSome = true) ∧ (s.cl g).accFree x.off x.len x.serial x.write = true then
      (s.updCl g (fun c => { c with accWait := c.accWait.erase x })).accServe g x
    else s) s

/-! ## The whole local address space, by source -/

/-- The source code of Table 1.4 for event 0x0202, and the die that records it. -/
def writerSrc : Writer → Nat
  | .host => 0
  | .tile _ => 1
  | .command _ => 2
  | _ => 3

def writerDie : Writer → Nat
  | .tile g => g / 128
  | .command q => queueDie q
  | _ => 0

/-- The one event of a request that meets an unmapped address (R16). -/
def State.missEvent (s : State) (w : Writer) (a : Nat) : State := s.raise (writerDie w) 0x0202 (plAt 16 a + plAt 24 (writerSrc w))

/-- The pieces of a range within 64-byte lines, as (address, length). -/
def linePieces : Nat → Nat → Nat → List (Nat × Nat)
  | 0, _, _ => []
  | k + 1, a, n =>
    if n = 0 then []
    else
      let m := min n (64 - a % 64)
      (a, m) :: linePieces k (a + m) (n - m)

def pieces (a n : Nat) : List (Nat × Nat) := linePieces (n / 64 + 2) a n

/-- Who a writer is as a reader of memory. -/
def writerReq : Writer → Req
  | .host => .host
  | .remote _ _ => .remote
  | _ => .engine

/-- The bursts of a command's access to memory, for the energy model (R387). -/
def State.actBus (s : State) (w : Writer) (a n : Nat) : State :=
  match w with
  | .command q => s.actMem q a n
  | _ => s

/-- A read of the local address space. The host is judged line by line, every other source as a whole (Table 1.4). -/
def State.busRead (s : State) (w : Writer) (a n : Nat) : BusRead :=
  match locOf a with
  | .window _ _ =>
    if winBase + 8 * winSize < a + n then ⟨[], false, true, false, s.missEvent w a⟩
    else match w with
    | .remote _ _ =>
      if remoteShut a n then ⟨[], false, true, false, s.missEvent w a⟩ else s.windowRead w a n
    | _ => s.windowRead w a n
  | _ =>
    match w with
    | .host =>
      let r := (pieces a n).foldl (fun (r : BusRead) p =>
        if r.st.mapped p.1 then
          let m := r.st.readMem .host p.1 p.2
          { r with bytes := r.bytes ++ m.bytes, unc := r.unc || m.unc, st := m.st }
        else { r with bytes := r.bytes ++ List.replicate p.2 0xFF#8, miss := true }) ⟨[], false, false, false, s⟩
      if r.miss then { r with st := r.st.missEvent w a } else r
    | _ =>
      if s.memRange a n then
        let m := (s.actBus w a n).readMem (writerReq w) a n
        ⟨m.bytes, m.unc, false, false, m.st⟩
      else ⟨[], false, true, false, s.missEvent w a⟩

/-- What a write of the local address space comes to. -/
inductive BusWrite
  | done (s : State)
  | miss (s : State)
  | stopped (why : WriteStop) (s : State)
  | waits (s : State)

/-- A write through a die window; one that passes the end of the last is unmapped as a whole (R16). -/
def State.windowBus (s : State) (w : Writer) (a : Nat) (bs : List Byte) : BusWrite :=
  if winBase + 8 * winSize < a + bs.length then .miss (s.missEvent w a)
  else
    let r := s.windowWrite w a bs
    if r.1 then .waits r.2 else .done r.2

/-- A host write of memory: its mapped lines are written, its unmapped ones dropped. -/
def State.hostMemWrite (s : State) (a : Nat) (bs : List Byte) : State :=
  let hit := (pieces a bs.length).filter (fun p => s.mapped p.1)
  let s := if hit.length < (pieces a bs.length).length then s.missEvent .host a else s
  hit.foldl (fun s p => (s.noteWriter .host p.1 p.2).writeMem p.1 ((bs.drop (p.1 - a)).take p.2)) s

/-- A write of the local address space, `l` the range that holds its address (R16, R184, Tables 1.4 and 7.6). -/
def State.locWrite (s : State) (w : Writer) (wad : Bool) (a : Nat) (bs : List Byte) (l : Loc) : BusWrite :=
  match l, w with
  | .window _ _, .remote _ _ => if remoteShut a bs.length then .miss (s.missEvent w a) else s.windowBus w a bs
  | .window _ _, _ => s.windowBus w a bs
  | _, .host =>
    match s.writeStop w wad a bs.length with
    | some x => .stopped x (s.refuseWrite w a)
    | none => .done (s.hostMemWrite a bs)
  | _, _ =>
    if s.memRange a bs.length then
      match s.writeStop w wad a bs.length with
      | some x => .stopped x s
      | none => .done (((s.actBus w a bs.length).noteWriter w a bs.length).writeMem a bs)
    else .miss (s.missEvent w a)

/-- A write of the local address space. -/
def State.busWrite (s : State) (w : Writer) (wad : Bool) (a : Nat) (bs : List Byte) : BusWrite :=
  s.locWrite w wad a bs (locOf a)

/-- The parts of a write that waits stay posted with their bytes, and its other parts take effect (R131). -/
def State.postParts (s : State) (w : Writer) (a : Nat) (bs : List Byte) : State :=
  (windowParts a bs.length).foldl (fun s p =>
    let part := (bs.drop (p.1 - a)).take p.2
    match s.pieceAcc p.1 with
    | some x => s.updCl x.1 (fun c => match c.accOf w x.2 p.2 true with
        | some y => { c with accWait := c.accWait.map (fun z => if z = y then { y with data := some part } else z) }
        | none => c)
    | none => s.turnWrite w p.1 part) s

/-- A write of a block that does not wait for it to take effect. -/
def State.busPost (s : State) (w : Writer) (wad : Bool) (a : Nat) (bs : List Byte) : BusWrite :=
  match s.busWrite w wad a bs with
  | .waits t => .done (t.postParts w a bs)
  | r => r

end Sys2Proof.Machine
end

