-- ==== Sys2Proof/Machine/Canon.lean ====
section
/-! DEFINITION. The canonical form of the tables that hold memory, its check codes and the registers. -/
namespace Sys2Proof.Machine

/-- Memory is in its canonical form: addresses strictly rising, no entry equal to what an unlisted address reads as. -/
def Memory.wf (m : List Host.Cell) : Bool := Sparse.wf (fun _ => 0#8) m

/-- Memory, the differences of stored codewords and the register table are in their canonical form. -/
def State.canon (s : State) : Bool :=
  Memory.wf s.mem && Sparse.wf (fun _ => 0) s.upset && Sparse.wf regDefault s.regs

end Sys2Proof.Machine
end

