-- ==== Sys2Proof/Machine/TableMap.lean ====
section
/-! DEFINITION. The map from a row of an embedding table to its place in memory: descriptors, shard lists, slots,
sharding, and the tables that an operation sees (R46, R164 to R173). -/
namespace Sys2Proof.Machine

/-! ## Formats and slots (R166) -/

/-- A table descriptor (Table 7.1). -/
structure TDesc where
  id : Nat
  fmt : Nat
  split : Bool
  train : Bool
  hash : Bool
  valid : Bool
  replace : Nat
  elems : Nat
  shards : Nat
  rows : Nat
  version : Nat
  wexp : Int
  list : Nat
  load : Nat
  deriving DecidableEq, Repr

/-- The fields of a descriptor's 64 bytes. -/
def tdesc (b : List Byte) : TDesc :=
  let f := fieldLe b 2 1
  ⟨fieldLe b 0 2, f % 16, f / 16 % 2 == 1, f / 32 % 2 == 1, f / 64 % 2 == 1, f / 128 % 2 == 1, fieldLe b 3 1 % 4,
   fieldLe b 4 2, fieldLe b 6 2, fieldLe b 8 8, fieldLe b 16 4, sexp8 (fieldLe b 20 1), fieldLe b 24 8, fieldLe b 32 8⟩

/-- The format of a table's rows. -/
def TDesc.format (t : TDesc) : Fmt := (fmtOfCode t.fmt).getD .f32

/-- Slot size of a payload of `p` bytes. -/
def slotOf (p : Nat) : Nat :=
  if p ≤ 8 then 8 else if p ≤ 16 then 16 else if p ≤ 32 then 32 else if p ≤ 64 then 64 else ceilDiv p 64 * 64

/-- Payload bytes of a row, and slots of its stored row and its residue row. -/
def TDesc.payload (t : TDesc) : Nat :=
  match t.format with
  | .f8a | .i8 => 2 + t.elems
  | f => f.bytes * t.elems

def TDesc.slot (t : TDesc) : Nat := slotOf t.payload
def TDesc.resSlot (t : TDesc) : Nat := slotOf t.elems

/-! ## Shard lists (R169) -/

/-- A shard-list entry (Table 7.3). -/
structure SEntry where
  first : Nat
  row0 : Nat
  row1 : Nat
  res0 : Nat
  res1 : Nat
  moveTo : Nat
  version : Nat
  bank : Nat
  st : Nat
  deriving DecidableEq, Repr

/-- Entry `k` of a shard list's bytes. -/
def sentry (l : List Byte) (k : Nat) : SEntry :=
  let b := (l.drop (64 * k)).take 64
  ⟨fieldLe b 0 8, fieldLe b 8 8, fieldLe b 16 8, fieldLe b 24 8, fieldLe b 32 8, fieldLe b 40 8, fieldLe b 48 4,
   fieldLe b 52 1 % 2, fieldLe b 52 1 / 2 % 4⟩

/-- The active bases (R169): stored rows and residue rows. -/
def SEntry.rowBase (e : SEntry) : Nat := if e.bank = 1 then e.row1 else e.row0
def SEntry.resBase (e : SEntry) : Nat := if e.bank = 1 then e.res1 else e.res0

/-- Device and local part of a fabric address (R19). -/
def faDev (a : Nat) : Nat := a / 2 ^ 43
def faLocal (a : Nat) : Nat := a % 2 ^ 43

/-- The fabric address names this module (R20). -/
def State.here (s : State) (a : Nat) : Bool := faDev a == s.devnum

/-- The update unit that serves a local address (R215). -/
def unitOf (a : Nat) : Nat :=
  match locOf a with
  | .near st _ => 3 * (st / 2) + st % 2
  | .bulk p _ => 3 * (p / 4) + 2
  | _ => 0

/-! ## Sharding (R171, R172) -/

/-- Shard and local index under hash sharding over `n` shards. -/
def hashPlace (n r : Nat) : Nat × Nat :=
  let qd := r / n
  let h := (qd * 0xB5A31C6F4D278E93) % 2 ^ 64 / 2 ^ 32
  ((r % n + h) % n, qd)

/-- Shard and local index of a row under the first rows of a shard list. -/
def rangePlace (l : List Byte) : Nat → Nat → Nat × Nat
  | 0, r => (0, r)
  | k + 1, r => if (sentry l k).first ≤ r then (k, r - (sentry l k).first) else rangePlace l k r

def TDesc.place (t : TDesc) (l : List Byte) (r : Nat) : Nat × Nat :=
  if t.hash then hashPlace (max t.shards 1) r else rangePlace l t.shards r

/-- Rows of shard `k`: under hash sharding the bound that R172 gives. -/
def TDesc.shardRows (t : TDesc) (l : List Byte) (k : Nat) : Nat :=
  if t.hash then ceilDiv t.rows (max t.shards 1)
  else (if k + 1 < t.shards then (sentry l (k + 1)).first else t.rows) - (sentry l k).first

/-! ## The tables in force and the tables that an operation sees (R46) -/

/-- Descriptor and shard list of a defined table at present. -/
def State.tableNow (s : State) (t : Nat) : Option (List Byte × List Byte) :=
  match s.tables.dir with
  | none => none
  | some _ =>
    let d := s.descOf t
    if (tdesc d).valid then some (d, s.asRead (descShardList d) (64 * descShards d)) else none

/-- Descriptor and shard list of a table in force at the start of a planned batten. -/
def State.tableAt (s : State) (plan : Option Nat) (t : Nat) : Option (List Byte × List Byte) :=
  match plan with
  | none => s.tableNow t
  | some p =>
    match Sparse.get [] s.tables.views p with
    | [] => s.tableNow t
    | v => (v.find? (fun x => x.1 == t)).map (fun x => x.2)

/-- Where a row's bytes lie: its shard, local index, and the shard's entry. -/
structure RowPlace where
  shard : Nat
  place : Nat
  entry : SEntry

def rowPlace (t : TDesc) (l : List Byte) (r : Nat) : RowPlace :=
  let p := t.place l r
  ⟨p.1, p.2, sentry l p.1⟩

/-- Fabric addresses of a row's stored row and residue row. -/
def RowPlace.row (p : RowPlace) (t : TDesc) : Nat := p.entry.rowBase + p.place * t.slot
def RowPlace.res (p : RowPlace) (t : TDesc) : Nat := p.entry.resBase + p.place * t.resSlot

/-! ## Load counts (R173) -/

/-- Counting reads (k = 0) or adds (k = 1) of a shard in this batten and in the course. -/
def State.shardLoad (s : State) (table shard k n : Nat) : State :=
  let key := (table * 4096 + shard) * 4 + k
  let add (m : Sparse Nat) (i : Nat) : Sparse Nat := Sparse.put 0 m i (Sparse.get 0 m i + n)
  { s with tables := { s.tables with load := add (add s.tables.load key) (key + 2) } }

/-! ## State slots of a binding (R230, R231, Table 9.4) -/

/-- A slot of a binding. -/
structure SlotDesc where
  off : Nat
  fmt : Nat
  kind : Nat
  scaled : Bool
  sr : Bool
  tid : Nat
  exp : Int
  rsv : Nat
  deriving DecidableEq, Repr

def slotDesc (b : List Byte) (i : Nat) : SlotDesc :=
  let o := 16 + 12 * i
  let f := fieldLe b (o + 5) 1
  ⟨fieldLe b o 5, f % 16, f / 16 % 4, f / 64 % 2 == 1, f / 128 % 2 == 1, fieldLe b (o + 6) 3, sexp8 (fieldLe b (o + 9) 1),
   fieldLe b (o + 10) 2⟩

/-- Bytes per entry, address step and extent of a slot for `n` elements, `rows` rows and `cols` columns (R231). -/
def SlotDesc.width (x : SlotDesc) : Nat := match fmtOfCode x.fmt with | some y => y.bytes | none => 0

def SlotDesc.step (x : SlotDesc) (n : Nat) : Nat :=
  if x.kind = 1 then slotOf ((if x.scaled then 2 else 0) + n * x.width) else x.width

def SlotDesc.extent (x : SlotDesc) (n rows cols : Nat) : Nat :=
  if x.kind = 0 then 0 else if x.kind = 3 then cols * x.width else rows * x.step n

/-- The binding of a table (R230). -/
def State.bindAddr (s : State) (t : Nat) : Nat := s.get F.UPD_BIND_BASE_BASE * 64 + 64 * t

def State.bindingOf (s : State) (t : Nat) : List Byte := s.asRead (s.bindAddr t) 64

/-! ## Ranges of tables, units and eaves -/

/-- Ranges of shard `k` by fabric address: stored rows and residue rows of its banks, and the state slots that the table's
binding gives it when the table is trained (R169, R175, R231). -/
def State.shardSpans (s : State) (t : TDesc) (l : List Byte) (k : Nat) : List (Nat × Nat) :=
  let e := sentry l k
  let n := t.shardRows l k
  let b := s.bindingOf t.id
  let rows := [(e.row0, n * t.slot)] ++ (if t.replace = 1 then [(e.row1, n * t.slot)] else [])
  let res := if t.split then [(e.res0, n * t.resSlot)] ++ (if t.replace = 1 then [(e.res1, n * t.resSlot)] else []) else []
  let slots := if t.train then (List.range 4).filterMap (fun i =>
    let x := slotDesc b i
    if x.kind = 0 then none else some (e.row0 + x.off, x.extent t.elems n 0)) else []
  rows ++ res ++ slots

/-- Those that lie on this module, by local address. -/
def State.shardRanges (s : State) (t : TDesc) (l : List Byte) (k : Nat) : List (Nat × Nat) :=
  ((s.shardSpans t l k).filter (fun r => s.here r.1)).map (fun r => (faLocal r.1, r.2))

/-- Stored-row and residue ranges only. -/
def State.rowRanges (s : State) (t : TDesc) (l : List Byte) (k : Nat) : List (Nat × Nat) :=
  s.shardRanges { t with train := false } l k

/-- All local shard ranges of the defined tables, but for one table. -/
def State.allShardRanges (s : State) (but : Option Nat) : List (Nat × Nat) :=
  (s.definedTables.filter (fun t => but != some t)).flatMap (fun t =>
    match s.tableNow t with
    | none => []
    | some v => (List.range (tdesc v.1).shards).flatMap (fun k => s.shardRanges (tdesc v.1) v.2 k))

/-- Delta and spill regions of the update units (R218, R220). -/
def State.deltaBase (s : State) (u : Nat) : Nat := s.get F.UPD_DELTA_BASE_BASE u * 64
def State.spillBase (s : State) (u : Nat) : Nat := s.get F.UPD_SPILL_BASE_BASE u * 64
def State.entryBytes (s : State) (u : Nat) : Nat := 64 * s.get F.UPD_DELTA_CFG_ENTRY_LINES u
def State.deltaRange (s : State) (u : Nat) : Nat × Nat :=
  (s.deltaBase u, s.get F.UPD_DELTA_CFG_ENTRIES u * s.entryBytes u)
def State.spillRange (s : State) (u : Nat) : Nat × Nat :=
  (s.spillBase u, s.get F.UPD_SPILL_CFG_RECORDS u * s.entryBytes u)

def State.unitRegions (s : State) : List (Nat × Nat) :=
  (List.range 24).flatMap (fun u => [s.deltaRange u, s.spillRange u])

/-- Base, size and entry size of a die's eaves (R185), and its range. -/
def State.eavesFld (s : State) (d k : Nat) : Nat := Sparse.get 0 s.tables.eaves (4 * d + k)
def State.eavesRange (s : State) (d : Nat) : Nat × Nat := (s.eavesFld d 0, s.eavesFld d 1)

/-- A range overlaps some range of a list. -/
def hitsAny (r : Nat × Nat) (l : List (Nat × Nat)) : Bool := l.any (fun x => overlaps r.1 r.2 x.1 x.2)

/-- Two ranges of a list overlap. -/
def selfOverlap : List (Nat × Nat) → Bool
  | [] => false
  | r :: rest => hitsAny r rest || selfOverlap rest

/-- A range lies in the populated part of one stack or package (R15). -/
def inOneStack (a n : Nat) : Bool :=
  match locOf a with
  | .near _ o => decide (o + n ≤ nearSize)
  | .bulk _ o => decide (o + n ≤ bulkSize)
  | _ => false

/-- The stack or package of an address, near ones first. -/
def stackOf (a : Nat) : Option Nat :=
  match locOf a with
  | .near st _ => some st
  | .bulk p _ => some (16 + p)
  | _ => none

/-! ## Entries of the eaves (R182, R205) -/

/-- Address of a staging record of a die (R205): absolute entry `i`. -/
def State.stageAddr (s : State) (die i : Nat) : Nat := s.get F.YLM_STAGE_BASE_BASE die * 64 + 32 * i

/-- Entries of half an eaves. -/
def State.eavesHalf (s : State) (die : Nat) : Nat := s.eavesFld die 1 / s.eavesFld die 2 / 2

/-- Staging records of a die that are valid, by address. -/
def State.stagedRecords (s : State) (die : Nat) : List Nat :=
  let base := s.stageAddr die 0
  s.mem.filterMap (fun c =>
    if base ≤ c.1 ∧ c.1 < base + 64 * s.eavesHalf die ∧ (c.1 - base) % 32 = 2 ∧ c.2 = 2#8 then some (c.1 - 2) else none)

/-- The eaves entries of a table's rows are invalid from now on; rows on their way into the eaves are read again (R182). -/
def State.eavesDrop (s : State) (table : Nat) (row : Nat → Bool) : State :=
  let s := (List.range 8).foldl (fun s d =>
    ((s.stagedRecords d).filter (fun a => fieldLe (s.asRead a 2) 0 2 == table && row (fieldLe (s.asRead (a + 8) 8) 0 8))).foldl
      (fun s a => s.writeMem (a + 2) [0#8]) s) s
  { s with ylm := { s.ylm with rows := s.ylm.rows.map (fun (p : Nat × List StageRow) => (p.1, p.2.map (fun r =>
      if r.issued && r.table == table && row r.row then { r with issued := false } else r))) } }

end Sys2Proof.Machine
end

