-- ==== Sys2Proof/Machine/FabricFail.lean ====
section
/-! DEFINITION. Requests over the fabric as their owners make them: what a request comes to at once, and the outcome
of a failed one in its own chapter (R128, R196, R279, R282, R284, R292, R315, R323, R351). -/
namespace Sys2Proof.Machine

/-! ## Descriptors of the yealm engines -/

/-- Descriptors of a die's engine, in order of receipt. -/
def State.ydescs (s : State) (die : Nat) : List YDesc := Sparse.get [] s.ylm.descs die

def State.setYdescs (s : State) (die : Nat) (l : List YDesc) : State :=
  { s with ylm := { s.ylm with descs := Sparse.put [] s.ylm.descs die l } }

def State.ydesc? (s : State) (die id : Nat) : Option YDesc := (s.ydescs die).find? (fun y => y.id == id)

/-- A descriptor belongs to the course in progress (R434). -/
def State.descOwn (s : State) (y : YDesc) : Bool :=
  y.course != 0 && s.courseLive && y.course == s.get F.TBN_COURSE_COURSE

/-- A descriptor of an engine changes. -/
def State.updYdesc (s : State) (die id : Nat) (f : YDesc → YDesc) : State :=
  s.setYdescs die ((s.ydescs die).map (fun y => if y.id == id then f y else y))

/-- Lines that a unit's bytes touch, and those of a request's piece of a unit. -/
def YUnit.lines (x : YUnit) : Nat := ceilDiv (x.addr % 64 + x.len) 64
def YPart.lines (p : YPart) (x : YUnit) : Nat :=
  let a := x.addr + p.off
  if p.off = 0 ∧ x.len ≤ 4096 - x.addr % 4096 then x.lines else ceilDiv (a % 64 + min (x.len - p.off) (4096 - a % 4096)) 64

/-- CURRENT and PEAK of an engine follow its outstanding lines (R195, R213). A remote request counts its rows' lines. -/
def YDesc.cost (y : YDesc) : YWork → Nat
  | .unit _ => 0
  | .line _ _ => 1
  | .part k =>
    match y.parts[k]? with
    | some p => (p.units.map (fun u => match y.units[u]? with | some x => p.lines x | none => 0)).sum
    | none => 0

def State.ylmOut (s : State) (die : Nat) : Nat := ((s.ydescs die).map (fun y => (y.out.map y.cost).sum)).sum

def State.syncYlm (s : State) (die : Nat) : State :=
  let n := s.ylmOut die
  let staging := ((Sparse.get [] s.ylm.rows die).map (fun (r : StageRow) => r.lines)).sum
  let s := s.set F.YLM_OUTSTANDING_CURRENT (n + staging) die
  let s := if s.get F.YLM_OUTSTANDING_PEAK die < n + staging then s.set F.YLM_OUTSTANDING_PEAK (n + staging) die else s
  s.set F.YLM_STATUS_ACTIVE ((s.ydescs die).filter (·.started)).length die

/-- A descriptor will complete with an error; nothing more of it is requested. The first error stands. -/
def State.failDesc (s : State) (die id st detail : Nat) : State :=
  (s.updYdesc die id (fun y => if y.err = 0 then { y with err := st, detail := detail, todo := [] } else y)).syncYlm die

/-- The remote failure of a descriptor (R196, R434): a descriptor of the course aborts it. -/
def State.remoteFail (s : State) (die id st detail : Nat) : State :=
  let own := match s.ydesc? die id with | some y => s.descOwn y | none => false
  let s := s.failDesc die id st detail
  if own then s.abortCourse 6 else s

/-- A remote add or store of a descriptor fails (R196, R203): the adds that a scatter has still to send are sent. -/
def State.addFail (s : State) (die id : Nat) : State :=
  let own := match s.ydesc? die id with | some y => s.descOwn y | none => false
  let s := (s.updYdesc die id (fun y => if y.err = 0 then { y with err := stRemoteFailed, detail := 0 } else y)).syncYlm die
  if own then s.abortCourse 6 else s

/-! ## Statuses (R351) -/

/-- The status and detail that a fabric outcome gives a command. -/
def cmdStatus (st : Nat) : Nat × Nat :=
  if st = 1 then (stUnmapped, 0)
  else if st = 3 then (stWadding, 0)
  else if st = 6 then (stIndexRange, 0)
  else if st = 7 then (stUnknownTable, 0)
  else if st = fsTimeout then (stTimeout, 0)
  else if st = fsLost then (stPeerLost, 0)
  else (stRefused, st)

/-! ## The target (R279 to R281, R285) -/

/-- How long a target remembers a request: 16 ms. -/
def memoryTb : Nat := 16000000

/-- A response leaves, by the next port of the rotation, that of sync traffic by its own port (R286). -/
def State.sendRsp (s : State) (dev rsp tag status : Nat) (unc : Bool) (payload : List Byte) : State :=
  let p := s.pickPort dev rsp 0
  match p.1 with
  | some port => p.2.sendAns port rsp status unc dev tag payload
  | none => s

/-- A request was applied: its response leaves and is remembered for 16 ms (R281). -/
def State.respond (s : State) (src epoch tag rsp status : Nat) (unc : Bool) (payload : List Byte) : State :=
  let keep := s.fab.applied.filter (fun a => decide (s.now ≤ a.time + memoryTb))
  (s.updFab (fun f => { f with applied := keep ++ [⟨src, epoch, tag, s.now, rsp, status, unc, payload⟩] })).sendRsp
    src rsp tag status unc payload

/-- What a target makes of a request: its status, its response, and whether the response waits for another module. -/
structure Served where
  status : Nat
  st : State
  unc : Bool := false
  payload : List Byte := []
  later : Bool := false

/-- An epoch is older than another, modulo 2^16 (R285). -/
def epochOlder (a b : Nat) : Bool := decide (2 ^ 15 ≤ (a + 2 ^ 16 - b) % 2 ^ 16)

/-- The status with which a target refuses a request whatever it asks: no device number, or another's (R273, Table 11.5);
an old epoch, or a source that is lost (R285). -/
def State.refuses (s : State) (h : FabHdr) : Option Nat :=
  if !s.devValid || h.dst != s.devnum then some 4
  else if s.devLost h.src || (match Sparse.get none s.fab.newest h.src with | some e => epochOlder h.epoch e | none => false) then
    some 8
  else none

/-- What a refusal counts (R285, R297). -/
def State.countRefusal (s : State) (st : Nat) : State :=
  if st = 8 then (s.set F.JFL_STATUS_STALE 1).bump F.JFL_DUPCNT_STALE_DROPPED 1 else s

/-- The epoch of a request that is not refused becomes the newest of its source. -/
def State.epochSeen (s : State) (h : FabHdr) : State :=
  s.updFab (fun f => { f with newest := Sparse.put none f.newest h.src (some h.epoch) })

/-- A message arrives that expects no response: it is refused without an answer (R273, R285), or taken. One of this
module's own steps (its SRC is this module) is no message. -/
def State.takes (s : State) (h : FabHdr) (f : State → State) : State :=
  if !s.powered then s
  else if h.src = s.devnum then f s
  else
    let s := s.heard h.src
    match s.refuses h with
    | some st => s.countRefusal st
    | none => f (s.epochSeen h)

/-- The answer to an applied request is still to come: an add that is on its way to another module (R177), or a store of
which bytes wait for an audit (R276). -/
def State.answerDue (s : State) (k : Nat × Nat × Nat) : Bool :=
  s.fab.reqs.any (fun r => r.owner == .forward k.1 k.2.1 k.2.2) ||
  s.clusters.any (fun p => p.2.held.any (fun h => h.2.2 == some k))

/-- A request arrives that expects a response: it is refused (R273, R285), answered from memory (R281), or served. A
reissue of one whose answer is still to come waits for it. -/
def State.serve (s : State) (h : FabHdr) (rsp : Nat) (f : State → Served) : State :=
  if !s.powered then s
  else
    let s := s.heard h.src
    match s.refuses h with
    | some st => (s.countRefusal st).sendRsp h.src rsp h.tag st false []
    | none =>
      let s := s.epochSeen h
      if h.reissue && s.answerDue (h.src, h.epoch, h.tag) then s.bump F.JFL_DUPCNT_DUPLICATES 1
      else
        let old := s.fab.applied.find? (fun a =>
          a.src == h.src && a.epoch == h.epoch && a.tag == h.tag && decide (s.now ≤ a.time + memoryTb))
        match (if h.reissue then old else none) with
        | some a => (s.bump F.JFL_DUPCNT_DUPLICATES 1).sendRsp h.src a.op h.tag a.status a.unc a.payload
        | none =>
          let r := f s
          if r.later then r.st else r.st.respond h.src h.epoch h.tag rsp r.status r.unc r.payload

/-! ## The outcome of a failed request at its source -/

/-- A read of a repair fails: the repair cannot make the digests agree, and the group acts as under halt once they have
been exchanged (R315). -/
def State.repairFail (s : State) : State :=
  { s with replay := { s.replay with repairs := [], held := true } }.set F.LDG_STATUS_REPAIR_FAIL 1

/-- A move to another module whose copy failed ends: its shard stays resident. After the switch only the course, if one
runs, fails. -/
def State.moveFail (s : State) (table shard : Nat) : State :=
  let moved := s.tables.moves.any (fun m => m.table == table && m.shard == shard && m.fwd)
  let l := s.tables.moves.filter (fun m => !(m.table == table && m.shard == shard))
  let s := if moved then s else { s with tables := { s.tables with moves := l } }
  let s := if moved then s else match s.tables.dir with
    | none => s
    | some d =>
      let e := descShardList (s.descOf table) + 64 * shard
      if (tdesc (s.asRead (d + 64 * table) 64)).valid then (s.writeMem (e + 40) (leBytes 8 0)).writeMem (e + 52)
        (leBytes 1 (fieldLe (s.asRead (e + 52) 1) 0 1 % 2)) else s
  s.abortCourse 6

/-- What a request of an owner comes to when it fails with an outcome. -/
def State.failOwner (s : State) (o : FabOwner) (st : Nat) : State :=
  match o with
  | .copyRead q seq _ | .copyStore q seq _ _ =>
    s.withWaiting (some (q, seq)) (fun c s => s.fail c (cmdStatus st).1 (cmdStatus st).2)
  | .yealm die d k =>
    let lookup := match s.ydesc? die d with | some y => fieldLe y.raw 0 1 % 4 == 0 | none => false
    let s := if lookup then (s.set F.YLM_STATUS_REMOTE_FAIL 1 die).bump F.YLM_REMOTE_CNT_FAILED 1 die else s
    let s := s.updYdesc die d (fun y => { y with out := y.out.filter (fun w => w != .part k) })
    s.remoteFail die d stRemoteFailed 0
  | .add die d =>
    let s := s.updYdesc die d (fun y => { y with acks := y.acks - 1 })
    s.addFail die d
  | .stage _ _ | .chain _ => s.abortCourse 6
  | .record _ => s.set F.LDG_STATUS_EXPORT_FAIL 1
  | .repair _ _ => s.repairFail
  | .move t k => s.moveFail t k
  | .forward src epoch tag => s.respond src epoch tag 0x82 2 false []
  | .ident q seq => s.withWaiting (some (q, seq)) (fun c s => s.fail c (cmdStatus st).1 (cmdStatus st).2)
  | .control => s
  | .coll q seq =>
    (s.updFab (fun f => { f with colls := f.colls.filter (fun y => !(y.q == q && y.seq == seq)) })).withWaiting (some (q, seq))
      (fun c s => s.fail c (cmdStatus st).1 (cmdStatus st).2)

/-! ## Making a request -/

/-- The planned batten of what an owner's request serves (PBATTEN): that of a command or a descriptor, of the program that
pushes or that writes a chain's DEST, otherwise the present one. -/
def State.ownerPlan (s : State) (o : FabOwner) : Nat :=
  let cluster (g : Nat) : Nat := s.programPlan g
  match o with
  | .copyRead q seq _ | .copyStore q seq _ _ | .ident q seq | .coll q seq =>
    (match s.cmd? q seq with | some c => c.plan | none => s.course.plan)
  | .yealm die d _ | .add die d =>
    (match s.ydesc? die d with | some y => y.plan.getD s.course.plan | none => s.course.plan)
  | .stage key _ =>
    (match s.course.prog with
     | some p => (match p.stages.find? (fun d => d.die * 512 + d.k == key) with
       | some d => (match d.producer with | .cluster g => cluster (g % 1024) | .queue _ => s.course.plan)
       | none => s.course.plan)
     | none => s.course.plan)
  | .chain id =>
    (match s.course.prog with
     | some p => (match p.chains.find? (fun c => c.id == id) with
       | some c => (match c.members.getLast? with | some m => cluster m.cluster | none => s.course.plan)
       | none => s.course.plan)
     | none => s.course.plan)
  | _ => s.course.plan

/-- A request of an owner: refused at once without a device number (R273), for a lost peer (R284) or an operation that
its link does not carry (R292); otherwise issued. -/
def State.ask (s : State) (q dev op addr len : Nat) (payload : List Byte) (o : FabOwner) (wad : Bool) : State :=
  match s.noSend dev with
  | some st => s.failOwner o st
  | none =>
    let r := s.request q dev op addr len payload o (s.ownerPlan o) wad
    match r.1 with
    | some st => r.2.failOwner o st
    | none => r.2

/-- The pieces of a range that do not cross a 4 KiB boundary of the target (R276), as (address, length). -/
def pagePieces : Nat → Nat → Nat → List (Nat × Nat)
  | 0, _, _ => []
  | k + 1, a, n =>
    if n = 0 then []
    else
      let m := min n (4096 - a % 4096)
      (a, m) :: pagePieces k (a + m) (n - m)

def fabPieces (a n : Nat) : List (Nat × Nat) := pagePieces (n / 4096 + 2) a n

/-- A store to a fabric address. -/
def State.fabStore (s : State) (q fa : Nat) (bs : List Byte) (o : FabOwner) (wad : Bool) : State :=
  (fabPieces (faLocal fa) bs.length).foldl (fun s p =>
    s.ask q (faDev fa) 0x02 p.1 0 ((bs.drop (p.1 - faLocal fa)).take p.2) o wad) s

/-- Writes that reached a forwarding source leave for the module to which their shard has moved (R177). -/
def State.sendForwards (s : State) : State :=
  s.tables.outbound.foldl (fun s w => s.fabStore 0 w.2.2.1 w.2.2.2 (.move w.1 w.2.1) false)
    { s with tables := { s.tables with outbound := [] } }

/-- What happens while no command waits: writes that forwarding owes leave (R177), and the timebase counts one tb once S3
has released it (R28, R358; assumption log 1). -/
def State.idle (s : State) : State :=
  let s := s.sendForwards
  if s.timeRuns then s.set F.TBN_TIME_TIME (s.now + 1) else s

/-- Requests of an owner are outstanding. -/
def State.asking (s : State) (o : FabOwner) : Bool := s.fab.reqs.any (fun r => r.owner == o)

end Sys2Proof.Machine
end

