-- ==== Sys2Proof/Machine/TileIssue.lean ====
section
/-! DEFINITION. How the control core issues one instruction of a tile program: the fetch, the checks of R141, R136 and
R157, the waits of R138, R139 and R135, and retirement. -/
namespace Sys2Proof.Machine

/-! ## Fields of format R (Table 6.1) -/

def rRd (w : Nat) : Nat := bits w 8 6
def rRa (w : Nat) : Nat := bits w 14 6
def rRb (w : Nat) : Nat := bits w 20 6
def rFn (w : Nat) : Nat := bits w 26 6
def rImm (w : Nat) : Nat := bits w 32 32

/-- IMM sign-extended to 64 bits. -/
def rSext (w : Nat) : Word := BitVec.ofInt 64 (sext 32 (rImm w))

/-- An instruction of format R uses only the fields named, and its FN and IMM stay at or below their largest codes. -/
def legalR (w : Nat) (rd ra rb : Bool) (fnMax immMax : Nat) : Bool :=
  (rd || rRd w == 0) && (ra || rRa w == 0) && (rb || rRb w == 0) && decide (rFn w ≤ fnMax) && decide (rImm w ≤ immMax)

/-- Every value of IMM. -/
def anyImm : Nat := 2 ^ 32 - 1

/-- The opcodes of Table 6.2. -/
def tileOps : List Nat :=
  [0x00, 0x01, 0x02, 0x03, 0x04, 0x05, 0x08, 0x09, 0x0A, 0x20, 0x21, 0x22, 0x23, 0x24, 0x25, 0x30, 0x31] ++
  [0x40, 0x41, 0x42, 0x43, 0x44, 0x45, 0x46, 0x48, 0x49, 0x4A, 0x4B, 0x4C, 0x4D, 0x4E, 0x50] ++
  [0x60, 0x61, 0x62, 0x63, 0x64, 0x66]

/-! ## When an instruction may issue -/

/-- The program of a cluster is a wadding program. -/
def State.isWadding (s : State) (g : Nat) : Bool := s.get F.CC_STATE_STATE g == 2

/-- The control core may issue: a program runs and has not reached END, the core is not halted (R163) and waits for no
slot and no barrier, and a course program is in a work slot (R32, R135). -/
def State.canIssue (s : State) (g : Nat) : Bool :=
  let st := s.get F.CC_STATE_STATE g
  let c := s.cl g
  (st == 2 || (st == 1 && s.frame.slot == 0)) && c.run.isSome && !c.ending &&
  !s.bit F.CC_STATE_SLOT_WAIT g && !s.bit F.CC_STATE_BAR_WAIT g && (!s.bit F.CC_STATE_HALTED g || c.step)

/-- The scalar registers whose write is pending (R138): LDM responses and VSUM results. -/
def Cluster.pendingRegs (c : Cluster) : List Nat :=
  c.ldm.map (fun p => p.1) ++ (c.vq.filter (fun v => bits v.word 0 8 == 0x50)).map (fun v => bits v.word 17 6)

/-- A register other than s0 has a write pending. -/
def Cluster.regPending (c : Cluster) (n : Nat) : Bool := n != 0 && c.pendingRegs.contains n

/-- A wadding program may name a scalar register (R136). -/
def wadReg (n : Nat) : Bool := decide (n ≤ 8) || decide (48 ≤ n)

/-- A wadding program may name a tile (R136). -/
def wadTile (t : Nat) : Bool := decide (16 ≤ t) && decide (t ≤ 23)

/-! ## Faults and retirement -/

/-- A fault of a tile program (R157), with the status bits and counts that its rule names (R120, R121, R130). -/
def State.raiseTile (s : State) (g code addr : Nat) : State :=
  let s : State :=
    if code = 7 then s.set F.ACC_STATUS_PARTNER_FAULT 1 g
    else if code = 8 then s.set F.ACC_STATUS_HAZARD_FAULT 1 g
    else if code = 9 then (s.set F.ACC_STATUS_LSOVF_FAULT 1 g).bump F.ACC_LSUM_LSOVF_COUNT 1 g
    else s
  s.tileFault g code addr

/-- A fault that an instruction raises: its code, the address, tile or queue involved, and whether an unmapped address
is the reason, which its gutter event records (R16, R157). -/
structure TFault where
  code : Nat
  addr : Nat
  miss : Bool
  deriving DecidableEq, Repr

/-- A fault that is no unmapped address. -/
def tf (code addr : Nat) : TFault := ⟨code, addr, false⟩

/-- Faults of a code under a condition. -/
def faultIf (c : Bool) (code addr : Nat) : List TFault := if c then [tf code addr] else []

/-- The fault of the smallest code (R157). -/
def leastFault : List TFault → Option TFault
  | [] => none
  | f :: fs =>
    match leastFault fs with
    | none => some f
    | some m => if m.code < f.code then some m else some f

/-- An instruction has issued: it counts, and the program goes on at `n`; a target outside program memory, or not
8-byte aligned, is a fetch fault at the target (R143). -/
def State.retire (s : State) (g n : Nat) : State :=
  let s := (s.bumpWrap F.CC_RETIRED_COUNT 1 g).set F.CC_STATE_PC n g
  let s := ((s.set F.CC_STATE_REG_WAIT 0 g).set F.CC_STATE_SQ_WAIT 0 g).updCl g (fun c => { c with step := false, sqSince := none })
  if n % 8 = 0 ∧ n ≤ 0x3FFF8 then s else s.raiseTile g 2 n

/-- The word at the PC. -/
def State.fetchWord (s : State) (g : Nat) : Nat := ofLe (tableBytes (s.cl g).pm (s.get F.CC_STATE_PC g) 8)

/-- What an instruction brings to its issue: its opcode, whether a word of it is legal, the scalar registers that it
names, whether they and its other operands lie in the wadding partition, what it waits for (the state while it waits),
the faults that it raises, its effect, and where the program goes on. -/
structure TileOp where
  op : Nat
  legal : Nat → Bool
  regs : Nat → List Nat
  wad : Nat → Bool
  wait : State → Nat → Option State
  faults : State → Nat → List TFault
  run : State → Nat → State
  next : State → Nat → Nat

/-- The instruction after the present one. -/
def State.seqPc (s : State) (g : Nat) : Nat := s.get F.CC_STATE_PC g + 8

/-- An instruction of a cluster issues, waits or faults. A word of another instruction leaves the row without an occasion
(assumption log 4); a reserved opcode faults. -/
def State.issue (s : State) (g : Nat) (t : TileOp) : State :=
  if !s.canIssue g then s
  else
    let w := s.fetchWord g
    let o := bits w 0 8
    if !tileOps.contains o then s.raiseTile g 1 0
    else if o != t.op then s
    else if !t.legal w then s.raiseTile g 1 0
    else if (t.regs w).any (s.cl g).regPending then s.set F.CC_STATE_REG_WAIT 1 g
    else
      match t.wait s w with
      | some u => u
      | none =>
        let part := s.isWadding g && !((t.regs w).all wadReg && t.wad w)
        match leastFault (t.faults s w ++ faultIf part 0x0E 0) with
        | some f => (if f.miss then s.missEvent (.tile g) f.addr else s).raiseTile g f.code f.addr
        | none =>
          let n := t.next s w
          (t.run s w).retire g n

/-- A scalar instruction: it waits for nothing but its registers, and goes on at the next word. -/
def scalarOp (g op : Nat) (legal : Nat → Bool) (regs : Nat → List Nat) (faults : State → Nat → List TFault)
    (run : State → Nat → State) : TileOp :=
  ⟨op, legal, regs, fun _ => true, fun _ _ => none, faults, run, fun s _ => s.seqPc g⟩

/-- No fault. -/
def noFaults : State → Nat → List TFault := fun _ _ => []

end Sys2Proof.Machine
end

