-- ==== Sys2Proof/Machine/TileScalar.lean ====
section
/-! DEFINITION. Scalar, control, memory and DMA instructions of tile programs (R143 to R147). -/
namespace Sys2Proof.Machine

/-! ## Scalar and control instructions (Table 6.3) -/

/-- No operation: the program goes on. -/
def execNop (g : Fin 1024) (s : State) : Out :=
  .next (s.issue g (scalarOp g 0x00 (fun w => legalR w false false false 0 0) (fun _ => []) noFaults (fun s _ => s)))

/-- The integer operations of ALU and ALUI. -/
def aluFn (fn : Nat) (a b : Word) : Word :=
  match fn with
  | 0 => a + b
  | 1 => a - b
  | 2 => a * b
  | 3 => a &&& b
  | 4 => a ||| b
  | 5 => a ^^^ b
  | 6 => a <<< (b.toNat % 64)
  | 7 => a >>> (b.toNat % 64)
  | 8 => a.sshiftRight (b.toNat % 64)
  | 9 => if a.toInt ≤ b.toInt then a else b
  | 10 => if a.toInt ≤ b.toInt then b else a
  | 11 => if a.toInt < b.toInt then 1#64 else 0#64
  | _ => if a.toNat < b.toNat then 1#64 else 0#64

def aluOp (g : Nat) : TileOp :=
  scalarOp g 0x01 (fun w => legalR w true true true 12 0) (fun w => [rRd w, rRa w, rRb w]) noFaults
    (fun s w => s.setSreg g (rRd w) (aluFn (rFn w) (s.sreg g (rRa w)) (s.sreg g (rRb w))))

def execAlu (g : Fin 1024) (s : State) : Out := .next (s.issue g (aluOp g))

def aluiOp (g : Nat) : TileOp :=
  scalarOp g 0x02 (fun w => legalR w true true false 12 anyImm) (fun w => [rRd w, rRa w]) noFaults
    (fun s w => s.setSreg g (rRd w) (aluFn (rFn w) (s.sreg g (rRa w)) (rSext w)))

def execAlui (g : Fin 1024) (s : State) : Out := .next (s.issue g (aluiOp g))

def lihOp (g : Nat) : TileOp :=
  scalarOp g 0x03 (fun w => legalR w true false false 0 anyImm) (fun w => [rRd w]) noFaults
    (fun s w => s.setSreg g (rRd w) (fset 32 32 (s.sreg g (rRd w)) (rImm w)))

def execLih (g : Fin 1024) (s : State) : Out := .next (s.issue g (lihOp g))

/-- The F32 value in bits [31:0] of a scalar register. -/
def lowF32 (v : Word) : F32 := BitVec.ofNat 32 v.toNat

/-- An F32 result in a scalar register: bits [63:32] cleared. -/
def regOfF32 (v : F32) : Word := BitVec.ofNat 64 v.toNat

/-- FALU: result and event (Table 6.3). -/
def faluFn (ieee : Bool) (fn : Nat) (a b : Word) : Word × Evt :=
  let f (op : FOp) : Word × Evt :=
    let r := f32op ieee op (lowF32 a) (lowF32 b) 0#32
    (regOfF32 r.1, r.2)
  match fn with
  | 0 => f .add
  | 1 => f .sub
  | 2 => f .mul
  | 3 => f .div
  | 4 => f .sqrt
  | 5 => f .min
  | 6 => f .max
  | 7 => f .abs
  | 8 => fcvti (lowF32 a)
  | _ =>
    let r := icvtf a
    (regOfF32 r.1, r.2)

/-- FALU codes that read one operand. -/
def faluUnary (fn : Nat) : Bool := [4, 7, 8, 9].contains fn

/-- Counting events against the conversion context and the launching queue (R143, R144). -/
def State.ctxEvents (s : State) (g : Nat) (n : EvCount) : State :=
  s.countEvents (s.launchQueue g) (s.cl g).ctxTid n

def faluOp (g : Nat) : TileOp :=
  scalarOp g 0x04 (fun w => legalR w true true (!faluUnary (rFn w)) 9 0)
    (fun w => [rRd w, rRa w] ++ (if faluUnary (rFn w) then [] else [rRb w])) noFaults
    (fun s w =>
      let r := faluFn s.ieee (rFn w) (s.sreg g (rRa w)) (s.sreg g (rRb w))
      (s.setSreg g (rRd w) r.1).ctxEvents g (EvCount.zero.add r.2))

def execFalu (g : Fin 1024) (s : State) : Out := .next (s.issue g (faluOp g))

/-- A scale and zero point from one amax, or from two ends of a range, with the events counted (R144). -/
def scaleFrom (f : Fmt) (pow : Bool) (a b : F32) : ScaleRes × EvCount :=
  let x := scaleInput a
  let y := if f = .u8 then scaleInput b else (0, none)
  let mag (r : Rat) : Rat := if r < 0 then -r else r
  let r := if f = .u8 then u8Scale pow (min x.1 y.1) (max x.1 y.1) else symScale f pow (mag x.1)
  let n := ((EvCount.zero.add x.2).add y.2).add r.ev
  (r, if r.degen then n.addDegen else n)

/-- FMT of SSCALE and VSCALE: F8a, F8b, I8 or U8. -/
def scaleFmt (c : Nat) : Option Fmt :=
  match fmtOfCode c with
  | some .f8a => some .f8a
  | some .f8b => some .f8b
  | some .i8 => some .i8
  | some .u8 => some .u8
  | _ => none

def sscaleOp (g : Nat) : TileOp :=
  scalarOp g 0x05 (fun w => legalR w true true (rFn w % 16 == 6) 31 0 && decide (rFn w % 16 ≤ 8))
    (fun w => [rRd w, rRa w] ++ (if rFn w % 16 = 6 then [rRb w] else []))
    (fun _ w => faultIf (scaleFmt (rFn w % 16)).isNone 5 0)
    (fun s w =>
      match scaleFmt (rFn w % 16) with
      | some f =>
        let r := scaleFrom f (rFn w / 16 % 2 == 1) (lowF32 (s.sreg g (rRa w))) (lowF32 (s.sreg g (rRb w)))
        (s.setSreg g (rRd w) (BitVec.ofNat 64 (r.1.scale + r.1.zp * 2 ^ 16))).ctxEvents g r.2
      | none => s)

def execSscale (g : Fin 1024) (s : State) : Out := .next (s.issue g (sscaleOp g))

/-- The conditions of BR. -/
def brCond (fn : Nat) (a b : Word) : Bool :=
  match fn with
  | 0 => a == b
  | 1 => a != b
  | 2 => decide (a.toInt < b.toInt)
  | 3 => decide (b.toInt ≤ a.toInt)
  | 4 => decide (a.toNat < b.toNat)
  | 5 => decide (b.toNat ≤ a.toNat)
  | 6 => f32cmp .lt (lowF32 a) (lowF32 b)
  | 7 => f32cmp .ge (lowF32 a) (lowF32 b)
  | _ => true

/-- PC + 8 × imm modulo 2^64. -/
def State.relPc (s : State) (g w : Nat) : Nat :=
  (BitVec.ofNat 64 (s.get F.CC_STATE_PC g) + 8#64 * rSext w).toNat

def brOp (g : Nat) : TileOp :=
  { scalarOp g 0x08 (fun w => legalR w false (rFn w != 8) (rFn w != 8) 8 anyImm)
      (fun w => if rFn w = 8 then [] else [rRa w, rRb w]) noFaults (fun s _ => s) with
    next := fun s w =>
      if brCond (rFn w) (s.sreg g (rRa w)) (s.sreg g (rRb w)) then s.relPc g w else s.seqPc g }

def execBr (g : Fin 1024) (s : State) : Out := .next (s.issue g (brOp g))

def jalOp (g : Nat) : TileOp :=
  { scalarOp g 0x09 (fun w => legalR w true false false 0 anyImm) (fun w => [rRd w]) noFaults
      (fun s w => s.setSreg g (rRd w) (BitVec.ofNat 64 (s.seqPc g))) with
    next := fun s w => s.relPc g w }

def execJal (g : Fin 1024) (s : State) : Out := .next (s.issue g (jalOp g))

def jalrOp (g : Nat) : TileOp :=
  { scalarOp g 0x0A (fun w => legalR w true true false 0 0) (fun w => [rRd w, rRa w]) noFaults
      (fun s w => s.setSreg g (rRd w) (BitVec.ofNat 64 (s.seqPc g))) with
    next := fun s w => (s.sreg g (rRa w)).toNat }

def execJalr (g : Fin 1024) (s : State) : Out := .next (s.issue g (jalrOp g))

/-! ## Memory and DMA (R145, R146) -/

/-- The address ra + sext(imm), modulo 2^64. -/
def State.effAddr (s : State) (g w : Nat) : Nat := (s.sreg g (rRa w) + rSext w).toNat

/-- The address faults of LDL and STL. -/
def State.lbFaults (s : State) (g w : Nat) : List TFault :=
  let a := s.effAddr g w
  faultIf (!(decide (a % 8 = 0) && decide (a ≤ 0x1FFFF8))) 3 a

/-- The address faults of LDM and STM. -/
def State.memFaults (s : State) (g w : Nat) : List TFault :=
  let a := s.effAddr g w
  if a % 8 ≠ 0 then [tf 3 a] else if s.rangeMapped a 8 then [] else [⟨3, a, true⟩]

def ldlOp (g : Nat) : TileOp :=
  scalarOp g 0x20 (fun w => legalR w true true false 0 anyImm) (fun w => [rRd w, rRa w]) (fun s w => s.lbFaults g w)
    (fun s w => (s.setSreg g (rRd w) (BitVec.ofNat 64 (s.lbNat g (s.effAddr g w) 8))).act (s.launchQueue g) 4 1)

def execLdl (g : Fin 1024) (s : State) : Out := .next (s.issue g (ldlOp g))

/-- A store of the local buffer waits while its range is pinned (R161). -/
def State.lbWait (s : State) (g a n : Nat) : Option State :=
  if (s.cl g).pinned a n then some (s.pinWait g) else none

def stlOp (g : Nat) : TileOp :=
  { scalarOp g 0x21 (fun w => legalR w false true true 0 anyImm) (fun w => [rRa w, rRb w]) (fun s w => s.lbFaults g w)
      (fun s w => (s.lbPut g (s.effAddr g w) (leBytes 8 (s.sreg g (rRb w)).toNat)).act (s.launchQueue g) 4 1) with
    wait := fun s w => s.lbWait g (s.effAddr g w) 8 }

def execStl (g : Fin 1024) (s : State) : Out := .next (s.issue g (stlOp g))

/-- LDM: the load is issued, and its response will write the register; a load of a busy accumulator tile waits. -/
def ldmOp (g : Nat) : TileOp :=
  { scalarOp g 0x22 (fun w => legalR w true true false 0 anyImm) (fun w => [rRd w, rRa w]) (fun s w => s.memFaults g w)
      (fun s w =>
        let r := s.busRead (.tile g) (s.effAddr g w) 8
        (r.st.updCl g (fun c => { c with ldm := c.ldm ++ [(rRd w, BitVec.ofNat 64 (ofLe r.bytes), ownerDie (s.effAddr g w), c.serial)], serial := c.serial + 1 })).actMem
          (s.launchQueue g) (s.effAddr g w) 8) with
    wait := fun s w =>
      if (s.memFaults g w).isEmpty then
        let r := s.busRead (.tile g) (s.effAddr g w) 8
        if r.waits then some r.st else none
      else none }

def execLdm (g : Fin 1024) (s : State) : Out := .next (s.issue g (ldmOp g))

/-- The loads that can have their response next: of each die the oldest, since responses of one die return in the order
of the requests (R12). -/
def Cluster.ldmHeads (c : Cluster) : List (Nat × Word × Nat × Nat) :=
  c.ldm.zipIdx.filterMap (fun p => if (c.ldm.take p.2).any (fun x => x.2.2.1 == p.1.2.2.1) then none else some p.1)

/-- The response of a load of a register arrives, in the order of its die (R12). -/
def execLdmResponse (g : Fin 1024) (rd : Fin 64) (s : State) : Out :=
  match (s.cl g).ldmHeads.find? (fun p => p.1 == rd.val) with
  | none => .next s
  | some p => .next ((s.updCl g (fun c => { c with ldm := c.ldm.erase p })).setSreg g p.1 p.2.1)

/-- The faults of a write of module memory by a tile program (R52, R145, R146, R164, R183). -/
def State.storeFaults (s : State) (g a n : Nat) : List TFault :=
  match s.writeStop (.tile g) (s.isWadding g) a n with
  | some .wadding => [tf 0x0A a]
  | some .locked => [tf 3 a]
  | none => []

def stmOp (g : Nat) : TileOp :=
  { scalarOp g 0x23 (fun w => legalR w false true true 0 anyImm) (fun w => [rRa w, rRb w])
      (fun s w =>
        let f := s.memFaults g w
        if f.isEmpty then s.storeFaults g (s.effAddr g w) 8 else f)
      (fun s w =>
        match s.busWrite (.tile g) (s.isWadding g) (s.effAddr g w) (leBytes 8 (s.sreg g (rRb w)).toNat) with
        | .done t => t.actMem (s.launchQueue g) (s.effAddr g w) 8
        | .miss t => t
        | .stopped _ t => t
        | .waits t => t) with
    wait := fun s w =>
      if (s.memFaults g w).isEmpty then
        match s.busWrite (.tile g) (s.isWadding g) (s.effAddr g w) (leBytes 8 (s.sreg g (rRb w)).toNat) with
        | .waits t => some t
        | _ => none
      else none }

def execStm (g : Fin 1024) (s : State) : Out := .next (s.issue g (stmOp g))

/-- The transfer that a descriptor in the local buffer gives (Table 6.4). -/
def State.dmaDesc (s : State) (g dir a : Nat) : DmaOp :=
  let b := s.lbRead g a 32
  { serial := (s.cl g).serial, dir := dir, src := fieldLe b 0 8, dst := fieldLe b 8 8, rowBytes := fieldLe b 16 4,
    rows := fieldLe b 20 2 + 1, sstride := fieldLe b 24 4, dstride := fieldLe b 28 4, wadding := s.isWadding g, row := 0 }

/-- The first row of one side of a transfer that is not within the local buffer. -/
def rowOutside (base stride n rows : Nat) : Option Nat :=
  (List.range rows).findSome? (fun i => if base + i * stride + n ≤ lbSize then none else some (base + i * stride))

/-- The first row of one side of a transfer with an unmapped byte. -/
def State.rowUnmapped (s : State) (base stride n rows : Nat) : Option Nat :=
  (List.range rows).findSome? (fun i => if s.rangeMapped (base + i * stride) n then none else some (base + i * stride))

/-- The faults of one side of a transfer: within the local buffer, or mapped in the module. -/
def State.dmaSide (s : State) (module : Bool) (base stride n rows : Nat) : List TFault :=
  if module then (match s.rowUnmapped base stride n rows with | some a => [⟨3, a, true⟩] | none => [])
  else (match rowOutside base stride n rows with | some a => [tf 3 a] | none => [])

/-- The faults of DMA: the descriptor's place, its size, every byte of it, protection (R146). -/
def State.dmaFaults (s : State) (g w : Nat) : List TFault :=
  let a := (s.sreg g (rRa w)).toNat
  if lbSize < a + 32 then [tf 3 a]
  else
    let d := s.dmaDesc g (rFn w) a
    if d.rowBytes = 0 ∨ 2 ^ 20 < d.rowBytes then [tf 3 a]
    else
      let f := s.dmaSide (d.dir == 0) d.src d.sstride d.rowBytes d.rows ++
        s.dmaSide (d.dir == 1) d.dst d.dstride d.rowBytes d.rows
      if f.isEmpty then
        (if d.dir = 1 then (List.range d.rows).flatMap (fun i => s.storeFaults g (d.dst + i * d.dstride) d.rowBytes)
         else [])
      else f

def State.dmaQueue (s : State) (g ch : Nat) : List DmaOp := Sparse.get [] (s.cl g).dq ch

def State.setDmaQueue (s : State) (g ch : Nat) (l : List DmaOp) : State :=
  (s.updCl g (fun c => { c with dq := Sparse.put [] c.dq ch l })).syncEngines g

/-- DMA: a channel holds four transfers beside the one it moves. -/
def dmaOp (g : Nat) : TileOp where
  op := 0x24
  legal w := legalR w false true false 2 3
  regs w := [rRa w]
  wad w := rImm w == 3
  wait s w := if 5 ≤ (s.dmaQueue g (rImm w)).length then some s else none
  faults s w := s.dmaFaults g w
  run s w :=
    let d := s.dmaDesc g (rFn w) (s.sreg g (rRa w)).toNat
    (s.updCl g (fun c => { c with serial := c.serial + 1 })).setDmaQueue g (rImm w) (s.dmaQueue g (rImm w) ++ [d])
  next s _ := s.seqPc g

def execDma (g : Fin 1024) (s : State) : Out := .next (s.issue g (dmaOp g))

/-- How a part of a transfer ended: it moved, its destination is pinned by an audit, or it waits for a busy tile. -/
inductive DmaHold
  | moved
  | pinned
  | waits
  deriving DecidableEq, Repr

/-- How far a transfer has come: how its last part ended, how many parts have moved, and the state. -/
structure DmaEnd where
  how : DmaHold
  row : Nat
  st : State

/-- Moves `n` bytes at offset `o` of row `i` of a transfer (R146). -/
def State.dmaPart (s : State) (g : Nat) (d : DmaOp) (i o n : Nat) : DmaHold × State :=
  let a := d.src + i * d.sstride + o
  let b := d.dst + i * d.dstride + o
  let q := s.launchQueue g
  let r : BusRead := if d.dir = 0 then s.busRead (.tile g) a n else ⟨s.lbRead g a n, false, false, false, s⟩
  if r.waits then (.waits, r.st)
  else
    let t := if d.dir = 0 then r.st.actMem q a n else r.st
    if d.dir = 1 then
      match t.busWrite (.tile g) d.wadding b r.bytes with
      | .done t => (.moved, t.actMem q b n)
      | .miss t | .stopped _ t => (.moved, t)
      | .waits t => (.waits, t)
    else if (t.cl g).pinned b n then (.pinned, s)
    else (.moved, t.lbPut g b r.bytes)

/-- Parts of a transfer, in order; `k` have moved before. -/
def dmaParts (g : Nat) (d : DmaOp) : List (Nat × Nat × Nat) → Nat → State → DmaEnd
  | [], k, s => ⟨.moved, k, s⟩
  | p :: ps, k, s =>
    let r := s.dmaPart g d p.1 p.2.1 p.2.2
    if r.1 = .moved then dmaParts g d ps (k + 1) r.2 else ⟨r.1, k, r.2⟩

/-- The rows of a transfer, and its 64-byte lines at the destination, that it has still to move. -/
def DmaOp.byRow (d : DmaOp) : List (Nat × Nat × Nat) := ((List.range d.rows).drop d.row).map (fun i => (i, 0, d.rowBytes))
def DmaOp.byLine (d : DmaOp) : List (Nat × Nat × Nat) :=
  ((List.range d.rows).drop d.row).flatMap (fun i =>
    let b := d.dst + i * d.dstride
    (pieces b d.rowBytes).map (fun p => (i, p.1 - b, p.2)))

/-- The bytes that a channel has moved. -/
def State.dmaCount (s : State) (g n : Nat) : State := (s.bump F.DMA_BYTES_BYTES n g).act (s.launchQueue g) 4 (ceilDiv n 64)

/-- The transfer at the head of a channel has moved its last row (R146). One whose destination is pinned waits for the
audit, whose units take precedence then (R161); one that touches a busy tile waits for its turn (R131). -/
def execDmaComplete (g : Fin 1024) (ch : Fin 4) (s : State) : Out :=
  match s.dmaQueue g ch with
  | [] => .next s
  | d :: rest =>
    let r := dmaParts g d d.byRow d.row s
    let held := r.st.setDmaQueue g ch ({ d with row := r.row } :: rest)
    match r.how with
    | .pinned => .next (held.pinWait g)
    | .waits => .next held
    | .moved => .next (((r.st.dmaCount g (d.rows * d.rowBytes)).setDmaQueue g ch rest).drainFaulted g)

/-! ## WAIT (R147) -/

/-- Every operation of the classes of an immediate has completed. Posted stores take effect when they issue. -/
def Cluster.waitDone (c : Cluster) (imm : Nat) : Bool :=
  (imm % 2 == 0 || c.mq.isEmpty) && (imm / 2 % 2 == 0 || c.vq.isEmpty) &&
  (List.range 4).all (fun h => imm / 2 ^ (2 + h) % 2 == 0 || (Sparse.get [] c.dq h).isEmpty) &&
  (imm / 64 % 2 == 0 || c.copies.isEmpty) && (imm / 128 % 2 == 0 || c.chains.isEmpty)

def waitOp (g : Nat) : TileOp :=
  { scalarOp g 0x25 (fun w => legalR w false false false 0 0x1FF) (fun _ => []) noFaults (fun s _ => s) with
    wait := fun s w => if (s.cl g).waitDone (rImm w) then none else some s }

def execWait (g : Fin 1024) (s : State) : Out := .next (s.issue g (waitOp g))

end Sys2Proof.Machine
end

