-- ==== Sys2Proof/Machine/TileVector.lean ====
section
/-! DEFINITION. The vector engine: the instructions of Table 6.5, their masks, status bits and conversion context, and
the vector queue (R139, R150 to R155). -/
namespace Sys2Proof.Machine

/-! ## Fields (Tables 6.1 and 6.5) -/

/-- The fields of format V. -/
inductive VFld | vd | va | vb | mk | sb | rs | ra | rb | fn | fmt | rnd | ss | t
  deriving DecidableEq, Repr

def VFld.of (x : VFld) (f : VecF) : Nat :=
  match x with
  | .vd => f.vd | .va => f.va | .vb => f.vb | .mk => f.mask | .sb => f.sb | .rs => f.rs | .ra => f.ra | .rb => f.rb
  | .fn => f.fn | .fmt => f.fmt | .rnd => f.rnd | .ss => f.ss | .t => f.t

def allVFlds : List VFld := [.vd, .va, .vb, .mk, .sb, .rs, .ra, .rb, .fn, .fmt, .rnd, .ss, .t]

/-- The second operand of an element-wise operation. -/
def vSecond (f : VecF) : List VFld := [.sb, if f.sb = 1 then .rs else .vb]

/-- The fields that a vector instruction uses. -/
def vUsed (f : VecF) : List VFld :=
  match f.op with
  | 0x40 => [.ra, .rb, .rs]
  | 0x41 => [.vd, .mk, .rs, .ra, .rb, .fmt]
  | 0x42 => [.va, .mk, .ra, .rb, .fmt, .rnd, .ss, if f.ss = 1 then .vb else .rs]
  | 0x43 => [.vd, .vb, .mk, .rs, .ra, .fmt]
  | 0x44 => [.va, .vb, .mk, .rs, .ra, .fmt, .rnd]
  | 0x45 => [.vd, .mk, .ss, .t]
  | 0x46 => [.vd, .mk, .rs]
  | 0x48 => [.vd, .va, .mk, .fn] ++
      (if f.fn = 10 then [.fmt, .rnd] else if [6, 7, 9].contains f.fn then [] else vSecond f)
  | 0x49 => [.vd, .va, .mk, .fn]
  | 0x4A => [.vd, .va, .mk, .fn] ++ vSecond f
  | 0x4B => [.vd, .fn] ++ (if f.fn ≤ 3 then [.va, .vb] else if f.fn = 4 then [.va] else [.rs])
  | 0x4C => [.vd, .va, .mk]
  | 0x4D => [.vd, .va, .mk, .fn]
  | 0x4E => [.vd, .va, .mk, .fn, .fmt]
  | _ => [.va, .mk, .rs, .fn]

/-- FN is a code that the instruction has. -/
def vFnOk (f : VecF) : Bool :=
  match f.op with
  | 0x48 => decide (f.fn ≤ 10)
  | 0x49 => decide (f.fn ≤ 7)
  | 0x4A => decide (f.fn ≤ 5)
  | 0x4B => decide (f.fn ≤ 7)
  | 0x4D => decide (f.fn < 16) && decide (f.fn % 8 ≤ 3)
  | 0x4E => decide (f.fn ≤ 1)
  | 0x50 => decide (f.fn < 16) && decide (f.fn % 8 ≤ 6)
  | _ => true

/-- The word is legal (R141, R55): unused fields zero, no reserved code. -/
def vLegal (w : Nat) : Bool :=
  let f := vecF w
  let used := vUsed f
  f.rsv == 0 && vFnOk f && (!used.contains .fmt || decide (f.fmt ≤ 8)) &&
  allVFlds.all (fun x => used.contains x || x.of f == 0)

/-- The scalar registers that it names. -/
def vRegs (w : Nat) : List Nat :=
  let f := vecF w
  (vUsed f).filterMap (fun x => match x with | .rs => some f.rs | .ra => some f.ra | .rb => some f.rb | _ => none)

/-- It works on buffer pairs: VHAD, VROW and VSUM with FN[3], VSCALE for U8; VST SS 1 for U8 reads a pair VB. -/
def vPair (f : VecF) : Bool :=
  f.op == 0x4C || ((f.op == 0x4D || f.op == 0x50) && f.fn / 8 % 2 == 1) || (f.op == 0x4E && f.fmt == 6)

/-- VST with a zero point per element. -/
def vPairB (f : VecF) : Bool := f.op == 0x42 && f.ss == 1 && f.fmt == 6

/-- What it names lies in the wadding partition (R136): buffer v3, masks m0 and m3, tiles t16 to t23. -/
def vWad (w : Nat) : Bool :=
  let f := vecF w
  let used := vUsed f
  let mask := f.op == 0x4B
  let buf (n : Nat) : Bool := if mask then n == 0 || n == 3 else n == 3
  let dst (n : Nat) : Bool := if f.op = 0x4A ∨ mask then n == 0 || n == 3 else n == 3
  (!used.contains .vd || dst f.vd) && (!used.contains .va || buf f.va) && (!used.contains .vb || buf f.vb) &&
  (f.mask == 0 || f.mask == 3) && !(vPair f || vPairB f) && (!used.contains .t || wadTile f.t)

/-! ## Elements -/

/-- The elements that a mask selects, as a 1,024-bit set (R150). -/
def Cluster.maskSet (c : Cluster) (k : Nat) : Nat := if k = 0 then 2 ^ 1024 - 1 else Sparse.get 0 c.masks k

/-- The elements that an instruction processes of those that its mask selects: a tick may cut it short after a row
(R137). -/
def VecOp.sel (v : VecOp) (m : Nat) : Nat := if 32 ≤ v.rows then m else m % 2 ^ (32 * v.rows)

/-- The elements selected, ascending. -/
def setElems (m : Nat) : List Nat := (List.range 1024).filter (fun e => m.testBit e)

/-- A vector memory instruction: VLD, VST, VGATHER, VSCATTER. -/
def vMem (op : Nat) : Bool := decide (0x41 ≤ op) && decide (op ≤ 0x44)

/-- Local buffer offset of an element of a memory instruction, from ra, rb and, for VGATHER and VSCATTER, its index. -/
def vecAddr (f : VecF) (ra rb : Word) (idx : Nat → F32) (e : Nat) : Nat :=
  let size := codeBytes f.fmt
  if f.op = 0x41 ∨ f.op = 0x42 then (ra + BitVec.ofNat 64 (e / 32) * rb + BitVec.ofNat 64 (e % 32 * size)).toNat
  else (ra + BitVec.ofNat 64 ((idx e).toNat * size)).toNat

/-- The element index of R152; `odd` in the odd buffer of a pair. -/
def VecOp.elemIdx (v : VecOp) (e : Nat) (odd : Bool) : Nat :=
  (v.base + e / 32 * v.pitch + e % 32 + (if odd then 32 else 0)) % 2 ^ 40

/-- A buffer takes results at the selected elements, with the status bits of R151. -/
def Cluster.vecPut (c : Cluster) (n m : Nat) (f : Nat → F32 × Evt) : Cluster :=
  let r := (setElems m).map (fun e => (e, f e))
  let old := blockVals c.vbuf n
  let new := r.foldl (fun (l : List F32) p => l.set p.1 p.2.1) old
  let bitsOf (x : Ev) : Nat := r.foldl (fun b p => if p.2.2 = some x then b + 2 ^ p.1 else b) 0
  let keep (t : Sparse Nat) : Nat := let o := Sparse.get 0 t n; o - (o &&& m)
  { c with
    vbuf := putBlock c.vbuf n new
    satb := Sparse.put 0 c.satb n (keep c.satb + bitsOf .sat)
    nfb := Sparse.put 0 c.nfb n (keep c.nfb + bitsOf .nonfin) }

/-- Status bits alone, of the source elements of VST. -/
def Cluster.vecMark (c : Cluster) (n m : Nat) (f : Nat → Evt) : Cluster :=
  let old := blockVals c.vbuf n
  c.vecPut n m (fun e => (old.getD e 0#32, f e))

/-- Counting the events of a vector instruction against its context (R152). -/
def State.vecEvents (s : State) (g : Nat) (v : VecOp) (n : EvCount) : State := s.countEvents (s.launchQueue g) v.tid n

/-- A buffer takes results, one for each selected element, whose events count. -/
def State.vecWrite (s : State) (g : Nat) (v : VecOp) (n m : Nat) (f : Nat → F32 × Evt) : State :=
  let s := s.updCl g (fun c => c.vecPut n m f)
  s.vecEvents g v (EvCount.ofList ((setElems m).map (fun e => (f e).2)))

/-! ## Effects (Table 6.5) -/

/-- Scale, zero point and event of RS: read under R61 for the scaled formats. -/
def rsScale (f : Fmt) (rs : Word) : Rat × Nat × Evt :=
  if f.scaled then
    let r := readS16 (rs.toNat % 65536)
    (r.1, rs.toNat / 2 ^ 16 % 256, r.2)
  else (1, 0, none)

/-- Format of a vector instruction; W96 has faulted at issue. -/
def VecF.format (f : VecF) : Fmt := (fmtOfCode f.fmt).getD .f32

/-- VLD and VGATHER. -/
def State.vldRun (s : State) (g : Nat) (v : VecOp) : State :=
  let f := vecF v.word
  let c := s.cl g
  let m := v.sel (c.maskSet f.mask)
  if m = 0 then s
  else
    let sc := rsScale f.format v.rs
    let idx := blockVals c.vbuf f.vb
    let addr (e : Nat) : Nat := vecAddr f v.ra v.rb (fun e => idx.getD e 0#32) e
    let ieee := s.ieee
    let get (e : Nat) : F32 × Evt :=
      loadElem ieee f.format sc.1 sc.2.1 (ofLe (tableBytes c.lb (addr e) (codeBytes f.fmt)))
    (s.vecWrite g v f.vd m get).vecEvents g v (EvCount.zero.add sc.2.2)

/-- The S16 scale and event of an F32 element (VST SS 1): its value rounded to S16 and read under R61; a value that is
not positive or not finite has no valid code. -/
def elemScale (x : F32) : Rat × Evt :=
  match dec32 x with
  | .fin false m => readS16 (roundFloat specBF16 false .rna false m).1
  | _ => readS16 0

/-- The zero point of an F32 element (VST SS 1): RNA to an integer, limited to 0 to 255, a NaN as 0. -/
def elemZero (x : F32) : Nat :=
  match dec32 x with
  | .nan => 0
  | .inf n => if n then 0 else 255
  | .fin n m => if n then 0 else min (rnaNat m) 255

/-- VST and VSCATTER: codes and events of the selected elements, as (element, address, code, event). -/
def State.storeCodes (s : State) (g : Nat) (v : VecOp) : List (Nat × Nat × Nat × Evt) :=
  let f := vecF v.word
  let c := s.cl g
  let src := blockVals c.vbuf f.va
  let b := blockVals c.vbuf f.vb
  let b1 := if vPairB f then blockVals c.vbuf (f.vb + 1) else []
  let per := f.op == 0x42 && f.ss == 1 && f.format.scaled
  let sc := rsScale f.format v.rs
  let ieee := s.ieee
  (setElems (v.sel (c.maskSet f.mask))).map (fun e =>
    let es : Rat × Evt := if per then elemScale (b.getD e 0#32) else (sc.1, none)
    let z := if per then (if f.fmt = 6 then elemZero (b1.getD e 0#32) else 0) else sc.2.1
    let r := convert f.format ieee (s.rndFor (f.rnd == 1) v.tid (v.elemIdx e false)) specF32.maxFin es.1 z
      (dec32 (src.getD e 0#32))
    (e, vecAddr f v.ra v.rb (fun e => b.getD e 0#32) e, r.1, worst es.2 r.2))

/-- Elements stored in element order, with their events; an invalid scale in RS counts once (R61). -/
def State.vstRun (s : State) (g : Nat) (v : VecOp) : State :=
  let f := vecF v.word
  let l := s.storeCodes g v
  if l = [] then s
  else
    let s := s.updCl g (fun c => { c with
      lb := l.foldl (fun m p => tablePut m p.2.1 (leBytes (codeBytes f.fmt) p.2.2.1)) c.lb })
    let ev (e : Nat) : Evt := match l.find? (fun p => p.1 == e) with | some p => p.2.2.2 | none => none
    let s := if f.op = 0x42 then s.updCl g (fun c => c.vecMark f.va (v.sel (c.maskSet f.mask)) ev) else s
    let once := if f.op = 0x42 ∧ f.ss = 1 then none else (rsScale f.format v.rs).2.2
    s.vecEvents g v ((EvCount.ofList (l.map (fun p => p.2.2.2))).add once)

/-- VTRD: readout values of a tile; the readout's events count against the tile's tensor (R125). -/
def State.vtrdRun (s : State) (g : Nat) (v : VecOp) : State :=
  let f := vecF v.word
  let m := v.sel ((s.cl g).maskSet f.mask)
  let r := (List.range 1024).map (fun e => if m.testBit e then s.readout g f.t e else (0#32, none))
  let t := s.updCl g (fun c => c.vecPut f.vd m (fun e => r.getD e (0#32, none)))
  t.tileEvents g f.t (s.tileTid g f.t) (EvCount.ofList (r.map Prod.snd))

def State.vbcastRun (s : State) (g : Nat) (v : VecOp) : State :=
  let f := vecF v.word
  s.vecWrite g v f.vd (v.sel ((s.cl g).maskSet f.mask)) (fun _ => (lowF32 v.rs, none))

/-- VOP ROUNDTO: rounded to a format and kept in F32. -/
def roundTo (ieee : Bool) (f : Fmt) (r : Rnd) (x : F32) : F32 × Evt :=
  let p := convert f ieee r specF32.maxFin 1 0 (dec32 x)
  let y := match decodeElem f p.1 1 0 with
    | .nan => nan32
    | .inf n => inf32 n
    | .fin n m => (rna32 ieee n m).1
  (y, p.2)

def vopOf (fn : Nat) : FOp :=
  match fn with
  | 0 => .add | 1 => .sub | 2 => .mul | 3 => .div | 4 => .min | 5 => .max | 6 => .abs | 7 => .neg | _ => .fma

def State.vopRun (s : State) (g : Nat) (v : VecOp) : State :=
  let f := vecF v.word
  let c := s.cl g
  let a := blockVals c.vbuf f.va
  let b := blockVals c.vbuf f.vb
  let d := blockVals c.vbuf f.vd
  let ieee := s.ieee
  s.vecWrite g v f.vd (v.sel (c.maskSet f.mask)) (fun e =>
    let x := a.getD e 0#32
    let y := if f.sb = 1 then lowF32 v.rs else b.getD e 0#32
    if f.fn = 9 then (x, none)
    else if f.fn = 10 then roundTo ieee f.format (s.rndFor (f.rnd == 1) v.tid (v.elemIdx e false)) x
    else f32op ieee (vopOf f.fn) x y (d.getD e 0#32))

def vfnOf (fn : Nat) : FOp :=
  match fn with
  | 0 => .sqrt | 1 => .rsqrt | 2 => .recip | 3 => .exp2 | 4 => .log2 | 5 => .tanh | 6 => .exp | _ => .sigmoid

def State.vfnRun (s : State) (g : Nat) (v : VecOp) : State :=
  let f := vecF v.word
  let c := s.cl g
  let a := blockVals c.vbuf f.va
  let ieee := s.ieee
  s.vecWrite g v f.vd (v.sel (c.maskSet f.mask)) (fun e => f32op ieee (vfnOf f.fn) (a.getD e 0#32) 0#32 0#32)

def vcmpOf (fn : Nat) : Cond :=
  match fn with
  | 0 => .eq | 1 => .ne | 2 => .lt | 3 => .le | 4 => .gt | _ => .ge

/-- A mask takes a set of elements; m0 cannot be written. -/
def State.setMask (s : State) (g n m : Nat) : State :=
  if n = 0 then s else s.updCl g (fun c => { c with masks := Sparse.put 0 c.masks n m })

def State.vcmpRun (s : State) (g : Nat) (v : VecOp) : State :=
  let f := vecF v.word
  let c := s.cl g
  let a := blockVals c.vbuf f.va
  let b := blockVals c.vbuf f.vb
  let old := Sparse.get 0 c.masks f.vd
  s.setMask g f.vd ((setElems (v.sel (c.maskSet f.mask))).foldl (fun m e =>
    let y := if f.sb = 1 then lowF32 v.rs else b.getD e 0#32
    if f32cmp (vcmpOf f.fn) (a.getD e 0#32) y then m + 2 ^ e else m) (old - v.sel old % 2 ^ 1024))

/-- The mask operations of VMSK. -/
def maskFn (fn a b : Nat) (rs : Word) : Nat :=
  let full := 2 ^ 1024 - 1
  match fn with
  | 0 => a &&& b
  | 1 => a ||| b
  | 2 => a ^^^ b
  | 3 => a &&& (full - b)
  | 4 => full - a
  | 5 => (List.range 32).foldl (fun m r => if rs.toNat / 2 ^ r % 2 = 1 then m + (2 ^ 32 - 1) * 2 ^ (32 * r) else m) 0
  | 6 => (List.range 32).foldl (fun m r => m + rs.toNat % 2 ^ 32 * 2 ^ (32 * r)) 0
  | _ => 2 ^ min rs.toNat 1024 - 1

def State.vmskRun (s : State) (g : Nat) (v : VecOp) : State :=
  let f := vecF v.word
  let c := s.cl g
  s.setMask g f.vd (maskFn f.fn (c.maskSet f.va) (c.maskSet f.vb) v.rs)

/-- The mask bits of a row. -/
def rowBits (m r : Nat) : Nat := m / 2 ^ (32 * r) % 2 ^ 32

/-- Row r of a buffer, or of a pair. -/
def rowVals (a b : List F32) (pair : Bool) (r : Nat) : List F32 :=
  (a.drop (32 * r)).take 32 ++ (if pair then (b.drop (32 * r)).take 32 else [])

def State.vhadRun (s : State) (g : Nat) (v : VecOp) : State :=
  let f := vecF v.word
  let c := s.cl g
  let m := v.sel (c.maskSet f.mask)
  let a := blockVals c.vbuf f.va
  let b := blockVals c.vbuf (f.va + 1)
  let ieee := s.ieee
  let rows := (List.range 32).map (fun r => if rowBits m r = 0 then [] else hadamard ieee (rowVals a b true r))
  let at_ (odd e : Nat) : F32 × Evt := (rows.getD (e / 32) []).getD (e % 32 + 32 * odd) (0#32, none)
  (s.vecWrite g v f.vd m (at_ 0)).vecWrite g v (f.vd + 1) m (at_ 1)

/-- The participating elements of a row of a buffer or pair. -/
def rowTaken (bits : Nat) (xs : List F32) : List F32 :=
  xs.zipIdx.filterMap (fun p => if bits.testBit (p.2 % 32) then some p.1 else none)

/-- The reductions MAX, MIN, AMAX, SUM of VROW and VSUM. -/
def reduceFn (ieee : Bool) (kind : Nat) (xs : List F32) : F32 × Evt :=
  match kind with
  | 0 => (reduceMax xs, none)
  | 1 => (reduceMin xs, none)
  | 2 => (reduceAmax xs, none)
  | _ => compSum ieee xs

def State.vrowRun (s : State) (g : Nat) (v : VecOp) : State :=
  let f := vecF v.word
  let c := s.cl g
  let m := v.sel (c.maskSet f.mask)
  let pair := vPair f
  let a := blockVals c.vbuf f.va
  let b := if pair then blockVals c.vbuf (f.va + 1) else []
  let ieee := s.ieee
  let rows := (List.range 32).map (fun r =>
    if rowBits m r = 0 then (0#32, none) else reduceFn ieee (f.fn % 8) (rowTaken (rowBits m r) (rowVals a b pair r)))
  (s.updCl g (fun c => c.vecPut f.vd m (fun e => rows.getD (e / 32) (0#32, none)))).vecEvents g v
    (EvCount.ofList (rows.map Prod.snd))

/-- VSCALE: one scale for each row that takes part (R144, R153). -/
def State.vscaleRun (s : State) (g : Nat) (v : VecOp) : State :=
  let f := vecF v.word
  let c := s.cl g
  let m := v.sel (c.maskSet f.mask)
  let a := blockVals c.vbuf f.va
  let b := if vPair f then blockVals c.vbuf (f.va + 1) else []
  let rows := (List.range 32).map (fun r => scaleFrom f.format (f.fn == 1) (a.getD (32 * r) 0#32) (b.getD (32 * r) 0#32))
  let row (e : Nat) : ScaleRes := (rows.getD (e / 32) (⟨0x3F80, 0, false, none⟩, .zero)).1
  let s := s.updCl g (fun c => c.vecPut f.vd m (fun e => (BitVec.ofNat 32 ((row e).scale * 2 ^ 16), none)))
  let s := if vPair f then
      s.updCl g (fun c => c.vecPut (f.vd + 1) m (fun e => ((icvtf (BitVec.ofNat 64 (row e).zp)).1, none)))
    else s
  (List.range 32).foldl (fun s r =>
    if rowBits m r = 0 then s
    else s.vecEvents g v (rows.getD r (⟨0x3F80, 0, false, none⟩, .zero)).2) s

/-- The result and event of VSUM (Table 6.6, R155). -/
def Cluster.summary (c : Cluster) (ieee : Bool) (f : VecF) : Word × Evt :=
  let m := c.maskSet f.mask
  let bufs := if vPair f then [f.va, f.va + 1] else [f.va]
  let xs := bufs.flatMap (fun n =>
    let b := blockVals c.vbuf n
    (setElems m).map (fun e => b.getD e 0#32))
  let kind := f.fn % 8
  let nans := (xs.filter (fun x => dec32 x = .nan)).length
  let count (b : Nat) : Nat := (setElems (b &&& m)).length
  if kind = 4 then (BitVec.ofNat 64 ((bufs.map (fun n => count (Sparse.get 0 c.satb n))).sum), none)
  else if kind = 5 then
    let hit := bufs.any (fun n => Sparse.get 0 c.nfb n &&& m != 0) || xs.any (fun x => (dec32 x).nonfinite)
    (if hit then 1#64 else 0#64, none)
  else if kind = 6 then (BitVec.ofNat 64 xs.length, none)
  else
    let r := reduceFn ieee kind xs
    let n := if kind = 3 then xs.length else xs.length - nans
    (BitVec.ofNat 64 (r.1.toNat + n * 2 ^ 32), r.2)

/-- Rows that a vector instruction processes and bytes that it moves, as activity (R387). -/
def State.vecAct (s : State) (g : Nat) (v : VecOp) : State :=
  let f := vecF v.word
  let q := s.launchQueue g
  let rows := if f.op = 0x40 ∨ f.op = 0x4B then 0 else if vPair f then 64 else 32
  let bytes := if vMem f.op then (setElems ((s.cl g).maskSet f.mask)).length * codeBytes f.fmt else 0
  (s.act q 3 rows).act q 4 (ceilDiv bytes 64)

/-- The effect of a vector instruction; VSUM takes effect when it completes, VCTX when it issued. -/
def State.vecRun (s : State) (g : Nat) (v : VecOp) : State :=
  match bits v.word 0 8 with
  | 0x41 => s.vldRun g v
  | 0x42 => s.vstRun g v
  | 0x43 => s.vldRun g v
  | 0x44 => s.vstRun g v
  | 0x45 => s.vtrdRun g v
  | 0x46 => s.vbcastRun g v
  | 0x48 => s.vopRun g v
  | 0x49 => s.vfnRun g v
  | 0x4A => s.vcmpRun g v
  | 0x4B => s.vmskRun g v
  | 0x4C => s.vhadRun g v
  | 0x4D => s.vrowRun g v
  | 0x4E => s.vscaleRun g v
  | _ => s

/-! ## The vector queue (R139, R154, R161) -/

/-- A store of the engine meets a pinned range. -/
def State.vecPinned (s : State) (g : Nat) (v : VecOp) : Bool :=
  let f := vecF v.word
  let c := s.cl g
  if (f.op = 0x42 ∨ f.op = 0x44) ∧ c.audits ≠ [] then
    let b := blockVals c.vbuf f.vb
    (setElems (c.maskSet f.mask)).any (fun e =>
      c.pinned (vecAddr f v.ra v.rb (fun e => b.getD e 0#32) e) (codeBytes f.fmt))
  else false

/-- The oldest vector instruction starts, when the engine is free of audit precedence, the tile that it reads is clear
(R130) and no range that it writes is pinned (R161). One of a course program takes effect then; one of a wadding program, which a
tick may cut short after a row (R137), when it leaves the engine. -/
def State.vecStart (s : State) (g : Nat) : State :=
  match (s.cl g).vq with
  | [] => s
  | v :: rest =>
    let clear : Bool := match vtrdTile v.word with | some t => (s.cl g).tileClear t v.serial false | none => true
    if v.started || s.bit F.VEC_STATUS_AUDIT_PRIORITY g || !clear then s
    else if s.vecPinned g v then s.pinWait g
    else
      let t := if v.wadding then s else (s.vecRun g v).vecAct g v
      (t.updCl g (fun c => { c with vq := { v with started := true } :: rest })).syncEngines g

/-- A vector instruction joins the queue and starts if the engine is idle. -/
def State.vecPush (s : State) (g w : Nat) : State :=
  let f := vecF w
  let s := if f.op = 0x40 then
      s.updCl g (fun c => { c with ctxTid := (s.sreg g f.ra).toNat % 2 ^ 24, ctxBase := (s.sreg g f.rb).toNat % 2 ^ 40,
                                   ctxPitch := (s.sreg g f.rs).toNat % 2 ^ 40 })
    else s
  let c := s.cl g
  let v : VecOp := ⟨c.serial, w, s.sreg g f.ra, s.sreg g f.rb, s.sreg g f.rs, c.ctxTid, c.ctxBase, c.ctxPitch,
    s.isWadding g, false, 32⟩
  ((s.updCl g (fun c => { c with vq := c.vq ++ [v], serial := c.serial + 1 })).vecStart g).syncEngines g

/-! ## Issue -/

/-- Element addresses that are misaligned or leave the local buffer (R153). -/
def State.vecAddrFaults (s : State) (g w : Nat) : List TFault :=
  let f := vecF w
  let c := s.cl g
  if vMem f.op then
    let size := codeBytes f.fmt
    let b := blockVals c.vbuf f.vb
    match (setElems (c.maskSet f.mask)).findSome? (fun e =>
      let a := vecAddr f (s.sreg g f.ra) (s.sreg g f.rb) (fun e => b.getD e 0#32) e
      if a % size ≠ 0 ∨ lbSize < a + size then some a else none) with
    | some a => [tf 3 a]
    | none => []
  else []

/-- An operation names a tile (R121, R130): partner and hazard faults. -/
def State.tileFaults (s : State) (g t : Nat) (write join : Bool) : List TFault :=
  faultIf (s.tilePartner g t) 7 t ++
  faultIf ((s.cl g).tileConflict t write && !join && s.bit F.ACC_CTRL_STRICT g) 8 t

/-- An operation that conflicts and does not fault waits, and is counted (R130). -/
def State.tileWaits (s : State) (g t : Nat) (write join : Bool) : State :=
  if (s.cl g).tileConflict t write then
    if join then s.bump F.ACC_HAZCNT_JOIN_WAITS 1 g else s.bump F.ACC_HAZCNT_HAZARD_WAITS 1 g
  else s

/-- The faults of a vector instruction (Table 6.8). -/
def State.vecFaults (s : State) (g w : Nat) : List TFault :=
  let f := vecF w
  let used := vUsed f
  s.vecAddrFaults g w ++
  faultIf ((vPair f && f.va % 2 == 1) || ((f.op == 0x4C || f.op == 0x4E && vPair f) && f.vd % 2 == 1) ||
    (vPairB f && f.vb % 2 == 1) || ((f.op == 0x4A || f.op == 0x4B) && f.vd == 0)) 4 0 ++
  faultIf (used.contains .fmt && (f.fmt == 7 || (f.op == 0x4E && (scaleFmt f.fmt).isNone))) 5 0 ++
  (if f.op = 0x45 then s.tileFaults g f.t false (f.ss == 1) else [])

/-- A vector instruction waits for room in the queue; one whose element addresses depend on masks or indexes that queued
instructions may still write waits for them. -/
def State.vecWait (s : State) (g w : Nat) : Option State :=
  let f := vecF w
  let c := s.cl g
  if 16 ≤ c.vecWaiting then some s
  else if vMem f.op && (f.mask != 0 || decide (0x43 ≤ f.op)) && !c.vq.isEmpty then some s
  else none

/-- The issue of the vector instruction of an opcode. -/
def vecTile (g op : Nat) : TileOp where
  op := op
  legal := vLegal
  regs := vRegs
  wad := vWad
  wait s w := s.vecWait g w
  faults s w := s.vecFaults g w
  run s w :=
    let f := vecF w
    (if f.op = 0x45 then s.tileWaits g f.t false (f.ss == 1) else s).vecPush g w
  next s _ := s.seqPc g

def execVctx (g : Fin 1024) (s : State) : Out := .next (s.issue g (vecTile g 0x40))
def execVld (g : Fin 1024) (s : State) : Out := .next (s.issue g (vecTile g 0x41))
def execVst (g : Fin 1024) (s : State) : Out := .next (s.issue g (vecTile g 0x42))
def execVgather (g : Fin 1024) (s : State) : Out := .next (s.issue g (vecTile g 0x43))
def execVscatter (g : Fin 1024) (s : State) : Out := .next (s.issue g (vecTile g 0x44))
def execVtrd (g : Fin 1024) (s : State) : Out := .next (s.issue g (vecTile g 0x45))
def execVbcast (g : Fin 1024) (s : State) : Out := .next (s.issue g (vecTile g 0x46))
def execVop (g : Fin 1024) (s : State) : Out := .next (s.issue g (vecTile g 0x48))
def execVfn (g : Fin 1024) (s : State) : Out := .next (s.issue g (vecTile g 0x49))
def execVcmp (g : Fin 1024) (s : State) : Out := .next (s.issue g (vecTile g 0x4A))
def execVmsk (g : Fin 1024) (s : State) : Out := .next (s.issue g (vecTile g 0x4B))
def execVhad (g : Fin 1024) (s : State) : Out := .next (s.issue g (vecTile g 0x4C))
def execVrow (g : Fin 1024) (s : State) : Out := .next (s.issue g (vecTile g 0x4D))
def execVscale (g : Fin 1024) (s : State) : Out := .next (s.issue g (vecTile g 0x4E))
def execVsum (g : Fin 1024) (s : State) : Out := .next (s.issue g (vecTile g 0x50))

/-- What waits for a tile of a cluster goes on: the vector instruction at the head, dormer accesses, a faulted program
whose work is done. -/
def State.tileFreed (s : State) (g : Nat) : State :=
  let s := if s.runsCourse g then s.noteDone (true, g) else s
  (((s.syncEngines g).vecStart g).accRetry g).drainFaulted g

/-- The executing vector instruction leaves the engine, VSUM with its result, and the next one starts (R154). -/
def execVectorOpComplete (g : Fin 1024) (s : State) : Out :=
  match (s.cl g).vq with
  | [] => .next s
  | v :: rest =>
    if v.started then
      let s := if v.wadding then (s.vecRun g v).vecAct g v else s
      let pop (s : State) : State := s.updCl g (fun c => { c with vq := rest })
      if bits v.word 0 8 = 0x50 then
        let r := (s.cl g).summary s.ieee (vecF v.word)
        .next ((((pop s).setSreg g (vecF v.word).rs r.1).vecEvents g v (EvCount.zero.add r.2)).tileFreed g)
      else .next ((pop s).tileFreed g)
    else .next s

end Sys2Proof.Machine
end

