-- ==== Sys2Proof/Machine/TileMatrix.lean ====
section
/-! DEFINITION. The matrix engine: MCFG and MMA, the entry of an instruction into the array, promotion of chunks, closing
of segments, completion, and the tile audit (R109 to R122, R148, R149, R158 to R162). -/
namespace Sys2Proof.Machine

/-! ## MCFG -/

/-- MCFG sets the configuration, once no matrix instruction waits in the queue (R148). -/
def mcfgOp (g : Nat) : TileOp :=
  { scalarOp g 0x30
      (fun w => bits w 20 12 == 0 && bits w 56 8 == 0 && decide (bits w 8 4 ≤ 8) && decide (bits w 12 4 ≤ 8) &&
        decide (bits w 16 2 ≤ 2) && decide (bits w 18 2 ≤ 2))
      (fun _ => []) noFaults
      (fun s w => s.updCl g (fun c => { c with
        fmtA := bits w 8 4, fmtB := bits w 12 4, sgA := bits w 16 2, sgB := bits w 18 2, destTid := bits w 32 24 })) with
    wait := fun s _ => if 2 < (s.cl g).mq.length then some s else none }

def execMcfg (g : Fin 1024) (s : State) : Out := .next (s.issue g (mcfgOp g))

/-! ## MMA -/

/-- The rows of Table 5.1: 1 for 8-bit, 2 for BF16 and F16, 8 for F32 (its cycles per K step); none for other pairs. -/
def pairClass (a b : Nat) : Option Nat :=
  match fmtOfCode a, fmtOfCode b with
  | some x, some y =>
    if [Fmt.f8a, .f8b, .i8, .u8].contains x && [Fmt.f8a, .f8b, .i8].contains y then some 1
    else if [Fmt.bf16, .f16].contains x && [Fmt.bf16, .f16].contains y then some 2
    else if x = .f32 ∧ y = .f32 then some 8 else none
  | _, _ => none

/-- The matrix instruction of a word under the configuration in force. -/
def State.mmaOf (s : State) (g w : Nat) : MmaOp :=
  let c := s.cl g
  let r (lo : Nat) : Nat := (s.sreg g (bits w lo 6)).toNat
  { serial := c.serial, tile := bits w 8 5, aAddr := r 13, bAddr := r 19, sAddr := r 25, tAddr := r 31
    k := bits w 46 16 + 1, clear := bits w 37 1 == 1, fmtA := c.fmtA, fmtB := c.fmtB, sgA := c.sgA, sgB := c.sgB
    tid := c.destTid, wadding := s.isWadding g, steps := 0, entered := false, audit := none, excl := false }

/-- A panel is aligned and lies within the local buffer (R110). -/
def panelOk (a f k : Nat) : Bool := a % 64 == 0 && decide (a + 32 * k * codeBytes f ≤ lbSize)

/-- The scale entries of a panel are aligned and lie within the local buffer (R148). -/
def scalesOk (a f sg k : Nat) : Bool :=
  scaleBytes f sg k == 0 || (a % (if f = 6 then 4 else 2) == 0 && decide (a + scaleBytes f sg k ≤ lbSize))

/-- The term counter of a tile after the matrix instructions already issued to it. -/
def State.termsAhead (s : State) (g t : Nat) : Nat :=
  ((s.cl g).mq.filter (fun o => o.tile == t)).foldl
    (fun n o => if o.entered then n + (o.k - o.steps) else if o.clear then o.k else n + o.k) (s.get F.ACC_TSTAT_TERMS g t)

/-- An instruction would carry the term counter beyond 2^32 − 1 (R120). -/
def State.longOverflow (s : State) (g : Nat) (o : MmaOp) : Bool :=
  decide (2 ^ 32 ≤ (if o.clear then 0 else s.termsAhead g o.tile) + o.k)

def State.mmaFaults (s : State) (g w : Nat) : List TFault :=
  let o := s.mmaOf g w
  faultIf (!(panelOk o.aAddr o.fmtA o.k)) 4 o.aAddr ++ faultIf (!(panelOk o.bAddr o.fmtB o.k)) 4 o.bAddr ++
  faultIf (!(scalesOk o.sAddr o.fmtA o.sgA o.k)) 4 o.sAddr ++ faultIf (!(scalesOk o.tAddr o.fmtB o.sgB o.k)) 4 o.tAddr ++
  faultIf (pairClass o.fmtA o.fmtB).isNone 5 0 ++
  faultIf ((o.sgA == 2 || o.sgB == 2) && (bits w 40 6 != 0 || (o.k % 64 != 0 && bits w 39 1 == 0))) 6 0 ++
  s.tileFaults g o.tile true (bits w 38 1 == 1) ++
  faultIf (s.longOverflow g o && s.bit F.ACC_CTRL_STRICT g) 9 o.tile

/-- AUD_CTRL as the running course latched it at its start (R158). -/
def State.audCtrl (s : State) (g : Nat) : Nat := Sparse.get 0x10040 s.course.aud g

/-- The rounding-stream word that samples a matrix instruction (R158). -/
def State.audWord (s : State) (g ordinal : Nat) : Word :=
  match s.course.prog with
  | some p => streamWord p.runSeed (BitVec.ofNat 64 p.number) 0xFFF010 (g * 2 ^ 30 + ordinal)
  | none => 0#64

/-- The ordinal and audited row of a sampled instruction. -/
def State.sampled (s : State) (g ordinal : Nat) : Option (Nat × Nat) :=
  let c := s.audCtrl g
  let w := (s.audWord g ordinal).toNat
  if c / 65536 % 2 = 1 ∧ w / 2 ^ 48 < c % 65536 ∧ ordinal < 2 ^ 30 then some (ordinal, w % 32) else none

/-- A matrix instruction takes its ordinal, when a course tile program issues it (R158). -/
def State.withOrdinal (s : State) (g : Nat) (o : MmaOp) : MmaOp × State :=
  if o.wadding || !(s.cstate == 2 || s.cstate == 3) then (o, s)
  else
    let n := (s.cl g).ordinal
    ({ o with audit := s.sampled g n }, s.updCl g (fun c => { c with ordinal := n + 1 }))

def mmaOp (g : Nat) : TileOp where
  op := 0x31
  legal w := bits w 62 2 == 0
  regs w := [bits w 13 6, bits w 19 6, bits w 25 6, bits w 31 6]
  wad w := wadTile (bits w 8 5)
  wait s _ := if 4 ≤ (s.cl g).mq.length then some s else none
  faults s w := s.mmaFaults g w
  run s w :=
    let p := s.withOrdinal g (s.mmaOf g w)
    let t := p.2.tileWaits g p.1.tile true (bits w 38 1 == 1)
    let t := if s.longOverflow g p.1 then t.bump F.ACC_LSUM_LSOVF_COUNT 1 g else t
    (t.updCl g (fun c => { c with mq := c.mq ++ [p.1], serial := c.serial + 1 })).syncEngines g
  next s _ := s.seqPc g

def execMma (g : Fin 1024) (s : State) : Out := .next (s.issue g (mmaOp g))

/-! ## Entry into the array (R112) -/

/-- A matrix instruction is replaced, by its serial number. -/
def State.putMma (s : State) (g : Nat) (o : MmaOp) : State :=
  s.updCl g (fun c => { c with mq := c.mq.map (fun p => if p.serial = o.serial then o else p) })

/-- The readout values of row i of a tile, whose events count as those of any reader (R119, R125). -/
def State.readRow (s : State) (g t i : Nat) : List F32 × State :=
  let r := (List.range 32).map (fun j => s.readout g t (32 * i + j))
  (r.map Prod.fst, s.tileEvents g t (s.tileTid g t) (EvCount.ofList (r.map Prod.snd)))

/-- An entry of a panel's scale array: scale, zero point and event, for K-step chunk `c` and row or column `x` (R148). -/
def State.panelScale (s : State) (g f sg a c x : Nat) : Rat × Nat × Evt :=
  if scaleBytes f sg 1 = 0 then (1, 0, none)
  else
    let w := if f = 6 then 4 else 2
    let v := s.lbNat g (a + (if sg = 0 then 0 else if sg = 1 then x else 32 * c + x) * w) w
    let r := readS16 (v % 65536)
    (r.1, v / 65536 % 256, r.2)

/-- The entries of a panel's scale array that an instruction reads. -/
def scaleEntries (f sg k : Nat) : List (Nat × Nat) :=
  if scaleBytes f sg 1 = 0 then []
  else if sg = 0 then [(0, 0)]
  else if sg = 1 then (List.range 32).map (fun x => (0, x))
  else (List.range (ceilDiv k 64)).flatMap (fun c => (List.range 32).map (fun x => (c, x)))

/-- The events of the invalid scales that an instruction reads, one for each entry (R61). -/
def State.scaleEvents (s : State) (g : Nat) (o : MmaOp) : EvCount :=
  EvCount.ofList (
    (scaleEntries o.fmtA o.sgA o.k).map (fun e => (s.panelScale g o.fmtA o.sgA o.sAddr e.1 e.2).2.2) ++
    (scaleEntries o.fmtB o.sgB o.k).map (fun e => (s.panelScale g o.fmtB o.sgB o.tAddr e.1 e.2).2.2))

/-- An instruction enters the array: CLEAR, the values before it for an audit, and the tensor of its terms (R109, R159). -/
def State.mmaEnter (s : State) (g : Nat) (o : MmaOp) : State :=
  let s := if o.clear then s.clearByFlag g o.tile else s
  let s : State := match o.audit with
    | none => s
    | some p =>
      let r := if o.clear then (List.replicate 32 0#32, s) else s.readRow g o.tile p.2
      r.2.updCl g (fun c => { c with audits := c.audits ++ [⟨o, p.1, p.2, r.1, none, 0, List.replicate 32 (0#32, 0#32, 0), false⟩] })
  let s := s.tileEvents g o.tile o.tid (s.scaleEvents g o)
  let s := s.updCl g (fun c => { c with tileTid := Sparse.put 0xFFFFFF c.tileTid o.tile o.tid })
  (s.putMma g { o with entered := true }).syncEngines g

/-- The first instruction of the queue that has not entered enters when the array is free, at most one instruction drains
before it, its tile is clear (R130), and, when it is sampled, fewer than two audits are pending (R159). -/
def execMmaArrayEntry (g : Fin 1024) (s : State) : Out :=
  let c := s.cl g
  let inArray := c.mq.filter (fun o => o.entered)
  match c.mq.find? (fun o => !o.entered) with
  | none => .next s
  | some o =>
    if inArray.length ≤ 1 && inArray.all (fun p => p.steps == p.k) && c.tileClear o.tile o.serial true &&
        !(o.audit.isSome && decide (2 ≤ c.audits.length)) then .next (s.mmaEnter g o)
    else .next s

/-! ## Chunks (R114 to R118) -/

/-- The class of the formats of an instruction, as the significand width of its chunk register: 0 exact. -/
def chunkBits (o : MmaOp) : Nat :=
  match pairClass o.fmtA o.fmtB with
  | some 2 => 34
  | some 8 => 64
  | _ => 0

/-- An operand of the array: its value after R75 under saturating numerics, and whether it was special. -/
def arrayOperand (ieee : Bool) (f : Fmt) (z code : Nat) : FV × Bool :=
  let v := decodeElem f code 1 z
  if ieee then (v, v.nonfinite) else ((replaceNonfin f.big v).1, v.nonfinite)

/-- Product of two operands (IEEE 754 for special values). -/
def fvMul (a b : FV) : FV :=
  match a, b with
  | .fin n x, .fin m y => .fin (n != m) (x * y)
  | .nan, _ => .nan
  | _, .nan => .nan
  | .inf n, .inf m => .inf (n != m)
  | .inf n, .fin m y => if y = 0 then .nan else .inf (n != m)
  | .fin n x, .inf m => if x = 0 then .nan else .inf (n != m)

/-- A signed value. -/
def fvOf (x : Rat) : FV := if x < 0 then .fin true (-x) else .fin false x

/-- A chunk register takes one product (R115). -/
def chunkAdd (bits : Nat) (acc p : FV) : FV :=
  match acc, p with
  | .fin n x, .fin m y =>
    let v := (FV.fin n x).val + (FV.fin m y).val
    fvOf (if bits = 0 then v else roundSig bits v)
  | .nan, _ => .nan
  | _, .nan => .nan
  | .inf n, .inf m => if n = m then .inf n else .nan
  | .inf n, .fin _ _ => .inf n
  | .fin _ _, .inf m => .inf m

/-- The sum of a chunk, and whether a special operand entered it. -/
def chunkSum (bits : Nat) (a b : List (FV × Bool)) : FV × Bool :=
  (a.zip b).foldl (fun r p => (chunkAdd bits r.1 (fvMul p.1.1 p.2.1), r.2 || p.1.2 || p.2.2)) (.fin false 0, false)

/-- The scaled sum of a chunk. -/
def FV.scale (v : FV) (x : Rat) : FV :=
  match v with
  | .fin n m => .fin n (m * x)
  | v => v

/-- The pattern of a special value. -/
def specialF32 : FV → F32
  | .nan => nan32
  | .inf n => inf32 n
  | .fin _ _ => 0#32

/-- A chunk is promoted into an element of a plain tile (R116). -/
def promotePlain (ieee : Bool) (partial_ : F32) (p : FV) : F32 × Evt :=
  match p with
  | .fin _ _ =>
    let v := dec32 partial_
    if ieee && v.nonfinite then (specialF32 v, some .nonfin)
    else
      let r := replaceNonfin specF32.maxFin v
      let x := rna32s ieee false (r.1.val + p.val)
      (x.1, worst r.2 x.2)
  | v => f32op ieee .add partial_ (specialF32 v) 0#32

/-- A chunk is promoted into an element of a compensated tile (R122). -/
def promoteComp (ieee : Bool) (hi lo : F32) (p : FV) : F32 × F32 × Evt :=
  match p with
  | .fin _ _ => compAddExact ieee hi lo p.val false
  | v => compAdd ieee hi lo (specialF32 v)

/-- The operands of K steps [k0, k0 + n) at row or column x of a panel. -/
def State.panelSteps (s : State) (g : Nat) (ieee : Bool) (f sg a sc k0 n x : Nat) : List (FV × Bool) :=
  match fmtOfCode f with
  | none => []
  | some fm =>
    (List.range n).map (fun i =>
      let k := k0 + i
      let z := if f = 6 then (s.panelScale g f sg sc (k / 64) x).2.1 else 0
      arrayOperand ieee fm z (s.lbNat g (a + (32 * k + x) * fm.bytes) fm.bytes))

/-- K steps of the next chunk of an instruction: up to the end of its present block of 64, of the instruction, and, in a
plain tile, of the segment (R114, R118). -/
def State.chunkLen (s : State) (g : Nat) (o : MmaOp) : Nat :=
  let n := min (64 - o.steps % 64) (o.k - o.steps)
  if s.tileComp g o.tile then n else min n (2 ^ 20 - Sparse.get 0 (s.cl g).segTerms o.tile)

/-- The 1,024 scaled chunk sums of an instruction, with the mark of special operands. -/
def State.chunkSums (s : State) (g : Nat) (o : MmaOp) (n : Nat) : List (FV × Bool) :=
  let ieee := s.ieee
  let cb := chunkBits o
  let ch := o.steps / 64
  let as := (List.range 32).map (fun i => (s.panelSteps g ieee o.fmtA o.sgA o.aAddr o.sAddr o.steps n i,
    (s.panelScale g o.fmtA o.sgA o.sAddr ch i).1))
  let bs := (List.range 32).map (fun j => (s.panelSteps g ieee o.fmtB o.sgB o.bAddr o.tAddr o.steps n j,
    (s.panelScale g o.fmtB o.sgB o.tAddr ch j).1))
  as.flatMap (fun a => bs.map (fun b =>
    let r := chunkSum cb a.1 b.1
    (r.1.scale (a.2 * b.2), r.2)))

/-- Terms count toward the tile's counter: OVER when it overflows, LONGSUM of a compensated tile at 2^20 (R120, R122). -/
def State.addTerms (s : State) (g t tid n : Nat) : State :=
  let now := s.get F.ACC_TSTAT_TERMS g t + n
  let s := if 2 ^ 32 ≤ now then s.set F.ACC_TSTAT_OVER 1 g t else s
  let s := s.bump F.ACC_TSTAT_TERMS n g t
  if s.tileComp g t then (if 2 ^ 20 ≤ now then s.longSum g t tid else s)
  else s.updCl g (fun c => { c with segTerms := Sparse.put 0 c.segTerms t (Sparse.get 0 c.segTerms t + n) })

/-- The chunk of an instruction in the array ends and is promoted (R116, R122, R125). -/
def State.promote (s : State) (g : Nat) (o : MmaOp) (n : Nat) : State :=
  let ieee := s.ieee
  let t := o.tile
  let c := s.cl g
  let comp := s.tileComp g t
  let sums := s.chunkSums g o n
  let hi := blockVals c.acc t
  let lo := if comp then blockVals c.acc (t + 24) else []
  let ev (special : Bool) (e : Evt) : Evt := if special then some .nonfin else e
  let res : List (F32 × F32 × Evt) := (sums.zip hi).zipIdx.map (fun p =>
    if comp then
      let r := promoteComp ieee p.1.2 (lo.getD p.2 0#32) p.1.1.1
      (r.1, r.2.1, ev p.1.1.2 r.2.2)
    else
      let r := promotePlain ieee p.1.2 p.1.1.1
      (r.1, 0#32, ev p.1.1.2 r.2))
  let acc := putBlock c.acc t (res.map (fun r => r.1))
  let acc := if comp = true then putBlock acc (t + 24) (res.map (fun r => r.2.1)) else acc
  let s := s.updCl g (fun c => { c with acc := acc })
  let excl := match o.audit with
    | some p => ((res.drop (32 * p.2)).take 32).any (fun r => r.2.2 == some .sat || r.2.2 == some .nonfin)
    | none => false
  let s := s.tileEvents g t o.tid (EvCount.ofList (res.map (fun r => r.2.2)))
  let s := s.addTerms g t o.tid n
  let cls := match pairClass o.fmtA o.fmtB with | some 2 => 1 | some 8 => 2 | _ => 0
  (s.putMma g { o with steps := o.steps + n, excl := o.excl || excl }).act (s.launchQueue g) cls n

/-- A tile's segment has reached 2^20 terms (R118). -/
def State.segmentFull (s : State) (g t : Nat) : Bool :=
  !s.tileComp g t && decide (2 ^ 20 ≤ Sparse.get 0 (s.cl g).segTerms t)

def execChunkPromotion (g : Fin 1024) (s : State) : Out :=
  match (s.cl g).mq.find? (fun o => o.entered && decide (o.steps < o.k)) with
  | none => .next s
  | some o => if s.segmentFull g o.tile then .next s else .next (s.promote g o (s.chunkLen g o))

/-- The segment of a plain tile closes: the partials are chained into the segment registers (R118). -/
def State.closeSegment (s : State) (g : Nat) (o : MmaOp) : State :=
  let ieee := s.ieee
  let t := o.tile
  let c := s.cl g
  let h := blockVals c.segHi t
  let l := blockVals c.segLo t
  let p := blockVals c.acc t
  let res := (List.range 1024).map (fun e => compAdd ieee (h.getD e 0#32) (l.getD e 0#32) (p.getD e 0#32))
  let s := s.updCl g (fun c => { c with
    segHi := putBlock c.segHi t (res.map (fun r => r.1)), segLo := putBlock c.segLo t (res.map (fun r => r.2.1))
    acc := dropBlock c.acc t, segTerms := Sparse.put 0 c.segTerms t 0 })
  let s := (s.bump F.ACC_TSTAT_SEGS 1 g t).bump F.ACC_LSUM_SEGMENTS_CLOSED 1 g
  let s := s.longSum g t o.tid
  let s := s.tileEvents g t o.tid (EvCount.ofList (res.map (fun r => r.2.2)))
  let excl := match o.audit with
    | some q => ((res.drop (32 * q.2)).take 32).any (fun r => r.2.2 == some .sat || r.2.2 == some .nonfin)
    | none => false
  s.putMma g { o with excl := o.excl || excl }

def execSegmentClose (g : Fin 1024) (s : State) : Out :=
  match (s.cl g).mq.find? (fun o => o.entered && s.segmentFull g o.tile) with
  | none => .next s
  | some o => .next (s.closeSegment g o)

/-! ## Completion (R112, R159) -/

/-- The values after a sampled instruction are captured. -/
def State.auditAfter (s : State) (g : Nat) (o : MmaOp) : State :=
  match o.audit with
  | none => s
  | some p =>
    let r := s.readRow g o.tile p.2
    r.2.updCl g (fun c => { c with audits := c.audits.map (fun a =>
      if a.op.serial = o.serial then { a with after := some r.1, excl := o.excl } else a) })

/-- The oldest matrix instruction has drained its promotions: its tile is free. -/
def execMmaComplete (g : Fin 1024) (s : State) : Out :=
  match (s.cl g).mq with
  | [] => .next s
  | o :: rest =>
    if o.entered && o.steps == o.k && !s.segmentFull g o.tile then
      .next (((s.auditAfter g o).updCl g (fun c => { c with mq := rest })).tileFreed g)
    else .next s

/-! ## The tile audit (R160 to R162) -/

/-- An operand of the audit: special values replaced as R75 states, times its scale. -/
def State.auditOperand (s : State) (g f sg a sc k x : Nat) : Rat :=
  match fmtOfCode f with
  | none => 0
  | some fm =>
    let p := s.panelScale g f sg sc (k / 64) x
    (arrayOperand false fm p.2.1 (s.lbNat g (a + (32 * k + x) * fm.bytes) fm.bytes)).1.val * p.1

/-- K steps of a column of the audit: the compensated pair and the sum of magnitudes take each term in turn. -/
def State.auditColumn (s : State) (g : Nat) (u : Audit) (n j : Nat) (c : F32 × F32 × Rat) : F32 × F32 × Rat :=
  let o := u.op
  (List.range n).foldl (fun (c : F32 × F32 × Rat) i =>
    let k := u.steps + i
    let x := s.auditOperand g o.fmtA o.sgA o.aAddr o.sAddr k u.row * s.auditOperand g o.fmtB o.sgB o.bAddr o.tAddr k j
    let t := (rna32s false false x).1
    let r := compAdd false c.1 c.2.1 t
    let v := (dec32 t).val
    (r.1, r.2.1, c.2.2 + (if v < 0 then -v else v))) c

/-- ρ of a column (R160); none when only its denominator is zero. -/
def auditRho (before after : F32) (c : F32 × F32 × Rat) : Option Rat :=
  let mag (x : Rat) : Rat := if x < 0 then -x else x
  let e := (dec32 (compFinal false c.1 c.2.1).1).val
  let d := mag ((dec32 after).val - (dec32 before).val - e)
  let den := mkRat 1 (2 ^ 24) * (mag (dec32 before).val + c.2.2)
  if den = 0 then (if d = 0 then some 0 else none) else some (d / den)

/-- The columns of an ended audit agree. -/
def auditAgrees (k : Nat) (rs : List (Option Rat)) : Bool :=
  rs.all (fun r => match r with | some x => decide (x ≤ ((ceilDiv k 64 + 3 : Nat) : Rat)) | none => false)

/-- ρ as F32: the largest finite value where R75 divides by zero. -/
def rho32 (r : Option Rat) : F32 :=
  match r with
  | some x => (rna32s false false x).1
  | none => maxF32

/-- The larger of two non-negative F32 values, as patterns. -/
def maxPat (a b : Nat) : Nat := if a < b then b else a

/-- AUD_FIRST takes the first disagreement in order of cluster and ordinal (Table 12.6). -/
def State.audFirst (s : State) (g : Nat) (u : Audit) : State :=
  let old := s.ledGet ⟨208, 8⟩
  let key (c o : Nat) : Nat := c * 2 ^ 30 + o
  let new := g + u.ordinal * 2 ^ 10 + u.op.tile * 2 ^ 40 + u.row * 2 ^ 45 + 2 ^ 63
  if old / 2 ^ 63 = 0 ∨ key g u.ordinal < key (old % 1024) (old / 2 ^ 10 % 2 ^ 30) then s.ledSet ⟨208, 8⟩ new else s

/-- An audit has ended: the registers of the cluster and the course's totals take it (R162). -/
def State.auditEnd (s : State) (g : Nat) (u : Audit) : State :=
  let s := (s.bump F.AUD_CNT_SAMPLED 1 g).ledBump ⟨192, 4⟩ 1
  if u.excl then (s.bump F.AUD_EXT_EXCLUDED 1 g).ledBump ⟨200, 4⟩ 1
  else
    let rs := ((u.before.zip (u.after.getD [])).zip u.cols).map (fun p => auditRho p.1.1 p.1.2 p.2)
    let top := rs.foldl (fun m r => maxPat m (rho32 r).toNat) 0
    let s := s.set F.AUD_EXT_MAXRHO (maxPat (s.get F.AUD_EXT_MAXRHO g) top) g
    let s := s.ledSet ⟨204, 4⟩ (maxPat (s.ledGet ⟨204, 4⟩) top)
    if auditAgrees u.op.k rs then (s.bump F.AUD_CNT_AGREED 1 g).ledBump ⟨196, 4⟩ 1
    else
      let s := ((s.set F.AUD_LAST_ORDINAL u.ordinal g).set F.AUD_LAST_TILE u.op.tile g).set F.AUD_LAST_ROW u.row g
      (s.layerBump (s.layerOf u.op.tid) ⟨22, 2⟩ 1).audFirst g u

/-- Writes that waited for ranges that no audit pins any longer take effect, and a store of another module of which none
waits any more is answered (R276); with none left the audit's precedence ends
(R161). -/
def State.releasePins (s : State) (g : Nat) : State :=
  let c := s.cl g
  let go := c.held.filter (fun h => !c.pinned h.1 h.2.1.length)
  let s := go.foldl (fun s h => s.lbPut g h.1 h.2.1)
    (s.updCl g (fun c => { c with held := c.held.filter (fun h => c.pinned h.1 h.2.1.length) }))
  let left := (s.cl g).held
  let acks := ((go.filterMap (fun h => h.2.2)).eraseDups).filter (fun k => !left.any (fun h => h.2.2 == some k))
  let s := acks.foldl (fun s k => s.respond k.1 k.2.1 k.2.2 0x82 0 false []) s
  s.set F.VEC_STATUS_AUDIT_PRIORITY (if left.isEmpty then 0 else 1) g

/-- One audit unit of at most 64 K steps runs, in the oldest audit whose instruction has completed, when the vector engine
is free: no program instruction is ready, since one that is ready has started unless audits take precedence (R161). -/
def execAuditUnit (g : Fin 1024) (s : State) : Out :=
  let c := s.cl g
  match c.audits.find? (fun u => u.after.isSome) with
  | none => .next s
  | some u =>
    if !c.vq.any (·.started) then
      let n := min 64 (u.op.k - u.steps)
      let cols := u.cols.zipIdx.map (fun p => s.auditColumn g u n p.2 p.1)
      let u' := { u with steps := u.steps + n, cols := cols }
      if u'.steps < u.op.k then
        .next (s.updCl g (fun c => { c with audits := c.audits.map (fun x => if x.op.serial = u.op.serial then u' else x) }))
      else
        let s := s.updCl g (fun c => { c with audits := c.audits.filter (fun x => x.op.serial ≠ u.op.serial) })
        .next ((((s.auditEnd g u').releasePins g).syncEngines g).vecStart g)
    else .next s

end Sys2Proof.Machine
end

