-- ==== Sys2Proof/Machine/TileSync.lean ====
section
/-! DEFINITION. Tile programs and their synchronisation: launch and end (R134 to R137), end-of-batten markers, barriers
and their release (R53, R380), and stage queues (R47 to R49, R156). -/
namespace Sys2Proof.Machine

/-! ## Launch, end and preemption -/

/-- A course item has completed; its issuer is the last to complete (R41). -/
def State.itemDone (s : State) (i : Nat) : State :=
  if i ∈ s.course.done then s
  else
    let s := match s.course.prog with
      | some p => (match p.items[i]? with | some x => s.noteDone (issuerPair x.issuer) | none => s)
      | none => s
    s.setCourse { s.course with done := s.course.done ++ [i] }

/-- A launch ends: its command completes, or its course item. -/
def State.launchDone (s : State) (l : Launch) (status detail : Nat) : State :=
  let bound := !l.wadding && l.item.isNone && s.launchBound l
  let s := s.withWaiting l.cmd (fun c s => s.complete c status detail 0)
  let s := if bound then s.noteDone (false, l.q) else s
  match l.item with
  | some i => s.itemDone i
  | none => s

/-- The wadding instruction that the vector engine executes stops at its next row: `k` of its rows are done (R137). -/
def State.cutVector (s : State) (g k : Nat) : State :=
  match (s.cl g).vq with
  | v :: _ => if v.started && v.wadding then (s.vecRun g { v with rows := k }).vecAct g { v with rows := k } else s
  | [] => s

/-- The wadding transfer that channel 3 moves stops at its next 64-byte line: `k` of its lines have moved (R137). -/
def State.cutDma (s : State) (g k : Nat) : State :=
  match s.dmaQueue g 3 with
  | d :: _ =>
    if d.wadding then
      let ps := d.byLine.take (k % (d.byLine.length + 1))
      let r := dmaParts g d ps 0 s
      r.st.dmaCount g (d.row * d.rowBytes + ((ps.take r.row).map (fun p => p.2.2)).sum)
    else s
  | [] => s

/-- The engines of a cluster stop wadding work at their boundaries (R137). Where a vector instruction and a transfer
stand then is a matter of timing: a free value (assumption log 65). -/
def State.stopWadding (s : State) (g : Nat) : State :=
  let n := (Config.freeValue s.free).toNat
  let s := (({ s with free := s.free + 1 }).cutVector g (n % 33)).cutDma g (n / 33)
  s.updCl g (fun c => { c with
    mq := c.mq.filter (fun o => !o.wadding), vq := c.vq.filter (fun v => !v.wadding),
    dq := Sparse.put [] c.dq 3 ((Sparse.get [] c.dq 3).filter (fun d => !d.wadding)) })

/-- The wadding program of a cluster is preempted: its core stops, its engines stop at their boundaries (R137); so does
the work of one that has faulted (R51). -/
def State.preemptWadding (s : State) (g : Nat) : State :=
  match (s.cl g).run, (s.cl g).faulted with
  | some l, _ => if l.wadding then (((s.stopWadding g).launchDone l stPreempted 0).coreIdle g).tileFreed g else s
  | none, some f => if f.1.wadding then (s.stopWadding g).tileFreed g else s
  | none, none => s

/-- A launch is delivered to its cluster; course work takes the cluster from wadding at once (R51, R135). -/
def State.deliver (s : State) (g : Nat) (l : Launch) : State :=
  let s := s.updCl g (fun c => { c with waiting := c.waiting ++ [l] })
  if l.wadding then s else s.preemptWadding g

/-- The wadding partition is cleared (R136). -/
def State.clearWadding (s : State) (g : Nat) : State :=
  let s := (List.range 8).foldl (fun s i => s.clearTile g (16 + i)) s
  let drop (m : Sparse Nat) : Sparse Nat := Sparse.put 0 m 3 0
  s.updCl g (fun c => { c with
    vbuf := dropBlock c.vbuf 3, satb := drop c.satb, nfb := drop c.nfb, masks := Sparse.put 0 c.masks 3 0
    sreg := c.sreg.filter (fun p => decide (p.1 < 48)) })

/-- A launch starts on its cluster (R134, R136). Course work waits for a work slot, and in it for the release of its group
(R32, R53). -/
def State.startProgram (s : State) (g : Nat) (l : Launch) : State :=
  let r := if l.args = 0 then (⟨List.replicate 48 0#8, false, false, false, s⟩ : BusRead) else s.busRead (.command l.q) l.args 48
  let s := r.st
  let s := if l.wadding then s else s.clearWadding g
  let s := (List.range 6).foldl (fun s i => s.setSreg g (i + 1) (BitVec.ofNat 64 (fieldLe r.bytes (8 * i) 8))) s
  let s := (s.setSreg g 7 (BitVec.ofNat 64 g)).setSreg g 8 (s.rd .tbnCourse 0 0)
  let s := s.wr .ccFault g 0 0#64
  let s := ((s.set F.CC_STATE_STATE (if l.wadding then 2 else 1) g).set F.CC_STATE_PC l.entry g).set F.CC_STATE_QUEUE l.q g
  let shut := s.frame.slot != 0 || s.frame.opening.contains (g / 16)
  let s := s.set F.CC_STATE_SLOT_WAIT (if !l.wadding && shut then 1 else 0) g
  let s := s.updCl g (fun c => { c with
    waiting := c.waiting.erase l, run := some l, ending := false, bar := none, eobWait := false, sqSince := none, marks := []
    ctxTid := 0xFFFFFF, ctxBase := 0, ctxPitch := 0 })
  if l.wadding then s
  else s.setCourse { s.course with eob := Sparse.put 0 s.course.eob g (s.launchPlan l) }

/-- PROGRAM_START: the next launch of a free cluster, course work first, starts. One whose arguments are unmapped by
now ends with UNMAPPED. -/
def execProgramStart (g : Fin 1024) (s : State) : Out :=
  let c := s.cl g
  if c.run.isSome || !c.enginesIdle || !c.ldm.isEmpty then .next s
  else
    match (match c.waiting.find? (fun l => !l.wadding) with | some l => some l | none => c.waiting.head?) with
    | none => .next s
    | some l =>
      if l.args = 0 ∨ s.rangeMapped l.args 48 = true then .next (s.startProgram g l)
      else
        let s := (s.missEvent (.command l.q) l.args).updCl g (fun c => { c with waiting := c.waiting.erase l })
        .next (s.launchDone l stUnmapped 0)

/-- END: the program issues nothing more; the PC shows the next word. -/
def endOp (g : Nat) : TileOp :=
  { scalarOp g 0x66 (fun w => legalR w false false false 0 0) (fun _ => []) noFaults
      (fun s _ => s.updCl g (fun c => { c with ending := true })) with
    next := fun s _ => s.seqPc g % 0x40000 }

def execEndProgram (g : Fin 1024) (s : State) : Out := .next (s.issue g (endOp g))

/-- PROGRAM_COMPLETE: all work that the program issued before END has completed (R137). A faulted program ends with the
work that it issued (R157). -/
def execProgramComplete (g : Fin 1024) (s : State) : Out :=
  let c := s.cl g
  match c.run with
  | none => .next (s.drainFaulted g)
  | some l =>
    if c.ending && c.enginesIdle then .next ((s.launchDone l stSuccess 0).coreIdle g) else .next s

/-! ## End-of-batten markers (R39, R156) -/

/-- A course runs: the program's stage queues, chains and barriers are defined. -/
def State.courseRuns (s : State) : Bool := s.cstate == 2 || s.cstate == 3

/-- EOB: the issuer's items for its planned batten end, with what it has issued so far; the program waits for the work
slot of the next one. -/
def eobOp (g : Nat) : TileOp :=
  scalarOp g 0x60 (fun w => legalR w false false false 0 0) (fun _ => []) noFaults (fun s _ =>
    if s.isWadding g || !s.courseRuns then s
    else
      let n := Sparse.get 0 s.course.eob g + 1
      let s := (s.setCourse { s.course with eob := Sparse.put 0 s.course.eob g n }).updCl g (fun c => { c with
        marks := Sparse.put 0 c.marks (n - 1) c.serial })
      let s := s.noteDone (true, g)
      if s.course.plan < n then (s.set F.CC_STATE_SLOT_WAIT 1 g).updCl g (fun c => { c with eobWait := true }) else s)

def execEob (g : Fin 1024) (s : State) : Out := .next (s.issue g (eobOp g))

/-! ## Barriers (R53, R156) -/

/-- A barrier of the running course. -/
def State.barrier? (s : State) (id : Nat) : Option BarrierDesc :=
  if s.courseRuns then (match s.course.prog with | some p => p.barriers.find? (fun b => b.id == id) | none => none) else none

def barOp (g : Nat) : TileOp :=
  { scalarOp g 0x61 (fun w => legalR w false false false 0 255) (fun _ => [])
      (fun s w => match s.barrier? (rImm w) with
        | some b => faultIf (!b.members.contains g) 0x0D 0
        | none => [tf 0x0D 0])
      (fun s w =>
        let l := Sparse.get [] s.course.barriers (rImm w)
        let s := s.setCourse { s.course with barriers := Sparse.put [] s.course.barriers (rImm w) (l ++ [g]) }
        (s.set F.CC_STATE_BAR_WAIT 1 g).updCl g (fun c => { c with bar := some (rImm w) })) with
    wad := fun _ => false }

def execBar (g : Fin 1024) (s : State) : Out := .next (s.issue g (barOp g))

/-- BARRIER_SATISFIED: every member waits at the barrier. Within one cluster group it releases at once; otherwise the
eight dies signal the pending release. -/
def execBarrierSatisfied (id : Fin 256) (s : State) : Out :=
  match s.barrier? id with
  | none => .next s
  | some b =>
    let l := Sparse.get [] s.course.barriers id.val
    if b.members ≠ [] ∧ b.members.all (fun g => l.contains g) = true then
      let s := s.setCourse { s.course with barriers := Sparse.put [] s.course.barriers id.val [] }
      let one := b.members.all (fun g => g / 16 == (b.members.headD 0) / 16)
      let s := b.members.foldl (fun s g =>
        let s := s.updCl g (fun c => { c with bar := none })
        if one then s.set F.CC_STATE_BAR_WAIT 0 g else s) s
      .next (if one then s else (List.range 8).foldl State.signalRelease s)
    else .next s

/-- TBN_TIME at which a die no longer waits for its power controller (R53). -/
def State.pwrWaitEnd (s : State) (d : Nat) : Nat := Sparse.get 0 s.frame.signalAt d + s.get F.TBN_STAGGER_PWR_WAIT * 1000

/-- POWER_READY: the controller of a die gives the ready indication of a pending release within its wait (R53, R380). -/
def execPowerReady (die : Fin 8) (s : State) : Out :=
  if Sparse.get 0 s.frame.release die.val = 1 ∧ s.railReady die = true ∧ s.now ≤ s.pwrWaitEnd die then
    .next { s with frame := { s.frame with release := Sparse.put 0 s.frame.release die.val 2 } }
  else .next s

/-- PWR_WAIT_TIMEOUT: the wait of a die expires PWR_WAIT µs after its signal, and the release proceeds (R53). -/
def execPwrWaitTimeout (die : Fin 8) (s : State) : Out :=
  if Sparse.get 0 s.frame.release die.val = 1 then
    let s := s.advanceTo (s.pwrWaitEnd die)
    .next ({ s with frame := { s.frame with release := Sparse.put 0 s.frame.release die.val 2 } }.bump
      F.TBN_BARCNT_PWR_TIMEOUTS 1 die)
  else .next s

/-- A cluster is released: from the wait for the work slot, and from a barrier that is satisfied. A program at an
end-of-batten marker goes on only when its next planned batten has begun. -/
def State.releaseCluster (s : State) (g : Nat) : State :=
  let c := s.cl g
  let last := match s.course.prog with | some p => s.course.plan + 1 == p.planned | none => true
  let waits := c.eobWait && decide (s.course.plan < Sparse.get 0 s.course.eob g) && !(last && s.courseRuns)
  let s := if waits || s.frame.slot != 0 then s
    else (s.set F.CC_STATE_SLOT_WAIT 0 g).updCl g (fun c => { c with eobWait := false })
  if c.bar.isNone then s.set F.CC_STATE_BAR_WAIT 0 g else s

/-- The release begins at group 0: a hint for the next release starts, and the guard is held from now (R378, R380). -/
def State.releaseBegins (s : State) (d : Nat) : State :=
  let s := s.bump F.TBN_BARCNT_RELEASES 1 d
  let s := match (s.dp d).hint with
    | some h =>
      if h.phase = 1 ∧ h.start = 0 then s.updDp d (fun x => { x with hint := some { h with phase := 2, start := s.now } }) else s
    | none => s
  s.updDp d (fun x => { x with holdUntil := some (s.now + s.policy d x.cls 4 1 * 1000) })

/-- GROUP_RELEASE: the groups of a die are released in order, each STEP cycles after the one before (R53). -/
def execGroupRelease (die k : Fin 8) (s : State) : Out :=
  let done := (s.frame.groups.filter (fun x => x / 8 == die.val)).length
  if Sparse.get 0 s.frame.release die.val = 2 ∧ done = k.val then
    let s := if k.val = 0 then s.releaseBegins die else s
    let s := (s.clusterKeys.filter (fun g => g / 128 == die.val && g % 128 / 16 == k.val)).foldl State.releaseCluster s
    let f := s.frame
    .next { s with frame := { f with
      opening := f.opening.filter (fun x => x != die.val * 8 + k.val)
      groups := if k.val = 7 then f.groups.filter (fun x => x / 8 != die.val) else f.groups ++ [die.val * 8 + k.val]
      release := if k.val = 7 then Sparse.put 0 f.release die.val 0 else f.release } }
  else .next s

/-! ## Stage queues (R47 to R49, R156) -/

/-- The stage queue that a key (die × 512 + k) names in the running course. -/
def State.stage? (s : State) (key : Nat) : Option StageDesc :=
  if s.courseRuns then
    (match s.course.prog with | some p => p.stages.find? (fun x => x.die * 512 + x.k == key) | none => none)
  else none

def State.stageQ (s : State) (key : Nat) : StageQ := Sparse.get .init s.course.stages key

/-- A stage queue changes, and its register follows. -/
def State.setStageQ (s : State) (key : Nat) (x : StageQ) : State :=
  (s.setCourse { s.course with stages := Sparse.put .init s.course.stages key x }).set F.TBN_STQ_FILL
    (min x.entries.length 511) (key / 512) (key % 512)

/-- The time that a cluster has waited at a stage queue is counted (R49), in µs. -/
def State.settleWait (s : State) (g key : Nat) (push : Bool) : State :=
  match (s.cl g).sqSince with
  | none => s
  | some t =>
    let us := (s.now - t) / 1000
    let x := s.stageQ key
    let y : StageQ := if push then { x with stallUs := x.stallUs + us } else { x with starveUs := x.starveUs + us }
    let s := s.setCourse { s.course with stages := Sparse.put .init s.course.stages key y }
    let s := s.updCl g (fun c => { c with sqSince := some (t + us * 1000) })
    s.bump (if push then F.TBN_STQ_STALL_US else F.TBN_STQ_STARVE_US) us (key / 512) (key % 512)

/-- The cluster waits at a stage queue. -/
def State.sqWait (s : State) (g : Nat) : State :=
  (s.set F.CC_STATE_SQ_WAIT 1 g).updCl g (fun c => { c with sqSince := if c.sqSince.isSome then c.sqSince else some s.now })

/-- Ring address of a slot of a stage queue. -/
def stageSlot (d : StageDesc) (slot : Nat) : Nat := d.buffer + slot * d.size

/-- The ring lies on another module. -/
def State.stageRemote (s : State) (d : StageDesc) : Bool := decide (2 ^ 43 ≤ d.buffer) && !s.here d.buffer

def State.keyOf (s : State) (g w : Nat) : Nat := (s.sreg g (rRa w)).toNat
def State.offOf (s : State) (g w : Nat) : Nat := (s.sreg g (rRb w)).toNat

/-- The first entry that no pop has taken, when its copy has ended. -/
def StageQ.ready (x : StageQ) : Option StageEntry :=
  match x.entries.find? (fun e => !e.popping) with
  | some e => if e.ready then some e else none
  | none => none

/-- The faults of SQPUSH and SQPOP (Table 6.8), the ring slot `slot` among what must be mapped and writable (R157). -/
def State.sqFaults (s : State) (g w : Nat) (push : Bool) : List TFault :=
  match s.stage? (s.keyOf g w) with
  | none => [tf 0x0B (s.keyOf g w)]
  | some d =>
    let x := s.stageQ (s.keyOf g w)
    let slot := if push then x.next else match x.ready with | some e => e.slot | none => 0
    let a := faLocal (stageSlot d slot)
    faultIf (decide (lbSize < s.offOf g w + d.size)) 3 (s.offOf g w) ++
    (if s.stageRemote d then [] else if s.rangeMapped a d.size = false then [⟨3, a, true⟩]
     else if push then s.storeFaults g a d.size else [])

def State.pushRun (s : State) (g w : Nat) : State :=
  let key := s.keyOf g w
  match s.stage? key with
  | none => s
  | some d =>
    let s := s.settleWait g key true
    let x := s.stageQ key
    let slot := x.next
    let s := s.setStageQ key { x with
      entries := x.entries ++ [⟨slot, 0, false, false, none⟩], credits := x.credits - 1, next := (slot + 1) % d.depth }
    let s := s.updCl g (fun c => { c with copies := c.copies ++ [⟨key, slot, s.offOf g w, true, c.serial, s.stageRemote d⟩], serial := c.serial + 1 })
    if s.stageRemote d then
      s.fabStore (s.launchQueue g) (stageSlot d slot) (s.lbRead g (s.offOf g w) d.size) (.stage key slot) false
    else s

def sqpushOp (g : Nat) : TileOp :=
  { scalarOp g 0x62 (fun w => legalR w false true true 0 0) (fun w => [rRa w, rRb w]) (fun s w => s.sqFaults g w true)
      (fun s w => s.pushRun g w) with
    wad := fun _ => false
    wait := fun s w =>
      if !s.isWadding g && (s.sqFaults g w true).isEmpty && (s.stageQ (s.keyOf g w)).credits == 0 then some (s.sqWait g) else none }

def execSqpush (g : Fin 1024) (s : State) : Out := .next (s.issue g (sqpushOp g))

def State.popRun (s : State) (g w : Nat) : State :=
  let key := s.keyOf g w
  let s := s.settleWait g key false
  let x := s.stageQ key
  match x.ready with
  | none => s
  | some e =>
    let s := s.setStageQ key { x with entries := x.entries.map (fun y => if y = e then { y with popping := true } else y) }
    s.updCl g (fun c => { c with copies := c.copies ++ [⟨key, e.slot, s.offOf g w, false, c.serial, false⟩], serial := c.serial + 1 })

def sqpopOp (g : Nat) : TileOp :=
  { scalarOp g 0x63 (fun w => legalR w false true true 0 0) (fun w => [rRa w, rRb w]) (fun s w => s.sqFaults g w false)
      (fun s w => s.popRun g w) with
    wad := fun _ => false
    wait := fun s w =>
      if !s.isWadding g && (s.sqFaults g w false).isEmpty && (s.stageQ (s.keyOf g w)).ready.isNone then some (s.sqWait g) else none }

def execSqpop (g : Fin 1024) (s : State) : Out := .next (s.issue g (sqpopOp g))

/-- An entry is released: it leaves the queue and its credit returns to the producer (R48). -/
def State.creditBack (s : State) (g key : Nat) (d : StageDesc) (slot : Nat) : State :=
  let x := s.stageQ key
  match x.entries.find? (fun e => e.slot == slot && e.popping) with
  | none => s
  | some e =>
    let rest := x.entries.erase e
    match e.src with
    | none => s.setStageQ key { x with entries := rest, credits := x.credits + 1 }
    | some dev =>
      let r := (s.setStageQ key { x with entries := rest }).tell (s.launchQueue g) dev 0x10 (stageSlot d slot % 2 ^ 43) []
        (s.programPlan g)
      match r.1 with
      | some st => r.2.failOwner (.stage key slot) st
      | none => r.2

/-- The oldest stage-queue copy of a cluster ends (R48, R156): a pushed entry becomes poppable, a popped one returns its
credit. A copy to another module ends with its acknowledgements. -/
def execStageQueueCopyComplete (g : Fin 1024) (s : State) : Out :=
  match (s.cl g).copies with
  | [] => .next s
  | p :: rest =>
    let done (s : State) : State := (s.updCl g (fun c => { c with copies := rest })).drainFaulted g
    match s.stage? p.key with
    | none => .next (done s)
    | some d =>
      let a := faLocal (stageSlot d p.slot)
      if p.push then
        let ready (s : State) : State :=
          let x := s.stageQ p.key
          s.setStageQ p.key { x with entries := x.entries.map (fun e =>
            if e.slot = p.slot ∧ e.ready = false then { e with ready := true, got := d.size } else e) }
        if p.sent then (if s.asking (.stage p.key p.slot) then .next s else .next (done (ready s)))
        else
          match s.busWrite (.tile g) false a (s.lbRead g p.off d.size) with
          | .done t => .next (done (ready (t.actMem (t.launchQueue g) a d.size)))
          | .miss t | .stopped _ t => .next (done (ready t))
          | .waits t => .next t
      else
        let r := s.busRead (.tile g) a d.size
        if r.waits then .next r.st
        else if (s.cl g).pinned p.off d.size then .next (s.pinWait g)
        else .next (done (((r.st.actMem (s.launchQueue g) a d.size).lbPut g p.off r.bytes).creditBack g p.key d p.slot))

/-- The module that consumes a stage queue, when it is another one: that of its ring, or of its CONSUMER (R47). -/
def State.stageConsumer (s : State) (d : StageDesc) : Option Nat :=
  if s.stageRemote d then some (faDev d.buffer)
  else match d.consumer with
    | .remote fa => some (faDev fa)
    | .local _ => none

/-- SQ_CREDIT: a credit returns from another module, for the ring slot at an address of the ring (R48, R274). -/
def execSqCredit (h : FabHdr) (addr : Nat) (s : State) : Out :=
  .next (s.takes h (fun s =>
    match s.course.prog with
    | none => s
    | some p =>
      match p.stages.find? (fun d => s.stageConsumer d == some h.src &&
          decide (faLocal d.buffer ≤ addr ∧ addr < faLocal d.buffer + d.size * d.depth)) with
      | none => s
      | some d =>
        if s.courseRuns then
          let key := d.die * 512 + d.k
          let x := s.stageQ key
          s.setStageQ key { x with
            entries := x.entries.filter (fun e => stageSlot d e.slot % 2 ^ 43 != addr), credits := min d.depth (x.credits + 1) }
        else s))

end Sys2Proof.Machine
end

