-- ==== Sys2Proof/Machine/Chains.lean ====
section
/-! DEFINITION. Chains over accumulator tiles and collectives over buffers (R126 to R129, R288 to R290). -/
namespace Sys2Proof.Machine

/-- F32 values as bytes, and bytes as F32 values. -/
def bytesOfF32 (xs : List F32) : List Byte := xs.flatMap (fun x => leBytes 4 x.toNat)

def f32sOf (bs : List Byte) : List F32 :=
  (List.range (bs.length / 4)).map (fun i => BitVec.ofNat 32 (fieldLe bs (4 * i) 4))

/-- An entry of a detail section of the course (R321). -/
def State.addSection (s : State) (ty : Nat) (bs : List Byte) : State :=
  if s.cstate = 0 then s else s.setCourse { s.course with sections := s.course.sections ++ [(ty, bs)] }

/-! ## Chain members (R126, R156) -/

/-- A chain of the running course. -/
def State.chain? (s : State) (id : Nat) : Option ChainDesc :=
  if s.courseRuns then (match s.course.prog with | some p => p.chains.find? (fun c => c.id == id) | none => none) else none

/-- Places of a tile of a cluster of this module in the member list of a chain. -/
def State.membersAt (s : State) (c : ChainDesc) (g t : Nat) : List Nat :=
  c.members.zipIdx.filterMap (fun m =>
    if m.1.dev == s.devnum && m.1.cluster == g && m.1.tile == t then some m.2 else none)

def State.chainRun (s : State) (id : Nat) : ChainRun := Sparse.get .init s.course.chains id

def State.setChain (s : State) (id : Nat) (x : ChainRun) : State :=
  s.setCourse { s.course with chains := Sparse.put .init s.course.chains id x }

/-- The faults of the last member about DEST: on this module it is mapped and may be written (R157). -/
def State.destFaults (s : State) (g : Nat) (c : ChainDesc) : List TFault :=
  let a := faLocal c.dest
  let n := c.rows * 128
  if 2 ^ 43 ≤ c.dest ∧ s.here c.dest = false then []
  else if s.rangeMapped a n = false then [⟨3, a, true⟩] else s.storeFaults g a n

/-- CHN: this cluster's member of a chain begins, for one tile. -/
def chnOp (g : Nat) : TileOp :=
  { scalarOp g 0x64 (fun w => legalR w false true false 0 31) (fun w => [rRa w])
      (fun s w =>
        let t := rImm w
        let ok := match s.chain? (s.sreg g (rRa w)).toNat with
          | some c => !(s.membersAt c g t).isEmpty
          | none => false
        let last := match s.chain? (s.sreg g (rRa w)).toNat with
          | some c => if (s.membersAt c g t).contains (c.len - 1) then s.destFaults g c else []
          | none => []
        s.tileFaults g t false false ++ (if ok then last else [tf 0x0C t]))
      (fun s w =>
        let t := rImm w
        let id := (s.sreg g (rRa w)).toNat
        let s := s.tileWaits g t false false
        let mine := match s.chain? id with | some c => s.membersAt c g t | none => []
        let x := s.chainRun id
        let m := (mine.filter (fun i => !x.waiting.contains i)).headD (mine.headD 0)
        let s := s.setChain id { x with waiting := x.waiting ++ [m] }
        (s.updCl g (fun c => { c with chains := c.chains ++ [(id, t, c.serial)], serial := c.serial + 1 })).syncEngines g) with
    wad := fun _ => false }

def execChn (g : Fin 1024) (s : State) : Out := .next (s.issue g (chnOp g))

/-- The rows of a member have all been passed on. -/
def ChainRun.passed (x : ChainRun) (c : ChainDesc) (i : Nat) : Bool :=
  (List.range c.rows).all (fun r => decide (i < Sparse.get 0 x.got r))

/-- The running sum of one row takes the partials of a member: the sum and its events (R126). -/
def chainAdd (ieee : Bool) (first comp : Bool) (sum : List (F32 × F32)) (vs : List F32) : List ((F32 × F32) × Evt) :=
  (sum.zip vs).map (fun p =>
    if first then ((p.2, 0#32), none)
    else if comp then
      let r := compAdd ieee p.1.1 p.1.2 p.2
      ((r.1, r.2.1), r.2.2)
    else
      let r := f32op ieee .add p.1.1 p.2 0#32
      ((r.1, 0#32), r.2))

/-- What becomes of the next hop's message (R273, R284, R292): it waits for a port, it is forbidden, or it may leave. -/
inductive HopWay
  | waits
  | stops (why : Nat)
  | goes
  deriving DecidableEq, Repr

def State.hopWay (s : State) (dev op id i : Nat) (plain : Bool) : HopWay :=
  match s.noSend dev with
  | some st => .stops st
  | none =>
    match s.hopPort dev op id i with
    | none => .waits
    | some p => if s.hopStops p plain then .stops 9 else .goes

/-- A forbidden message of an owner: Link 1 is noted (R292), and the owner has the outcome. -/
def State.hopFail (s : State) (o : FabOwner) (why : Nat) : State :=
  (if why = 9 then s.set F.JFL_STATUS_VERSION_LINK1 1 else s).failOwner o why

/-- The bytes of a running sum on its way: F32 values, or pairs when compensated. -/
def sumBytes (comp : Bool) (sum : List (F32 × F32)) : List Byte :=
  if comp then sum.flatMap (fun p => bytesOfF32 [p.1, p.2]) else bytesOfF32 (sum.map Prod.fst)

def sumOf (comp : Bool) (n : Nat) (bs : List Byte) : List (F32 × F32) :=
  (List.range n).map (fun i =>
    if comp then (BitVec.ofNat 32 (fieldLe bs (8 * i) 4), BitVec.ofNat 32 (fieldLe bs (8 * i + 4) 4))
    else (BitVec.ofNat 32 (fieldLe bs (4 * i) 4), 0#32))

/-- The result of a chain is written whole to DEST (R126): true with the state afterwards, or false while a tile that
DEST names is busy (R131). What DEST refuses by now is not written. -/
def State.chainWrite (s : State) (g : Nat) (c : ChainDesc) : Bool × State :=
  let x := s.chainRun c.id
  let rs := (List.range (c.rows * 32)).map (fun e =>
    let p := Sparse.get (0#32, 0#32) x.sum e
    if c.comp = 1 then compFinal s.ieee p.1 p.2 else (p.1, none))
  let bs := bytesOfF32 (rs.map Prod.fst)
  let fin (s : State) : Bool × State :=
    (true, (s.countEvents (s.launchQueue g) c.destTid (EvCount.ofList (rs.map Prod.snd))).setChain c.id { x with written := c.rows })
  if 2 ^ 43 ≤ c.dest ∧ s.here c.dest = false then fin (s.fabStore (s.launchQueue g) c.dest bs (.chain c.id) false)
  else
    let a := faLocal c.dest
    match s.busWrite (.tile g) false a bs with
    | .done t => fin (t.actMem (t.launchQueue g) a bs.length)
    | .miss t | .stopped _ t => fin t
    | .waits t => (false, t)

/-- How many members the running sum of a row holds, by the largest, when the next member on this module after place `i`
adds to it: those up to the last one before `i` on this module. -/
def State.lastHere (s : State) (c : ChainDesc) (i : Nat) : Nat :=
  ((c.members.take i).zipIdx.filter (fun m => m.1.dev == s.devnum)).foldl (fun _ m => m.2 + 1) 0

/-- A member leaves its stage; the last one when DEST is written. -/
def State.memberDone (s : State) (c : ChainDesc) (i : Nat) (m : ChainMember) (o : Nat × Nat × Nat) : State :=
  let leave (s : State) : State :=
    let x := s.chainRun c.id
    let s := s.setChain c.id { x with waiting := x.waiting.erase i }
    (s.updCl m.cluster (fun k => { k with chains := k.chains.erase o })).tileFreed m.cluster
  if i + 1 = c.len then
    let r := s.chainWrite m.cluster c
    if r.1 then leave r.2 else r.2
  else leave s

/-- Member `i` of a chain, a tile of this module, takes row `r` of the running sum, adds its partials, and passes it on
(R126, R288); the last member writes DEST after its last row. -/
def State.chainStep (s : State) (c : ChainDesc) (i r : Nat) (m : ChainMember) (data : List Byte) : State :=
  let x := s.chainRun c.id
  let comp := c.comp == 1
  let prevHere := i != 0 && (match c.members[i - 1]? with | some p => p.dev == s.devnum | none => false)
  let sum := if i = 0 ∨ prevHere = true then (List.range 32).map (fun j => Sparse.get (0#32, 0#32) x.sum (32 * r + j))
    else sumOf comp 32 data
  let op := (s.cl m.cluster).chains.find? (fun o => o.1 == c.id && o.2.1 == m.tile)
  let due := x.waiting.contains i && decide (r < c.rows) && Sparse.get 0 x.got r == s.lastHere c i &&
    (List.range r).all (fun k => decide (i < Sparse.get 0 x.got k))
  match op with
  | none => s
  | some o =>
    if x.waiting.contains i && x.passed c i then s.memberDone c i m o
    else if !due || !(s.cl m.cluster).tileClear m.tile o.2.2 false then s
    else
      let next := c.members[i + 1]?
      let away := match next with | some n => n.dev != s.devnum | none => false
      match (match next with
        | some n => if away then s.hopWay n.dev 0x11 c.id i false else .goes
        | none => HopWay.goes) with
      | .waits => s
      | .stops why => s.hopFail (.chain c.id) why
      | .goes =>
        let q := s.launchQueue m.cluster
        let rd := (List.range 32).map (fun j => s.readout m.cluster m.tile (32 * r + j))
        let s := s.tileEvents m.cluster m.tile c.destTid (EvCount.ofList (rd.map Prod.snd))
        let out := chainAdd s.ieee (i == 0) comp sum (rd.map Prod.fst)
        let s := s.countEvents q c.destTid (EvCount.ofList (out.map Prod.snd))
        let newSum := ((List.range 32).zip out).foldl
          (fun (m : Sparse (F32 × F32)) p => Sparse.put (0#32, 0#32) m (32 * r + p.1) p.2.1) x.sum
        let x := { x with got := Sparse.put 0 x.got r (i + 1), sum := newSum }
        let s := s.setChain c.id x
        let s := match next with
          | some n => if away then s.sendHop q n.dev 0x11 c.id i r 0#64 (sumBytes comp (out.map Prod.fst))
              (s.programPlan m.cluster) else s
          | none => s
        if x.passed c i then s.memberDone c i m o else s

/-! ## Collectives (R289, R290) -/

/-- Bytes of one element, and elements of a chunk of 64 KiB. -/
def CollRun.size (x : CollRun) : Nat := if x.fmt = 0 then 4 else 16
def CollRun.perChunk (x : CollRun) : Nat := 0x10000 / x.size
def CollRun.chunks (x : CollRun) : Nat := ceilDiv x.elems x.perChunk
def CollRun.chunkElems (x : CollRun) (k : Nat) : Nat := min x.perChunk (x.elems - k * x.perChunk)

/-- Whether the running sum travels as compensated pairs. -/
def CollRun.pairs (x : CollRun) : Bool := x.comp && x.fmt == 0 && x.kind != 2

/-- The digest of members, KIND, FMT and COMP (R307). -/
def CollRun.digest (x : CollRun) : Word :=
  listDigest (x.members.flatMap (fun d => leBytes 2 d) ++ leBytes 2 x.members.length ++
    leBytes 1 (if x.comp then 1 else 0) ++ leBytes 1 x.kind ++ leBytes 1 x.fmt ++ List.replicate 3 0#8)

/-- The sum of two W96 containers modulo 2^104 (R66), as a container. -/
def w96Add (a b : List Byte) : List Byte :=
  padTo 16 (leBytes 13 (fieldLe a 0 13 + fieldLe b 0 13))

/-- A chunk of this member's input joins the running sum: bytes that go on, and the events. -/
def CollRun.join (x : CollRun) (ieee : Bool) (k : Nat) (data src : List Byte) : List Byte × EvCount :=
  let n := x.chunkElems k
  if x.kind = 2 then (if x.me = 0 then src else data, .zero)
  else if x.fmt ≠ 0 then
    (if x.me = 0 then (List.range n).flatMap (fun i => padTo 16 ((src.drop (16 * i)).take 13))
     else (List.range n).flatMap (fun i => w96Add ((data.drop (16 * i)).take 16) ((src.drop (16 * i)).take 16)), .zero)
  else
    let sum := if x.me = 0 then List.replicate n (0#32, 0#32) else sumOf x.pairs n data
    let r := chainAdd ieee (x.me == 0) x.pairs sum (f32sOf src)
    (sumBytes x.pairs (r.map Prod.fst), EvCount.ofList (r.map Prod.snd))

/-- The final value of a chunk from the running sum's bytes. -/
def CollRun.result (x : CollRun) (ieee : Bool) (k : Nat) (bs : List Byte) : List Byte × EvCount :=
  if x.pairs then
    let r := (sumOf true (x.chunkElems k) bs).map (fun p => compFinal ieee p.1 p.2)
    (bytesOfF32 (r.map Prod.fst), EvCount.ofList (r.map Prod.snd))
  else (bs, .zero)

def State.putColl (s : State) (x : CollRun) : State :=
  s.updFab (fun f => { f with colls := f.colls.map (fun y => if y.q == x.q && y.seq == x.seq then x else y) })

/-- A collective ends at this member (R290); RESULT_WRITTEN says that the final value has reached it. -/
def State.endColl (s : State) (x : CollRun) (st : Nat) : State :=
  let s := s.updFab (fun f => { f with colls := f.colls.filter (fun y => !(y.q == x.q && y.seq == x.seq)) })
  s.withWaiting (some (x.q, x.seq)) (fun c s => s.completeFull c st 0 0 (decide (0 < x.written) && x.stop == 0))

/-- A part of DEST takes its final value: none while a tile that it names is busy, otherwise the state afterwards and the
status of a part that is refused by now, 0 none. -/
def State.collWrite (s : State) (x : CollRun) (k : Nat) (bs : List Byte) : Option Nat × State :=
  match s.busWrite (.command x.q) (s.queueWadding x.q) (x.dest + k * x.perChunk * x.size) bs with
  | .done t => (some 0, t)
  | .miss t => (some stUnmapped, t)
  | .stopped .wadding t => (some stWadding, t)
  | .stopped .locked t => (some stLocked, t)
  | .waits t => (none, t)

/-- This member's DEST receives the result: the last of a chain-reduce, all of a chain-allreduce, all of a broadcast but
the first (R290). -/
def CollRun.writes (x : CollRun) : Bool :=
  (x.kind == 0 && x.me + 1 == x.members.length) || x.kind == 1 || (x.kind == 2 && x.me != 0)

/-- This member's part is over: every chunk passed on, or written where the kind gives it the result. -/
def CollRun.over (x : CollRun) : Bool := x.fwd == x.chunks && (!x.writes || x.written == x.chunks)

/-- A part has come to DEST: the first refusal stands. -/
def CollRun.wrote (x : CollRun) (st : Nat) : CollRun :=
  { x with written := x.written + 1, stop := if x.stop = 0 then st else x.stop }

def State.collCheckEnd (s : State) (x : CollRun) : State := if x.over then s.endColl x x.stop else s.putColl x

/-- Link 1 carries its messages (Table 11.10). -/
def CollRun.plain (x : CollRun) : Bool := x.fmt == 0 && !x.comp

/-- The planned batten of its command. -/
def State.collPlan (s : State) (x : CollRun) : Nat := match s.cmd? x.q x.seq with | some c => c.plan | none => s.course.plan

/-- The way on to the next member, and the way back that the last of a chain-allreduce needs. -/
def State.collWay (s : State) (x : CollRun) : HopWay :=
  match x.members[x.me + 1]? with
  | some d => s.hopWay d 0x11 x.id x.me x.plain
  | none => if x.kind = 1 then s.hopWay (x.members.getD (x.me - 1) 0) 0x12 x.id x.me x.plain else .goes

/-- The result goes back to the member before (R290). -/
def State.collBack (s : State) (x : CollRun) (k : Nat) (data : List Byte) : State :=
  s.sendHop x.q (x.members.getD (x.me - 1) 0) 0x12 x.id x.me k x.digest data (s.collPlan x)

/-- A member of a collective takes chunk `k` of the running sum, in order. What it sends on and what comes to its own DEST
happen together: it waits for a port, and for a busy tile of DEST, before anything of the chunk is done. -/
def State.collStep (s : State) (x : CollRun) (k : Nat) (digest : Word) (data : List Byte) : State :=
  if x.fwd ≠ k ∨ x.chunks ≤ k then s
  else if x.me ≠ 0 ∧ k = 0 ∧ digest ≠ x.digest then s.endColl x stCollMismatch
  else
    let next := x.members[x.me + 1]?
    match s.collWay x with
    | .waits => s
    | .stops why => s.hopFail (.coll x.q x.seq) why
    | .goes =>
      let r := s.busRead (.command x.q) (x.src + k * x.perChunk * x.size)
        (if x.kind = 2 ∧ x.me ≠ 0 then 0 else x.chunkElems k * x.size)
      if r.waits then r.st
      else
        let j := x.join s.ieee k data r.bytes
        let takes := next.isNone || (x.kind == 2 && x.me != 0)
        let f := x.result s.ieee k j.1
        let w := if takes then r.st.collWrite x k f.1 else (some 0, r.st)
        match w.1 with
        | none => w.2
        | some st =>
          let s := (w.2.countEvents x.q x.tid j.2).countEvents x.q x.tid (if takes then f.2 else .zero)
          let x := { x with fwd := k + 1 }
          let s := match next with
            | some d => s.sendHop x.q d 0x11 x.id x.me k x.digest j.1 (s.collPlan x)
            | none => if x.kind = 1 then s.collBack x k f.1 else s
          s.collCheckEnd (if takes then x.wrote st else x)

/-- CHAIN_SUM: member `member` of chain or collective `id` takes row or chunk `row` of the running sum. `sum` carries it
from another module, which SRC names; the first member, and a member after one of this module, takes none: it is a step
of this module. -/
def execChainSum (h : FabHdr) (id member row : Nat) (sum : ChainRow) (s : State) : Out :=
  .next (s.takes h (fun s =>
    match s.chain? id with
    | some c =>
      (match c.members[member]? with
       | some m => if m.dev = s.devnum then s.chainStep c member row m sum.data else s
       | none => s)
    | none =>
      match s.fab.colls.find? (fun x => x.id == id && x.me == member) with
      | some x => s.collStep x row sum.digest sum.data
      | none => s))

/-- COLL_RESULT: a member receives a chunk of the result on the reverse chain, writes it to DEST and passes it on. -/
def execCollResult (h : FabHdr) (id : Nat) (chunk : CollChunk) (s : State) : Out :=
  .next (s.takes h (fun s =>
    match s.fab.colls.find? (fun x => x.id == id && x.kind == 1) with
    | none => s
    | some x =>
      if x.written ≠ chunk.index ∨ x.fwd ≤ chunk.index then s
      else
        match (if x.me = 0 then .goes else s.hopWay (x.members.getD (x.me - 1) 0) 0x12 x.id x.me x.plain) with
        | .waits => s
        | .stops why => s.hopFail (.coll x.q x.seq) why
        | .goes =>
          let w := s.collWrite x chunk.index chunk.data
          match w.1 with
          | none => w.2
          | some st => (if x.me = 0 then w.2 else w.2.collBack x chunk.index chunk.data).collCheckEnd (x.wrote st)))

/-- The ranges of a collective descriptor (Table 11.8). -/
def collOk (b : List Byte) : Bool :=
  let fmt := fieldLe b 1 1
  let len := fieldLe b 4 2
  let el := fieldLe b 8 8
  let tid := fieldLe b 40 3
  decide (fieldLe b 0 1 < 8 ∧ fieldLe b 0 1 % 4 ≠ 3) && (fmtOfCode fmt == some .f32 || fmtOfCode fmt == some .w96) &&
  decide (2 ≤ len ∧ len ≤ 2048) && fieldLe b 6 2 == 0 && decide (1 ≤ el ∧ el ≤ 2 ^ 36) &&
  decide (fieldLe b 16 8 % 64 = 0 ∧ fieldLe b 16 8 < 2 ^ 43) && decide (fieldLe b 24 8 % 64 = 0 ∧ fieldLe b 24 8 < 2 ^ 43) &&
  decide (fieldLe b 32 8 < 2 ^ 43) && decide (tid < 0xFFF000 ∨ tid = 0xFFFFFF) && decide (fieldLe b 43 21 = 0)

/-- A hop of a collective to a neighbour leaves by a Link 1 port that does not carry it (R292, Table 11.10). -/
def State.collLink1 (s : State) (x : CollRun) : Bool :=
  let stops (d : Option Nat) (op : Nat) : Bool :=
    match d with
    | some d => (match s.hopPort d op x.id x.me with | some p => s.hopStops p x.plain | none => false)
    | none => false
  stops x.members[x.me + 1]? 0x11 || (x.kind == 1 && x.me != 0 && stops x.members[x.me - 1]? 0x12)

/-- COLLECTIVE. -/
def execCollective (q : Fin 16384) (seq : Nat) (s : State) : Out :=
  .next (s.runCmd 0x0400 q seq (fun c s =>
    s.needA c 16 (fun a => s.needMem c a 64 (
      let r := s.busRead (.command q) a 64
      let b := r.bytes
      let s := r.st
      if collOk b = false then s.fail c stBadParam 16
      else
        let len := fieldLe b 4 2
        let f := if fmtOfCode (fieldLe b 1 1) = some .f32 then 0 else fieldLe b 1 1
        let ma := fieldLe b 32 8
        if s.rangeMapped ma (2 * len) = false then (s.missEvent (.command q) ma).fail c stUnmapped 0
        else
          let mr := s.busRead (.command q) ma (2 * len)
          let ms := (List.range len).map (fun i => fieldLe mr.bytes (2 * i) 2)
          let s := mr.st
          if ¬ms.Nodup ∨ ms.contains s.devnum = false ∨ ms.any (fun d => decide (2048 ≤ d)) = true then
            s.fail c stBadParam 16
          else
            let x : CollRun := ⟨q, seq, fieldLe b 0 1 % 4, fieldLe b 0 1 / 4 == 1, f, fieldLe b 2 2, fieldLe b 8 8,
              fieldLe b 16 8, fieldLe b 24 8, ms, fieldLe b 40 3, ms.idxOf s.devnum, 0, 0, 0⟩
            let n := x.elems * x.size
            let reads := x.kind != 2 || x.me == 0
            let s := s.newHops x.id
            if !s.devValid then s.fail c stRefused 4
            else if reads && !s.rangeMapped x.src n then (s.missEvent (.command q) x.src).fail c stUnmapped 0
            else if x.writes && !s.rangeMapped x.dest n then (s.missEvent (.command q) x.dest).fail c stUnmapped 0
            else if x.writes && (s.writeStop (.command q) (s.queueWadding q) x.dest n).isSome then
              s.fail c (match s.writeStop (.command q) (s.queueWadding q) x.dest n with | some .wadding => stWadding | _ => stLocked) 0
            else if ms.any s.devLost then s.fail c stPeerLost 0
            else if s.collLink1 x then (s.set F.JFL_STATUS_VERSION_LINK1 1).fail c stRefused 9
            else
              let own := s.courseLive && (c.course != 0 ||
                (match s.course.prog with | some p => p.queues.contains q.val | none => false))
              let s := if own then s.addSection 3 (leBytes 2 x.id ++ leBytes 2 len ++ leBytes 1 (if x.comp then 1 else 0) ++
                leBytes 1 x.kind ++ leBytes 2 0 ++ leBytes 8 x.digest.toNat) else s
              (s.cmdWaits c [x.id]).updFab (fun fb => { fb with colls := fb.colls ++ [x] })))))

end Sys2Proof.Machine
end

