-- ==== Sys2Proof/Machine/FabricLink.lean ====
section
/-! DEFINITION. Jefort links and peers (R267 to R273, R282 to R285, R291): flits, training, identification, timeouts,
probing and the loss of a peer. -/
namespace Sys2Proof.Machine

/-! ## Links -/

/-- FLIT_RECEIVE (R269): a flit arrives on a link that is up; `fec` counts its uncorrectable codewords. One whose CRC
fails is discarded and its replay requested; one out of order waits for the replay. -/
def execFlitReceive (port : Fin 32) (fl : Flit) (fec : Nat) (crcOk : Bool) (s : State) : Out :=
  if s.portUp port then
    let s := s.bump F.JFL_PERR_FEC_UNCORR fec port
    let want := Sparse.get 0 s.fab.expect port
    if crcOk then
      let s := s.bump F.JFL_PRX_FLITS 1 port
      .next (if fl.seq = want then s.updFab (fun f => { f with
        expect := Sparse.put 0 f.expect port (want + 1)
        owed := Sparse.put 0 f.owed (4 * port + fl.vc) (Sparse.get 0 f.owed (4 * port + fl.vc) + 1)
        credit := (List.range 4).foldl (fun m v =>
          Sparse.put 0 m (4 * port + v) (Sparse.get 0 m (4 * port + v) + fl.credits.getD v 0)) f.credit }) else s)
    else .next (s.send (.link port 0 want))
  else .next s

/-- REPLAY_REQUEST (R269): the flits from one onward leave again out of the replay buffer; the eighth replay of the same
flit takes the link down. -/
def execReplayRequest (port : Fin 32) (seq : Nat) (s : State) : Out :=
  if s.portUp port then
    let s := s.bump F.JFL_PERR_REPLAYS 1 port
    let old := Sparse.get (0, 0) s.fab.replay port
    let n := if old.1 = seq ∧ old.2 ≠ 0 then old.2 + 1 else 1
    if 8 ≤ n then .next (s.linkDown port)
    else
      let again := (Sparse.get ([], 0) s.fab.tx port).1.filter (fun f => decide (seq ≤ f.seq))
      .next (again.foldl (fun s f => s.send (.flit port f))
        (s.updFab (fun f => { f with replay := Sparse.put (0, 0) f.replay port (seq, n) })))
  else .next s

/-- FEC_LOCK_LOSS (R269): FEC lock has been lost for 1 µs. -/
def execFecLockLoss (port : Fin 32) (s : State) : Out := if s.portUp port then .next (s.linkDown port) else .next s

/-- What the other end of a link reports in IDENT (R270, R273). -/
def State.setPeer (s : State) (port dev : Nat) (valid : Bool) (peerPort slot : Nat) : State :=
  (((s.set F.JFL_PSTATUS_PEER_DEVNUM dev port).set F.JFL_PSTATUS_PEER_VALID (if valid then 1 else 0) port).set
    F.JFL_PSTATUS_PEER_PORT peerPort port).set F.JFL_PSTATUS_PEER_SLOT slot port

/-- A port is wired to the wrong place (R267, R270): `strap` is this module's tray slot. -/
def miswired (port strap peerPort slot : Nat) : Bool :=
  portLevel port != portLevel peerPort || (portLevel port == 0 && (strap ^^^ (portIndex port % 3 + 1)) != slot)

/-- LINK_TRAINING_END (R268 to R270): all four lanes trained or not; the peer's highest version, and its IDENT. -/
def execLinkTrainingEnd (port : Fin 32) (ok : Bool) (strap : Fin 4) (maxver dev : Nat) (valid : Bool) (peerPort : Fin 32)
    (slot : Fin 4) (s : State) : Out :=
  if s.get F.JFL_PSTATUS_STATE port = 1 then
    let s := s.bump F.JFL_PSTATUS_TRAININGS 1 port
    if ok then
      let s := s.setPeer port dev valid peerPort slot
      if miswired port strap peerPort slot then
        .next (((s.set F.JFL_PSTATUS_STATE 4 port).set F.JFL_STATUS_MISWIRED 1).raise (port / 4) 0x0601
          (plAt 16 port + plAt 18 (s.get F.JFL_PSTATUS_PEER_DEVNUM port)))
      else
        .next (((s.set F.JFL_PSTATUS_VERSION (min (s.get F.JFL_PCTRL_MAXVER port) maxver) port).set
          F.JFL_PSTATUS_STATE 2 port).syncLevels.rehop)
    else .next (s.set F.JFL_PSTATUS_STATE 3 port)
  else .next s

/-! ## Liveness (R283, R291) -/

/-- A PROBE leaves by a port. -/
def State.probePort (s : State) (dev port : Nat) : State := s.nextTag.sendReq 0 port 0x30 (s.hdr dev s.fab.tag 0 false) 0 0 []

/-- PROBE: answered by the port it came by, with or without a device number (R273). -/
def execProbe (port : Fin 32) (src tag : Nat) (s : State) : Out :=
  if s.portUp port then .next ((s.heard src).sendAns port 0xB0 0 false src tag []) else .next s

/-- The middle value of a list; the lower one of two. -/
def median (l : List Nat) : Nat := (l.mergeSort (· ≤ ·)).getD ((l.length - 1) / 2) 0

/-- PROBE_RSP: it ends the probing of its sender, and gives the port's round trip in tb (R291). -/
def execProbeRsp (port : Fin 32) (src rtt : Nat) (s : State) : Out :=
  if s.portUp port then
    let s := (s.heard src).updFab (fun f => { f with rtt := Sparse.put 0 f.rtt port rtt })
    let l := portLevel port
    let vals := ((levelPorts l).filter s.portUp).filterMap (fun p =>
      let t := Sparse.get 0 s.fab.rtt p
      if t = 0 then none else some t)
    .next (s.set F.JFL_LEVEL_RTT_NS (min (median vals) (2 ^ 24 - 1)) 0 l)
  else .next s

/-- LEVEL_PROBE (R291): every 1,000 battens one PROBE leaves by every port that is up. -/
def execLevelProbe (s : State) : Out :=
  if s.powered && s.get F.TBN_BATTEN_BATTEN % 1000 == 0 then
    .next (((List.range 32).filter s.portUp).foldl (fun s p => s.probePort (s.get F.JFL_PSTATUS_PEER_DEVNUM p) p) s)
  else .next s

/-- Entry into holdover (R35). -/
def State.enterHoldover (s : State) : State :=
  if s.bit F.TBN_SYNC_HOLDOVER then s
  else
    let s := (List.range 8).foldl (fun s d => s.set F.TBN_STATUS_SYNC_LOST 1 d) (s.set F.TBN_SYNC_HOLDOVER 1)
    let s : State := { s with frame := { s.frame with good := 0 } }
    let s : State := if s.cstate = 0 then s else s.ledSet ⟨2, 2⟩ (s.ledGet ⟨2, 2⟩ ||| 2 ^ 3)
    s.raise 0 0x0301 (plAt 16 (s.get F.TBN_BATTEN_BATTEN))

/-- The course of the module takes part with a device: as a participant, or as a rank of the compare that runs. -/
def State.courseWith (s : State) (dev : Nat) : Bool :=
  s.courseLive && ((match s.course.prog with | some p => p.devices.contains dev | none => false) ||
    (s.bit F.LDG_STATUS_COMPARING && (List.range (s.get F.LDG_CMP_NREPL)).any (fun k =>
      fieldLe (s.asRead (s.get F.LDG_CMP_PEERS_BASE * 64 + 2 * k) 2) 0 2 == dev)))

/-- A request belongs to the course (R282). -/
def State.courseOwns (s : State) (o : FabOwner) : Bool :=
  match o with
  | .copyRead q seq _ | .copyStore q seq _ _ | .ident q seq | .coll q seq =>
    (match s.cmd? q seq with | some c => c.course != 0 | none => false)
  | .yealm die d _ | .add die d => (match s.ydesc? die d with | some y => s.descOwn y | none => false)
  | .stage _ _ | .chain _ => true
  | .move t k => s.tables.moves.any (fun m => m.table == t && m.shard == k && m.item.isSome)
  | _ => false

/-- A request ends at its source without success: the mark of the course that owns it, and its owner's outcome. -/
def State.reqFailed (s : State) (r : FabReq) (st : Nat) : State :=
  let mark := if st = fsTimeout then stTimeout else if st = fsLost then stPeerLost else st
  let s := if s.courseOwns r.owner then s.fabMark r.dev r.op mark else s
  (s.dropReq r.tag).failOwner r.owner st

/-- A request of a command. -/
def FabOwner.ofCmd : FabOwner → Bool
  | .copyRead _ _ _ | .copyStore _ _ _ _ | .ident _ _ | .coll _ _ => true
  | _ => false

/-- Requests to a lost peer end (R284). -/
def State.loseReqs (s : State) (l : List FabReq) : State :=
  l.foldl (fun s r => (s.dropReq r.tag).failOwner r.owner fsLost) s

/-- A peer is declared lost (R284, Table 11.6): what commands have asked of it and collectives with it end, the course in
which it takes part aborts with that cause, and the other requests to it end. -/
def State.peerLost (s : State) (dev : Nat) : State :=
  let s := (s.heard dev).wr .jflLost 0 (dev / 64) (fset (dev % 64) 1 (s.rd .jflLost 0 (dev / 64)) 1)
  let s := ((s.set F.JFL_STATUS_PEER_LOST 1).raise 0 0x0603 (plAt 16 dev)).ledBump ⟨296, 2⟩ 1
  let s := (s.fab.reqs.filter (fun r => r.dev == dev && s.courseOwns r.owner)).foldl (fun s r => s.fabMark r.dev r.op stPeerLost) s
  let s := s.loseReqs (s.fab.reqs.filter (fun r => r.dev == dev && r.owner.ofCmd))
  let s := (s.fab.colls.filter (fun x => x.members.contains dev)).foldl (fun s x =>
    let s := s.updFab (fun f => { f with colls := f.colls.filter (fun y => !(y.q == x.q && y.seq == x.seq)) })
    s.withWaiting (some (x.q, x.seq)) (fun c s => s.completeFull c stPeerLost 0 0 (decide (0 < x.written)))) s
  let s := if s.courseWith dev then s.abortCourse 8 else s
  let s := s.loseReqs (s.fab.reqs.filter (fun r => r.dev == dev))
  if s.get F.TBN_SYNC_ROLE = 2 ∧ s.frame.master = some dev then s.enterHoldover else s

/-- PROBE_WAIT_EXPIRY (R283): for longer than PROBE_US the module has waited for something that only a peer can send. -/
def execProbeWaitExpiry (dev : Fin 2048) (s : State) : Out :=
  if s.courseWith dev || s.fab.colls.any (fun x => x.members.contains dev.val) then .next (s.startProbing dev) else .next s

/-- PROBE_ROUND (R283): another PROBE_US has passed; after LOSS_COUNT rounds without an answer the peer is lost. -/
def execProbeRound (dev : Fin 2048) (s : State) : Out :=
  match s.fab.probing.find? (fun p => p.dev == dev.val) with
  | none => .next s
  | some p =>
    if s.get F.JFL_CFG_LOSS_COUNT ≤ p.rounds then .next (s.peerLost dev)
    else
      let s := s.updFab (fun f => { f with probing := f.probing.map (fun x => if x.dev = dev.val then { x with rounds := x.rounds + 1 } else x) })
      .next ((s.portsTo dev).foldl (fun s k => s.probePort dev k) s)

/-- A response arrives for an outstanding request of an operation: it is no longer outstanding; a failed one has its
outcome, a good one goes on. Any response ends the probing of its sender (R283). -/
def State.answer (s : State) (src tag status : Nat) (ops : List Nat) (f : FabReq → State → State) : State :=
  let s := s.heard src
  match s.fab.reqs.find? (fun r => r.tag == tag && !r.held && ops.contains r.op) with
  | none => s
  | some r => if status = 0 then f r (s.dropReq tag) else s.reqFailed r status

/-! ## Timeouts (R282) -/

/-- REQ_TIMEOUT_EXPIRY: a request has had no response within REQ_TIMEOUT. It is reissued, on another port of its level
when one is up, or after the last attempt it ends with TIMEOUT and its target is probed. -/
def execReqTimeoutExpiry (tag : Nat) (s : State) : Out :=
  match s.fab.reqs.find? (fun r => r.tag == tag && !r.held) with
  | none => .next s
  | some r =>
    if r.tries < s.get F.JFL_CFG_RETRIES then
      let ports := s.portsTo r.dev
      let port := if isSync r.op then ports.headD noPort
        else if r.op = 0x31 then r.port
        else (ports.filter (fun p => p != r.port && !s.link1Stops p r.op)).headD
          (if ports.contains r.port then r.port else noPort)
      let s := (s.bump F.JFL_CNT_REISSUES 1).ledBump ⟨292, 4⟩ 1
      let again := { r with tries := r.tries + 1, port := port, hdr := { r.hdr with reissue := true } }
      .next ((s.updFab (fun f => { f with reqs := f.reqs.map (fun x => if x.tag = tag then again else x) })).emit again)
    else
      let s := ((s.bump F.JFL_CNT_TIMEOUTS 1).set F.JFL_STATUS_TIMEOUT 1).ledBump ⟨288, 4⟩ 1
      let s := s.raise 0 0x0602 (plAt 16 r.dev + plAt 18 r.op)
      .next ((s.startProbing r.dev).reqFailed r fsTimeout)

/-! ## Identification (R273) -/

/-- IDENT: answered by its port with CFG_IDENT, CFG_SERIAL, CFG_DEVNUM, the slot strap, the port and the version. -/
def execIdent (port : Fin 32) (src tag : Nat) (strap : Fin 4) (s : State) : Out :=
  if s.portUp port then
    let b := leBytes 8 (s.rd .cfgIdent 0 0).toNat ++ leBytes 8 (s.rd .cfgSerial 0 0).toNat ++
      leBytes 8 (s.rd .cfgDevnum 0 0).toNat ++ leBytes 1 strap ++ leBytes 1 port ++ leBytes 1 (s.get F.JFL_PSTATUS_VERSION port)
    .next ((s.heard src).sendAns port 0xB1 0 false src tag b)
  else .next s

/-- FABRIC_IDENT (R273): an IDENT leaves by the port; RESULT is its JFL_PSTATUS. A port that is not up answers with its
status at once. -/
def execFabricIdent (q : Fin 16384) (seq : Nat) (s : State) : Out :=
  .next (s.runCmd 0x0402 q seq (fun c s =>
    let port := c.par 16 1
    if 32 ≤ port then s.fail c stBadParam 16
    else if s.portUp port then
      let s := s.cmdWaits c []
      let dev := s.get F.JFL_PSTATUS_PEER_DEVNUM port
      let r : FabReq := ⟨s.fab.tag, dev, 0x31, port, 0, [], .ident q seq, q, port, port, [port], 0, false,
        s.hdr dev s.fab.tag c.plan (s.queueWadding q)⟩
      (s.updFab (fun f => { f with reqs := f.reqs ++ [r] })).nextTag.emit r
    else s.succeed c (s.rd .jflPstatus port 0).toNat))

/-- IDENT_RSP: the answer on a port; it updates the port's status, and a FABRIC_IDENT that waits for it completes. -/
def execIdentRsp (port : Fin 32) (tag dev : Nat) (valid : Bool) (peerPort : Fin 32) (slot : Fin 4) (s : State) : Out :=
  match s.fab.reqs.find? (fun r => r.tag == tag && r.op == 0x31 && r.addr == port.val) with
  | none => .next s
  | some r =>
    let s := ((s.heard r.dev).dropReq tag).setPeer port dev valid peerPort slot
    match r.owner with
    | .ident q seq => .next (s.withWaiting (some (q, seq)) (fun c s => s.succeed c (s.rd .jflPstatus port 0).toNat))
    | _ => .next s

end Sys2Proof.Machine
end

