-- ==== Sys2Proof/Machine/UnitOps.lean ====
section
/-! DEFINITION. Shared operations of the update units: the delta and spill regions, the acceptance of adds, update
programs and the row that a unit processes (R216 to R237). -/
namespace Sys2Proof.Machine

/-! ## Memory as the block's own engines use it -/

/-- Bytes that the spec gives no value (Config.freeByte), one draw. -/
def State.freeBytes (s : State) (n : Nat) : List Byte × State :=
  ((List.range n).map (Config.freeByte s.free), { s with free := s.free + 1 })

/-- An engine of a die reads memory; an unmapped range has free bytes and one gutter event (R16). -/
def State.engineRead (s : State) (die a n : Nat) : List Byte × State :=
  if s.memRange a n then
    let r := s.readMem .engine a n
    (r.bytes, r.st)
  else (s.raise die 0x0202 (plAt 16 a + plAt 24 2)).freeBytes n

/-- A write of a writer of the block itself: nothing of an unmapped range is written (R16), and nothing of one that R164 or
R184 keeps from that writer. -/
def State.ownWrite (s : State) (w : Writer) (die a : Nat) (bs : List Byte) : State :=
  if s.memRange a bs.length then
    (if (s.writeStop w false a bs.length).isSome then s else s.writeMem a bs)
  else s.raise die 0x0202 (plAt 16 a + plAt 24 2)

/-- An engine of a die writes memory. A locked range, the directory and shard lists refuse it (R164, R184); the rules name
no outcome of that refusal (assumption log 66). -/
def State.engineWrite (s : State) (die a : Nat) (bs : List Byte) : State := s.ownWrite (.tile (128 * die)) die a bs

/-- An update unit writes a row, a residue or a state slot (R184). -/
def State.unitWrite (s : State) (u a : Nat) (bs : List Byte) : State := s.ownWrite .update (u / 3) a bs

/-- The 16-byte container of a sum: N and G in bits 103 to 0 and SAT in bit 104 (R64, Table 3.6). -/
def container (acc : Nat) : List Byte := leBytes 16 (acc % 2 ^ 105)

/-- The payload of a row add on the fabric: table, row, addend count, one container for each sum. -/
def rowAddBytes (table row count : Nat) (accs : List Nat) : List Byte :=
  leBytes 8 table ++ leBytes 8 row ++ leBytes 8 count ++ (accs.map container).flatten

/-! ## Delta and spill regions (R218 to R220) -/

/-- Addresses of the entries in use (STATE not 0) of a region of `n` entries. -/
def State.entriesIn (s : State) (base n size : Nat) : List Nat :=
  if size = 0 then []
  else s.mem.filterMap (fun c =>
    if base ≤ c.1 ∧ c.1 < base + n * size ∧ (c.1 - base) % size = 2 then some (c.1 - 2) else none)

def State.deltaUsed (s : State) (u : Nat) : List Nat :=
  s.entriesIn (s.deltaBase u) (s.get F.UPD_DELTA_CFG_ENTRIES u) (s.entryBytes u)
def State.spillUsed (s : State) (u : Nat) : List Nat :=
  s.entriesIn (s.spillBase u) (s.get F.UPD_SPILL_CFG_RECORDS u) (s.entryBytes u)

/-- Table and row of an entry. -/
def State.entryKey (s : State) (a : Nat) : Nat × Nat := (fieldLe (s.asRead a 2) 0 2, fieldLe (s.asRead (a + 8) 8) 0 8)

/-- UPD_OCC follows the regions. -/
def State.syncOcc (s : State) (u : Nat) : State :=
  (s.set F.UPD_OCC_USED (s.deltaUsed u).length u).set F.UPD_OCC_SPILLED (s.spillUsed u).length u

/-- Every delta and spill region is free. -/
def State.deltaFree (s : State) : Bool := (List.range 24).all (fun u => s.deltaUsed u == [] && s.spillUsed u == [])

/-- The entry that the probes of R219 find from index `i`, `k` probes to go: in use with the key, or free. -/
def State.findEntry (s : State) (u : Nat) (key : Nat × Nat) (n i : Nat) : Nat → Option Nat
  | 0 => none
  | k + 1 =>
    let a := s.deltaBase u + i % n * s.entryBytes u
    if fieldLe (s.asRead (a + 2) 1) 0 1 = 0 ∨ s.entryKey a = key then some a else s.findEntry u key n (i + 1) k

/-- The entry for an add, when its region has one (R219). -/
def State.entryFor (s : State) (u : Nat) (key : Nat × Nat) : Option Nat :=
  let n := s.get F.UPD_DELTA_CFG_ENTRIES u
  let r := s.deltaRange u
  if n = 0 ∨ s.memRange r.1 r.2 = false then none
  else
    let h := ((key.1 * 2 ^ 40) ||| key.2) * 0x9E3779B97F4A7C15 % 2 ^ 64
    s.findEntry u key n (h / 2 ^ 32 % n) (min 32 n)

/-- The first free spill record. -/
def State.spillFor (s : State) (u : Nat) : Option Nat :=
  let n := s.get F.UPD_SPILL_CFG_RECORDS u
  let r := s.spillRange u
  if n = 0 ∨ s.memRange r.1 r.2 = false then none
  else
    let used := s.spillUsed u
    ((List.range (min n (used.length + 1))).map (fun i => r.1 + i * s.entryBytes u)).find? (fun a => !used.contains a)

/-- The header of an entry (Table 9.1). -/
def entryHead (key : Nat × Nat) (count : Nat) : List Byte :=
  leBytes 2 key.1 ++ leBytes 6 1 ++ leBytes 8 key.2 ++ padTo 48 (leBytes 8 (min count (2 ^ 64 - 1)))

/-- The sums, each with its SAT as bit 104, and the count of an entry of `n` elements. -/
def State.entrySums (s : State) (a n : Nat) : List Nat × Nat × State :=
  let r := s.readMem .engine a (64 + 16 * n)
  ((List.range n).map (fun k => fieldLe r.bytes (64 + 16 * k) 16 % 2 ^ 105), fieldLe r.bytes 16 8, r.st)

/-- Two accumulators added modulo 2^104 (R66); SAT, bit 104, is sticky (R64). -/
def sumAcc (a b : Nat) : Nat :=
  (a % 2 ^ 104 + b % 2 ^ 104) % 2 ^ 104 + (if a / 2 ^ 104 % 2 = 1 ∨ b / 2 ^ 104 % 2 = 1 then 2 ^ 104 else 0)

/-- Two lists of sums added. -/
def sumAccs (a b : List Nat) : List Nat := (List.range (max a.length b.length)).map (fun k => sumAcc (a.getD k 0) (b.getD k 0))

/-- An entry is written. -/
def State.putEntry (s : State) (a : Nat) (key : Nat × Nat) (accs : List Nat) (count : Nat) : State :=
  s.writeMem a (entryHead key count ++ (accs.map container).flatten)

/-- An add is placed in the delta region or spilled (R219, R220); none when no spill record is free. An entry too small
for the row takes no add. -/
def State.placeAdd (s : State) (u : Nat) (key : Nat × Nat) (accs : List Nat) (count : Nat) : Option State :=
  if s.entryBytes u < 64 + 16 * accs.length then none
  else
    match s.entryFor u key with
    | some a =>
      let r : List Nat × Nat × State :=
        if fieldLe (s.asRead (a + 2) 1) 0 1 = 0 then ([], 0, s) else s.entrySums a accs.length
      some ((r.2.2.putEntry a key (sumAccs r.1 accs) (r.2.1 + count)).syncOcc u)
    | none =>
      match s.spillFor u with
      | none => none
      | some a =>
        let s := (s.putEntry a key accs count).set F.UPD_STATUS_SPILL 1 u
        let s : State := if s.cstate = 0 then s
          else (s.ledBump ⟨240, 8⟩ 1).ledSet ⟨2, 2⟩ ((s.ledGet ⟨2, 2⟩) ||| 2 ^ 8)
        some (s.syncOcc u)

/-- The keys that a unit's entries and spill records hold, in ascending order (R225). -/
def State.touched (s : State) (u : Nat) : List (Nat × Nat) :=
  let l := ((s.deltaUsed u ++ s.spillUsed u).map s.entryKey).eraseDups
  l.mergeSort (fun a b => decide (a.1 < b.1) || (a.1 == b.1 && decide (a.2 ≤ b.2)))

/-- Entries and spill records of a key. -/
def State.keyEntries (s : State) (u : Nat) (key : Nat × Nat) : List Nat :=
  (s.deltaUsed u ++ s.spillUsed u).filter (fun a => s.entryKey a == key)

/-- The entries and spill records of a key are free again. -/
def State.freeKey (s : State) (u : Nat) (key : Nat × Nat) : State :=
  ((s.keyEntries u key).foldl (fun s a => s.writeMem a (List.replicate (s.entryBytes u) 0#8)) s).syncOcc u

/-- The sum and the count of a key over its entry and spill records (R225 step 1). -/
def State.keySums (s : State) (u : Nat) (key : Nat × Nat) (n : Nat) : List Nat × Nat × State :=
  (s.keyEntries u key).foldl (fun (r : List Nat × Nat × State) a =>
    let e := r.2.2.entrySums a n
    (sumAccs r.1 e.1, min (r.2.1 + e.2.1) (2 ^ 64 - 1), e.2.2)) ([], 0, s)

/-! ## Update programs (R228, R229, R232) -/

/-- The fields of an instruction word. -/
structure UWord where
  op : Nat
  d : Nat
  a : Nat
  b : Nat
  c : Nat
  x : Nat

def uword (w : Nat) : UWord := ⟨w % 64, w / 2 ^ 6 % 16, w / 2 ^ 10 % 16, w / 2 ^ 14 % 16, w / 2 ^ 18 % 16, w / 2 ^ 22 % 1024⟩

/-- What an opcode of Table 9.5 uses: D, A, B, C, and the number of selectors in X. -/
def uUses (op : Nat) : Option (Bool × Bool × Bool × Bool × Nat) :=
  match op with
  | 0x00 => some (false, false, false, false, 1)
  | 0x01 | 0x02 | 0x06 => some (true, false, false, false, 1)
  | 0x03 => some (true, false, false, false, 4)
  | 0x04 => some (true, false, false, false, 16)
  | 0x05 => some (true, false, false, false, 4)
  | 0x08 | 0x09 | 0x0A | 0x0B | 0x0D | 0x0E => some (true, true, true, false, 1)
  | 0x0C | 0x13 => some (true, true, true, true, 1)
  | 0x0F | 0x10 | 0x11 | 0x12 | 0x14 | 0x15 => some (true, true, false, false, 1)
  | 0x16 | 0x18 => some (false, true, false, false, 1)
  | 0x17 => some (false, true, false, false, 4)
  | _ => none

/-- Progress of the load-time checks: the sequence (0 STAT, 1 COL, 2 UPD, 3 none left), the registers written and the
slots stored in it, and its STW instructions. -/
structure PCheck where
  seq : Nat
  regs : List Nat
  slots : List Nat
  stw : Nat

/-- The checks of Table 9.3 on one word; none when it offends. -/
def checkWord (w : Nat) (c : PCheck) : Option PCheck :=
  let f := uword w
  match uUses f.op with
  | none => none
  | some (d, a, b, cc, x) =>
    let unused := (d || f.d == 0) && (a || f.a == 0) && (b || f.b == 0) && (cc || f.c == 0) && decide (f.x < x)
    let reads := (if a then [f.a] else []) ++ (if b then [f.b] else []) ++ (if cc then [f.c] else [])
    let phase := (f.op != 0x06 || c.seq == 1) && (f.op != 0x16 || c.seq == 0) &&
      (!(f.op == 0x01 || f.op == 0x18) || c.seq != 1) && (f.op != 0x18 || c.seq == 2)
    let writes := (f.op != 0x17 || !c.slots.contains f.x) && (f.op != 0x18 || c.stw == 0) &&
      (f.op != 0x00 || c.seq != 2 || c.stw == 1)
    if c.seq < 3 ∧ w < 2 ^ 32 ∧ unused = true ∧ reads.all c.regs.contains = true ∧ phase = true ∧ writes = true then
      if f.op = 0x00 then some ⟨c.seq + 1, [], [], 0⟩
      else some { c with
        regs := if d then f.d :: c.regs else c.regs
        slots := if f.op = 0x17 then f.x :: c.slots else c.slots
        stw := if f.op = 0x18 then c.stw + 1 else c.stw }
    else none

/-- The index of the first offending instruction, if any (R229). -/
def checkWords : List Nat → Nat → PCheck → Option Nat
  | [], i, c => if c.seq < 3 then some i else none
  | w :: ws, i, c =>
    if i = 64 then some 64
    else match checkWord w c with
      | none => some i
      | some c => checkWords ws (i + 1) c

/-- DETAIL of PROGRAM_INVALID for an image, if it is not valid. -/
def checkProgram (img : List Byte) : Option Nat :=
  let h := fieldLe img 0 8
  if img.length < 8 ∨ img.length % 4 ≠ 0 ∨ (h ≠ 0 ∧ h ≠ 3) then some 0xFF
  else
    let ws := (List.range ((img.length - 8) / 4)).map (fun k => fieldLe img (8 + 4 * k) 4)
    checkWords ws 0 ⟨if h = 3 then 0 else 2, [], [], 0⟩

/-- Word `k` of a program slot, and its header byte. -/
def State.progWord (s : State) (slot k : Nat) : Nat := ofLe (tableBytes s.upd.prog (slot * 512 + 8 + 4 * k) 4)
def State.progStat (s : State) (slot : Nat) : Bool := (Sparse.get 0#8 s.upd.prog (slot * 512)).toNat % 2 == 1

/-- Where a phase begins: STAT, COL and UPD follow one another, each closed by its END (R228). -/
def State.phaseStart (s : State) (slot phase : Nat) : Nat :=
  if s.progStat slot then
    let ends := (List.range 64).filter (fun k => s.progWord slot k % 64 == 0)
    match phase with
    | 0 => 0
    | 1 => ends.getD 0 63 + 1
    | _ => ends.getD 1 63 + 1
  else 0

/-- The slots that a program loads or stores. -/
def State.progSlots (s : State) (slot : Nat) : List Nat :=
  (List.range 64).filterMap (fun k =>
    let f := uword (s.progWord slot k)
    if f.op = 0x03 ∨ f.op = 0x17 then some (f.x % 4) else none)

/-! ## Bindings (R230, R231) -/

def bindProg (b : List Byte) : Nat := fieldLe b 0 1 % 64
def bindLayer (b : List Byte) : Nat := fieldLe b 2 2
def bindTid (b : List Byte) : Nat := fieldLe b 4 3
def bindParams (b : List Byte) : Nat := fieldLe b 8 8

/-- A slot keeps the rules of Table 9.4 and R231 about its format. -/
def SlotDesc.ok (x : SlotDesc) : Bool :=
  let f8 := x.fmt == 3 || x.fmt == 4
  x.rsv == 0 && (x.kind == 0 || ([0, 1, 3, 4].contains x.fmt && (if x.kind = 1 then x.scaled == f8 else !x.scaled)))

/-- The checks of R231 that need no place: Table 9.4, a loaded program, and slots that match it. -/
def State.bindingOk (s : State) (b : List Byte) (dense : Bool) : Bool :=
  let p := bindProg b
  fieldLe b 0 1 == p && fieldLe b 1 1 == 0 && fieldLe b 7 1 == 0 && bindParams b % 64 == 0 && decide (bindParams b < 2 ^ 43) &&
  s.get F.UPD_PROG_VALID_VALID / 2 ^ p % 2 == 1 && (List.range 4).all (fun i => (slotDesc b i).ok) &&
  (s.progSlots p).all (fun i => (slotDesc b i).kind != 0) &&
  (dense || (!s.progStat p && (List.range 4).all (fun i => (slotDesc b i).kind != 3)))

/-- The extents of a binding's slots at a base (R231). -/
def slotExtents (b : List Byte) (base n rows cols : Nat) : List (Nat × Nat) :=
  (List.range 4).filterMap (fun i =>
    let x := slotDesc b i
    if x.kind = 0 then none else some (base + x.off, x.extent n rows cols))

/-! ## The row that a unit processes -/

def State.runOf (s : State) (u : Nat) : Option UpdRun := Sparse.get none s.upd.runs u

def State.setRun (s : State) (u : Nat) (r : Option UpdRun) : State :=
  { s with upd := { s.upd with runs := Sparse.put none s.upd.runs u r } }

/-- The dense item of a run. -/
def State.denseOf (s : State) (r : UpdRun) : Option DenseItem :=
  match r.dense, s.course.prog with
  | some i, some p => (match p.items[i]? with | some ⟨_, _, .denseFold d⟩ => some d | _ => none)
  | _, _ => none

/-- The descriptor of the table of a run; a dense item is F32. -/
def State.runTable (s : State) (r : UpdRun) : TDesc :=
  match s.denseOf r with
  | some d => { tdesc [] with elems := d.cols, rows := d.rows }
  | none => match s.tableNow r.table with | some v => tdesc v.1 | none => tdesc []

/-- Registers of a run. -/
def UpdRun.reg (r : UpdRun) (k : Nat) : List F32 := (List.range r.n).map (fun i => Sparse.get 0#32 r.regs (k * 16384 + i))

def UpdRun.put (r : UpdRun) (k : Nat) (vs : List F32) : UpdRun :=
  { r with regs := (vs.zipIdx).foldl (fun m p => Sparse.put 0#32 m (k * 16384 + p.2) p.1) r.regs }

/-- Counting the events of a run against a tensor (R233). -/
def State.unitEvents (s : State) (q : Option Nat) (tid : Nat) (c : EvCount) : State :=
  match q with
  | some q => s.countEvents q tid c
  | none => s.entryAdd tid c

/-- The unit's die. -/
def unitDie (u : Nat) : Nat := u / 3

/-- k and lr' of a layer in this course (R105). -/
def State.layerRate (s : State) (l : Nat) : Int × F32 := Sparse.get (0, 0#32) s.course.layerK l

/-- 2^k as an F32 value. -/
def pow2F32 (k : Int) : F32 := (rna32 false false (pow2 k)).1

/-! ### Loads -/

/-- What an instruction does with the run of a unit: the state and the run afterwards. -/
abbrev UEffect := State → Nat → UpdRun → UWord → State × UpdRun

/-- Values loaded into a register, their events against a tensor. -/
def loadInto (s : State) (r : UpdRun) (tid d : Nat) (vs : List (F32 × Evt)) : State × UpdRun :=
  (s.unitEvents r.q tid (EvCount.ofList (vs.map Prod.snd)), r.put d (vs.map Prod.fst))

/-- A readout of element `k` of a row's sum has saturated: SAT is set in the containers that hold the sum (R64, R67,
assumption log 63). -/
def State.setSat (s : State) (u : Nat) (key : Nat × Nat) (k : Nat) : State :=
  (s.keyEntries u key).foldl (fun s a =>
    let b := a + 64 + 16 * k + 13
    s.writeMem b [s.asRead b 1 |>.headD 0#8 |> (· ||| 1#8)]) s

/-- LDG: the readout of each sum at WEXP, or the element of GRAD (R225, R227). -/
def effLdg : UEffect := fun s u r w =>
  match s.denseOf r with
  | some d =>
    let x := s.engineRead (unitDie u) (d.grad + r.row * d.cols * 4) (4 * r.n)
    loadInto x.2 r (bindTid r.binding) w.d ((List.range r.n).map (fun i => (BitVec.ofNat 32 (fieldLe x.1 (4 * i) 4), none)))
  | none =>
    let e := (s.runTable r).wexp
    let ps := (List.range r.n).map (fun i => readoutW96 specF32 s.ieee e (r.accs.getD i 0))
    let s := if r.fold then ps.zipIdx.foldl (fun s p => if p.1.2.2 then s.setSat u (r.table, r.row) p.2 else s) s else s
    loadInto s r (bindTid r.binding) w.d (ps.map (fun p => (BitVec.ofNat 32 p.1, p.2.1)))

/-- The present master values of the row (R167, R232), exact in F32, and the event of an invalid scale (R61). -/
def State.masters (s : State) (u : Nat) (r : UpdRun) : List (F32 × Evt) × Evt × State :=
  let t := s.runTable r
  let x := s.engineRead (unitDie u) r.addr t.payload
  let ieee := s.ieee
  let sc : Rat × Evt := if t.format.scaled then readS16 (fieldLe x.1 0 2) else (1, none)
  let off := if t.format.scaled then 2 else 0
  let w := t.format.bytes
  if t.split then
    let y := x.2.engineRead (unitDie u) r.res t.elems
    ((List.range r.n).map (fun i =>
      let q := sexp8 (fieldLe x.1 (2 + i) 1)
      let rho := sexp8 (fieldLe y.1 i 1)
      let m : Int := if 0 ≤ q then 256 * q + rho else 256 * q - rho
      rna32s ieee false ((m : Rat) * sc.1 / 256)), sc.2, y.2)
  else
    ((List.range r.n).map (fun i => loadElem ieee t.format sc.1 0 (fieldLe x.1 (off + w * i) w)), sc.2, x.2)

def effLdw : UEffect := fun s u r w =>
  let m := s.masters u r
  let tid := bindTid r.binding
  loadInto (m.2.2.unitEvents r.q tid (EvCount.zero.add m.2.1)) r tid w.d m.1

/-- Address of the entry of a slot for the row of a run, or of its first column (R231). -/
def UpdRun.slotAddr (r : UpdRun) (x : SlotDesc) : Nat :=
  r.base + x.off + (if x.kind = 3 then 0 else r.place * x.step r.n)

/-- The format of a slot. -/
def SlotDesc.format (x : SlotDesc) : Fmt := (fmtOfCode x.fmt).getD .f32

/-- An entry of a slot decoded to F32 (R236): scaled by its row's scale, or times 2^SEXP. -/
def slotElem (ieee : Bool) (x : SlotDesc) (scale : Rat) (code : Nat) : F32 × Evt :=
  if x.scaled then loadElem ieee x.format scale 0 code
  else
    let v := convert .f32 ieee .rna x.format.big (pow2 (-x.exp)) 0 (decodeElem x.format code 1 0)
    (BitVec.ofNat 32 v.1, v.2)

def effLds : UEffect := fun s u r w =>
  let x := slotDesc r.binding (w.x % 4)
  let a := r.slotAddr x
  let e := x.width
  let ieee := s.ieee
  if x.kind = 2 then
    let y := s.engineRead (unitDie u) a e
    let v := slotElem ieee x 1 (ofLe y.1)
    let t := y.2.unitEvents r.q x.tid (EvCount.zero.add v.2)
    (t, r.put w.d (List.replicate r.n v.1))
  else
    let head := if x.kind = 1 ∧ x.scaled = true then 2 else 0
    let y := s.engineRead (unitDie u) a (head + e * r.n)
    let sc : Rat × Evt := if head = 2 then readS16 (fieldLe y.1 0 2) else (1, none)
    loadInto (y.2.unitEvents r.q x.tid (EvCount.zero.add sc.2)) r x.tid w.d
      ((List.range r.n).map (fun i => slotElem ieee x sc.1 (fieldLe y.1 (head + e * i) e)))

def effLdp : UEffect := fun s u r w =>
  let y := s.engineRead (unitDie u) (bindParams r.binding + 4 * (w.x % 16)) 4
  (y.2, r.put w.d (List.replicate r.n (BitVec.ofNat 32 (ofLe y.1))))

def effLdk : UEffect := fun s _ r w =>
  let v : F32 := match w.x with
    | 0 => (s.layerRate (bindLayer r.binding)).2
    | 1 => (rna32 false false (r.n : Rat)).1
    | 2 => (rna32 false false ((s.runTable r).rows : Rat)).1
    | _ => one32
  (s, r.put w.d (List.replicate r.n v))

def effLdcol : UEffect := fun s _ r w =>
  (s, r.put w.d ((List.range r.n).map (fun j => Sparse.get 0#32 r.sums j)))

/-! ### Arithmetic (R233) -/

def effArith (op : FOp) : UEffect := fun s _ r w =>
  let a := r.reg w.a
  let b := r.reg w.b
  let c := r.reg w.c
  let ieee := s.ieee
  loadInto s r (bindTid r.binding) w.d ((List.range r.n).map (fun i =>
    f32op ieee op (a.getD i 0#32) (b.getD i 0#32) (c.getD i 0#32)))

/-- FSEL: ub where ua is above +0, else uc. -/
def effFsel : UEffect := fun s _ r w =>
  let a := r.reg w.a
  let b := r.reg w.b
  let c := r.reg w.c
  (s, r.put w.d ((List.range r.n).map (fun i =>
    if f32cmp .gt (a.getD i 0#32) 0#32 then b.getD i 0#32 else c.getD i 0#32)))

/-- RSUM: the compensated sum of the row in every element, one result (R233). -/
def effRsum : UEffect := fun s _ r w =>
  let v := compSum s.ieee (r.reg w.a)
  (s.unitEvents r.q (bindTid r.binding) (EvCount.zero.add v.2), r.put w.d (List.replicate r.n v.1))

/-- RAMAX: the largest magnitude, NaN left out. -/
def effRamax : UEffect := fun s _ r w => (s, r.put w.d (List.replicate r.n (reduceAmax (r.reg w.a))))

/-- CACC: one compensated pair for each column. -/
def effCacc : UEffect := fun s _ r w =>
  let a := r.reg w.a
  let ieee := s.ieee
  let l := (List.range r.n).map (fun j =>
    match Sparse.get none (r.cols.map (fun (p : Nat × F32 × F32) => (p.1, some p.2))) j with
    | none => (a.getD j 0#32, 0#32, (none : Evt))
    | some p => compAdd ieee p.1 p.2 (a.getD j 0#32))
  (s.unitEvents r.q (bindTid r.binding) (EvCount.ofList (l.map (fun p => p.2.2))),
   { r with cols := l.zipIdx.map (fun p => (p.2, p.1.1, p.1.2.1)) })

/-! ### Stores (R234 to R236) -/

/-- The conversion of an element into a slot. -/
def State.slotCode (s : State) (x : SlotDesc) (scale : Rat) (idx : Nat) (v : F32) : Nat × Evt :=
  convert x.format s.ieee (s.rndFor x.sr x.tid idx) specF32.maxFin scale 0 (dec32 v)

def effSts : UEffect := fun s u r w =>
  let x := slotDesc r.binding (w.x % 4)
  let a := r.slotAddr x
  let vs := r.reg w.a
  if x.kind = 2 then
    let c := s.slotCode x (pow2 x.exp) r.row (vs.getD 0 0#32)
    ((s.unitWrite u a (leBytes x.width c.1)).unitEvents r.q x.tid (EvCount.zero.add c.2), r)
  else
    let sc : ScaleRes := if x.kind = 1 ∧ x.scaled = true then symScale x.format false (finiteAmax vs) else ⟨0, 0, false, none⟩
    let scale : Rat := if x.kind = 1 ∧ x.scaled = true then (readS16 sc.scale).1 else pow2 x.exp
    let cs := vs.zipIdx.map (fun p => s.slotCode x scale (if x.kind = 3 then p.2 else r.row * r.n + p.2) p.1)
    let n := (EvCount.ofList (cs.map Prod.snd)).add sc.ev
    let n := if sc.degen then n.addDegen else n
    let head := if x.kind = 1 ∧ x.scaled = true then leBytes 2 sc.scale else []
    ((s.unitWrite u a (head ++ (cs.map (fun c => leBytes x.width c.1)).flatten)).unitEvents r.q x.tid n, r)

/-- The scale that STW gives a row (R235): kept within a factor of four of the top, else chosen anew. An invalid stored
code acts as 1.0, also where it is kept (R61); its event stands beside the one of a new scale. -/
def rowScale (f : Fmt) (old : Nat) (amax : Rat) : ScaleRes × Evt :=
  let p := readS16 old
  let qm : Rat := qmax f
  (if qm / 4 ≤ amax / p.1 ∧ amax / p.1 ≤ qm then ⟨if p.2 = none then old else 0x3F80, 0, false, none⟩ else symScale f false amax,
   p.2)

/-- A split-master element: stored byte, residue byte, event (R235). -/
def splitElem (scale : Rat) (v : F32) : Nat × Nat × Evt :=
  match dec32 v with
  | .nan => (0, 0, some .nonfin)
  | .inf n => (byteOfInt (if n then -127 else 127), 0, some .nonfin)
  | x =>
    let m := rnaInt (x.val * 256 / scale)
    let q := rnaInt ((m : Rat) / 256)
    let rho := if 0 ≤ q then m - 256 * q else 256 * q - m
    (byteOfInt q, byteOfInt rho, if m = 0 ∧ x.val ≠ 0 then some .ufl else none)

/-- The largest update magnitude of a layer grows (R105, R234): infinities count, NaN is left out. -/
def State.noteUpdate (s : State) (layer : Nat) (vs : List F32) : State :=
  let m := (reduceAmax vs).toNat
  if Sparse.get 0 s.course.layerU layer < m then
    s.setCourse { s.course with layerU := Sparse.put 0 s.course.layerU layer m }
  else s

/-- STW (R234, R235). The subtraction and the conversion to the row's format are two results (R77). -/
def effStw : UEffect := fun s u r w =>
  let t := s.runTable r
  let ieee := s.ieee
  let layer := bindLayer r.binding
  let tid := bindTid r.binding
  let k := pow2F32 (s.layerRate layer).1
  let m := s.masters u r
  let up := r.reg w.a
  let x := m.1.zipIdx.map (fun p =>
    let y := f32op ieee .fma (k ^^^ 0x80000000#32) (up.getD p.2 0#32) p.1.1
    (y.1, worst p.1.2 y.2))
  let n := EvCount.ofList (x.map Prod.snd)
  let s := m.2.2.noteUpdate layer (up.map (fun v => (f32op ieee .mul k v 0#32).1))
  let die := unitDie u
  if t.format.scaled then
    let old := s.engineRead die r.addr 2
    let sc := rowScale t.format (ofLe old.1) (finiteAmax (x.map Prod.fst))
    let scale := (readS16 sc.1.scale).1
    let n := ((if sc.1.degen then n.addDegen else n).add sc.1.ev).add sc.2
    if t.split then
      let cs := x.map (fun p => splitElem scale p.1)
      let s := old.2.unitWrite u r.addr (leBytes 2 sc.1.scale ++ cs.map (fun c => BitVec.ofNat 8 c.1))
      let s := s.unitWrite u r.res (cs.map (fun c => BitVec.ofNat 8 c.2.1))
      (s.unitEvents r.q tid ((cs.map (fun c => c.2.2)).foldl EvCount.add n), r)
    else
      let cs := x.map (fun p => convert t.format ieee .rna specF32.maxFin scale 0 (dec32 p.1))
      let s := old.2.unitWrite u r.addr (leBytes 2 sc.1.scale ++ cs.map (fun c => BitVec.ofNat 8 c.1))
      (s.unitEvents r.q tid ((cs.map Prod.snd).foldl EvCount.add n), r)
  else
    let cs := x.map (fun p =>
      if t.format = .f32 then (p.1.toNat, none) else convert t.format ieee .rna specF32.maxFin 1 0 (dec32 p.1))
    let s := s.unitWrite u r.addr ((cs.map (fun c => leBytes t.format.bytes c.1)).flatten)
    (s.unitEvents r.q tid ((cs.map Prod.snd).foldl EvCount.add n), r)

/-! ## Opening and closing a row -/

/-- The dense fold items of the course that a unit has still to fold, as places in the program. -/
def State.denseLeft (s : State) (u : Nat) : List Nat :=
  match s.course.prog with
  | none => []
  | some p => (List.range p.items.length).filter (fun i =>
      match p.items[i]? with
      | some ⟨_, _, .denseFold d⟩ => unitOf d.region == u && !s.course.done.contains i
      | _ => false)

/-- A unit's fold has ended: no touched row, no dense item and no row in progress. -/
def State.unitFolded (s : State) (u : Nat) : Bool := (s.touched u).isEmpty && (s.denseLeft u).isEmpty && (s.runOf u).isNone

/-- FOLDING follows the work of a unit during the fold. -/
def State.syncFolding (s : State) (u : Nat) : State :=
  s.set F.UPD_STATUS_FOLDING (if s.course.fold = 1 ∧ s.unitFolded u = false then 1 else 0) u

/-- A row of a dense item in a phase (R227); COL runs on one row, numbered 0. -/
def State.openDense (s : State) (i : Nat) (d : DenseItem) (phase row : Nat) (old : Option UpdRun) : UpdRun :=
  let b := d.binding
  { dense := some i, table := 0, row := row, binding := b, place := row, addr := d.region + row * d.cols * 4, res := 0,
    base := d.region, n := d.cols, phase := phase, pc := s.phaseStart (bindProg b) phase, accs := [], fold := true,
    regs := [], cols := (match old with | some r => r.cols | none => []),
    sums := (match old with | some r => r.sums | none => []), q := some s.course.queue }

/-- The rounding of the column sums at the end of STAT, with its events. -/
def UpdRun.closeCols (r : UpdRun) (ieee : Bool) : Sparse F32 × EvCount :=
  let l := r.cols.map (fun p => (p.1, compFinal ieee p.2.1 p.2.2))
  (l.foldl (fun m p => Sparse.put 0#32 m p.1 p.2.1) [], EvCount.ofList (l.map (fun p => p.2.2)))

/-- An embedding row of a unit is opened with its sums; none when its table, row or program cannot be found. -/
def State.openRow (s : State) (table row : Nat) (accs : List Nat) (fold : Bool) (q : Option Nat) : Option UpdRun :=
  match s.tableNow table with
  | none => none
  | some v =>
    let t := tdesc v.1
    let p := rowPlace t v.2 row
    let b := s.bindingOf table
    some { dense := none, table := table, row := row, binding := b, place := p.place, addr := faLocal (p.row t),
           res := faLocal (p.res t), base := faLocal p.entry.row0, n := t.elems, phase := 2,
           pc := s.phaseStart (bindProg b) 2, accs := accs, fold := fold, regs := [], cols := [], sums := [], q := q }

/-- The headroom check of a row (R237): whether it may be folded. -/
def State.headroom (s : State) (u table row count : Nat) : Bool × State :=
  if 2 ^ 55 < count then
    let s := (s.bump F.UPD_HEADCNT_SKIPPED_ROWS 1 u).set F.UPD_STATUS_ROW_SKIPPED 1 u
    let s := (s.bump F.UPD_HEADCNT_HEADROOM_ROWS 1 u).set F.UPD_STATUS_HEADROOM 1 u
    let s := ((s.ledBump ⟨260, 4⟩ 1).ledBump ⟨256, 4⟩ 1).layerFlag (bindLayer (s.bindingOf table)) 1
    (false, s.raise (unitDie u) 0x0402 (plAt 16 table + plAt 24 row))
  else if 2 ^ 47 < count then
    let s := (s.bump F.UPD_HEADCNT_HEADROOM_ROWS 1 u).set F.UPD_STATUS_HEADROOM 1 u
    (true, (s.ledBump ⟨256, 4⟩ 1).layerFlag (bindLayer (s.bindingOf table)) 1)
  else (true, s)

/-- The END of a row: an embedding row's entries are free again; a dense item goes on to its next row or phase, and is
done after its last (R225, R227). -/
def State.closeRun (s : State) (u : Nat) (r : UpdRun) : State :=
  match r.dense, s.denseOf r with
  | some i, some d =>
    if r.phase = 2 then
      let s := (s.bump F.UPD_FOLDCNT_DENSE_ROWS 1 u).ledBump ⟨248, 8⟩ 1
      if r.row + 1 < d.rows then s.setRun u (some (s.openDense i d 2 (r.row + 1) (some r)))
      else ((s.setRun u none).setCourse { s.course with done := s.course.done ++ [i] }).syncFolding u
    else if r.phase = 1 then s.setRun u (some (s.openDense i d 2 0 (some r)))
    else if r.row + 1 < d.rows then s.setRun u (some (s.openDense i d 0 (r.row + 1) (some r)))
    else
      let c := r.closeCols s.ieee
      let s := s.unitEvents r.q (bindTid r.binding) c.2
      s.setRun u (some (s.openDense i d 1 0 (some { r with cols := [], sums := c.1 })))
  | _, _ =>
    let s := (s.setRun u none).bump F.UPD_FOLDCNT_ROWS 1 u
    let s := if r.fold then (s.ledBump ⟨248, 8⟩ 1).freeKey u (r.table, r.row) else s
    s.syncFolding u

/-- The effects of the opcodes of Table 9.5 but END. -/
def effOf (op : Nat) : Option UEffect :=
  match op with
  | 0x01 => some effLdg
  | 0x02 => some effLdw
  | 0x03 => some effLds
  | 0x04 => some effLdp
  | 0x05 => some effLdk
  | 0x06 => some effLdcol
  | 0x08 => some (effArith .add)
  | 0x09 => some (effArith .sub)
  | 0x0A => some (effArith .mul)
  | 0x0B => some (effArith .div)
  | 0x0C => some (effArith .fma)
  | 0x0D => some (effArith .min)
  | 0x0E => some (effArith .max)
  | 0x0F => some (effArith .abs)
  | 0x10 => some (effArith .neg)
  | 0x11 => some (effArith .sqrt)
  | 0x12 => some (effArith .rsqrt)
  | 0x13 => some effFsel
  | 0x14 => some effRsum
  | 0x15 => some effRamax
  | 0x16 => some effCacc
  | 0x17 => some effSts
  | 0x18 => some effStw
  | _ => none

/-- The instruction that a unit's run comes to. -/
def State.nextWord (s : State) (r : UpdRun) : UWord := uword (if r.pc < 64 then s.progWord (bindProg r.binding) r.pc else 0)

/-- The ranges of memory that an instruction of a run reads and writes. -/
def State.unitSpans (s : State) (r : UpdRun) (w : UWord) : List (Nat × Nat) :=
  let t := s.runTable r
  let x := slotDesc r.binding (w.x % 4)
  let row := (r.addr, t.payload) :: (if t.split then [(r.res, t.elems)] else [])
  match w.op with
  | 0x01 => (match s.denseOf r with | some d => [(d.grad + r.row * d.cols * 4, 4 * r.n)] | none => [])
  | 0x02 => row
  | 0x03 | 0x17 => [(r.slotAddr x, if x.kind = 2 then x.width else (if x.kind = 1 ∧ x.scaled = true then 2 else 0) + x.width * r.n)]
  | 0x04 => [(bindParams r.binding + 4 * (w.x % 16), 4)]
  | 0x18 => row ++ row
  | _ => []

/-- Activity of a run's instruction for the queue that it is counted to (R387): one operation for each element, and the
bursts of its accesses. -/
def State.unitAct (s : State) (r : UpdRun) (w : UWord) : State :=
  match r.q with
  | some q => (s.unitSpans r w).foldl (fun s p => s.actMem q p.1 p.2) (s.act q 7 r.n)
  | none => s

/-- An instruction of an opcode acts on the run of a unit; with another one there, or no run, there is no occasion. -/
def State.unitInstr (s : State) (u op : Nat) (f : UEffect) : State :=
  match s.runOf u with
  | none => s
  | some r =>
    let w := s.nextWord r
    if w.op = op then
      let x := f (s.unitAct r w) u r w
      x.1.setRun u (some { x.2 with pc := r.pc + 1 })
    else s

/-- A unit's run goes on to the END of its present row. -/
def runRow : Nat → State → Nat → State
  | 0, s, _ => s
  | n + 1, s, u =>
    match s.runOf u with
    | none => s
    | some r =>
      let w := s.nextWord r
      match effOf w.op with
      | none => s.closeRun u r
      | some f => runRow n (s.unitInstr u w.op f) u

/-- A unit's dense item runs to its end, `n` rows at most. -/
def runRows : Nat → State → Nat → State
  | 0, s, _ => s
  | n + 1, s, u => if (s.runOf u).isNone then s else runRows n (runRow 65 s u) u

/-! ## Acceptance of adds (R216, R217, R220, R222) -/

/-- What becomes of an add: accepted, refused, without a free spill record, or to be forwarded to another module. -/
inductive AddEnd
  | ok
  | refused
  | full
  | away (dev : Nat)
  deriving DecidableEq, Repr

/-- The move that forwards a shard (R177). -/
def State.forwarding (s : State) (table shard : Nat) : Option MoveRun :=
  s.tables.moves.find? (fun m => m.fwd && m.table == table && m.shard == shard)

/-- The unit that a move left. -/
def MoveRun.fromUnit (m : MoveRun) : Nat := match m.ranges with | r :: _ => unitOf r.1 | [] => 24

/-- Where an add at a unit goes: to a unit of this module, to another module, or nowhere. -/
def State.addRoute (s : State) (u table row : Nat) : Option (Nat ⊕ Nat) :=
  match s.tableNow table with
  | none => none
  | some v =>
    let t := tdesc v.1
    if t.train = true ∧ row < t.rows then
      let p := rowPlace t v.2 row
      let a := p.entry.row0
      let fwd := match s.forwarding table p.shard with | some m => m.fromUnit == u | none => false
      if s.here a then (if unitOf (faLocal a) = u ∨ fwd = true then some (.inl (unitOf (faLocal a))) else none)
      else if fwd then some (.inr (faDev a)) else none
    else none

/-- A refused add (R216). -/
def State.refuseAdd (s : State) (u table row : Nat) : State :=
  (s.set F.UPD_STATUS_REMOTE_REFUSED 1 u).raise (unitDie u) 0x0401 (plAt 16 table + plAt 24 row)

/-- Activity of an add to a delta entry, for the queue that made it (R387). -/
def State.addAct (s : State) (u n : Nat) (q : Option Nat) : State :=
  match q with
  | some q => (s.act q 7 n).actMem q (s.deltaBase u) (64 + 16 * n)
  | none => s

/-- A row add at a unit: accepted and placed or applied, or refused. -/
def State.applyAdd (s : State) (u table row : Nat) (accs : List Nat) (count : Nat) (q : Option Nat) : AddEnd × State :=
  match s.addRoute u table row with
  | none => (.refused, s.refuseAdd u table row)
  | some (.inr dev) => (.away dev, s)
  | some (.inl u) =>
    let shard := match s.tableNow table with | some v => (rowPlace (tdesc v.1) v.2 row).shard | none => 0
    let taken (s : State) : State := ((s.bump F.UPD_ADDS_ADDS 1 u).ledBump ⟨232, 8⟩ 1).shardLoad table shard 1 1
    if s.bit F.UPD_UCTRL_MODE u then
      let s := taken s
      let h := s.headroom u table row count
      if h.1 then
        match h.2.openRow table row accs false q with
        | none => (.ok, h.2)
        | some r => (.ok, (runRow 65 ((h.2.setRun u (some r))) u).setRun u (s.runOf u))
      else (.ok, h.2)
    else
      match s.placeAdd u (table, row) accs count with
      | some t => (.ok, (taken t).addAct u accs.length q)
      | none => (.full, (s.set F.UPD_STATUS_DELTA_FULL 1 u).abortCourse 7)

end Sys2Proof.Machine
end

