-- ==== Sys2Proof/Machine/Scales.lean ====
section
/-! DEFINITION. Conversions under a quantisation descriptor, Delayed scales and their history, and the range records of
layers (R86 to R107), as the course's items and ticks use them. -/
namespace Sys2Proof.Machine

/-- A quantisation descriptor (R86, Table 4.1); `rsv` is the value of its reserved bits. -/
structure QuantDesc where
  tid : Nat
  fmt : Nat
  rnd : Nat
  gran : Nat
  source : Nat
  sround : Nat
  rotate : Nat
  smooth : Nat
  margin : Nat
  axis : Nat
  efb : Nat
  rsv : Nat
  scaleAddr : Nat
  histAddr : Nat
  auxAddr : Nat
  deriving DecidableEq, Repr

/-- The fields of the 32 bytes of a descriptor (Table 4.1). -/
def quantDesc (b : List Byte) : QuantDesc :=
  let b3 := fieldLe b 3 1
  let b4 := fieldLe b 4 1
  let b5 := fieldLe b 5 1
  { tid := fieldLe b 0 3, fmt := b3 % 16, rnd := b3 / 16 % 2, gran := b3 / 32 % 4, source := b4 % 2, sround := b4 / 2 % 2,
    rotate := b4 / 4 % 2, smooth := b4 / 8 % 2, margin := b4 / 16, axis := b5 % 8, efb := b5 / 8 % 2,
    rsv := b3 / 128 + b5 / 16 + fieldLe b 6 2, scaleAddr := fieldLe b 8 8, histAddr := fieldLe b 16 8, auxAddr := fieldLe b 24 8 }

/-! ## Groups (R87, R88) -/

/-- Number of elements of a shape. -/
def elemsOf (shape : List Nat) : Nat := shape.foldl (· * ·) 1

/-- Elements of one step along an axis, and the axis's length. -/
def axisInner (shape : List Nat) (ax : Nat) : Nat := elemsOf (shape.drop (ax + 1))
def axisLen (shape : List Nat) (ax : Nat) : Nat := shape.getD ax 1

/-- Index along the axis of an element, and its scale group. -/
def axisIdx (shape : List Nat) (ax i : Nat) : Nat := i / axisInner shape ax % axisLen shape ax

def groupOf (shape : List Nat) (gran ax i : Nat) : Nat :=
  let inner := axisInner shape ax
  let len := axisLen shape ax
  match gran with
  | 0 => 0
  | 1 => axisIdx shape ax i
  | _ => (i / (inner * len) * ceilDiv len 64 + axisIdx shape ax i / 64) * inner + i % inner

def groupCount (shape : List Nat) (gran ax : Nat) : Nat :=
  match gran with
  | 0 => 1
  | 1 => axisLen shape ax
  | _ => elemsOf shape / axisLen shape ax * ceilDiv (axisLen shape ax) 64

/-! ## What happens before the scale (R98, R100, R102) -/

/-- An element on its way through a conversion: its value, and the events of the results that made it. -/
abbrev CElem := F32 × List Evt

/-- Smoothing by the factors at AUX_ADDR: weights multiplied, activations and every other role divided (assumption
log 46). -/
def smoothed (ieee weight : Bool) (factors : List (Rat × Evt)) (shape : List Nat) (ax : Nat) (xs : List CElem) : List CElem :=
  xs.zipIdx.map (fun p =>
    let f := factors.getD (axisIdx shape ax p.2) (1, none)
    let y := f32op ieee (if weight then .mul else .div) p.1.1 ((rna32 false false f.1).1) 0#32
    (y.1, p.1.2 ++ [y.2]))

/-- Rotation of every run of 64 along the axis. -/
def rotated (ieee : Bool) (shape : List Nat) (ax : Nat) (xs : List CElem) : List CElem :=
  let inner := axisInner shape ax
  xs.zipIdx.map (fun p =>
    let j := axisIdx shape ax p.2
    let start := p.2 - j % 64 * inner
    let run := (List.range 64).map (fun k => (xs.getD (start + k * inner) (0#32, [])).1)
    let y := (hadamard ieee run).getD (j % 64) (0#32, none)
    (y.1, p.1.2 ++ [y.2]))

/-- Residues added (R102); an infinite residue is replaced within BF16 (Table 3.7), and the sum is one result. -/
def withResidue (ieee : Bool) (res : List Byte) (xs : List CElem) : List CElem :=
  xs.zipIdx.map (fun p =>
    let r := loadElem ieee .bf16 1 0 (fieldLe res (2 * p.2) 2)
    let y := f32op ieee .add p.1.1 r.1 0#32
    (y.1, p.1.2 ++ [worst r.2 y.2]))

/-! ## Scale and codes of one group (R92, R93, R96, R101) -/

/-- The scale of a group; `fixed` is the course's Delayed scale. -/
def groupScale (q : QuantDesc) (f : Fmt) (fixed : Option Nat) (vs : List F32) : ScaleRes :=
  match fixed with
  | some c => ⟨c, 0, finiteAmax vs == 0, none⟩
  | none =>
    if f = .u8 then let r := finiteRange vs; u8Scale (q.sround == 1) r.1 r.2
    else symScale f (q.sround == 1) (finiteAmax vs)

/-- The code that every element of a degenerate group takes, if it has one (Table 4.3). -/
def degenCode (f : Fmt) (vs : List F32) : Option Nat :=
  if f = .u8 then
    let c := (finiteRange vs).1
    if c = 0 then some 0
    else if (if c < 0 then -c else c) < minNormal then none
    else some (if 0 < c then 255 else 0)
  else some 0

/-- The code of an element, its event, and the exact value that the code stands for. -/
def elemCode (f : Fmt) (ieee : Bool) (r : Rnd) (sc : ScaleRes) (flat : Option Nat) (x : F32) : Nat × Evt × FV :=
  let s := (readS16 sc.scale).1
  let v := dec32 x
  let c : Nat × Evt := match flat with
    | some k => (k, if v.nonfinite then some .nonfin else none)
    | none => if f.scaled then convert f ieee r specF32.maxFin s sc.zp v else convert f ieee r specF32.maxFin 1 0 v
  (c.1, c.2, decodeElem f c.1 s sc.zp)

/-! ## A conversion -/

/-- The half of a residue region that a course reads (0) or writes (1) (R102). -/
def residueHalf (q : QuantDesc) (n course write : Nat) : Nat := q.auxAddr + (course + write) % 2 * (ceilDiv (2 * n) 64 * 64)

/-- The largest finite input magnitude of a Delayed tensor in this course grows (R97). -/
def State.noteAmax (s : State) (tid : Nat) (vs : List F32) : State :=
  let a := finiteAmax vs
  let m := (rna32 false false a).1.toNat
  let c := s.course
  s.setCourse { c with
    amax := Sparse.put 0 c.amax tid (max m (Sparse.get 0 c.amax tid))
    converted := if c.converted.contains tid then c.converted else c.converted ++ [tid] }

/-- The conversion of a tensor from F32 at `src` to its format at `dst` (R94, R96, R98 to R102), issued by a queue. -/
def State.convertTensor (s : State) (queue : Nat) (t : TensorEntry) (q : QuantDesc) (src dst : Nat) : State :=
  let die := queueDie queue
  let n := elemsOf t.shape
  let f := (fmtOfCode q.fmt).getD .f32
  let ieee := s.ieee
  let ax := q.axis
  let number := match s.course.prog with | some p => p.number | none => 0
  let r := s.engineRead die src (4 * n)
  let xs : List CElem := (List.range n).map (fun i => (BitVec.ofNat 32 (fieldLe r.1 (4 * i) 4), []))
  let len := axisLen t.shape ax
  let aux : List Byte × State :=
    if q.smooth = 1 then r.2.engineRead die q.auxAddr (2 * len)
    else if q.efb = 1 then r.2.engineRead die (residueHalf q n number 0) (2 * n) else ([], r.2)
  let s := aux.2
  let factors := (List.range len).map (fun j => readS16 (fieldLe aux.1 (2 * j) 2))
  let bad := if q.smooth = 1 then factors.map Prod.snd else []
  let xs := if q.smooth = 1 then smoothed ieee (t.role == .weight) factors t.shape ax xs else xs
  let xs := if q.rotate = 1 then rotated ieee t.shape ax xs else xs
  let xs := if q.efb = 1 then withResidue ieee aux.1 xs else xs
  let fixed := if q.source = 1 ∧ Sparse.get 0 s.course.delayed t.tid ≠ 0 then some (Sparse.get 0 s.course.delayed t.tid) else none
  let s := if q.source = 1 then s.noteAmax t.tid (xs.map Prod.fst) else s
  let groups : List (ScaleRes × Option Nat) := (List.range (groupCount t.shape q.gran ax)).map (fun g =>
    let vs := (xs.zipIdx.filter (fun p => groupOf t.shape q.gran ax p.2 == g)).map (fun p => p.1.1)
    let sc : ScaleRes := if f.scaled then groupScale q f fixed vs else ⟨0x3F80, 0, false, none⟩
    (sc, if sc.degen then degenCode f vs else none))
  let entry (sc : ScaleRes) : List Byte := if f = .u8 then leBytes 2 sc.scale ++ leBytes 2 sc.zp else leBytes 2 sc.scale
  let s := if f.scaled then s.engineWrite die q.scaleAddr (groups.flatMap (fun p => entry p.1)) else s
  let codes : List (Nat × Evt × FV) := xs.zipIdx.map (fun p =>
    let g := groups.getD (groupOf t.shape q.gran ax p.2) (⟨0x3F80, 0, false, none⟩, none)
    elemCode f ieee (s.rndFor (q.rnd == 1) t.tid p.2) g.1 g.2 p.1.1)
  let s := s.engineWrite die dst (codes.flatMap (fun c => leBytes f.bytes c.1))
  let evs := bad ++ xs.flatMap Prod.snd ++ codes.map (fun c => c.2.1) ++ groups.map (fun p => p.1.ev)
  let count := EvCount.ofList evs
  let count : EvCount := { count with degen := (groups.filter (fun (p : ScaleRes × Option Nat) => p.1.degen)).length }
  let rest : List (Nat × List Evt) := if q.efb = 1 then (xs.zip codes).map (fun (p : CElem × Nat × Evt × FV) =>
      let d : F32 := match p.2.2.2 with | .fin m v => (rna32 ieee m v).1 | _ => 0#32
      let e := f32op ieee .sub p.1.1 d 0#32
      let b := convert .bf16 ieee .rna specF32.maxFin 1 0 (dec32 e.1)
      (b.1, [e.2, b.2])) else []
  let s := if q.efb = 1 then s.engineWrite die (residueHalf q n number 1) (rest.flatMap (fun x => leBytes 2 x.1)) else s
  s.countEvents queue t.tid { count with
    sat := count.sat + (EvCount.ofList (rest.flatMap Prod.snd)).sat
    ufl := count.ufl + (EvCount.ofList (rest.flatMap Prod.snd)).ufl
    nonfin := count.nonfin + (EvCount.ofList (rest.flatMap Prod.snd)).nonfin }

/-! ## Delayed scales and their history (R95 to R97) -/

/-- What a descriptor holds: those of tensors without a scale hold only FMT and RND, and their other fields are ignored
(chapter 4, before R86). -/
def heldQuant (q : QuantDesc) : QuantDesc :=
  if (match fmtOfCode q.fmt with | some f => f.scaled | none => false) then q
  else { q with
    gran := 0, source := 0, sround := 0, rotate := 0, smooth := 0, margin := 0, axis := 0, efb := 0
    scaleAddr := 0, histAddr := 0, auxAddr := 0 }

/-- What a tensor's descriptor holds. -/
def tensorQuant (t : TensorEntry) : Option QuantDesc := t.quant.map (fun b => heldQuant (quantDesc b))

/-- The Delayed tensors of a course program. -/
def delayedTensors (p : CourseProgram) : List (TensorEntry × QuantDesc) :=
  p.tensors.filterMap (fun t => match tensorQuant t with
    | some q => if q.source = 1 then some (t, q) else none
    | none => none)

/-- The F32 value of a pattern as an exact number, a NaN or infinity left out. -/
def finiteVal (x : F32) : Option Rat := match dec32 x with | .fin n v => some (if n then -v else v) | _ => none

/-- The scale that a history record gives, with its event (R61): none when it has no valid entry (R96). The valid entries
are the COUNT before HEAD; how it reads values that only software can write is the model's choice (assumption log 46). -/
def historyScale (q : QuantDesc) (f : Fmt) (rec : List Byte) : Option ScaleRes :=
  let n := min (fieldLe rec 65 1) 16
  let head := fieldLe rec 64 1 % 16
  if n = 0 then none
  else
    let vals := (List.range n).filterMap (fun i => finiteVal (BitVec.ofNat 32 (fieldLe rec (4 * ((head + 16 - 1 - i) % 16)) 4)))
    let h := vals.foldl max 0
    some (symScale f (q.sround == 1) (h * pow2 q.margin))

/-- Start of a course: the scale of each Delayed tensor, with its entry of section 10 (R96, Table 12.12); an underflow of
it counts on the queue that issued the COURSE_LOAD (R61, assumption log 46). -/
def State.delayedScales (s : State) (p : CourseProgram) : State :=
  (delayedTensors p).foldl (fun s x =>
    let r := s.engineRead 0 x.2.histAddr 128
    let s := r.2
    let c := historyScale x.2 ((fmtOfCode x.2.fmt).getD .f8a) r.1
    let code := match c with | some c => c.scale | none => 0
    let s := s.setCourse { s.course with
      delayed := Sparse.put 0 s.course.delayed x.1.tid code
      sections := s.course.sections ++ [(10, leBytes 3 x.1.tid ++ leBytes 1 (if c.isSome then 1 else 0) ++ leBytes 4 code)] }
    match c with
    | some c => s.countEvents s.course.queue x.1.tid (EvCount.zero.add c.ev)
    | none => s.layerFlag x.1.layer 2) s

/-- After the fold: the course amax of each converted Delayed tensor is appended to its history (R97). -/
def State.appendHistory (s : State) : State :=
  match s.course.prog with
  | none => s
  | some p =>
    ((delayedTensors p).filter (fun x => s.course.converted.contains x.1.tid)).foldl (fun s x =>
      let a := Sparse.get 0 s.course.amax x.1.tid
      let r := s.engineRead 0 x.2.histAddr 128
      let s := r.2
      let head := fieldLe r.1 64 1 % 16
      let code := Sparse.get 0 s.course.delayed x.1.tid
      let big := (readS16 code).1 * qmax ((fmtOfCode x.2.fmt).getD .f8a)
      let count := fieldLe r.1 72 8
      let count := if code ≠ 0 ∧ big < (dec32 (BitVec.ofNat 32 a)).val then min (count + 1) (2 ^ 64 - 1) else count
      let b := patch r.1 (4 * head) (leBytes 4 a)
      let b := patch b 64 [BitVec.ofNat 8 ((head + 1) % 16), BitVec.ofNat 8 (min 16 (fieldLe r.1 65 1 + 1))]
      s.engineWrite 0 x.2.histAddr (patch b 72 (leBytes 8 count ++ leBytes 8 p.number))) s

/-! ## Layers (R105) -/

/-- The exponent k of a layer from its record's U, its learning rate and T. -/
def layerExp (u lr : F32) (t : Int) : Int :=
  let k : Int := match dec32 u with
    | .inf false => 63
    | .fin false m => if m = 0 then (match dec32 lr with | .fin _ l => if l = 0 then -64 else ilog2 l - t | _ => -64)
        else (let e := ilog2 m; (if pow2 e < m then e + 1 else e) - t)
    | _ => match dec32 lr with | .fin _ l => if l = 0 then -64 else ilog2 l - t | _ => -64
  max (-64) (min 63 k)

/-- Start of a course: k and lr' of each layer; T is used as it stands (assumption log 46). -/
def State.layerRates (s : State) (p : CourseProgram) : State :=
  p.layers.foldl (fun s l =>
    let r := s.engineRead 0 l.record 16
    let s := r.2
    let k := layerExp (BitVec.ofNat 32 (fieldLe r.1 0 4)) l.lr (sexp8 (fieldLe r.1 5 1))
    let v := dec32 l.lr
    let rate := (rna32 false v.neg (v.mag * pow2 (-k))).1
    s.setCourse { s.course with layerK := Sparse.put (0, 0#32) s.course.layerK l.layer (k, rate) }) s

/-- After the fold: the record of each layer takes U, k and the course number, and the ledger k and U; a layer without an
update in the course takes U = 0 (assumption log 46). -/
def State.writeRanges (s : State) : State :=
  match s.course.prog with
  | none => s
  | some p =>
    p.layers.foldl (fun s l =>
      let k := (s.layerRate l.layer).1
      let u := Sparse.get 0 s.course.layerU l.layer
      let kb := (k % 256).toNat
      let s := (s.engineWrite 0 l.record (leBytes 4 u ++ leBytes 1 kb)).engineWrite 0 (l.record + 8) (leBytes 8 p.number)
      let put (m : Sparse Nat) (o v : Nat) : Sparse Nat := Sparse.put 0 m (l.layer * 32 + o) v
      s.setCourse { s.course with layerLed := put (put s.course.layerLed 2 kb) 4 u }) s

end Sys2Proof.Machine
end

