-- ==== Sys2Proof/Machine/Tables.lean ====
section
/-! DEFINITION. Embedding tables (chapter 7): the directory, tables and their definition, moves of shards, replacement
of contents, and the eaves. -/
namespace Sys2Proof.Machine

/-! ## Lines that differ from zero -/

/-- The lines of a range that hold anything: listed bytes, an upset pattern, or a pending write-back. The range is a
multiple of lines. -/
def State.linesHeld (s : State) (a n : Nat) : List Nat :=
  let within (ln : Nat) : Bool := decide (a / 64 ≤ ln) && decide (ln < (a + n + 63) / 64)
  (((s.mem.map (fun c => c.1 / 64)).filter within ++ (Sparse.keys s.upset).filter within ++
    (s.mc.writeBack.map Prod.fst).filter within).eraseDups).mergeSort (· ≤ ·)

/-- A range of lines is filled with zeros. Lines that hold nothing but zeros stay as they are. -/
def State.zeroFill (s : State) (a n : Nat) : State :=
  (s.linesHeld a n).foldl (fun s ln => s.writeLine ln 0 (List.replicate 64 0#8)) s

/-! ## The directory (R164, R165) -/

/-- Load-record range of a descriptor. -/
def TDesc.loadRange (t : TDesc) : Nat × Nat := (t.load, 32 * t.shards)
def TDesc.listRange (t : TDesc) : Nat × Nat := (t.list, 64 * t.shards)

/-- Descriptors of the defined tables. -/
def State.descs (s : State) : List TDesc := s.definedTables.map (fun t => tdesc (s.descOf t))

/-- Shard lists and load records of the defined tables, and the directory. -/
def State.listRanges (s : State) : List (Nat × Nat) :=
  s.descs.map TDesc.listRange ++ s.descs.map TDesc.loadRange ++
  (match s.tables.dir with | some d => [(d, 0x400000)] | none => [])

/-- Row and residue ranges of the shards of every defined table that the module holds. -/
def State.heldRanges (s : State) : List (Nat × Nat) :=
  s.definedTables.flatMap (fun t =>
    match s.tableNow t with
    | none => []
    | some v => (List.range (tdesc v.1).shards).flatMap (fun k => s.rowRanges (tdesc v.1) v.2 k))

/-- TABLE_DIRECTORY (R164). -/
def execTableDirectory (q : Fin 16384) (seq : Nat) (s : State) : Out :=
  .next (s.runCmd 0x0300 q seq (fun c s => s.needA c 16 (fun a =>
    if 0x200_0000_0000 ≤ a then s.fail c stBadParam 16
    else s.needMem c a 0x400000 (
      let old := s.definedTables.map (fun t => (t, s.descOf t))
      let shut := s.descs.map TDesc.listRange ++ s.descs.map TDesc.loadRange ++ s.heldRanges
      if hitsAny (a, 0x400000) shut then s.fail c stBadParam 16
      else
        let s := s.zeroFill a 0x400000
        let s := old.foldl (fun s x => s.writeMem (a + 64 * x.1) x.2) s
        ({ s with tables := { s.tables with dir := some a } }).succeed c 0))))

/-- A descriptor keeps the ranges of Table 7.1. -/
def descOk (b : List Byte) : Bool :=
  let t := tdesc b
  [0, 1, 3, 5].contains t.fmt && (!t.split || t.fmt == 5) && t.replace != 3 && fieldLe b 3 1 / 4 == 0 &&
  decide (4 ≤ t.elems) && decide (t.elems ≤ 1024) && decide (1 ≤ t.shards) && decide (t.shards ≤ 4096) &&
  decide (1 ≤ t.rows) && decide (t.rows ≤ 2 ^ 40) && fieldLe b 21 3 == 0 && fieldLe b 40 24 == 0 &&
  t.list % 64 == 0 && decide (t.list < 2 ^ 43) && t.load % 32 == 0 && decide (t.load < 2 ^ 43)

/-- A shard list keeps Table 7.3 and R171. -/
def listOk (t : TDesc) (l : List Byte) : Bool :=
  (List.range t.shards).all (fun k =>
    let e := sentry l k
    let b := (l.drop (64 * k)).take 64
    let base (x : Nat) (used : Bool) : Bool := if used then x % 64 == 0 && decide (x < 2 ^ 54) else x == 0
    base e.row0 true && base e.row1 (t.replace == 1) && base e.res0 t.split && base e.res1 (t.split && t.replace == 1) &&
    fieldLe b 52 1 / 8 == 0 && fieldLe b 53 11 == 0 &&
    (if t.hash then e.first == 0
     else (if k = 0 then e.first == 0 else decide ((sentry l (k - 1)).first < e.first)) && decide (e.first < t.rows)))

/-- The shards that lie on the module keep R170: one device, one stack or package, inside its populated part. -/
def State.shardsPlaced (s : State) (t : TDesc) (l : List Byte) : Bool :=
  (List.range t.shards).all (fun k =>
    let e := sentry l k
    let bases := [e.row0] ++ (if t.replace = 1 then [e.row1] else []) ++ (if t.split then [e.res0] else []) ++
      (if t.split && t.replace == 1 then [e.res1] else [])
    if bases.any s.here then
      bases.all s.here && (s.rowRanges t l k).all (fun r => inOneStack r.1 r.2 && stackOf r.1 == stackOf (faLocal e.row0))
    else true)

/-- A row slot fits the eaves of the die on whose bulk packages a shard lies (R185). -/
def State.eavesFits (s : State) (slot a : Nat) : Bool :=
  match locOf a with
  | .bulk p _ => s.eavesFld (p / 4) 1 == 0 || decide (slot ≤ s.eavesFld (p / 4) 2)
  | _ => true

/-- The entries of a shard list as they are stored at definition: no move, version 0, bank 0, resident. -/
def freshList (n : Nat) (l : List Byte) : List Byte :=
  (List.range n).flatMap (fun k => patch (padTo 64 ((l.drop (64 * k)).take 64)) 40 (List.replicate 13 0#8))

/-- TABLE_DEFINE (R164, R165, R169 to R171, R185). -/
def execTableDefine (q : Fin 16384) (seq : Nat) (s : State) : Out :=
  .next (s.runCmd 0x0301 q seq (fun c s => s.needA c 16 (fun a => s.needA c 24 (fun la =>
    match s.tables.dir with
    | none => s.fail c stConflict 0
    | some dir => s.needMem c a 64 (
      let r := s.readMem .engine a 64
      let s := r.st
      let d := r.bytes
      let t := tdesc d
      if descOk d = false then s.fail c stBadParam 16
      else if (tdesc (s.descOf t.id)).valid then s.fail c stConflict 0
      else s.needMem c la (64 * t.shards) (s.needMem c t.list (64 * t.shards) (
        let r := s.readMem .engine la (64 * t.shards)
        let s := r.st
        let l := r.bytes
        let mine := (List.range t.shards).flatMap (fun k => s.rowRanges t l k)
        let fixed := s.listRanges ++ s.heldRanges
        if listOk t l = false ∨ s.shardsPlaced t l = false ∨ (mine.any (fun x => hitsAny x fixed)) = true ∨
            selfOverlap mine = true ∨ (mine.all (fun x => s.eavesFits t.slot x.1)) = false then s.fail c stBadParam 24
        else if hitsAny t.listRange (t.loadRange :: (fixed ++ mine)) ∨ hitsAny t.loadRange (fixed ++ mine) then
          s.fail c stBadParam 16
        else
          let s := s.writeMem t.list (freshList t.shards l)
          let d := patch (patch d 2 [BitVec.ofNat 8 (fieldLe d 2 1 % 128 + 128)]) 16 (List.replicate 4 0#8)
          (s.writeMem (dir + 64 * t.id) d).succeed c 0)))))))

/-- TABLE_DELETE (R165, R238). -/
def execTableDelete (q : Fin 16384) (seq : Nat) (s : State) : Out :=
  .next (s.runCmd 0x0302 q seq (fun c s =>
    let t := c.par 16 2
    match s.tables.dir with
    | none => s.fail c stConflict 0
    | some d =>
      if s.deltaFree = false then s.fail c stConflict 0
      else if (tdesc (s.descOf t)).valid then
        let f := fieldLe (s.descOf t) 2 1
        (s.writeMem (d + 64 * t + 2) (leBytes 1 (f % 128))).succeed c 1
      else s.succeed c 0))

/-! ## Moves (R174 to R178) -/

/-- Address of a shard's entry. -/
def State.entryAddr (s : State) (table shard : Nat) : Nat := descShardList (s.descOf table) + 64 * shard

/-- STATE of an entry is set, its BANK kept. -/
def State.setShardState (s : State) (table shard st : Nat) : State :=
  let a := s.entryAddr table shard + 52
  s.writeMem a (leBytes 1 (fieldLe (s.asRead a 1) 0 1 % 2 + 2 * st))

/-- The ranges of a move as (source, destination, length): each range of the shard keeps its offset from ROW_BASE0. -/
def State.moveRanges (s : State) (t : TDesc) (l : List Byte) (k dest : Nat) : List (Nat × Nat × Nat) :=
  let base := faLocal (sentry l k).row0
  (s.shardRanges t l k).map (fun r => (r.1, faLocal dest + r.1 - base, r.2))

/-- The ranges of a shard at the place to which a move names, by fabric address: each keeps its offset from ROW_BASE0. -/
def State.movedSpans (s : State) (t : TDesc) (l : List Byte) (k dest : Nat) : List (Nat × Nat) :=
  (s.shardSpans t l k).map (fun r => (dest + r.1 - (sentry l k).row0, r.2))

/-- The ranges of this module at which a move in progress puts its shard. -/
def State.moveDest (s : State) (m : MoveRun) : List (Nat × Nat) :=
  match s.tableNow m.table with
  | none => []
  | some v =>
    if s.here m.dest then
      (s.movedSpans (tdesc v.1) v.2 m.shard m.dest).map (fun r => (faLocal r.1, r.2))
    else []

/-- The writer of a range that another module's store names: the copy of a move from that module, where the range lies at
the move's destination (R175, R177, R184). -/
def State.storeWriter (s : State) (src course a n : Nat) : Writer :=
  if s.tables.moves.any (fun m => m.remote && m.source == src &&
      (s.moveDest m).any (fun r => decide (r.1 ≤ a) && decide (a + n ≤ r.1 + r.2))) then .migration
  else .remote src course

/-- The check of a move that fails, as a status and detail; none when it may start (R174, R170, R185). `item` admits
another module; the module of the destination checks the place. -/
def State.moveCheck (s : State) (table shard dest : Nat) (item : Bool) : Option (Nat × Nat) :=
  match s.tables.dir, s.tableNow table with
  | none, _ => some (stConflict, 0)
  | _, none => some (stBadParam, 16)
  | _, some v =>
    let t := tdesc v.1
    if t.shards ≤ shard then some (stBadParam, 18)
    else
      let e := sentry v.2 shard
      if dest % 64 ≠ 0 ∨ 2 ^ 54 ≤ dest then some (stBadParam, 24)
      else if e.st ≠ 0 then some (stConflict, 0)
      else if item = false ∧ (s.here dest = false ∨ s.here e.row0 = false) then some (stBadParam, 24)
      else if s.here dest = false then none
      else
        let rs := (s.movedSpans t v.2 shard dest).map (fun r => (faLocal r.1, r.2))
        let fixed := s.listRanges ++ s.allShardRanges none ++ s.tables.moves.flatMap s.moveDest
        if rs.all (fun r => inOneStack r.1 r.2 && stackOf r.1 == stackOf (faLocal dest) && !hitsAny r fixed &&
            s.eavesFits t.slot r.1) && (s.movedSpans t v.2 shard dest).all (fun r => s.here r.1) then
          if rs.all (fun r => s.memRange r.1 r.2) then none else some (stUnmapped, 0)
        else some (stBadParam, 24)

/-- A move starts: MOVE_TO and STATE copying in the entry, and the copy under way (R174, R175). -/
def State.moveStart (s : State) (table shard dest : Nat) (cmd : Option (Nat × Nat)) (item : Option Nat) (plan : Nat) : State :=
  match s.tableNow table with
  | none => s
  | some v =>
    let e := sentry v.2 shard
    let own := s.here e.row0
    let m : MoveRun := ⟨table, shard, dest, if own then s.moveRanges (tdesc v.1) v.2 shard dest else [], false, false, cmd,
      item, plan, !own || !s.here dest, [], 0, false, false, faDev e.row0⟩
    let s := (s.writeMem (s.entryAddr table shard + 40) (leBytes 8 dest)).setShardState table shard 1
    { s with tables := { s.tables with moves := s.tables.moves ++ [m] } }

/-- SHARD_MOVE (R174). -/
def execShardMove (q : Fin 16384) (seq : Nat) (s : State) : Out :=
  .next (s.runCmd 0x0303 q seq (fun c s =>
    let t := c.par 16 2
    let k := c.par 18 2
    let dest := c.par 24 8
    match s.moveCheck t k dest false with
    | some e => if e.1 = stUnmapped then (s.raise (queueDie c.q) 0x0202 (plAt 16 (faLocal dest) + plAt 24 2)).fail c e.1 e.2
      else s.fail c e.1 e.2
    | none => (s.moveStart t k dest (some (c.q, c.seq)) none s.course.plan).cmdWaits c []))

/-- A course is RUNNING or CLOSING. -/
def State.running (s : State) : Bool := s.cstate == 2 || s.cstate == 3

/-- An item of the running course by its place. -/
def State.item? (s : State) (i : Nat) : Option CourseItem :=
  if s.running then (match s.course.prog with | some p => p.items[i]? | none => none) else none

/-- An item has issued, and one has completed. -/
def State.itemIssued (s : State) (i : Nat) : State :=
  if i ∈ s.course.issued then s else s.setCourse { s.course with issued := s.course.issued ++ [i] }
def State.itemEnds (s : State) (i : Nat) : State :=
  if i ∈ s.course.done then s else s.setCourse { s.course with done := s.course.done ++ [i] }

/-- MOVE_ITEM: in the work slot (R32), a move item of the course starts copying; one that breaks the rules ends and starts
nothing. -/
def execMoveItem (i : Nat) (s : State) : Out :=
  match s.item? i with
  | some ⟨_, b, .move table shard dev dest⟩ =>
    if i ∈ s.course.issued ∨ s.frame.slot ≠ 0 then .next s
    else
      let s := s.itemIssued i
      let fa := dev * 2 ^ 43 + dest % 2 ^ 43
      .next (match s.moveCheck table shard fa true with
        | some _ => s.itemEnds i
        | none => s.moveStart table shard fa none (some i) b)
  | _ => .next s

/-- A move of the list changes. -/
def State.updMove (s : State) (table shard : Nat) (f : MoveRun → MoveRun) : State :=
  { s with tables := { s.tables with moves := s.tables.moves.map (fun m => if m.table == table && m.shard == shard then f m else m) } }

def State.move? (s : State) (table shard : Nat) : Option MoveRun :=
  s.tables.moves.find? (fun m => m.table == table && m.shard == shard)

/-- One line of a range is copied by its controller (R175). -/
def State.copyLine (s : State) (src dst : Nat) : State :=
  let r := s.readLine .engine src
  r.st.writeIn dst 0 r.bytes

/-- A range of lines is copied, in ascending order; lines that are clean zeros on both sides need no copy. -/
def State.copyRange (s : State) (r : Nat × Nat × Nat) : State :=
  let a := s.linesHeld r.1 r.2.2
  let b := (s.linesHeld r.2.1 r.2.2).map (fun ln => ln - r.2.1 / 64 + r.1 / 64)
  ((a ++ b).eraseDups.mergeSort (· ≤ ·)).foldl (fun s ln => s.copyLine ln (ln - r.1 / 64 + r.2.1 / 64)) s

/-- Bytes of lines sent to the destination of a move to another module. -/
def State.sendLines (s : State) (m : MoveRun) (lines : List Nat) : State :=
  lines.foldl (fun s ln =>
    match m.target ln with
    | none => s
    | some d =>
      let r := s.readLine .engine ln
      r.st.fabStore 0 (faDev m.dest * 2 ^ 43 + d * 64) r.bytes (.move m.table m.shard) false) s

/-- MOVE_COPY_END: the copy of a shard's ranges ends (R175). On a module that is not the source of a move between
modules it is the source's report in the course-end exchange (R176). -/
def execMoveCopyEnd (table shard : Nat) (s : State) : Out :=
  match s.move? table shard with
  | none => .next s
  | some m =>
    if m.copied || (m.ranges.isEmpty && !m.remote) then .next s
    else
      let t : State := if m.remote then
          s.sendLines m (m.ranges.flatMap (fun r => (List.range (ceilDiv r.2.2 64)).map (fun i => r.1 / 64 + i))) else m.ranges.foldl State.copyRange s
      .next (if (t.move? table shard).isSome then
          t.updMove table shard (fun m => { m with copied := true, told := m.ranges.isEmpty }) else t)

/-- The delta entries of a shard travel to its new unit as W96 adds (R177 step 2), to another module over the fabric. -/
def State.moveDeltas (s : State) (m : MoveRun) : State :=
  let u := m.fromUnit
  let v := unitOf (faLocal m.dest)
  match s.tableNow m.table with
  | none => s
  | some x =>
    let t := tdesc x.1
    let keys := (s.touched u).filter (fun k => k.1 == m.table && (t.place x.2 k.2).1 == m.shard)
    if m.ranges = [] ∨ (u = v ∧ m.remote = false) then s
    else keys.foldl (fun s key =>
      (s.keyEntries u key).foldl (fun s a =>
        let e := s.entrySums a t.elems
        let s := (e.2.2.writeMem a (List.replicate (s.entryBytes u) 0#8)).syncOcc u
        if m.remote then
          s.ask 0 (faDev m.dest) 0x04 (m.table * 64) 0 (rowAddBytes m.table key.2 e.2.1 e.1) (.move m.table m.shard) false
        else match s.placeAdd v key e.1 e.2.1 with
        | some t => t
        | none => (s.set F.UPD_STATUS_DELTA_FULL 1 v).abortCourse 7) s) s

/-- A batten item of 16 bytes is to be recorded in this batten (R322). -/
def State.battenItem (s : State) (b : List Byte) : State :=
  { s with replay := { s.replay with battenItems := s.replay.battenItems ++ [padTo 16 b] } }

/-- An entry of a detail section of the course (R321). -/
def State.detail (s : State) (ty : Nat) (b : List Byte) : State :=
  if s.cstate = 0 then s else s.setCourse { s.course with sections := s.course.sections ++ [(ty, b)] }

/-- Between two courses (R176): the record of the last is written, and no item of the next has issued. -/
def State.boundary (s : State) : Bool := decide (s.cstate ≤ 1)

/-- A switch is recorded: in the course that runs, or at a course boundary in the next one (assumption log 34). -/
def State.noteSwitch (s : State) (b : List Byte) : State :=
  if s.boundary then { s with tables := { s.tables with switches := s.tables.switches ++ [b] } }
  else (s.ledBump ⟨298, 2⟩ 1).detail 5 b

/-- The switch of a move (R177): bases and STATE of the entry, delta entries, eaves entries (R182), the record of the
course. -/
def State.moveSwitch (s : State) (m : MoveRun) : State :=
  match s.tableNow m.table with
  | none => { s with tables := { s.tables with moves := s.tables.moves.erase m } }
  | some v =>
    let e := sentry v.2 m.shard
    let a := s.entryAddr m.table m.shard
    let back (b : Nat) : Nat := if b = 0 then 0 else if e.row0 ≤ b then m.dest + (b - e.row0) else m.dest - (e.row0 - b)
    let s := (if m.remote then s.sendLines m m.dirty else s).moveDeltas m
    let s := s.writeMem (a + 8) (leBytes 8 m.dest ++ leBytes 8 (back e.row1) ++ leBytes 8 (back e.res0) ++ leBytes 8 (back e.res1))
    let s := s.setShardState m.table m.shard 2
    let n := s.get F.TBN_BATTEN_BATTEN
    let s := s.updMove m.table m.shard (fun x => { x with
      fwd := true, effect := n, plan := s.course.plan, dirty := [], item := if x.ended then none else x.item, ended := s.boundary })
    let s := s.noteSwitch (leBytes 2 m.table ++ leBytes 6 m.shard ++ leBytes 8 n ++ leBytes 8 m.dest)
    let t := tdesc v.1
    let s := s.eavesDrop m.table (fun r => (t.place v.2 r).1 == m.shard)
    s.battenItem (leBytes 2 3 ++ leBytes 2 m.table ++ leBytes 2 m.shard)

/-- Some operation of a planned batten up to `b` has issued and not completed: of an item, of a command, or of a descriptor
of the course. -/
def State.opsUpTo (s : State) (b : Nat) : Bool :=
  s.running && ((s.openCommands b != []) || (List.range 8).any (fun d => (s.ydescs d).any (fun y => s.descOwn y &&
    (match y.plan with | some n => decide (n ≤ b) | none => true))) ||
  match s.course.prog with
    | none => false
    | some p => (List.range p.items.length).any (fun i =>
        s.course.issued.contains i && !s.course.done.contains i &&
        (match p.items[i]? with
         | some ⟨_, x, .launch _ _ _⟩ | some ⟨_, x, .yealm _ _⟩ | some ⟨_, x, .convert _ _ _⟩ => decide (x ≤ b)
         | _ => false)))

/-- MOVE_FORWARD_CLOSE: the forwarding window of a shard closes and its move completes (R177), when the operations that it
waits for have completed and what it owes to another module has arrived there. -/
def execMoveForwardClose (table shard : Nat) (s : State) : Out :=
  match s.move? table shard with
  | none => .next s
  | some m =>
    let owed := s.tables.outbound.any (fun w => w.1 == table && w.2.1 == shard) || s.asking (.move table shard)
    if m.fwd = false ∨ owed = true ∨ (m.ended = false ∧ s.opsUpTo m.plan = true) then .next s
    else
      let s : State := { s with tables := { s.tables with moves := s.tables.moves.erase m } }
      let s := if (s.tableNow table).isSome then
        (s.writeMem (s.entryAddr table shard + 40) (leBytes 8 0)).setShardState table shard 0 else s
      let s := s.withWaiting m.cmd (fun c s => s.succeed c m.effect)
      .next (match m.item with | some i => if m.ended then s else s.itemEnds i | none => s)

/-! ## Replacement (R179 to R182) -/

/-- A snapshot flip: BANK of every entry is inverted, VERSION grows by one (R180), and eaves entries of the table fall
(R182). -/
def State.flipTable (s : State) (table : Nat) : State :=
  match s.tables.dir, s.tableNow table with
  | some d, some v =>
    let t := tdesc v.1
    let s := (List.range t.shards).foldl (fun s k =>
      let a := s.entryAddr table k + 52
      s.writeMem a (leBytes 1 (fieldLe (s.asRead a 1) 0 1 ^^^ 1))) s
    (s.writeMem (d + 64 * table + 16) (leBytes 4 ((t.version + 1) % 2 ^ 32))).eavesDrop table (fun _ => true)
  | _, _ => s

/-- TABLE_FLIP: a flip between courses, at the next tick (R179, R180). -/
def execTableFlip (q : Fin 16384) (seq : Nat) (s : State) : Out :=
  .next (s.runCmd 0x0309 q seq (fun c s =>
    let t := c.par 16 2
    match s.tables.dir, s.tableNow t with
    | none, _ => s.fail c stConflict 0
    | _, none => s.fail c stBadParam 16
    | _, some v =>
      if (tdesc v.1).replace = 1 then
        ({ s with tables := { s.tables with flips := s.tables.flips ++ [(t, some (c.q, c.seq))] } } : State).cmdWaits c []
      else s.fail c stBadParam 16))

/-- A batch may be scheduled: its table streams, and holds its rows. -/
def State.batchCheck (s : State) (table first count : Nat) : Option Nat :=
  match s.tableNow table with
  | none => some 16
  | some v =>
    let t := tdesc v.1
    if t.replace ≠ 2 then some 16
    else if t.rows ≤ first then some 24
    else if count = 0 ∨ 65536 < count then some 32
    else if t.rows < first + count then some 24
    else none

/-- STREAM_BATCH (R179, R181). -/
def execStreamBatch (q : Fin 16384) (seq : Nat) (s : State) : Out :=
  .next (s.runCmd 0x030A q seq (fun c s =>
    let t := c.par 16 2
    let first := c.par 24 8
    let count := c.par 32 4
    match s.tables.dir with
    | none => s.fail c stConflict 0
    | some _ =>
      match s.batchCheck t first count with
      | some o => s.fail c stBadParam o
      | none => s.needA c 40 (fun a =>
          let slot := match s.tableNow t with | some v => (tdesc v.1).slot | none => 0
          s.needMem c a (count * slot)
            ((({ s with tables := { s.tables with batches := s.tables.batches ++ [⟨t, first, count, a, 0, some (c.q, c.seq), none⟩] } } : State)).cmdWaits c []))))

/-- A table is trained. -/
def State.trained (s : State) (table : Nat) : Bool := match s.tableNow table with | some v => (tdesc v.1).train | none => false

/-- A batch takes effect: SHARD_VERSION of every shard it touches grows, and the course and the batten note it (R181,
Table 12.3). -/
def State.batchEffect (s : State) (b : Batch) : State :=
  match s.tableNow b.table with
  | none => s
  | some v =>
    let t := tdesc v.1
    let ks := ((List.range b.count).map (fun i => (t.place v.2 (b.first + i)).1)).eraseDups
    let s := ks.foldl (fun s k =>
      let a := s.entryAddr b.table k + 48
      s.writeMem a (leBytes 4 ((fieldLe (s.asRead a 4) 0 4 + 1) % 2 ^ 32))) s
    let s := s.ledBump ⟨300, 4⟩ 1
    let reads := match s.course.prog with | some p => p.tables.contains b.table | none => false
    let s := if s.running && reads then s.cause 6 else s
    s.battenItem (leBytes 2 2 ++ leBytes 2 b.table ++ leBytes 8 b.first ++ leBytes 4 b.count)

def State.updBatches (s : State) (f : List Batch → List Batch) : State :=
  { s with tables := { s.tables with batches := f s.tables.batches } }

/-- Streaming batches that a tick brings into effect: at most 64, in order of issue; those of trained tables at
a course boundary only, with every delta region free (R179, R181, Table 9.6). -/
def State.startBatches (s : State) : State :=
  let ready (b : Batch) : Bool := b.live.isNone && (!s.trained b.table || (s.boundary && s.deltaFree))
  let go := (s.tables.batches.filter ready).take 64
  let n := s.get F.TBN_BATTEN_BATTEN
  go.foldl (fun s b =>
    (s.batchEffect b).updBatches (fun l => l.map (fun x => if x = b then { b with live := some n } else x))) s

/-- The ranges of the state slots of one row (R231): its entry in every slot kept per element or per row. -/
def State.rowSlots (s : State) (t : TDesc) (p : RowPlace) : List (Nat × Nat) :=
  let b := s.bindingOf t.id
  (List.range 4).filterMap (fun i =>
    let x := slotDesc b i
    if x.kind = 1 ∨ x.kind = 2 then some (faLocal p.entry.row0 + x.off + p.place * x.step t.elems, x.step t.elems) else none)

/-- One row of a batch is written: its stored slot, its residue slot zeroed, and a trained row's state entries zeroed
(R181, Table 9.6). Rows of shards that other modules hold are theirs to write. -/
def State.writeStreamRow (s : State) (b : Batch) : State :=
  match s.tableNow b.table with
  | none => s
  | some v =>
    let t := tdesc v.1
    let p := rowPlace t v.2 (b.first + b.written)
    if s.here p.entry.rowBase then
      let put (s : State) (a : Nat) (bs : List Byte) : State := s.ownWrite .streaming (ownerDie a) a bs
      let r := s.engineRead (ownerDie b.staging) (b.staging + b.written * t.slot) t.slot
      let s := put r.2 (faLocal (p.row t)) r.1
      let s := if t.split then put s (faLocal (p.res t)) (List.replicate t.resSlot 0#8) else s
      let s := if t.train then (s.rowSlots t p).foldl (fun s r => put s r.1 (List.replicate r.2 0#8)) s else s
      s.eavesDrop b.table (fun r => r == b.first + b.written)
    else s

/-- A lookup of this module has some lines of a row's stored slot and waits for the others. -/
def State.rowHalfRead (s : State) (b : Batch) : Bool :=
  match s.tableNow b.table with
  | none => false
  | some v =>
    let t := tdesc v.1
    let a := faLocal ((rowPlace t v.2 (b.first + b.written)).row t)
    (List.range 8).any (fun d => (s.ydescs d).any (fun y => y.err == 0 && y.units.zipIdx.any (fun x =>
      x.1.dev == s.devnum && x.1.addr == a && y.buf.any (fun p => p.1 / 2048 == x.2))))

/-- STREAM_ROW_WRITE: the oldest batch in effect writes its next row; after the last its command completes. No lookup gets
a mix of the old row and the new one: the write waits for one that has a part of the row (R181). -/
def execStreamRowWrite (s : State) : Out :=
  match s.tables.batches.find? (fun b => b.live.isSome) with
  | none => .next s
  | some b =>
    if s.rowHalfRead b then .next s
    else
    let s := s.writeStreamRow b
    let l := s.tables.batches
    if b.written + 1 < b.count then
      .next { s with tables := { s.tables with batches := l.map (fun x => if x = b then { b with written := b.written + 1 } else x) } }
    else
      let s : State := { s with tables := { s.tables with batches := l.erase b } }
      .next (s.withWaiting b.cmd (fun c s => s.succeed c (b.live.getD 0)))

/-! ## What a tick brings into effect (R45, R176, R179) -/

/-- The tables as they stand are kept for the planned battens that have begun (R46): operations of this module or another
that belong to them may still come. -/
def State.saveViews (s : State) : State :=
  match s.course.prog with
  | none => s
  | some _ =>
    if s.running then
      let view := s.definedTables.filterMap (fun t => (s.tableNow t).map (fun v => (t, v.1, v.2)))
      let views := (List.range (s.course.plan + 1)).foldl (fun m b => if Sparse.get [] m b = [] then Sparse.put [] m b view else m) s.tables.views
      { s with tables := { s.tables with views := views } }
    else s

/-- Flips that a tick brings into effect: of lookup-only tables at once, of trained ones at a course boundary; the commands
complete with the new VERSION. -/
def State.startFlips (s : State) : State :=
  let ready (f : Nat × Option (Nat × Nat)) : Bool := !s.trained f.1 || s.boundary
  let go := s.tables.flips.filter ready
  let s : State := { s with tables := { s.tables with flips := s.tables.flips.filter (fun f => !ready f) } }
  go.foldl (fun s f =>
    let s := s.flipTable f.1
    s.withWaiting f.2 (fun c s => s.succeed c (tdesc (s.descOf f.1)).version)) s

/-- Moves that a tick switches (R176): copied, and within the module those of a command, of a course that has ended, or of a
planned batten whose work set has completed (`upTo` counts those battens); between modules, at a course boundary, those
whose end of copying has been reported. -/
def State.startMoves (s : State) (upTo : Nat) : State :=
  let ready (m : MoveRun) : Bool := m.copied && !m.fwd &&
    (if m.remote then s.boundary && m.told else m.item.isNone || m.ended || decide (m.plan < upTo))
  (s.tables.moves.filter ready).foldl State.moveSwitch s

/-- The course whose items started moves has ended. -/
def State.endMoves (s : State) : State :=
  { s with tables := { s.tables with moves := s.tables.moves.map (fun (m : MoveRun) => { m with ended := true }) } }

/-- The source of a move between modules reports the end of copying to the other participants, with the digests of the
course's end (R176). -/
def State.reportMoves (s : State) : State :=
  let due := s.tables.moves.filter (fun m => m.remote && m.copied && !m.told && !m.ranges.isEmpty && !s.asking (.move m.table m.shard))
  let others := match s.course.prog with | some p => p.devices.filter (fun d => d != s.devnum) | none => []
  due.foldl (fun s m =>
    others.foldl (fun s d => s.send (.moveReport d m.table m.shard)) (s.updMove m.table m.shard (fun m => { m with told := true }))) s

/-- The moves of a course's items that have not switched when an aborted course ends are dropped: their shards are
resident again. -/
def State.dropMoves (s : State) : State :=
  (s.tables.moves.filter (fun m => m.item.isSome && !m.fwd && !m.ended)).foldl (fun s m =>
    let s : State := { s with tables := { s.tables with moves := s.tables.moves.erase m } }
    if (s.tableNow m.table).isSome then
      (s.writeMem (s.entryAddr m.table m.shard + 40) (leBytes 8 0)).setShardState m.table m.shard 0 else s) s

/-! ## The eaves (R185) -/

/-- The largest row slot of the tables with a shard on a die's bulk packages. -/
def State.bulkSlot (s : State) (die : Nat) : Nat :=
  (s.definedTables.map (fun t =>
    match s.tableNow t with
    | none => 0
    | some v =>
      let x := tdesc v.1
      if (List.range x.shards).any (fun k =>
          let e := sentry v.2 k
          s.here e.row0 && (match locOf (faLocal e.row0) with | .bulk p _ => p / 4 == die | _ => false)) then x.slot
      else 0)).foldl max 0

/-- Some digest-enabled region lies in a range; an empty range holds none. -/
def State.eavesOk (s : State) (die base size entry : Nat) : Bool :=
  base % 0x10000 == 0 && size % 0x10000 == 0 && entry % 64 == 0 && decide (base < 2 ^ 43) &&
  (size == 0 ||
   (decide (s.bulkSlot die ≤ entry) && inOneStack base size && stackOf base != none &&
    (stackOf base == some (2 * die) || stackOf base == some (2 * die + 1)) &&
    !hitsAny (base, size) (s.allShardRanges none) && !hitsAny (base, size) ((List.range 24).map s.deltaRange) &&
    !s.rangeEnabled base size))

/-- EAVES_DEFINE (R185). -/
def execEavesDefine (q : Fin 16384) (seq : Nat) (s : State) : Out :=
  .next (s.runCmd 0x0304 q seq (fun c s => s.needA c 16 (fun a => s.needMem c a 192 (
    let r := s.readMem .engine a 192
    let s := r.st
    let f (d k : Nat) : Nat := fieldLe r.bytes (24 * d + 8 * k) 8
    if (List.range 8).all (fun d => s.eavesOk d (f d 0) (f d 1) (f d 2)) then
      let s := (List.range 8).foldl (fun (s : State) d =>
        let e := (List.range 3).foldl (fun m k => Sparse.put 0 m (4 * d + k) (f d k)) s.tables.eaves
        let s : State := { s with tables := { s.tables with eaves := e } }
        let n := f d 1 / f d 2
        (s.set F.YLM_EAVES_ENTRIES n d).set F.YLM_EAVES_HALF (n / 2) d) s
      s.succeed c 0
    else s.fail c stBadParam 16))))

end Sys2Proof.Machine
end

