-- ==== Sys2Proof/Machine/ReplayOps.lean ====
section
/-! DEFINITION. Digests over memory, the replica compare and repair (R303 to R315). -/
namespace Sys2Proof.Machine

/-! ## Scans (R304, R305, R309) -/

/-- A scan reads the lines of a range: errors are corrected, counted and recorded (R257); whether a line was
uncorrectable. -/
def State.scanLines (s : State) (who : Req) (a n : Nat) : Bool × State :=
  ((Sparse.keys s.upset).filter (fun ln => decide (a ≤ ln * 64 + 63) && decide (ln * 64 < a + n))).foldl
    (fun (r : Bool × State) ln => let x := r.2.readLine who ln; (r.1 || x.unc, x.st)) (false, s)

/-- The digest of `n` bytes from an address, as reads give them: the sum of the line hashes (R304). -/
def State.digestOf (s : State) (a n : Nat) : Word :=
  (List.range (n / 64)).foldl (fun d i => d + hashBytes s.dkey (a + 64 * i) (s.asRead (a + 64 * i) 64)) 0#64

/-- Bytes of a unit of a level: 0 region, 1 MiB, 2 4 KiB; and the number of its sub-units (R309). -/
def unitBytes (level : Nat) : Nat := if level = 0 then 2 ^ 30 else if level = 1 then 2 ^ 20 else 4096
def unitParts (level : Nat) : Nat := if level = 0 then 1024 else if level = 1 then 256 else 64

/-- The sub-digests of a unit (R309). -/
def State.subDigests (s : State) (level base : Nat) : List Word :=
  let k := unitBytes level / unitParts level
  (List.range (unitParts level)).map (fun i => s.digestOf (base + k * i) k)

/-- The list digest of a memory range, padded with zeros (R307). -/
def State.rangeDigest (s : State) (a n : Nat) : Word := listDigest (s.asRead a n)

/-- Valid enabled regions, ascending. -/
def State.validRegions (s : State) : List Nat := s.enabledRegions.filter (fun r => !s.dinvalid r)

/-- A region and its digest as 16 bytes (R307). -/
def statePair (r : Nat) (d : Word) : List Byte := leBytes 8 r ++ leBytes 8 d.toNat

/-- STATE_START and STATE_END (R307). -/
def State.stateDigest (s : State) : Word :=
  listDigest (s.validRegions.flatMap (fun r => statePair r (s.rd .ldgDigest 0 r)))

/-- PLACEMENT_START and PLACEMENT_END (R307). -/
def State.placementDigest (s : State) (p : CourseProgram) : Word :=
  listDigest ((p.tables.mergeSort (· ≤ ·)).eraseDups.flatMap (fun t =>
    match s.tableNow t with
    | none => []
    | some v => (List.range (tdesc v.1).shards).flatMap (fun k =>
        let e := (v.2.drop (64 * k)).take 64
        padTo 64 (padTo 52 (e.take 48) ++ leBytes 1 (fieldLe e 52 1 % 2)))))

/-! ## The compare group (R310 to R313) -/

def State.updReplay (s : State) (f : Replay → Replay) : State := { s with replay := f s.replay }

/-- A record has reached the collector (R323). -/
def State.exported (s : State) (n : Nat) : State :=
  (s.updReplay (fun r => { r with backlog := r.backlog.erase n, unexported := r.unexported.erase n })).bumpWrap F.LDG_HEAD_EXPORTED 1

def State.nrepl (s : State) : Nat := s.get F.LDG_CMP_NREPL
def State.rank (s : State) : Nat := s.get F.LDG_CMP_RANK

/-- The device of a rank (LDG_CMP_PEERS). -/
def State.peerDev (s : State) (k : Nat) : Nat := fieldLe (s.asRead (s.get F.LDG_CMP_PEERS_BASE * 64 + 2 * k) 2) 0 2 % 2048

/-- The other ranks. -/
def State.peers (s : State) : List Nat := (List.range s.nrepl).filter (fun k => k != s.rank)

/-- The compare runs for the course (Table 12.1). -/
def State.compares (s : State) : Bool :=
  s.bit F.LDG_CTRL_CMP_EN && ((match s.course.prog with | some p => p.repro | none => false) || s.bit F.LDG_CTRL_EN)

/-- Regions that are compared. -/
def State.comparedRegions (s : State) : List Nat := s.enabledRegions.filter (fun r => s.regBit .ldgCmpen r)

/-- A DIGEST of a level goes to every peer (R311, Table 12.4). -/
def State.sendDigest (s : State) (level base count : Nat) (entries : List Byte) : State :=
  let b := leBytes 8 (s.get F.TBN_COURSE_COURSE) ++ leBytes 1 level ++ leBytes 1 s.rank ++ leBytes 2 count ++ leBytes 4 0 ++
    leBytes 8 base ++ entries
  s.peers.foldl (fun s k => s.ask 0 (s.peerDev k) 0x23 0 0 b .control false) s

/-- Level-0 digests of regions, 1,024 in each transaction. -/
def sendLevel0 : Nat → State → List (Nat × Word) → State
  | 0, s, _ => s
  | n + 1, s, l =>
    if l.isEmpty then s
    else
      let now := l.take 1024
      sendLevel0 n (s.sendDigest 0 0 now.length (now.flatMap (fun p => statePair p.1 p.2))) (l.drop 1024)

/-- The captured digests of compared regions. -/
def State.capturedPairs (s : State) : List (Nat × Word) :=
  s.replay.captured.filter (fun p => s.regBit .ldgCmpen p.1)

/-- The compare and its bisection have ended (R314): CMP_STATUS. -/
def State.compareEnd (s : State) : State :=
  let bad := s.replay.deviants != []
  let s := s.ledSet ⟨320, 2⟩ (if s.ledGet ⟨320, 2⟩ = 3 then 3 else if bad then 2 else 1)
  let s := s.ledSet ⟨332, 4⟩ s.replay.lines.length
  let role := if s.replay.deviants.any (fun d => d.2.2 / 2 ^ s.rank % 2 == 1) then 1
    else if s.replay.deviants.any (fun d => d.2.1 == s.rank) then 2 else 0
  (s.ledSet ⟨323, 1⟩ role).set F.LDG_STATUS_COMPARING 0

/-- This rank computes and sends the sub-digests of a unit that is narrowed (R313). A region whose sub-digests do not sum
to its captured digest has a digest fault and counts as deviant. -/
def State.narrow (s : State) (level base : Nat) : State :=
  let s := (s.scanLines .engine base (unitBytes (level - 1))).2
  let vals := s.subDigests (level - 1) base
  let s := s.updReplay (fun r => { r with narrowing := r.narrowing ++ [(level, base)], subs := r.subs ++ [(s.rank, level, base, vals)] })
  let r := base / 2 ^ 30
  let fault := level == 1 && (vals.foldl (· + ·) 0#64) != Sparse.get 0#64 s.replay.captured r
  let s := if fault then
      let s := (s.set F.LDG_STATUS_DIGEST_FAULT 1).raise 0 0x0604 (plAt 16 r + plAt 24 (s.get F.TBN_COURSE_COURSE))
      s.updReplay (fun x => { x with
        faults := x.faults ++ [r]
        deviants := x.deviants.map (fun d => if d.1 = r then (d.1, d.2.1, d.2.2 ||| 2 ^ s.rank) else d) })
    else s
  s.sendDigest level base vals.length (vals.flatMap (fun w => leBytes 8 w.toNat))

/-- The values that the ranks gave for a unit, in rank order; none while one is missing. -/
def State.subsOf (s : State) (level base : Nat) : Option (List (List Word)) :=
  (List.range s.nrepl).mapM (fun k =>
    (s.replay.subs.find? (fun x => x.1 == k && x.2.1 == level && x.2.2.1 == base)).map (fun x => x.2.2.2))

/-- A unit whose sub-digests have all arrived is narrowed further, or its lines are recorded (R313). -/
def State.narrowStep (s : State) (level base : Nat) : State :=
  match s.subsOf level base with
  | none => s
  | some vs =>
    let r := base / 2 ^ 30
    let ref := match s.replay.deviants.find? (fun d => d.1 == r) with | some d => d.2.1 | none => 0
    let n := unitParts (level - 1)
    let at' (k i : Nat) : Word := (vs.getD k []).getD i 0#64
    let mask (i : Nat) : Nat := ((List.range s.nrepl).map (fun k => if at' k i = at' ref i then 0 else 2 ^ k)).sum
    let diff := (List.range n).filter (fun i => mask i != 0)
    let step := unitBytes (level - 1) / n
    let s := s.updReplay (fun x => { x with
      narrowing := x.narrowing.erase (level, base), subs := x.subs.filter (fun y => !(y.2.1 == level && y.2.2.1 == base)) })
    if level = 3 then s.updReplay (fun x => { x with lines := x.lines ++ diff.map (fun i => (base + step * i, mask i)) })
    else
      let s := if 16 < diff.length ∧ r ∉ s.replay.widespread then
          (s.updReplay (fun x => { x with widespread := x.widespread ++ [r] })).set F.LDG_STATUS_WIDESPREAD 1
        else s
      (diff.take 16).foldl (fun s i => s.narrow (level + 1) (base + step * i)) s

/-- Units are narrowed as far as the digests received allow; with none left the compare ends. -/
def narrowAll : Nat → State → State
  | 0, s => s
  | n + 1, s =>
    match s.replay.narrowing.find? (fun u => (s.subsOf u.1 u.2).isSome) with
    | some u => narrowAll n (s.narrowStep u.1 u.2)
    | none => if s.replay.narrowing = [] then s.compareEnd else s

/-- The value that more than half of the ranks hold, and its lowest rank; with two ranks rank 0 (R312). -/
def authority (vals : List (Option Word)) : Option (Nat × Option Word) :=
  if vals.length = 2 then some (0, vals.getD 0 none)
  else
    ((List.range vals.length).find? (fun k =>
      let v := vals.getD k none
      v.isSome && decide (vals.length < 2 * (vals.filter (· == v)).length))).map (fun k => (k, vals.getD k none))

/-- All level-0 digests are here: the regions are judged (R312), and those with a deviant narrowed. -/
def State.judge (s : State) : State :=
  let rs := s.comparedRegions
  let ranks := List.range s.nrepl
  let vals (r : Nat) : List (Option Word) := ranks.map (fun k => Sparse.get none s.replay.peerDigest (k * 8192 + r))
  let found := rs.map (fun r => (r, vals r, authority (vals r)))
  let none' := found.any (fun x => x.2.2.isNone)
  let dev := found.filterMap (fun x => match x.2.2 with
    | none => none
    | some a =>
      let m := (ranks.map (fun k => if x.2.1.getD k none = a.2 then 0 else 2 ^ k)).sum
      if m = 0 then none else some (x.1, a.1, m))
  let s := (s.ledSet ⟨324, 4⟩ rs.length).ledSet ⟨328, 4⟩ dev.length
  let s := if none' then (s.set F.LDG_STATUS_NO_MAJORITY 1).ledSet ⟨320, 2⟩ 3 else s
  let s := if dev = [] then s else (s.set F.LDG_STATUS_MISMATCH 1).bump F.LDG_CNT_MISMATCHES dev.length
  let s := s.updReplay (fun x => { x with deviants := dev })
  narrowAll 100000 (dev.foldl (fun s d => s.narrow 1 (d.1 * 2 ^ 30)) s)

/-- The compare is judged when this module has captured and every rank's digests are here. -/
def State.judgeIfReady (s : State) : State :=
  if s.course.captured && s.bit F.LDG_STATUS_COMPARING && (List.range s.nrepl).all (fun k => s.replay.ranksIn.contains k)
  then s.judge else s

/-! ## Repair (R315) -/

/-- Level-0 digests of the repaired regions as they stand. -/
def State.fixedPairs (s : State) : List (Nat × Word) := s.replay.fixed.map (fun r => (r, s.rd .ldgDigest 0 r))

/-- This rank is a deviant of a region of the exchange. -/
def State.deviantHere (s : State) : Bool :=
  s.replay.deviants.any (fun d => s.replay.fixed.contains d.1 && d.2.2 / 2 ^ s.rank % 2 == 1)

/-- The exchange after a repair is complete: the digests agree, or the repair has failed, which the deviant reports (R315).
A lost peer sends none, and its digests do not agree. -/
def State.repairCheck (s : State) : State :=
  let x := s.replay
  if x.fixed ≠ [] ∧ x.fixedSent = true ∧ (s.peers.all (fun k => x.againIn.contains k || s.devLost (s.peerDev k))) = true then
    let ok := x.fixed.all (fun r => s.peers.all (fun k => Sparse.get none x.again (k * 8192 + r) == some (s.rd .ldgDigest 0 r)))
    let deviant := s.deviantHere
    let s := (s.updReplay (fun x => { x with fixed := [], fixedSent := false, again := [], againIn := [] })).set
      F.LDG_STATUS_COMPARING 0
    if ok then s.updReplay (fun x => { x with held := false })
    else if deviant then s.set F.LDG_STATUS_REPAIR_FAIL 1 else s
  else s

/-- Reads of a repair are outstanding. -/
def State.repairing (s : State) : Bool :=
  s.fab.reqs.any (fun r => match r.owner with | .repair _ _ => true | _ => false)

/-- The digests of the repaired regions go to the other ranks, once. -/
def State.sendFixed (s : State) : State :=
  if s.replay.fixedSent then s.repairCheck
  else (sendLevel0 9 (s.updReplay (fun x => { x with fixedSent := true })) s.fixedPairs).repairCheck

/-- A line or part of a region has come from the reference rank and is written. -/
def State.repairArrived (s : State) (addr : Nat) (bs : List Byte) : State :=
  let s := s.engineWrite 0 addr bs
  if s.repairing then s else s.sendFixed

end Sys2Proof.Machine
end

