-- ==== Sys2Proof/Machine/RoceOps.lean ====
section
/-! DEFINITION. Shared operations of the ingest ports: queue pairs, memory regions, what a port sends and what ends a
request (R293 to R296). Assumption log 16 names what the manual leaves to RoCEv2. -/
namespace Sys2Proof.Machine

def State.updEth (s : State) (f : Eth → Eth) : State := { s with eth := f s.eth }

/-- A queue pair of a port, once it has been set. -/
def State.qp? (s : State) (port qp : Nat) : Option QueuePair := Sparse.get none s.eth.qps (port * 1024 + qp)

def State.putQp (s : State) (port qp : Nat) (x : QueuePair) : State :=
  s.updEth (fun e => { e with qps := Sparse.put none e.qps (port * 1024 + qp) (some x) })

/-- Bytes of a packet at most: the path MTU (Table 11.13). -/
def State.mtu (s : State) (port : Nat) : Nat := 1024 * 2 ^ s.get F.ETH_CTRL_MTU port

/-- Packets of a message. -/
def State.packets (s : State) (port n : Nat) : Nat := max 1 (ceilDiv n (s.mtu port))

/-- PSNs count modulo 2^24; `psnDiff a b` is how far `a` is ahead of `b`. -/
def psnAdd (a n : Nat) : Nat := (a + n) % 2 ^ 24
def psnDiff (a b : Nat) : Nat := (a + 2 ^ 24 - b % 2 ^ 24) % 2 ^ 24

/-- The port is enabled and its link up. -/
def State.portRuns (s : State) (port : Nat) : Bool := s.bit F.ETH_CTRL_EN port && s.bit F.ETH_STATUS_LINK_UP port

/-- Requests may leave a port: it runs, and its priority is not paused. -/
def State.portSends (s : State) (port : Nat) : Bool := s.portRuns port && !s.eth.paused.contains port

/-- A version of IP is on at a port: its address is not zero (R298). -/
def State.ipOn (s : State) (port : Nat) (ip6 : Bool) : Bool :=
  if ip6 then s.get F.ETH_IP6_HI_ADDR_HI port != 0 || s.get F.ETH_IP6_LO_ADDR_LO port != 0 else s.get F.ETH_IP4_ADDR port != 0

/-- The port's address of a version of IP. -/
def State.ipAddr (s : State) (port : Nat) (ip6 : Bool) : Nat :=
  if ip6 then s.get F.ETH_IP6_HI_ADDR_HI port * 2 ^ 64 + s.get F.ETH_IP6_LO_ADDR_LO port else s.get F.ETH_IP4_ADDR port

/-- A queue pair's version of IP is on. -/
def State.qpSends (s : State) (port qp : Nat) : Bool :=
  match s.qp? port qp with
  | some x => s.ipOn port x.ctx.ip6
  | none => false

/-- An acknowledgement, a response or a CNP leaves: not over a version of IP that is off, and while the priority of RoCEv2
traffic is paused it waits (R293, R294). -/
def State.portSend (s : State) (port qp : Nat) (m : Msg) : State :=
  if !s.qpSends port qp then s
  else if s.eth.paused.contains port then s.updEth (fun e => { e with waiting := e.waiting ++ [(port, qp, m)] })
  else s.send m

/-- What a pause held back on a port leaves. -/
def State.portFlush (s : State) (port : Nat) : State :=
  let l := s.eth.waiting
  ((l.filter (fun m => m.1 == port)).foldl (fun s m => s.send m.2.2)
    (s.updEth (fun e => { e with waiting := l.filter (fun m => m.1 != port) })))

/-! ## Memory regions (R295) -/

/-- The region that an rkey names on a port. -/
def State.region? (s : State) (port rkey : Nat) : Option MemRegion :=
  match Sparse.get none s.eth.regions (port * 4096 + rkey % 4096) with
  | some m => if m.rkey = rkey then some m else none
  | none => none

/-- A region admits an access: its right, and the whole range within it. -/
def MemRegion.admits (m : MemRegion) (write : Bool) (va n : Nat) : Bool :=
  (if write then m.write else m.read) && decide (m.base ≤ va) && decide (va + n ≤ m.base + m.len)

/-- The table entry of a region in memory: 32 bytes whose layout the manual leaves open. -/
def State.writeEntry (s : State) (port i : Nat) : State :=
  let a := s.get F.ETH_MR_BASE_BASE port * 64 + 32 * i
  if s.memRange a 32 then
    let b := s.freeBytes 32
    b.2.writeMem a b.1
  else s

/-! ## Requests -/

/-- The bytes that a request moves are sent or asked for: a write carries its data, a read its length (R294). -/
def State.sendRoce (s : State) (port qp : Nat) (r : RoceReq) : State :=
  if r.read then s.send (.roce port qp 1 r.psn r.raddr r.rkey (leBytes 4 (r.len - r.got)))
  else
    let b := s.busRead (.ingest port) r.laddr r.len
    let t := match r.cmd with | some c => b.st.act c.1 9 (ceilDiv r.len 64) | none => b.st
    (t.bump F.ETH_TXBYTES_BYTES r.len port).send (.roce port qp 0 r.psn r.raddr r.rkey b.bytes)

/-- The requests of a queue pair that have not left do so, in order, when the port sends. -/
def State.pumpQp (s : State) (port qp : Nat) : State :=
  match s.qp? port qp with
  | none => s
  | some x =>
    if x.err || !s.portSends port || !s.ipOn port x.ctx.ip6 then s
    else
      let go := x.reqs.filter (fun r => !r.sent)
      (go.foldl (fun s r => s.sendRoce port qp r) s).putQp port qp { x with reqs := x.reqs.map (fun r => { r with sent := true }) }

/-- What a pause held back leaves, and every queue pair of a port sends what waits. -/
def State.pumpPort (s : State) (port : Nat) : State :=
  let s := if s.portSends port then s.portFlush port else s
  ((Sparse.keys s.eth.qps).filter (fun k => k / 1024 == port)).foldl (fun s k => s.pumpQp port (k % 1024)) s

/-- A queue pair makes a request of the next PSNs. -/
def State.makeRoce (s : State) (port qp : Nat) (cmd : Option (Nat × Nat)) (record : Option Nat) (read : Bool)
    (laddr raddr len rkey : Nat) : State :=
  match s.qp? port qp with
  | none => s
  | some x =>
    let n := s.packets port len
    let r : RoceReq := ⟨cmd, record, read, x.ctx.sendPsn, n, laddr, raddr, len, rkey, false, 0⟩
    (s.putQp port qp { x with reqs := x.reqs ++ [r], ctx := { x.ctx with sendPsn := psnAdd x.ctx.sendPsn n } }).pumpQp port qp

/-- A request has ended well. -/
def State.roceDone (s : State) (r : RoceReq) : State :=
  let s := s.withWaiting r.cmd (fun c s => s.succeed c 0)
  match r.record with | some n => s.exported n | none => s

/-- A request has failed with a status. -/
def State.roceFailed (s : State) (r : RoceReq) (st detail : Nat) : State :=
  let s := s.withWaiting r.cmd (fun c s => s.fail c st detail)
  match r.record with | some _ => s.set F.LDG_STATUS_EXPORT_FAIL 1 | none => s

/-- A queue pair enters the error state; its requests fail. -/
def State.qpError (s : State) (port qp st detail : Nat) : State :=
  match s.qp? port qp with
  | none => s
  | some x =>
    let s := (s.putQp port qp { x with err := true, reqs := [] }).set F.ETH_STATUS_QP_ERROR 1 port
    x.reqs.foldl (fun s r => s.roceFailed r st detail) s

/-- Everything outstanding of a queue pair is sent again from its first packet (go-back-N). -/
def State.goBack (s : State) (port qp : Nat) : State :=
  match s.qp? port qp with
  | none => s
  | some x => (s.putQp port qp { x with reqs := x.reqs.map (fun r => { r with sent := false }) }).pumpQp port qp

/-! ## The responder -/

/-- An ACK or a response leaves. -/
def State.sendAck (s : State) (port qp psn : Nat) : State := s.portSend port qp (.roce port qp 3 psn 0 0 [])

/-- NAK codes of RoCEv2: 0 PSN sequence error, 1 invalid request, 2 remote access error (assumption log 16). -/
def State.sendNak (s : State) (port qp psn code : Nat) : State :=
  (s.bump F.ETH_ERRCNT_NAK_SENT 1 port).portSend port qp (.roce port qp 4 psn code 0 [])

/-- A marked packet is counted and, with ECN on, answered with a CNP, at most one per queue pair in 50 µs
(Table 11.13). -/
def State.noteEcn (s : State) (port qp : Nat) : State :=
  let s := s.bump F.ETH_CONG_ECN_MARKED 1 port
  if s.bit F.ETH_CTRL_ECN_EN port then
    match s.qp? port qp with
    | none => s
    | some x =>
      if (match x.cnpAt with | some t => decide (s.now < t + 50000) | none => false) then s
      else ((s.putQp port qp { x with cnpAt := some s.now }).bump F.ETH_CONG_CNP_SENT 1 port).portSend port qp (.roce port qp 5 0 0 0 [])
  else s

/-- Bytes of a frame at most (Table 11.12), and the UDP port of RoCEv2 (Table 11.13). -/
def maxFrame : Nat := 9216
def roceUdp : Nat := 4791

/-- Frames arrive on a port that runs (R293, R294): dropped when they are too long, when their check sequence fails, when
they are not for this port's address and the UDP port of RoCEv2, or when their ICRC fails; a congestion mark is noted. -/
def State.frameIn (s : State) (p q : Nat) (f : EthFrame) (k : State → State) : State :=
  if !s.portRuns p then s
  else
  let s := if f.fec = 0 then s else s.bump F.ETH_ERRCNT_FEC_UNCORR f.fec p
  if !f.fcsOk then s.bump F.ETH_ERRCNT_FCS_ERR 1 p
  else if maxFrame < f.len ∨ s.ipOn p f.ip6 = false ∨ f.dst ≠ s.ipAddr p f.ip6 ∨ f.udp ≠ roceUdp then s
  else if !f.icrcOk then s.bump F.ETH_ERRCNT_ICRC_ERR 1 p
  else k (if f.ecn then s.noteEcn p q else s)

/-- A request arrives at the responder (R294), on a queue pair that is set and not in error: answered with a NAK when its
PSN is ahead or its operation is not supported, by `dup` when it is a duplicate; otherwise taken, after which the next PSN
is awaited. `n` is the number of PSNs that it uses. -/
def State.takeRoce (s : State) (h : RoceHdr) (n : Nat) (dup : State → State) (f : QueuePair → State → State) : State :=
  let p := h.port.val
  let q := h.qp.val
  s.frameIn p q h.f (fun s =>
    match s.qp? p q with
    | none => s
    | some x =>
      if x.err then s
      else if h.psn ≠ x.ctx.recvPsn then
        if psnDiff x.ctx.recvPsn h.psn < 2 ^ 23 then dup s else s.sendNak p q x.ctx.recvPsn 0
      else if !h.supported then s.sendNak p q h.psn 1
      else
        let x := { x with ctx := { x.ctx with recvPsn := psnAdd x.ctx.recvPsn n } }
        f x (s.putQp p q x))

/-- A duplicate write is acknowledged again, up to what has been received. -/
def State.ackAgain (s : State) (p q : Nat) : State :=
  match s.qp? p q with
  | some x => s.sendAck p q (psnAdd x.ctx.recvPsn (2 ^ 24 - 1))
  | none => s

/-- A completion of a queue pair that no packet asked for is written to the queue bound to a region (R295, R296). The
manual gives no sequence, opcode and result for its record: they are free values. -/
def State.ingestRecord (s : State) (qp q status : Nat) : State :=
  let a := s.draw
  let b := a.2.draw
  let c := b.2.draw
  let cmd : Cmd := ⟨q, a.1.toNat % 2 ^ 32, b.1.toNat % 2 ^ 16, [], c.2.get F.QP_QSTATE_QEPOCH q, false, true, [], false, 0⟩
  let s := c.2.bump F.QP_QCNT_COUNT 1 q 5
  let s := if status = stSuccess then s else s.bump F.QP_QCNT_COUNT 1 q 6
  let d : DoneCmd := ⟨q, cmd.seq, cmd.op, status, 0, c.1.toNat, false, cmd.epoch, false, false, s.now, some qp⟩
  { s with queues := { s.queues with done := s.queues.done ++ [d] } }

end Sys2Proof.Machine
end

