-- ==== Sys2Proof/Machine/Replay.lean ====
section
/-! DEFINITION. Region digests, digests on demand and the replica compare (R304 to R315). -/
namespace Sys2Proof.Machine

/-! ## Enabling regions (R305) -/

/-- DIGEST_ENABLE commands whose named regions have all been scanned complete, with the number left invalid. -/
def State.settleEnables (s : State) : State :=
  let named (c : Cmd) : List Nat := (List.range (c.par 18 2)).map (fun i => c.par 16 2 + i)
  (s.queues.inflight.filter (fun c => c.op == 0x0500 && c.running)).foldl (fun s c =>
    if (named c).any (fun r => s.replay.scans.contains r) then s
    else s.succeed c ((named c).filter (fun r => s.dinvalid r)).length) s

/-- A range of regions that a command names: regions of memory, at least one. -/
def regionRange (c : Cmd) : Option (List Nat) :=
  let l := (List.range (c.par 18 2)).map (fun i => c.par 16 2 + i)
  if l ≠ [] ∧ l.all regionReal = true then some l else none

/-- DIGEST_ENABLE: the named regions are enabled, and scanned. -/
def execDigestEnable (q : Fin 16384) (seq : Nat) (s : State) : Out :=
  .next (s.runCmd 0x0500 q seq (fun c s =>
    match regionRange c with
    | none => s.fail c stBadParam 16
    | some l =>
      match l.find? (fun r => !s.memRange (r * 2 ^ 30) (2 ^ 30)) with
      | some r => s.needMem c (r * 2 ^ 30) (2 ^ 30) s
      | none => ((l.foldl (fun s r => s.setRegBit .ldgDen r true) s).startScans l).cmdWaits c []))

/-- DIGEST_DISABLE: the named regions are no longer enabled; scans of them end. -/
def execDigestDisable (q : Fin 16384) (seq : Nat) (s : State) : Out :=
  .next (s.runCmd 0x0501 q seq (fun c s =>
    match regionRange c with
    | none => s.fail c stBadParam 16
    | some l =>
      let s := l.foldl (fun s r => ((s.setRegBit .ldgDen r false).setRegBit .ldgDinv r false).wr .ldgDigest 0 r 0#64) s
      let s := s.updReplay (fun x => { x with scans := x.scans.filter (fun r => !l.contains r) })
      ((s.set F.LDG_STATUS_BUILDING (if s.replay.scans = [] then 0 else 1)).succeed c 0).settleEnables))

/-- DIGEST_SCAN_END: the scan of a region ends. Without an uncorrectable line the region is valid, with the digest of its
bytes; otherwise it stays invalid. -/
def execDigestScanEnd (region : Nat) (s : State) : Out :=
  if region ∉ s.replay.scans then .next s
  else
    let r := s.scanLines .engine (region * 2 ^ 30) (2 ^ 30)
    let s := r.2.updReplay (fun x => { x with scans := x.scans.erase region })
    let s := s.set F.LDG_STATUS_BUILDING (if s.replay.scans = [] then 0 else 1)
    .next (if r.1 then s.settleEnables
      else ((s.setRegBit .ldgDinv region false).wr .ldgDigest 0 region (s.digestOf (region * 2 ^ 30) (2 ^ 30))).settleEnables)

/-! ## Digests on demand (R309) -/

/-- LDG_SUBDIGEST: the digests of a unit's parts go to memory; RESULT is the digest of the unit. -/
def execLdgSubdigest (q : Fin 16384) (seq : Nat) (s : State) : Out :=
  .next (s.runCmd 0x0502 q seq (fun c s =>
    let base := c.par 16 8
    let level := c.par 24 1
    if 2 ^ 43 ≤ base ∨ base % 64 ≠ 0 then s.fail c stBadParam 16
    else if 3 ≤ level then s.fail c stBadParam 24
    else if base % unitBytes level ≠ 0 then s.fail c stBadParam 16
    else s.needA c 32 (fun out => s.needMem c base (unitBytes level) (
      s.needMem c out (8 * unitParts level) (
        let s := (s.scanLines .engine base (unitBytes level)).2
        let l := s.subDigests level base
        s.putOutput c out (l.flatMap (fun w => leBytes 8 w.toNat)) (fun s => s.succeed c (l.foldl (· + ·) 0#64).toNat))))))

/-- LDG_RANGE_DIGEST: RESULT is the list digest of a range. -/
def execLdgRangeDigest (q : Fin 16384) (seq : Nat) (s : State) : Out :=
  .next (s.runCmd 0x0503 q seq (fun c s =>
    let base := c.par 16 8
    let n := c.par 24 8
    s.needA c 16 (fun _ => s.needMem c base n (
      let s := (s.scanLines .engine base n).2
      s.succeed c (s.rangeDigest base n).toNat))))

/-- The address a′ of line `j` of a row in a table digest. -/
def tableLine (table row j : Nat) : Nat := (table * 2 ^ 40 ||| row) * 64 ||| j

/-- The hashes of a row's bytes in a table digest; a last part line is padded with zeros. -/
def State.rowHash (s : State) (table row a n : Nat) : Word :=
  (List.range (ceilDiv n 64)).foldl (fun d j =>
    d + hashBytes s.dkey (tableLine table row j) (padTo 64 (s.asRead (a + 64 * j) (min 64 (n - 64 * j))))) 0#64

/-- The ranges of a row that the six sums of a table digest cover: stored slot, residue slot, state slots 0 to 3. -/
def State.rowParts (s : State) (t : TDesc) (p : RowPlace) (k : Nat) : Option (Nat × Nat) :=
  if k = 0 then some (faLocal (p.row t), t.slot)
  else if k = 1 then (if t.split then some (faLocal (p.res t), t.resSlot) else none)
  else
    let x := slotDesc (s.bindingOf t.id) (k - 2)
    if t.train && (x.kind == 1 || x.kind == 2) then
      some (faLocal p.entry.row0 + x.off + p.place * x.step t.elems, x.step t.elems)
    else none

/-- LDG_TABLE_DIGEST: six placement-independent sums over the table's rows that this module holds. -/
def execLdgTableDigest (q : Fin 16384) (seq : Nat) (s : State) : Out :=
  .next (s.runCmd 0x0504 q seq (fun c s =>
    let table := c.par 16 2
    match s.tables.dir, s.tableNow table with
    | none, _ => s.fail c stConflict 0
    | _, none => s.fail c stBadParam 16
    | _, some v =>
      s.needA c 24 (fun out => s.needMem c out 48 (
        let t := tdesc v.1
        let rows := ((List.range t.rows).map (fun r => (r, rowPlace t v.2 r))).filter (fun p => s.here p.2.entry.row0)
        let part (k : Nat) (p : Nat × RowPlace) (s : State) : Word × State :=
          match s.rowParts t p.2 k with
          | none => (0#64, s)
          | some r =>
            let x := s.engineRead (ownerDie r.1) r.1 r.2
            (x.2.rowHash table p.1 r.1 r.2, x.2)
        let sums := (List.range 6).foldl (fun (acc : List Word × State) k =>
          let x := rows.foldl (fun (y : Word × State) p => let z := part k p y.2; (y.1 + z.1, z.2)) (0#64, acc.2)
          (acc.1 ++ [x.1], x.2)) ([], s)
        sums.2.putOutput c out (sums.1.flatMap (fun w => leBytes 8 w.toNat)) (fun s => s.succeed c 0)))))

/-! ## The compare (R308, R310 to R313) -/

/-- The course's own collectives are over: their RESULT is written (R308). -/
def State.collsOver (s : State) : Bool :=
  !s.fab.colls.any (fun y => s.listed y.q || (match s.cmd? y.q y.seq with
    | some c => c.course != 0 && c.course == s.courseLow
    | none => false))

/-- The digests of the valid regions are copied in one step, and with them the placement and the state (R307, R308); ends
of copying are reported with them (R176). -/
def State.capture (s : State) : State :=
  let s := s.reportMoves.setCourse { s.course with captured := true }
  let s := s.updReplay (fun x => { x with captured := s.validRegions.map (fun r => (r, s.rd .ldgDigest 0 r)) })
  let s := match s.course.prog with
    | some p => s.ledSet ⟨96, 8⟩ (s.placementDigest p).toNat
    | none => s
  s.ledSet ⟨112, 8⟩ s.stateDigest.toNat

/-- Entries of level 0 that have come from a rank are complete when a message is not full, or when there are as many as
this module compares. -/
def level0In (rank : Nat) (m : Sparse (Option Word)) (n want : Nat) : Bool :=
  decide (n < 1024) || decide (want ≤ (m.filter (fun p => p.1 / 8192 == rank)).length)

/-- Level-0 digests from a rank: of the compare, or of the exchange after a repair when that rank's have come before. -/
def State.takeLevel0 (s : State) (rank : Nat) (entries : List (Nat × Word)) : State :=
  let put (m : Sparse (Option Word)) : Sparse (Option Word) :=
    entries.foldl (fun m e => Sparse.put none m (rank * 8192 + e.1 % 8192) (some e.2)) m
  if s.replay.ranksIn.contains rank then
    let s := s.updReplay (fun x => { x with again := put x.again })
    let s := if level0In rank s.replay.again entries.length s.replay.fixed.length && !s.replay.againIn.contains rank then
      s.updReplay (fun x => { x with againIn := x.againIn ++ [rank] }) else s
    s.repairCheck
  else
    let s := s.updReplay (fun x => { x with peerDigest := put x.peerDigest })
    let s := if level0In rank s.replay.peerDigest entries.length s.comparedRegions.length then
      s.updReplay (fun x => { x with ranksIn := x.ranksIn ++ [rank] }) else s
    s.judgeIfReady

/-- DIGEST_CAPTURE: all writes of the course have completed (R308); the exchange starts where a compare runs (R311). -/
def execDigestCapture (s : State) : Out :=
  if s.cstate = 3 ∧ s.course.fold = 2 ∧ s.course.captured = false ∧ s.collsOver = true ∧
      (s.openCommands s.course.plan).isEmpty = true then
    let s := s.capture
    if s.compares && s.comparedRegions != [] then
      let s := s.set F.LDG_STATUS_COMPARING 1
      let own := s.capturedPairs
      let s := sendLevel0 9 s own
      let s := s.updReplay (fun x => { x with
        peerDigest := own.foldl (fun m e => Sparse.put none m (s.rank * 8192 + e.1) (some e.2)) x.peerDigest
        ranksIn := if x.ranksIn.contains s.rank then x.ranksIn else x.ranksIn ++ [s.rank] })
      .next s.judgeIfReady
    else .next s
  else .next s

/-- DIGEST: a peer's digests arrive (Table 12.4), and are compared or narrowed. -/
def execDigest (h : FabHdr) (_course level rank base : Nat) (entries : List (Nat × Word)) (s : State) : Out :=
  .next (s.serve h 0x82 (fun s =>
    if level = 0 then ⟨0, s.takeLevel0 rank entries, false, [], false⟩
    else
      let s := s.updReplay (fun x => { x with subs := x.subs ++ [(rank, level, base, entries.map Prod.snd)] })
      ⟨0, if s.replay.narrowing = [] then s else narrowAll 100000 s, false, [], false⟩))

/-- DIGEST_WAIT_TIMEOUT: a rank's level-0 digests have not come in REQ_TIMEOUT × (RETRIES + 1); its module is probed
(R311). -/
def execDigestWaitTimeout (rank : Nat) (s : State) : Out :=
  if s.course.captured && s.bit F.LDG_STATUS_COMPARING && decide (rank < s.nrepl) && rank != s.rank &&
      !s.replay.ranksIn.contains rank then .next (s.startProbing (s.peerDev rank))
  else .next s

end Sys2Proof.Machine
end

