-- ==== Sys2Proof/Machine/Update.lean ====
section
/-! DEFINITION. The update units (chapter 9): adds, the fold of rows and dense items, the instructions of update
programs, and the commands that load programs and bindings. -/
namespace Sys2Proof.Machine

/-! ## Adds -/

/-- An add of a descriptor is accepted or refused. -/
def State.addAnswered (s : State) (die desc : Nat) : State := s.updYdesc die desc (fun y => { y with acks := y.acks - 1 })

/-- A local add was refused: its descriptor completes with DESC_INVALID once its other adds are answered, and a course
that owns it aborts (R216, R220). -/
def State.addRefused (s : State) (die desc : Nat) (abort : Bool) : State :=
  let own := match s.ydesc? die desc with | some y => s.descOwn y | none => false
  let s := (s.updYdesc die desc (fun y => if y.err = 0 then { y with err := stDescInvalid } else y)).addAnswered die desc
  if abort && own then s.abortCourse 6 else s

/-- LOCAL_ROW_ADD: the oldest add that waits for a unit. -/
def execLocalRowAdd (u : Fin 24) (s : State) : Out :=
  match s.upd.adds.find? (fun a => a.unit == u.val) with
  | none => .next s
  | some a =>
    let s : State := { s with upd := { s.upd with adds := s.upd.adds.erase a } }
    let r := s.applyAdd u a.table a.row a.accs a.count (some a.q)
    .next (match r.1 with
      | .ok => r.2.addAnswered a.die a.desc
      | .refused => r.2.addRefused a.die a.desc true
      | .full => r.2.addRefused a.die a.desc false
      | .away dev => r.2.ask a.q dev 0x04 (a.table * 64) 0 (rowAddBytes a.table a.row a.count a.accs) (.add a.die a.desc)
        (s.queueWadding a.q))

/-! ## The fold (R225, R227) -/

/-- FOLD_ROW: the least touched row of a unit; `whole` runs its UPD sequence, otherwise the row is opened for the
instructions that follow. A row above 2^55 addends is skipped. -/
def execFoldRow (u : Fin 24) (whole : Bool) (s : State) : Out :=
  if s.course.fold = 1 ∧ (s.runOf u).isNone = true then
    match s.touched u with
    | [] => .next (s.syncFolding u)
    | key :: _ =>
      let n := match s.tableNow key.1 with | some v => (tdesc v.1).elems | none => 0
      let sums := s.keySums u key n
      let h := sums.2.2.headroom u key.1 key.2 sums.2.1
      if h.1 then
        match h.2.openRow key.1 key.2 sums.1 true (some s.course.queue) with
        | none => .next ((h.2.freeKey u key).syncFolding u)
        | some r =>
          let s := h.2.setRun u (some r)
          .next (if whole then runRow 65 s u else s)
      else .next ((h.2.freeKey u key).syncFolding u)
  else .next s

/-- DENSE_FOLD_ITEM: the next dense item of a unit in its three phases; `whole` runs it to its end. -/
def execDenseFoldItem (u : Fin 24) (whole : Bool) (s : State) : Out :=
  if s.course.fold = 1 ∧ (s.runOf u).isNone = true then
    match s.denseLeft u with
    | [] => .next (s.syncFolding u)
    | i :: _ =>
      match s.course.prog with
      | none => .next s
      | some p =>
        match p.items[i]? with
        | some ⟨_, _, .denseFold d⟩ =>
          let phase := if s.progStat (bindProg d.binding) then 0 else 2
          let s := s.setRun u (some (s.openDense i d phase 0 none))
          .next (if whole then runRows (2 * d.rows + 2) s u else s)
        | _ => .next s
  else .next s

/-! ## Instructions (Table 9.5) -/

/-- END closes the sequence of the present row. -/
def execUpdEnd (u : Fin 24) (s : State) : Out :=
  match s.runOf u with
  | none => .next s
  | some r => .next (if (s.nextWord r).op = 0x00 then s.closeRun u r else s)

def execLdg (u : Fin 24) (s : State) : Out := .next (s.unitInstr u 0x01 effLdg)
def execLdw (u : Fin 24) (s : State) : Out := .next (s.unitInstr u 0x02 effLdw)
def execLds (u : Fin 24) (s : State) : Out := .next (s.unitInstr u 0x03 effLds)
def execLdp (u : Fin 24) (s : State) : Out := .next (s.unitInstr u 0x04 effLdp)
def execLdk (u : Fin 24) (s : State) : Out := .next (s.unitInstr u 0x05 effLdk)
def execLdcol (u : Fin 24) (s : State) : Out := .next (s.unitInstr u 0x06 effLdcol)
def execFadd (u : Fin 24) (s : State) : Out := .next (s.unitInstr u 0x08 (effArith .add))
def execFsub (u : Fin 24) (s : State) : Out := .next (s.unitInstr u 0x09 (effArith .sub))
def execFmul (u : Fin 24) (s : State) : Out := .next (s.unitInstr u 0x0A (effArith .mul))
def execFdiv (u : Fin 24) (s : State) : Out := .next (s.unitInstr u 0x0B (effArith .div))
def execFma (u : Fin 24) (s : State) : Out := .next (s.unitInstr u 0x0C (effArith .fma))
def execFmin (u : Fin 24) (s : State) : Out := .next (s.unitInstr u 0x0D (effArith .min))
def execFmax (u : Fin 24) (s : State) : Out := .next (s.unitInstr u 0x0E (effArith .max))
def execFabs (u : Fin 24) (s : State) : Out := .next (s.unitInstr u 0x0F (effArith .abs))
def execFneg (u : Fin 24) (s : State) : Out := .next (s.unitInstr u 0x10 (effArith .neg))
def execFsqrt (u : Fin 24) (s : State) : Out := .next (s.unitInstr u 0x11 (effArith .sqrt))
def execFrsqrt (u : Fin 24) (s : State) : Out := .next (s.unitInstr u 0x12 (effArith .rsqrt))
def execFsel (u : Fin 24) (s : State) : Out := .next (s.unitInstr u 0x13 effFsel)
def execRsum (u : Fin 24) (s : State) : Out := .next (s.unitInstr u 0x14 effRsum)
def execRamax (u : Fin 24) (s : State) : Out := .next (s.unitInstr u 0x15 effRamax)
def execCacc (u : Fin 24) (s : State) : Out := .next (s.unitInstr u 0x16 effCacc)
def execSts (u : Fin 24) (s : State) : Out := .next (s.unitInstr u 0x17 effSts)
def execStw (u : Fin 24) (s : State) : Out := .next (s.unitInstr u 0x18 effStw)

/-! ## Commands -/

/-- UPD_PROGRAM (R228, R229): the image is checked and loaded into a slot of all dies. -/
def execUpdProgram (q : Fin 16384) (seq : Nat) (s : State) : Out :=
  .next (s.runCmd 0x0307 q seq (fun c s =>
    let slot := c.par 16 1
    let n := c.par 32 2
    if 64 ≤ slot then s.fail c stBadParam 16
    else s.needA c 24 (fun a => s.needMem c a n (
      let r := s.readMem .engine a n
      match checkProgram r.bytes with
      | some k => r.st.fail c stProgramInvalid k
      | none =>
        let s : State := { r.st with upd := { r.st.upd with prog := tablePut r.st.upd.prog (slot * 512) (padTo 512 r.bytes) } }
        let v := s.get F.UPD_PROG_VALID_VALID
        (s.set F.UPD_PROG_VALID_VALID (v ||| 2 ^ slot)).succeed c 0))))

/-- The extents of a binding keep R231 for every shard of its table that the module holds. -/
def State.bindingFits (s : State) (table : Nat) (b : List Byte) : Bool :=
  match s.tableNow table with
  | none => true
  | some v =>
    let t := tdesc v.1
    let own := (List.range t.shards).flatMap (fun k => s.rowRanges t v.2 k)
    let others := s.allShardRanges (some table)
    let held := (List.range t.shards).filter (fun k => s.here (sentry v.2 k).row0)
    let ext (k : Nat) : List (Nat × Nat) := slotExtents b (faLocal (sentry v.2 k).row0) t.elems (t.shardRows v.2 k) 0
    held.all (fun k => (ext k).all (fun r => inOneStack r.1 r.2 && stackOf r.1 == stackOf (faLocal (sentry v.2 k).row0) &&
      !hitsAny r own && !hitsAny r others)) && !selfOverlap (held.flatMap ext)

/-- UPD_BIND (R230, R231, R238). -/
def execUpdBind (q : Fin 16384) (seq : Nat) (s : State) : Out :=
  .next (s.runCmd 0x0308 q seq (fun c s =>
    let t := c.par 16 2
    s.needA c 24 (fun a =>
      if !s.deltaFree then s.fail c stConflict 0
      else s.needMem c a 64 (s.needMem c (s.bindAddr t) 64 (
        let r := s.readMem .engine a 64
        if r.st.bindingOk r.bytes false && r.st.bindingFits t r.bytes then
          if (r.st.writeStop .update false (r.st.bindAddr t) 64).isSome then r.st.fail c stLocked 0
          else (r.st.writeMem (r.st.bindAddr t) r.bytes).succeed c 0
        else r.st.fail c stBadParam 24)))))

end Sys2Proof.Machine
end

