-- ==== Sys2Proof/Machine/Work.lean ====
section
/-! DEFINITION. Work sets of planned battens, when they are complete (R39, R45), and the changes that a course program
schedules for the end of a planned batten (R45, R180, R181, R309). -/
namespace Sys2Proof.Machine

/-! ## Work sets (R39) -/

/-- The kinds of item that a work set issues and waits for: tile programs, yealm descriptors, conversions. -/
def kindWorks : ItemKind → Bool
  | .launch _ _ _ | .yealm _ _ | .convert _ _ _ => true
  | _ => false

/-- The items of the course program with their places. -/
def State.progItems (s : State) : List (Nat × CourseItem) :=
  match s.course.prog with
  | some p => p.items.zipIdx.map (fun x => (x.2, x.1))
  | none => []

/-- The last planned batten is `b`, or an earlier one than `b`. -/
def State.lastPlan (s : State) (b : Nat) : Bool :=
  match s.course.prog with | some p => decide (p.planned ≤ b + 1) | none => true

/-- Nothing that the program of a cluster issued before the serial number `m` is under way. -/
def Cluster.doneBefore (c : Cluster) (m : Nat) : Bool :=
  let old (n : Nat) : Bool := decide (n < m)
  !(c.mq.any (fun o => old o.serial) || c.vq.any (fun v => old v.serial) || c.dq.any (fun p => p.2.any (fun d => old d.serial)) ||
    c.copies.any (fun x => old x.serial) || c.chains.any (fun x => old x.2.2) || c.ldm.any (fun x => old x.2.2.2))

/-- A cluster's program has passed the end-of-batten marker of a planned batten, and what it issued before is complete;
what it has issued since for the next batten does not count (R39). -/
def State.markerPassed (s : State) (g b : Nat) : Bool :=
  decide (b < Sparse.get 0 s.course.eob g) && (s.cl g).doneBefore (Sparse.get 0 (s.cl g).marks b)

/-- An item's part in the work sets up to a planned batten has issued and completed. -/
def State.itemSettled (s : State) (b i : Nat) (x : CourseItem) : Bool :=
  s.course.issued.contains i && (s.course.done.contains i ||
    (match x.kind with
     | .launch g _ _ => (match (s.cl g).run with | some l => l.item == some i | none => false) && s.markerPassed g b
     | _ => false))

/-- The items of planned battens up to `b` whose part in them is not complete. -/
def State.openItems (s : State) (b : Nat) : List (Nat × CourseItem) :=
  s.progItems.filter (fun x => kindWorks x.2.kind && decide (x.2.batten ≤ b) && !s.itemSettled b x.1 x.2)

/-- The clusters on which a tile program that a command of the course launched is not past the marker of `b`. -/
def State.openLaunches (s : State) (b : Nat) : List Nat :=
  s.clusterKeys.filter (fun g =>
    let c := s.cl g
    let bound (l : Launch) : Bool := !l.wadding && l.item.isNone && s.launchBound l && decide (s.launchPlan l ≤ b)
    c.waiting.any bound || (match c.run with | some l => bound l && !s.markerPassed g b | none => false))

/-- The work sets up to planned batten `b` are complete; the last one carries the fold (R224). -/
def State.workDone (s : State) (b : Nat) : Bool :=
  (s.openItems b).isEmpty && (s.openLaunches b).isEmpty && (s.openCommands b).isEmpty && (!s.lastPlan b || s.course.fold == 2)

/-- The planned battens, from the first on, whose work sets are complete. -/
def State.plannedDone (s : State) : Nat := ((List.range (s.course.plan + 1)).takeWhile s.workDone).length

/-- Whom an incomplete work set waits for (R41): the issuer of the last item that is open, a cluster that a command
launched, the queue of the last command that is open, or the queue of the course's fold. -/
def State.lastIssuer (s : State) : Bool × Nat :=
  match (s.openItems s.course.plan).getLast? with
  | some x => issuerPair x.2.issuer
  | none => match (s.openLaunches s.course.plan).getLast? with
    | some g => (true, g)
    | none => match (s.openCommands s.course.plan).getLast? with
      | some c => (false, c.q)
      | none => (false, s.course.queue)

/-! ## Scheduled changes (R45) -/

/-- A scheduled change falls due: a flip or a batch joins those that the tick brings into effect, a range digest is
taken for section 8. One that breaks its rules ends without effect (R179). -/
def State.dueItem (s : State) (i : Nat) (x : CourseItem) : State :=
  match x.kind with
  | .flip t =>
    let ok := match s.tableNow t with | some v => (tdesc v.1).replace == 1 | none => false
    let s : State := if ok then { s with tables := { s.tables with flips := s.tables.flips ++ [(t, none)] } } else s
    s.itemEnds i
  | .stream t first count a =>
    let n := match s.tableNow t with | some v => count * (tdesc v.1).slot | none => 0
    let ok := (s.batchCheck t first count).isNone && a % 64 == 0 && s.memRange a n
    (if ok then s.updBatches (fun l => l ++ [⟨t, first, count, a, 0, none, none⟩]) else s).itemEnds i
  | .rangeDigest id base n =>
    let r : Word × State :=
      if s.memRange base n then let t := (s.scanLines .engine base n).2; (t.rangeDigest base n, t)
      else let r := s.engineRead 0 base n; (listDigest r.1, r.2)
    (r.2.detail 8 (leBytes 4 x.batten ++ leBytes 4 id ++ leBytes 8 base ++ leBytes 8 r.1.toNat)).itemEnds i
  | _ => s

/-- The scheduled changes of the planned battens before `upTo` fall due, in order of the program. -/
def State.dueItems (s : State) (upTo : Nat) : State :=
  s.progItems.foldl (fun s x =>
    if decide (x.2.batten < upTo) && !s.course.done.contains x.1 then s.dueItem x.1 x.2 else s) s

end Sys2Proof.Machine
end

