-- ==== Sys2Proof/Machine/Record.lean ====
section
/-! DEFINITION. The end of a course: its ledger record with detail and export, the end point, the end of an abort, and
what the compare policy does then (R314 to R323). -/
namespace Sys2Proof.Machine

/-! ## Layer entries (R320, Table 12.11) -/

/-- The layers with an entry, ascending. -/
def State.ledLayers (s : State) : List Nat :=
  let own := (Sparse.keys s.course.layerLed).map (fun k => k / 32)
  let rates := match s.course.prog with | some p => p.layers.map (fun l => l.layer) | none => []
  ((own ++ rates).eraseDups).mergeSort (· ≤ ·)

/-- A layer entry of 24 bytes. -/
def State.layerEntry (s : State) (l : Nat) : List Byte :=
  let f (off len : Nat) : List Byte := leBytes len (Sparse.get 0 s.course.layerLed (l * 32 + off))
  leBytes 2 l ++ f 2 1 ++ f 3 1 ++ f 4 4 ++ f 8 4 ++ f 12 4 ++ f 16 4 ++ f 20 2 ++ f 22 2

/-! ## Detail (R321, Table 12.12) -/

/-- Entries of section 1: every enabled region with its flags and digest. -/
def State.regionEntries (s : State) : List (List Byte) :=
  if !s.course.captured then []
  else s.enabledRegions.map (fun r =>
    let x := s.replay
    let cmp := s.ledGet ⟨320, 2⟩ != 0 && s.regBit .ldgCmpen r
    let dev := x.deviants.any (fun d => d.1 == r && d.2.2 / 2 ^ s.rank % 2 == 1)
    let ref := x.deviants.any (fun d => d.1 == r && d.2.1 == s.rank)
    let b (c : Bool) (k : Nat) : Nat := if c then 2 ^ k else 0
    leBytes 2 r ++ leBytes 2 (b cmp 0 + b dev 1 + b ref 2 + b (x.widespread.contains r) 3 + b (x.faults.contains r) 4 +
      b (s.dinvalid r) 5) ++ leBytes 4 0 ++ leBytes 8 (Sparse.get 0#64 x.captured r).toNat)

/-- The digest of a chain's members (R129, R307). -/
def chainDigest (c : ChainDesc) : Word :=
  listDigest (c.members.flatMap (fun m => leBytes 2 m.dev ++ leBytes 2 m.cluster ++ leBytes 1 m.tile ++ leBytes 3 0) ++
    leBytes 2 c.len ++ leBytes 1 c.comp ++ leBytes 5 0)

/-- Entries of section 3: the program's chains and the collectives of the course, by id. -/
def State.chainEntries (s : State) : List (List Byte) :=
  let own := match s.course.prog with
    | some p => p.chains.map (fun c => leBytes 2 c.id ++ leBytes 2 c.len ++ leBytes 1 c.comp ++ leBytes 3 0 ++
        leBytes 8 (chainDigest c).toNat)
    | none => []
  let colls := s.course.sections.filterMap (fun x => if x.1 = 3 then some x.2 else none)
  (own ++ colls).mergeSort (fun a b => fieldLe a 0 2 ≤ fieldLe b 0 2)

/-- Entries of a section of the course's detail. -/
def State.sectionEntries (s : State) (ty : Nat) : List (List Byte) :=
  if ty = 1 then s.regionEntries
  else if ty = 2 then (s.ledLayers.drop 21).map s.layerEntry
  else if ty = 3 then s.chainEntries
  else if ty = 4 then s.course.energy.map (fun p => leBytes 2 p.1 ++ leBytes 6 p.2)
  else if ty = 6 then s.course.marks.map (fun m =>
    leBytes 2 m.dev ++ leBytes 1 m.op ++ leBytes 1 m.status ++ leBytes 4 m.count ++ leBytes 8 m.time)
  else if ty = 7 then s.replay.lines.map (fun l => leBytes 8 l.1 ++ leBytes 8 l.2)
  else if ty = 11 then s.course.externs.map (fun e => leBytes 2 e.src ++ leBytes 2 e.dev ++ leBytes 4 e.count ++ leBytes 8 e.first)
  else s.course.sections.filterMap (fun x => if x.1 = ty then some x.2 else none)

/-- A section: header and entries; nothing for a type without entries. -/
def sectionBytes (ty : Nat) (es : List (List Byte)) : List Byte :=
  let es := es.take 65535
  if es = [] then [] else leBytes 2 ty ++ leBytes 2 es.length ++ leBytes 4 (8 + es.flatten.length) ++ es.flatten

/-- Sections that fit in the room that is left, in order. -/
def fitSections : List (List Byte) → Nat → List Byte
  | [], _ => []
  | x :: rest, room => if x.length ≤ room then x ++ fitSections rest (room - x.length) else fitSections rest room

/-- The detail block and whether it had to be truncated: in ascending type; when the ring is too small, what fits of
sections 1, 3 and 7 and then of the others. -/
def State.detailBlock (s : State) (room : Nat) : List Byte × Bool :=
  let sec (ty : Nat) : List Byte := sectionBytes ty (s.sectionEntries ty)
  let all := [1, 2, 3, 4, 5, 6, 7, 8, 9, 10, 11].flatMap sec
  if all.length ≤ room then (all, false) else (fitSections ([1, 3, 7, 2, 4, 5, 6, 8, 9, 10, 11].map sec) room, true)

/-! ## The record (R317, R319) -/

/-- FLAGS (Table 12.8): the bits that the course set, and those that follow from how it ended. -/
def State.recordFlags (s : State) (p : CourseProgram) : Nat :=
  let b (c : Bool) (k : Nat) : Nat := if c then 2 ^ k else 0
  let aborted := s.cstate == 4
  s.ledGet ⟨2, 2⟩ ||| b p.repro 0 ||| b (p.repro && s.ledGet L_CAUSES == 0) 1 ||| b aborted 2 |||
    b (s.bit F.TBN_SYNC_HOLDOVER) 3 ||| b p.ieee 4 ||| b (p.gradMode == 1) 5 ||| b (aborted && s.course.fold == 2) 10

/-- The fields that the record takes at the moment that it is written. -/
def State.recordNow (s : State) (p : CourseProgram) : State :=
  let l := s.ledLayers
  [(⟨0, 2⟩, 2), (⟨8, 8⟩, p.number), (⟨16, 8⟩, s.course.start), (⟨24, 4⟩, p.planned), (⟨28, 4⟩, s.get F.TBN_CSTATE_BIDX),
    (⟨40, 8⟩, s.now), (⟨48, 8⟩, p.runSeed.toNat), (⟨56, 8⟩, s.dkey.toNat), (⟨72, 8⟩, s.get F.SEC_FWDIGEST_DIGEST),
    (⟨80, 8⟩, p.inputDigest.toNat), (⟨120, 2⟩, p.devices.length), (⟨123, 1⟩, s.rank), (⟨124, 4⟩, l.length),
    (⟨322, 1⟩, s.get F.LDG_CTRL_POLICY), (⟨336, 8⟩, s.replay.priorLines), (⟨344, 4⟩, s.replay.priorRegions),
    (⟨364, 4⟩, s.replay.prevCrc), (⟨2, 2⟩, s.recordFlags p)].foldl (fun s (x : LFld × Nat) => s.ledSet x.1 x.2) s

/-- Lengths of the record's fields by offset (Table 12.6). -/
def ledFields : List LFld :=
  [⟨0, 2⟩, ⟨2, 2⟩, ⟨4, 4⟩, ⟨8, 8⟩, ⟨16, 8⟩, ⟨24, 4⟩, ⟨28, 4⟩, ⟨32, 8⟩, ⟨40, 8⟩, ⟨48, 8⟩, ⟨56, 8⟩, ⟨64, 8⟩, ⟨72, 8⟩, ⟨80, 8⟩,
   ⟨88, 8⟩, ⟨96, 8⟩, ⟨104, 8⟩, ⟨112, 8⟩, ⟨120, 2⟩, ⟨122, 1⟩, ⟨123, 1⟩, ⟨124, 4⟩, ⟨128, 8⟩, ⟨136, 8⟩, ⟨144, 8⟩, ⟨152, 8⟩] ++
  [⟨160, 4⟩, ⟨164, 4⟩, ⟨168, 4⟩, ⟨172, 4⟩, ⟨176, 8⟩, ⟨184, 8⟩, ⟨192, 4⟩, ⟨196, 4⟩, ⟨200, 4⟩, ⟨204, 4⟩, ⟨208, 8⟩, ⟨216, 8⟩,
   ⟨224, 8⟩, ⟨232, 8⟩, ⟨240, 8⟩, ⟨248, 8⟩, ⟨256, 4⟩, ⟨260, 4⟩, ⟨264, 4⟩, ⟨268, 4⟩, ⟨272, 4⟩, ⟨276, 4⟩, ⟨280, 4⟩, ⟨288, 4⟩] ++
  [⟨292, 4⟩, ⟨296, 2⟩, ⟨298, 2⟩, ⟨300, 4⟩, ⟨304, 8⟩, ⟨312, 4⟩, ⟨320, 2⟩, ⟨322, 1⟩, ⟨323, 1⟩, ⟨324, 4⟩, ⟨328, 4⟩, ⟨332, 4⟩,
   ⟨336, 8⟩, ⟨344, 4⟩, ⟨352, 8⟩, ⟨360, 4⟩, ⟨364, 4⟩]

/-- The record's 1,024 bytes. -/
def State.recordBytes (s : State) : List Byte :=
  let r := ledFields.foldl (fun r f => patch r f.off (leBytes f.len (s.ledGet f))) (List.replicate 512 0#8)
  let b := padTo 1020 (r ++ (s.ledLayers.take 21).flatMap s.layerEntry)
  b ++ leBytes 4 (crc32c b)

/-! ## Export (R323) -/

/-- A record whose collector is this module is stored inside it (R20, R271). -/
def State.storeRecord (s : State) (n a : Nat) (bs : List Byte) : State :=
  match s.busWrite (.remote s.devnum s.hdrCourse) false a bs with
  | .done t | .waits t => t.exported n
  | .miss t | .stopped _ t => t.set F.LDG_STATUS_EXPORT_FAIL 1

/-- A record of the ring goes on its way to the collector. -/
def State.sendRecord (s : State) (n : Nat) : State :=
  let size := s.get F.LDG_RING_CFG_SIZE
  let a := s.get F.LDG_RING_BASE_BASE * 1024 + n % size * 1024
  let dst := s.get F.LDG_EXPORT_ADDR_EXP_ADDR + n % s.get F.LDG_EXPORT_EXP_ENTRIES * 1024
  if s.get F.LDG_EXPORT_MODE = 1 ∧ s.here dst = true then s.storeRecord n (faLocal dst) (s.asRead a 1024)
  else if s.get F.LDG_EXPORT_MODE = 1 then s.fabStore 0 dst (s.asRead a 1024) (.record n) false
  else
    let port := s.get F.LDG_EXPORT_PORT
    let qp := s.get F.LDG_EXPORT_QP
    match s.qp? port qp with
    | some x =>
      if x.err then s.set F.LDG_STATUS_EXPORT_FAIL 1
      else s.makeRoce port qp none (some n) false a dst 1024 (s.get F.LDG_EXPORT_RKEY_EXP_RKEY)
    | none => s.set F.LDG_STATUS_EXPORT_FAIL 1

/-- A record is on its way to the collector. -/
def State.exporting (s : State) (n : Nat) : Bool :=
  s.asking (.record n) || s.eth.qps.any (fun p => match p.2 with | some x => x.reqs.any (fun r => r.record == some n) | none => false)

/-- At a ledger slot the records still owed are sent again, in order. -/
def State.retryExports (s : State) : State :=
  if s.get F.LDG_EXPORT_MODE = 0 then s
  else s.replay.backlog.foldl (fun s n => if s.exporting n then s else s.sendRecord n) s

/-- The record of the course is written: detail, record, ring and export (R317, R321, R323). -/
def State.writeRecord (s : State) (p : CourseProgram) : State :=
  let s := s.recordNow p
  let ring := s.get F.LDG_DETAIL_CFG_SIZE * 0x1_0000
  let d := s.detailBlock ring
  let at0 := s.get F.LDG_DHEAD_OFFSET
  let off := if at0 + d.1.length ≤ ring then at0 else 0
  let base := s.get F.LDG_DETAIL_BASE_BASE * 1024
  let s := if d.2 then s.ledSet ⟨2, 2⟩ (s.ledGet ⟨2, 2⟩ ||| 2 ^ 7) else s
  let s := if d.1 = [] then s else s.engineWrite 0 (base + off) d.1
  let s := s.set F.LDG_DHEAD_OFFSET (if ring = 0 then 0 else (off + d.1.length) % ring)
  let s := (s.ledSet ⟨352, 8⟩ (base + off)).ledSet ⟨360, 4⟩ d.1.length
  let n := s.get F.LDG_HEAD_RECORDS
  let size := s.get F.LDG_RING_CFG_SIZE
  let bytes := s.recordBytes
  let s := if size ≤ n ∧ s.replay.unexported.contains (n - size) = true then s.set F.LDG_STATUS_RING_WRAP 1 else s
  let gone (l : List Nat) : List Nat := l.filter (fun k => !(size ≤ n && k == n - size))
  let s := s.engineWrite 0 (s.get F.LDG_RING_BASE_BASE * 1024 + n % size * 1024) bytes
  let on := s.get F.LDG_EXPORT_MODE != 0
  let s := s.updReplay (fun x => { x with
    prevCrc := fieldLe bytes 1020 4, priorLines := 0, priorRegions := 0
    unexported := gone x.unexported ++ [n], backlog := gone x.backlog ++ (if on then [n] else []) })
  let s := s.bumpWrap F.LDG_HEAD_RECORDS 1
  if on then s.sendRecord n else s

/-! ## The end of a course (R318, R349, Table 12.5) -/

/-- The lines and whole regions that this rank has to repair, as (address, length) (R315). -/
def State.repairList (s : State) : List (Nat × Nat) :=
  let mine := s.replay.deviants.filter (fun d => d.2.2 / 2 ^ s.rank % 2 == 1)
  mine.flatMap (fun d =>
    if s.replay.widespread.contains d.1 then [(d.1 * 2 ^ 30, 2 ^ 30)]
    else s.replay.lines.filterMap (fun l =>
      if l.1 / 2 ^ 30 = d.1 ∧ l.2 / 2 ^ s.rank % 2 = 1 then some (l.1, 64) else none))

/-- What the compare policy does once the record is written (Table 12.5). Halt does not hold the next course when software
has cleared the bits that would release it before the record was written (assumption log 38). -/
def State.comparePolicy (s : State) : State :=
  let st := s.ledGet ⟨320, 2⟩
  let policy := s.get F.LDG_CTRL_POLICY
  if st = 3 ∨ (st = 2 ∧ policy = 1) then
    if s.bit F.LDG_STATUS_MISMATCH || (st == 3 && s.bit F.LDG_STATUS_NO_MAJORITY) then
      s.updReplay (fun x => { x with held := true }) else s
  else if st = 2 ∧ policy = 2 then
    let l := s.repairList
    let s := (s.updReplay (fun x => { x with held := true, repairs := l, fixed := x.deviants.map Prod.fst })).set
      F.LDG_STATUS_COMPARING 1
    if l = [] then s.sendFixed else s
  else s

/-- The commands that wait for the end of the course complete (R349). -/
def State.endWaiters (s : State) (result : Nat) : State :=
  let s := (s.queues.inflight.filter (fun c => c.op == 0x0101 && c.running && c.aux == [1])).foldl (fun s c => s.succeed c result) s
  (s.queues.inflight.filter (fun c => c.op == 0x0003 && c.running)).foldl (fun s c => s.succeed c 1) s

/-- Its stage queues are no longer defined when the course is over (TBN_STQ). -/
def State.dropStages (s : State) : State :=
  match s.course.prog with
  | none => s
  | some p => p.stages.foldl (fun s d => (s.set F.TBN_STQ_VALID 0 d.die d.k).set F.TBN_STQ_FILL 0 d.die d.k) s

/-- What the last batten schedules falls due; the record is written, or the end point reached with the ledger off; the
course is IDLE, its lock released, the commands that waited for it complete, and the policy of the compare acts. What it
leaves to a course boundary comes at the next tick (R176, R179). -/
def State.endCourse (s : State) : State :=
  match s.course.prog with
  | none => s
  | some p =>
    let aborted := s.cstate == 4
    let s := if aborted then s else s.dueItems p.planned
    let s := if s.bit F.LDG_CTRL_EN then s.writeRecord p else s
    let causes := s.ledGet L_CAUSES
    let s := if p.repro && causes != 0 && s.bit F.LDG_CTRL_EN then
      (s.set F.LDG_STATUS_NOT_REPRO 1).bump F.LDG_CNT_NOT_REPRO 1 else s
    let result := s.recordFlags p + s.ledGet ⟨122, 1⟩ * 2 ^ 16 + causes * 2 ^ 32
    let s := (s.set F.TBN_CSTATE_STATE 0).setCourse { s.course with lock := false }
    let s := if aborted then s.dropMoves else s
    let s := s.endMoves.dropStages
    let s := { s with tables := { s.tables with views := [] } }
    let s := if s.frame.resync then
      { s.set F.TBN_SYNC_LOCKED 0 with frame := { s.frame with good := 0 } } else s
    let s := s.endWaiters result
    if aborted then s else s.comparePolicy

/-- No audit is pending (R162). -/
def State.audited (s : State) : Bool := s.clusters.all (fun p => p.2.audits.isEmpty)

/-- The course has closed: its writes are captured, a compare has ended, its audits have ended and the ledger slot has
taken its accounts (R23, R49, R162, R314). -/
def State.closed (s : State) : Bool :=
  s.cstate == 3 && s.course.captured && !s.bit F.LDG_STATUS_COMPARING && s.audited && s.course.accounted

/-- LEDGER_RECORD_WRITE: with the ledger on, the record of a course that has closed is written. -/
def execLedgerRecordWrite (s : State) : Out := .next (if s.closed && s.bit F.LDG_CTRL_EN then s.endCourse else s)

/-- COURSE_END_POINT: the same moment with the ledger off (R318). -/
def execCourseEndPoint (s : State) : Out := .next (if s.closed && !s.bit F.LDG_CTRL_EN then s.endCourse else s)

/-! ## The end of an abort (R44, R432, Table 9.6) -/

/-- An engine of a cluster still holds work of a course program. -/
def Cluster.courseBusy (c : Cluster) : Bool :=
  c.mq.any (fun o => !o.wadding) || c.vq.any (fun v => !v.wadding) || c.dq.any (fun p => p.2.any (fun d => !d.wadding)) ||
  !c.copies.isEmpty || !c.chains.isEmpty || (match c.run with | some l => !l.wadding && l.item.isSome | none => false)

/-- The operations that an aborted course had in flight have completed; a fold that had begun has ended. -/
def State.drained (s : State) : Bool :=
  s.course.fold != 1 && s.clusters.all (fun p => !p.2.courseBusy) &&
  (List.range 8).all (fun d => (s.ydescs d).all (fun y => y.course != s.get F.TBN_COURSE_COURSE)) &&
  s.upd.adds.isEmpty && !s.fab.reqs.any (fun r => s.courseOwns r.owner)

/-- Every delta entry and spill record is freed without being applied. -/
def State.dropEntries (s : State) : State :=
  (List.range 24).foldl (fun s u =>
    ((s.deltaUsed u ++ s.spillUsed u).foldl (fun s a => s.writeMem a (List.replicate (s.entryBytes u) 0#8)) s).syncOcc u) s

/-- ABORT_COMPLETE: an aborted course ends, once what it had in flight has completed and the ledger slot has taken its
accounts. Its delta entries are freed unapplied when its fold had not begun. -/
def execAbortComplete (s : State) : Out :=
  .next (if s.cstate = 4 ∧ s.drained = true ∧ s.audited = true ∧ s.course.accounted = true then
    let s := if s.course.fold = 0 then s.dropEntries else s
    let s := (s.set F.LDG_STATUS_COMPARING 0).updReplay (fun x => { x with narrowing := [], subs := [] })
    let s := s.updFab (fun f => { f with colls := f.colls.filter (fun y => (s.cmd? y.q y.seq).isSome) })
    s.capture.endCourse
  else s)

/-! ## Repair (R315) -/

/-- REPAIR: a deviant reads what differs from the reference rank of each region. One of whose reads failed goes on to the
exchange of digests with what it has. -/
def execRepair (s : State) : Out :=
  let l := s.replay.repairs
  if l = [] then .next (if s.replay.fixed ≠ [] ∧ s.repairing = false then s.sendFixed else s)
  else
    let refOf (a : Nat) : Nat := match s.replay.deviants.find? (fun d => d.1 == a / 2 ^ 30) with | some d => d.2.1 | none => 0
    let s := s.updReplay (fun x => { x with
      repairs := [], priorLines := (l.filter (fun r => r.2 == 64)).length, priorRegions := (l.filter (fun r => r.2 != 64)).length })
    .next (l.foldl (fun s r => (fabPieces r.1 r.2).foldl (fun s p =>
      s.ask 0 (s.peerDev (refOf r.1)) 0x01 p.1 p.2 [] (.repair p.1 p.2) false) s) s)

end Sys2Proof.Machine
end

