-- ==== Sys2Proof/Machine/YealmOps.lean ====
section
/-! DEFINITION. Shared operations of the yealm engines: descriptors and their checks, dedup, the terms of pooling and
scatter, and the requests that an engine issues (R187 to R211). -/
namespace Sys2Proof.Machine

/-! ## Descriptors (R187, Tables 8.1 and 8.2) -/

/-- The fields of a descriptor. -/
structure YFld where
  kind : Nat
  pool : Nat
  wide : Nat
  skip : Bool
  fast : Bool
  vfmt : Nat
  table : Nat
  exp : Int
  nidx : Nat
  nbags : Nat
  idx : Nat
  off : Nat
  wgt : Nat
  vec : Nat
  stride : Nat
  tid : Nat
  scratch : Nat
  plan : Nat
  list : Nat
  map : Nat
  velems : Nat

def yfld (b : List Byte) : YFld :=
  let k := fieldLe b 0 1
  ⟨k % 4, k / 4 % 4, if k / 16 % 2 = 1 then 8 else 4, k / 32 % 2 == 1, k / 64 % 2 == 1, fieldLe b 1 1 % 16, fieldLe b 2 2,
   sexp8 (fieldLe b 4 1), fieldLe b 8 4, fieldLe b 12 4, fieldLe b 16 8, fieldLe b 24 8, fieldLe b 32 8, fieldLe b 40 8,
   fieldLe b 48 4, fieldLe b 52 3, fieldLe b 56 8, fieldLe b 64 8, fieldLe b 72 8, fieldLe b 80 8, fieldLe b 88 4⟩

def YDesc.f (y : YDesc) : YFld := yfld y.raw

/-- The format of the vectors and the bytes of an element. -/
def YFld.format (f : YFld) : Fmt := (fmtOfCode f.vfmt).getD .f32
def YFld.size (f : YFld) : Nat := f.format.bytes

/-- Number of experts. -/
def YFld.experts (f : YFld) : Nat := f.table + 1

/-- A descriptor passes Tables 8.1 and 8.2 as far as its own bytes decide; `strict` in a reproducible course (R187,
R299). -/
def ydescOk (b : List Byte) (strict : Bool) : Bool :=
  let f := yfld b
  let row := decide (f.kind ≤ 1)
  let reserved := fieldLe b 0 1 / 128 == 0 && fieldLe b 1 1 / 16 == 0 && fieldLe b 5 3 == 0 && fieldLe b 55 1 == 0 &&
    ofLe (b.drop 92) == 0
  let fmt := match f.kind with
    | 2 => f.vfmt == 0 || f.vfmt == 1 || f.vfmt == 2 || f.vfmt == 3 || f.vfmt == 5
    | _ => f.vfmt == 0 || f.vfmt == 1
  let pool := match f.kind with
    | 0 => true
    | 1 => f.pool != 0
    | 2 => f.pool == 0
    | _ => f.pool == 3
  reserved && fmt && pool && decide (1 ≤ f.nidx) && decide (1 ≤ f.nbags) && decide (f.nbags ≤ 2 ^ 24) &&
  (if f.kind == 0 && f.pool == 0 then f.off == 0 && f.nbags == f.nidx else true) &&
  (f.wgt == 0 || f.pool == 3) && (f.kind != 3 || f.wgt != 0) && f.stride % f.size == 0 &&
  (decide (f.tid < 0xFFF000) || f.tid == 0xFFFFFF) && f.scratch % 64 == 0 && (f.scratch != 0 || f.fast) &&
  (f.plan == 0 || f.kind == 0) && ((f.list != 0) == !row) && ((f.map != 0) == !row) &&
  (if row then f.velems == 0 else decide (4 ≤ f.velems) && decide (f.velems ≤ 16384)) && !(f.fast && strict)

/-- Elements of a vector. -/
def YFld.elems (f : YFld) (t : TDesc) : Nat := if f.kind ≤ 1 then t.elems else f.velems

/-- The vectors of a descriptor, one for each bag or token; what a stride leaves between them is no part of it (R200). -/
def YFld.vectors (f : YFld) (t : TDesc) : List (Nat × Nat) :=
  (List.range f.nbags).map (fun b => (f.vec + b * f.stride, f.elems t * f.size))

/-- An offset array is read: by every kind but a lookup without pooling (R190). -/
def YFld.hasOff (f : YFld) : Bool := !(f.kind == 0 && f.pool == 0)

/-- The ranges that a descriptor names. -/
def YFld.ranges (f : YFld) (t : TDesc) : List (Nat × Nat) :=
  [(f.idx, f.nidx * f.wide)] ++ f.vectors t ++
  (if f.hasOff then [(f.off, (f.nbags + 1) * f.wide)] else []) ++
  (if f.pool = 3 then [(f.wgt, 4 * f.nidx)] else []) ++
  (if f.scratch ≠ 0 then [(f.scratch, 16 * f.nidx)] else []) ++
  (if f.plan ≠ 0 then [(f.plan, 64 + 4 * f.nidx)] else []) ++
  (if f.kind ≤ 1 then []
   else [(f.list, 16 * f.experts), (f.map, 4 * f.nidx + (if f.kind = 2 then 4 * f.experts else 0))])

/-- The ranges that a descriptor writes, but for its scratch. -/
def YFld.outputs (f : YFld) (t : TDesc) : List (Nat × Nat) :=
  match f.kind with
  | 0 | 3 => f.vectors t
  | 2 => [(f.map, 4 * f.nidx + 4 * f.experts)]
  | _ => []

/-- A read of an engine's own: the bytes of a mapped range of the module. -/
def State.yread (s : State) (die a n : Nat) : List Byte × State :=
  let r := s.busRead (.tile (128 * die)) a n
  (padTo n r.bytes, r.st)

/-- A write of an engine's own. -/
def State.ywrite (s : State) (die : Nat) (wad : Bool) (a : Nat) (bs : List Byte) : State :=
  match s.busPost (.tile (128 * die)) wad a bs with
  | .done t | .miss t | .stopped _ t | .waits t => t

/-- The numbers of `w` bytes in a byte string. -/
def leList (w : Nat) : Nat → List Byte → List Nat
  | 0, _ => []
  | n + 1, bs => ofLe (bs.take w) :: leList w n (bs.drop w)

/-! ## Dedup (R192, R193) -/

/-- Runs of equal keys of a list sorted by key. -/
def keyRuns : List (Nat × Nat) → List (Nat × List Nat)
  | [] => []
  | (k, j) :: rest =>
    match keyRuns rest with
    | (k', js) :: more => if k = k' then (k, j :: js) :: more else (k, [j]) :: (k', js) :: more
    | [] => [(k, [j])]

/-- Pairs sorted by key, then position. -/
def sortPairs (l : List (Nat × Nat)) : List (Nat × Nat) :=
  l.mergeSort (fun a b => decide (a.1 < b.1) || (a.1 == b.1 && decide (a.2 ≤ b.2)))

/-- Entries of the dedup table. -/
def dedupSize : Nat := 65536

/-- Fast dedup: the rows with an entry are those whose first occurrence is among the first 65,536; further occurrences of
others stand alone (R193). -/
def fastGroups (g : List (Nat × List Nat)) : List (Nat × List Nat) :=
  if g.length ≤ dedupSize then g
  else
    let firsts := (g.map (fun p => p.2.headD 0)).mergeSort (fun a b => decide (a ≤ b))
    let last := firsts.getD (dedupSize - 1) 0
    g.flatMap (fun p => if p.2.headD 0 ≤ last then [p] else p.2.map (fun j => (p.1, [j])))

/-- The sort path makes the groups (R192, R213). -/
def State.sorts (s : State) (die : Nat) (f : YFld) (g : List (Nat × List Nat)) : Bool :=
  !f.fast && (s.bit F.YLM_CTRL_FORCE_SORT die || decide (dedupSize < g.length))

/-- The sort path leaves the sorted pairs in the scratch, whose rest is unspecified, and is counted. -/
def State.sortPath (s : State) (die : Nat) (f : YFld) (wad : Bool) (sorted : List (Nat × Nat)) : State :=
  let pairs := sorted.flatMap (fun p => leBytes 8 p.1 ++ leBytes 8 p.2)
  let rest := s.freeBytes (16 * f.nidx - pairs.length)
  let s := rest.2.ywrite die wad f.scratch (pairs ++ rest.1)
  (s.bump F.YLM_DEDUP_CNT_SORTPATH 1 die).ledBump ⟨280, 4⟩ 1

/-! ## Bags -/

/-- The bag of a position: the last one whose offset does not exceed it. -/
def bagOf (offs : List Nat) (j : Nat) : Nat :=
  if offs = [] then j else ((offs.dropLast).filter (fun o => decide (o ≤ j))).length - 1

/-- Bag lengths after R191, as bag ↦ length. -/
def bagLens (offs : List Nat) (js : List Nat) : Sparse Nat :=
  js.foldl (fun m j => let b := bagOf offs j; Sparse.put 0 m b (Sparse.get 0 m b + 1)) []

/-- The bag length of a descriptor's bag. -/
def YDesc.bagLen (y : YDesc) (b : Nat) : Nat :=
  ((y.units.map (fun u => (u.pos.filter (fun j => bagOf y.offs j == b)).length))).sum

/-! ## Terms (R199, R202) -/

/-- Exact values of the elements of a row's payload, and the event of its scale (R61, R199). -/
def payloadVals (fmt : Fmt) (n : Nat) (bs : List Byte) : List FV × Evt :=
  if fmt.scaled then
    let p := readS16 (fieldLe bs 0 2)
    ((List.range n).map (fun k => decodeElem fmt (fieldLe bs (2 + k) 1) p.1 0), p.2)
  else ((List.range n).map (fun k => decodeElem fmt (fieldLe bs (fmt.bytes * k) fmt.bytes) 1 0), none)

/-- An operand of an exact term: replaced as Table 3.7 gives under saturating numerics, kept under IEEE numerics; counted
either way (R75, R76). -/
def termOperand (ieee : Bool) (big : Rat) (v : FV) : FV × Evt :=
  if ieee then (v, if v.nonfinite then some .nonfin else none) else replaceNonfin big v

/-- Exact product, with NaN and infinity as IEEE 754. -/
def mulFV (a b : FV) : FV :=
  match a, b with
  | .nan, _ | _, .nan => .nan
  | .inf n, .inf m => .inf (n != m)
  | .inf n, .fin m x => if x = 0 then .nan else .inf (n != m)
  | .fin n x, .inf m => if x = 0 then .nan else .inf (n != m)
  | .fin n x, .fin m z => .fin (n != m) (x * z)

/-- Exact quotient by a count. -/
def divFV (a : FV) (n : Nat) : FV :=
  match a with
  | .fin s x => .fin s (x / (n : Rat))
  | v => v

/-- A weight: the F32 value at a position (R190). -/
def State.weight (s : State) (die : Nat) (f : YFld) (j : Nat) : FV × State :=
  let r := s.yread die (f.wgt + 4 * j) 4
  (dec32 (BitVec.ofNat 32 (ofLe r.1)), r.2)

/-- Adding a term to an accumulator, with its event. -/
def addTerm (e : Int) (acc : Nat) (x : FV) (ev : Evt) : Nat × Evt :=
  let p := addendOf e x
  (accAdd acc p.1, worst ev p.2)

/-- The terms of one occurrence of a row in a bag are added to a list of sums, with their events. `w` is the weight of
the occurrence, when it has one. -/
def sumTerms (ieee : Bool) (e : Int) (big : Rat) (w : Option FV) (accs : List Nat) (vs : List FV) : List (Nat × Evt) :=
  (accs.zip vs).map (fun p =>
    match w with
    | none => addTerm e p.1 p.2 none
    | some w =>
      let a := termOperand ieee specF32.maxFin w
      let b := termOperand ieee big p.2
      addTerm e p.1 (mulFV a.1 b.1) (worst a.2 b.2))

/-! ## Readout (R200) -/

/-- One element of a pooled vector: its code, and the events of its results: of a mean, those of the readout, of the division
and of the conversion to VFMT (R77). -/
def poolElem (ieee : Bool) (f : YFld) (len acc : Nat) : Nat × List Evt :=
  match f.format.spec with
  | none => (0, [])
  | some sp =>
    if f.pool = 2 then
      let r := readoutW96 specF32 ieee f.exp acc
      let v := decodeFloat specF32 r.1
      let m : Nat × Evt := match v with
        | .fin n x => let q := rna32 ieee n (x / (len : Rat)); (q.1.toNat, q.2)
        | _ => (r.1, none)
      let c := convert f.format ieee .rna specF32.maxFin 1 0 (decodeFloat specF32 m.1)
      (c.1, [r.2.1, m.2, c.2])
    else
      let r := readoutW96 sp ieee f.exp acc
      (r.1, [r.2.1])

/-- A bag whose last index has contributed is read out and written. -/
def State.bagReadout (s : State) (die : Nat) (y : YDesc) (n b : Nat) : State :=
  let f := y.f
  let len := y.bagLen b
  let el := (List.range n).map (fun k => poolElem s.ieee f len (Sparse.get 0 y.acc (b * 16384 + k)))
  let s := (s.actMem y.q (f.vec + b * f.stride) (n * f.size)).ywrite die y.wadding (f.vec + b * f.stride)
    (el.flatMap (fun p => leBytes f.size p.1))
  s.countEvents y.q f.tid (EvCount.ofList (el.flatMap Prod.snd))

/-! ## A unit's row has arrived -/

/-- One occurrence of a pooled row contributes to its bag; the bag's last one reads it out. -/
def State.pool (s : State) (die id n : Nat) (fmt : Fmt) (vs : List FV) (j : Nat) : State :=
  match s.ydesc? die id with
  | none => s
  | some y =>
    let f := y.f
    let b := bagOf y.offs j
    let s := s.act y.q 7 n
    if f.kind = 0 ∧ f.pool = 0 then
      let el := vs.map (fun v => convert f.format s.ieee .rna fmt.big 1 0 v)
      let s := (s.actMem y.q (f.vec + b * f.stride) (n * f.size)).ywrite die y.wadding (f.vec + b * f.stride) (el.flatMap (fun p => leBytes f.size p.1))
      s.countEvents y.q f.tid (EvCount.ofList (el.map Prod.snd))
    else
      let w : Option FV × State := if f.pool = 3 then (let r := s.weight die f j; (some r.1, r.2)) else (none, s)
      let s := w.2
      let old := (List.range n).map (fun k => Sparse.get 0 y.acc (b * 16384 + k))
      let el := sumTerms s.ieee f.exp fmt.big w.1 old vs
      let acc := (el.zipIdx.foldl (fun m p => Sparse.put 0 m (b * 16384 + p.2) p.1.1) y.acc)
      let y := { y with acc := acc, got := Sparse.put 0 y.got b (Sparse.get 0 y.got b + 1) }
      let s := (s.updYdesc die id (fun _ => y)).countEvents y.q f.tid (EvCount.ofList (el.map Prod.snd))
      if Sparse.get 0 y.got b = y.bagLen b then s.bagReadout die y n b else s

/-- The bytes of a unit are complete: every occurrence contributes. -/
def State.unitArrived (s : State) (die id u : Nat) (bs : List Byte) : State :=
  match s.ydesc? die id with
  | none => s
  | some y =>
    match y.units[u]? with
    | none => s
    | some x =>
      let f := y.f
      let t := tdesc y.table
      let n := f.elems t
      let fmt := if f.kind = 0 then t.format else f.format
      let v := if f.kind = 0 then payloadVals fmt n bs
        else ((List.range n).map (fun k => decodeElem fmt (fieldLe bs (f.size * k) f.size) 1 0), none)
      let s := s.countEvents y.q f.tid (EvCount.zero.add v.2)
      x.pos.foldl (fun s j => s.pool die id n fmt v.1 j) s

/-- Bytes of a unit arrive: piece `i` of them. -/
def State.unitBytes (s : State) (die id u i : Nat) (bs : List Byte) : State :=
  match s.ydesc? die id with
  | none => s
  | some y =>
    match y.units[u]? with
    | none => s
    | some x =>
      let buf := Sparse.put [] y.buf (u * 2048 + i) bs
      let mine := buf.filter (fun p => p.1 / 2048 == u)
      let all := mine.flatMap Prod.snd
      if all.length = x.len then
        (s.updYdesc die id (fun y => { y with buf := buf.filter (fun p => p.1 / 2048 != u) })).unitArrived die id u all
      else s.updYdesc die id (fun y => { y with buf := buf })

/-- The sums of one row of a scatter over its occurrences, with the events (R202, R203). -/
def State.scatterSums (s : State) (die : Nat) (y : YDesc) (n : Nat) (wexp : Int) (pos : List Nat) :
    List Nat × EvCount × State :=
  let f := y.f
  pos.foldl (fun (r : List Nat × EvCount × State) j =>
    let b := bagOf y.offs j
    let g := ((r.2.2.act y.q 7 n).actMem y.q (f.vec + b * f.stride) (n * f.size)).yread die (f.vec + b * f.stride) (n * f.size)
    let vs := (List.range n).map (fun k => decodeElem f.format (fieldLe g.1 (f.size * k) f.size) 1 0)
    let w : Option FV × State := if f.pool = 3 then (let x := g.2.weight die f j; (some x.1, x.2)) else (none, g.2)
    let ieee := w.2.ieee
    let el :=
      if f.pool = 2 then (r.1.zip vs).map (fun p =>
        let a := termOperand ieee f.format.big p.2
        addTerm wexp p.1 (divFV a.1 (y.bagLen b)) a.2)
      else sumTerms ieee wexp f.format.big w.1 r.1 vs
    (el.map Prod.fst, el.foldl (fun c p => c.add p.2) r.2.1, w.2)) (List.replicate n 0, .zero, s)

/-- A scatter finishes a row's occurrences and sends its one add (R203). -/
def State.sendRowAdd (s : State) (die id u : Nat) : State :=
  match s.ydesc? die id with
  | none => s
  | some y =>
    match y.units[u]? with
    | none => s
    | some x =>
      let f := y.f
      let t := tdesc y.table
      let r := s.scatterSums die y t.elems t.wexp x.pos
      let s := r.2.2.countEvents y.q f.tid r.2.1
      let s := (s.bump F.YLM_ADDS_ROW_ADDS 1 die).updYdesc die id (fun y => { y with acks := y.acks + 1 })
      if x.dev = s.devnum then
        let a : RowAdd := ⟨unitOf x.addr, f.table, x.key, r.1, x.pos.length, die, id, y.q⟩
        { s with upd := { s.upd with adds := s.upd.adds ++ [a] } }
      else
        s.ask y.q x.dev 0x04 (f.table * 64) 0
          (leBytes 8 f.table ++ leBytes 8 x.key ++ leBytes 8 x.pos.length ++ (r.1.map container).flatten) (.add die id) y.wadding

/-! ## Versions of shards (R197, R316) -/

/-- The ledger logic takes a report of a drift group. -/
def State.driftReport (s : State) (group table shard ver bank : Nat) : State :=
  if group = 0 ∨ s.running = false then s
  else
    let key := (group * 65536 + table) * 65536 + shard
    match Sparse.get none s.course.drift key with
    | none => s.setCourse { s.course with drift := Sparse.put none s.course.drift key (some (ver, bank)) }
    | some p =>
      if p = (ver, bank) then s
      else
        let s := s.detail 9 (leBytes 2 table ++ leBytes 2 shard ++ leBytes 4 p.1 ++ leBytes 4 ver ++ leBytes 1 p.2 ++
          leBytes 1 bank ++ leBytes 2 0)
        let s := (s.ledSet ⟨2, 2⟩ ((s.ledGet ⟨2, 2⟩) ||| 2 ^ 9)).set F.LDG_STATUS_DRIFT 1
        if (match s.course.prog with | some p => p.repro | none => false) then s.abortCourse 9 else s.cause 7

/-- A descriptor reports the shards of its local rows. -/
def State.reportShards (s : State) (y : YDesc) : State :=
  let l := ((y.units.filter (fun u => u.dev == s.devnum || y.f.kind == 1)).map (fun u => u.shard)).eraseDups
  l.foldl (fun s k =>
    let e := sentry y.list k
    s.driftReport y.drift y.f.table k e.version e.bank) s

/-! ## Requests (R194 to R196, R208) -/

/-- The most line requests outstanding at an engine. -/
def ylmLimit : Nat := 16384

/-- Address of an entry of the eaves of a die (R205): absolute entry `i`. -/
def State.eavesAddr (s : State) (die i : Nat) : Nat := s.eavesFld die 0 + i * s.eavesFld die 2

/-- The die that owns the bulk package of a local address. -/
def bulkDie (a : Nat) : Option Nat := match locOf a with | .bulk p _ => some (p / 4) | _ => none

/-- What a plan's slot comes to for a row (R208): served from an address of the eaves, still pending, or refused. -/
inductive EavesUse
  | hit (a : Nat)
  | pending
  | bypass

def State.eavesUse (s : State) (y : YDesc) (x : YUnit) (slot : Nat) : EavesUse :=
  match (if x.dev = s.devnum then bulkDie x.addr else none) with
  | none => .bypass
  | some home =>
    let c := s.get F.TBN_COURSE_COURSE
    let h := s.eavesHalf home
    if h ≤ slot then .bypass
    else
      let i := c % 2 * h + slot
      let r := s.asRead (s.stageAddr home i) 32
      let e := sentry y.list x.shard
      if fieldLe r 24 8 = c ∧ fieldLe r 0 2 = y.f.table ∧ fieldLe r 8 8 = x.key then
        if fieldLe r 2 1 = 1 then .pending
        else if fieldLe r 2 1 = 2 ∧ fieldLe r 3 1 = e.bank ∧ fieldLe r 4 4 = e.version ∧ fieldLe r 16 8 = e.rowBase then
          .hit (s.eavesAddr home i)
        else .bypass
      else .bypass

/-- A local request of a descriptor issues. -/
def State.noteSent (s : State) (die id : Nat) (w : YWork) : State :=
  { s.updYdesc die id (fun y => { y with out := y.out ++ [w] }) with ylm := { (s.updYdesc die id (fun y => { y with
      out := y.out ++ [w] })).ylm with sent := Sparse.put [] s.ylm.sent die (Sparse.get [] s.ylm.sent die ++ [(id, w)]) } }

/-- The line requests of a unit. -/
def YUnit.work (x : YUnit) (u : Nat) : List YWork := (List.range x.lines).map (YWork.line u)

/-- Groups of at most `n`. -/
def chunksOf {α : Type} (n : Nat) : Nat → List α → List (List α)
  | 0, _ => []
  | k + 1, l => if l.isEmpty then [] else l.take n :: chunksOf n k (l.drop n)

/-- Requests for units on other modules: rows grouped by device, up to 256 in each; an expert's row in pieces that do
not cross a 4 KiB boundary (R196, R276). -/
def remoteParts (f : YFld) (units : List YUnit) (us : List Nat) : List YPart :=
  let dev (u : Nat) : Nat := match units[u]? with | some x => x.dev | none => 0
  if f.kind = 0 then
    ((us.map dev).eraseDups).flatMap (fun d =>
      (chunksOf 256 us.length (us.filter (fun u => dev u == d))).map (fun g => ⟨d, g, 0⟩))
  else us.flatMap (fun u => match units[u]? with
    | some x => (fabPieces x.addr x.len).map (fun p => ⟨x.dev, [u], p.1 - x.addr⟩)
    | none => [])

/-- A line request of a unit issues. -/
def State.issueLine (s : State) (die id u i : Nat) (y : YDesc) (x : YUnit) : State :=
  if i = 0 ∧ s.memRange x.addr x.len = false then
    (s.raise die 0x0202 (plAt 16 x.addr + plAt 24 2)).failDesc die id stUnmapped 0
  else
    let s := (s.bump F.YLM_FETCHES_LINES 1 die).noteSent die id (.line u i)
    if i = 0 ∧ y.f.kind = 0 ∧ x.slot = none then s.shardLoad y.f.table x.shard 0 1 else s

/-- A remote request of a descriptor issues: a remote yealm request of a lookup, a READ of a combine. -/
def State.issuePart (s : State) (die id k : Nat) (y : YDesc) (p : YPart) : State :=
  let s := s.updYdesc die id (fun y => { y with out := y.out ++ [.part k] })
  let s := s.bump F.YLM_FETCHES_LINES (y.cost (.part k)) die
  let s := if y.f.kind = 0 then s.bump F.YLM_REMOTE_CNT_REQUESTS 1 die else s
  let xs := p.units.filterMap (fun u => y.units[u]?)
  if y.f.kind = 0 then
    s.ask y.q p.dev 0x05 0 0 (leBytes 8 y.f.table ++ xs.flatMap (fun x => leBytes 8 x.key)) (.yealm die id k) y.wadding
  else
    match xs with
    | x :: _ =>
      let a := x.addr + p.off
      s.ask y.q p.dev 0x01 a (min (x.len - p.off) (4096 - a % 4096)) [] (.yealm die id k) y.wadding
    | [] => s

/-- A descriptor that will end with an error requests nothing more; a scatter still sends its other adds (R203). -/
def YDesc.halted (y : YDesc) : Bool := y.err != 0 && y.f.kind != 1

/-- One piece of work of a descriptor is tried: the state, and the work that stays. -/
def State.tryWork (s : State) (die id : Nat) (w : YWork) : State × List YWork :=
  match s.ydesc? die id with
  | none => (s, [])
  | some y =>
    if y.halted then (s, [])
    else if ylmLimit < s.get F.YLM_OUTSTANDING_CURRENT die + y.cost w then (s, [w])
    else
      match w with
      | .line u i =>
        match y.units[u]? with
        | none => (s, [])
        | some x => ((s.issueLine die id u i y x).syncYlm die, [])
      | .part k =>
        match y.parts[k]? with
        | none => (s, [])
        | some p => ((s.issuePart die id k y p).syncYlm die, [])
      | .unit u =>
        match y.units[u]? with
        | none => (s, [])
        | some x =>
          if y.f.kind = 1 then (s.noteSent die id (.unit u), [])
          else
            match x.slot with
            | none => (s, x.work u)
            | some slot =>
              match s.eavesUse y x slot with
              | .pending => (s, [.unit u])
              | .hit a =>
                let x' := { x with addr := a }
                ((s.bump F.YLM_EAVES_CNT_HITS 1 die).updYdesc die id (fun y => { y with units := y.units.set u x' }), x'.work u)
              | .bypass =>
                let x' := { x with slot := none }
                let s := s.bump F.YLM_EAVES_CNT_EAVES_BYPASS 1 die
                if x.dev = s.devnum then (s.updYdesc die id (fun y => { y with units := y.units.set u x' }), x'.work u)
                else (s.updYdesc die id (fun y => { y with units := y.units.set u x', parts := y.parts ++ [⟨x.dev, [u], 0⟩] }),
                  [.part y.parts.length])

/-- The work of a descriptor in order, as far as the limit lets it issue (R195); the requests that resolved units make
issue at once after them. -/
def workThrough (die id : Nat) : List YWork → State → List YWork → State × List YWork
  | [], s, kept => (s, kept.reverse)
  | w :: ws, s, kept => let r := s.tryWork die id w; workThrough die id ws r.1 (r.2.reverse ++ kept)

def State.pumpOnce (s : State) (die id : Nat) : State :=
  match s.ydesc? die id with
  | none => s
  | some y =>
    let r := workThrough die id y.todo (s.updYdesc die id (fun y => { y with todo := [] })) []
    r.1.updYdesc die id (fun y => { y with todo := if y.halted then [] else r.2 })

/-- Every started descriptor of an engine issues what it can, wadding last (R51): units are resolved first, then their
requests issue. -/
def State.pump (s : State) (die : Nat) : State :=
  let l := (s.ydescs die).filter (·.started)
  (l.filter (fun y => !y.wadding) ++ l.filter (·.wadding)).foldl (fun s y => (s.pumpOnce die y.id).pumpOnce die y.id) s

end Sys2Proof.Machine
end

