-- ==== Sys2Proof/Machine/Yealm.lean ====
section
/-! DEFINITION. The yealm engines (chapter 8): running descriptors, their responses and completion, and staging into the
eaves. -/
namespace Sys2Proof.Machine

/-! ## Starting a descriptor -/

/-- Why a descriptor's outputs may not be written (R200, Table 7.6, R52). -/
def State.yblocked (s : State) (die : Nat) (wad : Bool) (rs : List (Nat × Nat)) : Option Nat :=
  rs.findSome? (fun r => match s.writeStop (.tile (128 * die)) wad r.1 r.2 with
    | some .wadding => some stWadding
    | some .locked => some stLocked
    | none => none)

/-- Offsets are well formed (R190). -/
def offsetsOk (n : Nat) (offs : List Nat) : Bool :=
  offs.headD 1 == 0 && offs.getLastD 0 == n && (offs.zip (offs.drop 1)).all (fun p => decide (p.1 ≤ p.2))

/-- Indices of a list with their positions, as far as they are in range (R191). -/
def goodIdx (limit : Nat) (idx : List Nat) : List (Nat × Nat) := (idx.zipIdx).filter (fun p => decide (p.1 < limit))

/-- A started descriptor has this work; nothing of it is outstanding. -/
def State.setWork (s : State) (die id : Nat) (units : List YUnit) (parts : List YPart) (todo : List YWork) : State :=
  s.updYdesc die id (fun y => { y with units := units, parts := parts, todo := todo })

/-- The slots of a descriptor's plan by position; none when the plan is absent, ignored or stale (R206). -/
def State.planSlots (s : State) (die : Nat) (f : YFld) : List (Option Nat) × State :=
  if f.plan = 0 ∨ s.bit F.YLM_CTRL_EAVES_OFF die = true then ([], s)
  else
    let h := s.yread die f.plan 64
    if fieldLe h.1 0 8 = s.get F.TBN_COURSE_COURSE ∧ fieldLe h.1 8 4 = f.nidx then
      let r := h.2.yread die (f.plan + 64) (4 * f.nidx)
      ((leList 4 f.nidx r.1).map (fun v => if v / 2 ^ 31 = 1 then none else some v), r.2)
    else ([], h.2.bump F.YLM_DEDUP_CNT_PLAN_STALE 1 die)

/-- The empty bags of a pooling are written as +0 and counted (R200, R211). -/
def State.emptyBags (s : State) (die : Nat) (y : YDesc) (n : Nat) : State :=
  let f := y.f
  let lens := bagLens y.offs (y.units.flatMap YUnit.pos)
  ((List.range f.nbags).filter (fun b => Sparse.get 0 lens b == 0)).foldl (fun s b =>
    let s := s.ywrite die y.wadding (f.vec + b * f.stride) (List.replicate (n * f.size) 0#8)
    (s.bump F.YLM_BAG_CNT_EMPTY 1 die).ledBump ⟨264, 4⟩ 1) s

/-- The unique rows of a lookup or scatter as units (R194, R203). -/
def rowUnits (t : TDesc) (l : List Byte) (scatter : Bool) (slots : List (Option Nat)) (g : List (Nat × List Nat)) :
    List YUnit :=
  g.map (fun p =>
    let rp := rowPlace t l p.1
    let a := if scatter then rp.entry.row0 else rp.row t
    ⟨p.1, p.2, faDev a, faLocal a, t.payload, rp.shard, rp.place, (slots.getD (p.2.headD 0) none)⟩)

/-- A lookup or scatter goes to work on its groups. -/
def State.startRows (s : State) (die id : Nat) (g : List (Nat × List Nat)) : State :=
  match s.ydesc? die id with
  | none => s
  | some y =>
    let f := y.f
    let t := tdesc y.table
    let sl := s.planSlots die f
    let s := sl.2
    let units := rowUnits t y.list (f.kind == 1) sl.1 g
    let us := List.range units.length
    let at' (u : Nat) : YUnit := units.getD u ⟨0, [], 0, 0, 0, 0, 0, none⟩
    let free := us.filter (fun u => (at' u).slot.isNone)
    let far := free.filter (fun u => (at' u).dev != s.devnum)
    let parts := if f.kind = 0 then remoteParts f units far else []
    let todo := if f.kind = 1 then us.map YWork.unit
      else (free.filter (fun u => (at' u).dev == s.devnum)).flatMap (fun u => (at' u).work u) ++
        (us.filter (fun u => (at' u).slot.isSome)).map YWork.unit ++ (List.range parts.length).map YWork.part
    let y := { y with units := units }
    let s := (s.setWork die id units parts todo).reportShards y
    if f.kind = 0 then s.emptyBags die y t.elems else s

/-- An entry of an expert list (R209): base, stride, capacity. -/
def expertAt (l : List Byte) (e : Nat) : Nat × Nat × Nat :=
  let b := (l.drop (16 * e)).take 16
  (fieldLe b 0 8, fieldLe b 8 4, fieldLe b 12 4)

/-- An expert list keeps R209. -/
def expertsOk (f : YFld) (l : List Byte) : Bool :=
  (List.range f.experts).all (fun e =>
    let x := expertAt l e
    x.1 % 64 == 0 && x.2.1 % 64 == 0 && decide (f.velems * f.size ≤ x.2.1) && decide (x.2.2 ≤ 2 ^ 24))

/-- A token vector is copied to a fabric address (R210). -/
def State.copyToken (s : State) (die id : Nat) (y : YDesc) (fa : Nat) (bs : List Byte) : State :=
  let s := s.bump F.YLM_MOE_CNT_DISPATCHED 1 die
  if s.here fa then (s.actMem y.q (faLocal fa) bs.length).ywrite die y.wadding (faLocal fa) bs
  else
    let k := (fabPieces (faLocal fa) bs.length).length
    (s.updYdesc die id (fun y => { y with acks := y.acks + k })).fabStore y.q fa bs (.add die id) y.wadding

/-- Assignments in order with their positions at their experts (R210): (expert, assignment, position). -/
def positions (l : List (Nat × Nat)) : List (Nat × Nat × Nat) :=
  (l.foldl (fun (r : Sparse Nat × List (Nat × Nat × Nat)) p =>
    let k := Sparse.get 0 r.1 p.1
    (Sparse.put 0 r.1 p.1 (k + 1), (p.1, p.2, k) :: r.2)) ([], [])).2.reverse

/-- The places on this module to which a dispatch copies tokens. -/
def State.localCopies (s : State) (l : List Byte) (n : Nat) (ps : List (Nat × Nat × Nat)) : List (Nat × Nat) :=
  (ps.filterMap (fun p =>
    let x := expertAt l p.1
    let fa := x.1 + p.2.2 * x.2.1
    if p.2.2 < x.2.2 ∧ s.here fa = true then some (faLocal fa, n) else none))

/-- A dispatch: copies, map and counts (R210). Its local copies are judged as a whole before any of them moves (R16,
Table 7.6). -/
def State.startDispatch (s : State) (die id : Nat) (y : YDesc) (l : List Byte) (good : List (Nat × Nat)) : State :=
  let f := y.f
  let n := f.velems * f.size
  let ps := positions good
  let near := s.localCopies l n ps
  match near.find? (fun r => !s.rangeMapped r.1 r.2), s.yblocked die y.wadding near with
  | some r, _ => (s.raise die 0x0202 (plAt 16 r.1 + plAt 24 2)).failDesc die id stUnmapped 0
  | none, some st => s.failDesc die id st 0
  | none, none =>
  let s := ps.foldl (fun s p =>
    let x := expertAt l p.1
    let m := f.map + 4 * p.2.1
    if p.2.2 < x.2.2 then
      let r := (s.actMem y.q (f.vec + bagOf y.offs p.2.1 * f.stride) n).yread die (f.vec + bagOf y.offs p.2.1 * f.stride) n
      (r.2.copyToken die id y (x.1 + p.2.2 * x.2.1) r.1).ywrite die y.wadding m (leBytes 4 p.2.2)
    else
      let s := (s.bump F.YLM_MOE_CNT_DROPPED 1 die).ledBump ⟨272, 4⟩ 1
      s.ywrite die y.wadding m (leBytes 4 0xFFFFFFFF)) s
  let counts := (List.range f.experts).flatMap (fun e =>
    leBytes 4 (min ((good.filter (fun p => p.1 == e)).length) (expertAt l e).2.2))
  s.ywrite die y.wadding (f.map + 4 * f.nidx) counts

/-- A combine: the experts' rows of every assignment that was not dropped (R211). -/
def State.startCombine (s : State) (die id : Nat) (y : YDesc) (l : List Byte) (good : List (Nat × Nat)) : State :=
  let f := y.f
  let m := s.yread die f.map (4 * f.nidx)
  let s := m.2
  let at' := leList 4 f.nidx m.1
  let kept := good.filter (fun p => at'.getD p.2 0 != 0xFFFFFFFF)
  if kept.any (fun p => decide ((expertAt l p.1).2.2 ≤ at'.getD p.2 0)) then s.failDesc die id stIndexRange 0
  else
    let units := kept.map (fun p =>
      let x := expertAt l p.1
      let a := x.1 + at'.getD p.2 0 * x.2.1
      (⟨p.1, [p.2], faDev a, faLocal a, f.velems * f.size, 0, 0, none⟩ : YUnit))
    let us := List.range units.length
    let here (u : Nat) : Bool := match units[u]? with | some x => x.dev == s.devnum | none => false
    let parts := remoteParts f units (us.filter (fun u => !here u))
    let todo := (us.filter here).flatMap (fun u => match units[u]? with | some x => x.work u | none => []) ++
      (List.range parts.length).map YWork.part
    (s.setWork die id units parts todo).emptyBags die { y with units := units } f.velems

/-- A descriptor whose checks have passed reads its offsets and indices and goes to work (R190 to R193). -/
def State.startLists (s : State) (die id : Nat) : State :=
  match s.ydesc? die id with
  | none => s
  | some y =>
    let f := y.f
    let o := if f.hasOff then (s.actMem y.q f.off ((f.nbags + 1) * f.wide)).yread die f.off ((f.nbags + 1) * f.wide) else ([], s)
    let offs := if f.hasOff then leList f.wide (f.nbags + 1) o.1 else []
    let s := o.2
    if f.hasOff && !offsetsOk f.nidx offs then s.failDesc die id stOffsets 0
    else
      let r := (s.actMem y.q f.idx (f.nidx * f.wide)).yread die f.idx (f.nidx * f.wide)
      let idx := leList f.wide f.nidx r.1
      let s := (r.2.bump F.YLM_INDICES_INDICES f.nidx die).updYdesc die id (fun y => { y with idx := idx, offs := offs })
      let good := goodIdx (if f.kind ≤ 1 then (tdesc y.table).rows else f.experts) idx
      let bad := f.nidx - good.length
      if bad ≠ 0 ∧ f.skip = false then s.failDesc die id stIndexRange 0
      else
        let s := (s.bump F.YLM_BAG_CNT_BADIDX bad die).ledBump ⟨268, 4⟩ bad
        let e := if f.kind ≤ 1 then ([], s) else s.yread die f.list (16 * f.experts)
        let s := e.2
        if f.kind ≥ 2 ∧ expertsOk f e.1 = false then s.failDesc die id stDescInvalid 0
        else
          let sorted := sortPairs good
          let g := keyRuns sorted
          let sorts := s.sorts die f g
          match (if sorts then s.yblocked die y.wadding [(f.scratch, 16 * f.nidx)] else none) with
          | some st => s.failDesc die id st 0
          | none =>
            let s := if sorts then s.sortPath die f y.wadding sorted else s
            let y := { y with idx := idx, offs := offs }
            match f.kind with
            | 2 => s.startDispatch die id y e.1 good
            | 3 => s.startCombine die id y e.1 good
            | _ => s.startRows die id (if f.fast then fastGroups g else g)

/-- A descriptor starts: its checks in order, then its lists (R187, R188, R434). -/
def State.startDesc (s : State) (die id : Nat) : State :=
  match s.ydesc? die id with
  | none => s
  | some y =>
    let f := y.f
    let v : List Byte × List Byte :=
      if y.plan.isSome ∨ 2 ≤ f.kind then (y.table, y.list) else (s.tableNow f.table).getD ([], [])
    let s := (s.updYdesc die id (fun y => { y with started := true, table := v.1, list := v.2 })).syncYlm die
    let t := tdesc v.1
    let repro := match s.course.prog with | some p => p.repro | none => false
    if !ydescOk y.raw (s.descOwn y && repro) then s.failDesc die id stDescInvalid 0
    else if f.kind = 1 ∧ y.wadding = true then s.failDesc die id stWadding 0
    else if f.kind ≤ 1 ∧ v.1 = [] then s.failDesc die id stUnknownTable 0
    else if f.kind = 1 ∧ t.train = false then s.failDesc die id stDescInvalid 0
    else
      match (f.ranges t).find? (fun r => !s.rangeMapped r.1 r.2) with
      | some r => (s.raise die 0x0202 (plAt 16 r.1 + plAt 24 2)).failDesc die id stUnmapped 0
      | none =>
        match s.yblocked die y.wadding (f.outputs t) with
        | some st => s.failDesc die id st 0
        | none => s.startLists die id

/-- An engine starts the descriptors that it received, in order, up to 16 at once (R189), wadding only when no other is ready
(R51). -/
def startDescs (die : Nat) : Nat → State → State
  | 0, s => s
  | n + 1, s =>
    if 16 ≤ ((s.ydescs die).filter (·.started)).length then s
    else
      let ready := (s.ydescs die).filter (fun y => !y.started)
      match (match ready.find? (fun y => !y.wadding) with | some y => some y | none => ready.head?) with
      | none => s
      | some y => startDescs die n (s.startDesc die y.id)

/-- The engine goes on: descriptors start and requests issue. -/
def State.ylmGo (s : State) (die : Nat) : State := (startDescs die (s.ydescs die).length s).pump die

/-- An engine receives a descriptor (R187, R434): from a command or a course item. The tables that an operation of a
planned batten sees are those of its start (R46). -/
def State.ylmReceive (s : State) (die q addr : Nat) (cmd : Option (Nat × Nat)) (item : Option Nat) (own : Bool)
    (drift : Nat) (plan : Option Nat) (wad : Bool) : State :=
  let r := s.readMem .engine addr 128
  let s := r.st
  let v : List Byte × List Byte := match plan with
    | none => ([], [])
    | some _ => (s.tableAt plan (yfld r.bytes).table).getD ([], [])
  let y : YDesc := ⟨s.ylm.serial, q, cmd, item, addr, r.bytes, if own then s.get F.TBN_COURSE_COURSE else 0, drift, plan, wad, false, v.1, v.2, [], [], [], [], [], [],
    [], [], [], 0, 0, 0⟩
  let s : State := { s with ylm := { s.ylm with serial := s.ylm.serial + 1 } }
  (s.setYdescs die (s.ydescs die ++ [y])).ylmGo die

/-- YLM_RUN (R187, R434): the engine of the queue's die receives the descriptor. -/
def execYlmRun (q : Fin 16384) (seq : Nat) (s : State) : Out :=
  .next (s.runCmd 0x0305 q seq (fun c s => s.needA c 16 (fun a => s.needMem c a 128 (
    let own := s.courseLive && (c.course != 0 || s.listed q)
    (s.cmdWaits c []).ylmReceive (queueDie q) q a (some (q.val, seq)) none own 0
      (if s.running then some s.course.plan else none) (s.queueWadding q)))))

/-! ## Responses -/

/-- The local requests of an engine that wait for a response, in the order in which they issued. -/
def State.ylmOutList (s : State) (die : Nat) : List (Nat × YWork) :=
  (Sparse.get [] s.ylm.sent die).filter (fun p => match s.ydesc? die p.1 with | some y => y.out.contains p.2 | none => false)

/-- The die from whose memory a line comes; none for a scatter's row, which is not fetched. -/
def State.lineDie (s : State) (die : Nat) (p : Nat × YWork) : Option Nat :=
  match p.2, s.ydesc? die p.1 with
  | .line u _, some y => (y.units[u]?).map (fun x => ownerDie x.addr)
  | _, _ => none

/-- Those of which a response may come now: lines of one die return in the order in which they were requested (R12). -/
def State.ylmHeads (s : State) (die : Nat) : List (Nat × YWork) :=
  let l := s.ylmOutList die
  l.zipIdx.filterMap (fun p =>
    let d := s.lineDie die p.1
    if d.isSome && (l.take p.2).any (fun q => s.lineDie die q == d) then none else some p.1)

/-- A response takes a request off the list. -/
def State.unsend (s : State) (die : Nat) (p : Nat × YWork) : State :=
  let s := s.updYdesc die p.1 (fun y => { y with out := y.out.erase p.2 })
  ({ s with ylm := { s.ylm with sent := Sparse.put [] s.ylm.sent die ((Sparse.get [] s.ylm.sent die).erase p) } }).syncYlm die

/-- LINE_RESPONSE (R194): the `pick`-th line that may return to an engine does so; a scatter's row, which is not fetched, is
combined in the same way. -/
def execLineResponse (die : Fin 8) (pick : Nat) (s : State) : Out :=
  match (s.ylmHeads die)[pick]? with
  | none => .next s
  | some p =>
    let s := s.unsend die p
    match s.ydesc? die p.1 with
    | none => .next s
    | some y =>
      if y.halted then .next (s.pump die)
      else
        match p.2 with
        | .unit u => .next ((s.sendRowAdd die p.1 u).pump die)
        | .part _ => .next s
        | .line u i =>
          match y.units[u]? with
          | none => .next s
          | some x =>
            let lo := if i = 0 then x.addr else (x.addr / 64 + i) * 64
            let hi := min (x.addr + x.len) ((x.addr / 64 + i + 1) * 64)
            let r := (s.actMem y.q lo (hi - lo)).readMem .engine lo (hi - lo)
            .next ((r.st.unitBytes die p.1 u i r.bytes).pump die)

/-- The response of a remote request of a descriptor: bytes for its units in order. -/
def State.partArrived (s : State) (die id k : Nat) (chunks : List (List Byte)) : State :=
  let s := (s.updYdesc die id (fun y => { y with out := y.out.erase (.part k) })).syncYlm die
  match s.ydesc? die id with
  | none => s
  | some y =>
    match y.parts[k]? with
    | none => s
    | some p =>
      let s := if y.err ≠ 0 then s
        else (p.units.zip chunks).foldl (fun s c => s.unitBytes die id c.1 (p.off / 64) c.2) s
      s.pump die

/-- A descriptor has everything that its completion waits for (R189). -/
def YDesc.over (y : YDesc) : Bool := y.started && y.acks == 0 && (y.halted || (y.todo == [] && y.out == []))

/-- Outputs that a failed fetch leaves unspecified (R194, R196). -/
def State.freeOutputs (s : State) (die : Nat) (y : YDesc) : State :=
  let f := y.f
  if y.err ≠ 0 ∧ y.units ≠ [] ∧ (f.kind = 0 ∨ f.kind = 3) then
    (List.range f.nbags).foldl (fun s b =>
      let r := s.freeBytes (f.elems (tdesc y.table) * f.size)
      r.2.ywrite die y.wadding (f.vec + b * f.stride) r.1) s
  else s

/-- A descriptor completes with a status. -/
def State.endDesc (s : State) (die : Nat) (y : YDesc) (st : Nat) : State :=
  let s := s.setYdescs die ((s.ydescs die).filter (fun x => x.id != y.id))
  let s : State := { s with ylm := { s.ylm with
    sent := Sparse.put [] s.ylm.sent die ((Sparse.get [] s.ylm.sent die).filter (fun p => p.1 != y.id)) } }
  let s := if st = stSuccess ∨ st = stPreempted then s else s.set F.YLM_STATUS_DESC_ERROR 1 die
  let s := s.withWaiting y.cmd (fun c s => s.complete c st y.detail 0)
  let s := match y.item with | some i => s.itemDone i | none => s
  s.syncYlm die

/-- DESCRIPTOR_COMPLETE (R189): the oldest descriptor of a queue at an engine. -/
def execDescriptorComplete (die : Fin 8) (q : Fin 16384) (s : State) : Out :=
  match (s.ydescs die).find? (fun y => y.q == q.val) with
  | none => .next s
  | some y => if y.over then .next (((s.freeOutputs die y).endDesc die y y.err).ylmGo die) else .next s

/-- At a tick the wadding descriptors in flight are preempted (R51, R188). -/
def State.preemptYealm (s : State) : State :=
  (List.range 8).foldl (fun s die =>
    (((s.ydescs die).filter (·.wadding)).foldl (fun s y => s.endDesc die y stPreempted) s).ylmGo die) s

/-! ## Staging (R204 to R208) -/

/-- The records and the eaves of a die may be used (R213). -/
def State.stageOk (s : State) (die : Nat) : Bool :=
  let h := s.eavesHalf die
  let a := s.stageAddr die 0
  h == 0 ||
  (inOneStack a (64 * h) && (stackOf a == some (2 * die) || stackOf a == some (2 * die + 1)) &&
   !hitsAny (a, 64 * h) (s.eavesRange die :: s.allShardRanges none) && !hitsAny (a, 64 * h) ((List.range 24).map s.deltaRange) &&
   !s.rangeEnabled a (64 * h) && s.memRange a (64 * h))

/-- Where a row may be staged: the home die of its bulk package; none when it lies elsewhere or is a trained row whose
unit is in direct mode (R204, R205). -/
def State.stageHome (s : State) (t : TDesc) (l : List Byte) (row : Nat) : Option Nat :=
  let p := rowPlace t l row
  let a := p.row t
  if s.here a && !(t.train && s.bit F.UPD_UCTRL_MODE (unitOf (faLocal p.entry.row0))) then bulkDie (faLocal a) else none

/-- The checks of a descriptor that is to be planned: the first status that it fails with, and the address of an unmapped
range. -/
def State.planCheck (s : State) (die : Nat) (b : List Byte) : Option (Nat × Nat) :=
  let f := yfld b
  if !ydescOk b false || f.kind != 0 || f.plan == 0 then some (stDescInvalid, 0)
  else
    match s.tableNow f.table with
    | none => some (stUnknownTable, 0)
    | some v =>
      match (f.ranges (tdesc v.1)).find? (fun r => !s.rangeMapped r.1 r.2) with
      | some r => some (stUnmapped, r.1)
      | none => (s.yblocked die false [(f.plan, 64 + 4 * f.nidx)]).map (fun st => (st, 0))

/-- The plan of a descriptor: for each position its row and home (R204); none when an index is out of range and may not
be skipped. -/
def State.planOf (s : State) (die : Nat) (b : List Byte) : Option (Nat × List (Option (Nat × Nat × Nat))) × State :=
  let f := yfld b
  match s.tableNow f.table with
  | none => (none, s)
  | some v =>
    let t := tdesc v.1
    let r := s.yread die f.idx (f.nidx * f.wide)
    let idx := leList f.wide f.nidx r.1
    let s := r.2.bump F.YLM_INDICES_INDICES f.nidx die
    let good := goodIdx t.rows idx
    if good.length < f.nidx ∧ f.skip = false then (none, s)
    else
      let sorted := sortPairs good
      let s := if s.sorts die f (keyRuns sorted) then s.sortPath die f false sorted else s
      let off := s.bit F.YLM_CTRL_EAVES_OFF die
      (some (f.plan, idx.map (fun r =>
        if off = true ∨ t.rows ≤ r then none
        else match s.stageHome t v.2 r with | some h => some (f.table, r, h) | none => none)), s)

/-- Plans of descriptors in order, or the status that one of them gives. -/
def plansOf (die : Nat) : List (List Byte) → State → (Nat ⊕ List (Nat × List (Option (Nat × Nat × Nat)))) × State
  | [], s => (.inr [], s)
  | b :: bs, s =>
    let r := s.planOf die b
    match r.1 with
    | none => (.inl stIndexRange, r.2)
    | some p =>
      let rest := plansOf die bs r.2
      match rest.1 with
      | .inl st => (.inl st, rest.2)
      | .inr ps => (.inr (p :: ps), rest.2)

/-- The slot of a row at its home: its rank among the rows that the home engine received (R204). -/
def Prefetch.rowsAt (p : Prefetch) (die : Nat) : List (Nat × Nat) :=
  let l := (p.plans.flatMap (fun x => x.2.filterMap id)).filter (fun r => r.2.2 == die)
  ((l.map (fun r => (r.1, r.2.1))).mergeSort (fun a b => decide (a.1 < b.1) || (a.1 == b.1 && decide (a.2 ≤ b.2)))).eraseDups

/-- The plans are written, and the YLM_PREFETCH completes with the rows staged (R206). -/
def State.endPrefetch (s : State) (p : Prefetch) : State :=
  let die := queueDie p.q
  let lists := (List.range 8).map p.rowsAt
  let halves := (List.range 8).map s.eavesHalf
  let slot (x : Option (Nat × Nat × Nat)) : Nat :=
    match x with
    | none => 2 ^ 31
    | some r =>
      let k := (lists.getD r.2.2 []).idxOf (r.1, r.2.1)
      if k < halves.getD r.2.2 0 then k else 2 ^ 31
  let s := p.plans.foldl (fun s x =>
    s.ywrite die false x.1 (padTo 64 (leBytes 8 p.course ++ leBytes 4 x.2.length) ++ x.2.flatMap (fun y => leBytes 4 (slot y)))) s
  let s : State := { s with ylm := { s.ylm with prefetch := s.ylm.prefetch.filter (fun x => x.course != p.course) } }
  s.withWaiting (some (p.q, p.seq)) (fun c s => s.succeed c p.staged)

/-- Prefetches that no home engine has still to serve end. -/
def State.settlePrefetch (s : State) : State :=
  (s.ylm.prefetch.filter (fun p => p.homes == [])).foldl State.endPrefetch s

/-- A YLM_PREFETCH completes with an error status. -/
def State.failPrefetch (s : State) (c : Cmd) (st detail : Nat) : State :=
  s.fail c st detail

/-- YLM_PREFETCH (R204): checks the descriptors, plans their rows and sends them to their home engines. -/
def execYlmPrefetch (q : Fin 16384) (seq : Nat) (s : State) : Out :=
  .next (s.runCmd 0x0306 q seq (fun c s => s.needA c 24 (fun a =>
    let course := c.par 16 8
    let n := c.par 32 2
    let die := queueDie q
    if n = 0 ∨ 1024 < n then s.failPrefetch c stBadParam 32
    else if course ≠ s.get F.TBN_COURSE_COURSE + 1 then s.failPrefetch c stDescInvalid 0
    else if s.ylm.targets.contains course then s.failPrefetch c stDescInvalid 0
    else s.needMem c a (8 * n) (
      let r := s.yread die a (8 * n)
      let addrs := leList 8 n r.1
      let s := r.2
      match addrs.find? (fun d => d % 64 != 0 || !s.memRange d 128) with
      | some d => if d % 64 = 0 then (s.raise die 0x0202 (plAt 16 d + plAt 24 2)).failPrefetch c stUnmapped 0
        else s.failPrefetch c stBadParam 24
      | none =>
        let descs := addrs.foldl (fun (x : List (List Byte) × State) d =>
          let b := x.2.yread die d 128
          (x.1 ++ [b.1], b.2)) ([], s)
        let s := descs.2
        match descs.1.findSome? (s.planCheck die) with
        | some p =>
          let s := if p.1 = stUnmapped then s.raise die 0x0202 (plAt 16 p.2 + plAt 24 2) else s
          s.failPrefetch c p.1 0
        | none =>
          if !(List.range 8).all s.stageOk then s.failPrefetch c stDescInvalid 0
          else
            let ps := plansOf die descs.1 s
            match ps.1 with
            | .inl st => ps.2.failPrefetch c st 0
            | .inr plans =>
              let p : Prefetch := ⟨q, seq, course, plans, [], 0⟩
              let p := { p with homes := (List.range 8).filter (fun d => (p.rowsAt d) != []) }
              let s := ps.2.cmdWaits c []
              let s : State := { s with ylm := { s.ylm with prefetch := s.ylm.prefetch ++ [p], targets := s.ylm.targets ++ [course] } }
              s.settlePrefetch)))) 

/-- Rows of a home engine. -/
def State.stageRows (s : State) (die : Nat) : List StageRow := Sparse.get [] s.ylm.rows die

def State.setStageRows (s : State) (die : Nat) (l : List StageRow) : State :=
  ({ s with ylm := { s.ylm with rows := Sparse.put [] s.ylm.rows die l } }).syncYlm die

/-- STAGE_ROWS (R204, R205): a home engine takes its rows, gives slots in order, and counts those that do not fit. -/
def execStageRows (die : Fin 8) (s : State) : Out :=
  match s.ylm.prefetch.find? (fun p => p.homes.contains die.val) with
  | none => .next s
  | some p =>
      let l := p.rowsAt die
      let h := s.eavesHalf die
      let late := s.ylm.folded != p.course - 1
      let rows := (l.take h).zipIdx.map (fun r =>
        (⟨p.course, p.course % 2 * h + r.2, r.1.1, r.1.2, 0, 0, 0, 0, 0, 0, late && s.trained r.1.1, false, 0⟩ : StageRow))
      let lost := l.length - rows.length
      let s := (s.bump F.YLM_STAGE_CNT_EAVES_FULL lost die).ledBump ⟨276, 4⟩ lost
      let keep := (s.stageRows die).filter (fun r => r.course == p.course - 1)
      let s : State := { s with ylm := { s.ylm with
        prefetch := s.ylm.prefetch.map (fun x =>
          if x = p then { p with homes := p.homes.erase die.val, staged := p.staged + rows.length } else x) } }
      .next (s.setStageRows die (keep ++ rows)).settlePrefetch

/-- A staging record (Table 8.3). -/
def StageRow.record (r : StageRow) (st : Nat) : List Byte :=
  leBytes 2 r.table ++ leBytes 1 st ++ leBytes 1 r.bank ++ leBytes 4 r.ver ++ leBytes 8 r.row ++ leBytes 8 r.base ++
  leBytes 8 r.course

/-- STAGING_READ_ISSUE (R207): the first row of a home engine whose reads may issue; its record becomes pending. A row
whose shard has left the module meanwhile is not staged. -/
def execStagingReadIssue (die : Fin 8) (s : State) : Out :=
  match (s.stageRows die).find? (fun r => !r.issued && !r.trained) with
  | none => .next s
  | some r =>
    let drop := s.setStageRows die ((s.stageRows die).erase r)
    match s.tableNow r.table with
    | none => .next drop
    | some v =>
      let t := tdesc v.1
      let p := rowPlace t v.2 r.row
      let a := p.row t
      if r.row < t.rows ∧ s.here a = true ∧ s.memRange (faLocal a) t.payload = true then
        let k := ceilDiv (faLocal a % 64 + t.payload) 64
        if ylmLimit < s.get F.YLM_OUTSTANDING_CURRENT die + k then .next s
        else
          let r' := { r with shard := p.shard, addr := faLocal a, len := t.payload, base := p.entry.rowBase, bank := p.entry.bank,
                             ver := p.entry.version, issued := true, lines := k }
          let s := s.engineWrite die (s.stageAddr die r.slot) (r'.record 1)
          let s := (s.bump F.YLM_FETCHES_LINES k die).shardLoad r.table p.shard 0 1
          .next (s.setStageRows die ((s.stageRows die).map (fun x => if x = r then r' else x)))
      else .next drop

/-- STAGING_COPY_DONE (R207): the oldest row under way is copied into the eaves and its record becomes valid; lookups that
wait for it go on. -/
def execStagingCopyDone (die : Fin 8) (s : State) : Out :=
  match (s.stageRows die).find? (·.issued) with
  | none => .next s
  | some r =>
    let b := s.engineRead die r.addr r.len
    let s := b.2.engineWrite die (s.eavesAddr die r.slot) b.1
    let s := (s.engineWrite die (s.stageAddr die r.slot) (r.record 2)).bump F.YLM_STAGE_CNT_STAGED 1 die
    let s := s.setStageRows die ((s.stageRows die).erase r)
    .next ((List.range 8).foldl (fun s d => s.pump d) s)

/-- The fold of the course has completed: staging reads of trained rows for the next course may issue (R207). -/
def State.stagingFolded (s : State) : State :=
  let c := s.get F.TBN_COURSE_COURSE
  { s with ylm := { s.ylm with
    folded := c
    rows := s.ylm.rows.map (fun p => (p.1, p.2.map (fun r => if r.course = c + 1 then { r with trained := false } else r))) } }

end Sys2Proof.Machine
end

