-- ==== Sys2Proof/Machine/Frame.lean ====
section
/-! DEFINITION. The batten frame: ticks, slots, overrun, and the start of a course (R28 to R46, R51, R53, R173, R322,
R387). -/
namespace Sys2Proof.Machine

def State.updFrame (s : State) (f : Frame → Frame) : State := { s with frame := f s.frame }

/-- An operation on each die in turn. -/
def State.eachDie (s : State) (f : State → Nat → State) : State := (List.range 8).foldl f s

def State.role (s : State) : Nat := s.get F.TBN_SYNC_ROLE

/-- A module that decides for itself: standalone, or a follower in holdover (R42). -/
def State.ownMaster (s : State) : Bool := s.role == 0 || (s.role == 2 && s.bit F.TBN_SYNC_HOLDOVER)

/-- A message to the sync master about the course (Table 11.7). -/
def State.tellMaster (s : State) (msg : Nat) : State :=
  match s.frame.master with
  | some m => s.ask 0 m 0x22 0 0 (leBytes 1 msg ++ leBytes 8 (s.get F.TBN_COURSE_COURSE)) .control false
  | none => s

/-! ## Tick: settings and sync (R30, R54, R265, R286) -/

/-- Pending settings take effect. A module that is no longer a follower keeps nothing of the sync. -/
def State.applySettings (s : State) : State :=
  let s := s.frame.pend.foldl (fun s p =>
    match p.2 with
    | some w =>
      if p.1 = 3 then
        let s := s.set F.TBN_SYNC_ROLE (fget 0 2 w)
        if fget 0 2 w = 2 then s
        else
          let s := (((s.set F.TBN_SYNC_LOCKED 0).set F.TBN_SYNC_HOLDOVER 0).set F.TBN_SYNC_MISSED 0).set F.TBN_OFFSET_OFFSET 0
          s.updFrame (fun f => { f with good := 0, resync := false, master := none })
      else s.wr (settingReg p.1) 0 0 w
    | none => s) s
  let s := s.mc.ctrlPend.foldl (fun s p =>
    match p.2 with
    | some w => if p.1 < 16 then s.wr .memCtrl p.1 0 w else s.wr .blkCtrl (p.1 - 16) 0 w
    | none => s) s
  ({ s with mc := { s.mc with ctrlPend := [], ceBatten := [] } }.updFrame (fun f => { f with pend := [] })).applyPower

/-- The modules that a master synchronises: those that have asked it for the time, and the participants of the course. -/
def State.domain (s : State) : List Nat :=
  let ds := if s.courseLive then (match s.course.prog with | some p => p.devices | none => []) else []
  ((s.frame.followers ++ ds).eraseDups).filter (fun d => d != s.devnum)

/-- What a tick sends and measures for the sync domain. -/
def State.tickSync (s : State) (t : Nat) : State :=
  if s.role = 1 then
    let l := (s.fab.rttNow :: s.fab.rtts).take 16
    let s := (s.updFab (fun f => { f with rtts := l, rttNow := 0 })).set F.JFL_SYNC_RTT_RTT_NS (l.foldl max 0)
    let w (r : Reg) : List Byte := leBytes 8 (s.rd r 0 0).toNat
    let b := leBytes 8 (s.get F.TBN_BATTEN_BATTEN) ++ leBytes 8 t ++ w .tbnInterval ++ w .tbnSlots ++ w .tbnOvr ++ w .tbnStagger
    s.domain.foldl (fun s d => (s.tell 0 d 0x20 0 b 0).2) s
  else if s.role = 2 then
    match s.frame.master with | some m => s.ask 0 m 0x21 0 0 [] .control false | none => s
  else s.set F.JFL_SYNC_RTT_RTT_NS 0

/-- Every wadding item in flight is preempted (R51): programs, launches that wait, descriptors, other commands. -/
def State.preemptAll (s : State) : State :=
  let s := s.clusterKeys.foldl (fun s g =>
    let s := ((s.cl g).waiting.filter (·.wadding)).foldl (fun s l => s.launchDone l stPreempted 0) s
    (s.updCl g (fun c => { c with waiting := c.waiting.filter (fun l => !l.wadding) })).preemptWadding g) s
  s.preemptYealm.completeAll (fun c => c.wadding && c.running) stPreempted 0

/-! ## The start of a course (R36, R173, R183, R307) -/

/-- The tick that begins the start batten. -/
def State.courseStart (s : State) (p : CourseProgram) : State :=
  let s := (s.set F.TBN_CSTATE_STATE 2).set F.TBN_CSTATE_BIDX 1
  let s := s.settleThrottle
  let s := s.setCourse { s.course with
    plan := 0, lock := true, led := s.course.led.filter (fun f => decide (f.1 < 128) || decide (316 ≤ f.1))
    accounted := false
    stages := p.stages.foldl (fun m d => Sparse.put .init m (d.die * 512 + d.k) { StageQ.init with credits := d.depth }) []
    aud := (List.range 1024).foldl (fun m g => Sparse.put 0x10040 m g (s.rd .audCtrl g 0).toNat) [] }
  let s := { s with
    clusters := s.clusters.map (fun (x : Nat × Cluster) => (x.1, { x.2 with ordinal := 0 }))
    tables := { s.tables with load := s.tables.load.filter (fun x => decide (x.1 % 4 < 2)), views := [] } }
  let s := s.updReplay (fun x => { x with
    captured := [], peerDigest := [], ranksIn := [], deviants := [], narrowing := [], subs := [], lines := [],
    widespread := [], faults := [] })
  let s := s.updFrame (fun f => { f with addsDone := [], allAdds := false, lastDone := none })
  -- moves that switched at the boundary before it (R176), and a holdover that began before it (R302)
  let s := s.tables.switches.foldl (fun s b => (s.ledBump ⟨298, 2⟩ 1).detail 5 b) s
  let s := { s with tables := { s.tables with switches := [] } }
  let s := if s.bit F.TBN_SYNC_HOLDOVER then s.ledSet ⟨2, 2⟩ (s.ledGet ⟨2, 2⟩ ||| 2 ^ 3) else s
  let s := p.stages.foldl (fun s d => (s.set F.TBN_STQ_VALID 1 d.die d.k).set F.TBN_STQ_FILL 0 d.die d.k) s
  let s := (s.ledSet ⟨32, 8⟩ s.now).ledSet ⟨88, 8⟩ (s.placementDigest p).toNat
  let s := s.ledSet ⟨104, 8⟩ s.stateDigest.toNat
  let s := if p.repro && (List.range 24).any (fun u => s.bit F.UPD_UCTRL_MODE u) then s.cause 2 else s
  (s.delayedScales p).layerRates p

/-- The course takes its place in the batten that begins: an ARMED one starts when its batten has come and no compare
holds it (R314), a running one uses one more batten. -/
def State.courseTick (s : State) : State :=
  match s.course.prog with
  | none => s
  | some p =>
    if s.cstate = 1 then
      if s.course.start ≤ s.get F.TBN_BATTEN_BATTEN ∧ s.replay.held = false then s.courseStart p else s
    else if s.running then
      (s.set F.TBN_CSTATE_BIDX (min 65790 (s.get F.TBN_CSTATE_BIDX + 1))).setCourse
        { s.course with plan := min (s.course.plan + 1) (p.planned - 1) }
    else s

/-- TICK (R28, R45, R46, R51, R176, R179): flips, batches and switches, in this order, come before a course that begins. -/
def execTick (s : State) : Out :=
  if s.timeRuns && s.frame.slot == 4 then
    let t := s.get F.TBN_NEXT_TICK_NEXT
    let upTo := if s.running then s.plannedDone else 0
    let s := ((s.advanceTo t).saveViews).bumpWrap F.TBN_BATTEN_BATTEN 1
    let s := s.applySettings
    let s := s.set F.TBN_NEXT_TICK_NEXT (t + s.get F.TBN_INTERVAL_INTERVAL_US * 1000)
    let s := s.updFrame (fun f => { f with
      slot := 5, deferTb := 0, quanta := 0, deferring := false, notDone := [], decision := none, late := none, asked := false
      inCourse := false })
    let s : State := { s with mc := { s.mc with mr4 := [] } }
    let s := (s.tickSync t).preemptAll
    let s := s.dueItems upTo
    let s := ((s.startFlips).startBatches).startMoves upTo
    let s := s.courseTick
    .next (s.updFrame (fun f => { f with inCourse := s.courseLive }))
  else .next s

/-- WORK_SLOT_BEGIN (R32, R36, R53). -/
def execWorkSlotBegin (s : State) : Out :=
  if s.timeRuns && s.frame.slot == 5 then
    let s := if s.cstate = 2 ∧ s.lastPlan s.course.plan = true then s.set F.TBN_CSTATE_STATE 3 else s
    .next (s.updFrame (fun f => { f with slot := 0 })).openSlot
  else .next s

/-! ## Items (R32, R39, R41) -/

/-- An issuer's earlier items have issued. -/
def State.itemsBefore (s : State) (i : Nat) (x : CourseItem) : Bool :=
  s.progItems.all (fun y => !(decide (y.1 < i) && kindWorks y.2.kind && y.2.issuer == x.issuer) || s.course.issued.contains y.1)

/-- The queue on whose account an item of an issuer runs: its own, or for a cluster's item the queue of the course. -/
def State.issuerQueue (s : State) (x : Issuer) : Nat :=
  match x with
  | .queue q => q
  | .cluster _ => s.course.queue

/-- An item issues. A conversion of a wadding queue under Delayed or EFB ends with nothing written (R107). -/
def State.issueItem (s : State) (i : Nat) (x : CourseItem) : State :=
  let q := s.issuerQueue x.issuer
  let s := s.itemIssued i
  match x.kind with
  | .launch g entry args => s.deliver (g % 1024) ⟨q, none, some i, entry * 8 % 0x40000, args, false⟩
  | .yealm a drift =>
    let die := match x.issuer with | .queue q => queueDie q % 8 | .cluster g => g / 128 % 8
    if a % 64 = 0 ∧ s.memRange a 128 = true then s.ylmReceive die q a none (some i) true drift (some x.batten) false
    else (s.raise die 0x0202 (plAt 16 a + plAt 24 2)).itemEnds i
  | .convert tid src dst =>
    match s.course.prog with
    | none => s.itemEnds i
    | some p => match p.tensors.find? (fun t => t.tid == tid) with
      | some t => match tensorQuant t with
        | some d =>
          if s.queueWadding q ∧ (d.source = 1 ∨ d.efb = 1) then s.itemEnds i
          else (s.convertTensor q t d src dst).itemDone i
        | none => s.itemEnds i
      | none => s.itemEnds i
  | _ => s

/-- COURSE_ITEM_ISSUE: in the work slot, in the issuer's order, items of the planned battens that have begun. -/
def execCourseItemIssue (i : Nat) (s : State) : Out :=
  match s.item? i with
  | some x =>
    if s.frame.slot = 0 ∧ kindWorks x.kind = true ∧ x.batten ≤ s.course.plan ∧ i ∉ s.course.issued ∧ s.itemsBefore i x = true then
      .next (s.issueItem i x)
    else .next s
  | none => .next s

/-! ## The end of the work slot (R39, R41 to R44) -/

/-- The work set of the present planned batten is incomplete. -/
def State.incomplete (s : State) : Bool := s.running && !s.workDone s.course.plan

/-- An overrun is counted, once in a batten, with the issuer that it waits for. -/
def State.noteOverrun (s : State) : State :=
  if s.frame.late.isSome then s
  else
    let s := s.eachDie (fun s d => (s.bump F.TBN_OVRCNT_OVERRUNS 1 d).set F.TBN_STATUS_OVERRUN 1 d)
    (s.ledBump ⟨160, 4⟩ 1).updFrame (fun f => { f with late := some s.lastIssuer })

/-- A strict overrun fault (R44). -/
def State.overrunFault (s : State) : State := (s.eachDie (fun s d => s.set F.TBN_STATUS_OVR_FAULT 1 d)).abortCourse 1

/-- The work slot is over: course programs wait for the next one. -/
def State.endWork (s : State) : State :=
  let s := s.updFrame (fun f => { f with
    slot := 1, deferring := false, decision := none, notDone := [], asked := false, opening := [] })
  s.clusterKeys.foldl (fun s g => if s.runsCourse g then s.set F.CC_STATE_SLOT_WAIT 1 g else s) s

/-- The batten grows by one quantum (R28, R41). -/
def State.growBatten (s : State) : State :=
  let q := s.get F.TBN_OVR_QUANTUM_US * 1000
  let s := s.set F.TBN_NEXT_TICK_NEXT (s.get F.TBN_NEXT_TICK_NEXT + q)
  let s := (s.eachDie (fun s d => s.bump F.TBN_OVRCNT_DEFER_QUANTA 1 d)).ledBump ⟨164, 4⟩ 1
  s.updFrame (fun f => { f with
    deferTb := f.deferTb + q, quanta := f.quanta + 1, deferring := true, decision := none, notDone := [], asked := false })

/-- This module's quantum ends are the master's to decide (R42): it is a follower, not in holdover, of a course in which
its master takes part. -/
def State.awaits (s : State) : Bool :=
  s.running && s.role == 2 && !s.ownMaster &&
  (match s.frame.master, s.course.prog with | some m, some p => p.devices.contains m | _, _ => false)

/-- A follower whose work set is incomplete says so to its master before the quantum end, once (R42). -/
def State.askExtension (s : State) (late : Bool) : State :=
  if late && s.awaits && s.frame.decision.isNone && !s.frame.asked then
    (s.tellMaster 5).updFrame (fun f => { f with asked := true })
  else s

/-- The elastic decision for a quantum end: some true extend, some false proceed; none while a follower waits for the
master's. The master broadcasts its own (R42). -/
def State.elasticChoice (s : State) (late : Bool) : Option Bool × State :=
  if s.awaits then (s.frame.decision, s)
  else if s.role = 1 ∧ s.running = true then
    let ext := late || s.frame.notDone != []
    (some ext, s.tellAll (if ext then 1 else 2) [])
  else (some late, s)

/-- At the limit the overrun becomes a strict fault; otherwise the batten is extended. -/
def State.extendOrFault (s : State) : State :=
  if s.get F.TBN_OVR_MAXDEFER ≤ s.frame.quanta then s.overrunFault.endWork else s.growBatten

/-- WORK_SLOT_END (R41): what TBN_OVR.MODE makes of an incomplete work set. -/
def execWorkSlotEnd (s : State) : Out :=
  if s.timeRuns && s.frame.slot == 0 && !s.frame.deferring then
    let late := s.incomplete
    match s.get F.TBN_OVR_MODE with
    | 0 =>
      let s := (s.askExtension late).advanceTo s.calAt
      let r := (if late then s.noteOverrun else s).elasticChoice late
      match r.1 with
      | none => .next r.2
      | some ext => .next (if ext then r.2.extendOrFault else r.2.endWork)
    | 1 =>
      let s := s.advanceTo s.calAt
      .next (if late then s.noteOverrun.overrunFault.endWork else s.endWork)
    | _ =>
      let s := s.advanceTo s.calAt
      if late then
        let s := s.noteOverrun.eachDie (fun s d => s.set F.TBN_STATUS_CARRY 1 d)
        if s.lastPlan s.course.plan then
          if 255 ≤ s.course.added then .next s.overrunFault.endWork
          else .next ((s.setCourse { s.course with added := s.course.added + 1 }).ledBump ⟨168, 4⟩ 1).endWork
        else .next s.endWork
      else .next s.endWork
  else .next s

/-- QUANTUM_END (R41, R42). -/
def execQuantumEnd (s : State) : Out :=
  if s.timeRuns && s.frame.slot == 0 && s.frame.deferring then
    let late := s.incomplete
    let s := (s.askExtension late).advanceTo s.calAt
    if s.role = 1 ∧ s.get F.TBN_OVR_MAXDEFER ≤ s.frame.quanta ∧ (late || s.frame.notDone != []) = true then
      .next s.overrunFault.endWork
    else
      let r := s.elasticChoice late
      match r.1 with
      | none => .next r.2
      | some ext => .next (if ext then r.2.extendOrFault else r.2.endWork)
  else .next s

/-! ## The ledger slot (R49, R173, R322, R323, R387) -/

/-- Waits at stage queues are accounted up to now (R49). -/
def State.settleStages (s : State) : State :=
  s.clusterKeys.foldl (fun s g =>
    if (s.cl g).sqSince.isSome then
      let w := s.fetchWord g
      s.settleWait g (s.keyOf g w) (bits w 0 8 == 0x62)
    else s) s

/-- The stage-queue totals of the batten go to the course and to the batten's items. -/
def State.stageAccount (s : State) : State :=
  let l := s.course.stages.filter (fun p => p.2.stallUs != 0 || p.2.starveUs != 0)
  let s := l.foldl (fun s p =>
    ((s.ledBump ⟨176, 8⟩ p.2.stallUs).ledBump ⟨184, 8⟩ p.2.starveUs).battenItem
      (leBytes 2 1 ++ leBytes 2 p.1 ++ leBytes 4 p.2.stallUs ++ leBytes 4 p.2.starveUs)) s
  s.setCourse { s.course with stages := s.course.stages.map (fun (p : Nat × StageQ) => (p.1, { p.2 with stallUs := 0, starveUs := 0 })) }

/-- The issuer that was last to complete in a batten that overran (R41): once the work set is complete the one whose
operation completed last, before that the one it waits for; a course that has ended keeps the one it waited for. -/
def State.lateIssuer (s : State) (x : Bool × Nat) : Bool × Nat :=
  if s.running then (if s.workDone s.course.plan then s.frame.lastDone.getD x else s.lastIssuer) else x

/-- Items of overrun and throttle. -/
def State.lateItems (s : State) : State :=
  let s := match s.frame.late.map s.lateIssuer with
    | some x => s.battenItem (leBytes 1 4 ++ leBytes 1 (if x.1 then 1 else 0) ++ leBytes 2 x.2 ++ leBytes 2 s.frame.quanta)
    | none => s
  let us := s.pwr.throttleUs
  if us = 0 then s else s.battenItem (leBytes 4 5 ++ leBytes 4 us)

/-- The batten record (R322). -/
def State.battenRecord (s : State) : State :=
  let size := s.get F.LDG_BATTEN_CFG_SIZE * 0x1_0000
  if s.bit F.LDG_CTRL_EN && (s.frame.inCourse || s.courseLive || s.replay.battenItems != []) && size != 0 then
    let items := s.replay.battenItems.take 254
    let b := padTo 32 (leBytes 8 (s.get F.TBN_BATTEN_BATTEN) ++ leBytes 8 (if s.cstate = 0 then 0 else s.get F.TBN_COURSE_COURSE) ++
      leBytes 4 s.course.plan ++ leBytes 2 s.frame.quanta ++ leBytes 2 items.length ++
      leBytes 2 (s.replay.battenItems.length - items.length)) ++ items.flatten
    let at0 := s.get F.LDG_BHEAD_OFFSET
    let off := if at0 + b.length ≤ size then at0 else 0
    (s.engineWrite 0 (s.get F.LDG_BATTEN_BASE_BASE * 1024 + off) b).set F.LDG_BHEAD_OFFSET ((off + b.length) % size)
  else s

/-- The load record of a shard (Table 7.4). -/
def State.loadRecord (s : State) (table k : Nat) : List Byte :=
  let key := (table * 4096 + k) * 4
  let n (i w : Nat) : List Byte := leBytes w (min (Sparse.get 0 s.tables.load (key + i)) (256 ^ w - 1))
  n 0 4 ++ n 1 4 ++ n 2 8 ++ n 3 8 ++ leBytes 8 (s.get F.TBN_BATTEN_BATTEN)

/-- The load records of the shards that the module holds; the counts of the batten start again. -/
def State.loadRecords (s : State) : State :=
  let s := s.definedTables.foldl (fun s t =>
    match s.tableNow t with
    | none => s
    | some v =>
      let d := tdesc v.1
      ((List.range d.shards).filter (fun k => s.here (sentry v.2 k).row0)).foldl (fun s k =>
        s.engineWrite (ownerDie d.load) (d.load + 32 * k) (s.loadRecord t k)) s) s
  { s with tables := { s.tables with load := s.tables.load.filter (fun x => decide (2 ≤ x.1 % 4)) } }

/-- A coefficient of the energy model; one that is no finite positive number counts as zero. -/
def State.coef (s : State) (d k : Nat) : Rat :=
  match dec32 (BitVec.ofNat 32 (s.rd .pwrCoef d k).toNat) with
  | .fin false m => m
  | _ => 0

/-- Dynamic energy of a queue in this batten, in pJ. -/
def State.dynEnergy (s : State) (q : Nat) : Rat :=
  ((List.range 10).map (fun k => s.coef (queueDie q) k * (Sparse.get 0 s.pwr.act (q * 16 + k) : Nat))).sum

/-- Energy in whole µJ. -/
def microJ (x : Rat) : Nat := (x / 1000000).floor.toNat

/-- A queue takes its energy: its counter, and the course's total and section 4. -/
def State.queueEnergy (s : State) (q uj : Nat) : State :=
  let s := (s.bump F.QP_QCNT_COUNT uj q 4).bumpWrap F.PWR_ENERGY_DIE_UJ uj (queueDie q)
  if s.cstate = 0 ∨ uj = 0 then s
  else (s.ledBump ⟨304, 8⟩ uj).setCourse { s.course with
    energy := Sparse.put 0 s.course.energy q (Sparse.get 0 s.course.energy q + uj) }

/-- The energy of the batten is attributed (R387). -/
def State.energyAccount (s : State) : State :=
  let us := s.get F.TBN_INTERVAL_INTERVAL_US + s.frame.deferTb / 1000
  let qs := ((Sparse.keys s.pwr.act).map (fun k => k / 16)).eraseDups
  let dyn := (qs.map (fun q => (q, s.dynEnergy q))).filter (fun p => p.2 != 0)
  let s := s.eachDie (fun s d =>
    let own := dyn.filter (fun p => queueDie p.1 == d)
    let total := (own.map Prod.snd).sum
    let static := s.coef d 15 * (us : Nat)
    if own = [] then (s.bump F.PWR_IDLE_IDLE_UJ (microJ static) d).bumpWrap F.PWR_ENERGY_DIE_UJ (microJ static) d
    else own.foldl (fun s p => s.queueEnergy p.1 (microJ (p.2 + static * p.2 / total))) s)
  { s with pwr := { s.pwr with act := [] } }

/-- LEDGER_SLOT: the accounts of the batten; with them those of a course that has nothing more to do are complete, and its
record may be written (R49, Table 2.1). -/
def execLedgerSlot (s : State) : Out :=
  if s.timeRuns && s.frame.slot == 3 then
    let s := (s.advanceTo s.ledgerAt).updFrame (fun f => { f with slot := 4 })
    let s := (s.settleStages.stageAccount).settleThrottle
    let s := (s.lateItems.battenRecord).loadRecords
    let s := s.energyAccount
    let s := { s with
      pwr := { s.pwr with refit := s.pwr.refit + 1, throttleUs := 0 }
      replay := { s.replay with battenItems := [] } }
    let last := (s.cstate == 3 && s.course.captured) || (s.cstate == 4 && s.drained)
    let s := if last then s.setCourse { s.course with accounted := true } else s
    .next s.retryExports
  else .next s

end Sys2Proof.Machine
end

