-- ==== Sys2Proof/Machine/Domain.lean ====
section
/-! DEFINITION. The sync domain: sync messages, time measurement and lock (R33 to R35, R286), domain control (R42, R287),
and the fold of a course (R50, R224). -/
namespace Sys2Proof.Machine

/-! ## Sync (R34, R35, R286) -/

/-- A sync message shows another batten count (R35). -/
def State.slip (s : State) : State :=
  let s := s.updFrame (fun f => { f with resync := true })
  if s.courseLive then (s.abortCourse 2).eachDie (fun s d => s.set F.TBN_STATUS_SLIP 1 d)
  else if s.cstate = 0 then (s.set F.TBN_SYNC_LOCKED 0).updFrame (fun f => { f with good := 0 })
  else s

/-- SYNC: a follower takes the settings that its master distributes, and its count where it has slipped. -/
def execSync (h : FabHdr) (batten time : Nat) (interval slots ovr stagger : Word) (s : State) : Out :=
  .next (s.takes h (fun s =>
    if s.timeRuns && s.role == 2 then
      let s := s.set F.TBN_SYNC_MISSED 0
      let s := s.updFrame (fun f => { f with master := some h.src })
      let s := (((s.wr .tbnInterval 0 0 interval).wr .tbnSlots 0 0 slots).wr .tbnOvr 0 0 ovr).wr .tbnStagger 0 0 stagger
      let next := time + fget 0 15 interval * 1000
      if s.frame.resync = true ∧ s.cstate = 0 then
        let s := ((s.set F.TBN_BATTEN_BATTEN batten).set F.TBN_TIME_TIME time).set F.TBN_NEXT_TICK_NEXT next
        (s.set F.TBN_SYNC_LOCKED 0).updFrame (fun f => { f with resync := false, good := 0 })
      else if batten = s.get F.TBN_BATTEN_BATTEN then s.set F.TBN_NEXT_TICK_NEXT (next + s.frame.deferTb)
      else s.slip
    else s))

/-- SYNC_MISSED: the fourth in a row begins holdover. -/
def execSyncMissed (s : State) : Out :=
  if s.timeRuns && s.role == 2 then
    let s := s.bump F.TBN_SYNC_MISSED 1
    .next (if s.get F.TBN_SYNC_MISSED = 4 then s.enterHoldover else s)
  else .next s

/-- DELAY_REQ: the master answers with its two port time stamps, in quarters of a tb (`held` lies between the arrival of the
request and the answer), and keeps the largest round trip (R286). -/
def execDelayReq (h : FabHdr) (rtt held : Nat) (s : State) : Out :=
  if s.timeRuns && s.role == 1 then
    .next (s.serve h 0xA1 (fun s =>
      let s := s.updFrame (fun f => { f with
        followers := if f.followers.contains h.src then f.followers else f.followers ++ [h.src] })
      let s := s.updFab (fun f => { f with rttNow := max f.rttNow rtt })
      ⟨0, s, false, leBytes 8 (4 * s.now) ++ leBytes 8 (4 * s.now + held), false⟩))
  else .next (s.takes h (fun s => s))

/-- The time base of a follower is brought to its master's by a measured offset in quarters of a tb (R33, R34). -/
def State.discipline (s : State) (off : Int) : State :=
  if s.frame.resync then s else s.set F.TBN_TIME_TIME (((s.get F.TBN_TIME_TIME : Nat) : Int) + off / 4).toNat

/-- DELAY_RSP: offset from four time stamps in quarters of a tb, the follower's own and the master's (R286); 16 battens within ±40 ns lock the follower, an offset
beyond ±50 ns unlocks it (R34). -/
def execDelayRsp (h : RspHdr) (status : Nat) (own peer : Stamps) (s : State) : Out :=
  .next (s.answer h.src h.tag status [0x21] (fun _ s =>
    if s.timeRuns && s.role == 2 then
      let off : Int := (((peer.first : Int) - own.first) - ((own.last : Int) - peer.last)) / 2
      let rtt : Int := (((own.last : Int) - own.first) - ((peer.last : Int) - peer.first)) / 4
      let s := (s.set F.TBN_OFFSET_OFFSET (off % 2 ^ 32).toNat).set F.JFL_SYNC_RTT_RTT_NS rtt.toNat
      let n := if -160 ≤ off ∧ off ≤ 160 then min 16 (s.frame.good + 1) else 0
      let s := (s.discipline off).updFrame (fun f => { f with good := n })
      let s := if -200 ≤ off ∧ off ≤ 200 then s else s.set F.TBN_SYNC_LOCKED 0
      if n = 16 ∧ s.frame.resync = false then (s.set F.TBN_SYNC_LOCKED 1).set F.TBN_SYNC_HOLDOVER 0 else s
    else s))

/-! ## Domain control (R42, R287) -/

/-- Domain control about a course arrives, is acknowledged, and acts on that course when it is the one here. -/
def State.control (s : State) (h : FabHdr) (course : Nat) (f : State → State) : State :=
  s.serve h 0x82 (fun s => ⟨0, if s.courseLive && s.get F.TBN_COURSE_COURSE == course then f s else s, false, [], false⟩)

/-- NOT_DONE: a follower's work set is incomplete at this quantum end. -/
def execNotDone (h : FabHdr) (course : Nat) (s : State) : Out :=
  .next (s.control h course (fun s =>
    if s.role = 1 then s.updFrame (fun f => { f with notDone := if f.notDone.contains h.src then f.notDone else f.notDone ++ [h.src] })
    else s))

/-- EXTEND and PROCEED: the master's decision for the next quantum end; a follower in holdover decides alone. -/
def State.takeDecision (s : State) (ext : Bool) : State :=
  if s.role = 2 ∧ s.ownMaster = false then s.updFrame (fun f => { f with decision := some ext }) else s

def execExtend (h : FabHdr) (course : Nat) (s : State) : Out := .next (s.control h course (fun s => s.takeDecision true))
def execProceed (h : FabHdr) (course : Nat) (s : State) : Out := .next (s.control h course (fun s => s.takeDecision false))

/-- ABORT: another participant has aborted the course. -/
def execAbortCourseMsg (h : FabHdr) (course cause : Nat) (s : State) : Out := .next (s.control h course (fun s => s.abortHere cause))

/-- A participant's adds are acknowledged; with the last the master tells everyone (R287). -/
def State.addsDoneFrom (s : State) (dev : Nat) : State :=
  let s := s.updFrame (fun f => { f with addsDone := if f.addsDone.contains dev then f.addsDone else f.addsDone ++ [dev] })
  let all := match s.course.prog with | some p => p.devices.all (fun d => s.frame.addsDone.contains d) | none => false
  if s.role = 1 ∧ all = true ∧ s.frame.allAdds = false then
    (s.tellAll 4 []).updFrame (fun f => { f with allAdds := true })
  else s

/-- ADDS_DONE, at the master. -/
def execAddsDone (h : FabHdr) (course : Nat) (s : State) : Out :=
  .next (s.control h course (fun s => if s.role = 1 then s.addsDoneFrom h.src else s))

/-- ALL_ADDS_DONE. -/
def execAllAddsDone (h : FabHdr) (course : Nat) (s : State) : Out :=
  .next (s.control h course (fun s => s.updFrame (fun f => { f with allAdds := true })))

/-! ## The fold (R50, R224) -/

/-- Every item of the course but those of the fold, every chain and every add of this module has completed. -/
def State.foldReady (s : State) : Bool :=
  s.cstate == 3 && s.course.fold == 0 && s.frame.slot == 0 &&
  s.progItems.all (fun x => !kindWorks x.2.kind || s.course.done.contains x.1) &&
  s.clusterKeys.all (fun g =>
    let c := s.cl g
    !(c.waiting ++ c.run.toList).any (fun l => !l.wadding && s.launchBound l)) &&
  (s.openCommands s.course.plan).isEmpty && s.drained

/-- The course has this module as its only participant: there is no exchange about adds. -/
def State.alone (s : State) : Bool :=
  s.role == 0 || (match s.course.prog with | some p => p.devices.all (fun d => d == s.devnum) | none => true)

/-- Stage queues that are not empty when the fold begins (R50). -/
def State.stageResidue (s : State) : State :=
  match s.course.stages.filter (fun p => !p.2.entries.isEmpty) with
  | [] => s
  | x :: rest =>
    let s := (x :: rest).foldl (fun s p =>
      (s.setStageQ p.1 { p.2 with entries := [] }).set F.TBN_STATUS_STQ_NONEMPTY_AT_END 1 (p.1 / 512)) s
    (s.raise (x.1 / 512) 0x0302 (plAt 16 (x.1 % 512) + plAt 24 (s.get F.TBN_COURSE_COURSE))).cause 4

/-- FOLD_BEGIN: when everything before the fold has completed here, this module says so to the domain (R287); when that
holds everywhere, the fold begins. -/
def execFoldBegin (s : State) : Out :=
  if s.foldReady then
    if s.alone || s.frame.allAdds then
      let s := s.setCourse { s.course with fold := 1 }
      .next ((List.range 24).foldl State.syncFolding s.stageResidue)
    else if s.role = 1 then .next (s.addsDoneFrom s.devnum)
    else if s.frame.addsDone.contains s.devnum then .next s
    else .next ((s.addsDoneFrom s.devnum).tellMaster 6)
  else .next s

/-- FOLD_END (R97, R105, R432): every unit has finished its fold; also that of a course aborted meanwhile. -/
def execFoldEnd (s : State) : Out :=
  if s.course.fold = 1 ∧ (List.range 24).all s.unitFolded = true then
    let s := s.appendHistory.writeRanges.stagingFolded
    .next ((List.range 24).foldl State.syncFolding (s.setCourse { s.course with fold := 2 }))
  else .next s

end Sys2Proof.Machine
end

