-- ==== Sys2Proof/Machine/Course.lean ====
section
/-! DEFINITION. The checks of a course program (R352, Table 13.10) and the course commands (R349). -/
namespace Sys2Proof.Machine

/-! ## Checks 1 and 2: layout, course number, tensor table -/

/-- An issuer is a queue or a global cluster. -/
def issuerOk (x : Issuer) : Bool :=
  match x with
  | .queue q => decide (q < 16384)
  | .cluster g => decide (g < 1024)

/-- What an item names lies within the program: its issuer, its planned batten, a cluster, tables. -/
def itemOk (p : CourseProgram) (x : CourseItem) : Bool :=
  issuerOk x.issuer && decide (x.batten < p.planned) &&
  (match x.kind with
   | .launch g e a => decide (g < 1024) && decide (e * 8 < 0x40000) && a % 64 == 0 && decide (a < 2 ^ 43)
   | .yealm a d => a % 64 == 0 && decide (a < 2 ^ 43) && decide (d < 65536)
   | .convert t a b => p.tensors.any (fun x => x.tid == t && x.quant.isSome) && decide (a < 2 ^ 43) && decide (b < 2 ^ 43)
   | _ => true)

/-- DETAIL 1: format, course number (R38), start batten (R37). -/
def State.checkFormat (s : State) (p : CourseProgram) : Bool :=
  decide (p.number < 2 ^ 64) && p.number % 2 ^ 32 != 0 && decide (1 ≤ p.planned) && decide (p.planned < 65536) &&
  decide (p.startBatten < 2 ^ 64) && (p.startBatten != 0 || s.role == 0) && decide (p.gradMode ≤ 1) &&
  p.counterBase % 32 == 0 && decide (p.counterBase < 2 ^ 43) && p.devices.all (fun d => decide (d < 2048)) &&
  p.queues.all (fun q => decide (q < 16384)) && p.items.all (itemOk p) &&
  p.barriers.all (fun b => decide (b.id < 256) && b.members.all (fun g => decide (g < 1024)))

/-- A tensor's format. -/
def tensorFmt (t : TensorEntry) : Option Fmt := fmtOfCode t.fmt

/-- A tensor id that a field accepts, id 0xFFFFFF with it (R84). -/
def tidOk (t : Nat) : Bool := decide (t < 0xFFF000) || t == 0xFFFFFF

/-- The ids that a binding names: its TID and the STID of each slot in use (R84). -/
def bindingTids (b : List Byte) : Bool :=
  tidOk (bindTid b) && (List.range 4).all (fun i => (slotDesc b i).kind == 0 || tidOk (slotDesc b i).tid)

/-- The dense fold items of a program. -/
def denseItems (p : CourseProgram) : List DenseItem :=
  p.items.filterMap (fun x => match x.kind with | .denseFold d => some d | _ => none)

/-- DETAIL 2: reserved ids (R84), the residual stream (R106), GRAD_MODE (R104). -/
def checkTensors (p : CourseProgram) : Bool :=
  (denseItems p).all (fun d => bindingTids d.binding) &&
  p.tensors.all (fun t =>
    decide (t.tid < 0xFFF000) && decide (t.layer < 65536) && (tensorFmt t).isSome && decide (t.shape.length ≤ 8) &&
    decide (elemsOf t.shape ≤ 2 ^ 40) &&
    (t.role != .residualStream || tensorFmt t == some .f32) &&
    (p.gradMode == 0 || t.role != .gradient ||
      (tensorFmt t == some .f32 && (match t.quant with
        | some b => fmtOfCode (quantDesc b).fmt == some .f32 && (quantDesc b).efb == 0
        | none => true))))

/-! ## Check 3: quantisation descriptors (R60, R86, R95, R99, R100, R102, R103, R107) -/

/-- A descriptor is laid out as Table 4.1, has the format of its tensor, and keeps the rows of Table 4.4 about one tensor.
EFB is accepted only with F8a and F8b (R102), also where the scale fields are ignored. -/
def quantOk (t : TensorEntry) (b : List Byte) : Bool :=
  let raw := quantDesc b
  match fmtOfCode raw.fmt with
  | none => false
  | some f =>
    b.length == 32 && raw.fmt == t.fmt && (raw.efb == 0 || ((f == .f8a || f == .f8b) && raw.gran != 2 && raw.smooth == 0)) &&
    (let q := heldQuant raw
    q.tid == t.tid && q.rsv == 0 && decide (q.gran ≤ 2) &&
    (decide (q.axis < t.shape.length) || (q.gran == 0 && q.rotate == 0 && q.smooth == 0)) &&
    q.scaleAddr % 64 == 0 && decide (q.scaleAddr < 2 ^ 43) && decide (q.histAddr < 2 ^ 43) && decide (q.auxAddr < 2 ^ 43) &&
    (if q.source = 1 then q.gran == 0 && (f == .f8a || f == .f8b || f == .i8) && q.histAddr % 128 == 0 else q.histAddr == 0) &&
    (if q.smooth = 1 ∨ q.efb = 1 then q.auxAddr % 64 == 0 else q.auxAddr == 0) &&
    (q.rotate == 0 || axisLen t.shape q.axis % 64 == 0))

/-- A tensor's format and role agree: U8 is for activations only (R60). -/
def roleOk (t : TensorEntry) : Bool := tensorFmt t != some .u8 || t.role == .activation

/-- The descriptor of a tensor of the program, with the fields that it holds. -/
def quantOf (p : CourseProgram) (tid : Nat) : Option (TensorEntry × QuantDesc) :=
  match p.tensors.find? (fun t => t.tid == tid) with
  | some t => (tensorQuant t).map (fun q => (t, q))
  | none => none

/-- The operands of a product are rotated and smoothed alike, a rotated one along the reduced dimension (R99, R100). -/
def productOk (p : CourseProgram) (m : ProductDecl) : Bool :=
  let rot (x : Option (TensorEntry × QuantDesc)) : Nat := match x with | some y => y.2.rotate | none => 0
  let smooth (x : Option (TensorEntry × QuantDesc)) : Nat × Nat :=
    match x with | some y => if y.2.smooth = 1 then (1, y.2.auxAddr) else (0, 0) | none => (0, 0)
  let along (x : Option (TensorEntry × QuantDesc)) (ax : Nat) : Bool :=
    match x with | some y => y.2.axis == ax && axisLen y.1.shape ax % 64 == 0 | none => true
  let a := quantOf p m.a
  let b := quantOf p m.b
  rot a == rot b && smooth a == smooth b && (rot a == 0 || (along a m.axisA && along b m.axisB))

/-- DETAIL 3. -/
def checkQuant (p : CourseProgram) : Bool :=
  p.tensors.all (fun t => roleOk t && (match t.quant with | some q => quantOk t q | none => true)) &&
  p.products.all (productOk p) &&
  !selfOverlap ((delayedTensors p).map (fun x => (x.2.histAddr, 128))) &&
  p.tensors.all (fun t => match tensorQuant t with
    | some q => q.efb == 0 || (p.items.filter (fun i => match i.kind with | .convert k _ _ => k == t.tid | _ => false)).length == 1
    | none => true)

/-! ## Checks 4 to 6: stage queues, chains, lock ranges -/

/-- DETAIL 4 (R47, Table 2.4). -/
def checkStages (p : CourseProgram) : Bool :=
  p.stages.all (fun d =>
    decide (d.die < 8) && decide (d.k < 512) && issuerOk d.producer &&
    (match d.consumer with | .local i => issuerOk i | .remote a => decide (a < 2 ^ 54)) &&
    d.buffer % 64 == 0 && decide (d.buffer < 2 ^ 54) && decide (1 ≤ d.depth) && decide (d.depth ≤ 256) &&
    (List.range 15).any (fun k => d.size == 64 * 2 ^ k)) &&
  (p.stages.map (fun d => d.die * 512 + d.k)).eraseDups.length == p.stages.length

/-- DETAIL 5 (R126, Table 5.3). -/
def checkChains (p : CourseProgram) : Bool :=
  p.chains.all (fun c =>
    decide (c.id < 65536) && decide (2 ≤ c.len) && decide (c.len ≤ 4096) && decide (c.comp ≤ 1) && decide (1 ≤ c.rows) &&
    decide (c.rows ≤ 32) && c.members.length == c.len &&
    c.members.all (fun m => decide (m.dev < 2048) && decide (m.cluster < 1024) && decide (m.tile < 32)) &&
    c.dest % 64 == 0 && decide (c.dest < 2 ^ 54) && tidOk c.destTid) &&
  (p.chains.map (fun c => c.id)).eraseDups.length == p.chains.length

/-- The inactive banks of the snapshot tables, stored rows and residues. -/
def State.inactiveBanks (s : State) : List (Nat × Nat) :=
  s.definedTables.flatMap (fun t =>
    match s.tableNow t with
    | none => []
    | some v =>
      let d := tdesc v.1
      if d.replace ≠ 1 then []
      else (List.range d.shards).flatMap (fun k =>
        let e := sentry v.2 k
        let n := d.shardRows v.2 k
        let row := if e.bank = 1 then e.row0 else e.row1
        let res := if e.bank = 1 then e.res0 else e.res1
        (((row, n * d.slot) :: (if d.split then [(res, n * d.resSlot)] else [])).filter (fun r => s.here r.1)).map
          (fun r => (faLocal r.1, r.2))))

/-- DETAIL 6 (R183). -/
def State.checkLocks (s : State) (p : CourseProgram) : Bool :=
  let shut := (List.range 8).map s.eavesRange ++ s.unitRegions ++ s.inactiveBanks ++
    (p.stages.filter (fun d => !s.stageRemote d)).map (fun d => (faLocal d.buffer, d.size * d.depth))
  decide (p.lockRanges.length ≤ 1024) &&
  p.lockRanges.all (fun r => r.1 % 64 == 0 && r.2 % 64 == 0 && decide (r.1 + r.2 ≤ 2 ^ 43) && !hitsAny r shut)

/-! ## Check 7: units, fold items, learning rates (R105, R221, R226) -/

/-- The memory of a unit holds a range. -/
def State.inUnit (s : State) (u a n : Nat) : Bool :=
  inOneStack a n && (stackOf a).isSome && unitOf a == u && s.memRange a n

/-- The trained tables of the course with descriptor and list. -/
def State.courseTables (s : State) (p : CourseProgram) : List (Nat × TDesc × List Byte) :=
  p.trained.filterMap (fun t => (s.tableNow t).map (fun v => (t, tdesc v.1, v.2)))

/-- Update units that serve a shard of a table, on this module. -/
def State.servingUnits (s : State) (d : TDesc) (l : List Byte) : List Nat :=
  ((List.range d.shards).filterMap (fun k =>
    let e := sentry l k
    if s.here e.row0 then some (unitOf (faLocal e.row0)) else none)).eraseDups

/-- The state-slot extents of the dense fold items of a program. -/
def denseExtents (p : CourseProgram) : List (Nat × Nat) :=
  (denseItems p).flatMap (fun d => slotExtents d.binding d.region d.cols d.rows d.cols)

/-- The regions of a unit that serves tables of up to `elems` elements (R221), clear of the ranges `dense` too. -/
def State.unitReady (s : State) (u elems : Nat) (dense : List (Nat × Nat)) : Bool :=
  let ds := s.deltaRange u
  let sp := s.spillRange u
  let shut := s.allShardRanges none ++ (List.range 8).map s.eavesRange ++
    (List.range 8).map (fun d => (s.stageAddr d 0, 64 * s.eavesHalf d)) ++ dense
  s.get F.UPD_DELTA_CFG_ENTRIES u != 0 && s.get F.UPD_SPILL_CFG_RECORDS u != 0 &&
  decide (1 + ceilDiv elems 4 ≤ s.get F.UPD_DELTA_CFG_ENTRY_LINES u) &&
  [ds, sp].all (fun r => s.inUnit u r.1 r.2 && !hitsAny r shut && !s.rangeEnabled r.1 r.2)

/-- A dense fold item keeps Table 9.2, lies in one unit's memory and has a binding in order (R226, R231). -/
def State.denseOk (s : State) (d : DenseItem) : Bool :=
  let n := d.rows * d.cols * 4
  let u := unitOf d.region
  d.region % 64 == 0 && d.grad % 64 == 0 && decide (1 ≤ d.rows) && decide (d.rows ≤ 2 ^ 24) && decide (4 ≤ d.cols) &&
  decide (d.cols ≤ 16384) && d.binding.length == 64 && s.bindingOk d.binding true && s.inUnit u d.region n &&
  s.inUnit u d.grad n && (slotExtents d.binding d.region d.cols d.rows d.cols).all (fun r => s.inUnit u r.1 r.2)

/-- DETAIL 7. -/
def State.checkFold (s : State) (p : CourseProgram) : Bool :=
  let ts := s.courseTables p
  let wide (u : Nat) : Nat := ((ts.filter (fun x => (s.servingUnits x.2.1 x.2.2).contains u)).map (fun x => x.2.1.elems)).foldl max 0
  let units := (ts.flatMap (fun x => s.servingUnits x.2.1 x.2.2)).eraseDups
  let layers := ts.map (fun x => bindLayer (s.bindingOf x.1)) ++ (denseItems p).map (fun d => bindLayer d.binding)
  units.all (fun u => s.unitReady u (wide u) (denseExtents p)) && (denseItems p).all s.denseOk &&
  p.layers.all (fun l => !(dec32 l.lr).nonfinite && decide (l.record < 2 ^ 43)) &&
  layers.all (fun l => p.layers.any (fun e => e.layer == l))

/-- DETAIL 8 (R300). -/
def State.checkRepro (s : State) (p : CourseProgram) : Bool :=
  !p.repro || (s.bit F.LDG_CTRL_EN && (List.range 96).all (fun w => s.rd .ldgDinv 0 w == 0#64))

/-- The first check that a course program fails, in the order of Table 13.10. -/
def State.courseCheck (s : State) (p : CourseProgram) : Option Nat :=
  if s.checkFormat p = false then some 1
  else if checkTensors p = false then some 2
  else if checkQuant p = false then some 3
  else if checkStages p = false then some 4
  else if checkChains p = false then some 5
  else if s.checkLocks p = false then some 6
  else if s.checkFold p = false then some 7
  else if s.checkRepro p = false then some 8
  else none

/-! ## The course commands (R349) -/

/-- The COURSE_WAITs that wait for the next course attach to it; those that name another number end. -/
def State.attachWaiters (s : State) (number : Nat) : State :=
  (s.queues.inflight.filter (fun c => c.op == 0x0101 && c.running && c.aux == [])).foldl (fun s c =>
    if c.par 16 8 = number then s.cmdWaits c [1] else s.fail c stConflict 0) s

/-- A course program is accepted: the course is ARMED. -/
def State.armCourse (s : State) (p : CourseProgram) (q start : Nat) (digest : Word) : State :=
  let s := s.setCourse { Course.init with prog := some p, start := start, queue := q }
  let s := (s.ledSet ⟨64, 8⟩ digest.toNat).updFrame (fun f => { f with inCourse := true })
  let s := ((s.set F.TBN_COURSE_COURSE p.number).set F.TBN_CSTATE_BIDX 0).set F.TBN_CSTATE_PLANNED p.planned
  (s.set F.TBN_CSTATE_STATE 1).attachWaiters p.number

/-- COURSE_LOAD (R34, R37, R307, R349, R352). `prog` is the image's content, none where its layout is wrong (assumption
log 2). -/
def execCourseLoad (q : Fin 16384) (seq : Nat) (prog : Option CourseProgram) (s : State) : Out :=
  .next (s.runCmd 0x0100 q seq (fun c s =>
    let n := c.par 24 4
    s.needA c 16 (fun a => s.needMem c a n (
      if s.cstate ≠ 0 then s.fail c stNotIdle 0
      else if s.role = 2 ∧ s.get F.TBN_SYNC_LOCKED = 0 then s.fail c stNotLocked 0
      else
        let r := s.readMem .engine a n
        let s := r.st
        match (if n = 0 then none else prog) with
        | none => s.fail c stCourseRejected 1
        | some p =>
          match s.courseCheck p with
          | some d => s.fail c stCourseRejected d
          | none =>
            let now := s.get F.TBN_BATTEN_BATTEN
            if p.startBatten ≠ 0 ∧ p.startBatten ≤ now then s.fail c stStartPassed 0
            else
              let start := if p.startBatten = 0 then now + 1 else p.startBatten
              (s.armCourse p c.q start (listDigest r.bytes)).succeed c start))))

/-- COURSE_WAIT (R349). -/
def execCourseWait (q : Fin 16384) (seq : Nat) (s : State) : Out :=
  .next (s.runCmd 0x0101 q seq (fun c s =>
    s.cmdWaits c (if s.cstate ≠ 0 ∧ s.get F.TBN_COURSE_COURSE = c.par 16 8 then [1] else [])))

/-- ABORT_COURSE (R349, Table 12.5). -/
def execAbortCourse (q : Fin 16384) (seq : Nat) (s : State) : Out :=
  .next (s.runCmd 0x0003 q seq (fun c s =>
    if (s.cstate = 1 ∨ s.cstate = 2) ∧ s.get F.TBN_COURSE_COURSE = c.par 16 8 then
      (s.cmdWaits c []).abortCourse (if s.cstate = 1 ∧ s.replay.held = true then 10 else 3)
    else s.succeed c 0))

end Sys2Proof.Machine
end

