-- ==== Sys2Proof/Machine/Fabric.lean ====
section
/-! DEFINITION. Fabric transactions at their target and at their source (R274 to R281), and FABRIC_COPY. -/
namespace Sys2Proof.Machine

/-! ## Requests served (R276 to R280) -/

/-- A READ or STORE of `n` bytes is well formed: 1 to 4,096 bytes within 4 KiB of the local space (R276). -/
def fabricSpan (addr n : Nat) : Bool :=
  decide (1 ≤ n) && decide (addr % 4096 + n ≤ 4096) && decide (addr + n ≤ 2 ^ 43)

/-- READ (R276). -/
def execRead (h : FabHdr) (addr len : Nat) (s : State) : Out :=
  .next (s.serve h 0x81 (fun s =>
    if fabricSpan addr len then
      let r := s.busRead (.remote h.src h.course) addr len
      if r.miss then ⟨1, r.st, false, [], false⟩ else ⟨0, r.st, r.unc, r.bytes, false⟩
    else ⟨5, s, false, [], false⟩))

/-- The runs of bytes that a byte mask enables, as (offset, bytes). -/
def maskRuns : Nat → List (Byte × Bool) → List (Nat × List Byte)
  | _, [] => []
  | o, (b, true) :: rest =>
    match maskRuns (o + 1) rest with
    | (o', bs) :: more => if o' = o + 1 then (o, b :: bs) :: more else (o, [b]) :: (o', bs) :: more
    | [] => [(o, [b])]
  | o, (_, false) :: rest => maskRuns (o + 1) rest

/-- The status with which a remote write of a range is refused, before anything is written (R279, R280); the copy of a move
is no refused write (R184). -/
def State.remoteStop (s : State) (h : FabHdr) (addr n : Nat) : Option Nat :=
  match locOf addr with
  | .window _ _ => if remoteShut addr n then some 1 else none
  | _ =>
    if s.memRange addr n then
      match s.writeStop (s.storeWriter h.src h.course addr n) h.wadding addr n with
      | some .wadding => some 3
      | some .locked => some 2
      | none => none
    else some 1

/-- Bytes of an entry of a stage queue have arrived from the module of its producer (R48). -/
def State.stageStored (s : State) (src addr n : Nat) : State :=
  match s.course.prog with
  | none => s
  | some p =>
    match p.stages.find? (fun d => !s.stageRemote d && decide (faLocal d.buffer ≤ addr) &&
        decide (addr < faLocal d.buffer + d.size * d.depth)) with
    | none => s
    | some d =>
      if s.courseRuns then
        let key := d.die * 512 + d.k
        let x := s.stageQ key
        let slot := (addr - faLocal d.buffer) / d.size
        let add (e : StageEntry) : StageEntry := { e with got := e.got + n, ready := decide (d.size ≤ e.got + n) }
        if x.entries.any (fun e => e.slot == slot && e.src == some src && !e.ready) then
          s.setStageQ key { x with entries := x.entries.map (fun e =>
            if e.slot = slot ∧ e.src = some src ∧ e.ready = false then add e else e) }
        else if slot = x.next then
          s.setStageQ key { x with entries := x.entries ++ [add ⟨slot, 0, false, false, some src⟩], next := (slot + 1) % d.depth }
        else s
      else s

/-- Bytes of a store wait for audits (R161): they carry the request that their effect answers. -/
def State.holdAck (s : State) (before : State) (k : Nat × Nat × Nat) : State :=
  { s with clusters := s.clusters.map (fun (p : Nat × Cluster) =>
      let n := (before.cl p.1).held.length
      (p.1, { p.2 with held := p.2.held.take n ++ (p.2.held.drop n).map (fun h => (h.1, h.2.1, some k)) })) }

/-- STORE (R276): the bytes that the mask enables. It is answered when all of them have taken effect. -/
def execStore (h : FabHdr) (addr : Nat) (data : List (Byte × Bool)) (s : State) : Out :=
  .next (s.serve h 0x82 (fun s =>
    let n := data.length
    if fabricSpan addr n then
      match s.remoteStop h addr n with
      | some st => ⟨st, if st = 1 then s.missEvent (.remote h.src h.course) addr else s, false, [], false⟩
      | none =>
        let k := (h.src, h.epoch, h.tag)
        let t := ((maskRuns 0 data).foldl (fun s r =>
          match s.busWrite (s.storeWriter h.src h.course addr n) h.wadding (addr + r.1) r.2 with
          | .done t | .miss t | .stopped _ t | .waits t => t) s).holdAck s k
        ⟨0, t.stageStored h.src addr n, false, [], t.answerDue k⟩
    else ⟨5, s, false, [], false⟩))

/-- ATOMIC_W96 (R277): 1 to 64 sums are added to containers; SAT stays. -/
def execAtomicW96 (h : FabHdr) (addr : Nat) (accs : List Nat) (s : State) : Out :=
  .next (s.serve h 0x82 (fun s =>
    let n := 16 * accs.length
    if 1 ≤ accs.length ∧ accs.length ≤ 64 ∧ addr % 16 = 0 ∧ addr + n ≤ 2 ^ 43 then
      if !s.memRange addr n then ⟨1, s.missEvent (.remote h.src h.course) addr, false, [], false⟩
      else
        match s.remoteStop h addr n with
        | some st => ⟨st, s, false, [], false⟩
        | none =>
          let s := s.noteWriter (.remote h.src h.course) addr n
          let s := accs.zipIdx.foldl (fun s p =>
            let a := addr + 16 * p.2
            let r := s.readMem .remote a 16
            r.st.writeMem a (leBytes 13 ((fieldLe r.bytes 0 13 + p.1) % 2 ^ 104) ++ r.bytes.drop 13)) s
          ⟨0, s, false, [], false⟩
    else ⟨5, s, false, [], false⟩))

/-- The unit of this module to which a row add is addressed: the one that owns the row, or the one that a move has left
(R177). -/
def State.addUnit (s : State) (table row : Nat) : Nat :=
  match s.tableNow table with
  | none => 0
  | some v =>
    let p := rowPlace (tdesc v.1) v.2 row
    if s.here p.entry.row0 then unitOf (faLocal p.entry.row0)
    else match s.forwarding table p.shard with | some m => m.fromUnit | none => 0

/-- The status with which a row add is refused before its unit sees it: one that does not carry ELEMS sums is malformed
(R279), and none is accepted from wadding (R188, R216), which may not write a digest-enabled region or a locked range
(R280). -/
def State.rowAddStop (s : State) (h : FabHdr) (table row n : Nat) : Option Nat :=
  match s.tableNow table with
  | none => if h.wadding then some 2 else none
  | some v =>
    let t := tdesc v.1
    if n ≠ t.elems then some 5
    else if h.wadding then
      let a := (rowPlace t v.2 row).row t
      some (if s.here a && (s.writeStop (.remote h.src h.course) true (faLocal a) t.payload).isSome then 3 else 2)
    else none

/-- ROW_ADD (R277): applied under R216 to R220; forwarded when its shard has left (R177). -/
def execRowAdd (h : FabHdr) (table row count : Nat) (accs : List Nat) (s : State) : Out :=
  .next (s.serve h 0x82 (fun s =>
    match s.rowAddStop h table row accs.length with
    | some st => ⟨st, s, false, [], false⟩
    | none =>
      let r := s.applyAdd (s.addUnit table row) table row accs count (if s.cstate = 0 then none else some s.course.queue)
      match r.1 with
      | .ok => ⟨0, r.2, false, [], false⟩
      | .refused | .full => ⟨2, r.2, false, [], false⟩
      | .away dev =>
        ⟨0, r.2.ask 0 dev 0x04 (table * 64) 0 (rowAddBytes table row count accs) (.forward h.src h.epoch h.tag) h.wadding,
         false, [], true⟩))

/-- YEALM_REQ (R278): payloads of stored rows as the requester's planned batten sees them, then the shards touched. -/
def execYealmReq (h : FabHdr) (table : Nat) (rows : List Nat) (s : State) : Out :=
  .next (s.serve h 0x85 (fun s =>
    if rows.length = 0 ∨ 256 < rows.length then ⟨5, s, false, [], false⟩
    else
      let plan := if s.running && h.course == s.courseLow then some h.pbatten else none
      match s.tableAt plan table with
      | none => ⟨7, s, false, [], false⟩
      | some v =>
        let t := tdesc v.1
        let ps := rows.map (fun r => (r, rowPlace t v.2 r))
        if ps.any (fun p => decide (t.rows ≤ p.1) || !s.here (p.2.row t)) then ⟨6, s, false, [], false⟩
        else if ps.any (fun p => !s.memRange (faLocal (p.2.row t)) t.payload) then
          ⟨1, s.missEvent (.remote h.src h.course) (faLocal ((ps.headD (0, rowPlace t v.2 0)).2.row t)), false, [], false⟩
        else
          let out := ps.foldl (fun (x : List Byte × Bool × State) p =>
            let r := x.2.2.readMem .remote (faLocal (p.2.row t)) t.payload
            (x.1 ++ padTo (ceilDiv t.payload 8 * 8) r.bytes, x.2.1 || r.unc, r.st.shardLoad table p.2.shard 0 1)) ([], false, s)
          let shards := ((ps.map (fun p => p.2.shard)).eraseDups).flatMap (fun k =>
            let e := sentry v.2 k
            leBytes 2 k ++ leBytes 4 e.version ++ leBytes 2 e.bank)
          ⟨0, out.2.2, out.2.1, out.1 ++ shards, false⟩))

/-! ## Responses -/

/-- A FABRIC_COPY with no request outstanding is complete. -/
def State.copySettle (s : State) (q seq : Nat) : State :=
  if s.fab.reqs.any (fun r => match r.owner with
    | .copyRead a b _ | .copyStore a b _ _ => a == q && b == seq
    | _ => false) then s
  else s.withWaiting (some (q, seq)) (fun c s => s.succeed c (c.par 32 8))

/-- The destination of a FABRIC_COPY on this module is a busy accumulator tile: the state in which its bytes wait for
their turn (R131). -/
def State.copyWaits (s : State) (q seq off : Nat) (bs : List Byte) : Option State :=
  match s.cmd? q seq with
  | none => none
  | some c =>
    let fa := c.par 24 8 + off
    if s.here fa then
      (match s.busWrite (.command q) (s.queueWadding q) (faLocal fa) bs with | .waits t => some t | _ => none)
    else none

/-- Bytes of a FABRIC_COPY reach their destination. -/
def State.copyPut (s : State) (q seq off : Nat) (bs : List Byte) : State :=
  s.withWaiting (some (q, seq)) (fun c s =>
    let fa := c.par 24 8 + off
    if s.here fa then
      match s.busWrite (.command q) (s.queueWadding q) (faLocal fa) bs with
      | .done t | .waits t => t
      | .miss t => t.fail c stUnmapped 0
      | .stopped .wadding t => t.fail c stWadding 0
      | .stopped .locked t => t.fail c stLocked 0
    else s.fabStore q fa bs (.copyStore q seq off bs.length) (s.queueWadding q))

/-- A good response to a READ of a FABRIC_COPY finds a busy tile at its destination: the state in which it waits there. -/
def State.rspWaits (s : State) (tag status : Nat) (bytes : List Byte) : Option State :=
  match s.fab.reqs.find? (fun r => r.tag == tag && !r.held && r.op == 0x01) with
  | some r =>
    (match r.owner with
     | .copyRead q seq off => if status = 0 then s.copyWaits q seq off bytes else none
     | _ => none)
  | none => none

/-- READ_RSP: the bytes of a READ reach their owner. An uncorrectable response marks a live course (R276, Table 10.4). -/
def execReadRsp (h : RspHdr) (status : Nat) (unc : Bool) (bytes : List Byte) (s : State) : Out :=
  match (s.heard h.src).rspWaits h.tag status bytes with
  | some t => .next t
  | none => .next (s.answer h.src h.tag status [0x01] (fun r s =>
    let s := if unc then s.markLive 1 else s
    match r.owner with
    | .copyRead q seq off => (s.copyPut q seq off bytes).copySettle q seq
    | .yealm die id k => s.partArrived die id k [bytes]
    | .repair a _ => s.repairArrived a bytes
    | _ => s))

/-- The payloads of a YEALM_RSP: `n` of them, each padded to a multiple of 8 bytes. -/
def rspChunks (payload : Nat) : Nat → List Byte → List (List Byte)
  | 0, _ => []
  | n + 1, bs => padTo payload (bs.take payload) :: rspChunks payload n (bs.drop (ceilDiv payload 8 * 8))

/-- YEALM_RSP: rows of a remote shard reach their descriptor, and the versions of the shards are reported (R197). -/
def execYealmRsp (h : RspHdr) (status : Nat) (unc : Bool) (bytes : List Byte) (shards : List (Nat × Nat × Nat)) (s : State) : Out :=
  .next (s.answer h.src h.tag status [0x05] (fun r s =>
    let s := if unc then s.markLive 1 else s
    match r.owner with
    | .yealm die id k =>
      (match s.ydesc? die id with
       | none => s
       | some y =>
         let n := match y.parts[k]? with | some p => p.units.length | none => 0
         let s := shards.foldl (fun s x => s.driftReport y.drift y.f.table x.1 x.2.1 x.2.2) s
         s.partArrived die id k (rspChunks (tdesc y.table).payload n bytes))
    | _ => s))

/-- ACK: a store, atomic, row add or control message has taken effect at its target. -/
def execAck (h : RspHdr) (status : Nat) (s : State) : Out :=
  .next (s.answer h.src h.tag status [0x02, 0x03, 0x04, 0x22, 0x23] (fun r s =>
    match r.owner with
    | .copyStore q seq _ _ => s.copySettle q seq
    | .add die id => s.addAnswered die id
    | .record n => s.exported n
    | .forward dev epoch tag => s.respond dev epoch tag 0x82 0 false []
    | _ => s))

/-! ## FABRIC_COPY -/

/-- A local end of a copy may be used: the status that refuses it. -/
def State.copyEnd (s : State) (c : Cmd) (fa n : Nat) (write : Bool) : Option Nat :=
  if !s.here fa then none
  else if !s.rangeMapped (faLocal fa) n then some stUnmapped
  else if write then
    match s.writeStop (.command c.q) (s.queueWadding c.q) (faLocal fa) n with
    | some .wadding => some stWadding
    | some .locked => some stLocked
    | none => none
  else none

/-- FABRIC_COPY (R20, R276): from one fabric address to another; RESULT holds the bytes moved. -/
def execFabricCopy (q : Fin 16384) (seq : Nat) (s : State) : Out :=
  .next (s.runCmd 0x0401 q seq (fun c s =>
    let src := c.par 16 8
    let dst := c.par 24 8
    let n := c.par 32 8
    if 2 ^ 54 < src + n then s.fail c stBadParam 16
    else if 2 ^ 54 < dst + n then s.fail c stBadParam 24
    else if n = 0 then s.fail c stBadParam 32
    else
      match (s.copyEnd c src n false).or (s.copyEnd c dst n true) with
      | some st =>
        let s := if st = stUnmapped then s.missEvent (.command q)
            (if (s.copyEnd c src n false).isSome then faLocal src else faLocal dst) else s
        s.fail c st 0
      | none =>
        if s.here src then
          let r := s.busRead (.command q) (faLocal src) n
          if r.waits then r.st
          else match r.st.copyWaits q seq 0 r.bytes with
            | some t => t
            | none => (((r.st.cmdWaits c []).copyPut q seq 0 r.bytes).copySettle q seq)
        else
          (fabPieces (faLocal src) n).foldl (fun s p =>
            s.ask q (faDev src) 0x01 p.1 p.2 [] (.copyRead q seq (p.1 - faLocal src)) (s.queueWadding q)) (s.cmdWaits c [])))

end Sys2Proof.Machine
end

