-- ==== Sys2Proof/Machine/HostLink.lean ====
section
/-! DEFINITION. The host link (chapter 13): host reads and writes through the BARs (R325 to R333), doorbells, link
training, link loss and resets (R327, R336, R337), CXL page bias (R328), configuration requests. -/
namespace Sys2Proof.Machine

def State.setHost (s : State) (x : HostIf) : State := { s with host := x }

/-- The link is up. -/
def State.linkUp (s : State) : Bool := s.get F.HIF_LINK_MODE != 0

/-- The module is ready (R368). -/
def State.ready (s : State) : Bool := s.start.stage == 8

/-! ## BAR2 (R330, Table 13.3) -/

def msixBase : Nat := 0x30_0000
def pbaBase : Nat := 0x30_8000

/-- An 8-byte word of a queue bit map: bit b is queue 64w + b. -/
def bitMap (w : Nat) (p : Nat → Bool) : Nat :=
  ofLe ((List.range 8).map (fun i => BitVec.ofNat 8 ((List.range 8).foldl (fun m b =>
    if p (64 * w + 8 * i + b) then m + 2 ^ b else m) 0)))

/-- Pending messages of vectors that are enabled and not masked are sent (PCIe). -/
def State.msixFlush (s : State) : State :=
  s.host.pba.foldl (fun s v =>
    if s.host.msixOn && s.msixWord (4 * v + 3) % 2 == 0 then
      (s.setHost { s.host with pba := s.host.pba.filter (fun x => x != v) }).send (.msix v)
    else s) s

/-- The 8-byte word of BAR2 at an offset. Before ready the status words read 0 (Table 14.5). -/
def State.bar2Word (s : State) (off : Nat) : Nat :=
  if 0x20_0000 ≤ off ∧ off < 0x20_0800 then
    if s.ready then bitMap ((off - 0x20_0000) / 8) (fun q => s.get F.QP_QIDX_CQ_TAIL q != (s.qx q).cqHead) else 0
  else if 0x20_0800 ≤ off ∧ off < 0x20_1000 then
    if s.ready then bitMap ((off - 0x20_0800) / 8) (fun q => decide (2 ≤ s.qState q)) else 0
  else if off = 0x20_1000 then if s.ready then s.get F.HIF_EPOCH_EPOCH else 0
  else if off = 0x20_1008 then if s.ready then s.cstate + s.courseLow * 2 ^ 32 else 0
  else if msixBase ≤ off ∧ off < pbaBase then
    let k := (off - msixBase) / 4
    s.msixWord k + s.msixWord (k + 1) * 2 ^ 32
  else if pbaBase ≤ off ∧ off < pbaBase + 0x100 then bitMap ((off - pbaBase) / 8) (fun v => s.host.pba.contains v)
  else 0

/-- A BAR2 access keeps R7, or is a naturally aligned 4-byte access to the MSI-X structures (R330). -/
def bar2Ok (off n : Nat) : Bool :=
  (n == 8 && off % 8 == 0) ||
  (n == 4 && off % 4 == 0 && decide (msixBase ≤ off) && decide (off < pbaBase + 0x100))

def State.bar2Read (s : State) (off n : Nat) : State :=
  if bar2Ok off n then
    s.send (.hostCpl off (((leBytes 8 (s.bar2Word (off / 8 * 8))).drop (off % 8)).take n) false)
  else (s.badAccess 0 off n false).send (.hostCpl off (List.replicate n 0xFF#8) false)

/-- A double word of the MSI-X table is written; the vector control holds one bit. -/
def State.putMsix (s : State) (k v : Nat) : State :=
  let h := s.host
  let d := if k % 4 = 3 then 1 else 0
  let v := if k % 4 = 3 then v % 2 else v
  (s.setHost { h with msix := Sparse.put d h.msix k v }).msixFlush

/-- A fenced doorbell takes effect after earlier posted writes, a drain of some tb later (R333). -/
def State.fencedBell (s : State) (q : Nat) (head : Bool) (v drain : Nat) : State :=
  let s := (s.bump F.HIF_FENCE_FENCED 1).set F.HIF_FENCE_MAX_DRAIN_NS
    (max (s.get F.HIF_FENCE_MAX_DRAIN_NS) (min drain (2 ^ 32 - 1)))
  (s.advanceTo (s.now + drain)).doorbell q head (v % 2 ^ 32)

/-- A write of BAR2. Doorbells are ignored before ready (Table 14.5). -/
def State.bar2Write (s : State) (off : Nat) (bs : List Byte) : State :=
  let n := bs.length
  if bar2Ok off n then
    let v := ofLe bs
    if off < 0x20_0000 then
      let q := off % 0x10_0000 / 64
      let o := off % 64
      if s.ready && (o == 0 || o == 8) then
        if off < 0x10_0000 then s.doorbell q (o == 8) (v % 2 ^ 32) else s.fencedBell q (o == 8) v 0
      else s
    else if msixBase ≤ off ∧ off < pbaBase then
      let k := (off - msixBase) / 4
      let s := s.putMsix k (v % 2 ^ 32)
      if n = 8 then s.putMsix (k + 1) (v / 2 ^ 32) else s
    else s
  else s.badAccess 0 off n true

/-! ## BAR0 (R329, R331, R332) -/

/-- Memory that the host reads, one completion per 64-byte line: an uncorrectable line is poisoned (Table 10.4), an
unmapped one has 0xFF in every byte (R16), under CXL.mem with poison (R328). -/
def State.hostLines (s : State) (a n : Nat) (cxl : Bool) : State :=
  let r := (pieces a n).foldl (fun (x : Bool × State) p =>
    if x.2.mapped p.1 then
      let m := x.2.readMem .host p.1 p.2
      (x.1, m.st.send (.hostCpl p.1 m.bytes m.unc))
    else (true, x.2.send (.hostCpl p.1 (List.replicate p.2 0xFF#8) cxl))) (false, s)
  if r.1 then r.2.missEvent .host a else r.2

/-- A read of the local address space by the host. -/
def State.bar0Read (s : State) (a n : Nat) : State :=
  match locOf a with
  | .window _ _ =>
    let r := s.windowRead .host a n
    if r.waits then s.windowHold a n none else r.st.send (.hostCpl a r.bytes false)
  | _ => s.hostLines a n false

/-- A write of the local address space by the host. -/
def State.bar0Write (s : State) (a : Nat) (bs : List Byte) : State :=
  match s.busWrite .host false a bs with
  | .done t => t
  | .miss t => t
  | .stopped _ t => t
  | .waits t => t.windowHold a bs.length (some bs)

/-! ## Host requests -/

/-- Which BAR decodes a bus address, and the offset in it: true is BAR2. In D3hot neither decodes (Table 13.1). -/
def State.barOf (s : State) (addr n : Nat) : Option (Bool × Nat) :=
  if s.host.d3hot then none
  else
    let hit (b : Option Nat) (size : Nat) : Option Nat :=
      match b with
      | some x => if x ≤ addr ∧ addr + n ≤ x + size then some (addr - x) else none
      | none => none
    match hit s.host.bar0 (2 ^ 43), hit s.host.bar2 (2 ^ 24) with
    | some o, _ => some (false, o)
    | none, some o => some (true, o)
    | none, none => none

/-- An Unsupported Request is counted (R325). -/
def State.unsupported (s : State) : State := (s.set F.HIF_STATUS_UR_SENT 1).bump F.HIF_ERRCNT_UR_SENT 1

/-- A poisoned write is dropped, counted and recorded (R332). -/
def State.poisonDrop (s : State) (a : Nat) : State :=
  ((s.set F.HIF_STATUS_POISON_RX 1).bump F.HIF_ERRCNT_POISON_RX 1).raise 0 0x0702 (plAt 16 a)

/-- HOST_WRITE (R329 to R332): a posted write to a bus address. -/
def execHostWrite (addr : Nat) (bytes : List Byte) (poison : Bool) (s : State) : Out :=
  .next (
    if s.linkUp = false ∨ bytes = [] then s
    else match s.barOf addr bytes.length with
      | none => s.unsupported
      | some (two, o) =>
        if poison then s.poisonDrop o
        else if two then s.bar2Write o bytes else s.bar0Write o bytes)

/-- HOST_READ (R329, R330, R332): a read of a bus address. -/
def execHostRead (addr len : Nat) (s : State) : Out :=
  .next (
    if s.linkUp = false ∨ len = 0 then s
    else match s.barOf addr len with
      | none => s.unsupported.send (.hostStatus 1)
      | some (two, o) => if two then s.bar2Read o len else s.bar0Read o len)

/-- A doorbell can arrive: the link is up, BAR2 decodes, the module is ready. -/
def State.bellOpen (s : State) : Bool := s.linkUp && !s.host.d3hot && s.host.bar2.isSome && s.ready

/-- DOORBELL (R333). -/
def execDoorbell (q : Fin 16384) (head : Bool) (value : Nat) (s : State) : Out :=
  .next (if s.bellOpen then s.doorbell q head (value % 2 ^ 32) else s)

/-- FENCED_DOORBELL (R333): it takes effect when `drain` tb have passed. -/
def execFencedDoorbell (q : Fin 16384) (head : Bool) (value drain : Nat) (s : State) : Out :=
  .next (if s.bellOpen then s.fencedBell q head value drain else s)

/-- CONFIGURATION_ACCESS (R325, Table 13.1). -/
def execConfigurationAccess (req : ConfigReq) (s : State) : Out :=
  .next (
    if s.linkUp = false then s
    else
      let ok (s : State) : State := s.send (.hostStatus 0)
      match req with
      | .bars a b => ok (s.setHost { s.host with
          bar0 := a.map (fun x => x / 2 ^ 43 * 2 ^ 43), bar2 := b.map (fun x => x / 2 ^ 24 * 2 ^ 24) })
      | .power d => ok (s.setHost { s.host with d3hot := d })
      | .msix on => ok ((s.setHost { s.host with msixOn := on }).msixFlush)
      | .other => ok s
      | .unsupported => s.unsupported.send (.hostStatus 1))

/-! ## Page bias (R328) -/

def pageSize : Nat := 0x20_0000
def hdmSize : Nat := 0x600_0000_0000

/-- A BIAS_SET goes on with the pages that it still has to make device-owned, `done` of them changed: under CXL it asks
the host for the next one; with the link down it waits; under PCIe no host cache holds a line. -/
def State.biasGo (s : State) (c : Cmd) (done : Nat) (left : List Nat) : State :=
  let left := left.filter (fun p => s.host.shared.contains p)
  match left with
  | [] => s.succeed c done
  | p :: _ =>
    if s.get F.HIF_LINK_MODE = 2 then (s.send (.cxlCache p)).cmdWaits c (done :: left)
    else if s.linkUp then
      let s := s.setHost { s.host with shared := s.host.shared.filter (fun p => !left.contains p) }
      (s.bump F.HIF_BIAS_CNT_BIAS_SETS left.length).succeed c (done + left.length)
    else s.cmdWaits c (done :: left)

/-- Every BIAS_SET that recalls pages goes on. -/
def State.biasResume (s : State) : State :=
  (s.queues.inflight.filter (fun c => c.op == 0x0207 && c.running)).foldl (fun s c =>
    match c.aux with
    | d :: left => s.biasGo c d left
    | [] => s) s

/-- BIAS_SET (R328): RESULT and BIAS_SETS count the pages whose bias changes. -/
def execBiasSet (q : Fin 16384) (seq : Nat) (s : State) : Out :=
  .next (s.runCmd 0x0207 q seq (fun c s =>
    let off := c.par 16 8
    let n := c.par 24 4
    let bias := c.par 28 1
    if off % pageSize ≠ 0 ∨ hdmSize < off + n * pageSize then s.fail c stBadParam 16
    else if 1 < bias then s.fail c stBadParam 28
    else
      let range := (List.range n).map (fun i => off / pageSize + i)
      if bias = 1 then
        let fresh := range.filter (fun p => !s.host.shared.contains p)
        ((s.setHost { s.host with shared := s.host.shared ++ fresh }).bump F.HIF_BIAS_CNT_BIAS_SETS fresh.length).succeed c
          fresh.length
      else s.biasGo c 0 range))

/-- CXL_CACHE_RESPONSE (R328): the host has given up every line of a page; a BIAS_SET that recalls it goes on. -/
def execCxlCacheResponse (page : Nat) (s : State) : Out :=
  .next (
    if s.get F.HIF_LINK_MODE ≠ 2 then s
    else
      let waits (c : Cmd) : Bool := c.op == 0x0207 && c.running && (match c.aux with | _ :: p :: _ => p == page | _ => false)
      match s.queues.inflight.find? waits with
      | some c =>
        match c.aux with
        | d :: _ :: left =>
          if page ∈ s.host.shared then
            let s := s.setHost { s.host with shared := s.host.shared.filter (fun p => p != page) }
            (s.bump F.HIF_BIAS_CNT_BIAS_SETS 1).biasGo c (d + 1) left
          else s.biasGo c d left
        | _ => s
      | none => s)

/-- CXL_MEM_REQUEST (R328): a read (`data` none) or write of a line of the HDM range. -/
def execCxlMemRequest (line : Nat) (data : Option (List Byte)) (s : State) : Out :=
  .next (
    if s.get F.HIF_LINK_MODE ≠ 2 ∨ hdmSize ≤ line * 64 then s
    else
      let p := line * 64 / pageSize
      let s := if p ∈ s.host.shared then s
        else (s.setHost { s.host with shared := s.host.shared ++ [p] }).bump F.HIF_BIAS_CNT_HOST_FLIPS 1
      match data with
      | some bs => s.bar0Write (line * 64) (padTo 64 bs)
      | none => s.hostLines (line * 64) 64 true)

/-! ## Training, link loss and resets (R327, R336, R337, Table 13.4) -/

/-- HOST_LINK_TRAIN (R325, R327): the link trains at a speed of HIF_LINK.SPEED and a width. `cxl` says that the host
offers CXL and CXL training succeeds. A link that is up trains anew at another rate in the mode that it has. -/
def execHostLinkTrain (cxl : Bool) (speed width : Nat) (s : State) : Out :=
  .next (
    let mode := if s.linkUp then s.get F.HIF_LINK_MODE else if cxl && s.bit F.HIF_CTRL_CXL_EN then 2 else 1
    if s.powered = false ∨ s.start.stage < 2 ∨ !(width == 1 || width == 2 || width == 4 || width == 8) then s
    else if (if mode = 2 then speed = 5 ∨ speed = 6 else 1 ≤ speed ∧ speed ≤ 7) then
      let up := s.linkUp
      let s := (((s.set F.HIF_LINK_MODE mode).set F.HIF_LINK_SPEED speed).set F.HIF_LINK_WIDTH width).bump
        F.HIF_LINK_TRAININGS 1
      if up then s
      else
        let h := s.host
        (s.setHost { h with
          shared := if mode = 2 && !h.keepBias then [] else h.shared, keepBias := false }).biasResume
    else s)

/-- Configuration space goes to its reset values: no BAR decodes, D0, MSI-X off. -/
def State.configReset (s : State) : State :=
  s.setHost { s.host with d3hot := false, bar0 := none, bar2 := none, msixOn := false }

/-- The link is down until it trains. -/
def State.dropLink (s : State) : State :=
  (((s.set F.HIF_LINK_MODE 0).set F.HIF_LINK_SPEED 0).set F.HIF_LINK_WIDTH 0).configReset

/-- The host epoch moves on (R336). -/
def State.nextEpoch (s : State) : State := s.bumpWrap F.HIF_EPOCH_EPOCH 1

/-- Queues of which some register differs from its reset value. -/
def State.usedQueues (s : State) (rs : List Reg) : List Nat :=
  (s.regs.filterMap (fun p => if rs.any (fun r => decide (p.1 / 2 ^ 40 = r.num)) then some (p.1 / 2 ^ 20 % 2 ^ 20) else none)).eraseDups

/-- At an epoch change every ARMED queue with a ring in host memory is SUSPENDED (R336). -/
def State.suspendQueues (s : State) : State :=
  (s.usedQueues [.qpQstate]).foldl (fun s q =>
    if s.qState q = 1 ∧ (s.bit F.QP_QCFG_SQ_HOST q || s.bit F.QP_QCFG_CQ_HOST q) = true then s.setQState q 2 else s) s

/-- The scope 1 effect on the queues: all DISARMED, their set-up at its reset values, completions discarded. -/
def State.resetQueues (s : State) : State :=
  let qs := (s.usedQueues [.qpQstate, .qpQcfg, .qpSqbase, .qpCqbase, .qpQidx] ++ Sparse.keys s.queues.extra).eraseDups
  let s := qs.foldl (fun s q =>
    let s := if s.qState q = 0 then s else s.setQState q 0
    let z (s : State) (r : Reg) : State := s.wr r q 0 (regReset r q 0)
    let x := s.qx q
    (z (z (z (z s .qpQcfg) .qpSqbase) .qpCqbase) .qpQidx).setQx q { QExtra.init with fence := x.fence.map (fun p => (p.1, p.2.1, true)) }) s
  let lost := s.queues.done.length
  ({ s with queues := { s.queues with
    inflight := s.queues.inflight.map (fun (c : Cmd) => { c with dropped := true }), done := [] } } : State).bump
    F.HIF_DROPCNT_COMPLETIONS lost

/-- A scope 1 event or a function level reset (Table 13.4). -/
def State.scopeOne (s : State) : State :=
  let s := s.resetQueues
  let s := if s.cstate = 1 ∨ s.cstate = 2 then s.abortCourse 3 else s
  (s.setHost { s.host with shared := [] }).biasResume

/-- PERST#, hot reset or link disable, by HIF_CTRL.PERST_SCOPE (R337, R356, R369). -/
def State.perst (s : State) : State :=
  let scope := s.get F.HIF_CTRL_PERST_SCOPE
  if scope = 2 then s.moduleReset 4
  else
    let s := (s.nextEpoch.set F.HIF_STATUS_PERST 1).dropLink
    if scope = 1 then s.scopeOne
    else (s.setHost { s.host with keepBias := true }).suspendQueues

/-- HOST_LINK_DOWN (R336, Table 13.4): the link goes down without PERST#. -/
def execHostLinkDown (s : State) : Out :=
  .next (if s.linkUp then (s.nextEpoch.set F.HIF_STATUS_LINK_DOWN 1).dropLink.suspendQueues else s)

/-- PERST (R337). -/
def execPerst (s : State) : Out := .next (if s.powered then s.perst else s)

/-- HOT_RESET (R337): it comes over the link. -/
def execHotReset (s : State) : Out := .next (if s.powered && s.linkUp then s.perst else s)

/-- LINK_DISABLE (R337): it comes over the link. -/
def execLinkDisable (s : State) : Out := .next (if s.powered && s.linkUp then s.perst else s)

/-- FUNCTION_LEVEL_RESET (R337, Table 13.4): the link stays up. -/
def execFunctionLevelReset (s : State) : Out :=
  .next (if s.linkUp then (s.nextEpoch.set F.HIF_STATUS_FLR 1).configReset.scopeOne else s)

end Sys2Proof.Machine
end

