-- ==== Sys2Proof/Machine/QueueProc.lean ====
section
/-! DEFINITION. The queue processor (R334, R340 to R346), completion records (R342, R343) and the commands that the
host chapter owns (R344, R347, R348, R350). -/
namespace Sys2Proof.Machine

/-! ## Packets -/

/-- A packet is valid for the sequence that its queue expects (R334). -/
def packetOk (pkt : List Byte) (seq : Nat) : Bool :=
  fieldLe pkt 4 4 == seq && fieldLe pkt 12 2 == crc16 (pkt.take 12 ++ [0#8, 0#8] ++ pkt.drop 14)

/-- A read of host memory failed (R350). -/
def State.hostFailed (s : State) (timeout : Bool) : State :=
  let s := s.set F.HIF_STATUS_HOST_ERROR 1
  if timeout then s.bump F.HIF_ERRCNT_CPL_TIMEOUT 1 else s

/-- The 64 bytes of the packet at SQ_HEAD: read from module memory, or what a read of host memory has given. -/
def State.packetAt (s : State) (q : Nat) (ring : HostAns) : Option (List Byte) × State :=
  if s.bit F.QP_QCFG_SQ_HOST q then
    match (if s.linkUp then ring else .timeout) with
    | .data bs => (some (padTo 64 bs), s)
    | .timeout => (none, s.hostFailed true)
    | _ => (none, s.hostFailed false)
  else
    let a := s.sqBase q + s.get F.QP_QIDX_SQ_HEAD q % s.sqEntries q * 64
    if s.memRange a 64 then
      let r := s.readMem .engine a 64
      (some r.bytes, r.st)
    else (none, s)

/-- The status with which the first failing check of R346 ends a command, checks 1 to 6, with its DETAIL. -/
def State.packetCheck (s : State) (c : Cmd) : Option (Nat × Nat) :=
  let ver := s.get F.QP_QCFG_VERSION c.q
  let ifver := c.par 3 1
  if !(if c.op = 1 then ifver == 1 || ifver == 2 else ifver == ver) then some (stVersion, ver)
  else match opRow c.op with
    | none => some (stBadOpcode, 0)
    | some row =>
      if ver = 1 ∧ row.v1 = false then some (stBadOpcode, 0)
      else if c.wadding && !row.wad then some (stWadding, 0)
      else if row.idle && s.cstate != 0 then some (stNotIdle, s.cstate)
      else if c.course ≠ 0 ∧ !(s.courseLive && c.course == s.courseLow) then some (stConflict, 0)
      else (reservedAt c.pkt row).map (fun o => (stBadParam, o))

/-- A taken packet becomes a command in flight, or ends with the first check that fails. -/
def State.startPacket (s : State) (q : Nat) (pkt : List Byte) (epoch : Nat) (dropped : Bool) : State :=
  let c : Cmd := ⟨q, fieldLe pkt 4 4, fieldLe pkt 0 2, pkt, epoch, s.queueWadding q, false, [], dropped, s.course.plan⟩
  let s := (s.setInflight (s.queues.inflight ++ [c])).syncInflight q
  match s.packetCheck c with
  | some x => s.fail c x.1 x.2
  | none => s

/-- A valid packet is taken: the queue goes on to the next one. With FENCE it starts only after every earlier command of
the queue has completed (R339). -/
def State.takePacket (s : State) (q : Nat) (pkt : List Byte) : State :=
  let s := (s.bumpWrap F.QP_QIDX_SQ_HEAD 1 q).bumpWrap F.QP_QSEQ_NEXT_SEQ 1 q
  let s := s.bump F.QP_PACKETS_PACKETS 1 (queueDie q)
  let epoch := s.get F.QP_QSTATE_QEPOCH q
  let s := s.setQx q { s.qx q with rereading := false, rereads := 0 }
  if fieldLe pkt 2 1 % 2 = 1 ∧ s.inflightOf q ≠ [] then s.setQx q { s.qx q with fence := some (pkt, epoch, false) }
  else s.startPacket q pkt epoch false

/-! ## Service order (R340, R343) -/

/-- The CQ has no room for another record. -/
def State.cqFull (s : State) (q : Nat) : Bool :=
  decide (s.cqEntries q ≤ sub32 (s.get F.QP_QIDX_CQ_TAIL q) (s.qx q).cqHead)

/-- The CQ of a queue can be written: in host memory the link and the epoch allow it (R336); in module memory it is
mapped. -/
def State.cqReach (s : State) (q : Nat) : Bool :=
  if s.bit F.QP_QCFG_CQ_HOST q then s.hostReach q else s.memRange (s.cqBase q) (32 * s.cqEntries q)

/-- A completed command of the queue holds its record because the CQ is full. -/
def State.holdsRecord (s : State) (q : Nat) : Bool :=
  s.queues.done.any (fun d => d.q == q && !d.dropped) && s.cqReach q && s.cqFull q

/-- A queue can have a packet taken. -/
def State.takable (s : State) (q : Nat) : Bool :=
  let x := s.qx q
  s.qState q == 1 && !x.rereading && x.fence.isNone && x.sqTail != s.get F.QP_QIDX_SQ_HEAD q &&
  decide ((s.inflightOf q).length < 64) && !s.holdsRecord q

/-- The service class of a queue: wadding queues come after PRIO 0. -/
def State.serviceClass (s : State) (q : Nat) : Nat :=
  if s.queueWadding q then 0 else s.get F.QP_QCFG_PRIO q + 1

/-- The queue whose turn it is on a die: the highest class, round robin within it. -/
def State.turn (s : State) (die : Nat) : Option Nat :=
  let qs := (s.usedQueues [.qpQstate]).filter (fun q => decide (queueDie q = die) && s.takable q)
  let top := qs.foldl (fun m q => max m (s.serviceClass q)) 0
  let l := qs.filter (fun q => s.serviceClass q == top)
  let after := l.filter (fun q => decide (Sparse.get 0 s.queues.served (die * 8 + top) ≤ q))
  ((if after = [] then l else after).foldl (fun (m : Option Nat) q =>
    match m with
    | none => some q
    | some b => some (min b q)) none)

/-- PACKET_TAKE (R334, R340, R346): the queue processor takes the packet of the queue whose turn it is, checks it and
starts the command; or starts a fenced command whose predecessors have completed. `ring` is what a read of an SQ in host
memory gives. -/
def execPacketTake (q : Fin 16384) (ring : HostAns) (s : State) : Out :=
  .next (
    match (s.qx q).fence with
    | some p =>
      if s.inflightOf q = [] ∧ s.holdsRecord q = false then
        (s.setQx q { s.qx q with fence := none }).startPacket q p.1 p.2.1 p.2.2
      else s
    | none =>
      let die := queueDie q
      if s.turn die = some q.val then
        let s := { s with queues := { s.queues with
          served := Sparse.put 0 s.queues.served (die * 8 + s.serviceClass q) (q.val + 1) } }
        let r := s.packetAt q ring
        let s := r.2
        match r.1 with
        | some pkt =>
          if packetOk pkt (s.get F.QP_QSEQ_NEXT_SEQ q) then s.takePacket q pkt
          else s.setQx q { s.qx q with rereading := true, rereads := 0, readAt := s.now }
        | none => s.setQx q { s.qx q with rereading := true, rereads := 0, readAt := s.now }
      else s)

/-- A packet that stays invalid completes with TORN_PACKET, and the queue is STOPPED (R334). -/
def State.tornPacket (s : State) (q : Nat) (tries : Nat) : State :=
  let seq := s.get F.QP_QSEQ_NEXT_SEQ q
  let s := (s.setQState q 3).set F.QP_STATUS_TORN 1 (queueDie q)
  let s := ((s.bump F.QP_QCNT_COUNT 1 q 7).bump F.QP_QCNT_COUNT 1 q 5).bump F.QP_QCNT_COUNT 1 q 6
  let s := ((s.set F.QP_QERR_STATUS stTorn q).set F.QP_QERR_DETAIL tries q).set F.QP_QERR_SEQ seq q
  let d : DoneCmd := ⟨q, seq, 0xFFFF, stTorn, tries, 0, false, s.get F.QP_QSTATE_QEPOCH q, false, false, s.now, none⟩
  { s with queues := { s.queues with done := s.queues.done ++ [d] } }

/-- PACKET_REREAD (R334): 250 ns after the last read the packet is read again, at most 8 times. -/
def execPacketReread (q : Fin 16384) (ring : HostAns) (s : State) : Out :=
  .next (
    let x := s.qx q
    if x.rereading = true ∧ s.qState q = 1 then
      let s := s.advanceTo (x.readAt + 250)
      let tries := x.rereads + 1
      let r := s.packetAt q ring
      let s := r.2.setQx q { x with rereads := tries, readAt := r.2.now }
      if (match r.1 with | some pkt => packetOk pkt (s.get F.QP_QSEQ_NEXT_SEQ q) | none => false) then
        s.takePacket q (r.1.getD [])
      else if tries = 8 then (s.setQx q { s.qx q with rereading := false }).tornPacket q tries
      else s
    else s)

/-! ## Completion records (R342, R343) -/

/-- The 32 bytes of a record at index `i` of a CQ of `n` entries (Table 13.6). -/
def DoneCmd.record (d : DoneCmd) (i n qepoch : Nat) : List Byte :=
  leBytes 4 d.seq ++ leBytes 2 d.op ++ leBytes 1 d.status ++ leBytes 1 d.detail ++ leBytes 2 d.q ++
  leBytes 2 ((i / n + 1) % 2 + (if d.epoch = qepoch then 0 else 2) + (if d.resultWritten then 4 else 0)) ++
  leBytes 2 d.epoch ++ leBytes 2 0 ++ leBytes 8 d.result ++ leBytes 8 d.time

/-- The interrupt of a completed command (R343). -/
def State.recordIrq (s : State) (d : DoneCmd) (written : Bool) : State :=
  if s.bit F.QP_QCFG_IRQ_EN d.q && ((written && d.irq) || d.status != stSuccess) && s.hostReach d.q then
    s.msix (s.get F.QP_QCFG_MSIX_VEC d.q)
  else s

/-- The completion of an ingest waits (R296): for an earlier one of its queue pair, on whichever queue, and while data that
its port has received wait for a busy tile. -/
def State.recordWaits (s : State) (d : DoneCmd) : Bool :=
  match d.qp with
  | none => false
  | some k => (s.queues.done.takeWhile (fun x => x != d)).any (fun x => x.qp == some k && !x.dropped) ||
      s.clusters.any (fun c => c.2.accWait.any (fun x => x.by_ == .ingest (k / 1024) && x.data.isSome))

/-- COMPLETION_RECORD (R335, R336, R342, R343): the queue's oldest completed command has its record written when the CQ
has room, or discarded when the CQ is out of reach. -/
def execCompletionRecord (q : Fin 16384) (s : State) : Out :=
  .next (
    match s.queues.done.find? (fun d => d.q == q.val) with
    | none => s
    | some d =>
      let gone (s : State) : State := { s with queues := { s.queues with done := s.queues.done.erase d } }
      if d.dropped then (gone s).bump F.HIF_DROPCNT_COMPLETIONS 1
      else
        let i := s.get F.QP_QIDX_CQ_TAIL q
        let n := s.cqEntries q
        let a := s.cqBase q + i % n * 32
        let host := s.bit F.QP_QCFG_CQ_HOST q
        let stop := !host && (s.writeStop (.command q) (s.queueWadding q) a 32).isSome
        if s.cqReach q = false ∨ stop = true then ((gone s).bump F.HIF_DROPCNT_COMPLETIONS 1).recordIrq d false
        else if s.cqFull q || s.recordWaits d then s
        else
          let bs := d.record i n (s.get F.QP_QSTATE_QEPOCH q)
          let s := (gone s).bumpWrap F.QP_QIDX_CQ_TAIL 1 q
          (if host then s.send (.hostRecord a bs) else s.writeMem a bs).recordIrq d true)

/-! ## NOP, GET_INTERFACE, LAUNCH -/

/-- CMD_NOP (R347). -/
def execCmdNop (q : Fin 16384) (seq : Nat) (s : State) : Out := .next (s.runCmd 0x0000 q seq (fun c s => s.succeed c 0))

/-- GET_INTERFACE (R344). -/
def execGetInterface (q : Fin 16384) (seq : Nat) (s : State) : Out :=
  .next (s.runCmd 0x0001 q seq (fun c s =>
    let v := min (c.par 16 1) 2
    if v = 0 then s.fail c stBadParam 16
    else (s.set F.QP_QCFG_VERSION v q).succeed c (v + 1 * 2 ^ 8 + 2 * 2 ^ 16 + 16383 * 2 ^ 24)))

/-- LAUNCH (R348): the launch waits at its cluster for its turn (R135). -/
def execLaunch (q : Fin 16384) (seq : Nat) (s : State) : Out :=
  .next (s.runCmd 0x0002 q seq (fun c s =>
    let w := c.par 16 2
    let entry := c.par 18 2
    let args := c.par 24 8
    let kind := w / 2 ^ 15 == 1
    if w / 2 ^ 10 % 32 ≠ 0 ∨ kind ≠ c.wadding then s.fail c stBadParam 16
    else if 32767 < entry then s.fail c stBadParam 18
    else if args % 8 ≠ 0 then s.fail c stBadParam 24
    else if args ≠ 0 ∧ s.rangeMapped args 48 = false then (s.missEvent (.command q) args).fail c stUnmapped 0
    else (s.cmdWaits c []).deliver (w % 1024) ⟨q, some (q.val, seq), none, entry * 8, args, kind⟩))

/-! ## DMA (R350) -/

/-- A range of local addresses is judged as a whole: the status that refuses it. -/
def State.dmaJudge (s : State) (q a n : Nat) (write : Bool) : Option Nat :=
  if s.rangeMapped a n = false then some stUnmapped
  else if write then
    match s.writeStop (.command q) (s.queueWadding q) a n with
    | some .wadding => some stWadding
    | some .locked => some stLocked
    | none => none
  else none

/-- A command ends because a range of its is refused (R16, R350). -/
def State.dmaRefuse (s : State) (c : Cmd) (a st : Nat) : State :=
  (if st = stUnmapped then s.missEvent (.command c.q) a else s).fail c st 0

/-- A write that a refused range ends after data has moved. -/
def stopStatus : WriteStop → Nat
  | .wadding => stWadding
  | .locked => stLocked

/-- Bytes reach module memory for a DMA command, and are counted as its transfer (R387); `k` goes on. A busy accumulator tile
makes the row wait. -/
def State.dmaPut (s : State) (c : Cmd) (a : Nat) (bs : List Byte) (done : Nat) (k : State → State) : State :=
  match s.busWrite (.command c.q) (s.queueWadding c.q) a bs with
  | .done t => k (t.act c.q 4 (ceilDiv bs.length 64))
  | .miss t => t.complete c stUnmapped 0 done
  | .stopped w t => t.complete c (stopStatus w) 0 done
  | .waits t => t

/-- A copy from host memory asks for its next bytes, at most 4,096 at a time, or ends. -/
def State.dmaAsk (s : State) (c : Cmd) (done : Nat) : State :=
  let n := c.par 32 8
  if n ≤ done then s.succeed c n
  else
    let a := c.par 16 8 + done
    let len := min 4096 (n - done)
    let h := s.host
    let s := (s.setHost { h with reads := h.reads ++ [⟨c.q, c.seq, a, len⟩] }).cmdWaits c [done]
    if s.linkUp then s.send (.hostRead c.q c.seq a len) else s

/-- Bytes of a copy within the module. In ascending order a byte that the copy has itself overwritten may be read old or
new: the manual does not say which, so it is free. -/
def State.copyBytes (s : State) (src dst : Nat) (bs : List Byte) : List Byte × State :=
  if src < dst ∧ dst < src + bs.length then
    let f := s.freeBytes (bs.length - (dst - src))
    (bs.take (dst - src) ++ f.1, f.2)
  else (bs, s)

/-- DMA_COPY (R350): within the module and towards the host at once, from the host piece by piece. -/
def execDmaCopy (q : Fin 16384) (seq : Nat) (s : State) : Out :=
  .next (s.runCmd 0x0200 q seq (fun c s =>
    let src := c.par 16 8
    let dst := c.par 24 8
    let n := c.par 32 8
    let flags := c.par 40 1
    let sh := flags % 2 == 1
    let dh := flags / 2 % 2 == 1
    if n = 0 ∨ 2 ^ 40 < n then s.fail c stBadParam 32
    else if 3 ≤ flags then s.fail c stBadParam 40
    else match (if sh then none else (s.dmaJudge q src n false).map (fun st => (src, st))).or
        (if dh then none else (s.dmaJudge q dst n true).map (fun st => (dst, st))) with
      | some x => s.dmaRefuse c x.1 x.2
      | none =>
        if sh then s.dmaAsk c 0
        else
          let r := s.busRead (.command q) src n
          if r.waits then r.st
          else if dh then ((r.st.act q 4 (ceilDiv n 64)).hostWrite q dst r.bytes).succeed c n
          else
            let b := r.st.copyBytes src dst r.bytes
            b.2.dmaPut c dst b.1 0 (fun t => t.succeed c n)))

/-- DMA_FILL (R350). -/
def execDmaFill (q : Fin 16384) (seq : Nat) (s : State) : Out :=
  .next (s.runCmd 0x0201 q seq (fun c s =>
    let dst := c.par 16 8
    let n := c.par 32 8
    let flags := c.par 40 1
    let bs := (List.replicate (n / 8) (leBytes 8 (c.par 24 8))).flatten
    if n % 8 ≠ 0 then s.fail c stBadParam 32
    else if flags ≠ 0 ∧ flags ≠ 2 then s.fail c stBadParam 40
    else if flags = 2 then ((s.act q 4 (ceilDiv n 64)).hostWrite q dst bs).succeed c n
    else match s.dmaJudge q dst n true with
      | some st => s.dmaRefuse c dst st
      | none => s.dmaPut c dst bs 0 (fun t => t.succeed c n)))

/-- What comes of a read of host memory that a command made. -/
def State.hostAnswered (s : State) (q seq : Nat) (ans : HostAns) : State :=
  match s.host.reads.find? (fun r => r.q == q && r.seq == seq) with
  | none => s
  | some r =>
    let gone (s : State) : State := s.setHost { s.host with reads := s.host.reads.erase r }
    match s.cmd? q seq with
    | none => gone s
    | some c =>
      let had := c.aux.headD 0
      let bad (st : Nat) (t : Bool) : State := ((gone s).hostFailed t).complete c stHostError st had
      match ans with
      | .data bs =>
        if bs.length = r.len then
          let a := c.par 24 8 + had
          match s.busWrite (.command q) (s.queueWadding q) a bs with
          | .waits t => t
          | _ => (gone s).dmaPut c a bs had (fun t => t.dmaAsk c (had + r.len))
        else s
      | .error => bad 1 false
      | .poison => bad 2 false
      | .timeout => bad 3 true

/-- HOST_MEMORY_READ_COMPLETION (R350): data, an error or poison for the read that the command has outstanding. -/
def execHostMemoryReadCompletion (q : Fin 16384) (seq : Nat) (ans : HostAns) (s : State) : Out :=
  .next (if s.linkUp then s.hostAnswered q seq ans else s)

/-- HOST_COMPLETION_TIMEOUT (R350). -/
def execHostCompletionTimeout (q : Fin 16384) (seq : Nat) (s : State) : Out := .next (s.hostAnswered q seq .timeout)

end Sys2Proof.Machine
end

