-- ==== Sys2Proof/Machine/Registers.lean ====
section
/-! DEFINITION. Accesses to registers that have a row of their own, and to every other register (chapters 0 to 17). -/
namespace Sys2Proof.Machine

/-- An address lies in a die window. -/
def inWindow (a : Nat) : Bool := decide (winBase ≤ a) && decide (a < winBase + 8 * winSize)

/-- REGISTER_WRITE (R8): a write of a window by any source. A write to a busy accumulator tile waits (R131). -/
def execRegisterWrite (addr : Nat) (bytes : List Byte) (by_ : Writer) (s : State) : Out :=
  .next (
    if inWindow addr && bytes != [] then
      match s.busWrite by_ false addr bytes with
      | .done t | .miss t | .stopped _ t => t
      | .waits t => if by_ = .host then t.windowHold addr bytes.length (some bytes) else t.postParts by_ addr bytes
    else s)

/-- READ_CLEAR (R8): a read of a window; its value goes to the reader, RC fields are cleared in the same access. A read
of a busy accumulator tile waits (R131). -/
def execReadClear (addr : Nat) (by_ : Writer) (s : State) : Out :=
  .next (
    if inWindow addr then
      let r := s.busRead by_ addr 8
      if r.waits then (if by_ = .host then s.windowHold addr 8 none else r.st)
      else if r.miss then r.st else r.st.send (.hostCpl addr r.bytes false)
    else s)

/-- CFG_DEVNUM_WRITE (R22). -/
def execCfgDevnumWrite (die : Fin 8) (value : Word) (s : State) : Out := .next (s.writeDevnum die value)

/-- TBN_SETTING_WRITE (R30): the first four settings by number. -/
def execTbnSettingWrite (die : Fin 8) (which : Fin 4) (value : Word) (s : State) : Out :=
  .next (s.writeSetting die which value)

/-- TBN_STAGGER_WRITE (R54). -/
def execTbnStaggerWrite (die : Fin 8) (value : Word) (s : State) : Out := .next (s.writeSetting die 4 value)

/-- DKEY_WRITE (R305). -/
def execDkeyWrite (die : Fin 8) (value : Word) (s : State) : Out := .next (s.regWrite die ⟨.ldgDkey, 0, 0⟩ value)

/-- COMPARE_HALT_RELEASE (R314): a write of LDG_STATUS on die 0 with MISMATCH set. -/
def execCompareHaltRelease (s : State) : Out := .next (s.regWrite 0 ⟨.ldgStatus, 0, 0⟩ 2#64)

/-- JFL_LOST_CLEAR (R285). -/
def execJflLostClear (word : Fin 32) (mask : Word) (s : State) : Out := .next (s.clearLost word mask)

/-- PORT_RETRAIN (R297): a write of JFL_PCTRL. -/
def execPortRetrain (port : Fin 32) (value : Word) (s : State) : Out := .next (s.writePctrl port value)

/-- QP_QDB_WRITE (R333). -/
def execQpQdbWrite (q : Fin 16384) (value : Word) (s : State) : Out := .next (s.writeQdb q value)

/-- QUEUE_ARM (R338): a write of QP_QCFG with ARM = 1. -/
def execQueueArm (q : Fin 16384) (value : Word) (s : State) : Out := .next (s.writeQcfg q (value ||| 0x1000000000000#64))

/-- QUEUE_DISARM (R338): a write of QP_QCFG with ARM = 0. -/
def execQueueDisarm (q : Fin 16384) (value : Word) (s : State) : Out :=
  .next (s.writeQcfg q (value &&& ~~~0x1000000000000#64))

/-- CC_HALT (R163): a write of CC_CTRL.HALT. -/
def execCcHalt (g : Fin 1024) (halt : Bool) (s : State) : Out := .next (s.ccCtrl g (if halt then 1#64 else 0#64))

/-- CC_STEP (R163): a write of STEP beside HALT. -/
def execCcStep (g : Fin 1024) (s : State) : Out := .next (s.ccCtrl g 3#64)

/-- SCALAR_REGISTER_WRITE (R140). -/
def execScalarRegisterWrite (g : Fin 1024) (n : Fin 64) (value : Word) (s : State) : Out := .next (s.scalarWrite g n value)

/-- PROGRAM_MEMORY_WRITE (R140): bytes within program memory. -/
def execProgramMemoryWrite (g : Fin 1024) (off : Nat) (bytes : List Byte) (s : State) : Out :=
  .next (s.programWrite g off (bytes.take (pmSize - off)))

/-- COMP_CHANGE (R123): a write of ACC_CTRL. -/
def execCompChange (g : Fin 1024) (value : Word) (s : State) : Out := .next (s.compChange g value.toNat)

/-- ACC_SEG_WRITE (R132). -/
def execAccSegWrite (g : Fin 1024) (t : Fin 32) (value : Word) (s : State) : Out := .next (s.segWrite g t value)

/-- ACCUMULATOR_ACCESS (R131): the host reads (`data` none) or writes the accumulator window of a cluster. -/
def execAccumulatorAccess (g : Fin 1024) (off len : Nat) (data : Option (List Byte)) (s : State) : Out :=
  .next (
    let n := match data with | some bs => bs.length | none => len
    if n = 0 ∨ 0x2_0000 < off + n then s
    else if s.dormer 0 && s.accBusy g off n data.isSome then s.accHold .host g off n data.isSome data
    else s.accServe g ⟨.host, off, n, data.isSome, data, s.now, 0, false⟩)

/-- DORMER_ACCESS_TIMEOUT (R131): the oldest access of a cluster that waits for a busy tile has waited 500 µs. The host's
ends, and so does a posted write; another block finds its own too late when it comes back for it. -/
def execDormerAccessTimeout (g : Fin 1024) (s : State) : Out :=
  .next (
    match (s.cl g).accWait.find? (fun x => !x.expired) with
    | none => s
    | some x =>
      let s := (s.advanceTo (x.since + 500000)).updCl g (fun c => { c with
        accWait := if x.by_ = .host ∨ x.data.isSome = true then c.accWait.erase x
          else c.accWait.map (fun y => if y = x then { x with expired := true } else y) })
      let s := s.raise (g.val / 128) 0x0205 (plAt 16 (accAddr g x.off) + plAt 25 (if x.write then 1 else 0))
      let s := if x.by_ = .host ∧ x.write = false then s.send (.hostCpl (accAddr g x.off) (List.replicate x.len 0xFF#8) false) else s
      s.tileFreed g)

end Sys2Proof.Machine
end

