-- ==== Sys2Proof/Machine/Roce.lean ====
section
/-! DEFINITION. The ingest ports: RoCEv2 as responder and as requester, memory regions, congestion, flow control and
the state of the link (R293 to R298). -/
namespace Sys2Proof.Machine

/-! ## The responder (R294 to R296) -/

/-- A write arrives (R295): the region, its right, the lock, and the address space are judged before any byte is
written; `done` follows a write that took place. -/
def State.ingestWrite (s : State) (h : RoceHdr) (rkey va : Nat) (data : List Byte) (done : MemRegion → State → State) : State :=
  let p := h.port.val
  let q := h.qp.val
  let n := data.length
  s.takeRoce h (s.packets p n) (fun s => s.ackAgain p q) (fun _ s =>
    match s.region? p rkey with
    | none => s.sendNak p q h.psn 2
    | some m =>
      if !m.admits true va n then s.sendNak p q h.psn 2
      else
        match s.busPost (.ingest p) false va data with
        | .done t | .waits t => done m ((t.bump F.ETH_RXBYTES_BYTES n p).sendAck p q (psnAdd h.psn (t.packets p n - 1)))
        | .miss t => t.sendNak p q h.psn 2
        | .stopped _ t =>
          (((t.sendNak p q h.psn 2).set F.ETH_STATUS_LOCK_REFUSED 1 p).qpError p q stRefused 2).ingestRecord (p * 1024 + q) m.queue stLocked)

/-- RESPONDER_RDMA_WRITE: an RDMA WRITE arrives. -/
def execResponderRdmaWrite (h : RoceHdr) (rkey va : Nat) (data : List Byte) (s : State) : Out :=
  .next (s.ingestWrite h rkey va data (fun _ s => s))

/-- RESPONDER_WRITE_WITH_IMMEDIATE: an RDMA WRITE with immediate arrives; after its data a completion is written to the
bound queue (R296). -/
def execResponderWriteWithImmediate (h : RoceHdr) (rkey va : Nat) (data : List Byte) (_imm : Nat) (s : State) : Out :=
  .next (s.ingestWrite h rkey va data (fun m s => s.ingestRecord (h.port.val * 1024 + h.qp.val) m.queue stSuccess))

/-- The answer to an RDMA READ: its data, or a NAK where a region or the address space refuses it. -/
def State.readAnswer (s : State) (h : RoceHdr) (rkey va len : Nat) : State :=
  let p := h.port.val
  let q := h.qp.val
  match s.region? p rkey with
  | none => s.sendNak p q h.psn 2
  | some m =>
    if !m.admits false va len then s.sendNak p q h.psn 2
    else
      let r := s.busRead (.ingest p) va len
      if r.miss then r.st.sendNak p q h.psn 2
      else (r.st.bump F.ETH_TXBYTES_BYTES len p).portSend p q (.roce p q 2 h.psn 0 0 r.bytes)

/-- RESPONDER_RDMA_READ: an RDMA READ arrives and is answered with its data, a duplicate too. -/
def execResponderRdmaRead (h : RoceHdr) (rkey va len : Nat) (s : State) : Out :=
  .next (s.takeRoce h (s.packets h.port.val len) (fun s => s.readAnswer h rkey va len) (fun _ s => s.readAnswer h rkey va len))

/-! ## The requester -/

/-- A request that is acknowledged when the PSN `psn` is. -/
def RoceReq.endsBy (r : RoceReq) (psn : Nat) : Bool := decide (psnDiff psn (psnAdd r.psn (r.packets - 1)) < 2 ^ 23)

/-- Writes at the front of a queue pair's requests that an ACK covers; a read before it waits for its data. -/
def ackedBy (psn : Nat) : List RoceReq → List RoceReq
  | [] => []
  | r :: rest => if r.sent && !r.read && r.endsBy psn then r :: ackedBy psn rest else []

/-- An ACK of a PSN arrives. -/
def State.roceAcked (s : State) (port qp psn : Nat) (x : QueuePair) : State :=
  let l := ackedBy psn x.reqs
  l.foldl State.roceDone (s.putQp port qp { x with reqs := x.reqs.drop l.length, tries := if l = [] then x.tries else 0 })

/-- ROCE_ACK: a queue pair receives an ACK or a NAK (R294). A NAK for a PSN sequence error covers what came before and has
the rest sent again; every other NAK puts the queue pair into the error state. -/
def execRoceAck (port : Fin 2) (dest : QpFrame) (psn : Nat) (nak : Option Nat) (s : State) : Out :=
  .next (s.frameIn port.val dest.qp.val dest.f (fun s => match s.qp? port.val dest.qp.val with
    | none => s
    | some x =>
      if x.err then s
      else match nak with
        | none => s.roceAcked port.val dest.qp.val psn x
        | some 0 => (s.roceAcked port.val dest.qp.val (psnAdd psn (2 ^ 24 - 1)) x).goBack port.val dest.qp.val
        | some code => s.qpError port.val dest.qp.val stRefused code))

/-- ROCE_ACK_TIMEOUT: everything outstanding is sent again, as often as the context allows; then the queue pair is in
error (R294). -/
def execRoceAckTimeout (port : Fin 2) (qp : Fin 1024) (s : State) : Out :=
  .next (match s.qp? port.val qp.val with
    | none => s
    | some x =>
      if x.err || !(x.reqs.any (·.sent)) then s
      else if x.ctx.retries ≤ x.tries then s.qpError port.val qp.val stTimeout 0
      else (s.putQp port.val qp.val { x with tries := x.tries + 1 }).goBack port.val qp.val)

/-- RDMA_READ_RESPONSE: data of the oldest read arrive and are written (R294); a response out of order has the read sent
again. -/
def execRdmaReadResponse (port : Fin 2) (dest : QpFrame) (psn : Nat) (bytes : List Byte) (s : State) : Out :=
  let p := port.val
  let q := dest.qp.val
  .next (s.frameIn p q dest.f (fun s => match s.qp? p q with
    | none => s
    | some x =>
      if x.err then s
      else
        match x.reqs.find? (fun r => r.read && r.sent) with
        | none => s
        | some r =>
          -- writes before the read are acknowledged by its response
          let before := x.reqs.takeWhile (fun y => !y.read)
          let s := before.foldl State.roceDone (s.putQp p q { x with reqs := x.reqs.drop before.length, tries := 0 })
          if psn ≠ psnAdd r.psn (r.got / s.mtu p) then s.goBack p q
          else
            let data := bytes.take (r.len - r.got)
            let s := s.bump F.ETH_RXBYTES_BYTES data.length p
            let s := match r.cmd with | some c => s.act c.1 9 (ceilDiv data.length 64) | none => s
            let who : Writer := match r.cmd with | some c => .command c.1 | none => .device
            let wad := match r.cmd with | some c => s.queueWadding c.1 | none => false
            let set (s : State) (f : List RoceReq → List RoceReq) : State :=
              match s.qp? p q with | some y => s.putQp p q { y with reqs := f y.reqs } | none => s
            match s.busPost who wad (r.laddr + r.got) data with
            | .done t | .waits t =>
              if r.got + data.length < r.len then set t (fun l => l.map (fun y => if y = r then { r with got := r.got + data.length } else y))
              else (set t (fun l => l.erase r)).roceDone r
            | .miss t => (set t (fun l => l.erase r)).roceFailed r stUnmapped 0
            | .stopped .wadding t => (set t (fun l => l.erase r)).roceFailed r stWadding 0
            | .stopped .locked t => (set t (fun l => l.erase r)).roceFailed r stLocked 0))

/-- The parameters of RDMA_WRITE and RDMA_READ are checked (Table 13.8): the port, the queue pair, which must be set and
not in error, and the local range as a whole. -/
def State.rdmaStart (s : State) (c : Cmd) (read : Bool) : State :=
  let port := c.par 16 1
  let qp := c.par 18 2
  let laddr := c.par 24 8
  let raddr := c.par 32 8
  let n := c.par 40 4
  let rkey := c.par 44 4
  if 2 ≤ port then s.fail c stBadParam 16
  else if 1024 ≤ qp then s.fail c stBadParam 18
  else if 2 ^ 43 < laddr + n then s.fail c stBadParam 24
  else
    match s.qp? port qp with
    | none => s.fail c stConflict 0
    | some x =>
      if x.err then s.fail c stConflict 0
      else if !s.rangeMapped laddr n then (s.missEvent (.command c.q) laddr).fail c stUnmapped 0
      else
        let stop := if read then s.writeStop (.command c.q) c.wadding laddr n else none
        match stop with
        | some .wadding => s.fail c stWadding 0
        | some .locked => s.fail c stLocked 0
        | none => (s.cmdWaits c []).makeRoce port qp (some (c.q, c.seq)) none read laddr raddr n rkey

/-- RDMA_WRITE. -/
def execRdmaWrite (q : Fin 16384) (seq : Nat) (s : State) : Out :=
  .next (s.runCmd 0x0202 q seq (fun c s => s.rdmaStart c false))

/-- RDMA_READ. -/
def execRdmaRead (q : Fin 16384) (seq : Nat) (s : State) : Out :=
  .next (s.runCmd 0x0203 q seq (fun c s => s.rdmaStart c true))

/-! ## Congestion and flow control (Table 11.12, Table 11.13) -/

/-- CNP: the send rate of a queue pair is halved. -/
def execCnp (port : Fin 2) (dest : QpFrame) (s : State) : Out :=
  .next (s.frameIn port.val dest.qp.val dest.f (fun s => match s.qp? port.val dest.qp.val with
    | none => s
    | some x =>
      if s.bit F.ETH_CTRL_ECN_EN port.val then s.putQp port.val dest.qp.val { x with rate := x.rate / 2, cutAt := some s.now } else s))

/-- RATE_RESTORE: a step of the way back to the full rate, which is reached 55 µs after the last CNP. The steps between
are the event's. -/
def execRateRestore (port : Fin 2) (qp : Fin 1024) (rate : Rat) (s : State) : Out :=
  .next (match s.qp? port.val qp.val with
    | none => s
    | some x =>
      match x.cutAt with
      | none => s
      | some t =>
        if t + 55000 ≤ s.now then s.putQp port.val qp.val { x with rate := 1, cutAt := none }
        else s.putQp port.val qp.val { x with rate := max x.rate (min rate 1) })

/-- PRIORITY_FLOW_CONTROL_FRAME: sending on PFC_PRIO is paused or resumed. -/
def execPriorityFlowControlFrame (port : Fin 2) (prio : Fin 8) (pause : Bool) (s : State) : Out :=
  let p := port.val
  .next (if s.portRuns p && s.bit F.ETH_CTRL_PFC_EN p && s.get F.ETH_CTRL_PFC_PRIO p == prio.val then
    let others := s.eth.paused.filter (· != p)
    if pause then s.updEth (fun e => { e with paused := (others ++ [p]).mergeSort (· ≤ ·) })
    else (s.updEth (fun e => { e with paused := others })).pumpPort p
  else s)

/-- INGEST_LINK_STATE_CHANGE: the FEC lock and the link of a port change. The link is up only on an enabled port with its
FEC aligned; a link that goes down ends a pause. -/
def execIngestLinkStateChange (port : Fin 2) (up fec : Bool) (s : State) : Out :=
  let p := port.val
  let lock := fec && s.bit F.ETH_CTRL_EN p
  let link := up && lock
  let s := (s.set F.ETH_STATUS_FEC_LOCK (if lock then 1 else 0) p).set F.ETH_STATUS_LINK_UP (if link then 1 else 0) p
  .next (if link then s.pumpPort p else s.updEth (fun e => { e with paused := e.paused.filter (· != p) }))

/-- TRANSCEIVER_PRESENCE_CHANGE: MODULE_PRESENT follows the cage; without a transceiver there is no link. -/
def execTransceiverPresenceChange (port : Fin 2) (present : Bool) (s : State) : Out :=
  let p := port.val
  .next (if present then s.set F.ETH_STATUS_MODULE_PRESENT 1 p
    else ((s.set F.ETH_STATUS_MODULE_PRESENT 0 p).set F.ETH_STATUS_LINK_UP 0 p).set F.ETH_STATUS_FEC_LOCK 0 p)

/-! ## Regions and queue pairs -/

/-- The first free entry of a port's region table. -/
def State.freeRegion (s : State) (port : Nat) : Option Nat :=
  (List.range 4096).find? (fun i => (Sparse.get none s.eth.regions (port * 4096 + i)).isNone)

/-- MR_REGISTER (R295): RESULT is the rkey. Its low 12 bits are the entry; the manual leaves the rest open, a free value. -/
def execMrRegister (q : Fin 16384) (seq : Nat) (s : State) : Out :=
  .next (s.runCmd 0x0204 q seq (fun c s =>
    let port := c.par 33 1
    s.needA c 16 (fun base =>
      if 4 ≤ c.par 32 1 then s.fail c stBadParam 32
      else if 2 ≤ port then s.fail c stBadParam 33
      else if 16384 ≤ c.par 34 2 then s.fail c stBadParam 34
      else
        match s.freeRegion port with
        | none => s.fail c stConflict 0
        | some i =>
          let d := s.draw
          let rkey := d.1.toNat % 2 ^ 20 * 4096 + i
          let m : MemRegion := ⟨rkey, base, c.par 24 8, c.par 32 1 % 2 == 1, c.par 32 1 / 2 % 2 == 1, c.par 34 2⟩
          let s := d.2.updEth (fun e => { e with regions := Sparse.put none e.regions (port * 4096 + i) (some m) })
          (s.writeEntry port i).succeed c rkey)))

/-- MR_DEREGISTER. -/
def execMrDeregister (q : Fin 16384) (seq : Nat) (s : State) : Out :=
  .next (s.runCmd 0x0205 q seq (fun c s =>
    let rkey := c.par 16 4
    let port := c.par 20 1
    if 2 ≤ port then s.fail c stBadParam 20
    else match s.region? port rkey with
      | none => s.fail c stBadParam 16
      | some _ =>
        let s := s.updEth (fun e => { e with regions := Sparse.put none e.regions (port * 4096 + rkey % 4096) none })
        (s.writeEntry port (rkey % 4096)).succeed c 0))

/-- ROCE_QP_SET: the context of a queue pair is set, out of the error state; requests outstanding on it end. The 256
bytes go to the port's contexts at ETH_QP_BASE. -/
def execRoceQpSet (q : Fin 16384) (seq : Nat) (ctx : QpContext) (s : State) : Out :=
  .next (s.runCmd 0x0206 q seq (fun c s =>
    let qp := c.par 24 2
    let port := c.par 26 1
    s.needA c 16 (fun a =>
      if 1024 ≤ qp then s.fail c stBadParam 24
      else if 2 ≤ port then s.fail c stBadParam 26
      else s.needMem c a 256 (
        let dst := s.get F.ETH_QP_BASE_BASE port * 64 + 256 * qp
        s.needMem c dst 256 (
          let r := s.readMem .engine a 256
          let old := match r.st.qp? port qp with | some x => x.reqs | none => []
          let x : QueuePair := ⟨{ ctx with sendPsn := ctx.sendPsn % 2 ^ 24, recvPsn := ctx.recvPsn % 2 ^ 24 }, false, 0, [], 1, none, none⟩
          let s := (r.st.writeMem dst r.bytes).putQp port qp x
          (old.foldl (fun s y => s.roceFailed y stRefused 0) s).succeed c 0)))))

end Sys2Proof.Machine
end

