-- ==== Sys2Proof/Machine/Startup.lean ====
section
/-! DEFINITION. Start-up and reset (chapter 14): the stages S0 to S7, memory training, fill and restore. -/
namespace Sys2Proof.Machine

def State.setStart (s : State) (x : Start) : State := { s with start := x }

/-- POWER_ON (R358, R366): input is applied to a module without power; after a trip the cause is 3. -/
def execPowerOn (s : State) : Out :=
  .next (if s.start.stage = 11 then s.powerOnReset (if s.start.trip.isSome then 3 else 1) 0 else s)

/-- SUPPLY_QUALIFIED (R358): S0 ends. -/
def execSupplyQualified (s : State) : Out :=
  .next (if s.start.stage = 0 then s.setStart { s.start with stage := 1 } else s)

/-- POWER_GOOD (R358): S1 ends. -/
def execPowerGood (s : State) : Out :=
  .next (if s.start.stage = 1 then s.setStart { s.start with stage := 2 } else s)

/-- The latest checkpoint of the NV ring: the greatest (PWRCYC, OPSEC) of code 0x0001 (R408, R409). -/
def Gut.checkpoint (g : Gut) : Option Nat :=
  let rs := (g.nvRing.map Prod.snd).filter (fun r => r.code == 1)
  (rs.foldl (fun (best : Option GRec) r =>
    match best with
    | none => some r
    | some b => if b.pwrcyc < r.pwrcyc ∨ (b.pwrcyc = r.pwrcyc ∧ b.opsec ≤ r.opsec) then some r else some b) none).map (·.opsec)

/-- Operating seconds and the power-cycle count at a power-on (R408). -/
def State.resumeTime (s : State) : State :=
  if 3 < s.start.cause then s
  else
    let ops := match s.gut.checkpoint with | some n => n + 1 | none => 0
    (s.set F.GUT_TIME_OPSEC ops).set F.GUT_TIME_PWRCYC (s.sec.flash.pwrcyc + 1)

/-- The reset cause is the first record of a start; a latched trip is recorded and cleared (R356, R366). -/
def State.recordCause (s : State) : State :=
  let s := s.raise 0 0x0101 (plAt 16 s.start.cause)
  match s.start.trip with
  | some (d, t) => (s.raise 0 0x0108 (plAt 16 d + plAt 18 t)).setStart { s.start with trip := none }
  | none => s

/-- A bank that fails verification records its step. -/
def State.bankFailed (s : State) (b step : Nat) : State := s.raise 0 0x0104 (plAt 16 b + plAt 17 step)

/-- A bank is verified: it is the one to boot, or the next one follows. -/
def State.tryBank (s : State) (b : Nat) (next : State → Option Nat × State) : Option Nat × State :=
  match s.bankFails b with
  | none => (some b, s)
  | some step => next (s.bankFailed b step)

/-- Banks in the order in which they are verified (R396). -/
def State.pickBank (s : State) : List Nat → Option Nat × State
  | [] => (none, s)
  | b :: bs => s.tryBank b (fun t => t.pickBank bs)

/-- The image of a bank boots: SEC registers and MEAS[1] (R394 to R396). -/
def State.bootImage (s : State) (b : Nat) (unconfirmed : Bool) : State :=
  let h := s.header b
  let o := s.header (1 - b)
  let svn := fieldLe h 12 4
  let s := s.extend 1 ((h.drop 32).take 32 ++ leBytes 8 svn ++ leBytes 1 b)
  let s := (s.set F.SEC_STATUS_BANK b).set F.SEC_STATUS_TRIAL (if unconfirmed then 1 else 0)
  let s := (s.set F.SEC_ROLLBACK_SVN_RUNNING svn).set F.SEC_ROLLBACK_SVN_OTHER
    (if headerOk o then fieldLe o 12 4 else 0xFF)
  let s := (s.set F.SEC_FWVER_IMAGE_VERSION (fieldLe h 16 8)).set F.SEC_FWDIGEST_DIGEST (fieldLe h 32 8)
  let s := { s with sec := { s.sec with certRelease := fieldLe h 9 1 % 2 == 1, svn := svn } }
  s.assess.setStart { s.start with stage := 3 }

/-- ROM_BOOT (R356, R366, R394 to R396, R360). TRIAL is cleared in flash before anything boots, which waits while NV writes
are inhibited (R385). -/
def execRomBoot (s : State) : Out :=
  .next (
    if s.start.stage ≠ 2 ∨ (s.sec.flash.trial && s.nvInhibit) = true then s
    else
      let s := s.resumeTime.recordCause
      let s := (s.extend 0 Config.romHash).extend 4 (leBytes 8 (s.get F.SEC_ROLLBACK_COUNTER))
      let a := s.sec.flash.active
      let trial := s.sec.flash.trial
      let s := { s with sec := { s.sec with flash := { s.sec.flash with trial := false } } }
      let p := s.pickBank (if trial then [1 - a, a] else [a, 1 - a])
      match p.1 with
      | some b => p.2.bootImage b (b ≠ a)
      | none => p.2.setStart { p.2.start with stage := 9 })

/-- DIE_BRING_UP (R358, R369): the die links train, firmware loads and the timebase is released at 0, with
the work slot of batten 0 (R28); a die that fails
stops start-up. -/
def execDieBringUp (bad : Option (Fin 8)) (s : State) : Out :=
  .next (
    if s.start.stage ≠ 3 then s
    else match bad with
      | some d => (s.raise 0 0x0107 (plAt 16 d.val + plAt 17 3)).setStart { s.start with stage := 10 }
      | none => ((s.set F.TBN_TIME_TIME 0).openSlot).setStart { s.start with stage := 4 })

/-- Settings fields of Table 16.7: offset, size, least, greatest, default. -/
def settingsFields : List (Nat × Nat × Nat × Nat × Nat) :=
  [(0, 2, 1200, 2800, 2800), (2, 1, 0, 2, 0), (3, 1, 0, 1, 0), (4, 1, 0, 1, 0), (5, 1, 0, 1, 1),
   (8, 4, 0, 2 ^ 32 - 1, 0xC0A80A0A), (12, 1, 0, 32, 24), (16, 8, 0, 2 ^ 64 - 1, 0)]

/-- The defaults of Table 16.7. -/
def defaultFields : List Byte :=
  settingsFields.foldl (fun bs f => patch bs f.1 (leBytes f.2.1 f.2.2.2.2)) (List.replicate 3840 0#8)

/-- A field is in its range. -/
def fieldInRange (bs : List Byte) (f : Nat × Nat × Nat × Nat × Nat) : Bool :=
  let v := fieldLe bs f.1 f.2.1
  decide (f.2.2.1 ≤ v) && decide (v ≤ f.2.2.2.1) && (f.1 != 0 || v % 25 == 0)

/-- The valid copy with the higher SEQUENCE (R400). -/
def Flash.inForce (f : Flash) : Option Nat :=
  let a := f.copies.getD 0 []
  let b := f.copies.getD 1 []
  if blockValid a && blockValid b then some (if fieldLe a 8 4 < fieldLe b 8 4 then 1 else 0)
  else if blockValid a then some 0 else if blockValid b then some 1 else none

/-- What S4 makes of the block in flash (Table 14.4): fields, VERSION and SEQUENCE in force, whether a block is written,
and the case of code 0x0103. -/
structure Found where
  fields : List Byte
  stored : Nat
  seq : Nat
  write : Bool
  kind : Nat
  copy : Nat

/-- `fresh` names the offsets of the fields that an older version did not have. -/
def State.findSettings (s : State) (fresh : List Nat) : Found :=
  match s.sec.flash.inForce with
  | none => ⟨defaultFields, 0, 0, true, 3, 0⟩
  | some k =>
    let b := s.sec.flash.copies.getD k []
    let v := fieldLe b 4 2
    let n := fieldLe b 8 4
    if v = 3 then ⟨b.drop 256, v, n, false, 0, k⟩
    else if v < 3 then
      let f := settingsFields.foldl (fun bs f => if f.1 ∈ fresh then patch bs f.1 (leBytes f.2.1 f.2.2.2.2) else bs) (b.drop 256)
      ⟨f, v, n, true, 1, k⟩
    else ⟨defaultFields, v, n, false, 2, k⟩

/-- SETTINGS_READ (R360, R370, R400, R408). -/
def execSettingsRead (fresh : List Nat) (s : State) : Out :=
  .next (
    if s.start.stage ≠ 4 ∨ s.sec.live ≠ [] then s
    else
      let fd := s.findSettings fresh
      let s := if fd.kind = 0 then s else s.raise 0 0x0103 (plAt 16 fd.stored + plAt 18 3 + plAt 20 fd.kind)
      let bad := settingsFields.filter (fun f => !fieldInRange fd.fields f)
      let s := bad.foldl (fun s f => s.raise 0 0x0106 (plAt 16 f.1)) s
      let live := bad.foldl (fun bs f => patch bs f.1 (leBytes f.2.1 f.2.2.2.2)) fd.fields
      let s := (s.set F.CFG_SETSTATUS_VERSION 3).set F.CFG_SETSTATUS_SEQUENCE fd.seq
      let s := { s with sec := { s.sec with fields := fd.fields, live := live, copy := fd.copy } }
      let s := (s.loadStaging fd.fields).extend 2 (Config.sm3 (settingsBlock 3 fd.seq fd.fields))
      let s := (s.set F.PWR_CAP_CAP_W (fieldLe live 0 2)).set F.JFL_EPOCH_EPOCH (s.sec.flash.epoch + 1)
      let s := (s.raise 0 1 0).assess
      let s := if fd.write then s.commitFields fd.fields else s
      s.flashAdd .directory)

/-! ## Training, fill and restore (R361, R362, R365) -/

/-- The memories of a controller: stack numbers 0 to 15, packages 16 to 47. -/
def ctlDevs (ctl : Nat) : List Nat := if ctl < 16 then [ctl] else (List.range 4).map (fun i => 16 + 4 * (ctl - 16) + i)

/-- The memory that a channel of a controller serves. -/
def chanDev (ctl ch : Nat) : Nat := if ctl < 16 then ctl else 16 + 4 * (ctl - 16) + ch / 4

/-- The controller of a memory. -/
def devCtl (dev : Nat) : Nat := if dev < 16 then dev else 16 + (dev - 16) / 4

/-- Rounds that train every channel once. -/
def trainRounds (ctl : Nat) : Nat := if ctl < 16 then 16 else 4

/-- A memory fails: one event names its channel (R362). -/
def State.devDead (s : State) (ctl dev : Nat) : State :=
  let ch := ((s.start.failed.filter (fun k => decide (devCtl dev = ctl) && k / 256 == ctl && chanDev ctl (k % 256) == dev)).headD 0) % 256
  (s.raise (ctlDie ctl) 0x0506 (s.memPayload ctl ch)).setStart { s.start with dead := s.start.dead ++ [dev] }

/-- A round of a memory's training: in its first rounds the channels that did not train join those that failed, in a
retry those that train leave them. It has trained when none is left, and has failed after two retries. -/
def State.trainDev (s : State) (ctl : Nat) (bad : List Nat) (dev : Nat) : State :=
  let n := Sparse.get 0 s.start.rounds dev + 1
  let mine (k : Nat) : Bool := k / 256 == ctl && chanDev ctl (k % 256) == dev
  let now := (bad.map (fun ch => ctl * 256 + ch)).filter mine
  let failed :=
    if n ≤ trainRounds ctl then s.start.failed ++ now.filter (fun k => decide (k ∉ s.start.failed))
    else s.start.failed.filter (fun k => !mine k || decide (k ∈ now))
  let x := { s.start with rounds := Sparse.put 0 s.start.rounds dev n, failed := failed }
  if n < trainRounds ctl then s.setStart x
  else if failed.any mine = false then s.setStart { x with trained := x.trained ++ [dev] }
  else if n < trainRounds ctl + 2 then s.setStart x
  else (s.setStart x).devDead ctl dev

/-- S6 ends when every memory is in service or has failed; the services of S7 may then start. -/
def State.endS6 (s : State) : State :=
  if s.start.stage = 5 ∧ (List.range 48).all (fun d => s.inService / 2 ^ d % 2 == 1 || decide (d ∈ s.start.dead)) then
    s.setStart { s.start with stage := 7 }
  else s

/-- CHANNEL_TRAINING_ROUND (R361): `bad` are the channels of the controller that this round did not train; it serves every
memory of the controller that is in training. Channels are kept as controller × 256 + channel. -/
def execChannelTrainingRound (ctl : Fin 24) (bad : List Nat) (s : State) : Out :=
  .next (
    let devs := (ctlDevs ctl).filter (fun d => d ∈ s.start.full ∧ d ∉ s.start.dead ∧ d ∉ s.start.trained)
    if s.start.stage ≠ 5 then s else (devs.foldl (fun s d => s.trainDev ctl bad d) s).endS6)

/-- A memory enters service (R362). -/
def State.enterService (s : State) (dev : Nat) : State :=
  if dev < 16 then s.set F.CFG_MEMSTATE_NEAR_UP (s.get F.CFG_MEMSTATE_NEAR_UP ||| 2 ^ dev)
  else s.set F.CFG_MEMSTATE_BULK_UP (s.get F.CFG_MEMSTATE_BULK_UP ||| 2 ^ (dev - 16))

/-- Base of a memory's window. -/
def devBase (dev : Nat) : Nat := if dev < 16 then dev * windowSize else 0x20000000000 + (dev - 16) * windowSize

/-- STACK_FILL (R362): a trained memory is zero-filled, with check symbols, and enters service. -/
def execStackFill (dev : Fin 48) (s : State) : Out :=
  .next (
    if s.start.stage ≠ 5 ∨ dev.val ∉ s.start.trained then s.endS6
    else
      let lo := devBase dev
      let inDev (a : Nat) : Bool := decide (lo ≤ a) && decide (a < lo + windowSize)
      let s := { s with
        mem := s.mem.filter (fun p => !inDev p.1)
        upset := s.upset.filter (fun p => !inDev (p.1 * 64)) }
      let s := s.setStart { s.start with
        trained := s.start.trained.filter (· ≠ dev.val), full := s.start.full.filter (· ≠ dev.val) }
      (s.enterService dev).endS6)

/-- CHANNEL_RESTORE (R365): a kept channel leaves self-refresh and retrains once; a memory with a channel that fails is
trained in full and loses its contents. -/
def execChannelRestore (chan : Fin 2176) (ok : Bool) (s : State) : Out :=
  .next (
    let ctl := if chan.val < 2048 then chan.val / 128 else 16 + (chan.val - 2048) / 16
    let ch := if chan.val < 2048 then chan.val % 128 else (chan.val - 2048) % 16
    let dev := chanDev ctl ch
    if s.start.stage ≠ 5 ∨ dev ∈ s.start.full ∨ s.inService / 2 ^ dev % 2 = 1 then s
    else if ok then
      let done := if chan.val ∈ s.start.restored then s.start.restored else s.start.restored ++ [chan.val]
      let s := s.setStart { s.start with restored := done }
      let mine := done.filter (fun k => if k < 2048 then k / 128 == dev else 16 + (k - 2048) / 4 == dev)
      if mine.length = (if dev < 16 then 128 else 4) then (s.enterService dev).endS6 else s
    else
      (s.raise (ctlDie ctl) 0x0506 (s.memPayload ctl ch)).setStart { s.start with full := s.start.full ++ [dev] })

/-- SERVICES_START (R358, R357, R400): S7; cluster memories are zeroed and the settings of S7 reach their registers. -/
def execServicesStart (s : State) : Out :=
  .next (
    if s.start.stage ≠ 7 ∨ s.start.services = true then s
    else
      let s := { s with clusters := [] }
      let s := (s.set F.HIF_CTRL_PERST_SCOPE (s.setting 2 1)).set F.HIF_CTRL_CXL_EN (s.setting 3 1)
      let s := s.set F.LDG_DKEY_KEY (s.setting 16 8)
      s.setStart { s.start with services := true })

/-- A trial image is confirmed (R397): first its bank is to be written to ACTIVE. -/
def State.confirmImage (s : State) : State :=
  if s.bit F.SEC_STATUS_TRIAL then { s with sec := { s.sec with confirm := true } }.flashAdd .directory else s

/-- READY (R368, R397). The firmware's version number, at least 1, is a free value (assumption log 9). -/
def execReady (s : State) : Out :=
  .next (
    if s.start.stage ≠ 7 ∨ s.start.services = false then s
    else
      let p := s.draw
      let v := 1 + p.1.toNat % (2 ^ 32 - 1)
      let s := (List.range 8).foldl (fun s d => s.set F.QP_FWVER_VERSION v d) p.2
      let s := s.setStart { s.start with stage := 8 }
      (s.raise 0 0x0102 (plAt 16 (s.rd .cfgMemstate 0 0).toNat)).confirmImage)

/-- MODULE_RESET (R364, Table 14.1): causes 4 to 7. -/
def execModuleReset (cause : Nat) (s : State) : Out :=
  .next (if 4 ≤ cause ∧ cause ≤ 7 ∧ s.powered = true then s.moduleReset cause else s)

/-- WATCHDOG_EXPIRY (R356): the queue-processor firmware of a die has not served its watchdog; it runs from S3 on. -/
def execWatchdogExpiry (_die : Fin 8) (s : State) : Out :=
  .next (if s.powered = true ∧ 4 ≤ s.start.stage ∧ s.start.stage ≤ 8 then s.moduleReset 6 else s)

end Sys2Proof.Machine
end

