-- ==== Sys2Proof/Machine/Dispatch.lean ====
section
/-! DEFINITION. The meaning of each command: one arm per constructor of `Instr`. -/
namespace Sys2Proof.Machine

/-- The effect of a command on everything but the queue. -/
def exec (i : Instr) (s : State) : Host.Outcome State Fault Refusal :=
  match i with
  | .registerWrite addr bytes by_ => Sys2Proof.Machine.execRegisterWrite addr bytes by_ s
  | .readClear addr by_ => Sys2Proof.Machine.execReadClear addr by_ s
  | .cfgDevnumWrite die value => Sys2Proof.Machine.execCfgDevnumWrite die value s
  | .tbnSettingWrite die which value => Sys2Proof.Machine.execTbnSettingWrite die which value s
  | .tbnStaggerWrite die value => Sys2Proof.Machine.execTbnStaggerWrite die value s
  | .tick => Sys2Proof.Machine.execTick s
  | .workSlotBegin => Sys2Proof.Machine.execWorkSlotBegin s
  | .courseItemIssue item => Sys2Proof.Machine.execCourseItemIssue item s
  | .workSlotEnd => Sys2Proof.Machine.execWorkSlotEnd s
  | .quantumEnd => Sys2Proof.Machine.execQuantumEnd s
  | .calibrationSlot => Sys2Proof.Machine.execCalibrationSlot s
  | .retrainEnd ctl converged margin => Sys2Proof.Machine.execRetrainEnd ctl converged margin s
  | .scrubSlot cut => Sys2Proof.Machine.execScrubSlot cut s
  | .ledgerSlot => Sys2Proof.Machine.execLedgerSlot s
  | .energyRefit coef => Sys2Proof.Machine.execEnergyRefit coef s
  | .sync h batten time interval slots ovr stagger => Sys2Proof.Machine.execSync h batten time interval slots ovr stagger s
  | .syncMissed => Sys2Proof.Machine.execSyncMissed s
  | .delayReq h rtt held => Sys2Proof.Machine.execDelayReq h rtt held s
  | .delayRsp h status own peer => Sys2Proof.Machine.execDelayRsp h status own peer s
  | .notDone h course => Sys2Proof.Machine.execNotDone h course s
  | .extend h course => Sys2Proof.Machine.execExtend h course s
  | .proceed h course => Sys2Proof.Machine.execProceed h course s
  | .abortCourseMsg h course cause => Sys2Proof.Machine.execAbortCourseMsg h course cause s
  | .addsDone h course => Sys2Proof.Machine.execAddsDone h course s
  | .allAddsDone h course => Sys2Proof.Machine.execAllAddsDone h course s
  | .foldBegin => Sys2Proof.Machine.execFoldBegin s
  | .foldRow u whole => Sys2Proof.Machine.execFoldRow u whole s
  | .denseFoldItem u whole => Sys2Proof.Machine.execDenseFoldItem u whole s
  | .foldEnd => Sys2Proof.Machine.execFoldEnd s
  | .digestCapture => Sys2Proof.Machine.execDigestCapture s
  | .digest h course level rank base entries => Sys2Proof.Machine.execDigest h course level rank base entries s
  | .digestWaitTimeout rank => Sys2Proof.Machine.execDigestWaitTimeout rank s
  | .ledgerRecordWrite => Sys2Proof.Machine.execLedgerRecordWrite s
  | .courseEndPoint => Sys2Proof.Machine.execCourseEndPoint s
  | .abortComplete => Sys2Proof.Machine.execAbortComplete s
  | .repair => Sys2Proof.Machine.execRepair s
  | .compareHaltRelease => Sys2Proof.Machine.execCompareHaltRelease s
  | .barrierSatisfied id => Sys2Proof.Machine.execBarrierSatisfied id s
  | .powerReady die => Sys2Proof.Machine.execPowerReady die s
  | .pwrWaitTimeout die => Sys2Proof.Machine.execPwrWaitTimeout die s
  | .groupRelease die k => Sys2Proof.Machine.execGroupRelease die k s
  | .sqCredit h addr => Sys2Proof.Machine.execSqCredit h addr s
  | .programStart g => Sys2Proof.Machine.execProgramStart g s
  | .programComplete g => Sys2Proof.Machine.execProgramComplete g s
  | .ccHalt g halt => Sys2Proof.Machine.execCcHalt g halt s
  | .ccStep g => Sys2Proof.Machine.execCcStep g s
  | .scalarRegisterWrite g n value => Sys2Proof.Machine.execScalarRegisterWrite g n value s
  | .programMemoryWrite g off bytes => Sys2Proof.Machine.execProgramMemoryWrite g off bytes s
  | .nop g => Sys2Proof.Machine.execNop g s
  | .alu g => Sys2Proof.Machine.execAlu g s
  | .alui g => Sys2Proof.Machine.execAlui g s
  | .lih g => Sys2Proof.Machine.execLih g s
  | .falu g => Sys2Proof.Machine.execFalu g s
  | .sscale g => Sys2Proof.Machine.execSscale g s
  | .br g => Sys2Proof.Machine.execBr g s
  | .jal g => Sys2Proof.Machine.execJal g s
  | .jalr g => Sys2Proof.Machine.execJalr g s
  | .ldl g => Sys2Proof.Machine.execLdl g s
  | .stl g => Sys2Proof.Machine.execStl g s
  | .ldm g => Sys2Proof.Machine.execLdm g s
  | .ldmResponse g rd => Sys2Proof.Machine.execLdmResponse g rd s
  | .stm g => Sys2Proof.Machine.execStm g s
  | .dma g => Sys2Proof.Machine.execDma g s
  | .dmaComplete g ch => Sys2Proof.Machine.execDmaComplete g ch s
  | .wait g => Sys2Proof.Machine.execWait g s
  | .mcfg g => Sys2Proof.Machine.execMcfg g s
  | .mma g => Sys2Proof.Machine.execMma g s
  | .mmaArrayEntry g => Sys2Proof.Machine.execMmaArrayEntry g s
  | .chunkPromotion g => Sys2Proof.Machine.execChunkPromotion g s
  | .segmentClose g => Sys2Proof.Machine.execSegmentClose g s
  | .mmaComplete g => Sys2Proof.Machine.execMmaComplete g s
  | .auditUnit g => Sys2Proof.Machine.execAuditUnit g s
  | .compChange g value => Sys2Proof.Machine.execCompChange g value s
  | .accumulatorAccess g off len data => Sys2Proof.Machine.execAccumulatorAccess g off len data s
  | .dormerAccessTimeout g => Sys2Proof.Machine.execDormerAccessTimeout g s
  | .accSegWrite g t value => Sys2Proof.Machine.execAccSegWrite g t value s
  | .vctx g => Sys2Proof.Machine.execVctx g s
  | .vld g => Sys2Proof.Machine.execVld g s
  | .vst g => Sys2Proof.Machine.execVst g s
  | .vgather g => Sys2Proof.Machine.execVgather g s
  | .vscatter g => Sys2Proof.Machine.execVscatter g s
  | .vtrd g => Sys2Proof.Machine.execVtrd g s
  | .vbcast g => Sys2Proof.Machine.execVbcast g s
  | .vop g => Sys2Proof.Machine.execVop g s
  | .vfn g => Sys2Proof.Machine.execVfn g s
  | .vcmp g => Sys2Proof.Machine.execVcmp g s
  | .vmsk g => Sys2Proof.Machine.execVmsk g s
  | .vhad g => Sys2Proof.Machine.execVhad g s
  | .vrow g => Sys2Proof.Machine.execVrow g s
  | .vscale g => Sys2Proof.Machine.execVscale g s
  | .vsum g => Sys2Proof.Machine.execVsum g s
  | .vectorOpComplete g => Sys2Proof.Machine.execVectorOpComplete g s
  | .eob g => Sys2Proof.Machine.execEob g s
  | .bar g => Sys2Proof.Machine.execBar g s
  | .sqpush g => Sys2Proof.Machine.execSqpush g s
  | .sqpop g => Sys2Proof.Machine.execSqpop g s
  | .chn g => Sys2Proof.Machine.execChn g s
  | .endProgram g => Sys2Proof.Machine.execEndProgram g s
  | .chainSum h id member row sum => Sys2Proof.Machine.execChainSum h id member row sum s
  | .collResult h id chunk => Sys2Proof.Machine.execCollResult h id chunk s
  | .lineResponse die pick => Sys2Proof.Machine.execLineResponse die pick s
  | .descriptorComplete die q => Sys2Proof.Machine.execDescriptorComplete die q s
  | .stageRows die => Sys2Proof.Machine.execStageRows die s
  | .stagingReadIssue die => Sys2Proof.Machine.execStagingReadIssue die s
  | .stagingCopyDone die => Sys2Proof.Machine.execStagingCopyDone die s
  | .localRowAdd u => Sys2Proof.Machine.execLocalRowAdd u s
  | .updEnd u => Sys2Proof.Machine.execUpdEnd u s
  | .ldg u => Sys2Proof.Machine.execLdg u s
  | .ldw u => Sys2Proof.Machine.execLdw u s
  | .lds u => Sys2Proof.Machine.execLds u s
  | .ldp u => Sys2Proof.Machine.execLdp u s
  | .ldk u => Sys2Proof.Machine.execLdk u s
  | .ldcol u => Sys2Proof.Machine.execLdcol u s
  | .fadd u => Sys2Proof.Machine.execFadd u s
  | .fsub u => Sys2Proof.Machine.execFsub u s
  | .fmul u => Sys2Proof.Machine.execFmul u s
  | .fdiv u => Sys2Proof.Machine.execFdiv u s
  | .fma u => Sys2Proof.Machine.execFma u s
  | .fmin u => Sys2Proof.Machine.execFmin u s
  | .fmax u => Sys2Proof.Machine.execFmax u s
  | .fabs u => Sys2Proof.Machine.execFabs u s
  | .fneg u => Sys2Proof.Machine.execFneg u s
  | .fsqrt u => Sys2Proof.Machine.execFsqrt u s
  | .frsqrt u => Sys2Proof.Machine.execFrsqrt u s
  | .fsel u => Sys2Proof.Machine.execFsel u s
  | .rsum u => Sys2Proof.Machine.execRsum u s
  | .ramax u => Sys2Proof.Machine.execRamax u s
  | .cacc u => Sys2Proof.Machine.execCacc u s
  | .sts u => Sys2Proof.Machine.execSts u s
  | .stw u => Sys2Proof.Machine.execStw u s
  | .memRead line who upset => Sys2Proof.Machine.execMemRead line who upset s
  | .writeBack line => Sys2Proof.Machine.execWriteBack line s
  | .memWrite line bytes by_ wadding => Sys2Proof.Machine.execMemWrite line bytes by_ wadding s
  | .partialWrite line off bytes by_ wadding => Sys2Proof.Machine.execPartialWrite line off bytes by_ wadding s
  | .channelIssue chan pick => Sys2Proof.Machine.execChannelIssue chan pick s
  | .refresh chan bank mr4 => Sys2Proof.Machine.execRefresh chan bank mr4 s
  | .digestScanEnd region => Sys2Proof.Machine.execDigestScanEnd region s
  | .dkeyWrite die value => Sys2Proof.Machine.execDkeyWrite die value s
  | .moveItem item => Sys2Proof.Machine.execMoveItem item s
  | .moveCopyEnd table shard => Sys2Proof.Machine.execMoveCopyEnd table shard s
  | .moveForwardClose table shard => Sys2Proof.Machine.execMoveForwardClose table shard s
  | .streamRowWrite => Sys2Proof.Machine.execStreamRowWrite s
  | .flitReceive port f fec crcOk => Sys2Proof.Machine.execFlitReceive port f fec crcOk s
  | .replayRequest port seq => Sys2Proof.Machine.execReplayRequest port seq s
  | .fecLockLoss port => Sys2Proof.Machine.execFecLockLoss port s
  | .linkTrainingEnd port ok strap maxver dev valid peerPort slot => Sys2Proof.Machine.execLinkTrainingEnd port ok strap maxver dev valid peerPort slot s
  | .portRetrain port value => Sys2Proof.Machine.execPortRetrain port value s
  | .read h addr len => Sys2Proof.Machine.execRead h addr len s
  | .store h addr data => Sys2Proof.Machine.execStore h addr data s
  | .atomicW96 h addr accs => Sys2Proof.Machine.execAtomicW96 h addr accs s
  | .rowAdd h table row count accs => Sys2Proof.Machine.execRowAdd h table row count accs s
  | .yealmReq h table rows => Sys2Proof.Machine.execYealmReq h table rows s
  | .readRsp h status unc bytes => Sys2Proof.Machine.execReadRsp h status unc bytes s
  | .ack h status => Sys2Proof.Machine.execAck h status s
  | .yealmRsp h status unc bytes shards => Sys2Proof.Machine.execYealmRsp h status unc bytes shards s
  | .probe port src tag => Sys2Proof.Machine.execProbe port src tag s
  | .probeRsp port src rtt => Sys2Proof.Machine.execProbeRsp port src rtt s
  | .ident port src tag strap => Sys2Proof.Machine.execIdent port src tag strap s
  | .identRsp port tag dev valid peerPort slot => Sys2Proof.Machine.execIdentRsp port tag dev valid peerPort slot s
  | .reqTimeoutExpiry tag => Sys2Proof.Machine.execReqTimeoutExpiry tag s
  | .probeWaitExpiry dev => Sys2Proof.Machine.execProbeWaitExpiry dev s
  | .probeRound dev => Sys2Proof.Machine.execProbeRound dev s
  | .levelProbe => Sys2Proof.Machine.execLevelProbe s
  | .jflLostClear word mask => Sys2Proof.Machine.execJflLostClear word mask s
  | .responderRdmaWrite h rkey va data => Sys2Proof.Machine.execResponderRdmaWrite h rkey va data s
  | .responderWriteWithImmediate h rkey va data imm => Sys2Proof.Machine.execResponderWriteWithImmediate h rkey va data imm s
  | .responderRdmaRead h rkey va len => Sys2Proof.Machine.execResponderRdmaRead h rkey va len s
  | .roceAck port dest psn nak => Sys2Proof.Machine.execRoceAck port dest psn nak s
  | .roceAckTimeout port qp => Sys2Proof.Machine.execRoceAckTimeout port qp s
  | .cnp port dest => Sys2Proof.Machine.execCnp port dest s
  | .rateRestore port qp rate => Sys2Proof.Machine.execRateRestore port qp rate s
  | .hostWrite addr bytes poison => Sys2Proof.Machine.execHostWrite addr bytes poison s
  | .hostRead addr len => Sys2Proof.Machine.execHostRead addr len s
  | .doorbell q head value => Sys2Proof.Machine.execDoorbell q head value s
  | .fencedDoorbell q head value drain => Sys2Proof.Machine.execFencedDoorbell q head value drain s
  | .qpQdbWrite q value => Sys2Proof.Machine.execQpQdbWrite q value s
  | .queueArm q value => Sys2Proof.Machine.execQueueArm q value s
  | .queueDisarm q value => Sys2Proof.Machine.execQueueDisarm q value s
  | .packetTake q ring => Sys2Proof.Machine.execPacketTake q ring s
  | .packetReread q ring => Sys2Proof.Machine.execPacketReread q ring s
  | .completionRecord q => Sys2Proof.Machine.execCompletionRecord q s
  | .hostLinkDown => Sys2Proof.Machine.execHostLinkDown s
  | .perst => Sys2Proof.Machine.execPerst s
  | .hotReset => Sys2Proof.Machine.execHotReset s
  | .linkDisable => Sys2Proof.Machine.execLinkDisable s
  | .functionLevelReset => Sys2Proof.Machine.execFunctionLevelReset s
  | .hostLinkTrain cxl speed width => Sys2Proof.Machine.execHostLinkTrain cxl speed width s
  | .cxlMemRequest line data => Sys2Proof.Machine.execCxlMemRequest line data s
  | .cmdNop q seq => Sys2Proof.Machine.execCmdNop q seq s
  | .getInterface q seq => Sys2Proof.Machine.execGetInterface q seq s
  | .launch q seq => Sys2Proof.Machine.execLaunch q seq s
  | .abortCourse q seq => Sys2Proof.Machine.execAbortCourse q seq s
  | .courseLoad q seq prog => Sys2Proof.Machine.execCourseLoad q seq prog s
  | .courseWait q seq => Sys2Proof.Machine.execCourseWait q seq s
  | .dmaCopy q seq => Sys2Proof.Machine.execDmaCopy q seq s
  | .dmaFill q seq => Sys2Proof.Machine.execDmaFill q seq s
  | .rdmaWrite q seq => Sys2Proof.Machine.execRdmaWrite q seq s
  | .rdmaRead q seq => Sys2Proof.Machine.execRdmaRead q seq s
  | .mrRegister q seq => Sys2Proof.Machine.execMrRegister q seq s
  | .mrDeregister q seq => Sys2Proof.Machine.execMrDeregister q seq s
  | .roceQpSet q seq ctx => Sys2Proof.Machine.execRoceQpSet q seq ctx s
  | .biasSet q seq => Sys2Proof.Machine.execBiasSet q seq s
  | .tableDirectory q seq => Sys2Proof.Machine.execTableDirectory q seq s
  | .tableDefine q seq => Sys2Proof.Machine.execTableDefine q seq s
  | .tableDelete q seq => Sys2Proof.Machine.execTableDelete q seq s
  | .shardMove q seq => Sys2Proof.Machine.execShardMove q seq s
  | .eavesDefine q seq => Sys2Proof.Machine.execEavesDefine q seq s
  | .ylmRun q seq => Sys2Proof.Machine.execYlmRun q seq s
  | .ylmPrefetch q seq => Sys2Proof.Machine.execYlmPrefetch q seq s
  | .updProgram q seq => Sys2Proof.Machine.execUpdProgram q seq s
  | .updBind q seq => Sys2Proof.Machine.execUpdBind q seq s
  | .tableFlip q seq => Sys2Proof.Machine.execTableFlip q seq s
  | .streamBatch q seq => Sys2Proof.Machine.execStreamBatch q seq s
  | .collective q seq => Sys2Proof.Machine.execCollective q seq s
  | .fabricCopy q seq => Sys2Proof.Machine.execFabricCopy q seq s
  | .fabricIdent q seq => Sys2Proof.Machine.execFabricIdent q seq s
  | .digestEnable q seq => Sys2Proof.Machine.execDigestEnable q seq s
  | .digestDisable q seq => Sys2Proof.Machine.execDigestDisable q seq s
  | .ldgSubdigest q seq => Sys2Proof.Machine.execLdgSubdigest q seq s
  | .ldgRangeDigest q seq => Sys2Proof.Machine.execLdgRangeDigest q seq s
  | .ldgTableDigest q seq => Sys2Proof.Machine.execLdgTableDigest q seq s
  | .loadHint q seq => Sys2Proof.Machine.execLoadHint q seq s
  | .powerCap q seq => Sys2Proof.Machine.execPowerCap q seq s
  | .gutFreeze q seq => Sys2Proof.Machine.execGutFreeze q seq s
  | .gutThaw q seq => Sys2Proof.Machine.execGutThaw q seq s
  | .gutCopy q seq => Sys2Proof.Machine.execGutCopy q seq s
  | .gutFilter q seq => Sys2Proof.Machine.execGutFilter q seq s
  | .attest q seq => Sys2Proof.Machine.execAttest q seq s
  | .dormerUnlock q seq => Sys2Proof.Machine.execDormerUnlock q seq s
  | .dormerLock q seq => Sys2Proof.Machine.execDormerLock q seq s
  | .measurements q seq => Sys2Proof.Machine.execMeasurements q seq s
  | .dormerExpiry => Sys2Proof.Machine.execDormerExpiry s
  | .settingsCommit => Sys2Proof.Machine.execSettingsCommit s
  | .settingsRevert => Sys2Proof.Machine.execSettingsRevert s
  | .commitDone ok => Sys2Proof.Machine.execCommitDone ok s
  | .status crcOk => Sys2Proof.Machine.execStatus crcOk s
  | .intakeBegin crcOk uart => Sys2Proof.Machine.execIntakeBegin crcOk uart s
  | .intakeData crcOk off bytes => Sys2Proof.Machine.execIntakeData crcOk off bytes s
  | .intakeEnd crcOk => Sys2Proof.Machine.execIntakeEnd crcOk s
  | .activate crcOk force => Sys2Proof.Machine.execActivate crcOk force s
  | .reset crcOk => Sys2Proof.Machine.execReset crcOk s
  | .gutRead crcOk start count => Sys2Proof.Machine.execGutRead crcOk start count s
  | .powerOn => Sys2Proof.Machine.execPowerOn s
  | .supplyQualified => Sys2Proof.Machine.execSupplyQualified s
  | .powerGood => Sys2Proof.Machine.execPowerGood s
  | .romBoot => Sys2Proof.Machine.execRomBoot s
  | .dieBringUp bad => Sys2Proof.Machine.execDieBringUp bad s
  | .settingsRead fresh => Sys2Proof.Machine.execSettingsRead fresh s
  | .channelTrainingRound ctl bad => Sys2Proof.Machine.execChannelTrainingRound ctl bad s
  | .stackFill dev => Sys2Proof.Machine.execStackFill dev s
  | .servicesStart => Sys2Proof.Machine.execServicesStart s
  | .ready => Sys2Proof.Machine.execReady s
  | .moduleReset cause => Sys2Proof.Machine.execModuleReset cause s
  | .channelRestore chan ok => Sys2Proof.Machine.execChannelRestore chan ok s
  | .watchdogExpiry die => Sys2Proof.Machine.execWatchdogExpiry die s
  | .inputSample mv ma => Sys2Proof.Machine.execInputSample mv ma s
  | .budgetUpdate b => Sys2Proof.Machine.execBudgetUpdate b s
  | .capStep die duty => Sys2Proof.Machine.execCapStep die duty s
  | .capRelax die => Sys2Proof.Machine.execCapRelax die s
  | .vfStepChange die => Sys2Proof.Machine.execVfStepChange die s
  | .grantRequest die matrix memory => Sys2Proof.Machine.execGrantRequest die matrix memory s
  | .hintLead die => Sys2Proof.Machine.execHintLead die s
  | .hintHoldEnd die => Sys2Proof.Machine.execHintHoldEnd die s
  | .hintExpiry die => Sys2Proof.Machine.execHintExpiry die s
  | .pwrCoefWrite die k value => Sys2Proof.Machine.execPwrCoefWrite die k value s
  | .pwrPolicyWrite die cls value => Sys2Proof.Machine.execPwrPolicyWrite die cls value s
  | .pwrCapWrite die value => Sys2Proof.Machine.execPwrCapWrite die value s
  | .droopDetect die group => Sys2Proof.Machine.execDroopDetect die group s
  | .droopRecover die group cycles => Sys2Proof.Machine.execDroopRecover die group cycles s
  | .thermalSample die temps => Sys2Proof.Machine.execThermalSample die temps s
  | .thermalStep die => Sys2Proof.Machine.execThermalStep die s
  | .thermalRelax die => Sys2Proof.Machine.execThermalRelax die s
  | .trip die temp => Sys2Proof.Machine.execTrip die temp s
  | .sagBegin mv => Sys2Proof.Machine.execSagBegin mv s
  | .sagEnd => Sys2Proof.Machine.execSagEnd s
  | .supplyCollapse mv => Sys2Proof.Machine.execSupplyCollapse mv s
  | .overvoltage mv => Sys2Proof.Machine.execOvervoltage mv s
  | .overvoltageClear mv => Sys2Proof.Machine.execOvervoltageClear mv s
  | .flashPageDone => Sys2Proof.Machine.execFlashPageDone s
  | .gutterEvent die code payload => Sys2Proof.Machine.execGutterEvent die code payload s
  | .gutterDrain die => Sys2Proof.Machine.execGutterDrain die s
  | .foldWindowClose die => Sys2Proof.Machine.execFoldWindowClose die s
  | .dropReport die => Sys2Proof.Machine.execDropReport die s
  | .nvPageProgram firstOk secondOk => Sys2Proof.Machine.execNvPageProgram firstOk secondOk s
  | .sectorErase => Sys2Proof.Machine.execSectorErase s
  | .freezeTimeout => Sys2Proof.Machine.execFreezeTimeout s
  | .opsecAdvance => Sys2Proof.Machine.execOpsecAdvance s
  | .stageQueueCopyComplete g => Sys2Proof.Machine.execStageQueueCopyComplete g s
  | .hostMemoryReadCompletion q seq ans => Sys2Proof.Machine.execHostMemoryReadCompletion q seq ans s
  | .hostCompletionTimeout q seq => Sys2Proof.Machine.execHostCompletionTimeout q seq s
  | .cxlCacheResponse page => Sys2Proof.Machine.execCxlCacheResponse page s
  | .configurationAccess req => Sys2Proof.Machine.execConfigurationAccess req s
  | .ingestLinkStateChange port up fec => Sys2Proof.Machine.execIngestLinkStateChange port up fec s
  | .transceiverPresenceChange port present => Sys2Proof.Machine.execTransceiverPresenceChange port present s
  | .rdmaReadResponse port dest psn bytes => Sys2Proof.Machine.execRdmaReadResponse port dest psn bytes s
  | .priorityFlowControlFrame port prio pause => Sys2Proof.Machine.execPriorityFlowControlFrame port prio pause s
  | .hintStart die => Sys2Proof.Machine.execHintStart die s

end Sys2Proof.Machine
end

