-- ==== Sys2Proof/WellFormed.lean ====
section
/-! DEFINITION. Well-formed commands: the operands that a command can carry, by the widths that the manual gives the
fields. The numbers of dies, clusters, queues, ports, units and channels are bounded by their types. The meanings do not
rest on it: they answer for every operand. -/
namespace Sys2Proof

/-- A device number has 11 bits (R22, Table 11.4). -/
def device (d : Nat) : Bool := decide (d < 2048)

/-- A tag of a request (Table 11.4). -/
def tagOk (t : Nat) : Bool := decide (t < 2 ^ 32)

/-- The COURSE field of a message (Table 11.4). -/
def course32 (c : Nat) : Bool := decide (c < 2 ^ 32)

/-- A local address has 43 bits (R13, R15). -/
def localAddr (a : Nat) : Bool := decide (a < 2 ^ 43)

/-- A bus address of the host. -/
def busAddr (a : Nat) : Bool := decide (a < 2 ^ 64)

/-- A 64-byte line of the memory tiers (Table 1.3). -/
def lineOk (l : Nat) : Bool := decide (l * 64 < 0x600_0000_0000)

/-- A number of bytes between two bounds. -/
def sized (lo hi : Nat) (bs : List Byte) : Bool := decide (lo ≤ bs.length) && decide (bs.length ≤ hi)

/-- A packet sequence number of RoCE has 24 bits (R294). -/
def psnOk (p : Nat) : Bool := decide (p < 2 ^ 24)

/-- A sequence or an index of a queue has 32 bits (R333, R334). -/
def value32 (v : Nat) : Bool := decide (v < 2 ^ 32)

/-- The header of a fabric request keeps the widths of Table 11.4. -/
def FabHdr.wf (h : FabHdr) : Bool :=
  device h.src && device h.dst && decide (h.epoch < 65536) && tagOk h.tag && course32 h.course && course32 h.pbatten

/-- The header of a fabric response keeps the widths of Table 11.4. -/
def RspHdr.wf (h : RspHdr) : Bool := device h.src && tagOk h.tag

/-- Cluster, queue, device and port numbers of a writer. -/
def Writer.wf : Writer → Bool
  | .host => true
  | .tile g => decide (g < 1024)
  | .command q => decide (q < 16384)
  | .remote d c => Sys2Proof.device d && course32 c
  | .ingest p => decide (p < 2)
  | .update | .migration | .streaming | .device => true

/-- An address of its version of IP, and a UDP port. -/
def EthFrame.wf (f : EthFrame) : Bool := decide (f.dst < 2 ^ (if f.ip6 then 128 else 32)) && decide (f.udp < 65536)

def RoceHdr.wf (h : RoceHdr) : Bool := psnOk h.psn && h.f.wf

def QpContext.wf (c : QpContext) : Bool := decide (c.peer < 2 ^ 24) && psnOk c.sendPsn && psnOk c.recvPsn

/-- A completion carries at most 4,096 bytes (Table 13.1). -/
def HostAns.wf : HostAns → Bool
  | .data bs => sized 1 4096 bs
  | .error | .poison | .timeout => true

def ConfigReq.wf : ConfigReq → Bool
  | .bars a b => (match a with | some x => busAddr x | none => true) && (match b with | some x => busAddr x | none => true)
  | .power _ | .msix _ | .other | .unsupported => true

/-- A command's operands keep their widths. -/
def Instr.wf : Instr → Bool
  | .registerWrite addr bytes by_ => localAddr addr && sized 1 4096 bytes && by_.wf
  | .readClear addr by_ => localAddr addr && by_.wf
  | .retrainEnd _ _ margin => decide (margin < 256)
  | .scrubSlot cut => cut.all (fun p => decide (p.1 < 2176))
  | .energyRefit coef => decide (coef.length = 11)
  | .sync h batten time _ _ _ _ => h.wf && decide (batten < 2 ^ 64) && decide (time < 2 ^ 64)
  | .delayReq h _ _ => h.wf
  | .delayRsp h st _ _ => h.wf && decide (st < 256)
  | .notDone h course => h.wf && course32 course
  | .extend h course => h.wf && course32 course
  | .proceed h course => h.wf && course32 course
  | .abortCourseMsg h course cause => h.wf && course32 course && decide (1 ≤ cause) && decide (cause ≤ 10)
  | .addsDone h course => h.wf && course32 course
  | .allAddsDone h course => h.wf && course32 course
  | .digest h course level rank _ _ => h.wf && course32 course && decide (level ≤ 3) && decide (rank < 64)
  | .digestWaitTimeout rank => decide (rank < 64)
  | .sqCredit h addr => h.wf && localAddr addr
  | .programMemoryWrite _ off bytes => sized 1 0x40000 bytes && decide (off + bytes.length ≤ 0x40000)
  | .accumulatorAccess _ off len data => decide (off + (match data with | some bs => bs.length | none => len) ≤ 0x20000)
  | .chainSum h id _ row _ => h.wf && decide (id < 65536) && decide (row < 32)
  | .collResult h id _ => h.wf && decide (id < 65536)
  | .memRead line _ upset => lineOk line && decide (upset < 2 ^ 576)
  | .writeBack line => lineOk line
  | .memWrite line bytes by_ _ => lineOk line && sized 64 64 bytes && by_.wf
  | .partialWrite line off bytes by_ _ => lineOk line && sized 1 63 bytes && decide (off + bytes.length ≤ 64) && by_.wf
  | .refresh _ _ mr4 => decide (mr4 < 8)
  | .digestScanEnd region => decide (region < 8192)
  | .moveCopyEnd table shard => decide (table < 65536) && decide (shard < 65536)
  | .moveForwardClose table shard => decide (table < 65536) && decide (shard < 65536)
  | .flitReceive _ f _ _ => decide (f.vc < 4) && decide (f.credits.length = 4) && decide (f.data.length = 240)
  | .linkTrainingEnd _ _ _ maxver dev _ _ _ => device dev && decide (maxver < 256)
  | .read h addr len => h.wf && localAddr addr && decide (1 ≤ len) && decide (len ≤ 4096)
  | .store h addr data => h.wf && localAddr addr && decide (1 ≤ data.length) && decide (data.length ≤ 4096)
  | .atomicW96 h addr accs => h.wf && localAddr addr && decide (1 ≤ accs.length) && decide (accs.length ≤ 64) && accs.all (fun a => decide (a < 2 ^ 104))
  | .rowAdd h table row count accs => h.wf && decide (table < 65536) && decide (row < 2 ^ 64) && decide (count < 2 ^ 56) && accs.all (fun a => decide (a < 2 ^ 104))
  | .yealmReq h table rows => h.wf && decide (table < 65536) && decide (1 ≤ rows.length) && decide (rows.length ≤ 256)
  | .readRsp h st _ _ => h.wf && decide (st < 256)
  | .ack h st => h.wf && decide (st < 256)
  | .yealmRsp h st _ _ _ => h.wf && decide (st < 256)
  | .probe _ src tag => device src && tagOk tag
  | .probeRsp _ src _ => device src
  | .ident _ src tag _ => device src && tagOk tag
  | .identRsp _ tag dev _ _ _ => tagOk tag && device dev
  | .reqTimeoutExpiry tag => tagOk tag
  | .responderRdmaWrite h rkey va _ => h.wf && decide (rkey < 2 ^ 32) && decide (va < 2 ^ 64)
  | .responderWriteWithImmediate h rkey va _ imm => h.wf && decide (rkey < 2 ^ 32) && decide (va < 2 ^ 64) && decide (imm < 2 ^ 32)
  | .responderRdmaRead h rkey va len => h.wf && decide (rkey < 2 ^ 32) && decide (va < 2 ^ 64) && decide (len < 2 ^ 32)
  | .roceAck _ dest psn _ => dest.f.wf && psnOk psn
  | .cnp _ dest => dest.f.wf
  | .rateRestore _ _ rate => decide (0 < rate) && decide (rate ≤ 1)
  | .hostWrite addr bytes _ => busAddr addr && sized 1 512 bytes
  | .hostRead addr len => busAddr addr && decide (1 ≤ len) && decide (len ≤ 4096)
  | .doorbell _ _ value => value32 value
  | .fencedDoorbell _ _ value _ => value32 value
  | .packetTake _ ring => ring.wf
  | .packetReread _ ring => ring.wf
  | .hostLinkTrain _ speed width => decide (1 ≤ speed) && decide (speed ≤ 7) && (width == 1 || width == 2 || width == 4 || width == 8)
  | .cxlMemRequest line data => decide (line < 0x18_0000_0000) && (match data with | some bs => sized 64 64 bs | none => true)
  | .roceQpSet _ seq ctx => value32 seq && ctx.wf
  | .intakeData _ off _ => decide (off < 2 ^ 32)
  | .gutRead _ start _ => decide (start < 2 ^ 32)
  | .moduleReset cause => decide (4 ≤ cause) && decide (cause ≤ 7)
  | .budgetUpdate b => decide (b.length = 8)
  | .thermalSample _ temps => decide (temps.length = 20)
  | .gutterEvent _ code payload => decide (code < 65536) && decide (payload < 2 ^ 128)
  | .hostMemoryReadCompletion _ _ ans => ans.wf
  | .cxlCacheResponse page => decide (page < 0x30_0000)
  | .configurationAccess req => req.wf
  | .rdmaReadResponse _ dest psn _ => dest.f.wf && psnOk psn
  | .cmdNop _ seq | .getInterface _ seq | .launch _ seq | .abortCourse _ seq | .courseLoad _ seq _
  | .courseWait _ seq | .dmaCopy _ seq | .dmaFill _ seq | .rdmaWrite _ seq | .rdmaRead _ seq | .mrRegister _ seq
  | .mrDeregister _ seq | .biasSet _ seq | .tableDirectory _ seq | .tableDefine _ seq | .tableDelete _ seq
  | .shardMove _ seq | .eavesDefine _ seq | .ylmRun _ seq | .ylmPrefetch _ seq | .updProgram _ seq
  | .updBind _ seq | .tableFlip _ seq | .streamBatch _ seq | .collective _ seq | .fabricCopy _ seq
  | .fabricIdent _ seq | .digestEnable _ seq | .digestDisable _ seq | .ldgSubdigest _ seq | .ldgRangeDigest _ seq
  | .ldgTableDigest _ seq | .loadHint _ seq | .powerCap _ seq | .gutFreeze _ seq | .gutThaw _ seq
  | .gutCopy _ seq | .gutFilter _ seq | .attest _ seq | .dormerUnlock _ seq | .dormerLock _ seq
  | .measurements _ seq | .hostCompletionTimeout _ seq => value32 seq
  | .cfgDevnumWrite _ _ | .tbnSettingWrite _ _ _ | .tbnStaggerWrite _ _ | .tick | .workSlotBegin
  | .courseItemIssue _ | .workSlotEnd | .quantumEnd | .calibrationSlot | .ledgerSlot | .syncMissed | .foldBegin
  | .foldRow _ _ | .denseFoldItem _ _ | .foldEnd | .digestCapture | .ledgerRecordWrite | .courseEndPoint
  | .abortComplete | .repair | .compareHaltRelease | .barrierSatisfied _ | .powerReady _ | .pwrWaitTimeout _
  | .groupRelease _ _ | .programStart _ | .programComplete _ | .ccHalt _ _ | .ccStep _
  | .scalarRegisterWrite _ _ _ | .nop _ | .alu _ | .alui _ | .lih _ | .falu _ | .sscale _ | .br _ | .jal _
  | .jalr _ | .ldl _ | .stl _ | .ldm _ | .ldmResponse _ _ | .stm _ | .dma _ | .dmaComplete _ _ | .wait _
  | .mcfg _ | .mma _ | .mmaArrayEntry _ | .chunkPromotion _ | .segmentClose _ | .mmaComplete _ | .auditUnit _
  | .compChange _ _ | .dormerAccessTimeout _ | .accSegWrite _ _ _ | .vctx _ | .vld _ | .vst _ | .vgather _
  | .vscatter _ | .vtrd _ | .vbcast _ | .vop _ | .vfn _ | .vcmp _ | .vmsk _ | .vhad _ | .vrow _ | .vscale _
  | .vsum _ | .vectorOpComplete _ | .eob _ | .bar _ | .sqpush _ | .sqpop _ | .chn _ | .endProgram _
  | .lineResponse _ _ | .descriptorComplete _ _ | .stageRows _ | .stagingReadIssue _ | .stagingCopyDone _
  | .localRowAdd _ | .updEnd _ | .ldg _ | .ldw _ | .lds _ | .ldp _ | .ldk _ | .ldcol _ | .fadd _ | .fsub _
  | .fmul _ | .fdiv _ | .fma _ | .fmin _ | .fmax _ | .fabs _ | .fneg _ | .fsqrt _ | .frsqrt _ | .fsel _ | .rsum _
  | .ramax _ | .cacc _ | .sts _ | .stw _ | .channelIssue _ _ | .dkeyWrite _ _ | .moveItem _ | .streamRowWrite
  | .replayRequest _ _ | .fecLockLoss _ | .portRetrain _ _ | .probeWaitExpiry _ | .probeRound _ | .levelProbe
  | .jflLostClear _ _ | .roceAckTimeout _ _ | .qpQdbWrite _ _ | .queueArm _ _ | .queueDisarm _ _
  | .completionRecord _ | .hostLinkDown | .perst | .hotReset | .linkDisable | .functionLevelReset | .dormerExpiry
  | .settingsCommit | .settingsRevert | .commitDone _ | .status _ | .intakeBegin _ _ | .intakeEnd _
  | .activate _ _ | .reset _ | .powerOn | .supplyQualified | .powerGood | .romBoot | .dieBringUp _
  | .settingsRead _ | .channelTrainingRound _ _ | .stackFill _ | .servicesStart | .ready | .channelRestore _ _
  | .watchdogExpiry _ | .inputSample _ _ | .capStep _ _ | .capRelax _ | .vfStepChange _ | .grantRequest _ _ _
  | .hintLead _ | .hintHoldEnd _ | .hintExpiry _ | .pwrCoefWrite _ _ _ | .pwrPolicyWrite _ _ _ | .pwrCapWrite _ _
  | .droopDetect _ _ | .droopRecover _ _ _ | .thermalStep _ | .thermalRelax _ | .trip _ _ | .sagBegin _ | .sagEnd
  | .supplyCollapse _ | .overvoltage _ | .overvoltageClear _ | .flashPageDone | .gutterDrain _
  | .foldWindowClose _ | .dropReport _ | .nvPageProgram _ _ | .sectorErase | .freezeTimeout | .opsecAdvance
  | .stageQueueCopyComplete _ | .ingestLinkStateChange _ _ _ | .transceiverPresenceChange _ _
  | .priorityFlowControlFrame _ _ _ | .hintStart _ => true

end Sys2Proof
end

