-- ==== Sys2Proof/Safety.lean ====
section
/-! DEFINITION. What a safe step is, in the terms the statements use. -/
namespace Sys2Proof.Safety
open Sys2Proof.Machine

/-- A step runs: it answers a next state and neither a fault nor a refusal. -/
def Runs (s : State) : Prop := ∃ t, step s = .next t

/-- A command completes at a state: `exec` answers a next state. -/
def Completes (c : Instr) (s : State) : Prop := ∃ t, exec c s = .next t

/-- Every command that waits is well formed. -/
def QueueWf (s : State) : Prop := ∀ c ∈ s.pending, c.wf = true

/-- A command that PACKET_TAKE has accepted on queue `q` under an opcode and whose row has not run (R340, R346). -/
def Accepted (op q seq : Nat) (c : Cmd) (s : State) : Prop := s.cmd? q seq = some c ∧ c.op = op ∧ c.running = false

/-- The control core of cluster `g` issues the instruction `t` at its PC: the core may issue (R32, R135, R163), the word
there is a legal word of `t` (R141), no register that it names awaits a write (R138), nothing else makes it wait, what it
names lies in the partition of its program (R136), and it raises no fault (R157). -/
def Issues (s : State) (g : Nat) (t : TileOp) : Prop :=
  s.canIssue g = true ∧ bits (s.fetchWord g) 0 8 = t.op ∧ t.legal (s.fetchWord g) = true ∧
  (t.regs (s.fetchWord g)).any (s.cl g).regPending = false ∧ t.wait s (s.fetchWord g) = none ∧
  (s.isWadding g = true → (t.regs (s.fetchWord g)).all wadReg = true ∧ t.wad (s.fetchWord g) = true) ∧
  t.faults s (s.fetchWord g) = []

/-- The entry of the vector queue that an instruction word becomes: its operands and the conversion context at issue (R152,
R154). -/
def vecEntry (s : State) (g : Nat) : VecOp :=
  let w := s.fetchWord g
  let c := s.cl g
  ⟨c.serial, w, s.sreg g (vecF w).ra, s.sreg g (vecF w).rb, s.sreg g (vecF w).rs, c.ctxTid, c.ctxBase, c.ctxPitch,
    s.isWadding g, false, 32⟩

/-- That entry has joined the queue. -/
def vecJoined (s : State) (g : Nat) : State :=
  s.updCl g (fun c => { c with vq := c.vq ++ [vecEntry s g], serial := c.serial + 1 })

/-- The vector engine is idle and nothing keeps that entry of a course program from starting at once: no audit has
precedence, no range that it writes is pinned (R161), and a tile that it reads is clear (R130). -/
def VecIdle (s : State) (g : Nat) : Prop :=
  s.isWadding g = false ∧ (s.cl g).vq = [] ∧ s.get F.VEC_STATUS_AUDIT_PRIORITY g = 0 ∧ (vecJoined s g).vecPinned g (vecEntry s g) = false ∧
  (∀ t, vtrdTile (s.fetchWord g) = some t → (s.cl g).tileConflict t false = false ∧
    ((vecJoined s g).cl g).tileClear t (s.cl g).serial false = true)

/-- The started entry `v` is the only one of the queue after its effect has led to `t`. -/
def vecStarted (t : State) (g : Nat) (v : VecOp) : State :=
  (((t.vecAct g v).updCl g (fun c => { c with vq := [{ v with started := true }] })).syncEngines g).syncEngines g

/-- Update unit `u` processes the row of `r`, and the next word of its program has the opcode `op` (R227, R228). -/
def UnitRuns (s : State) (u : Nat) (r : UpdRun) (op : Nat) : Prop := s.runOf u = some r ∧ (s.nextWord r).op = op

/-- Unit `u` after an instruction whose effect on its row is `f` (R227), with the activity that it counts (R387). -/
def unitDone (s : State) (u : Nat) (r : UpdRun) (f : UEffect) : State :=
  let x := f (s.unitAct r (s.nextWord r)) u r (s.nextWord r)
  x.1.setRun u (some { x.2 with pc := r.pc + 1 })

/-- A request of another module that is no reissue is served: the module is powered and numbered, it is the target, the
source is not lost and the request of no older epoch (R273, R281, R285). -/
def Fresh (s : State) (h : FabHdr) : Prop :=
  s.powered = true ∧ (s.heard h.src).devValid = true ∧ h.dst = (s.heard h.src).devnum ∧ (s.heard h.src).devLost h.src = false ∧
  (∀ e, Sparse.get none (s.heard h.src).fab.newest h.src = some e → epochOlder h.epoch e = false) ∧ h.reissue = false

/-- The module when such a request has arrived: its source has been heard, and is of that epoch. -/
def arrived (s : State) (h : FabHdr) : State :=
  (s.heard h.src).updFab (fun f => { f with newest := Sparse.put none f.newest h.src (some h.epoch) })

/-- A request that left is outstanding under a tag, and no other request of that tag is; its operation is the one given. -/
def Asked (s : State) (tag op : Nat) (r : FabReq) : Prop :=
  s.fab.reqs.filter (fun r => r.tag == tag) = [r] ∧ r.held = false ∧ r.op = op

/-- Frames reach a port that runs, whole, unmarked and addressed to it as RoCEv2 (R293, R294). -/
def FrameOk (s : State) (p : Nat) (f : EthFrame) : Prop :=
  s.portRuns p = true ∧ f.fec = 0 ∧ f.fcsOk = true ∧ f.len ≤ maxFrame ∧ s.ipOn p f.ip6 = true ∧ f.dst = s.ipAddr p f.ip6 ∧
  f.udp = roceUdp ∧ f.icrcOk = true ∧ f.ecn = false

/-- A RoCE message reaches the queue pair `x` unmarked and whole, in order, with an operation that the port supports (R294). -/
def RoceInOrder (s : State) (h : RoceHdr) (x : QueuePair) : Prop :=
  FrameOk s h.port h.f ∧ h.supported = true ∧ s.qp? h.port h.qp = some x ∧ x.err = false ∧ h.psn = x.ctx.recvPsn

/-- The queue pair after `n` bytes of such a message: it awaits the next PSN. -/
def roceTaken (s : State) (h : RoceHdr) (x : QueuePair) (n : Nat) : State :=
  s.putQp h.port h.qp { x with ctx := { x.ctx with recvPsn := psnAdd x.ctx.recvPsn (s.packets h.port n) } }

/-- What a scalar instruction of cluster `g` with destination `rd` leaves alone: memory, every other cluster, the cluster's
local buffer and matrix queue, every scalar register but `rd`, the tables, queues and course, and every register of the
module but the state and the retire counter of the core. -/
def ScalarFrame (s u : State) (g rd : Nat) : Prop :=
  u.mem = s.mem ∧ u.upset = s.upset ∧ (∀ h, h ≠ g → u.cl h = s.cl h) ∧ (u.cl g).lb = (s.cl g).lb ∧ (u.cl g).mq = (s.cl g).mq ∧
  (u.cl g).vq = (s.cl g).vq ∧ (u.cl g).pm = (s.cl g).pm ∧ (∀ n, n ≠ rd → u.sreg g n = s.sreg g n) ∧ u.sreg g 0 = 0#64 ∧
  u.tables = s.tables ∧ u.queues = s.queues ∧ u.course = s.course ∧
  (∀ (r : Reg) (i j : Nat), i < 2 ^ 20 → j < 2 ^ 20 → (r = .ccState ∨ r = .ccRetired → i ≠ g) → u.rd r i j = s.rd r i j)

end Sys2Proof.Safety
end

