-- ==== Sys2Proof/Certificates/Slice0/Obligations.lean ====
section
/-! DEFINITION. The statements for the provers. -/
open Sys2Proof Sys2Proof.Machine Sys2Proof.Safety

/-- For every state in which memory, the table of disturbed codewords and the register table are in canonical form
(keys strictly rising, no entry equal to what an unlisted key reads as), and every command at the front of the
queue or an idle step: the state after the step has them in canonical form. So equal contents are equal data after
any sequence of commands, whatever the state that it began in. -/
def Obligations.StepKeepsForm : Prop :=
  ∀ s t : State, s.canon = true → step s = .next t → t.canon = true

/-- Memory, check codes and registers of the state after reset are in their canonical form. -/
def Obligations.ResetForm : Prop := State.reset.canon = true

/-- Whatever command is at the front and whatever it does, a power cycle and a module reset included, the queue after
the step is the rest of the queue before it: no command adds, drops or reorders a waiting command. -/
def Obligations.StepTakesFront : Prop :=
  ∀ s t : State, step s = .next t → t.pending = s.pending.tail

/-- For every state and every step: the rollback counter of the fuses is never lower after the step than before it,
whatever the command, and the messages that the module has sent stay sent in their order, with new ones only
behind them. -/
def Obligations.RollbackCounter : Prop :=
  ∀ s t : State, step s = .next t → s.sec.flash.counter ≤ t.sec.flash.counter ∧ s.sent <+: t.sent

/-- For every command c and state s: a step of s with c put in front of its queue answers exactly what exec answers
for c on s. On an empty queue a step idles (model's choice, assumption log 1). -/
def Obligations.StepRunsFront : Prop :=
  (∀ (c : Instr) (s : State), step { s with pending := c :: s.pending } = exec c s) ∧
  (∀ s : State, s.pending = [] → step s = .next s.idle)

/-- The state after reset is that of a power-on before start-up: no register of a block differs from the Reset value
of its table (registers whose table gives none hold the values of assumption log 7), memory lists nothing,
TBN_TIME, TBN_BATTEN and HIF_EPOCH are 0, the first tick is due at 250,000, the interval is 250 µs, the sync role
is standalone, no course is in progress, every queue is DISARMED, no link is up and no command waits. Where the
manual leaves a point of it open, the statement holds the choice of the model: assumption log 7 and 8. -/
def Obligations.ResetState : Prop :=
  (∀ (r : Reg) (i j : Nat), State.reset.rd r i j = regDefault (regCode r i j)) ∧
  State.reset.mem = [] ∧ State.reset.now = 0 ∧ State.reset.get F.TBN_BATTEN_BATTEN = 0 ∧
  State.reset.get F.TBN_NEXT_TICK_NEXT = 250000 ∧ State.reset.get F.TBN_INTERVAL_INTERVAL_US = 250 ∧
  State.reset.get F.TBN_SYNC_ROLE = 0 ∧ State.reset.cstate = 0 ∧ State.reset.get F.HIF_EPOCH_EPOCH = 0 ∧
  State.reset.get F.HIF_LINK_MODE = 0 ∧ (∀ q : Fin 16384, State.reset.qState q = 0) ∧
  (∀ p : Fin 32, State.reset.get F.JFL_PSTATUS_STATE p = 0) ∧ State.reset.pending = [] ∧ State.reset.sent = []

/-- A naturally aligned 8-byte write of a register through a die window, by a source that reaches it, is the write of
that register, and a read gives its value and clears its RC fields in the same access. Where the manual leaves a
point of it open, the statement holds the choice of the model: assumption log 20. -/
def Obligations.RegisterAccessRuns : Prop :=
  ∀ (addr : Nat) (bytes : List Byte) (w : Writer) (r : RegId) (s : State),
    let die := (addr - winBase) / winSize
    let off := (addr - winBase) % winSize
    inWindow addr = true → addr % 8 = 0 → placeOf die off = .reg r →
    (w = .host → s.hostSees (off / 0x1000_0000) = true) →
    (∀ d c, w = .remote d c → remoteShut addr 8 = false) →
    (bytes.length = 8 →
      exec (.registerWrite addr bytes w) s = .next (s.regWrite die r (BitVec.ofNat 64 (ofLe bytes)))) ∧
    exec (.readClear addr w) s =
      .next ((s.clearRc r).send (.hostCpl addr (leBytes 8 (s.regValue die r).toNat) false))

/-- A register write that is accepted leaves every field that is neither RW nor W1C as it was, sets every RW field to
the value written, and clears in every W1C field exactly the bits written as 1. The fields are those of the
register's table; the statement is about a write that no field's range rejects. -/
def Obligations.AccessTypes : Prop :=
  ∀ (r : Reg) (old v w : Nat), old < 2 ^ 64 → v < 2 ^ 64 → applyWrite r old v = some w →
    ∀ f ∈ r.fields,
      let was := old / 2 ^ f.lo % 2 ^ f.wid
      let new := w / 2 ^ f.lo % 2 ^ f.wid
      let given := v / 2 ^ f.lo % 2 ^ f.wid
      (f.acc = .rw → new = given ∧ f.least ≤ given ∧ given ≤ f.most) ∧
      (f.acc = .w1c → new = was &&& (2 ^ f.wid - 1 - given)) ∧
      (f.acc ≠ .rw → f.acc ≠ .w1c → new = was)

/-- On die 0, in the state that its rule requires, each setting takes the value written: CFG_DEVNUM while every port
is down; TBN_INTERVAL, TBN_SLOTS, TBN_OVR and TBN_SYNC in IDLE and TBN_STAGGER in any state, as pending until the
next tick; LDG_DKEY in IDLE, with a new scan of the enabled regions. JFL_LOST bits written as 1 clear. A write of
JFL_PCTRL with EN starts training at its MAXVER, one with RETRAIN takes the link down to train again, and a MAXVER
of 0 or 3 is rejected. Where the manual leaves a point of it open, the statement holds the choice of the model:
assumption log 20 and 59. -/
def Obligations.SettingWritesRun : Prop :=
  (∀ (v : Word) (s : State), (∀ p : Nat, p < 32 → s.get F.JFL_PSTATUS_STATE p = 0) →
    exec (.cfgDevnumWrite 0 v) s =
      .next ((s.set F.CFG_DEVNUM_DEVNUM (v.toNat % 2048)).set F.CFG_DEVNUM_VALID (v.toNat / 2 ^ 16 % 2))) ∧
  (∀ (k : Fin 4) (v : Word) (w : Nat) (s : State), s.cstate = 0 → s.get F.TBN_SYNC_ROLE ≠ 2 →
    applyWrite (settingReg k) (s.settingNext k).toNat v.toNat = some w → s.halfKept k (BitVec.ofNat 64 w) = true →
    exec (.tbnSettingWrite 0 k v) s =
      .next { s with frame := { s.frame with pend := Sparse.put none s.frame.pend k (some (BitVec.ofNat 64 w)) } }) ∧
  (∀ (v : Word) (w : Nat) (s : State), applyWrite .tbnStagger (s.settingNext 4).toNat v.toNat = some w →
    exec (.tbnStaggerWrite 0 v) s =
      .next { s with frame := { s.frame with pend := Sparse.put none s.frame.pend 4 (some (BitVec.ofNat 64 w)) } }) ∧
  (∀ (v : Word) (s : State), s.cstate = 0 →
    exec (.dkeyWrite 0 v) s = .next ((s.wr .ldgDkey 0 0 v).startScans s.enabledRegions)) ∧
  (∀ (k : Fin 32) (m : Word) (s : State), ∃ t, exec (.jflLostClear k m) s = .next t ∧
    t.rd .jflLost 0 k = (s.rd .jflLost 0 k &&& ~~~m) ∧ t.mem = s.mem ∧
    ∀ b : Nat, b < 64 → (s.rd .jflLost 0 k &&& m).toNat / 2 ^ b % 2 = 1 → Sparse.get none t.fab.newest (64 * k + b) = none) ∧
  (∀ (p : Fin 32) (v : Word) (s : State), 1 ≤ v.toNat / 4 % 4 → v.toNat / 4 % 4 ≤ 2 → v.toNat % 2 = 1 →
    v.toNat / 2 % 2 = 0 → s.bit F.JFL_PCTRL_EN p = false →
    exec (.portRetrain p v) s = .next (((s.set F.JFL_PCTRL_EN 1 p).set F.JFL_PCTRL_MAXVER (v.toNat / 4 % 4) p).set
      F.JFL_PSTATUS_STATE 1 p)) ∧
  (∀ (p : Fin 32) (v : Word) (s : State), 1 ≤ v.toNat / 4 % 4 → v.toNat / 4 % 4 ≤ 2 → v.toNat % 2 = 1 →
    v.toNat / 2 % 2 = 1 →
    exec (.portRetrain p v) s = .next (((s.set F.JFL_PCTRL_EN 1 p).set F.JFL_PCTRL_MAXVER (v.toNat / 4 % 4) p).linkDown p)) ∧
  (∀ (p : Fin 32) (v : Word) (s : State), v.toNat / 4 % 4 = 0 ∨ v.toNat / 4 % 4 = 3 →
    exec (.portRetrain p v) s = .next (s.set F.JFL_STATUS_SETTING_REJECTED 1))

/-- With the link up and the BARs decoding, a host write to BAR0 is the write of that local address and to BAR2 that
of its offset; a host read is answered from there; a plain doorbell and a fenced one act on their queue once the
module is ready; a configuration request sets the BARs, the power state or MSI-X; a request that no BAR decodes is
counted as unsupported. Where the manual leaves a point of it open, the statement holds the choice of the model:
assumption log 21. -/
def Obligations.HostAccessRuns : Prop :=
  (∀ (addr o : Nat) (bs : List Byte) (s : State), s.linkUp = true → bs ≠ [] → s.barOf addr bs.length = some (false, o) →
    exec (.hostWrite addr bs false) s = .next (s.bar0Write o bs)) ∧
  (∀ (addr o : Nat) (bs : List Byte) (s : State), s.linkUp = true → bs ≠ [] → s.barOf addr bs.length = some (true, o) →
    exec (.hostWrite addr bs false) s = .next (s.bar2Write o bs)) ∧
  (∀ (addr o n : Nat) (s : State), s.linkUp = true → 0 < n → s.barOf addr n = some (false, o) →
    exec (.hostRead addr n) s = .next (s.bar0Read o n)) ∧
  (∀ (addr o n : Nat) (s : State), s.linkUp = true → 0 < n → s.barOf addr n = some (true, o) →
    exec (.hostRead addr n) s = .next (s.bar2Read o n)) ∧
  (∀ (q : Fin 16384) (head : Bool) (v : Nat) (s : State), s.bellOpen = true →
    exec (.doorbell q head v) s = .next (s.doorbell q head (v % 2 ^ 32))) ∧
  (∀ (q : Fin 16384) (head : Bool) (v d : Nat) (s : State), s.bellOpen = true → ∃ t u, exec (.fencedDoorbell q head v d) s = .next t ∧
    t = u.doorbell q head (v % 2 ^ 32) ∧
    u = (((s.bump F.HIF_FENCE_FENCED 1).set F.HIF_FENCE_MAX_DRAIN_NS (max ((s.bump F.HIF_FENCE_FENCED 1).get F.HIF_FENCE_MAX_DRAIN_NS)
      (min d (2 ^ 32 - 1)))).advanceTo ((((s.bump F.HIF_FENCE_FENCED 1).set F.HIF_FENCE_MAX_DRAIN_NS
      (max ((s.bump F.HIF_FENCE_FENCED 1).get F.HIF_FENCE_MAX_DRAIN_NS) (min d (2 ^ 32 - 1)))).now) + d))) ∧
  (∀ (a b : Option Nat) (s : State), s.linkUp = true →
    exec (.configurationAccess (.bars a b)) s = .next ((s.setHost { s.host with
      bar0 := a.map (fun x => x / 2 ^ 43 * 2 ^ 43), bar2 := b.map (fun x => x / 2 ^ 24 * 2 ^ 24) }).send (.hostStatus 0))) ∧
  (∀ (d : Bool) (s : State), s.linkUp = true →
    exec (.configurationAccess (.power d)) s = .next ((s.setHost { s.host with d3hot := d }).send (.hostStatus 0)))

/-- On an ARMED queue a doorbell value takes effect exactly when it is valid: an SQ_TAIL at most the ring size ahead
of SQ_HEAD and not behind the last value, a CQ_HEAD not beyond CQ_TAIL. An invalid value changes no index: it sets
DOORBELL_RANGE and raises event 0x0701 and does nothing else. On a queue that is not ARMED the value is recorded
and no register changes. -/
def Obligations.DoorbellValues : Prop :=
  ∀ (q v : Nat) (s : State), q < 16384 → v < 2 ^ 32 →
    (s.qState q = 1 →
      (sub32 v (s.get F.QP_QIDX_SQ_HEAD q) ≤ s.sqEntries q →
       sub32 (s.qx q).sqTail (s.get F.QP_QIDX_SQ_HEAD q) ≤ sub32 v (s.get F.QP_QIDX_SQ_HEAD q) →
        s.doorbell q false v = s.setQx q { s.qx q with sqTail := v }) ∧
      (s.sqEntries q < sub32 v (s.get F.QP_QIDX_SQ_HEAD q) ∨
       sub32 v (s.get F.QP_QIDX_SQ_HEAD q) < sub32 (s.qx q).sqTail (s.get F.QP_QIDX_SQ_HEAD q) →
        s.doorbell q false v = (s.set F.QP_STATUS_DOORBELL_RANGE 1 (queueDie q)).raise (queueDie q) 0x0701
          (plAt 16 q + plAt 20 v)) ∧
      (sub32 (s.get F.QP_QIDX_CQ_TAIL q) v < 2 ^ 31 → s.doorbell q true v = s.setQx q { s.qx q with cqHead := v }) ∧
      (2 ^ 31 ≤ sub32 (s.get F.QP_QIDX_CQ_TAIL q) v →
        s.doorbell q true v = (s.set F.QP_STATUS_DOORBELL_RANGE 1 (queueDie q)).raise (queueDie q) 0x0701
          (plAt 16 q + plAt 20 v))) ∧
    (s.qState q ≠ 1 →
      s.doorbell q false v = s.setQx q { s.qx q with recTail := some v } ∧
      s.doorbell q true v = s.setQx q { s.qx q with recHead := some v })

/-- Writing ARM = 1 on a queue that is not ARMED, with sizes in range and rings in host memory or mapped memory, moves
it to ARMED with QEPOCH from HIF_EPOCH. Writing ARM = 0 on an ARMED queue moves it to DISARMED; a write with a
field out of its range is rejected as a whole. A write of QP_QDB acts as a plain doorbell. Where the manual leaves
a point of it open, the statement holds the choice of the model: assumption log 15 and 23. -/
def Obligations.QueueSetRuns : Prop :=
  (∀ (q : Fin 16384) (v : Word) (s : State), s.qState q ≠ 1 → qcfgOk (v ||| 0x1000000000000#64).toNat = true →
    (let u := s.wr .qpQcfg q 0 (BitVec.ofNat 64 (((v ||| 0x1000000000000#64).toNat &&& qcfgMask) + (s.rd .qpQcfg q 0).toNat / 2 ^ 48 % 2 * 2 ^ 48))
     (u.bit F.QP_QCFG_SQ_HOST q = true ∨ u.memRange (u.sqBase q) (64 * 2 ^ u.get F.QP_QCFG_SQ_LOG2 q) = true) →
     (u.bit F.QP_QCFG_CQ_HOST q = true ∨ u.memRange (u.cqBase q) (32 * 2 ^ u.get F.QP_QCFG_CQ_LOG2 q) = true) →
     ∃ t, exec (.queueArm q v) s = .next t ∧ t.qState q = 1 ∧ t.get F.QP_QSTATE_QEPOCH q = s.get F.HIF_EPOCH_EPOCH ∧
      t.mem = s.mem ∧ t.queues.inflight = s.queues.inflight ∧ (t.qx q).recTail = none ∧ (t.qx q).recHead = none)) ∧
  (∀ (q : Fin 16384) (v : Word) (s : State), s.qState q = 1 →
    (qcfgOk (v &&& ~~~0x1000000000000#64).toNat = true →
      ∃ t, exec (.queueDisarm q v) s = .next t ∧ t.qState q = 0 ∧ t.mem = s.mem ∧ t.queues.inflight = s.queues.inflight) ∧
    (qcfgOk (v &&& ~~~0x1000000000000#64).toNat = false →
      exec (.queueDisarm q v) s = .next (s.set F.QP_STATUS_SETTING_REJECTED 1 (queueDie q)))) ∧
  (∀ (q : Fin 16384) (v : Word) (s : State),
    exec (.qpQdbWrite q v) s = .next (s.doorbell q (v.toNat / 2 ^ 32 % 2 == 1) (v.toNat % 2 ^ 32)))

/-- PACKET_TAKE on the queue whose turn it is: a valid packet is taken, an invalid one begins the re-reads.
PACKET_REREAD reads again 250 tb after the last read: a valid packet is taken, and the eighth failure ends with a
torn packet and the queue STOPPED. COMPLETION_RECORD writes the oldest completion at CQ_TAIL when the CQ has room,
and discards it, counted, when the CQ is out of reach, without advancing CQ_TAIL. Where the manual leaves a point
of it open, the statement holds the choice of the model: assumption log 23. -/
def Obligations.PacketsRun : Prop :=
  (∀ (q : Fin 16384) (pkt : List Byte) (s : State), (s.qx q).fence = none → s.turn (queueDie q) = some q.val →
    s.bit F.QP_QCFG_SQ_HOST q = true → s.linkUp = true → pkt.length = 64 →
    packetOk pkt (s.get F.QP_QSEQ_NEXT_SEQ q) = true →
    exec (.packetTake q (.data pkt)) s = .next (({ s with queues := { s.queues with
      served := Sparse.put 0 s.queues.served (queueDie q * 8 + s.serviceClass q) (q.val + 1) } } : State).takePacket q pkt)) ∧
  (∀ (q : Fin 16384) (pkt : List Byte) (s : State), (s.qx q).rereading = true → s.qState q = 1 → (s.qx q).rereads < 7 →
    (s.qx q).readAt + 250 < 2 ^ 64 →
    s.bit F.QP_QCFG_SQ_HOST q = true → s.linkUp = true → pkt.length = 64 →
    packetOk pkt (s.get F.QP_QSEQ_NEXT_SEQ q) = false →
    ∃ t, exec (.packetReread q (.data pkt)) s = .next t ∧ (t.qx q).rereads = (s.qx q).rereads + 1 ∧
      (t.qx q).rereading = true ∧ (s.qx q).readAt + 250 ≤ t.now ∧ t.queues.inflight = s.queues.inflight ∧ t.mem = s.mem) ∧
  (∀ (q : Fin 16384) (d : DoneCmd) (s : State), s.queues.done.find? (fun x => x.q == q.val) = some d → d.dropped = false →
    s.bit F.QP_QCFG_CQ_HOST q = true → s.hostReach q = true → s.cqFull q = false → s.bit F.QP_QCFG_IRQ_EN q = false →
    s.recordWaits d = false →
    ∃ t, exec (.completionRecord q) s = .next t ∧
      t.sent = s.sent ++ [.hostRecord (s.cqBase q + s.get F.QP_QIDX_CQ_TAIL q % s.cqEntries q * 32)
        (d.record (s.get F.QP_QIDX_CQ_TAIL q) (s.cqEntries q) (s.get F.QP_QSTATE_QEPOCH q))] ∧
      t.queues.done = s.queues.done.erase d ∧ t.mem = s.mem)

/-- The link trains in the mode that CXL_EN and the host give, at the speed and width of the training. Link loss,
PERST#, hot reset, link disable and function level reset each move HIF_EPOCH on by one (modulo 2^16), set their
bit of HIF_STATUS and put configuration space at its reset values, and keep module memory; the link stays up only
under a function level reset. Where the manual leaves a point of it open, the statement holds the choice of the
model: assumption log 22. -/
def Obligations.LinkEventsRun : Prop :=
  (∀ (cxl : Bool) (speed width : Nat) (s : State), s.linkUp = false → s.powered = true → 2 ≤ s.start.stage →
    width ∈ [1, 2, 4, 8] → (cxl && s.bit F.HIF_CTRL_CXL_EN) = false → 1 ≤ speed → speed ≤ 7 →
    ∃ t, exec (.hostLinkTrain cxl speed width) s = .next t ∧ t.get F.HIF_LINK_MODE = 1 ∧ t.get F.HIF_LINK_SPEED = speed ∧
      t.get F.HIF_LINK_WIDTH = width ∧ t.mem = s.mem) ∧
  (∀ s : State, s.linkUp = true → ∃ t, exec .hostLinkDown s = .next t ∧ t.linkUp = false ∧
    t.get F.HIF_EPOCH_EPOCH = (s.get F.HIF_EPOCH_EPOCH + 1) % 65536 ∧ t.get F.HIF_STATUS_LINK_DOWN = 1 ∧
    t.host.bar0 = none ∧ t.host.bar2 = none ∧ t.host.msixOn = false ∧ t.mem = s.mem ∧ t.cstate = s.cstate ∧
    t.queues.inflight = s.queues.inflight) ∧
  (∀ (c : Instr) (s : State), c ∈ [Instr.perst, Instr.hotReset, Instr.linkDisable] → s.linkUp = true → s.powered = true →
    s.get F.HIF_CTRL_PERST_SCOPE = 0 →
    ((c = .perst → exec .perst s = .next s.perst) ∧ (c = .hotReset → exec .hotReset s = .next s.perst) ∧
      (c = .linkDisable → exec .linkDisable s = .next s.perst)) ∧
    s.perst.linkUp = false ∧ s.perst.get F.HIF_EPOCH_EPOCH = (s.get F.HIF_EPOCH_EPOCH + 1) % 65536 ∧
    s.perst.get F.HIF_STATUS_PERST = 1 ∧ s.perst.host.bar0 = none ∧ s.perst.mem = s.mem ∧ s.perst.cstate = s.cstate ∧
    s.perst.queues.inflight = s.queues.inflight) ∧
  (∀ s : State, s.linkUp = true → s.cstate ≠ 1 → s.cstate ≠ 2 → (∀ c ∈ s.queues.inflight, c.op ≠ 0x0207) →
    ∃ t, exec .functionLevelReset s = .next t ∧ t.linkUp = true ∧
      t.get F.HIF_EPOCH_EPOCH = (s.get F.HIF_EPOCH_EPOCH + 1) % 65536 ∧ t.get F.HIF_STATUS_FLR = 1 ∧ t.host.bar0 = none ∧
      t.mem = s.mem ∧ t.host.shared = [] ∧ t.queues.done = [] ∧
      t.queues.inflight = s.queues.inflight.map (fun (c : Cmd) => { c with dropped := true }))

/-- An accepted NOP succeeds with RESULT 0; GET_INTERFACE sets VERSION to the lower of its byte 16 and 2 and gives the
versions and the highest queue; a LAUNCH with legal parameters is delivered to its cluster; BIAS_SET to shared
takes effect at once; DMA_FILL writes the pattern over its range and gives the bytes written; DMA_COPY within the
module moves bytes that it does not overwrite itself; a copy from the host asks for its next bytes, writes what
comes and ends with HOST_ERROR on an error, poison or timeout. Where the manual leaves a point of it open, the
statement holds the choice of the model: assumption log 24. -/
def Obligations.HostCommandsRun : Prop :=
  (∀ (q : Fin 16384) (seq : Nat) (c : Cmd) (s : State), Accepted 0x0000 q seq c s →
    exec (.cmdNop q seq) s = .next (s.succeed c 0)) ∧
  (∀ (q : Fin 16384) (seq : Nat) (c : Cmd) (s : State), Accepted 0x0001 q seq c s → 1 ≤ c.par 16 1 →
    exec (.getInterface q seq) s = .next ((s.set F.QP_QCFG_VERSION (min (c.par 16 1) 2) q).succeed c
      (min (c.par 16 1) 2 + 0x100 + 0x20000 + 16383 * 2 ^ 24))) ∧
  (∀ (q : Fin 16384) (seq : Nat) (c : Cmd) (s : State), Accepted 0x0002 q seq c s →
    c.par 16 2 / 2 ^ 10 % 32 = 0 → (c.par 16 2 / 2 ^ 15 == 1) = c.wadding → c.par 18 2 ≤ 32767 → c.par 24 8 % 8 = 0 →
    (c.par 24 8 = 0 ∨ s.rangeMapped (c.par 24 8) 48 = true) →
    exec (.launch q seq) s = .next ((s.cmdWaits c []).deliver (c.par 16 2 % 1024)
      ⟨q, some (q.val, seq), none, c.par 18 2 * 8, c.par 24 8, c.wadding⟩)) ∧
  (∀ (q : Fin 16384) (seq : Nat) (c : Cmd) (s : State), Accepted 0x0207 q seq c s → c.par 16 8 % pageSize = 0 →
    c.par 16 8 + c.par 24 4 * pageSize ≤ hdmSize → c.par 28 1 = 1 →
    ∃ (t : State) (n : Nat), exec (.biasSet q seq) s = .next (t.succeed c n) ∧ t.mem = s.mem ∧ n ≤ c.par 24 4 ∧
      (∀ p, (p ∈ t.host.shared ↔ p ∈ s.host.shared ∨ (c.par 16 8 / pageSize ≤ p ∧ p < c.par 16 8 / pageSize + c.par 24 4)))) ∧
  (∀ (q : Fin 16384) (seq : Nat) (c : Cmd) (t s : State), Accepted 0x0201 q seq c s → c.par 32 8 % 8 = 0 → c.par 40 1 = 0 →
    s.dmaJudge q (c.par 16 8) (c.par 32 8) true = none →
    s.busWrite (.command q) (s.queueWadding q) (c.par 16 8)
      (List.replicate (c.par 32 8 / 8) (leBytes 8 (c.par 24 8))).flatten = .done t →
    exec (.dmaFill q seq) s = .next ((t.act q 4 (ceilDiv (c.par 32 8) 64)).succeed c (c.par 32 8))) ∧
  (∀ (q : Fin 16384) (seq : Nat) (c : Cmd) (t s : State), Accepted 0x0200 q seq c s → 1 ≤ c.par 32 8 →
    c.par 32 8 ≤ 2 ^ 40 → c.par 40 1 = 0 → s.dmaJudge q (c.par 16 8) (c.par 32 8) false = none →
    s.dmaJudge q (c.par 24 8) (c.par 32 8) true = none →
    (s.busRead (.command q) (c.par 16 8) (c.par 32 8)).waits = false →
    (s.busRead (.command q) (c.par 16 8) (c.par 32 8)).bytes.length = c.par 32 8 →
    (c.par 24 8 ≤ c.par 16 8 ∨ c.par 16 8 + c.par 32 8 ≤ c.par 24 8) →
    (s.busRead (.command q) (c.par 16 8) (c.par 32 8)).st.busWrite (.command q)
      ((s.busRead (.command q) (c.par 16 8) (c.par 32 8)).st.queueWadding q) (c.par 24 8)
      (s.busRead (.command q) (c.par 16 8) (c.par 32 8)).bytes = .done t →
    exec (.dmaCopy q seq) s = .next ((t.act q 4 (ceilDiv (c.par 32 8) 64)).succeed c (c.par 32 8)))

/-- Data that comes for the read which a DMA_COPY from the host has outstanding is written behind the bytes already
moved, and the copy goes on or ends; an error, poison or a timeout ends it with HOST_ERROR 1, 2 or 3, counted,
with the bytes written before left in place. Under CXL a host request to a device-owned page first makes the page
shared and counts one flip, and an answer for a page that a BIAS_SET recalls makes it device-owned. Where the
manual leaves a point of it open, the statement holds the choice of the model: assumption log 24. -/
def Obligations.HostAnswersRun : Prop :=
  (∀ (q : Fin 16384) (seq : Nat) (c : Cmd) (r : HostRead) (bs : List Byte) (t s : State), s.linkUp = true →
    s.host.reads.find? (fun r => r.q == q.val && r.seq == seq) = some r → s.cmd? q seq = some c → bs.length = r.len →
    ({ s with host := { s.host with reads := s.host.reads.erase r } } : State).busWrite (.command q) (s.queueWadding q)
      (c.par 24 8 + c.aux.headD 0) bs = .done t →
    (∀ u, s.busWrite (.command q) (s.queueWadding q) (c.par 24 8 + c.aux.headD 0) bs ≠ .waits u) →
    exec (.hostMemoryReadCompletion q seq (.data bs)) s =
      .next ((t.act q 4 (ceilDiv r.len 64)).dmaAsk c (c.aux.headD 0 + r.len))) ∧
  (∀ (q : Fin 16384) (seq : Nat) (c : Cmd) (r : HostRead) (s : State),
    s.host.reads.find? (fun r => r.q == q.val && r.seq == seq) = some r → s.cmd? q seq = some c →
    (let u : State := { s with host := { s.host with reads := s.host.reads.erase r } }
     (s.linkUp = true → exec (.hostMemoryReadCompletion q seq .error) s =
       .next ((u.set F.HIF_STATUS_HOST_ERROR 1).complete c stHostError 1 (c.aux.headD 0))) ∧
     (s.linkUp = true → exec (.hostMemoryReadCompletion q seq .poison) s =
       .next ((u.set F.HIF_STATUS_HOST_ERROR 1).complete c stHostError 2 (c.aux.headD 0))) ∧
     exec (.hostCompletionTimeout q seq) s =
       .next (((u.set F.HIF_STATUS_HOST_ERROR 1).bump F.HIF_ERRCNT_CPL_TIMEOUT 1).complete c stHostError 3 (c.aux.headD 0)))) ∧
  (∀ (line : Nat) (s : State), s.get F.HIF_LINK_MODE = 2 → line * 64 < hdmSize → line * 64 / pageSize ∉ s.host.shared →
    (let u := (s.setHost { s.host with shared := s.host.shared ++ [line * 64 / pageSize] }).bump F.HIF_BIAS_CNT_HOST_FLIPS 1
     exec (.cxlMemRequest line none) s = .next (u.hostLines (line * 64) 64 true) ∧
     ∀ bs : List Byte, bs.length = 64 → exec (.cxlMemRequest line (some bs)) s = .next (u.bar0Write (line * 64) bs))) ∧
  (∀ (page d : Nat) (left : List Nat) (c : Cmd) (s : State), s.get F.HIF_LINK_MODE = 2 →
    s.queues.inflight.find? (fun c => c.op == 0x0207 && c.running &&
      (match c.aux with | _ :: p :: _ => p == page | _ => false)) = some c →
    c.aux = d :: page :: left → page ∈ s.host.shared →
    exec (.cxlCacheResponse page) s = .next (((s.setHost { s.host with
      shared := s.host.shared.filter (fun p => p != page) }).bump F.HIF_BIAS_CNT_BIAS_SETS 1).biasGo c (d + 1) left))

/-- On a cluster whose core issues it: NOP changes nothing; ALU writes fn(ra, rb) and ALUI fn(ra, sext(imm)) to rd;
LIH replaces rd[63:32]; FALU and SSCALE write their result and count its events against the conversion context; BR
goes to PC + 8 × imm when its condition holds; JAL and JALR write PC + 8 to rd and go to PC + 8 × imm and to ra; a
WAIT whose operations have completed goes on. The instruction then retires. Where the manual leaves a point of it
open, the statement holds the choice of the model: assumption log 25. -/
def Obligations.ScalarRuns : Prop :=
  ∀ (g : Fin 1024) (s : State),
    let w := s.fetchWord g
    let ra := s.sreg g (rRa w)
    let rb := s.sreg g (rRb w)
    (bits w 0 8 = 0 → w = 0 → s.canIssue g = true → exec (.nop g) s = .next (s.retire g (s.seqPc g))) ∧
    (Issues s g (aluOp g) → exec (.alu g) s = .next ((s.setSreg g (rRd w) (aluFn (rFn w) ra rb)).retire g (s.seqPc g))) ∧
    (Issues s g (aluiOp g) →
      exec (.alui g) s = .next ((s.setSreg g (rRd w) (aluFn (rFn w) ra (rSext w))).retire g (s.seqPc g))) ∧
    (Issues s g (lihOp g) → exec (.lih g) s =
      .next ((s.setSreg g (rRd w) (fset 32 32 (s.sreg g (rRd w)) (rImm w))).retire g (s.seqPc g))) ∧
    (Issues s g (faluOp g) → exec (.falu g) s =
      .next (((s.setSreg g (rRd w) (faluFn s.ieee (rFn w) ra rb).1).ctxEvents g
        (EvCount.zero.add (faluFn s.ieee (rFn w) ra rb).2)).retire g (s.seqPc g))) ∧
    (∀ f : Fmt, Issues s g (sscaleOp g) → scaleFmt (rFn w % 16) = some f →
      (let r := scaleFrom f (rFn w / 16 % 2 == 1) (lowF32 ra) (lowF32 rb)
       exec (.sscale g) s = .next (((s.setSreg g (rRd w) (BitVec.ofNat 64 (r.1.scale + r.1.zp * 2 ^ 16))).ctxEvents g
        r.2).retire g (s.seqPc g)))) ∧
    (Issues s g (brOp g) → exec (.br g) s =
      .next (s.retire g (if brCond (rFn w) ra rb then s.relPc g w else s.seqPc g))) ∧
    (Issues s g (jalOp g) → exec (.jal g) s =
      .next ((s.setSreg g (rRd w) (BitVec.ofNat 64 (s.seqPc g))).retire g (s.relPc g w))) ∧
    (Issues s g (jalrOp g) → exec (.jalr g) s =
      .next ((s.setSreg g (rRd w) (BitVec.ofNat 64 (s.seqPc g))).retire g ra.toNat)) ∧
    (Issues s g (waitOp g) → (s.cl g).waitDone (rImm w) = true ∧ exec (.wait g) s = .next (s.retire g (s.seqPc g)))

/-- The integer operations of ALU and ALUI, as numbers: ADD, SUB and MUL modulo 2^64, shifts by the low 6 bits of the
second operand (SHL multiplies modulo 2^64, SHR divides the unsigned and SAR the signed value, rounding down), MIN
and MAX of the signed values, SLT and SLTU 1 or 0. -/
def Obligations.AluValues : Prop :=
  ∀ a b : Word,
    (aluFn 0 a b).toNat = (a.toNat + b.toNat) % 2 ^ 64 ∧
    ((aluFn 1 a b).toNat : Int) = ((a.toNat : Int) - b.toNat) % 2 ^ 64 ∧
    (aluFn 2 a b).toNat = a.toNat * b.toNat % 2 ^ 64 ∧
    (∀ i : Nat, (aluFn 3 a b).getLsbD i = (a.getLsbD i && b.getLsbD i) ∧ (aluFn 4 a b).getLsbD i = (a.getLsbD i || b.getLsbD i) ∧
      (aluFn 5 a b).getLsbD i = (a.getLsbD i ^^ b.getLsbD i)) ∧
    (aluFn 6 a b).toNat = a.toNat * 2 ^ (b.toNat % 64) % 2 ^ 64 ∧
    (aluFn 7 a b).toNat = a.toNat / 2 ^ (b.toNat % 64) ∧
    (aluFn 8 a b).toInt = a.toInt / 2 ^ (b.toNat % 64) ∧
    (aluFn 9 a b).toInt = min a.toInt b.toInt ∧ (aluFn 10 a b).toInt = max a.toInt b.toInt ∧
    (aluFn 11 a b).toNat = (if a.toInt < b.toInt then 1 else 0) ∧ (aluFn 12 a b).toNat = (if a.toNat < b.toNat then 1 else 0)

/-- LDL reads 8 bytes of the local buffer at ra + sext(imm) into rd and STL writes rb there; LDM reads 8 bytes of
module memory for rd, which the next response of the die that holds them writes; STM writes rb to module memory;
DMA places the transfer of its descriptor in the queue of its channel; the transfer at the head of a channel moves
its rows, counts its bytes and leaves the queue, or keeps its place while a tile that it touches is busy. Where
the manual leaves a point of it open, the statement holds the choice of the model: assumption log 3, 25 and 26. -/
def Obligations.TileMemoryRuns : Prop :=
  ∀ (g : Fin 1024) (s : State),
    let w := s.fetchWord g
    let q := s.launchQueue g
    let a := (s.sreg g (rRa w) + rSext w).toNat
    let rb := leBytes 8 (s.sreg g (rRb w)).toNat
    (Issues s g (ldlOp g) → a % 8 = 0 ∧ a ≤ 0x1FFFF8 ∧
      exec (.ldl g) s = .next (((s.setSreg g (rRd w) (BitVec.ofNat 64 (s.lbNat g a 8))).act q 4 1).retire g (s.seqPc g))) ∧
    (Issues s g (stlOp g) → a % 8 = 0 ∧ a ≤ 0x1FFFF8 ∧
      exec (.stl g) s = .next (((s.lbPut g a rb).act q 4 1).retire g (s.seqPc g))) ∧
    (Issues s g (ldmOp g) → a % 8 = 0 ∧ s.rangeMapped a 8 = true ∧
      (let r := s.busRead (.tile g) a 8
       exec (.ldm g) s = .next (((r.st.updCl g (fun c =>
        { c with ldm := c.ldm ++ [(rRd w, BitVec.ofNat 64 (ofLe r.bytes), ownerDie a, c.serial)], serial := c.serial + 1 })).actMem
        q a 8).retire g (s.seqPc g)))) ∧
    (∀ (rd : Fin 64) (p : Nat × Word × Nat × Nat), (s.cl g).ldmHeads.find? (fun p => p.1 == rd.val) = some p →
      exec (.ldmResponse g rd) s = .next ((s.updCl g (fun c => { c with ldm := c.ldm.erase p })).setSreg g rd p.2.1)) ∧
    (∀ t : State, Issues s g (stmOp g) → s.busWrite (.tile g) (s.isWadding g) a rb = .done t →
      exec (.stm g) s = .next ((t.actMem q a 8).retire g (s.seqPc g))) ∧
    (Issues s g (dmaOp g) →
      (let d := s.dmaDesc g (rFn w) (s.sreg g (rRa w)).toNat
       (s.dmaQueue g (rImm w)).length < 5 ∧ 1 ≤ d.rowBytes ∧ d.rowBytes ≤ 2 ^ 20 ∧
       exec (.dma g) s = .next (((s.updCl g (fun c => { c with serial := c.serial + 1 })).setDmaQueue g (rImm w)
        (s.dmaQueue g (rImm w) ++ [d])).retire g (s.seqPc g)))) ∧
    (∀ (ch : Fin 4) (d : DmaOp) (rest : List DmaOp), s.dmaQueue g ch = d :: rest →
      (let r := dmaParts g d d.byRow d.row s
       (r.how = .moved →
        exec (.dmaComplete g ch) s = .next (((r.st.dmaCount g (d.rows * d.rowBytes)).setDmaQueue g ch rest).drainFaulted g)) ∧
       (r.how = .waits → exec (.dmaComplete g ch) s = .next (r.st.setDmaQueue g ch ({ d with row := r.row } :: rest)))))

/-- Every fault that an instruction at issue raises stops the control core before the instruction changes state: with
no register pending and nothing to wait for, exec raises the fault of the smallest code at the address of that
fault, after the gutter event of an unmapped address, and does nothing else; an illegal word or a reserved opcode
raises code 1. The core then shows the fault: CC_STATE is FAULTED with the PC unchanged, CC_FAULT holds code and
PC and CC_FADDR the address. -/
def Obligations.TileFaults : Prop :=
  ∀ (g : Fin 1024) (s : State) (t : TileOp), s.canIssue g = true →
    let w := s.fetchWord g
    (tileOps.contains (bits w 0 8) = false → s.issue g t = s.raiseTile g 1 0) ∧
    (tileOps.contains (bits w 0 8) = true → bits w 0 8 = t.op →
      (t.legal w = false → s.issue g t = s.raiseTile g 1 0) ∧
      (t.legal w = true → (t.regs w).any (s.cl g).regPending = false → t.wait s w = none →
        (s.isWadding g = false ∨ ((t.regs w).all wadReg = true ∧ t.wad w = true)) →
        ∀ f, leastFault (t.faults s w) = some f →
          s.issue g t = (if f.miss then s.missEvent (.tile g) f.addr else s).raiseTile g f.code f.addr)) ∧
    (∀ code addr : Nat, 1 ≤ code → code ≤ 0x0E → addr < 2 ^ 64 →
      let u := s.raiseTile g code addr
      u.get F.CC_STATE_STATE g = 3 ∧ u.get F.CC_FAULT_CODE g = code ∧ u.get F.CC_FAULT_PC g = s.get F.CC_STATE_PC g ∧
      (u.rd .ccFaddr g 0).toNat = addr ∧ u.mem = s.mem)

/-- MCFG sets the configuration; MMA joins the queue of the matrix engine, with its place in the count of hazards and
of long sums; the first instruction of the queue that has not entered enters the array when the one before has
drained and its tile is clear; each chunk is promoted; a full segment closes; the oldest instruction leaves when
all is promoted; an audit unit takes up to 64 K steps while the vector engine executes nothing, and the last one
ends its audit. Where the manual leaves a point of it open, the statement holds the choice of the model:
assumption log 25, 26 and 27. -/
def Obligations.MatrixRuns : Prop :=
  ∀ (g : Fin 1024) (s : State),
    let w := s.fetchWord g
    (Issues s g (mcfgOp g) → exec (.mcfg g) s = .next ((s.updCl g (fun c => { c with
      fmtA := bits w 8 4, fmtB := bits w 12 4, sgA := bits w 16 2, sgB := bits w 18 2, destTid := bits w 32 24 })).retire g (s.seqPc g))) ∧
    (Issues s g (mmaOp g) → (s.cl g).mq.length < 4 ∧
      (let p := s.withOrdinal g (s.mmaOf g w)
       let t := p.2.tileWaits g p.1.tile true (bits w 38 1 == 1)
       let t := if s.longOverflow g p.1 then t.bump F.ACC_LSUM_LSOVF_COUNT 1 g else t
       exec (.mma g) s = .next (((t.updCl g (fun c => { c with mq := c.mq ++ [p.1], serial := c.serial + 1 })).syncEngines g).retire
        g (s.seqPc g)))) ∧
    (∀ o : MmaOp, (s.cl g).mq.find? (fun o => !o.entered) = some o → ((s.cl g).mq.filter (fun o => o.entered)).length ≤ 1 →
      (∀ p ∈ (s.cl g).mq, p.entered = true → p.steps = p.k) → (s.cl g).tileClear o.tile o.serial true = true →
      (o.audit = none ∨ (s.cl g).audits.length < 2) → exec (.mmaArrayEntry g) s = .next (s.mmaEnter g o)) ∧
    (∀ o : MmaOp, (s.cl g).mq.find? (fun o => o.entered && decide (o.steps < o.k)) = some o → s.segmentFull g o.tile = false →
      exec (.chunkPromotion g) s = .next (s.promote g o (s.chunkLen g o))) ∧
    (∀ o : MmaOp, (s.cl g).mq.find? (fun o => o.entered && s.segmentFull g o.tile) = some o →
      exec (.segmentClose g) s = .next (s.closeSegment g o)) ∧
    (∀ (o : MmaOp) (rest : List MmaOp), (s.cl g).mq = o :: rest → o.entered = true → o.steps = o.k →
      s.segmentFull g o.tile = false →
      exec (.mmaComplete g) s = .next (((s.auditAfter g o).updCl g (fun c => { c with mq := rest })).tileFreed g)) ∧
    (∀ u : Audit, (s.cl g).audits.find? (fun u => u.after.isSome) = some u →
      (s.cl g).vq.any (·.started) = false →
      (let n := min 64 (u.op.k - u.steps)
       let u' := { u with steps := u.steps + n, cols := u.cols.zipIdx.map (fun p => s.auditColumn g u n p.2 p.1) }
       (u.steps + n < u.op.k → exec (.auditUnit g) s = .next (s.updCl g (fun c => { c with
          audits := c.audits.map (fun x => if x.op.serial = u.op.serial then u' else x) }))) ∧
       (u.op.k ≤ u.steps + n → exec (.auditUnit g) s = .next ((((((s.updCl g (fun c => { c with
          audits := c.audits.filter (fun x => x.op.serial ≠ u.op.serial) })).auditEnd g u').releasePins g).syncEngines g).vecStart
          g)))))

/-- For the formats whose chunk register is exact, the chunk sum of finite operands is finite and equals the exact sum
of their products; it is marked exactly when some operand was special. -/
def Obligations.ChunkExact : Prop :=
  ∀ l : List ((FV × Bool) × (FV × Bool)), (∀ p ∈ l, p.1.1.nonfinite = false ∧ p.2.1.nonfinite = false) →
    let r := chunkSum 0 (l.map Prod.fst) (l.map Prod.snd)
    r.1.nonfinite = false ∧ r.1.val = (l.map (fun p => p.1.1.val * p.2.1.val)).sum ∧
    r.2 = l.any (fun p => p.1.2 || p.2.2)

/-- A vector instruction of a course program that issues to an idle engine joins the queue and starts at once with the
effect of its kind: loads and gathers, stores and scatters, a tile read, a broadcast, an element-wise operation or
function, a comparison, a mask operation, the Hadamard transform, a row reduction and a scale; VCTX sets the
conversion context at issue. The instruction then retires. Where the manual leaves a point of it open, the
statement holds the choice of the model: assumption log 28. -/
def Obligations.VectorRuns : Prop :=
  ∀ (g : Fin 1024) (s : State), VecIdle s g →
    let v := vecEntry s g
    let j := vecJoined s g
    let n := s.seqPc g
    (Issues s g (vecTile g 0x41) → exec (.vld g) s = .next ((vecStarted (j.vldRun g v) g v).retire g n)) ∧
    (Issues s g (vecTile g 0x42) → exec (.vst g) s = .next ((vecStarted (j.vstRun g v) g v).retire g n)) ∧
    (Issues s g (vecTile g 0x43) → exec (.vgather g) s = .next ((vecStarted (j.vldRun g v) g v).retire g n)) ∧
    (Issues s g (vecTile g 0x44) → exec (.vscatter g) s = .next ((vecStarted (j.vstRun g v) g v).retire g n)) ∧
    (Issues s g (vecTile g 0x45) → exec (.vtrd g) s = .next ((vecStarted (j.vtrdRun g v) g v).retire g n)) ∧
    (Issues s g (vecTile g 0x46) → exec (.vbcast g) s = .next ((vecStarted (j.vbcastRun g v) g v).retire g n)) ∧
    (Issues s g (vecTile g 0x48) → exec (.vop g) s = .next ((vecStarted (j.vopRun g v) g v).retire g n)) ∧
    (Issues s g (vecTile g 0x49) → exec (.vfn g) s = .next ((vecStarted (j.vfnRun g v) g v).retire g n)) ∧
    (Issues s g (vecTile g 0x4A) → exec (.vcmp g) s = .next ((vecStarted (j.vcmpRun g v) g v).retire g n)) ∧
    (Issues s g (vecTile g 0x4B) → exec (.vmsk g) s = .next ((vecStarted (j.vmskRun g v) g v).retire g n)) ∧
    (Issues s g (vecTile g 0x4C) → exec (.vhad g) s = .next ((vecStarted (j.vhadRun g v) g v).retire g n)) ∧
    (Issues s g (vecTile g 0x4D) → exec (.vrow g) s = .next ((vecStarted (j.vrowRun g v) g v).retire g n)) ∧
    (Issues s g (vecTile g 0x4E) → exec (.vscale g) s = .next ((vecStarted (j.vscaleRun g v) g v).retire g n)) ∧
    (Issues s g (vecTile g 0x50) → exec (.vsum g) s = .next ((vecStarted j g v).retire g n)) ∧
    (Issues s g (vecTile g 0x40) →
      (let u := s.updCl g (fun c => { c with ctxTid := v.ra.toNat % 2 ^ 24, ctxBase := v.rb.toNat % 2 ^ 40,
                                             ctxPitch := v.rs.toNat % 2 ^ 40 })
       exec (.vctx g) s = .next ((vecStarted (vecJoined u g) g (vecEntry u g)).retire g n)))

/-- VECTOR_OP_COMPLETE takes the started instruction at the head out of the queue, and the next one may start; one of
a wadding program takes its effect then (model's choice, assumption log 65); for VSUM the summary is written to
its register first and its event counted. -/
def Obligations.VectorCompletes : Prop :=
  ∀ (g : Fin 1024) (s : State) (v : VecOp) (rest : List VecOp), (s.cl g).vq = v :: rest → v.started = true →
    let e := if v.wadding = true then (s.vecRun g v).vecAct g v else s
    (bits v.word 0 8 ≠ 0x50 →
      exec (.vectorOpComplete g) s = .next ((e.updCl g (fun c => { c with vq := rest })).tileFreed g)) ∧
    (bits v.word 0 8 = 0x50 →
      (let r := (e.cl g).summary e.ieee (vecF v.word)
       exec (.vectorOpComplete g) s = .next (((((e.updCl g (fun c => { c with vq := rest })).setSreg g (vecF v.word).rs r.1).vecEvents
        g v (EvCount.zero.add r.2)).tileFreed g))))

/-- When a buffer takes results, the elements that the mask selects hold the new values and every other element of
every buffer is unchanged; of the status bits exactly the selected ones are replaced: SATB is set where the event
of an element is saturation, NFB where it is non-finite. -/
def Obligations.VectorResults : Prop :=
  ∀ (c : Cluster) (n m : Nat) (f : Nat → F32 × Evt) (e : Nat), n < 4 → e < 1024 →
    let d := c.vecPut n m f
    (blockVals d.vbuf n).getD e 0#32 = (if m.testBit e then (f e).1 else (blockVals c.vbuf n).getD e 0#32) ∧
    (Sparse.get 0 d.satb n).testBit e =
      (if m.testBit e then decide ((f e).2 = some Ev.sat) else (Sparse.get 0 c.satb n).testBit e) ∧
    (Sparse.get 0 d.nfb n).testBit e =
      (if m.testBit e then decide ((f e).2 = some Ev.nonfin) else (Sparse.get 0 c.nfb n).testBit e) ∧
    (∀ k, k ≠ n → blockVals d.vbuf k = blockVals c.vbuf k ∧ Sparse.get 0 d.satb k = Sparse.get 0 c.satb k ∧
      Sparse.get 0 d.nfb k = Sparse.get 0 c.nfb k)

/-- A free cluster starts its first course launch, and its first wadding launch when no course launch waits, when the
arguments are readable: the program runs from its entry with its state cleared. END stops issue with the PC at the
next word; once every engine is idle the launch completes with success and the core is idle. Where the manual
leaves a point of it open, the statement holds the choice of the model: assumption log 25 and 29. -/
def Obligations.ProgramsRun : Prop :=
  ∀ (g : Fin 1024) (s : State),
    (∀ l : Launch, (s.cl g).run = none → (s.cl g).enginesIdle = true → (s.cl g).ldm = [] →
      ((s.cl g).waiting.find? (fun l => !l.wadding) = some l ∨
        ((s.cl g).waiting.find? (fun l => !l.wadding) = none ∧ (s.cl g).waiting.head? = some l)) →
      (l.args = 0 ∨ s.rangeMapped l.args 48 = true) → exec (.programStart g) s = .next (s.startProgram g l)) ∧
    (Issues s g (endOp g) →
      exec (.endProgram g) s = .next ((s.updCl g (fun c => { c with ending := true })).retire g (s.seqPc g % 2 ^ 18))) ∧
    (∀ l : Launch, (s.cl g).run = some l → (s.cl g).ending = true → (s.cl g).enginesIdle = true →
      exec (.programComplete g) s = .next ((s.launchDone l stSuccess 0).coreIdle g))

/-- EOB ends the issuer's items of its planned batten and waits when the next one has not begun; BAR adds the cluster
to the barrier and waits; a barrier at which every member waits is satisfied, at once within one cluster group and
through the release of the eight dies otherwise; a die's controller gives ready when its rail is ready within
PWR_WAIT, or the wait expires and is counted; the groups of a die are released in order. Where the manual leaves a
point of it open, the statement holds the choice of the model: assumption log 3 and 29. -/
def Obligations.SyncRuns : Prop :=
  (∀ (g : Fin 1024) (s : State), Issues s g (eobOp g) → s.isWadding g = false → s.courseRuns = true →
    (let n := Sparse.get 0 s.course.eob g + 1
     let t := (((s.setCourse { s.course with eob := Sparse.put 0 s.course.eob g n }).updCl g (fun c => { c with
       marks := Sparse.put 0 c.marks (n - 1) c.serial })).noteDone (true, g))
     (n ≤ t.course.plan → exec (.eob g) s = .next (t.retire g (s.seqPc g))) ∧
     (t.course.plan < n → exec (.eob g) s = .next (((t.set F.CC_STATE_SLOT_WAIT 1 g).updCl g (fun c => { c with
       eobWait := true })).retire g (s.seqPc g))))) ∧
  (∀ (g : Fin 1024) (s : State), Issues s g (barOp g) →
    (let id := rImm (s.fetchWord g)
     let l := Sparse.get [] s.course.barriers id ++ [g.val]
     exec (.bar g) s = .next ((((s.setCourse { s.course with barriers := Sparse.put [] s.course.barriers id l }).set F.CC_STATE_BAR_WAIT 1 g).updCl g (fun c => { c with
        bar := some id })).retire g (s.seqPc g)))) ∧
  (∀ (id : Fin 256) (b : BarrierDesc) (s : State), s.barrier? id = some b → b.members ≠ [] →
    (∀ g ∈ b.members, g ∈ Sparse.get [] s.course.barriers id.val) →
    (let t := s.setCourse { s.course with barriers := Sparse.put [] s.course.barriers id.val [] }
     ((∀ g ∈ b.members, g / 16 = b.members.headD 0 / 16) → exec (.barrierSatisfied id) s = .next (b.members.foldl
        (fun u g => (u.updCl g (fun c => { c with bar := none })).set F.CC_STATE_BAR_WAIT 0 g) t)) ∧
     ((∃ g ∈ b.members, g / 16 ≠ b.members.headD 0 / 16) → exec (.barrierSatisfied id) s = .next ((List.range 8).foldl
        State.signalRelease (b.members.foldl (fun u g => u.updCl g (fun c => { c with bar := none })) t))))) ∧
  (∀ (d : Fin 8) (s : State), Sparse.get 0 s.frame.release d.val = 1 →
    (s.railReady d = true → s.now ≤ s.pwrWaitEnd d →
      exec (.powerReady d) s = .next { s with frame := { s.frame with release := Sparse.put 0 s.frame.release d.val 2 } }) ∧
    (let u := s.advanceTo (s.pwrWaitEnd d)
     exec (.pwrWaitTimeout d) s = .next (({ u with frame := { u.frame with
      release := Sparse.put 0 u.frame.release d.val 2 } } : State).bump F.TBN_BARCNT_PWR_TIMEOUTS 1 d))) ∧
  (∀ (d k : Fin 8) (s : State), Sparse.get 0 s.frame.release d.val = 2 →
    (s.frame.groups.filter (fun x => x / 8 == d.val)).length = k.val →
    (let t := if k.val = 0 then s.releaseBegins d else s
     let u := (t.clusterKeys.filter (fun g => g / 128 == d.val && g % 128 / 16 == k.val)).foldl State.releaseCluster t
     exec (.groupRelease d k) s = .next { u with frame := { u.frame with
      opening := u.frame.opening.filter (fun x => x != d.val * 8 + k.val)
      groups := if k.val = 7 then u.frame.groups.filter (fun x => x / 8 != d.val) else u.frame.groups ++ [d.val * 8 + k.val]
      release := if k.val = 7 then Sparse.put 0 u.frame.release d.val 0 else u.frame.release } }))

/-- SQPUSH with a credit takes it and copies an entry into the next slot; SQPOP of a ready entry begins its copy; the
oldest copy of a cluster ends: a push writes its bytes and makes the entry poppable, a pop writes them to the
local buffer and returns the credit; a credit of the module that consumes a queue, when it is not refused, frees
its slot, up to the depth. Where the manual leaves a point of it open, the statement holds the choice of the
model: assumption log 30. -/
def Obligations.StageRuns : Prop :=
  (∀ (g : Fin 1024) (s : State), Issues s g (sqpushOp g) →
    exec (.sqpush g) s = .next ((s.pushRun g (s.fetchWord g)).retire g (s.seqPc g))) ∧
  (∀ (g : Fin 1024) (s : State), Issues s g (sqpopOp g) →
    exec (.sqpop g) s = .next ((s.popRun g (s.fetchWord g)).retire g (s.seqPc g))) ∧
  (∀ (g : Fin 1024) (p : SqCopy) (rest : List SqCopy) (d : StageDesc) (t s : State), (s.cl g).copies = p :: rest →
    s.stage? p.key = some d → p.push = true → p.sent = false →
    s.busWrite (.tile g) false (faLocal (stageSlot d p.slot)) (s.lbRead g p.off d.size) = .done t →
    (let u := t.actMem (t.launchQueue g) (faLocal (stageSlot d p.slot)) d.size
     let x := u.stageQ p.key
     exec (.stageQueueCopyComplete g) s = .next (((u.setStageQ p.key { x with entries := x.entries.map (fun e =>
      if e.slot = p.slot ∧ e.ready = false then { e with ready := true, got := d.size } else e) }).updCl g (fun c => { c with
        copies := rest })).drainFaulted g))) ∧
  (∀ (g : Fin 1024) (p : SqCopy) (rest : List SqCopy) (d : StageDesc) (s : State), (s.cl g).copies = p :: rest →
    s.stage? p.key = some d → p.push = false →
    (let a := faLocal (stageSlot d p.slot)
     let r := s.busRead (.tile g) a d.size
     r.waits = false → (s.cl g).pinned p.off d.size = false →
     exec (.stageQueueCopyComplete g) s = .next (((((r.st.actMem (s.launchQueue g) a d.size).lbPut g p.off r.bytes).creditBack
      g p.key d p.slot).updCl g (fun c => { c with copies := rest })).drainFaulted g))) ∧
  (∀ (h : FabHdr) (addr : Nat) (pr : CourseProgram) (d : StageDesc) (s : State), Fresh s h → h.src ≠ s.devnum →
    s.course.prog = some pr → s.courseRuns = true →
    pr.stages.find? (fun d => s.stageConsumer d == some h.src &&
      decide (faLocal d.buffer ≤ addr ∧ addr < faLocal d.buffer + d.size * d.depth)) = some d →
    (let a := arrived s h
     let x := s.stageQ (d.die * 512 + d.k)
     exec (.sqCredit h addr) s = .next (a.setStageQ (d.die * 512 + d.k) { x with
      entries := x.entries.filter (fun e => stageSlot d e.slot % 2 ^ 43 != addr), credits := min d.depth (x.credits + 1) })))

/-- CHN begins this cluster's member of a chain on its tile; a member whose tile is clear takes a due row of the
running sum, adds its readout values with their events, and passes the row on by the port of its hop; the first
member of a collective reads each chunk of its input and sends it on, the last writes the result; a chunk of the
result on the reverse chain is written to DEST. An accepted chain-reduce whose descriptor is sound, with its input
mapped and, where this member writes it, its result, joins the collective with the fields of its descriptor. Where
the manual leaves a point of it open, the statement holds the choice of the model: assumption log 31. -/
def Obligations.ChainsRun : Prop :=
  (∀ (g : Fin 1024) (c : ChainDesc) (s : State), Issues s g (chnOp g) →
    s.chain? (s.sreg g (rRa (s.fetchWord g))).toNat = some c → (s.cl g).tileConflict (rImm (s.fetchWord g)) false = false →
    (let t := rImm (s.fetchWord g)
     let id := (s.sreg g (rRa (s.fetchWord g))).toNat
     let mine := s.membersAt c g t
     let x := s.chainRun id
     let m := (mine.filter (fun i => !x.waiting.contains i)).headD (mine.headD 0)
     exec (.chn g) s = .next ((((s.setChain id { x with waiting := x.waiting ++ [m] }).updCl g (fun k => { k with
      chains := k.chains ++ [(id, t, k.serial)], serial := k.serial + 1 })).syncEngines g).retire g (s.seqPc g)))) ∧
  (∀ (h : FabHdr) (id row : Nat) (digest : Word) (data : List Byte) (c : ChainDesc) (m : ChainMember) (o : Nat × Nat × Nat)
    (s : State), s.powered = true → h.src = s.devnum → s.chain? id = some c → c.id = id → c.members[0]? = some m → m.dev = s.devnum → row + 1 < c.rows →
    (s.cl m.cluster).chains.find? (fun o => o.1 == c.id && o.2.1 == m.tile) = some o →
    (s.cl m.cluster).tileClear m.tile o.2.2 false = true → 0 ∈ (s.chainRun id).waiting →
    (∀ k, k < c.rows → Sparse.get 0 (s.chainRun id).got k = if k < row then 1 else 0) →
    (∀ n, c.members[1]? = some n → n.dev = s.devnum) →
    (let rd := (List.range 32).map (fun j => s.readout m.cluster m.tile (32 * row + j))
     let t := s.tileEvents m.cluster m.tile c.destTid (EvCount.ofList (rd.map Prod.snd))
     let u := t.countEvents (s.launchQueue m.cluster) c.destTid (EvCount.ofList (List.replicate 32 none))
     let x := s.chainRun id
     exec (.chainSum h id 0 row ⟨digest, data⟩) s = .next (u.setChain id { x with
      got := Sparse.put 0 x.got row 1
      sum := ((List.range 32).zip rd).foldl (fun l p => Sparse.put (0#32, 0#32) l (32 * row + p.1) (p.2.1, 0#32)) x.sum }))) ∧
  (∀ (h : FabHdr) (id k : Nat) (digest : Word) (data : List Byte) (x : CollRun) (d : Nat) (s : State), s.powered = true →
    h.src = s.devnum → s.chain? id = none →
    s.fab.colls.find? (fun x => x.id == id && x.me == 0) = some x → x.me = 0 → x.id = id → x.fwd = k → k + 1 < x.chunks → x.kind = 0 →
    x.members[1]? = some d → s.hopWay d 0x11 id 0 x.plain = .goes →
    (let r := s.busRead (.command x.q) (x.src + k * x.perChunk * x.size) (x.chunkElems k * x.size)
     let j := x.join s.ieee k data r.bytes
     let u := (r.st.countEvents x.q x.tid j.2).countEvents x.q x.tid .zero
     let y := { x with fwd := k + 1 }
     r.waits = false → exec (.chainSum h id 0 k ⟨digest, data⟩) s =
      .next ((u.sendHop x.q d 0x11 id 0 k y.digest j.1 (u.collPlan y)).putColl y))) ∧
  (∀ (h : FabHdr) (id k : Nat) (data : List Byte) (x : CollRun) (t s : State), Fresh s h → h.src ≠ s.devnum → s.fab.colls.find? (fun x => x.id == id && x.kind == 1) = some x →
    x.me = 0 → x.kind = 1 → x.written = k → k < x.fwd → k + 1 < x.chunks →
    (arrived s h).busWrite (.command x.q) (s.queueWadding x.q) (x.dest + k * x.perChunk * x.size) data = .done t →
    exec (.collResult h id ⟨k, data⟩) s = .next (t.putColl (x.wrote 0))) ∧
  (∀ (q : Fin 16384) (seq : Nat) (c : Cmd) (s : State), Accepted 0x0400 q seq c s → c.par 16 8 % 64 = 0 → c.par 16 8 < 2 ^ 43 →
    s.memRange (c.par 16 8) 64 = true →
    (let r := s.busRead (.command q) (c.par 16 8) 64
     let b := r.bytes
     let len := fieldLe b 4 2
     let mr := r.st.busRead (.command q) (fieldLe b 32 8) (2 * len)
     let ms := (List.range len).map (fun i => fieldLe mr.bytes (2 * i) 2)
     let n := fieldLe b 8 8 * 4
     let x : CollRun := ⟨q, seq, 0, false, 0, fieldLe b 2 2, fieldLe b 8 8, fieldLe b 16 8, fieldLe b 24 8, ms, fieldLe b 40 3,
       ms.idxOf mr.st.devnum, 0, 0, 0⟩
     let u := mr.st.newHops x.id
     collOk b = true → fieldLe b 0 1 = 0 → fmtOfCode (fieldLe b 1 1) = some .f32 → r.st.rangeMapped (fieldLe b 32 8) (2 * len) = true →
     ms.Nodup → mr.st.devnum ∈ ms → (∀ d ∈ ms, d < 2048 ∧ u.devLost d = false) → u.devValid = true →
     u.rangeMapped x.src n = true → (x.writes = true → u.rangeMapped x.dest n = true ∧
      u.writeStop (.command q) (u.queueWadding q) x.dest n = none) → u.collLink1 x = false →
     ∃ t, exec (.collective q seq) s = .next t ∧ x ∈ t.fab.colls ∧ t.mem = mr.st.mem))

/-- With the dormer and its scope, CC_CTRL halts or releases a core and steps a halted one; scalar registers and
program memory of an idle cluster take the bytes written, and a running one raises event 0x0203 and keeps them; a
change of compensated tiles is rejected while one of them is busy and clears the changed tiles otherwise; a
segment register is written; an accumulator access to a free tile is served, one to a busy tile waits, and after
500 µs it is given up with event 0x0205. Clearing MISMATCH releases a held course; a coefficient waits for the
next batten; a policy entry and a cap in range are taken. Where the manual leaves a point of it open, the
statement holds the choice of the model: assumption log 3 and 32. -/
def Obligations.DormerRuns : Prop :=
  (∀ (g : Fin 1024) (h : Bool) (s : State), s.dormer 1 = true → exec (.ccHalt g h) s = .next
    (((s.set F.CC_CTRL_HALT (if h then 1 else 0) g).set F.CC_STATE_HALTED (if h then 1 else 0) g).updCl g (fun c => { c with
      step := false }))) ∧
  (∀ (g : Fin 1024) (s : State), s.dormer 1 = true → s.bit F.CC_STATE_HALTED g = true → exec (.ccStep g) s = .next
    (((s.set F.CC_CTRL_HALT 1 g).set F.CC_STATE_HALTED 1 g).updCl g (fun c => { c with step := true }))) ∧
  (∀ (g : Fin 1024) (n : Fin 64) (v : Word) (s : State),
    (s.runsAny g = false → exec (.scalarRegisterWrite g n v) s = .next (s.setSreg g n v)) ∧
    (s.runsAny g = true → exec (.scalarRegisterWrite g n v) s =
      .next (s.raise (g / 128) 0x0203 (plAt 16 (clusterAddr g (0x70_0000 + 8 * n)))))) ∧
  (∀ (g : Fin 1024) (off : Nat) (bs : List Byte) (s : State), off + bs.length ≤ 0x4_0000 →
    (s.runsAny g = false →
      exec (.programMemoryWrite g off bs) s = .next (s.updCl g (fun c => { c with pm := tablePut c.pm off bs }))) ∧
    (s.runsAny g = true → exec (.programMemoryWrite g off bs) s =
      .next (s.raise (g / 128) 0x0203 (plAt 16 (clusterAddr g (0x100_0000 + off)))))) ∧
  (∀ (g : Fin 1024) (v : Word) (s : State),
    (let new := v.toNat / 2 ^ 8 % 256
     let changed := (List.range 8).filter (fun j => decide (s.get F.ACC_CTRL_COMP g / 2 ^ j % 2 ≠ new / 2 ^ j % 2))
     ((∃ j ∈ changed, (s.cl g).tileBusy j = true ∨ (s.cl g).tileBusy (j + 24) = true) →
      exec (.compChange g v) s = .next (s.set F.ACC_STATUS_COMP_CHANGE_REJECTED 1 g)) ∧
     ((∀ j ∈ changed, (s.cl g).tileBusy j = false ∧ (s.cl g).tileBusy (j + 24) = false) →
      exec (.compChange g v) s = .next (changed.foldl (fun s j =>
        (((s.clearTile g j).clearTile g (j + 24)).set F.ACC_TSTAT_COMP (new / 2 ^ j % 2) g j).set F.ACC_TSTAT_PARTNER
          (new / 2 ^ j % 2) g (j + 24)) ((s.set F.ACC_CTRL_STRICT (v.toNat % 2) g).set F.ACC_CTRL_COMP new g))))) ∧
  (∀ (g : Fin 1024) (t : Fin 32) (v : Word) (s : State), s.dormer 0 = true →
    (let k := t * 1024 + s.get F.ACC_SEGSEL_ELEM g
     exec (.accSegWrite g t v) s = .next ((s.updCl g (fun c => { c with
      segHi := Sparse.put 0#32 c.segHi k (BitVec.ofNat 32 v.toNat)
      segLo := Sparse.put 0#32 c.segLo k (BitVec.ofNat 32 (v.toNat / 2 ^ 32)) })).markDormer))) ∧
  (∀ (g : Fin 1024) (off : Nat) (bs : List Byte) (s : State), bs ≠ [] → off + bs.length ≤ 0x2_0000 → s.dormer 0 = true →
    (s.accBusy g off bs.length true = false →
      exec (.accumulatorAccess g off 0 (some bs)) s = .next (s.accWrite g off bs)) ∧
    (s.accBusy g off bs.length true = true → exec (.accumulatorAccess g off 0 (some bs)) s = .next (s.updCl g (fun c => { c with
      accWait := c.accWait ++ [⟨.host, off, bs.length, true, some bs, s.now, c.serial, false⟩], serial := c.serial + 1 })))) ∧
  (∀ (g : Fin 1024) (x : AccWait) (s : State), (s.cl g).accWait.find? (fun x => !x.expired) = some x → x.data.isSome = true →
    x.write = true →
    (let u := (s.advanceTo (x.since + 500000)).updCl g (fun c => { c with accWait := c.accWait.erase x })
     exec (.dormerAccessTimeout g) s =
      .next ((u.raise (g.val / 128) 0x0205 (plAt 16 (accAddr g x.off) + plAt 25 1)).tileFreed g))) ∧
  (∀ s : State, s.bit F.LDG_STATUS_MISMATCH = true → s.bit F.LDG_STATUS_COMPARING = false →
    ∃ t, exec .compareHaltRelease s = .next t ∧ t.bit F.LDG_STATUS_MISMATCH = false ∧ t.replay.held = false ∧ t.mem = s.mem) ∧
  (∀ (d : Fin 8) (k : Fin 16) (v : Word) (s : State), exec (.pwrCoefWrite d k v) s = .next { s with pwr := { s.pwr with
    coefPend := Sparse.put none s.pwr.coefPend (16 * d + k) (some (BitVec.ofNat 64 (v.toNat % 2 ^ 32))) } }) ∧
  (∀ (k : Fin 16) (v : Word) (s : State), s.cstate = 0 → v.toNat / 2 ^ 16 % 2 ^ 8 ≤ 50 → v.toNat / 2 ^ 40 % 2 ^ 8 ≤ 15 →
    (let w : Word := BitVec.ofNat 64 (v.toNat % 2 ^ 48)
     exec (.pwrPolicyWrite 0 k v) s = .next (({ s.wr .pwrPolicy 0 k w with pwr := { s.pwr with
      policyPend := Sparse.put none s.pwr.policyPend k (some w) } } : State).refreshPwr 0))) ∧
  (∀ (v : Word) (s : State), capOk (v.toNat % 2 ^ 12) = true → exec (.pwrCapWrite 0 v) s = .next (s.setCap (v.toNat % 2 ^ 12)))

/-- An event of Table 17.3 is raised; a drain folds the oldest queued record into the newest one of its ring where
R411 allows, and otherwise writes it after closing the window; a window closes 1 s after its record; a drop report
follows one second later when drops occurred; a page of four records is programmed at the write pointer into an
erased sector, at the next page when a verify fails; the sector ahead is erased once the one before it is full; a
freeze begins, ends by command or after 10 s; OPSEC advances at a multiple of 10^9; records are copied oldest
first, a sound filter table is loaded with full buckets, and the soffit port, once it is up, reads records by
index. Where the manual leaves a point of it open, the statement holds the choice of the model: assumption log 3
and 50. -/
def Obligations.GutterRuns : Prop :=
  (∀ (d : Fin 8) (code payload : Nat) (s : State), execGutterEvent.evCodes.contains code = true → payload < 256 ^ 44 →
    exec (.gutterEvent d code payload) s = .next (s.raise d code payload)) ∧
  (∀ (d : Fin 8) (r : GRec) (rest : List GRec) (s : State), s.gut.frozenAt = none → (s.slice d).intake = r :: rest →
    (let n := s.get F.GUT_HEAD_RAM_NEXT d
     let last := Sparse.get .blank (s.slice d).ring (lastSlot n)
     ((s.slice d).folds last r = true → last.rep + 1 < 255 → (let ring := Sparse.put .blank (s.slice d).ring (lastSlot n) { last with rep := last.rep + 1 }
      exec (.gutterDrain d) s = .next ((s.setSlice d { s.slice d with intake := rest, ring := ring }).bump F.GUT_SUPPRESS_FOLDED 1 d))) ∧
     ((s.slice d).folds last r = false →
      (let t := (s.setSlice d { s.slice d with intake := rest }).closeWindow d
       let ring := Sparse.put .blank (t.slice d).ring n r
       exec (.gutterDrain d) s = .next (((t.setSlice d { t.slice d with ring := ring, win := true }).set F.GUT_HEAD_RAM_NEXT ((n + 1) % 16384) d).bumpWrap
        F.GUT_HEAD_WRITTEN 1 d))))) ∧
  (∀ (d : Fin 8) (s : State), (s.slice d).win = true → exec (.foldWindowClose d) s = .next ((s.advanceTo ((Sparse.get .blank
    (s.slice d).ring (lastSlot (s.get F.GUT_HEAD_RAM_NEXT d))).time + 1000000000)).closeWindow d)) ∧
  (∀ (d : Fin 8) (t : Nat) (s : State), (s.slice d).dropAt = some t →
    ((s.slice d).drops = [] →
      exec (.dropReport d) s = .next ((s.advanceTo (t + 1000000000)).setSlice d { s.slice d with dropAt := none })) ∧
    ((s.slice d).drops ≠ [] → exec (.dropReport d) s = .next ((s.advanceTo (t + 1000000000)).dropReport d))) ∧
  (∀ (a b c d : GRec × Nat) (rest : List (GRec × Nat)) (second : Bool) (s : State), s.gut.nvQueue = a :: b :: c :: d :: rest →
    s.nvReady = true → s.gut.nvAbs < s.gut.nvOld + 131072 →
    (let page := [a.1, b.1, c.1, d.1]
     let g1 := nvPlace { s.gut with nvQueue := rest } page
     let g2 := nvPlace (Gut.skipPage { s.gut with nvQueue := rest }) page
     exec (.nvPageProgram true second) s = .next (((({ s with gut := g1 } : State).flashBusy .page).set F.GUT_NV_NV_NEXT
      (g1.nvAbs % 131072)).set F.GUT_NV_QUEUED rest.length) ∧
     exec (.nvPageProgram false true) s = .next ((((({ s with gut := g2 } : State).flashBusy .page).set F.GUT_STATUS_NV_ERROR
      1).set F.GUT_NV_NV_NEXT (g2.nvAbs % 131072)).set F.GUT_NV_QUEUED rest.length))) ∧
  (∀ s : State, s.nvInhibit = false → s.gut.frozenAt = none → s.sec.job = none → s.gut.nvAbs % 1024 = 0 →
    (let sector := s.gut.nvAbs / 1024
     let lo := sector % 128 * 1024
     let kept := s.gut.nvRing.filter (fun p => !(decide (lo ≤ p.1) && decide (p.1 < lo + 1024)))
     let old := max s.gut.nvOld ((sector - 127) * 1024)
     exec .sectorErase s =
      .next (({ s with gut := { s.gut with nvRing := kept, nvOld := old } } : State).flashBusy .erase))) ∧
  (∀ (t : Nat) (s : State), s.gut.frozenAt = some t → exec .freezeTimeout s = .next ((s.advanceTo (t + 10000000000)).thaw)) ∧
  (∀ s : State, (let t := s.advanceTo ((s.now / 1000000000 + 1) * 1000000000)
    let n := t.get F.GUT_TIME_OPSEC + 1
    exec .opsecAdvance s = .next (if n % 3600 = 0 then (t.set F.GUT_TIME_OPSEC n).raise 0 1 0 else t.set F.GUT_TIME_OPSEC n))) ∧
  (∀ (q : Fin 16384) (seq : Nat) (c : Cmd) (s : State), Accepted 0x0700 q seq c s →
    (s.gut.frozenAt.isSome = true → exec (.gutFreeze q seq) s = .next (s.succeed c 0)) ∧
    (s.gut.frozenAt = none → exec (.gutFreeze q seq) s = .next (((List.range 8).foldl (fun s d => s.wr .gutHeld d 0 0#64)
      (({ s with gut := { s.gut with frozenAt := some s.now } } : State).set F.GUT_CTRL_FROZEN 1)).succeed c 0))) ∧
  (∀ (q : Fin 16384) (seq : Nat) (c : Cmd) (s : State), Accepted 0x0701 q seq c s → s.gut.frozenAt.isSome = true →
    exec (.gutThaw q seq) s = .next (s.thaw.succeed c s.heldTotal)) ∧
  (∀ (q : Fin 16384) (seq : Nat) (c : Cmd) (s : State), Accepted 0x0702 q seq c s → c.par 16 1 < 8 → c.par 24 8 % 64 = 0 →
    c.par 24 8 < 2 ^ 43 →
    (let recs := s.ramNewest (c.par 16 1) (c.par 32 4)
     let bs := (recs.map GRec.bytes).flatten
     s.memRange (c.par 24 8) bs.length = true → s.writeStop (.command c.q) c.wadding (c.par 24 8) bs.length = none →
     exec (.gutCopy q seq) s =
      .next (((s.noteWriter (.command c.q) (c.par 24 8) bs.length).writeMem (c.par 24 8) bs).succeed c recs.length))) ∧
  (∀ (q : Fin 16384) (seq : Nat) (c : Cmd) (s : State), Accepted 0x0703 q seq c s → c.par 16 8 % 64 = 0 → c.par 16 8 < 2 ^ 43 →
    s.memRange (c.par 16 8) 2048 = true →
    (let r := s.readMem .engine (c.par 16 8) 2048
     let es := filterEntries r.bytes
     filterOk es = true → exec (.gutFilter q seq) s = .next (({ r.st with gut := { r.st.gut with
      filter := ((List.range 256).zip es).filter (fun p => p.2 ≠ 0)
      slices := r.st.gut.slices.map (fun p => (p.1, { p.2 with deficit := [] })) } } : State).succeed c 0))) ∧
  (∀ (a n : Nat) (s : State), s.soffitUp = true → 1 ≤ n → n ≤ 1024 → exec (.gutRead true a n) s = .next (s.send (.soffit 0 (leBytes 4 (s.gut.nvOld %
    131072) ++ leBytes 4 (s.gut.nvAbs % 131072) ++ (((List.range n).map (fun i => Sparse.get .blank s.gut.nvRing ((a + i) %
    131072))).map GRec.bytes).flatten))))

/-- Whatever event a die raises, a slice whose intake queue holds at most 256 records still does; a full queue drops
the arriving record unless it holds one of a higher class number, and a drop of it shows in DROP. Closing a window
leaves an NV queue of at most 4,096 records with at most as many. -/
def Obligations.GutterBounds : Prop :=
  (∀ (d code payload k : Nat) (s : State), (∀ j, (s.slice j).intake.length ≤ 256) → ((s.raise d code payload).slice k).intake.length ≤ 256) ∧
  (∀ (d : Nat) (r : GRec) (s : State), (s.slice d).intake.length = 256 → (∀ x ∈ (s.slice d).intake, x.cls ≤ r.cls) →
    (s.intake d r).1 = false ∧ ((s.intake d r).2.slice d).intake = (s.slice d).intake) ∧
  (∀ (d : Nat) (s : State), s.gut.nvQueue.length ≤ 4096 → (s.closeWindow d).gut.nvQueue.length ≤ 4096)

/-- A read of a line in service enters its channel's queue, what has struck the line stays on it, and an engine's or
host's read answers the corrected bytes; a full queue stops the sender of a read; a write that no protection
refuses is noted and changes the bytes of its line; a write-back stores the line as it was corrected; the picked
request issues, those before it count as passed and stopped senders go on; a refresh counts for its bank and on
the bulk tier shows the rate read once per batten; the calibration slot begins at its time and starts one retrain
per controller; a retrain ends with its margin, or fails with event 0x0504; the scrub slot follows and moves the
pointers of its channels. Where the manual leaves a point of it open, the statement holds the choice of the model:
assumption log 47. -/
def Obligations.MemoryRuns : Prop :=
  (∀ (ln up : Nat) (who : Req) (s : State), s.lineUp ln = true → s.chanRoom ln = true → s.stoppedReqs (lineChan ln) = [] →
    up < 2 ^ 576 →
    (let t : State := { s.enqueue ln false with upset := Sparse.put 0 s.upset ln (Sparse.get 0 s.upset ln ^^^ up) }
     let r := t.readLine who ln
     exec (.memRead ln who up) s = .next { r.st with mc := { r.st.mc with resp :=
      if who = .scrub ∨ who = .oldLine ∨ who = .partialWrite then r.st.mc.resp else some ⟨ln, r.bytes, r.unc⟩ } })) ∧
  (∀ (ln up : Nat) (who : Req) (s : State), s.chanRoom ln = false → exec (.memRead ln who up) s = .next
    (s.setStopped (lineChan ln) (s.stoppedReqs (lineChan ln) ++ [⟨ln, 0, none, .host, false, who, up⟩]))) ∧
  (∀ (ln : Nat) (bs : List Byte) (w : Writer) (wad : Bool) (s : State), bs.length = 64 → s.lineUp ln = true → s.chanRoom ln = true →
    s.stoppedReqs (lineChan ln) = [] → s.writeStop w wad (ln * 64) 64 = none →
    exec (.memWrite ln bs w wad) s = .next (((s.enqueue ln true).noteWriter w (ln * 64) 64).writeLine ln 0 bs)) ∧
  (∀ (ln off : Nat) (bs : List Byte) (w : Writer) (wad : Bool) (s : State), bs ≠ [] → bs.length < 64 → off + bs.length ≤ 64 →
    s.lineUp ln = true → s.chanRoom ln = true → s.stoppedReqs (lineChan ln) = [] → s.writeStop w wad (ln * 64 + off) bs.length = none →
    exec (.partialWrite ln off bs w wad) s =
      .next (((s.enqueue ln true).noteWriter w (ln * 64 + off) bs.length).writeLine ln off bs)) ∧
  (∀ (ln v : Nat) (s : State), s.mc.writeBack.find? (fun p => p.1 == ln) = some (ln, v) →
    exec (.writeBack ln) s = .next { s with
      upset := Sparse.put 0 s.upset ln v
      mc := { s.mc with writeBack := s.mc.writeBack.filter (fun p => p.1 != ln) } }) ∧
  (∀ (ch : Fin 2176) (i : Nat) (s : State), i < (s.chanQueue ch).length → (∀ r ∈ s.chanQueue ch, r.passed < 64) → s.retraining ch = false →
    (let l := ((s.chanQueue ch).take i).map (fun r => { r with passed := r.passed + 1 }) ++ (s.chanQueue ch).drop (i + 1)
     exec (.channelIssue ch i) s = .next (({ s with mc := { s.mc with queue := Sparse.put [] s.mc.queue ch l } } : State).takeIn ch
      (s.stoppedReqs ch)))) ∧
  (∀ (ch : Fin 2176) (b : Fin 64) (mr4 : Nat) (s : State), ∃ t, exec (.refresh ch b mr4) s = .next t ∧ t.mem = s.mem ∧
    Sparse.get 0 t.mc.refreshes (ch * 64 + b) = Sparse.get 0 s.mc.refreshes (ch * 64 + b) + 1 ∧
    (let p := (ch.val - 2048) / 4
     2048 ≤ ch.val → p ∉ s.mc.mr4 → t.get ⟨.blkRefrate, 4 * (p % 4), 4⟩ (p / 4) = mr4 % 16 ∧ p ∈ t.mc.mr4)) ∧
  (∀ s : State, s.frame.slot = 1 → (let t := s.advanceTo s.calAt
    exec .calibrationSlot s = .next ((List.range 24).foldl State.calibrate { t with frame := { t.frame with slot := 2 } }))) ∧
  (∀ (ctl : Fin 24) (m : Nat) (s : State), s.bit F.MEM_STATUS_CAL_ACTIVE ctl = true →
    (let ch := s.get F.MEM_STATUS_CAL_CH ctl
     let t := (s.set F.MEM_STATUS_CAL_ACTIVE 0 ctl).bump F.MEM_CAL_RETRAINS 1 ctl
     exec (.retrainEnd ctl false m) s = .next ((((t.set F.MEM_STATUS_CAL_FAIL 1 ctl).bump ⟨chanReg ctl, 32, 4⟩ 1 (chanInst ctl)
      ch).bump F.MEM_CAL_FAILS 1 ctl).raise (ctlDie ctl) 0x0504 (s.memPayload ctl ch)) ∧
     ∃ u, exec (.retrainEnd ctl true m) s = .next u ∧ u.mem = s.mem ∧ u.bit F.MEM_STATUS_CAL_ACTIVE ctl = false ∧
      u.get ⟨chanReg ctl, 40, 8⟩ (chanInst ctl) ch = m % 256 ∧ u.get ⟨chanReg ctl, 32, 4⟩ (chanInst ctl) ch = 0)) ∧
  (∀ (cut : List (Nat × Nat)) (s : State), s.frame.slot = 2 → s.upset = [] →
    (let t := s.advanceTo s.scrubAt
     let u : State := { t with frame := { t.frame with slot := 3 } }
     let after := ((List.range 2176).map (fun k => (k, Sparse.get 0 s.mc.scrub k + u.scrubCount cut k))).filter (fun p => p.2 ≠ 0)
     exec (.scrubSlot cut) s = .next ((List.range 24).foldl (fun x ctl => x.scrubRegs s.mc.scrub ctl)
      { u with mc := { u.mc with scrub := after } })))

/-- Whatever symbol of a codeword is wrong in whatever way, the decoder corrects exactly that symbol, so that the line
reads as it was written; a correct codeword is clean. -/
def Obligations.SymbolCorrected : Prop :=
  decodeLine 0 = .clean ∧
  ∀ j v : Nat, j < 36 → 0 < v → v < 65536 → decodeLine (v * 2 ^ (16 * j)) = .corrected [(j, v)] ∧
    applyFix (v * 2 ^ (16 * j)) [(j, v)] = 0

/-- A tick in its place advances the time to NEXT_TICK and the count by one, takes the pending settings, sets the next
tick and the frame, exchanges sync, preempts wadding and starts what is due; the work slot begins with the release
of every die, in CLOSING when the last planned batten has come; an item issues in order; the ledger slot accounts
the batten. Where the manual leaves a point of it open, the statement holds the choice of the model: assumption
log 3, 17, 34 and 36. -/
def Obligations.FrameRuns : Prop :=
  (∀ s : State, s.timeRuns = true → s.frame.slot = 4 →
    (let t := s.get F.TBN_NEXT_TICK_NEXT
     let n := if s.running then s.plannedDone else 0
     let a := (((s.advanceTo t).saveViews).bumpWrap F.TBN_BATTEN_BATTEN 1).applySettings
     let b := a.set F.TBN_NEXT_TICK_NEXT (t + a.get F.TBN_INTERVAL_INTERVAL_US * 1000)
     let c := b.updFrame (fun f => { f with
      slot := 5, deferTb := 0, quanta := 0, deferring := false, notDone := [], decision := none, late := none, asked := false
      inCourse := false })
     let d : State := { c with mc := { c.mc with mr4 := [] } }
     let e := (((((d.tickSync t).preemptAll).dueItems n).startFlips.startBatches).startMoves n).courseTick
     exec .tick s = .next (e.updFrame (fun f => { f with inCourse := e.courseLive })))) ∧
  (∀ s : State, s.timeRuns = true → s.frame.slot = 5 →
    (let t := if s.cstate = 2 ∧ s.lastPlan s.course.plan = true then s.set F.TBN_CSTATE_STATE 3 else s
     exec .workSlotBegin s =
      .next (State.openSlot { t with frame := { t.frame with slot := 0 } }))) ∧
  (∀ (i : Nat) (x : CourseItem) (s : State), s.item? i = some x → s.frame.slot = 0 → kindWorks x.kind = true →
    x.batten ≤ s.course.plan → i ∉ s.course.issued → s.itemsBefore i x = true →
    exec (.courseItemIssue i) s = .next (s.issueItem i x)) ∧
  (∀ s : State, s.timeRuns = true → s.frame.slot = 3 →
    (let b := (s.advanceTo s.ledgerAt).updFrame (fun f => { f with slot := 4 })
     let c := ((b.settleStages.stageAccount).settleThrottle.lateItems.battenRecord.loadRecords).energyAccount
     let d : State := { c with
      pwr := { c.pwr with refit := c.pwr.refit + 1, throttleUs := 0 }, replay := { c.replay with battenItems := [] } }
     let last := (d.cstate == 3 && d.course.captured) || (d.cstate == 4 && d.drained)
     let e := if last then d.setCourse { d.course with accounted := true } else d
     exec .ledgerSlot s = .next e.retryExports))

/-- At the end of the work slot of a standalone module: a complete work set ends the slot; an incomplete one is
counted on every die with the issuer that is last and then, in elastic mode, extends the batten by one quantum
while fewer than MAXDEFER were taken and faults otherwise; in strict mode it faults; in skip mode it sets CARRY,
and adds a batten when it was the last planned one and fewer than 255 were added. A quantum end extends or ends
alike. Where the manual leaves a point of it open, the statement holds the choice of the model: assumption log 17. -/
def Obligations.OverrunModes : Prop :=
  ∀ s : State, s.timeRuns = true → s.frame.slot = 0 → s.get F.TBN_SYNC_ROLE = 0 →
    let late := s.incomplete
    let t := s.advanceTo s.calAt
    let n := t.noteOverrun
    let carried := n.eachDie (fun s d => s.set F.TBN_STATUS_CARRY 1 d)
    (s.frame.deferring = false → late = false → exec .workSlotEnd s = .next t.endWork) ∧
    (s.frame.deferring = false → late = true →
      (s.get F.TBN_OVR_MODE = 0 →
        (s.frame.quanta < s.get F.TBN_OVR_MAXDEFER → exec .workSlotEnd s = .next n.growBatten) ∧
        (s.get F.TBN_OVR_MAXDEFER ≤ s.frame.quanta → exec .workSlotEnd s = .next n.overrunFault.endWork)) ∧
      (s.get F.TBN_OVR_MODE = 1 → exec .workSlotEnd s = .next n.overrunFault.endWork) ∧
      (s.get F.TBN_OVR_MODE = 2 →
        (carried.lastPlan carried.course.plan = false → exec .workSlotEnd s = .next carried.endWork) ∧
        (carried.lastPlan carried.course.plan = true → carried.course.added < 255 → exec .workSlotEnd s =
          .next ((carried.setCourse { carried.course with added := carried.course.added + 1 }).ledBump ⟨168, 4⟩ 1).endWork) ∧
        (carried.lastPlan carried.course.plan = true → 255 ≤ carried.course.added →
          exec .workSlotEnd s = .next carried.overrunFault.endWork))) ∧
    (s.frame.deferring = true → late = false → exec .quantumEnd s = .next t.endWork) ∧
    (s.frame.deferring = true → late = true →
      (s.frame.quanta < s.get F.TBN_OVR_MAXDEFER → exec .quantumEnd s = .next t.growBatten) ∧
      (s.get F.TBN_OVR_MAXDEFER ≤ s.frame.quanta → exec .quantumEnd s = .next t.overrunFault.endWork))

/-- A follower takes the settings of a SYNC and its next tick, takes the count too after a slip, and slips when the
count differs; a missed SYNC counts and the fourth begins holdover; the master answers DELAY_REQ with its time
stamps; DELAY_RSP gives offset and round trip, brings the time base to the master's but after a slip, 16 battens
within ±40 ns lock, and an offset beyond ±50 ns unlocks. NOT_DONE, EXTEND, PROCEED, ABORT, ADDS_DONE and
ALL_ADDS_DONE about the live course act on it and are acknowledged; about another course they are acknowledged
only. Where the manual leaves a point of it open, the statement holds the choice of the model: assumption log 35. -/
def Obligations.SyncDomainRuns : Prop :=
  (∀ (h : FabHdr) (batten time : Nat) (w1 w2 w3 w4 : Word) (s : State), s.timeRuns = true → s.get F.TBN_SYNC_ROLE = 2 →
    Fresh s h → h.src ≠ s.devnum →
    (let a := (arrived s h).set F.TBN_SYNC_MISSED 0
     let b : State := { a with frame := { a.frame with master := some h.src } }
     let c := (((b.wr .tbnInterval 0 0 w1).wr .tbnSlots 0 0 w2).wr .tbnOvr 0 0 w3).wr .tbnStagger 0 0 w4
     let next := time + w1.toNat % 2 ^ 15 * 1000
     (c.frame.resync = false → batten = c.get F.TBN_BATTEN_BATTEN →
      exec (.sync h batten time w1 w2 w3 w4) s = .next (c.set F.TBN_NEXT_TICK_NEXT (next + c.frame.deferTb))) ∧
     (c.frame.resync = false → batten ≠ c.get F.TBN_BATTEN_BATTEN → exec (.sync h batten time w1 w2 w3 w4) s = .next c.slip) ∧
     (c.frame.resync = true → c.cstate = 0 →
      let d := (((c.set F.TBN_BATTEN_BATTEN batten).set F.TBN_TIME_TIME time).set F.TBN_NEXT_TICK_NEXT next).set F.TBN_SYNC_LOCKED 0
      exec (.sync h batten time w1 w2 w3 w4) s = .next { d with frame := { d.frame with resync := false, good := 0 } }))) ∧
  (∀ s : State, s.timeRuns = true → s.get F.TBN_SYNC_ROLE = 2 → (let t := s.bump F.TBN_SYNC_MISSED 1
    (t.get F.TBN_SYNC_MISSED ≠ 4 → exec .syncMissed s = .next t) ∧ (t.get F.TBN_SYNC_MISSED = 4 → exec .syncMissed s = .next t.enterHoldover))) ∧
  (∀ (h : FabHdr) (rtt held : Nat) (s : State), s.timeRuns = true → s.get F.TBN_SYNC_ROLE = 1 → Fresh s h →
    (let a := arrived s h
     let l := if a.frame.followers.contains h.src then a.frame.followers else a.frame.followers ++ [h.src]
     let b := State.updFab { a with frame := { a.frame with followers := l } } (fun f => { f with rttNow := max f.rttNow rtt })
     exec (.delayReq h rtt held) s = .next (b.respond h.src h.epoch h.tag 0xA1 0 false (leBytes 8 (4 * b.now) ++ leBytes 8 (4 * b.now + held))))) ∧
  (∀ (src tag t1 t2 t3 t4 : Nat) (r : FabReq) (s : State), s.timeRuns = true → s.get F.TBN_SYNC_ROLE = 2 → Asked s tag 0x21 r →
    ∃ t, exec (.delayRsp ⟨src, tag⟩ 0 ⟨t1, t4⟩ ⟨t2, t3⟩) s = .next t ∧ t.mem = s.mem ∧
      (let off : Int := (((t2 : Int) - t1) - ((t4 : Int) - t3)) / 2
       t.get F.TBN_OFFSET_OFFSET = (off % 2 ^ 32).toNat ∧
       t.frame.good = (if -160 ≤ off ∧ off ≤ 160 then min 16 (s.frame.good + 1) else 0) ∧
       (s.frame.resync = false → t.get F.TBN_TIME_TIME = (((s.get F.TBN_TIME_TIME : Nat) : Int) + off / 4).toNat % 2 ^ 64) ∧
       ((off < -200 ∨ 200 < off) → t.get F.TBN_SYNC_LOCKED = 0) ∧
       (t.frame.good = 16 → s.frame.resync = false → t.get F.TBN_SYNC_LOCKED = 1 ∧ t.get F.TBN_SYNC_HOLDOVER = 0))) ∧
  (∀ (h : FabHdr) (course cause : Nat) (s : State),
    (let act (f : State → State) (s : State) : State := if s.courseLive && s.get F.TBN_COURSE_COURSE == course then f s else s
     let ctl (f : State → State) : State := s.serve h 0x82 (fun s => ⟨0, act f s, false, [], false⟩)
     exec (.notDone h course) s = .next (ctl (fun s => if s.role = 1 then { s with frame := { s.frame with
      notDone := if s.frame.notDone.contains h.src then s.frame.notDone else s.frame.notDone ++ [h.src] } } else s)) ∧
     exec (.extend h course) s = .next (ctl (fun s => s.takeDecision true)) ∧
     exec (.proceed h course) s = .next (ctl (fun s => s.takeDecision false)) ∧
     exec (.abortCourseMsg h course cause) s = .next (ctl (fun s => s.abortHere cause)) ∧
     exec (.addsDone h course) s = .next (ctl (fun s => if s.role = 1 then s.addsDoneFrom h.src else s)) ∧
     exec (.allAddsDone h course) s = .next (ctl (fun s => { s with frame := { s.frame with allAdds := true } }))))

/-- A sound course program loads into an IDLE module and arms the course for its start batten, or the next one; a wait
attaches to the course that it names; an abort of that course begins it, and one of another has nothing to do.
When all but the fold has completed the fold begins; when every unit has folded it ends; the digests are captured
once the collectives of the course are over; a closed course, whose audits have ended and whose last batten is
accounted, writes its record with the ledger on and ends without one with it off; an aborted one ends when it has
drained and been accounted. Where the manual leaves a point of it open, the statement holds the choice of the
model: assumption log 33 and 37. -/
def Obligations.CourseRuns : Prop :=
  (∀ (q : Fin 16384) (seq : Nat) (c : Cmd) (p : CourseProgram) (s : State), Accepted 0x0100 q seq c s → c.par 16 8 % 64 = 0 →
    c.par 16 8 < 2 ^ 43 → s.memRange (c.par 16 8) (c.par 24 4) = true → 0 < c.par 24 4 → s.cstate = 0 →
    (s.role ≠ 2 ∨ s.get F.TBN_SYNC_LOCKED = 1) →
    (let r := s.readMem .engine (c.par 16 8) (c.par 24 4)
     let now := r.st.get F.TBN_BATTEN_BATTEN
     let start := if p.startBatten = 0 then now + 1 else p.startBatten
     r.st.courseCheck p = none → (p.startBatten = 0 ∨ now < p.startBatten) →
     exec (.courseLoad q seq (some p)) s = .next ((r.st.armCourse p c.q start (listDigest r.bytes)).succeed c start))) ∧
  (∀ (q : Fin 16384) (seq : Nat) (c : Cmd) (s : State), Accepted 0x0101 q seq c s →
    (s.cstate ≠ 0 → s.get F.TBN_COURSE_COURSE = c.par 16 8 → exec (.courseWait q seq) s = .next (s.cmdWaits c [1])) ∧
    ((s.cstate = 0 ∨ s.get F.TBN_COURSE_COURSE ≠ c.par 16 8) → exec (.courseWait q seq) s = .next (s.cmdWaits c []))) ∧
  (∀ (q : Fin 16384) (seq : Nat) (c : Cmd) (s : State), Accepted 0x0003 q seq c s →
    (s.cstate = 2 → s.get F.TBN_COURSE_COURSE = c.par 16 8 →
      exec (.abortCourse q seq) s = .next ((s.cmdWaits c []).abortCourse 3)) ∧
    ((s.cstate = 0 ∨ s.get F.TBN_COURSE_COURSE ≠ c.par 16 8) → exec (.abortCourse q seq) s = .next (s.succeed c 0))) ∧
  (∀ s : State, s.foldReady = true → s.alone = true →
    exec .foldBegin s = .next ((List.range 24).foldl State.syncFolding (State.stageResidue (s.setCourse { s.course with fold := 1 })))) ∧
  (∀ s : State, s.course.fold = 1 → (List.range 24).all s.unitFolded = true →
    (let t := s.appendHistory.writeRanges.stagingFolded
     exec .foldEnd s = .next ((List.range 24).foldl State.syncFolding (t.setCourse { t.course with fold := 2 })))) ∧
  (∀ s : State, s.cstate = 3 → s.course.fold = 2 → s.course.captured = false → s.collsOver = true →
    s.openCommands s.course.plan = [] → (s.capture.compares = false ∨ s.capture.comparedRegions = []) → exec .digestCapture s = .next s.capture) ∧
  (∀ s : State, s.closed = true → (s.bit F.LDG_CTRL_EN = true → exec .ledgerRecordWrite s = .next s.endCourse) ∧
    (s.bit F.LDG_CTRL_EN = false → exec .courseEndPoint s = .next s.endCourse)) ∧
  (∀ s : State, s.cstate = 4 → s.drained = true → s.audited = true → s.course.accounted = true →
    (let a := if s.course.fold = 0 then s.dropEntries else s
     let b := a.set F.LDG_STATUS_COMPARING 0
     let c : State := { b with replay := { b.replay with narrowing := [], subs := [] } }
     let d := c.updFab (fun f => { f with colls := f.colls.filter (fun y => (c.cmd? y.q y.seq).isSome) })
     exec .abortComplete s = .next d.capture.endCourse))

/-- A captured course with compared regions sends its digests and starts the compare; a peer's level-0 digests are
taken and judged, its lower levels narrow what differs; a rank that stays silent is probed; a deviant asks the
reference ranks for what differs. A region scan that ends clean makes the region valid with the digest of its
bytes. Regions are enabled and scanned, and disabled; digests on demand of a unit's parts, a range and a table
complete. Where the manual leaves a point of it open, the statement holds the choice of the model: assumption log
38 and 49. -/
def Obligations.CompareRuns : Prop :=
  (∀ s : State, s.cstate = 3 → s.course.fold = 2 → s.course.captured = false → s.collsOver = true →
    s.openCommands s.course.plan = [] → s.capture.compares = true → s.capture.comparedRegions ≠ [] →
    (let a := s.capture.set F.LDG_STATUS_COMPARING 1
     let b := sendLevel0 9 a a.capturedPairs
     let m := a.capturedPairs.foldl (fun m e => Sparse.put none m (b.rank * 8192 + e.1) (some e.2)) b.replay.peerDigest
     let l := if b.replay.ranksIn.contains b.rank then b.replay.ranksIn else b.replay.ranksIn ++ [b.rank]
     exec .digestCapture s =
      .next (State.judgeIfReady { b with replay := { b.replay with peerDigest := m, ranksIn := l } }))) ∧
  (∀ (h : FabHdr) (course rank base : Nat) (es : List (Nat × Word)) (s : State),
    exec (.digest h course 0 rank base es) s = .next (s.serve h 0x82 (fun s => ⟨0, s.takeLevel0 rank es, false, [], false⟩)) ∧
    ∀ k : Nat, 0 < k → ∃ f : State → State, exec (.digest h course k rank base es) s =
      .next (s.serve h 0x82 (fun s => ⟨0, f s, false, [], false⟩)) ∧ ∀ s : State, s.replay.narrowing = [] →
        f s = { s with replay := { s.replay with subs := s.replay.subs ++ [(rank, k, base, es.map Prod.snd)] } }) ∧
  (∀ (rank : Nat) (s : State), s.course.captured = true → s.bit F.LDG_STATUS_COMPARING = true → rank < s.nrepl → rank ≠ s.rank →
    rank ∉ s.replay.ranksIn → exec (.digestWaitTimeout rank) s = .next (s.startProbing (s.peerDev rank))) ∧
  (∀ (a n : Nat) (d : Nat × Nat × Nat) (rest : List (Nat × Nat × Nat)) (s : State), s.replay.repairs = [(a, n)] →
    s.replay.deviants = d :: rest → d.1 = a / 2 ^ 30 →
    (let t : State := { s with replay := { s.replay with repairs := [],
                                                         priorLines := if n = 64 then 1 else 0
                                                         priorRegions := if n = 64 then 0 else 1 } }
     exec .repair s = .next ((fabPieces a n).foldl (fun u p =>
      u.ask 0 (u.peerDev d.2.1) 0x01 p.1 p.2 [] (.repair p.1 p.2) false) t))) ∧
  (∀ (k : Nat) (s : State), k ∈ s.replay.scans → (s.scanLines .engine (k * 2 ^ 30) (2 ^ 30)).1 = false →
    (let a := (s.scanLines .engine (k * 2 ^ 30) (2 ^ 30)).2
     let b : State := { a with replay := { a.replay with scans := a.replay.scans.erase k } }
     let c := b.set F.LDG_STATUS_BUILDING (if b.replay.scans = [] then 0 else 1)
     exec (.digestScanEnd k) s = .next ((c.setRegBit .ldgDinv k false).wr .ldgDigest 0 k (c.digestOf (k * 2 ^ 30) (2 ^ 30))).settleEnables)) ∧
  (∀ (q : Fin 16384) (seq : Nat) (c : Cmd) (l : List Nat) (s : State), regionRange c = some l →
    (Accepted 0x0500 q seq c s → (∀ r ∈ l, s.memRange (r * 2 ^ 30) (2 ^ 30) = true) →
      exec (.digestEnable q seq) s =
        .next (((l.foldl (fun s r => s.setRegBit .ldgDen r true) s).startScans l).cmdWaits c [])) ∧
    (Accepted 0x0501 q seq c s →
      (let a := l.foldl (fun s r => ((s.setRegBit .ldgDen r false).setRegBit .ldgDinv r false).wr .ldgDigest 0 r 0#64) s
       let b : State := { a with replay := { a.replay with scans := a.replay.scans.filter (fun r => !l.contains r) } }
       exec (.digestDisable q seq) s =
        .next ((b.set F.LDG_STATUS_BUILDING (if b.replay.scans = [] then 0 else 1)).succeed c 0).settleEnables))) ∧
  (∀ (q : Fin 16384) (seq : Nat) (c : Cmd) (s : State), Accepted 0x0502 q seq c s → c.par 16 8 < 2 ^ 43 → c.par 24 1 < 3 →
    c.par 16 8 % unitBytes (c.par 24 1) = 0 → c.par 16 8 % 64 = 0 → c.par 32 8 % 64 = 0 → c.par 32 8 < 2 ^ 43 →
    s.memRange (c.par 16 8) (unitBytes (c.par 24 1)) = true → s.memRange (c.par 32 8) (8 * unitParts (c.par 24 1)) = true →
    (let t := (s.scanLines .engine (c.par 16 8) (unitBytes (c.par 24 1))).2
     let l := t.subDigests (c.par 24 1) (c.par 16 8)
     exec (.ldgSubdigest q seq) s = .next (t.putOutput c (c.par 32 8) (l.flatMap (fun w => leBytes 8 w.toNat))
      (fun s => s.succeed c (l.foldl (· + ·) 0#64).toNat)))) ∧
  (∀ (q : Fin 16384) (seq : Nat) (c : Cmd) (s : State), Accepted 0x0503 q seq c s → c.par 16 8 % 64 = 0 → c.par 16 8 < 2 ^ 43 →
    s.memRange (c.par 16 8) (c.par 24 8) = true →
    (let t := (s.scanLines .engine (c.par 16 8) (c.par 24 8)).2
     exec (.ldgRangeDigest q seq) s = .next (t.succeed c (t.rangeDigest (c.par 16 8) (c.par 24 8)).toNat))) ∧
  (∀ (q : Fin 16384) (seq : Nat) (c : Cmd) (v : List Byte × List Byte) (d : Nat) (s : State), Accepted 0x0504 q seq c s →
    s.tables.dir = some d → s.tableNow (c.par 16 2) = some v → c.par 24 8 % 64 = 0 → c.par 24 8 < 2 ^ 43 →
    s.memRange (c.par 24 8) 48 = true →
    (let t := tdesc v.1
     let rows := ((List.range t.rows).map (fun r => (r, rowPlace t v.2 r))).filter (fun p => s.here p.2.entry.row0)
     let part (k : Nat) (p : Nat × RowPlace) (s : State) : Word × State := match s.rowParts t p.2 k with
       | none => (0#64, s)
       | some r => ((s.engineRead (ownerDie r.1) r.1 r.2).2.rowHash (c.par 16 2) p.1 r.1 r.2, (s.engineRead (ownerDie r.1) r.1 r.2).2)
     let sum (k : Nat) (s : State) : Word × State :=
      rows.foldl (fun y p => (y.1 + (part k p y.2).1, (part k p y.2).2)) (0#64, s)
     let sums := (List.range 6).foldl (fun acc k => (acc.1 ++ [(sum k acc.2).1], (sum k acc.2).2)) (([] : List Word), s)
     exec (.ldgTableDigest q seq) s = .next (sums.2.putOutput c (c.par 24 8) (sums.1.flatMap (fun w => leBytes 8 w.toNat))
      (fun s => s.succeed c 0))))

/-- A unit whose program's next word is the instruction applies the effect of Table 9.5 to its row and goes on at the
next word: loads of gradient, weight, slot, parameter, constant and column sum, the element-wise operations, FSEL,
row and column reductions, and the stores of a slot and of the weight. END closes the sequence of the row. Where
the manual leaves a point of it open, the statement holds the choice of the model: assumption log 45. -/
def Obligations.UnitInstructionsRun : Prop :=
  ∀ (u : Fin 24) (r : UpdRun) (s : State),
    (UnitRuns s u r 0x00 → exec (.updEnd u) s = .next (s.closeRun u r)) ∧
    (UnitRuns s u r 0x01 → exec (.ldg u) s = .next (unitDone s u r effLdg)) ∧
    (UnitRuns s u r 0x02 → exec (.ldw u) s = .next (unitDone s u r effLdw)) ∧
    (UnitRuns s u r 0x03 → exec (.lds u) s = .next (unitDone s u r effLds)) ∧
    (UnitRuns s u r 0x04 → exec (.ldp u) s = .next (unitDone s u r effLdp)) ∧
    (UnitRuns s u r 0x05 → exec (.ldk u) s = .next (unitDone s u r effLdk)) ∧
    (UnitRuns s u r 0x06 → exec (.ldcol u) s = .next (unitDone s u r effLdcol)) ∧
    (UnitRuns s u r 0x08 → exec (.fadd u) s = .next (unitDone s u r (effArith .add))) ∧
    (UnitRuns s u r 0x09 → exec (.fsub u) s = .next (unitDone s u r (effArith .sub))) ∧
    (UnitRuns s u r 0x0A → exec (.fmul u) s = .next (unitDone s u r (effArith .mul))) ∧
    (UnitRuns s u r 0x0B → exec (.fdiv u) s = .next (unitDone s u r (effArith .div))) ∧
    (UnitRuns s u r 0x0C → exec (.fma u) s = .next (unitDone s u r (effArith .fma))) ∧
    (UnitRuns s u r 0x0D → exec (.fmin u) s = .next (unitDone s u r (effArith .min))) ∧
    (UnitRuns s u r 0x0E → exec (.fmax u) s = .next (unitDone s u r (effArith .max))) ∧
    (UnitRuns s u r 0x0F → exec (.fabs u) s = .next (unitDone s u r (effArith .abs))) ∧
    (UnitRuns s u r 0x10 → exec (.fneg u) s = .next (unitDone s u r (effArith .neg))) ∧
    (UnitRuns s u r 0x11 → exec (.fsqrt u) s = .next (unitDone s u r (effArith .sqrt))) ∧
    (UnitRuns s u r 0x12 → exec (.frsqrt u) s = .next (unitDone s u r (effArith .rsqrt))) ∧
    (UnitRuns s u r 0x13 → exec (.fsel u) s = .next (unitDone s u r effFsel)) ∧
    (UnitRuns s u r 0x14 → exec (.rsum u) s = .next (unitDone s u r effRsum)) ∧
    (UnitRuns s u r 0x15 → exec (.ramax u) s = .next (unitDone s u r effRamax)) ∧
    (UnitRuns s u r 0x16 → exec (.cacc u) s = .next (unitDone s u r effCacc)) ∧
    (UnitRuns s u r 0x17 → exec (.sts u) s = .next (unitDone s u r effSts)) ∧
    (UnitRuns s u r 0x18 → exec (.stw u) s = .next (unitDone s u r effStw))

/-- For rows of at most 16,384 elements: the element-wise operations, FSEL, RAMAX, LDK and LDCOL leave every cluster
and every other unit unchanged, and of their own row all but the destination register; FSEL, RAMAX, LDK and LDCOL,
which count no events, leave memory, registers, tables and course unchanged too. -/
def Obligations.UnitFrame : Prop :=
  ∀ (u v : Fin 24) (r : UpdRun) (s : State), s.runOf u = some r → u ≠ v → r.n ≤ 16384 →
    (∀ f ∈ [effFsel, effRamax, effLdk, effLdcol], let t := unitDone s u r f
      t.mem = s.mem ∧ t.upset = s.upset ∧ t.regs = s.regs ∧ t.tables = s.tables ∧ t.course = s.course) ∧
    (∀ f : UEffect, f ∈ [effFsel, effRamax, effLdk, effLdcol] ∨ (∃ op, f = effArith op) → let t := unitDone s u r f
      t.clusters = s.clusters ∧ t.runOf v = s.runOf v ∧
      ∃ r', t.runOf u = some r' ∧ r'.pc = r.pc + 1 ∧ r'.binding = r.binding ∧ r'.accs = r.accs ∧ r'.row = r.row ∧
        r'.sums = r.sums ∧ r'.cols = r.cols ∧ ∀ k, k ≠ (s.nextWord r).d → r'.reg k = r.reg k)

/-- The oldest add that waits for a unit is applied and answered; in the fold the least touched row of an idle unit is
opened unless its count is too high, and a dense item is opened in its first phase; UPD_PROGRAM loads a sound
image into its slot and marks it valid; UPD_BIND writes a sound binding while no delta entry is in use. Where the
manual leaves a point of it open, the statement holds the choice of the model: assumption log 45. -/
def Obligations.UpdateRuns : Prop :=
  (∀ (u : Fin 24) (a : RowAdd) (s : State), s.upd.adds.find? (fun a => a.unit == u.val) = some a →
    (let t : State := { s with upd := { s.upd with adds := s.upd.adds.erase a } }
     let r := t.applyAdd u a.table a.row a.accs a.count (some a.q)
     (r.1 = .ok → exec (.localRowAdd u) s = .next (r.2.addAnswered a.die a.desc)) ∧
     (r.1 = .refused → exec (.localRowAdd u) s = .next (r.2.addRefused a.die a.desc true)) ∧
     (r.1 = .full → exec (.localRowAdd u) s = .next (r.2.addRefused a.die a.desc false)))) ∧
  (∀ (u : Fin 24) (k : Nat × Nat) (rest : List (Nat × Nat)) (s : State), s.course.fold = 1 → s.runOf u = none → s.touched u = k :: rest →
    (let n := match s.tableNow k.1 with | some v => (tdesc v.1).elems | none => 0
     let sums := s.keySums u k n
     let h := sums.2.2.headroom u k.1 k.2 sums.2.1
     (h.1 = false → ∀ b, exec (.foldRow u b) s = .next ((h.2.freeKey u k).syncFolding u)) ∧
     (∀ r, h.1 = true → h.2.openRow k.1 k.2 sums.1 true (some s.course.queue) = some r →
      exec (.foldRow u false) s = .next (h.2.setRun u (some r)) ∧
      exec (.foldRow u true) s = .next (runRow 65 (h.2.setRun u (some r)) u)))) ∧
  (∀ (u : Fin 24) (i b : Nat) (x : Issuer) (d : DenseItem) (p : CourseProgram) (rest : List Nat) (s : State), s.course.fold = 1 →
    s.runOf u = none → s.denseLeft u = i :: rest → s.course.prog = some p → p.items[i]? = some ⟨x, b, .denseFold d⟩ →
    (let phase := if s.progStat (bindProg d.binding) then 0 else 2
     let t := s.setRun u (some (s.openDense i d phase 0 none))
     exec (.denseFoldItem u false) s = .next t ∧ exec (.denseFoldItem u true) s = .next (runRows (2 * d.rows + 2) t u))) ∧
  (∀ (q : Fin 16384) (seq : Nat) (c : Cmd) (s : State), Accepted 0x0307 q seq c s → c.par 16 1 < 64 → c.par 24 8 % 64 = 0 →
    c.par 24 8 < 2 ^ 43 → s.memRange (c.par 24 8) (c.par 32 2) = true →
    (let r := s.readMem .engine (c.par 24 8) (c.par 32 2)
     (∀ k, checkProgram r.bytes = some k → exec (.updProgram q seq) s = .next (r.st.fail c stProgramInvalid k)) ∧
     (checkProgram r.bytes = none →
      (let im := tablePut r.st.upd.prog (c.par 16 1 * 512) (padTo 512 r.bytes)
       let t : State := { r.st with upd := { r.st.upd with prog := im } }
       exec (.updProgram q seq) s = .next ((t.set F.UPD_PROG_VALID_VALID (t.get F.UPD_PROG_VALID_VALID ||| 2 ^ c.par 16 1)).succeed c 0))))) ∧
  (∀ (q : Fin 16384) (seq : Nat) (c : Cmd) (s : State), Accepted 0x0308 q seq c s → c.par 24 8 % 64 = 0 → c.par 24 8 < 2 ^ 43 →
    s.deltaFree = true → s.memRange (c.par 24 8) 64 = true → s.memRange (s.bindAddr (c.par 16 2)) 64 = true →
    (let r := s.readMem .engine (c.par 24 8) 64
     let a := r.st.bindAddr (c.par 16 2)
     r.st.bindingOk r.bytes false = true → r.st.bindingFits (c.par 16 2) r.bytes = true → r.st.writeStop .update false a 64 = none →
     exec (.updBind q seq) s = .next ((r.st.writeMem a r.bytes).succeed c 0)))

/-- The directory is zeroed at its new place and keeps the descriptors that it held; a sound table is defined, with
fresh entries and VERSION 0, and deleted by clearing VALID; a legal move starts and copies its lines, closes its
forwarding window when nothing that saw the old shard is left; a move item starts in the same way; flips and
batches wait for the next tick, and rows of a batch are written in order, none while a lookup has read a part of
it; the eaves take a sound definition. Where the manual leaves a point of it open, the statement holds the choice
of the model: assumption log 34, 39 and 40. -/
def Obligations.TablesRun : Prop :=
  (∀ (q : Fin 16384) (seq : Nat) (c : Cmd) (s : State), Accepted 0x0300 q seq c s →
    (let a := c.par 16 8
     a % 64 = 0 → a < 0x200_0000_0000 → s.memRange a 0x400000 = true →
     hitsAny (a, 0x400000) (s.descs.map TDesc.listRange ++ s.descs.map TDesc.loadRange ++ s.heldRanges) = false →
     (let old := s.definedTables.map (fun t => (t, s.descOf t))
      let t := old.foldl (fun s x => s.writeMem (a + 64 * x.1) x.2) (s.zeroFill a 0x400000)
      exec (.tableDirectory q seq) s = .next (({ t with tables := { t.tables with dir := some a } } : State).succeed c 0)))) ∧
  (∀ (q : Fin 16384) (seq : Nat) (c : Cmd) (dir : Nat) (s : State), Accepted 0x0301 q seq c s → s.tables.dir = some dir →
    (let a := c.par 16 8
     let la := c.par 24 8
     let r := s.readMem .engine a 64
     let t := tdesc r.bytes
     let r2 := r.st.readMem .engine la (64 * t.shards)
     let u := r2.st
     let mine := (List.range t.shards).flatMap (fun k => u.rowRanges t r2.bytes k)
     let fixed := u.listRanges ++ u.heldRanges
     a % 64 = 0 → a < 2 ^ 43 → la % 64 = 0 → la < 2 ^ 43 → s.memRange a 64 = true → descOk r.bytes = true →
     (tdesc (r.st.descOf t.id)).valid = false → r.st.memRange la (64 * t.shards) = true → r.st.memRange t.list (64 * t.shards) = true →
     listOk t r2.bytes = true → u.shardsPlaced t r2.bytes = true → (∀ x ∈ mine, hitsAny x fixed = false ∧ u.eavesFits t.slot x.1 = true) →
     selfOverlap mine = false → hitsAny t.listRange (t.loadRange :: (fixed ++ mine)) = false → hitsAny t.loadRange (fixed ++ mine) = false →
     (let d := patch (patch r.bytes 2 [BitVec.ofNat 8 (fieldLe r.bytes 2 1 % 128 + 128)]) 16 (List.replicate 4 0#8)
      exec (.tableDefine q seq) s = .next (((u.writeMem t.list (freshList t.shards r2.bytes)).writeMem (dir + 64 * t.id) d).succeed c
        0)))) ∧
  (∀ (q : Fin 16384) (seq : Nat) (c : Cmd) (dir : Nat) (s : State), Accepted 0x0302 q seq c s → s.tables.dir = some dir →
    s.deltaFree = true →
    (let d := s.descOf (c.par 16 2)
     ((tdesc d).valid = true → exec (.tableDelete q seq) s = .next ((s.writeMem (dir + 64 * c.par 16 2 + 2) (leBytes 1 (fieldLe d 2 1 %
      128))).succeed c 1)) ∧
     ((tdesc d).valid = false → exec (.tableDelete q seq) s = .next (s.succeed c 0)))) ∧
  (∀ (q : Fin 16384) (seq : Nat) (c : Cmd) (s : State), Accepted 0x0303 q seq c s →
    s.moveCheck (c.par 16 2) (c.par 18 2) (c.par 24 8) false = none → exec (.shardMove q seq) s = .next ((s.moveStart (c.par 16 2)
      (c.par 18 2) (c.par 24 8) (some (c.q, c.seq)) none s.course.plan).cmdWaits c [])) ∧
  (∀ (i b t k dev dest : Nat) (x : Issuer) (s : State), s.item? i = some ⟨x, b, .move t k dev dest⟩ → i ∉ s.course.issued →
    s.frame.slot = 0 →
    (let fa := dev * 2 ^ 43 + dest % 2 ^ 43
     (s.itemIssued i).moveCheck t k fa true = none →
     exec (.moveItem i) s = .next ((s.itemIssued i).moveStart t k fa none (some i) b))) ∧
  (∀ (t k : Nat) (m : MoveRun) (s : State), s.move? t k = some m → m.copied = false → m.ranges ≠ [] → m.remote = false →
    (let u := m.ranges.foldl State.copyRange s
     (u.move? t k).isSome = true → exec (.moveCopyEnd t k) s = .next (u.updMove t k (fun m => { m with copied := true, told := m.ranges.isEmpty })))) ∧
  (∀ (t k : Nat) (m : MoveRun) (s : State), s.move? t k = some m → m.fwd = true → s.opsUpTo m.plan = false → m.item = none →
    s.tables.outbound.any (fun w => w.1 == t && w.2.1 == k) = false → s.asking (.move t k) = false →
    (let u : State := { s with tables := { s.tables with moves := s.tables.moves.erase m } }
     (u.tableNow t).isSome = true → exec (.moveForwardClose t k) s = .next (((u.writeMem (u.entryAddr t k + 40) (leBytes 8
      0)).setShardState t k 0).withWaiting m.cmd (fun c s => s.succeed c m.effect)))) ∧
  (∀ (q : Fin 16384) (seq : Nat) (c : Cmd) (v : List Byte × List Byte) (d : Nat) (s : State), Accepted 0x0309 q seq c s →
    s.tables.dir = some d → s.tableNow (c.par 16 2) = some v → (tdesc v.1).replace = 1 →
    exec (.tableFlip q seq) s = .next (({ s with tables := { s.tables with
      flips := s.tables.flips ++ [(c.par 16 2, some (c.q, c.seq))] } } : State).cmdWaits c [])) ∧
  (∀ (q : Fin 16384) (seq : Nat) (c : Cmd) (v : List Byte × List Byte) (d : Nat) (s : State), Accepted 0x030A q seq c s →
    s.tables.dir = some d → s.tableNow (c.par 16 2) = some v → s.batchCheck (c.par 16 2) (c.par 24 8) (c.par 32 4) = none →
    c.par 40 8 % 64 = 0 → c.par 40 8 < 2 ^ 43 → s.memRange (c.par 40 8) (c.par 32 4 * (tdesc v.1).slot) = true →
    exec (.streamBatch q seq) s = .next (({ s with tables := { s.tables with batches := s.tables.batches ++
      [⟨c.par 16 2, c.par 24 8, c.par 32 4, c.par 40 8, 0, some (c.q, c.seq), none⟩] } } : State).cmdWaits c [])) ∧
  (∀ (b : Batch) (s : State), s.tables.batches.find? (fun b => b.live.isSome) = some b →
    (s.rowHalfRead b = true → exec .streamRowWrite s = .next s) ∧
    (let t := s.writeStreamRow b
     s.rowHalfRead b = false → (b.written + 1 < b.count → exec .streamRowWrite s = .next { t with tables := { t.tables with
      batches := t.tables.batches.map (fun x => if x = b then { b with written := b.written + 1 } else x) } }) ∧
     (b.count ≤ b.written + 1 → exec .streamRowWrite s = .next (({ t with tables := { t.tables with
      batches := t.tables.batches.erase b } } : State).withWaiting b.cmd (fun c s => s.succeed c (b.live.getD 0)))))) ∧
  (∀ (q : Fin 16384) (seq : Nat) (c : Cmd) (s : State), Accepted 0x0304 q seq c s → c.par 16 8 % 64 = 0 → c.par 16 8 < 2 ^ 43 →
    s.memRange (c.par 16 8) 192 = true →
    (let r := s.readMem .engine (c.par 16 8) 192
     let f (d k : Nat) : Nat := fieldLe r.bytes (24 * d + 8 * k) 8
     (∀ d, d < 8 → r.st.eavesOk d (f d 0) (f d 1) (f d 2) = true) →
     ∃ t : State, exec (.eavesDefine q seq) s = .next (t.succeed c 0) ∧ t.mem = r.st.mem ∧ ∀ d, d < 8 →
      t.eavesRange d = (f d 0, f d 1) ∧ t.eavesFld d 2 = f d 2))

/-- An accepted YLM_RUN is received by the engine of its queue's die; an outstanding line that returns, those of one
die in the order of their requests, gives its bytes to its unit, and a scatter's row is sent on; a descriptor that
has everything completes; a prefetch whose course is not the next, or that is the second for its course, or with
no descriptor or more than 1,024, fails with its status; the rows of a plan take the slots of the home engine, are
read, and are copied into the eaves. Where the manual leaves a point of it open, the statement holds the choice of
the model: assumption log 41, 42 and 44. -/
def Obligations.YealmRuns : Prop :=
  (∀ (q : Fin 16384) (seq : Nat) (c : Cmd) (s : State), Accepted 0x0305 q seq c s → c.par 16 8 % 64 = 0 → c.par 16 8 < 2 ^ 43 →
    s.memRange (c.par 16 8) 128 = true →
    (let own := s.courseLive && (c.course != 0 || s.listed q)
     exec (.ylmRun q seq) s = .next ((s.cmdWaits c []).ylmReceive (queueDie q) q (c.par 16 8) (some (q.val, seq)) none own 0
      (if s.running then some s.course.plan else none) (s.queueWadding q)))) ∧
  (∀ (d : Fin 8) (i id u k : Nat) (y : YDesc) (x : YUnit) (s : State),
    (let t (w : YWork) : State := s.unsend d (id, w)
     ((s.ylmHeads d)[i]? = some (id, .unit u) → (t (.unit u)).ydesc? d id = some y → y.halted = false →
      exec (.lineResponse d i) s = .next (((t (.unit u)).sendRowAdd d id u).pump d)) ∧
     ((s.ylmHeads d)[i]? = some (id, .line u k) → (t (.line u k)).ydesc? d id = some y → y.halted = false → y.units[u]? = some x →
      (let lo := if k = 0 then x.addr else (x.addr / 64 + k) * 64
       let hi := min (x.addr + x.len) ((x.addr / 64 + k + 1) * 64)
       let r := ((t (.line u k)).actMem y.q lo (hi - lo)).readMem .engine lo (hi - lo)
       exec (.lineResponse d i) s = .next ((r.st.unitBytes d id u k r.bytes).pump d))))) ∧
  (∀ (d : Fin 8) (q : Fin 16384) (y : YDesc) (s : State), (s.ydescs d).find? (fun y => y.q == q.val) = some y → y.over = true →
    exec (.descriptorComplete d q) s = .next (((s.freeOutputs d y).endDesc d y y.err).ylmGo d)) ∧
  (∀ (q : Fin 16384) (seq : Nat) (c : Cmd) (s : State), Accepted 0x0306 q seq c s → c.par 24 8 % 64 = 0 → c.par 24 8 < 2 ^ 43 →
    ((c.par 32 2 = 0 ∨ 1024 < c.par 32 2) → exec (.ylmPrefetch q seq) s = .next (s.failPrefetch c stBadParam 32)) ∧
    (1 ≤ c.par 32 2 → c.par 32 2 ≤ 1024 → c.par 16 8 ≠ s.get F.TBN_COURSE_COURSE + 1 →
      exec (.ylmPrefetch q seq) s = .next (s.failPrefetch c stDescInvalid 0)) ∧
    (1 ≤ c.par 32 2 → c.par 32 2 ≤ 1024 → s.ylm.targets.contains (c.par 16 8) = true →
      exec (.ylmPrefetch q seq) s = .next (s.failPrefetch c stDescInvalid 0)) ∧
    (1 ≤ c.par 32 2 → c.par 32 2 ≤ 1024 → c.par 16 8 = s.get F.TBN_COURSE_COURSE + 1 → s.ylm.targets.contains (c.par 16 8) = false →
      s.memRange (c.par 24 8) (8 * c.par 32 2) = true →
      (let die := queueDie q
       let r := s.yread die (c.par 24 8) (8 * c.par 32 2)
       let addrs := leList 8 (c.par 32 2) r.1
       let ds := addrs.foldl (fun (x : List (List Byte) × State) a => (x.1 ++ [(x.2.yread die a 128).1], (x.2.yread die a 128).2)) ([], r.2)
       (∀ a ∈ addrs, a % 64 = 0 ∧ r.2.memRange a 128 = true) → ds.1.findSome? (ds.2.planCheck die) = none →
       (List.range 8).all ds.2.stageOk = true → ∀ plans, (plansOf die ds.1 ds.2).1 = .inr plans →
       (let p0 : Prefetch := ⟨q, seq, c.par 16 8, plans, [], 0⟩
        let p : Prefetch := { p0 with homes := (List.range 8).filter (fun d => (p0.rowsAt d) != []) }
        let t := (plansOf die ds.1 ds.2).2.cmdWaits c []
        exec (.ylmPrefetch q seq) s = .next (State.settlePrefetch { t with ylm := { t.ylm with
          prefetch := t.ylm.prefetch ++ [p], targets := t.ylm.targets ++ [c.par 16 8] } }))))) ∧
  (∀ (d : Fin 8) (p : Prefetch) (s : State), s.ylm.prefetch.find? (fun p => p.homes.contains d.val) = some p →
    ∃ t, exec (.stageRows d) s = .next (State.settlePrefetch t) ∧ t.mem = s.mem ∧
      (let taken : Prefetch := { p with homes := p.homes.erase d.val, staged := p.staged + min (p.rowsAt d).length (s.eavesHalf d) }
       t.ylm.prefetch = s.ylm.prefetch.map (fun x => if x = p then taken else x))) ∧
  (∀ (d : Fin 8) (r : StageRow) (v : List Byte × List Byte) (s : State),
    (s.stageRows d).find? (fun r => !r.issued && !r.trained) = some r → s.tableNow r.table = some v →
    (let t := tdesc v.1
     let p := rowPlace t v.2 r.row
     let a := faLocal (p.row t)
     let k := ceilDiv (a % 64 + t.payload) 64
     r.row < t.rows → s.here (p.row t) = true → s.memRange a t.payload = true → s.get F.YLM_OUTSTANDING_CURRENT d + k ≤ ylmLimit →
     (let r' : StageRow := { r with
        shard := p.shard, addr := a, len := t.payload, base := p.entry.rowBase, bank := p.entry.bank, ver := p.entry.version
        issued := true, lines := k }
      let u := ((s.engineWrite d (s.stageAddr d r.slot) (r'.record 1)).bump F.YLM_FETCHES_LINES k d).shardLoad r.table p.shard 0 1
      exec (.stagingReadIssue d) s = .next (u.setStageRows d ((u.stageRows d).map (fun x => if x = r then r' else x)))))) ∧
  (∀ (d : Fin 8) (r : StageRow) (s : State), (s.stageRows d).find? (·.issued) = some r →
    (let b := s.engineRead d r.addr r.len
     let t := b.2.engineWrite d (b.2.eavesAddr d r.slot) b.1
     let u := (t.engineWrite d (t.stageAddr d r.slot) (r.record 2)).bump F.YLM_STAGE_CNT_STAGED 1 d
     exec (.stagingCopyDone d) s = .next ((List.range 8).foldl (fun s d => s.pump d) (u.setStageRows d ((u.stageRows d).erase r)))))

/-- A flit in order is taken, with the credits that it returns, and one whose CRC fails asks for its replay; the flits
asked for leave again, the eighth time the request takes the link down, as a lost FEC lock does; training ends up,
miswired or failed, with what the peer reports; a PROBE and an IDENT are answered by their port; a PROBE_RSP gives
the round trip of its level; a timed-out request is sent again as a reissue, on another port of its level when one
is up, and after the last attempt fails, its target probed; a peer is probed, and lost after LOSS_COUNT rounds;
FABRIC_IDENT asks the peer of its port, and the answer completes it. Where the manual leaves a point of it open,
the statement holds the choice of the model: assumption log 48. -/
def Obligations.LinksRun : Prop :=
  (∀ (p : Fin 32) (fl : Flit) (fec : Nat) (s : State), s.portUp p = true →
    (let t := s.bump F.JFL_PERR_FEC_UNCORR fec p
     let want := Sparse.get 0 t.fab.expect p
     let u := t.bump F.JFL_PRX_FLITS 1 p
     (fl.seq = want → exec (.flitReceive p fl fec true) s =
      .next (u.updFab (fun f => { f with
        expect := Sparse.put 0 f.expect p (want + 1)
        owed := Sparse.put 0 f.owed (4 * p + fl.vc) (Sparse.get 0 f.owed (4 * p + fl.vc) + 1)
        credit := (List.range 4).foldl (fun m v =>
          Sparse.put 0 m (4 * p + v) (Sparse.get 0 m (4 * p + v) + fl.credits.getD v 0)) f.credit }))) ∧
     (fl.seq ≠ want → exec (.flitReceive p fl fec true) s = .next u) ∧
     exec (.flitReceive p fl fec false) s = .next (t.send (.link p 0 want)))) ∧
  (∀ (p : Fin 32) (seq : Nat) (s : State), s.portUp p = true →
    (let t := s.bump F.JFL_PERR_REPLAYS 1 p
     let old := Sparse.get (0, 0) t.fab.replay p
     let again (n : Nat) : State := ((Sparse.get ([], 0) s.fab.tx p).1.filter (fun f => decide (seq ≤ f.seq))).foldl
      (fun s f => s.send (.flit p f)) (t.updFab (fun f => { f with replay := Sparse.put (0, 0) f.replay p (seq, n) }))
     ((old.1 ≠ seq ∨ old.2 = 0) → exec (.replayRequest p seq) s = .next (again 1)) ∧
     (old.1 = seq → 1 ≤ old.2 → old.2 < 7 → exec (.replayRequest p seq) s = .next (again (old.2 + 1))) ∧
     (old.1 = seq → 7 ≤ old.2 → exec (.replayRequest p seq) s = .next (t.linkDown p)))) ∧
  (∀ (p : Fin 32) (s : State), s.portUp p = true → exec (.fecLockLoss p) s = .next (s.linkDown p)) ∧
  (∀ (p peer : Fin 32) (strap slot : Fin 4) (maxver dev : Nat) (valid : Bool) (s : State), s.get F.JFL_PSTATUS_STATE p = 1 →
    (let t := s.bump F.JFL_PSTATUS_TRAININGS 1 p
     let u := t.setPeer p dev valid peer slot
     exec (.linkTrainingEnd p false strap maxver dev valid peer slot) s = .next (t.set F.JFL_PSTATUS_STATE 3 p) ∧
     (miswired p strap peer slot = true → exec (.linkTrainingEnd p true strap maxver dev valid peer slot) s =
      .next (((u.set F.JFL_PSTATUS_STATE 4 p).set F.JFL_STATUS_MISWIRED 1).raise (p / 4) 0x0601
        (plAt 16 p + plAt 18 (u.get F.JFL_PSTATUS_PEER_DEVNUM p)))) ∧
     (miswired p strap peer slot = false → exec (.linkTrainingEnd p true strap maxver dev valid peer slot) s =
      .next (((u.set F.JFL_PSTATUS_VERSION (min (u.get F.JFL_PCTRL_MAXVER p) maxver) p).set F.JFL_PSTATUS_STATE 2 p).syncLevels.rehop)))) ∧
  (∀ (p : Fin 32) (src tag : Nat) (strap : Fin 4) (s : State), s.portUp p = true →
    exec (.probe p src tag) s = .next ((s.heard src).sendAns p 0xB0 0 false src tag []) ∧
    exec (.ident p src tag strap) s = .next ((s.heard src).sendAns p 0xB1 0 false src tag
      (leBytes 8 (s.rd .cfgIdent 0 0).toNat ++ leBytes 8 (s.rd .cfgSerial 0 0).toNat ++ leBytes 8 (s.rd .cfgDevnum 0 0).toNat ++
       leBytes 1 strap ++ leBytes 1 p ++ leBytes 1 (s.get F.JFL_PSTATUS_VERSION p)))) ∧
  (∀ (p : Fin 32) (src rtt : Nat) (s : State), s.portUp p = true →
    (let t := (s.heard src).updFab (fun f => { f with rtt := Sparse.put 0 f.rtt p rtt })
     let vals := (((levelPorts (portLevel p)).filter t.portUp).map (Sparse.get 0 t.fab.rtt)).filter (· ≠ 0)
     exec (.probeRsp p src rtt) s = .next (t.set F.JFL_LEVEL_RTT_NS (min (median vals) (2 ^ 24 - 1)) 0 (portLevel p)))) ∧
  (∀ s : State, s.powered = true → s.get F.TBN_BATTEN_BATTEN % 1000 = 0 → exec .levelProbe s = .next
    (((List.range 32).filter s.portUp).foldl (fun s p => s.probePort (s.get F.JFL_PSTATUS_PEER_DEVNUM p) p) s)) ∧
  (∀ (d : Fin 2048) (s : State), s.courseWith d = true → exec (.probeWaitExpiry d) s = .next (s.startProbing d)) ∧
  (∀ (d : Fin 2048) (p : Probing) (s : State), s.fab.probing.find? (fun p => p.dev == d.val) = some p →
    (s.get F.JFL_CFG_LOSS_COUNT ≤ p.rounds → exec (.probeRound d) s = .next (s.peerLost d)) ∧
    (p.rounds < s.get F.JFL_CFG_LOSS_COUNT →
      (let t := s.updFab (fun f => { f with probing := f.probing.map (fun x =>
        if x.dev = d.val then { x with rounds := x.rounds + 1 } else x) })
       exec (.probeRound d) s = .next ((t.portsTo d).foldl (fun s k => s.probePort d k) t)))) ∧
  (∀ (tag : Nat) (r : FabReq) (s : State), s.fab.reqs.find? (fun r => r.tag == tag && !r.held) = some r →
    (s.get F.JFL_CFG_RETRIES ≤ r.tries → exec (.reqTimeoutExpiry tag) s = .next ((((((s.bump F.JFL_CNT_TIMEOUTS 1).set
      F.JFL_STATUS_TIMEOUT 1).ledBump ⟨288, 4⟩ 1).raise 0 0x0602 (plAt 16 r.dev + plAt 18 r.op)).startProbing r.dev).reqFailed r
        fsTimeout)) ∧
    (∀ p, r.tries < s.get F.JFL_CFG_RETRIES →
      (r.op = 0x31 ∧ p = r.port) ∨ (r.op ≠ 0x31 ∧ s.portsTo r.dev = [p] ∧ r.port = p) ∨
        (r.op ≠ 0x31 ∧ isSync r.op = false ∧ r.port ≠ p ∧ s.portsTo r.dev = [r.port, p] ∧ s.link1Stops p r.op = false) →
      (let again : FabReq := { r with tries := r.tries + 1, port := p, hdr := { r.hdr with reissue := true } }
       let t := ((s.bump F.JFL_CNT_REISSUES 1).ledBump ⟨292, 4⟩ 1).updFab (fun f => { f with reqs := f.reqs.map (fun x =>
        if x.tag = tag then again else x) })
       exec (.reqTimeoutExpiry tag) s = .next (t.emit again)))) ∧
  (∀ (q : Fin 16384) (seq : Nat) (c : Cmd) (s : State), Accepted 0x0402 q seq c s → c.par 16 1 < 32 →
    (s.portUp (c.par 16 1) = false → exec (.fabricIdent q seq) s = .next (s.succeed c (s.rd .jflPstatus (c.par 16 1) 0).toNat)) ∧
    (s.portUp (c.par 16 1) = true →
      (let t := s.cmdWaits c []
       let p := c.par 16 1
       let dev := t.get F.JFL_PSTATUS_PEER_DEVNUM p
       let r : FabReq := ⟨t.fab.tag, dev, 0x31, p, 0, [], .ident q seq, q, p, p, [p], 0, false,
        t.hdr dev t.fab.tag c.plan (t.queueWadding q)⟩
       exec (.fabricIdent q seq) s = .next ((t.updFab (fun f => { f with reqs := f.reqs ++ [r] })).nextTag.emit r)))) ∧
  (∀ (p peer : Fin 32) (slot : Fin 4) (tag dev q seq : Nat) (valid : Bool) (r : FabReq) (s : State),
    s.fab.reqs.find? (fun r => r.tag == tag && r.op == 0x31 && r.addr == p.val) = some r → r.owner = .ident q seq →
    exec (.identRsp p tag dev valid peer slot) s = .next ((((s.heard r.dev).dropReq tag).setPeer p dev valid peer slot).withWaiting
      (some (q, seq)) (fun c s => s.succeed c (s.rd .jflPstatus p 0).toNat)))

/-- A fresh READ of a mapped span answers its bytes; a fresh STORE that nothing refuses writes the bytes that its mask
enables, and is answered when none of them waits; a fresh ATOMIC_W96 adds its sums modulo 2^104; a fresh ROW_ADD
of as many sums as its table has elements is applied, and one that is not or that comes from wadding is refused; a
fresh YEALM_REQ answers the payloads of its rows and the shards; each failure has its status. A good response goes
to the owner of its request; FABRIC_COPY within the module moves its bytes or waits for a busy tile, and from
another module asks for them in pieces. Where the manual leaves a point of it open, the statement holds the choice
of the model: assumption log 43 and 48. -/
def Obligations.FabricRuns : Prop :=
  (∀ (h : FabHdr) (s : State), Fresh s h →
    (let a := arrived s h
     let answer (t : State) (op st : Nat) (unc : Bool) (bs : List Byte) : State := t.respond h.src h.epoch h.tag op st unc bs
     (∀ addr n, 1 ≤ n → addr % 4096 + n ≤ 4096 → addr + n ≤ 2 ^ 43 →
      (let r := a.busRead (.remote h.src h.course) addr n
       (r.miss = false → exec (.read h addr n) s = .next (answer r.st 0x81 0 r.unc r.bytes)) ∧
       (r.miss = true → exec (.read h addr n) s = .next (answer r.st 0x81 1 false [])))) ∧
     (∀ addr n, (n = 0 ∨ 4096 < addr % 4096 + n ∨ 2 ^ 43 < addr + n) → exec (.read h addr n) s = .next (answer a 0x81 5 false [])) ∧
     (∀ addr (data : List (Byte × Bool)), fabricSpan addr data.length = true → a.remoteStop h addr data.length = none →
      (let w (u : State) (r : Nat × List Byte) : State :=
        match u.busWrite (u.storeWriter h.src h.course addr data.length) h.wadding (addr + r.1) r.2 with
        | .done t | .miss t | .stopped _ t | .waits t => t
       let k := (h.src, h.epoch, h.tag)
       let t := ((maskRuns 0 data).foldl w a).holdAck a k
       (t.answerDue k = false → exec (.store h addr data) s = .next (answer (t.stageStored h.src addr data.length) 0x82 0 false [])) ∧
       (t.answerDue k = true → exec (.store h addr data) s = .next (t.stageStored h.src addr data.length)))) ∧
     (∀ addr (accs : List Nat), 1 ≤ accs.length → accs.length ≤ 64 → addr % 16 = 0 → addr + 16 * accs.length ≤ 2 ^ 43 →
      a.memRange addr (16 * accs.length) = true → a.remoteStop h addr (16 * accs.length) = none →
      (let add (u : State) (p : Nat × Nat) : State :=
        let r := u.readMem .remote (addr + 16 * p.2) 16
        r.st.writeMem (addr + 16 * p.2) (leBytes 13 ((fieldLe r.bytes 0 13 + p.1) % 2 ^ 104) ++ r.bytes.drop 13)
       exec (.atomicW96 h addr accs) s = .next (answer (accs.zipIdx.foldl add (a.noteWriter (.remote h.src h.course) addr (16 *
        accs.length))) 0x82 0 false []))) ∧
     (∀ t row n (accs : List Nat), a.rowAddStop h t row accs.length = none →
      (let r := a.applyAdd (a.addUnit t row) t row accs n (if a.cstate = 0 then none else some a.course.queue)
       (r.1 = .ok → exec (.rowAdd h t row n accs) s = .next (answer r.2 0x82 0 false [])) ∧
       (r.1 = .refused ∨ r.1 = .full → exec (.rowAdd h t row n accs) s = .next (answer r.2 0x82 2 false [])))) ∧
     (∀ t row n st (accs : List Nat), a.rowAddStop h t row accs.length = some st →
      exec (.rowAdd h t row n accs) s = .next (answer a 0x82 st false [])) ∧
     (∀ t (rows : List Nat), 1 ≤ rows.length → rows.length ≤ 256 →
      (let v := a.tableAt (if a.running && h.course == a.courseLow then some h.pbatten else none) t
       (v = none → exec (.yealmReq h t rows) s = .next (answer a 0x85 7 false [])) ∧
       (∀ x, v = some x →
        (let d := tdesc x.1
         let ps := rows.map (fun r => (r, rowPlace d x.2 r))
         (∀ p ∈ ps, p.1 < d.rows ∧ a.here (p.2.row d) = true ∧ a.memRange (faLocal (p.2.row d)) d.payload = true) →
         (let get (y : List Byte × Bool × State) (p : Nat × RowPlace) : List Byte × Bool × State :=
            let r := y.2.2.readMem .remote (faLocal (p.2.row d)) d.payload
            (y.1 ++ padTo (ceilDiv d.payload 8 * 8) r.bytes, y.2.1 || r.unc, r.st.shardLoad t p.2.shard 0 1)
          let out := ps.foldl get ([], false, a)
          let shards := ((ps.map (fun p => p.2.shard)).eraseDups).flatMap (fun k =>
            leBytes 2 k ++ leBytes 4 (sentry x.2 k).version ++ leBytes 2 (sentry x.2 k).bank)
          exec (.yealmReq h t rows) s = .next (answer out.2.2 0x85 0 out.2.1 (out.1 ++ shards))))))))) ∧
  (∀ (src tag q seq off : Nat) (unc : Bool) (bs : List Byte) (r : FabReq) (s : State), Asked s tag 0x01 r →
    r.owner = .copyRead q seq off →
    (let t := (s.heard src).dropReq tag
     let u := if unc then t.markLive 1 else t
     ((s.heard src).copyWaits q seq off bs = none →
      exec (.readRsp ⟨src, tag⟩ 0 unc bs) s = .next ((u.copyPut q seq off bs).copySettle q seq)) ∧
     (∀ w, (s.heard src).copyWaits q seq off bs = some w → exec (.readRsp ⟨src, tag⟩ 0 unc bs) s = .next w))) ∧
  (∀ (src tag q seq off n : Nat) (r : FabReq) (s : State), Asked s tag 0x02 r → r.owner = .copyStore q seq off n →
    exec (.ack ⟨src, tag⟩ 0) s = .next (((s.heard src).dropReq tag).copySettle q seq)) ∧
  (∀ (src tag die id k : Nat) (y : YDesc) (bs : List Byte) (shards : List (Nat × Nat × Nat)) (r : FabReq) (s : State),
    Asked s tag 0x05 r → r.owner = .yealm die id k →
    (let t := (s.heard src).dropReq tag
     t.ydesc? die id = some y →
     (let n := match y.parts[k]? with | some p => p.units.length | none => 0
      exec (.yealmRsp ⟨src, tag⟩ 0 false bs shards) s = .next (State.partArrived (shards.foldl (fun s x =>
       s.driftReport y.drift y.f.table x.1 x.2.1 x.2.2) t) die id k (rspChunks (tdesc y.table).payload n bs))))) ∧
  (∀ (q : Fin 16384) (seq : Nat) (c : Cmd) (s : State), Accepted 0x0401 q seq c s →
    (let src := c.par 16 8
     let n := c.par 32 8
     src + n ≤ 2 ^ 54 → c.par 24 8 + n ≤ 2 ^ 54 → 0 < n → s.copyEnd c src n false = none → s.copyEnd c (c.par 24 8) n true = none →
     (s.here src = true → (let r := s.busRead (.command q) (faLocal src) n
       (r.waits = true → exec (.fabricCopy q seq) s = .next r.st) ∧
       (∀ w, r.waits = false → r.st.copyWaits q seq 0 r.bytes = some w → exec (.fabricCopy q seq) s = .next w) ∧
       (r.waits = false → r.st.copyWaits q seq 0 r.bytes = none →
         exec (.fabricCopy q seq) s = .next (((r.st.cmdWaits c []).copyPut q seq 0 r.bytes).copySettle q seq)))) ∧
     (s.here src = false → exec (.fabricCopy q seq) s = .next ((fabPieces (faLocal src) n).foldl (fun s p =>
       s.ask q (faDev src) 0x01 p.1 p.2 [] (.copyRead q seq (p.1 - faLocal src)) (s.queueWadding q)) (s.cmdWaits c [])))))

/-- A message in order: an RDMA WRITE inside a region with the write right is written, counted and acknowledged, and
with immediate a record follows its data; outside its region or without the right it gets a NAK Remote Access
Error and no byte changes; a write into a locked range is refused with that NAK, LOCK_REFUSED, the queue pair in
error and a COURSE_LOCKED record; an RDMA READ is answered with the bytes. A message whose frame or ICRC fails is
dropped and counted, one that is too long or not for the port is dropped, as are counted its uncorrectable FEC
codewords. A CNP halves the rate with ECN on, RATE_RESTORE reaches the full rate 55 µs after it, flow control
pauses and resumes its priority, and the link is up only on an enabled port with FEC lock. Where the manual leaves
a point of it open, the statement holds the choice of the model: assumption log 16. -/
def Obligations.RoceResponderRuns : Prop :=
  (∀ (h : RoceHdr) (rkey va : Nat) (data : List Byte) (x : QueuePair) (s : State), RoceInOrder s h x →
    (let u := roceTaken s h x data.length
     (∀ m, u.region? h.port rkey = some m → m.admits true va data.length = true →
      (∀ t, u.busPost (.ingest h.port) false va data = .done t →
       (let v := (t.bump F.ETH_RXBYTES_BYTES data.length h.port).sendAck h.port h.qp (psnAdd h.psn (t.packets h.port data.length - 1))
        exec (.responderRdmaWrite h rkey va data) s = .next v ∧
        ∀ imm, exec (.responderWriteWithImmediate h rkey va data imm) s = .next (v.ingestRecord (h.port * 1024 + h.qp) m.queue stSuccess))) ∧
      (∀ w t, u.busPost (.ingest h.port) false va data = .stopped w t →
       exec (.responderRdmaWrite h rkey va data) s = .next ((((t.sendNak h.port h.qp h.psn 2).set F.ETH_STATUS_LOCK_REFUSED 1
        h.port).qpError h.port h.qp stRefused 2).ingestRecord (h.port * 1024 + h.qp) m.queue stLocked))) ∧
     ((u.region? h.port rkey = none ∨ ∃ m, u.region? h.port rkey = some m ∧ m.admits true va data.length = false) →
      exec (.responderRdmaWrite h rkey va data) s = .next (u.sendNak h.port h.qp h.psn 2) ∧
      ∀ imm, exec (.responderWriteWithImmediate h rkey va data imm) s = .next (u.sendNak h.port h.qp h.psn 2)))) ∧
  (∀ (h : RoceHdr) (rkey va n : Nat) (m : MemRegion) (x : QueuePair) (s : State), RoceInOrder s h x →
    (let u := roceTaken s h x n
     let r := u.busRead (.ingest h.port) va n
     u.region? h.port rkey = some m →
     (m.admits false va n = true → r.miss = false → exec (.responderRdmaRead h rkey va n) s =
      .next ((r.st.bump F.ETH_TXBYTES_BYTES n h.port).portSend h.port h.qp (.roce h.port h.qp 2 h.psn 0 0 r.bytes))) ∧
     (m.admits false va n = false → exec (.responderRdmaRead h rkey va n) s = .next (u.sendNak h.port h.qp h.psn 2)))) ∧
  (∀ (h : RoceHdr) (rkey va n : Nat) (data : List Byte) (s : State), s.portRuns h.port = true →
    (let u := if h.f.fec = 0 then s else s.bump F.ETH_ERRCNT_FEC_UNCORR h.f.fec h.port
     (h.f.fcsOk = false → exec (.responderRdmaWrite h rkey va data) s = .next (u.bump F.ETH_ERRCNT_FCS_ERR 1 h.port) ∧
       exec (.responderRdmaRead h rkey va n) s = .next (u.bump F.ETH_ERRCNT_FCS_ERR 1 h.port)) ∧
     (h.f.fcsOk = true → (maxFrame < h.f.len ∨ u.ipOn h.port h.f.ip6 = false ∨ h.f.dst ≠ u.ipAddr h.port h.f.ip6 ∨
        h.f.udp ≠ roceUdp) → exec (.responderRdmaWrite h rkey va data) s = .next u ∧ exec (.responderRdmaRead h rkey va n) s = .next u) ∧
     (h.f.fcsOk = true → h.f.len ≤ maxFrame → u.ipOn h.port h.f.ip6 = true → h.f.dst = u.ipAddr h.port h.f.ip6 →
        h.f.udp = roceUdp → h.f.icrcOk = false → exec (.responderRdmaWrite h rkey va data) s =
         .next (u.bump F.ETH_ERRCNT_ICRC_ERR 1 h.port) ∧
       exec (.responderRdmaRead h rkey va n) s = .next (u.bump F.ETH_ERRCNT_ICRC_ERR 1 h.port)))) ∧
  (∀ (p : Fin 2) (q : Fin 1024) (x : QueuePair) (s : State), s.qp? p q = some x →
    (∀ f, FrameOk s p f → s.bit F.ETH_CTRL_ECN_EN p = true → exec (.cnp p ⟨q, f⟩) s = .next (s.putQp p q { x with rate := x.rate / 2, cutAt := some s.now })) ∧
    (∀ (r : Rat) (t : Nat), x.cutAt = some t →
      (t + 55000 ≤ s.now → exec (.rateRestore p q r) s = .next (s.putQp p q { x with rate := 1, cutAt := none })) ∧
      (s.now < t + 55000 → exec (.rateRestore p q r) s = .next (s.putQp p q { x with rate := max x.rate (min r 1) })))) ∧
  (∀ (p : Fin 2) (prio : Fin 8) (s : State), s.portRuns p = true → s.bit F.ETH_CTRL_PFC_EN p = true →
    s.get F.ETH_CTRL_PFC_PRIO p = prio.val →
    (let others := s.eth.paused.filter (fun k => k != p.val)
     exec (.priorityFlowControlFrame p prio true) s = .next (s.updEth (fun e => { e with
      paused := (others ++ [p.val]).mergeSort (fun a b => decide (a ≤ b)) })) ∧
     exec (.priorityFlowControlFrame p prio false) s = .next ((s.updEth (fun e => { e with paused := others })).pumpPort p))) ∧
  (∀ (p : Fin 2) (s : State), (s.bit F.ETH_CTRL_EN p = true → exec (.ingestLinkStateChange p true true) s =
      .next (((s.set F.ETH_STATUS_FEC_LOCK 1 p).set F.ETH_STATUS_LINK_UP 1 p).pumpPort p)) ∧
    (∀ fec, exec (.ingestLinkStateChange p false fec) s =
      .next (((s.set F.ETH_STATUS_FEC_LOCK (if fec && s.bit F.ETH_CTRL_EN p then 1 else 0) p).set F.ETH_STATUS_LINK_UP 0 p).updEth
        (fun e => { e with paused := e.paused.filter (fun k => k != p.val) }))) ∧
    exec (.transceiverPresenceChange p true) s = .next (s.set F.ETH_STATUS_MODULE_PRESENT 1 p) ∧
    exec (.transceiverPresenceChange p false) s =
      .next (((s.set F.ETH_STATUS_MODULE_PRESENT 0 p).set F.ETH_STATUS_LINK_UP 0 p).set F.ETH_STATUS_FEC_LOCK 0 p))

/-- RDMA_WRITE and RDMA_READ on a set queue pair become a request of the next PSNs; an ACK ends what it covers, a
sequence NAK has the rest sent again and any other puts the queue pair in error; a timeout sends everything again
until the retries are exhausted; the data of a read are written and its command completes when they are all there.
MR_REGISTER takes the first free entry and answers an rkey with that entry in its low 12 bits, MR_DEREGISTER frees
it, ROCE_QP_SET sets a queue pair out of the error state. Where the manual leaves a point of it open, the
statement holds the choice of the model: assumption log 9 and 16. -/
def Obligations.RoceRequesterRuns : Prop :=
  (∀ (q : Fin 16384) (seq : Nat) (c : Cmd) (x : QueuePair) (s : State), s.qp? (c.par 16 1) (c.par 18 2) = some x → x.err = false →
    c.par 16 1 < 2 → c.par 18 2 < 1024 → c.par 24 8 + c.par 40 4 ≤ 2 ^ 43 → s.rangeMapped (c.par 24 8) (c.par 40 4) = true →
    (let made (read : Bool) : State := (s.cmdWaits c []).makeRoce (c.par 16 1) (c.par 18 2) (some (c.q, c.seq)) none read
      (c.par 24 8) (c.par 32 8) (c.par 40 4) (c.par 44 4)
     (Accepted 0x0202 q seq c s → exec (.rdmaWrite q seq) s = .next (made false)) ∧
     (Accepted 0x0203 q seq c s → s.writeStop (.command c.q) c.wadding (c.par 24 8) (c.par 40 4) = none →
      exec (.rdmaRead q seq) s = .next (made true)))) ∧
  (∀ (p : Fin 2) (q : Fin 1024) (f : EthFrame) (psn : Nat) (x : QueuePair) (s : State), s.qp? p q = some x → x.err = false →
    FrameOk s p f →
    (let l := ackedBy psn x.reqs
     exec (.roceAck p ⟨q, f⟩ psn none) s = .next (l.foldl State.roceDone (s.putQp p q { x with
      reqs := x.reqs.drop l.length, tries := if l = [] then x.tries else 0 }))) ∧
    exec (.roceAck p ⟨q, f⟩ psn (some 0)) s = .next ((s.roceAcked p q (psnAdd psn (2 ^ 24 - 1)) x).goBack p q) ∧
    ∀ k, exec (.roceAck p ⟨q, f⟩ psn (some (k + 1))) s = .next (s.qpError p q stRefused (k + 1))) ∧
  (∀ (p : Fin 2) (q : Fin 1024) (x : QueuePair) (s : State), s.qp? p q = some x → x.err = false →
    x.reqs.any (fun r => r.sent) = true →
    (x.tries < x.ctx.retries → exec (.roceAckTimeout p q) s =
      .next ((s.putQp p q { x with tries := x.tries + 1 }).goBack p q)) ∧
    (x.ctx.retries ≤ x.tries → exec (.roceAckTimeout p q) s = .next (s.qpError p q stTimeout 0))) ∧
  (∀ (p : Fin 2) (q : Fin 1024) (f : EthFrame) (psn cq cs : Nat) (bs : List Byte) (r : RoceReq) (x : QueuePair) (t s : State), s.qp? p q = some x →
    x.err = false → FrameOk s p f → x.reqs = [r] → r.read = true → r.sent = true → r.got = 0 → psn = psnAdd r.psn 0 →
    r.cmd = some (cq, cs) → bs.length = r.len →
    (let u := ((s.putQp p q { x with reqs := [r], tries := 0 }).bump F.ETH_RXBYTES_BYTES r.len p).act cq 9 (ceilDiv r.len 64)
     u.busPost (.command cq) (u.queueWadding cq) r.laddr bs = .done t → ∀ y, t.qp? p q = some y → y.reqs = [r] →
     exec (.rdmaReadResponse p ⟨q, f⟩ psn bs) s = .next ((t.putQp p q { y with reqs := [] }).roceDone r))) ∧
  (∀ (q : Fin 16384) (seq i : Nat) (c : Cmd) (s : State), Accepted 0x0204 q seq c s → c.par 16 8 % 64 = 0 → c.par 16 8 < 2 ^ 43 →
    c.par 32 1 < 4 → c.par 33 1 < 2 → c.par 34 2 < 16384 → s.freeRegion (c.par 33 1) = some i →
    ∃ k : Nat, k < 2 ^ 32 ∧ k % 4096 = i ∧
      (let m : MemRegion := ⟨k, c.par 16 8, c.par 24 8, c.par 32 1 % 2 == 1, c.par 32 1 / 2 % 2 == 1, c.par 34 2⟩
       let u := s.draw.2.updEth (fun e => { e with regions := Sparse.put none e.regions (c.par 33 1 * 4096 + i) (some m) })
       exec (.mrRegister q seq) s = .next ((u.writeEntry (c.par 33 1) i).succeed c k))) ∧
  (∀ (q : Fin 16384) (seq : Nat) (m : MemRegion) (c : Cmd) (s : State), Accepted 0x0205 q seq c s → c.par 20 1 < 2 →
    s.region? (c.par 20 1) (c.par 16 4) = some m →
    (let u := s.updEth (fun e =>
      { e with regions := Sparse.put none e.regions (c.par 20 1 * 4096 + c.par 16 4 % 4096) none })
     exec (.mrDeregister q seq) s = .next ((u.writeEntry (c.par 20 1) (c.par 16 4 % 4096)).succeed c 0))) ∧
  (∀ (q : Fin 16384) (seq : Nat) (ctx : QpContext) (c : Cmd) (s : State), Accepted 0x0206 q seq c s → c.par 16 8 % 64 = 0 →
    c.par 16 8 < 2 ^ 43 → c.par 24 2 < 1024 → c.par 26 1 < 2 → s.memRange (c.par 16 8) 256 = true →
    (let dst := s.get F.ETH_QP_BASE_BASE (c.par 26 1) * 64 + 256 * c.par 24 2
     let r := s.readMem .engine (c.par 16 8) 256
     s.memRange dst 256 = true → r.st.qp? (c.par 26 1) (c.par 24 2) = none →
     exec (.roceQpSet q seq ctx) s = .next (((r.st.writeMem dst r.bytes).putQp (c.par 26 1) (c.par 24 2)
      ⟨{ ctx with sendPsn := ctx.sendPsn % 2 ^ 24, recvPsn := ctx.recvPsn % 2 ^ 24 }, false, 0, [], 1, none, none⟩).succeed c 0)))

/-- VF_STEP_CHANGE takes a die to the step its requests ask for. 100 µs of lowered duty move the cap request one step
higher and 1 ms below 95 % of the budget one lower; 100 µs at the throttle temperature move the thermal request
one higher, beginning with an event, and 1 ms of cool undoes one action. A temperature sample shows the largest
reading, and starts or ends the times above the throttle limit. BUDGET_UPDATE gives every listed die its budget
and its matrix duty within 4/16 and 16/16. POWER_CAP takes a legal cap, commits it when asked, and refuses any
other with BAD_PARAM. ENERGY_REFIT, when it is due, has each fitted coefficient of every die wait for the next
batten. Where the manual leaves a point of it open, the statement holds the choice of the model: assumption log 3
and 51. -/
def Obligations.PowerControlRuns : Prop :=
  (∀ (d : Fin 8) (s : State), exec (.vfStepChange d) s = .next (s.set F.PWR_STATE_STEP (s.stepTarget d) d)) ∧
  (∀ (d : Fin 8) (duty t : Nat) (s : State), (s.dp d).dutySince = some t →
    (let u := s.advanceTo (t + 100000)
     let x := s.dp d
     let m := max x.capDuty (min 16 duty)
     exec (.capStep d duty) s = .next (((u.setDp d { x with
      capReq := min 15 (x.capReq + 1), capDuty := m, dutySince := if m = 16 then none else some u.now
      memDuty := if m = 4 ∧ 15 ≤ x.capReq + 1 then x.memDuty else 16 }).set F.PWR_STATUS_CAP_THROTTLE 1 d).refreshPwr d))) ∧
  (∀ (d : Fin 8) (t : Nat) (s : State), (s.dp d).belowSince = some t →
    (let u := s.advanceTo (t + 1000000)
     exec (.capRelax d) s = .next (u.updDp d (fun x =>
      { x with capReq := x.capReq - 1, belowSince := some u.now, memDuty := 16 })))) ∧
  (∀ (d : Fin 8) (t : Nat) (s : State), (s.dp d).hotSince = some t →
    (let u := s.advanceTo (t + 100000)
     ((s.dp d).thermReq ≠ 0 → (s.dp d).thermReq < 15 → exec (.thermalStep d) s = .next (u.updDp d (fun x =>
      if x.thermReq < 15 then { x with thermReq := x.thermReq + 1, hotSince := some u.now }
      else { x with thermCut := min 6 (x.thermCut + 1), hotSince := some u.now }))) ∧
     ((s.dp d).thermReq = 0 → (s.dp d).thermCut = 0 →
      (let v := (u.set F.PWR_STATUS_THERM_THROTTLE 1 d).raise d 0x0803 (plAt 16 (u.get F.PWR_TEMP_TJ_MAX d))
       ∃ y : DiePwr, y.thermReq = 1 ∧ y.thermCut = 0 ∧ exec (.thermalStep d) s = .next (v.updDp d (fun _ => y)))))) ∧
  (∀ (d : Fin 8) (t : Nat) (s : State), (s.dp d).coolSince = some t →
    (let u := s.advanceTo (t + 1000000)
     exec (.thermalRelax d) s = .next (u.updDp d (fun x =>
      if 0 < x.thermCut then { x with thermCut := x.thermCut - 1, coolSince := some u.now }
      else { x with thermReq := x.thermReq - 1, coolSince := some u.now })))) ∧
  (∀ (d : Fin 8) (t : Int) (ts : List Int) (s : State),
    (let v := s.advanceTo ((s.now / 10000 + 1) * 10000)
     let hot := ts.foldl max t
     ∃ u, exec (.thermalSample d (t :: ts)) s = .next u ∧ u.mem = v.mem ∧ u.get F.PWR_TEMP_TJ_MAX d = field12 hot ∧
      (hot < 4 * ((v.get F.PWR_CTRL_THROTTLE_C d : Nat) : Int) → (u.dp d).hotSince = none) ∧
      (4 * ((v.get F.PWR_CTRL_THROTTLE_C d : Nat) : Int) ≤ hot → (u.dp d).hotSince = some ((v.dp d).hotSince.getD v.now)) ∧
      (4 * ((v.get F.PWR_CTRL_THROTTLE_C d : Nat) : Int) - 12 ≤ hot → (u.dp d).coolSince = none))) ∧
  (∀ (b : List DieBudget) (s : State),
    (let u := (((List.range 8).zip b).foldl (fun s p => s.giveBudget p.1 p.2)
      (s.advanceTo ((s.now / 10000 + 1) * 10000))).settleThrottle
     exec (.budgetUpdate b) s = .next u ∧ ∀ (d : Fin 8) (x : DieBudget), b[d.val]? = some x →
      (u.dp d).budget = x.watts ∧ (u.dp d).capDuty = max 4 (min 16 x.matrix))) ∧
  (∀ (q : Fin 16384) (seq : Nat) (c : Cmd) (s : State), Accepted 0x0601 q seq c s →
    (capOk (c.par 16 2) = true → c.par 18 1 ≠ 1 →
      exec (.powerCap q seq) s = .next ((s.setCap (c.par 16 2)).succeed c (c.par 16 2))) ∧
    (capOk (c.par 16 2) = true → c.par 18 1 = 1 →
      (let t := s.setCap (c.par 16 2)
       exec (.powerCap q seq) s = .next ((t.commitFields (leBytes 2 (c.par 16 2) ++ t.sec.fields.drop 2)).succeed c (c.par 16 2)))) ∧
    (capOk (c.par 16 2) = false → exec (.powerCap q seq) s = .next (s.fail c stBadParam 16))) ∧
  (∀ (coef : List F32) (s : State), s.bit F.PWR_CTRL_REFIT_EN = true → 1000 ≤ s.pwr.refit → s.frame.slot = 4 → coef.length = 11 →
    ∃ t, exec (.energyRefit coef) s = .next t ∧ t.mem = s.mem ∧ t.pwr.refit = 0 ∧
      ∀ (d : Fin 8) (i : Fin 11) (v : F32), coef[i.val]? = some v → (dec32 v).neg = false → (dec32 v).nonfinite = false →
        Sparse.get none t.pwr.coefPend (16 * d.val + (if i = 10 then 15 else i.val)) = some (v.setWidth 64))

/-- LOAD_HINT takes a legal hint on every die of its mask. The lead of a hint prepares its die, its start brings the
entry into force, its end takes it out, and the guard falls when the hold time ends. A grant, once per entry,
never raises a duty and keeps the requests. A droop of a group is counted once per stretch and its cycles at its
end. -/
def Obligations.HintsAndDroopRun : Prop :=
  (∀ (q : Fin 16384) (seq : Nat) (c : Cmd) (s : State), Accepted 0x0600 q seq c s → 1 ≤ c.par 24 1 → c.par 24 1 ≤ 15 →
    c.par 25 1 ≠ 0 → c.par 26 2 ≠ 0 →
    (let h : Hint := ⟨c.par 16 8, c.par 26 2 * 1000, c.par 24 1, 0⟩
     exec (.loadHint q seq) s = .next ((((List.range 8).filter (fun d => c.par 25 1 / 2 ^ d % 2 == 1)).foldl (fun s d =>
      s.takeHint h d) s).succeed c 0))) ∧
  (∀ (d : Fin 8) (h : Hint) (s : State), (s.dp d).hint = some h →
    (h.phase = 0 → h.start ≠ 0 →
      (let u := s.advanceTo (h.start - s.policy d h.cls 3 1 * 1000)
       exec (.hintLead d) s = .next ((u.updDp d (fun x => { x with hint := some { h with phase := 1 } })).prepare d h.cls))) ∧
    (h.phase = 1 → h.start ≠ 0 → exec (.hintStart d) s =
      .next ((s.advanceTo h.start).updDp d (fun x => { x with hint := some { h with phase := 2 } }))) ∧
    (h.phase = 2 → exec (.hintExpiry d) s =
      .next ((s.advanceTo (h.start + h.dur)).updDp d (fun x => { x with hint := none })))) ∧
  (∀ (d : Fin 8) (t : Nat) (s : State), (s.dp d).holdUntil = some t →
    exec (.hintHoldEnd d) s = .next ((s.advanceTo t).updDp d (fun x => { x with holdUntil := none, guard := 0, granted := false }))) ∧
  (∀ (d : Fin 8) (mm mem : Nat) (s : State), (s.dp d).granted = false →
    ∃ y : DiePwr, y.granted = true ∧ y.capDuty ≤ (s.dp d).capDuty ∧ y.memDuty ≤ (s.dp d).memDuty ∧
      y.capReq = (s.dp d).capReq ∧ y.thermReq = (s.dp d).thermReq ∧ y.hint = (s.dp d).hint ∧
      exec (.grantRequest d mm mem) s = .next (s.updDp d (fun _ => y))) ∧
  (∀ (d g : Fin 8) (n : Nat) (s : State),
    ((s.dp d).droop / 2 ^ g.val % 2 = 0 → exec (.droopDetect d g) s =
      .next ((s.setDp d { s.dp d with droop := (s.dp d).droop ||| 2 ^ g.val }).bump F.PWR_DROOPCNT_DROOP_EVENTS 1 d)) ∧
    ((s.dp d).droop / 2 ^ g.val % 2 = 1 → exec (.droopRecover d g n) s =
      .next ((s.setDp d { s.dp d with droop := (s.dp d).droop ^^^ 2 ^ g.val }).bump F.PWR_DROOPCNT_STRETCHED n d)))

/-- An input sample moves time to the next microsecond and shows the voltage. A voltage below 41 V opens one sag
episode with NV writes inhibited; its end releases them with an event. Below 38 V a power-on reset of cause 2
follows, after a flash page already begun; above 62 V and at a trip temperature the module switches off, and it
starts again when the voltage returns, unless it tripped. A flash page that completes frees the flash for its next
work; the directory page holds the epoch and the power-cycle count in use and, of an image to confirm, its bank,
and then raises the rollback counter to its SVN. Where the manual leaves a point of it open, the statement holds
the choice of the model: assumption log 3 and 52. -/
def Obligations.SupplyRuns : Prop :=
  (∀ (mv ma : Nat) (s : State), ∃ t, exec (.inputSample mv ma) s = .next t ∧ t.mem = s.mem ∧
    t.pwr.samples = (mv * ma / 1000000 :: s.pwr.samples).take 1000 ∧
    (t.get F.PWR_SUPPLY_VIN_MV = min mv 65535)) ∧
  (∀ (mv : Nat) (s : State), mv < 41000 → s.pwr.sag = none →
    (let t : State := { s with pwr := { s.pwr with sag := some (s.now, s.get F.GUT_TIME_OPSEC, mv), okSince := none } }
     let u := ((t.set F.PWR_SUPPLY_SAG 1).set F.PWR_SUPPLY_NV_INHIBIT 1).set F.PWR_SUPPLY_VIN_MV mv
     exec (.sagBegin mv) s = .next ((((u.set F.PWR_STATUS_SAG 1).bump F.PWR_CNT_SAG_EPISODES 1).refreshAll).raise 0 0x0804
      (plAt 16 mv)))) ∧
  (∀ (b o low ok : Nat) (s : State), s.pwr.sag = some (b, o, low) → s.pwr.okSince = some ok →
    (let t := s.advanceTo (ok + 10000000)
     let u : State := { t with pwr := { t.pwr with sag := none } }
     let v := ((u.set F.PWR_SUPPLY_SAG 0).set F.PWR_SUPPLY_NV_INHIBIT 0).refreshAll
     exec .sagEnd s = .next ((v.raise 0 0x0805 (plAt 16 o + plAt 20 (b % 2 ^ 32) + plAt 24 ((v.now - b) / 1000 % 2 ^ 32) +
      plAt 28 low)).flashStart))) ∧
  (∀ (mv : Nat) (s : State), mv < 38000 → s.start.stage ≠ 11 →
    ((s.sec.job = none ∨ s.sec.job = some .erase) → exec (.supplyCollapse mv) s = .next (s.powerOnReset 2 0)) ∧
    (∀ j, s.sec.job = some j → j ≠ .erase → exec (.supplyCollapse mv) s =
      .next { s with pwr := { s.pwr with stopped := true }, start := { s.start with request := some 2 } })) ∧
  (∀ (mv : Nat) (s : State),
    (62000 < mv → s.start.stage ≠ 11 → exec (.overvoltage mv) s =
      .next { s.powerOnReset 1 11 with pwr := { (s.powerOnReset 1 11).pwr with off := true } }) ∧
    (mv < 60000 → s.start.stage = 11 → s.pwr.off = true → s.start.trip = none → exec (.overvoltageClear mv) s = .next (s.powerOnReset 1 0))) ∧
  (∀ (d : Fin 8) (temp : Nat) (s : State), 460 ≤ temp → s.start.stage ≠ 11 →
    (let t := ({ s with start := { s.start with trip := some (d.val, temp) } } : State).powerOnReset 3 11
     exec (.trip d temp) s = .next { t with pwr := { t.pwr with off := true } })) ∧
  (∀ s : State, s.start.request = none →
    (s.sec.job = some .directory → s.writeDirectory.jobDone.start.request = none →
      exec .flashPageDone s = .next s.writeDirectory.jobDone ∧
      s.writeDirectory.sec.confirm = false ∧ s.writeDirectory.sec.flash.epoch = s.get F.JFL_EPOCH_EPOCH ∧
      s.writeDirectory.sec.flash.pwrcyc = s.get F.GUT_TIME_PWRCYC ∧
      s.writeDirectory.sec.flash.active = (if s.sec.confirm then s.get F.SEC_STATUS_BANK else s.sec.flash.active) ∧
      (s.sec.confirm = true → s.writeDirectory.sec.flash.counter = max s.sec.flash.counter s.sec.svn ∧
        s.writeDirectory.bit F.SEC_STATUS_TRIAL = false)) ∧
    (s.sec.job = some .page → s.jobDone.start.request = none → exec .flashPageDone s = .next s.jobDone))

/-- ATTEST puts out a report of 400 bytes, signed, and the certificate where asked; MEASUREMENTS puts out the eight
measurements; an output is written where it is memory, and refused where a lock holds it. DORMER_UNLOCK draws a
new challenge, and either refuses the token with the number of the first check that it fails or opens the dormer
for its duration and scope; DORMER_LOCK and the expiry close it. COMMIT queues the staged fields for the flash,
REVERT reloads staging with the fields in force, and a commit that is done puts its fields in force with the next
sequence number, or keeps the old ones with COMMIT_ERROR. Where the manual leaves a point of it open, the
statement holds the choice of the model: assumption log 3, 9, 12 and 53. -/
def Obligations.SecurityRuns : Prop :=
  (∀ (q : Fin 16384) (seq : Nat) (c : Cmd) (s : State), Accepted 0x0800 q seq c s → c.par 16 8 % 64 = 0 → c.par 16 8 < 2 ^ 43 →
    c.par 24 8 % 64 = 0 → c.par 24 8 < 2 ^ 43 → s.memRange (c.par 16 8) 32 = true →
    (let cert := if c.par 32 1 % 2 = 1 then Config.certificate.take 2048 else []
     let n := 400 + cert.length
     let r := s.readMem .engine (c.par 16 8) 32
     let rep := r.st.report r.bytes
     exec (.attest q seq) s = .next (r.st.putOutput c (c.par 24 8) (rep ++ padTo 64 (Config.sm2Sign rep) ++ cert)
      (fun s => s.succeed c n)))) ∧
  (∀ (q : Fin 16384) (seq : Nat) (c : Cmd) (s : State), Accepted 0x0803 q seq c s → c.par 16 8 % 64 = 0 → c.par 16 8 < 2 ^ 43 →
    exec (.measurements q seq) s = .next (s.putOutput c (c.par 16 8) s.allMeas (fun s => s.succeed c 256))) ∧
  (∀ (c : Cmd) (a : Nat) (bs : List Byte) (k : State → State) (s : State),
    (s.memRange a bs.length = true → s.writeStop (.command c.q) c.wadding a bs.length = none →
      s.putOutput c a bs k = k ((s.noteWriter (.command c.q) a bs.length).writeMem a bs)) ∧
    (s.memRange a bs.length = true → s.writeStop (.command c.q) c.wadding a bs.length = some .locked →
      s.putOutput c a bs k = s.fail c stLocked 0)) ∧
  (∀ (q : Fin 16384) (seq : Nat) (c : Cmd) (s : State), Accepted 0x0801 q seq c s → c.par 16 8 % 64 = 0 → c.par 16 8 < 2 ^ 43 →
    s.memRange (c.par 16 8) 192 = true →
    (let r := s.readMem .engine (c.par 16 8) 192
     let p := r.st.draw
     let t := p.2.wr .secChallenge 0 0 p.1
     let dur := fieldLe r.bytes 24 4
     let u := (((t.extend 3 (Config.sm3 r.bytes)).set F.SEC_STATUS_DORMER 1).set F.SEC_DORMER_SCOPE (fieldLe r.bytes 28 1)).set
      F.SEC_DORMER_REMAINING_S dur
     let v : State := { u with sec := { u.sec with dormerEnd := some (u.now + dur * 1000000000), unlocked := true } }
     exec (.dormerUnlock q seq) s = .next (match r.st.tokenFails r.bytes with
      | some d => (t.set F.SEC_STATUS_UNLOCK_FAIL 1).fail c stDenied d
      | none => v.assess.succeed c 0))) ∧
  (∀ (q : Fin 16384) (seq : Nat) (c : Cmd) (s : State), Accepted 0x0802 q seq c s →
    exec (.dormerLock q seq) s = .next (s.endDormer.succeed c 0)) ∧
  (∀ (t : Nat) (s : State), s.sec.dormerEnd = some t → exec .dormerExpiry s = .next (s.advanceTo t).endDormer) ∧
  (∀ s : State, s.endDormer.bit F.SEC_STATUS_DORMER = false ∧ s.endDormer.get F.SEC_DORMER_SCOPE = 0 ∧
    s.endDormer.sec.dormerEnd = none ∧ s.endDormer.sec.unlocked = s.sec.unlocked) ∧
  (∀ s : State, exec .settingsCommit s = .next ((s.set F.CFG_SETSTATUS_PENDING 1).flashAdd (.settings (padTo 3840 (tableBytes
      s.sec.staging 0 3840)))) ∧
    exec .settingsRevert s = .next { s with sec := { s.sec with staging := tablePut [] 0 (settingsHeld 0 s.sec.fields) } }) ∧
  (∀ (f : List Byte) (s : State), s.sec.job = some (.settings f) →
    (let target := 1 - s.sec.copy
     let n := s.get F.CFG_SETSTATUS_SEQUENCE + 1
     let more := if s.sec.jobs.any (fun j => match j with | .settings _ => true | _ => false) then 1 else 0
     let put (block : List Byte) : State :=
      ({ s with sec := { s.sec with flash := { s.sec.flash with copies := s.sec.flash.copies.set target block } } } : State).set
        F.CFG_SETSTATUS_PENDING more
     let t := ((put (settingsBlock 3 n f)).set F.CFG_SETSTATUS_VERSION 3).set F.CFG_SETSTATUS_SEQUENCE n
     exec (.commitDone true) s = .next ({ t with sec := { t.sec with fields := f, copy := target } } : State).jobDone ∧
     exec (.commitDone false) s = .next ((put []).set F.CFG_SETSTATUS_COMMIT_ERROR 1).jobDone))

/-- A soffit message whose CRC fails changes nothing. STATUS is answered with four registers; INTAKE_BEGIN empties the
bank that is not in use and opens it unless an intake or a trial is under way; data in order are written and
acknowledged and other data refused; INTAKE_END judges the header and the length; ACTIVATE after an intake, with
no course live or forced, sets the trial and resets the module with cause 7; RESET resets it with cause 5. Where
the manual leaves a point of it open, the statement holds the choice of the model: assumption log 53. -/
def Obligations.SoffitRuns : Prop :=
  (∀ (uart force : Bool) (off : Nat) (bs : List Byte) (s : State), exec (.status false) s = .next s ∧
    exec (.intakeBegin false uart) s = .next s ∧ exec (.intakeData false off bs) s = .next s ∧ exec (.intakeEnd false) s = .next s ∧
    exec (.activate false force) s = .next s ∧ exec (.reset false) s = .next s) ∧
  (∀ s : State, s.soffitUp = true →
    (exec (.status true) s = .next (s.send (.soffit 0 (leBytes 8 (s.rd .secStatus 0 0).toNat ++ leBytes 8 (s.rd .secRollback 0 0).toNat ++
      leBytes 8 (s.rd .secFwver 0 0).toNat ++ leBytes 8 (s.rd .cfgSerial 0 0).toNat)))) ∧
    exec (.reset true) s = .next ((s.send (.soffit 0 [])).moduleReset 5) ∧
    (s.sec.intake.busy = false → s.sec.flash.trial = false → s.bit F.SEC_STATUS_TRIAL = false → s.sec.live = [] →
      s.nvInhibit = false → ∀ uart,
      (let b := s.intakeBank
       let t : State := { s with sec := { s.sec with
        flash := { s.sec.flash with banks := s.sec.flash.banks.filter (fun p => p.1 / 2 ^ 27 != b) }, intake := ⟨b, 0, true, s.sec.intake.done⟩ } }
       exec (.intakeBegin true uart) s = .next ((t.noteOther.set F.SEC_STATUS_INTAKE_BUSY 1).send (.soffit 0 [])))) ∧
    (s.sec.intake.busy = true → ∀ uart, exec (.intakeBegin true uart) s = .next (s.send (.soffit 1 []))) ∧
    (∀ bs : List Byte, s.sec.intake.busy = true → bs.length ≤ 65536 → s.sec.intake.next + bs.length ≤ 2 ^ 27 → s.nvInhibit = false →
      (let put := (List.range bs.length).foldl (fun m k =>
         Sparse.put 0xFF#8 m (s.sec.intake.bank * 2 ^ 27 + s.sec.intake.next + k) (bs.getD k 0xFF#8)) s.sec.flash.banks
       let t : State := { s with sec := { s.sec with
        flash := { s.sec.flash with banks := put }, intake := { s.sec.intake with next := s.sec.intake.next + bs.length } } }
       exec (.intakeData true s.sec.intake.next bs) s = .next (t.noteOther.send (.soffit 0 [])))) ∧
    (∀ off (bs : List Byte), off ≠ s.sec.intake.next → exec (.intakeData true off bs) s = .next (s.send (.soffit 1 []))) ∧
    (s.sec.intake.busy = true →
      (let h := s.header s.sec.intake.bank
       let ok := headerOk h && s.sec.intake.next == 512 + fieldLe h 24 4
       let t : State := { s with sec := { s.sec with intake := { s.sec.intake with busy := false, done := s.sec.intake.done || ok } } }
       let u := t.set F.SEC_STATUS_INTAKE_BUSY 0
       (ok = true → exec (.intakeEnd true) s = .next ((u.set F.SEC_STATUS_INTAKE_DONE 1).send (.soffit 0 []))) ∧
       (ok = false → exec (.intakeEnd true) s = .next ((u.set F.SEC_STATUS_INTAKE_ERROR 1).send (.soffit 2 []))))) ∧
    (∀ force, s.sec.intake.done = true → (s.courseLive = false ∨ force = true) → s.nvInhibit = false →
      (let t : State := { s with sec := { s.sec with flash := { s.sec.flash with trial := true } } }
       exec (.activate true force) s = .next ((t.send (.soffit 0 [])).moduleReset 7))) ∧
    (∀ force, (s.sec.intake.done = false ∨ (s.courseLive = true ∧ force = false)) →
      exec (.activate true force) s = .next (s.send (.soffit 1 []))))

/-- Input starts a module that is off; S0, S1 and S3 end on their events (S3 with the timebase at 0 and the work slot
of batten 0 open), a bad die stops start-up with an event. The ROM boots a bank that passes verification, trying
the trial bank first, and enters recovery when none does. SETTINGS_READ puts the block in force, each field out of
its range at its default, and counts the epoch on. A training round is counted for each memory in training, with
the channels that it did not train, and the last one leaves memories whose channels all trained; a fill zeroes a
memory and puts it into service; a kept channel is restored. S7 starts the services with the settings' values and
READY follows, with a trial image to be confirmed. A module reset and an expired watchdog restart the module.
Where the manual leaves a point of it open, the statement holds the choice of the model: assumption log 7, 9 and
54. -/
def Obligations.StartUpRuns : Prop :=
  (∀ s : State, (s.start.stage = 11 → s.start.trip = none → exec .powerOn s = .next (s.powerOnReset 1 0)) ∧
    (s.start.stage = 11 → s.start.trip ≠ none → exec .powerOn s = .next (s.powerOnReset 3 0)) ∧
    (s.start.stage = 0 → exec .supplyQualified s = .next (s.setStart { s.start with stage := 1 })) ∧
    (s.start.stage = 1 → exec .powerGood s = .next (s.setStart { s.start with stage := 2 })) ∧
    (s.start.stage = 3 → exec (.dieBringUp none) s = .next (((s.set F.TBN_TIME_TIME 0).openSlot).setStart { s.start with stage := 4 }) ∧
      ∀ d : Fin 8, ∃ t, exec (.dieBringUp (some d)) s = .next t ∧ t.start.stage = 10 ∧ t.mem = s.mem)) ∧
  (∀ s : State, s.start.stage = 2 → s.sec.flash.active < 2 → (s.sec.flash.trial && s.nvInhibit) = false → ∃ t, exec .romBoot s = .next t ∧ t.mem = s.mem ∧
    t.sec.flash = { s.sec.flash with trial := false } ∧
    ((t.start.stage = 3 ∧ s.bankFails (t.get F.SEC_STATUS_BANK) = none ∧
        (s.sec.flash.trial = false → s.bankFails s.sec.flash.active = none → t.get F.SEC_STATUS_BANK = s.sec.flash.active) ∧
        (t.bit F.SEC_STATUS_TRIAL = true ↔ t.get F.SEC_STATUS_BANK ≠ s.sec.flash.active)) ∨
     (t.start.stage = 9 ∧ s.bankFails 0 ≠ none ∧ s.bankFails 1 ≠ none))) ∧
  (∀ (fresh : List Nat) (s : State), s.start.stage = 4 → s.sec.live = [] →
    (let fd := s.findSettings fresh
     ∃ t, exec (.settingsRead fresh) s = .next t ∧ t.mem = s.mem ∧ t.sec.fields = fd.fields ∧ t.sec.copy = fd.copy ∧
      t.sec.live = (settingsFields.filter (fun f => !fieldInRange fd.fields f)).foldl (fun bs f =>
        patch bs f.1 (leBytes f.2.1 f.2.2.2.2)) fd.fields ∧
      t.get F.CFG_SETSTATUS_VERSION = 3 ∧ t.get F.JFL_EPOCH_EPOCH = (s.sec.flash.epoch + 1) % 2 ^ 16 ∧
      t.get F.PWR_CAP_CAP_W = fieldLe t.sec.live 0 2 % 2 ^ 12)) ∧
  (∀ (ctl : Fin 24) (bad : List Nat) (s : State), s.start.stage = 5 →
    ∃ t, exec (.channelTrainingRound ctl bad) s = .next t ∧ t.mem = s.mem ∧
      ∀ dev ∈ ctlDevs ctl, dev ∈ s.start.full → dev ∉ s.start.dead → dev ∉ s.start.trained →
        (let n := Sparse.get 0 s.start.rounds dev + 1
         Sparse.get 0 t.start.rounds dev = n ∧
         (n < trainRounds ctl → dev ∉ t.start.trained ∧ ∀ ch ∈ bad, chanDev ctl ch = dev → ch < 256 →
           ctl.val * 256 + ch ∈ t.start.failed) ∧
         (trainRounds ctl ≤ n → s.start.failed = [] → bad = [] → dev ∈ t.start.trained))) ∧
  (∀ (dev : Fin 48) (s : State), s.start.stage = 5 → dev.val ∈ s.start.trained →
    (let lo := devBase dev
     let t : State := { s with
       mem := s.mem.filter (fun p => !(decide (lo ≤ p.1) && decide (p.1 < lo + windowSize)))
       upset := s.upset.filter (fun p => !(decide (lo ≤ p.1 * 64) && decide (p.1 * 64 < lo + windowSize)))
       start := { s.start with
         trained := s.start.trained.filter (fun d => decide (d ≠ dev.val)), full := s.start.full.filter (fun d => decide (d ≠ dev.val)) } }
     exec (.stackFill dev) s = .next (t.enterService dev).endS6)) ∧
  (∀ (chan : Fin 2176) (s : State), s.start.stage = 5 →
    (let ctl := if chan.val < 2048 then chan.val / 128 else 16 + (chan.val - 2048) / 16
     let ch := if chan.val < 2048 then chan.val % 128 else (chan.val - 2048) % 16
     chanDev ctl ch ∉ s.start.full → s.inService / 2 ^ chanDev ctl ch % 2 = 0 →
     exec (.channelRestore chan false) s = .next ((s.raise (ctlDie ctl) 0x0506 (s.memPayload ctl ch)).setStart
       { s.start with full := s.start.full ++ [chanDev ctl ch] }) ∧
     (s.start.restored = [] → exec (.channelRestore chan true) s = .next (s.setStart { s.start with restored := [chan.val] })))) ∧
  (∀ s : State, s.start.stage = 7 →
    (s.start.services = false → exec .servicesStart s = .next (((((({ s with clusters := [] } : State).set F.HIF_CTRL_PERST_SCOPE
      (s.setting 2 1)).set F.HIF_CTRL_CXL_EN (s.setting 3 1)).set F.LDG_DKEY_KEY (s.setting 16 8))).setStart
        { s.start with services := true })) ∧
    (s.start.services = true → ∃ t v, exec .ready s = .next t ∧ t.start.stage = 8 ∧ t.mem = s.mem ∧ (s.bit F.SEC_STATUS_TRIAL = true → t.sec.confirm = true) ∧
      1 ≤ v ∧ ∀ d : Fin 8, t.get F.QP_FWVER_VERSION d = v)) ∧
  (∀ (cause : Nat) (s : State), s.powered = true → 4 ≤ cause → cause ≤ 7 →
    exec (.moduleReset cause) s = .next (s.moduleReset cause) ∧ (s.moduleReset cause).mem = s.mem ∧
    (s.moduleReset cause).start.stage = 1 ∧ (s.moduleReset cause).start.cause = cause) ∧
  (∀ (d : Fin 8) (s : State), s.powered = true → 4 ≤ s.start.stage → s.start.stage ≤ 8 →
    exec (.watchdogExpiry d) s = .next (s.moduleReset 6))

/-- Adding an addend to an accumulator gives the number below 2^104 that is congruent to the accumulator plus the
addend modulo 2^104. Any two orders of the same addends leave the same bits, and so does any split: adding what a
second accumulator collected from zero gives the same bits as adding its addends one by one. -/
def Obligations.AccumulatorOrder : Prop :=
  (∀ (acc : Nat) (a : Int), accAdd acc a < 2 ^ 104 ∧ ∃ k : Int, (accAdd acc a : Int) = acc + a + k * 2 ^ 104) ∧
  (∀ (acc : Nat) (xs ys : List Int), xs.Perm ys → xs.foldl accAdd acc = ys.foldl accAdd acc) ∧
  (∀ (acc : Nat) (xs ys : List Int), acc < 2 ^ 104 →
    accAdd (xs.foldl accAdd acc) (accInt (ys.foldl accAdd 0)) = (xs ++ ys).foldl accAdd acc)

/-- Every code of the two 8-bit floating formats is finite; its sign, exponent field and mantissa field lie where the
rules put them and its value is the one they give, subnormals for exponent field 0 and normal values with bias 7
and 15. -/
def Obligations.FloatCodes : Prop :=
  ∀ c : Fin 256,
    (let e := c.val / 8 % 16
     let m := c.val % 8
     let v : Rat := if e = 0 then (m : Rat) / 512 else ((8 + m : Nat) : Rat) * 2 ^ e / 1024
     decodeFloat specF8a c = .fin (decide (128 ≤ c.val)) v) ∧
    (let e := c.val / 4 % 32
     let m := c.val % 4
     let v : Rat := if e = 0 then (m : Rat) / 65536 else ((4 + m : Nat) : Rat) * 2 ^ e / 131072
     decodeFloat specF8b c = .fin (decide (128 ≤ c.val)) v)

/-- In a memory without wrong symbols and without a move under way, after bytes are written every address within their
range reads its new byte and every other address what it read before, and reading the range gives the bytes, none
of them uncorrectable. With wrong symbols anywhere, no byte outside the lines that the range touches changes. -/
def Obligations.WriteExact : Prop :=
  (∀ (s : State) (a : Nat) (bs : List Byte), s.upset = [] → s.tables.moves = [] →
    (∀ x : Nat, Sparse.get 0#8 (s.writeMem a bs).mem x =
      if a ≤ x ∧ x < a + bs.length then bs.getD (x - a) 0#8 else Sparse.get 0#8 s.mem x) ∧
    (∀ who, ((s.writeMem a bs).readMem who a bs.length).bytes = bs ∧ ((s.writeMem a bs).readMem who a bs.length).unc = false)) ∧
  (∀ (s : State) (a x : Nat) (bs : List Byte), s.tables.moves = [] →
    (x / 64 < a / 64 ∨ (a + bs.length + 63) / 64 ≤ x / 64) → Sparse.get 0#8 (s.writeMem a bs).mem x = Sparse.get 0#8 s.mem x)

/-- A write that overlaps a locked range while the lock is engaged, or a range of the table directory, by the host, a
tile program, a command, another module or an ingest port is refused: no byte of memory and no check symbol
changes. Where the range is in service and the write is not wadding, it is refused as locked; wadding into a
locked range is refused as WADDING_PROTECTED. -/
def Obligations.LockHolds : Prop :=
  ∀ (s : State) (w : Writer) (wad : Bool) (a : Nat) (bs : List Byte),
    (w ≠ .update ∧ w ≠ .migration ∧ w ≠ .streaming ∧ w ≠ .device) → a + bs.length ≤ 0x600_0000_0000 →
    (s.inLock a bs.length = true ∨ s.inDirectory a bs.length = true) →
    (∃ t, ((∃ why, s.busWrite w wad a bs = .stopped why t) ∨ s.busWrite w wad a bs = .miss t) ∧ t.mem = s.mem ∧ t.upset = s.upset) ∧
    (s.memRange a bs.length = true → wad = false → ∃ t, s.busWrite w wad a bs = .stopped .locked t) ∧
    (s.memRange a bs.length = true → wad = true → s.inLock a bs.length = true → ∃ t, s.busWrite w wad a bs = .stopped .wadding t)

/-- An ALU, ALUI, LIH, BR, JAL, JALR, WAIT or NOP instruction that issues, and after which the program goes on inside
program memory, leaves memory, every other cluster, the cluster's local buffer, engines' queues and program
memory, every scalar register but its destination, and every register of the module but the core's state and
retire counter as they were; s0 reads 0 even where it is the destination. -/
def Obligations.ScalarFrames : Prop :=
  ∀ (g : Fin 1024) (s u : State),
    let w := s.fetchWord g
    let onward (n : Nat) : Prop := n % 8 = 0 ∧ n ≤ 0x3FFF8
    (Issues s g (aluOp g) → onward (s.seqPc g) → exec (.alu g) s = .next u → ScalarFrame s u g (rRd w)) ∧
    (Issues s g (aluiOp g) → onward (s.seqPc g) → exec (.alui g) s = .next u → ScalarFrame s u g (rRd w)) ∧
    (Issues s g (lihOp g) → onward (s.seqPc g) → exec (.lih g) s = .next u → ScalarFrame s u g (rRd w)) ∧
    (Issues s g (brOp g) → onward (s.relPc g w) → onward (s.seqPc g) → exec (.br g) s = .next u → ScalarFrame s u g 0) ∧
    (Issues s g (jalOp g) → onward (s.relPc g w) → exec (.jal g) s = .next u → ScalarFrame s u g (rRd w)) ∧
    (Issues s g (jalrOp g) → onward (s.sreg g (rRa w)).toNat → exec (.jalr g) s = .next u → ScalarFrame s u g (rRd w)) ∧
    (Issues s g (waitOp g) → onward (s.seqPc g) → exec (.wait g) s = .next u → ScalarFrame s u g 0)

/-- An STL that issues, and after which the program goes on, changes exactly the eight bytes of its cluster's local
buffer at the address ra + IMM, and no byte of memory, no scalar register and nothing of another cluster. An STM
to memory in service that nothing refuses, in a memory without wrong symbols and with no move under way, changes
exactly the eight bytes of memory at its address, and no byte of any local buffer, no scalar register and nothing
of another cluster. -/
def Obligations.StoreFrames : Prop :=
  ∀ (g : Fin 1024) (s u : State),
    let w := s.fetchWord g
    let a := s.effAddr g w
    let v := leBytes 8 (s.sreg g (rRb w)).toNat
    s.seqPc g % 8 = 0 → s.seqPc g ≤ 0x3FFF8 →
    (Issues s g (stlOp g) → exec (.stl g) s = .next u →
      u.mem = s.mem ∧ u.upset = s.upset ∧ (∀ h, h ≠ g.val → u.cl h = s.cl h) ∧ (∀ n, u.sreg g n = s.sreg g n) ∧
      ∀ x : Nat, Sparse.get 0#8 (u.cl g).lb x = if a ≤ x ∧ x < a + 8 then v.getD (x - a) 0#8 else Sparse.get 0#8 (s.cl g).lb x) ∧
    (Issues s g (stmOp g) → s.memRange a 8 = true → s.writeStop (.tile g) (s.isWadding g) a 8 = none → s.upset = [] →
      s.tables.moves = [] → exec (.stm g) s = .next u →
      u.upset = [] ∧ (∀ h, h ≠ g.val → u.cl h = s.cl h) ∧ (u.cl g).lb = (s.cl g).lb ∧ (∀ n, u.sreg g n = s.sreg g n) ∧
      ∀ x : Nat, Sparse.get 0#8 u.mem x = if a ≤ x ∧ x < a + 8 then v.getD (x - a) 0#8 else Sparse.get 0#8 s.mem x)
end

