-- ==== Sys2Proof/Laws/Commands.lean ====
section
/-! SUPPORT. What the shared openings of commands do when their conditions hold: `runCmd` for commands of queues, `needA` and
`needMem` for their addresses, `serve` for requests of other modules. -/
namespace Sys2Proof.Laws
open Sys2Proof.Machine Sys2Proof.Safety

/-- The row of an accepted command runs its meaning. -/
theorem runCmd_of_accepted {s : State} {op q seq : Nat} {c : Cmd} (h : Accepted op q seq c s) (f : Cmd → State → State) :
    s.runCmd op q seq f = f c s := by
  obtain ⟨h1, h2, h3⟩ := h
  simp [State.runCmd, h1, h2, h3]

/-- An aligned address of the address space passes. -/
theorem needA_of_aligned {s : State} {c : Cmd} {o : Nat} (h1 : c.par o 8 % 64 = 0) (h2 : c.par o 8 < 2 ^ 43) (k : Nat → State) :
    s.needA c o k = k (c.par o 8) := by
  unfold State.needA
  rw [if_neg]
  omega

/-- A range of memory that answers passes. -/
theorem needMem_of_range {s : State} {c : Cmd} {a n : Nat} (h : s.memRange a n = true) (k : State) : s.needMem c a n k = k := by
  simp [State.needMem, h]

/-- A fresh request is served, and answered unless its answer comes later. -/
theorem serve_of_fresh {s : State} {h : FabHdr} (f : Fresh s h) (rsp : Nat) (g : State → Served) :
    s.serve h rsp g =
      let r := g (arrived s h)
      if r.later then r.st else r.st.respond h.src h.epoch h.tag rsp r.status r.unc r.payload := by
  obtain ⟨h1, h2, h3, h4, h5, h6⟩ := f
  have hr : (s.heard h.src).refuses h = none := by
    unfold State.refuses
    simp only [h2, h3, h4]
    cases hn : Sparse.get none (s.heard h.src).fab.newest h.src with
    | none => simp
    | some e => simp [h5 e hn]
  unfold State.serve
  simp only [h1, h6]
  simp [hr, State.epochSeen, arrived]
  rfl

end Sys2Proof.Laws
end

