-- ==== Sys2Proof/Laws/Sparse.lean ====
section
/-! SUPPORT. Laws of sparse tables: what a key reads as after a write, and that a write keeps the canonical form; with
them the byte tables of memories. -/
namespace Sys2Proof.Laws
open Sys2Proof.Machine

variable {V : Type}

/-! ## Read after write -/

theorem get_del_self (d : V) (m : Sparse V) (k : Nat) : Sparse.get d (Sparse.del m k) k = d := by
  induction m with
  | nil => rfl
  | cons p m ih =>
    by_cases h : p.1 = k
    · simp [Sparse.del, h, ih]
    · simp [Sparse.del, h, Sparse.get, ih]

theorem get_del_of_ne (d : V) (m : Sparse V) {k j : Nat} (h : j ≠ k) : Sparse.get d (Sparse.del m k) j = Sparse.get d m j := by
  induction m with
  | nil => rfl
  | cons p m ih =>
    by_cases e : p.1 = k
    · simp [Sparse.del, Sparse.get, ih, e, h.symm]
    · simp [Sparse.del, e, Sparse.get, ih]

theorem get_ins_self (d : V) (m : Sparse V) (k : Nat) (x : V) : Sparse.get d (Sparse.ins m k x) k = x := by
  induction m with
  | nil => simp [Sparse.ins, Sparse.get]
  | cons p m ih =>
    unfold Sparse.ins
    split
    · simp [Sparse.get]
    · split
      · simp [Sparse.get]
      · simp_all [Sparse.get]

theorem get_ins_of_ne (d : V) (m : Sparse V) {k j : Nat} (x : V) (h : j ≠ k) :
    Sparse.get d (Sparse.ins m k x) j = Sparse.get d m j := by
  induction m with
  | nil => simp [Sparse.ins, Sparse.get, h.symm]
  | cons p m ih =>
    unfold Sparse.ins
    split
    · simp [Sparse.get, h.symm]
    · split
      · simp_all [Sparse.get, h.symm]
      · simp_all [Sparse.get]

/-- Writing a key deletes or lists it. -/
theorem put_eq [DecidableEq V] (d : V) (m : Sparse V) (k : Nat) (x : V) :
    Sparse.put d m k x = if x = d then Sparse.del m k else Sparse.ins m k x := by
  cases m <;> rfl

/-- A key that was written reads as what was written. -/
@[simp] theorem get_put_self [DecidableEq V] (d : V) (m : Sparse V) (k : Nat) (x : V) : Sparse.get d (Sparse.put d m k x) k = x := by
  rw [put_eq]
  split
  · simp [get_del_self, *]
  · exact get_ins_self d m k x

/-- Another key reads as before, against any default. -/
@[simp] theorem get_put_of_ne [DecidableEq V] (d e : V) (m : Sparse V) {k j : Nat} (x : V) (h : j ≠ k) :
    Sparse.get e (Sparse.put d m k x) j = Sparse.get e m j := by
  rw [put_eq]
  split
  · exact get_del_of_ne e m h
  · exact get_ins_of_ne e m x h

/-- A write in one equation. -/
theorem get_put [DecidableEq V] (d : V) (m : Sparse V) (k j : Nat) (x : V) :
    Sparse.get d (Sparse.put d m k x) j = if j = k then x else Sparse.get d m j := by
  split
  · subst j; exact get_put_self d m k x
  · rename_i h; exact get_put_of_ne d d m x h

/-! ## The canonical form -/

theorem rising_mono {m : Sparse V} {a b : Nat} (h : a ≤ b) (r : Sparse.rising (some b) m = true) :
    Sparse.rising (some a) m = true := by
  cases m with
  | nil => rfl
  | cons p m => simp [Sparse.rising] at r ⊢; exact ⟨by omega, r.2⟩

theorem rising_none {m : Sparse V} {a : Nat} (r : Sparse.rising (some a) m = true) : Sparse.rising none m = true := by
  cases m with
  | nil => rfl
  | cons p m => simp [Sparse.rising] at r ⊢; exact r.2

theorem rising_del {m : Sparse V} {b : Option Nat} (k : Nat) (r : Sparse.rising b m = true) :
    Sparse.rising b (Sparse.del m k) = true := by
  induction m generalizing b with
  | nil => rfl
  | cons p m ih =>
    simp [Sparse.rising] at r
    by_cases e : p.1 = k
    · simp only [Sparse.del, e, if_true]
      have := ih r.2
      cases b with
      | none => exact rising_none this
      | some n => exact rising_mono (by have := r.1; simp at this; omega) this
    · simp [Sparse.del, e, Sparse.rising, r.1, ih r.2]

theorem rising_ins {m : Sparse V} {b : Option Nat} (k : Nat) (x : V) (r : Sparse.rising b m = true)
    (hb : ∀ n, b = some n → n < k) : Sparse.rising b (Sparse.ins m k x) = true := by
  induction m generalizing b with
  | nil => cases b with
    | none => rfl
    | some n => simp [Sparse.ins, Sparse.rising, hb n rfl]
  | cons p m ih =>
    simp [Sparse.rising] at r
    unfold Sparse.ins
    split
    · rename_i h
      cases b with
      | none => simp [Sparse.rising, h, r.2]
      | some n => simp [Sparse.rising, h, r.2, hb n rfl]
    · split
      · rename_i h
        rw [h] at r
        cases b with
        | none => simp [Sparse.rising, r.2]
        | some n => simp [Sparse.rising, r.2, hb n rfl]
      · rename_i h1 h2
        have := ih (b := some p.1) r.2 (by intro n e; cases e; omega)
        cases b with
        | none => simp [Sparse.rising, this]
        | some n => simp [Sparse.rising, this]; simpa using r.1

theorem mem_ins {m : Sparse V} {k : Nat} {x : V} {p : Nat × V} (h : p ∈ Sparse.ins m k x) : p = (k, x) ∨ p ∈ m := by
  induction m with
  | nil => simpa [Sparse.ins] using h
  | cons q m ih =>
    unfold Sparse.ins at h
    split at h
    · simpa using h
    · split at h
      · rcases List.mem_cons.mp h with h | h
        · exact .inl h
        · exact .inr (List.mem_cons_of_mem _ h)
      · rcases List.mem_cons.mp h with h | h
        · exact .inr (h ▸ List.mem_cons_self)
        · rcases ih h with h | h
          · exact .inl h
          · exact .inr (List.mem_cons_of_mem _ h)

theorem mem_del {m : Sparse V} {k : Nat} {p : Nat × V} (h : p ∈ Sparse.del m k) : p ∈ m := by
  induction m with
  | nil => simp [Sparse.del] at h
  | cons q m ih =>
    unfold Sparse.del at h
    split at h
    · exact List.mem_cons_of_mem _ (ih h)
    · rcases List.mem_cons.mp h with h | h
      · exact h ▸ List.mem_cons_self
      · exact List.mem_cons_of_mem _ (ih h)

/-- A write keeps the canonical form. -/
theorem wf_put [DecidableEq V] (d : Nat → V) (m : Sparse V) (k : Nat) (x : V) (h : Sparse.wf d m = true) :
    Sparse.wf d (Sparse.put (d k) m k x) = true := by
  simp only [Sparse.wf, Bool.and_eq_true, List.all_eq_true, decide_eq_true_eq] at h ⊢
  rw [put_eq]
  split
  · exact ⟨rising_del k h.1, fun p hp => h.2 p (mem_del hp)⟩
  · rename_i hx
    refine ⟨rising_ins k x h.1 (by simp), fun p hp => ?_⟩
    rcases mem_ins hp with rfl | hp
    · exact hx
    · exact h.2 p hp

/-! ## Byte tables -/

theorem wf_tablePut (m : Sparse Byte) (a : Nat) (bs : List Byte) (h : Sparse.wf (fun _ => 0#8) m = true) :
    Sparse.wf (fun _ => 0#8) (tablePut m a bs) = true := by
  induction bs generalizing m a with
  | nil => exact h
  | cons b bs ih => exact ih _ _ (wf_put (fun _ => 0#8) m a b h)

/-- A byte outside the range written reads as before. -/
theorem get_tablePut_outside (m : Sparse Byte) (a k : Nat) (bs : List Byte) (h : k < a ∨ a + bs.length ≤ k) :
    Sparse.get 0#8 (tablePut m a bs) k = Sparse.get 0#8 m k := by
  induction bs generalizing m a with
  | nil => rfl
  | cons b bs ih =>
    rw [tablePut, ih _ _ (by simp at h; omega), get_put_of_ne _ _ _ _ (by simp at h; omega)]

/-- The range written reads as the bytes written. -/
theorem tableBytes_tablePut (m : Sparse Byte) (a : Nat) (bs : List Byte) : tableBytes (tablePut m a bs) a bs.length = bs := by
  induction bs generalizing m a with
  | nil => rfl
  | cons b bs ih =>
    simp only [tablePut, List.length_cons, tableBytes, List.cons.injEq]
    exact ⟨by rw [get_tablePut_outside _ _ _ _ (by omega)]; exact get_put_self _ _ _ _, ih _ _⟩

theorem length_tableBytes (m : Sparse Byte) (a n : Nat) : (tableBytes m a n).length = n := by
  induction n generalizing a with
  | zero => rfl
  | succ n ih => simp [tableBytes, ih]

end Sys2Proof.Laws
end

