-- ==== Sys2Proof/Laws/Keeps.lean ====
section
/-! SUPPORT. What no operation breaks: the canonical forms of memory, check codes and registers, the queue of waiting
commands, the messages that have been sent, and the rollback counter. -/
namespace Sys2Proof.Laws
open Sys2Proof.Machine

/-- From `s` to `t` the canonical forms are kept, the queue of commands is unchanged, messages are only added, and the
rollback counter does not fall. -/
structure Keeps (s t : State) : Prop where
  canon : s.canon = true → t.canon = true
  pending : t.pending = s.pending
  sent : s.sent <+: t.sent
  counter : s.sec.flash.counter ≤ t.sec.flash.counter

theorem Keeps.refl (s : State) : Keeps s s := ⟨id, rfl, List.prefix_refl _, Nat.le_refl _⟩

theorem Keeps.trans {s t u : State} (h : Keeps s t) (k : Keeps t u) : Keeps s u :=
  ⟨k.canon ∘ h.canon, k.pending.trans h.pending, h.sent.trans k.sent, h.counter.trans k.counter⟩

/-- The next state of an answer keeps them. -/
structure OutKeeps (s : State) (o : Out) : Prop where
  use : ∀ t, o = .next t → Keeps s t

/-- A state that may be answered keeps them. -/
structure OptKeeps (s : State) (o : Option State) : Prop where
  use : ∀ t, o = some t → Keeps s t

variable {s0 : State}

theorem next_keeps {t : State} (h : Keeps s0 t) : OutKeeps s0 (.next t) := by
  constructor; intro u e; cases e; exact h

theorem some_keeps {t : State} (h : Keeps s0 t) : OptKeeps s0 (some t) := by
  constructor; intro u e; cases e; exact h

theorem none_keeps : OptKeeps s0 none := by constructor; intro u e; cases e

/-- A state that an option gives. -/
theorem use_some {o : Option State} {t : State} (h : OptKeeps s0 o) (e : o = some t) : Keeps s0 t := h.use t e

theorem ite_keeps {c : Prop} [Decidable c] {a b : State} (ha : Keeps s0 a) (hb : Keeps s0 b) : Keeps s0 (if c then a else b) := by
  split <;> assumption

theorem ite_out {c : Prop} [Decidable c] {a b : Out} (ha : OutKeeps s0 a) (hb : OutKeeps s0 b) :
    OutKeeps s0 (if c then a else b) := by split <;> assumption

theorem ite_opt {c : Prop} [Decidable c] {a b : Option State} (ha : OptKeeps s0 a) (hb : OptKeeps s0 b) :
    OptKeeps s0 (if c then a else b) := by split <;> assumption

theorem getD_keeps {o : Option State} {s : State} (h : OptKeeps s0 o) (k : Keeps s0 s) : Keeps s0 (o.getD s) := by
  cases o with
  | none => exact k
  | some t => exact h.use t rfl

theorem of_some {t : State} (h : OptKeeps s0 (some t)) : Keeps s0 t := h.use t rfl

/-- The state of a pair that may be answered keeps them. -/
structure PairKeeps {α : Type} (s : State) (o : Option (α × State)) : Prop where
  use : ∀ p, o = some p → Keeps s p.2

theorem somep_keeps {α : Type} {p : α × State} (h : Keeps s0 p.2) : PairKeeps s0 (some p) := by
  constructor; intro u e; cases e; exact h

theorem nonep_keeps {α : Type} : PairKeeps s0 (none : Option (α × State)) := by constructor; intro u e; cases e

theorem use_pair {α : Type} {o : Option (α × State)} {p : α × State} (h : PairKeeps s0 o) (e : o = some p) :
    Keeps s0 p.2 := h.use p e

/-- What `Keeps` says of the fields that it speaks of. -/
def FieldsKeep (s : State) (regs : Sparse Word) (mem : List Host.Cell) (upset : Sparse Nat) (pending : List Instr)
    (sent : List Msg) (counter : Nat) : Prop :=
  (s.canon = true → (Memory.wf mem && Sparse.wf (fun _ => 0) upset && Sparse.wf regDefault regs) = true) ∧
  pending = s.pending ∧ s.sent <+: sent ∧ s.sec.flash.counter ≤ counter

/-- A state written out. -/
theorem keeps_mk {re me up mc cl gu fr co ta yl rp qu ho pw se st fa ud et sent free pe} :
    Keeps s0 ⟨re, me, up, mc, cl, gu, fr, co, ta, yl, rp, qu, ho, pw, se, st, fa, ud, et, sent, free, pe⟩ ↔
      FieldsKeep s0 re me up pe sent se.flash.counter := ⟨fun h => ⟨h.1, h.2, h.3, h.4⟩, fun h => ⟨h.1, h.2.1, h.2.2.1, h.2.2.2⟩⟩

/-- The fields of a state that keeps them. -/
theorem fields_keep {s : State} (h : Keeps s0 s) : FieldsKeep s0 s.regs s.mem s.upset s.pending s.sent s.sec.flash.counter :=
  ⟨h.1, h.2, h.3, h.4⟩

/-- A part of a canonical table is canonical. -/
theorem wf_filter {V : Type} [DecidableEq V] (d : Nat → V) (f : Nat × V → Bool) (m : Sparse V) (h : Sparse.wf d m = true) :
    Sparse.wf d (m.filter f) = true := by
  simp only [Sparse.wf, Bool.and_eq_true, List.all_eq_true, decide_eq_true_eq] at h ⊢
  refine ⟨?_, fun p hp => h.2 p (List.mem_of_mem_filter hp)⟩
  have key : ∀ (m : Sparse V) (b : Option Nat), Sparse.rising b m = true → Sparse.rising b (m.filter f) = true := by
    intro m
    induction m with
    | nil => intro b _; rfl
    | cons p m ih =>
      intro b r
      simp only [Sparse.rising, Bool.and_eq_true] at r
      by_cases e : f p = true
      · simp only [List.filter, e, Sparse.rising, Bool.and_eq_true]
        exact ⟨r.1, ih _ r.2⟩
      · simp only [List.filter, e]
        have := ih _ r.2
        cases b with
        | none => exact rising_none this
        | some n => exact rising_mono (by have := r.1; simp at this; omega) this
  exact key m _ h.1

/-- The registers return to their reset values, and memory is cleared or kept. -/
theorem fields_reset {s : State} (h : Keeps s0 s) :
    FieldsKeep s0 State.reset.regs State.reset.mem State.reset.upset s.pending s.sent s.sec.flash.counter :=
  ⟨fun _ => rfl, h.2, h.3, h.4⟩

theorem fields_reset_regs {s : State} (h : Keeps s0 s) : FieldsKeep s0 State.reset.regs s.mem s.upset s.pending s.sent
    s.sec.flash.counter :=
  ⟨fun c => by
    have := h.1 c
    simp only [State.canon, Bool.and_eq_true] at this ⊢
    exact ⟨this.1, rfl⟩, h.2, h.3, h.4⟩

/-- A part of memory and of the check codes is left. -/
theorem fields_filter {s : State} {f : Host.Cell → Bool} {g : Nat × Nat → Bool} (h : Keeps s0 s) :
    FieldsKeep s0 s.regs (s.mem.filter f) (s.upset.filter g) s.pending s.sent s.sec.flash.counter :=
  ⟨fun c => by
    have := h.1 c
    simp only [State.canon, Memory.wf, Bool.and_eq_true] at this ⊢
    exact ⟨⟨wf_filter _ _ _ this.1.1, wf_filter _ _ _ this.1.2⟩, this.2⟩, h.2, h.3, h.4⟩

/-- A line's difference is written. -/
theorem fields_upset {s : State} {k x : Nat} (h : Keeps s0 s) : FieldsKeep s0 s.regs s.mem (Sparse.put 0 s.upset k x) s.pending s.sent
    s.sec.flash.counter :=
  ⟨fun c => by
    have := h.1 c
    simp only [State.canon, Memory.wf, Bool.and_eq_true] at this ⊢
    exact ⟨⟨this.1.1, wf_put (fun _ => 0) _ _ _ this.1.2⟩, this.2⟩, h.2, h.3, h.4⟩

theorem foldl_keeps {α : Type} {f : State → α → State} {l : List α} {s : State} (hf : ∀ t x, Keeps s0 t → Keeps s0 (f t x))
    (h : Keeps s0 s) : Keeps s0 (l.foldl f s) := by
  induction l generalizing s with
  | nil => exact h
  | cons x l ih => exact ih (hf s x h)

theorem foldl_opt_keeps {α : Type} {f : Option State → α → Option State} {l : List α} {o : Option State}
    (hf : ∀ o x, OptKeeps s0 o → OptKeeps s0 (f o x)) (h : OptKeeps s0 o) : OptKeeps s0 (l.foldl f o) := by
  induction l generalizing o with
  | nil => exact h
  | cons x l ih => exact ih (hf o x h)

theorem foldl_snd_keeps {α β : Type} {f : β × State → α → β × State} {l : List α} {p : β × State}
    (hf : ∀ p x, Keeps s0 p.2 → Keeps s0 (f p x).2) (h : Keeps s0 p.2) : Keeps s0 (l.foldl f p).2 := by
  induction l generalizing p with
  | nil => exact h
  | cons x l ih => exact ih (hf p x h)

theorem foldl_snd2_keeps {α β γ : Type} {f : β × γ × State → α → β × γ × State} {l : List α} {p : β × γ × State}
    (hf : ∀ p x, Keeps s0 p.2.2 → Keeps s0 (f p x).2.2) (h : Keeps s0 p.2.2) : Keeps s0 (l.foldl f p).2.2 := by
  induction l generalizing p with
  | nil => exact h
  | cons x l ih => exact ih (hf p x h)

theorem foldl_fst_keeps {α β : Type} {f : State × β → α → State × β} {l : List α} {p : State × β}
    (hf : ∀ p x, Keeps s0 p.1 → Keeps s0 (f p x).1) (h : Keeps s0 p.1) : Keeps s0 (l.foldl f p).1 := by
  induction l generalizing p with
  | nil => exact h
  | cons x l ih => exact ih (hf p x h)

theorem foldl_to_keeps {α β : Type} (π : β → State) {f : β → α → β} {l : List α} {p : β}
    (hf : ∀ p x, Keeps s0 (π p) → Keeps s0 (π (f p x))) (h : Keeps s0 (π p)) : Keeps s0 (π (l.foldl f p)) := by
  induction l generalizing p with
  | nil => exact h
  | cons x l ih => exact ih (hf p x h)

end Sys2Proof.Laws
end

