-- ==== Sys2Proof/Laws/KeepsShared.lean ====
section
/-! SUPPORT. Every operation of the shared operations keeps the canonical forms and the queue of commands. -/
set_option linter.all false
namespace Sys2Proof.Laws
open Sys2Proof.Machine

/-! ## Machine/Regs.lean -/



/-! ## Machine/Ops.lean -/

theorem wr_keeps {s0 : State} (s : State) (r : Reg) (i j : Nat) (w : Word) (h : Keeps s0 s) : Keeps s0 (s.wr r i j w) :=
  ⟨fun c => by
    have := h.canon c
    simp only [State.canon, Bool.and_eq_true] at this ⊢
    exact ⟨this.1, wf_put regDefault _ _ _ this.2⟩, h.pending, h.sent, h.counter⟩

theorem set_keeps {s0 : State} (s : State) (f : Fld) (v : Nat) (inst : Nat) (idx : Nat) (h_s : Keeps s0 s) : Keeps s0 (State.set s f v inst idx) := by
  rw [State.set.eq_def]; try dsimp only
  repeat' first
    | with_reducible assumption
    | with_reducible apply wr_keeps
    | dsimp only

theorem bump_keeps {s0 : State} (s : State) (f : Fld) (n : Nat) (inst : Nat) (idx : Nat) (h_s : Keeps s0 s) : Keeps s0 (State.bump s f n inst idx) := by
  rw [State.bump.eq_def]; try dsimp only
  repeat' first
    | with_reducible assumption
    | with_reducible apply set_keeps
    | dsimp only

theorem bumpWrap_keeps {s0 : State} (s : State) (f : Fld) (n : Nat) (inst : Nat) (idx : Nat) (h_s : Keeps s0 s) : Keeps s0 (State.bumpWrap s f n inst idx) := by
  rw [State.bumpWrap.eq_def]; try dsimp only
  repeat' first
    | with_reducible assumption
    | with_reducible apply set_keeps
    | dsimp only

theorem advanceTo_keeps {s0 : State} (s : State) (t : Nat) (h_s : Keeps s0 s) : Keeps s0 (State.advanceTo s t) := by
  rw [State.advanceTo.eq_def]; try dsimp only
  repeat' first
    | with_reducible assumption
    | intro _
    | with_reducible apply ite_keeps
    | with_reducible apply set_keeps
    | split
    | dsimp only

theorem send_keeps {s0 : State} (s : State) (m : Msg) (h : Keeps s0 s) : Keeps s0 (s.send m) :=
  ⟨h.canon, h.pending, h.sent.trans (List.prefix_append _ _), h.counter⟩

theorem sendAll_keeps {s0 : State} (s : State) (ms : List Msg) (h : Keeps s0 s) : Keeps s0 (s.sendAll ms) :=
  ⟨h.canon, h.pending, h.sent.trans (List.prefix_append _ _), h.counter⟩

theorem rawPut_keeps {s0 : State} (s : State) (a : Nat) (bs : List Byte) (h : Keeps s0 s) : Keeps s0 (s.rawPut a bs) :=
  ⟨fun c => by
    have := h.canon c
    simp only [State.canon, Memory.wf, Bool.and_eq_true] at this ⊢
    exact ⟨⟨wf_tablePut _ _ _ this.1.1, this.1.2⟩, this.2⟩, h.pending, h.sent, h.counter⟩

theorem setSlice_keeps {s0 : State} (s : State) (die : Nat) (x : Slice) (h_s : Keeps s0 s) : Keeps s0 (State.setSlice s die x) := by
  rw [State.setSlice.eq_def]; try dsimp only
  repeat' first
    | with_reducible assumption
    | with_reducible apply fields_keep
    | simp only [keeps_mk]
    | dsimp only

theorem gutDropped_keeps {s0 : State} (s : State) (die c : Nat) (h_s : Keeps s0 s) : Keeps s0 (State.gutDropped s die c) := by
  rw [State.gutDropped.eq_def]; try dsimp only
  repeat' first
    | with_reducible assumption
    | intro _
    | with_reducible apply ite_keeps
    | with_reducible apply fields_keep
    | with_reducible apply bump_keeps
    | with_reducible apply set_keeps
    | with_reducible apply setSlice_keeps
    | split
    | simp only [keeps_mk]
    | dsimp only

theorem intake_keeps {s0 : State} (s : State) (die : Nat) (r : GRec) (h_s : Keeps s0 s) : Keeps s0 (State.intake s die r).2 := by
  rw [State.intake.eq_def]; try dsimp only
  repeat' first
    | with_reducible assumption
    | intro _
    | with_reducible apply ite_keeps
    | with_reducible apply ite_opt
    | with_reducible apply some_keeps
    | with_reducible apply none_keeps
    | with_reducible apply fields_keep
    | with_reducible apply bump_keeps
    | with_reducible apply gutDropped_keeps
    | with_reducible apply setSlice_keeps
    | with_reducible apply getD_keeps
    | with_reducible refine use_some ?_ (by with_reducible assumption)
    | split
    | simp only [keeps_mk]
    | dsimp only

theorem dropReport_keeps {s0 : State} (s : State) (die : Nat) (h_s : Keeps s0 s) : Keeps s0 (State.dropReport s die) := by
  rw [State.dropReport.eq_def]; try dsimp only
  repeat' first
    | with_reducible assumption
    | intro _
    | with_reducible apply ite_keeps
    | with_reducible apply ite_opt
    | with_reducible apply some_keeps
    | with_reducible apply fields_keep
    | with_reducible apply intake_keeps
    | with_reducible apply setSlice_keeps
    | with_reducible refine use_some ?_ (by with_reducible assumption)
    | split
    | simp only [keeps_mk]
    | dsimp only

theorem takeToken_keeps {s0 : State} (s : State) (die code : Nat) (h_s : Keeps s0 s) : OptKeeps s0 (State.takeToken s die code) := by
  rw [State.takeToken.eq_def]; try dsimp only
  repeat' first
    | with_reducible assumption
    | intro _
    | with_reducible apply ite_keeps
    | with_reducible apply ite_opt
    | with_reducible apply some_keeps
    | with_reducible apply none_keeps
    | with_reducible apply fields_keep
    | with_reducible apply setSlice_keeps
    | with_reducible refine use_some ?_ (by with_reducible assumption)
    | split
    | simp only [keeps_mk]
    | dsimp only

theorem raise_keeps {s0 : State} (s : State) (die code payload : Nat) (h_s : Keeps s0 s) : Keeps s0 (State.raise s die code payload) := by
  rw [State.raise.eq_def]; try dsimp only
  repeat' first
    | with_reducible assumption
    | intro _
    | with_reducible apply ite_keeps
    | with_reducible apply ite_opt
    | with_reducible apply some_keeps
    | with_reducible apply none_keeps
    | with_reducible apply fields_keep
    | with_reducible apply bump_keeps
    | with_reducible apply dropReport_keeps
    | with_reducible apply intake_keeps
    | with_reducible apply takeToken_keeps
    | with_reducible refine use_some ?_ (by with_reducible assumption)
    | split
    | simp only [keeps_mk]
    | dsimp only

theorem ledSet_keeps {s0 : State} (s : State) (f : LFld) (v : Nat) (h_s : Keeps s0 s) : Keeps s0 (State.ledSet s f v) := by
  rw [State.ledSet.eq_def]; try dsimp only
  repeat' first
    | with_reducible assumption
    | with_reducible apply fields_keep
    | simp only [keeps_mk]
    | dsimp only

theorem ledBump_keeps {s0 : State} (s : State) (f : LFld) (n : Nat) (h_s : Keeps s0 s) : Keeps s0 (State.ledBump s f n) := by
  rw [State.ledBump.eq_def]; try dsimp only
  repeat' first
    | with_reducible assumption
    | intro _
    | with_reducible apply ite_keeps
    | with_reducible apply ledSet_keeps
    | split
    | dsimp only

theorem cause_keeps {s0 : State} (s : State) (b : Nat) (h_s : Keeps s0 s) : Keeps s0 (State.cause s b) := by
  rw [State.cause.eq_def]; try dsimp only
  repeat' first
    | with_reducible assumption
    | with_reducible apply ledSet_keeps
    | split
    | dsimp only

theorem markLive_keeps {s0 : State} (s : State) (b : Nat) (h_s : Keeps s0 s) : Keeps s0 (State.markLive s b) := by
  rw [State.markLive.eq_def]; try dsimp only
  repeat' first
    | with_reducible assumption
    | intro _
    | with_reducible apply ite_keeps
    | with_reducible apply cause_keeps
    | split
    | dsimp only

theorem setRegBit_keeps {s0 : State} (s : State) (reg : Reg) (r : Nat) (b : Bool) (h_s : Keeps s0 s) : Keeps s0 (State.setRegBit s reg r b) := by
  rw [State.setRegBit.eq_def]; try dsimp only
  repeat' first
    | with_reducible assumption
    | intro _
    | with_reducible apply ite_keeps
    | with_reducible apply wr_keeps
    | split
    | dsimp only

theorem invalidate_keeps {s0 : State} (s : State) (r : Nat) (h_s : Keeps s0 s) : Keeps s0 (State.invalidate s r) := by
  rw [State.invalidate.eq_def]; try dsimp only
  repeat' first
    | with_reducible assumption
    | intro _
    | with_reducible apply ite_keeps
    | with_reducible apply setRegBit_keeps
    | with_reducible apply wr_keeps
    | split
    | dsimp only

theorem digestWrite_keeps {s0 : State} (s : State) (ln : Nat) (old new : List Byte) (h_s : Keeps s0 s) : Keeps s0 (State.digestWrite s ln old new) := by
  rw [State.digestWrite.eq_def]; try dsimp only
  repeat' first
    | with_reducible assumption
    | intro _
    | with_reducible apply ite_keeps
    | with_reducible apply wr_keeps
    | split
    | dsimp only

theorem logError_keeps {s0 : State} (s : State) (ctl ch ln : Nat) (scrub : Bool) (fix : List (Nat × Nat)) (unc : Bool) (h_s : Keeps s0 s) : Keeps s0 (State.logError s ctl ch ln scrub fix unc) := by
  rw [State.logError.eq_def]; try dsimp only
  repeat' first
    | with_reducible assumption
    | intro _
    | with_reducible apply ite_keeps
    | with_reducible apply wr_keeps
    | with_reducible apply getD_keeps
    | split
    | dsimp only

theorem corrected_keeps {s0 : State} (s : State) (who : Req) (ln : Nat) (fix : List (Nat × Nat)) (h_s : Keeps s0 s) : Keeps s0 (State.corrected s who ln fix) := by
  rw [State.corrected.eq_def]; try dsimp only
  repeat' first
    | with_reducible assumption
    | intro _
    | with_reducible apply ite_keeps
    | with_reducible apply fields_keep
    | with_reducible apply fields_upset
    | with_reducible apply bump_keeps
    | with_reducible apply ledBump_keeps
    | with_reducible apply logError_keeps
    | with_reducible apply raise_keeps
    | with_reducible apply set_keeps
    | split
    | simp only [keeps_mk]
    | dsimp only

theorem uncorrected_keeps {s0 : State} (s : State) (who : Req) (ln : Nat) (h_s : Keeps s0 s) : Keeps s0 (State.uncorrected s who ln) := by
  rw [State.uncorrected.eq_def]; try dsimp only
  repeat' first
    | with_reducible assumption
    | intro _
    | with_reducible apply ite_keeps
    | with_reducible apply bump_keeps
    | with_reducible apply ledBump_keeps
    | with_reducible apply logError_keeps
    | with_reducible apply markLive_keeps
    | with_reducible apply raise_keeps
    | with_reducible apply set_keeps
    | split
    | dsimp only

theorem readLine_keeps {s0 : State} (s : State) (who : Req) (ln : Nat) (h_s : Keeps s0 s) : Keeps s0 (State.readLine s who ln).st := by
  rw [State.readLine.eq_def]; try dsimp only
  repeat' first
    | with_reducible assumption
    | intro _
    | with_reducible apply fields_keep
    | with_reducible apply fields_upset
    | with_reducible apply corrected_keeps
    | with_reducible apply uncorrected_keeps
    | split
    | simp only [keeps_mk]
    | dsimp only

theorem storeLine_keeps {s0 : State} (s : State) (ln : Nat) (bs : List Byte) (h : Keeps s0 s) : Keeps s0 (s.storeLine ln bs) := by
  have k := rawPut_keeps s (ln * 64) bs h
  refine ⟨fun c => ?_, k.pending, k.sent, k.counter⟩
  have := k.canon c
  simp only [State.canon, Bool.and_eq_true] at this ⊢
  exact ⟨⟨this.1.1, wf_put (fun _ => 0) _ _ _ this.1.2⟩, this.2⟩

theorem writeLineAt_keeps {s0 : State} (s : State) (ln : Nat) (bs : List Byte) (h_s : Keeps s0 s) : Keeps s0 (State.writeLineAt s ln bs) := by
  rw [State.writeLineAt.eq_def]; try dsimp only
  repeat' first
    | with_reducible assumption
    | intro _
    | with_reducible apply ite_keeps
    | with_reducible apply digestWrite_keeps
    | with_reducible apply invalidate_keeps
    | with_reducible apply readLine_keeps
    | with_reducible apply storeLine_keeps
    | split
    | dsimp only

theorem writePartAt_keeps {s0 : State} (s : State) (ln off : Nat) (bs : List Byte) (h_s : Keeps s0 s) : Keeps s0 (State.writePartAt s ln off bs) := by
  rw [State.writePartAt.eq_def]; try dsimp only
  repeat' first
    | with_reducible assumption
    | intro _
    | with_reducible apply ite_keeps
    | with_reducible apply digestWrite_keeps
    | with_reducible apply invalidate_keeps
    | with_reducible apply raise_keeps
    | with_reducible apply readLine_keeps
    | with_reducible apply set_keeps
    | with_reducible apply storeLine_keeps
    | split
    | dsimp only

theorem writeIn_keeps {s0 : State} (s : State) (ln off : Nat) (bs : List Byte) (h_s : Keeps s0 s) : Keeps s0 (State.writeIn s ln off bs) := by
  rw [State.writeIn.eq_def]; try dsimp only
  repeat' first
    | with_reducible assumption
    | intro _
    | with_reducible apply ite_keeps
    | with_reducible apply writeLineAt_keeps
    | with_reducible apply writePartAt_keeps
    | split
    | dsimp only

theorem noteDirty_keeps {s0 : State} (s : State) (ln : Nat) (h_s : Keeps s0 s) : Keeps s0 (State.noteDirty s ln) := by
  rw [State.noteDirty.eq_def]; try dsimp only
  repeat' first
    | with_reducible assumption
    | intro _
    | with_reducible apply ite_keeps
    | with_reducible apply fields_keep
    | split
    | simp only [keeps_mk]
    | dsimp only

theorem forwardOut_keeps {s0 : State} (s : State) (ln off : Nat) (bs : List Byte) (h_s : Keeps s0 s) : Keeps s0 (State.forwardOut s ln off bs) := by
  rw [State.forwardOut.eq_def]; try dsimp only
  repeat' first
    | with_reducible assumption
    | intro _
    | with_reducible apply some_keeps
    | with_reducible apply none_keeps
    | with_reducible apply fields_keep
    | with_reducible apply getD_keeps
    | with_reducible refine use_some ?_ (by with_reducible assumption)
    | split
    | simp only [keeps_mk]
    | dsimp only

theorem writeLine_keeps {s0 : State} (s : State) (ln off : Nat) (bs : List Byte) (h_s : Keeps s0 s) : Keeps s0 (State.writeLine s ln off bs) := by
  rw [State.writeLine.eq_def]; try dsimp only
  repeat' first
    | with_reducible assumption
    | intro _
    | with_reducible apply forwardOut_keeps
    | with_reducible apply noteDirty_keeps
    | with_reducible apply writeIn_keeps
    | with_reducible apply foldl_keeps
    | with_reducible apply foldl_snd_keeps
    | with_reducible apply foldl_fst_keeps
    | dsimp only

theorem writeLines_keeps {s0 : State} (n : Nat) (s : State) (a : Nat) (bs : List Byte) (h : Keeps s0 s) :
    Keeps s0 (writeLines n s a bs) := by
  induction n generalizing s a bs with
  | zero => exact h
  | succ n ih =>
    unfold writeLines
    split
    · exact h
    · exact ih _ _ _ (writeLine_keeps _ _ _ _ h)

theorem writeMem_keeps {s0 : State} (s : State) (a : Nat) (bs : List Byte) (h_s : Keeps s0 s) : Keeps s0 (State.writeMem s a bs) := by
  rw [State.writeMem.eq_def]; try dsimp only
  repeat' first
    | with_reducible assumption
    | with_reducible apply writeLines_keeps
    | dsimp only

theorem readLines_keeps {s0 : State} (who : Req) (n : Nat) (s : State) (a m : Nat) (h : Keeps s0 s) :
    Keeps s0 (readLines who n s a m).st := by
  induction n generalizing s a m with
  | zero => exact h
  | succ n ih =>
    unfold readLines
    split
    · exact h
    · exact ih _ _ _ (readLine_keeps _ _ _ h)

theorem readMem_keeps {s0 : State} (s : State) (who : Req) (a n : Nat) (h_s : Keeps s0 s) : Keeps s0 (State.readMem s who a n).st := by
  rw [State.readMem.eq_def]; try dsimp only
  repeat' first
    | with_reducible assumption
    | with_reducible apply readLines_keeps
    | dsimp only

theorem noteExternal_keeps {s0 : State} (s : State) (src dev a n : Nat) (h_s : Keeps s0 s) : Keeps s0 (State.noteExternal s src dev a n) := by
  rw [State.noteExternal.eq_def]; try dsimp only
  repeat' first
    | with_reducible assumption
    | intro _
    | with_reducible apply ite_keeps
    | with_reducible apply fields_keep
    | with_reducible apply cause_keeps
    | split
    | simp only [keeps_mk]
    | dsimp only

theorem noteWriter_keeps {s0 : State} (s : State) (w : Writer) (a n : Nat) (h_s : Keeps s0 s) : Keeps s0 (State.noteWriter s w a n) := by
  rw [State.noteWriter.eq_def]; try dsimp only
  repeat' first
    | with_reducible assumption
    | intro _
    | with_reducible apply ite_keeps
    | with_reducible apply ite_opt
    | with_reducible apply some_keeps
    | with_reducible apply none_keeps
    | with_reducible apply fields_keep
    | with_reducible apply noteExternal_keeps
    | with_reducible refine use_some ?_ (by with_reducible assumption)
    | split
    | simp only [keeps_mk]
    | dsimp only

/-! ## Machine/Operands.lean -/

theorem noteDone_keeps {s0 : State} (s : State) (x : Bool × Nat) (h_s : Keeps s0 s) : Keeps s0 (State.noteDone s x) := by
  rw [State.noteDone.eq_def]; try dsimp only
  repeat' first
    | with_reducible assumption
    | intro _
    | with_reducible apply ite_keeps
    | with_reducible apply ite_opt
    | with_reducible apply some_keeps
    | with_reducible apply fields_keep
    | with_reducible refine use_some ?_ (by with_reducible assumption)
    | split
    | simp only [keeps_mk]
    | dsimp only

theorem syncInflight_keeps {s0 : State} (s : State) (q : Nat) (h_s : Keeps s0 s) : Keeps s0 (State.syncInflight s q) := by
  rw [State.syncInflight.eq_def]; try dsimp only
  repeat' first
    | with_reducible assumption
    | with_reducible apply set_keeps
    | dsimp only

theorem setInflight_keeps {s0 : State} (s : State) (l : List Cmd) (h_s : Keeps s0 s) : Keeps s0 (State.setInflight s l) := by
  rw [State.setInflight.eq_def]; try dsimp only
  repeat' first
    | with_reducible assumption
    | with_reducible apply fields_keep
    | simp only [keeps_mk]
    | dsimp only

theorem putCmd_keeps {s0 : State} (s : State) (c : Cmd) (h_s : Keeps s0 s) : Keeps s0 (State.putCmd s c) := by
  rw [State.putCmd.eq_def]; try dsimp only
  repeat' first
    | with_reducible assumption
    | intro _
    | with_reducible apply ite_keeps
    | with_reducible apply setInflight_keeps
    | split
    | dsimp only

theorem cmdWaits_keeps {s0 : State} (s : State) (c : Cmd) (aux : List Nat) (h_s : Keeps s0 s) : Keeps s0 (State.cmdWaits s c aux) := by
  rw [State.cmdWaits.eq_def]; try dsimp only
  repeat' first
    | with_reducible assumption
    | with_reducible apply fields_keep
    | with_reducible apply putCmd_keeps
    | simp only [keeps_mk]
    | dsimp only

theorem completeFull_keeps {s0 : State} (s : State) (c : Cmd) (status detail result : Nat) (written : Bool) (h_s : Keeps s0 s) : Keeps s0 (State.completeFull s c status detail result written) := by
  rw [State.completeFull.eq_def]; try dsimp only
  repeat' first
    | with_reducible assumption
    | intro _
    | with_reducible apply ite_keeps
    | with_reducible apply ite_opt
    | with_reducible apply none_keeps
    | with_reducible apply fields_keep
    | with_reducible apply bump_keeps
    | with_reducible apply detail_keeps
    | with_reducible apply noteDone_keeps
    | with_reducible apply set_keeps
    | with_reducible apply setInflight_keeps
    | with_reducible apply syncInflight_keeps
    | split
    | simp only [keeps_mk]
    | dsimp only

theorem complete_keeps {s0 : State} (s : State) (c : Cmd) (status detail result : Nat) (h_s : Keeps s0 s) : Keeps s0 (State.complete s c status detail result) := by
  rw [State.complete.eq_def]; try dsimp only
  repeat' first
    | with_reducible assumption
    | with_reducible apply completeFull_keeps
    | with_reducible apply detail_keeps
    | dsimp only

theorem succeed_keeps {s0 : State} (s : State) (c : Cmd) (result : Nat) (h_s : Keeps s0 s) : Keeps s0 (State.succeed s c result) := by
  rw [State.succeed.eq_def]; try dsimp only
  repeat' first
    | with_reducible assumption
    | with_reducible apply complete_keeps
    | dsimp only

theorem fail_keeps {s0 : State} (s : State) (c : Cmd) (status detail : Nat) (h_s : Keeps s0 s) : Keeps s0 (State.fail s c status detail) := by
  rw [State.fail.eq_def]; try dsimp only
  repeat' first
    | with_reducible assumption
    | with_reducible apply complete_keeps
    | with_reducible apply detail_keeps
    | dsimp only

theorem runCmd_keeps {s0 : State} (s : State) (op q seq : Nat) (f : Cmd → State → State) (h_s : Keeps s0 s) (h_f : ∀ (y0 : Cmd) (y1 : State), Keeps s0 y1 → Keeps s0 (f y0 y1)) : Keeps s0 (State.runCmd s op q seq f) := by
  rw [State.runCmd.eq_def]; try dsimp only
  repeat' first
    | with_reducible assumption
    | intro _
    | with_reducible apply ite_keeps
    | with_reducible apply ite_opt
    | with_reducible apply some_keeps
    | with_reducible apply none_keeps
    | with_reducible apply fields_keep
    | with_reducible apply h_f
    | with_reducible refine use_some ?_ (by with_reducible assumption)
    | split
    | simp only [keeps_mk]
    | dsimp only

theorem withWaiting_keeps {s0 : State} (s : State) (qs : Option (Nat × Nat)) (f : Cmd → State → State) (h_s : Keeps s0 s) (h_f : ∀ (y0 : Cmd) (y1 : State), Keeps s0 y1 → Keeps s0 (f y0 y1)) : Keeps s0 (State.withWaiting s qs f) := by
  rw [State.withWaiting.eq_def]; try dsimp only
  repeat' first
    | with_reducible assumption
    | intro _
    | with_reducible apply some_keeps
    | with_reducible apply none_keeps
    | with_reducible apply fields_keep
    | with_reducible apply h_f
    | with_reducible refine use_some ?_ (by with_reducible assumption)
    | split
    | simp only [keeps_mk]
    | dsimp only

theorem completeAll_keeps {s0 : State} (s : State) (p : Cmd → Bool) (status detail : Nat) (h_s : Keeps s0 s) : Keeps s0 (State.completeAll s p status detail) := by
  rw [State.completeAll.eq_def]; try dsimp only
  repeat' first
    | with_reducible assumption
    | intro _
    | with_reducible apply detail_keeps
    | with_reducible apply fail_keeps
    | with_reducible apply foldl_keeps
    | with_reducible apply foldl_snd_keeps
    | with_reducible apply foldl_fst_keeps
    | dsimp only

theorem needA_keeps {s0 : State} (s : State) (c : Cmd) (o : Nat) (k : Nat → State) (h_s : Keeps s0 s) (h_k : ∀ (y0 : Nat), Keeps s0 (k y0)) : Keeps s0 (State.needA s c o k) := by
  rw [State.needA.eq_def]; try dsimp only
  repeat' first
    | with_reducible assumption
    | intro _
    | with_reducible apply ite_keeps
    | with_reducible apply fail_keeps
    | with_reducible apply h_k
    | split
    | dsimp only

theorem needMem_keeps {s0 : State} (s : State) (c : Cmd) (a n : Nat) (k : State) (h_s : Keeps s0 s) (h_k : Keeps s0 k) : Keeps s0 (State.needMem s c a n k) := by
  rw [State.needMem.eq_def]; try dsimp only
  repeat' first
    | with_reducible assumption
    | intro _
    | with_reducible apply ite_keeps
    | with_reducible apply fail_keeps
    | with_reducible apply raise_keeps
    | split
    | dsimp only

theorem putOutput_keeps {s0 : State} (s : State) (c : Cmd) (a : Nat) (bs : List Byte) (k : State → State) (h_s : Keeps s0 s) (h_k : ∀ (y0 : State), Keeps s0 y0 → Keeps s0 (k y0)) : Keeps s0 (State.putOutput s c a bs k) := by
  rw [State.putOutput.eq_def]; try dsimp only
  repeat' first
    | with_reducible assumption
    | intro _
    | with_reducible apply some_keeps
    | with_reducible apply none_keeps
    | with_reducible apply fields_keep
    | with_reducible apply fail_keeps
    | with_reducible apply needMem_keeps
    | with_reducible apply noteWriter_keeps
    | with_reducible apply writeMem_keeps
    | with_reducible apply h_k
    | with_reducible refine use_some ?_ (by with_reducible assumption)
    | split
    | simp only [keeps_mk]
    | dsimp only

theorem hostWrites_keeps {s0 : State} (x0 : Nat) (x1 : State) (x2 : Nat) (x3 : Nat) (x4 : List Byte) (h_x1 : Keeps s0 x1) : Keeps s0 (hostWrites x0 x1 x2 x3 x4) := by
  induction x0 generalizing x1 x2 x3 x4 with
  | zero =>
    rw [hostWrites.eq_def]; try dsimp only
    repeat' first
      | with_reducible assumption
      | intro _
      | with_reducible apply ite_keeps
      | with_reducible apply bump_keeps
      | with_reducible apply send_keeps
      | with_reducible apply take_keeps
      | with_reducible apply ih
      | split
      | dsimp only
  | succ n ih =>
    rw [hostWrites.eq_def]; try dsimp only
    repeat' first
      | with_reducible assumption
      | intro _
      | with_reducible apply ite_keeps
      | with_reducible apply bump_keeps
      | with_reducible apply send_keeps
      | with_reducible apply take_keeps
      | with_reducible apply ih
      | split
      | dsimp only

theorem hostWrite_keeps {s0 : State} (s : State) (q a : Nat) (bs : List Byte) (h_s : Keeps s0 s) : Keeps s0 (State.hostWrite s q a bs) := by
  rw [State.hostWrite.eq_def]; try dsimp only
  repeat' first
    | with_reducible assumption
    | with_reducible apply hostWrites_keeps
    | dsimp only

theorem msix_keeps {s0 : State} (s : State) (v : Nat) (h_s : Keeps s0 s) : Keeps s0 (State.msix s v) := by
  rw [State.msix.eq_def]; try dsimp only
  repeat' first
    | with_reducible assumption
    | intro _
    | with_reducible apply ite_keeps
    | with_reducible apply fields_keep
    | with_reducible apply send_keeps
    | split
    | simp only [keeps_mk]
    | dsimp only

/-! ## Machine/Flags.lean -/

theorem layerBump_keeps {s0 : State} (s : State) (layer : Nat) (f : LFld) (n : Nat) (h_s : Keeps s0 s) : Keeps s0 (State.layerBump s layer f n) := by
  rw [State.layerBump.eq_def]; try dsimp only
  repeat' first
    | with_reducible assumption
    | intro _
    | with_reducible apply ite_keeps
    | with_reducible apply fields_keep
    | split
    | simp only [keeps_mk]
    | dsimp only

theorem counterAdd_keeps {s0 : State} (s : State) (a n : Nat) (h_s : Keeps s0 s) : Keeps s0 (State.counterAdd s a n) := by
  rw [State.counterAdd.eq_def]; try dsimp only
  repeat' first
    | with_reducible assumption
    | intro _
    | with_reducible apply ite_keeps
    | with_reducible apply readMem_keeps
    | with_reducible apply writeMem_keeps
    | split
    | dsimp only

theorem entryAdd_keeps {s0 : State} (s : State) (tid : Nat) (c : EvCount) (h_s : Keeps s0 s) : Keeps s0 (State.entryAdd s tid c) := by
  rw [State.entryAdd.eq_def]; try dsimp only
  repeat' first
    | with_reducible assumption
    | intro _
    | with_reducible apply ite_keeps
    | with_reducible apply ite_opt
    | with_reducible apply some_keeps
    | with_reducible apply none_keeps
    | with_reducible apply fields_keep
    | with_reducible apply counterAdd_keeps
    | with_reducible apply raise_keeps
    | with_reducible refine use_some ?_ (by with_reducible assumption)
    | split
    | simp only [keeps_mk]
    | dsimp only

theorem countEvents_keeps {s0 : State} (s : State) (q tid : Nat) (c : EvCount) (h_s : Keeps s0 s) : Keeps s0 (State.countEvents s q tid c) := by
  rw [State.countEvents.eq_def]; try dsimp only
  repeat' first
    | with_reducible assumption
    | intro _
    | with_reducible apply ite_keeps
    | with_reducible apply bump_keeps
    | with_reducible apply entryAdd_keeps
    | with_reducible apply layerBump_keeps
    | with_reducible apply ledBump_keeps
    | split
    | dsimp only

/-! ## Machine/FabricOps.lean -/

theorem setCourse_keeps {s0 : State} (s : State) (c : Course) (h_s : Keeps s0 s) : Keeps s0 (State.setCourse s c) := by
  rw [State.setCourse.eq_def]; try dsimp only
  repeat' first
    | with_reducible assumption
    | with_reducible apply fields_keep
    | simp only [keeps_mk]
    | dsimp only

theorem act_keeps {s0 : State} (s : State) (q k n : Nat) (h_s : Keeps s0 s) : Keeps s0 (State.act s q k n) := by
  rw [State.act.eq_def]; try dsimp only
  repeat' first
    | with_reducible assumption
    | intro _
    | with_reducible apply ite_keeps
    | with_reducible apply fields_keep
    | split
    | simp only [keeps_mk]
    | dsimp only

theorem actMem_keeps {s0 : State} (s : State) (q a n : Nat) (h_s : Keeps s0 s) : Keeps s0 (State.actMem s q a n) := by
  rw [State.actMem.eq_def]; try dsimp only
  repeat' first
    | with_reducible assumption
    | intro _
    | with_reducible apply ite_keeps
    | with_reducible apply act_keeps
    | split
    | dsimp only

theorem updFab_keeps {s0 : State} (s : State) (f : Fab → Fab) (h_s : Keeps s0 s) : Keeps s0 (State.updFab s f) := by
  rw [State.updFab.eq_def]; try dsimp only
  repeat' first
    | with_reducible assumption
    | with_reducible apply fields_keep
    | simp only [keeps_mk]
    | dsimp only

theorem syncLevels_keeps {s0 : State} (s : State) (h_s : Keeps s0 s) : Keeps s0 (State.syncLevels s) := by
  rw [State.syncLevels.eq_def]; try dsimp only
  repeat' first
    | with_reducible assumption
    | intro _
    | with_reducible apply set_keeps
    | with_reducible apply foldl_keeps
    | with_reducible apply foldl_snd_keeps
    | with_reducible apply foldl_fst_keeps
    | dsimp only

theorem pickPort_keeps {s0 : State} (s : State) (d op addr : Nat) (h_s : Keeps s0 s) : Keeps s0 (State.pickPort s d op addr).2 := by
  rw [State.pickPort.eq_def]; try dsimp only
  repeat' first
    | with_reducible assumption
    | intro _
    | with_reducible apply ite_keeps
    | with_reducible apply ite_opt
    | with_reducible apply some_keeps
    | with_reducible apply none_keeps
    | with_reducible apply fields_keep
    | with_reducible apply updFab_keeps
    | with_reducible refine use_some ?_ (by with_reducible assumption)
    | split
    | simp only [keeps_mk]
    | dsimp only

theorem sendFlits_keeps {s0 : State} (s : State) (q p vc : Nat) (bytes : List Byte) (m : Msg) (h_s : Keeps s0 s) : Keeps s0 (State.sendFlits s q p vc bytes m) := by
  rw [State.sendFlits.eq_def]; try dsimp only
  repeat' first
    | with_reducible assumption
    | intro _
    | with_reducible apply fields_keep
    | with_reducible apply act_keeps
    | with_reducible apply bump_keeps
    | with_reducible apply send_keeps
    | with_reducible apply updFab_keeps
    | with_reducible apply foldl_keeps
    | with_reducible apply foldl_snd_keeps
    | with_reducible apply foldl_fst_keeps
    | simp only [keeps_mk]
    | dsimp only

theorem sendReq_keeps {s0 : State} (s : State) (q p op : Nat) (h : FabHdr) (len addr : Nat) (payload : List Byte) (h_s : Keeps s0 s) : Keeps s0 (State.sendReq s q p op h len addr payload) := by
  rw [State.sendReq.eq_def]; try dsimp only
  repeat' first
    | with_reducible assumption
    | with_reducible apply sendFlits_keeps
    | dsimp only

theorem sendAns_keeps {s0 : State} (s : State) (p op status : Nat) (unc : Bool) (dst tag : Nat) (payload : List Byte) (h_s : Keeps s0 s) : Keeps s0 (State.sendAns s p op status unc dst tag payload) := by
  rw [State.sendAns.eq_def]; try dsimp only
  repeat' first
    | with_reducible assumption
    | with_reducible apply sendFlits_keeps
    | dsimp only

theorem writeDevnum_keeps {s0 : State} (s : State) (die : Nat) (w : Word) (h_s : Keeps s0 s) : Keeps s0 (State.writeDevnum s die w) := by
  rw [State.writeDevnum.eq_def]; try dsimp only
  repeat' first
    | with_reducible assumption
    | intro _
    | with_reducible apply ite_keeps
    | with_reducible apply raise_keeps
    | with_reducible apply set_keeps
    | split
    | dsimp only

theorem resendRows_keeps {s0 : State} (s : State) (h : Hop) (p : Nat) (h_s : Keeps s0 s) : Keeps s0 (State.resendRows s h p) := by
  rw [State.resendRows.eq_def]; try dsimp only
  repeat' first
    | with_reducible assumption
    | intro _
    | with_reducible apply ite_keeps
    | with_reducible apply fields_keep
    | with_reducible apply sendReq_keeps
    | with_reducible apply updFab_keeps
    | with_reducible apply foldl_keeps
    | with_reducible apply foldl_snd_keeps
    | with_reducible apply foldl_fst_keeps
    | split
    | simp only [keeps_mk]
    | dsimp only

theorem rehop_keeps {s0 : State} (s : State) (h_s : Keeps s0 s) : Keeps s0 (State.rehop s) := by
  rw [State.rehop.eq_def]; try dsimp only
  repeat' first
    | with_reducible assumption
    | intro _
    | with_reducible apply ite_keeps
    | with_reducible apply ite_opt
    | with_reducible apply some_keeps
    | with_reducible apply none_keeps
    | with_reducible apply fields_keep
    | with_reducible apply resendRows_keeps
    | with_reducible apply updFab_keeps
    | with_reducible apply foldl_keeps
    | with_reducible apply foldl_snd_keeps
    | with_reducible apply foldl_fst_keeps
    | with_reducible refine use_some ?_ (by with_reducible assumption)
    | split
    | simp only [keeps_mk]
    | dsimp only

theorem linkDown_keeps {s0 : State} (s : State) (p : Nat) (h_s : Keeps s0 s) : Keeps s0 (State.linkDown s p) := by
  rw [State.linkDown.eq_def]; try dsimp only
  repeat' first
    | with_reducible assumption
    | intro _
    | with_reducible apply ite_keeps
    | with_reducible apply fields_keep
    | with_reducible apply bump_keeps
    | with_reducible apply rehop_keeps
    | with_reducible apply set_keeps
    | with_reducible apply syncLevels_keeps
    | with_reducible apply updFab_keeps
    | with_reducible apply foldl_keeps
    | with_reducible apply foldl_snd_keeps
    | with_reducible apply foldl_fst_keeps
    | split
    | simp only [keeps_mk]
    | dsimp only

theorem writePctrl_keeps {s0 : State} (s : State) (p : Nat) (w : Word) (h_s : Keeps s0 s) : Keeps s0 (State.writePctrl s p w) := by
  rw [State.writePctrl.eq_def]; try dsimp only
  repeat' first
    | with_reducible assumption
    | intro _
    | with_reducible apply ite_keeps
    | with_reducible apply linkDown_keeps
    | with_reducible apply set_keeps
    | split
    | dsimp only

theorem writeJflCfg_keeps {s0 : State} (s : State) (w : Word) (h_s : Keeps s0 s) : Keeps s0 (State.writeJflCfg s w) := by
  rw [State.writeJflCfg.eq_def]; try dsimp only
  repeat' first
    | with_reducible assumption
    | intro _
    | with_reducible apply ite_keeps
    | with_reducible apply set_keeps
    | split
    | dsimp only

theorem clearLost_keeps {s0 : State} (s : State) (w : Nat) (mask : Word) (h_s : Keeps s0 s) : Keeps s0 (State.clearLost s w mask) := by
  rw [State.clearLost.eq_def]; try dsimp only
  repeat' first
    | with_reducible assumption
    | intro _
    | with_reducible apply ite_keeps
    | with_reducible apply ite_opt
    | with_reducible apply none_keeps
    | with_reducible apply fields_keep
    | with_reducible apply updFab_keeps
    | with_reducible apply wr_keeps
    | with_reducible apply foldl_keeps
    | with_reducible apply foldl_snd_keeps
    | with_reducible apply foldl_fst_keeps
    | split
    | simp only [keeps_mk]
    | dsimp only

theorem nextTag_keeps {s0 : State} (s : State) (h_s : Keeps s0 s) : Keeps s0 (State.nextTag s) := by
  rw [State.nextTag.eq_def]; try dsimp only
  repeat' first
    | with_reducible assumption
    | intro _
    | with_reducible apply fields_keep
    | with_reducible apply updFab_keeps
    | simp only [keeps_mk]
    | dsimp only

theorem emit_keeps {s0 : State} (s : State) (r : FabReq) (h_s : Keeps s0 s) : Keeps s0 (State.emit s r) := by
  rw [State.emit.eq_def]; try dsimp only
  repeat' first
    | with_reducible assumption
    | intro _
    | with_reducible apply ite_keeps
    | with_reducible apply sendReq_keeps
    | split
    | dsimp only

theorem request_keeps {s0 : State} (s : State) (q dev op addr len : Nat) (payload : List Byte) (owner : FabOwner) (plan : Nat) (wad : Bool) (h_s : Keeps s0 s) : Keeps s0 (State.request s q dev op addr len payload owner plan wad).2 := by
  rw [State.request.eq_def]; try dsimp only
  repeat' first
    | with_reducible assumption
    | intro _
    | with_reducible apply ite_keeps
    | with_reducible apply ite_opt
    | with_reducible apply some_keeps
    | with_reducible apply none_keeps
    | with_reducible apply fields_keep
    | with_reducible apply emit_keeps
    | with_reducible apply nextTag_keeps
    | with_reducible apply pickPort_keeps
    | with_reducible apply set_keeps
    | with_reducible apply updFab_keeps
    | with_reducible apply getD_keeps
    | with_reducible refine use_some ?_ (by with_reducible assumption)
    | split
    | simp only [keeps_mk]
    | dsimp only

theorem release_keeps {s0 : State} (s : State) (r : FabReq) (h_s : Keeps s0 s) : Keeps s0 (State.release s r) := by
  rw [State.release.eq_def]; try dsimp only
  repeat' first
    | with_reducible assumption
    | intro _
    | with_reducible apply ite_keeps
    | with_reducible apply fields_keep
    | with_reducible apply emit_keeps
    | with_reducible apply pickPort_keeps
    | with_reducible apply updFab_keeps
    | with_reducible apply getD_keeps
    | split
    | simp only [keeps_mk]
    | dsimp only

theorem dropReq_keeps {s0 : State} (s : State) (tag : Nat) (h_s : Keeps s0 s) : Keeps s0 (State.dropReq s tag) := by
  rw [State.dropReq.eq_def]; try dsimp only
  repeat' first
    | with_reducible assumption
    | intro _
    | with_reducible apply fields_keep
    | with_reducible apply release_keeps
    | with_reducible apply updFab_keeps
    | with_reducible apply foldl_keeps
    | with_reducible apply foldl_snd_keeps
    | with_reducible apply foldl_fst_keeps
    | simp only [keeps_mk]
    | dsimp only

theorem tell_keeps {s0 : State} (s : State) (q dev op addr : Nat) (payload : List Byte) (plan : Nat) (h_s : Keeps s0 s) : Keeps s0 (State.tell s q dev op addr payload plan).2 := by
  rw [State.tell.eq_def]; try dsimp only
  repeat' first
    | with_reducible assumption
    | intro _
    | with_reducible apply ite_keeps
    | with_reducible apply ite_opt
    | with_reducible apply some_keeps
    | with_reducible apply none_keeps
    | with_reducible apply fields_keep
    | with_reducible apply nextTag_keeps
    | with_reducible apply pickPort_keeps
    | with_reducible apply sendReq_keeps
    | with_reducible apply set_keeps
    | with_reducible refine use_some ?_ (by with_reducible assumption)
    | split
    | simp only [keeps_mk]
    | dsimp only

theorem sendHop_keeps {s0 : State} (s : State) (q dev op id i row : Nat) (digest : Word) (data : List Byte) (plan : Nat) (h_s : Keeps s0 s) : Keeps s0 (State.sendHop s q dev op id i row digest data plan) := by
  rw [State.sendHop.eq_def]; try dsimp only
  repeat' first
    | with_reducible assumption
    | intro _
    | with_reducible apply some_keeps
    | with_reducible apply none_keeps
    | with_reducible apply fields_keep
    | with_reducible apply nextTag_keeps
    | with_reducible apply sendReq_keeps
    | with_reducible apply updFab_keeps
    | with_reducible refine use_some ?_ (by with_reducible assumption)
    | split
    | simp only [keeps_mk]
    | dsimp only

theorem newHops_keeps {s0 : State} (s : State) (id : Nat) (h_s : Keeps s0 s) : Keeps s0 (State.newHops s id) := by
  rw [State.newHops.eq_def]; try dsimp only
  repeat' first
    | with_reducible assumption
    | intro _
    | with_reducible apply fields_keep
    | with_reducible apply updFab_keeps
    | simp only [keeps_mk]
    | dsimp only

theorem fabMark_keeps {s0 : State} (s : State) (dev op status : Nat) (h_s : Keeps s0 s) : Keeps s0 (State.fabMark s dev op status) := by
  rw [State.fabMark.eq_def]; try dsimp only
  repeat' first
    | with_reducible assumption
    | intro _
    | with_reducible apply ite_keeps
    | with_reducible apply fields_keep
    | with_reducible apply setCourse_keeps
    | split
    | simp only [keeps_mk]
    | dsimp only

theorem heard_keeps {s0 : State} (s : State) (dev : Nat) (h_s : Keeps s0 s) : Keeps s0 (State.heard s dev) := by
  rw [State.heard.eq_def]; try dsimp only
  repeat' first
    | with_reducible assumption
    | intro _
    | with_reducible apply fields_keep
    | with_reducible apply updFab_keeps
    | simp only [keeps_mk]
    | dsimp only

theorem startProbing_keeps {s0 : State} (s : State) (dev : Nat) (h_s : Keeps s0 s) : Keeps s0 (State.startProbing s dev) := by
  rw [State.startProbing.eq_def]; try dsimp only
  repeat' first
    | with_reducible assumption
    | intro _
    | with_reducible apply ite_keeps
    | with_reducible apply fields_keep
    | with_reducible apply updFab_keeps
    | split
    | simp only [keeps_mk]
    | dsimp only

theorem tellAll_keeps {s0 : State} (s : State) (msg : Nat) (extra : List Byte) (h_s : Keeps s0 s) : Keeps s0 (State.tellAll s msg extra) := by
  rw [State.tellAll.eq_def]; try dsimp only
  repeat' first
    | with_reducible assumption
    | intro _
    | with_reducible apply ite_keeps
    | with_reducible apply ite_opt
    | with_reducible apply some_keeps
    | with_reducible apply none_keeps
    | with_reducible apply fields_keep
    | with_reducible apply control_keeps
    | with_reducible apply request_keeps
    | with_reducible apply foldl_keeps
    | with_reducible apply foldl_snd_keeps
    | with_reducible apply foldl_fst_keeps
    | with_reducible refine use_some ?_ (by with_reducible assumption)
    | split
    | simp only [keeps_mk]
    | dsimp only

/-! ## Machine/CourseOps.lean -/

theorem setCl_keeps {s0 : State} (s : State) (g : Nat) (c : Cluster) (h_s : Keeps s0 s) : Keeps s0 (State.setCl s g c) := by
  rw [State.setCl.eq_def]; try dsimp only
  repeat' first
    | with_reducible assumption
    | with_reducible apply fields_keep
    | simp only [keeps_mk]
    | dsimp only

theorem coreIdle_keeps {s0 : State} (s : State) (g : Nat) (h_s : Keeps s0 s) : Keeps s0 (State.coreIdle s g) := by
  rw [State.coreIdle.eq_def]; try dsimp only
  repeat' first
    | with_reducible assumption
    | intro _
    | with_reducible apply none_keeps
    | with_reducible apply fields_keep
    | with_reducible apply set_keeps
    | with_reducible apply setCl_keeps
    | split
    | simp only [keeps_mk]
    | dsimp only

theorem endFaulted_keeps {s0 : State} (s : State) (g : Nat) (h_s : Keeps s0 s) : Keeps s0 (State.endFaulted s g) := by
  rw [State.endFaulted.eq_def]; try dsimp only
  repeat' first
    | with_reducible assumption
    | intro _
    | with_reducible apply some_keeps
    | with_reducible apply none_keeps
    | with_reducible apply fields_keep
    | with_reducible apply fail_keeps
    | with_reducible apply setCl_keeps
    | with_reducible apply withWaiting_keeps
    | with_reducible refine use_some ?_ (by with_reducible assumption)
    | split
    | simp only [keeps_mk]
    | dsimp only

theorem drainFaulted_keeps {s0 : State} (s : State) (g : Nat) (h_s : Keeps s0 s) : Keeps s0 (State.drainFaulted s g) := by
  rw [State.drainFaulted.eq_def]; try dsimp only
  repeat' first
    | with_reducible assumption
    | intro _
    | with_reducible apply ite_keeps
    | with_reducible apply endFaulted_keeps
    | split
    | dsimp only

theorem stopCourseCore_keeps {s0 : State} (s : State) (g : Nat) (h_s : Keeps s0 s) : Keeps s0 (State.stopCourseCore s g) := by
  rw [State.stopCourseCore.eq_def]; try dsimp only
  repeat' first
    | with_reducible assumption
    | intro _
    | with_reducible apply ite_keeps
    | with_reducible apply ite_opt
    | with_reducible apply some_keeps
    | with_reducible apply none_keeps
    | with_reducible apply fields_keep
    | with_reducible apply coreIdle_keeps
    | with_reducible apply setCl_keeps
    | with_reducible refine use_some ?_ (by with_reducible assumption)
    | split
    | simp only [keeps_mk]
    | dsimp only

theorem completeBound_keeps {s0 : State} (s : State) (status detail : Nat) (h_s : Keeps s0 s) : Keeps s0 (State.completeBound s status detail) := by
  rw [State.completeBound.eq_def]; try dsimp only
  repeat' first
    | with_reducible assumption
    | intro _
    | with_reducible apply completeAll_keeps
    | with_reducible apply detail_keeps
    | dsimp only

theorem haltRelease_keeps {s0 : State} (s : State) (h_s : Keeps s0 s) : Keeps s0 (State.haltRelease s) := by
  rw [State.haltRelease.eq_def]; try dsimp only
  repeat' first
    | with_reducible assumption
    | intro _
    | with_reducible apply ite_keeps
    | with_reducible apply fields_keep
    | split
    | simp only [keeps_mk]
    | dsimp only

theorem abortHere_keeps {s0 : State} (s : State) (why : Nat) (h_s : Keeps s0 s) : Keeps s0 (State.abortHere s why) := by
  rw [State.abortHere.eq_def]; try dsimp only
  repeat' first
    | with_reducible assumption
    | intro _
    | with_reducible apply ite_keeps
    | with_reducible apply fields_keep
    | with_reducible apply cause_keeps
    | with_reducible apply completeBound_keeps
    | with_reducible apply haltRelease_keeps
    | with_reducible apply ledSet_keeps
    | with_reducible apply set_keeps
    | with_reducible apply stopCourseCore_keeps
    | with_reducible apply foldl_keeps
    | with_reducible apply foldl_snd_keeps
    | with_reducible apply foldl_fst_keeps
    | split
    | simp only [keeps_mk]
    | dsimp only

theorem abortCourse_keeps {s0 : State} (s : State) (why : Nat) (h_s : Keeps s0 s) : Keeps s0 (State.abortCourse s why) := by
  rw [State.abortCourse.eq_def]; try dsimp only
  repeat' first
    | with_reducible assumption
    | intro _
    | with_reducible apply ite_keeps
    | with_reducible apply abortHere_keeps
    | with_reducible apply tellAll_keeps
    | split
    | dsimp only

theorem tileFault_keeps {s0 : State} (s : State) (g code addr : Nat) (h_s : Keeps s0 s) : Keeps s0 (State.tileFault s g code addr) := by
  rw [State.tileFault.eq_def]; try dsimp only
  repeat' first
    | with_reducible assumption
    | intro _
    | with_reducible apply ite_keeps
    | with_reducible apply ite_opt
    | with_reducible apply some_keeps
    | with_reducible apply none_keeps
    | with_reducible apply fields_keep
    | with_reducible apply abortCourse_keeps
    | with_reducible apply coreIdle_keeps
    | with_reducible apply drainFaulted_keeps
    | with_reducible apply set_keeps
    | with_reducible apply setCl_keeps
    | with_reducible apply wr_keeps
    | with_reducible refine use_some ?_ (by with_reducible assumption)
    | split
    | simp only [keeps_mk]
    | dsimp only

theorem markDormer_keeps {s0 : State} (s : State) (h_s : Keeps s0 s) : Keeps s0 (State.markDormer s) := by
  rw [State.markDormer.eq_def]; try dsimp only
  repeat' first
    | with_reducible assumption
    | intro _
    | with_reducible apply ite_keeps
    | with_reducible apply cause_keeps
    | split
    | dsimp only

/-! ## Machine/ResetOps.lean -/

theorem torn_counter (x : Sec) : x.torn.counter = x.flash.counter := by
  unfold Sec.torn; split <;> rfl

theorem draw_keeps {s0 : State} (s : State) (h_s : Keeps s0 s) : Keeps s0 (State.draw s).2 := by
  rw [State.draw.eq_def]; try dsimp only
  repeat' first
    | with_reducible assumption
    | with_reducible apply fields_keep
    | simp only [keeps_mk]
    | dsimp only

theorem loadFuses_keeps {s0 : State} (s : State) (h_s : Keeps s0 s) : Keeps s0 (State.loadFuses s) := by
  rw [State.loadFuses.eq_def]; try dsimp only
  repeat' first
    | with_reducible assumption
    | with_reducible apply draw_keeps
    | with_reducible apply set_keeps
    | with_reducible apply wr_keeps
    | dsimp only

theorem powerOnReset_keeps {s0 : State} (s : State) (cause stage : Nat) (h_s : Keeps s0 s) : Keeps s0 (State.powerOnReset s cause stage) := by
  rw [State.powerOnReset.eq_def]; try dsimp only
  repeat' first
    | with_reducible assumption
    | with_reducible apply fields_keep
    | simp only [torn_counter]
    | with_reducible apply fields_reset
    | with_reducible apply fields_reset_regs
    | with_reducible apply cause_keeps
    | with_reducible apply loadFuses_keeps
    | simp only [keeps_mk]
    | dsimp only

theorem moduleReset_keeps {s0 : State} (s : State) (cause : Nat) (h_s : Keeps s0 s) : Keeps s0 (State.moduleReset s cause) := by
  rw [State.moduleReset.eq_def]; try dsimp only
  repeat' first
    | with_reducible assumption
    | intro _
    | with_reducible apply fields_keep
    | with_reducible apply fields_upset
    | simp only [torn_counter]
    | with_reducible apply fields_reset
    | with_reducible apply fields_reset_regs
    | with_reducible apply cause_keeps
    | with_reducible apply loadFuses_keeps
    | with_reducible apply set_keeps
    | with_reducible apply foldl_keeps
    | with_reducible apply foldl_snd_keeps
    | with_reducible apply foldl_fst_keeps
    | simp only [keeps_mk]
    | dsimp only

theorem flashStart_keeps {s0 : State} (s : State) (h_s : Keeps s0 s) : Keeps s0 (State.flashStart s) := by
  rw [State.flashStart.eq_def]; try dsimp only
  repeat' first
    | with_reducible assumption
    | intro _
    | with_reducible apply ite_keeps
    | with_reducible apply ite_opt
    | with_reducible apply some_keeps
    | with_reducible apply none_keeps
    | with_reducible apply fields_keep
    | with_reducible refine use_some ?_ (by with_reducible assumption)
    | split
    | simp only [keeps_mk]
    | dsimp only

theorem flashAdd_keeps {s0 : State} (s : State) (j : FlashJob) (h_s : Keeps s0 s) : Keeps s0 (State.flashAdd s j) := by
  rw [State.flashAdd.eq_def]; try dsimp only
  repeat' first
    | with_reducible assumption
    | with_reducible apply fields_keep
    | with_reducible apply flashStart_keeps
    | simp only [keeps_mk]
    | dsimp only

theorem commitFields_keeps {s0 : State} (s : State) (fields : List Byte) (h_s : Keeps s0 s) : Keeps s0 (State.commitFields s fields) := by
  rw [State.commitFields.eq_def]; try dsimp only
  repeat' first
    | with_reducible assumption
    | with_reducible apply flashAdd_keeps
    | with_reducible apply set_keeps
    | dsimp only

theorem endS4_keeps {s0 : State} (s : State) (h_s : Keeps s0 s) : Keeps s0 (State.endS4 s) := by
  rw [State.endS4.eq_def]; try dsimp only
  repeat' first
    | with_reducible assumption
    | intro _
    | with_reducible apply ite_keeps
    | with_reducible apply ite_opt
    | with_reducible apply none_keeps
    | with_reducible apply fields_keep
    | split
    | simp only [keeps_mk]
    | dsimp only

theorem jobDone_keeps {s0 : State} (s : State) (h_s : Keeps s0 s) : Keeps s0 (State.jobDone s) := by
  rw [State.jobDone.eq_def]; try dsimp only
  repeat' first
    | with_reducible assumption
    | with_reducible apply none_keeps
    | with_reducible apply fields_keep
    | with_reducible apply endS4_keeps
    | with_reducible apply flashStart_keeps
    | simp only [keeps_mk]
    | dsimp only

end Sys2Proof.Laws
end

