-- ==== Sys2Proof/Laws/KeepsBlocks.lean ====
section
/-! SUPPORT. Every operation of the gutter, memory, power, clusters, queues and security keeps the canonical forms and
the queue of commands. -/
set_option linter.all false
namespace Sys2Proof.Laws
open Sys2Proof.Machine

/-! ## Machine/Gutter.lean -/

theorem nvPush_keeps {s0 : State} (s : State) (r : GRec) (h_s : Keeps s0 s) : Keeps s0 (State.nvPush s r) := by
  rw [State.nvPush.eq_def]; try dsimp only
  repeat' first
    | with_reducible assumption
    | intro _
    | with_reducible apply ite_keeps
    | with_reducible apply ite_opt
    | with_reducible apply some_keeps
    | with_reducible apply none_keeps
    | with_reducible apply fields_keep
    | with_reducible apply bump_keeps
    | with_reducible apply set_keeps
    | with_reducible refine use_some ?_ (by with_reducible assumption)
    | split
    | simp only [keeps_mk]
    | dsimp only

theorem closeWindow_keeps {s0 : State} (s : State) (die : Nat) (h_s : Keeps s0 s) : Keeps s0 (State.closeWindow s die) := by
  rw [State.closeWindow.eq_def]; try dsimp only
  repeat' first
    | with_reducible assumption
    | intro _
    | with_reducible apply ite_keeps
    | with_reducible apply fields_keep
    | with_reducible apply nvPush_keeps
    | with_reducible apply setSlice_keeps
    | split
    | simp only [keeps_mk]
    | dsimp only

theorem drain_keeps {s0 : State} (s : State) (die : Nat) (h_s : Keeps s0 s) : Keeps s0 (State.drain s die) := by
  rw [State.drain.eq_def]; try dsimp only
  repeat' first
    | with_reducible assumption
    | intro _
    | with_reducible apply ite_keeps
    | with_reducible apply fields_keep
    | with_reducible apply bump_keeps
    | with_reducible apply bumpWrap_keeps
    | with_reducible apply closeWindow_keeps
    | with_reducible apply intake_keeps
    | with_reducible apply set_keeps
    | with_reducible apply setSlice_keeps
    | split
    | simp only [keeps_mk]
    | dsimp only

theorem drainMany_keeps {s0 : State} (x0 : Nat) (x1 : State) (x2 : Nat) (h_x1 : Keeps s0 x1) : Keeps s0 (drainMany x0 x1 x2) := by
  induction x0 generalizing x1 x2 with
  | zero =>
    rw [drainMany.eq_def]; try dsimp only
    repeat' first
      | with_reducible assumption
      | intro _
      | with_reducible apply drain_keeps
      | with_reducible apply ih
      | split
      | dsimp only
  | succ n ih =>
    rw [drainMany.eq_def]; try dsimp only
    repeat' first
      | with_reducible assumption
      | intro _
      | with_reducible apply drain_keeps
      | with_reducible apply ih
      | split
      | dsimp only

theorem thaw_keeps {s0 : State} (s : State) (h_s : Keeps s0 s) : Keeps s0 (State.thaw s) := by
  rw [State.thaw.eq_def]; try dsimp only
  repeat' first
    | with_reducible assumption
    | intro _
    | with_reducible apply none_keeps
    | with_reducible apply fields_keep
    | with_reducible apply drainMany_keeps
    | with_reducible apply raise_keeps
    | with_reducible apply set_keeps
    | with_reducible apply foldl_keeps
    | with_reducible apply foldl_snd_keeps
    | with_reducible apply foldl_fst_keeps
    | simp only [keeps_mk]
    | dsimp only

theorem execGutterEvent_keeps {s0 : State} (die : Fin 8) (code payload : Nat) (s : State) (h_s : Keeps s0 s) : OutKeeps s0 (execGutterEvent die code payload s) := by
  rw [execGutterEvent.eq_def]; try dsimp only
  repeat' first
    | with_reducible assumption
    | intro _
    | with_reducible apply ite_keeps
    | with_reducible apply ite_out
    | with_reducible apply next_keeps
    | with_reducible apply raise_keeps
    | split
    | dsimp only

theorem execGutterDrain_keeps {s0 : State} (die : Fin 8) (s : State) (h_s : Keeps s0 s) : OutKeeps s0 (execGutterDrain die s) := by
  rw [execGutterDrain.eq_def]; try dsimp only
  repeat' first
    | with_reducible assumption
    | intro _
    | with_reducible apply ite_keeps
    | with_reducible apply ite_out
    | with_reducible apply next_keeps
    | with_reducible apply drain_keeps
    | split
    | dsimp only

theorem execFoldWindowClose_keeps {s0 : State} (die : Fin 8) (s : State) (h_s : Keeps s0 s) : OutKeeps s0 (execFoldWindowClose die s) := by
  rw [execFoldWindowClose.eq_def]; try dsimp only
  repeat' first
    | with_reducible assumption
    | intro _
    | with_reducible apply ite_keeps
    | with_reducible apply ite_out
    | with_reducible apply next_keeps
    | with_reducible apply advanceTo_keeps
    | with_reducible apply closeWindow_keeps
    | split
    | dsimp only

theorem execDropReport_keeps {s0 : State} (die : Fin 8) (s : State) (h_s : Keeps s0 s) : OutKeeps s0 (execDropReport die s) := by
  rw [execDropReport.eq_def]; try dsimp only
  repeat' first
    | with_reducible assumption
    | intro _
    | with_reducible apply ite_keeps
    | with_reducible apply ite_out
    | with_reducible apply ite_opt
    | with_reducible apply next_keeps
    | with_reducible apply some_keeps
    | with_reducible apply none_keeps
    | with_reducible apply fields_keep
    | with_reducible apply advanceTo_keeps
    | with_reducible apply dropReport_keeps
    | with_reducible apply setSlice_keeps
    | with_reducible refine use_some ?_ (by with_reducible assumption)
    | split
    | simp only [keeps_mk]
    | dsimp only

theorem flashBusy_keeps {s0 : State} (s : State) (j : FlashJob) (h_s : Keeps s0 s) : Keeps s0 (State.flashBusy s j) := by
  rw [State.flashBusy.eq_def]; try dsimp only
  repeat' first
    | with_reducible assumption
    | with_reducible apply some_keeps
    | with_reducible apply fields_keep
    | with_reducible refine use_some ?_ (by with_reducible assumption)
    | simp only [keeps_mk]
    | dsimp only

theorem execNvPageProgram_keeps {s0 : State} (firstOk secondOk : Bool) (s : State) (h_s : Keeps s0 s) : OutKeeps s0 (execNvPageProgram firstOk secondOk s) := by
  rw [execNvPageProgram.eq_def]; try dsimp only
  repeat' first
    | with_reducible assumption
    | intro _
    | with_reducible apply ite_keeps
    | with_reducible apply ite_out
    | with_reducible apply next_keeps
    | with_reducible apply fields_keep
    | with_reducible apply advanceTo_keeps
    | with_reducible apply flashBusy_keeps
    | with_reducible apply set_keeps
    | with_reducible apply take_keeps
    | split
    | simp only [keeps_mk]
    | dsimp only

theorem execSectorErase_keeps {s0 : State} (s : State) (h_s : Keeps s0 s) : OutKeeps s0 (execSectorErase s) := by
  rw [execSectorErase.eq_def]; try dsimp only
  repeat' first
    | with_reducible assumption
    | intro _
    | with_reducible apply ite_keeps
    | with_reducible apply ite_out
    | with_reducible apply next_keeps
    | with_reducible apply fields_keep
    | with_reducible apply flashBusy_keeps
    | split
    | simp only [keeps_mk]
    | dsimp only

theorem execFreezeTimeout_keeps {s0 : State} (s : State) (h_s : Keeps s0 s) : OutKeeps s0 (execFreezeTimeout s) := by
  rw [execFreezeTimeout.eq_def]; try dsimp only
  repeat' first
    | with_reducible assumption
    | intro _
    | with_reducible apply next_keeps
    | with_reducible apply some_keeps
    | with_reducible apply none_keeps
    | with_reducible apply fields_keep
    | with_reducible apply advanceTo_keeps
    | with_reducible apply thaw_keeps
    | with_reducible refine use_some ?_ (by with_reducible assumption)
    | split
    | simp only [keeps_mk]
    | dsimp only

theorem execOpsecAdvance_keeps {s0 : State} (s : State) (h_s : Keeps s0 s) : OutKeeps s0 (execOpsecAdvance s) := by
  rw [execOpsecAdvance.eq_def]; try dsimp only
  repeat' first
    | with_reducible assumption
    | intro _
    | with_reducible apply ite_keeps
    | with_reducible apply ite_out
    | with_reducible apply next_keeps
    | with_reducible apply advanceTo_keeps
    | with_reducible apply raise_keeps
    | with_reducible apply set_keeps
    | split
    | dsimp only

theorem execGutFreeze_keeps {s0 : State} (q : Fin 16384) (seq : Nat) (s : State) (h_s : Keeps s0 s) : OutKeeps s0 (execGutFreeze q seq s) := by
  rw [execGutFreeze.eq_def]; try dsimp only
  repeat' first
    | with_reducible assumption
    | intro _
    | with_reducible apply ite_keeps
    | with_reducible apply ite_out
    | with_reducible apply ite_opt
    | with_reducible apply next_keeps
    | with_reducible apply some_keeps
    | with_reducible apply fields_keep
    | with_reducible apply runCmd_keeps
    | with_reducible apply set_keeps
    | with_reducible apply succeed_keeps
    | with_reducible apply wr_keeps
    | with_reducible apply foldl_keeps
    | with_reducible apply foldl_snd_keeps
    | with_reducible apply foldl_fst_keeps
    | with_reducible refine use_some ?_ (by with_reducible assumption)
    | split
    | simp only [keeps_mk]
    | dsimp only

theorem execGutThaw_keeps {s0 : State} (q : Fin 16384) (seq : Nat) (s : State) (h_s : Keeps s0 s) : OutKeeps s0 (execGutThaw q seq s) := by
  rw [execGutThaw.eq_def]; try dsimp only
  repeat' first
    | with_reducible assumption
    | intro _
    | with_reducible apply ite_keeps
    | with_reducible apply ite_out
    | with_reducible apply next_keeps
    | with_reducible apply runCmd_keeps
    | with_reducible apply succeed_keeps
    | with_reducible apply thaw_keeps
    | split
    | dsimp only

theorem execGutCopy_keeps {s0 : State} (q : Fin 16384) (seq : Nat) (s : State) (h_s : Keeps s0 s) : OutKeeps s0 (execGutCopy q seq s) := by
  rw [execGutCopy.eq_def]; try dsimp only
  repeat' first
    | with_reducible assumption
    | intro _
    | with_reducible apply ite_keeps
    | with_reducible apply ite_out
    | with_reducible apply next_keeps
    | with_reducible apply fail_keeps
    | with_reducible apply needA_keeps
    | with_reducible apply putOutput_keeps
    | with_reducible apply runCmd_keeps
    | with_reducible apply succeed_keeps
    | split
    | dsimp only

theorem execGutFilter_keeps {s0 : State} (q : Fin 16384) (seq : Nat) (s : State) (h_s : Keeps s0 s) : OutKeeps s0 (execGutFilter q seq s) := by
  rw [execGutFilter.eq_def]; try dsimp only
  repeat' first
    | with_reducible assumption
    | intro _
    | with_reducible apply ite_keeps
    | with_reducible apply ite_out
    | with_reducible apply next_keeps
    | with_reducible apply fields_keep
    | with_reducible apply fail_keeps
    | with_reducible apply needA_keeps
    | with_reducible apply needMem_keeps
    | with_reducible apply readMem_keeps
    | with_reducible apply runCmd_keeps
    | with_reducible apply set_keeps
    | with_reducible apply succeed_keeps
    | with_reducible apply foldl_keeps
    | with_reducible apply foldl_snd_keeps
    | with_reducible apply foldl_fst_keeps
    | split
    | simp only [keeps_mk]
    | dsimp only

theorem execGutRead_keeps {s0 : State} (crcOk : Bool) (start count : Nat) (s : State) (h_s : Keeps s0 s) : OutKeeps s0 (execGutRead crcOk start count s) := by
  rw [execGutRead.eq_def]; try dsimp only
  repeat' first
    | with_reducible assumption
    | intro _
    | with_reducible apply ite_keeps
    | with_reducible apply ite_out
    | with_reducible apply next_keeps
    | with_reducible apply send_keeps
    | split
    | dsimp only

/-! ## Machine/Memory.lean -/

theorem enqueue_keeps {s0 : State} (s : State) (ln : Nat) (write : Bool) (h_s : Keeps s0 s) : Keeps s0 (State.enqueue s ln write) := by
  rw [State.enqueue.eq_def]; try dsimp only
  repeat' first
    | with_reducible assumption
    | with_reducible apply fields_keep
    | simp only [keeps_mk]
    | dsimp only

theorem arriveRead_keeps {s0 : State} (s : State) (line : Nat) (who : Req) (upset : Nat) (h_s : Keeps s0 s) : Keeps s0 (State.arriveRead s line who upset) := by
  rw [State.arriveRead.eq_def]; try dsimp only
  repeat' first
    | with_reducible assumption
    | intro _
    | with_reducible apply ite_keeps
    | with_reducible apply ite_opt
    | with_reducible apply some_keeps
    | with_reducible apply fields_keep
    | with_reducible apply fields_upset
    | with_reducible apply enqueue_keeps
    | with_reducible apply readLine_keeps
    | with_reducible refine use_some ?_ (by with_reducible assumption)
    | split
    | simp only [keeps_mk]
    | dsimp only

theorem execWriteBack_keeps {s0 : State} (line : Nat) (s : State) (h_s : Keeps s0 s) : OutKeeps s0 (execWriteBack line s) := by
  rw [execWriteBack.eq_def]; try dsimp only
  repeat' first
    | with_reducible assumption
    | intro _
    | with_reducible apply next_keeps
    | with_reducible apply some_keeps
    | with_reducible apply none_keeps
    | with_reducible apply fields_keep
    | with_reducible apply fields_upset
    | with_reducible refine use_some ?_ (by with_reducible assumption)
    | split
    | simp only [keeps_mk]
    | dsimp only

theorem refuseWrite_keeps {s0 : State} (s : State) (w : Writer) (a : Nat) (h_s : Keeps s0 s) : Keeps s0 (State.refuseWrite s w a) := by
  rw [State.refuseWrite.eq_def]; try dsimp only
  repeat' first
    | with_reducible assumption
    | intro _
    | with_reducible apply fields_keep
    | with_reducible apply raise_keeps
    | split
    | simp only [keeps_mk]
    | dsimp only

theorem arriveWrite_keeps {s0 : State} (s : State) (line off : Nat) (bytes : List Byte) (w : Writer) (wad : Bool) (h_s : Keeps s0 s) : Keeps s0 (State.arriveWrite s line off bytes w wad) := by
  rw [State.arriveWrite.eq_def]; try dsimp only
  repeat' first
    | with_reducible assumption
    | intro _
    | with_reducible apply some_keeps
    | with_reducible apply none_keeps
    | with_reducible apply fields_keep
    | with_reducible apply enqueue_keeps
    | with_reducible apply noteWriter_keeps
    | with_reducible apply refuseWrite_keeps
    | with_reducible apply writeLine_keeps
    | with_reducible refine use_some ?_ (by with_reducible assumption)
    | split
    | simp only [keeps_mk]
    | dsimp only

theorem arrive_keeps {s0 : State} (s : State) (r : HeldReq) (h_s : Keeps s0 s) : Keeps s0 (State.arrive s r) := by
  rw [State.arrive.eq_def]; try dsimp only
  repeat' first
    | with_reducible assumption
    | intro _
    | with_reducible apply ite_keeps
    | with_reducible apply ite_opt
    | with_reducible apply some_keeps
    | with_reducible apply none_keeps
    | with_reducible apply fields_keep
    | with_reducible apply fields_upset
    | with_reducible apply arriveRead_keeps
    | with_reducible apply arriveWrite_keeps
    | with_reducible refine use_some ?_ (by with_reducible assumption)
    | split
    | simp only [keeps_mk]
    | dsimp only

theorem setStopped_keeps {s0 : State} (s : State) (ch : Nat) (l : List HeldReq) (h_s : Keeps s0 s) : Keeps s0 (State.setStopped s ch l) := by
  rw [State.setStopped.eq_def]; try dsimp only
  repeat' first
    | with_reducible assumption
    | with_reducible apply fields_keep
    | simp only [keeps_mk]
    | dsimp only

theorem take_keeps {s0 : State} (s : State) (r : HeldReq) (h_s : Keeps s0 s) : Keeps s0 (State.take s r) := by
  rw [State.take.eq_def]; try dsimp only
  repeat' first
    | with_reducible assumption
    | intro _
    | with_reducible apply ite_keeps
    | with_reducible apply arrive_keeps
    | with_reducible apply setStopped_keeps
    | split
    | dsimp only

theorem takeIn_keeps {s0 : State} (s : State) (k : Nat) (x0 : List HeldReq) (h_s : Keeps s0 s) : Keeps s0 (State.takeIn s k x0) := by
  induction x0 generalizing s k with
  | nil =>
    rw [State.takeIn.eq_def]; try dsimp only
    repeat' first
      | with_reducible assumption
      | intro _
      | with_reducible apply ite_keeps
      | with_reducible apply arrive_keeps
      | with_reducible apply setStopped_keeps
      | with_reducible apply ih
      | split
      | dsimp only
  | cons a l ih =>
    rw [State.takeIn.eq_def]; try dsimp only
    repeat' first
      | with_reducible assumption
      | intro _
      | with_reducible apply ite_keeps
      | with_reducible apply arrive_keeps
      | with_reducible apply setStopped_keeps
      | with_reducible apply ih
      | split
      | dsimp only

theorem execMemRead_keeps {s0 : State} (line : Nat) (who : Req) (upset : Nat) (s : State) (h_s : Keeps s0 s) : OutKeeps s0 (execMemRead line who upset s) := by
  rw [execMemRead.eq_def]; try dsimp only
  repeat' first
    | with_reducible assumption
    | intro _
    | with_reducible apply next_keeps
    | with_reducible apply none_keeps
    | with_reducible apply fields_upset
    | with_reducible apply take_keeps
    | dsimp only

theorem execMemWrite_keeps {s0 : State} (line : Nat) (bytes : List Byte) (by_ : Writer) (wadding : Bool) (s : State) (h_s : Keeps s0 s) : OutKeeps s0 (execMemWrite line bytes by_ wadding s) := by
  rw [execMemWrite.eq_def]; try dsimp only
  repeat' first
    | with_reducible assumption
    | intro _
    | with_reducible apply next_keeps
    | with_reducible apply some_keeps
    | with_reducible apply take_keeps
    | with_reducible refine use_some ?_ (by with_reducible assumption)
    | dsimp only

theorem execPartialWrite_keeps {s0 : State} (line off : Nat) (bytes : List Byte) (by_ : Writer) (wadding : Bool) (s : State) (h_s : Keeps s0 s) : OutKeeps s0 (execPartialWrite line off bytes by_ wadding s) := by
  rw [execPartialWrite.eq_def]; try dsimp only
  repeat' first
    | with_reducible assumption
    | intro _
    | with_reducible apply ite_keeps
    | with_reducible apply ite_out
    | with_reducible apply ite_opt
    | with_reducible apply next_keeps
    | with_reducible apply some_keeps
    | with_reducible apply take_keeps
    | with_reducible refine use_some ?_ (by with_reducible assumption)
    | split
    | dsimp only

theorem execChannelIssue_keeps {s0 : State} (chan : Fin 2176) (pick : Nat) (s : State) (h_s : Keeps s0 s) : OutKeeps s0 (execChannelIssue chan pick s) := by
  rw [execChannelIssue.eq_def]; try dsimp only
  repeat' first
    | with_reducible assumption
    | intro _
    | with_reducible apply ite_keeps
    | with_reducible apply ite_out
    | with_reducible apply next_keeps
    | with_reducible apply fields_keep
    | with_reducible apply takeIn_keeps
    | split
    | simp only [keeps_mk]
    | dsimp only

theorem execRefresh_keeps {s0 : State} (chan : Fin 2176) (bank : Fin 64) (mr4 : Nat) (s : State) (h_s : Keeps s0 s) : OutKeeps s0 (execRefresh chan bank mr4 s) := by
  rw [execRefresh.eq_def]; try dsimp only
  repeat' first
    | with_reducible assumption
    | intro _
    | with_reducible apply ite_keeps
    | with_reducible apply ite_out
    | with_reducible apply next_keeps
    | with_reducible apply fields_keep
    | with_reducible apply set_keeps
    | split
    | simp only [keeps_mk]
    | dsimp only

theorem calibrate_keeps {s0 : State} (s : State) (ctl : Nat) (h_s : Keeps s0 s) : Keeps s0 (State.calibrate s ctl) := by
  rw [State.calibrate.eq_def]; try dsimp only
  repeat' first
    | with_reducible assumption
    | intro _
    | with_reducible apply ite_keeps
    | with_reducible apply ite_opt
    | with_reducible apply some_keeps
    | with_reducible apply none_keeps
    | with_reducible apply fields_keep
    | with_reducible apply set_keeps
    | with_reducible refine use_some ?_ (by with_reducible assumption)
    | split
    | simp only [keeps_mk]
    | dsimp only

theorem execCalibrationSlot_keeps {s0 : State} (s : State) (h_s : Keeps s0 s) : OutKeeps s0 (execCalibrationSlot s) := by
  rw [execCalibrationSlot.eq_def]; try dsimp only
  repeat' first
    | with_reducible assumption
    | intro _
    | with_reducible apply ite_keeps
    | with_reducible apply ite_out
    | with_reducible apply next_keeps
    | with_reducible apply fields_keep
    | with_reducible apply advanceTo_keeps
    | with_reducible apply calibrate_keeps
    | with_reducible apply foldl_keeps
    | with_reducible apply foldl_snd_keeps
    | with_reducible apply foldl_fst_keeps
    | split
    | simp only [keeps_mk]
    | dsimp only

theorem execRetrainEnd_keeps {s0 : State} (ctl : Fin 24) (converged : Bool) (margin : Nat) (s : State) (h_s : Keeps s0 s) : OutKeeps s0 (execRetrainEnd ctl converged margin s) := by
  rw [execRetrainEnd.eq_def]; try dsimp only
  repeat' first
    | with_reducible assumption
    | intro _
    | with_reducible apply ite_keeps
    | with_reducible apply ite_out
    | with_reducible apply next_keeps
    | with_reducible apply bump_keeps
    | with_reducible apply raise_keeps
    | with_reducible apply set_keeps
    | split
    | dsimp only

theorem scrubRegs_keeps {s0 : State} (s : State) (before : Sparse Nat) (ctl : Nat) (h_s : Keeps s0 s) : Keeps s0 (State.scrubRegs s before ctl) := by
  rw [State.scrubRegs.eq_def]; try dsimp only
  repeat' first
    | with_reducible assumption
    | intro _
    | with_reducible apply ite_keeps
    | with_reducible apply fields_keep
    | with_reducible apply bump_keeps
    | with_reducible apply set_keeps
    | with_reducible apply foldl_keeps
    | with_reducible apply foldl_snd_keeps
    | with_reducible apply foldl_fst_keeps
    | split
    | simp only [keeps_mk]
    | dsimp only

theorem execScrubSlot_keeps {s0 : State} (cut : List (Nat × Nat)) (s : State) (h_s : Keeps s0 s) : OutKeeps s0 (execScrubSlot cut s) := by
  rw [execScrubSlot.eq_def]; try dsimp only
  repeat' first
    | with_reducible assumption
    | intro _
    | with_reducible apply ite_keeps
    | with_reducible apply ite_out
    | with_reducible apply next_keeps
    | with_reducible apply fields_keep
    | with_reducible apply fields_upset
    | with_reducible apply advanceTo_keeps
    | with_reducible apply readLine_keeps
    | with_reducible apply scrubRegs_keeps
    | with_reducible apply foldl_keeps
    | with_reducible apply foldl_snd_keeps
    | with_reducible apply foldl_fst_keeps
    | split
    | simp only [keeps_mk]
    | dsimp only

/-! ## Machine/Power.lean -/

theorem setDp_keeps {s0 : State} (s : State) (d : Nat) (x : DiePwr) (h_s : Keeps s0 s) : Keeps s0 (State.setDp s d x) := by
  rw [State.setDp.eq_def]; try dsimp only
  repeat' first
    | with_reducible assumption
    | with_reducible apply fields_keep
    | simp only [keeps_mk]
    | dsimp only

theorem refreshDie_keeps {s0 : State} (s : State) (d : Nat) (h_s : Keeps s0 s) : Keeps s0 (State.refreshDie s d) := by
  rw [State.refreshDie.eq_def]; try dsimp only
  repeat' first
    | with_reducible assumption
    | intro _
    | with_reducible apply ite_keeps
    | with_reducible apply set_keeps
    | split
    | dsimp only

theorem settleThrottle_keeps {s0 : State} (s : State) (h_s : Keeps s0 s) : Keeps s0 (State.settleThrottle s) := by
  rw [State.settleThrottle.eq_def]; try dsimp only
  repeat' first
    | with_reducible assumption
    | intro _
    | with_reducible apply ite_keeps
    | with_reducible apply ite_opt
    | with_reducible apply some_keeps
    | with_reducible apply none_keeps
    | with_reducible apply fields_keep
    | with_reducible apply ledBump_keeps
    | with_reducible refine use_some ?_ (by with_reducible assumption)
    | split
    | simp only [keeps_mk]
    | dsimp only

theorem refreshPwr_keeps {s0 : State} (s : State) (d : Nat) (h_s : Keeps s0 s) : Keeps s0 (State.refreshPwr s d) := by
  rw [State.refreshPwr.eq_def]; try dsimp only
  repeat' first
    | with_reducible assumption
    | with_reducible apply refreshDie_keeps
    | with_reducible apply settleThrottle_keeps
    | dsimp only

theorem refreshAll_keeps {s0 : State} (s : State) (h_s : Keeps s0 s) : Keeps s0 (State.refreshAll s) := by
  rw [State.refreshAll.eq_def]; try dsimp only
  repeat' first
    | with_reducible assumption
    | intro _
    | with_reducible apply refreshDie_keeps
    | with_reducible apply settleThrottle_keeps
    | with_reducible apply foldl_keeps
    | with_reducible apply foldl_snd_keeps
    | with_reducible apply foldl_fst_keeps
    | dsimp only

theorem updDp_keeps {s0 : State} (s : State) (d : Nat) (f : DiePwr → DiePwr) (h_s : Keeps s0 s) : Keeps s0 (State.updDp s d f) := by
  rw [State.updDp.eq_def]; try dsimp only
  repeat' first
    | with_reducible assumption
    | with_reducible apply refreshPwr_keeps
    | with_reducible apply setDp_keeps
    | dsimp only

theorem setCap_keeps {s0 : State} (s : State) (w : Nat) (h_s : Keeps s0 s) : Keeps s0 (State.setCap s w) := by
  rw [State.setCap.eq_def]; try dsimp only
  repeat' first
    | with_reducible assumption
    | with_reducible apply fields_keep
    | with_reducible apply set_keeps
    | simp only [keeps_mk]
    | dsimp only

theorem writeCap_keeps {s0 : State} (s : State) (die : Nat) (v : Word) (h_s : Keeps s0 s) : Keeps s0 (State.writeCap s die v) := by
  rw [State.writeCap.eq_def]; try dsimp only
  repeat' first
    | with_reducible assumption
    | intro _
    | with_reducible apply ite_keeps
    | with_reducible apply set_keeps
    | with_reducible apply setCap_keeps
    | split
    | dsimp only

theorem execPwrCapWrite_keeps {s0 : State} (die : Fin 8) (value : Word) (s : State) (h_s : Keeps s0 s) : OutKeeps s0 (execPwrCapWrite die value s) := by
  rw [execPwrCapWrite.eq_def]; try dsimp only
  repeat' first
    | with_reducible assumption
    | intro _
    | with_reducible apply next_keeps
    | with_reducible apply writeCap_keeps
    | dsimp only

theorem writeCoef_keeps {s0 : State} (s : State) (die k : Nat) (v : Word) (h_s : Keeps s0 s) : Keeps s0 (State.writeCoef s die k v) := by
  rw [State.writeCoef.eq_def]; try dsimp only
  repeat' first
    | with_reducible assumption
    | with_reducible apply some_keeps
    | with_reducible apply none_keeps
    | with_reducible apply fields_keep
    | with_reducible refine use_some ?_ (by with_reducible assumption)
    | simp only [keeps_mk]
    | dsimp only

theorem execPwrCoefWrite_keeps {s0 : State} (die : Fin 8) (k : Fin 16) (value : Word) (s : State) (h_s : Keeps s0 s) : OutKeeps s0 (execPwrCoefWrite die k value s) := by
  rw [execPwrCoefWrite.eq_def]; try dsimp only
  repeat' first
    | with_reducible assumption
    | intro _
    | with_reducible apply next_keeps
    | with_reducible apply writeCoef_keeps
    | dsimp only

theorem writePolicy_keeps {s0 : State} (s : State) (die cls : Nat) (v : Word) (h_s : Keeps s0 s) : Keeps s0 (State.writePolicy s die cls v) := by
  rw [State.writePolicy.eq_def]; try dsimp only
  repeat' first
    | with_reducible assumption
    | intro _
    | with_reducible apply ite_keeps
    | with_reducible apply ite_opt
    | with_reducible apply some_keeps
    | with_reducible apply none_keeps
    | with_reducible apply fields_keep
    | with_reducible apply refreshPwr_keeps
    | with_reducible apply set_keeps
    | with_reducible apply wr_keeps
    | with_reducible refine use_some ?_ (by with_reducible assumption)
    | split
    | simp only [keeps_mk]
    | dsimp only

theorem execPwrPolicyWrite_keeps {s0 : State} (die : Fin 8) (cls : Fin 16) (value : Word) (s : State) (h_s : Keeps s0 s) : OutKeeps s0 (execPwrPolicyWrite die cls value s) := by
  rw [execPwrPolicyWrite.eq_def]; try dsimp only
  repeat' first
    | with_reducible assumption
    | intro _
    | with_reducible apply next_keeps
    | with_reducible apply writePolicy_keeps
    | dsimp only

theorem applyPower_keeps {s0 : State} (s : State) (h_s : Keeps s0 s) : Keeps s0 (State.applyPower s) := by
  rw [State.applyPower.eq_def]; try dsimp only
  repeat' first
    | with_reducible assumption
    | intro _
    | with_reducible apply some_keeps
    | with_reducible apply none_keeps
    | with_reducible apply fields_keep
    | with_reducible apply refreshAll_keeps
    | with_reducible apply wr_keeps
    | with_reducible apply foldl_keeps
    | with_reducible apply foldl_snd_keeps
    | with_reducible apply foldl_fst_keeps
    | with_reducible refine use_some ?_ (by with_reducible assumption)
    | split
    | simp only [keeps_mk]
    | dsimp only

theorem execEnergyRefit_keeps {s0 : State} (coef : List F32) (s : State) (h_s : Keeps s0 s) : OutKeeps s0 (execEnergyRefit coef s) := by
  rw [execEnergyRefit.eq_def]; try dsimp only
  repeat' first
    | with_reducible assumption
    | intro _
    | with_reducible apply ite_keeps
    | with_reducible apply ite_out
    | with_reducible apply next_keeps
    | with_reducible apply fields_keep
    | with_reducible apply writeCoef_keeps
    | with_reducible apply foldl_keeps
    | with_reducible apply foldl_snd_keeps
    | with_reducible apply foldl_fst_keeps
    | split
    | simp only [keeps_mk]
    | dsimp only

theorem execInputSample_keeps {s0 : State} (mv ma : Nat) (s : State) (h_s : Keeps s0 s) : OutKeeps s0 (execInputSample mv ma s) := by
  rw [execInputSample.eq_def]; try dsimp only
  repeat' first
    | with_reducible assumption
    | intro _
    | with_reducible apply ite_keeps
    | with_reducible apply ite_out
    | with_reducible apply ite_opt
    | with_reducible apply next_keeps
    | with_reducible apply some_keeps
    | with_reducible apply none_keeps
    | with_reducible apply fields_keep
    | with_reducible apply advanceTo_keeps
    | with_reducible apply bump_keeps
    | with_reducible apply raise_keeps
    | with_reducible apply set_keeps
    | with_reducible apply take_keeps
    | with_reducible refine use_some ?_ (by with_reducible assumption)
    | split
    | simp only [keeps_mk]
    | dsimp only

theorem giveBudget_keeps {s0 : State} (s : State) (d : Nat) (b : DieBudget) (h_s : Keeps s0 s) : Keeps s0 (State.giveBudget s d b) := by
  rw [State.giveBudget.eq_def]; try dsimp only
  repeat' first
    | with_reducible assumption
    | intro _
    | with_reducible apply ite_keeps
    | with_reducible apply ite_opt
    | with_reducible apply some_keeps
    | with_reducible apply none_keeps
    | with_reducible apply fields_keep
    | with_reducible apply refreshDie_keeps
    | with_reducible apply set_keeps
    | with_reducible apply setDp_keeps
    | with_reducible refine use_some ?_ (by with_reducible assumption)
    | split
    | simp only [keeps_mk]
    | dsimp only

theorem execBudgetUpdate_keeps {s0 : State} (b : List DieBudget) (s : State) (h_s : Keeps s0 s) : OutKeeps s0 (execBudgetUpdate b s) := by
  rw [execBudgetUpdate.eq_def]; try dsimp only
  repeat' first
    | with_reducible assumption
    | intro _
    | with_reducible apply next_keeps
    | with_reducible apply advanceTo_keeps
    | with_reducible apply giveBudget_keeps
    | with_reducible apply settleThrottle_keeps
    | with_reducible apply foldl_keeps
    | with_reducible apply foldl_snd_keeps
    | with_reducible apply foldl_fst_keeps
    | dsimp only

theorem execCapStep_keeps {s0 : State} (die : Fin 8) (duty : Nat) (s : State) (h_s : Keeps s0 s) : OutKeeps s0 (execCapStep die duty s) := by
  rw [execCapStep.eq_def]; try dsimp only
  repeat' first
    | with_reducible assumption
    | intro _
    | with_reducible apply ite_keeps
    | with_reducible apply ite_out
    | with_reducible apply ite_opt
    | with_reducible apply next_keeps
    | with_reducible apply some_keeps
    | with_reducible apply none_keeps
    | with_reducible apply fields_keep
    | with_reducible apply advanceTo_keeps
    | with_reducible apply refreshPwr_keeps
    | with_reducible apply set_keeps
    | with_reducible apply setDp_keeps
    | with_reducible refine use_some ?_ (by with_reducible assumption)
    | split
    | simp only [keeps_mk]
    | dsimp only

theorem execCapRelax_keeps {s0 : State} (die : Fin 8) (s : State) (h_s : Keeps s0 s) : OutKeeps s0 (execCapRelax die s) := by
  rw [execCapRelax.eq_def]; try dsimp only
  repeat' first
    | with_reducible assumption
    | intro _
    | with_reducible apply next_keeps
    | with_reducible apply some_keeps
    | with_reducible apply none_keeps
    | with_reducible apply fields_keep
    | with_reducible apply advanceTo_keeps
    | with_reducible apply updDp_keeps
    | with_reducible refine use_some ?_ (by with_reducible assumption)
    | split
    | simp only [keeps_mk]
    | dsimp only

theorem execVfStepChange_keeps {s0 : State} (die : Fin 8) (s : State) (h_s : Keeps s0 s) : OutKeeps s0 (execVfStepChange die s) := by
  rw [execVfStepChange.eq_def]; try dsimp only
  repeat' first
    | with_reducible assumption
    | intro _
    | with_reducible apply next_keeps
    | with_reducible apply set_keeps
    | dsimp only

theorem execPowerCap_keeps {s0 : State} (q : Fin 16384) (seq : Nat) (s : State) (h_s : Keeps s0 s) : OutKeeps s0 (execPowerCap q seq s) := by
  rw [execPowerCap.eq_def]; try dsimp only
  repeat' first
    | with_reducible assumption
    | intro _
    | with_reducible apply ite_keeps
    | with_reducible apply ite_out
    | with_reducible apply next_keeps
    | with_reducible apply commitFields_keeps
    | with_reducible apply fail_keeps
    | with_reducible apply runCmd_keeps
    | with_reducible apply setCap_keeps
    | with_reducible apply succeed_keeps
    | split
    | dsimp only

theorem takeHint_keeps {s0 : State} (s : State) (h : Hint) (d : Nat) (h_s : Keeps s0 s) : Keeps s0 (State.takeHint s h d) := by
  rw [State.takeHint.eq_def]; try dsimp only
  repeat' first
    | with_reducible assumption
    | intro _
    | with_reducible apply ite_keeps
    | with_reducible apply ite_opt
    | with_reducible apply some_keeps
    | with_reducible apply fields_keep
    | with_reducible apply bump_keeps
    | with_reducible apply set_keeps
    | with_reducible apply updDp_keeps
    | with_reducible refine use_some ?_ (by with_reducible assumption)
    | split
    | simp only [keeps_mk]
    | dsimp only

theorem execLoadHint_keeps {s0 : State} (q : Fin 16384) (seq : Nat) (s : State) (h_s : Keeps s0 s) : OutKeeps s0 (execLoadHint q seq s) := by
  rw [execLoadHint.eq_def]; try dsimp only
  repeat' first
    | with_reducible assumption
    | intro _
    | with_reducible apply ite_keeps
    | with_reducible apply ite_out
    | with_reducible apply next_keeps
    | with_reducible apply fail_keeps
    | with_reducible apply runCmd_keeps
    | with_reducible apply succeed_keeps
    | with_reducible apply takeHint_keeps
    | with_reducible apply foldl_keeps
    | with_reducible apply foldl_snd_keeps
    | with_reducible apply foldl_fst_keeps
    | split
    | dsimp only

theorem prepare_keeps {s0 : State} (s : State) (d cls : Nat) (h_s : Keeps s0 s) : Keeps s0 (State.prepare s d cls) := by
  rw [State.prepare.eq_def]; try dsimp only
  repeat' first
    | with_reducible assumption
    | intro _
    | with_reducible apply fields_keep
    | with_reducible apply updDp_keeps
    | simp only [keeps_mk]
    | dsimp only

theorem execHintLead_keeps {s0 : State} (die : Fin 8) (s : State) (h_s : Keeps s0 s) : OutKeeps s0 (execHintLead die s) := by
  rw [execHintLead.eq_def]; try dsimp only
  repeat' first
    | with_reducible assumption
    | intro _
    | with_reducible apply ite_keeps
    | with_reducible apply ite_out
    | with_reducible apply ite_opt
    | with_reducible apply next_keeps
    | with_reducible apply some_keeps
    | with_reducible apply none_keeps
    | with_reducible apply fields_keep
    | with_reducible apply advanceTo_keeps
    | with_reducible apply prepare_keeps
    | with_reducible apply updDp_keeps
    | with_reducible refine use_some ?_ (by with_reducible assumption)
    | split
    | simp only [keeps_mk]
    | dsimp only

theorem execHintStart_keeps {s0 : State} (die : Fin 8) (s : State) (h_s : Keeps s0 s) : OutKeeps s0 (execHintStart die s) := by
  rw [execHintStart.eq_def]; try dsimp only
  repeat' first
    | with_reducible assumption
    | intro _
    | with_reducible apply ite_keeps
    | with_reducible apply ite_out
    | with_reducible apply ite_opt
    | with_reducible apply next_keeps
    | with_reducible apply some_keeps
    | with_reducible apply none_keeps
    | with_reducible apply fields_keep
    | with_reducible apply advanceTo_keeps
    | with_reducible apply prepare_keeps
    | with_reducible apply updDp_keeps
    | with_reducible refine use_some ?_ (by with_reducible assumption)
    | split
    | simp only [keeps_mk]
    | dsimp only

theorem execHintExpiry_keeps {s0 : State} (die : Fin 8) (s : State) (h_s : Keeps s0 s) : OutKeeps s0 (execHintExpiry die s) := by
  rw [execHintExpiry.eq_def]; try dsimp only
  repeat' first
    | with_reducible assumption
    | intro _
    | with_reducible apply ite_keeps
    | with_reducible apply ite_out
    | with_reducible apply ite_opt
    | with_reducible apply next_keeps
    | with_reducible apply some_keeps
    | with_reducible apply none_keeps
    | with_reducible apply fields_keep
    | with_reducible apply advanceTo_keeps
    | with_reducible apply updDp_keeps
    | with_reducible refine use_some ?_ (by with_reducible assumption)
    | split
    | simp only [keeps_mk]
    | dsimp only

theorem execHintHoldEnd_keeps {s0 : State} (die : Fin 8) (s : State) (h_s : Keeps s0 s) : OutKeeps s0 (execHintHoldEnd die s) := by
  rw [execHintHoldEnd.eq_def]; try dsimp only
  repeat' first
    | with_reducible assumption
    | intro _
    | with_reducible apply next_keeps
    | with_reducible apply some_keeps
    | with_reducible apply none_keeps
    | with_reducible apply fields_keep
    | with_reducible apply advanceTo_keeps
    | with_reducible apply updDp_keeps
    | with_reducible refine use_some ?_ (by with_reducible assumption)
    | split
    | simp only [keeps_mk]
    | dsimp only

theorem execGrantRequest_keeps {s0 : State} (die : Fin 8) (matrix memory : Nat) (s : State) (h_s : Keeps s0 s) : OutKeeps s0 (execGrantRequest die matrix memory s) := by
  rw [execGrantRequest.eq_def]; try dsimp only
  repeat' first
    | with_reducible assumption
    | intro _
    | with_reducible apply ite_keeps
    | with_reducible apply ite_out
    | with_reducible apply ite_opt
    | with_reducible apply next_keeps
    | with_reducible apply some_keeps
    | with_reducible apply none_keeps
    | with_reducible apply fields_keep
    | with_reducible apply updDp_keeps
    | with_reducible refine use_some ?_ (by with_reducible assumption)
    | split
    | simp only [keeps_mk]
    | dsimp only

theorem execDroopDetect_keeps {s0 : State} (die group : Fin 8) (s : State) (h_s : Keeps s0 s) : OutKeeps s0 (execDroopDetect die group s) := by
  rw [execDroopDetect.eq_def]; try dsimp only
  repeat' first
    | with_reducible assumption
    | intro _
    | with_reducible apply ite_keeps
    | with_reducible apply ite_out
    | with_reducible apply next_keeps
    | with_reducible apply fields_keep
    | with_reducible apply bump_keeps
    | with_reducible apply setDp_keeps
    | split
    | simp only [keeps_mk]
    | dsimp only

theorem execDroopRecover_keeps {s0 : State} (die group : Fin 8) (cycles : Nat) (s : State) (h_s : Keeps s0 s) : OutKeeps s0 (execDroopRecover die group cycles s) := by
  rw [execDroopRecover.eq_def]; try dsimp only
  repeat' first
    | with_reducible assumption
    | intro _
    | with_reducible apply ite_keeps
    | with_reducible apply ite_out
    | with_reducible apply next_keeps
    | with_reducible apply fields_keep
    | with_reducible apply bump_keeps
    | with_reducible apply setDp_keeps
    | split
    | simp only [keeps_mk]
    | dsimp only

theorem execThermalSample_keeps {s0 : State} (die : Fin 8) (temps : List Int) (s : State) (h_s : Keeps s0 s) : OutKeeps s0 (execThermalSample die temps s) := by
  rw [execThermalSample.eq_def]; try dsimp only
  repeat' first
    | with_reducible assumption
    | intro _
    | with_reducible apply ite_keeps
    | with_reducible apply ite_out
    | with_reducible apply ite_opt
    | with_reducible apply next_keeps
    | with_reducible apply some_keeps
    | with_reducible apply none_keeps
    | with_reducible apply fields_keep
    | with_reducible apply advanceTo_keeps
    | with_reducible apply raise_keeps
    | with_reducible apply set_keeps
    | with_reducible apply setDp_keeps
    | with_reducible apply foldl_keeps
    | with_reducible apply foldl_snd_keeps
    | with_reducible apply foldl_fst_keeps
    | with_reducible refine use_some ?_ (by with_reducible assumption)
    | split
    | simp only [keeps_mk]
    | dsimp only

theorem execThermalStep_keeps {s0 : State} (die : Fin 8) (s : State) (h_s : Keeps s0 s) : OutKeeps s0 (execThermalStep die s) := by
  rw [execThermalStep.eq_def]; try dsimp only
  repeat' first
    | with_reducible assumption
    | intro _
    | with_reducible apply ite_keeps
    | with_reducible apply ite_out
    | with_reducible apply ite_opt
    | with_reducible apply next_keeps
    | with_reducible apply some_keeps
    | with_reducible apply none_keeps
    | with_reducible apply fields_keep
    | with_reducible apply advanceTo_keeps
    | with_reducible apply raise_keeps
    | with_reducible apply set_keeps
    | with_reducible apply updDp_keeps
    | with_reducible refine use_some ?_ (by with_reducible assumption)
    | split
    | simp only [keeps_mk]
    | dsimp only

theorem execThermalRelax_keeps {s0 : State} (die : Fin 8) (s : State) (h_s : Keeps s0 s) : OutKeeps s0 (execThermalRelax die s) := by
  rw [execThermalRelax.eq_def]; try dsimp only
  repeat' first
    | with_reducible assumption
    | intro _
    | with_reducible apply ite_keeps
    | with_reducible apply ite_out
    | with_reducible apply ite_opt
    | with_reducible apply next_keeps
    | with_reducible apply some_keeps
    | with_reducible apply none_keeps
    | with_reducible apply fields_keep
    | with_reducible apply advanceTo_keeps
    | with_reducible apply updDp_keeps
    | with_reducible refine use_some ?_ (by with_reducible assumption)
    | split
    | simp only [keeps_mk]
    | dsimp only

theorem execTrip_keeps {s0 : State} (die : Fin 8) (temp : Nat) (s : State) (h_s : Keeps s0 s) : OutKeeps s0 (execTrip die temp s) := by
  rw [execTrip.eq_def]; try dsimp only
  repeat' first
    | with_reducible assumption
    | intro _
    | with_reducible apply ite_keeps
    | with_reducible apply ite_out
    | with_reducible apply ite_opt
    | with_reducible apply next_keeps
    | with_reducible apply some_keeps
    | with_reducible apply fields_keep
    | with_reducible apply powerOnReset_keeps
    | with_reducible refine use_some ?_ (by with_reducible assumption)
    | split
    | simp only [keeps_mk]
    | dsimp only

theorem execSagBegin_keeps {s0 : State} (mv : Nat) (s : State) (h_s : Keeps s0 s) : OutKeeps s0 (execSagBegin mv s) := by
  rw [execSagBegin.eq_def]; try dsimp only
  repeat' first
    | with_reducible assumption
    | intro _
    | with_reducible apply ite_keeps
    | with_reducible apply ite_out
    | with_reducible apply ite_opt
    | with_reducible apply next_keeps
    | with_reducible apply some_keeps
    | with_reducible apply none_keeps
    | with_reducible apply fields_keep
    | with_reducible apply bump_keeps
    | with_reducible apply raise_keeps
    | with_reducible apply refreshAll_keeps
    | with_reducible apply set_keeps
    | with_reducible refine use_some ?_ (by with_reducible assumption)
    | split
    | simp only [keeps_mk]
    | dsimp only

theorem execSagEnd_keeps {s0 : State} (s : State) (h_s : Keeps s0 s) : OutKeeps s0 (execSagEnd s) := by
  rw [execSagEnd.eq_def]; try dsimp only
  repeat' first
    | with_reducible assumption
    | intro _
    | with_reducible apply next_keeps
    | with_reducible apply some_keeps
    | with_reducible apply none_keeps
    | with_reducible apply fields_keep
    | with_reducible apply advanceTo_keeps
    | with_reducible apply flashStart_keeps
    | with_reducible apply raise_keeps
    | with_reducible apply refreshAll_keeps
    | with_reducible apply set_keeps
    | with_reducible refine use_some ?_ (by with_reducible assumption)
    | split
    | simp only [keeps_mk]
    | dsimp only

theorem execSupplyCollapse_keeps {s0 : State} (mv : Nat) (s : State) (h_s : Keeps s0 s) : OutKeeps s0 (execSupplyCollapse mv s) := by
  rw [execSupplyCollapse.eq_def]; try dsimp only
  repeat' first
    | with_reducible assumption
    | intro _
    | with_reducible apply ite_keeps
    | with_reducible apply ite_out
    | with_reducible apply ite_opt
    | with_reducible apply next_keeps
    | with_reducible apply some_keeps
    | with_reducible apply fields_keep
    | with_reducible apply powerOnReset_keeps
    | with_reducible apply request_keeps
    | with_reducible refine use_some ?_ (by with_reducible assumption)
    | split
    | simp only [keeps_mk]
    | dsimp only

theorem execOvervoltage_keeps {s0 : State} (mv : Nat) (s : State) (h_s : Keeps s0 s) : OutKeeps s0 (execOvervoltage mv s) := by
  rw [execOvervoltage.eq_def]; try dsimp only
  repeat' first
    | with_reducible assumption
    | intro _
    | with_reducible apply ite_keeps
    | with_reducible apply ite_out
    | with_reducible apply next_keeps
    | with_reducible apply fields_keep
    | with_reducible apply powerOnReset_keeps
    | split
    | simp only [keeps_mk]
    | dsimp only

theorem execOvervoltageClear_keeps {s0 : State} (mv : Nat) (s : State) (h_s : Keeps s0 s) : OutKeeps s0 (execOvervoltageClear mv s) := by
  rw [execOvervoltageClear.eq_def]; try dsimp only
  repeat' first
    | with_reducible assumption
    | intro _
    | with_reducible apply ite_keeps
    | with_reducible apply ite_out
    | with_reducible apply next_keeps
    | with_reducible apply powerOnReset_keeps
    | split
    | dsimp only

theorem signalRelease_keeps {s0 : State} (s : State) (d : Nat) (h_s : Keeps s0 s) : Keeps s0 (State.signalRelease s d) := by
  rw [State.signalRelease.eq_def]; try dsimp only
  repeat' first
    | with_reducible assumption
    | intro _
    | with_reducible apply ite_keeps
    | with_reducible apply ite_opt
    | with_reducible apply some_keeps
    | with_reducible apply none_keeps
    | with_reducible apply fields_keep
    | with_reducible apply prepare_keeps
    | with_reducible apply release_keeps
    | with_reducible apply updDp_keeps
    | with_reducible refine use_some ?_ (by with_reducible assumption)
    | split
    | simp only [keeps_mk]
    | dsimp only

theorem openSlot_keeps {s0 : State} (s : State) (h_s : Keeps s0 s) : Keeps s0 (State.openSlot s) := by
  rw [State.openSlot.eq_def]; try dsimp only
  repeat' first
    | with_reducible assumption
    | intro _
    | with_reducible apply fields_keep
    | with_reducible apply signalRelease_keeps
    | with_reducible apply foldl_keeps
    | with_reducible apply foldl_snd_keeps
    | with_reducible apply foldl_fst_keeps
    | simp only [keeps_mk]
    | dsimp only

/-! ## Machine/ClusterOps.lean -/

theorem updCl_keeps {s0 : State} (s : State) (g : Nat) (f : Cluster → Cluster) (h_s : Keeps s0 s) : Keeps s0 (State.updCl s g f) := by
  rw [State.updCl.eq_def]; try dsimp only
  repeat' first
    | with_reducible assumption
    | with_reducible apply setCl_keeps
    | dsimp only

theorem setSreg_keeps {s0 : State} (s : State) (g n : Nat) (v : Word) (h_s : Keeps s0 s) : Keeps s0 (State.setSreg s g n v) := by
  rw [State.setSreg.eq_def]; try dsimp only
  repeat' first
    | with_reducible assumption
    | intro _
    | with_reducible apply ite_keeps
    | with_reducible apply fields_keep
    | with_reducible apply updCl_keeps
    | split
    | simp only [keeps_mk]
    | dsimp only

theorem lbPut_keeps {s0 : State} (s : State) (g a : Nat) (bs : List Byte) (h_s : Keeps s0 s) : Keeps s0 (State.lbPut s g a bs) := by
  rw [State.lbPut.eq_def]; try dsimp only
  repeat' first
    | with_reducible assumption
    | intro _
    | with_reducible apply fields_keep
    | with_reducible apply updCl_keeps
    | simp only [keeps_mk]
    | dsimp only

theorem scalarWrite_keeps {s0 : State} (s : State) (g n : Nat) (v : Word) (h_s : Keeps s0 s) : Keeps s0 (State.scalarWrite s g n v) := by
  rw [State.scalarWrite.eq_def]; try dsimp only
  repeat' first
    | with_reducible assumption
    | intro _
    | with_reducible apply ite_keeps
    | with_reducible apply raise_keeps
    | with_reducible apply setSreg_keeps
    | split
    | dsimp only

theorem programWrite_keeps {s0 : State} (s : State) (g off : Nat) (bs : List Byte) (h_s : Keeps s0 s) : Keeps s0 (State.programWrite s g off bs) := by
  rw [State.programWrite.eq_def]; try dsimp only
  repeat' first
    | with_reducible assumption
    | intro _
    | with_reducible apply ite_keeps
    | with_reducible apply fields_keep
    | with_reducible apply raise_keeps
    | with_reducible apply updCl_keeps
    | split
    | simp only [keeps_mk]
    | dsimp only

theorem pinWait_keeps {s0 : State} (s : State) (g : Nat) (h_s : Keeps s0 s) : Keeps s0 (State.pinWait s g) := by
  rw [State.pinWait.eq_def]; try dsimp only
  repeat' first
    | with_reducible assumption
    | with_reducible apply set_keeps
    | dsimp only

theorem lbExternal_keeps {s0 : State} (s : State) (g a : Nat) (bs : List Byte) (h_s : Keeps s0 s) : Keeps s0 (State.lbExternal s g a bs) := by
  rw [State.lbExternal.eq_def]; try dsimp only
  repeat' first
    | with_reducible assumption
    | intro _
    | with_reducible apply ite_keeps
    | with_reducible apply ite_opt
    | with_reducible apply none_keeps
    | with_reducible apply fields_keep
    | with_reducible apply lbPut_keeps
    | with_reducible apply pinWait_keeps
    | with_reducible apply updCl_keeps
    | split
    | simp only [keeps_mk]
    | dsimp only

theorem syncEngines_keeps {s0 : State} (s : State) (g : Nat) (h_s : Keeps s0 s) : Keeps s0 (State.syncEngines s g) := by
  rw [State.syncEngines.eq_def]; try dsimp only
  repeat' first
    | with_reducible assumption
    | intro _
    | with_reducible apply ite_keeps
    | with_reducible apply set_keeps
    | with_reducible apply foldl_keeps
    | with_reducible apply foldl_snd_keeps
    | with_reducible apply foldl_fst_keeps
    | split
    | dsimp only

theorem clearTile_keeps {s0 : State} (s : State) (g t : Nat) (h_s : Keeps s0 s) : Keeps s0 (State.clearTile s g t) := by
  rw [State.clearTile.eq_def]; try dsimp only
  repeat' first
    | with_reducible assumption
    | intro _
    | with_reducible apply fields_keep
    | with_reducible apply updCl_keeps
    | with_reducible apply wr_keeps
    | simp only [keeps_mk]
    | dsimp only

theorem clearByFlag_keeps {s0 : State} (s : State) (g t : Nat) (h_s : Keeps s0 s) : Keeps s0 (State.clearByFlag s g t) := by
  rw [State.clearByFlag.eq_def]; try dsimp only
  repeat' first
    | with_reducible assumption
    | intro _
    | with_reducible apply ite_keeps
    | with_reducible apply clearTile_keeps
    | split
    | dsimp only

theorem tileEvents_keeps {s0 : State} (s : State) (g t tid : Nat) (n : EvCount) (h_s : Keeps s0 s) : Keeps s0 (State.tileEvents s g t tid n) := by
  rw [State.tileEvents.eq_def]; try dsimp only
  repeat' first
    | with_reducible assumption
    | with_reducible apply bump_keeps
    | with_reducible apply countEvents_keeps
    | dsimp only

theorem ledFlag_keeps {s0 : State} (s : State) (b : Nat) (h_s : Keeps s0 s) : Keeps s0 (State.ledFlag s b) := by
  rw [State.ledFlag.eq_def]; try dsimp only
  repeat' first
    | with_reducible assumption
    | intro _
    | with_reducible apply ite_keeps
    | with_reducible apply ledSet_keeps
    | split
    | dsimp only

theorem layerFlag_keeps {s0 : State} (s : State) (layer b : Nat) (h_s : Keeps s0 s) : Keeps s0 (State.layerFlag s layer b) := by
  rw [State.layerFlag.eq_def]; try dsimp only
  repeat' first
    | with_reducible assumption
    | intro _
    | with_reducible apply ite_keeps
    | with_reducible apply fields_keep
    | split
    | simp only [keeps_mk]
    | dsimp only

theorem longSum_keeps {s0 : State} (s : State) (g t tid : Nat) (h_s : Keeps s0 s) : Keeps s0 (State.longSum s g t tid) := by
  rw [State.longSum.eq_def]; try dsimp only
  repeat' first
    | with_reducible assumption
    | intro _
    | with_reducible apply ite_keeps
    | with_reducible apply fields_keep
    | with_reducible apply layerFlag_keeps
    | with_reducible apply ledBump_keeps
    | with_reducible apply ledFlag_keeps
    | with_reducible apply set_keeps
    | split
    | simp only [keeps_mk]
    | dsimp only

theorem compChange_keeps {s0 : State} (s : State) (g v : Nat) (h_s : Keeps s0 s) : Keeps s0 (State.compChange s g v) := by
  rw [State.compChange.eq_def]; try dsimp only
  repeat' first
    | with_reducible assumption
    | intro _
    | with_reducible apply ite_keeps
    | with_reducible apply clearTile_keeps
    | with_reducible apply set_keeps
    | with_reducible apply foldl_keeps
    | with_reducible apply foldl_snd_keeps
    | with_reducible apply foldl_fst_keeps
    | split
    | dsimp only

theorem accRefused_keeps {s0 : State} (s : State) (g off : Nat) (write : Bool) (h_s : Keeps s0 s) : Keeps s0 (State.accRefused s g off write) := by
  rw [State.accRefused.eq_def]; try dsimp only
  repeat' first
    | with_reducible assumption
    | intro _
    | with_reducible apply ite_keeps
    | with_reducible apply raise_keeps
    | split
    | dsimp only

theorem accPut_keeps {s0 : State} (s : State) (g off : Nat) (bs : List Byte) (h_s : Keeps s0 s) : Keeps s0 (State.accPut s g off bs) := by
  rw [State.accPut.eq_def]; try dsimp only
  repeat' first
    | with_reducible assumption
    | intro _
    | with_reducible apply fields_keep
    | with_reducible apply markDormer_keeps
    | with_reducible apply updCl_keeps
    | simp only [keeps_mk]
    | dsimp only

theorem accRead_keeps {s0 : State} (s : State) (g off n : Nat) (h_s : Keeps s0 s) : Keeps s0 (State.accRead s g off n).2 := by
  rw [State.accRead.eq_def]; try dsimp only
  repeat' first
    | with_reducible assumption
    | intro _
    | with_reducible apply ite_keeps
    | with_reducible apply accRefused_keeps
    | split
    | dsimp only

theorem accWrite_keeps {s0 : State} (s : State) (g off : Nat) (bs : List Byte) (h_s : Keeps s0 s) : Keeps s0 (State.accWrite s g off bs) := by
  rw [State.accWrite.eq_def]; try dsimp only
  repeat' first
    | with_reducible assumption
    | intro _
    | with_reducible apply ite_keeps
    | with_reducible apply accPut_keeps
    | with_reducible apply accRefused_keeps
    | split
    | dsimp only

theorem segWrite_keeps {s0 : State} (s : State) (g t : Nat) (v : Word) (h_s : Keeps s0 s) : Keeps s0 (State.segWrite s g t v) := by
  rw [State.segWrite.eq_def]; try dsimp only
  repeat' first
    | with_reducible assumption
    | intro _
    | with_reducible apply ite_keeps
    | with_reducible apply fields_keep
    | with_reducible apply markDormer_keeps
    | with_reducible apply updCl_keeps
    | split
    | simp only [keeps_mk]
    | dsimp only

theorem ccCtrl_keeps {s0 : State} (s : State) (g : Nat) (v : Word) (h_s : Keeps s0 s) : Keeps s0 (State.ccCtrl s g v) := by
  rw [State.ccCtrl.eq_def]; try dsimp only
  repeat' first
    | with_reducible assumption
    | intro _
    | with_reducible apply ite_keeps
    | with_reducible apply fields_keep
    | with_reducible apply set_keeps
    | with_reducible apply updCl_keeps
    | split
    | simp only [keeps_mk]
    | dsimp only

/-! ## Machine/QueueOps.lean -/

theorem setQx_keeps {s0 : State} (s : State) (q : Nat) (x : QExtra) (h_s : Keeps s0 s) : Keeps s0 (State.setQx s q x) := by
  rw [State.setQx.eq_def]; try dsimp only
  repeat' first
    | with_reducible assumption
    | with_reducible apply fields_keep
    | simp only [keeps_mk]
    | dsimp only

theorem setQState_keeps {s0 : State} (s : State) (q st : Nat) (h_s : Keeps s0 s) : Keeps s0 (State.setQState s q st) := by
  rw [State.setQState.eq_def]; try dsimp only
  repeat' first
    | with_reducible assumption
    | intro _
    | with_reducible apply ite_keeps
    | with_reducible apply set_keeps
    | split
    | dsimp only

theorem bell_keeps {s0 : State} (s : State) (q : Nat) (head : Bool) (v : Nat) (h_s : Keeps s0 s) : Keeps s0 (State.bell s q head v) := by
  rw [State.bell.eq_def]; try dsimp only
  repeat' first
    | with_reducible assumption
    | intro _
    | with_reducible apply ite_keeps
    | with_reducible apply fields_keep
    | with_reducible apply raise_keeps
    | with_reducible apply set_keeps
    | with_reducible apply setQx_keeps
    | split
    | simp only [keeps_mk]
    | dsimp only

theorem doorbell_keeps {s0 : State} (s : State) (q : Nat) (head : Bool) (v : Nat) (h_s : Keeps s0 s) : Keeps s0 (State.doorbell s q head v) := by
  rw [State.doorbell.eq_def]; try dsimp only
  repeat' first
    | with_reducible assumption
    | intro _
    | with_reducible apply ite_keeps
    | with_reducible apply ite_opt
    | with_reducible apply some_keeps
    | with_reducible apply fields_keep
    | with_reducible apply bell_keeps
    | with_reducible apply setQx_keeps
    | with_reducible refine use_some ?_ (by with_reducible assumption)
    | split
    | simp only [keeps_mk]
    | dsimp only

theorem armIndexes_keeps {s0 : State} (s : State) (q : Nat) (h_s : Keeps s0 s) : Keeps s0 (State.armIndexes s q) := by
  rw [State.armIndexes.eq_def]; try dsimp only
  repeat' first
    | with_reducible assumption
    | intro _
    | with_reducible apply ite_keeps
    | with_reducible apply ite_opt
    | with_reducible apply none_keeps
    | with_reducible apply fields_keep
    | with_reducible apply setQx_keeps
    | split
    | simp only [keeps_mk]
    | dsimp only

theorem armQueue_keeps {s0 : State} (s : State) (q : Nat) (h_s : Keeps s0 s) : Keeps s0 (State.armQueue s q) := by
  rw [State.armQueue.eq_def]; try dsimp only
  repeat' first
    | with_reducible assumption
    | intro _
    | with_reducible apply ite_keeps
    | with_reducible apply ite_opt
    | with_reducible apply some_keeps
    | with_reducible apply none_keeps
    | with_reducible apply fields_keep
    | with_reducible apply armIndexes_keeps
    | with_reducible apply bell_keeps
    | with_reducible apply set_keeps
    | with_reducible apply setQState_keeps
    | with_reducible refine use_some ?_ (by with_reducible assumption)
    | split
    | simp only [keeps_mk]
    | dsimp only

theorem disarmQueue_keeps {s0 : State} (s : State) (q : Nat) (h_s : Keeps s0 s) : Keeps s0 (State.disarmQueue s q) := by
  rw [State.disarmQueue.eq_def]; try dsimp only
  repeat' first
    | with_reducible assumption
    | with_reducible apply setQState_keeps
    | dsimp only

theorem writeQcfg_keeps {s0 : State} (s : State) (q : Nat) (w : Word) (h_s : Keeps s0 s) : Keeps s0 (State.writeQcfg s q w) := by
  rw [State.writeQcfg.eq_def]; try dsimp only
  repeat' first
    | with_reducible assumption
    | intro _
    | with_reducible apply ite_keeps
    | with_reducible apply armQueue_keeps
    | with_reducible apply disarmQueue_keeps
    | with_reducible apply set_keeps
    | with_reducible apply wr_keeps
    | split
    | dsimp only

theorem writeQueueReg_keeps {s0 : State} (s : State) (r : Reg) (q : Nat) (mask : Nat) (w : Word) (h_s : Keeps s0 s) : Keeps s0 (State.writeQueueReg s r q mask w) := by
  rw [State.writeQueueReg.eq_def]; try dsimp only
  repeat' first
    | with_reducible assumption
    | intro _
    | with_reducible apply ite_keeps
    | with_reducible apply set_keeps
    | with_reducible apply wr_keeps
    | split
    | dsimp only

theorem writeQdb_keeps {s0 : State} (s : State) (q : Nat) (w : Word) (h_s : Keeps s0 s) : Keeps s0 (State.writeQdb s q w) := by
  rw [State.writeQdb.eq_def]; try dsimp only
  repeat' first
    | with_reducible assumption
    | with_reducible apply doorbell_keeps
    | dsimp only

/-! ## Machine/Security.lean -/

theorem extend_keeps {s0 : State} (s : State) (i : Nat) (v : List Byte) (h_s : Keeps s0 s) : Keeps s0 (State.extend s i v) := by
  rw [State.extend.eq_def]; try dsimp only
  repeat' first
    | with_reducible assumption
    | intro _
    | with_reducible apply wr_keeps
    | with_reducible apply foldl_keeps
    | with_reducible apply foldl_snd_keeps
    | with_reducible apply foldl_fst_keeps
    | dsimp only

theorem assess_keeps {s0 : State} (s : State) (h_s : Keeps s0 s) : Keeps s0 (State.assess s) := by
  rw [State.assess.eq_def]; try dsimp only
  repeat' first
    | with_reducible assumption
    | intro _
    | with_reducible apply ite_keeps
    | with_reducible apply set_keeps
    | split
    | dsimp only

theorem endDormer_keeps {s0 : State} (s : State) (h_s : Keeps s0 s) : Keeps s0 (State.endDormer s) := by
  rw [State.endDormer.eq_def]; try dsimp only
  repeat' first
    | with_reducible assumption
    | with_reducible apply none_keeps
    | with_reducible apply fields_keep
    | with_reducible apply set_keeps
    | with_reducible apply wr_keeps
    | simp only [keeps_mk]
    | dsimp only

theorem execDormerUnlock_keeps {s0 : State} (q : Fin 16384) (seq : Nat) (s : State) (h_s : Keeps s0 s) : OutKeeps s0 (execDormerUnlock q seq s) := by
  rw [execDormerUnlock.eq_def]; try dsimp only
  repeat' first
    | with_reducible assumption
    | intro _
    | with_reducible apply next_keeps
    | with_reducible apply some_keeps
    | with_reducible apply none_keeps
    | with_reducible apply fields_keep
    | with_reducible apply assess_keeps
    | with_reducible apply draw_keeps
    | with_reducible apply extend_keeps
    | with_reducible apply fail_keeps
    | with_reducible apply needA_keeps
    | with_reducible apply needMem_keeps
    | with_reducible apply readMem_keeps
    | with_reducible apply runCmd_keeps
    | with_reducible apply set_keeps
    | with_reducible apply succeed_keeps
    | with_reducible apply wr_keeps
    | with_reducible refine use_some ?_ (by with_reducible assumption)
    | split
    | simp only [keeps_mk]
    | dsimp only

theorem execDormerLock_keeps {s0 : State} (q : Fin 16384) (seq : Nat) (s : State) (h_s : Keeps s0 s) : OutKeeps s0 (execDormerLock q seq s) := by
  rw [execDormerLock.eq_def]; try dsimp only
  repeat' first
    | with_reducible assumption
    | intro _
    | with_reducible apply next_keeps
    | with_reducible apply endDormer_keeps
    | with_reducible apply runCmd_keeps
    | with_reducible apply succeed_keeps
    | dsimp only

theorem execDormerExpiry_keeps {s0 : State} (s : State) (h_s : Keeps s0 s) : OutKeeps s0 (execDormerExpiry s) := by
  rw [execDormerExpiry.eq_def]; try dsimp only
  repeat' first
    | with_reducible assumption
    | intro _
    | with_reducible apply next_keeps
    | with_reducible apply some_keeps
    | with_reducible apply none_keeps
    | with_reducible apply fields_keep
    | with_reducible apply advanceTo_keeps
    | with_reducible apply endDormer_keeps
    | with_reducible refine use_some ?_ (by with_reducible assumption)
    | split
    | simp only [keeps_mk]
    | dsimp only

theorem execAttest_keeps {s0 : State} (q : Fin 16384) (seq : Nat) (s : State) (h_s : Keeps s0 s) : OutKeeps s0 (execAttest q seq s) := by
  rw [execAttest.eq_def]; try dsimp only
  repeat' first
    | with_reducible assumption
    | intro _
    | with_reducible apply ite_keeps
    | with_reducible apply ite_out
    | with_reducible apply next_keeps
    | with_reducible apply needA_keeps
    | with_reducible apply needMem_keeps
    | with_reducible apply putOutput_keeps
    | with_reducible apply readMem_keeps
    | with_reducible apply runCmd_keeps
    | with_reducible apply succeed_keeps
    | with_reducible apply take_keeps
    | split
    | dsimp only

theorem execMeasurements_keeps {s0 : State} (q : Fin 16384) (seq : Nat) (s : State) (h_s : Keeps s0 s) : OutKeeps s0 (execMeasurements q seq s) := by
  rw [execMeasurements.eq_def]; try dsimp only
  repeat' first
    | with_reducible assumption
    | intro _
    | with_reducible apply next_keeps
    | with_reducible apply needA_keeps
    | with_reducible apply putOutput_keeps
    | with_reducible apply runCmd_keeps
    | with_reducible apply succeed_keeps
    | dsimp only

theorem settingsCommit_keeps {s0 : State} (s : State) (h_s : Keeps s0 s) : Keeps s0 (State.settingsCommit s) := by
  rw [State.settingsCommit.eq_def]; try dsimp only
  repeat' first
    | with_reducible assumption
    | with_reducible apply commitFields_keeps
    | dsimp only

theorem execSettingsCommit_keeps {s0 : State} (s : State) (h_s : Keeps s0 s) : OutKeeps s0 (execSettingsCommit s) := by
  rw [execSettingsCommit.eq_def]; try dsimp only
  repeat' first
    | with_reducible assumption
    | intro _
    | with_reducible apply next_keeps
    | with_reducible apply settingsCommit_keeps
    | dsimp only

theorem loadStaging_keeps {s0 : State} (s : State) (fields : List Byte) (h_s : Keeps s0 s) : Keeps s0 (State.loadStaging s fields) := by
  rw [State.loadStaging.eq_def]; try dsimp only
  repeat' first
    | with_reducible assumption
    | with_reducible apply fields_keep
    | simp only [keeps_mk]
    | dsimp only

theorem settingsRevert_keeps {s0 : State} (s : State) (h_s : Keeps s0 s) : Keeps s0 (State.settingsRevert s) := by
  rw [State.settingsRevert.eq_def]; try dsimp only
  repeat' first
    | with_reducible assumption
    | with_reducible apply loadStaging_keeps
    | dsimp only

theorem execSettingsRevert_keeps {s0 : State} (s : State) (h_s : Keeps s0 s) : OutKeeps s0 (execSettingsRevert s) := by
  rw [execSettingsRevert.eq_def]; try dsimp only
  repeat' first
    | with_reducible assumption
    | intro _
    | with_reducible apply next_keeps
    | with_reducible apply settingsRevert_keeps
    | dsimp only

theorem execCommitDone_keeps {s0 : State} (ok : Bool) (s : State) (h_s : Keeps s0 s) : OutKeeps s0 (execCommitDone ok s) := by
  rw [execCommitDone.eq_def]; try dsimp only
  repeat' first
    | with_reducible assumption
    | intro _
    | with_reducible apply ite_keeps
    | with_reducible apply ite_out
    | with_reducible apply ite_opt
    | with_reducible apply next_keeps
    | with_reducible apply some_keeps
    | with_reducible apply fields_keep
    | with_reducible apply jobDone_keeps
    | with_reducible apply set_keeps
    | with_reducible refine use_some ?_ (by with_reducible assumption)
    | split
    | simp only [keeps_mk]
    | dsimp only

theorem confirmed_keeps {s0 : State} (s : State) (h_s : Keeps s0 s) : Keeps s0 s.confirmed := by
  have up : ∀ t : State, Keeps s0 t → t.sec.flash.counter < t.sec.svn →
      Keeps s0 { t with sec := { t.sec with flash := { t.sec.flash with counter := t.sec.svn } } } :=
    fun t k lt => ⟨k.canon, k.pending, k.sent, k.counter.trans (Nat.le_of_lt lt)⟩
  rw [State.confirmed.eq_def]
  dsimp only
  refine raise_keeps _ _ _ _ ?_
  have k : Keeps s0 (s.set F.SEC_STATUS_TRIAL 0) := set_keeps _ _ _ _ _ h_s
  split
  · rename_i lt
    exact extend_keeps _ _ _ (set_keeps _ _ _ _ _ (up _ k lt))
  · exact k

theorem writeDirectory_keeps {s0 : State} (s : State) (h_s : Keeps s0 s) : Keeps s0 (State.writeDirectory s) := by
  rw [State.writeDirectory.eq_def]; try dsimp only
  repeat' first
    | with_reducible assumption
    | intro _
    | with_reducible apply ite_keeps
    | with_reducible apply fields_keep
    | with_reducible apply confirmed_keeps
    | split
    | simp only [keeps_mk]
    | dsimp only

theorem execFlashPageDone_keeps {s0 : State} (s : State) (h_s : Keeps s0 s) : OutKeeps s0 (execFlashPageDone s) := by
  rw [execFlashPageDone.eq_def]; try dsimp only
  repeat' first
    | with_reducible assumption
    | intro _
    | with_reducible apply ite_keeps
    | with_reducible apply ite_out
    | with_reducible apply ite_opt
    | with_reducible apply next_keeps
    | with_reducible apply some_keeps
    | with_reducible apply none_keeps
    | with_reducible apply fields_keep
    | with_reducible apply cause_keeps
    | with_reducible apply jobDone_keeps
    | with_reducible apply powerOnReset_keeps
    | with_reducible apply request_keeps
    | with_reducible apply writeDirectory_keeps
    | with_reducible refine use_some ?_ (by with_reducible assumption)
    | split
    | simp only [keeps_mk]
    | dsimp only

theorem onSoffit_keeps {s0 : State} (s : State) (crcOk : Bool) (f : State → State) (h_s : Keeps s0 s) (h_f : ∀ (y0 : State), Keeps s0 y0 → Keeps s0 (f y0)) : Keeps s0 (State.onSoffit s crcOk f) := by
  rw [State.onSoffit.eq_def]; try dsimp only
  repeat' first
    | with_reducible assumption
    | intro _
    | with_reducible apply ite_keeps
    | with_reducible apply h_f
    | split
    | dsimp only

theorem execStatus_keeps {s0 : State} (crcOk : Bool) (s : State) (h_s : Keeps s0 s) : OutKeeps s0 (execStatus crcOk s) := by
  rw [execStatus.eq_def]; try dsimp only
  repeat' first
    | with_reducible assumption
    | intro _
    | with_reducible apply next_keeps
    | with_reducible apply onSoffit_keeps
    | with_reducible apply send_keeps
    | dsimp only

theorem noteOther_keeps {s0 : State} (s : State) (h_s : Keeps s0 s) : Keeps s0 (State.noteOther s) := by
  rw [State.noteOther.eq_def]; try dsimp only
  repeat' first
    | with_reducible assumption
    | intro _
    | with_reducible apply ite_keeps
    | with_reducible apply set_keeps
    | split
    | dsimp only

theorem execIntakeBegin_keeps {s0 : State} (crcOk uart : Bool) (s : State) (h_s : Keeps s0 s) : OutKeeps s0 (execIntakeBegin crcOk uart s) := by
  rw [execIntakeBegin.eq_def]; try dsimp only
  repeat' first
    | with_reducible assumption
    | intro _
    | with_reducible apply ite_keeps
    | with_reducible apply ite_out
    | with_reducible apply next_keeps
    | with_reducible apply fields_keep
    | with_reducible apply intake_keeps
    | with_reducible apply noteOther_keeps
    | with_reducible apply onSoffit_keeps
    | with_reducible apply send_keeps
    | with_reducible apply set_keeps
    | split
    | simp only [keeps_mk]
    | dsimp only

theorem execIntakeData_keeps {s0 : State} (crcOk : Bool) (off : Nat) (bytes : List Byte) (s : State) (h_s : Keeps s0 s) : OutKeeps s0 (execIntakeData crcOk off bytes s) := by
  rw [execIntakeData.eq_def]; try dsimp only
  repeat' first
    | with_reducible assumption
    | intro _
    | with_reducible apply ite_keeps
    | with_reducible apply ite_out
    | with_reducible apply next_keeps
    | with_reducible apply fields_keep
    | with_reducible apply intake_keeps
    | with_reducible apply noteOther_keeps
    | with_reducible apply onSoffit_keeps
    | with_reducible apply send_keeps
    | with_reducible apply foldl_keeps
    | with_reducible apply foldl_snd_keeps
    | with_reducible apply foldl_fst_keeps
    | with_reducible apply getD_keeps
    | split
    | simp only [keeps_mk]
    | dsimp only

theorem execIntakeEnd_keeps {s0 : State} (crcOk : Bool) (s : State) (h_s : Keeps s0 s) : OutKeeps s0 (execIntakeEnd crcOk s) := by
  rw [execIntakeEnd.eq_def]; try dsimp only
  repeat' first
    | with_reducible assumption
    | intro _
    | with_reducible apply ite_keeps
    | with_reducible apply ite_out
    | with_reducible apply next_keeps
    | with_reducible apply fields_keep
    | with_reducible apply intake_keeps
    | with_reducible apply onSoffit_keeps
    | with_reducible apply send_keeps
    | with_reducible apply set_keeps
    | split
    | simp only [keeps_mk]
    | dsimp only

theorem execActivate_keeps {s0 : State} (crcOk force : Bool) (s : State) (h_s : Keeps s0 s) : OutKeeps s0 (execActivate crcOk force s) := by
  rw [execActivate.eq_def]; try dsimp only
  repeat' first
    | with_reducible assumption
    | intro _
    | with_reducible apply ite_keeps
    | with_reducible apply ite_out
    | with_reducible apply next_keeps
    | with_reducible apply fields_keep
    | with_reducible apply intake_keeps
    | with_reducible apply moduleReset_keeps
    | with_reducible apply onSoffit_keeps
    | with_reducible apply send_keeps
    | split
    | simp only [keeps_mk]
    | dsimp only

theorem execReset_keeps {s0 : State} (crcOk : Bool) (s : State) (h_s : Keeps s0 s) : OutKeeps s0 (execReset crcOk s) := by
  rw [execReset.eq_def]; try dsimp only
  repeat' first
    | with_reducible assumption
    | intro _
    | with_reducible apply next_keeps
    | with_reducible apply moduleReset_keeps
    | with_reducible apply onSoffit_keeps
    | with_reducible apply send_keeps
    | dsimp only

end Sys2Proof.Laws
end

