-- ==== Sys2Proof/Laws/KeepsAccess.lean ====
section
/-! SUPPORT. Every operation of accesses, the map of tables and fabric requests keeps the canonical forms and the
queue of commands. -/
set_option linter.all false
namespace Sys2Proof.Laws
open Sys2Proof.Machine

/-! ## Machine/Access.lean -/

/-- The state that a write of the local address space gives keeps them. -/
structure BusKeeps (s : State) (r : BusWrite) : Prop where
  use : ∀ t, (r = .done t ∨ r = .miss t ∨ (∃ x, r = .stopped x t) ∨ r = .waits t) → Keeps s t

theorem done_keeps {s0 t : State} (h : Keeps s0 t) : BusKeeps s0 (.done t) := by
  constructor; rintro u (e | e | ⟨y, e⟩ | e) <;> cases e; exact h
theorem miss_keeps {s0 t : State} (h : Keeps s0 t) : BusKeeps s0 (.miss t) := by
  constructor; rintro u (e | e | ⟨y, e⟩ | e) <;> cases e; exact h
theorem stopped_keeps {s0 t : State} {x : WriteStop} (h : Keeps s0 t) : BusKeeps s0 (.stopped x t) := by
  constructor; rintro u (e | e | ⟨y, e⟩ | e) <;> cases e; exact h
theorem waits_keeps {s0 t : State} (h : Keeps s0 t) : BusKeeps s0 (.waits t) := by
  constructor; rintro u (e | e | ⟨y, e⟩ | e) <;> cases e; exact h
theorem use_done {s0 t : State} {o : BusWrite} (h : BusKeeps s0 o) (e : o = .done t) : Keeps s0 t := h.use t (.inl e)
theorem use_miss {s0 t : State} {o : BusWrite} (h : BusKeeps s0 o) (e : o = .miss t) : Keeps s0 t := h.use t (.inr (.inl e))
theorem use_stopped {s0 t : State} {x : WriteStop} {o : BusWrite} (h : BusKeeps s0 o) (e : o = .stopped x t) : Keeps s0 t :=
  h.use t (.inr (.inr (.inl ⟨x, e⟩)))
theorem use_waits {s0 t : State} {o : BusWrite} (h : BusKeeps s0 o) (e : o = .waits t) : Keeps s0 t :=
  h.use t (.inr (.inr (.inr e)))

theorem clearRc_keeps {s0 : State} (s : State) (r : RegId) (h_s : Keeps s0 s) : Keeps s0 (State.clearRc s r) := by
  rw [State.clearRc.eq_def]; try dsimp only
  repeat' first
    | with_reducible assumption
    | intro _
    | with_reducible apply ite_keeps
    | with_reducible apply set_keeps
    | with_reducible apply wr_keeps
    | split
    | dsimp only

theorem plainWrite_keeps {s0 : State} (s : State) (r : RegId) (v : Word) (rej : State → State) (h_s : Keeps s0 s) (h_rej : ∀ (y0 : State), Keeps s0 y0 → Keeps s0 (rej y0)) : Keeps s0 (State.plainWrite s r v rej) := by
  rw [State.plainWrite.eq_def]; try dsimp only
  repeat' first
    | with_reducible assumption
    | intro _
    | with_reducible apply some_keeps
    | with_reducible apply none_keeps
    | with_reducible apply fields_keep
    | with_reducible apply wr_keeps
    | with_reducible apply h_rej
    | with_reducible refine use_some ?_ (by with_reducible assumption)
    | split
    | simp only [keeps_mk]
    | dsimp only

theorem writeIf_keeps {s0 : State} (s : State) (c : Bool) (r : RegId) (v : Word) (rej : State → State) (h_s : Keeps s0 s) (h_rej : ∀ (y0 : State), Keeps s0 y0 → Keeps s0 (rej y0)) : Keeps s0 (State.writeIf s c r v rej) := by
  rw [State.writeIf.eq_def]; try dsimp only
  repeat' first
    | with_reducible assumption
    | intro _
    | with_reducible apply ite_keeps
    | with_reducible apply plainWrite_keeps
    | with_reducible apply h_rej
    | split
    | dsimp only

theorem tbnRejected_keeps {s0 : State} (s : State) (die k : Nat) (event : Bool) (h_s : Keeps s0 s) : Keeps s0 (State.tbnRejected s die k event) := by
  rw [State.tbnRejected.eq_def]; try dsimp only
  repeat' first
    | with_reducible assumption
    | intro _
    | with_reducible apply ite_keeps
    | with_reducible apply fields_keep
    | with_reducible apply raise_keeps
    | with_reducible apply set_keeps
    | split
    | simp only [keeps_mk]
    | dsimp only

theorem writeSetting_keeps {s0 : State} (s : State) (die k : Nat) (v : Word) (h_s : Keeps s0 s) : Keeps s0 (State.writeSetting s die k v) := by
  rw [State.writeSetting.eq_def]; try dsimp only
  repeat' first
    | with_reducible assumption
    | intro _
    | with_reducible apply ite_keeps
    | with_reducible apply ite_opt
    | with_reducible apply some_keeps
    | with_reducible apply none_keeps
    | with_reducible apply fields_keep
    | with_reducible apply tbnRejected_keeps
    | with_reducible refine use_some ?_ (by with_reducible assumption)
    | split
    | simp only [keeps_mk]
    | dsimp only

theorem startScans_keeps {s0 : State} (s : State) (rs : List Nat) (h_s : Keeps s0 s) : Keeps s0 (State.startScans s rs) := by
  rw [State.startScans.eq_def]; try dsimp only
  repeat' first
    | with_reducible assumption
    | intro _
    | with_reducible apply ite_keeps
    | with_reducible apply fields_keep
    | with_reducible apply set_keeps
    | with_reducible apply setRegBit_keeps
    | with_reducible apply wr_keeps
    | with_reducible apply foldl_to_keeps BusRead.st
    | with_reducible apply foldl_keeps
    | with_reducible apply foldl_snd_keeps
    | with_reducible apply foldl_fst_keeps
    | split
    | simp only [keeps_mk]
    | dsimp only

theorem writeDkey_keeps {s0 : State} (s : State) (v : Word) (h_s : Keeps s0 s) : Keeps s0 (State.writeDkey s v) := by
  rw [State.writeDkey.eq_def]; try dsimp only
  repeat' first
    | with_reducible assumption
    | intro _
    | with_reducible apply ite_keeps
    | with_reducible apply set_keeps
    | with_reducible apply startScans_keeps
    | with_reducible apply wr_keeps
    | split
    | dsimp only

theorem ringSet_keeps {s0 : State} (s : State) (r : Reg) (h_s : Keeps s0 s) : Keeps s0 (State.ringSet s r) := by
  rw [State.ringSet.eq_def]; try dsimp only
  repeat' first
    | with_reducible assumption
    | intro _
    | with_reducible apply fields_keep
    | with_reducible apply set_keeps
    | split
    | simp only [keeps_mk]
    | dsimp only

theorem writeLedger_keeps {s0 : State} (s : State) (r : RegId) (v : Word) (h_s : Keeps s0 s) : Keeps s0 (State.writeLedger s r v) := by
  rw [State.writeLedger.eq_def]; try dsimp only
  repeat' first
    | with_reducible assumption
    | intro _
    | with_reducible apply ite_keeps
    | with_reducible apply ite_opt
    | with_reducible apply some_keeps
    | with_reducible apply none_keeps
    | with_reducible apply fields_keep
    | with_reducible apply ringSet_keeps
    | with_reducible apply set_keeps
    | with_reducible apply wr_keeps
    | with_reducible refine use_some ?_ (by with_reducible assumption)
    | split
    | simp only [keeps_mk]
    | dsimp only

theorem writeMemCtrl_keeps {s0 : State} (s : State) (ctl : Nat) (r : RegId) (v : Word) (h_s : Keeps s0 s) : Keeps s0 (State.writeMemCtrl s ctl r v) := by
  rw [State.writeMemCtrl.eq_def]; try dsimp only
  repeat' first
    | with_reducible assumption
    | intro _
    | with_reducible apply some_keeps
    | with_reducible apply none_keeps
    | with_reducible apply fields_keep
    | with_reducible apply set_keeps
    | with_reducible refine use_some ?_ (by with_reducible assumption)
    | split
    | simp only [keeps_mk]
    | dsimp only

theorem writePwrCtrl_keeps {s0 : State} (s : State) (die : Nat) (v : Word) (h_s : Keeps s0 s) : Keeps s0 (State.writePwrCtrl s die v) := by
  rw [State.writePwrCtrl.eq_def]; try dsimp only
  repeat' first
    | with_reducible assumption
    | intro _
    | with_reducible apply ite_keeps
    | with_reducible apply plainWrite_keeps
    | with_reducible apply refreshPwr_keeps
    | with_reducible apply set_keeps
    | split
    | dsimp only

theorem writeUpd_keeps {s0 : State} (s : State) (r : RegId) (v : Word) (h_s : Keeps s0 s) : Keeps s0 (State.writeUpd s r v) := by
  rw [State.writeUpd.eq_def]; try dsimp only
  repeat' first
    | with_reducible assumption
    | intro _
    | with_reducible apply ite_keeps
    | with_reducible apply set_keeps
    | with_reducible apply writeIf_keeps
    | split
    | dsimp only

theorem regWrite_keeps {s0 : State} (s : State) (die : Nat) (r : RegId) (v : Word) (h_s : Keeps s0 s) : Keeps s0 (State.regWrite s die r v) := by
  rw [State.regWrite.eq_def]; try dsimp only
  repeat' first
    | with_reducible assumption
    | intro _
    | with_reducible apply ite_keeps
    | with_reducible apply fields_keep
    | with_reducible apply ccCtrl_keeps
    | with_reducible apply clearLost_keeps
    | with_reducible apply compChange_keeps
    | with_reducible apply haltRelease_keeps
    | with_reducible apply plainWrite_keeps
    | with_reducible apply segWrite_keeps
    | with_reducible apply set_keeps
    | with_reducible apply settingsCommit_keeps
    | with_reducible apply settingsRevert_keeps
    | with_reducible apply writeCap_keeps
    | with_reducible apply writeCoef_keeps
    | with_reducible apply writeDevnum_keeps
    | with_reducible apply writeDkey_keeps
    | with_reducible apply writeIf_keeps
    | with_reducible apply writeJflCfg_keeps
    | with_reducible apply writeLedger_keeps
    | with_reducible apply writeMemCtrl_keeps
    | with_reducible apply writePctrl_keeps
    | with_reducible apply writePolicy_keeps
    | with_reducible apply writePwrCtrl_keeps
    | with_reducible apply writeQcfg_keeps
    | with_reducible apply writeQdb_keeps
    | with_reducible apply writeQueueReg_keeps
    | with_reducible apply writeSetting_keeps
    | with_reducible apply writeUpd_keeps
    | split
    | simp only [keeps_mk]
    | dsimp only

theorem badAccess_keeps {s0 : State} (s : State) (die a n : Nat) (write : Bool) (h_s : Keeps s0 s) : Keeps s0 (State.badAccess s die a n write) := by
  rw [State.badAccess.eq_def]; try dsimp only
  repeat' first
    | with_reducible assumption
    | intro _
    | with_reducible apply ite_keeps
    | with_reducible apply raise_keeps
    | split
    | dsimp only

theorem placeRead_keeps {s0 : State} (s : State) (host : Bool) (a n die off : Nat) (p : Place) (h_s : Keeps s0 s) : Keeps s0 (State.placeRead s host a n die off p).st := by
  rw [State.placeRead.eq_def]; try dsimp only
  repeat' first
    | with_reducible assumption
    | intro _
    | with_reducible apply ite_keeps
    | with_reducible apply fields_keep
    | with_reducible apply accRead_keeps
    | with_reducible apply badAccess_keeps
    | with_reducible apply clearRc_keeps
    | split
    | simp only [keeps_mk]
    | dsimp only

theorem pieceRead_keeps {s0 : State} (s : State) (host : Bool) (a n : Nat) (h_s : Keeps s0 s) : Keeps s0 (State.pieceRead s host a n).st := by
  rw [State.pieceRead.eq_def]; try dsimp only
  repeat' first
    | with_reducible assumption
    | with_reducible apply placeRead_keeps
    | dsimp only

theorem accHold_keeps {s0 : State} (s : State) (w : Writer) (g off n : Nat) (write : Bool) (data : Option (List Byte)) (h_s : Keeps s0 s) : Keeps s0 (State.accHold s w g off n write data) := by
  rw [State.accHold.eq_def]; try dsimp only
  repeat' first
    | with_reducible assumption
    | intro _
    | with_reducible apply fields_keep
    | with_reducible apply updCl_keeps
    | simp only [keeps_mk]
    | dsimp only

theorem accJoin_keeps {s0 : State} (s : State) (w : Writer) (ps : List (Nat × Nat)) (write : Bool) (h_s : Keeps s0 s) : Keeps s0 (State.accJoin s w ps write) := by
  rw [State.accJoin.eq_def]; try dsimp only
  repeat' first
    | with_reducible assumption
    | intro _
    | with_reducible apply ite_keeps
    | with_reducible apply ite_opt
    | with_reducible apply some_keeps
    | with_reducible apply none_keeps
    | with_reducible apply fields_keep
    | with_reducible apply accHold_keeps
    | with_reducible apply foldl_to_keeps BusRead.st
    | with_reducible apply foldl_keeps
    | with_reducible apply foldl_snd_keeps
    | with_reducible apply foldl_fst_keeps
    | with_reducible refine use_some ?_ (by with_reducible assumption)
    | split
    | simp only [keeps_mk]
    | dsimp only

theorem accLeave_keeps {s0 : State} (s : State) (w : Writer) (g off n : Nat) (write : Bool) (h_s : Keeps s0 s) : Keeps s0 (State.accLeave s w g off n write) := by
  rw [State.accLeave.eq_def]; try dsimp only
  repeat' first
    | with_reducible assumption
    | intro _
    | with_reducible apply ite_keeps
    | with_reducible apply ite_opt
    | with_reducible apply some_keeps
    | with_reducible apply none_keeps
    | with_reducible apply fields_keep
    | with_reducible apply raise_keeps
    | with_reducible apply updCl_keeps
    | with_reducible refine use_some ?_ (by with_reducible assumption)
    | split
    | simp only [keeps_mk]
    | dsimp only

theorem turnRead_keeps {s0 : State} (s : State) (w : Writer) (a n : Nat) (h_s : Keeps s0 s) : Keeps s0 (State.turnRead s w a n).st := by
  rw [State.turnRead.eq_def]; try dsimp only
  repeat' first
    | with_reducible assumption
    | intro _
    | with_reducible apply ite_keeps
    | with_reducible apply ite_opt
    | with_reducible apply some_keeps
    | with_reducible apply none_keeps
    | with_reducible apply fields_keep
    | with_reducible apply accLeave_keeps
    | with_reducible apply pieceRead_keeps
    | with_reducible refine use_some ?_ (by with_reducible assumption)
    | split
    | simp only [keeps_mk]
    | dsimp only

theorem windowRead_keeps {s0 : State} (s : State) (w : Writer) (a n : Nat) (h_s : Keeps s0 s) : Keeps s0 (State.windowRead s w a n).st := by
  rw [State.windowRead.eq_def]; try dsimp only
  repeat' first
    | with_reducible assumption
    | intro _
    | with_reducible apply ite_keeps
    | with_reducible apply fields_keep
    | with_reducible apply accJoin_keeps
    | with_reducible apply turnRead_keeps
    | with_reducible apply foldl_to_keeps BusRead.st
    | with_reducible apply foldl_keeps
    | with_reducible apply foldl_snd_keeps
    | with_reducible apply foldl_fst_keeps
    | split
    | simp only [keeps_mk]
    | dsimp only

theorem placeWrite_keeps {s0 : State} (s : State) (host : Bool) (a : Nat) (bs : List Byte) (die off : Nat) (p : Place) (h_s : Keeps s0 s) : Keeps s0 (State.placeWrite s host a bs die off p) := by
  rw [State.placeWrite.eq_def]; try dsimp only
  repeat' first
    | with_reducible assumption
    | intro _
    | with_reducible apply ite_keeps
    | with_reducible apply fields_keep
    | with_reducible apply accWrite_keeps
    | with_reducible apply badAccess_keeps
    | with_reducible apply lbExternal_keeps
    | with_reducible apply programWrite_keeps
    | with_reducible apply raise_keeps
    | with_reducible apply regWrite_keeps
    | with_reducible apply scalarWrite_keeps
    | with_reducible apply take_keeps
    | with_reducible apply updCl_keeps
    | split
    | simp only [keeps_mk]
    | dsimp only

theorem pieceWrite_keeps {s0 : State} (s : State) (host : Bool) (a : Nat) (bs : List Byte) (h_s : Keeps s0 s) : Keeps s0 (State.pieceWrite s host a bs) := by
  rw [State.pieceWrite.eq_def]; try dsimp only
  repeat' first
    | with_reducible assumption
    | with_reducible apply placeWrite_keeps
    | dsimp only

theorem turnWrite_keeps {s0 : State} (s : State) (w : Writer) (a : Nat) (bs : List Byte) (h_s : Keeps s0 s) : Keeps s0 (State.turnWrite s w a bs) := by
  rw [State.turnWrite.eq_def]; try dsimp only
  repeat' first
    | with_reducible assumption
    | intro _
    | with_reducible apply ite_keeps
    | with_reducible apply ite_opt
    | with_reducible apply some_keeps
    | with_reducible apply none_keeps
    | with_reducible apply fields_keep
    | with_reducible apply accLeave_keeps
    | with_reducible apply pieceWrite_keeps
    | with_reducible refine use_some ?_ (by with_reducible assumption)
    | split
    | simp only [keeps_mk]
    | dsimp only

theorem windowWrite_keeps {s0 : State} (s : State) (w : Writer) (a : Nat) (bs : List Byte) (h_s : Keeps s0 s) : Keeps s0 (State.windowWrite s w a bs).2 := by
  rw [State.windowWrite.eq_def]; try dsimp only
  repeat' first
    | with_reducible assumption
    | intro _
    | with_reducible apply ite_keeps
    | with_reducible apply accJoin_keeps
    | with_reducible apply take_keeps
    | with_reducible apply turnWrite_keeps
    | with_reducible apply foldl_to_keeps BusRead.st
    | with_reducible apply foldl_keeps
    | with_reducible apply foldl_snd_keeps
    | with_reducible apply foldl_fst_keeps
    | split
    | dsimp only

theorem windowHold_keeps {s0 : State} (s : State) (a n : Nat) (data : Option (List Byte)) (h_s : Keeps s0 s) : Keeps s0 (State.windowHold s a n data) := by
  rw [State.windowHold.eq_def]; try dsimp only
  repeat' first
    | with_reducible assumption
    | intro _
    | with_reducible apply ite_keeps
    | with_reducible apply ite_opt
    | with_reducible apply some_keeps
    | with_reducible apply none_keeps
    | with_reducible apply fields_keep
    | with_reducible apply accHold_keeps
    | with_reducible apply pieceRead_keeps
    | with_reducible apply pieceWrite_keeps
    | with_reducible apply send_keeps
    | with_reducible apply take_keeps
    | with_reducible apply foldl_to_keeps BusRead.st
    | with_reducible apply foldl_keeps
    | with_reducible apply foldl_snd_keeps
    | with_reducible apply foldl_fst_keeps
    | with_reducible refine use_some ?_ (by with_reducible assumption)
    | split
    | simp only [keeps_mk]
    | dsimp only

theorem accServe_keeps {s0 : State} (s : State) (g : Nat) (x : AccWait) (h_s : Keeps s0 s) : Keeps s0 (State.accServe s g x) := by
  rw [State.accServe.eq_def]; try dsimp only
  repeat' first
    | with_reducible assumption
    | intro _
    | with_reducible apply some_keeps
    | with_reducible apply none_keeps
    | with_reducible apply fields_keep
    | with_reducible apply accRead_keeps
    | with_reducible apply accWrite_keeps
    | with_reducible apply send_keeps
    | with_reducible refine use_some ?_ (by with_reducible assumption)
    | split
    | simp only [keeps_mk]
    | dsimp only

theorem accRetry_keeps {s0 : State} (s : State) (g : Nat) (h_s : Keeps s0 s) : Keeps s0 (State.accRetry s g) := by
  rw [State.accRetry.eq_def]; try dsimp only
  repeat' first
    | with_reducible assumption
    | intro _
    | with_reducible apply ite_keeps
    | with_reducible apply fields_keep
    | with_reducible apply accServe_keeps
    | with_reducible apply updCl_keeps
    | with_reducible apply foldl_to_keeps BusRead.st
    | with_reducible apply foldl_keeps
    | with_reducible apply foldl_snd_keeps
    | with_reducible apply foldl_fst_keeps
    | split
    | simp only [keeps_mk]
    | dsimp only

theorem missEvent_keeps {s0 : State} (s : State) (w : Writer) (a : Nat) (h_s : Keeps s0 s) : Keeps s0 (State.missEvent s w a) := by
  rw [State.missEvent.eq_def]; try dsimp only
  repeat' first
    | with_reducible assumption
    | with_reducible apply raise_keeps
    | dsimp only

theorem actBus_keeps {s0 : State} (s : State) (w : Writer) (a n : Nat) (h_s : Keeps s0 s) : Keeps s0 (State.actBus s w a n) := by
  rw [State.actBus.eq_def]; try dsimp only
  repeat' first
    | with_reducible assumption
    | intro _
    | with_reducible apply fields_keep
    | with_reducible apply actMem_keeps
    | split
    | simp only [keeps_mk]
    | dsimp only

theorem busRead_keeps {s0 : State} (s : State) (w : Writer) (a n : Nat) (h_s : Keeps s0 s) : Keeps s0 (State.busRead s w a n).st := by
  rw [State.busRead.eq_def]; try dsimp only
  repeat' first
    | with_reducible assumption
    | intro _
    | with_reducible apply ite_keeps
    | with_reducible apply fields_keep
    | with_reducible apply actBus_keeps
    | with_reducible apply missEvent_keeps
    | with_reducible apply readMem_keeps
    | with_reducible apply windowRead_keeps
    | with_reducible apply foldl_to_keeps BusRead.st
    | with_reducible apply done_keeps
    | with_reducible apply miss_keeps
    | with_reducible apply stopped_keeps
    | with_reducible apply waits_keeps
    | with_reducible refine use_done ?_ (by with_reducible assumption)
    | with_reducible refine use_miss ?_ (by with_reducible assumption)
    | with_reducible refine use_stopped ?_ (by with_reducible assumption)
    | with_reducible refine use_waits ?_ (by with_reducible assumption)
    | with_reducible apply foldl_keeps
    | with_reducible apply foldl_snd_keeps
    | with_reducible apply foldl_fst_keeps
    | split
    | simp only [keeps_mk]
    | dsimp only

theorem windowBus_keeps {s0 : State} (s : State) (w : Writer) (a : Nat) (bs : List Byte) (h_s : Keeps s0 s) : BusKeeps s0 (State.windowBus s w a bs) := by
  rw [State.windowBus.eq_def]; try dsimp only
  repeat' first
    | with_reducible assumption
    | intro _
    | with_reducible apply ite_keeps
    | with_reducible apply missEvent_keeps
    | with_reducible apply windowWrite_keeps
    | with_reducible apply done_keeps
    | with_reducible apply miss_keeps
    | with_reducible apply stopped_keeps
    | with_reducible apply waits_keeps
    | with_reducible refine use_done ?_ (by with_reducible assumption)
    | with_reducible refine use_miss ?_ (by with_reducible assumption)
    | with_reducible refine use_stopped ?_ (by with_reducible assumption)
    | with_reducible refine use_waits ?_ (by with_reducible assumption)
    | split
    | dsimp only

theorem hostMemWrite_keeps {s0 : State} (s : State) (a : Nat) (bs : List Byte) (h_s : Keeps s0 s) : Keeps s0 (State.hostMemWrite s a bs) := by
  rw [State.hostMemWrite.eq_def]; try dsimp only
  repeat' first
    | with_reducible assumption
    | intro _
    | with_reducible apply ite_keeps
    | with_reducible apply missEvent_keeps
    | with_reducible apply noteWriter_keeps
    | with_reducible apply take_keeps
    | with_reducible apply writeMem_keeps
    | with_reducible apply foldl_to_keeps BusRead.st
    | with_reducible apply foldl_keeps
    | with_reducible apply foldl_snd_keeps
    | with_reducible apply foldl_fst_keeps
    | split
    | dsimp only

theorem locWrite_keeps {s0 : State} (s : State) (w : Writer) (wad : Bool) (a : Nat) (bs : List Byte) (l : Loc) (h_s : Keeps s0 s) : BusKeeps s0 (State.locWrite s w wad a bs l) := by
  rw [State.locWrite.eq_def]; try dsimp only
  repeat' first
    | with_reducible assumption
    | intro _
    | with_reducible apply ite_keeps
    | with_reducible apply ite_opt
    | with_reducible apply some_keeps
    | with_reducible apply none_keeps
    | with_reducible apply fields_keep
    | with_reducible apply actBus_keeps
    | with_reducible apply hostMemWrite_keeps
    | with_reducible apply missEvent_keeps
    | with_reducible apply noteWriter_keeps
    | with_reducible apply refuseWrite_keeps
    | with_reducible apply windowBus_keeps
    | with_reducible apply writeMem_keeps
    | with_reducible apply done_keeps
    | with_reducible apply miss_keeps
    | with_reducible apply stopped_keeps
    | with_reducible apply waits_keeps
    | with_reducible refine use_done ?_ (by with_reducible assumption)
    | with_reducible refine use_miss ?_ (by with_reducible assumption)
    | with_reducible refine use_stopped ?_ (by with_reducible assumption)
    | with_reducible refine use_waits ?_ (by with_reducible assumption)
    | with_reducible refine use_some ?_ (by with_reducible assumption)
    | split
    | simp only [keeps_mk]
    | dsimp only

theorem busWrite_keeps {s0 : State} (s : State) (w : Writer) (wad : Bool) (a : Nat) (bs : List Byte) (h_s : Keeps s0 s) : BusKeeps s0 (State.busWrite s w wad a bs) := by
  rw [State.busWrite.eq_def]; try dsimp only
  repeat' first
    | with_reducible assumption
    | with_reducible apply locWrite_keeps
    | dsimp only

theorem postParts_keeps {s0 : State} (s : State) (w : Writer) (a : Nat) (bs : List Byte) (h_s : Keeps s0 s) : Keeps s0 (State.postParts s w a bs) := by
  rw [State.postParts.eq_def]; try dsimp only
  repeat' first
    | with_reducible assumption
    | intro _
    | with_reducible apply ite_keeps
    | with_reducible apply ite_opt
    | with_reducible apply some_keeps
    | with_reducible apply none_keeps
    | with_reducible apply fields_keep
    | with_reducible apply take_keeps
    | with_reducible apply turnWrite_keeps
    | with_reducible apply updCl_keeps
    | with_reducible apply foldl_to_keeps BusRead.st
    | with_reducible apply foldl_keeps
    | with_reducible apply foldl_snd_keeps
    | with_reducible apply foldl_fst_keeps
    | with_reducible refine use_some ?_ (by with_reducible assumption)
    | split
    | simp only [keeps_mk]
    | dsimp only

theorem busPost_keeps {s0 : State} (s : State) (w : Writer) (wad : Bool) (a : Nat) (bs : List Byte) (h_s : Keeps s0 s) : BusKeeps s0 (State.busPost s w wad a bs) := by
  rw [State.busPost.eq_def]; try dsimp only
  repeat' first
    | with_reducible assumption
    | intro _
    | with_reducible apply fields_keep
    | with_reducible apply busWrite_keeps
    | with_reducible apply postParts_keeps
    | with_reducible apply done_keeps
    | with_reducible apply miss_keeps
    | with_reducible apply stopped_keeps
    | with_reducible apply waits_keeps
    | with_reducible refine use_done ?_ (by with_reducible assumption)
    | with_reducible refine use_miss ?_ (by with_reducible assumption)
    | with_reducible refine use_stopped ?_ (by with_reducible assumption)
    | with_reducible refine use_waits ?_ (by with_reducible assumption)
    | split
    | simp only [keeps_mk]
    | dsimp only

/-! ## Machine/TableMap.lean -/

theorem shardLoad_keeps {s0 : State} (s : State) (table shard k n : Nat) (h_s : Keeps s0 s) : Keeps s0 (State.shardLoad s table shard k n) := by
  rw [State.shardLoad.eq_def]; try dsimp only
  repeat' first
    | with_reducible assumption
    | with_reducible apply fields_keep
    | simp only [keeps_mk]
    | dsimp only

theorem eavesDrop_keeps {s0 : State} (s : State) (table : Nat) (row : Nat → Bool) (h_s : Keeps s0 s) : Keeps s0 (State.eavesDrop s table row) := by
  rw [State.eavesDrop.eq_def]; try dsimp only
  repeat' first
    | with_reducible assumption
    | intro _
    | with_reducible apply ite_keeps
    | with_reducible apply fields_keep
    | with_reducible apply writeMem_keeps
    | with_reducible apply foldl_to_keeps BusRead.st
    | with_reducible apply foldl_keeps
    | with_reducible apply foldl_snd_keeps
    | with_reducible apply foldl_fst_keeps
    | split
    | simp only [keeps_mk]
    | dsimp only

/-! ## Machine/FabricFail.lean -/

theorem setYdescs_keeps {s0 : State} (s : State) (die : Nat) (l : List YDesc) (h_s : Keeps s0 s) : Keeps s0 (State.setYdescs s die l) := by
  rw [State.setYdescs.eq_def]; try dsimp only
  repeat' first
    | with_reducible assumption
    | with_reducible apply fields_keep
    | simp only [keeps_mk]
    | dsimp only

theorem updYdesc_keeps {s0 : State} (s : State) (die id : Nat) (f : YDesc → YDesc) (h_s : Keeps s0 s) : Keeps s0 (State.updYdesc s die id f) := by
  rw [State.updYdesc.eq_def]; try dsimp only
  repeat' first
    | with_reducible assumption
    | intro _
    | with_reducible apply ite_keeps
    | with_reducible apply setYdescs_keeps
    | split
    | dsimp only

theorem syncYlm_keeps {s0 : State} (s : State) (die : Nat) (h_s : Keeps s0 s) : Keeps s0 (State.syncYlm s die) := by
  rw [State.syncYlm.eq_def]; try dsimp only
  repeat' first
    | with_reducible assumption
    | intro _
    | with_reducible apply ite_keeps
    | with_reducible apply set_keeps
    | split
    | dsimp only

theorem failDesc_keeps {s0 : State} (s : State) (die id st detail : Nat) (h_s : Keeps s0 s) : Keeps s0 (State.failDesc s die id st detail) := by
  rw [State.failDesc.eq_def]; try dsimp only
  repeat' first
    | with_reducible assumption
    | intro _
    | with_reducible apply ite_keeps
    | with_reducible apply fields_keep
    | with_reducible apply detail_keeps
    | with_reducible apply syncYlm_keeps
    | with_reducible apply updYdesc_keeps
    | split
    | simp only [keeps_mk]
    | dsimp only

theorem remoteFail_keeps {s0 : State} (s : State) (die id st detail : Nat) (h_s : Keeps s0 s) : Keeps s0 (State.remoteFail s die id st detail) := by
  rw [State.remoteFail.eq_def]; try dsimp only
  repeat' first
    | with_reducible assumption
    | intro _
    | with_reducible apply ite_keeps
    | with_reducible apply ite_opt
    | with_reducible apply some_keeps
    | with_reducible apply none_keeps
    | with_reducible apply fields_keep
    | with_reducible apply abortCourse_keeps
    | with_reducible apply detail_keeps
    | with_reducible apply failDesc_keeps
    | with_reducible refine use_some ?_ (by with_reducible assumption)
    | split
    | simp only [keeps_mk]
    | dsimp only

theorem addFail_keeps {s0 : State} (s : State) (die id : Nat) (h_s : Keeps s0 s) : Keeps s0 (State.addFail s die id) := by
  rw [State.addFail.eq_def]; try dsimp only
  repeat' first
    | with_reducible assumption
    | intro _
    | with_reducible apply ite_keeps
    | with_reducible apply ite_opt
    | with_reducible apply some_keeps
    | with_reducible apply none_keeps
    | with_reducible apply fields_keep
    | with_reducible apply abortCourse_keeps
    | with_reducible apply detail_keeps
    | with_reducible apply syncYlm_keeps
    | with_reducible apply updYdesc_keeps
    | with_reducible refine use_some ?_ (by with_reducible assumption)
    | split
    | simp only [keeps_mk]
    | dsimp only

theorem sendRsp_keeps {s0 : State} (s : State) (dev rsp tag status : Nat) (unc : Bool) (payload : List Byte) (h_s : Keeps s0 s) : Keeps s0 (State.sendRsp s dev rsp tag status unc payload) := by
  rw [State.sendRsp.eq_def]; try dsimp only
  repeat' first
    | with_reducible assumption
    | intro _
    | with_reducible apply some_keeps
    | with_reducible apply none_keeps
    | with_reducible apply fields_keep
    | with_reducible apply pickPort_keeps
    | with_reducible apply sendAns_keeps
    | with_reducible refine use_some ?_ (by with_reducible assumption)
    | split
    | simp only [keeps_mk]
    | dsimp only

theorem respond_keeps {s0 : State} (s : State) (src epoch tag rsp status : Nat) (unc : Bool) (payload : List Byte) (h_s : Keeps s0 s) : Keeps s0 (State.respond s src epoch tag rsp status unc payload) := by
  rw [State.respond.eq_def]; try dsimp only
  repeat' first
    | with_reducible assumption
    | intro _
    | with_reducible apply fields_keep
    | with_reducible apply sendRsp_keeps
    | with_reducible apply updFab_keeps
    | simp only [keeps_mk]
    | dsimp only

theorem countRefusal_keeps {s0 : State} (s : State) (st : Nat) (h_s : Keeps s0 s) : Keeps s0 (State.countRefusal s st) := by
  rw [State.countRefusal.eq_def]; try dsimp only
  repeat' first
    | with_reducible assumption
    | intro _
    | with_reducible apply ite_keeps
    | with_reducible apply bump_keeps
    | with_reducible apply set_keeps
    | split
    | dsimp only

theorem epochSeen_keeps {s0 : State} (s : State) (h : FabHdr) (h_s : Keeps s0 s) : Keeps s0 (State.epochSeen s h) := by
  rw [State.epochSeen.eq_def]; try dsimp only
  repeat' first
    | with_reducible assumption
    | intro _
    | with_reducible apply some_keeps
    | with_reducible apply none_keeps
    | with_reducible apply fields_keep
    | with_reducible apply updFab_keeps
    | with_reducible refine use_some ?_ (by with_reducible assumption)
    | simp only [keeps_mk]
    | dsimp only

theorem takes_keeps {s0 : State} (s : State) (h : FabHdr) (f : State → State) (h_s : Keeps s0 s) (h_f : ∀ (y0 : State), Keeps s0 y0 → Keeps s0 (f y0)) : Keeps s0 (State.takes s h f) := by
  rw [State.takes.eq_def]; try dsimp only
  repeat' first
    | with_reducible assumption
    | intro _
    | with_reducible apply ite_keeps
    | with_reducible apply ite_opt
    | with_reducible apply some_keeps
    | with_reducible apply none_keeps
    | with_reducible apply fields_keep
    | with_reducible apply countRefusal_keeps
    | with_reducible apply epochSeen_keeps
    | with_reducible apply heard_keeps
    | with_reducible apply h_f
    | with_reducible refine use_some ?_ (by with_reducible assumption)
    | split
    | simp only [keeps_mk]
    | dsimp only

theorem serve_keeps {s0 : State} (s : State) (h : FabHdr) (rsp : Nat) (f : State → Served) (h_s : Keeps s0 s) (h_f : ∀ (y0 : State), Keeps s0 y0 → Keeps s0 (f y0).st) : Keeps s0 (State.serve s h rsp f) := by
  rw [State.serve.eq_def]; try dsimp only
  repeat' first
    | with_reducible assumption
    | intro _
    | with_reducible apply ite_keeps
    | with_reducible apply ite_opt
    | with_reducible apply some_keeps
    | with_reducible apply none_keeps
    | with_reducible apply fields_keep
    | with_reducible apply bump_keeps
    | with_reducible apply countRefusal_keeps
    | with_reducible apply epochSeen_keeps
    | with_reducible apply heard_keeps
    | with_reducible apply respond_keeps
    | with_reducible apply sendRsp_keeps
    | with_reducible apply h_f
    | with_reducible refine use_some ?_ (by with_reducible assumption)
    | split
    | simp only [keeps_mk]
    | dsimp only

theorem repairFail_keeps {s0 : State} (s : State) (h_s : Keeps s0 s) : Keeps s0 (State.repairFail s) := by
  rw [State.repairFail.eq_def]; try dsimp only
  repeat' first
    | with_reducible assumption
    | with_reducible apply fields_keep
    | with_reducible apply set_keeps
    | simp only [keeps_mk]
    | dsimp only

theorem moveFail_keeps {s0 : State} (s : State) (table shard : Nat) (h_s : Keeps s0 s) : Keeps s0 (State.moveFail s table shard) := by
  rw [State.moveFail.eq_def]; try dsimp only
  repeat' first
    | with_reducible assumption
    | intro _
    | with_reducible apply ite_keeps
    | with_reducible apply ite_opt
    | with_reducible apply some_keeps
    | with_reducible apply none_keeps
    | with_reducible apply fields_keep
    | with_reducible apply abortCourse_keeps
    | with_reducible apply writeMem_keeps
    | with_reducible refine use_some ?_ (by with_reducible assumption)
    | split
    | simp only [keeps_mk]
    | dsimp only

theorem failOwner_keeps {s0 : State} (s : State) (o : FabOwner) (st : Nat) (h_s : Keeps s0 s) : Keeps s0 (State.failOwner s o st) := by
  rw [State.failOwner.eq_def]; try dsimp only
  repeat' first
    | with_reducible assumption
    | intro _
    | with_reducible apply ite_keeps
    | with_reducible apply ite_opt
    | with_reducible apply some_keeps
    | with_reducible apply none_keeps
    | with_reducible apply fields_keep
    | with_reducible apply abortCourse_keeps
    | with_reducible apply addFail_keeps
    | with_reducible apply bump_keeps
    | with_reducible apply control_keeps
    | with_reducible apply fail_keeps
    | with_reducible apply moveFail_keeps
    | with_reducible apply remoteFail_keeps
    | with_reducible apply repairFail_keeps
    | with_reducible apply respond_keeps
    | with_reducible apply set_keeps
    | with_reducible apply updFab_keeps
    | with_reducible apply updYdesc_keeps
    | with_reducible apply withWaiting_keeps
    | with_reducible refine use_some ?_ (by with_reducible assumption)
    | split
    | simp only [keeps_mk]
    | dsimp only

theorem ask_keeps {s0 : State} (s : State) (q dev op addr len : Nat) (payload : List Byte) (o : FabOwner) (wad : Bool) (h_s : Keeps s0 s) : Keeps s0 (State.ask s q dev op addr len payload o wad) := by
  rw [State.ask.eq_def]; try dsimp only
  repeat' first
    | with_reducible assumption
    | intro _
    | with_reducible apply some_keeps
    | with_reducible apply none_keeps
    | with_reducible apply fields_keep
    | with_reducible apply failOwner_keeps
    | with_reducible apply request_keeps
    | with_reducible refine use_some ?_ (by with_reducible assumption)
    | split
    | simp only [keeps_mk]
    | dsimp only

theorem fabStore_keeps {s0 : State} (s : State) (q fa : Nat) (bs : List Byte) (o : FabOwner) (wad : Bool) (h_s : Keeps s0 s) : Keeps s0 (State.fabStore s q fa bs o wad) := by
  rw [State.fabStore.eq_def]; try dsimp only
  repeat' first
    | with_reducible assumption
    | intro _
    | with_reducible apply ask_keeps
    | with_reducible apply take_keeps
    | with_reducible apply foldl_to_keeps BusRead.st
    | with_reducible apply foldl_keeps
    | with_reducible apply foldl_snd_keeps
    | with_reducible apply foldl_fst_keeps
    | dsimp only

theorem sendForwards_keeps {s0 : State} (s : State) (h_s : Keeps s0 s) : Keeps s0 (State.sendForwards s) := by
  rw [State.sendForwards.eq_def]; try dsimp only
  repeat' first
    | with_reducible assumption
    | intro _
    | with_reducible apply fields_keep
    | with_reducible apply fabStore_keeps
    | with_reducible apply foldl_to_keeps BusRead.st
    | with_reducible apply foldl_keeps
    | with_reducible apply foldl_snd_keeps
    | with_reducible apply foldl_fst_keeps
    | simp only [keeps_mk]
    | dsimp only

theorem idle_keeps {s0 : State} (s : State) (h_s : Keeps s0 s) : Keeps s0 (State.idle s) := by
  rw [State.idle.eq_def]; try dsimp only
  repeat' first
    | with_reducible assumption
    | intro _
    | with_reducible apply ite_keeps
    | with_reducible apply sendForwards_keeps
    | with_reducible apply set_keeps
    | split
    | dsimp only

end Sys2Proof.Laws
end

