-- ==== Sys2Proof/Laws/KeepsTile.lean ====
section
/-! SUPPORT. Every operation of tile programs and chains keeps the canonical forms and the queue of commands. -/
set_option linter.all false
namespace Sys2Proof.Laws
open Sys2Proof.Machine

/-! ## Machine/TileIssue.lean -/

theorem raiseTile_keeps {s0 : State} (s : State) (g code addr : Nat) (h_s : Keeps s0 s) : Keeps s0 (State.raiseTile s g code addr) := by
  rw [State.raiseTile.eq_def]; try dsimp only
  repeat' first
    | with_reducible assumption
    | intro _
    | with_reducible apply ite_keeps
    | with_reducible apply bump_keeps
    | with_reducible apply set_keeps
    | with_reducible apply tileFault_keeps
    | split
    | dsimp only

theorem retire_keeps {s0 : State} (s : State) (g n : Nat) (h_s : Keeps s0 s) : Keeps s0 (State.retire s g n) := by
  rw [State.retire.eq_def]; try dsimp only
  repeat' first
    | with_reducible assumption
    | intro _
    | with_reducible apply ite_keeps
    | with_reducible apply ite_opt
    | with_reducible apply none_keeps
    | with_reducible apply fields_keep
    | with_reducible apply bumpWrap_keeps
    | with_reducible apply raiseTile_keeps
    | with_reducible apply set_keeps
    | with_reducible apply updCl_keeps
    | split
    | simp only [keeps_mk]
    | dsimp only

/-- What an instruction does and how it waits keep them. -/
structure OpKeeps (s0 : State) (t : TileOp) : Prop where
  run : ∀ s w, Keeps s0 s → Keeps s0 (t.run s w)
  wait : ∀ s w, Keeps s0 s → OptKeeps s0 (t.wait s w)

theorem issue_keeps {s0 : State} (s : State) (g : Nat) (t : TileOp) (h_s : Keeps s0 s) (h_t : OpKeeps s0 t) :
    Keeps s0 (State.issue s g t) := by
  rw [State.issue.eq_def]; try dsimp only
  split
  · exact h_s
  split
  · exact raiseTile_keeps _ _ _ _ h_s
  split
  · exact h_s
  split
  · exact raiseTile_keeps _ _ _ _ h_s
  split
  · exact set_keeps _ _ _ _ _ h_s
  split
  · rename_i h
    exact (h_t.wait _ _ h_s).use _ h
  split
  · refine raiseTile_keeps _ _ _ _ ?_
    split
    · exact missEvent_keeps _ _ _ h_s
    · exact h_s
  · exact retire_keeps _ _ _ (h_t.run _ _ h_s)

theorem scalarOp_keeps {s0 : State} (g op : Nat) (legal : Nat → Bool) (regs : Nat → List Nat)
    (faults : State → Nat → List TFault) (run : State → Nat → State) (h : ∀ s w, Keeps s0 s → Keeps s0 (run s w)) :
    OpKeeps s0 (scalarOp g op legal regs faults run) := ⟨h, fun _ _ _ => none_keeps⟩

/-! ## Machine/TileScalar.lean -/

theorem execNop_keeps {s0 : State} (g : Fin 1024) (s : State) (h_s : Keeps s0 s) : OutKeeps s0 (execNop g s) := by
  rw [execNop.eq_def]; try dsimp only
  repeat' first
    | with_reducible assumption
    | intro _
    | with_reducible apply next_keeps
    | with_reducible apply issue_keeps
    | with_reducible apply scalarOp_keeps
    | dsimp only

theorem aluOp_keeps {s0 : State} (g : Nat) : OpKeeps s0 (aluOp g) := by
  refine ⟨?_, ?_⟩ <;> intro s w h <;> simp only [aluOp, scalarOp]
  all_goals repeat' first
    | with_reducible assumption
    | intro _
    | with_reducible apply ite_keeps
    | with_reducible apply ite_out
    | with_reducible apply ite_opt
    | with_reducible apply next_keeps
    | with_reducible apply some_keeps
    | with_reducible apply none_keeps
    | with_reducible apply fields_keep
    | with_reducible apply fields_upset
    | with_reducible apply fields_filter
    | simp only [torn_counter]
    | with_reducible apply fields_reset
    | with_reducible apply fields_reset_regs
    | with_reducible apply scalarOp_keeps
    | with_reducible apply setSreg_keeps
    | with_reducible apply foldl_to_keeps BusRead.st
    | with_reducible apply done_keeps
    | with_reducible apply miss_keeps
    | with_reducible apply stopped_keeps
    | with_reducible apply waits_keeps
    | with_reducible refine use_done ?_ (by with_reducible assumption)
    | with_reducible refine use_miss ?_ (by with_reducible assumption)
    | with_reducible refine use_stopped ?_ (by with_reducible assumption)
    | with_reducible refine use_waits ?_ (by with_reducible assumption)
    | with_reducible apply foldl_keeps
    | with_reducible apply foldl_snd_keeps
    | with_reducible apply foldl_opt_keeps
    | with_reducible apply foldl_snd2_keeps
    | with_reducible apply foldl_fst_keeps
    | with_reducible apply getD_keeps
    | with_reducible apply somep_keeps
    | with_reducible apply nonep_keeps
    | with_reducible refine of_some (by with_reducible assumption)
    | with_reducible refine use_pair ?_ (by with_reducible assumption)
    | with_reducible refine use_some ?_ (by with_reducible assumption)
    | split
    | simp only [keeps_mk]
    | dsimp only

theorem execAlu_keeps {s0 : State} (g : Fin 1024) (s : State) (h_s : Keeps s0 s) : OutKeeps s0 (execAlu g s) := by
  rw [execAlu.eq_def]; try dsimp only
  repeat' first
    | with_reducible assumption
    | intro _
    | with_reducible apply next_keeps
    | with_reducible apply aluOp_keeps
    | with_reducible apply issue_keeps
    | dsimp only

theorem aluiOp_keeps {s0 : State} (g : Nat) : OpKeeps s0 (aluiOp g) := by
  refine ⟨?_, ?_⟩ <;> intro s w h <;> simp only [aluiOp, scalarOp]
  all_goals repeat' first
    | with_reducible assumption
    | intro _
    | with_reducible apply ite_keeps
    | with_reducible apply ite_out
    | with_reducible apply ite_opt
    | with_reducible apply next_keeps
    | with_reducible apply some_keeps
    | with_reducible apply none_keeps
    | with_reducible apply fields_keep
    | with_reducible apply fields_upset
    | with_reducible apply fields_filter
    | simp only [torn_counter]
    | with_reducible apply fields_reset
    | with_reducible apply fields_reset_regs
    | with_reducible apply scalarOp_keeps
    | with_reducible apply setSreg_keeps
    | with_reducible apply foldl_to_keeps BusRead.st
    | with_reducible apply done_keeps
    | with_reducible apply miss_keeps
    | with_reducible apply stopped_keeps
    | with_reducible apply waits_keeps
    | with_reducible refine use_done ?_ (by with_reducible assumption)
    | with_reducible refine use_miss ?_ (by with_reducible assumption)
    | with_reducible refine use_stopped ?_ (by with_reducible assumption)
    | with_reducible refine use_waits ?_ (by with_reducible assumption)
    | with_reducible apply foldl_keeps
    | with_reducible apply foldl_snd_keeps
    | with_reducible apply foldl_opt_keeps
    | with_reducible apply foldl_snd2_keeps
    | with_reducible apply foldl_fst_keeps
    | with_reducible apply getD_keeps
    | with_reducible apply somep_keeps
    | with_reducible apply nonep_keeps
    | with_reducible refine of_some (by with_reducible assumption)
    | with_reducible refine use_pair ?_ (by with_reducible assumption)
    | with_reducible refine use_some ?_ (by with_reducible assumption)
    | split
    | simp only [keeps_mk]
    | dsimp only

theorem execAlui_keeps {s0 : State} (g : Fin 1024) (s : State) (h_s : Keeps s0 s) : OutKeeps s0 (execAlui g s) := by
  rw [execAlui.eq_def]; try dsimp only
  repeat' first
    | with_reducible assumption
    | intro _
    | with_reducible apply next_keeps
    | with_reducible apply aluiOp_keeps
    | with_reducible apply issue_keeps
    | dsimp only

theorem lihOp_keeps {s0 : State} (g : Nat) : OpKeeps s0 (lihOp g) := by
  refine ⟨?_, ?_⟩ <;> intro s w h <;> simp only [lihOp, scalarOp]
  all_goals repeat' first
    | with_reducible assumption
    | intro _
    | with_reducible apply ite_keeps
    | with_reducible apply ite_out
    | with_reducible apply ite_opt
    | with_reducible apply next_keeps
    | with_reducible apply some_keeps
    | with_reducible apply none_keeps
    | with_reducible apply fields_keep
    | with_reducible apply fields_upset
    | with_reducible apply fields_filter
    | simp only [torn_counter]
    | with_reducible apply fields_reset
    | with_reducible apply fields_reset_regs
    | with_reducible apply scalarOp_keeps
    | with_reducible apply setSreg_keeps
    | with_reducible apply foldl_to_keeps BusRead.st
    | with_reducible apply done_keeps
    | with_reducible apply miss_keeps
    | with_reducible apply stopped_keeps
    | with_reducible apply waits_keeps
    | with_reducible refine use_done ?_ (by with_reducible assumption)
    | with_reducible refine use_miss ?_ (by with_reducible assumption)
    | with_reducible refine use_stopped ?_ (by with_reducible assumption)
    | with_reducible refine use_waits ?_ (by with_reducible assumption)
    | with_reducible apply foldl_keeps
    | with_reducible apply foldl_snd_keeps
    | with_reducible apply foldl_opt_keeps
    | with_reducible apply foldl_snd2_keeps
    | with_reducible apply foldl_fst_keeps
    | with_reducible apply getD_keeps
    | with_reducible apply somep_keeps
    | with_reducible apply nonep_keeps
    | with_reducible refine of_some (by with_reducible assumption)
    | with_reducible refine use_pair ?_ (by with_reducible assumption)
    | with_reducible refine use_some ?_ (by with_reducible assumption)
    | split
    | simp only [keeps_mk]
    | dsimp only

theorem execLih_keeps {s0 : State} (g : Fin 1024) (s : State) (h_s : Keeps s0 s) : OutKeeps s0 (execLih g s) := by
  rw [execLih.eq_def]; try dsimp only
  repeat' first
    | with_reducible assumption
    | intro _
    | with_reducible apply next_keeps
    | with_reducible apply issue_keeps
    | with_reducible apply lihOp_keeps
    | dsimp only

theorem ctxEvents_keeps {s0 : State} (s : State) (g : Nat) (n : EvCount) (h_s : Keeps s0 s) : Keeps s0 (State.ctxEvents s g n) := by
  rw [State.ctxEvents.eq_def]; try dsimp only
  repeat' first
    | with_reducible assumption
    | with_reducible apply countEvents_keeps
    | dsimp only

theorem faluOp_keeps {s0 : State} (g : Nat) : OpKeeps s0 (faluOp g) := by
  refine ⟨?_, ?_⟩ <;> intro s w h <;> simp only [faluOp, scalarOp]
  all_goals repeat' first
    | with_reducible assumption
    | intro _
    | with_reducible apply ite_keeps
    | with_reducible apply ite_out
    | with_reducible apply ite_opt
    | with_reducible apply next_keeps
    | with_reducible apply some_keeps
    | with_reducible apply none_keeps
    | with_reducible apply fields_keep
    | with_reducible apply fields_upset
    | with_reducible apply fields_filter
    | simp only [torn_counter]
    | with_reducible apply fields_reset
    | with_reducible apply fields_reset_regs
    | with_reducible apply ctxEvents_keeps
    | with_reducible apply scalarOp_keeps
    | with_reducible apply setSreg_keeps
    | with_reducible apply foldl_to_keeps BusRead.st
    | with_reducible apply done_keeps
    | with_reducible apply miss_keeps
    | with_reducible apply stopped_keeps
    | with_reducible apply waits_keeps
    | with_reducible refine use_done ?_ (by with_reducible assumption)
    | with_reducible refine use_miss ?_ (by with_reducible assumption)
    | with_reducible refine use_stopped ?_ (by with_reducible assumption)
    | with_reducible refine use_waits ?_ (by with_reducible assumption)
    | with_reducible apply foldl_keeps
    | with_reducible apply foldl_snd_keeps
    | with_reducible apply foldl_opt_keeps
    | with_reducible apply foldl_snd2_keeps
    | with_reducible apply foldl_fst_keeps
    | with_reducible apply getD_keeps
    | with_reducible apply somep_keeps
    | with_reducible apply nonep_keeps
    | with_reducible refine of_some (by with_reducible assumption)
    | with_reducible refine use_pair ?_ (by with_reducible assumption)
    | with_reducible refine use_some ?_ (by with_reducible assumption)
    | split
    | simp only [keeps_mk]
    | dsimp only

theorem execFalu_keeps {s0 : State} (g : Fin 1024) (s : State) (h_s : Keeps s0 s) : OutKeeps s0 (execFalu g s) := by
  rw [execFalu.eq_def]; try dsimp only
  repeat' first
    | with_reducible assumption
    | intro _
    | with_reducible apply next_keeps
    | with_reducible apply faluOp_keeps
    | with_reducible apply issue_keeps
    | dsimp only

theorem sscaleOp_keeps {s0 : State} (g : Nat) : OpKeeps s0 (sscaleOp g) := by
  refine ⟨?_, ?_⟩ <;> intro s w h <;> simp only [sscaleOp, scalarOp]
  all_goals repeat' first
    | with_reducible assumption
    | intro _
    | with_reducible apply ite_keeps
    | with_reducible apply ite_opt
    | with_reducible apply some_keeps
    | with_reducible apply none_keeps
    | with_reducible apply fields_keep
    | with_reducible apply ctxEvents_keeps
    | with_reducible apply scalarOp_keeps
    | with_reducible apply setSreg_keeps
    | with_reducible refine use_some ?_ (by with_reducible assumption)
    | split
    | simp only [keeps_mk]
    | dsimp only

theorem execSscale_keeps {s0 : State} (g : Fin 1024) (s : State) (h_s : Keeps s0 s) : OutKeeps s0 (execSscale g s) := by
  rw [execSscale.eq_def]; try dsimp only
  repeat' first
    | with_reducible assumption
    | intro _
    | with_reducible apply next_keeps
    | with_reducible apply issue_keeps
    | with_reducible apply sscaleOp_keeps
    | dsimp only

theorem brOp_keeps {s0 : State} (g : Nat) : OpKeeps s0 (brOp g) := by
  refine ⟨?_, ?_⟩ <;> intro s w h <;> simp only [brOp, scalarOp]
  all_goals repeat' first
    | with_reducible assumption
    | intro _
    | with_reducible apply ite_keeps
    | with_reducible apply ite_out
    | with_reducible apply ite_opt
    | with_reducible apply next_keeps
    | with_reducible apply some_keeps
    | with_reducible apply none_keeps
    | with_reducible apply fields_keep
    | with_reducible apply fields_upset
    | with_reducible apply fields_filter
    | simp only [torn_counter]
    | with_reducible apply fields_reset
    | with_reducible apply fields_reset_regs
    | with_reducible apply scalarOp_keeps
    | with_reducible apply foldl_to_keeps BusRead.st
    | with_reducible apply done_keeps
    | with_reducible apply miss_keeps
    | with_reducible apply stopped_keeps
    | with_reducible apply waits_keeps
    | with_reducible refine use_done ?_ (by with_reducible assumption)
    | with_reducible refine use_miss ?_ (by with_reducible assumption)
    | with_reducible refine use_stopped ?_ (by with_reducible assumption)
    | with_reducible refine use_waits ?_ (by with_reducible assumption)
    | with_reducible apply foldl_keeps
    | with_reducible apply foldl_snd_keeps
    | with_reducible apply foldl_opt_keeps
    | with_reducible apply foldl_snd2_keeps
    | with_reducible apply foldl_fst_keeps
    | with_reducible apply getD_keeps
    | with_reducible apply somep_keeps
    | with_reducible apply nonep_keeps
    | with_reducible refine of_some (by with_reducible assumption)
    | with_reducible refine use_pair ?_ (by with_reducible assumption)
    | with_reducible refine use_some ?_ (by with_reducible assumption)
    | split
    | simp only [keeps_mk]
    | dsimp only

theorem execBr_keeps {s0 : State} (g : Fin 1024) (s : State) (h_s : Keeps s0 s) : OutKeeps s0 (execBr g s) := by
  rw [execBr.eq_def]; try dsimp only
  repeat' first
    | with_reducible assumption
    | intro _
    | with_reducible apply next_keeps
    | with_reducible apply brOp_keeps
    | with_reducible apply issue_keeps
    | dsimp only

theorem jalOp_keeps {s0 : State} (g : Nat) : OpKeeps s0 (jalOp g) := by
  refine ⟨?_, ?_⟩ <;> intro s w h <;> simp only [jalOp, scalarOp]
  all_goals repeat' first
    | with_reducible assumption
    | intro _
    | with_reducible apply ite_keeps
    | with_reducible apply ite_out
    | with_reducible apply ite_opt
    | with_reducible apply next_keeps
    | with_reducible apply some_keeps
    | with_reducible apply none_keeps
    | with_reducible apply fields_keep
    | with_reducible apply fields_upset
    | with_reducible apply fields_filter
    | simp only [torn_counter]
    | with_reducible apply fields_reset
    | with_reducible apply fields_reset_regs
    | with_reducible apply scalarOp_keeps
    | with_reducible apply setSreg_keeps
    | with_reducible apply foldl_to_keeps BusRead.st
    | with_reducible apply done_keeps
    | with_reducible apply miss_keeps
    | with_reducible apply stopped_keeps
    | with_reducible apply waits_keeps
    | with_reducible refine use_done ?_ (by with_reducible assumption)
    | with_reducible refine use_miss ?_ (by with_reducible assumption)
    | with_reducible refine use_stopped ?_ (by with_reducible assumption)
    | with_reducible refine use_waits ?_ (by with_reducible assumption)
    | with_reducible apply foldl_keeps
    | with_reducible apply foldl_snd_keeps
    | with_reducible apply foldl_opt_keeps
    | with_reducible apply foldl_snd2_keeps
    | with_reducible apply foldl_fst_keeps
    | with_reducible apply getD_keeps
    | with_reducible apply somep_keeps
    | with_reducible apply nonep_keeps
    | with_reducible refine of_some (by with_reducible assumption)
    | with_reducible refine use_pair ?_ (by with_reducible assumption)
    | with_reducible refine use_some ?_ (by with_reducible assumption)
    | split
    | simp only [keeps_mk]
    | dsimp only

theorem execJal_keeps {s0 : State} (g : Fin 1024) (s : State) (h_s : Keeps s0 s) : OutKeeps s0 (execJal g s) := by
  rw [execJal.eq_def]; try dsimp only
  repeat' first
    | with_reducible assumption
    | intro _
    | with_reducible apply next_keeps
    | with_reducible apply issue_keeps
    | with_reducible apply jalOp_keeps
    | dsimp only

theorem jalrOp_keeps {s0 : State} (g : Nat) : OpKeeps s0 (jalrOp g) := by
  refine ⟨?_, ?_⟩ <;> intro s w h <;> simp only [jalrOp, scalarOp]
  all_goals repeat' first
    | with_reducible assumption
    | intro _
    | with_reducible apply ite_keeps
    | with_reducible apply ite_out
    | with_reducible apply ite_opt
    | with_reducible apply next_keeps
    | with_reducible apply some_keeps
    | with_reducible apply none_keeps
    | with_reducible apply fields_keep
    | with_reducible apply fields_upset
    | with_reducible apply fields_filter
    | simp only [torn_counter]
    | with_reducible apply fields_reset
    | with_reducible apply fields_reset_regs
    | with_reducible apply scalarOp_keeps
    | with_reducible apply setSreg_keeps
    | with_reducible apply foldl_to_keeps BusRead.st
    | with_reducible apply done_keeps
    | with_reducible apply miss_keeps
    | with_reducible apply stopped_keeps
    | with_reducible apply waits_keeps
    | with_reducible refine use_done ?_ (by with_reducible assumption)
    | with_reducible refine use_miss ?_ (by with_reducible assumption)
    | with_reducible refine use_stopped ?_ (by with_reducible assumption)
    | with_reducible refine use_waits ?_ (by with_reducible assumption)
    | with_reducible apply foldl_keeps
    | with_reducible apply foldl_snd_keeps
    | with_reducible apply foldl_opt_keeps
    | with_reducible apply foldl_snd2_keeps
    | with_reducible apply foldl_fst_keeps
    | with_reducible apply getD_keeps
    | with_reducible apply somep_keeps
    | with_reducible apply nonep_keeps
    | with_reducible refine of_some (by with_reducible assumption)
    | with_reducible refine use_pair ?_ (by with_reducible assumption)
    | with_reducible refine use_some ?_ (by with_reducible assumption)
    | split
    | simp only [keeps_mk]
    | dsimp only

theorem execJalr_keeps {s0 : State} (g : Fin 1024) (s : State) (h_s : Keeps s0 s) : OutKeeps s0 (execJalr g s) := by
  rw [execJalr.eq_def]; try dsimp only
  repeat' first
    | with_reducible assumption
    | intro _
    | with_reducible apply next_keeps
    | with_reducible apply issue_keeps
    | with_reducible apply jalrOp_keeps
    | dsimp only

theorem ldlOp_keeps {s0 : State} (g : Nat) : OpKeeps s0 (ldlOp g) := by
  refine ⟨?_, ?_⟩ <;> intro s w h <;> simp only [ldlOp, scalarOp]
  all_goals repeat' first
    | with_reducible assumption
    | intro _
    | with_reducible apply ite_keeps
    | with_reducible apply ite_out
    | with_reducible apply ite_opt
    | with_reducible apply next_keeps
    | with_reducible apply some_keeps
    | with_reducible apply none_keeps
    | with_reducible apply fields_keep
    | with_reducible apply fields_upset
    | with_reducible apply fields_filter
    | simp only [torn_counter]
    | with_reducible apply fields_reset
    | with_reducible apply fields_reset_regs
    | with_reducible apply act_keeps
    | with_reducible apply scalarOp_keeps
    | with_reducible apply setSreg_keeps
    | with_reducible apply foldl_to_keeps BusRead.st
    | with_reducible apply done_keeps
    | with_reducible apply miss_keeps
    | with_reducible apply stopped_keeps
    | with_reducible apply waits_keeps
    | with_reducible refine use_done ?_ (by with_reducible assumption)
    | with_reducible refine use_miss ?_ (by with_reducible assumption)
    | with_reducible refine use_stopped ?_ (by with_reducible assumption)
    | with_reducible refine use_waits ?_ (by with_reducible assumption)
    | with_reducible apply foldl_keeps
    | with_reducible apply foldl_snd_keeps
    | with_reducible apply foldl_opt_keeps
    | with_reducible apply foldl_snd2_keeps
    | with_reducible apply foldl_fst_keeps
    | with_reducible apply getD_keeps
    | with_reducible apply somep_keeps
    | with_reducible apply nonep_keeps
    | with_reducible refine of_some (by with_reducible assumption)
    | with_reducible refine use_pair ?_ (by with_reducible assumption)
    | with_reducible refine use_some ?_ (by with_reducible assumption)
    | split
    | simp only [keeps_mk]
    | dsimp only

theorem execLdl_keeps {s0 : State} (g : Fin 1024) (s : State) (h_s : Keeps s0 s) : OutKeeps s0 (execLdl g s) := by
  rw [execLdl.eq_def]; try dsimp only
  repeat' first
    | with_reducible assumption
    | intro _
    | with_reducible apply next_keeps
    | with_reducible apply issue_keeps
    | with_reducible apply ldlOp_keeps
    | dsimp only

theorem lbWait_keeps {s0 : State} (s : State) (g a n : Nat) (h_s : Keeps s0 s) : OptKeeps s0 (State.lbWait s g a n) := by
  rw [State.lbWait.eq_def]; try dsimp only
  repeat' first
    | with_reducible assumption
    | intro _
    | with_reducible apply ite_keeps
    | with_reducible apply ite_opt
    | with_reducible apply some_keeps
    | with_reducible apply none_keeps
    | with_reducible apply pinWait_keeps
    | with_reducible refine use_some ?_ (by with_reducible assumption)
    | split
    | dsimp only

theorem stlOp_keeps {s0 : State} (g : Nat) : OpKeeps s0 (stlOp g) := by
  refine ⟨?_, ?_⟩ <;> intro s w h <;> simp only [stlOp, scalarOp]
  all_goals repeat' first
    | with_reducible assumption
    | intro _
    | with_reducible apply fields_keep
    | with_reducible apply act_keeps
    | with_reducible apply lbPut_keeps
    | with_reducible apply lbWait_keeps
    | with_reducible apply scalarOp_keeps
    | simp only [keeps_mk]
    | dsimp only

theorem execStl_keeps {s0 : State} (g : Fin 1024) (s : State) (h_s : Keeps s0 s) : OutKeeps s0 (execStl g s) := by
  rw [execStl.eq_def]; try dsimp only
  repeat' first
    | with_reducible assumption
    | intro _
    | with_reducible apply next_keeps
    | with_reducible apply issue_keeps
    | with_reducible apply stlOp_keeps
    | dsimp only

theorem ldmOp_keeps {s0 : State} (g : Nat) : OpKeeps s0 (ldmOp g) := by
  refine ⟨?_, ?_⟩ <;> intro s w h <;> simp only [ldmOp, scalarOp]
  all_goals repeat' first
    | with_reducible assumption
    | intro _
    | with_reducible apply ite_keeps
    | with_reducible apply ite_opt
    | with_reducible apply some_keeps
    | with_reducible apply none_keeps
    | with_reducible apply fields_keep
    | with_reducible apply actMem_keeps
    | with_reducible apply busRead_keeps
    | with_reducible apply scalarOp_keeps
    | with_reducible apply updCl_keeps
    | with_reducible apply done_keeps
    | with_reducible apply miss_keeps
    | with_reducible apply stopped_keeps
    | with_reducible apply waits_keeps
    | with_reducible refine use_done ?_ (by with_reducible assumption)
    | with_reducible refine use_miss ?_ (by with_reducible assumption)
    | with_reducible refine use_stopped ?_ (by with_reducible assumption)
    | with_reducible refine use_waits ?_ (by with_reducible assumption)
    | with_reducible refine use_some ?_ (by with_reducible assumption)
    | split
    | simp only [keeps_mk]
    | dsimp only

theorem execLdm_keeps {s0 : State} (g : Fin 1024) (s : State) (h_s : Keeps s0 s) : OutKeeps s0 (execLdm g s) := by
  rw [execLdm.eq_def]; try dsimp only
  repeat' first
    | with_reducible assumption
    | intro _
    | with_reducible apply next_keeps
    | with_reducible apply issue_keeps
    | with_reducible apply ldmOp_keeps
    | dsimp only

theorem execLdmResponse_keeps {s0 : State} (g : Fin 1024) (rd : Fin 64) (s : State) (h_s : Keeps s0 s) : OutKeeps s0 (execLdmResponse g rd s) := by
  rw [execLdmResponse.eq_def]; try dsimp only
  repeat' first
    | with_reducible assumption
    | intro _
    | with_reducible apply next_keeps
    | with_reducible apply some_keeps
    | with_reducible apply none_keeps
    | with_reducible apply fields_keep
    | with_reducible apply setSreg_keeps
    | with_reducible apply updCl_keeps
    | with_reducible refine use_some ?_ (by with_reducible assumption)
    | split
    | simp only [keeps_mk]
    | dsimp only

theorem stmOp_keeps {s0 : State} (g : Nat) : OpKeeps s0 (stmOp g) := by
  refine ⟨?_, ?_⟩ <;> intro s w h <;> simp only [stmOp, scalarOp]
  all_goals repeat' first
    | with_reducible assumption
    | intro _
    | with_reducible apply ite_keeps
    | with_reducible apply ite_opt
    | with_reducible apply some_keeps
    | with_reducible apply none_keeps
    | with_reducible apply fields_keep
    | with_reducible apply actMem_keeps
    | with_reducible apply busWrite_keeps
    | with_reducible apply scalarOp_keeps
    | with_reducible apply done_keeps
    | with_reducible apply miss_keeps
    | with_reducible apply stopped_keeps
    | with_reducible apply waits_keeps
    | with_reducible refine use_done ?_ (by with_reducible assumption)
    | with_reducible refine use_miss ?_ (by with_reducible assumption)
    | with_reducible refine use_stopped ?_ (by with_reducible assumption)
    | with_reducible refine use_waits ?_ (by with_reducible assumption)
    | with_reducible refine use_some ?_ (by with_reducible assumption)
    | split
    | simp only [keeps_mk]
    | dsimp only

theorem execStm_keeps {s0 : State} (g : Fin 1024) (s : State) (h_s : Keeps s0 s) : OutKeeps s0 (execStm g s) := by
  rw [execStm.eq_def]; try dsimp only
  repeat' first
    | with_reducible assumption
    | intro _
    | with_reducible apply next_keeps
    | with_reducible apply issue_keeps
    | with_reducible apply stmOp_keeps
    | dsimp only

theorem setDmaQueue_keeps {s0 : State} (s : State) (g ch : Nat) (l : List DmaOp) (h_s : Keeps s0 s) : Keeps s0 (State.setDmaQueue s g ch l) := by
  rw [State.setDmaQueue.eq_def]; try dsimp only
  repeat' first
    | with_reducible assumption
    | intro _
    | with_reducible apply fields_keep
    | with_reducible apply syncEngines_keeps
    | with_reducible apply updCl_keeps
    | simp only [keeps_mk]
    | dsimp only

theorem dmaOp_keeps {s0 : State} (g : Nat) : OpKeeps s0 (dmaOp g) := by
  refine ⟨?_, ?_⟩ <;> intro s w h <;> simp only [dmaOp, scalarOp]
  all_goals repeat' first
    | with_reducible assumption
    | intro _
    | with_reducible apply ite_keeps
    | with_reducible apply ite_opt
    | with_reducible apply some_keeps
    | with_reducible apply none_keeps
    | with_reducible apply fields_keep
    | with_reducible apply setDmaQueue_keeps
    | with_reducible apply updCl_keeps
    | with_reducible refine use_some ?_ (by with_reducible assumption)
    | split
    | simp only [keeps_mk]
    | dsimp only

theorem execDma_keeps {s0 : State} (g : Fin 1024) (s : State) (h_s : Keeps s0 s) : OutKeeps s0 (execDma g s) := by
  rw [execDma.eq_def]; try dsimp only
  repeat' first
    | with_reducible assumption
    | intro _
    | with_reducible apply next_keeps
    | with_reducible apply dmaOp_keeps
    | with_reducible apply issue_keeps
    | dsimp only

theorem dmaPart_keeps {s0 : State} (s : State) (g : Nat) (d : DmaOp) (i o n : Nat) (h_s : Keeps s0 s) : Keeps s0 (State.dmaPart s g d i o n).2 := by
  rw [State.dmaPart.eq_def]; try dsimp only
  repeat' first
    | with_reducible assumption
    | intro _
    | with_reducible apply ite_keeps
    | with_reducible apply fields_keep
    | with_reducible apply actMem_keeps
    | with_reducible apply busRead_keeps
    | with_reducible apply busWrite_keeps
    | with_reducible apply lbPut_keeps
    | with_reducible apply done_keeps
    | with_reducible apply miss_keeps
    | with_reducible apply stopped_keeps
    | with_reducible apply waits_keeps
    | with_reducible refine use_done ?_ (by with_reducible assumption)
    | with_reducible refine use_miss ?_ (by with_reducible assumption)
    | with_reducible refine use_stopped ?_ (by with_reducible assumption)
    | with_reducible refine use_waits ?_ (by with_reducible assumption)
    | split
    | simp only [keeps_mk]
    | dsimp only

theorem dmaParts_keeps {s0 : State} (g : Nat) (d : DmaOp) (x0 : List (Nat × Nat × Nat)) (x1 : Nat) (x2 : State) (h_x2 : Keeps s0 x2) : Keeps s0 (dmaParts g d x0 x1 x2).st := by
  induction x0 generalizing g d x1 x2 with
  | nil =>
    rw [dmaParts.eq_def]; try dsimp only
    repeat' first
      | with_reducible assumption
      | intro _
      | with_reducible apply ite_keeps
      | with_reducible apply dmaPart_keeps
      | with_reducible apply ih
      | split
      | dsimp only
  | cons a l ih =>
    rw [dmaParts.eq_def]; try dsimp only
    repeat' first
      | with_reducible assumption
      | intro _
      | with_reducible apply ite_keeps
      | with_reducible apply dmaPart_keeps
      | with_reducible apply ih
      | split
      | dsimp only

theorem dmaCount_keeps {s0 : State} (s : State) (g n : Nat) (h_s : Keeps s0 s) : Keeps s0 (State.dmaCount s g n) := by
  rw [State.dmaCount.eq_def]; try dsimp only
  repeat' first
    | with_reducible assumption
    | with_reducible apply act_keeps
    | with_reducible apply bump_keeps
    | dsimp only

theorem execDmaComplete_keeps {s0 : State} (g : Fin 1024) (ch : Fin 4) (s : State) (h_s : Keeps s0 s) : OutKeeps s0 (execDmaComplete g ch s) := by
  rw [execDmaComplete.eq_def]; try dsimp only
  repeat' first
    | with_reducible assumption
    | intro _
    | with_reducible apply next_keeps
    | with_reducible apply fields_keep
    | with_reducible apply dmaCount_keeps
    | with_reducible apply dmaParts_keeps
    | with_reducible apply drainFaulted_keeps
    | with_reducible apply pinWait_keeps
    | with_reducible apply setDmaQueue_keeps
    | with_reducible apply done_keeps
    | with_reducible apply miss_keeps
    | with_reducible apply stopped_keeps
    | with_reducible apply waits_keeps
    | with_reducible refine use_done ?_ (by with_reducible assumption)
    | with_reducible refine use_miss ?_ (by with_reducible assumption)
    | with_reducible refine use_stopped ?_ (by with_reducible assumption)
    | with_reducible refine use_waits ?_ (by with_reducible assumption)
    | split
    | simp only [keeps_mk]
    | dsimp only

theorem waitOp_keeps {s0 : State} (g : Nat) : OpKeeps s0 (waitOp g) := by
  refine ⟨?_, ?_⟩ <;> intro s w h <;> simp only [waitOp, scalarOp]
  all_goals repeat' first
    | with_reducible assumption
    | intro _
    | with_reducible apply ite_keeps
    | with_reducible apply ite_opt
    | with_reducible apply some_keeps
    | with_reducible apply none_keeps
    | with_reducible apply fields_keep
    | with_reducible apply scalarOp_keeps
    | with_reducible refine use_some ?_ (by with_reducible assumption)
    | split
    | simp only [keeps_mk]
    | dsimp only

theorem execWait_keeps {s0 : State} (g : Fin 1024) (s : State) (h_s : Keeps s0 s) : OutKeeps s0 (execWait g s) := by
  rw [execWait.eq_def]; try dsimp only
  repeat' first
    | with_reducible assumption
    | intro _
    | with_reducible apply next_keeps
    | with_reducible apply issue_keeps
    | with_reducible apply waitOp_keeps
    | dsimp only

/-! ## Machine/TileVector.lean -/

theorem vecEvents_keeps {s0 : State} (s : State) (g : Nat) (v : VecOp) (n : EvCount) (h_s : Keeps s0 s) : Keeps s0 (State.vecEvents s g v n) := by
  rw [State.vecEvents.eq_def]; try dsimp only
  repeat' first
    | with_reducible assumption
    | with_reducible apply countEvents_keeps
    | dsimp only

theorem vecWrite_keeps {s0 : State} (s : State) (g : Nat) (v : VecOp) (n m : Nat) (f : Nat → F32 × Evt) (h_s : Keeps s0 s) : Keeps s0 (State.vecWrite s g v n m f) := by
  rw [State.vecWrite.eq_def]; try dsimp only
  repeat' first
    | with_reducible assumption
    | intro _
    | with_reducible apply updCl_keeps
    | with_reducible apply vecEvents_keeps
    | dsimp only

theorem vldRun_keeps {s0 : State} (s : State) (g : Nat) (v : VecOp) (h_s : Keeps s0 s) : Keeps s0 (State.vldRun s g v) := by
  rw [State.vldRun.eq_def]; try dsimp only
  repeat' first
    | with_reducible assumption
    | intro _
    | with_reducible apply ite_keeps
    | with_reducible apply vecEvents_keeps
    | with_reducible apply vecWrite_keeps
    | with_reducible apply getD_keeps
    | split
    | dsimp only

theorem vstRun_keeps {s0 : State} (s : State) (g : Nat) (v : VecOp) (h_s : Keeps s0 s) : Keeps s0 (State.vstRun s g v) := by
  rw [State.vstRun.eq_def]; try dsimp only
  repeat' first
    | with_reducible assumption
    | intro _
    | with_reducible apply ite_keeps
    | with_reducible apply ite_opt
    | with_reducible apply some_keeps
    | with_reducible apply none_keeps
    | with_reducible apply fields_keep
    | with_reducible apply updCl_keeps
    | with_reducible apply vecEvents_keeps
    | with_reducible apply foldl_to_keeps BusRead.st
    | with_reducible apply foldl_keeps
    | with_reducible apply foldl_snd_keeps
    | with_reducible apply foldl_fst_keeps
    | with_reducible refine use_some ?_ (by with_reducible assumption)
    | split
    | simp only [keeps_mk]
    | dsimp only

theorem vtrdRun_keeps {s0 : State} (s : State) (g : Nat) (v : VecOp) (h_s : Keeps s0 s) : Keeps s0 (State.vtrdRun s g v) := by
  rw [State.vtrdRun.eq_def]; try dsimp only
  repeat' first
    | with_reducible assumption
    | intro _
    | with_reducible apply ite_keeps
    | with_reducible apply ite_opt
    | with_reducible apply none_keeps
    | with_reducible apply tileEvents_keeps
    | with_reducible apply updCl_keeps
    | with_reducible apply getD_keeps
    | split
    | dsimp only

theorem vbcastRun_keeps {s0 : State} (s : State) (g : Nat) (v : VecOp) (h_s : Keeps s0 s) : Keeps s0 (State.vbcastRun s g v) := by
  rw [State.vbcastRun.eq_def]; try dsimp only
  repeat' first
    | with_reducible assumption
    | intro _
    | with_reducible apply none_keeps
    | with_reducible apply vecWrite_keeps
    | dsimp only

theorem vopRun_keeps {s0 : State} (s : State) (g : Nat) (v : VecOp) (h_s : Keeps s0 s) : Keeps s0 (State.vopRun s g v) := by
  rw [State.vopRun.eq_def]; try dsimp only
  repeat' first
    | with_reducible assumption
    | intro _
    | with_reducible apply ite_keeps
    | with_reducible apply ite_opt
    | with_reducible apply none_keeps
    | with_reducible apply vecWrite_keeps
    | with_reducible apply getD_keeps
    | split
    | dsimp only

theorem vfnRun_keeps {s0 : State} (s : State) (g : Nat) (v : VecOp) (h_s : Keeps s0 s) : Keeps s0 (State.vfnRun s g v) := by
  rw [State.vfnRun.eq_def]; try dsimp only
  repeat' first
    | with_reducible assumption
    | intro _
    | with_reducible apply vecWrite_keeps
    | with_reducible apply getD_keeps
    | dsimp only

theorem setMask_keeps {s0 : State} (s : State) (g n m : Nat) (h_s : Keeps s0 s) : Keeps s0 (State.setMask s g n m) := by
  rw [State.setMask.eq_def]; try dsimp only
  repeat' first
    | with_reducible assumption
    | intro _
    | with_reducible apply ite_keeps
    | with_reducible apply fields_keep
    | with_reducible apply updCl_keeps
    | split
    | simp only [keeps_mk]
    | dsimp only

theorem vcmpRun_keeps {s0 : State} (s : State) (g : Nat) (v : VecOp) (h_s : Keeps s0 s) : Keeps s0 (State.vcmpRun s g v) := by
  rw [State.vcmpRun.eq_def]; try dsimp only
  repeat' first
    | with_reducible assumption
    | intro _
    | with_reducible apply ite_keeps
    | with_reducible apply setMask_keeps
    | with_reducible apply foldl_to_keeps BusRead.st
    | with_reducible apply foldl_keeps
    | with_reducible apply foldl_snd_keeps
    | with_reducible apply foldl_fst_keeps
    | with_reducible apply getD_keeps
    | split
    | dsimp only

theorem vmskRun_keeps {s0 : State} (s : State) (g : Nat) (v : VecOp) (h_s : Keeps s0 s) : Keeps s0 (State.vmskRun s g v) := by
  rw [State.vmskRun.eq_def]; try dsimp only
  repeat' first
    | with_reducible assumption
    | with_reducible apply setMask_keeps
    | dsimp only

theorem vhadRun_keeps {s0 : State} (s : State) (g : Nat) (v : VecOp) (h_s : Keeps s0 s) : Keeps s0 (State.vhadRun s g v) := by
  rw [State.vhadRun.eq_def]; try dsimp only
  repeat' first
    | with_reducible assumption
    | intro _
    | with_reducible apply ite_keeps
    | with_reducible apply ite_opt
    | with_reducible apply none_keeps
    | with_reducible apply vecWrite_keeps
    | with_reducible apply getD_keeps
    | split
    | dsimp only

theorem vrowRun_keeps {s0 : State} (s : State) (g : Nat) (v : VecOp) (h_s : Keeps s0 s) : Keeps s0 (State.vrowRun s g v) := by
  rw [State.vrowRun.eq_def]; try dsimp only
  repeat' first
    | with_reducible assumption
    | intro _
    | with_reducible apply ite_keeps
    | with_reducible apply ite_opt
    | with_reducible apply none_keeps
    | with_reducible apply updCl_keeps
    | with_reducible apply vecEvents_keeps
    | with_reducible apply getD_keeps
    | split
    | dsimp only

theorem vscaleRun_keeps {s0 : State} (s : State) (g : Nat) (v : VecOp) (h_s : Keeps s0 s) : Keeps s0 (State.vscaleRun s g v) := by
  rw [State.vscaleRun.eq_def]; try dsimp only
  repeat' first
    | with_reducible assumption
    | intro _
    | with_reducible apply ite_keeps
    | with_reducible apply ite_opt
    | with_reducible apply none_keeps
    | with_reducible apply updCl_keeps
    | with_reducible apply vecEvents_keeps
    | with_reducible apply foldl_to_keeps BusRead.st
    | with_reducible apply foldl_keeps
    | with_reducible apply foldl_snd_keeps
    | with_reducible apply foldl_fst_keeps
    | with_reducible apply getD_keeps
    | split
    | dsimp only

theorem vecAct_keeps {s0 : State} (s : State) (g : Nat) (v : VecOp) (h_s : Keeps s0 s) : Keeps s0 (State.vecAct s g v) := by
  rw [State.vecAct.eq_def]; try dsimp only
  repeat' first
    | with_reducible assumption
    | intro _
    | with_reducible apply ite_keeps
    | with_reducible apply act_keeps
    | split
    | dsimp only

theorem vecRun_keeps {s0 : State} (s : State) (g : Nat) (v : VecOp) (h_s : Keeps s0 s) : Keeps s0 (State.vecRun s g v) := by
  rw [State.vecRun.eq_def]; try dsimp only
  repeat' first
    | with_reducible assumption
    | intro _
    | with_reducible apply fields_keep
    | with_reducible apply vbcastRun_keeps
    | with_reducible apply vcmpRun_keeps
    | with_reducible apply vfnRun_keeps
    | with_reducible apply vhadRun_keeps
    | with_reducible apply vldRun_keeps
    | with_reducible apply vmskRun_keeps
    | with_reducible apply vopRun_keeps
    | with_reducible apply vrowRun_keeps
    | with_reducible apply vscaleRun_keeps
    | with_reducible apply vstRun_keeps
    | with_reducible apply vtrdRun_keeps
    | split
    | simp only [keeps_mk]
    | dsimp only

theorem vecStart_keeps {s0 : State} (s : State) (g : Nat) (h_s : Keeps s0 s) : Keeps s0 (State.vecStart s g) := by
  rw [State.vecStart.eq_def]; try dsimp only
  repeat' first
    | with_reducible assumption
    | intro _
    | with_reducible apply ite_keeps
    | with_reducible apply ite_opt
    | with_reducible apply some_keeps
    | with_reducible apply none_keeps
    | with_reducible apply fields_keep
    | with_reducible apply pinWait_keeps
    | with_reducible apply syncEngines_keeps
    | with_reducible apply updCl_keeps
    | with_reducible apply vecAct_keeps
    | with_reducible apply vecRun_keeps
    | with_reducible refine use_some ?_ (by with_reducible assumption)
    | split
    | simp only [keeps_mk]
    | dsimp only

theorem vecPush_keeps {s0 : State} (s : State) (g w : Nat) (h_s : Keeps s0 s) : Keeps s0 (State.vecPush s g w) := by
  rw [State.vecPush.eq_def]; try dsimp only
  repeat' first
    | with_reducible assumption
    | intro _
    | with_reducible apply ite_keeps
    | with_reducible apply fields_keep
    | with_reducible apply syncEngines_keeps
    | with_reducible apply updCl_keeps
    | with_reducible apply vecStart_keeps
    | split
    | simp only [keeps_mk]
    | dsimp only

theorem tileWaits_keeps {s0 : State} (s : State) (g t : Nat) (write join : Bool) (h_s : Keeps s0 s) : Keeps s0 (State.tileWaits s g t write join) := by
  rw [State.tileWaits.eq_def]; try dsimp only
  repeat' first
    | with_reducible assumption
    | intro _
    | with_reducible apply ite_keeps
    | with_reducible apply bump_keeps
    | split
    | dsimp only

theorem vecWait_keeps {s0 : State} (s : State) (g w : Nat) (h_s : Keeps s0 s) : OptKeeps s0 (State.vecWait s g w) := by
  rw [State.vecWait.eq_def]; try dsimp only
  repeat' first
    | with_reducible assumption
    | intro _
    | with_reducible apply ite_keeps
    | with_reducible apply ite_opt
    | with_reducible apply some_keeps
    | with_reducible apply none_keeps
    | with_reducible refine use_some ?_ (by with_reducible assumption)
    | split
    | dsimp only

theorem vecTile_keeps {s0 : State} (g op : Nat) : OpKeeps s0 (vecTile g op) := by
  refine ⟨?_, ?_⟩ <;> intro s w h <;> simp only [vecTile, scalarOp]
  all_goals repeat' first
    | with_reducible assumption
    | intro _
    | with_reducible apply ite_keeps
    | with_reducible apply tileWaits_keeps
    | with_reducible apply vecPush_keeps
    | with_reducible apply vecWait_keeps
    | split
    | dsimp only

theorem execVctx_keeps {s0 : State} (g : Fin 1024) (s : State) (h_s : Keeps s0 s) : OutKeeps s0 (execVctx g s) := by
  rw [execVctx.eq_def]; try dsimp only
  repeat' first
    | with_reducible assumption
    | intro _
    | with_reducible apply next_keeps
    | with_reducible apply issue_keeps
    | with_reducible apply vecTile_keeps
    | dsimp only

theorem execVld_keeps {s0 : State} (g : Fin 1024) (s : State) (h_s : Keeps s0 s) : OutKeeps s0 (execVld g s) := by
  rw [execVld.eq_def]; try dsimp only
  repeat' first
    | with_reducible assumption
    | intro _
    | with_reducible apply next_keeps
    | with_reducible apply issue_keeps
    | with_reducible apply vecTile_keeps
    | dsimp only

theorem execVst_keeps {s0 : State} (g : Fin 1024) (s : State) (h_s : Keeps s0 s) : OutKeeps s0 (execVst g s) := by
  rw [execVst.eq_def]; try dsimp only
  repeat' first
    | with_reducible assumption
    | intro _
    | with_reducible apply next_keeps
    | with_reducible apply issue_keeps
    | with_reducible apply vecTile_keeps
    | dsimp only

theorem execVgather_keeps {s0 : State} (g : Fin 1024) (s : State) (h_s : Keeps s0 s) : OutKeeps s0 (execVgather g s) := by
  rw [execVgather.eq_def]; try dsimp only
  repeat' first
    | with_reducible assumption
    | intro _
    | with_reducible apply next_keeps
    | with_reducible apply issue_keeps
    | with_reducible apply vecTile_keeps
    | dsimp only

theorem execVscatter_keeps {s0 : State} (g : Fin 1024) (s : State) (h_s : Keeps s0 s) : OutKeeps s0 (execVscatter g s) := by
  rw [execVscatter.eq_def]; try dsimp only
  repeat' first
    | with_reducible assumption
    | intro _
    | with_reducible apply next_keeps
    | with_reducible apply issue_keeps
    | with_reducible apply vecTile_keeps
    | dsimp only

theorem execVtrd_keeps {s0 : State} (g : Fin 1024) (s : State) (h_s : Keeps s0 s) : OutKeeps s0 (execVtrd g s) := by
  rw [execVtrd.eq_def]; try dsimp only
  repeat' first
    | with_reducible assumption
    | intro _
    | with_reducible apply next_keeps
    | with_reducible apply issue_keeps
    | with_reducible apply vecTile_keeps
    | dsimp only

theorem execVbcast_keeps {s0 : State} (g : Fin 1024) (s : State) (h_s : Keeps s0 s) : OutKeeps s0 (execVbcast g s) := by
  rw [execVbcast.eq_def]; try dsimp only
  repeat' first
    | with_reducible assumption
    | intro _
    | with_reducible apply next_keeps
    | with_reducible apply issue_keeps
    | with_reducible apply vecTile_keeps
    | dsimp only

theorem execVop_keeps {s0 : State} (g : Fin 1024) (s : State) (h_s : Keeps s0 s) : OutKeeps s0 (execVop g s) := by
  rw [execVop.eq_def]; try dsimp only
  repeat' first
    | with_reducible assumption
    | intro _
    | with_reducible apply next_keeps
    | with_reducible apply issue_keeps
    | with_reducible apply vecTile_keeps
    | dsimp only

theorem execVfn_keeps {s0 : State} (g : Fin 1024) (s : State) (h_s : Keeps s0 s) : OutKeeps s0 (execVfn g s) := by
  rw [execVfn.eq_def]; try dsimp only
  repeat' first
    | with_reducible assumption
    | intro _
    | with_reducible apply next_keeps
    | with_reducible apply issue_keeps
    | with_reducible apply vecTile_keeps
    | dsimp only

theorem execVcmp_keeps {s0 : State} (g : Fin 1024) (s : State) (h_s : Keeps s0 s) : OutKeeps s0 (execVcmp g s) := by
  rw [execVcmp.eq_def]; try dsimp only
  repeat' first
    | with_reducible assumption
    | intro _
    | with_reducible apply next_keeps
    | with_reducible apply issue_keeps
    | with_reducible apply vecTile_keeps
    | dsimp only

theorem execVmsk_keeps {s0 : State} (g : Fin 1024) (s : State) (h_s : Keeps s0 s) : OutKeeps s0 (execVmsk g s) := by
  rw [execVmsk.eq_def]; try dsimp only
  repeat' first
    | with_reducible assumption
    | intro _
    | with_reducible apply next_keeps
    | with_reducible apply issue_keeps
    | with_reducible apply vecTile_keeps
    | dsimp only

theorem execVhad_keeps {s0 : State} (g : Fin 1024) (s : State) (h_s : Keeps s0 s) : OutKeeps s0 (execVhad g s) := by
  rw [execVhad.eq_def]; try dsimp only
  repeat' first
    | with_reducible assumption
    | intro _
    | with_reducible apply next_keeps
    | with_reducible apply issue_keeps
    | with_reducible apply vecTile_keeps
    | dsimp only

theorem execVrow_keeps {s0 : State} (g : Fin 1024) (s : State) (h_s : Keeps s0 s) : OutKeeps s0 (execVrow g s) := by
  rw [execVrow.eq_def]; try dsimp only
  repeat' first
    | with_reducible assumption
    | intro _
    | with_reducible apply next_keeps
    | with_reducible apply issue_keeps
    | with_reducible apply vecTile_keeps
    | dsimp only

theorem execVscale_keeps {s0 : State} (g : Fin 1024) (s : State) (h_s : Keeps s0 s) : OutKeeps s0 (execVscale g s) := by
  rw [execVscale.eq_def]; try dsimp only
  repeat' first
    | with_reducible assumption
    | intro _
    | with_reducible apply next_keeps
    | with_reducible apply issue_keeps
    | with_reducible apply vecTile_keeps
    | dsimp only

theorem execVsum_keeps {s0 : State} (g : Fin 1024) (s : State) (h_s : Keeps s0 s) : OutKeeps s0 (execVsum g s) := by
  rw [execVsum.eq_def]; try dsimp only
  repeat' first
    | with_reducible assumption
    | intro _
    | with_reducible apply next_keeps
    | with_reducible apply issue_keeps
    | with_reducible apply vecTile_keeps
    | dsimp only

theorem tileFreed_keeps {s0 : State} (s : State) (g : Nat) (h_s : Keeps s0 s) : Keeps s0 (State.tileFreed s g) := by
  rw [State.tileFreed.eq_def]; try dsimp only
  repeat' first
    | with_reducible assumption
    | intro _
    | with_reducible apply ite_keeps
    | with_reducible apply accRetry_keeps
    | with_reducible apply drainFaulted_keeps
    | with_reducible apply noteDone_keeps
    | with_reducible apply syncEngines_keeps
    | with_reducible apply vecStart_keeps
    | split
    | dsimp only

theorem execVectorOpComplete_keeps {s0 : State} (g : Fin 1024) (s : State) (h_s : Keeps s0 s) : OutKeeps s0 (execVectorOpComplete g s) := by
  rw [execVectorOpComplete.eq_def]; try dsimp only
  repeat' first
    | with_reducible assumption
    | intro _
    | with_reducible apply ite_keeps
    | with_reducible apply ite_out
    | with_reducible apply next_keeps
    | with_reducible apply fields_keep
    | with_reducible apply setSreg_keeps
    | with_reducible apply tileFreed_keeps
    | with_reducible apply updCl_keeps
    | with_reducible apply vecAct_keeps
    | with_reducible apply vecEvents_keeps
    | with_reducible apply vecRun_keeps
    | split
    | simp only [keeps_mk]
    | dsimp only

/-! ## Machine/TileMatrix.lean -/

theorem mcfgOp_keeps {s0 : State} (g : Nat) : OpKeeps s0 (mcfgOp g) := by
  refine ⟨?_, ?_⟩ <;> intro s w h <;> simp only [mcfgOp, scalarOp]
  all_goals repeat' first
    | with_reducible assumption
    | intro _
    | with_reducible apply ite_keeps
    | with_reducible apply ite_opt
    | with_reducible apply some_keeps
    | with_reducible apply none_keeps
    | with_reducible apply fields_keep
    | with_reducible apply scalarOp_keeps
    | with_reducible apply updCl_keeps
    | with_reducible refine use_some ?_ (by with_reducible assumption)
    | split
    | simp only [keeps_mk]
    | dsimp only

theorem execMcfg_keeps {s0 : State} (g : Fin 1024) (s : State) (h_s : Keeps s0 s) : OutKeeps s0 (execMcfg g s) := by
  rw [execMcfg.eq_def]; try dsimp only
  repeat' first
    | with_reducible assumption
    | intro _
    | with_reducible apply next_keeps
    | with_reducible apply issue_keeps
    | with_reducible apply mcfgOp_keeps
    | dsimp only

theorem withOrdinal_keeps {s0 : State} (s : State) (g : Nat) (o : MmaOp) (h_s : Keeps s0 s) : Keeps s0 (State.withOrdinal s g o).2 := by
  rw [State.withOrdinal.eq_def]; try dsimp only
  repeat' first
    | with_reducible assumption
    | intro _
    | with_reducible apply ite_keeps
    | with_reducible apply fields_keep
    | with_reducible apply updCl_keeps
    | split
    | simp only [keeps_mk]
    | dsimp only

theorem mmaOp_keeps {s0 : State} (g : Nat) : OpKeeps s0 (mmaOp g) := by
  refine ⟨?_, ?_⟩ <;> intro s w h <;> simp only [mmaOp, scalarOp]
  all_goals repeat' first
    | with_reducible assumption
    | intro _
    | with_reducible apply ite_keeps
    | with_reducible apply ite_opt
    | with_reducible apply some_keeps
    | with_reducible apply none_keeps
    | with_reducible apply fields_keep
    | with_reducible apply bump_keeps
    | with_reducible apply syncEngines_keeps
    | with_reducible apply tileWaits_keeps
    | with_reducible apply updCl_keeps
    | with_reducible apply withOrdinal_keeps
    | with_reducible refine use_some ?_ (by with_reducible assumption)
    | split
    | simp only [keeps_mk]
    | dsimp only

theorem execMma_keeps {s0 : State} (g : Fin 1024) (s : State) (h_s : Keeps s0 s) : OutKeeps s0 (execMma g s) := by
  rw [execMma.eq_def]; try dsimp only
  repeat' first
    | with_reducible assumption
    | intro _
    | with_reducible apply next_keeps
    | with_reducible apply issue_keeps
    | with_reducible apply mmaOp_keeps
    | dsimp only

theorem putMma_keeps {s0 : State} (s : State) (g : Nat) (o : MmaOp) (h_s : Keeps s0 s) : Keeps s0 (State.putMma s g o) := by
  rw [State.putMma.eq_def]; try dsimp only
  repeat' first
    | with_reducible assumption
    | intro _
    | with_reducible apply ite_keeps
    | with_reducible apply fields_keep
    | with_reducible apply updCl_keeps
    | split
    | simp only [keeps_mk]
    | dsimp only

theorem readRow_keeps {s0 : State} (s : State) (g t i : Nat) (h_s : Keeps s0 s) : Keeps s0 (State.readRow s g t i).2 := by
  rw [State.readRow.eq_def]; try dsimp only
  repeat' first
    | with_reducible assumption
    | intro _
    | with_reducible apply tileEvents_keeps
    | dsimp only

theorem mmaEnter_keeps {s0 : State} (s : State) (g : Nat) (o : MmaOp) (h_s : Keeps s0 s) : Keeps s0 (State.mmaEnter s g o) := by
  rw [State.mmaEnter.eq_def]; try dsimp only
  repeat' first
    | with_reducible assumption
    | intro _
    | with_reducible apply ite_keeps
    | with_reducible apply ite_opt
    | with_reducible apply some_keeps
    | with_reducible apply none_keeps
    | with_reducible apply fields_keep
    | with_reducible apply clearByFlag_keeps
    | with_reducible apply putMma_keeps
    | with_reducible apply readRow_keeps
    | with_reducible apply syncEngines_keeps
    | with_reducible apply tileEvents_keeps
    | with_reducible apply updCl_keeps
    | with_reducible refine use_some ?_ (by with_reducible assumption)
    | split
    | simp only [keeps_mk]
    | dsimp only

theorem execMmaArrayEntry_keeps {s0 : State} (g : Fin 1024) (s : State) (h_s : Keeps s0 s) : OutKeeps s0 (execMmaArrayEntry g s) := by
  rw [execMmaArrayEntry.eq_def]; try dsimp only
  repeat' first
    | with_reducible assumption
    | intro _
    | with_reducible apply ite_keeps
    | with_reducible apply ite_out
    | with_reducible apply ite_opt
    | with_reducible apply next_keeps
    | with_reducible apply some_keeps
    | with_reducible apply none_keeps
    | with_reducible apply fields_keep
    | with_reducible apply mmaEnter_keeps
    | with_reducible refine use_some ?_ (by with_reducible assumption)
    | split
    | simp only [keeps_mk]
    | dsimp only

theorem addTerms_keeps {s0 : State} (s : State) (g t tid n : Nat) (h_s : Keeps s0 s) : Keeps s0 (State.addTerms s g t tid n) := by
  rw [State.addTerms.eq_def]; try dsimp only
  repeat' first
    | with_reducible assumption
    | intro _
    | with_reducible apply ite_keeps
    | with_reducible apply fields_keep
    | with_reducible apply bump_keeps
    | with_reducible apply longSum_keeps
    | with_reducible apply set_keeps
    | with_reducible apply updCl_keeps
    | split
    | simp only [keeps_mk]
    | dsimp only

theorem promote_keeps {s0 : State} (s : State) (g : Nat) (o : MmaOp) (n : Nat) (h_s : Keeps s0 s) : Keeps s0 (State.promote s g o n) := by
  rw [State.promote.eq_def]; try dsimp only
  repeat' first
    | with_reducible assumption
    | intro _
    | with_reducible apply ite_keeps
    | with_reducible apply ite_opt
    | with_reducible apply some_keeps
    | with_reducible apply none_keeps
    | with_reducible apply fields_keep
    | with_reducible apply act_keeps
    | with_reducible apply addTerms_keeps
    | with_reducible apply putMma_keeps
    | with_reducible apply take_keeps
    | with_reducible apply tileEvents_keeps
    | with_reducible apply updCl_keeps
    | with_reducible apply getD_keeps
    | with_reducible refine use_some ?_ (by with_reducible assumption)
    | split
    | simp only [keeps_mk]
    | dsimp only

theorem execChunkPromotion_keeps {s0 : State} (g : Fin 1024) (s : State) (h_s : Keeps s0 s) : OutKeeps s0 (execChunkPromotion g s) := by
  rw [execChunkPromotion.eq_def]; try dsimp only
  repeat' first
    | with_reducible assumption
    | intro _
    | with_reducible apply ite_keeps
    | with_reducible apply ite_out
    | with_reducible apply ite_opt
    | with_reducible apply next_keeps
    | with_reducible apply some_keeps
    | with_reducible apply none_keeps
    | with_reducible apply fields_keep
    | with_reducible apply promote_keeps
    | with_reducible refine use_some ?_ (by with_reducible assumption)
    | split
    | simp only [keeps_mk]
    | dsimp only

theorem closeSegment_keeps {s0 : State} (s : State) (g : Nat) (o : MmaOp) (h_s : Keeps s0 s) : Keeps s0 (State.closeSegment s g o) := by
  rw [State.closeSegment.eq_def]; try dsimp only
  repeat' first
    | with_reducible assumption
    | intro _
    | with_reducible apply some_keeps
    | with_reducible apply none_keeps
    | with_reducible apply fields_keep
    | with_reducible apply bump_keeps
    | with_reducible apply longSum_keeps
    | with_reducible apply putMma_keeps
    | with_reducible apply take_keeps
    | with_reducible apply tileEvents_keeps
    | with_reducible apply updCl_keeps
    | with_reducible apply getD_keeps
    | with_reducible refine use_some ?_ (by with_reducible assumption)
    | split
    | simp only [keeps_mk]
    | dsimp only

theorem execSegmentClose_keeps {s0 : State} (g : Fin 1024) (s : State) (h_s : Keeps s0 s) : OutKeeps s0 (execSegmentClose g s) := by
  rw [execSegmentClose.eq_def]; try dsimp only
  repeat' first
    | with_reducible assumption
    | intro _
    | with_reducible apply next_keeps
    | with_reducible apply some_keeps
    | with_reducible apply none_keeps
    | with_reducible apply fields_keep
    | with_reducible apply closeSegment_keeps
    | with_reducible refine use_some ?_ (by with_reducible assumption)
    | split
    | simp only [keeps_mk]
    | dsimp only

theorem auditAfter_keeps {s0 : State} (s : State) (g : Nat) (o : MmaOp) (h_s : Keeps s0 s) : Keeps s0 (State.auditAfter s g o) := by
  rw [State.auditAfter.eq_def]; try dsimp only
  repeat' first
    | with_reducible assumption
    | intro _
    | with_reducible apply ite_keeps
    | with_reducible apply ite_opt
    | with_reducible apply some_keeps
    | with_reducible apply none_keeps
    | with_reducible apply fields_keep
    | with_reducible apply readRow_keeps
    | with_reducible apply updCl_keeps
    | with_reducible refine use_some ?_ (by with_reducible assumption)
    | split
    | simp only [keeps_mk]
    | dsimp only

theorem execMmaComplete_keeps {s0 : State} (g : Fin 1024) (s : State) (h_s : Keeps s0 s) : OutKeeps s0 (execMmaComplete g s) := by
  rw [execMmaComplete.eq_def]; try dsimp only
  repeat' first
    | with_reducible assumption
    | intro _
    | with_reducible apply ite_keeps
    | with_reducible apply ite_out
    | with_reducible apply next_keeps
    | with_reducible apply fields_keep
    | with_reducible apply auditAfter_keeps
    | with_reducible apply tileFreed_keeps
    | with_reducible apply updCl_keeps
    | split
    | simp only [keeps_mk]
    | dsimp only

theorem audFirst_keeps {s0 : State} (s : State) (g : Nat) (u : Audit) (h_s : Keeps s0 s) : Keeps s0 (State.audFirst s g u) := by
  rw [State.audFirst.eq_def]; try dsimp only
  repeat' first
    | with_reducible assumption
    | intro _
    | with_reducible apply ite_keeps
    | with_reducible apply ledSet_keeps
    | split
    | dsimp only

theorem auditEnd_keeps {s0 : State} (s : State) (g : Nat) (u : Audit) (h_s : Keeps s0 s) : Keeps s0 (State.auditEnd s g u) := by
  rw [State.auditEnd.eq_def]; try dsimp only
  repeat' first
    | with_reducible assumption
    | intro _
    | with_reducible apply ite_keeps
    | with_reducible apply audFirst_keeps
    | with_reducible apply bump_keeps
    | with_reducible apply layerBump_keeps
    | with_reducible apply ledBump_keeps
    | with_reducible apply ledSet_keeps
    | with_reducible apply set_keeps
    | with_reducible apply foldl_to_keeps BusRead.st
    | with_reducible apply foldl_keeps
    | with_reducible apply foldl_snd_keeps
    | with_reducible apply foldl_fst_keeps
    | with_reducible apply getD_keeps
    | split
    | dsimp only

theorem releasePins_keeps {s0 : State} (s : State) (g : Nat) (h_s : Keeps s0 s) : Keeps s0 (State.releasePins s g) := by
  rw [State.releasePins.eq_def]; try dsimp only
  repeat' first
    | with_reducible assumption
    | intro _
    | with_reducible apply ite_keeps
    | with_reducible apply ite_opt
    | with_reducible apply some_keeps
    | with_reducible apply fields_keep
    | with_reducible apply lbPut_keeps
    | with_reducible apply respond_keeps
    | with_reducible apply set_keeps
    | with_reducible apply updCl_keeps
    | with_reducible apply foldl_to_keeps BusRead.st
    | with_reducible apply foldl_keeps
    | with_reducible apply foldl_snd_keeps
    | with_reducible apply foldl_fst_keeps
    | with_reducible refine use_some ?_ (by with_reducible assumption)
    | split
    | simp only [keeps_mk]
    | dsimp only

theorem execAuditUnit_keeps {s0 : State} (g : Fin 1024) (s : State) (h_s : Keeps s0 s) : OutKeeps s0 (execAuditUnit g s) := by
  rw [execAuditUnit.eq_def]; try dsimp only
  repeat' first
    | with_reducible assumption
    | intro _
    | with_reducible apply ite_keeps
    | with_reducible apply ite_out
    | with_reducible apply ite_opt
    | with_reducible apply next_keeps
    | with_reducible apply some_keeps
    | with_reducible apply none_keeps
    | with_reducible apply fields_keep
    | with_reducible apply auditEnd_keeps
    | with_reducible apply releasePins_keeps
    | with_reducible apply syncEngines_keeps
    | with_reducible apply updCl_keeps
    | with_reducible apply vecStart_keeps
    | with_reducible refine use_some ?_ (by with_reducible assumption)
    | split
    | simp only [keeps_mk]
    | dsimp only

/-! ## Machine/TileSync.lean -/

theorem itemDone_keeps {s0 : State} (s : State) (i : Nat) (h_s : Keeps s0 s) : Keeps s0 (State.itemDone s i) := by
  rw [State.itemDone.eq_def]; try dsimp only
  repeat' first
    | with_reducible assumption
    | intro _
    | with_reducible apply ite_keeps
    | with_reducible apply ite_opt
    | with_reducible apply some_keeps
    | with_reducible apply none_keeps
    | with_reducible apply fields_keep
    | with_reducible apply noteDone_keeps
    | with_reducible apply setCourse_keeps
    | with_reducible apply done_keeps
    | with_reducible apply miss_keeps
    | with_reducible apply stopped_keeps
    | with_reducible apply waits_keeps
    | with_reducible refine use_done ?_ (by with_reducible assumption)
    | with_reducible refine use_miss ?_ (by with_reducible assumption)
    | with_reducible refine use_stopped ?_ (by with_reducible assumption)
    | with_reducible refine use_waits ?_ (by with_reducible assumption)
    | with_reducible refine use_some ?_ (by with_reducible assumption)
    | split
    | simp only [keeps_mk]
    | dsimp only

theorem launchDone_keeps {s0 : State} (s : State) (l : Launch) (status detail : Nat) (h_s : Keeps s0 s) : Keeps s0 (State.launchDone s l status detail) := by
  rw [State.launchDone.eq_def]; try dsimp only
  repeat' first
    | with_reducible assumption
    | intro _
    | with_reducible apply ite_keeps
    | with_reducible apply ite_opt
    | with_reducible apply some_keeps
    | with_reducible apply none_keeps
    | with_reducible apply fields_keep
    | with_reducible apply complete_keeps
    | with_reducible apply detail_keeps
    | with_reducible apply itemDone_keeps
    | with_reducible apply noteDone_keeps
    | with_reducible apply withWaiting_keeps
    | with_reducible refine use_some ?_ (by with_reducible assumption)
    | split
    | simp only [keeps_mk]
    | dsimp only

theorem cutVector_keeps {s0 : State} (s : State) (g k : Nat) (h_s : Keeps s0 s) : Keeps s0 (State.cutVector s g k) := by
  rw [State.cutVector.eq_def]; try dsimp only
  repeat' first
    | with_reducible assumption
    | intro _
    | with_reducible apply ite_keeps
    | with_reducible apply fields_keep
    | with_reducible apply vecAct_keeps
    | with_reducible apply vecRun_keeps
    | split
    | simp only [keeps_mk]
    | dsimp only

theorem cutDma_keeps {s0 : State} (s : State) (g k : Nat) (h_s : Keeps s0 s) : Keeps s0 (State.cutDma s g k) := by
  rw [State.cutDma.eq_def]; try dsimp only
  repeat' first
    | with_reducible assumption
    | intro _
    | with_reducible apply ite_keeps
    | with_reducible apply fields_keep
    | with_reducible apply dmaCount_keeps
    | with_reducible apply dmaParts_keeps
    | with_reducible apply take_keeps
    | split
    | simp only [keeps_mk]
    | dsimp only

theorem stopWadding_keeps {s0 : State} (s : State) (g : Nat) (h_s : Keeps s0 s) : Keeps s0 (State.stopWadding s g) := by
  rw [State.stopWadding.eq_def]; try dsimp only
  repeat' first
    | with_reducible assumption
    | intro _
    | with_reducible apply fields_keep
    | with_reducible apply cutDma_keeps
    | with_reducible apply cutVector_keeps
    | with_reducible apply updCl_keeps
    | simp only [keeps_mk]
    | dsimp only

theorem preemptWadding_keeps {s0 : State} (s : State) (g : Nat) (h_s : Keeps s0 s) : Keeps s0 (State.preemptWadding s g) := by
  rw [State.preemptWadding.eq_def]; try dsimp only
  repeat' first
    | with_reducible assumption
    | intro _
    | with_reducible apply ite_keeps
    | with_reducible apply ite_opt
    | with_reducible apply some_keeps
    | with_reducible apply none_keeps
    | with_reducible apply fields_keep
    | with_reducible apply coreIdle_keeps
    | with_reducible apply launchDone_keeps
    | with_reducible apply stopWadding_keeps
    | with_reducible apply tileFreed_keeps
    | with_reducible refine use_some ?_ (by with_reducible assumption)
    | split
    | simp only [keeps_mk]
    | dsimp only

theorem deliver_keeps {s0 : State} (s : State) (g : Nat) (l : Launch) (h_s : Keeps s0 s) : Keeps s0 (State.deliver s g l) := by
  rw [State.deliver.eq_def]; try dsimp only
  repeat' first
    | with_reducible assumption
    | intro _
    | with_reducible apply ite_keeps
    | with_reducible apply fields_keep
    | with_reducible apply preemptWadding_keeps
    | with_reducible apply updCl_keeps
    | split
    | simp only [keeps_mk]
    | dsimp only

theorem clearWadding_keeps {s0 : State} (s : State) (g : Nat) (h_s : Keeps s0 s) : Keeps s0 (State.clearWadding s g) := by
  rw [State.clearWadding.eq_def]; try dsimp only
  repeat' first
    | with_reducible assumption
    | intro _
    | with_reducible apply fields_keep
    | with_reducible apply clearTile_keeps
    | with_reducible apply updCl_keeps
    | with_reducible apply foldl_to_keeps BusRead.st
    | with_reducible apply foldl_keeps
    | with_reducible apply foldl_snd_keeps
    | with_reducible apply foldl_fst_keeps
    | simp only [keeps_mk]
    | dsimp only

theorem startProgram_keeps {s0 : State} (s : State) (g : Nat) (l : Launch) (h_s : Keeps s0 s) : Keeps s0 (State.startProgram s g l) := by
  rw [State.startProgram.eq_def]; try dsimp only
  repeat' first
    | with_reducible assumption
    | intro _
    | with_reducible apply ite_keeps
    | with_reducible apply ite_opt
    | with_reducible apply some_keeps
    | with_reducible apply none_keeps
    | with_reducible apply fields_keep
    | with_reducible apply busRead_keeps
    | with_reducible apply clearWadding_keeps
    | with_reducible apply set_keeps
    | with_reducible apply setCourse_keeps
    | with_reducible apply setSreg_keeps
    | with_reducible apply updCl_keeps
    | with_reducible apply wr_keeps
    | with_reducible apply foldl_to_keeps BusRead.st
    | with_reducible apply foldl_keeps
    | with_reducible apply foldl_snd_keeps
    | with_reducible apply foldl_fst_keeps
    | with_reducible refine use_some ?_ (by with_reducible assumption)
    | split
    | simp only [keeps_mk]
    | dsimp only

theorem execProgramStart_keeps {s0 : State} (g : Fin 1024) (s : State) (h_s : Keeps s0 s) : OutKeeps s0 (execProgramStart g s) := by
  rw [execProgramStart.eq_def]; try dsimp only
  repeat' first
    | with_reducible assumption
    | intro _
    | with_reducible apply ite_keeps
    | with_reducible apply ite_out
    | with_reducible apply ite_opt
    | with_reducible apply next_keeps
    | with_reducible apply some_keeps
    | with_reducible apply none_keeps
    | with_reducible apply fields_keep
    | with_reducible apply launchDone_keeps
    | with_reducible apply missEvent_keeps
    | with_reducible apply startProgram_keeps
    | with_reducible apply updCl_keeps
    | with_reducible refine use_some ?_ (by with_reducible assumption)
    | split
    | simp only [keeps_mk]
    | dsimp only

theorem endOp_keeps {s0 : State} (g : Nat) : OpKeeps s0 (endOp g) := by
  refine ⟨?_, ?_⟩ <;> intro s w h <;> simp only [endOp, scalarOp]
  all_goals repeat' first
    | with_reducible assumption
    | intro _
    | with_reducible apply ite_keeps
    | with_reducible apply ite_out
    | with_reducible apply ite_opt
    | with_reducible apply next_keeps
    | with_reducible apply some_keeps
    | with_reducible apply none_keeps
    | with_reducible apply fields_keep
    | with_reducible apply fields_upset
    | with_reducible apply fields_filter
    | simp only [torn_counter]
    | with_reducible apply fields_reset
    | with_reducible apply fields_reset_regs
    | with_reducible apply scalarOp_keeps
    | with_reducible apply updCl_keeps
    | with_reducible apply foldl_to_keeps BusRead.st
    | with_reducible apply done_keeps
    | with_reducible apply miss_keeps
    | with_reducible apply stopped_keeps
    | with_reducible apply waits_keeps
    | with_reducible refine use_done ?_ (by with_reducible assumption)
    | with_reducible refine use_miss ?_ (by with_reducible assumption)
    | with_reducible refine use_stopped ?_ (by with_reducible assumption)
    | with_reducible refine use_waits ?_ (by with_reducible assumption)
    | with_reducible apply foldl_keeps
    | with_reducible apply foldl_snd_keeps
    | with_reducible apply foldl_opt_keeps
    | with_reducible apply foldl_snd2_keeps
    | with_reducible apply foldl_fst_keeps
    | with_reducible apply getD_keeps
    | with_reducible apply somep_keeps
    | with_reducible apply nonep_keeps
    | with_reducible refine of_some (by with_reducible assumption)
    | with_reducible refine use_pair ?_ (by with_reducible assumption)
    | with_reducible refine use_some ?_ (by with_reducible assumption)
    | split
    | simp only [keeps_mk]
    | dsimp only

theorem execEndProgram_keeps {s0 : State} (g : Fin 1024) (s : State) (h_s : Keeps s0 s) : OutKeeps s0 (execEndProgram g s) := by
  rw [execEndProgram.eq_def]; try dsimp only
  repeat' first
    | with_reducible assumption
    | intro _
    | with_reducible apply next_keeps
    | with_reducible apply endOp_keeps
    | with_reducible apply issue_keeps
    | dsimp only

theorem execProgramComplete_keeps {s0 : State} (g : Fin 1024) (s : State) (h_s : Keeps s0 s) : OutKeeps s0 (execProgramComplete g s) := by
  rw [execProgramComplete.eq_def]; try dsimp only
  repeat' first
    | with_reducible assumption
    | intro _
    | with_reducible apply ite_keeps
    | with_reducible apply ite_out
    | with_reducible apply ite_opt
    | with_reducible apply next_keeps
    | with_reducible apply some_keeps
    | with_reducible apply none_keeps
    | with_reducible apply fields_keep
    | with_reducible apply coreIdle_keeps
    | with_reducible apply drainFaulted_keeps
    | with_reducible apply launchDone_keeps
    | with_reducible refine use_some ?_ (by with_reducible assumption)
    | split
    | simp only [keeps_mk]
    | dsimp only

theorem eobOp_keeps {s0 : State} (g : Nat) : OpKeeps s0 (eobOp g) := by
  refine ⟨?_, ?_⟩ <;> intro s w h <;> simp only [eobOp, scalarOp]
  all_goals repeat' first
    | with_reducible assumption
    | intro _
    | with_reducible apply ite_keeps
    | with_reducible apply ite_out
    | with_reducible apply ite_opt
    | with_reducible apply next_keeps
    | with_reducible apply some_keeps
    | with_reducible apply none_keeps
    | with_reducible apply fields_keep
    | with_reducible apply fields_upset
    | with_reducible apply fields_filter
    | simp only [torn_counter]
    | with_reducible apply fields_reset
    | with_reducible apply fields_reset_regs
    | with_reducible apply noteDone_keeps
    | with_reducible apply scalarOp_keeps
    | with_reducible apply set_keeps
    | with_reducible apply setCourse_keeps
    | with_reducible apply updCl_keeps
    | with_reducible apply foldl_to_keeps BusRead.st
    | with_reducible apply done_keeps
    | with_reducible apply miss_keeps
    | with_reducible apply stopped_keeps
    | with_reducible apply waits_keeps
    | with_reducible refine use_done ?_ (by with_reducible assumption)
    | with_reducible refine use_miss ?_ (by with_reducible assumption)
    | with_reducible refine use_stopped ?_ (by with_reducible assumption)
    | with_reducible refine use_waits ?_ (by with_reducible assumption)
    | with_reducible apply foldl_keeps
    | with_reducible apply foldl_snd_keeps
    | with_reducible apply foldl_opt_keeps
    | with_reducible apply foldl_snd2_keeps
    | with_reducible apply foldl_fst_keeps
    | with_reducible apply getD_keeps
    | with_reducible apply somep_keeps
    | with_reducible apply nonep_keeps
    | with_reducible refine of_some (by with_reducible assumption)
    | with_reducible refine use_pair ?_ (by with_reducible assumption)
    | with_reducible refine use_some ?_ (by with_reducible assumption)
    | split
    | simp only [keeps_mk]
    | dsimp only

theorem execEob_keeps {s0 : State} (g : Fin 1024) (s : State) (h_s : Keeps s0 s) : OutKeeps s0 (execEob g s) := by
  rw [execEob.eq_def]; try dsimp only
  repeat' first
    | with_reducible assumption
    | intro _
    | with_reducible apply next_keeps
    | with_reducible apply eobOp_keeps
    | with_reducible apply issue_keeps
    | dsimp only

theorem barOp_keeps {s0 : State} (g : Nat) : OpKeeps s0 (barOp g) := by
  refine ⟨?_, ?_⟩ <;> intro s w h <;> simp only [barOp, scalarOp]
  all_goals repeat' first
    | with_reducible assumption
    | intro _
    | with_reducible apply some_keeps
    | with_reducible apply none_keeps
    | with_reducible apply fields_keep
    | with_reducible apply scalarOp_keeps
    | with_reducible apply set_keeps
    | with_reducible apply setCourse_keeps
    | with_reducible apply updCl_keeps
    | with_reducible refine use_some ?_ (by with_reducible assumption)
    | split
    | simp only [keeps_mk]
    | dsimp only

theorem execBar_keeps {s0 : State} (g : Fin 1024) (s : State) (h_s : Keeps s0 s) : OutKeeps s0 (execBar g s) := by
  rw [execBar.eq_def]; try dsimp only
  repeat' first
    | with_reducible assumption
    | intro _
    | with_reducible apply next_keeps
    | with_reducible apply barOp_keeps
    | with_reducible apply issue_keeps
    | dsimp only

theorem execBarrierSatisfied_keeps {s0 : State} (id : Fin 256) (s : State) (h_s : Keeps s0 s) : OutKeeps s0 (execBarrierSatisfied id s) := by
  rw [execBarrierSatisfied.eq_def]; try dsimp only
  repeat' first
    | with_reducible assumption
    | intro _
    | with_reducible apply ite_keeps
    | with_reducible apply ite_out
    | with_reducible apply ite_opt
    | with_reducible apply next_keeps
    | with_reducible apply some_keeps
    | with_reducible apply none_keeps
    | with_reducible apply fields_keep
    | with_reducible apply set_keeps
    | with_reducible apply setCourse_keeps
    | with_reducible apply signalRelease_keeps
    | with_reducible apply updCl_keeps
    | with_reducible apply foldl_to_keeps BusRead.st
    | with_reducible apply foldl_keeps
    | with_reducible apply foldl_snd_keeps
    | with_reducible apply foldl_fst_keeps
    | with_reducible refine use_some ?_ (by with_reducible assumption)
    | split
    | simp only [keeps_mk]
    | dsimp only

theorem execPowerReady_keeps {s0 : State} (die : Fin 8) (s : State) (h_s : Keeps s0 s) : OutKeeps s0 (execPowerReady die s) := by
  rw [execPowerReady.eq_def]; try dsimp only
  repeat' first
    | with_reducible assumption
    | intro _
    | with_reducible apply ite_keeps
    | with_reducible apply ite_out
    | with_reducible apply next_keeps
    | with_reducible apply fields_keep
    | with_reducible apply release_keeps
    | split
    | simp only [keeps_mk]
    | dsimp only

theorem execPwrWaitTimeout_keeps {s0 : State} (die : Fin 8) (s : State) (h_s : Keeps s0 s) : OutKeeps s0 (execPwrWaitTimeout die s) := by
  rw [execPwrWaitTimeout.eq_def]; try dsimp only
  repeat' first
    | with_reducible assumption
    | intro _
    | with_reducible apply ite_keeps
    | with_reducible apply ite_out
    | with_reducible apply next_keeps
    | with_reducible apply fields_keep
    | with_reducible apply advanceTo_keeps
    | with_reducible apply bump_keeps
    | with_reducible apply release_keeps
    | split
    | simp only [keeps_mk]
    | dsimp only

theorem releaseCluster_keeps {s0 : State} (s : State) (g : Nat) (h_s : Keeps s0 s) : Keeps s0 (State.releaseCluster s g) := by
  rw [State.releaseCluster.eq_def]; try dsimp only
  repeat' first
    | with_reducible assumption
    | intro _
    | with_reducible apply ite_keeps
    | with_reducible apply ite_opt
    | with_reducible apply some_keeps
    | with_reducible apply none_keeps
    | with_reducible apply fields_keep
    | with_reducible apply set_keeps
    | with_reducible apply updCl_keeps
    | with_reducible refine use_some ?_ (by with_reducible assumption)
    | split
    | simp only [keeps_mk]
    | dsimp only

theorem releaseBegins_keeps {s0 : State} (s : State) (d : Nat) (h_s : Keeps s0 s) : Keeps s0 (State.releaseBegins s d) := by
  rw [State.releaseBegins.eq_def]; try dsimp only
  repeat' first
    | with_reducible assumption
    | intro _
    | with_reducible apply ite_keeps
    | with_reducible apply ite_opt
    | with_reducible apply some_keeps
    | with_reducible apply none_keeps
    | with_reducible apply fields_keep
    | with_reducible apply bump_keeps
    | with_reducible apply updDp_keeps
    | with_reducible refine use_some ?_ (by with_reducible assumption)
    | split
    | simp only [keeps_mk]
    | dsimp only

theorem execGroupRelease_keeps {s0 : State} (die k : Fin 8) (s : State) (h_s : Keeps s0 s) : OutKeeps s0 (execGroupRelease die k s) := by
  rw [execGroupRelease.eq_def]; try dsimp only
  repeat' first
    | with_reducible assumption
    | intro _
    | with_reducible apply ite_keeps
    | with_reducible apply ite_out
    | with_reducible apply next_keeps
    | with_reducible apply fields_keep
    | with_reducible apply release_keeps
    | with_reducible apply releaseBegins_keeps
    | with_reducible apply releaseCluster_keeps
    | with_reducible apply foldl_to_keeps BusRead.st
    | with_reducible apply foldl_keeps
    | with_reducible apply foldl_snd_keeps
    | with_reducible apply foldl_fst_keeps
    | split
    | simp only [keeps_mk]
    | dsimp only

theorem setStageQ_keeps {s0 : State} (s : State) (key : Nat) (x : StageQ) (h_s : Keeps s0 s) : Keeps s0 (State.setStageQ s key x) := by
  rw [State.setStageQ.eq_def]; try dsimp only
  repeat' first
    | with_reducible assumption
    | with_reducible apply fields_keep
    | with_reducible apply set_keeps
    | with_reducible apply setCourse_keeps
    | simp only [keeps_mk]
    | dsimp only

theorem settleWait_keeps {s0 : State} (s : State) (g key : Nat) (push : Bool) (h_s : Keeps s0 s) : Keeps s0 (State.settleWait s g key push) := by
  rw [State.settleWait.eq_def]; try dsimp only
  repeat' first
    | with_reducible assumption
    | intro _
    | with_reducible apply ite_keeps
    | with_reducible apply ite_opt
    | with_reducible apply some_keeps
    | with_reducible apply none_keeps
    | with_reducible apply fields_keep
    | with_reducible apply bump_keeps
    | with_reducible apply setCourse_keeps
    | with_reducible apply updCl_keeps
    | with_reducible refine use_some ?_ (by with_reducible assumption)
    | split
    | simp only [keeps_mk]
    | dsimp only

theorem sqWait_keeps {s0 : State} (s : State) (g : Nat) (h_s : Keeps s0 s) : Keeps s0 (State.sqWait s g) := by
  rw [State.sqWait.eq_def]; try dsimp only
  repeat' first
    | with_reducible assumption
    | intro _
    | with_reducible apply ite_keeps
    | with_reducible apply ite_opt
    | with_reducible apply some_keeps
    | with_reducible apply fields_keep
    | with_reducible apply set_keeps
    | with_reducible apply updCl_keeps
    | with_reducible refine use_some ?_ (by with_reducible assumption)
    | split
    | simp only [keeps_mk]
    | dsimp only

theorem pushRun_keeps {s0 : State} (s : State) (g w : Nat) (h_s : Keeps s0 s) : Keeps s0 (State.pushRun s g w) := by
  rw [State.pushRun.eq_def]; try dsimp only
  repeat' first
    | with_reducible assumption
    | intro _
    | with_reducible apply ite_keeps
    | with_reducible apply ite_opt
    | with_reducible apply some_keeps
    | with_reducible apply none_keeps
    | with_reducible apply fields_keep
    | with_reducible apply fabStore_keeps
    | with_reducible apply setStageQ_keeps
    | with_reducible apply settleWait_keeps
    | with_reducible apply updCl_keeps
    | with_reducible refine use_some ?_ (by with_reducible assumption)
    | split
    | simp only [keeps_mk]
    | dsimp only

theorem sqpushOp_keeps {s0 : State} (g : Nat) : OpKeeps s0 (sqpushOp g) := by
  refine ⟨?_, ?_⟩ <;> intro s w h <;> simp only [sqpushOp, scalarOp]
  all_goals repeat' first
    | with_reducible assumption
    | intro _
    | with_reducible apply ite_keeps
    | with_reducible apply ite_opt
    | with_reducible apply some_keeps
    | with_reducible apply none_keeps
    | with_reducible apply fields_keep
    | with_reducible apply pushRun_keeps
    | with_reducible apply scalarOp_keeps
    | with_reducible apply sqWait_keeps
    | with_reducible refine use_some ?_ (by with_reducible assumption)
    | split
    | simp only [keeps_mk]
    | dsimp only

theorem execSqpush_keeps {s0 : State} (g : Fin 1024) (s : State) (h_s : Keeps s0 s) : OutKeeps s0 (execSqpush g s) := by
  rw [execSqpush.eq_def]; try dsimp only
  repeat' first
    | with_reducible assumption
    | intro _
    | with_reducible apply next_keeps
    | with_reducible apply issue_keeps
    | with_reducible apply sqpushOp_keeps
    | dsimp only

theorem popRun_keeps {s0 : State} (s : State) (g w : Nat) (h_s : Keeps s0 s) : Keeps s0 (State.popRun s g w) := by
  rw [State.popRun.eq_def]; try dsimp only
  repeat' first
    | with_reducible assumption
    | intro _
    | with_reducible apply ite_keeps
    | with_reducible apply ite_opt
    | with_reducible apply some_keeps
    | with_reducible apply none_keeps
    | with_reducible apply fields_keep
    | with_reducible apply setStageQ_keeps
    | with_reducible apply settleWait_keeps
    | with_reducible apply updCl_keeps
    | with_reducible refine use_some ?_ (by with_reducible assumption)
    | split
    | simp only [keeps_mk]
    | dsimp only

theorem sqpopOp_keeps {s0 : State} (g : Nat) : OpKeeps s0 (sqpopOp g) := by
  refine ⟨?_, ?_⟩ <;> intro s w h <;> simp only [sqpopOp, scalarOp]
  all_goals repeat' first
    | with_reducible assumption
    | intro _
    | with_reducible apply ite_keeps
    | with_reducible apply ite_opt
    | with_reducible apply some_keeps
    | with_reducible apply none_keeps
    | with_reducible apply fields_keep
    | with_reducible apply popRun_keeps
    | with_reducible apply scalarOp_keeps
    | with_reducible apply sqWait_keeps
    | with_reducible refine use_some ?_ (by with_reducible assumption)
    | split
    | simp only [keeps_mk]
    | dsimp only

theorem execSqpop_keeps {s0 : State} (g : Fin 1024) (s : State) (h_s : Keeps s0 s) : OutKeeps s0 (execSqpop g s) := by
  rw [execSqpop.eq_def]; try dsimp only
  repeat' first
    | with_reducible assumption
    | intro _
    | with_reducible apply next_keeps
    | with_reducible apply issue_keeps
    | with_reducible apply sqpopOp_keeps
    | dsimp only

theorem creditBack_keeps {s0 : State} (s : State) (g key : Nat) (d : StageDesc) (slot : Nat) (h_s : Keeps s0 s) : Keeps s0 (State.creditBack s g key d slot) := by
  rw [State.creditBack.eq_def]; try dsimp only
  repeat' first
    | with_reducible assumption
    | intro _
    | with_reducible apply some_keeps
    | with_reducible apply none_keeps
    | with_reducible apply fields_keep
    | with_reducible apply failOwner_keeps
    | with_reducible apply setStageQ_keeps
    | with_reducible apply tell_keeps
    | with_reducible refine use_some ?_ (by with_reducible assumption)
    | split
    | simp only [keeps_mk]
    | dsimp only

theorem execStageQueueCopyComplete_keeps {s0 : State} (g : Fin 1024) (s : State) (h_s : Keeps s0 s) : OutKeeps s0 (execStageQueueCopyComplete g s) := by
  rw [execStageQueueCopyComplete.eq_def]; try dsimp only
  repeat' first
    | with_reducible assumption
    | intro _
    | with_reducible apply ite_keeps
    | with_reducible apply ite_out
    | with_reducible apply ite_opt
    | with_reducible apply next_keeps
    | with_reducible apply some_keeps
    | with_reducible apply none_keeps
    | with_reducible apply fields_keep
    | with_reducible apply actMem_keeps
    | with_reducible apply busRead_keeps
    | with_reducible apply busWrite_keeps
    | with_reducible apply creditBack_keeps
    | with_reducible apply drainFaulted_keeps
    | with_reducible apply lbPut_keeps
    | with_reducible apply pinWait_keeps
    | with_reducible apply setStageQ_keeps
    | with_reducible apply updCl_keeps
    | with_reducible apply done_keeps
    | with_reducible apply miss_keeps
    | with_reducible apply stopped_keeps
    | with_reducible apply waits_keeps
    | with_reducible refine use_done ?_ (by with_reducible assumption)
    | with_reducible refine use_miss ?_ (by with_reducible assumption)
    | with_reducible refine use_stopped ?_ (by with_reducible assumption)
    | with_reducible refine use_waits ?_ (by with_reducible assumption)
    | with_reducible refine use_some ?_ (by with_reducible assumption)
    | split
    | simp only [keeps_mk]
    | dsimp only

theorem execSqCredit_keeps {s0 : State} (h : FabHdr) (addr : Nat) (s : State) (h_s : Keeps s0 s) : OutKeeps s0 (execSqCredit h addr s) := by
  rw [execSqCredit.eq_def]; try dsimp only
  repeat' first
    | with_reducible assumption
    | intro _
    | with_reducible apply ite_keeps
    | with_reducible apply ite_out
    | with_reducible apply ite_opt
    | with_reducible apply next_keeps
    | with_reducible apply some_keeps
    | with_reducible apply none_keeps
    | with_reducible apply fields_keep
    | with_reducible apply setStageQ_keeps
    | with_reducible apply takes_keeps
    | with_reducible refine use_some ?_ (by with_reducible assumption)
    | split
    | simp only [keeps_mk]
    | dsimp only

/-! ## Machine/Chains.lean -/

theorem addSection_keeps {s0 : State} (s : State) (ty : Nat) (bs : List Byte) (h_s : Keeps s0 s) : Keeps s0 (State.addSection s ty bs) := by
  rw [State.addSection.eq_def]; try dsimp only
  repeat' first
    | with_reducible assumption
    | intro _
    | with_reducible apply ite_keeps
    | with_reducible apply fields_keep
    | with_reducible apply setCourse_keeps
    | split
    | simp only [keeps_mk]
    | dsimp only

theorem setChain_keeps {s0 : State} (s : State) (id : Nat) (x : ChainRun) (h_s : Keeps s0 s) : Keeps s0 (State.setChain s id x) := by
  rw [State.setChain.eq_def]; try dsimp only
  repeat' first
    | with_reducible assumption
    | with_reducible apply fields_keep
    | with_reducible apply setCourse_keeps
    | simp only [keeps_mk]
    | dsimp only

theorem chnOp_keeps {s0 : State} (g : Nat) : OpKeeps s0 (chnOp g) := by
  refine ⟨?_, ?_⟩ <;> intro s w h <;> simp only [chnOp, scalarOp]
  all_goals repeat' first
    | with_reducible assumption
    | intro _
    | with_reducible apply ite_keeps
    | with_reducible apply ite_opt
    | with_reducible apply some_keeps
    | with_reducible apply none_keeps
    | with_reducible apply fields_keep
    | with_reducible apply scalarOp_keeps
    | with_reducible apply setChain_keeps
    | with_reducible apply syncEngines_keeps
    | with_reducible apply tileWaits_keeps
    | with_reducible apply updCl_keeps
    | with_reducible refine use_some ?_ (by with_reducible assumption)
    | split
    | simp only [keeps_mk]
    | dsimp only

theorem execChn_keeps {s0 : State} (g : Fin 1024) (s : State) (h_s : Keeps s0 s) : OutKeeps s0 (execChn g s) := by
  rw [execChn.eq_def]; try dsimp only
  repeat' first
    | with_reducible assumption
    | intro _
    | with_reducible apply next_keeps
    | with_reducible apply chnOp_keeps
    | with_reducible apply issue_keeps
    | dsimp only

theorem hopFail_keeps {s0 : State} (s : State) (o : FabOwner) (why : Nat) (h_s : Keeps s0 s) : Keeps s0 (State.hopFail s o why) := by
  rw [State.hopFail.eq_def]; try dsimp only
  repeat' first
    | with_reducible assumption
    | intro _
    | with_reducible apply ite_keeps
    | with_reducible apply failOwner_keeps
    | with_reducible apply set_keeps
    | split
    | dsimp only

theorem chainWrite_keeps {s0 : State} (s : State) (g : Nat) (c : ChainDesc) (h_s : Keeps s0 s) : Keeps s0 (State.chainWrite s g c).2 := by
  rw [State.chainWrite.eq_def]; try dsimp only
  repeat' first
    | with_reducible assumption
    | intro _
    | with_reducible apply ite_keeps
    | with_reducible apply ite_opt
    | with_reducible apply none_keeps
    | with_reducible apply fields_keep
    | with_reducible apply actMem_keeps
    | with_reducible apply busWrite_keeps
    | with_reducible apply countEvents_keeps
    | with_reducible apply fabStore_keeps
    | with_reducible apply setChain_keeps
    | with_reducible apply done_keeps
    | with_reducible apply miss_keeps
    | with_reducible apply stopped_keeps
    | with_reducible apply waits_keeps
    | with_reducible refine use_done ?_ (by with_reducible assumption)
    | with_reducible refine use_miss ?_ (by with_reducible assumption)
    | with_reducible refine use_stopped ?_ (by with_reducible assumption)
    | with_reducible refine use_waits ?_ (by with_reducible assumption)
    | split
    | simp only [keeps_mk]
    | dsimp only

theorem memberDone_keeps {s0 : State} (s : State) (c : ChainDesc) (i : Nat) (m : ChainMember) (o : Nat × Nat × Nat) (h_s : Keeps s0 s) : Keeps s0 (State.memberDone s c i m o) := by
  rw [State.memberDone.eq_def]; try dsimp only
  repeat' first
    | with_reducible assumption
    | intro _
    | with_reducible apply ite_keeps
    | with_reducible apply fields_keep
    | with_reducible apply chainWrite_keeps
    | with_reducible apply setChain_keeps
    | with_reducible apply tileFreed_keeps
    | with_reducible apply updCl_keeps
    | split
    | simp only [keeps_mk]
    | dsimp only

theorem chainStep_keeps {s0 : State} (s : State) (c : ChainDesc) (i r : Nat) (m : ChainMember) (data : List Byte) (h_s : Keeps s0 s) : Keeps s0 (State.chainStep s c i r m data) := by
  rw [State.chainStep.eq_def]; try dsimp only
  repeat' first
    | with_reducible assumption
    | intro _
    | with_reducible apply ite_keeps
    | with_reducible apply ite_opt
    | with_reducible apply some_keeps
    | with_reducible apply none_keeps
    | with_reducible apply fields_keep
    | with_reducible apply countEvents_keeps
    | with_reducible apply hopFail_keeps
    | with_reducible apply memberDone_keeps
    | with_reducible apply sendHop_keeps
    | with_reducible apply setChain_keeps
    | with_reducible apply tileEvents_keeps
    | with_reducible apply foldl_to_keeps BusRead.st
    | with_reducible apply done_keeps
    | with_reducible apply miss_keeps
    | with_reducible apply stopped_keeps
    | with_reducible apply waits_keeps
    | with_reducible refine use_done ?_ (by with_reducible assumption)
    | with_reducible refine use_miss ?_ (by with_reducible assumption)
    | with_reducible refine use_stopped ?_ (by with_reducible assumption)
    | with_reducible refine use_waits ?_ (by with_reducible assumption)
    | with_reducible apply foldl_keeps
    | with_reducible apply foldl_snd_keeps
    | with_reducible apply foldl_fst_keeps
    | with_reducible refine use_some ?_ (by with_reducible assumption)
    | split
    | simp only [keeps_mk]
    | dsimp only

theorem putColl_keeps {s0 : State} (s : State) (x : CollRun) (h_s : Keeps s0 s) : Keeps s0 (State.putColl s x) := by
  rw [State.putColl.eq_def]; try dsimp only
  repeat' first
    | with_reducible assumption
    | intro _
    | with_reducible apply ite_keeps
    | with_reducible apply fields_keep
    | with_reducible apply updFab_keeps
    | split
    | simp only [keeps_mk]
    | dsimp only

theorem endColl_keeps {s0 : State} (s : State) (x : CollRun) (st : Nat) (h_s : Keeps s0 s) : Keeps s0 (State.endColl s x st) := by
  rw [State.endColl.eq_def]; try dsimp only
  repeat' first
    | with_reducible assumption
    | intro _
    | with_reducible apply some_keeps
    | with_reducible apply fields_keep
    | with_reducible apply completeFull_keeps
    | with_reducible apply updFab_keeps
    | with_reducible apply withWaiting_keeps
    | with_reducible refine use_some ?_ (by with_reducible assumption)
    | simp only [keeps_mk]
    | dsimp only

theorem collWrite_keeps {s0 : State} (s : State) (x : CollRun) (k : Nat) (bs : List Byte) (h_s : Keeps s0 s) : Keeps s0 (State.collWrite s x k bs).2 := by
  rw [State.collWrite.eq_def]; try dsimp only
  repeat' first
    | with_reducible assumption
    | intro _
    | with_reducible apply some_keeps
    | with_reducible apply none_keeps
    | with_reducible apply fields_keep
    | with_reducible apply busWrite_keeps
    | with_reducible apply done_keeps
    | with_reducible apply miss_keeps
    | with_reducible apply stopped_keeps
    | with_reducible apply waits_keeps
    | with_reducible refine use_done ?_ (by with_reducible assumption)
    | with_reducible refine use_miss ?_ (by with_reducible assumption)
    | with_reducible refine use_stopped ?_ (by with_reducible assumption)
    | with_reducible refine use_waits ?_ (by with_reducible assumption)
    | with_reducible refine use_some ?_ (by with_reducible assumption)
    | split
    | simp only [keeps_mk]
    | dsimp only

theorem collCheckEnd_keeps {s0 : State} (s : State) (x : CollRun) (h_s : Keeps s0 s) : Keeps s0 (State.collCheckEnd s x) := by
  rw [State.collCheckEnd.eq_def]; try dsimp only
  repeat' first
    | with_reducible assumption
    | intro _
    | with_reducible apply ite_keeps
    | with_reducible apply endColl_keeps
    | with_reducible apply putColl_keeps
    | split
    | dsimp only

theorem collBack_keeps {s0 : State} (s : State) (x : CollRun) (k : Nat) (data : List Byte) (h_s : Keeps s0 s) : Keeps s0 (State.collBack s x k data) := by
  rw [State.collBack.eq_def]; try dsimp only
  repeat' first
    | with_reducible assumption
    | with_reducible apply sendHop_keeps
    | with_reducible apply getD_keeps
    | dsimp only

theorem collStep_keeps {s0 : State} (s : State) (x : CollRun) (k : Nat) (digest : Word) (data : List Byte) (h_s : Keeps s0 s) : Keeps s0 (State.collStep s x k digest data) := by
  rw [State.collStep.eq_def]; try dsimp only
  repeat' first
    | with_reducible assumption
    | intro _
    | with_reducible apply ite_keeps
    | with_reducible apply ite_opt
    | with_reducible apply some_keeps
    | with_reducible apply none_keeps
    | with_reducible apply fields_keep
    | with_reducible apply busRead_keeps
    | with_reducible apply collBack_keeps
    | with_reducible apply collCheckEnd_keeps
    | with_reducible apply collWrite_keeps
    | with_reducible apply countEvents_keeps
    | with_reducible apply endColl_keeps
    | with_reducible apply hopFail_keeps
    | with_reducible apply sendHop_keeps
    | with_reducible apply takes_keeps
    | with_reducible apply done_keeps
    | with_reducible apply miss_keeps
    | with_reducible apply stopped_keeps
    | with_reducible apply waits_keeps
    | with_reducible refine use_done ?_ (by with_reducible assumption)
    | with_reducible refine use_miss ?_ (by with_reducible assumption)
    | with_reducible refine use_stopped ?_ (by with_reducible assumption)
    | with_reducible refine use_waits ?_ (by with_reducible assumption)
    | with_reducible refine use_some ?_ (by with_reducible assumption)
    | split
    | simp only [keeps_mk]
    | dsimp only

theorem execChainSum_keeps {s0 : State} (h : FabHdr) (id member row : Nat) (sum : ChainRow) (s : State) (h_s : Keeps s0 s) : OutKeeps s0 (execChainSum h id member row sum s) := by
  rw [execChainSum.eq_def]; try dsimp only
  repeat' first
    | with_reducible assumption
    | intro _
    | with_reducible apply ite_keeps
    | with_reducible apply ite_out
    | with_reducible apply ite_opt
    | with_reducible apply next_keeps
    | with_reducible apply some_keeps
    | with_reducible apply none_keeps
    | with_reducible apply fields_keep
    | with_reducible apply chainStep_keeps
    | with_reducible apply collStep_keeps
    | with_reducible apply takes_keeps
    | with_reducible refine use_some ?_ (by with_reducible assumption)
    | split
    | simp only [keeps_mk]
    | dsimp only

theorem execCollResult_keeps {s0 : State} (h : FabHdr) (id : Nat) (chunk : CollChunk) (s : State) (h_s : Keeps s0 s) : OutKeeps s0 (execCollResult h id chunk s) := by
  rw [execCollResult.eq_def]; try dsimp only
  repeat' first
    | with_reducible assumption
    | intro _
    | with_reducible apply ite_keeps
    | with_reducible apply ite_out
    | with_reducible apply ite_opt
    | with_reducible apply next_keeps
    | with_reducible apply some_keeps
    | with_reducible apply none_keeps
    | with_reducible apply fields_keep
    | with_reducible apply collBack_keeps
    | with_reducible apply collCheckEnd_keeps
    | with_reducible apply collWrite_keeps
    | with_reducible apply hopFail_keeps
    | with_reducible apply takes_keeps
    | with_reducible apply done_keeps
    | with_reducible apply miss_keeps
    | with_reducible apply stopped_keeps
    | with_reducible apply waits_keeps
    | with_reducible refine use_done ?_ (by with_reducible assumption)
    | with_reducible refine use_miss ?_ (by with_reducible assumption)
    | with_reducible refine use_stopped ?_ (by with_reducible assumption)
    | with_reducible refine use_waits ?_ (by with_reducible assumption)
    | with_reducible apply getD_keeps
    | with_reducible refine use_some ?_ (by with_reducible assumption)
    | split
    | simp only [keeps_mk]
    | dsimp only

theorem execCollective_keeps {s0 : State} (q : Fin 16384) (seq : Nat) (s : State) (h_s : Keeps s0 s) : OutKeeps s0 (execCollective q seq s) := by
  rw [execCollective.eq_def]; try dsimp only
  repeat' first
    | with_reducible assumption
    | intro _
    | with_reducible apply ite_keeps
    | with_reducible apply ite_out
    | with_reducible apply ite_opt
    | with_reducible apply next_keeps
    | with_reducible apply some_keeps
    | with_reducible apply none_keeps
    | with_reducible apply fields_keep
    | with_reducible apply addSection_keeps
    | with_reducible apply busRead_keeps
    | with_reducible apply cmdWaits_keeps
    | with_reducible apply fail_keeps
    | with_reducible apply missEvent_keeps
    | with_reducible apply needA_keeps
    | with_reducible apply needMem_keeps
    | with_reducible apply newHops_keeps
    | with_reducible apply runCmd_keeps
    | with_reducible apply set_keeps
    | with_reducible apply updFab_keeps
    | with_reducible refine use_some ?_ (by with_reducible assumption)
    | split
    | simp only [keeps_mk]
    | dsimp only

end Sys2Proof.Laws
end

