-- ==== Sys2Proof/Laws/KeepsUnits.lean ====
section
/-! SUPPORT. Every operation of ports, update units, scales and tables keeps the canonical forms and the queue of
commands. -/
set_option linter.all false
namespace Sys2Proof.Laws
open Sys2Proof.Machine

/-! ## Machine/FabricLink.lean -/

theorem execFlitReceive_keeps {s0 : State} (port : Fin 32) (fl : Flit) (fec : Nat) (crcOk : Bool) (s : State) (h_s : Keeps s0 s) : OutKeeps s0 (execFlitReceive port fl fec crcOk s) := by
  rw [execFlitReceive.eq_def]; try dsimp only
  repeat' first
    | with_reducible assumption
    | intro _
    | with_reducible apply ite_keeps
    | with_reducible apply ite_out
    | with_reducible apply next_keeps
    | with_reducible apply fields_keep
    | with_reducible apply bump_keeps
    | with_reducible apply send_keeps
    | with_reducible apply updFab_keeps
    | with_reducible apply foldl_to_keeps BusRead.st
    | with_reducible apply foldl_keeps
    | with_reducible apply foldl_snd_keeps
    | with_reducible apply foldl_fst_keeps
    | with_reducible apply getD_keeps
    | split
    | simp only [keeps_mk]
    | dsimp only

theorem execReplayRequest_keeps {s0 : State} (port : Fin 32) (seq : Nat) (s : State) (h_s : Keeps s0 s) : OutKeeps s0 (execReplayRequest port seq s) := by
  rw [execReplayRequest.eq_def]; try dsimp only
  repeat' first
    | with_reducible assumption
    | intro _
    | with_reducible apply ite_keeps
    | with_reducible apply ite_out
    | with_reducible apply next_keeps
    | with_reducible apply fields_keep
    | with_reducible apply bump_keeps
    | with_reducible apply linkDown_keeps
    | with_reducible apply send_keeps
    | with_reducible apply updFab_keeps
    | with_reducible apply foldl_to_keeps BusRead.st
    | with_reducible apply foldl_keeps
    | with_reducible apply foldl_snd_keeps
    | with_reducible apply foldl_fst_keeps
    | split
    | simp only [keeps_mk]
    | dsimp only

theorem execFecLockLoss_keeps {s0 : State} (port : Fin 32) (s : State) (h_s : Keeps s0 s) : OutKeeps s0 (execFecLockLoss port s) := by
  rw [execFecLockLoss.eq_def]; try dsimp only
  repeat' first
    | with_reducible assumption
    | intro _
    | with_reducible apply ite_keeps
    | with_reducible apply ite_out
    | with_reducible apply next_keeps
    | with_reducible apply linkDown_keeps
    | split
    | dsimp only

theorem setPeer_keeps {s0 : State} (s : State) (port dev : Nat) (valid : Bool) (peerPort slot : Nat) (h_s : Keeps s0 s) : Keeps s0 (State.setPeer s port dev valid peerPort slot) := by
  rw [State.setPeer.eq_def]; try dsimp only
  repeat' first
    | with_reducible assumption
    | intro _
    | with_reducible apply ite_keeps
    | with_reducible apply set_keeps
    | split
    | dsimp only

theorem execLinkTrainingEnd_keeps {s0 : State} (port : Fin 32) (ok : Bool) (strap : Fin 4) (maxver dev : Nat) (valid : Bool) (peerPort : Fin 32) (slot : Fin 4) (s : State) (h_s : Keeps s0 s) : OutKeeps s0 (execLinkTrainingEnd port ok strap maxver dev valid peerPort slot s) := by
  rw [execLinkTrainingEnd.eq_def]; try dsimp only
  repeat' first
    | with_reducible assumption
    | intro _
    | with_reducible apply ite_keeps
    | with_reducible apply ite_out
    | with_reducible apply next_keeps
    | with_reducible apply bump_keeps
    | with_reducible apply raise_keeps
    | with_reducible apply rehop_keeps
    | with_reducible apply set_keeps
    | with_reducible apply setPeer_keeps
    | with_reducible apply syncLevels_keeps
    | split
    | dsimp only

theorem probePort_keeps {s0 : State} (s : State) (dev port : Nat) (h_s : Keeps s0 s) : Keeps s0 (State.probePort s dev port) := by
  rw [State.probePort.eq_def]; try dsimp only
  repeat' first
    | with_reducible assumption
    | with_reducible apply nextTag_keeps
    | with_reducible apply sendReq_keeps
    | dsimp only

theorem execProbe_keeps {s0 : State} (port : Fin 32) (src tag : Nat) (s : State) (h_s : Keeps s0 s) : OutKeeps s0 (execProbe port src tag s) := by
  rw [execProbe.eq_def]; try dsimp only
  repeat' first
    | with_reducible assumption
    | intro _
    | with_reducible apply ite_keeps
    | with_reducible apply ite_out
    | with_reducible apply next_keeps
    | with_reducible apply heard_keeps
    | with_reducible apply sendAns_keeps
    | split
    | dsimp only

theorem execProbeRsp_keeps {s0 : State} (port : Fin 32) (src rtt : Nat) (s : State) (h_s : Keeps s0 s) : OutKeeps s0 (execProbeRsp port src rtt s) := by
  rw [execProbeRsp.eq_def]; try dsimp only
  repeat' first
    | with_reducible assumption
    | intro _
    | with_reducible apply ite_keeps
    | with_reducible apply ite_out
    | with_reducible apply ite_opt
    | with_reducible apply next_keeps
    | with_reducible apply some_keeps
    | with_reducible apply none_keeps
    | with_reducible apply fields_keep
    | with_reducible apply heard_keeps
    | with_reducible apply set_keeps
    | with_reducible apply updFab_keeps
    | with_reducible refine use_some ?_ (by with_reducible assumption)
    | split
    | simp only [keeps_mk]
    | dsimp only

theorem execLevelProbe_keeps {s0 : State} (s : State) (h_s : Keeps s0 s) : OutKeeps s0 (execLevelProbe s) := by
  rw [execLevelProbe.eq_def]; try dsimp only
  repeat' first
    | with_reducible assumption
    | intro _
    | with_reducible apply ite_keeps
    | with_reducible apply ite_out
    | with_reducible apply next_keeps
    | with_reducible apply probePort_keeps
    | with_reducible apply foldl_to_keeps BusRead.st
    | with_reducible apply foldl_keeps
    | with_reducible apply foldl_snd_keeps
    | with_reducible apply foldl_fst_keeps
    | split
    | dsimp only

theorem enterHoldover_keeps {s0 : State} (s : State) (h_s : Keeps s0 s) : Keeps s0 (State.enterHoldover s) := by
  rw [State.enterHoldover.eq_def]; try dsimp only
  repeat' first
    | with_reducible assumption
    | intro _
    | with_reducible apply ite_keeps
    | with_reducible apply fields_keep
    | with_reducible apply ledSet_keeps
    | with_reducible apply raise_keeps
    | with_reducible apply set_keeps
    | with_reducible apply foldl_to_keeps BusRead.st
    | with_reducible apply foldl_keeps
    | with_reducible apply foldl_snd_keeps
    | with_reducible apply foldl_fst_keeps
    | split
    | simp only [keeps_mk]
    | dsimp only

theorem reqFailed_keeps {s0 : State} (s : State) (r : FabReq) (st : Nat) (h_s : Keeps s0 s) : Keeps s0 (State.reqFailed s r st) := by
  rw [State.reqFailed.eq_def]; try dsimp only
  repeat' first
    | with_reducible assumption
    | intro _
    | with_reducible apply ite_keeps
    | with_reducible apply dropReq_keeps
    | with_reducible apply fabMark_keeps
    | with_reducible apply failOwner_keeps
    | split
    | dsimp only

theorem loseReqs_keeps {s0 : State} (s : State) (l : List FabReq) (h_s : Keeps s0 s) : Keeps s0 (State.loseReqs s l) := by
  rw [State.loseReqs.eq_def]; try dsimp only
  repeat' first
    | with_reducible assumption
    | intro _
    | with_reducible apply dropReq_keeps
    | with_reducible apply failOwner_keeps
    | with_reducible apply foldl_to_keeps BusRead.st
    | with_reducible apply foldl_keeps
    | with_reducible apply foldl_snd_keeps
    | with_reducible apply foldl_fst_keeps
    | dsimp only

theorem peerLost_keeps {s0 : State} (s : State) (dev : Nat) (h_s : Keeps s0 s) : Keeps s0 (State.peerLost s dev) := by
  rw [State.peerLost.eq_def]; try dsimp only
  repeat' first
    | with_reducible assumption
    | intro _
    | with_reducible apply ite_keeps
    | with_reducible apply ite_opt
    | with_reducible apply some_keeps
    | with_reducible apply fields_keep
    | with_reducible apply abortCourse_keeps
    | with_reducible apply completeFull_keeps
    | with_reducible apply enterHoldover_keeps
    | with_reducible apply fabMark_keeps
    | with_reducible apply heard_keeps
    | with_reducible apply ledBump_keeps
    | with_reducible apply loseReqs_keeps
    | with_reducible apply raise_keeps
    | with_reducible apply set_keeps
    | with_reducible apply updFab_keeps
    | with_reducible apply withWaiting_keeps
    | with_reducible apply wr_keeps
    | with_reducible apply foldl_to_keeps BusRead.st
    | with_reducible apply foldl_keeps
    | with_reducible apply foldl_snd_keeps
    | with_reducible apply foldl_fst_keeps
    | with_reducible refine use_some ?_ (by with_reducible assumption)
    | split
    | simp only [keeps_mk]
    | dsimp only

theorem execProbeWaitExpiry_keeps {s0 : State} (dev : Fin 2048) (s : State) (h_s : Keeps s0 s) : OutKeeps s0 (execProbeWaitExpiry dev s) := by
  rw [execProbeWaitExpiry.eq_def]; try dsimp only
  repeat' first
    | with_reducible assumption
    | intro _
    | with_reducible apply ite_keeps
    | with_reducible apply ite_out
    | with_reducible apply next_keeps
    | with_reducible apply startProbing_keeps
    | split
    | dsimp only

theorem execProbeRound_keeps {s0 : State} (dev : Fin 2048) (s : State) (h_s : Keeps s0 s) : OutKeeps s0 (execProbeRound dev s) := by
  rw [execProbeRound.eq_def]; try dsimp only
  repeat' first
    | with_reducible assumption
    | intro _
    | with_reducible apply ite_keeps
    | with_reducible apply ite_out
    | with_reducible apply ite_opt
    | with_reducible apply next_keeps
    | with_reducible apply some_keeps
    | with_reducible apply none_keeps
    | with_reducible apply fields_keep
    | with_reducible apply peerLost_keeps
    | with_reducible apply probePort_keeps
    | with_reducible apply updFab_keeps
    | with_reducible apply foldl_to_keeps BusRead.st
    | with_reducible apply foldl_keeps
    | with_reducible apply foldl_snd_keeps
    | with_reducible apply foldl_fst_keeps
    | with_reducible refine use_some ?_ (by with_reducible assumption)
    | split
    | simp only [keeps_mk]
    | dsimp only

theorem answer_keeps {s0 : State} (s : State) (src tag status : Nat) (ops : List Nat) (f : FabReq → State → State) (h_s : Keeps s0 s) (h_f : ∀ (y0 : FabReq) (y1 : State), Keeps s0 y1 → Keeps s0 (f y0 y1)) : Keeps s0 (State.answer s src tag status ops f) := by
  rw [State.answer.eq_def]; try dsimp only
  repeat' first
    | with_reducible assumption
    | intro _
    | with_reducible apply ite_keeps
    | with_reducible apply ite_opt
    | with_reducible apply some_keeps
    | with_reducible apply none_keeps
    | with_reducible apply fields_keep
    | with_reducible apply dropReq_keeps
    | with_reducible apply heard_keeps
    | with_reducible apply reqFailed_keeps
    | with_reducible apply h_f
    | with_reducible refine use_some ?_ (by with_reducible assumption)
    | split
    | simp only [keeps_mk]
    | dsimp only

theorem execReqTimeoutExpiry_keeps {s0 : State} (tag : Nat) (s : State) (h_s : Keeps s0 s) : OutKeeps s0 (execReqTimeoutExpiry tag s) := by
  rw [execReqTimeoutExpiry.eq_def]; try dsimp only
  repeat' first
    | with_reducible assumption
    | intro _
    | with_reducible apply ite_keeps
    | with_reducible apply ite_out
    | with_reducible apply ite_opt
    | with_reducible apply next_keeps
    | with_reducible apply some_keeps
    | with_reducible apply none_keeps
    | with_reducible apply fields_keep
    | with_reducible apply bump_keeps
    | with_reducible apply emit_keeps
    | with_reducible apply ledBump_keeps
    | with_reducible apply raise_keeps
    | with_reducible apply reqFailed_keeps
    | with_reducible apply set_keeps
    | with_reducible apply startProbing_keeps
    | with_reducible apply updFab_keeps
    | with_reducible refine use_some ?_ (by with_reducible assumption)
    | split
    | simp only [keeps_mk]
    | dsimp only

theorem execIdent_keeps {s0 : State} (port : Fin 32) (src tag : Nat) (strap : Fin 4) (s : State) (h_s : Keeps s0 s) : OutKeeps s0 (execIdent port src tag strap s) := by
  rw [execIdent.eq_def]; try dsimp only
  repeat' first
    | with_reducible assumption
    | intro _
    | with_reducible apply ite_keeps
    | with_reducible apply ite_out
    | with_reducible apply next_keeps
    | with_reducible apply heard_keeps
    | with_reducible apply sendAns_keeps
    | split
    | dsimp only

theorem execFabricIdent_keeps {s0 : State} (q : Fin 16384) (seq : Nat) (s : State) (h_s : Keeps s0 s) : OutKeeps s0 (execFabricIdent q seq s) := by
  rw [execFabricIdent.eq_def]; try dsimp only
  repeat' first
    | with_reducible assumption
    | intro _
    | with_reducible apply ite_keeps
    | with_reducible apply ite_out
    | with_reducible apply next_keeps
    | with_reducible apply fields_keep
    | with_reducible apply cmdWaits_keeps
    | with_reducible apply emit_keeps
    | with_reducible apply fail_keeps
    | with_reducible apply nextTag_keeps
    | with_reducible apply runCmd_keeps
    | with_reducible apply succeed_keeps
    | with_reducible apply updFab_keeps
    | split
    | simp only [keeps_mk]
    | dsimp only

theorem execIdentRsp_keeps {s0 : State} (port : Fin 32) (tag dev : Nat) (valid : Bool) (peerPort : Fin 32) (slot : Fin 4) (s : State) (h_s : Keeps s0 s) : OutKeeps s0 (execIdentRsp port tag dev valid peerPort slot s) := by
  rw [execIdentRsp.eq_def]; try dsimp only
  repeat' first
    | with_reducible assumption
    | intro _
    | with_reducible apply next_keeps
    | with_reducible apply some_keeps
    | with_reducible apply none_keeps
    | with_reducible apply fields_keep
    | with_reducible apply dropReq_keeps
    | with_reducible apply heard_keeps
    | with_reducible apply setPeer_keeps
    | with_reducible apply succeed_keeps
    | with_reducible apply withWaiting_keeps
    | with_reducible refine use_some ?_ (by with_reducible assumption)
    | split
    | simp only [keeps_mk]
    | dsimp only

/-! ## Machine/UnitOps.lean -/

theorem freeBytes_keeps {s0 : State} (s : State) (n : Nat) (h_s : Keeps s0 s) : Keeps s0 (State.freeBytes s n).2 := by
  rw [State.freeBytes.eq_def]; try dsimp only
  repeat' first
    | with_reducible assumption
    | with_reducible apply fields_keep
    | simp only [keeps_mk]
    | dsimp only

theorem engineRead_keeps {s0 : State} (s : State) (die a n : Nat) (h_s : Keeps s0 s) : Keeps s0 (State.engineRead s die a n).2 := by
  rw [State.engineRead.eq_def]; try dsimp only
  repeat' first
    | with_reducible assumption
    | intro _
    | with_reducible apply ite_keeps
    | with_reducible apply freeBytes_keeps
    | with_reducible apply raise_keeps
    | with_reducible apply readMem_keeps
    | split
    | dsimp only

theorem ownWrite_keeps {s0 : State} (s : State) (w : Writer) (die a : Nat) (bs : List Byte) (h_s : Keeps s0 s) : Keeps s0 (State.ownWrite s w die a bs) := by
  rw [State.ownWrite.eq_def]; try dsimp only
  repeat' first
    | with_reducible assumption
    | intro _
    | with_reducible apply ite_keeps
    | with_reducible apply raise_keeps
    | with_reducible apply writeMem_keeps
    | split
    | dsimp only

theorem engineWrite_keeps {s0 : State} (s : State) (die a : Nat) (bs : List Byte) (h_s : Keeps s0 s) : Keeps s0 (State.engineWrite s die a bs) := by
  rw [State.engineWrite.eq_def]; try dsimp only
  repeat' first
    | with_reducible assumption
    | with_reducible apply ownWrite_keeps
    | dsimp only

theorem unitWrite_keeps {s0 : State} (s : State) (u a : Nat) (bs : List Byte) (h_s : Keeps s0 s) : Keeps s0 (State.unitWrite s u a bs) := by
  rw [State.unitWrite.eq_def]; try dsimp only
  repeat' first
    | with_reducible assumption
    | with_reducible apply ownWrite_keeps
    | dsimp only

theorem syncOcc_keeps {s0 : State} (s : State) (u : Nat) (h_s : Keeps s0 s) : Keeps s0 (State.syncOcc s u) := by
  rw [State.syncOcc.eq_def]; try dsimp only
  repeat' first
    | with_reducible assumption
    | with_reducible apply set_keeps
    | dsimp only

theorem entrySums_keeps {s0 : State} (s : State) (a n : Nat) (h_s : Keeps s0 s) : Keeps s0 (State.entrySums s a n).2.2 := by
  rw [State.entrySums.eq_def]; try dsimp only
  repeat' first
    | with_reducible assumption
    | intro _
    | with_reducible apply readMem_keeps
    | dsimp only

theorem putEntry_keeps {s0 : State} (s : State) (a : Nat) (key : Nat × Nat) (accs : List Nat) (count : Nat) (h_s : Keeps s0 s) : Keeps s0 (State.putEntry s a key accs count) := by
  rw [State.putEntry.eq_def]; try dsimp only
  repeat' first
    | with_reducible assumption
    | with_reducible apply writeMem_keeps
    | dsimp only

theorem placeAdd_keeps {s0 : State} (s : State) (u : Nat) (key : Nat × Nat) (accs : List Nat) (count : Nat) (h_s : Keeps s0 s) : OptKeeps s0 (State.placeAdd s u key accs count) := by
  rw [State.placeAdd.eq_def]; try dsimp only
  repeat' first
    | with_reducible assumption
    | intro _
    | with_reducible apply ite_keeps
    | with_reducible apply ite_opt
    | with_reducible apply some_keeps
    | with_reducible apply none_keeps
    | with_reducible apply fields_keep
    | with_reducible apply entrySums_keeps
    | with_reducible apply ledBump_keeps
    | with_reducible apply ledSet_keeps
    | with_reducible apply putEntry_keeps
    | with_reducible apply set_keeps
    | with_reducible apply syncOcc_keeps
    | with_reducible refine use_some ?_ (by with_reducible assumption)
    | split
    | simp only [keeps_mk]
    | dsimp only

theorem freeKey_keeps {s0 : State} (s : State) (u : Nat) (key : Nat × Nat) (h_s : Keeps s0 s) : Keeps s0 (State.freeKey s u key) := by
  rw [State.freeKey.eq_def]; try dsimp only
  repeat' first
    | with_reducible assumption
    | intro _
    | with_reducible apply syncOcc_keeps
    | with_reducible apply writeMem_keeps
    | with_reducible apply foldl_to_keeps BusRead.st
    | with_reducible apply foldl_keeps
    | with_reducible apply foldl_snd_keeps
    | with_reducible apply foldl_fst_keeps
    | dsimp only

theorem keySums_keeps {s0 : State} (s : State) (u : Nat) (key : Nat × Nat) (n : Nat) (h_s : Keeps s0 s) : Keeps s0 (State.keySums s u key n).2.2 := by
  rw [State.keySums.eq_def]; try dsimp only
  repeat' first
    | with_reducible assumption
    | intro _
    | with_reducible apply ite_keeps
    | with_reducible apply ite_out
    | with_reducible apply ite_opt
    | with_reducible apply next_keeps
    | with_reducible apply some_keeps
    | with_reducible apply none_keeps
    | with_reducible apply fields_keep
    | with_reducible apply fields_upset
    | with_reducible apply fields_filter
    | simp only [torn_counter]
    | with_reducible apply fields_reset
    | with_reducible apply fields_reset_regs
    | with_reducible apply entrySums_keeps
    | with_reducible apply foldl_to_keeps BusRead.st
    | with_reducible apply done_keeps
    | with_reducible apply miss_keeps
    | with_reducible apply stopped_keeps
    | with_reducible apply waits_keeps
    | with_reducible refine use_done ?_ (by with_reducible assumption)
    | with_reducible refine use_miss ?_ (by with_reducible assumption)
    | with_reducible refine use_stopped ?_ (by with_reducible assumption)
    | with_reducible refine use_waits ?_ (by with_reducible assumption)
    | with_reducible apply foldl_keeps
    | with_reducible apply foldl_snd_keeps
    | with_reducible apply foldl_opt_keeps
    | with_reducible apply foldl_snd2_keeps
    | with_reducible apply foldl_fst_keeps
    | with_reducible apply getD_keeps
    | with_reducible apply somep_keeps
    | with_reducible apply nonep_keeps
    | with_reducible refine of_some (by with_reducible assumption)
    | with_reducible refine use_pair ?_ (by with_reducible assumption)
    | with_reducible refine use_some ?_ (by with_reducible assumption)
    | split
    | simp only [keeps_mk]
    | dsimp only

theorem setRun_keeps {s0 : State} (s : State) (u : Nat) (r : Option UpdRun) (h_s : Keeps s0 s) : Keeps s0 (State.setRun s u r) := by
  rw [State.setRun.eq_def]; try dsimp only
  repeat' first
    | with_reducible assumption
    | with_reducible apply none_keeps
    | with_reducible apply fields_keep
    | simp only [keeps_mk]
    | dsimp only

theorem unitEvents_keeps {s0 : State} (s : State) (q : Option Nat) (tid : Nat) (c : EvCount) (h_s : Keeps s0 s) : Keeps s0 (State.unitEvents s q tid c) := by
  rw [State.unitEvents.eq_def]; try dsimp only
  repeat' first
    | with_reducible assumption
    | intro _
    | with_reducible apply some_keeps
    | with_reducible apply none_keeps
    | with_reducible apply fields_keep
    | with_reducible apply countEvents_keeps
    | with_reducible apply entryAdd_keeps
    | with_reducible refine use_some ?_ (by with_reducible assumption)
    | split
    | simp only [keeps_mk]
    | dsimp only

theorem loadInto_keeps {s0 : State} (s : State) (r : UpdRun) (tid d : Nat) (vs : List (F32 × Evt)) (h_s : Keeps s0 s) : Keeps s0 (loadInto s r tid d vs).1 := by
  rw [loadInto.eq_def]; try dsimp only
  repeat' first
    | with_reducible assumption
    | with_reducible apply unitEvents_keeps
    | dsimp only

theorem setSat_keeps {s0 : State} (s : State) (u : Nat) (key : Nat × Nat) (k : Nat) (h_s : Keeps s0 s) : Keeps s0 (State.setSat s u key k) := by
  rw [State.setSat.eq_def]; try dsimp only
  repeat' first
    | with_reducible assumption
    | intro _
    | with_reducible apply writeMem_keeps
    | with_reducible apply foldl_to_keeps BusRead.st
    | with_reducible apply foldl_keeps
    | with_reducible apply foldl_snd_keeps
    | with_reducible apply foldl_fst_keeps
    | split
    | dsimp only

theorem effLdg_keeps {s0 : State} (x0 : State) (x1 : Nat) (x2 : UpdRun) (x3 : UWord) (h_x0 : Keeps s0 x0) : Keeps s0 (effLdg x0 x1 x2 x3).1 := by
  rw [effLdg.eq_def]; try dsimp only
  repeat' first
    | with_reducible assumption
    | intro _
    | with_reducible apply ite_keeps
    | with_reducible apply ite_opt
    | with_reducible apply some_keeps
    | with_reducible apply none_keeps
    | with_reducible apply fields_keep
    | with_reducible apply engineRead_keeps
    | with_reducible apply loadInto_keeps
    | with_reducible apply setSat_keeps
    | with_reducible apply foldl_to_keeps BusRead.st
    | with_reducible apply foldl_keeps
    | with_reducible apply foldl_snd_keeps
    | with_reducible apply foldl_fst_keeps
    | with_reducible apply getD_keeps
    | with_reducible refine use_some ?_ (by with_reducible assumption)
    | split
    | simp only [keeps_mk]
    | dsimp only

theorem masters_keeps {s0 : State} (s : State) (u : Nat) (r : UpdRun) (h_s : Keeps s0 s) : Keeps s0 (State.masters s u r).2.2 := by
  rw [State.masters.eq_def]; try dsimp only
  repeat' first
    | with_reducible assumption
    | intro _
    | with_reducible apply ite_keeps
    | with_reducible apply ite_opt
    | with_reducible apply none_keeps
    | with_reducible apply engineRead_keeps
    | split
    | dsimp only

theorem effLdw_keeps {s0 : State} (x0 : State) (x1 : Nat) (x2 : UpdRun) (x3 : UWord) (h_x0 : Keeps s0 x0) : Keeps s0 (effLdw x0 x1 x2 x3).1 := by
  rw [effLdw.eq_def]; try dsimp only
  repeat' first
    | with_reducible assumption
    | intro _
    | with_reducible apply loadInto_keeps
    | with_reducible apply masters_keeps
    | with_reducible apply unitEvents_keeps
    | dsimp only

theorem effLds_keeps {s0 : State} (x0 : State) (x1 : Nat) (x2 : UpdRun) (x3 : UWord) (h_x0 : Keeps s0 x0) : Keeps s0 (effLds x0 x1 x2 x3).1 := by
  rw [effLds.eq_def]; try dsimp only
  repeat' first
    | with_reducible assumption
    | intro _
    | with_reducible apply ite_keeps
    | with_reducible apply ite_opt
    | with_reducible apply none_keeps
    | with_reducible apply engineRead_keeps
    | with_reducible apply loadInto_keeps
    | with_reducible apply unitEvents_keeps
    | split
    | dsimp only

theorem effLdp_keeps {s0 : State} (x0 : State) (x1 : Nat) (x2 : UpdRun) (x3 : UWord) (h_x0 : Keeps s0 x0) : Keeps s0 (effLdp x0 x1 x2 x3).1 := by
  rw [effLdp.eq_def]; try dsimp only
  repeat' first
    | with_reducible assumption
    | intro _
    | with_reducible apply engineRead_keeps
    | dsimp only

theorem effLdk_keeps {s0 : State} (x0 : State) (x1 : Nat) (x2 : UpdRun) (x3 : UWord) (h_x0 : Keeps s0 x0) : Keeps s0 (effLdk x0 x1 x2 x3).1 := by
  rw [effLdk.eq_def]; try dsimp only
  repeat' first
    | with_reducible assumption
    | intro _
    | with_reducible apply fields_keep
    | split
    | simp only [keeps_mk]
    | dsimp only

theorem effLdcol_keeps {s0 : State} (x0 : State) (x1 : Nat) (x2 : UpdRun) (x3 : UWord) (h_x0 : Keeps s0 x0) : Keeps s0 (effLdcol x0 x1 x2 x3).1 := by
  rw [effLdcol.eq_def]; try dsimp only
  repeat' first
    | with_reducible assumption
    | intro _
    | dsimp only

theorem effArith_keeps {s0 : State} (op : FOp) (x0 : State) (x1 : Nat) (x2 : UpdRun) (x3 : UWord) (h_x0 : Keeps s0 x0) : Keeps s0 (effArith op x0 x1 x2 x3).1 := by
  rw [effArith.eq_def]; try dsimp only
  repeat' first
    | with_reducible assumption
    | intro _
    | with_reducible apply loadInto_keeps
    | with_reducible apply getD_keeps
    | dsimp only

theorem effFsel_keeps {s0 : State} (x0 : State) (x1 : Nat) (x2 : UpdRun) (x3 : UWord) (h_x0 : Keeps s0 x0) : Keeps s0 (effFsel x0 x1 x2 x3).1 := by
  rw [effFsel.eq_def]; try dsimp only
  repeat' first
    | with_reducible assumption
    | intro _
    | with_reducible apply ite_keeps
    | with_reducible apply getD_keeps
    | split
    | dsimp only

theorem effRsum_keeps {s0 : State} (x0 : State) (x1 : Nat) (x2 : UpdRun) (x3 : UWord) (h_x0 : Keeps s0 x0) : Keeps s0 (effRsum x0 x1 x2 x3).1 := by
  rw [effRsum.eq_def]; try dsimp only
  repeat' first
    | with_reducible assumption
    | intro _
    | with_reducible apply unitEvents_keeps
    | dsimp only

theorem effRamax_keeps {s0 : State} (x0 : State) (x1 : Nat) (x2 : UpdRun) (x3 : UWord) (h_x0 : Keeps s0 x0) : Keeps s0 (effRamax x0 x1 x2 x3).1 := by
  rw [effRamax.eq_def]; try dsimp only
  repeat' first
    | with_reducible assumption
    | intro _
    | dsimp only

theorem effCacc_keeps {s0 : State} (x0 : State) (x1 : Nat) (x2 : UpdRun) (x3 : UWord) (h_x0 : Keeps s0 x0) : Keeps s0 (effCacc x0 x1 x2 x3).1 := by
  rw [effCacc.eq_def]; try dsimp only
  repeat' first
    | with_reducible assumption
    | intro _
    | with_reducible apply some_keeps
    | with_reducible apply none_keeps
    | with_reducible apply fields_keep
    | with_reducible apply unitEvents_keeps
    | with_reducible apply getD_keeps
    | with_reducible refine use_some ?_ (by with_reducible assumption)
    | split
    | simp only [keeps_mk]
    | dsimp only

theorem effSts_keeps {s0 : State} (x0 : State) (x1 : Nat) (x2 : UpdRun) (x3 : UWord) (h_x0 : Keeps s0 x0) : Keeps s0 (effSts x0 x1 x2 x3).1 := by
  rw [effSts.eq_def]; try dsimp only
  repeat' first
    | with_reducible assumption
    | intro _
    | with_reducible apply ite_keeps
    | with_reducible apply ite_opt
    | with_reducible apply none_keeps
    | with_reducible apply unitEvents_keeps
    | with_reducible apply unitWrite_keeps
    | with_reducible apply getD_keeps
    | split
    | dsimp only

theorem noteUpdate_keeps {s0 : State} (s : State) (layer : Nat) (vs : List F32) (h_s : Keeps s0 s) : Keeps s0 (State.noteUpdate s layer vs) := by
  rw [State.noteUpdate.eq_def]; try dsimp only
  repeat' first
    | with_reducible assumption
    | intro _
    | with_reducible apply ite_keeps
    | with_reducible apply fields_keep
    | with_reducible apply setCourse_keeps
    | split
    | simp only [keeps_mk]
    | dsimp only

theorem effStw_keeps {s0 : State} (x0 : State) (x1 : Nat) (x2 : UpdRun) (x3 : UWord) (h_x0 : Keeps s0 x0) : Keeps s0 (effStw x0 x1 x2 x3).1 := by
  rw [effStw.eq_def]; try dsimp only
  repeat' first
    | with_reducible assumption
    | intro _
    | with_reducible apply ite_keeps
    | with_reducible apply ite_opt
    | with_reducible apply none_keeps
    | with_reducible apply engineRead_keeps
    | with_reducible apply masters_keeps
    | with_reducible apply noteUpdate_keeps
    | with_reducible apply unitEvents_keeps
    | with_reducible apply unitWrite_keeps
    | with_reducible apply foldl_to_keeps BusRead.st
    | with_reducible apply foldl_keeps
    | with_reducible apply foldl_snd_keeps
    | with_reducible apply foldl_fst_keeps
    | with_reducible apply getD_keeps
    | split
    | dsimp only

theorem syncFolding_keeps {s0 : State} (s : State) (u : Nat) (h_s : Keeps s0 s) : Keeps s0 (State.syncFolding s u) := by
  rw [State.syncFolding.eq_def]; try dsimp only
  repeat' first
    | with_reducible assumption
    | intro _
    | with_reducible apply ite_keeps
    | with_reducible apply set_keeps
    | split
    | dsimp only

theorem headroom_keeps {s0 : State} (s : State) (u table row count : Nat) (h_s : Keeps s0 s) : Keeps s0 (State.headroom s u table row count).2 := by
  rw [State.headroom.eq_def]; try dsimp only
  repeat' first
    | with_reducible assumption
    | intro _
    | with_reducible apply ite_keeps
    | with_reducible apply bump_keeps
    | with_reducible apply layerFlag_keeps
    | with_reducible apply ledBump_keeps
    | with_reducible apply raise_keeps
    | with_reducible apply set_keeps
    | split
    | dsimp only

theorem closeRun_keeps {s0 : State} (s : State) (u : Nat) (r : UpdRun) (h_s : Keeps s0 s) : Keeps s0 (State.closeRun s u r) := by
  rw [State.closeRun.eq_def]; try dsimp only
  repeat' first
    | with_reducible assumption
    | intro _
    | with_reducible apply ite_keeps
    | with_reducible apply ite_opt
    | with_reducible apply some_keeps
    | with_reducible apply none_keeps
    | with_reducible apply fields_keep
    | with_reducible apply bump_keeps
    | with_reducible apply freeKey_keeps
    | with_reducible apply ledBump_keeps
    | with_reducible apply setCourse_keeps
    | with_reducible apply setRun_keeps
    | with_reducible apply syncFolding_keeps
    | with_reducible apply unitEvents_keeps
    | with_reducible apply done_keeps
    | with_reducible apply miss_keeps
    | with_reducible apply stopped_keeps
    | with_reducible apply waits_keeps
    | with_reducible refine use_done ?_ (by with_reducible assumption)
    | with_reducible refine use_miss ?_ (by with_reducible assumption)
    | with_reducible refine use_stopped ?_ (by with_reducible assumption)
    | with_reducible refine use_waits ?_ (by with_reducible assumption)
    | with_reducible refine use_some ?_ (by with_reducible assumption)
    | split
    | simp only [keeps_mk]
    | dsimp only

theorem unitAct_keeps {s0 : State} (s : State) (r : UpdRun) (w : UWord) (h_s : Keeps s0 s) : Keeps s0 (State.unitAct s r w) := by
  rw [State.unitAct.eq_def]; try dsimp only
  repeat' first
    | with_reducible assumption
    | intro _
    | with_reducible apply some_keeps
    | with_reducible apply none_keeps
    | with_reducible apply fields_keep
    | with_reducible apply act_keeps
    | with_reducible apply actMem_keeps
    | with_reducible apply foldl_to_keeps BusRead.st
    | with_reducible apply foldl_keeps
    | with_reducible apply foldl_snd_keeps
    | with_reducible apply foldl_fst_keeps
    | with_reducible refine use_some ?_ (by with_reducible assumption)
    | split
    | simp only [keeps_mk]
    | dsimp only

theorem unitInstr_keeps {s0 : State} (s : State) (u op : Nat) (f : State → Nat → UpdRun → UWord → State × UpdRun) (h_s : Keeps s0 s) (h_f : ∀ (y0 : State) (y1 : Nat) (y2 : UpdRun) (y3 : UWord), Keeps s0 y0 → Keeps s0 (f y0 y1 y2 y3).1) : Keeps s0 (State.unitInstr s u op f) := by
  rw [State.unitInstr.eq_def]; try dsimp only
  repeat' first
    | with_reducible assumption
    | intro _
    | with_reducible apply ite_keeps
    | with_reducible apply ite_opt
    | with_reducible apply some_keeps
    | with_reducible apply none_keeps
    | with_reducible apply fields_keep
    | with_reducible apply setRun_keeps
    | with_reducible apply unitAct_keeps
    | with_reducible apply h_f
    | with_reducible refine use_some ?_ (by with_reducible assumption)
    | split
    | simp only [keeps_mk]
    | dsimp only

/-- The effect of every opcode of Table 9.5 keeps them. -/
theorem effOf_keeps {s0 : State} {op : Nat} {f : UEffect} (e : effOf op = some f) (s : State) (u : Nat) (r : UpdRun)
    (w : UWord) (h : Keeps s0 s) : Keeps s0 (f s u r w).1 := by
  unfold effOf at e
  split at e <;> cases e
  · exact effLdg_keeps _ _ _ _ h
  · exact effLdw_keeps _ _ _ _ h
  · exact effLds_keeps _ _ _ _ h
  · exact effLdp_keeps _ _ _ _ h
  · exact effLdk_keeps _ _ _ _ h
  · exact effLdcol_keeps _ _ _ _ h
  all_goals first
    | exact effArith_keeps _ _ _ _ _ h
    | exact effFsel_keeps _ _ _ _ h
    | exact effRsum_keeps _ _ _ _ h
    | exact effRamax_keeps _ _ _ _ h
    | exact effCacc_keeps _ _ _ _ h
    | exact effSts_keeps _ _ _ _ h
    | exact effStw_keeps _ _ _ _ h

theorem runRow_keeps {s0 : State} (n : Nat) (s : State) (u : Nat) (h : Keeps s0 s) : Keeps s0 (runRow n s u) := by
  induction n generalizing s u with
  | zero => exact h
  | succ n ih =>
    rw [runRow.eq_def]; dsimp only
    split
    · exact h
    · split
      · exact closeRun_keeps _ _ _ h
      · rename_i f e
        exact ih _ _ (unitInstr_keeps _ _ _ _ h (fun _ _ _ _ k => effOf_keeps e _ _ _ _ k))

theorem runRows_keeps {s0 : State} (x0 : Nat) (x1 : State) (x2 : Nat) (h_x1 : Keeps s0 x1) : Keeps s0 (runRows x0 x1 x2) := by
  induction x0 generalizing x1 x2 with
  | zero =>
    rw [runRows.eq_def]; try dsimp only
    repeat' first
      | with_reducible assumption
      | intro _
      | with_reducible apply ite_keeps
      | with_reducible apply runRow_keeps
      | with_reducible apply ih
      | split
      | dsimp only
  | succ n ih =>
    rw [runRows.eq_def]; try dsimp only
    repeat' first
      | with_reducible assumption
      | intro _
      | with_reducible apply ite_keeps
      | with_reducible apply runRow_keeps
      | with_reducible apply ih
      | split
      | dsimp only

theorem refuseAdd_keeps {s0 : State} (s : State) (u table row : Nat) (h_s : Keeps s0 s) : Keeps s0 (State.refuseAdd s u table row) := by
  rw [State.refuseAdd.eq_def]; try dsimp only
  repeat' first
    | with_reducible assumption
    | with_reducible apply raise_keeps
    | with_reducible apply set_keeps
    | dsimp only

theorem addAct_keeps {s0 : State} (s : State) (u n : Nat) (q : Option Nat) (h_s : Keeps s0 s) : Keeps s0 (State.addAct s u n q) := by
  rw [State.addAct.eq_def]; try dsimp only
  repeat' first
    | with_reducible assumption
    | intro _
    | with_reducible apply some_keeps
    | with_reducible apply none_keeps
    | with_reducible apply fields_keep
    | with_reducible apply act_keeps
    | with_reducible apply actMem_keeps
    | with_reducible refine use_some ?_ (by with_reducible assumption)
    | split
    | simp only [keeps_mk]
    | dsimp only

theorem applyAdd_keeps {s0 : State} (s : State) (u table row : Nat) (accs : List Nat) (count : Nat) (q : Option Nat) (h_s : Keeps s0 s) : Keeps s0 (State.applyAdd s u table row accs count q).2 := by
  rw [State.applyAdd.eq_def]; try dsimp only
  repeat' first
    | with_reducible assumption
    | intro _
    | with_reducible apply ite_keeps
    | with_reducible apply ite_opt
    | with_reducible apply some_keeps
    | with_reducible apply none_keeps
    | with_reducible apply fields_keep
    | with_reducible apply abortCourse_keeps
    | with_reducible apply addAct_keeps
    | with_reducible apply bump_keeps
    | with_reducible apply headroom_keeps
    | with_reducible apply ledBump_keeps
    | with_reducible apply placeAdd_keeps
    | with_reducible apply refuseAdd_keeps
    | with_reducible apply runRow_keeps
    | with_reducible apply set_keeps
    | with_reducible apply setRun_keeps
    | with_reducible apply shardLoad_keeps
    | with_reducible refine use_some ?_ (by with_reducible assumption)
    | split
    | simp only [keeps_mk]
    | dsimp only

/-! ## Machine/Scales.lean -/

theorem noteAmax_keeps {s0 : State} (s : State) (tid : Nat) (vs : List F32) (h_s : Keeps s0 s) : Keeps s0 (State.noteAmax s tid vs) := by
  rw [State.noteAmax.eq_def]; try dsimp only
  repeat' first
    | with_reducible assumption
    | intro _
    | with_reducible apply ite_keeps
    | with_reducible apply fields_keep
    | with_reducible apply setCourse_keeps
    | split
    | simp only [keeps_mk]
    | dsimp only

theorem convertTensor_keeps {s0 : State} (s : State) (queue : Nat) (t : TensorEntry) (q : QuantDesc) (src dst : Nat) (h_s : Keeps s0 s) : Keeps s0 (State.convertTensor s queue t q src dst) := by
  rw [State.convertTensor.eq_def]; try dsimp only
  repeat' first
    | with_reducible assumption
    | intro _
    | with_reducible apply ite_keeps
    | with_reducible apply ite_opt
    | with_reducible apply some_keeps
    | with_reducible apply none_keeps
    | with_reducible apply fields_keep
    | with_reducible apply countEvents_keeps
    | with_reducible apply engineRead_keeps
    | with_reducible apply engineWrite_keeps
    | with_reducible apply noteAmax_keeps
    | with_reducible apply weight_keeps
    | with_reducible apply getD_keeps
    | with_reducible refine use_some ?_ (by with_reducible assumption)
    | split
    | simp only [keeps_mk]
    | dsimp only

theorem delayedScales_keeps {s0 : State} (s : State) (p : CourseProgram) (h_s : Keeps s0 s) : Keeps s0 (State.delayedScales s p) := by
  rw [State.delayedScales.eq_def]; try dsimp only
  repeat' first
    | with_reducible assumption
    | intro _
    | with_reducible apply ite_keeps
    | with_reducible apply ite_opt
    | with_reducible apply some_keeps
    | with_reducible apply none_keeps
    | with_reducible apply fields_keep
    | with_reducible apply countEvents_keeps
    | with_reducible apply engineRead_keeps
    | with_reducible apply layerFlag_keeps
    | with_reducible apply setCourse_keeps
    | with_reducible apply foldl_to_keeps BusRead.st
    | with_reducible apply foldl_keeps
    | with_reducible apply foldl_snd_keeps
    | with_reducible apply foldl_fst_keeps
    | with_reducible apply getD_keeps
    | with_reducible refine use_some ?_ (by with_reducible assumption)
    | split
    | simp only [keeps_mk]
    | dsimp only

theorem appendHistory_keeps {s0 : State} (s : State) (h_s : Keeps s0 s) : Keeps s0 (State.appendHistory s) := by
  rw [State.appendHistory.eq_def]; try dsimp only
  repeat' first
    | with_reducible assumption
    | intro _
    | with_reducible apply ite_keeps
    | with_reducible apply ite_opt
    | with_reducible apply some_keeps
    | with_reducible apply none_keeps
    | with_reducible apply fields_keep
    | with_reducible apply engineRead_keeps
    | with_reducible apply engineWrite_keeps
    | with_reducible apply foldl_to_keeps BusRead.st
    | with_reducible apply foldl_keeps
    | with_reducible apply foldl_snd_keeps
    | with_reducible apply foldl_fst_keeps
    | with_reducible apply getD_keeps
    | with_reducible refine use_some ?_ (by with_reducible assumption)
    | split
    | simp only [keeps_mk]
    | dsimp only

theorem layerRates_keeps {s0 : State} (s : State) (p : CourseProgram) (h_s : Keeps s0 s) : Keeps s0 (State.layerRates s p) := by
  rw [State.layerRates.eq_def]; try dsimp only
  repeat' first
    | with_reducible assumption
    | intro _
    | with_reducible apply fields_keep
    | with_reducible apply engineRead_keeps
    | with_reducible apply setCourse_keeps
    | with_reducible apply foldl_to_keeps BusRead.st
    | with_reducible apply foldl_keeps
    | with_reducible apply foldl_snd_keeps
    | with_reducible apply foldl_fst_keeps
    | simp only [keeps_mk]
    | dsimp only

theorem writeRanges_keeps {s0 : State} (s : State) (h_s : Keeps s0 s) : Keeps s0 (State.writeRanges s) := by
  rw [State.writeRanges.eq_def]; try dsimp only
  repeat' first
    | with_reducible assumption
    | intro _
    | with_reducible apply some_keeps
    | with_reducible apply none_keeps
    | with_reducible apply fields_keep
    | with_reducible apply engineWrite_keeps
    | with_reducible apply setCourse_keeps
    | with_reducible apply foldl_to_keeps BusRead.st
    | with_reducible apply foldl_keeps
    | with_reducible apply foldl_snd_keeps
    | with_reducible apply foldl_fst_keeps
    | with_reducible refine use_some ?_ (by with_reducible assumption)
    | split
    | simp only [keeps_mk]
    | dsimp only

/-! ## Machine/Tables.lean -/

theorem zeroFill_keeps {s0 : State} (s : State) (a n : Nat) (h_s : Keeps s0 s) : Keeps s0 (State.zeroFill s a n) := by
  rw [State.zeroFill.eq_def]; try dsimp only
  repeat' first
    | with_reducible assumption
    | intro _
    | with_reducible apply writeLine_keeps
    | with_reducible apply foldl_to_keeps BusRead.st
    | with_reducible apply foldl_keeps
    | with_reducible apply foldl_snd_keeps
    | with_reducible apply foldl_fst_keeps
    | dsimp only

theorem execTableDirectory_keeps {s0 : State} (q : Fin 16384) (seq : Nat) (s : State) (h_s : Keeps s0 s) : OutKeeps s0 (execTableDirectory q seq s) := by
  rw [execTableDirectory.eq_def]; try dsimp only
  repeat' first
    | with_reducible assumption
    | intro _
    | with_reducible apply ite_keeps
    | with_reducible apply ite_out
    | with_reducible apply ite_opt
    | with_reducible apply next_keeps
    | with_reducible apply some_keeps
    | with_reducible apply fields_keep
    | with_reducible apply fail_keeps
    | with_reducible apply needA_keeps
    | with_reducible apply needMem_keeps
    | with_reducible apply runCmd_keeps
    | with_reducible apply succeed_keeps
    | with_reducible apply writeMem_keeps
    | with_reducible apply zeroFill_keeps
    | with_reducible apply foldl_to_keeps BusRead.st
    | with_reducible apply foldl_keeps
    | with_reducible apply foldl_snd_keeps
    | with_reducible apply foldl_fst_keeps
    | with_reducible refine use_some ?_ (by with_reducible assumption)
    | split
    | simp only [keeps_mk]
    | dsimp only

theorem execTableDefine_keeps {s0 : State} (q : Fin 16384) (seq : Nat) (s : State) (h_s : Keeps s0 s) : OutKeeps s0 (execTableDefine q seq s) := by
  rw [execTableDefine.eq_def]; try dsimp only
  repeat' first
    | with_reducible assumption
    | intro _
    | with_reducible apply ite_keeps
    | with_reducible apply ite_out
    | with_reducible apply ite_opt
    | with_reducible apply next_keeps
    | with_reducible apply some_keeps
    | with_reducible apply none_keeps
    | with_reducible apply fields_keep
    | with_reducible apply fail_keeps
    | with_reducible apply needA_keeps
    | with_reducible apply needMem_keeps
    | with_reducible apply readMem_keeps
    | with_reducible apply runCmd_keeps
    | with_reducible apply succeed_keeps
    | with_reducible apply writeMem_keeps
    | with_reducible refine use_some ?_ (by with_reducible assumption)
    | split
    | simp only [keeps_mk]
    | dsimp only

theorem execTableDelete_keeps {s0 : State} (q : Fin 16384) (seq : Nat) (s : State) (h_s : Keeps s0 s) : OutKeeps s0 (execTableDelete q seq s) := by
  rw [execTableDelete.eq_def]; try dsimp only
  repeat' first
    | with_reducible assumption
    | intro _
    | with_reducible apply ite_keeps
    | with_reducible apply ite_out
    | with_reducible apply ite_opt
    | with_reducible apply next_keeps
    | with_reducible apply some_keeps
    | with_reducible apply none_keeps
    | with_reducible apply fields_keep
    | with_reducible apply fail_keeps
    | with_reducible apply runCmd_keeps
    | with_reducible apply succeed_keeps
    | with_reducible apply writeMem_keeps
    | with_reducible refine use_some ?_ (by with_reducible assumption)
    | split
    | simp only [keeps_mk]
    | dsimp only

theorem setShardState_keeps {s0 : State} (s : State) (table shard st : Nat) (h_s : Keeps s0 s) : Keeps s0 (State.setShardState s table shard st) := by
  rw [State.setShardState.eq_def]; try dsimp only
  repeat' first
    | with_reducible assumption
    | with_reducible apply writeMem_keeps
    | dsimp only

theorem moveStart_keeps {s0 : State} (s : State) (table shard dest : Nat) (cmd : Option (Nat × Nat)) (item : Option Nat) (plan : Nat) (h_s : Keeps s0 s) : Keeps s0 (State.moveStart s table shard dest cmd item plan) := by
  rw [State.moveStart.eq_def]; try dsimp only
  repeat' first
    | with_reducible assumption
    | intro _
    | with_reducible apply ite_keeps
    | with_reducible apply ite_opt
    | with_reducible apply some_keeps
    | with_reducible apply none_keeps
    | with_reducible apply fields_keep
    | with_reducible apply setShardState_keeps
    | with_reducible apply writeMem_keeps
    | with_reducible refine use_some ?_ (by with_reducible assumption)
    | split
    | simp only [keeps_mk]
    | dsimp only

theorem execShardMove_keeps {s0 : State} (q : Fin 16384) (seq : Nat) (s : State) (h_s : Keeps s0 s) : OutKeeps s0 (execShardMove q seq s) := by
  rw [execShardMove.eq_def]; try dsimp only
  repeat' first
    | with_reducible assumption
    | intro _
    | with_reducible apply ite_keeps
    | with_reducible apply ite_out
    | with_reducible apply ite_opt
    | with_reducible apply next_keeps
    | with_reducible apply some_keeps
    | with_reducible apply none_keeps
    | with_reducible apply fields_keep
    | with_reducible apply cmdWaits_keeps
    | with_reducible apply fail_keeps
    | with_reducible apply moveStart_keeps
    | with_reducible apply raise_keeps
    | with_reducible apply runCmd_keeps
    | with_reducible refine use_some ?_ (by with_reducible assumption)
    | split
    | simp only [keeps_mk]
    | dsimp only

theorem itemIssued_keeps {s0 : State} (s : State) (i : Nat) (h_s : Keeps s0 s) : Keeps s0 (State.itemIssued s i) := by
  rw [State.itemIssued.eq_def]; try dsimp only
  repeat' first
    | with_reducible assumption
    | intro _
    | with_reducible apply ite_keeps
    | with_reducible apply fields_keep
    | with_reducible apply setCourse_keeps
    | split
    | simp only [keeps_mk]
    | dsimp only

theorem itemEnds_keeps {s0 : State} (s : State) (i : Nat) (h_s : Keeps s0 s) : Keeps s0 (State.itemEnds s i) := by
  rw [State.itemEnds.eq_def]; try dsimp only
  repeat' first
    | with_reducible assumption
    | intro _
    | with_reducible apply ite_keeps
    | with_reducible apply fields_keep
    | with_reducible apply setCourse_keeps
    | with_reducible apply done_keeps
    | with_reducible apply miss_keeps
    | with_reducible apply stopped_keeps
    | with_reducible apply waits_keeps
    | with_reducible refine use_done ?_ (by with_reducible assumption)
    | with_reducible refine use_miss ?_ (by with_reducible assumption)
    | with_reducible refine use_stopped ?_ (by with_reducible assumption)
    | with_reducible refine use_waits ?_ (by with_reducible assumption)
    | split
    | simp only [keeps_mk]
    | dsimp only

theorem execMoveItem_keeps {s0 : State} (i : Nat) (s : State) (h_s : Keeps s0 s) : OutKeeps s0 (execMoveItem i s) := by
  rw [execMoveItem.eq_def]; try dsimp only
  repeat' first
    | with_reducible assumption
    | intro _
    | with_reducible apply ite_keeps
    | with_reducible apply ite_out
    | with_reducible apply ite_opt
    | with_reducible apply next_keeps
    | with_reducible apply some_keeps
    | with_reducible apply none_keeps
    | with_reducible apply fields_keep
    | with_reducible apply itemEnds_keeps
    | with_reducible apply itemIssued_keeps
    | with_reducible apply moveStart_keeps
    | with_reducible refine use_some ?_ (by with_reducible assumption)
    | split
    | simp only [keeps_mk]
    | dsimp only

theorem updMove_keeps {s0 : State} (s : State) (table shard : Nat) (f : MoveRun → MoveRun) (h_s : Keeps s0 s) : Keeps s0 (State.updMove s table shard f) := by
  rw [State.updMove.eq_def]; try dsimp only
  repeat' first
    | with_reducible assumption
    | intro _
    | with_reducible apply ite_keeps
    | with_reducible apply fields_keep
    | split
    | simp only [keeps_mk]
    | dsimp only

theorem copyLine_keeps {s0 : State} (s : State) (src dst : Nat) (h_s : Keeps s0 s) : Keeps s0 (State.copyLine s src dst) := by
  rw [State.copyLine.eq_def]; try dsimp only
  repeat' first
    | with_reducible assumption
    | with_reducible apply readLine_keeps
    | with_reducible apply writeIn_keeps
    | dsimp only

theorem copyRange_keeps {s0 : State} (s : State) (r : Nat × Nat × Nat) (h_s : Keeps s0 s) : Keeps s0 (State.copyRange s r) := by
  rw [State.copyRange.eq_def]; try dsimp only
  repeat' first
    | with_reducible assumption
    | intro _
    | with_reducible apply copyLine_keeps
    | with_reducible apply foldl_to_keeps BusRead.st
    | with_reducible apply foldl_keeps
    | with_reducible apply foldl_snd_keeps
    | with_reducible apply foldl_fst_keeps
    | dsimp only

theorem sendLines_keeps {s0 : State} (s : State) (m : MoveRun) (lines : List Nat) (h_s : Keeps s0 s) : Keeps s0 (State.sendLines s m lines) := by
  rw [State.sendLines.eq_def]; try dsimp only
  repeat' first
    | with_reducible assumption
    | intro _
    | with_reducible apply some_keeps
    | with_reducible apply none_keeps
    | with_reducible apply fields_keep
    | with_reducible apply fabStore_keeps
    | with_reducible apply readLine_keeps
    | with_reducible apply foldl_to_keeps BusRead.st
    | with_reducible apply foldl_keeps
    | with_reducible apply foldl_snd_keeps
    | with_reducible apply foldl_fst_keeps
    | with_reducible refine use_some ?_ (by with_reducible assumption)
    | split
    | simp only [keeps_mk]
    | dsimp only

theorem execMoveCopyEnd_keeps {s0 : State} (table shard : Nat) (s : State) (h_s : Keeps s0 s) : OutKeeps s0 (execMoveCopyEnd table shard s) := by
  rw [execMoveCopyEnd.eq_def]; try dsimp only
  repeat' first
    | with_reducible assumption
    | intro _
    | with_reducible apply ite_keeps
    | with_reducible apply ite_out
    | with_reducible apply ite_opt
    | with_reducible apply next_keeps
    | with_reducible apply some_keeps
    | with_reducible apply none_keeps
    | with_reducible apply fields_keep
    | with_reducible apply copyRange_keeps
    | with_reducible apply sendLines_keeps
    | with_reducible apply updMove_keeps
    | with_reducible apply foldl_to_keeps BusRead.st
    | with_reducible apply foldl_keeps
    | with_reducible apply foldl_snd_keeps
    | with_reducible apply foldl_fst_keeps
    | with_reducible refine use_some ?_ (by with_reducible assumption)
    | split
    | simp only [keeps_mk]
    | dsimp only

theorem moveDeltas_keeps {s0 : State} (s : State) (m : MoveRun) (h_s : Keeps s0 s) : Keeps s0 (State.moveDeltas s m) := by
  rw [State.moveDeltas.eq_def]; try dsimp only
  repeat' first
    | with_reducible assumption
    | intro _
    | with_reducible apply ite_keeps
    | with_reducible apply ite_opt
    | with_reducible apply some_keeps
    | with_reducible apply none_keeps
    | with_reducible apply fields_keep
    | with_reducible apply abortCourse_keeps
    | with_reducible apply ask_keeps
    | with_reducible apply entrySums_keeps
    | with_reducible apply placeAdd_keeps
    | with_reducible apply set_keeps
    | with_reducible apply syncOcc_keeps
    | with_reducible apply writeMem_keeps
    | with_reducible apply foldl_to_keeps BusRead.st
    | with_reducible apply foldl_keeps
    | with_reducible apply foldl_snd_keeps
    | with_reducible apply foldl_fst_keeps
    | with_reducible refine use_some ?_ (by with_reducible assumption)
    | split
    | simp only [keeps_mk]
    | dsimp only

theorem battenItem_keeps {s0 : State} (s : State) (b : List Byte) (h_s : Keeps s0 s) : Keeps s0 (State.battenItem s b) := by
  rw [State.battenItem.eq_def]; try dsimp only
  repeat' first
    | with_reducible assumption
    | with_reducible apply fields_keep
    | simp only [keeps_mk]
    | dsimp only

theorem detail_keeps {s0 : State} (s : State) (ty : Nat) (b : List Byte) (h_s : Keeps s0 s) : Keeps s0 (State.detail s ty b) := by
  rw [State.detail.eq_def]; try dsimp only
  repeat' first
    | with_reducible assumption
    | intro _
    | with_reducible apply ite_keeps
    | with_reducible apply fields_keep
    | with_reducible apply setCourse_keeps
    | split
    | simp only [keeps_mk]
    | dsimp only

theorem noteSwitch_keeps {s0 : State} (s : State) (b : List Byte) (h_s : Keeps s0 s) : Keeps s0 (State.noteSwitch s b) := by
  rw [State.noteSwitch.eq_def]; try dsimp only
  repeat' first
    | with_reducible assumption
    | intro _
    | with_reducible apply ite_keeps
    | with_reducible apply fields_keep
    | with_reducible apply detail_keeps
    | with_reducible apply ledBump_keeps
    | split
    | simp only [keeps_mk]
    | dsimp only

theorem moveSwitch_keeps {s0 : State} (s : State) (m : MoveRun) (h_s : Keeps s0 s) : Keeps s0 (State.moveSwitch s m) := by
  rw [State.moveSwitch.eq_def]; try dsimp only
  repeat' first
    | with_reducible assumption
    | intro _
    | with_reducible apply ite_keeps
    | with_reducible apply ite_opt
    | with_reducible apply some_keeps
    | with_reducible apply none_keeps
    | with_reducible apply fields_keep
    | with_reducible apply battenItem_keeps
    | with_reducible apply eavesDrop_keeps
    | with_reducible apply moveDeltas_keeps
    | with_reducible apply noteSwitch_keeps
    | with_reducible apply sendLines_keeps
    | with_reducible apply setShardState_keeps
    | with_reducible apply updMove_keeps
    | with_reducible apply writeMem_keeps
    | with_reducible refine use_some ?_ (by with_reducible assumption)
    | split
    | simp only [keeps_mk]
    | dsimp only

theorem execMoveForwardClose_keeps {s0 : State} (table shard : Nat) (s : State) (h_s : Keeps s0 s) : OutKeeps s0 (execMoveForwardClose table shard s) := by
  rw [execMoveForwardClose.eq_def]; try dsimp only
  repeat' first
    | with_reducible assumption
    | intro _
    | with_reducible apply ite_keeps
    | with_reducible apply ite_out
    | with_reducible apply ite_opt
    | with_reducible apply next_keeps
    | with_reducible apply some_keeps
    | with_reducible apply none_keeps
    | with_reducible apply fields_keep
    | with_reducible apply itemEnds_keeps
    | with_reducible apply setShardState_keeps
    | with_reducible apply succeed_keeps
    | with_reducible apply withWaiting_keeps
    | with_reducible apply writeMem_keeps
    | with_reducible refine use_some ?_ (by with_reducible assumption)
    | split
    | simp only [keeps_mk]
    | dsimp only

theorem flipTable_keeps {s0 : State} (s : State) (table : Nat) (h_s : Keeps s0 s) : Keeps s0 (State.flipTable s table) := by
  rw [State.flipTable.eq_def]; try dsimp only
  repeat' first
    | with_reducible assumption
    | intro _
    | with_reducible apply some_keeps
    | with_reducible apply fields_keep
    | with_reducible apply eavesDrop_keeps
    | with_reducible apply writeMem_keeps
    | with_reducible apply foldl_to_keeps BusRead.st
    | with_reducible apply foldl_keeps
    | with_reducible apply foldl_snd_keeps
    | with_reducible apply foldl_fst_keeps
    | with_reducible refine use_some ?_ (by with_reducible assumption)
    | split
    | simp only [keeps_mk]
    | dsimp only

theorem execTableFlip_keeps {s0 : State} (q : Fin 16384) (seq : Nat) (s : State) (h_s : Keeps s0 s) : OutKeeps s0 (execTableFlip q seq s) := by
  rw [execTableFlip.eq_def]; try dsimp only
  repeat' first
    | with_reducible assumption
    | intro _
    | with_reducible apply ite_keeps
    | with_reducible apply ite_out
    | with_reducible apply ite_opt
    | with_reducible apply next_keeps
    | with_reducible apply some_keeps
    | with_reducible apply none_keeps
    | with_reducible apply fields_keep
    | with_reducible apply cmdWaits_keeps
    | with_reducible apply fail_keeps
    | with_reducible apply runCmd_keeps
    | with_reducible refine use_some ?_ (by with_reducible assumption)
    | split
    | simp only [keeps_mk]
    | dsimp only

theorem execStreamBatch_keeps {s0 : State} (q : Fin 16384) (seq : Nat) (s : State) (h_s : Keeps s0 s) : OutKeeps s0 (execStreamBatch q seq s) := by
  rw [execStreamBatch.eq_def]; try dsimp only
  repeat' first
    | with_reducible assumption
    | intro _
    | with_reducible apply next_keeps
    | with_reducible apply some_keeps
    | with_reducible apply none_keeps
    | with_reducible apply fields_keep
    | with_reducible apply cmdWaits_keeps
    | with_reducible apply fail_keeps
    | with_reducible apply needA_keeps
    | with_reducible apply needMem_keeps
    | with_reducible apply runCmd_keeps
    | with_reducible refine use_some ?_ (by with_reducible assumption)
    | split
    | simp only [keeps_mk]
    | dsimp only

theorem batchEffect_keeps {s0 : State} (s : State) (b : Batch) (h_s : Keeps s0 s) : Keeps s0 (State.batchEffect s b) := by
  rw [State.batchEffect.eq_def]; try dsimp only
  repeat' first
    | with_reducible assumption
    | intro _
    | with_reducible apply ite_keeps
    | with_reducible apply ite_opt
    | with_reducible apply some_keeps
    | with_reducible apply none_keeps
    | with_reducible apply fields_keep
    | with_reducible apply battenItem_keeps
    | with_reducible apply cause_keeps
    | with_reducible apply ledBump_keeps
    | with_reducible apply writeMem_keeps
    | with_reducible apply foldl_to_keeps BusRead.st
    | with_reducible apply foldl_keeps
    | with_reducible apply foldl_snd_keeps
    | with_reducible apply foldl_fst_keeps
    | with_reducible refine use_some ?_ (by with_reducible assumption)
    | split
    | simp only [keeps_mk]
    | dsimp only

theorem updBatches_keeps {s0 : State} (s : State) (f : List Batch → List Batch) (h_s : Keeps s0 s) : Keeps s0 (State.updBatches s f) := by
  rw [State.updBatches.eq_def]; try dsimp only
  repeat' first
    | with_reducible assumption
    | with_reducible apply fields_keep
    | simp only [keeps_mk]
    | dsimp only

theorem startBatches_keeps {s0 : State} (s : State) (h_s : Keeps s0 s) : Keeps s0 (State.startBatches s) := by
  rw [State.startBatches.eq_def]; try dsimp only
  repeat' first
    | with_reducible assumption
    | intro _
    | with_reducible apply ite_keeps
    | with_reducible apply ite_opt
    | with_reducible apply some_keeps
    | with_reducible apply fields_keep
    | with_reducible apply batchEffect_keeps
    | with_reducible apply take_keeps
    | with_reducible apply updBatches_keeps
    | with_reducible apply foldl_to_keeps BusRead.st
    | with_reducible apply foldl_keeps
    | with_reducible apply foldl_snd_keeps
    | with_reducible apply foldl_fst_keeps
    | with_reducible refine use_some ?_ (by with_reducible assumption)
    | split
    | simp only [keeps_mk]
    | dsimp only

theorem writeStreamRow_keeps {s0 : State} (s : State) (b : Batch) (h_s : Keeps s0 s) : Keeps s0 (State.writeStreamRow s b) := by
  rw [State.writeStreamRow.eq_def]; try dsimp only
  repeat' first
    | with_reducible assumption
    | intro _
    | with_reducible apply ite_keeps
    | with_reducible apply ite_opt
    | with_reducible apply some_keeps
    | with_reducible apply none_keeps
    | with_reducible apply fields_keep
    | with_reducible apply eavesDrop_keeps
    | with_reducible apply engineRead_keeps
    | with_reducible apply ownWrite_keeps
    | with_reducible apply foldl_to_keeps BusRead.st
    | with_reducible apply foldl_keeps
    | with_reducible apply foldl_snd_keeps
    | with_reducible apply foldl_fst_keeps
    | with_reducible refine use_some ?_ (by with_reducible assumption)
    | split
    | simp only [keeps_mk]
    | dsimp only

theorem execStreamRowWrite_keeps {s0 : State} (s : State) (h_s : Keeps s0 s) : OutKeeps s0 (execStreamRowWrite s) := by
  rw [execStreamRowWrite.eq_def]; try dsimp only
  repeat' first
    | with_reducible assumption
    | intro _
    | with_reducible apply ite_keeps
    | with_reducible apply ite_out
    | with_reducible apply ite_opt
    | with_reducible apply next_keeps
    | with_reducible apply some_keeps
    | with_reducible apply none_keeps
    | with_reducible apply fields_keep
    | with_reducible apply succeed_keeps
    | with_reducible apply withWaiting_keeps
    | with_reducible apply writeStreamRow_keeps
    | with_reducible apply getD_keeps
    | with_reducible refine use_some ?_ (by with_reducible assumption)
    | split
    | simp only [keeps_mk]
    | dsimp only

theorem saveViews_keeps {s0 : State} (s : State) (h_s : Keeps s0 s) : Keeps s0 (State.saveViews s) := by
  rw [State.saveViews.eq_def]; try dsimp only
  repeat' first
    | with_reducible assumption
    | intro _
    | with_reducible apply ite_keeps
    | with_reducible apply ite_opt
    | with_reducible apply some_keeps
    | with_reducible apply none_keeps
    | with_reducible apply fields_keep
    | with_reducible apply foldl_to_keeps BusRead.st
    | with_reducible apply foldl_keeps
    | with_reducible apply foldl_snd_keeps
    | with_reducible apply foldl_fst_keeps
    | with_reducible refine use_some ?_ (by with_reducible assumption)
    | split
    | simp only [keeps_mk]
    | dsimp only

theorem startFlips_keeps {s0 : State} (s : State) (h_s : Keeps s0 s) : Keeps s0 (State.startFlips s) := by
  rw [State.startFlips.eq_def]; try dsimp only
  repeat' first
    | with_reducible assumption
    | intro _
    | with_reducible apply fields_keep
    | with_reducible apply flipTable_keeps
    | with_reducible apply succeed_keeps
    | with_reducible apply withWaiting_keeps
    | with_reducible apply foldl_to_keeps BusRead.st
    | with_reducible apply foldl_keeps
    | with_reducible apply foldl_snd_keeps
    | with_reducible apply foldl_fst_keeps
    | split
    | simp only [keeps_mk]
    | dsimp only

theorem startMoves_keeps {s0 : State} (s : State) (upTo : Nat) (h_s : Keeps s0 s) : Keeps s0 (State.startMoves s upTo) := by
  rw [State.startMoves.eq_def]; try dsimp only
  repeat' first
    | with_reducible assumption
    | intro _
    | with_reducible apply ite_keeps
    | with_reducible apply moveSwitch_keeps
    | with_reducible apply foldl_to_keeps BusRead.st
    | with_reducible apply foldl_keeps
    | with_reducible apply foldl_snd_keeps
    | with_reducible apply foldl_fst_keeps
    | split
    | dsimp only

theorem endMoves_keeps {s0 : State} (s : State) (h_s : Keeps s0 s) : Keeps s0 (State.endMoves s) := by
  rw [State.endMoves.eq_def]; try dsimp only
  repeat' first
    | with_reducible assumption
    | intro _
    | with_reducible apply fields_keep
    | simp only [keeps_mk]
    | dsimp only

theorem reportMoves_keeps {s0 : State} (s : State) (h_s : Keeps s0 s) : Keeps s0 (State.reportMoves s) := by
  rw [State.reportMoves.eq_def]; try dsimp only
  repeat' first
    | with_reducible assumption
    | intro _
    | with_reducible apply some_keeps
    | with_reducible apply none_keeps
    | with_reducible apply fields_keep
    | with_reducible apply send_keeps
    | with_reducible apply updMove_keeps
    | with_reducible apply foldl_to_keeps BusRead.st
    | with_reducible apply foldl_keeps
    | with_reducible apply foldl_snd_keeps
    | with_reducible apply foldl_fst_keeps
    | with_reducible refine use_some ?_ (by with_reducible assumption)
    | split
    | simp only [keeps_mk]
    | dsimp only

theorem dropMoves_keeps {s0 : State} (s : State) (h_s : Keeps s0 s) : Keeps s0 (State.dropMoves s) := by
  rw [State.dropMoves.eq_def]; try dsimp only
  repeat' first
    | with_reducible assumption
    | intro _
    | with_reducible apply ite_keeps
    | with_reducible apply fields_keep
    | with_reducible apply setShardState_keeps
    | with_reducible apply writeMem_keeps
    | with_reducible apply foldl_to_keeps BusRead.st
    | with_reducible apply foldl_keeps
    | with_reducible apply foldl_snd_keeps
    | with_reducible apply foldl_fst_keeps
    | split
    | simp only [keeps_mk]
    | dsimp only

theorem execEavesDefine_keeps {s0 : State} (q : Fin 16384) (seq : Nat) (s : State) (h_s : Keeps s0 s) : OutKeeps s0 (execEavesDefine q seq s) := by
  rw [execEavesDefine.eq_def]; try dsimp only
  repeat' first
    | with_reducible assumption
    | intro _
    | with_reducible apply ite_keeps
    | with_reducible apply ite_out
    | with_reducible apply next_keeps
    | with_reducible apply fields_keep
    | with_reducible apply fail_keeps
    | with_reducible apply needA_keeps
    | with_reducible apply needMem_keeps
    | with_reducible apply readMem_keeps
    | with_reducible apply runCmd_keeps
    | with_reducible apply set_keeps
    | with_reducible apply succeed_keeps
    | with_reducible apply foldl_to_keeps BusRead.st
    | with_reducible apply foldl_keeps
    | with_reducible apply foldl_snd_keeps
    | with_reducible apply foldl_fst_keeps
    | split
    | simp only [keeps_mk]
    | dsimp only

end Sys2Proof.Laws
end

