-- ==== Sys2Proof/Laws/KeepsReplay.lean ====
section
/-! SUPPORT. Every operation of digests, the ledger, RoCE and work sets keeps the canonical forms and the queue of
commands. -/
set_option linter.all false
namespace Sys2Proof.Laws
open Sys2Proof.Machine

/-! ## Machine/ReplayOps.lean -/

theorem scanLines_keeps {s0 : State} (s : State) (who : Req) (a n : Nat) (h_s : Keeps s0 s) : Keeps s0 (State.scanLines s who a n).2 := by
  rw [State.scanLines.eq_def]; try dsimp only
  repeat' first
    | with_reducible assumption
    | intro _
    | with_reducible apply fields_upset
    | with_reducible apply readLine_keeps
    | with_reducible apply foldl_to_keeps BusRead.st
    | with_reducible apply foldl_keeps
    | with_reducible apply foldl_snd_keeps
    | with_reducible apply foldl_fst_keeps
    | split
    | dsimp only

theorem updReplay_keeps {s0 : State} (s : State) (f : Replay → Replay) (h_s : Keeps s0 s) : Keeps s0 (State.updReplay s f) := by
  rw [State.updReplay.eq_def]; try dsimp only
  repeat' first
    | with_reducible assumption
    | with_reducible apply fields_keep
    | simp only [keeps_mk]
    | dsimp only

theorem exported_keeps {s0 : State} (s : State) (n : Nat) (h_s : Keeps s0 s) : Keeps s0 (State.exported s n) := by
  rw [State.exported.eq_def]; try dsimp only
  repeat' first
    | with_reducible assumption
    | intro _
    | with_reducible apply fields_keep
    | with_reducible apply bumpWrap_keeps
    | with_reducible apply updReplay_keeps
    | simp only [keeps_mk]
    | dsimp only

theorem sendDigest_keeps {s0 : State} (s : State) (level base count : Nat) (entries : List Byte) (h_s : Keeps s0 s) : Keeps s0 (State.sendDigest s level base count entries) := by
  rw [State.sendDigest.eq_def]; try dsimp only
  repeat' first
    | with_reducible assumption
    | intro _
    | with_reducible apply ask_keeps
    | with_reducible apply control_keeps
    | with_reducible apply foldl_to_keeps BusRead.st
    | with_reducible apply foldl_keeps
    | with_reducible apply foldl_snd_keeps
    | with_reducible apply foldl_fst_keeps
    | dsimp only

theorem sendLevel0_keeps {s0 : State} (x0 : Nat) (x1 : State) (x2 : List (Nat × Word)) (h_x1 : Keeps s0 x1) : Keeps s0 (sendLevel0 x0 x1 x2) := by
  induction x0 generalizing x1 x2 with
  | zero =>
    rw [sendLevel0.eq_def]; try dsimp only
    repeat' first
      | with_reducible assumption
      | intro _
      | with_reducible apply ite_keeps
      | with_reducible apply sendDigest_keeps
      | with_reducible apply take_keeps
      | with_reducible apply ih
      | split
      | dsimp only
  | succ n ih =>
    rw [sendLevel0.eq_def]; try dsimp only
    repeat' first
      | with_reducible assumption
      | intro _
      | with_reducible apply ite_keeps
      | with_reducible apply sendDigest_keeps
      | with_reducible apply take_keeps
      | with_reducible apply ih
      | split
      | dsimp only

theorem compareEnd_keeps {s0 : State} (s : State) (h_s : Keeps s0 s) : Keeps s0 (State.compareEnd s) := by
  rw [State.compareEnd.eq_def]; try dsimp only
  repeat' first
    | with_reducible assumption
    | intro _
    | with_reducible apply ite_keeps
    | with_reducible apply ledSet_keeps
    | with_reducible apply set_keeps
    | split
    | dsimp only

theorem narrow_keeps {s0 : State} (s : State) (level base : Nat) (h_s : Keeps s0 s) : Keeps s0 (State.narrow s level base) := by
  rw [State.narrow.eq_def]; try dsimp only
  repeat' first
    | with_reducible assumption
    | intro _
    | with_reducible apply ite_keeps
    | with_reducible apply fields_keep
    | with_reducible apply raise_keeps
    | with_reducible apply scanLines_keeps
    | with_reducible apply sendDigest_keeps
    | with_reducible apply set_keeps
    | with_reducible apply unitBytes_keeps
    | with_reducible apply updReplay_keeps
    | with_reducible apply foldl_to_keeps BusRead.st
    | with_reducible apply foldl_keeps
    | with_reducible apply foldl_snd_keeps
    | with_reducible apply foldl_fst_keeps
    | split
    | simp only [keeps_mk]
    | dsimp only

theorem narrowStep_keeps {s0 : State} (s : State) (level base : Nat) (h_s : Keeps s0 s) : Keeps s0 (State.narrowStep s level base) := by
  rw [State.narrowStep.eq_def]; try dsimp only
  repeat' first
    | with_reducible assumption
    | intro _
    | with_reducible apply ite_keeps
    | with_reducible apply ite_opt
    | with_reducible apply some_keeps
    | with_reducible apply none_keeps
    | with_reducible apply fields_keep
    | with_reducible apply narrow_keeps
    | with_reducible apply set_keeps
    | with_reducible apply take_keeps
    | with_reducible apply unitBytes_keeps
    | with_reducible apply updReplay_keeps
    | with_reducible apply foldl_to_keeps BusRead.st
    | with_reducible apply foldl_keeps
    | with_reducible apply foldl_snd_keeps
    | with_reducible apply foldl_fst_keeps
    | with_reducible apply getD_keeps
    | with_reducible refine use_some ?_ (by with_reducible assumption)
    | split
    | simp only [keeps_mk]
    | dsimp only

theorem narrowAll_keeps {s0 : State} (x0 : Nat) (x1 : State) (h_x1 : Keeps s0 x1) : Keeps s0 (narrowAll x0 x1) := by
  induction x0 generalizing x1 with
  | zero =>
    rw [narrowAll.eq_def]; try dsimp only
    repeat' first
      | with_reducible assumption
      | intro _
      | with_reducible apply ite_keeps
      | with_reducible apply ite_opt
      | with_reducible apply some_keeps
      | with_reducible apply none_keeps
      | with_reducible apply fields_keep
      | with_reducible apply compareEnd_keeps
      | with_reducible apply narrowStep_keeps
      | with_reducible apply ih
      | with_reducible refine use_some ?_ (by with_reducible assumption)
      | split
      | simp only [keeps_mk]
      | dsimp only
  | succ n ih =>
    rw [narrowAll.eq_def]; try dsimp only
    repeat' first
      | with_reducible assumption
      | intro _
      | with_reducible apply ite_keeps
      | with_reducible apply ite_opt
      | with_reducible apply some_keeps
      | with_reducible apply none_keeps
      | with_reducible apply fields_keep
      | with_reducible apply compareEnd_keeps
      | with_reducible apply narrowStep_keeps
      | with_reducible apply ih
      | with_reducible refine use_some ?_ (by with_reducible assumption)
      | split
      | simp only [keeps_mk]
      | dsimp only

theorem judge_keeps {s0 : State} (s : State) (h_s : Keeps s0 s) : Keeps s0 (State.judge s) := by
  rw [State.judge.eq_def]; try dsimp only
  repeat' first
    | with_reducible assumption
    | intro _
    | with_reducible apply ite_keeps
    | with_reducible apply ite_opt
    | with_reducible apply some_keeps
    | with_reducible apply none_keeps
    | with_reducible apply fields_keep
    | with_reducible apply bump_keeps
    | with_reducible apply ledSet_keeps
    | with_reducible apply narrow_keeps
    | with_reducible apply narrowAll_keeps
    | with_reducible apply set_keeps
    | with_reducible apply updReplay_keeps
    | with_reducible apply foldl_to_keeps BusRead.st
    | with_reducible apply foldl_keeps
    | with_reducible apply foldl_snd_keeps
    | with_reducible apply foldl_fst_keeps
    | with_reducible apply getD_keeps
    | with_reducible refine use_some ?_ (by with_reducible assumption)
    | split
    | simp only [keeps_mk]
    | dsimp only

theorem judgeIfReady_keeps {s0 : State} (s : State) (h_s : Keeps s0 s) : Keeps s0 (State.judgeIfReady s) := by
  rw [State.judgeIfReady.eq_def]; try dsimp only
  repeat' first
    | with_reducible assumption
    | intro _
    | with_reducible apply ite_keeps
    | with_reducible apply judge_keeps
    | split
    | dsimp only

theorem repairCheck_keeps {s0 : State} (s : State) (h_s : Keeps s0 s) : Keeps s0 (State.repairCheck s) := by
  rw [State.repairCheck.eq_def]; try dsimp only
  repeat' first
    | with_reducible assumption
    | intro _
    | with_reducible apply ite_keeps
    | with_reducible apply ite_opt
    | with_reducible apply some_keeps
    | with_reducible apply none_keeps
    | with_reducible apply fields_keep
    | with_reducible apply set_keeps
    | with_reducible apply updReplay_keeps
    | with_reducible refine use_some ?_ (by with_reducible assumption)
    | split
    | simp only [keeps_mk]
    | dsimp only

theorem sendFixed_keeps {s0 : State} (s : State) (h_s : Keeps s0 s) : Keeps s0 (State.sendFixed s) := by
  rw [State.sendFixed.eq_def]; try dsimp only
  repeat' first
    | with_reducible assumption
    | intro _
    | with_reducible apply ite_keeps
    | with_reducible apply fields_keep
    | with_reducible apply repairCheck_keeps
    | with_reducible apply sendLevel0_keeps
    | with_reducible apply updReplay_keeps
    | split
    | simp only [keeps_mk]
    | dsimp only

theorem repairArrived_keeps {s0 : State} (s : State) (addr : Nat) (bs : List Byte) (h_s : Keeps s0 s) : Keeps s0 (State.repairArrived s addr bs) := by
  rw [State.repairArrived.eq_def]; try dsimp only
  repeat' first
    | with_reducible assumption
    | intro _
    | with_reducible apply ite_keeps
    | with_reducible apply engineWrite_keeps
    | with_reducible apply sendFixed_keeps
    | split
    | dsimp only

/-! ## Machine/RoceOps.lean -/

theorem updEth_keeps {s0 : State} (s : State) (f : Eth → Eth) (h_s : Keeps s0 s) : Keeps s0 (State.updEth s f) := by
  rw [State.updEth.eq_def]; try dsimp only
  repeat' first
    | with_reducible assumption
    | with_reducible apply fields_keep
    | simp only [keeps_mk]
    | dsimp only

theorem putQp_keeps {s0 : State} (s : State) (port qp : Nat) (x : QueuePair) (h_s : Keeps s0 s) : Keeps s0 (State.putQp s port qp x) := by
  rw [State.putQp.eq_def]; try dsimp only
  repeat' first
    | with_reducible assumption
    | intro _
    | with_reducible apply some_keeps
    | with_reducible apply none_keeps
    | with_reducible apply fields_keep
    | with_reducible apply updEth_keeps
    | with_reducible refine use_some ?_ (by with_reducible assumption)
    | simp only [keeps_mk]
    | dsimp only

theorem portSend_keeps {s0 : State} (s : State) (port qp : Nat) (m : Msg) (h_s : Keeps s0 s) : Keeps s0 (State.portSend s port qp m) := by
  rw [State.portSend.eq_def]; try dsimp only
  repeat' first
    | with_reducible assumption
    | intro _
    | with_reducible apply ite_keeps
    | with_reducible apply fields_keep
    | with_reducible apply send_keeps
    | with_reducible apply updEth_keeps
    | split
    | simp only [keeps_mk]
    | dsimp only

theorem portFlush_keeps {s0 : State} (s : State) (port : Nat) (h_s : Keeps s0 s) : Keeps s0 (State.portFlush s port) := by
  rw [State.portFlush.eq_def]; try dsimp only
  repeat' first
    | with_reducible assumption
    | intro _
    | with_reducible apply fields_keep
    | with_reducible apply send_keeps
    | with_reducible apply updEth_keeps
    | with_reducible apply foldl_to_keeps BusRead.st
    | with_reducible apply foldl_keeps
    | with_reducible apply foldl_snd_keeps
    | with_reducible apply foldl_fst_keeps
    | simp only [keeps_mk]
    | dsimp only

theorem writeEntry_keeps {s0 : State} (s : State) (port i : Nat) (h_s : Keeps s0 s) : Keeps s0 (State.writeEntry s port i) := by
  rw [State.writeEntry.eq_def]; try dsimp only
  repeat' first
    | with_reducible assumption
    | intro _
    | with_reducible apply ite_keeps
    | with_reducible apply freeBytes_keeps
    | with_reducible apply writeMem_keeps
    | split
    | dsimp only

theorem sendRoce_keeps {s0 : State} (s : State) (port qp : Nat) (r : RoceReq) (h_s : Keeps s0 s) : Keeps s0 (State.sendRoce s port qp r) := by
  rw [State.sendRoce.eq_def]; try dsimp only
  repeat' first
    | with_reducible assumption
    | intro _
    | with_reducible apply ite_keeps
    | with_reducible apply ite_opt
    | with_reducible apply some_keeps
    | with_reducible apply none_keeps
    | with_reducible apply fields_keep
    | with_reducible apply act_keeps
    | with_reducible apply bump_keeps
    | with_reducible apply busRead_keeps
    | with_reducible apply send_keeps
    | with_reducible refine use_some ?_ (by with_reducible assumption)
    | split
    | simp only [keeps_mk]
    | dsimp only

theorem pumpQp_keeps {s0 : State} (s : State) (port qp : Nat) (h_s : Keeps s0 s) : Keeps s0 (State.pumpQp s port qp) := by
  rw [State.pumpQp.eq_def]; try dsimp only
  repeat' first
    | with_reducible assumption
    | intro _
    | with_reducible apply ite_keeps
    | with_reducible apply ite_opt
    | with_reducible apply some_keeps
    | with_reducible apply none_keeps
    | with_reducible apply fields_keep
    | with_reducible apply putQp_keeps
    | with_reducible apply sendRoce_keeps
    | with_reducible apply foldl_to_keeps BusRead.st
    | with_reducible apply foldl_keeps
    | with_reducible apply foldl_snd_keeps
    | with_reducible apply foldl_fst_keeps
    | with_reducible refine use_some ?_ (by with_reducible assumption)
    | split
    | simp only [keeps_mk]
    | dsimp only

theorem pumpPort_keeps {s0 : State} (s : State) (port : Nat) (h_s : Keeps s0 s) : Keeps s0 (State.pumpPort s port) := by
  rw [State.pumpPort.eq_def]; try dsimp only
  repeat' first
    | with_reducible assumption
    | intro _
    | with_reducible apply ite_keeps
    | with_reducible apply portFlush_keeps
    | with_reducible apply pumpQp_keeps
    | with_reducible apply foldl_to_keeps BusRead.st
    | with_reducible apply foldl_keeps
    | with_reducible apply foldl_snd_keeps
    | with_reducible apply foldl_fst_keeps
    | split
    | dsimp only

theorem makeRoce_keeps {s0 : State} (s : State) (port qp : Nat) (cmd : Option (Nat × Nat)) (record : Option Nat) (read : Bool) (laddr raddr len rkey : Nat) (h_s : Keeps s0 s) : Keeps s0 (State.makeRoce s port qp cmd record read laddr raddr len rkey) := by
  rw [State.makeRoce.eq_def]; try dsimp only
  repeat' first
    | with_reducible assumption
    | intro _
    | with_reducible apply some_keeps
    | with_reducible apply none_keeps
    | with_reducible apply fields_keep
    | with_reducible apply pumpQp_keeps
    | with_reducible apply putQp_keeps
    | with_reducible refine use_some ?_ (by with_reducible assumption)
    | split
    | simp only [keeps_mk]
    | dsimp only

theorem roceDone_keeps {s0 : State} (s : State) (r : RoceReq) (h_s : Keeps s0 s) : Keeps s0 (State.roceDone s r) := by
  rw [State.roceDone.eq_def]; try dsimp only
  repeat' first
    | with_reducible assumption
    | intro _
    | with_reducible apply some_keeps
    | with_reducible apply none_keeps
    | with_reducible apply fields_keep
    | with_reducible apply exported_keeps
    | with_reducible apply succeed_keeps
    | with_reducible apply withWaiting_keeps
    | with_reducible refine use_some ?_ (by with_reducible assumption)
    | split
    | simp only [keeps_mk]
    | dsimp only

theorem roceFailed_keeps {s0 : State} (s : State) (r : RoceReq) (st detail : Nat) (h_s : Keeps s0 s) : Keeps s0 (State.roceFailed s r st detail) := by
  rw [State.roceFailed.eq_def]; try dsimp only
  repeat' first
    | with_reducible assumption
    | intro _
    | with_reducible apply some_keeps
    | with_reducible apply none_keeps
    | with_reducible apply fields_keep
    | with_reducible apply detail_keeps
    | with_reducible apply fail_keeps
    | with_reducible apply set_keeps
    | with_reducible apply withWaiting_keeps
    | with_reducible refine use_some ?_ (by with_reducible assumption)
    | split
    | simp only [keeps_mk]
    | dsimp only

theorem qpError_keeps {s0 : State} (s : State) (port qp st detail : Nat) (h_s : Keeps s0 s) : Keeps s0 (State.qpError s port qp st detail) := by
  rw [State.qpError.eq_def]; try dsimp only
  repeat' first
    | with_reducible assumption
    | intro _
    | with_reducible apply some_keeps
    | with_reducible apply none_keeps
    | with_reducible apply fields_keep
    | with_reducible apply detail_keeps
    | with_reducible apply putQp_keeps
    | with_reducible apply roceFailed_keeps
    | with_reducible apply set_keeps
    | with_reducible apply foldl_to_keeps BusRead.st
    | with_reducible apply foldl_keeps
    | with_reducible apply foldl_snd_keeps
    | with_reducible apply foldl_fst_keeps
    | with_reducible refine use_some ?_ (by with_reducible assumption)
    | split
    | simp only [keeps_mk]
    | dsimp only

theorem goBack_keeps {s0 : State} (s : State) (port qp : Nat) (h_s : Keeps s0 s) : Keeps s0 (State.goBack s port qp) := by
  rw [State.goBack.eq_def]; try dsimp only
  repeat' first
    | with_reducible assumption
    | intro _
    | with_reducible apply some_keeps
    | with_reducible apply none_keeps
    | with_reducible apply fields_keep
    | with_reducible apply pumpQp_keeps
    | with_reducible apply putQp_keeps
    | with_reducible refine use_some ?_ (by with_reducible assumption)
    | split
    | simp only [keeps_mk]
    | dsimp only

theorem sendAck_keeps {s0 : State} (s : State) (port qp psn : Nat) (h_s : Keeps s0 s) : Keeps s0 (State.sendAck s port qp psn) := by
  rw [State.sendAck.eq_def]; try dsimp only
  repeat' first
    | with_reducible assumption
    | with_reducible apply portSend_keeps
    | dsimp only

theorem sendNak_keeps {s0 : State} (s : State) (port qp psn code : Nat) (h_s : Keeps s0 s) : Keeps s0 (State.sendNak s port qp psn code) := by
  rw [State.sendNak.eq_def]; try dsimp only
  repeat' first
    | with_reducible assumption
    | with_reducible apply bump_keeps
    | with_reducible apply portSend_keeps
    | dsimp only

theorem noteEcn_keeps {s0 : State} (s : State) (port qp : Nat) (h_s : Keeps s0 s) : Keeps s0 (State.noteEcn s port qp) := by
  rw [State.noteEcn.eq_def]; try dsimp only
  repeat' first
    | with_reducible assumption
    | intro _
    | with_reducible apply ite_keeps
    | with_reducible apply ite_opt
    | with_reducible apply some_keeps
    | with_reducible apply none_keeps
    | with_reducible apply fields_keep
    | with_reducible apply bump_keeps
    | with_reducible apply portSend_keeps
    | with_reducible apply putQp_keeps
    | with_reducible refine use_some ?_ (by with_reducible assumption)
    | split
    | simp only [keeps_mk]
    | dsimp only

theorem frameIn_keeps {s0 : State} (s : State) (p q : Nat) (f : EthFrame) (k : State → State) (h_s : Keeps s0 s) (h_k : ∀ (y0 : State), Keeps s0 y0 → Keeps s0 (k y0)) : Keeps s0 (State.frameIn s p q f k) := by
  rw [State.frameIn.eq_def]; try dsimp only
  repeat' first
    | with_reducible assumption
    | intro _
    | with_reducible apply ite_keeps
    | with_reducible apply bump_keeps
    | with_reducible apply noteEcn_keeps
    | with_reducible apply h_k
    | split
    | dsimp only

theorem takeRoce_keeps {s0 : State} (s : State) (h : RoceHdr) (n : Nat) (dup : State → State) (f : QueuePair → State → State) (h_s : Keeps s0 s) (h_dup : ∀ (y0 : State), Keeps s0 y0 → Keeps s0 (dup y0)) (h_f : ∀ (y0 : QueuePair) (y1 : State), Keeps s0 y1 → Keeps s0 (f y0 y1)) : Keeps s0 (State.takeRoce s h n dup f) := by
  rw [State.takeRoce.eq_def]; try dsimp only
  repeat' first
    | with_reducible assumption
    | intro _
    | with_reducible apply ite_keeps
    | with_reducible apply ite_opt
    | with_reducible apply some_keeps
    | with_reducible apply none_keeps
    | with_reducible apply fields_keep
    | with_reducible apply frameIn_keeps
    | with_reducible apply putQp_keeps
    | with_reducible apply sendNak_keeps
    | with_reducible apply h_dup
    | with_reducible apply h_f
    | with_reducible refine use_some ?_ (by with_reducible assumption)
    | split
    | simp only [keeps_mk]
    | dsimp only

theorem ackAgain_keeps {s0 : State} (s : State) (p q : Nat) (h_s : Keeps s0 s) : Keeps s0 (State.ackAgain s p q) := by
  rw [State.ackAgain.eq_def]; try dsimp only
  repeat' first
    | with_reducible assumption
    | intro _
    | with_reducible apply some_keeps
    | with_reducible apply none_keeps
    | with_reducible apply fields_keep
    | with_reducible apply sendAck_keeps
    | with_reducible refine use_some ?_ (by with_reducible assumption)
    | split
    | simp only [keeps_mk]
    | dsimp only

theorem ingestRecord_keeps {s0 : State} (s : State) (qp q status : Nat) (h_s : Keeps s0 s) : Keeps s0 (State.ingestRecord s qp q status) := by
  rw [State.ingestRecord.eq_def]; try dsimp only
  repeat' first
    | with_reducible assumption
    | intro _
    | with_reducible apply ite_keeps
    | with_reducible apply ite_opt
    | with_reducible apply some_keeps
    | with_reducible apply fields_keep
    | with_reducible apply bump_keeps
    | with_reducible apply draw_keeps
    | with_reducible apply done_keeps
    | with_reducible apply miss_keeps
    | with_reducible apply stopped_keeps
    | with_reducible apply waits_keeps
    | with_reducible refine use_done ?_ (by with_reducible assumption)
    | with_reducible refine use_miss ?_ (by with_reducible assumption)
    | with_reducible refine use_stopped ?_ (by with_reducible assumption)
    | with_reducible refine use_waits ?_ (by with_reducible assumption)
    | with_reducible refine use_some ?_ (by with_reducible assumption)
    | split
    | simp only [keeps_mk]
    | dsimp only

/-! ## Machine/Replay.lean -/

theorem settleEnables_keeps {s0 : State} (s : State) (h_s : Keeps s0 s) : Keeps s0 (State.settleEnables s) := by
  rw [State.settleEnables.eq_def]; try dsimp only
  repeat' first
    | with_reducible assumption
    | intro _
    | with_reducible apply ite_keeps
    | with_reducible apply succeed_keeps
    | with_reducible apply foldl_to_keeps BusRead.st
    | with_reducible apply foldl_keeps
    | with_reducible apply foldl_snd_keeps
    | with_reducible apply foldl_fst_keeps
    | split
    | dsimp only

theorem execDigestEnable_keeps {s0 : State} (q : Fin 16384) (seq : Nat) (s : State) (h_s : Keeps s0 s) : OutKeeps s0 (execDigestEnable q seq s) := by
  rw [execDigestEnable.eq_def]; try dsimp only
  repeat' first
    | with_reducible assumption
    | intro _
    | with_reducible apply next_keeps
    | with_reducible apply some_keeps
    | with_reducible apply none_keeps
    | with_reducible apply fields_keep
    | with_reducible apply cmdWaits_keeps
    | with_reducible apply fail_keeps
    | with_reducible apply needMem_keeps
    | with_reducible apply runCmd_keeps
    | with_reducible apply setRegBit_keeps
    | with_reducible apply startScans_keeps
    | with_reducible apply foldl_to_keeps BusRead.st
    | with_reducible apply foldl_keeps
    | with_reducible apply foldl_snd_keeps
    | with_reducible apply foldl_fst_keeps
    | with_reducible refine use_some ?_ (by with_reducible assumption)
    | split
    | simp only [keeps_mk]
    | dsimp only

theorem execDigestDisable_keeps {s0 : State} (q : Fin 16384) (seq : Nat) (s : State) (h_s : Keeps s0 s) : OutKeeps s0 (execDigestDisable q seq s) := by
  rw [execDigestDisable.eq_def]; try dsimp only
  repeat' first
    | with_reducible assumption
    | intro _
    | with_reducible apply ite_keeps
    | with_reducible apply ite_out
    | with_reducible apply ite_opt
    | with_reducible apply next_keeps
    | with_reducible apply some_keeps
    | with_reducible apply none_keeps
    | with_reducible apply fields_keep
    | with_reducible apply fail_keeps
    | with_reducible apply runCmd_keeps
    | with_reducible apply set_keeps
    | with_reducible apply setRegBit_keeps
    | with_reducible apply settleEnables_keeps
    | with_reducible apply succeed_keeps
    | with_reducible apply updReplay_keeps
    | with_reducible apply wr_keeps
    | with_reducible apply foldl_to_keeps BusRead.st
    | with_reducible apply foldl_keeps
    | with_reducible apply foldl_snd_keeps
    | with_reducible apply foldl_fst_keeps
    | with_reducible refine use_some ?_ (by with_reducible assumption)
    | split
    | simp only [keeps_mk]
    | dsimp only

theorem execDigestScanEnd_keeps {s0 : State} (region : Nat) (s : State) (h_s : Keeps s0 s) : OutKeeps s0 (execDigestScanEnd region s) := by
  rw [execDigestScanEnd.eq_def]; try dsimp only
  repeat' first
    | with_reducible assumption
    | intro _
    | with_reducible apply ite_keeps
    | with_reducible apply ite_out
    | with_reducible apply next_keeps
    | with_reducible apply fields_keep
    | with_reducible apply scanLines_keeps
    | with_reducible apply set_keeps
    | with_reducible apply setRegBit_keeps
    | with_reducible apply settleEnables_keeps
    | with_reducible apply updReplay_keeps
    | with_reducible apply wr_keeps
    | split
    | simp only [keeps_mk]
    | dsimp only

theorem execLdgSubdigest_keeps {s0 : State} (q : Fin 16384) (seq : Nat) (s : State) (h_s : Keeps s0 s) : OutKeeps s0 (execLdgSubdigest q seq s) := by
  rw [execLdgSubdigest.eq_def]; try dsimp only
  repeat' first
    | with_reducible assumption
    | intro _
    | with_reducible apply ite_keeps
    | with_reducible apply ite_out
    | with_reducible apply next_keeps
    | with_reducible apply fail_keeps
    | with_reducible apply needA_keeps
    | with_reducible apply needMem_keeps
    | with_reducible apply putOutput_keeps
    | with_reducible apply runCmd_keeps
    | with_reducible apply scanLines_keeps
    | with_reducible apply succeed_keeps
    | with_reducible apply unitBytes_keeps
    | with_reducible apply foldl_to_keeps BusRead.st
    | with_reducible apply foldl_keeps
    | with_reducible apply foldl_snd_keeps
    | with_reducible apply foldl_fst_keeps
    | split
    | dsimp only

theorem execLdgRangeDigest_keeps {s0 : State} (q : Fin 16384) (seq : Nat) (s : State) (h_s : Keeps s0 s) : OutKeeps s0 (execLdgRangeDigest q seq s) := by
  rw [execLdgRangeDigest.eq_def]; try dsimp only
  repeat' first
    | with_reducible assumption
    | intro _
    | with_reducible apply next_keeps
    | with_reducible apply needA_keeps
    | with_reducible apply needMem_keeps
    | with_reducible apply runCmd_keeps
    | with_reducible apply scanLines_keeps
    | with_reducible apply succeed_keeps
    | dsimp only

theorem execLdgTableDigest_keeps {s0 : State} (q : Fin 16384) (seq : Nat) (s : State) (h_s : Keeps s0 s) : OutKeeps s0 (execLdgTableDigest q seq s) := by
  rw [execLdgTableDigest.eq_def]; try dsimp only
  repeat' first
    | with_reducible assumption
    | intro _
    | with_reducible apply next_keeps
    | with_reducible apply some_keeps
    | with_reducible apply none_keeps
    | with_reducible apply fields_keep
    | with_reducible apply engineRead_keeps
    | with_reducible apply fail_keeps
    | with_reducible apply needA_keeps
    | with_reducible apply needMem_keeps
    | with_reducible apply putOutput_keeps
    | with_reducible apply runCmd_keeps
    | with_reducible apply succeed_keeps
    | with_reducible apply foldl_to_keeps BusRead.st
    | with_reducible apply foldl_keeps
    | with_reducible apply foldl_snd_keeps
    | with_reducible apply foldl_fst_keeps
    | with_reducible refine use_some ?_ (by with_reducible assumption)
    | split
    | simp only [keeps_mk]
    | dsimp only

theorem capture_keeps {s0 : State} (s : State) (h_s : Keeps s0 s) : Keeps s0 (State.capture s) := by
  rw [State.capture.eq_def]; try dsimp only
  repeat' first
    | with_reducible assumption
    | intro _
    | with_reducible apply some_keeps
    | with_reducible apply none_keeps
    | with_reducible apply fields_keep
    | with_reducible apply ledSet_keeps
    | with_reducible apply reportMoves_keeps
    | with_reducible apply setCourse_keeps
    | with_reducible apply updReplay_keeps
    | with_reducible refine use_some ?_ (by with_reducible assumption)
    | split
    | simp only [keeps_mk]
    | dsimp only

theorem takeLevel0_keeps {s0 : State} (s : State) (rank : Nat) (entries : List (Nat × Word)) (h_s : Keeps s0 s) : Keeps s0 (State.takeLevel0 s rank entries) := by
  rw [State.takeLevel0.eq_def]; try dsimp only
  repeat' first
    | with_reducible assumption
    | intro _
    | with_reducible apply ite_keeps
    | with_reducible apply ite_opt
    | with_reducible apply some_keeps
    | with_reducible apply none_keeps
    | with_reducible apply fields_keep
    | with_reducible apply judgeIfReady_keeps
    | with_reducible apply repairCheck_keeps
    | with_reducible apply updReplay_keeps
    | with_reducible apply foldl_to_keeps BusRead.st
    | with_reducible apply foldl_keeps
    | with_reducible apply foldl_snd_keeps
    | with_reducible apply foldl_fst_keeps
    | with_reducible refine use_some ?_ (by with_reducible assumption)
    | split
    | simp only [keeps_mk]
    | dsimp only

theorem execDigestCapture_keeps {s0 : State} (s : State) (h_s : Keeps s0 s) : OutKeeps s0 (execDigestCapture s) := by
  rw [execDigestCapture.eq_def]; try dsimp only
  repeat' first
    | with_reducible assumption
    | intro _
    | with_reducible apply ite_keeps
    | with_reducible apply ite_out
    | with_reducible apply ite_opt
    | with_reducible apply next_keeps
    | with_reducible apply some_keeps
    | with_reducible apply none_keeps
    | with_reducible apply fields_keep
    | with_reducible apply capture_keeps
    | with_reducible apply judgeIfReady_keeps
    | with_reducible apply sendLevel0_keeps
    | with_reducible apply set_keeps
    | with_reducible apply updReplay_keeps
    | with_reducible apply foldl_to_keeps BusRead.st
    | with_reducible apply foldl_keeps
    | with_reducible apply foldl_snd_keeps
    | with_reducible apply foldl_fst_keeps
    | with_reducible refine use_some ?_ (by with_reducible assumption)
    | split
    | simp only [keeps_mk]
    | dsimp only

theorem execDigest_keeps {s0 : State} (h : FabHdr) (_course level rank base : Nat) (entries : List (Nat × Word)) (s : State) (h_s : Keeps s0 s) : OutKeeps s0 (execDigest h _course level rank base entries s) := by
  rw [execDigest.eq_def]; try dsimp only
  repeat' first
    | with_reducible assumption
    | intro _
    | with_reducible apply ite_keeps
    | with_reducible apply ite_out
    | with_reducible apply next_keeps
    | with_reducible apply fields_keep
    | with_reducible apply narrowAll_keeps
    | with_reducible apply serve_keeps
    | with_reducible apply takeLevel0_keeps
    | with_reducible apply updReplay_keeps
    | split
    | simp only [keeps_mk]
    | dsimp only

theorem execDigestWaitTimeout_keeps {s0 : State} (rank : Nat) (s : State) (h_s : Keeps s0 s) : OutKeeps s0 (execDigestWaitTimeout rank s) := by
  rw [execDigestWaitTimeout.eq_def]; try dsimp only
  repeat' first
    | with_reducible assumption
    | intro _
    | with_reducible apply ite_keeps
    | with_reducible apply ite_out
    | with_reducible apply next_keeps
    | with_reducible apply startProbing_keeps
    | split
    | dsimp only

/-! ## Machine/Update.lean -/

theorem addAnswered_keeps {s0 : State} (s : State) (die desc : Nat) (h_s : Keeps s0 s) : Keeps s0 (State.addAnswered s die desc) := by
  rw [State.addAnswered.eq_def]; try dsimp only
  repeat' first
    | with_reducible assumption
    | intro _
    | with_reducible apply fields_keep
    | with_reducible apply updYdesc_keeps
    | simp only [keeps_mk]
    | dsimp only

theorem addRefused_keeps {s0 : State} (s : State) (die desc : Nat) (abort : Bool) (h_s : Keeps s0 s) : Keeps s0 (State.addRefused s die desc abort) := by
  rw [State.addRefused.eq_def]; try dsimp only
  repeat' first
    | with_reducible assumption
    | intro _
    | with_reducible apply ite_keeps
    | with_reducible apply ite_opt
    | with_reducible apply some_keeps
    | with_reducible apply none_keeps
    | with_reducible apply fields_keep
    | with_reducible apply abortCourse_keeps
    | with_reducible apply addAnswered_keeps
    | with_reducible apply updYdesc_keeps
    | with_reducible refine use_some ?_ (by with_reducible assumption)
    | split
    | simp only [keeps_mk]
    | dsimp only

theorem execLocalRowAdd_keeps {s0 : State} (u : Fin 24) (s : State) (h_s : Keeps s0 s) : OutKeeps s0 (execLocalRowAdd u s) := by
  rw [execLocalRowAdd.eq_def]; try dsimp only
  repeat' first
    | with_reducible assumption
    | intro _
    | with_reducible apply next_keeps
    | with_reducible apply some_keeps
    | with_reducible apply none_keeps
    | with_reducible apply fields_keep
    | with_reducible apply addAnswered_keeps
    | with_reducible apply addRefused_keeps
    | with_reducible apply applyAdd_keeps
    | with_reducible apply ask_keeps
    | with_reducible refine use_some ?_ (by with_reducible assumption)
    | split
    | simp only [keeps_mk]
    | dsimp only

theorem execFoldRow_keeps {s0 : State} (u : Fin 24) (whole : Bool) (s : State) (h_s : Keeps s0 s) : OutKeeps s0 (execFoldRow u whole s) := by
  rw [execFoldRow.eq_def]; try dsimp only
  repeat' first
    | with_reducible assumption
    | intro _
    | with_reducible apply ite_keeps
    | with_reducible apply ite_out
    | with_reducible apply ite_opt
    | with_reducible apply next_keeps
    | with_reducible apply some_keeps
    | with_reducible apply none_keeps
    | with_reducible apply fields_keep
    | with_reducible apply freeKey_keeps
    | with_reducible apply headroom_keeps
    | with_reducible apply keySums_keeps
    | with_reducible apply runRow_keeps
    | with_reducible apply setRun_keeps
    | with_reducible apply syncFolding_keeps
    | with_reducible refine use_some ?_ (by with_reducible assumption)
    | split
    | simp only [keeps_mk]
    | dsimp only

theorem execDenseFoldItem_keeps {s0 : State} (u : Fin 24) (whole : Bool) (s : State) (h_s : Keeps s0 s) : OutKeeps s0 (execDenseFoldItem u whole s) := by
  rw [execDenseFoldItem.eq_def]; try dsimp only
  repeat' first
    | with_reducible assumption
    | intro _
    | with_reducible apply ite_keeps
    | with_reducible apply ite_out
    | with_reducible apply ite_opt
    | with_reducible apply next_keeps
    | with_reducible apply some_keeps
    | with_reducible apply none_keeps
    | with_reducible apply fields_keep
    | with_reducible apply runRows_keeps
    | with_reducible apply setRun_keeps
    | with_reducible apply syncFolding_keeps
    | with_reducible refine use_some ?_ (by with_reducible assumption)
    | split
    | simp only [keeps_mk]
    | dsimp only

theorem execUpdEnd_keeps {s0 : State} (u : Fin 24) (s : State) (h_s : Keeps s0 s) : OutKeeps s0 (execUpdEnd u s) := by
  rw [execUpdEnd.eq_def]; try dsimp only
  repeat' first
    | with_reducible assumption
    | intro _
    | with_reducible apply ite_keeps
    | with_reducible apply ite_out
    | with_reducible apply ite_opt
    | with_reducible apply next_keeps
    | with_reducible apply some_keeps
    | with_reducible apply none_keeps
    | with_reducible apply fields_keep
    | with_reducible apply closeRun_keeps
    | with_reducible refine use_some ?_ (by with_reducible assumption)
    | split
    | simp only [keeps_mk]
    | dsimp only

theorem execLdg_keeps {s0 : State} (u : Fin 24) (s : State) (h_s : Keeps s0 s) : OutKeeps s0 (execLdg u s) := by
  rw [execLdg.eq_def]; try dsimp only
  repeat' first
    | with_reducible assumption
    | intro _
    | with_reducible apply next_keeps
    | with_reducible apply effLdg_keeps
    | with_reducible apply unitInstr_keeps
    | dsimp only

theorem execLdw_keeps {s0 : State} (u : Fin 24) (s : State) (h_s : Keeps s0 s) : OutKeeps s0 (execLdw u s) := by
  rw [execLdw.eq_def]; try dsimp only
  repeat' first
    | with_reducible assumption
    | intro _
    | with_reducible apply next_keeps
    | with_reducible apply effLdw_keeps
    | with_reducible apply unitInstr_keeps
    | dsimp only

theorem execLds_keeps {s0 : State} (u : Fin 24) (s : State) (h_s : Keeps s0 s) : OutKeeps s0 (execLds u s) := by
  rw [execLds.eq_def]; try dsimp only
  repeat' first
    | with_reducible assumption
    | intro _
    | with_reducible apply next_keeps
    | with_reducible apply effLds_keeps
    | with_reducible apply unitInstr_keeps
    | dsimp only

theorem execLdp_keeps {s0 : State} (u : Fin 24) (s : State) (h_s : Keeps s0 s) : OutKeeps s0 (execLdp u s) := by
  rw [execLdp.eq_def]; try dsimp only
  repeat' first
    | with_reducible assumption
    | intro _
    | with_reducible apply next_keeps
    | with_reducible apply effLdp_keeps
    | with_reducible apply unitInstr_keeps
    | dsimp only

theorem execLdk_keeps {s0 : State} (u : Fin 24) (s : State) (h_s : Keeps s0 s) : OutKeeps s0 (execLdk u s) := by
  rw [execLdk.eq_def]; try dsimp only
  repeat' first
    | with_reducible assumption
    | intro _
    | with_reducible apply next_keeps
    | with_reducible apply effLdk_keeps
    | with_reducible apply unitInstr_keeps
    | dsimp only

theorem execLdcol_keeps {s0 : State} (u : Fin 24) (s : State) (h_s : Keeps s0 s) : OutKeeps s0 (execLdcol u s) := by
  rw [execLdcol.eq_def]; try dsimp only
  repeat' first
    | with_reducible assumption
    | intro _
    | with_reducible apply next_keeps
    | with_reducible apply effLdcol_keeps
    | with_reducible apply unitInstr_keeps
    | dsimp only

theorem execFadd_keeps {s0 : State} (u : Fin 24) (s : State) (h_s : Keeps s0 s) : OutKeeps s0 (execFadd u s) := by
  rw [execFadd.eq_def]; try dsimp only
  repeat' first
    | with_reducible assumption
    | intro _
    | with_reducible apply next_keeps
    | with_reducible apply effArith_keeps
    | with_reducible apply unitInstr_keeps
    | dsimp only

theorem execFsub_keeps {s0 : State} (u : Fin 24) (s : State) (h_s : Keeps s0 s) : OutKeeps s0 (execFsub u s) := by
  rw [execFsub.eq_def]; try dsimp only
  repeat' first
    | with_reducible assumption
    | intro _
    | with_reducible apply next_keeps
    | with_reducible apply effArith_keeps
    | with_reducible apply unitInstr_keeps
    | dsimp only

theorem execFmul_keeps {s0 : State} (u : Fin 24) (s : State) (h_s : Keeps s0 s) : OutKeeps s0 (execFmul u s) := by
  rw [execFmul.eq_def]; try dsimp only
  repeat' first
    | with_reducible assumption
    | intro _
    | with_reducible apply next_keeps
    | with_reducible apply effArith_keeps
    | with_reducible apply unitInstr_keeps
    | dsimp only

theorem execFdiv_keeps {s0 : State} (u : Fin 24) (s : State) (h_s : Keeps s0 s) : OutKeeps s0 (execFdiv u s) := by
  rw [execFdiv.eq_def]; try dsimp only
  repeat' first
    | with_reducible assumption
    | intro _
    | with_reducible apply next_keeps
    | with_reducible apply effArith_keeps
    | with_reducible apply unitInstr_keeps
    | dsimp only

theorem execFma_keeps {s0 : State} (u : Fin 24) (s : State) (h_s : Keeps s0 s) : OutKeeps s0 (execFma u s) := by
  rw [execFma.eq_def]; try dsimp only
  repeat' first
    | with_reducible assumption
    | intro _
    | with_reducible apply next_keeps
    | with_reducible apply effArith_keeps
    | with_reducible apply unitInstr_keeps
    | dsimp only

theorem execFmin_keeps {s0 : State} (u : Fin 24) (s : State) (h_s : Keeps s0 s) : OutKeeps s0 (execFmin u s) := by
  rw [execFmin.eq_def]; try dsimp only
  repeat' first
    | with_reducible assumption
    | intro _
    | with_reducible apply next_keeps
    | with_reducible apply effArith_keeps
    | with_reducible apply unitInstr_keeps
    | dsimp only

theorem execFmax_keeps {s0 : State} (u : Fin 24) (s : State) (h_s : Keeps s0 s) : OutKeeps s0 (execFmax u s) := by
  rw [execFmax.eq_def]; try dsimp only
  repeat' first
    | with_reducible assumption
    | intro _
    | with_reducible apply next_keeps
    | with_reducible apply effArith_keeps
    | with_reducible apply unitInstr_keeps
    | dsimp only

theorem execFabs_keeps {s0 : State} (u : Fin 24) (s : State) (h_s : Keeps s0 s) : OutKeeps s0 (execFabs u s) := by
  rw [execFabs.eq_def]; try dsimp only
  repeat' first
    | with_reducible assumption
    | intro _
    | with_reducible apply next_keeps
    | with_reducible apply effArith_keeps
    | with_reducible apply unitInstr_keeps
    | dsimp only

theorem execFneg_keeps {s0 : State} (u : Fin 24) (s : State) (h_s : Keeps s0 s) : OutKeeps s0 (execFneg u s) := by
  rw [execFneg.eq_def]; try dsimp only
  repeat' first
    | with_reducible assumption
    | intro _
    | with_reducible apply next_keeps
    | with_reducible apply effArith_keeps
    | with_reducible apply unitInstr_keeps
    | dsimp only

theorem execFsqrt_keeps {s0 : State} (u : Fin 24) (s : State) (h_s : Keeps s0 s) : OutKeeps s0 (execFsqrt u s) := by
  rw [execFsqrt.eq_def]; try dsimp only
  repeat' first
    | with_reducible assumption
    | intro _
    | with_reducible apply next_keeps
    | with_reducible apply effArith_keeps
    | with_reducible apply unitInstr_keeps
    | dsimp only

theorem execFrsqrt_keeps {s0 : State} (u : Fin 24) (s : State) (h_s : Keeps s0 s) : OutKeeps s0 (execFrsqrt u s) := by
  rw [execFrsqrt.eq_def]; try dsimp only
  repeat' first
    | with_reducible assumption
    | intro _
    | with_reducible apply next_keeps
    | with_reducible apply effArith_keeps
    | with_reducible apply unitInstr_keeps
    | dsimp only

theorem execFsel_keeps {s0 : State} (u : Fin 24) (s : State) (h_s : Keeps s0 s) : OutKeeps s0 (execFsel u s) := by
  rw [execFsel.eq_def]; try dsimp only
  repeat' first
    | with_reducible assumption
    | intro _
    | with_reducible apply next_keeps
    | with_reducible apply effFsel_keeps
    | with_reducible apply unitInstr_keeps
    | dsimp only

theorem execRsum_keeps {s0 : State} (u : Fin 24) (s : State) (h_s : Keeps s0 s) : OutKeeps s0 (execRsum u s) := by
  rw [execRsum.eq_def]; try dsimp only
  repeat' first
    | with_reducible assumption
    | intro _
    | with_reducible apply next_keeps
    | with_reducible apply effRsum_keeps
    | with_reducible apply unitInstr_keeps
    | dsimp only

theorem execRamax_keeps {s0 : State} (u : Fin 24) (s : State) (h_s : Keeps s0 s) : OutKeeps s0 (execRamax u s) := by
  rw [execRamax.eq_def]; try dsimp only
  repeat' first
    | with_reducible assumption
    | intro _
    | with_reducible apply next_keeps
    | with_reducible apply effRamax_keeps
    | with_reducible apply unitInstr_keeps
    | dsimp only

theorem execCacc_keeps {s0 : State} (u : Fin 24) (s : State) (h_s : Keeps s0 s) : OutKeeps s0 (execCacc u s) := by
  rw [execCacc.eq_def]; try dsimp only
  repeat' first
    | with_reducible assumption
    | intro _
    | with_reducible apply next_keeps
    | with_reducible apply effCacc_keeps
    | with_reducible apply unitInstr_keeps
    | dsimp only

theorem execSts_keeps {s0 : State} (u : Fin 24) (s : State) (h_s : Keeps s0 s) : OutKeeps s0 (execSts u s) := by
  rw [execSts.eq_def]; try dsimp only
  repeat' first
    | with_reducible assumption
    | intro _
    | with_reducible apply next_keeps
    | with_reducible apply effSts_keeps
    | with_reducible apply unitInstr_keeps
    | dsimp only

theorem execStw_keeps {s0 : State} (u : Fin 24) (s : State) (h_s : Keeps s0 s) : OutKeeps s0 (execStw u s) := by
  rw [execStw.eq_def]; try dsimp only
  repeat' first
    | with_reducible assumption
    | intro _
    | with_reducible apply next_keeps
    | with_reducible apply effStw_keeps
    | with_reducible apply unitInstr_keeps
    | dsimp only

theorem execUpdProgram_keeps {s0 : State} (q : Fin 16384) (seq : Nat) (s : State) (h_s : Keeps s0 s) : OutKeeps s0 (execUpdProgram q seq s) := by
  rw [execUpdProgram.eq_def]; try dsimp only
  repeat' first
    | with_reducible assumption
    | intro _
    | with_reducible apply ite_keeps
    | with_reducible apply ite_out
    | with_reducible apply ite_opt
    | with_reducible apply next_keeps
    | with_reducible apply some_keeps
    | with_reducible apply none_keeps
    | with_reducible apply fields_keep
    | with_reducible apply fail_keeps
    | with_reducible apply needA_keeps
    | with_reducible apply needMem_keeps
    | with_reducible apply readMem_keeps
    | with_reducible apply runCmd_keeps
    | with_reducible apply set_keeps
    | with_reducible apply succeed_keeps
    | with_reducible refine use_some ?_ (by with_reducible assumption)
    | split
    | simp only [keeps_mk]
    | dsimp only

theorem execUpdBind_keeps {s0 : State} (q : Fin 16384) (seq : Nat) (s : State) (h_s : Keeps s0 s) : OutKeeps s0 (execUpdBind q seq s) := by
  rw [execUpdBind.eq_def]; try dsimp only
  repeat' first
    | with_reducible assumption
    | intro _
    | with_reducible apply ite_keeps
    | with_reducible apply ite_out
    | with_reducible apply next_keeps
    | with_reducible apply fail_keeps
    | with_reducible apply needA_keeps
    | with_reducible apply needMem_keeps
    | with_reducible apply readMem_keeps
    | with_reducible apply runCmd_keeps
    | with_reducible apply succeed_keeps
    | with_reducible apply writeMem_keeps
    | split
    | dsimp only

/-! ## Machine/Work.lean -/

theorem dueItem_keeps {s0 : State} (s : State) (i : Nat) (x : CourseItem) (h_s : Keeps s0 s) : Keeps s0 (State.dueItem s i x) := by
  rw [State.dueItem.eq_def]; try dsimp only
  repeat' first
    | with_reducible assumption
    | intro _
    | with_reducible apply ite_keeps
    | with_reducible apply ite_opt
    | with_reducible apply some_keeps
    | with_reducible apply none_keeps
    | with_reducible apply fields_keep
    | with_reducible apply detail_keeps
    | with_reducible apply engineRead_keeps
    | with_reducible apply itemEnds_keeps
    | with_reducible apply scanLines_keeps
    | with_reducible apply updBatches_keeps
    | with_reducible refine use_some ?_ (by with_reducible assumption)
    | split
    | simp only [keeps_mk]
    | dsimp only

theorem dueItems_keeps {s0 : State} (s : State) (upTo : Nat) (h_s : Keeps s0 s) : Keeps s0 (State.dueItems s upTo) := by
  rw [State.dueItems.eq_def]; try dsimp only
  repeat' first
    | with_reducible assumption
    | intro _
    | with_reducible apply ite_keeps
    | with_reducible apply dueItem_keeps
    | with_reducible apply foldl_to_keeps BusRead.st
    | with_reducible apply done_keeps
    | with_reducible apply miss_keeps
    | with_reducible apply stopped_keeps
    | with_reducible apply waits_keeps
    | with_reducible refine use_done ?_ (by with_reducible assumption)
    | with_reducible refine use_miss ?_ (by with_reducible assumption)
    | with_reducible refine use_stopped ?_ (by with_reducible assumption)
    | with_reducible refine use_waits ?_ (by with_reducible assumption)
    | with_reducible apply foldl_keeps
    | with_reducible apply foldl_snd_keeps
    | with_reducible apply foldl_fst_keeps
    | split
    | dsimp only

/-! ## Machine/Record.lean -/

theorem recordNow_keeps {s0 : State} (s : State) (p : CourseProgram) (h_s : Keeps s0 s) : Keeps s0 (State.recordNow s p) := by
  rw [State.recordNow.eq_def]; try dsimp only
  repeat' first
    | with_reducible assumption
    | intro _
    | with_reducible apply ledSet_keeps
    | with_reducible apply foldl_to_keeps BusRead.st
    | with_reducible apply foldl_keeps
    | with_reducible apply foldl_snd_keeps
    | with_reducible apply foldl_fst_keeps
    | dsimp only

theorem storeRecord_keeps {s0 : State} (s : State) (n a : Nat) (bs : List Byte) (h_s : Keeps s0 s) : Keeps s0 (State.storeRecord s n a bs) := by
  rw [State.storeRecord.eq_def]; try dsimp only
  repeat' first
    | with_reducible assumption
    | intro _
    | with_reducible apply fields_keep
    | with_reducible apply busWrite_keeps
    | with_reducible apply exported_keeps
    | with_reducible apply set_keeps
    | with_reducible apply done_keeps
    | with_reducible apply miss_keeps
    | with_reducible apply stopped_keeps
    | with_reducible apply waits_keeps
    | with_reducible refine use_done ?_ (by with_reducible assumption)
    | with_reducible refine use_miss ?_ (by with_reducible assumption)
    | with_reducible refine use_stopped ?_ (by with_reducible assumption)
    | with_reducible refine use_waits ?_ (by with_reducible assumption)
    | split
    | simp only [keeps_mk]
    | dsimp only

theorem sendRecord_keeps {s0 : State} (s : State) (n : Nat) (h_s : Keeps s0 s) : Keeps s0 (State.sendRecord s n) := by
  rw [State.sendRecord.eq_def]; try dsimp only
  repeat' first
    | with_reducible assumption
    | intro _
    | with_reducible apply ite_keeps
    | with_reducible apply ite_opt
    | with_reducible apply some_keeps
    | with_reducible apply none_keeps
    | with_reducible apply fields_keep
    | with_reducible apply fabStore_keeps
    | with_reducible apply makeRoce_keeps
    | with_reducible apply set_keeps
    | with_reducible apply storeRecord_keeps
    | with_reducible refine use_some ?_ (by with_reducible assumption)
    | split
    | simp only [keeps_mk]
    | dsimp only

theorem retryExports_keeps {s0 : State} (s : State) (h_s : Keeps s0 s) : Keeps s0 (State.retryExports s) := by
  rw [State.retryExports.eq_def]; try dsimp only
  repeat' first
    | with_reducible assumption
    | intro _
    | with_reducible apply ite_keeps
    | with_reducible apply sendRecord_keeps
    | with_reducible apply foldl_to_keeps BusRead.st
    | with_reducible apply foldl_keeps
    | with_reducible apply foldl_snd_keeps
    | with_reducible apply foldl_fst_keeps
    | split
    | dsimp only

theorem writeRecord_keeps {s0 : State} (s : State) (p : CourseProgram) (h_s : Keeps s0 s) : Keeps s0 (State.writeRecord s p) := by
  rw [State.writeRecord.eq_def]; try dsimp only
  repeat' first
    | with_reducible assumption
    | intro _
    | with_reducible apply ite_keeps
    | with_reducible apply fields_keep
    | with_reducible apply bumpWrap_keeps
    | with_reducible apply engineWrite_keeps
    | with_reducible apply ledSet_keeps
    | with_reducible apply recordNow_keeps
    | with_reducible apply sendRecord_keeps
    | with_reducible apply set_keeps
    | with_reducible apply updReplay_keeps
    | split
    | simp only [keeps_mk]
    | dsimp only

theorem comparePolicy_keeps {s0 : State} (s : State) (h_s : Keeps s0 s) : Keeps s0 (State.comparePolicy s) := by
  rw [State.comparePolicy.eq_def]; try dsimp only
  repeat' first
    | with_reducible assumption
    | intro _
    | with_reducible apply ite_keeps
    | with_reducible apply fields_keep
    | with_reducible apply sendFixed_keeps
    | with_reducible apply set_keeps
    | with_reducible apply updReplay_keeps
    | split
    | simp only [keeps_mk]
    | dsimp only

theorem endWaiters_keeps {s0 : State} (s : State) (result : Nat) (h_s : Keeps s0 s) : Keeps s0 (State.endWaiters s result) := by
  rw [State.endWaiters.eq_def]; try dsimp only
  repeat' first
    | with_reducible assumption
    | intro _
    | with_reducible apply succeed_keeps
    | with_reducible apply foldl_to_keeps BusRead.st
    | with_reducible apply foldl_keeps
    | with_reducible apply foldl_snd_keeps
    | with_reducible apply foldl_fst_keeps
    | dsimp only

theorem dropStages_keeps {s0 : State} (s : State) (h_s : Keeps s0 s) : Keeps s0 (State.dropStages s) := by
  rw [State.dropStages.eq_def]; try dsimp only
  repeat' first
    | with_reducible assumption
    | intro _
    | with_reducible apply some_keeps
    | with_reducible apply none_keeps
    | with_reducible apply fields_keep
    | with_reducible apply set_keeps
    | with_reducible apply foldl_to_keeps BusRead.st
    | with_reducible apply foldl_keeps
    | with_reducible apply foldl_snd_keeps
    | with_reducible apply foldl_fst_keeps
    | with_reducible refine use_some ?_ (by with_reducible assumption)
    | split
    | simp only [keeps_mk]
    | dsimp only

theorem endCourse_keeps {s0 : State} (s : State) (h_s : Keeps s0 s) : Keeps s0 (State.endCourse s) := by
  rw [State.endCourse.eq_def]; try dsimp only
  repeat' first
    | with_reducible assumption
    | intro _
    | with_reducible apply ite_keeps
    | with_reducible apply ite_opt
    | with_reducible apply some_keeps
    | with_reducible apply none_keeps
    | with_reducible apply fields_keep
    | with_reducible apply bump_keeps
    | with_reducible apply comparePolicy_keeps
    | with_reducible apply dropMoves_keeps
    | with_reducible apply dropStages_keeps
    | with_reducible apply dueItems_keeps
    | with_reducible apply endMoves_keeps
    | with_reducible apply endWaiters_keeps
    | with_reducible apply set_keeps
    | with_reducible apply setCourse_keeps
    | with_reducible apply writeRecord_keeps
    | with_reducible refine use_some ?_ (by with_reducible assumption)
    | split
    | simp only [keeps_mk]
    | dsimp only

theorem execLedgerRecordWrite_keeps {s0 : State} (s : State) (h_s : Keeps s0 s) : OutKeeps s0 (execLedgerRecordWrite s) := by
  rw [execLedgerRecordWrite.eq_def]; try dsimp only
  repeat' first
    | with_reducible assumption
    | intro _
    | with_reducible apply ite_keeps
    | with_reducible apply ite_out
    | with_reducible apply next_keeps
    | with_reducible apply endCourse_keeps
    | split
    | dsimp only

theorem execCourseEndPoint_keeps {s0 : State} (s : State) (h_s : Keeps s0 s) : OutKeeps s0 (execCourseEndPoint s) := by
  rw [execCourseEndPoint.eq_def]; try dsimp only
  repeat' first
    | with_reducible assumption
    | intro _
    | with_reducible apply ite_keeps
    | with_reducible apply ite_out
    | with_reducible apply next_keeps
    | with_reducible apply endCourse_keeps
    | split
    | dsimp only

theorem dropEntries_keeps {s0 : State} (s : State) (h_s : Keeps s0 s) : Keeps s0 (State.dropEntries s) := by
  rw [State.dropEntries.eq_def]; try dsimp only
  repeat' first
    | with_reducible assumption
    | intro _
    | with_reducible apply syncOcc_keeps
    | with_reducible apply writeMem_keeps
    | with_reducible apply foldl_to_keeps BusRead.st
    | with_reducible apply foldl_keeps
    | with_reducible apply foldl_snd_keeps
    | with_reducible apply foldl_fst_keeps
    | dsimp only

theorem execAbortComplete_keeps {s0 : State} (s : State) (h_s : Keeps s0 s) : OutKeeps s0 (execAbortComplete s) := by
  rw [execAbortComplete.eq_def]; try dsimp only
  repeat' first
    | with_reducible assumption
    | intro _
    | with_reducible apply ite_keeps
    | with_reducible apply ite_out
    | with_reducible apply next_keeps
    | with_reducible apply fields_keep
    | with_reducible apply capture_keeps
    | with_reducible apply dropEntries_keeps
    | with_reducible apply endCourse_keeps
    | with_reducible apply set_keeps
    | with_reducible apply updFab_keeps
    | with_reducible apply updReplay_keeps
    | split
    | simp only [keeps_mk]
    | dsimp only

theorem execRepair_keeps {s0 : State} (s : State) (h_s : Keeps s0 s) : OutKeeps s0 (execRepair s) := by
  rw [execRepair.eq_def]; try dsimp only
  repeat' first
    | with_reducible assumption
    | intro _
    | with_reducible apply ite_keeps
    | with_reducible apply ite_out
    | with_reducible apply ite_opt
    | with_reducible apply next_keeps
    | with_reducible apply some_keeps
    | with_reducible apply none_keeps
    | with_reducible apply fields_keep
    | with_reducible apply ask_keeps
    | with_reducible apply sendFixed_keeps
    | with_reducible apply updReplay_keeps
    | with_reducible apply foldl_to_keeps BusRead.st
    | with_reducible apply foldl_keeps
    | with_reducible apply foldl_snd_keeps
    | with_reducible apply foldl_fst_keeps
    | with_reducible refine use_some ?_ (by with_reducible assumption)
    | split
    | simp only [keeps_mk]
    | dsimp only

end Sys2Proof.Laws
end

