-- ==== Sys2Proof/Laws/KeepsYealm.lean ====
section
/-! SUPPORT. Every operation of yealms keeps the canonical forms and the queue of commands. -/
set_option linter.all false
namespace Sys2Proof.Laws
open Sys2Proof.Machine

/-! ## Machine/YealmOps.lean -/

theorem yread_keeps {s0 : State} (s : State) (die a n : Nat) (h_s : Keeps s0 s) : Keeps s0 (State.yread s die a n).2 := by
  rw [State.yread.eq_def]; try dsimp only
  repeat' first
    | with_reducible assumption
    | with_reducible apply busRead_keeps
    | dsimp only

theorem ywrite_keeps {s0 : State} (s : State) (die : Nat) (wad : Bool) (a : Nat) (bs : List Byte) (h_s : Keeps s0 s) : Keeps s0 (State.ywrite s die wad a bs) := by
  rw [State.ywrite.eq_def]; try dsimp only
  repeat' first
    | with_reducible assumption
    | intro _
    | with_reducible apply fields_keep
    | with_reducible apply busPost_keeps
    | with_reducible apply done_keeps
    | with_reducible apply miss_keeps
    | with_reducible apply stopped_keeps
    | with_reducible apply waits_keeps
    | with_reducible refine use_done ?_ (by with_reducible assumption)
    | with_reducible refine use_miss ?_ (by with_reducible assumption)
    | with_reducible refine use_stopped ?_ (by with_reducible assumption)
    | with_reducible refine use_waits ?_ (by with_reducible assumption)
    | split
    | simp only [keeps_mk]
    | dsimp only

theorem sortPath_keeps {s0 : State} (s : State) (die : Nat) (f : YFld) (wad : Bool) (sorted : List (Nat × Nat)) (h_s : Keeps s0 s) : Keeps s0 (State.sortPath s die f wad sorted) := by
  rw [State.sortPath.eq_def]; try dsimp only
  repeat' first
    | with_reducible assumption
    | intro _
    | with_reducible apply bump_keeps
    | with_reducible apply freeBytes_keeps
    | with_reducible apply ledBump_keeps
    | with_reducible apply ywrite_keeps
    | dsimp only

theorem weight_keeps {s0 : State} (s : State) (die : Nat) (f : YFld) (j : Nat) (h_s : Keeps s0 s) : Keeps s0 (State.weight s die f j).2 := by
  rw [State.weight.eq_def]; try dsimp only
  repeat' first
    | with_reducible assumption
    | with_reducible apply yread_keeps
    | dsimp only

theorem bagReadout_keeps {s0 : State} (s : State) (die : Nat) (y : YDesc) (n b : Nat) (h_s : Keeps s0 s) : Keeps s0 (State.bagReadout s die y n b) := by
  rw [State.bagReadout.eq_def]; try dsimp only
  repeat' first
    | with_reducible assumption
    | intro _
    | with_reducible apply actMem_keeps
    | with_reducible apply countEvents_keeps
    | with_reducible apply ywrite_keeps
    | dsimp only

theorem pool_keeps {s0 : State} (s : State) (die id n : Nat) (fmt : Fmt) (vs : List FV) (j : Nat) (h_s : Keeps s0 s) : Keeps s0 (State.pool s die id n fmt vs j) := by
  rw [State.pool.eq_def]; try dsimp only
  repeat' first
    | with_reducible assumption
    | intro _
    | with_reducible apply ite_keeps
    | with_reducible apply ite_opt
    | with_reducible apply some_keeps
    | with_reducible apply none_keeps
    | with_reducible apply fields_keep
    | with_reducible apply act_keeps
    | with_reducible apply actMem_keeps
    | with_reducible apply bagReadout_keeps
    | with_reducible apply countEvents_keeps
    | with_reducible apply updYdesc_keeps
    | with_reducible apply weight_keeps
    | with_reducible apply ywrite_keeps
    | with_reducible apply foldl_to_keeps BusRead.st
    | with_reducible apply foldl_keeps
    | with_reducible apply foldl_snd_keeps
    | with_reducible apply foldl_fst_keeps
    | with_reducible refine use_some ?_ (by with_reducible assumption)
    | split
    | simp only [keeps_mk]
    | dsimp only

theorem unitArrived_keeps {s0 : State} (s : State) (die id u : Nat) (bs : List Byte) (h_s : Keeps s0 s) : Keeps s0 (State.unitArrived s die id u bs) := by
  rw [State.unitArrived.eq_def]; try dsimp only
  repeat' first
    | with_reducible assumption
    | intro _
    | with_reducible apply ite_keeps
    | with_reducible apply ite_opt
    | with_reducible apply some_keeps
    | with_reducible apply none_keeps
    | with_reducible apply fields_keep
    | with_reducible apply countEvents_keeps
    | with_reducible apply pool_keeps
    | with_reducible apply foldl_to_keeps BusRead.st
    | with_reducible apply foldl_keeps
    | with_reducible apply foldl_snd_keeps
    | with_reducible apply foldl_fst_keeps
    | with_reducible refine use_some ?_ (by with_reducible assumption)
    | split
    | simp only [keeps_mk]
    | dsimp only

theorem unitBytes_keeps {s0 : State} (s : State) (die id u i : Nat) (bs : List Byte) (h_s : Keeps s0 s) : Keeps s0 (State.unitBytes s die id u i bs) := by
  rw [State.unitBytes.eq_def]; try dsimp only
  repeat' first
    | with_reducible assumption
    | intro _
    | with_reducible apply ite_keeps
    | with_reducible apply ite_opt
    | with_reducible apply some_keeps
    | with_reducible apply none_keeps
    | with_reducible apply fields_keep
    | with_reducible apply unitArrived_keeps
    | with_reducible apply updYdesc_keeps
    | with_reducible refine use_some ?_ (by with_reducible assumption)
    | split
    | simp only [keeps_mk]
    | dsimp only

theorem scatterSums_keeps {s0 : State} (s : State) (die : Nat) (y : YDesc) (n : Nat) (wexp : Int) (pos : List Nat) (h_s : Keeps s0 s) : Keeps s0 (State.scatterSums s die y n wexp pos).2.2 := by
  rw [State.scatterSums.eq_def]; try dsimp only
  repeat' first
    | with_reducible assumption
    | intro _
    | with_reducible apply ite_keeps
    | with_reducible apply ite_out
    | with_reducible apply ite_opt
    | with_reducible apply next_keeps
    | with_reducible apply some_keeps
    | with_reducible apply none_keeps
    | with_reducible apply fields_keep
    | with_reducible apply fields_upset
    | with_reducible apply fields_filter
    | simp only [torn_counter]
    | with_reducible apply fields_reset
    | with_reducible apply fields_reset_regs
    | with_reducible apply act_keeps
    | with_reducible apply actMem_keeps
    | with_reducible apply pool_keeps
    | with_reducible apply weight_keeps
    | with_reducible apply yread_keeps
    | with_reducible apply foldl_to_keeps BusRead.st
    | with_reducible apply done_keeps
    | with_reducible apply miss_keeps
    | with_reducible apply stopped_keeps
    | with_reducible apply waits_keeps
    | with_reducible refine use_done ?_ (by with_reducible assumption)
    | with_reducible refine use_miss ?_ (by with_reducible assumption)
    | with_reducible refine use_stopped ?_ (by with_reducible assumption)
    | with_reducible refine use_waits ?_ (by with_reducible assumption)
    | with_reducible apply foldl_keeps
    | with_reducible apply foldl_snd_keeps
    | with_reducible apply foldl_opt_keeps
    | with_reducible apply foldl_snd2_keeps
    | with_reducible apply foldl_fst_keeps
    | with_reducible apply getD_keeps
    | with_reducible apply somep_keeps
    | with_reducible apply nonep_keeps
    | with_reducible refine of_some (by with_reducible assumption)
    | with_reducible refine use_pair ?_ (by with_reducible assumption)
    | with_reducible refine use_some ?_ (by with_reducible assumption)
    | split
    | simp only [keeps_mk]
    | dsimp only

theorem sendRowAdd_keeps {s0 : State} (s : State) (die id u : Nat) (h_s : Keeps s0 s) : Keeps s0 (State.sendRowAdd s die id u) := by
  rw [State.sendRowAdd.eq_def]; try dsimp only
  repeat' first
    | with_reducible assumption
    | intro _
    | with_reducible apply ite_keeps
    | with_reducible apply ite_opt
    | with_reducible apply some_keeps
    | with_reducible apply none_keeps
    | with_reducible apply fields_keep
    | with_reducible apply ask_keeps
    | with_reducible apply bump_keeps
    | with_reducible apply countEvents_keeps
    | with_reducible apply scatterSums_keeps
    | with_reducible apply updYdesc_keeps
    | with_reducible refine use_some ?_ (by with_reducible assumption)
    | split
    | simp only [keeps_mk]
    | dsimp only

theorem driftReport_keeps {s0 : State} (s : State) (group table shard ver bank : Nat) (h_s : Keeps s0 s) : Keeps s0 (State.driftReport s group table shard ver bank) := by
  rw [State.driftReport.eq_def]; try dsimp only
  repeat' first
    | with_reducible assumption
    | intro _
    | with_reducible apply ite_keeps
    | with_reducible apply ite_opt
    | with_reducible apply some_keeps
    | with_reducible apply none_keeps
    | with_reducible apply fields_keep
    | with_reducible apply abortCourse_keeps
    | with_reducible apply cause_keeps
    | with_reducible apply detail_keeps
    | with_reducible apply ledSet_keeps
    | with_reducible apply set_keeps
    | with_reducible apply setCourse_keeps
    | with_reducible refine use_some ?_ (by with_reducible assumption)
    | split
    | simp only [keeps_mk]
    | dsimp only

theorem reportShards_keeps {s0 : State} (s : State) (y : YDesc) (h_s : Keeps s0 s) : Keeps s0 (State.reportShards s y) := by
  rw [State.reportShards.eq_def]; try dsimp only
  repeat' first
    | with_reducible assumption
    | intro _
    | with_reducible apply driftReport_keeps
    | with_reducible apply foldl_to_keeps BusRead.st
    | with_reducible apply foldl_keeps
    | with_reducible apply foldl_snd_keeps
    | with_reducible apply foldl_fst_keeps
    | split
    | dsimp only

theorem noteSent_keeps {s0 : State} (s : State) (die id : Nat) (w : YWork) (h_s : Keeps s0 s) : Keeps s0 (State.noteSent s die id w) := by
  rw [State.noteSent.eq_def]; try dsimp only
  repeat' first
    | with_reducible assumption
    | intro _
    | with_reducible apply fields_keep
    | with_reducible apply updYdesc_keeps
    | simp only [keeps_mk]
    | dsimp only

theorem issueLine_keeps {s0 : State} (s : State) (die id u i : Nat) (y : YDesc) (x : YUnit) (h_s : Keeps s0 s) : Keeps s0 (State.issueLine s die id u i y x) := by
  rw [State.issueLine.eq_def]; try dsimp only
  repeat' first
    | with_reducible assumption
    | intro _
    | with_reducible apply ite_keeps
    | with_reducible apply ite_opt
    | with_reducible apply none_keeps
    | with_reducible apply bump_keeps
    | with_reducible apply failDesc_keeps
    | with_reducible apply noteSent_keeps
    | with_reducible apply raise_keeps
    | with_reducible apply shardLoad_keeps
    | split
    | dsimp only

theorem issuePart_keeps {s0 : State} (s : State) (die id k : Nat) (y : YDesc) (p : YPart) (h_s : Keeps s0 s) : Keeps s0 (State.issuePart s die id k y p) := by
  rw [State.issuePart.eq_def]; try dsimp only
  repeat' first
    | with_reducible assumption
    | intro _
    | with_reducible apply ite_keeps
    | with_reducible apply fields_keep
    | with_reducible apply ask_keeps
    | with_reducible apply bump_keeps
    | with_reducible apply updYdesc_keeps
    | split
    | simp only [keeps_mk]
    | dsimp only

theorem tryWork_keeps {s0 : State} (s : State) (die id : Nat) (w : YWork) (h_s : Keeps s0 s) : Keeps s0 (State.tryWork s die id w).1 := by
  rw [State.tryWork.eq_def]; try dsimp only
  repeat' first
    | with_reducible assumption
    | intro _
    | with_reducible apply ite_keeps
    | with_reducible apply ite_opt
    | with_reducible apply some_keeps
    | with_reducible apply none_keeps
    | with_reducible apply fields_keep
    | with_reducible apply bump_keeps
    | with_reducible apply issueLine_keeps
    | with_reducible apply issuePart_keeps
    | with_reducible apply noteSent_keeps
    | with_reducible apply set_keeps
    | with_reducible apply syncYlm_keeps
    | with_reducible apply updYdesc_keeps
    | with_reducible refine use_some ?_ (by with_reducible assumption)
    | split
    | simp only [keeps_mk]
    | dsimp only

theorem workThrough_keeps {s0 : State} (die id : Nat) (x0 : List YWork) (x1 : State) (x2 : List YWork) (h_x1 : Keeps s0 x1) : Keeps s0 (workThrough die id x0 x1 x2).1 := by
  induction x0 generalizing die id x1 x2 with
  | nil =>
    rw [workThrough.eq_def]; try dsimp only
    repeat' first
      | with_reducible assumption
      | intro _
      | with_reducible apply tryWork_keeps
      | with_reducible apply ih
      | split
      | dsimp only
  | cons a l ih =>
    rw [workThrough.eq_def]; try dsimp only
    repeat' first
      | with_reducible assumption
      | intro _
      | with_reducible apply tryWork_keeps
      | with_reducible apply ih
      | split
      | dsimp only

theorem pumpOnce_keeps {s0 : State} (s : State) (die id : Nat) (h_s : Keeps s0 s) : Keeps s0 (State.pumpOnce s die id) := by
  rw [State.pumpOnce.eq_def]; try dsimp only
  repeat' first
    | with_reducible assumption
    | intro _
    | with_reducible apply ite_keeps
    | with_reducible apply ite_opt
    | with_reducible apply some_keeps
    | with_reducible apply none_keeps
    | with_reducible apply fields_keep
    | with_reducible apply updYdesc_keeps
    | with_reducible apply workThrough_keeps
    | with_reducible refine use_some ?_ (by with_reducible assumption)
    | split
    | simp only [keeps_mk]
    | dsimp only

theorem pump_keeps {s0 : State} (s : State) (die : Nat) (h_s : Keeps s0 s) : Keeps s0 (State.pump s die) := by
  rw [State.pump.eq_def]; try dsimp only
  repeat' first
    | with_reducible assumption
    | intro _
    | with_reducible apply pumpOnce_keeps
    | with_reducible apply foldl_to_keeps BusRead.st
    | with_reducible apply foldl_keeps
    | with_reducible apply foldl_snd_keeps
    | with_reducible apply foldl_fst_keeps
    | dsimp only

/-! ## Machine/Yealm.lean -/

theorem setWork_keeps {s0 : State} (s : State) (die id : Nat) (units : List YUnit) (parts : List YPart) (todo : List YWork) (h_s : Keeps s0 s) : Keeps s0 (State.setWork s die id units parts todo) := by
  rw [State.setWork.eq_def]; try dsimp only
  repeat' first
    | with_reducible assumption
    | intro _
    | with_reducible apply fields_keep
    | with_reducible apply updYdesc_keeps
    | simp only [keeps_mk]
    | dsimp only

theorem planSlots_keeps {s0 : State} (s : State) (die : Nat) (f : YFld) (h_s : Keeps s0 s) : Keeps s0 (State.planSlots s die f).2 := by
  rw [State.planSlots.eq_def]; try dsimp only
  repeat' first
    | with_reducible assumption
    | intro _
    | with_reducible apply ite_keeps
    | with_reducible apply ite_opt
    | with_reducible apply some_keeps
    | with_reducible apply none_keeps
    | with_reducible apply bump_keeps
    | with_reducible apply yread_keeps
    | with_reducible refine use_some ?_ (by with_reducible assumption)
    | split
    | dsimp only

theorem emptyBags_keeps {s0 : State} (s : State) (die : Nat) (y : YDesc) (n : Nat) (h_s : Keeps s0 s) : Keeps s0 (State.emptyBags s die y n) := by
  rw [State.emptyBags.eq_def]; try dsimp only
  repeat' first
    | with_reducible assumption
    | intro _
    | with_reducible apply bump_keeps
    | with_reducible apply ledBump_keeps
    | with_reducible apply ywrite_keeps
    | with_reducible apply foldl_to_keeps BusRead.st
    | with_reducible apply foldl_keeps
    | with_reducible apply foldl_snd_keeps
    | with_reducible apply foldl_fst_keeps
    | dsimp only

theorem startRows_keeps {s0 : State} (s : State) (die id : Nat) (g : List (Nat × List Nat)) (h_s : Keeps s0 s) : Keeps s0 (State.startRows s die id g) := by
  rw [State.startRows.eq_def]; try dsimp only
  repeat' first
    | with_reducible assumption
    | intro _
    | with_reducible apply ite_keeps
    | with_reducible apply ite_opt
    | with_reducible apply some_keeps
    | with_reducible apply none_keeps
    | with_reducible apply fields_keep
    | with_reducible apply emptyBags_keeps
    | with_reducible apply planSlots_keeps
    | with_reducible apply reportShards_keeps
    | with_reducible apply setWork_keeps
    | with_reducible apply getD_keeps
    | with_reducible refine use_some ?_ (by with_reducible assumption)
    | split
    | simp only [keeps_mk]
    | dsimp only

theorem copyToken_keeps {s0 : State} (s : State) (die id : Nat) (y : YDesc) (fa : Nat) (bs : List Byte) (h_s : Keeps s0 s) : Keeps s0 (State.copyToken s die id y fa bs) := by
  rw [State.copyToken.eq_def]; try dsimp only
  repeat' first
    | with_reducible assumption
    | intro _
    | with_reducible apply ite_keeps
    | with_reducible apply fields_keep
    | with_reducible apply actMem_keeps
    | with_reducible apply bump_keeps
    | with_reducible apply fabStore_keeps
    | with_reducible apply updYdesc_keeps
    | with_reducible apply ywrite_keeps
    | split
    | simp only [keeps_mk]
    | dsimp only

theorem startDispatch_keeps {s0 : State} (s : State) (die id : Nat) (y : YDesc) (l : List Byte) (good : List (Nat × Nat)) (h_s : Keeps s0 s) : Keeps s0 (State.startDispatch s die id y l good) := by
  rw [State.startDispatch.eq_def]; try dsimp only
  repeat' first
    | with_reducible assumption
    | intro _
    | with_reducible apply ite_keeps
    | with_reducible apply ite_opt
    | with_reducible apply some_keeps
    | with_reducible apply none_keeps
    | with_reducible apply fields_keep
    | with_reducible apply actMem_keeps
    | with_reducible apply bump_keeps
    | with_reducible apply copyToken_keeps
    | with_reducible apply failDesc_keeps
    | with_reducible apply ledBump_keeps
    | with_reducible apply raise_keeps
    | with_reducible apply yread_keeps
    | with_reducible apply ywrite_keeps
    | with_reducible apply foldl_to_keeps BusRead.st
    | with_reducible apply foldl_keeps
    | with_reducible apply foldl_snd_keeps
    | with_reducible apply foldl_fst_keeps
    | with_reducible refine use_some ?_ (by with_reducible assumption)
    | split
    | simp only [keeps_mk]
    | dsimp only

theorem startCombine_keeps {s0 : State} (s : State) (die id : Nat) (y : YDesc) (l : List Byte) (good : List (Nat × Nat)) (h_s : Keeps s0 s) : Keeps s0 (State.startCombine s die id y l good) := by
  rw [State.startCombine.eq_def]; try dsimp only
  repeat' first
    | with_reducible assumption
    | intro _
    | with_reducible apply ite_keeps
    | with_reducible apply ite_opt
    | with_reducible apply some_keeps
    | with_reducible apply none_keeps
    | with_reducible apply fields_keep
    | with_reducible apply emptyBags_keeps
    | with_reducible apply failDesc_keeps
    | with_reducible apply setWork_keeps
    | with_reducible apply yread_keeps
    | with_reducible apply getD_keeps
    | with_reducible refine use_some ?_ (by with_reducible assumption)
    | split
    | simp only [keeps_mk]
    | dsimp only

theorem startLists_keeps {s0 : State} (s : State) (die id : Nat) (h_s : Keeps s0 s) : Keeps s0 (State.startLists s die id) := by
  rw [State.startLists.eq_def]; try dsimp only
  repeat' first
    | with_reducible assumption
    | intro _
    | with_reducible apply ite_keeps
    | with_reducible apply ite_opt
    | with_reducible apply some_keeps
    | with_reducible apply none_keeps
    | with_reducible apply fields_keep
    | with_reducible apply actMem_keeps
    | with_reducible apply bump_keeps
    | with_reducible apply failDesc_keeps
    | with_reducible apply ledBump_keeps
    | with_reducible apply sortPath_keeps
    | with_reducible apply startCombine_keeps
    | with_reducible apply startDispatch_keeps
    | with_reducible apply startRows_keeps
    | with_reducible apply updYdesc_keeps
    | with_reducible apply yread_keeps
    | with_reducible refine use_some ?_ (by with_reducible assumption)
    | split
    | simp only [keeps_mk]
    | dsimp only

theorem startDesc_keeps {s0 : State} (s : State) (die id : Nat) (h_s : Keeps s0 s) : Keeps s0 (State.startDesc s die id) := by
  rw [State.startDesc.eq_def]; try dsimp only
  repeat' first
    | with_reducible assumption
    | intro _
    | with_reducible apply ite_keeps
    | with_reducible apply ite_opt
    | with_reducible apply some_keeps
    | with_reducible apply none_keeps
    | with_reducible apply fields_keep
    | with_reducible apply failDesc_keeps
    | with_reducible apply raise_keeps
    | with_reducible apply startLists_keeps
    | with_reducible apply syncYlm_keeps
    | with_reducible apply updYdesc_keeps
    | with_reducible apply getD_keeps
    | with_reducible refine use_some ?_ (by with_reducible assumption)
    | split
    | simp only [keeps_mk]
    | dsimp only

theorem startDescs_keeps {s0 : State} (die : Nat) (x0 : Nat) (x1 : State) (h_x1 : Keeps s0 x1) : Keeps s0 (startDescs die x0 x1) := by
  induction x0 generalizing die x1 with
  | zero =>
    rw [startDescs.eq_def]; try dsimp only
    repeat' first
      | with_reducible assumption
      | intro _
      | with_reducible apply ite_keeps
      | with_reducible apply ite_opt
      | with_reducible apply some_keeps
      | with_reducible apply none_keeps
      | with_reducible apply fields_keep
      | with_reducible apply startDesc_keeps
      | with_reducible apply ih
      | with_reducible refine use_some ?_ (by with_reducible assumption)
      | split
      | simp only [keeps_mk]
      | dsimp only
  | succ n ih =>
    rw [startDescs.eq_def]; try dsimp only
    repeat' first
      | with_reducible assumption
      | intro _
      | with_reducible apply ite_keeps
      | with_reducible apply ite_opt
      | with_reducible apply some_keeps
      | with_reducible apply none_keeps
      | with_reducible apply fields_keep
      | with_reducible apply startDesc_keeps
      | with_reducible apply ih
      | with_reducible refine use_some ?_ (by with_reducible assumption)
      | split
      | simp only [keeps_mk]
      | dsimp only

theorem ylmGo_keeps {s0 : State} (s : State) (die : Nat) (h_s : Keeps s0 s) : Keeps s0 (State.ylmGo s die) := by
  rw [State.ylmGo.eq_def]; try dsimp only
  repeat' first
    | with_reducible assumption
    | with_reducible apply pump_keeps
    | with_reducible apply startDescs_keeps
    | dsimp only

theorem ylmReceive_keeps {s0 : State} (s : State) (die q addr : Nat) (cmd : Option (Nat × Nat)) (item : Option Nat) (own : Bool) (drift : Nat) (plan : Option Nat) (wad : Bool) (h_s : Keeps s0 s) : Keeps s0 (State.ylmReceive s die q addr cmd item own drift plan wad) := by
  rw [State.ylmReceive.eq_def]; try dsimp only
  repeat' first
    | with_reducible assumption
    | intro _
    | with_reducible apply ite_keeps
    | with_reducible apply ite_opt
    | with_reducible apply some_keeps
    | with_reducible apply none_keeps
    | with_reducible apply fields_keep
    | with_reducible apply readMem_keeps
    | with_reducible apply setYdescs_keeps
    | with_reducible apply ylmGo_keeps
    | with_reducible apply getD_keeps
    | with_reducible refine use_some ?_ (by with_reducible assumption)
    | split
    | simp only [keeps_mk]
    | dsimp only

theorem execYlmRun_keeps {s0 : State} (q : Fin 16384) (seq : Nat) (s : State) (h_s : Keeps s0 s) : OutKeeps s0 (execYlmRun q seq s) := by
  rw [execYlmRun.eq_def]; try dsimp only
  repeat' first
    | with_reducible assumption
    | intro _
    | with_reducible apply ite_keeps
    | with_reducible apply ite_out
    | with_reducible apply ite_opt
    | with_reducible apply next_keeps
    | with_reducible apply some_keeps
    | with_reducible apply none_keeps
    | with_reducible apply cmdWaits_keeps
    | with_reducible apply needA_keeps
    | with_reducible apply needMem_keeps
    | with_reducible apply runCmd_keeps
    | with_reducible apply ylmReceive_keeps
    | with_reducible refine use_some ?_ (by with_reducible assumption)
    | split
    | dsimp only

theorem unsend_keeps {s0 : State} (s : State) (die : Nat) (p : Nat × YWork) (h_s : Keeps s0 s) : Keeps s0 (State.unsend s die p) := by
  rw [State.unsend.eq_def]; try dsimp only
  repeat' first
    | with_reducible assumption
    | intro _
    | with_reducible apply fields_keep
    | with_reducible apply syncYlm_keeps
    | with_reducible apply updYdesc_keeps
    | simp only [keeps_mk]
    | dsimp only

theorem execLineResponse_keeps {s0 : State} (die : Fin 8) (pick : Nat) (s : State) (h_s : Keeps s0 s) : OutKeeps s0 (execLineResponse die pick s) := by
  rw [execLineResponse.eq_def]; try dsimp only
  repeat' first
    | with_reducible assumption
    | intro _
    | with_reducible apply ite_keeps
    | with_reducible apply ite_out
    | with_reducible apply ite_opt
    | with_reducible apply next_keeps
    | with_reducible apply some_keeps
    | with_reducible apply none_keeps
    | with_reducible apply fields_keep
    | with_reducible apply actMem_keeps
    | with_reducible apply pump_keeps
    | with_reducible apply readMem_keeps
    | with_reducible apply sendRowAdd_keeps
    | with_reducible apply unitBytes_keeps
    | with_reducible apply unsend_keeps
    | with_reducible refine use_some ?_ (by with_reducible assumption)
    | split
    | simp only [keeps_mk]
    | dsimp only

theorem partArrived_keeps {s0 : State} (s : State) (die id k : Nat) (chunks : List (List Byte)) (h_s : Keeps s0 s) : Keeps s0 (State.partArrived s die id k chunks) := by
  rw [State.partArrived.eq_def]; try dsimp only
  repeat' first
    | with_reducible assumption
    | intro _
    | with_reducible apply ite_keeps
    | with_reducible apply ite_opt
    | with_reducible apply some_keeps
    | with_reducible apply none_keeps
    | with_reducible apply fields_keep
    | with_reducible apply pump_keeps
    | with_reducible apply syncYlm_keeps
    | with_reducible apply unitBytes_keeps
    | with_reducible apply updYdesc_keeps
    | with_reducible apply foldl_to_keeps BusRead.st
    | with_reducible apply foldl_keeps
    | with_reducible apply foldl_snd_keeps
    | with_reducible apply foldl_fst_keeps
    | with_reducible refine use_some ?_ (by with_reducible assumption)
    | split
    | simp only [keeps_mk]
    | dsimp only

theorem freeOutputs_keeps {s0 : State} (s : State) (die : Nat) (y : YDesc) (h_s : Keeps s0 s) : Keeps s0 (State.freeOutputs s die y) := by
  rw [State.freeOutputs.eq_def]; try dsimp only
  repeat' first
    | with_reducible assumption
    | intro _
    | with_reducible apply ite_keeps
    | with_reducible apply freeBytes_keeps
    | with_reducible apply ywrite_keeps
    | with_reducible apply foldl_to_keeps BusRead.st
    | with_reducible apply foldl_keeps
    | with_reducible apply foldl_snd_keeps
    | with_reducible apply foldl_fst_keeps
    | split
    | dsimp only

theorem endDesc_keeps {s0 : State} (s : State) (die : Nat) (y : YDesc) (st : Nat) (h_s : Keeps s0 s) : Keeps s0 (State.endDesc s die y st) := by
  rw [State.endDesc.eq_def]; try dsimp only
  repeat' first
    | with_reducible assumption
    | intro _
    | with_reducible apply ite_keeps
    | with_reducible apply ite_opt
    | with_reducible apply some_keeps
    | with_reducible apply none_keeps
    | with_reducible apply fields_keep
    | with_reducible apply complete_keeps
    | with_reducible apply detail_keeps
    | with_reducible apply itemDone_keeps
    | with_reducible apply set_keeps
    | with_reducible apply setYdescs_keeps
    | with_reducible apply syncYlm_keeps
    | with_reducible apply withWaiting_keeps
    | with_reducible refine use_some ?_ (by with_reducible assumption)
    | split
    | simp only [keeps_mk]
    | dsimp only

theorem execDescriptorComplete_keeps {s0 : State} (die : Fin 8) (q : Fin 16384) (s : State) (h_s : Keeps s0 s) : OutKeeps s0 (execDescriptorComplete die q s) := by
  rw [execDescriptorComplete.eq_def]; try dsimp only
  repeat' first
    | with_reducible assumption
    | intro _
    | with_reducible apply ite_keeps
    | with_reducible apply ite_out
    | with_reducible apply ite_opt
    | with_reducible apply next_keeps
    | with_reducible apply some_keeps
    | with_reducible apply none_keeps
    | with_reducible apply fields_keep
    | with_reducible apply endDesc_keeps
    | with_reducible apply freeOutputs_keeps
    | with_reducible apply ylmGo_keeps
    | with_reducible refine use_some ?_ (by with_reducible assumption)
    | split
    | simp only [keeps_mk]
    | dsimp only

theorem preemptYealm_keeps {s0 : State} (s : State) (h_s : Keeps s0 s) : Keeps s0 (State.preemptYealm s) := by
  rw [State.preemptYealm.eq_def]; try dsimp only
  repeat' first
    | with_reducible assumption
    | intro _
    | with_reducible apply endDesc_keeps
    | with_reducible apply ylmGo_keeps
    | with_reducible apply foldl_to_keeps BusRead.st
    | with_reducible apply foldl_keeps
    | with_reducible apply foldl_snd_keeps
    | with_reducible apply foldl_fst_keeps
    | dsimp only

theorem planOf_keeps {s0 : State} (s : State) (die : Nat) (b : List Byte) (h_s : Keeps s0 s) : Keeps s0 (State.planOf s die b).2 := by
  rw [State.planOf.eq_def]; try dsimp only
  repeat' first
    | with_reducible assumption
    | intro _
    | with_reducible apply ite_keeps
    | with_reducible apply ite_opt
    | with_reducible apply some_keeps
    | with_reducible apply none_keeps
    | with_reducible apply fields_keep
    | with_reducible apply bump_keeps
    | with_reducible apply sortPath_keeps
    | with_reducible apply yread_keeps
    | with_reducible refine use_some ?_ (by with_reducible assumption)
    | split
    | simp only [keeps_mk]
    | dsimp only

theorem plansOf_keeps {s0 : State} (die : Nat) (x0 : List (List Byte)) (x1 : State) (h_x1 : Keeps s0 x1) : Keeps s0 (plansOf die x0 x1).2 := by
  induction x0 generalizing die x1 with
  | nil =>
    rw [plansOf.eq_def]; try dsimp only
    repeat' first
      | with_reducible assumption
      | intro _
      | with_reducible apply some_keeps
      | with_reducible apply none_keeps
      | with_reducible apply fields_keep
      | with_reducible apply planOf_keeps
      | with_reducible apply ih
      | with_reducible refine use_some ?_ (by with_reducible assumption)
      | split
      | simp only [keeps_mk]
      | dsimp only
  | cons a l ih =>
    rw [plansOf.eq_def]; try dsimp only
    repeat' first
      | with_reducible assumption
      | intro _
      | with_reducible apply some_keeps
      | with_reducible apply none_keeps
      | with_reducible apply fields_keep
      | with_reducible apply planOf_keeps
      | with_reducible apply ih
      | with_reducible refine use_some ?_ (by with_reducible assumption)
      | split
      | simp only [keeps_mk]
      | dsimp only

theorem endPrefetch_keeps {s0 : State} (s : State) (p : Prefetch) (h_s : Keeps s0 s) : Keeps s0 (State.endPrefetch s p) := by
  rw [State.endPrefetch.eq_def]; try dsimp only
  repeat' first
    | with_reducible assumption
    | intro _
    | with_reducible apply ite_keeps
    | with_reducible apply ite_opt
    | with_reducible apply some_keeps
    | with_reducible apply none_keeps
    | with_reducible apply fields_keep
    | with_reducible apply succeed_keeps
    | with_reducible apply withWaiting_keeps
    | with_reducible apply ywrite_keeps
    | with_reducible apply foldl_to_keeps BusRead.st
    | with_reducible apply foldl_keeps
    | with_reducible apply foldl_snd_keeps
    | with_reducible apply foldl_fst_keeps
    | with_reducible apply getD_keeps
    | with_reducible refine use_some ?_ (by with_reducible assumption)
    | split
    | simp only [keeps_mk]
    | dsimp only

theorem settlePrefetch_keeps {s0 : State} (s : State) (h_s : Keeps s0 s) : Keeps s0 (State.settlePrefetch s) := by
  rw [State.settlePrefetch.eq_def]; try dsimp only
  repeat' first
    | with_reducible assumption
    | intro _
    | with_reducible apply endPrefetch_keeps
    | with_reducible apply foldl_to_keeps BusRead.st
    | with_reducible apply foldl_keeps
    | with_reducible apply foldl_snd_keeps
    | with_reducible apply foldl_fst_keeps
    | dsimp only

theorem failPrefetch_keeps {s0 : State} (s : State) (c : Cmd) (st detail : Nat) (h_s : Keeps s0 s) : Keeps s0 (State.failPrefetch s c st detail) := by
  rw [State.failPrefetch.eq_def]; try dsimp only
  repeat' first
    | with_reducible assumption
    | with_reducible apply detail_keeps
    | with_reducible apply fail_keeps
    | dsimp only

theorem execYlmPrefetch_keeps {s0 : State} (q : Fin 16384) (seq : Nat) (s : State) (h_s : Keeps s0 s) : OutKeeps s0 (execYlmPrefetch q seq s) := by
  rw [execYlmPrefetch.eq_def]; try dsimp only
  repeat' first
    | with_reducible assumption
    | intro _
    | with_reducible apply ite_keeps
    | with_reducible apply ite_out
    | with_reducible apply ite_opt
    | with_reducible apply next_keeps
    | with_reducible apply some_keeps
    | with_reducible apply none_keeps
    | with_reducible apply fields_keep
    | with_reducible apply cmdWaits_keeps
    | with_reducible apply failPrefetch_keeps
    | with_reducible apply needA_keeps
    | with_reducible apply needMem_keeps
    | with_reducible apply plansOf_keeps
    | with_reducible apply raise_keeps
    | with_reducible apply runCmd_keeps
    | with_reducible apply settlePrefetch_keeps
    | with_reducible apply yread_keeps
    | with_reducible apply foldl_to_keeps BusRead.st
    | with_reducible apply foldl_keeps
    | with_reducible apply foldl_snd_keeps
    | with_reducible apply foldl_fst_keeps
    | with_reducible refine use_some ?_ (by with_reducible assumption)
    | split
    | simp only [keeps_mk]
    | dsimp only

theorem setStageRows_keeps {s0 : State} (s : State) (die : Nat) (l : List StageRow) (h_s : Keeps s0 s) : Keeps s0 (State.setStageRows s die l) := by
  rw [State.setStageRows.eq_def]; try dsimp only
  repeat' first
    | with_reducible assumption
    | with_reducible apply fields_keep
    | with_reducible apply syncYlm_keeps
    | simp only [keeps_mk]
    | dsimp only

theorem execStageRows_keeps {s0 : State} (die : Fin 8) (s : State) (h_s : Keeps s0 s) : OutKeeps s0 (execStageRows die s) := by
  rw [execStageRows.eq_def]; try dsimp only
  repeat' first
    | with_reducible assumption
    | intro _
    | with_reducible apply ite_keeps
    | with_reducible apply ite_out
    | with_reducible apply ite_opt
    | with_reducible apply next_keeps
    | with_reducible apply some_keeps
    | with_reducible apply none_keeps
    | with_reducible apply fields_keep
    | with_reducible apply bump_keeps
    | with_reducible apply ledBump_keeps
    | with_reducible apply setStageRows_keeps
    | with_reducible apply settlePrefetch_keeps
    | with_reducible apply take_keeps
    | with_reducible refine use_some ?_ (by with_reducible assumption)
    | split
    | simp only [keeps_mk]
    | dsimp only

theorem execStagingReadIssue_keeps {s0 : State} (die : Fin 8) (s : State) (h_s : Keeps s0 s) : OutKeeps s0 (execStagingReadIssue die s) := by
  rw [execStagingReadIssue.eq_def]; try dsimp only
  repeat' first
    | with_reducible assumption
    | intro _
    | with_reducible apply ite_keeps
    | with_reducible apply ite_out
    | with_reducible apply ite_opt
    | with_reducible apply next_keeps
    | with_reducible apply some_keeps
    | with_reducible apply none_keeps
    | with_reducible apply fields_keep
    | with_reducible apply bump_keeps
    | with_reducible apply engineWrite_keeps
    | with_reducible apply setStageRows_keeps
    | with_reducible apply shardLoad_keeps
    | with_reducible refine use_some ?_ (by with_reducible assumption)
    | split
    | simp only [keeps_mk]
    | dsimp only

theorem execStagingCopyDone_keeps {s0 : State} (die : Fin 8) (s : State) (h_s : Keeps s0 s) : OutKeeps s0 (execStagingCopyDone die s) := by
  rw [execStagingCopyDone.eq_def]; try dsimp only
  repeat' first
    | with_reducible assumption
    | intro _
    | with_reducible apply next_keeps
    | with_reducible apply some_keeps
    | with_reducible apply none_keeps
    | with_reducible apply fields_keep
    | with_reducible apply bump_keeps
    | with_reducible apply engineRead_keeps
    | with_reducible apply engineWrite_keeps
    | with_reducible apply pump_keeps
    | with_reducible apply setStageRows_keeps
    | with_reducible apply foldl_to_keeps BusRead.st
    | with_reducible apply foldl_keeps
    | with_reducible apply foldl_snd_keeps
    | with_reducible apply foldl_fst_keeps
    | with_reducible refine use_some ?_ (by with_reducible assumption)
    | split
    | simp only [keeps_mk]
    | dsimp only

theorem stagingFolded_keeps {s0 : State} (s : State) (h_s : Keeps s0 s) : Keeps s0 (State.stagingFolded s) := by
  rw [State.stagingFolded.eq_def]; try dsimp only
  repeat' first
    | with_reducible assumption
    | intro _
    | with_reducible apply ite_keeps
    | with_reducible apply fields_keep
    | split
    | simp only [keeps_mk]
    | dsimp only

end Sys2Proof.Laws
end

