-- ==== Sys2Proof/Laws/KeepsFrame.lean ====
section
/-! SUPPORT. Every operation of the frame, the domain, courses and fabric messages keeps the canonical forms and the
queue of commands. -/
set_option linter.all false
namespace Sys2Proof.Laws
open Sys2Proof.Machine

/-! ## Machine/Frame.lean -/

theorem updFrame_keeps {s0 : State} (s : State) (f : Frame → Frame) (h_s : Keeps s0 s) : Keeps s0 (State.updFrame s f) := by
  rw [State.updFrame.eq_def]; try dsimp only
  repeat' first
    | with_reducible assumption
    | with_reducible apply fields_keep
    | simp only [keeps_mk]
    | dsimp only

theorem eachDie_keeps {s0 : State} (s : State) (f : State → Nat → State) (h_s : Keeps s0 s) (h_f : ∀ (y0 : State) (y1 : Nat), Keeps s0 y0 → Keeps s0 (f y0 y1)) : Keeps s0 (State.eachDie s f) := by
  rw [State.eachDie.eq_def]; try dsimp only
  repeat' first
    | with_reducible assumption
    | intro _
    | with_reducible apply h_f
    | with_reducible apply foldl_to_keeps BusRead.st
    | with_reducible apply foldl_keeps
    | with_reducible apply foldl_snd_keeps
    | with_reducible apply foldl_fst_keeps
    | dsimp only

theorem tellMaster_keeps {s0 : State} (s : State) (msg : Nat) (h_s : Keeps s0 s) : Keeps s0 (State.tellMaster s msg) := by
  rw [State.tellMaster.eq_def]; try dsimp only
  repeat' first
    | with_reducible assumption
    | intro _
    | with_reducible apply some_keeps
    | with_reducible apply none_keeps
    | with_reducible apply fields_keep
    | with_reducible apply ask_keeps
    | with_reducible apply control_keeps
    | with_reducible refine use_some ?_ (by with_reducible assumption)
    | split
    | simp only [keeps_mk]
    | dsimp only

theorem applySettings_keeps {s0 : State} (s : State) (h_s : Keeps s0 s) : Keeps s0 (State.applySettings s) := by
  rw [State.applySettings.eq_def]; try dsimp only
  repeat' first
    | with_reducible assumption
    | intro _
    | with_reducible apply ite_keeps
    | with_reducible apply ite_opt
    | with_reducible apply some_keeps
    | with_reducible apply none_keeps
    | with_reducible apply fields_keep
    | with_reducible apply applyPower_keeps
    | with_reducible apply set_keeps
    | with_reducible apply updFrame_keeps
    | with_reducible apply wr_keeps
    | with_reducible apply foldl_to_keeps BusRead.st
    | with_reducible apply foldl_keeps
    | with_reducible apply foldl_snd_keeps
    | with_reducible apply foldl_fst_keeps
    | with_reducible refine use_some ?_ (by with_reducible assumption)
    | split
    | simp only [keeps_mk]
    | dsimp only

theorem tickSync_keeps {s0 : State} (s : State) (t : Nat) (h_s : Keeps s0 s) : Keeps s0 (State.tickSync s t) := by
  rw [State.tickSync.eq_def]; try dsimp only
  repeat' first
    | with_reducible assumption
    | intro _
    | with_reducible apply ite_keeps
    | with_reducible apply ite_opt
    | with_reducible apply some_keeps
    | with_reducible apply none_keeps
    | with_reducible apply fields_keep
    | with_reducible apply ask_keeps
    | with_reducible apply control_keeps
    | with_reducible apply set_keeps
    | with_reducible apply take_keeps
    | with_reducible apply tell_keeps
    | with_reducible apply updFab_keeps
    | with_reducible apply foldl_to_keeps BusRead.st
    | with_reducible apply foldl_keeps
    | with_reducible apply foldl_snd_keeps
    | with_reducible apply foldl_fst_keeps
    | with_reducible refine use_some ?_ (by with_reducible assumption)
    | split
    | simp only [keeps_mk]
    | dsimp only

theorem preemptAll_keeps {s0 : State} (s : State) (h_s : Keeps s0 s) : Keeps s0 (State.preemptAll s) := by
  rw [State.preemptAll.eq_def]; try dsimp only
  repeat' first
    | with_reducible assumption
    | intro _
    | with_reducible apply fields_keep
    | with_reducible apply completeAll_keeps
    | with_reducible apply launchDone_keeps
    | with_reducible apply preemptWadding_keeps
    | with_reducible apply preemptYealm_keeps
    | with_reducible apply updCl_keeps
    | with_reducible apply foldl_to_keeps BusRead.st
    | with_reducible apply foldl_keeps
    | with_reducible apply foldl_snd_keeps
    | with_reducible apply foldl_fst_keeps
    | simp only [keeps_mk]
    | dsimp only

theorem courseStart_keeps {s0 : State} (s : State) (p : CourseProgram) (h_s : Keeps s0 s) : Keeps s0 (State.courseStart s p) := by
  rw [State.courseStart.eq_def]; try dsimp only
  repeat' first
    | with_reducible assumption
    | intro _
    | with_reducible apply ite_keeps
    | with_reducible apply ite_opt
    | with_reducible apply none_keeps
    | with_reducible apply fields_keep
    | with_reducible apply cause_keeps
    | with_reducible apply delayedScales_keeps
    | with_reducible apply detail_keeps
    | with_reducible apply layerRates_keeps
    | with_reducible apply ledBump_keeps
    | with_reducible apply ledSet_keeps
    | with_reducible apply set_keeps
    | with_reducible apply setCourse_keeps
    | with_reducible apply settleThrottle_keeps
    | with_reducible apply updFrame_keeps
    | with_reducible apply updReplay_keeps
    | with_reducible apply foldl_to_keeps BusRead.st
    | with_reducible apply foldl_keeps
    | with_reducible apply foldl_snd_keeps
    | with_reducible apply foldl_fst_keeps
    | split
    | simp only [keeps_mk]
    | dsimp only

theorem courseTick_keeps {s0 : State} (s : State) (h_s : Keeps s0 s) : Keeps s0 (State.courseTick s) := by
  rw [State.courseTick.eq_def]; try dsimp only
  repeat' first
    | with_reducible assumption
    | intro _
    | with_reducible apply ite_keeps
    | with_reducible apply ite_opt
    | with_reducible apply some_keeps
    | with_reducible apply none_keeps
    | with_reducible apply fields_keep
    | with_reducible apply courseStart_keeps
    | with_reducible apply set_keeps
    | with_reducible apply setCourse_keeps
    | with_reducible refine use_some ?_ (by with_reducible assumption)
    | split
    | simp only [keeps_mk]
    | dsimp only

theorem execTick_keeps {s0 : State} (s : State) (h_s : Keeps s0 s) : OutKeeps s0 (execTick s) := by
  rw [execTick.eq_def]; try dsimp only
  repeat' first
    | with_reducible assumption
    | intro _
    | with_reducible apply ite_keeps
    | with_reducible apply ite_out
    | with_reducible apply ite_opt
    | with_reducible apply next_keeps
    | with_reducible apply none_keeps
    | with_reducible apply fields_keep
    | with_reducible apply advanceTo_keeps
    | with_reducible apply applySettings_keeps
    | with_reducible apply bumpWrap_keeps
    | with_reducible apply courseTick_keeps
    | with_reducible apply dueItems_keeps
    | with_reducible apply preemptAll_keeps
    | with_reducible apply saveViews_keeps
    | with_reducible apply set_keeps
    | with_reducible apply startBatches_keeps
    | with_reducible apply startFlips_keeps
    | with_reducible apply startMoves_keeps
    | with_reducible apply tickSync_keeps
    | with_reducible apply updFrame_keeps
    | split
    | simp only [keeps_mk]
    | dsimp only

theorem execWorkSlotBegin_keeps {s0 : State} (s : State) (h_s : Keeps s0 s) : OutKeeps s0 (execWorkSlotBegin s) := by
  rw [execWorkSlotBegin.eq_def]; try dsimp only
  repeat' first
    | with_reducible assumption
    | intro _
    | with_reducible apply ite_keeps
    | with_reducible apply ite_out
    | with_reducible apply next_keeps
    | with_reducible apply fields_keep
    | with_reducible apply openSlot_keeps
    | with_reducible apply set_keeps
    | with_reducible apply updFrame_keeps
    | split
    | simp only [keeps_mk]
    | dsimp only

theorem issueItem_keeps {s0 : State} (s : State) (i : Nat) (x : CourseItem) (h_s : Keeps s0 s) : Keeps s0 (State.issueItem s i x) := by
  rw [State.issueItem.eq_def]; try dsimp only
  repeat' first
    | with_reducible assumption
    | intro _
    | with_reducible apply ite_keeps
    | with_reducible apply ite_opt
    | with_reducible apply some_keeps
    | with_reducible apply none_keeps
    | with_reducible apply fields_keep
    | with_reducible apply convertTensor_keeps
    | with_reducible apply deliver_keeps
    | with_reducible apply itemDone_keeps
    | with_reducible apply itemEnds_keeps
    | with_reducible apply itemIssued_keeps
    | with_reducible apply raise_keeps
    | with_reducible apply ylmReceive_keeps
    | with_reducible refine use_some ?_ (by with_reducible assumption)
    | split
    | simp only [keeps_mk]
    | dsimp only

theorem execCourseItemIssue_keeps {s0 : State} (i : Nat) (s : State) (h_s : Keeps s0 s) : OutKeeps s0 (execCourseItemIssue i s) := by
  rw [execCourseItemIssue.eq_def]; try dsimp only
  repeat' first
    | with_reducible assumption
    | intro _
    | with_reducible apply ite_keeps
    | with_reducible apply ite_out
    | with_reducible apply ite_opt
    | with_reducible apply next_keeps
    | with_reducible apply some_keeps
    | with_reducible apply none_keeps
    | with_reducible apply fields_keep
    | with_reducible apply issueItem_keeps
    | with_reducible refine use_some ?_ (by with_reducible assumption)
    | split
    | simp only [keeps_mk]
    | dsimp only

theorem noteOverrun_keeps {s0 : State} (s : State) (h_s : Keeps s0 s) : Keeps s0 (State.noteOverrun s) := by
  rw [State.noteOverrun.eq_def]; try dsimp only
  repeat' first
    | with_reducible assumption
    | intro _
    | with_reducible apply ite_keeps
    | with_reducible apply ite_opt
    | with_reducible apply some_keeps
    | with_reducible apply fields_keep
    | with_reducible apply bump_keeps
    | with_reducible apply eachDie_keeps
    | with_reducible apply ledBump_keeps
    | with_reducible apply set_keeps
    | with_reducible apply updFrame_keeps
    | with_reducible refine use_some ?_ (by with_reducible assumption)
    | split
    | simp only [keeps_mk]
    | dsimp only

theorem overrunFault_keeps {s0 : State} (s : State) (h_s : Keeps s0 s) : Keeps s0 (State.overrunFault s) := by
  rw [State.overrunFault.eq_def]; try dsimp only
  repeat' first
    | with_reducible assumption
    | intro _
    | with_reducible apply abortCourse_keeps
    | with_reducible apply eachDie_keeps
    | with_reducible apply set_keeps
    | dsimp only

theorem endWork_keeps {s0 : State} (s : State) (h_s : Keeps s0 s) : Keeps s0 (State.endWork s) := by
  rw [State.endWork.eq_def]; try dsimp only
  repeat' first
    | with_reducible assumption
    | intro _
    | with_reducible apply ite_keeps
    | with_reducible apply ite_opt
    | with_reducible apply none_keeps
    | with_reducible apply fields_keep
    | with_reducible apply set_keeps
    | with_reducible apply updFrame_keeps
    | with_reducible apply foldl_to_keeps BusRead.st
    | with_reducible apply foldl_keeps
    | with_reducible apply foldl_snd_keeps
    | with_reducible apply foldl_fst_keeps
    | split
    | simp only [keeps_mk]
    | dsimp only

theorem growBatten_keeps {s0 : State} (s : State) (h_s : Keeps s0 s) : Keeps s0 (State.growBatten s) := by
  rw [State.growBatten.eq_def]; try dsimp only
  repeat' first
    | with_reducible assumption
    | intro _
    | with_reducible apply none_keeps
    | with_reducible apply fields_keep
    | with_reducible apply bump_keeps
    | with_reducible apply eachDie_keeps
    | with_reducible apply ledBump_keeps
    | with_reducible apply set_keeps
    | with_reducible apply updFrame_keeps
    | simp only [keeps_mk]
    | dsimp only

theorem askExtension_keeps {s0 : State} (s : State) (late : Bool) (h_s : Keeps s0 s) : Keeps s0 (State.askExtension s late) := by
  rw [State.askExtension.eq_def]; try dsimp only
  repeat' first
    | with_reducible assumption
    | intro _
    | with_reducible apply ite_keeps
    | with_reducible apply fields_keep
    | with_reducible apply tellMaster_keeps
    | with_reducible apply updFrame_keeps
    | split
    | simp only [keeps_mk]
    | dsimp only

theorem elasticChoice_keeps {s0 : State} (s : State) (late : Bool) (h_s : Keeps s0 s) : Keeps s0 (State.elasticChoice s late).2 := by
  rw [State.elasticChoice.eq_def]; try dsimp only
  repeat' first
    | with_reducible assumption
    | intro _
    | with_reducible apply ite_keeps
    | with_reducible apply ite_opt
    | with_reducible apply some_keeps
    | with_reducible apply tellAll_keeps
    | with_reducible refine use_some ?_ (by with_reducible assumption)
    | split
    | dsimp only

theorem extendOrFault_keeps {s0 : State} (s : State) (h_s : Keeps s0 s) : Keeps s0 (State.extendOrFault s) := by
  rw [State.extendOrFault.eq_def]; try dsimp only
  repeat' first
    | with_reducible assumption
    | intro _
    | with_reducible apply ite_keeps
    | with_reducible apply endWork_keeps
    | with_reducible apply growBatten_keeps
    | with_reducible apply overrunFault_keeps
    | split
    | dsimp only

theorem execWorkSlotEnd_keeps {s0 : State} (s : State) (h_s : Keeps s0 s) : OutKeeps s0 (execWorkSlotEnd s) := by
  rw [execWorkSlotEnd.eq_def]; try dsimp only
  repeat' first
    | with_reducible assumption
    | intro _
    | with_reducible apply ite_keeps
    | with_reducible apply ite_out
    | with_reducible apply ite_opt
    | with_reducible apply next_keeps
    | with_reducible apply some_keeps
    | with_reducible apply none_keeps
    | with_reducible apply fields_keep
    | with_reducible apply advanceTo_keeps
    | with_reducible apply askExtension_keeps
    | with_reducible apply eachDie_keeps
    | with_reducible apply elasticChoice_keeps
    | with_reducible apply endWork_keeps
    | with_reducible apply extendOrFault_keeps
    | with_reducible apply ledBump_keeps
    | with_reducible apply noteOverrun_keeps
    | with_reducible apply overrunFault_keeps
    | with_reducible apply set_keeps
    | with_reducible apply setCourse_keeps
    | with_reducible refine use_some ?_ (by with_reducible assumption)
    | split
    | simp only [keeps_mk]
    | dsimp only

theorem execQuantumEnd_keeps {s0 : State} (s : State) (h_s : Keeps s0 s) : OutKeeps s0 (execQuantumEnd s) := by
  rw [execQuantumEnd.eq_def]; try dsimp only
  repeat' first
    | with_reducible assumption
    | intro _
    | with_reducible apply ite_keeps
    | with_reducible apply ite_out
    | with_reducible apply ite_opt
    | with_reducible apply next_keeps
    | with_reducible apply some_keeps
    | with_reducible apply none_keeps
    | with_reducible apply fields_keep
    | with_reducible apply advanceTo_keeps
    | with_reducible apply askExtension_keeps
    | with_reducible apply elasticChoice_keeps
    | with_reducible apply endWork_keeps
    | with_reducible apply extendOrFault_keeps
    | with_reducible apply overrunFault_keeps
    | with_reducible refine use_some ?_ (by with_reducible assumption)
    | split
    | simp only [keeps_mk]
    | dsimp only

theorem settleStages_keeps {s0 : State} (s : State) (h_s : Keeps s0 s) : Keeps s0 (State.settleStages s) := by
  rw [State.settleStages.eq_def]; try dsimp only
  repeat' first
    | with_reducible assumption
    | intro _
    | with_reducible apply ite_keeps
    | with_reducible apply settleWait_keeps
    | with_reducible apply foldl_to_keeps BusRead.st
    | with_reducible apply foldl_keeps
    | with_reducible apply foldl_snd_keeps
    | with_reducible apply foldl_fst_keeps
    | split
    | dsimp only

theorem stageAccount_keeps {s0 : State} (s : State) (h_s : Keeps s0 s) : Keeps s0 (State.stageAccount s) := by
  rw [State.stageAccount.eq_def]; try dsimp only
  repeat' first
    | with_reducible assumption
    | intro _
    | with_reducible apply fields_keep
    | with_reducible apply battenItem_keeps
    | with_reducible apply ledBump_keeps
    | with_reducible apply setCourse_keeps
    | with_reducible apply foldl_to_keeps BusRead.st
    | with_reducible apply foldl_keeps
    | with_reducible apply foldl_snd_keeps
    | with_reducible apply foldl_fst_keeps
    | split
    | simp only [keeps_mk]
    | dsimp only

theorem lateItems_keeps {s0 : State} (s : State) (h_s : Keeps s0 s) : Keeps s0 (State.lateItems s) := by
  rw [State.lateItems.eq_def]; try dsimp only
  repeat' first
    | with_reducible assumption
    | intro _
    | with_reducible apply ite_keeps
    | with_reducible apply ite_opt
    | with_reducible apply some_keeps
    | with_reducible apply none_keeps
    | with_reducible apply fields_keep
    | with_reducible apply battenItem_keeps
    | with_reducible refine use_some ?_ (by with_reducible assumption)
    | split
    | simp only [keeps_mk]
    | dsimp only

theorem battenRecord_keeps {s0 : State} (s : State) (h_s : Keeps s0 s) : Keeps s0 (State.battenRecord s) := by
  rw [State.battenRecord.eq_def]; try dsimp only
  repeat' first
    | with_reducible assumption
    | intro _
    | with_reducible apply ite_keeps
    | with_reducible apply engineWrite_keeps
    | with_reducible apply set_keeps
    | with_reducible apply take_keeps
    | split
    | dsimp only

theorem loadRecords_keeps {s0 : State} (s : State) (h_s : Keeps s0 s) : Keeps s0 (State.loadRecords s) := by
  rw [State.loadRecords.eq_def]; try dsimp only
  repeat' first
    | with_reducible assumption
    | intro _
    | with_reducible apply some_keeps
    | with_reducible apply none_keeps
    | with_reducible apply fields_keep
    | with_reducible apply engineWrite_keeps
    | with_reducible apply foldl_to_keeps BusRead.st
    | with_reducible apply foldl_keeps
    | with_reducible apply foldl_snd_keeps
    | with_reducible apply foldl_fst_keeps
    | with_reducible refine use_some ?_ (by with_reducible assumption)
    | split
    | simp only [keeps_mk]
    | dsimp only

theorem queueEnergy_keeps {s0 : State} (s : State) (q uj : Nat) (h_s : Keeps s0 s) : Keeps s0 (State.queueEnergy s q uj) := by
  rw [State.queueEnergy.eq_def]; try dsimp only
  repeat' first
    | with_reducible assumption
    | intro _
    | with_reducible apply ite_keeps
    | with_reducible apply fields_keep
    | with_reducible apply bump_keeps
    | with_reducible apply bumpWrap_keeps
    | with_reducible apply ledBump_keeps
    | with_reducible apply setCourse_keeps
    | split
    | simp only [keeps_mk]
    | dsimp only

theorem energyAccount_keeps {s0 : State} (s : State) (h_s : Keeps s0 s) : Keeps s0 (State.energyAccount s) := by
  rw [State.energyAccount.eq_def]; try dsimp only
  repeat' first
    | with_reducible assumption
    | intro _
    | with_reducible apply ite_keeps
    | with_reducible apply fields_keep
    | with_reducible apply act_keeps
    | with_reducible apply bump_keeps
    | with_reducible apply bumpWrap_keeps
    | with_reducible apply eachDie_keeps
    | with_reducible apply queueEnergy_keeps
    | with_reducible apply foldl_to_keeps BusRead.st
    | with_reducible apply foldl_keeps
    | with_reducible apply foldl_snd_keeps
    | with_reducible apply foldl_fst_keeps
    | split
    | simp only [keeps_mk]
    | dsimp only

theorem execLedgerSlot_keeps {s0 : State} (s : State) (h_s : Keeps s0 s) : OutKeeps s0 (execLedgerSlot s) := by
  rw [execLedgerSlot.eq_def]; try dsimp only
  repeat' first
    | with_reducible assumption
    | intro _
    | with_reducible apply ite_keeps
    | with_reducible apply ite_out
    | with_reducible apply next_keeps
    | with_reducible apply fields_keep
    | with_reducible apply advanceTo_keeps
    | with_reducible apply battenRecord_keeps
    | with_reducible apply energyAccount_keeps
    | with_reducible apply lateItems_keeps
    | with_reducible apply loadRecords_keeps
    | with_reducible apply retryExports_keeps
    | with_reducible apply setCourse_keeps
    | with_reducible apply settleStages_keeps
    | with_reducible apply settleThrottle_keeps
    | with_reducible apply stageAccount_keeps
    | with_reducible apply updFrame_keeps
    | split
    | simp only [keeps_mk]
    | dsimp only

/-! ## Machine/Domain.lean -/

theorem slip_keeps {s0 : State} (s : State) (h_s : Keeps s0 s) : Keeps s0 (State.slip s) := by
  rw [State.slip.eq_def]; try dsimp only
  repeat' first
    | with_reducible assumption
    | intro _
    | with_reducible apply ite_keeps
    | with_reducible apply fields_keep
    | with_reducible apply abortCourse_keeps
    | with_reducible apply eachDie_keeps
    | with_reducible apply set_keeps
    | with_reducible apply updFrame_keeps
    | split
    | simp only [keeps_mk]
    | dsimp only

theorem execSync_keeps {s0 : State} (h : FabHdr) (batten time : Nat) (interval slots ovr stagger : Word) (s : State) (h_s : Keeps s0 s) : OutKeeps s0 (execSync h batten time interval slots ovr stagger s) := by
  rw [execSync.eq_def]; try dsimp only
  repeat' first
    | with_reducible assumption
    | intro _
    | with_reducible apply ite_keeps
    | with_reducible apply ite_out
    | with_reducible apply ite_opt
    | with_reducible apply next_keeps
    | with_reducible apply some_keeps
    | with_reducible apply fields_keep
    | with_reducible apply set_keeps
    | with_reducible apply slip_keeps
    | with_reducible apply takes_keeps
    | with_reducible apply updFrame_keeps
    | with_reducible apply wr_keeps
    | with_reducible refine use_some ?_ (by with_reducible assumption)
    | split
    | simp only [keeps_mk]
    | dsimp only

theorem execSyncMissed_keeps {s0 : State} (s : State) (h_s : Keeps s0 s) : OutKeeps s0 (execSyncMissed s) := by
  rw [execSyncMissed.eq_def]; try dsimp only
  repeat' first
    | with_reducible assumption
    | intro _
    | with_reducible apply ite_keeps
    | with_reducible apply ite_out
    | with_reducible apply next_keeps
    | with_reducible apply bump_keeps
    | with_reducible apply enterHoldover_keeps
    | split
    | dsimp only

theorem execDelayReq_keeps {s0 : State} (h : FabHdr) (rtt held : Nat) (s : State) (h_s : Keeps s0 s) : OutKeeps s0 (execDelayReq h rtt held s) := by
  rw [execDelayReq.eq_def]; try dsimp only
  repeat' first
    | with_reducible assumption
    | intro _
    | with_reducible apply ite_keeps
    | with_reducible apply ite_out
    | with_reducible apply next_keeps
    | with_reducible apply fields_keep
    | with_reducible apply serve_keeps
    | with_reducible apply takes_keeps
    | with_reducible apply updFab_keeps
    | with_reducible apply updFrame_keeps
    | split
    | simp only [keeps_mk]
    | dsimp only

theorem discipline_keeps {s0 : State} (s : State) (off : Int) (h_s : Keeps s0 s) : Keeps s0 (State.discipline s off) := by
  rw [State.discipline.eq_def]; try dsimp only
  repeat' first
    | with_reducible assumption
    | intro _
    | with_reducible apply ite_keeps
    | with_reducible apply set_keeps
    | split
    | dsimp only

theorem execDelayRsp_keeps {s0 : State} (h : RspHdr) (status : Nat) (own peer : Stamps) (s : State) (h_s : Keeps s0 s) : OutKeeps s0 (execDelayRsp h status own peer s) := by
  rw [execDelayRsp.eq_def]; try dsimp only
  repeat' first
    | with_reducible assumption
    | intro _
    | with_reducible apply ite_keeps
    | with_reducible apply ite_out
    | with_reducible apply next_keeps
    | with_reducible apply fields_keep
    | with_reducible apply answer_keeps
    | with_reducible apply discipline_keeps
    | with_reducible apply set_keeps
    | with_reducible apply updFrame_keeps
    | split
    | simp only [keeps_mk]
    | dsimp only

theorem control_keeps {s0 : State} (s : State) (h : FabHdr) (course : Nat) (f : State → State) (h_s : Keeps s0 s) (h_f : ∀ (y0 : State), Keeps s0 y0 → Keeps s0 (f y0)) : Keeps s0 (State.control s h course f) := by
  rw [State.control.eq_def]; try dsimp only
  repeat' first
    | with_reducible assumption
    | intro _
    | with_reducible apply ite_keeps
    | with_reducible apply serve_keeps
    | with_reducible apply h_f
    | split
    | dsimp only

theorem execNotDone_keeps {s0 : State} (h : FabHdr) (course : Nat) (s : State) (h_s : Keeps s0 s) : OutKeeps s0 (execNotDone h course s) := by
  rw [execNotDone.eq_def]; try dsimp only
  repeat' first
    | with_reducible assumption
    | intro _
    | with_reducible apply ite_keeps
    | with_reducible apply ite_out
    | with_reducible apply next_keeps
    | with_reducible apply fields_keep
    | with_reducible apply control_keeps
    | with_reducible apply updFrame_keeps
    | split
    | simp only [keeps_mk]
    | dsimp only

theorem takeDecision_keeps {s0 : State} (s : State) (ext : Bool) (h_s : Keeps s0 s) : Keeps s0 (State.takeDecision s ext) := by
  rw [State.takeDecision.eq_def]; try dsimp only
  repeat' first
    | with_reducible assumption
    | intro _
    | with_reducible apply ite_keeps
    | with_reducible apply ite_opt
    | with_reducible apply some_keeps
    | with_reducible apply fields_keep
    | with_reducible apply updFrame_keeps
    | with_reducible refine use_some ?_ (by with_reducible assumption)
    | split
    | simp only [keeps_mk]
    | dsimp only

theorem execExtend_keeps {s0 : State} (h : FabHdr) (course : Nat) (s : State) (h_s : Keeps s0 s) : OutKeeps s0 (execExtend h course s) := by
  rw [execExtend.eq_def]; try dsimp only
  repeat' first
    | with_reducible assumption
    | intro _
    | with_reducible apply next_keeps
    | with_reducible apply control_keeps
    | with_reducible apply takeDecision_keeps
    | dsimp only

theorem execProceed_keeps {s0 : State} (h : FabHdr) (course : Nat) (s : State) (h_s : Keeps s0 s) : OutKeeps s0 (execProceed h course s) := by
  rw [execProceed.eq_def]; try dsimp only
  repeat' first
    | with_reducible assumption
    | intro _
    | with_reducible apply next_keeps
    | with_reducible apply control_keeps
    | with_reducible apply takeDecision_keeps
    | dsimp only

theorem execAbortCourseMsg_keeps {s0 : State} (h : FabHdr) (course cause : Nat) (s : State) (h_s : Keeps s0 s) : OutKeeps s0 (execAbortCourseMsg h course cause s) := by
  rw [execAbortCourseMsg.eq_def]; try dsimp only
  repeat' first
    | with_reducible assumption
    | intro _
    | with_reducible apply next_keeps
    | with_reducible apply abortHere_keeps
    | with_reducible apply cause_keeps
    | with_reducible apply control_keeps
    | dsimp only

theorem addsDoneFrom_keeps {s0 : State} (s : State) (dev : Nat) (h_s : Keeps s0 s) : Keeps s0 (State.addsDoneFrom s dev) := by
  rw [State.addsDoneFrom.eq_def]; try dsimp only
  repeat' first
    | with_reducible assumption
    | intro _
    | with_reducible apply ite_keeps
    | with_reducible apply ite_opt
    | with_reducible apply some_keeps
    | with_reducible apply none_keeps
    | with_reducible apply fields_keep
    | with_reducible apply tellAll_keeps
    | with_reducible apply updFrame_keeps
    | with_reducible refine use_some ?_ (by with_reducible assumption)
    | split
    | simp only [keeps_mk]
    | dsimp only

theorem execAddsDone_keeps {s0 : State} (h : FabHdr) (course : Nat) (s : State) (h_s : Keeps s0 s) : OutKeeps s0 (execAddsDone h course s) := by
  rw [execAddsDone.eq_def]; try dsimp only
  repeat' first
    | with_reducible assumption
    | intro _
    | with_reducible apply ite_keeps
    | with_reducible apply ite_out
    | with_reducible apply next_keeps
    | with_reducible apply addsDoneFrom_keeps
    | with_reducible apply control_keeps
    | split
    | dsimp only

theorem execAllAddsDone_keeps {s0 : State} (h : FabHdr) (course : Nat) (s : State) (h_s : Keeps s0 s) : OutKeeps s0 (execAllAddsDone h course s) := by
  rw [execAllAddsDone.eq_def]; try dsimp only
  repeat' first
    | with_reducible assumption
    | intro _
    | with_reducible apply next_keeps
    | with_reducible apply fields_keep
    | with_reducible apply control_keeps
    | with_reducible apply updFrame_keeps
    | simp only [keeps_mk]
    | dsimp only

theorem stageResidue_keeps {s0 : State} (s : State) (h_s : Keeps s0 s) : Keeps s0 (State.stageResidue s) := by
  rw [State.stageResidue.eq_def]; try dsimp only
  repeat' first
    | with_reducible assumption
    | intro _
    | with_reducible apply fields_keep
    | with_reducible apply cause_keeps
    | with_reducible apply raise_keeps
    | with_reducible apply set_keeps
    | with_reducible apply setStageQ_keeps
    | with_reducible apply foldl_to_keeps BusRead.st
    | with_reducible apply foldl_keeps
    | with_reducible apply foldl_snd_keeps
    | with_reducible apply foldl_fst_keeps
    | split
    | simp only [keeps_mk]
    | dsimp only

theorem execFoldBegin_keeps {s0 : State} (s : State) (h_s : Keeps s0 s) : OutKeeps s0 (execFoldBegin s) := by
  rw [execFoldBegin.eq_def]; try dsimp only
  repeat' first
    | with_reducible assumption
    | intro _
    | with_reducible apply ite_keeps
    | with_reducible apply ite_out
    | with_reducible apply next_keeps
    | with_reducible apply fields_keep
    | with_reducible apply addsDoneFrom_keeps
    | with_reducible apply setCourse_keeps
    | with_reducible apply stageResidue_keeps
    | with_reducible apply syncFolding_keeps
    | with_reducible apply tellMaster_keeps
    | with_reducible apply foldl_to_keeps BusRead.st
    | with_reducible apply foldl_keeps
    | with_reducible apply foldl_snd_keeps
    | with_reducible apply foldl_fst_keeps
    | split
    | simp only [keeps_mk]
    | dsimp only

theorem execFoldEnd_keeps {s0 : State} (s : State) (h_s : Keeps s0 s) : OutKeeps s0 (execFoldEnd s) := by
  rw [execFoldEnd.eq_def]; try dsimp only
  repeat' first
    | with_reducible assumption
    | intro _
    | with_reducible apply ite_keeps
    | with_reducible apply ite_out
    | with_reducible apply next_keeps
    | with_reducible apply fields_keep
    | with_reducible apply appendHistory_keeps
    | with_reducible apply setCourse_keeps
    | with_reducible apply stagingFolded_keeps
    | with_reducible apply syncFolding_keeps
    | with_reducible apply writeRanges_keeps
    | with_reducible apply foldl_to_keeps BusRead.st
    | with_reducible apply foldl_keeps
    | with_reducible apply foldl_snd_keeps
    | with_reducible apply foldl_fst_keeps
    | split
    | simp only [keeps_mk]
    | dsimp only

/-! ## Machine/Course.lean -/

theorem attachWaiters_keeps {s0 : State} (s : State) (number : Nat) (h_s : Keeps s0 s) : Keeps s0 (State.attachWaiters s number) := by
  rw [State.attachWaiters.eq_def]; try dsimp only
  repeat' first
    | with_reducible assumption
    | intro _
    | with_reducible apply ite_keeps
    | with_reducible apply cmdWaits_keeps
    | with_reducible apply fail_keeps
    | with_reducible apply foldl_to_keeps BusRead.st
    | with_reducible apply foldl_keeps
    | with_reducible apply foldl_snd_keeps
    | with_reducible apply foldl_fst_keeps
    | split
    | dsimp only

theorem armCourse_keeps {s0 : State} (s : State) (p : CourseProgram) (q start : Nat) (digest : Word) (h_s : Keeps s0 s) : Keeps s0 (State.armCourse s p q start digest) := by
  rw [State.armCourse.eq_def]; try dsimp only
  repeat' first
    | with_reducible assumption
    | intro _
    | with_reducible apply some_keeps
    | with_reducible apply fields_keep
    | with_reducible apply attachWaiters_keeps
    | with_reducible apply ledSet_keeps
    | with_reducible apply set_keeps
    | with_reducible apply setCourse_keeps
    | with_reducible apply updFrame_keeps
    | with_reducible refine use_some ?_ (by with_reducible assumption)
    | simp only [keeps_mk]
    | dsimp only

theorem execCourseLoad_keeps {s0 : State} (q : Fin 16384) (seq : Nat) (prog : Option CourseProgram) (s : State) (h_s : Keeps s0 s) : OutKeeps s0 (execCourseLoad q seq prog s) := by
  rw [execCourseLoad.eq_def]; try dsimp only
  repeat' first
    | with_reducible assumption
    | intro _
    | with_reducible apply ite_keeps
    | with_reducible apply ite_out
    | with_reducible apply ite_opt
    | with_reducible apply next_keeps
    | with_reducible apply some_keeps
    | with_reducible apply none_keeps
    | with_reducible apply fields_keep
    | with_reducible apply armCourse_keeps
    | with_reducible apply fail_keeps
    | with_reducible apply needA_keeps
    | with_reducible apply needMem_keeps
    | with_reducible apply readMem_keeps
    | with_reducible apply runCmd_keeps
    | with_reducible apply succeed_keeps
    | with_reducible refine use_some ?_ (by with_reducible assumption)
    | split
    | simp only [keeps_mk]
    | dsimp only

theorem execCourseWait_keeps {s0 : State} (q : Fin 16384) (seq : Nat) (s : State) (h_s : Keeps s0 s) : OutKeeps s0 (execCourseWait q seq s) := by
  rw [execCourseWait.eq_def]; try dsimp only
  repeat' first
    | with_reducible assumption
    | intro _
    | with_reducible apply ite_keeps
    | with_reducible apply ite_out
    | with_reducible apply next_keeps
    | with_reducible apply cmdWaits_keeps
    | with_reducible apply runCmd_keeps
    | split
    | dsimp only

theorem execAbortCourse_keeps {s0 : State} (q : Fin 16384) (seq : Nat) (s : State) (h_s : Keeps s0 s) : OutKeeps s0 (execAbortCourse q seq s) := by
  rw [execAbortCourse.eq_def]; try dsimp only
  repeat' first
    | with_reducible assumption
    | intro _
    | with_reducible apply ite_keeps
    | with_reducible apply ite_out
    | with_reducible apply next_keeps
    | with_reducible apply abortCourse_keeps
    | with_reducible apply cmdWaits_keeps
    | with_reducible apply runCmd_keeps
    | with_reducible apply succeed_keeps
    | split
    | dsimp only

/-! ## Machine/Fabric.lean -/

theorem execRead_keeps {s0 : State} (h : FabHdr) (addr len : Nat) (s : State) (h_s : Keeps s0 s) : OutKeeps s0 (execRead h addr len s) := by
  rw [execRead.eq_def]; try dsimp only
  repeat' first
    | with_reducible assumption
    | intro _
    | with_reducible apply ite_keeps
    | with_reducible apply ite_out
    | with_reducible apply next_keeps
    | with_reducible apply busRead_keeps
    | with_reducible apply serve_keeps
    | with_reducible apply done_keeps
    | with_reducible apply miss_keeps
    | with_reducible apply stopped_keeps
    | with_reducible apply waits_keeps
    | with_reducible refine use_done ?_ (by with_reducible assumption)
    | with_reducible refine use_miss ?_ (by with_reducible assumption)
    | with_reducible refine use_stopped ?_ (by with_reducible assumption)
    | with_reducible refine use_waits ?_ (by with_reducible assumption)
    | split
    | dsimp only

theorem stageStored_keeps {s0 : State} (s : State) (src addr n : Nat) (h_s : Keeps s0 s) : Keeps s0 (State.stageStored s src addr n) := by
  rw [State.stageStored.eq_def]; try dsimp only
  repeat' first
    | with_reducible assumption
    | intro _
    | with_reducible apply ite_keeps
    | with_reducible apply ite_opt
    | with_reducible apply some_keeps
    | with_reducible apply none_keeps
    | with_reducible apply fields_keep
    | with_reducible apply setStageQ_keeps
    | with_reducible refine use_some ?_ (by with_reducible assumption)
    | split
    | simp only [keeps_mk]
    | dsimp only

theorem holdAck_keeps {s0 : State} (s : State) (before : State) (k : Nat × Nat × Nat) (h_s : Keeps s0 s) (h_before : Keeps s0 before) : Keeps s0 (State.holdAck s before k) := by
  rw [State.holdAck.eq_def]; try dsimp only
  repeat' first
    | with_reducible assumption
    | intro _
    | with_reducible apply some_keeps
    | with_reducible apply fields_keep
    | with_reducible apply take_keeps
    | with_reducible refine use_some ?_ (by with_reducible assumption)
    | simp only [keeps_mk]
    | dsimp only

theorem execStore_keeps {s0 : State} (h : FabHdr) (addr : Nat) (data : List (Byte × Bool)) (s : State) (h_s : Keeps s0 s) : OutKeeps s0 (execStore h addr data s) := by
  rw [execStore.eq_def]; try dsimp only
  repeat' first
    | with_reducible assumption
    | intro _
    | with_reducible apply ite_keeps
    | with_reducible apply ite_out
    | with_reducible apply ite_opt
    | with_reducible apply next_keeps
    | with_reducible apply some_keeps
    | with_reducible apply none_keeps
    | with_reducible apply fields_keep
    | with_reducible apply busWrite_keeps
    | with_reducible apply holdAck_keeps
    | with_reducible apply missEvent_keeps
    | with_reducible apply serve_keeps
    | with_reducible apply stageStored_keeps
    | with_reducible apply foldl_to_keeps BusRead.st
    | with_reducible apply done_keeps
    | with_reducible apply miss_keeps
    | with_reducible apply stopped_keeps
    | with_reducible apply waits_keeps
    | with_reducible refine use_done ?_ (by with_reducible assumption)
    | with_reducible refine use_miss ?_ (by with_reducible assumption)
    | with_reducible refine use_stopped ?_ (by with_reducible assumption)
    | with_reducible refine use_waits ?_ (by with_reducible assumption)
    | with_reducible apply foldl_keeps
    | with_reducible apply foldl_snd_keeps
    | with_reducible apply foldl_fst_keeps
    | with_reducible refine use_some ?_ (by with_reducible assumption)
    | split
    | simp only [keeps_mk]
    | dsimp only

theorem execAtomicW96_keeps {s0 : State} (h : FabHdr) (addr : Nat) (accs : List Nat) (s : State) (h_s : Keeps s0 s) : OutKeeps s0 (execAtomicW96 h addr accs s) := by
  rw [execAtomicW96.eq_def]; try dsimp only
  repeat' first
    | with_reducible assumption
    | intro _
    | with_reducible apply ite_keeps
    | with_reducible apply ite_out
    | with_reducible apply ite_opt
    | with_reducible apply next_keeps
    | with_reducible apply some_keeps
    | with_reducible apply none_keeps
    | with_reducible apply fields_keep
    | with_reducible apply missEvent_keeps
    | with_reducible apply noteWriter_keeps
    | with_reducible apply readMem_keeps
    | with_reducible apply serve_keeps
    | with_reducible apply writeMem_keeps
    | with_reducible apply foldl_to_keeps BusRead.st
    | with_reducible apply foldl_keeps
    | with_reducible apply foldl_snd_keeps
    | with_reducible apply foldl_fst_keeps
    | with_reducible refine use_some ?_ (by with_reducible assumption)
    | split
    | simp only [keeps_mk]
    | dsimp only

theorem execRowAdd_keeps {s0 : State} (h : FabHdr) (table row count : Nat) (accs : List Nat) (s : State) (h_s : Keeps s0 s) : OutKeeps s0 (execRowAdd h table row count accs s) := by
  rw [execRowAdd.eq_def]; try dsimp only
  repeat' first
    | with_reducible assumption
    | intro _
    | with_reducible apply ite_keeps
    | with_reducible apply ite_out
    | with_reducible apply ite_opt
    | with_reducible apply next_keeps
    | with_reducible apply some_keeps
    | with_reducible apply none_keeps
    | with_reducible apply fields_keep
    | with_reducible apply applyAdd_keeps
    | with_reducible apply ask_keeps
    | with_reducible apply serve_keeps
    | with_reducible refine use_some ?_ (by with_reducible assumption)
    | split
    | simp only [keeps_mk]
    | dsimp only

theorem execYealmReq_keeps {s0 : State} (h : FabHdr) (table : Nat) (rows : List Nat) (s : State) (h_s : Keeps s0 s) : OutKeeps s0 (execYealmReq h table rows s) := by
  rw [execYealmReq.eq_def]; try dsimp only
  repeat' first
    | with_reducible assumption
    | intro _
    | with_reducible apply ite_keeps
    | with_reducible apply ite_out
    | with_reducible apply ite_opt
    | with_reducible apply next_keeps
    | with_reducible apply some_keeps
    | with_reducible apply none_keeps
    | with_reducible apply fields_keep
    | with_reducible apply fields_upset
    | with_reducible apply fields_filter
    | simp only [torn_counter]
    | with_reducible apply fields_reset
    | with_reducible apply fields_reset_regs
    | with_reducible apply missEvent_keeps
    | with_reducible apply readMem_keeps
    | with_reducible apply serve_keeps
    | with_reducible apply shardLoad_keeps
    | with_reducible apply foldl_to_keeps BusRead.st
    | with_reducible apply done_keeps
    | with_reducible apply miss_keeps
    | with_reducible apply stopped_keeps
    | with_reducible apply waits_keeps
    | with_reducible refine use_done ?_ (by with_reducible assumption)
    | with_reducible refine use_miss ?_ (by with_reducible assumption)
    | with_reducible refine use_stopped ?_ (by with_reducible assumption)
    | with_reducible refine use_waits ?_ (by with_reducible assumption)
    | with_reducible apply foldl_keeps
    | with_reducible apply foldl_snd_keeps
    | with_reducible apply foldl_opt_keeps
    | with_reducible apply foldl_snd2_keeps
    | with_reducible apply foldl_fst_keeps
    | with_reducible apply getD_keeps
    | with_reducible apply somep_keeps
    | with_reducible apply nonep_keeps
    | with_reducible refine of_some (by with_reducible assumption)
    | with_reducible refine use_pair ?_ (by with_reducible assumption)
    | with_reducible refine use_some ?_ (by with_reducible assumption)
    | split
    | simp only [keeps_mk]
    | dsimp only

theorem copySettle_keeps {s0 : State} (s : State) (q seq : Nat) (h_s : Keeps s0 s) : Keeps s0 (State.copySettle s q seq) := by
  rw [State.copySettle.eq_def]; try dsimp only
  repeat' first
    | with_reducible assumption
    | intro _
    | with_reducible apply ite_keeps
    | with_reducible apply ite_opt
    | with_reducible apply some_keeps
    | with_reducible apply fields_keep
    | with_reducible apply succeed_keeps
    | with_reducible apply withWaiting_keeps
    | with_reducible refine use_some ?_ (by with_reducible assumption)
    | split
    | simp only [keeps_mk]
    | dsimp only

theorem copyWaits_keeps {s0 : State} (s : State) (q seq off : Nat) (bs : List Byte) (h_s : Keeps s0 s) : OptKeeps s0 (State.copyWaits s q seq off bs) := by
  rw [State.copyWaits.eq_def]; try dsimp only
  repeat' first
    | with_reducible assumption
    | intro _
    | with_reducible apply ite_keeps
    | with_reducible apply ite_opt
    | with_reducible apply some_keeps
    | with_reducible apply none_keeps
    | with_reducible apply fields_keep
    | with_reducible apply busWrite_keeps
    | with_reducible apply done_keeps
    | with_reducible apply miss_keeps
    | with_reducible apply stopped_keeps
    | with_reducible apply waits_keeps
    | with_reducible refine use_done ?_ (by with_reducible assumption)
    | with_reducible refine use_miss ?_ (by with_reducible assumption)
    | with_reducible refine use_stopped ?_ (by with_reducible assumption)
    | with_reducible refine use_waits ?_ (by with_reducible assumption)
    | with_reducible refine use_some ?_ (by with_reducible assumption)
    | split
    | simp only [keeps_mk]
    | dsimp only

theorem copyPut_keeps {s0 : State} (s : State) (q seq off : Nat) (bs : List Byte) (h_s : Keeps s0 s) : Keeps s0 (State.copyPut s q seq off bs) := by
  rw [State.copyPut.eq_def]; try dsimp only
  repeat' first
    | with_reducible assumption
    | intro _
    | with_reducible apply ite_keeps
    | with_reducible apply ite_opt
    | with_reducible apply some_keeps
    | with_reducible apply fields_keep
    | with_reducible apply busWrite_keeps
    | with_reducible apply fabStore_keeps
    | with_reducible apply fail_keeps
    | with_reducible apply withWaiting_keeps
    | with_reducible apply done_keeps
    | with_reducible apply miss_keeps
    | with_reducible apply stopped_keeps
    | with_reducible apply waits_keeps
    | with_reducible refine use_done ?_ (by with_reducible assumption)
    | with_reducible refine use_miss ?_ (by with_reducible assumption)
    | with_reducible refine use_stopped ?_ (by with_reducible assumption)
    | with_reducible refine use_waits ?_ (by with_reducible assumption)
    | with_reducible refine use_some ?_ (by with_reducible assumption)
    | split
    | simp only [keeps_mk]
    | dsimp only

theorem rspWaits_keeps {s0 : State} (s : State) (tag status : Nat) (bytes : List Byte) (h_s : Keeps s0 s) : OptKeeps s0 (State.rspWaits s tag status bytes) := by
  rw [State.rspWaits.eq_def]; try dsimp only
  repeat' first
    | with_reducible assumption
    | intro _
    | with_reducible apply ite_keeps
    | with_reducible apply ite_opt
    | with_reducible apply some_keeps
    | with_reducible apply none_keeps
    | with_reducible apply fields_keep
    | with_reducible apply copyWaits_keeps
    | with_reducible refine use_some ?_ (by with_reducible assumption)
    | split
    | simp only [keeps_mk]
    | dsimp only

theorem execReadRsp_keeps {s0 : State} (h : RspHdr) (status : Nat) (unc : Bool) (bytes : List Byte) (s : State) (h_s : Keeps s0 s) : OutKeeps s0 (execReadRsp h status unc bytes s) := by
  rw [execReadRsp.eq_def]; try dsimp only
  repeat' first
    | with_reducible assumption
    | intro _
    | with_reducible apply ite_keeps
    | with_reducible apply ite_out
    | with_reducible apply ite_opt
    | with_reducible apply next_keeps
    | with_reducible apply some_keeps
    | with_reducible apply none_keeps
    | with_reducible apply fields_keep
    | with_reducible apply answer_keeps
    | with_reducible apply copyPut_keeps
    | with_reducible apply copySettle_keeps
    | with_reducible apply heard_keeps
    | with_reducible apply markLive_keeps
    | with_reducible apply partArrived_keeps
    | with_reducible apply repairArrived_keeps
    | with_reducible apply rspWaits_keeps
    | with_reducible refine use_some ?_ (by with_reducible assumption)
    | split
    | simp only [keeps_mk]
    | dsimp only

theorem execYealmRsp_keeps {s0 : State} (h : RspHdr) (status : Nat) (unc : Bool) (bytes : List Byte) (shards : List (Nat × Nat × Nat)) (s : State) (h_s : Keeps s0 s) : OutKeeps s0 (execYealmRsp h status unc bytes shards s) := by
  rw [execYealmRsp.eq_def]; try dsimp only
  repeat' first
    | with_reducible assumption
    | intro _
    | with_reducible apply ite_keeps
    | with_reducible apply ite_out
    | with_reducible apply ite_opt
    | with_reducible apply next_keeps
    | with_reducible apply some_keeps
    | with_reducible apply none_keeps
    | with_reducible apply fields_keep
    | with_reducible apply answer_keeps
    | with_reducible apply driftReport_keeps
    | with_reducible apply markLive_keeps
    | with_reducible apply partArrived_keeps
    | with_reducible apply foldl_to_keeps BusRead.st
    | with_reducible apply foldl_keeps
    | with_reducible apply foldl_snd_keeps
    | with_reducible apply foldl_fst_keeps
    | with_reducible refine use_some ?_ (by with_reducible assumption)
    | split
    | simp only [keeps_mk]
    | dsimp only

theorem execAck_keeps {s0 : State} (h : RspHdr) (status : Nat) (s : State) (h_s : Keeps s0 s) : OutKeeps s0 (execAck h status s) := by
  rw [execAck.eq_def]; try dsimp only
  repeat' first
    | with_reducible assumption
    | intro _
    | with_reducible apply next_keeps
    | with_reducible apply fields_keep
    | with_reducible apply addAnswered_keeps
    | with_reducible apply answer_keeps
    | with_reducible apply copySettle_keeps
    | with_reducible apply exported_keeps
    | with_reducible apply respond_keeps
    | split
    | simp only [keeps_mk]
    | dsimp only

theorem execFabricCopy_keeps {s0 : State} (q : Fin 16384) (seq : Nat) (s : State) (h_s : Keeps s0 s) : OutKeeps s0 (execFabricCopy q seq s) := by
  rw [execFabricCopy.eq_def]; try dsimp only
  repeat' first
    | with_reducible assumption
    | intro _
    | with_reducible apply ite_keeps
    | with_reducible apply ite_out
    | with_reducible apply ite_opt
    | with_reducible apply next_keeps
    | with_reducible apply some_keeps
    | with_reducible apply none_keeps
    | with_reducible apply fields_keep
    | with_reducible apply ask_keeps
    | with_reducible apply busRead_keeps
    | with_reducible apply cmdWaits_keeps
    | with_reducible apply copyPut_keeps
    | with_reducible apply copySettle_keeps
    | with_reducible apply copyWaits_keeps
    | with_reducible apply fail_keeps
    | with_reducible apply missEvent_keeps
    | with_reducible apply runCmd_keeps
    | with_reducible apply foldl_to_keeps BusRead.st
    | with_reducible apply done_keeps
    | with_reducible apply miss_keeps
    | with_reducible apply stopped_keeps
    | with_reducible apply waits_keeps
    | with_reducible refine use_done ?_ (by with_reducible assumption)
    | with_reducible refine use_miss ?_ (by with_reducible assumption)
    | with_reducible refine use_stopped ?_ (by with_reducible assumption)
    | with_reducible refine use_waits ?_ (by with_reducible assumption)
    | with_reducible apply foldl_keeps
    | with_reducible apply foldl_snd_keeps
    | with_reducible apply foldl_fst_keeps
    | with_reducible refine use_some ?_ (by with_reducible assumption)
    | split
    | simp only [keeps_mk]
    | dsimp only

end Sys2Proof.Laws
end

