-- ==== Sys2Proof/Laws/KeepsHost.lean ====
section
/-! SUPPORT. Every operation of the host link, queues, register writes, ports and start-up keeps the canonical forms
and the queue of commands. -/
set_option linter.all false
namespace Sys2Proof.Laws
open Sys2Proof.Machine

/-! ## Machine/HostLink.lean -/

theorem setHost_keeps {s0 : State} (s : State) (x : HostIf) (h_s : Keeps s0 s) : Keeps s0 (State.setHost s x) := by
  rw [State.setHost.eq_def]; try dsimp only
  repeat' first
    | with_reducible assumption
    | with_reducible apply fields_keep
    | simp only [keeps_mk]
    | dsimp only

theorem msixFlush_keeps {s0 : State} (s : State) (h_s : Keeps s0 s) : Keeps s0 (State.msixFlush s) := by
  rw [State.msixFlush.eq_def]; try dsimp only
  repeat' first
    | with_reducible assumption
    | intro _
    | with_reducible apply ite_keeps
    | with_reducible apply fields_keep
    | with_reducible apply msix_keeps
    | with_reducible apply send_keeps
    | with_reducible apply setHost_keeps
    | with_reducible apply foldl_to_keeps BusRead.st
    | with_reducible apply foldl_keeps
    | with_reducible apply foldl_snd_keeps
    | with_reducible apply foldl_fst_keeps
    | split
    | simp only [keeps_mk]
    | dsimp only

theorem bar2Read_keeps {s0 : State} (s : State) (off n : Nat) (h_s : Keeps s0 s) : Keeps s0 (State.bar2Read s off n) := by
  rw [State.bar2Read.eq_def]; try dsimp only
  repeat' first
    | with_reducible assumption
    | intro _
    | with_reducible apply ite_keeps
    | with_reducible apply badAccess_keeps
    | with_reducible apply send_keeps
    | with_reducible apply take_keeps
    | split
    | dsimp only

theorem putMsix_keeps {s0 : State} (s : State) (k v : Nat) (h_s : Keeps s0 s) : Keeps s0 (State.putMsix s k v) := by
  rw [State.putMsix.eq_def]; try dsimp only
  repeat' first
    | with_reducible assumption
    | intro _
    | with_reducible apply ite_keeps
    | with_reducible apply fields_keep
    | with_reducible apply msix_keeps
    | with_reducible apply msixFlush_keeps
    | with_reducible apply setHost_keeps
    | split
    | simp only [keeps_mk]
    | dsimp only

theorem fencedBell_keeps {s0 : State} (s : State) (q : Nat) (head : Bool) (v drain : Nat) (h_s : Keeps s0 s) : Keeps s0 (State.fencedBell s q head v drain) := by
  rw [State.fencedBell.eq_def]; try dsimp only
  repeat' first
    | with_reducible assumption
    | with_reducible apply advanceTo_keeps
    | with_reducible apply bump_keeps
    | with_reducible apply doorbell_keeps
    | with_reducible apply drain_keeps
    | with_reducible apply set_keeps
    | dsimp only

theorem bar2Write_keeps {s0 : State} (s : State) (off : Nat) (bs : List Byte) (h_s : Keeps s0 s) : Keeps s0 (State.bar2Write s off bs) := by
  rw [State.bar2Write.eq_def]; try dsimp only
  repeat' first
    | with_reducible assumption
    | intro _
    | with_reducible apply ite_keeps
    | with_reducible apply badAccess_keeps
    | with_reducible apply doorbell_keeps
    | with_reducible apply fencedBell_keeps
    | with_reducible apply putMsix_keeps
    | split
    | dsimp only

theorem hostLines_keeps {s0 : State} (s : State) (a n : Nat) (cxl : Bool) (h_s : Keeps s0 s) : Keeps s0 (State.hostLines s a n cxl) := by
  rw [State.hostLines.eq_def]; try dsimp only
  repeat' first
    | with_reducible assumption
    | intro _
    | with_reducible apply ite_keeps
    | with_reducible apply missEvent_keeps
    | with_reducible apply readMem_keeps
    | with_reducible apply send_keeps
    | with_reducible apply foldl_to_keeps BusRead.st
    | with_reducible apply foldl_keeps
    | with_reducible apply foldl_snd_keeps
    | with_reducible apply foldl_fst_keeps
    | split
    | dsimp only

theorem bar0Read_keeps {s0 : State} (s : State) (a n : Nat) (h_s : Keeps s0 s) : Keeps s0 (State.bar0Read s a n) := by
  rw [State.bar0Read.eq_def]; try dsimp only
  repeat' first
    | with_reducible assumption
    | intro _
    | with_reducible apply ite_keeps
    | with_reducible apply ite_opt
    | with_reducible apply none_keeps
    | with_reducible apply fields_keep
    | with_reducible apply hostLines_keeps
    | with_reducible apply send_keeps
    | with_reducible apply windowHold_keeps
    | with_reducible apply windowRead_keeps
    | with_reducible apply done_keeps
    | with_reducible apply miss_keeps
    | with_reducible apply stopped_keeps
    | with_reducible apply waits_keeps
    | with_reducible refine use_done ?_ (by with_reducible assumption)
    | with_reducible refine use_miss ?_ (by with_reducible assumption)
    | with_reducible refine use_stopped ?_ (by with_reducible assumption)
    | with_reducible refine use_waits ?_ (by with_reducible assumption)
    | split
    | simp only [keeps_mk]
    | dsimp only

theorem bar0Write_keeps {s0 : State} (s : State) (a : Nat) (bs : List Byte) (h_s : Keeps s0 s) : Keeps s0 (State.bar0Write s a bs) := by
  rw [State.bar0Write.eq_def]; try dsimp only
  repeat' first
    | with_reducible assumption
    | intro _
    | with_reducible apply some_keeps
    | with_reducible apply fields_keep
    | with_reducible apply busWrite_keeps
    | with_reducible apply windowHold_keeps
    | with_reducible apply done_keeps
    | with_reducible apply miss_keeps
    | with_reducible apply stopped_keeps
    | with_reducible apply waits_keeps
    | with_reducible refine use_done ?_ (by with_reducible assumption)
    | with_reducible refine use_miss ?_ (by with_reducible assumption)
    | with_reducible refine use_stopped ?_ (by with_reducible assumption)
    | with_reducible refine use_waits ?_ (by with_reducible assumption)
    | with_reducible refine use_some ?_ (by with_reducible assumption)
    | split
    | simp only [keeps_mk]
    | dsimp only

theorem unsupported_keeps {s0 : State} (s : State) (h_s : Keeps s0 s) : Keeps s0 (State.unsupported s) := by
  rw [State.unsupported.eq_def]; try dsimp only
  repeat' first
    | with_reducible assumption
    | with_reducible apply bump_keeps
    | with_reducible apply set_keeps
    | dsimp only

theorem poisonDrop_keeps {s0 : State} (s : State) (a : Nat) (h_s : Keeps s0 s) : Keeps s0 (State.poisonDrop s a) := by
  rw [State.poisonDrop.eq_def]; try dsimp only
  repeat' first
    | with_reducible assumption
    | with_reducible apply bump_keeps
    | with_reducible apply raise_keeps
    | with_reducible apply set_keeps
    | dsimp only

theorem execHostWrite_keeps {s0 : State} (addr : Nat) (bytes : List Byte) (poison : Bool) (s : State) (h_s : Keeps s0 s) : OutKeeps s0 (execHostWrite addr bytes poison s) := by
  rw [execHostWrite.eq_def]; try dsimp only
  repeat' first
    | with_reducible assumption
    | intro _
    | with_reducible apply ite_keeps
    | with_reducible apply ite_out
    | with_reducible apply ite_opt
    | with_reducible apply next_keeps
    | with_reducible apply some_keeps
    | with_reducible apply none_keeps
    | with_reducible apply fields_keep
    | with_reducible apply bar0Write_keeps
    | with_reducible apply bar2Write_keeps
    | with_reducible apply poisonDrop_keeps
    | with_reducible apply unsupported_keeps
    | with_reducible refine use_some ?_ (by with_reducible assumption)
    | split
    | simp only [keeps_mk]
    | dsimp only

theorem execHostRead_keeps {s0 : State} (addr len : Nat) (s : State) (h_s : Keeps s0 s) : OutKeeps s0 (execHostRead addr len s) := by
  rw [execHostRead.eq_def]; try dsimp only
  repeat' first
    | with_reducible assumption
    | intro _
    | with_reducible apply ite_keeps
    | with_reducible apply ite_out
    | with_reducible apply ite_opt
    | with_reducible apply next_keeps
    | with_reducible apply some_keeps
    | with_reducible apply none_keeps
    | with_reducible apply fields_keep
    | with_reducible apply bar0Read_keeps
    | with_reducible apply bar2Read_keeps
    | with_reducible apply send_keeps
    | with_reducible apply unsupported_keeps
    | with_reducible refine use_some ?_ (by with_reducible assumption)
    | split
    | simp only [keeps_mk]
    | dsimp only

theorem execDoorbell_keeps {s0 : State} (q : Fin 16384) (head : Bool) (value : Nat) (s : State) (h_s : Keeps s0 s) : OutKeeps s0 (execDoorbell q head value s) := by
  rw [execDoorbell.eq_def]; try dsimp only
  repeat' first
    | with_reducible assumption
    | intro _
    | with_reducible apply ite_keeps
    | with_reducible apply ite_out
    | with_reducible apply next_keeps
    | with_reducible apply doorbell_keeps
    | split
    | dsimp only

theorem execFencedDoorbell_keeps {s0 : State} (q : Fin 16384) (head : Bool) (value drain : Nat) (s : State) (h_s : Keeps s0 s) : OutKeeps s0 (execFencedDoorbell q head value drain s) := by
  rw [execFencedDoorbell.eq_def]; try dsimp only
  repeat' first
    | with_reducible assumption
    | intro _
    | with_reducible apply ite_keeps
    | with_reducible apply ite_out
    | with_reducible apply next_keeps
    | with_reducible apply drain_keeps
    | with_reducible apply fencedBell_keeps
    | split
    | dsimp only

theorem execConfigurationAccess_keeps {s0 : State} (req : ConfigReq) (s : State) (h_s : Keeps s0 s) : OutKeeps s0 (execConfigurationAccess req s) := by
  rw [execConfigurationAccess.eq_def]; try dsimp only
  repeat' first
    | with_reducible assumption
    | intro _
    | with_reducible apply ite_keeps
    | with_reducible apply ite_out
    | with_reducible apply next_keeps
    | with_reducible apply fields_keep
    | with_reducible apply msix_keeps
    | with_reducible apply msixFlush_keeps
    | with_reducible apply send_keeps
    | with_reducible apply setHost_keeps
    | with_reducible apply unsupported_keeps
    | split
    | simp only [keeps_mk]
    | dsimp only

theorem biasGo_keeps {s0 : State} (s : State) (c : Cmd) (done : Nat) (left : List Nat) (h_s : Keeps s0 s) : Keeps s0 (State.biasGo s c done left) := by
  rw [State.biasGo.eq_def]; try dsimp only
  repeat' first
    | with_reducible assumption
    | intro _
    | with_reducible apply ite_keeps
    | with_reducible apply fields_keep
    | with_reducible apply bump_keeps
    | with_reducible apply cmdWaits_keeps
    | with_reducible apply send_keeps
    | with_reducible apply setHost_keeps
    | with_reducible apply succeed_keeps
    | split
    | simp only [keeps_mk]
    | dsimp only

theorem biasResume_keeps {s0 : State} (s : State) (h_s : Keeps s0 s) : Keeps s0 (State.biasResume s) := by
  rw [State.biasResume.eq_def]; try dsimp only
  repeat' first
    | with_reducible assumption
    | intro _
    | with_reducible apply fields_keep
    | with_reducible apply biasGo_keeps
    | with_reducible apply foldl_to_keeps BusRead.st
    | with_reducible apply foldl_keeps
    | with_reducible apply foldl_snd_keeps
    | with_reducible apply foldl_fst_keeps
    | split
    | simp only [keeps_mk]
    | dsimp only

theorem execBiasSet_keeps {s0 : State} (q : Fin 16384) (seq : Nat) (s : State) (h_s : Keeps s0 s) : OutKeeps s0 (execBiasSet q seq s) := by
  rw [execBiasSet.eq_def]; try dsimp only
  repeat' first
    | with_reducible assumption
    | intro _
    | with_reducible apply ite_keeps
    | with_reducible apply ite_out
    | with_reducible apply next_keeps
    | with_reducible apply fields_keep
    | with_reducible apply biasGo_keeps
    | with_reducible apply bump_keeps
    | with_reducible apply fail_keeps
    | with_reducible apply runCmd_keeps
    | with_reducible apply setHost_keeps
    | with_reducible apply succeed_keeps
    | split
    | simp only [keeps_mk]
    | dsimp only

theorem execCxlCacheResponse_keeps {s0 : State} (page : Nat) (s : State) (h_s : Keeps s0 s) : OutKeeps s0 (execCxlCacheResponse page s) := by
  rw [execCxlCacheResponse.eq_def]; try dsimp only
  repeat' first
    | with_reducible assumption
    | intro _
    | with_reducible apply ite_keeps
    | with_reducible apply ite_out
    | with_reducible apply ite_opt
    | with_reducible apply next_keeps
    | with_reducible apply some_keeps
    | with_reducible apply none_keeps
    | with_reducible apply fields_keep
    | with_reducible apply biasGo_keeps
    | with_reducible apply bump_keeps
    | with_reducible apply setHost_keeps
    | with_reducible refine use_some ?_ (by with_reducible assumption)
    | split
    | simp only [keeps_mk]
    | dsimp only

theorem execCxlMemRequest_keeps {s0 : State} (line : Nat) (data : Option (List Byte)) (s : State) (h_s : Keeps s0 s) : OutKeeps s0 (execCxlMemRequest line data s) := by
  rw [execCxlMemRequest.eq_def]; try dsimp only
  repeat' first
    | with_reducible assumption
    | intro _
    | with_reducible apply ite_keeps
    | with_reducible apply ite_out
    | with_reducible apply ite_opt
    | with_reducible apply next_keeps
    | with_reducible apply some_keeps
    | with_reducible apply none_keeps
    | with_reducible apply fields_keep
    | with_reducible apply bar0Write_keeps
    | with_reducible apply bump_keeps
    | with_reducible apply hostLines_keeps
    | with_reducible apply setHost_keeps
    | with_reducible refine use_some ?_ (by with_reducible assumption)
    | split
    | simp only [keeps_mk]
    | dsimp only

theorem execHostLinkTrain_keeps {s0 : State} (cxl : Bool) (speed width : Nat) (s : State) (h_s : Keeps s0 s) : OutKeeps s0 (execHostLinkTrain cxl speed width s) := by
  rw [execHostLinkTrain.eq_def]; try dsimp only
  repeat' first
    | with_reducible assumption
    | intro _
    | with_reducible apply ite_keeps
    | with_reducible apply ite_out
    | with_reducible apply next_keeps
    | with_reducible apply fields_keep
    | with_reducible apply biasResume_keeps
    | with_reducible apply bump_keeps
    | with_reducible apply set_keeps
    | with_reducible apply setHost_keeps
    | split
    | simp only [keeps_mk]
    | dsimp only

theorem configReset_keeps {s0 : State} (s : State) (h_s : Keeps s0 s) : Keeps s0 (State.configReset s) := by
  rw [State.configReset.eq_def]; try dsimp only
  repeat' first
    | with_reducible assumption
    | with_reducible apply none_keeps
    | with_reducible apply fields_keep
    | with_reducible apply setHost_keeps
    | simp only [keeps_mk]
    | dsimp only

theorem dropLink_keeps {s0 : State} (s : State) (h_s : Keeps s0 s) : Keeps s0 (State.dropLink s) := by
  rw [State.dropLink.eq_def]; try dsimp only
  repeat' first
    | with_reducible assumption
    | with_reducible apply configReset_keeps
    | with_reducible apply set_keeps
    | dsimp only

theorem nextEpoch_keeps {s0 : State} (s : State) (h_s : Keeps s0 s) : Keeps s0 (State.nextEpoch s) := by
  rw [State.nextEpoch.eq_def]; try dsimp only
  repeat' first
    | with_reducible assumption
    | with_reducible apply bumpWrap_keeps
    | dsimp only

theorem suspendQueues_keeps {s0 : State} (s : State) (h_s : Keeps s0 s) : Keeps s0 (State.suspendQueues s) := by
  rw [State.suspendQueues.eq_def]; try dsimp only
  repeat' first
    | with_reducible assumption
    | intro _
    | with_reducible apply ite_keeps
    | with_reducible apply setQState_keeps
    | with_reducible apply foldl_to_keeps BusRead.st
    | with_reducible apply foldl_keeps
    | with_reducible apply foldl_snd_keeps
    | with_reducible apply foldl_fst_keeps
    | split
    | dsimp only

theorem resetQueues_keeps {s0 : State} (s : State) (h_s : Keeps s0 s) : Keeps s0 (State.resetQueues s) := by
  rw [State.resetQueues.eq_def]; try dsimp only
  repeat' first
    | with_reducible assumption
    | intro _
    | with_reducible apply ite_keeps
    | with_reducible apply fields_keep
    | with_reducible apply bump_keeps
    | with_reducible apply setQState_keeps
    | with_reducible apply setQx_keeps
    | with_reducible apply wr_keeps
    | with_reducible apply foldl_to_keeps BusRead.st
    | with_reducible apply done_keeps
    | with_reducible apply miss_keeps
    | with_reducible apply stopped_keeps
    | with_reducible apply waits_keeps
    | with_reducible refine use_done ?_ (by with_reducible assumption)
    | with_reducible refine use_miss ?_ (by with_reducible assumption)
    | with_reducible refine use_stopped ?_ (by with_reducible assumption)
    | with_reducible refine use_waits ?_ (by with_reducible assumption)
    | with_reducible apply foldl_keeps
    | with_reducible apply foldl_snd_keeps
    | with_reducible apply foldl_fst_keeps
    | split
    | simp only [keeps_mk]
    | dsimp only

theorem scopeOne_keeps {s0 : State} (s : State) (h_s : Keeps s0 s) : Keeps s0 (State.scopeOne s) := by
  rw [State.scopeOne.eq_def]; try dsimp only
  repeat' first
    | with_reducible assumption
    | intro _
    | with_reducible apply ite_keeps
    | with_reducible apply fields_keep
    | with_reducible apply fields_reset
    | with_reducible apply fields_reset_regs
    | with_reducible apply abortCourse_keeps
    | with_reducible apply biasResume_keeps
    | with_reducible apply resetQueues_keeps
    | with_reducible apply setHost_keeps
    | split
    | simp only [keeps_mk]
    | dsimp only

theorem perst_keeps {s0 : State} (s : State) (h_s : Keeps s0 s) : Keeps s0 (State.perst s) := by
  rw [State.perst.eq_def]; try dsimp only
  repeat' first
    | with_reducible assumption
    | intro _
    | with_reducible apply ite_keeps
    | with_reducible apply fields_keep
    | with_reducible apply dropLink_keeps
    | with_reducible apply moduleReset_keeps
    | with_reducible apply nextEpoch_keeps
    | with_reducible apply scopeOne_keeps
    | with_reducible apply set_keeps
    | with_reducible apply setHost_keeps
    | with_reducible apply suspendQueues_keeps
    | split
    | simp only [keeps_mk]
    | dsimp only

theorem execHostLinkDown_keeps {s0 : State} (s : State) (h_s : Keeps s0 s) : OutKeeps s0 (execHostLinkDown s) := by
  rw [execHostLinkDown.eq_def]; try dsimp only
  repeat' first
    | with_reducible assumption
    | intro _
    | with_reducible apply ite_keeps
    | with_reducible apply ite_out
    | with_reducible apply next_keeps
    | with_reducible apply dropLink_keeps
    | with_reducible apply nextEpoch_keeps
    | with_reducible apply set_keeps
    | with_reducible apply suspendQueues_keeps
    | split
    | dsimp only

theorem execPerst_keeps {s0 : State} (s : State) (h_s : Keeps s0 s) : OutKeeps s0 (execPerst s) := by
  rw [execPerst.eq_def]; try dsimp only
  repeat' first
    | with_reducible assumption
    | intro _
    | with_reducible apply ite_keeps
    | with_reducible apply ite_out
    | with_reducible apply next_keeps
    | with_reducible apply perst_keeps
    | split
    | dsimp only

theorem execHotReset_keeps {s0 : State} (s : State) (h_s : Keeps s0 s) : OutKeeps s0 (execHotReset s) := by
  rw [execHotReset.eq_def]; try dsimp only
  repeat' first
    | with_reducible assumption
    | intro _
    | with_reducible apply ite_keeps
    | with_reducible apply ite_out
    | with_reducible apply next_keeps
    | with_reducible apply perst_keeps
    | split
    | dsimp only

theorem execLinkDisable_keeps {s0 : State} (s : State) (h_s : Keeps s0 s) : OutKeeps s0 (execLinkDisable s) := by
  rw [execLinkDisable.eq_def]; try dsimp only
  repeat' first
    | with_reducible assumption
    | intro _
    | with_reducible apply ite_keeps
    | with_reducible apply ite_out
    | with_reducible apply next_keeps
    | with_reducible apply perst_keeps
    | split
    | dsimp only

theorem execFunctionLevelReset_keeps {s0 : State} (s : State) (h_s : Keeps s0 s) : OutKeeps s0 (execFunctionLevelReset s) := by
  rw [execFunctionLevelReset.eq_def]; try dsimp only
  repeat' first
    | with_reducible assumption
    | intro _
    | with_reducible apply ite_keeps
    | with_reducible apply ite_out
    | with_reducible apply next_keeps
    | with_reducible apply configReset_keeps
    | with_reducible apply nextEpoch_keeps
    | with_reducible apply scopeOne_keeps
    | with_reducible apply set_keeps
    | split
    | dsimp only

/-! ## Machine/QueueProc.lean -/

theorem hostFailed_keeps {s0 : State} (s : State) (timeout : Bool) (h_s : Keeps s0 s) : Keeps s0 (State.hostFailed s timeout) := by
  rw [State.hostFailed.eq_def]; try dsimp only
  repeat' first
    | with_reducible assumption
    | intro _
    | with_reducible apply ite_keeps
    | with_reducible apply bump_keeps
    | with_reducible apply set_keeps
    | split
    | dsimp only

theorem packetAt_keeps {s0 : State} (s : State) (q : Nat) (ring : HostAns) (h_s : Keeps s0 s) : Keeps s0 (State.packetAt s q ring).2 := by
  rw [State.packetAt.eq_def]; try dsimp only
  repeat' first
    | with_reducible assumption
    | intro _
    | with_reducible apply ite_keeps
    | with_reducible apply ite_opt
    | with_reducible apply some_keeps
    | with_reducible apply none_keeps
    | with_reducible apply fields_keep
    | with_reducible apply hostFailed_keeps
    | with_reducible apply readMem_keeps
    | with_reducible refine use_some ?_ (by with_reducible assumption)
    | split
    | simp only [keeps_mk]
    | dsimp only

theorem startPacket_keeps {s0 : State} (s : State) (q : Nat) (pkt : List Byte) (epoch : Nat) (dropped : Bool) (h_s : Keeps s0 s) : Keeps s0 (State.startPacket s q pkt epoch dropped) := by
  rw [State.startPacket.eq_def]; try dsimp only
  repeat' first
    | with_reducible assumption
    | intro _
    | with_reducible apply some_keeps
    | with_reducible apply none_keeps
    | with_reducible apply fields_keep
    | with_reducible apply fail_keeps
    | with_reducible apply setInflight_keeps
    | with_reducible apply syncInflight_keeps
    | with_reducible refine use_some ?_ (by with_reducible assumption)
    | split
    | simp only [keeps_mk]
    | dsimp only

theorem takePacket_keeps {s0 : State} (s : State) (q : Nat) (pkt : List Byte) (h_s : Keeps s0 s) : Keeps s0 (State.takePacket s q pkt) := by
  rw [State.takePacket.eq_def]; try dsimp only
  repeat' first
    | with_reducible assumption
    | intro _
    | with_reducible apply ite_keeps
    | with_reducible apply ite_opt
    | with_reducible apply some_keeps
    | with_reducible apply fields_keep
    | with_reducible apply bump_keeps
    | with_reducible apply bumpWrap_keeps
    | with_reducible apply setQx_keeps
    | with_reducible apply startPacket_keeps
    | with_reducible refine use_some ?_ (by with_reducible assumption)
    | split
    | simp only [keeps_mk]
    | dsimp only

theorem execPacketTake_keeps {s0 : State} (q : Fin 16384) (ring : HostAns) (s : State) (h_s : Keeps s0 s) : OutKeeps s0 (execPacketTake q ring s) := by
  rw [execPacketTake.eq_def]; try dsimp only
  repeat' first
    | with_reducible assumption
    | intro _
    | with_reducible apply ite_keeps
    | with_reducible apply ite_out
    | with_reducible apply ite_opt
    | with_reducible apply next_keeps
    | with_reducible apply some_keeps
    | with_reducible apply none_keeps
    | with_reducible apply fields_keep
    | with_reducible apply packetAt_keeps
    | with_reducible apply setQx_keeps
    | with_reducible apply startPacket_keeps
    | with_reducible apply takePacket_keeps
    | with_reducible refine use_some ?_ (by with_reducible assumption)
    | split
    | simp only [keeps_mk]
    | dsimp only

theorem tornPacket_keeps {s0 : State} (s : State) (q : Nat) (tries : Nat) (h_s : Keeps s0 s) : Keeps s0 (State.tornPacket s q tries) := by
  rw [State.tornPacket.eq_def]; try dsimp only
  repeat' first
    | with_reducible assumption
    | with_reducible apply none_keeps
    | with_reducible apply fields_keep
    | with_reducible apply bump_keeps
    | with_reducible apply set_keeps
    | with_reducible apply setQState_keeps
    | with_reducible apply done_keeps
    | with_reducible apply miss_keeps
    | with_reducible apply stopped_keeps
    | with_reducible apply waits_keeps
    | with_reducible refine use_done ?_ (by with_reducible assumption)
    | with_reducible refine use_miss ?_ (by with_reducible assumption)
    | with_reducible refine use_stopped ?_ (by with_reducible assumption)
    | with_reducible refine use_waits ?_ (by with_reducible assumption)
    | simp only [keeps_mk]
    | dsimp only

theorem execPacketReread_keeps {s0 : State} (q : Fin 16384) (ring : HostAns) (s : State) (h_s : Keeps s0 s) : OutKeeps s0 (execPacketReread q ring s) := by
  rw [execPacketReread.eq_def]; try dsimp only
  repeat' first
    | with_reducible assumption
    | intro _
    | with_reducible apply ite_keeps
    | with_reducible apply ite_out
    | with_reducible apply ite_opt
    | with_reducible apply next_keeps
    | with_reducible apply some_keeps
    | with_reducible apply none_keeps
    | with_reducible apply fields_keep
    | simp only [torn_counter]
    | with_reducible apply advanceTo_keeps
    | with_reducible apply packetAt_keeps
    | with_reducible apply setQx_keeps
    | with_reducible apply takePacket_keeps
    | with_reducible apply tornPacket_keeps
    | with_reducible apply getD_keeps
    | with_reducible refine use_some ?_ (by with_reducible assumption)
    | split
    | simp only [keeps_mk]
    | dsimp only

theorem recordIrq_keeps {s0 : State} (s : State) (d : DoneCmd) (written : Bool) (h_s : Keeps s0 s) : Keeps s0 (State.recordIrq s d written) := by
  rw [State.recordIrq.eq_def]; try dsimp only
  repeat' first
    | with_reducible assumption
    | intro _
    | with_reducible apply ite_keeps
    | with_reducible apply msix_keeps
    | split
    | dsimp only

theorem execCompletionRecord_keeps {s0 : State} (q : Fin 16384) (s : State) (h_s : Keeps s0 s) : OutKeeps s0 (execCompletionRecord q s) := by
  rw [execCompletionRecord.eq_def]; try dsimp only
  repeat' first
    | with_reducible assumption
    | intro _
    | with_reducible apply ite_keeps
    | with_reducible apply ite_out
    | with_reducible apply ite_opt
    | with_reducible apply next_keeps
    | with_reducible apply some_keeps
    | with_reducible apply none_keeps
    | with_reducible apply fields_keep
    | with_reducible apply bump_keeps
    | with_reducible apply bumpWrap_keeps
    | with_reducible apply recordIrq_keeps
    | with_reducible apply send_keeps
    | with_reducible apply writeMem_keeps
    | with_reducible apply done_keeps
    | with_reducible apply miss_keeps
    | with_reducible apply stopped_keeps
    | with_reducible apply waits_keeps
    | with_reducible refine use_done ?_ (by with_reducible assumption)
    | with_reducible refine use_miss ?_ (by with_reducible assumption)
    | with_reducible refine use_stopped ?_ (by with_reducible assumption)
    | with_reducible refine use_waits ?_ (by with_reducible assumption)
    | with_reducible refine use_some ?_ (by with_reducible assumption)
    | split
    | simp only [keeps_mk]
    | dsimp only

theorem execCmdNop_keeps {s0 : State} (q : Fin 16384) (seq : Nat) (s : State) (h_s : Keeps s0 s) : OutKeeps s0 (execCmdNop q seq s) := by
  rw [execCmdNop.eq_def]; try dsimp only
  repeat' first
    | with_reducible assumption
    | intro _
    | with_reducible apply next_keeps
    | with_reducible apply runCmd_keeps
    | with_reducible apply succeed_keeps
    | dsimp only

theorem execGetInterface_keeps {s0 : State} (q : Fin 16384) (seq : Nat) (s : State) (h_s : Keeps s0 s) : OutKeeps s0 (execGetInterface q seq s) := by
  rw [execGetInterface.eq_def]; try dsimp only
  repeat' first
    | with_reducible assumption
    | intro _
    | with_reducible apply ite_keeps
    | with_reducible apply ite_out
    | with_reducible apply next_keeps
    | with_reducible apply fail_keeps
    | with_reducible apply runCmd_keeps
    | with_reducible apply set_keeps
    | with_reducible apply succeed_keeps
    | split
    | dsimp only

theorem execLaunch_keeps {s0 : State} (q : Fin 16384) (seq : Nat) (s : State) (h_s : Keeps s0 s) : OutKeeps s0 (execLaunch q seq s) := by
  rw [execLaunch.eq_def]; try dsimp only
  repeat' first
    | with_reducible assumption
    | intro _
    | with_reducible apply ite_keeps
    | with_reducible apply ite_out
    | with_reducible apply ite_opt
    | with_reducible apply next_keeps
    | with_reducible apply some_keeps
    | with_reducible apply none_keeps
    | with_reducible apply cmdWaits_keeps
    | with_reducible apply deliver_keeps
    | with_reducible apply fail_keeps
    | with_reducible apply missEvent_keeps
    | with_reducible apply runCmd_keeps
    | with_reducible refine use_some ?_ (by with_reducible assumption)
    | split
    | dsimp only

theorem dmaRefuse_keeps {s0 : State} (s : State) (c : Cmd) (a st : Nat) (h_s : Keeps s0 s) : Keeps s0 (State.dmaRefuse s c a st) := by
  rw [State.dmaRefuse.eq_def]; try dsimp only
  repeat' first
    | with_reducible assumption
    | intro _
    | with_reducible apply ite_keeps
    | with_reducible apply fail_keeps
    | with_reducible apply missEvent_keeps
    | split
    | dsimp only

theorem dmaPut_keeps {s0 : State} (s : State) (c : Cmd) (a : Nat) (bs : List Byte) (done : Nat) (k : State → State) (h_s : Keeps s0 s) (h_k : ∀ (y0 : State), Keeps s0 y0 → Keeps s0 (k y0)) : Keeps s0 (State.dmaPut s c a bs done k) := by
  rw [State.dmaPut.eq_def]; try dsimp only
  repeat' first
    | with_reducible assumption
    | intro _
    | with_reducible apply fields_keep
    | with_reducible apply act_keeps
    | with_reducible apply busWrite_keeps
    | with_reducible apply complete_keeps
    | with_reducible apply h_k
    | with_reducible apply done_keeps
    | with_reducible apply miss_keeps
    | with_reducible apply stopped_keeps
    | with_reducible apply waits_keeps
    | with_reducible refine use_done ?_ (by with_reducible assumption)
    | with_reducible refine use_miss ?_ (by with_reducible assumption)
    | with_reducible refine use_stopped ?_ (by with_reducible assumption)
    | with_reducible refine use_waits ?_ (by with_reducible assumption)
    | split
    | simp only [keeps_mk]
    | dsimp only

theorem dmaAsk_keeps {s0 : State} (s : State) (c : Cmd) (done : Nat) (h_s : Keeps s0 s) : Keeps s0 (State.dmaAsk s c done) := by
  rw [State.dmaAsk.eq_def]; try dsimp only
  repeat' first
    | with_reducible assumption
    | intro _
    | with_reducible apply ite_keeps
    | with_reducible apply fields_keep
    | with_reducible apply cmdWaits_keeps
    | with_reducible apply send_keeps
    | with_reducible apply setHost_keeps
    | with_reducible apply succeed_keeps
    | split
    | simp only [keeps_mk]
    | dsimp only

theorem copyBytes_keeps {s0 : State} (s : State) (src dst : Nat) (bs : List Byte) (h_s : Keeps s0 s) : Keeps s0 (State.copyBytes s src dst bs).2 := by
  rw [State.copyBytes.eq_def]; try dsimp only
  repeat' first
    | with_reducible assumption
    | intro _
    | with_reducible apply ite_keeps
    | with_reducible apply freeBytes_keeps
    | with_reducible apply take_keeps
    | split
    | dsimp only

theorem execDmaCopy_keeps {s0 : State} (q : Fin 16384) (seq : Nat) (s : State) (h_s : Keeps s0 s) : OutKeeps s0 (execDmaCopy q seq s) := by
  rw [execDmaCopy.eq_def]; try dsimp only
  repeat' first
    | with_reducible assumption
    | intro _
    | with_reducible apply ite_keeps
    | with_reducible apply ite_out
    | with_reducible apply ite_opt
    | with_reducible apply next_keeps
    | with_reducible apply some_keeps
    | with_reducible apply none_keeps
    | with_reducible apply fields_keep
    | with_reducible apply act_keeps
    | with_reducible apply busRead_keeps
    | with_reducible apply copyBytes_keeps
    | with_reducible apply dmaAsk_keeps
    | with_reducible apply dmaPut_keeps
    | with_reducible apply dmaRefuse_keeps
    | with_reducible apply fail_keeps
    | with_reducible apply hostWrite_keeps
    | with_reducible apply runCmd_keeps
    | with_reducible apply succeed_keeps
    | with_reducible apply done_keeps
    | with_reducible apply miss_keeps
    | with_reducible apply stopped_keeps
    | with_reducible apply waits_keeps
    | with_reducible refine use_done ?_ (by with_reducible assumption)
    | with_reducible refine use_miss ?_ (by with_reducible assumption)
    | with_reducible refine use_stopped ?_ (by with_reducible assumption)
    | with_reducible refine use_waits ?_ (by with_reducible assumption)
    | with_reducible refine use_some ?_ (by with_reducible assumption)
    | split
    | simp only [keeps_mk]
    | dsimp only

theorem execDmaFill_keeps {s0 : State} (q : Fin 16384) (seq : Nat) (s : State) (h_s : Keeps s0 s) : OutKeeps s0 (execDmaFill q seq s) := by
  rw [execDmaFill.eq_def]; try dsimp only
  repeat' first
    | with_reducible assumption
    | intro _
    | with_reducible apply ite_keeps
    | with_reducible apply ite_out
    | with_reducible apply ite_opt
    | with_reducible apply next_keeps
    | with_reducible apply some_keeps
    | with_reducible apply none_keeps
    | with_reducible apply fields_keep
    | with_reducible apply act_keeps
    | with_reducible apply dmaPut_keeps
    | with_reducible apply dmaRefuse_keeps
    | with_reducible apply fail_keeps
    | with_reducible apply hostWrite_keeps
    | with_reducible apply runCmd_keeps
    | with_reducible apply succeed_keeps
    | with_reducible refine use_some ?_ (by with_reducible assumption)
    | split
    | simp only [keeps_mk]
    | dsimp only

theorem hostAnswered_keeps {s0 : State} (s : State) (q seq : Nat) (ans : HostAns) (h_s : Keeps s0 s) : Keeps s0 (State.hostAnswered s q seq ans) := by
  rw [State.hostAnswered.eq_def]; try dsimp only
  repeat' first
    | with_reducible assumption
    | intro _
    | with_reducible apply ite_keeps
    | with_reducible apply ite_opt
    | with_reducible apply some_keeps
    | with_reducible apply none_keeps
    | with_reducible apply fields_keep
    | with_reducible apply busWrite_keeps
    | with_reducible apply complete_keeps
    | with_reducible apply dmaAsk_keeps
    | with_reducible apply dmaPut_keeps
    | with_reducible apply hostFailed_keeps
    | with_reducible apply setHost_keeps
    | with_reducible apply done_keeps
    | with_reducible apply miss_keeps
    | with_reducible apply stopped_keeps
    | with_reducible apply waits_keeps
    | with_reducible refine use_done ?_ (by with_reducible assumption)
    | with_reducible refine use_miss ?_ (by with_reducible assumption)
    | with_reducible refine use_stopped ?_ (by with_reducible assumption)
    | with_reducible refine use_waits ?_ (by with_reducible assumption)
    | with_reducible refine use_some ?_ (by with_reducible assumption)
    | split
    | simp only [keeps_mk]
    | dsimp only

theorem execHostMemoryReadCompletion_keeps {s0 : State} (q : Fin 16384) (seq : Nat) (ans : HostAns) (s : State) (h_s : Keeps s0 s) : OutKeeps s0 (execHostMemoryReadCompletion q seq ans s) := by
  rw [execHostMemoryReadCompletion.eq_def]; try dsimp only
  repeat' first
    | with_reducible assumption
    | intro _
    | with_reducible apply ite_keeps
    | with_reducible apply ite_out
    | with_reducible apply next_keeps
    | with_reducible apply hostAnswered_keeps
    | split
    | dsimp only

theorem execHostCompletionTimeout_keeps {s0 : State} (q : Fin 16384) (seq : Nat) (s : State) (h_s : Keeps s0 s) : OutKeeps s0 (execHostCompletionTimeout q seq s) := by
  rw [execHostCompletionTimeout.eq_def]; try dsimp only
  repeat' first
    | with_reducible assumption
    | intro _
    | with_reducible apply next_keeps
    | with_reducible apply hostAnswered_keeps
    | dsimp only

/-! ## Machine/Registers.lean -/

theorem execRegisterWrite_keeps {s0 : State} (addr : Nat) (bytes : List Byte) (by_ : Writer) (s : State) (h_s : Keeps s0 s) : OutKeeps s0 (execRegisterWrite addr bytes by_ s) := by
  rw [execRegisterWrite.eq_def]; try dsimp only
  repeat' first
    | with_reducible assumption
    | intro _
    | with_reducible apply ite_keeps
    | with_reducible apply ite_out
    | with_reducible apply ite_opt
    | with_reducible apply next_keeps
    | with_reducible apply some_keeps
    | with_reducible apply fields_keep
    | with_reducible apply busWrite_keeps
    | with_reducible apply postParts_keeps
    | with_reducible apply windowHold_keeps
    | with_reducible apply done_keeps
    | with_reducible apply miss_keeps
    | with_reducible apply stopped_keeps
    | with_reducible apply waits_keeps
    | with_reducible refine use_done ?_ (by with_reducible assumption)
    | with_reducible refine use_miss ?_ (by with_reducible assumption)
    | with_reducible refine use_stopped ?_ (by with_reducible assumption)
    | with_reducible refine use_waits ?_ (by with_reducible assumption)
    | with_reducible refine use_some ?_ (by with_reducible assumption)
    | split
    | simp only [keeps_mk]
    | dsimp only

theorem execReadClear_keeps {s0 : State} (addr : Nat) (by_ : Writer) (s : State) (h_s : Keeps s0 s) : OutKeeps s0 (execReadClear addr by_ s) := by
  rw [execReadClear.eq_def]; try dsimp only
  repeat' first
    | with_reducible assumption
    | intro _
    | with_reducible apply ite_keeps
    | with_reducible apply ite_out
    | with_reducible apply ite_opt
    | with_reducible apply next_keeps
    | with_reducible apply none_keeps
    | with_reducible apply busRead_keeps
    | with_reducible apply send_keeps
    | with_reducible apply windowHold_keeps
    | with_reducible apply done_keeps
    | with_reducible apply miss_keeps
    | with_reducible apply stopped_keeps
    | with_reducible apply waits_keeps
    | with_reducible refine use_done ?_ (by with_reducible assumption)
    | with_reducible refine use_miss ?_ (by with_reducible assumption)
    | with_reducible refine use_stopped ?_ (by with_reducible assumption)
    | with_reducible refine use_waits ?_ (by with_reducible assumption)
    | split
    | dsimp only

theorem execCfgDevnumWrite_keeps {s0 : State} (die : Fin 8) (value : Word) (s : State) (h_s : Keeps s0 s) : OutKeeps s0 (execCfgDevnumWrite die value s) := by
  rw [execCfgDevnumWrite.eq_def]; try dsimp only
  repeat' first
    | with_reducible assumption
    | intro _
    | with_reducible apply next_keeps
    | with_reducible apply writeDevnum_keeps
    | dsimp only

theorem execTbnSettingWrite_keeps {s0 : State} (die : Fin 8) (which : Fin 4) (value : Word) (s : State) (h_s : Keeps s0 s) : OutKeeps s0 (execTbnSettingWrite die which value s) := by
  rw [execTbnSettingWrite.eq_def]; try dsimp only
  repeat' first
    | with_reducible assumption
    | intro _
    | with_reducible apply next_keeps
    | with_reducible apply writeSetting_keeps
    | dsimp only

theorem execTbnStaggerWrite_keeps {s0 : State} (die : Fin 8) (value : Word) (s : State) (h_s : Keeps s0 s) : OutKeeps s0 (execTbnStaggerWrite die value s) := by
  rw [execTbnStaggerWrite.eq_def]; try dsimp only
  repeat' first
    | with_reducible assumption
    | intro _
    | with_reducible apply next_keeps
    | with_reducible apply writeSetting_keeps
    | dsimp only

theorem execDkeyWrite_keeps {s0 : State} (die : Fin 8) (value : Word) (s : State) (h_s : Keeps s0 s) : OutKeeps s0 (execDkeyWrite die value s) := by
  rw [execDkeyWrite.eq_def]; try dsimp only
  repeat' first
    | with_reducible assumption
    | intro _
    | with_reducible apply next_keeps
    | with_reducible apply regWrite_keeps
    | dsimp only

theorem execCompareHaltRelease_keeps {s0 : State} (s : State) (h_s : Keeps s0 s) : OutKeeps s0 (execCompareHaltRelease s) := by
  rw [execCompareHaltRelease.eq_def]; try dsimp only
  repeat' first
    | with_reducible assumption
    | intro _
    | with_reducible apply next_keeps
    | with_reducible apply regWrite_keeps
    | dsimp only

theorem execJflLostClear_keeps {s0 : State} (word : Fin 32) (mask : Word) (s : State) (h_s : Keeps s0 s) : OutKeeps s0 (execJflLostClear word mask s) := by
  rw [execJflLostClear.eq_def]; try dsimp only
  repeat' first
    | with_reducible assumption
    | intro _
    | with_reducible apply next_keeps
    | with_reducible apply clearLost_keeps
    | dsimp only

theorem execPortRetrain_keeps {s0 : State} (port : Fin 32) (value : Word) (s : State) (h_s : Keeps s0 s) : OutKeeps s0 (execPortRetrain port value s) := by
  rw [execPortRetrain.eq_def]; try dsimp only
  repeat' first
    | with_reducible assumption
    | intro _
    | with_reducible apply next_keeps
    | with_reducible apply writePctrl_keeps
    | dsimp only

theorem execQpQdbWrite_keeps {s0 : State} (q : Fin 16384) (value : Word) (s : State) (h_s : Keeps s0 s) : OutKeeps s0 (execQpQdbWrite q value s) := by
  rw [execQpQdbWrite.eq_def]; try dsimp only
  repeat' first
    | with_reducible assumption
    | intro _
    | with_reducible apply next_keeps
    | with_reducible apply writeQdb_keeps
    | dsimp only

theorem execQueueArm_keeps {s0 : State} (q : Fin 16384) (value : Word) (s : State) (h_s : Keeps s0 s) : OutKeeps s0 (execQueueArm q value s) := by
  rw [execQueueArm.eq_def]; try dsimp only
  repeat' first
    | with_reducible assumption
    | intro _
    | with_reducible apply next_keeps
    | with_reducible apply writeQcfg_keeps
    | split
    | dsimp only

theorem execQueueDisarm_keeps {s0 : State} (q : Fin 16384) (value : Word) (s : State) (h_s : Keeps s0 s) : OutKeeps s0 (execQueueDisarm q value s) := by
  rw [execQueueDisarm.eq_def]; try dsimp only
  repeat' first
    | with_reducible assumption
    | intro _
    | with_reducible apply next_keeps
    | with_reducible apply writeQcfg_keeps
    | dsimp only

theorem execCcHalt_keeps {s0 : State} (g : Fin 1024) (halt : Bool) (s : State) (h_s : Keeps s0 s) : OutKeeps s0 (execCcHalt g halt s) := by
  rw [execCcHalt.eq_def]; try dsimp only
  repeat' first
    | with_reducible assumption
    | intro _
    | with_reducible apply ite_keeps
    | with_reducible apply ite_out
    | with_reducible apply next_keeps
    | with_reducible apply ccCtrl_keeps
    | split
    | dsimp only

theorem execCcStep_keeps {s0 : State} (g : Fin 1024) (s : State) (h_s : Keeps s0 s) : OutKeeps s0 (execCcStep g s) := by
  rw [execCcStep.eq_def]; try dsimp only
  repeat' first
    | with_reducible assumption
    | intro _
    | with_reducible apply next_keeps
    | with_reducible apply ccCtrl_keeps
    | dsimp only

theorem execScalarRegisterWrite_keeps {s0 : State} (g : Fin 1024) (n : Fin 64) (value : Word) (s : State) (h_s : Keeps s0 s) : OutKeeps s0 (execScalarRegisterWrite g n value s) := by
  rw [execScalarRegisterWrite.eq_def]; try dsimp only
  repeat' first
    | with_reducible assumption
    | intro _
    | with_reducible apply next_keeps
    | with_reducible apply scalarWrite_keeps
    | dsimp only

theorem execProgramMemoryWrite_keeps {s0 : State} (g : Fin 1024) (off : Nat) (bytes : List Byte) (s : State) (h_s : Keeps s0 s) : OutKeeps s0 (execProgramMemoryWrite g off bytes s) := by
  rw [execProgramMemoryWrite.eq_def]; try dsimp only
  repeat' first
    | with_reducible assumption
    | intro _
    | with_reducible apply next_keeps
    | with_reducible apply programWrite_keeps
    | with_reducible apply take_keeps
    | dsimp only

theorem execCompChange_keeps {s0 : State} (g : Fin 1024) (value : Word) (s : State) (h_s : Keeps s0 s) : OutKeeps s0 (execCompChange g value s) := by
  rw [execCompChange.eq_def]; try dsimp only
  repeat' first
    | with_reducible assumption
    | intro _
    | with_reducible apply next_keeps
    | with_reducible apply compChange_keeps
    | dsimp only

theorem execAccSegWrite_keeps {s0 : State} (g : Fin 1024) (t : Fin 32) (value : Word) (s : State) (h_s : Keeps s0 s) : OutKeeps s0 (execAccSegWrite g t value s) := by
  rw [execAccSegWrite.eq_def]; try dsimp only
  repeat' first
    | with_reducible assumption
    | intro _
    | with_reducible apply next_keeps
    | with_reducible apply segWrite_keeps
    | dsimp only

theorem execAccumulatorAccess_keeps {s0 : State} (g : Fin 1024) (off len : Nat) (data : Option (List Byte)) (s : State) (h_s : Keeps s0 s) : OutKeeps s0 (execAccumulatorAccess g off len data s) := by
  rw [execAccumulatorAccess.eq_def]; try dsimp only
  repeat' first
    | with_reducible assumption
    | intro _
    | with_reducible apply ite_keeps
    | with_reducible apply ite_out
    | with_reducible apply ite_opt
    | with_reducible apply next_keeps
    | with_reducible apply some_keeps
    | with_reducible apply none_keeps
    | with_reducible apply fields_keep
    | with_reducible apply accHold_keeps
    | with_reducible apply accServe_keeps
    | with_reducible refine use_some ?_ (by with_reducible assumption)
    | split
    | simp only [keeps_mk]
    | dsimp only

theorem execDormerAccessTimeout_keeps {s0 : State} (g : Fin 1024) (s : State) (h_s : Keeps s0 s) : OutKeeps s0 (execDormerAccessTimeout g s) := by
  rw [execDormerAccessTimeout.eq_def]; try dsimp only
  repeat' first
    | with_reducible assumption
    | intro _
    | with_reducible apply ite_keeps
    | with_reducible apply ite_out
    | with_reducible apply ite_opt
    | with_reducible apply next_keeps
    | with_reducible apply some_keeps
    | with_reducible apply none_keeps
    | with_reducible apply fields_keep
    | with_reducible apply advanceTo_keeps
    | with_reducible apply raise_keeps
    | with_reducible apply send_keeps
    | with_reducible apply tileFreed_keeps
    | with_reducible apply updCl_keeps
    | with_reducible refine use_some ?_ (by with_reducible assumption)
    | split
    | simp only [keeps_mk]
    | dsimp only

/-! ## Machine/Roce.lean -/

theorem ingestWrite_keeps {s0 : State} (s : State) (h : RoceHdr) (rkey va : Nat) (data : List Byte) (done : MemRegion → State → State) (h_s : Keeps s0 s) (h_done : ∀ (y0 : MemRegion) (y1 : State), Keeps s0 y1 → Keeps s0 (done y0 y1)) : Keeps s0 (State.ingestWrite s h rkey va data done) := by
  rw [State.ingestWrite.eq_def]; try dsimp only
  repeat' first
    | with_reducible assumption
    | intro _
    | with_reducible apply ite_keeps
    | with_reducible apply ite_opt
    | with_reducible apply some_keeps
    | with_reducible apply none_keeps
    | with_reducible apply fields_keep
    | with_reducible apply ackAgain_keeps
    | with_reducible apply bump_keeps
    | with_reducible apply busPost_keeps
    | with_reducible apply ingestRecord_keeps
    | with_reducible apply qpError_keeps
    | with_reducible apply sendAck_keeps
    | with_reducible apply sendNak_keeps
    | with_reducible apply set_keeps
    | with_reducible apply takeRoce_keeps
    | with_reducible apply h_done
    | with_reducible apply done_keeps
    | with_reducible apply miss_keeps
    | with_reducible apply stopped_keeps
    | with_reducible apply waits_keeps
    | with_reducible refine use_done ?_ (by with_reducible assumption)
    | with_reducible refine use_miss ?_ (by with_reducible assumption)
    | with_reducible refine use_stopped ?_ (by with_reducible assumption)
    | with_reducible refine use_waits ?_ (by with_reducible assumption)
    | with_reducible refine use_some ?_ (by with_reducible assumption)
    | split
    | simp only [keeps_mk]
    | dsimp only

theorem execResponderRdmaWrite_keeps {s0 : State} (h : RoceHdr) (rkey va : Nat) (data : List Byte) (s : State) (h_s : Keeps s0 s) : OutKeeps s0 (execResponderRdmaWrite h rkey va data s) := by
  rw [execResponderRdmaWrite.eq_def]; try dsimp only
  repeat' first
    | with_reducible assumption
    | intro _
    | with_reducible apply next_keeps
    | with_reducible apply ingestWrite_keeps
    | dsimp only

theorem execResponderWriteWithImmediate_keeps {s0 : State} (h : RoceHdr) (rkey va : Nat) (data : List Byte) (_imm : Nat) (s : State) (h_s : Keeps s0 s) : OutKeeps s0 (execResponderWriteWithImmediate h rkey va data _imm s) := by
  rw [execResponderWriteWithImmediate.eq_def]; try dsimp only
  repeat' first
    | with_reducible assumption
    | intro _
    | with_reducible apply next_keeps
    | with_reducible apply ingestRecord_keeps
    | with_reducible apply ingestWrite_keeps
    | dsimp only

theorem readAnswer_keeps {s0 : State} (s : State) (h : RoceHdr) (rkey va len : Nat) (h_s : Keeps s0 s) : Keeps s0 (State.readAnswer s h rkey va len) := by
  rw [State.readAnswer.eq_def]; try dsimp only
  repeat' first
    | with_reducible assumption
    | intro _
    | with_reducible apply ite_keeps
    | with_reducible apply ite_opt
    | with_reducible apply some_keeps
    | with_reducible apply none_keeps
    | with_reducible apply fields_keep
    | with_reducible apply bump_keeps
    | with_reducible apply busRead_keeps
    | with_reducible apply portSend_keeps
    | with_reducible apply sendNak_keeps
    | with_reducible apply done_keeps
    | with_reducible apply miss_keeps
    | with_reducible apply stopped_keeps
    | with_reducible apply waits_keeps
    | with_reducible refine use_done ?_ (by with_reducible assumption)
    | with_reducible refine use_miss ?_ (by with_reducible assumption)
    | with_reducible refine use_stopped ?_ (by with_reducible assumption)
    | with_reducible refine use_waits ?_ (by with_reducible assumption)
    | with_reducible refine use_some ?_ (by with_reducible assumption)
    | split
    | simp only [keeps_mk]
    | dsimp only

theorem execResponderRdmaRead_keeps {s0 : State} (h : RoceHdr) (rkey va len : Nat) (s : State) (h_s : Keeps s0 s) : OutKeeps s0 (execResponderRdmaRead h rkey va len s) := by
  rw [execResponderRdmaRead.eq_def]; try dsimp only
  repeat' first
    | with_reducible assumption
    | intro _
    | with_reducible apply next_keeps
    | with_reducible apply readAnswer_keeps
    | with_reducible apply takeRoce_keeps
    | dsimp only

theorem roceAcked_keeps {s0 : State} (s : State) (port qp psn : Nat) (x : QueuePair) (h_s : Keeps s0 s) : Keeps s0 (State.roceAcked s port qp psn x) := by
  rw [State.roceAcked.eq_def]; try dsimp only
  repeat' first
    | with_reducible assumption
    | intro _
    | with_reducible apply ite_keeps
    | with_reducible apply fields_keep
    | with_reducible apply putQp_keeps
    | with_reducible apply roceDone_keeps
    | with_reducible apply foldl_to_keeps BusRead.st
    | with_reducible apply foldl_keeps
    | with_reducible apply foldl_snd_keeps
    | with_reducible apply foldl_fst_keeps
    | split
    | simp only [keeps_mk]
    | dsimp only

theorem execRoceAck_keeps {s0 : State} (port : Fin 2) (dest : QpFrame) (psn : Nat) (nak : Option Nat) (s : State) (h_s : Keeps s0 s) : OutKeeps s0 (execRoceAck port dest psn nak s) := by
  rw [execRoceAck.eq_def]; try dsimp only
  repeat' first
    | with_reducible assumption
    | intro _
    | with_reducible apply ite_keeps
    | with_reducible apply ite_out
    | with_reducible apply ite_opt
    | with_reducible apply next_keeps
    | with_reducible apply some_keeps
    | with_reducible apply none_keeps
    | with_reducible apply fields_keep
    | with_reducible apply frameIn_keeps
    | with_reducible apply goBack_keeps
    | with_reducible apply qpError_keeps
    | with_reducible apply roceAcked_keeps
    | with_reducible refine use_some ?_ (by with_reducible assumption)
    | split
    | simp only [keeps_mk]
    | dsimp only

theorem execRoceAckTimeout_keeps {s0 : State} (port : Fin 2) (qp : Fin 1024) (s : State) (h_s : Keeps s0 s) : OutKeeps s0 (execRoceAckTimeout port qp s) := by
  rw [execRoceAckTimeout.eq_def]; try dsimp only
  repeat' first
    | with_reducible assumption
    | intro _
    | with_reducible apply ite_keeps
    | with_reducible apply ite_out
    | with_reducible apply ite_opt
    | with_reducible apply next_keeps
    | with_reducible apply some_keeps
    | with_reducible apply none_keeps
    | with_reducible apply fields_keep
    | with_reducible apply goBack_keeps
    | with_reducible apply putQp_keeps
    | with_reducible apply qpError_keeps
    | with_reducible refine use_some ?_ (by with_reducible assumption)
    | split
    | simp only [keeps_mk]
    | dsimp only

theorem execRdmaReadResponse_keeps {s0 : State} (port : Fin 2) (dest : QpFrame) (psn : Nat) (bytes : List Byte) (s : State) (h_s : Keeps s0 s) : OutKeeps s0 (execRdmaReadResponse port dest psn bytes s) := by
  rw [execRdmaReadResponse.eq_def]; try dsimp only
  repeat' first
    | with_reducible assumption
    | intro _
    | with_reducible apply ite_keeps
    | with_reducible apply ite_out
    | with_reducible apply ite_opt
    | with_reducible apply next_keeps
    | with_reducible apply some_keeps
    | with_reducible apply none_keeps
    | with_reducible apply fields_keep
    | with_reducible apply act_keeps
    | with_reducible apply bump_keeps
    | with_reducible apply busPost_keeps
    | with_reducible apply frameIn_keeps
    | with_reducible apply goBack_keeps
    | with_reducible apply putQp_keeps
    | with_reducible apply roceDone_keeps
    | with_reducible apply roceFailed_keeps
    | with_reducible apply set_keeps
    | with_reducible apply take_keeps
    | with_reducible apply foldl_to_keeps BusRead.st
    | with_reducible apply done_keeps
    | with_reducible apply miss_keeps
    | with_reducible apply stopped_keeps
    | with_reducible apply waits_keeps
    | with_reducible refine use_done ?_ (by with_reducible assumption)
    | with_reducible refine use_miss ?_ (by with_reducible assumption)
    | with_reducible refine use_stopped ?_ (by with_reducible assumption)
    | with_reducible refine use_waits ?_ (by with_reducible assumption)
    | with_reducible apply foldl_keeps
    | with_reducible apply foldl_snd_keeps
    | with_reducible apply foldl_fst_keeps
    | with_reducible refine use_some ?_ (by with_reducible assumption)
    | split
    | simp only [keeps_mk]
    | dsimp only

theorem rdmaStart_keeps {s0 : State} (s : State) (c : Cmd) (read : Bool) (h_s : Keeps s0 s) : Keeps s0 (State.rdmaStart s c read) := by
  rw [State.rdmaStart.eq_def]; try dsimp only
  repeat' first
    | with_reducible assumption
    | intro _
    | with_reducible apply ite_keeps
    | with_reducible apply ite_opt
    | with_reducible apply some_keeps
    | with_reducible apply none_keeps
    | with_reducible apply fields_keep
    | with_reducible apply cmdWaits_keeps
    | with_reducible apply fail_keeps
    | with_reducible apply makeRoce_keeps
    | with_reducible apply missEvent_keeps
    | with_reducible refine use_some ?_ (by with_reducible assumption)
    | split
    | simp only [keeps_mk]
    | dsimp only

theorem execRdmaWrite_keeps {s0 : State} (q : Fin 16384) (seq : Nat) (s : State) (h_s : Keeps s0 s) : OutKeeps s0 (execRdmaWrite q seq s) := by
  rw [execRdmaWrite.eq_def]; try dsimp only
  repeat' first
    | with_reducible assumption
    | intro _
    | with_reducible apply next_keeps
    | with_reducible apply rdmaStart_keeps
    | with_reducible apply runCmd_keeps
    | dsimp only

theorem execRdmaRead_keeps {s0 : State} (q : Fin 16384) (seq : Nat) (s : State) (h_s : Keeps s0 s) : OutKeeps s0 (execRdmaRead q seq s) := by
  rw [execRdmaRead.eq_def]; try dsimp only
  repeat' first
    | with_reducible assumption
    | intro _
    | with_reducible apply next_keeps
    | with_reducible apply rdmaStart_keeps
    | with_reducible apply runCmd_keeps
    | dsimp only

theorem execCnp_keeps {s0 : State} (port : Fin 2) (dest : QpFrame) (s : State) (h_s : Keeps s0 s) : OutKeeps s0 (execCnp port dest s) := by
  rw [execCnp.eq_def]; try dsimp only
  repeat' first
    | with_reducible assumption
    | intro _
    | with_reducible apply ite_keeps
    | with_reducible apply ite_out
    | with_reducible apply ite_opt
    | with_reducible apply next_keeps
    | with_reducible apply some_keeps
    | with_reducible apply none_keeps
    | with_reducible apply fields_keep
    | with_reducible apply frameIn_keeps
    | with_reducible apply putQp_keeps
    | with_reducible refine use_some ?_ (by with_reducible assumption)
    | split
    | simp only [keeps_mk]
    | dsimp only

theorem execRateRestore_keeps {s0 : State} (port : Fin 2) (qp : Fin 1024) (rate : Rat) (s : State) (h_s : Keeps s0 s) : OutKeeps s0 (execRateRestore port qp rate s) := by
  rw [execRateRestore.eq_def]; try dsimp only
  repeat' first
    | with_reducible assumption
    | intro _
    | with_reducible apply ite_keeps
    | with_reducible apply ite_out
    | with_reducible apply ite_opt
    | with_reducible apply next_keeps
    | with_reducible apply some_keeps
    | with_reducible apply none_keeps
    | with_reducible apply fields_keep
    | with_reducible apply putQp_keeps
    | with_reducible refine use_some ?_ (by with_reducible assumption)
    | split
    | simp only [keeps_mk]
    | dsimp only

theorem execPriorityFlowControlFrame_keeps {s0 : State} (port : Fin 2) (prio : Fin 8) (pause : Bool) (s : State) (h_s : Keeps s0 s) : OutKeeps s0 (execPriorityFlowControlFrame port prio pause s) := by
  rw [execPriorityFlowControlFrame.eq_def]; try dsimp only
  repeat' first
    | with_reducible assumption
    | intro _
    | with_reducible apply ite_keeps
    | with_reducible apply ite_out
    | with_reducible apply next_keeps
    | with_reducible apply fields_keep
    | with_reducible apply pumpPort_keeps
    | with_reducible apply updEth_keeps
    | split
    | simp only [keeps_mk]
    | dsimp only

theorem execIngestLinkStateChange_keeps {s0 : State} (port : Fin 2) (up fec : Bool) (s : State) (h_s : Keeps s0 s) : OutKeeps s0 (execIngestLinkStateChange port up fec s) := by
  rw [execIngestLinkStateChange.eq_def]; try dsimp only
  repeat' first
    | with_reducible assumption
    | intro _
    | with_reducible apply ite_keeps
    | with_reducible apply ite_out
    | with_reducible apply next_keeps
    | with_reducible apply fields_keep
    | with_reducible apply pumpPort_keeps
    | with_reducible apply set_keeps
    | with_reducible apply updEth_keeps
    | split
    | simp only [keeps_mk]
    | dsimp only

theorem execTransceiverPresenceChange_keeps {s0 : State} (port : Fin 2) (present : Bool) (s : State) (h_s : Keeps s0 s) : OutKeeps s0 (execTransceiverPresenceChange port present s) := by
  rw [execTransceiverPresenceChange.eq_def]; try dsimp only
  repeat' first
    | with_reducible assumption
    | intro _
    | with_reducible apply ite_keeps
    | with_reducible apply ite_out
    | with_reducible apply next_keeps
    | with_reducible apply set_keeps
    | split
    | dsimp only

theorem execMrRegister_keeps {s0 : State} (q : Fin 16384) (seq : Nat) (s : State) (h_s : Keeps s0 s) : OutKeeps s0 (execMrRegister q seq s) := by
  rw [execMrRegister.eq_def]; try dsimp only
  repeat' first
    | with_reducible assumption
    | intro _
    | with_reducible apply ite_keeps
    | with_reducible apply ite_out
    | with_reducible apply ite_opt
    | with_reducible apply next_keeps
    | with_reducible apply some_keeps
    | with_reducible apply none_keeps
    | with_reducible apply fields_keep
    | with_reducible apply draw_keeps
    | with_reducible apply fail_keeps
    | with_reducible apply needA_keeps
    | with_reducible apply runCmd_keeps
    | with_reducible apply succeed_keeps
    | with_reducible apply updEth_keeps
    | with_reducible apply writeEntry_keeps
    | with_reducible refine use_some ?_ (by with_reducible assumption)
    | split
    | simp only [keeps_mk]
    | dsimp only

theorem execMrDeregister_keeps {s0 : State} (q : Fin 16384) (seq : Nat) (s : State) (h_s : Keeps s0 s) : OutKeeps s0 (execMrDeregister q seq s) := by
  rw [execMrDeregister.eq_def]; try dsimp only
  repeat' first
    | with_reducible assumption
    | intro _
    | with_reducible apply ite_keeps
    | with_reducible apply ite_out
    | with_reducible apply ite_opt
    | with_reducible apply next_keeps
    | with_reducible apply some_keeps
    | with_reducible apply none_keeps
    | with_reducible apply fields_keep
    | with_reducible apply fail_keeps
    | with_reducible apply runCmd_keeps
    | with_reducible apply succeed_keeps
    | with_reducible apply updEth_keeps
    | with_reducible apply writeEntry_keeps
    | with_reducible refine use_some ?_ (by with_reducible assumption)
    | split
    | simp only [keeps_mk]
    | dsimp only

theorem execRoceQpSet_keeps {s0 : State} (q : Fin 16384) (seq : Nat) (ctx : QpContext) (s : State) (h_s : Keeps s0 s) : OutKeeps s0 (execRoceQpSet q seq ctx s) := by
  rw [execRoceQpSet.eq_def]; try dsimp only
  repeat' first
    | with_reducible assumption
    | intro _
    | with_reducible apply ite_keeps
    | with_reducible apply ite_out
    | with_reducible apply ite_opt
    | with_reducible apply next_keeps
    | with_reducible apply some_keeps
    | with_reducible apply none_keeps
    | with_reducible apply fields_keep
    | with_reducible apply fail_keeps
    | with_reducible apply needA_keeps
    | with_reducible apply needMem_keeps
    | with_reducible apply putQp_keeps
    | with_reducible apply readMem_keeps
    | with_reducible apply roceFailed_keeps
    | with_reducible apply runCmd_keeps
    | with_reducible apply succeed_keeps
    | with_reducible apply writeMem_keeps
    | with_reducible apply foldl_to_keeps BusRead.st
    | with_reducible apply foldl_keeps
    | with_reducible apply foldl_snd_keeps
    | with_reducible apply foldl_fst_keeps
    | with_reducible refine use_some ?_ (by with_reducible assumption)
    | split
    | simp only [keeps_mk]
    | dsimp only

/-! ## Machine/Startup.lean -/

theorem setStart_keeps {s0 : State} (s : State) (x : Start) (h_s : Keeps s0 s) : Keeps s0 (State.setStart s x) := by
  rw [State.setStart.eq_def]; try dsimp only
  repeat' first
    | with_reducible assumption
    | with_reducible apply fields_keep
    | simp only [keeps_mk]
    | dsimp only

theorem execPowerOn_keeps {s0 : State} (s : State) (h_s : Keeps s0 s) : OutKeeps s0 (execPowerOn s) := by
  rw [execPowerOn.eq_def]; try dsimp only
  repeat' first
    | with_reducible assumption
    | intro _
    | with_reducible apply ite_keeps
    | with_reducible apply ite_out
    | with_reducible apply next_keeps
    | with_reducible apply powerOnReset_keeps
    | split
    | dsimp only

theorem execSupplyQualified_keeps {s0 : State} (s : State) (h_s : Keeps s0 s) : OutKeeps s0 (execSupplyQualified s) := by
  rw [execSupplyQualified.eq_def]; try dsimp only
  repeat' first
    | with_reducible assumption
    | intro _
    | with_reducible apply ite_keeps
    | with_reducible apply ite_out
    | with_reducible apply next_keeps
    | with_reducible apply fields_keep
    | with_reducible apply setStart_keeps
    | split
    | simp only [keeps_mk]
    | dsimp only

theorem execPowerGood_keeps {s0 : State} (s : State) (h_s : Keeps s0 s) : OutKeeps s0 (execPowerGood s) := by
  rw [execPowerGood.eq_def]; try dsimp only
  repeat' first
    | with_reducible assumption
    | intro _
    | with_reducible apply ite_keeps
    | with_reducible apply ite_out
    | with_reducible apply next_keeps
    | with_reducible apply fields_keep
    | with_reducible apply setStart_keeps
    | split
    | simp only [keeps_mk]
    | dsimp only

theorem resumeTime_keeps {s0 : State} (s : State) (h_s : Keeps s0 s) : Keeps s0 (State.resumeTime s) := by
  rw [State.resumeTime.eq_def]; try dsimp only
  repeat' first
    | with_reducible assumption
    | intro _
    | with_reducible apply ite_keeps
    | with_reducible apply ite_opt
    | with_reducible apply some_keeps
    | with_reducible apply none_keeps
    | with_reducible apply fields_keep
    | with_reducible apply cause_keeps
    | with_reducible apply set_keeps
    | with_reducible refine use_some ?_ (by with_reducible assumption)
    | split
    | simp only [keeps_mk]
    | dsimp only

theorem recordCause_keeps {s0 : State} (s : State) (h_s : Keeps s0 s) : Keeps s0 (State.recordCause s) := by
  rw [State.recordCause.eq_def]; try dsimp only
  repeat' first
    | with_reducible assumption
    | intro _
    | with_reducible apply some_keeps
    | with_reducible apply none_keeps
    | with_reducible apply fields_keep
    | with_reducible apply cause_keeps
    | with_reducible apply raise_keeps
    | with_reducible apply setStart_keeps
    | with_reducible refine use_some ?_ (by with_reducible assumption)
    | split
    | simp only [keeps_mk]
    | dsimp only

theorem bankFailed_keeps {s0 : State} (s : State) (b step : Nat) (h_s : Keeps s0 s) : Keeps s0 (State.bankFailed s b step) := by
  rw [State.bankFailed.eq_def]; try dsimp only
  repeat' first
    | with_reducible assumption
    | with_reducible apply raise_keeps
    | dsimp only

theorem tryBank_keeps {s0 : State} (s : State) (b : Nat) (next : State → Option Nat × State) (h_s : Keeps s0 s) (h_next : ∀ (y0 : State), Keeps s0 y0 → Keeps s0 (next y0).2) : Keeps s0 (State.tryBank s b next).2 := by
  rw [State.tryBank.eq_def]; try dsimp only
  repeat' first
    | with_reducible assumption
    | intro _
    | with_reducible apply some_keeps
    | with_reducible apply none_keeps
    | with_reducible apply fields_keep
    | with_reducible apply bankFailed_keeps
    | with_reducible apply h_next
    | with_reducible refine use_some ?_ (by with_reducible assumption)
    | split
    | simp only [keeps_mk]
    | dsimp only

theorem pickBank_keeps {s0 : State} (s : State) (x0 : List Nat) (h_s : Keeps s0 s) : Keeps s0 (State.pickBank s x0).2 := by
  induction x0 generalizing s with
  | nil =>
    rw [State.pickBank.eq_def]; try dsimp only
    repeat' first
      | with_reducible assumption
      | intro _
      | with_reducible apply none_keeps
      | with_reducible apply tryBank_keeps
      | with_reducible apply ih
      | split
      | dsimp only
  | cons a l ih =>
    rw [State.pickBank.eq_def]; try dsimp only
    repeat' first
      | with_reducible assumption
      | intro _
      | with_reducible apply none_keeps
      | with_reducible apply tryBank_keeps
      | with_reducible apply ih
      | split
      | dsimp only

theorem bootImage_keeps {s0 : State} (s : State) (b : Nat) (unconfirmed : Bool) (h_s : Keeps s0 s) : Keeps s0 (State.bootImage s b unconfirmed) := by
  rw [State.bootImage.eq_def]; try dsimp only
  repeat' first
    | with_reducible assumption
    | intro _
    | with_reducible apply ite_keeps
    | with_reducible apply fields_keep
    | with_reducible apply assess_keeps
    | with_reducible apply extend_keeps
    | with_reducible apply set_keeps
    | with_reducible apply setStart_keeps
    | with_reducible apply take_keeps
    | split
    | simp only [keeps_mk]
    | dsimp only

theorem execRomBoot_keeps {s0 : State} (s : State) (h_s : Keeps s0 s) : OutKeeps s0 (execRomBoot s) := by
  rw [execRomBoot.eq_def]; try dsimp only
  repeat' first
    | with_reducible assumption
    | intro _
    | with_reducible apply ite_keeps
    | with_reducible apply ite_out
    | with_reducible apply ite_opt
    | with_reducible apply next_keeps
    | with_reducible apply some_keeps
    | with_reducible apply none_keeps
    | with_reducible apply fields_keep
    | with_reducible apply bootImage_keeps
    | with_reducible apply extend_keeps
    | with_reducible apply pickBank_keeps
    | with_reducible apply recordCause_keeps
    | with_reducible apply resumeTime_keeps
    | with_reducible apply setStart_keeps
    | with_reducible refine use_some ?_ (by with_reducible assumption)
    | split
    | simp only [keeps_mk]
    | dsimp only

theorem execDieBringUp_keeps {s0 : State} (bad : Option (Fin 8)) (s : State) (h_s : Keeps s0 s) : OutKeeps s0 (execDieBringUp bad s) := by
  rw [execDieBringUp.eq_def]; try dsimp only
  repeat' first
    | with_reducible assumption
    | intro _
    | with_reducible apply ite_keeps
    | with_reducible apply ite_out
    | with_reducible apply ite_opt
    | with_reducible apply next_keeps
    | with_reducible apply some_keeps
    | with_reducible apply none_keeps
    | with_reducible apply fields_keep
    | with_reducible apply openSlot_keeps
    | with_reducible apply raise_keeps
    | with_reducible apply set_keeps
    | with_reducible apply setStart_keeps
    | with_reducible refine use_some ?_ (by with_reducible assumption)
    | split
    | simp only [keeps_mk]
    | dsimp only

theorem execSettingsRead_keeps {s0 : State} (fresh : List Nat) (s : State) (h_s : Keeps s0 s) : OutKeeps s0 (execSettingsRead fresh s) := by
  rw [execSettingsRead.eq_def]; try dsimp only
  repeat' first
    | with_reducible assumption
    | intro _
    | with_reducible apply ite_keeps
    | with_reducible apply ite_out
    | with_reducible apply next_keeps
    | with_reducible apply fields_keep
    | with_reducible apply assess_keeps
    | with_reducible apply commitFields_keeps
    | with_reducible apply extend_keeps
    | with_reducible apply flashAdd_keeps
    | with_reducible apply loadStaging_keeps
    | with_reducible apply raise_keeps
    | with_reducible apply set_keeps
    | with_reducible apply foldl_to_keeps BusRead.st
    | with_reducible apply foldl_keeps
    | with_reducible apply foldl_snd_keeps
    | with_reducible apply foldl_fst_keeps
    | split
    | simp only [keeps_mk]
    | dsimp only

theorem devDead_keeps {s0 : State} (s : State) (ctl dev : Nat) (h_s : Keeps s0 s) : Keeps s0 (State.devDead s ctl dev) := by
  rw [State.devDead.eq_def]; try dsimp only
  repeat' first
    | with_reducible assumption
    | intro _
    | with_reducible apply fields_keep
    | with_reducible apply raise_keeps
    | with_reducible apply setStart_keeps
    | simp only [keeps_mk]
    | dsimp only

theorem trainDev_keeps {s0 : State} (s : State) (ctl : Nat) (bad : List Nat) (dev : Nat) (h_s : Keeps s0 s) : Keeps s0 (State.trainDev s ctl bad dev) := by
  rw [State.trainDev.eq_def]; try dsimp only
  repeat' first
    | with_reducible assumption
    | intro _
    | with_reducible apply ite_keeps
    | with_reducible apply fields_keep
    | with_reducible apply devDead_keeps
    | with_reducible apply setStart_keeps
    | split
    | simp only [keeps_mk]
    | dsimp only

theorem endS6_keeps {s0 : State} (s : State) (h_s : Keeps s0 s) : Keeps s0 (State.endS6 s) := by
  rw [State.endS6.eq_def]; try dsimp only
  repeat' first
    | with_reducible assumption
    | intro _
    | with_reducible apply ite_keeps
    | with_reducible apply fields_keep
    | with_reducible apply setStart_keeps
    | split
    | simp only [keeps_mk]
    | dsimp only

theorem execChannelTrainingRound_keeps {s0 : State} (ctl : Fin 24) (bad : List Nat) (s : State) (h_s : Keeps s0 s) : OutKeeps s0 (execChannelTrainingRound ctl bad s) := by
  rw [execChannelTrainingRound.eq_def]; try dsimp only
  repeat' first
    | with_reducible assumption
    | intro _
    | with_reducible apply ite_keeps
    | with_reducible apply ite_out
    | with_reducible apply next_keeps
    | with_reducible apply endS6_keeps
    | with_reducible apply trainDev_keeps
    | with_reducible apply foldl_to_keeps BusRead.st
    | with_reducible apply foldl_keeps
    | with_reducible apply foldl_snd_keeps
    | with_reducible apply foldl_fst_keeps
    | split
    | dsimp only

theorem enterService_keeps {s0 : State} (s : State) (dev : Nat) (h_s : Keeps s0 s) : Keeps s0 (State.enterService s dev) := by
  rw [State.enterService.eq_def]; try dsimp only
  repeat' first
    | with_reducible assumption
    | intro _
    | with_reducible apply ite_keeps
    | with_reducible apply set_keeps
    | split
    | dsimp only

theorem execStackFill_keeps {s0 : State} (dev : Fin 48) (s : State) (h_s : Keeps s0 s) : OutKeeps s0 (execStackFill dev s) := by
  rw [execStackFill.eq_def]; try dsimp only
  repeat' first
    | with_reducible assumption
    | intro _
    | with_reducible apply ite_keeps
    | with_reducible apply ite_out
    | with_reducible apply next_keeps
    | with_reducible apply fields_keep
    | with_reducible apply fields_upset
    | with_reducible apply fields_filter
    | with_reducible apply endS6_keeps
    | with_reducible apply enterService_keeps
    | with_reducible apply setStart_keeps
    | split
    | simp only [keeps_mk]
    | dsimp only

theorem execChannelRestore_keeps {s0 : State} (chan : Fin 2176) (ok : Bool) (s : State) (h_s : Keeps s0 s) : OutKeeps s0 (execChannelRestore chan ok s) := by
  rw [execChannelRestore.eq_def]; try dsimp only
  repeat' first
    | with_reducible assumption
    | intro _
    | with_reducible apply ite_keeps
    | with_reducible apply ite_out
    | with_reducible apply next_keeps
    | with_reducible apply fields_keep
    | with_reducible apply endS6_keeps
    | with_reducible apply enterService_keeps
    | with_reducible apply raise_keeps
    | with_reducible apply setStart_keeps
    | split
    | simp only [keeps_mk]
    | dsimp only

theorem execServicesStart_keeps {s0 : State} (s : State) (h_s : Keeps s0 s) : OutKeeps s0 (execServicesStart s) := by
  rw [execServicesStart.eq_def]; try dsimp only
  repeat' first
    | with_reducible assumption
    | intro _
    | with_reducible apply ite_keeps
    | with_reducible apply ite_out
    | with_reducible apply next_keeps
    | with_reducible apply fields_keep
    | with_reducible apply set_keeps
    | with_reducible apply setStart_keeps
    | split
    | simp only [keeps_mk]
    | dsimp only

theorem confirmImage_keeps {s0 : State} (s : State) (h_s : Keeps s0 s) : Keeps s0 (State.confirmImage s) := by
  rw [State.confirmImage.eq_def]; try dsimp only
  repeat' first
    | with_reducible assumption
    | intro _
    | with_reducible apply ite_keeps
    | with_reducible apply fields_keep
    | with_reducible apply flashAdd_keeps
    | split
    | simp only [keeps_mk]
    | dsimp only

theorem execReady_keeps {s0 : State} (s : State) (h_s : Keeps s0 s) : OutKeeps s0 (execReady s) := by
  rw [execReady.eq_def]; try dsimp only
  repeat' first
    | with_reducible assumption
    | intro _
    | with_reducible apply ite_keeps
    | with_reducible apply ite_out
    | with_reducible apply next_keeps
    | with_reducible apply fields_keep
    | with_reducible apply confirmImage_keeps
    | with_reducible apply draw_keeps
    | with_reducible apply raise_keeps
    | with_reducible apply set_keeps
    | with_reducible apply setStart_keeps
    | with_reducible apply foldl_to_keeps BusRead.st
    | with_reducible apply foldl_keeps
    | with_reducible apply foldl_snd_keeps
    | with_reducible apply foldl_fst_keeps
    | split
    | simp only [keeps_mk]
    | dsimp only

theorem execModuleReset_keeps {s0 : State} (cause : Nat) (s : State) (h_s : Keeps s0 s) : OutKeeps s0 (execModuleReset cause s) := by
  rw [execModuleReset.eq_def]; try dsimp only
  repeat' first
    | with_reducible assumption
    | intro _
    | with_reducible apply ite_keeps
    | with_reducible apply ite_out
    | with_reducible apply next_keeps
    | with_reducible apply cause_keeps
    | with_reducible apply moduleReset_keeps
    | split
    | dsimp only

theorem execWatchdogExpiry_keeps {s0 : State} (_die : Fin 8) (s : State) (h_s : Keeps s0 s) : OutKeeps s0 (execWatchdogExpiry _die s) := by
  rw [execWatchdogExpiry.eq_def]; try dsimp only
  repeat' first
    | with_reducible assumption
    | intro _
    | with_reducible apply ite_keeps
    | with_reducible apply ite_out
    | with_reducible apply next_keeps
    | with_reducible apply moduleReset_keeps
    | split
    | dsimp only

end Sys2Proof.Laws
end

