-- ==== Sys2Proof/Laws/State.lean ====
section
/-! SUPPORT. What every basic update of the state leaves alone: one lemma for each field and update. -/
namespace Sys2Proof.Laws
open Sys2Proof.Machine

/-! ## wr -/

@[simp] theorem wr_mem (s : State) (r : Reg) (i j : Nat) (w : Word) : (s.wr r i j w).mem = s.mem := rfl
@[simp] theorem wr_upset (s : State) (r : Reg) (i j : Nat) (w : Word) : (s.wr r i j w).upset = s.upset := rfl
@[simp] theorem wr_mc (s : State) (r : Reg) (i j : Nat) (w : Word) : (s.wr r i j w).mc = s.mc := rfl
@[simp] theorem wr_clusters (s : State) (r : Reg) (i j : Nat) (w : Word) : (s.wr r i j w).clusters = s.clusters := rfl
@[simp] theorem wr_gut (s : State) (r : Reg) (i j : Nat) (w : Word) : (s.wr r i j w).gut = s.gut := rfl
@[simp] theorem wr_frame (s : State) (r : Reg) (i j : Nat) (w : Word) : (s.wr r i j w).frame = s.frame := rfl
@[simp] theorem wr_course (s : State) (r : Reg) (i j : Nat) (w : Word) : (s.wr r i j w).course = s.course := rfl
@[simp] theorem wr_tables (s : State) (r : Reg) (i j : Nat) (w : Word) : (s.wr r i j w).tables = s.tables := rfl
@[simp] theorem wr_ylm (s : State) (r : Reg) (i j : Nat) (w : Word) : (s.wr r i j w).ylm = s.ylm := rfl
@[simp] theorem wr_replay (s : State) (r : Reg) (i j : Nat) (w : Word) : (s.wr r i j w).replay = s.replay := rfl
@[simp] theorem wr_queues (s : State) (r : Reg) (i j : Nat) (w : Word) : (s.wr r i j w).queues = s.queues := rfl
@[simp] theorem wr_host (s : State) (r : Reg) (i j : Nat) (w : Word) : (s.wr r i j w).host = s.host := rfl
@[simp] theorem wr_pwr (s : State) (r : Reg) (i j : Nat) (w : Word) : (s.wr r i j w).pwr = s.pwr := rfl
@[simp] theorem wr_sec (s : State) (r : Reg) (i j : Nat) (w : Word) : (s.wr r i j w).sec = s.sec := rfl
@[simp] theorem wr_start (s : State) (r : Reg) (i j : Nat) (w : Word) : (s.wr r i j w).start = s.start := rfl
@[simp] theorem wr_fab (s : State) (r : Reg) (i j : Nat) (w : Word) : (s.wr r i j w).fab = s.fab := rfl
@[simp] theorem wr_upd (s : State) (r : Reg) (i j : Nat) (w : Word) : (s.wr r i j w).upd = s.upd := rfl
@[simp] theorem wr_eth (s : State) (r : Reg) (i j : Nat) (w : Word) : (s.wr r i j w).eth = s.eth := rfl
@[simp] theorem wr_sent (s : State) (r : Reg) (i j : Nat) (w : Word) : (s.wr r i j w).sent = s.sent := rfl
@[simp] theorem wr_free (s : State) (r : Reg) (i j : Nat) (w : Word) : (s.wr r i j w).free = s.free := rfl
@[simp] theorem wr_pending (s : State) (r : Reg) (i j : Nat) (w : Word) : (s.wr r i j w).pending = s.pending := rfl

/-! ## set -/

@[simp] theorem set_mem (s : State) (f : Fld) (v i j : Nat) : (s.set f v i j).mem = s.mem := rfl
@[simp] theorem set_upset (s : State) (f : Fld) (v i j : Nat) : (s.set f v i j).upset = s.upset := rfl
@[simp] theorem set_mc (s : State) (f : Fld) (v i j : Nat) : (s.set f v i j).mc = s.mc := rfl
@[simp] theorem set_clusters (s : State) (f : Fld) (v i j : Nat) : (s.set f v i j).clusters = s.clusters := rfl
@[simp] theorem set_gut (s : State) (f : Fld) (v i j : Nat) : (s.set f v i j).gut = s.gut := rfl
@[simp] theorem set_frame (s : State) (f : Fld) (v i j : Nat) : (s.set f v i j).frame = s.frame := rfl
@[simp] theorem set_course (s : State) (f : Fld) (v i j : Nat) : (s.set f v i j).course = s.course := rfl
@[simp] theorem set_tables (s : State) (f : Fld) (v i j : Nat) : (s.set f v i j).tables = s.tables := rfl
@[simp] theorem set_ylm (s : State) (f : Fld) (v i j : Nat) : (s.set f v i j).ylm = s.ylm := rfl
@[simp] theorem set_replay (s : State) (f : Fld) (v i j : Nat) : (s.set f v i j).replay = s.replay := rfl
@[simp] theorem set_queues (s : State) (f : Fld) (v i j : Nat) : (s.set f v i j).queues = s.queues := rfl
@[simp] theorem set_host (s : State) (f : Fld) (v i j : Nat) : (s.set f v i j).host = s.host := rfl
@[simp] theorem set_pwr (s : State) (f : Fld) (v i j : Nat) : (s.set f v i j).pwr = s.pwr := rfl
@[simp] theorem set_sec (s : State) (f : Fld) (v i j : Nat) : (s.set f v i j).sec = s.sec := rfl
@[simp] theorem set_start (s : State) (f : Fld) (v i j : Nat) : (s.set f v i j).start = s.start := rfl
@[simp] theorem set_fab (s : State) (f : Fld) (v i j : Nat) : (s.set f v i j).fab = s.fab := rfl
@[simp] theorem set_upd (s : State) (f : Fld) (v i j : Nat) : (s.set f v i j).upd = s.upd := rfl
@[simp] theorem set_eth (s : State) (f : Fld) (v i j : Nat) : (s.set f v i j).eth = s.eth := rfl
@[simp] theorem set_sent (s : State) (f : Fld) (v i j : Nat) : (s.set f v i j).sent = s.sent := rfl
@[simp] theorem set_free (s : State) (f : Fld) (v i j : Nat) : (s.set f v i j).free = s.free := rfl
@[simp] theorem set_pending (s : State) (f : Fld) (v i j : Nat) : (s.set f v i j).pending = s.pending := rfl

/-! ## bump -/

@[simp] theorem bump_mem (s : State) (f : Fld) (n i j : Nat) : (s.bump f n i j).mem = s.mem := rfl
@[simp] theorem bump_upset (s : State) (f : Fld) (n i j : Nat) : (s.bump f n i j).upset = s.upset := rfl
@[simp] theorem bump_mc (s : State) (f : Fld) (n i j : Nat) : (s.bump f n i j).mc = s.mc := rfl
@[simp] theorem bump_clusters (s : State) (f : Fld) (n i j : Nat) : (s.bump f n i j).clusters = s.clusters := rfl
@[simp] theorem bump_gut (s : State) (f : Fld) (n i j : Nat) : (s.bump f n i j).gut = s.gut := rfl
@[simp] theorem bump_frame (s : State) (f : Fld) (n i j : Nat) : (s.bump f n i j).frame = s.frame := rfl
@[simp] theorem bump_course (s : State) (f : Fld) (n i j : Nat) : (s.bump f n i j).course = s.course := rfl
@[simp] theorem bump_tables (s : State) (f : Fld) (n i j : Nat) : (s.bump f n i j).tables = s.tables := rfl
@[simp] theorem bump_ylm (s : State) (f : Fld) (n i j : Nat) : (s.bump f n i j).ylm = s.ylm := rfl
@[simp] theorem bump_replay (s : State) (f : Fld) (n i j : Nat) : (s.bump f n i j).replay = s.replay := rfl
@[simp] theorem bump_queues (s : State) (f : Fld) (n i j : Nat) : (s.bump f n i j).queues = s.queues := rfl
@[simp] theorem bump_host (s : State) (f : Fld) (n i j : Nat) : (s.bump f n i j).host = s.host := rfl
@[simp] theorem bump_pwr (s : State) (f : Fld) (n i j : Nat) : (s.bump f n i j).pwr = s.pwr := rfl
@[simp] theorem bump_sec (s : State) (f : Fld) (n i j : Nat) : (s.bump f n i j).sec = s.sec := rfl
@[simp] theorem bump_start (s : State) (f : Fld) (n i j : Nat) : (s.bump f n i j).start = s.start := rfl
@[simp] theorem bump_fab (s : State) (f : Fld) (n i j : Nat) : (s.bump f n i j).fab = s.fab := rfl
@[simp] theorem bump_upd (s : State) (f : Fld) (n i j : Nat) : (s.bump f n i j).upd = s.upd := rfl
@[simp] theorem bump_eth (s : State) (f : Fld) (n i j : Nat) : (s.bump f n i j).eth = s.eth := rfl
@[simp] theorem bump_sent (s : State) (f : Fld) (n i j : Nat) : (s.bump f n i j).sent = s.sent := rfl
@[simp] theorem bump_free (s : State) (f : Fld) (n i j : Nat) : (s.bump f n i j).free = s.free := rfl
@[simp] theorem bump_pending (s : State) (f : Fld) (n i j : Nat) : (s.bump f n i j).pending = s.pending := rfl

/-! ## bumpWrap -/

@[simp] theorem bumpWrap_mem (s : State) (f : Fld) (n i j : Nat) : (s.bumpWrap f n i j).mem = s.mem := rfl
@[simp] theorem bumpWrap_upset (s : State) (f : Fld) (n i j : Nat) : (s.bumpWrap f n i j).upset = s.upset := rfl
@[simp] theorem bumpWrap_mc (s : State) (f : Fld) (n i j : Nat) : (s.bumpWrap f n i j).mc = s.mc := rfl
@[simp] theorem bumpWrap_clusters (s : State) (f : Fld) (n i j : Nat) : (s.bumpWrap f n i j).clusters = s.clusters := rfl
@[simp] theorem bumpWrap_gut (s : State) (f : Fld) (n i j : Nat) : (s.bumpWrap f n i j).gut = s.gut := rfl
@[simp] theorem bumpWrap_frame (s : State) (f : Fld) (n i j : Nat) : (s.bumpWrap f n i j).frame = s.frame := rfl
@[simp] theorem bumpWrap_course (s : State) (f : Fld) (n i j : Nat) : (s.bumpWrap f n i j).course = s.course := rfl
@[simp] theorem bumpWrap_tables (s : State) (f : Fld) (n i j : Nat) : (s.bumpWrap f n i j).tables = s.tables := rfl
@[simp] theorem bumpWrap_ylm (s : State) (f : Fld) (n i j : Nat) : (s.bumpWrap f n i j).ylm = s.ylm := rfl
@[simp] theorem bumpWrap_replay (s : State) (f : Fld) (n i j : Nat) : (s.bumpWrap f n i j).replay = s.replay := rfl
@[simp] theorem bumpWrap_queues (s : State) (f : Fld) (n i j : Nat) : (s.bumpWrap f n i j).queues = s.queues := rfl
@[simp] theorem bumpWrap_host (s : State) (f : Fld) (n i j : Nat) : (s.bumpWrap f n i j).host = s.host := rfl
@[simp] theorem bumpWrap_pwr (s : State) (f : Fld) (n i j : Nat) : (s.bumpWrap f n i j).pwr = s.pwr := rfl
@[simp] theorem bumpWrap_sec (s : State) (f : Fld) (n i j : Nat) : (s.bumpWrap f n i j).sec = s.sec := rfl
@[simp] theorem bumpWrap_start (s : State) (f : Fld) (n i j : Nat) : (s.bumpWrap f n i j).start = s.start := rfl
@[simp] theorem bumpWrap_fab (s : State) (f : Fld) (n i j : Nat) : (s.bumpWrap f n i j).fab = s.fab := rfl
@[simp] theorem bumpWrap_upd (s : State) (f : Fld) (n i j : Nat) : (s.bumpWrap f n i j).upd = s.upd := rfl
@[simp] theorem bumpWrap_eth (s : State) (f : Fld) (n i j : Nat) : (s.bumpWrap f n i j).eth = s.eth := rfl
@[simp] theorem bumpWrap_sent (s : State) (f : Fld) (n i j : Nat) : (s.bumpWrap f n i j).sent = s.sent := rfl
@[simp] theorem bumpWrap_free (s : State) (f : Fld) (n i j : Nat) : (s.bumpWrap f n i j).free = s.free := rfl
@[simp] theorem bumpWrap_pending (s : State) (f : Fld) (n i j : Nat) : (s.bumpWrap f n i j).pending = s.pending := rfl

/-! ## advanceTo -/

@[simp] theorem advanceTo_mem (s : State) (t : Nat) : (s.advanceTo t).mem = s.mem := by unfold State.advanceTo; split <;> rfl
@[simp] theorem advanceTo_upset (s : State) (t : Nat) : (s.advanceTo t).upset = s.upset := by unfold State.advanceTo; split <;> rfl
@[simp] theorem advanceTo_mc (s : State) (t : Nat) : (s.advanceTo t).mc = s.mc := by unfold State.advanceTo; split <;> rfl
@[simp] theorem advanceTo_clusters (s : State) (t : Nat) : (s.advanceTo t).clusters = s.clusters := by unfold State.advanceTo; split <;> rfl
@[simp] theorem advanceTo_gut (s : State) (t : Nat) : (s.advanceTo t).gut = s.gut := by unfold State.advanceTo; split <;> rfl
@[simp] theorem advanceTo_frame (s : State) (t : Nat) : (s.advanceTo t).frame = s.frame := by unfold State.advanceTo; split <;> rfl
@[simp] theorem advanceTo_course (s : State) (t : Nat) : (s.advanceTo t).course = s.course := by unfold State.advanceTo; split <;> rfl
@[simp] theorem advanceTo_tables (s : State) (t : Nat) : (s.advanceTo t).tables = s.tables := by unfold State.advanceTo; split <;> rfl
@[simp] theorem advanceTo_ylm (s : State) (t : Nat) : (s.advanceTo t).ylm = s.ylm := by unfold State.advanceTo; split <;> rfl
@[simp] theorem advanceTo_replay (s : State) (t : Nat) : (s.advanceTo t).replay = s.replay := by unfold State.advanceTo; split <;> rfl
@[simp] theorem advanceTo_queues (s : State) (t : Nat) : (s.advanceTo t).queues = s.queues := by unfold State.advanceTo; split <;> rfl
@[simp] theorem advanceTo_host (s : State) (t : Nat) : (s.advanceTo t).host = s.host := by unfold State.advanceTo; split <;> rfl
@[simp] theorem advanceTo_pwr (s : State) (t : Nat) : (s.advanceTo t).pwr = s.pwr := by unfold State.advanceTo; split <;> rfl
@[simp] theorem advanceTo_sec (s : State) (t : Nat) : (s.advanceTo t).sec = s.sec := by unfold State.advanceTo; split <;> rfl
@[simp] theorem advanceTo_start (s : State) (t : Nat) : (s.advanceTo t).start = s.start := by unfold State.advanceTo; split <;> rfl
@[simp] theorem advanceTo_fab (s : State) (t : Nat) : (s.advanceTo t).fab = s.fab := by unfold State.advanceTo; split <;> rfl
@[simp] theorem advanceTo_upd (s : State) (t : Nat) : (s.advanceTo t).upd = s.upd := by unfold State.advanceTo; split <;> rfl
@[simp] theorem advanceTo_eth (s : State) (t : Nat) : (s.advanceTo t).eth = s.eth := by unfold State.advanceTo; split <;> rfl
@[simp] theorem advanceTo_sent (s : State) (t : Nat) : (s.advanceTo t).sent = s.sent := by unfold State.advanceTo; split <;> rfl
@[simp] theorem advanceTo_free (s : State) (t : Nat) : (s.advanceTo t).free = s.free := by unfold State.advanceTo; split <;> rfl
@[simp] theorem advanceTo_pending (s : State) (t : Nat) : (s.advanceTo t).pending = s.pending := by unfold State.advanceTo; split <;> rfl

/-! ## send -/

@[simp] theorem send_regs (s : State) (o : Msg) : (s.send o).regs = s.regs := rfl
@[simp] theorem send_mem (s : State) (o : Msg) : (s.send o).mem = s.mem := rfl
@[simp] theorem send_upset (s : State) (o : Msg) : (s.send o).upset = s.upset := rfl
@[simp] theorem send_mc (s : State) (o : Msg) : (s.send o).mc = s.mc := rfl
@[simp] theorem send_clusters (s : State) (o : Msg) : (s.send o).clusters = s.clusters := rfl
@[simp] theorem send_gut (s : State) (o : Msg) : (s.send o).gut = s.gut := rfl
@[simp] theorem send_frame (s : State) (o : Msg) : (s.send o).frame = s.frame := rfl
@[simp] theorem send_course (s : State) (o : Msg) : (s.send o).course = s.course := rfl
@[simp] theorem send_tables (s : State) (o : Msg) : (s.send o).tables = s.tables := rfl
@[simp] theorem send_ylm (s : State) (o : Msg) : (s.send o).ylm = s.ylm := rfl
@[simp] theorem send_replay (s : State) (o : Msg) : (s.send o).replay = s.replay := rfl
@[simp] theorem send_queues (s : State) (o : Msg) : (s.send o).queues = s.queues := rfl
@[simp] theorem send_host (s : State) (o : Msg) : (s.send o).host = s.host := rfl
@[simp] theorem send_pwr (s : State) (o : Msg) : (s.send o).pwr = s.pwr := rfl
@[simp] theorem send_sec (s : State) (o : Msg) : (s.send o).sec = s.sec := rfl
@[simp] theorem send_start (s : State) (o : Msg) : (s.send o).start = s.start := rfl
@[simp] theorem send_fab (s : State) (o : Msg) : (s.send o).fab = s.fab := rfl
@[simp] theorem send_upd (s : State) (o : Msg) : (s.send o).upd = s.upd := rfl
@[simp] theorem send_eth (s : State) (o : Msg) : (s.send o).eth = s.eth := rfl
@[simp] theorem send_sent (s : State) (o : Msg) : (s.send o).sent = s.sent ++ [o] := rfl
@[simp] theorem send_free (s : State) (o : Msg) : (s.send o).free = s.free := rfl
@[simp] theorem send_pending (s : State) (o : Msg) : (s.send o).pending = s.pending := rfl
@[simp] theorem send_rd (s : State) (o : Msg) (k : Reg) (m n : Nat) : (s.send o).rd k m n = s.rd k m n := rfl
@[simp] theorem send_get (s : State) (o : Msg) (k : Fld) (m n : Nat) : (s.send o).get k m n = s.get k m n := rfl
@[simp] theorem send_bit (s : State) (o : Msg) (k : Fld) (m n : Nat) : (s.send o).bit k m n = s.bit k m n := rfl

/-! ## sendAll -/

@[simp] theorem sendAll_regs (s : State) (o : List Msg) : (s.sendAll o).regs = s.regs := rfl
@[simp] theorem sendAll_mem (s : State) (o : List Msg) : (s.sendAll o).mem = s.mem := rfl
@[simp] theorem sendAll_upset (s : State) (o : List Msg) : (s.sendAll o).upset = s.upset := rfl
@[simp] theorem sendAll_mc (s : State) (o : List Msg) : (s.sendAll o).mc = s.mc := rfl
@[simp] theorem sendAll_clusters (s : State) (o : List Msg) : (s.sendAll o).clusters = s.clusters := rfl
@[simp] theorem sendAll_gut (s : State) (o : List Msg) : (s.sendAll o).gut = s.gut := rfl
@[simp] theorem sendAll_frame (s : State) (o : List Msg) : (s.sendAll o).frame = s.frame := rfl
@[simp] theorem sendAll_course (s : State) (o : List Msg) : (s.sendAll o).course = s.course := rfl
@[simp] theorem sendAll_tables (s : State) (o : List Msg) : (s.sendAll o).tables = s.tables := rfl
@[simp] theorem sendAll_ylm (s : State) (o : List Msg) : (s.sendAll o).ylm = s.ylm := rfl
@[simp] theorem sendAll_replay (s : State) (o : List Msg) : (s.sendAll o).replay = s.replay := rfl
@[simp] theorem sendAll_queues (s : State) (o : List Msg) : (s.sendAll o).queues = s.queues := rfl
@[simp] theorem sendAll_host (s : State) (o : List Msg) : (s.sendAll o).host = s.host := rfl
@[simp] theorem sendAll_pwr (s : State) (o : List Msg) : (s.sendAll o).pwr = s.pwr := rfl
@[simp] theorem sendAll_sec (s : State) (o : List Msg) : (s.sendAll o).sec = s.sec := rfl
@[simp] theorem sendAll_start (s : State) (o : List Msg) : (s.sendAll o).start = s.start := rfl
@[simp] theorem sendAll_fab (s : State) (o : List Msg) : (s.sendAll o).fab = s.fab := rfl
@[simp] theorem sendAll_upd (s : State) (o : List Msg) : (s.sendAll o).upd = s.upd := rfl
@[simp] theorem sendAll_eth (s : State) (o : List Msg) : (s.sendAll o).eth = s.eth := rfl
@[simp] theorem sendAll_sent (s : State) (o : List Msg) : (s.sendAll o).sent = s.sent ++ o := rfl
@[simp] theorem sendAll_free (s : State) (o : List Msg) : (s.sendAll o).free = s.free := rfl
@[simp] theorem sendAll_pending (s : State) (o : List Msg) : (s.sendAll o).pending = s.pending := rfl
@[simp] theorem sendAll_rd (s : State) (o : List Msg) (k : Reg) (m n : Nat) : (s.sendAll o).rd k m n = s.rd k m n := rfl
@[simp] theorem sendAll_get (s : State) (o : List Msg) (k : Fld) (m n : Nat) : (s.sendAll o).get k m n = s.get k m n := rfl
@[simp] theorem sendAll_bit (s : State) (o : List Msg) (k : Fld) (m n : Nat) : (s.sendAll o).bit k m n = s.bit k m n := rfl

/-! ## rawPut -/

@[simp] theorem rawPut_regs (s : State) (a : Nat) (bs : List Byte) : (s.rawPut a bs).regs = s.regs := rfl
@[simp] theorem rawPut_mem (s : State) (a : Nat) (bs : List Byte) : (s.rawPut a bs).mem = tablePut s.mem a bs := rfl
@[simp] theorem rawPut_upset (s : State) (a : Nat) (bs : List Byte) : (s.rawPut a bs).upset = s.upset := rfl
@[simp] theorem rawPut_mc (s : State) (a : Nat) (bs : List Byte) : (s.rawPut a bs).mc = s.mc := rfl
@[simp] theorem rawPut_clusters (s : State) (a : Nat) (bs : List Byte) : (s.rawPut a bs).clusters = s.clusters := rfl
@[simp] theorem rawPut_gut (s : State) (a : Nat) (bs : List Byte) : (s.rawPut a bs).gut = s.gut := rfl
@[simp] theorem rawPut_frame (s : State) (a : Nat) (bs : List Byte) : (s.rawPut a bs).frame = s.frame := rfl
@[simp] theorem rawPut_course (s : State) (a : Nat) (bs : List Byte) : (s.rawPut a bs).course = s.course := rfl
@[simp] theorem rawPut_tables (s : State) (a : Nat) (bs : List Byte) : (s.rawPut a bs).tables = s.tables := rfl
@[simp] theorem rawPut_ylm (s : State) (a : Nat) (bs : List Byte) : (s.rawPut a bs).ylm = s.ylm := rfl
@[simp] theorem rawPut_replay (s : State) (a : Nat) (bs : List Byte) : (s.rawPut a bs).replay = s.replay := rfl
@[simp] theorem rawPut_queues (s : State) (a : Nat) (bs : List Byte) : (s.rawPut a bs).queues = s.queues := rfl
@[simp] theorem rawPut_host (s : State) (a : Nat) (bs : List Byte) : (s.rawPut a bs).host = s.host := rfl
@[simp] theorem rawPut_pwr (s : State) (a : Nat) (bs : List Byte) : (s.rawPut a bs).pwr = s.pwr := rfl
@[simp] theorem rawPut_sec (s : State) (a : Nat) (bs : List Byte) : (s.rawPut a bs).sec = s.sec := rfl
@[simp] theorem rawPut_start (s : State) (a : Nat) (bs : List Byte) : (s.rawPut a bs).start = s.start := rfl
@[simp] theorem rawPut_fab (s : State) (a : Nat) (bs : List Byte) : (s.rawPut a bs).fab = s.fab := rfl
@[simp] theorem rawPut_upd (s : State) (a : Nat) (bs : List Byte) : (s.rawPut a bs).upd = s.upd := rfl
@[simp] theorem rawPut_eth (s : State) (a : Nat) (bs : List Byte) : (s.rawPut a bs).eth = s.eth := rfl
@[simp] theorem rawPut_sent (s : State) (a : Nat) (bs : List Byte) : (s.rawPut a bs).sent = s.sent := rfl
@[simp] theorem rawPut_free (s : State) (a : Nat) (bs : List Byte) : (s.rawPut a bs).free = s.free := rfl
@[simp] theorem rawPut_pending (s : State) (a : Nat) (bs : List Byte) : (s.rawPut a bs).pending = s.pending := rfl
@[simp] theorem rawPut_rd (s : State) (a : Nat) (bs : List Byte) (k : Reg) (m n : Nat) : (s.rawPut a bs).rd k m n = s.rd k m n := rfl
@[simp] theorem rawPut_get (s : State) (a : Nat) (bs : List Byte) (k : Fld) (m n : Nat) : (s.rawPut a bs).get k m n = s.get k m n := rfl
@[simp] theorem rawPut_bit (s : State) (a : Nat) (bs : List Byte) (k : Fld) (m n : Nat) : (s.rawPut a bs).bit k m n = s.bit k m n := rfl

/-! ## setSlice -/

@[simp] theorem setSlice_regs (s : State) (d : Nat) (x : Slice) : (s.setSlice d x).regs = s.regs := rfl
@[simp] theorem setSlice_mem (s : State) (d : Nat) (x : Slice) : (s.setSlice d x).mem = s.mem := rfl
@[simp] theorem setSlice_upset (s : State) (d : Nat) (x : Slice) : (s.setSlice d x).upset = s.upset := rfl
@[simp] theorem setSlice_mc (s : State) (d : Nat) (x : Slice) : (s.setSlice d x).mc = s.mc := rfl
@[simp] theorem setSlice_clusters (s : State) (d : Nat) (x : Slice) : (s.setSlice d x).clusters = s.clusters := rfl
@[simp] theorem setSlice_frame (s : State) (d : Nat) (x : Slice) : (s.setSlice d x).frame = s.frame := rfl
@[simp] theorem setSlice_course (s : State) (d : Nat) (x : Slice) : (s.setSlice d x).course = s.course := rfl
@[simp] theorem setSlice_tables (s : State) (d : Nat) (x : Slice) : (s.setSlice d x).tables = s.tables := rfl
@[simp] theorem setSlice_ylm (s : State) (d : Nat) (x : Slice) : (s.setSlice d x).ylm = s.ylm := rfl
@[simp] theorem setSlice_replay (s : State) (d : Nat) (x : Slice) : (s.setSlice d x).replay = s.replay := rfl
@[simp] theorem setSlice_queues (s : State) (d : Nat) (x : Slice) : (s.setSlice d x).queues = s.queues := rfl
@[simp] theorem setSlice_host (s : State) (d : Nat) (x : Slice) : (s.setSlice d x).host = s.host := rfl
@[simp] theorem setSlice_pwr (s : State) (d : Nat) (x : Slice) : (s.setSlice d x).pwr = s.pwr := rfl
@[simp] theorem setSlice_sec (s : State) (d : Nat) (x : Slice) : (s.setSlice d x).sec = s.sec := rfl
@[simp] theorem setSlice_start (s : State) (d : Nat) (x : Slice) : (s.setSlice d x).start = s.start := rfl
@[simp] theorem setSlice_fab (s : State) (d : Nat) (x : Slice) : (s.setSlice d x).fab = s.fab := rfl
@[simp] theorem setSlice_upd (s : State) (d : Nat) (x : Slice) : (s.setSlice d x).upd = s.upd := rfl
@[simp] theorem setSlice_eth (s : State) (d : Nat) (x : Slice) : (s.setSlice d x).eth = s.eth := rfl
@[simp] theorem setSlice_sent (s : State) (d : Nat) (x : Slice) : (s.setSlice d x).sent = s.sent := rfl
@[simp] theorem setSlice_free (s : State) (d : Nat) (x : Slice) : (s.setSlice d x).free = s.free := rfl
@[simp] theorem setSlice_pending (s : State) (d : Nat) (x : Slice) : (s.setSlice d x).pending = s.pending := rfl
@[simp] theorem setSlice_rd (s : State) (d : Nat) (x : Slice) (k : Reg) (m n : Nat) : (s.setSlice d x).rd k m n = s.rd k m n := rfl
@[simp] theorem setSlice_get (s : State) (d : Nat) (x : Slice) (k : Fld) (m n : Nat) : (s.setSlice d x).get k m n = s.get k m n := rfl
@[simp] theorem setSlice_bit (s : State) (d : Nat) (x : Slice) (k : Fld) (m n : Nat) : (s.setSlice d x).bit k m n = s.bit k m n := rfl

/-! ## ledSet -/

@[simp] theorem ledSet_regs (s : State) (f : LFld) (v : Nat) : (s.ledSet f v).regs = s.regs := rfl
@[simp] theorem ledSet_mem (s : State) (f : LFld) (v : Nat) : (s.ledSet f v).mem = s.mem := rfl
@[simp] theorem ledSet_upset (s : State) (f : LFld) (v : Nat) : (s.ledSet f v).upset = s.upset := rfl
@[simp] theorem ledSet_mc (s : State) (f : LFld) (v : Nat) : (s.ledSet f v).mc = s.mc := rfl
@[simp] theorem ledSet_clusters (s : State) (f : LFld) (v : Nat) : (s.ledSet f v).clusters = s.clusters := rfl
@[simp] theorem ledSet_gut (s : State) (f : LFld) (v : Nat) : (s.ledSet f v).gut = s.gut := rfl
@[simp] theorem ledSet_frame (s : State) (f : LFld) (v : Nat) : (s.ledSet f v).frame = s.frame := rfl
@[simp] theorem ledSet_tables (s : State) (f : LFld) (v : Nat) : (s.ledSet f v).tables = s.tables := rfl
@[simp] theorem ledSet_ylm (s : State) (f : LFld) (v : Nat) : (s.ledSet f v).ylm = s.ylm := rfl
@[simp] theorem ledSet_replay (s : State) (f : LFld) (v : Nat) : (s.ledSet f v).replay = s.replay := rfl
@[simp] theorem ledSet_queues (s : State) (f : LFld) (v : Nat) : (s.ledSet f v).queues = s.queues := rfl
@[simp] theorem ledSet_host (s : State) (f : LFld) (v : Nat) : (s.ledSet f v).host = s.host := rfl
@[simp] theorem ledSet_pwr (s : State) (f : LFld) (v : Nat) : (s.ledSet f v).pwr = s.pwr := rfl
@[simp] theorem ledSet_sec (s : State) (f : LFld) (v : Nat) : (s.ledSet f v).sec = s.sec := rfl
@[simp] theorem ledSet_start (s : State) (f : LFld) (v : Nat) : (s.ledSet f v).start = s.start := rfl
@[simp] theorem ledSet_fab (s : State) (f : LFld) (v : Nat) : (s.ledSet f v).fab = s.fab := rfl
@[simp] theorem ledSet_upd (s : State) (f : LFld) (v : Nat) : (s.ledSet f v).upd = s.upd := rfl
@[simp] theorem ledSet_eth (s : State) (f : LFld) (v : Nat) : (s.ledSet f v).eth = s.eth := rfl
@[simp] theorem ledSet_sent (s : State) (f : LFld) (v : Nat) : (s.ledSet f v).sent = s.sent := rfl
@[simp] theorem ledSet_free (s : State) (f : LFld) (v : Nat) : (s.ledSet f v).free = s.free := rfl
@[simp] theorem ledSet_pending (s : State) (f : LFld) (v : Nat) : (s.ledSet f v).pending = s.pending := rfl
@[simp] theorem ledSet_rd (s : State) (f : LFld) (v : Nat) (k : Reg) (m n : Nat) : (s.ledSet f v).rd k m n = s.rd k m n := rfl
@[simp] theorem ledSet_get (s : State) (f : LFld) (v : Nat) (k : Fld) (m n : Nat) : (s.ledSet f v).get k m n = s.get k m n := rfl
@[simp] theorem ledSet_bit (s : State) (f : LFld) (v : Nat) (k : Fld) (m n : Nat) : (s.ledSet f v).bit k m n = s.bit k m n := rfl

/-! ## cause -/

@[simp] theorem cause_regs (s : State) (b : Nat) : (s.cause b).regs = s.regs := rfl
@[simp] theorem cause_mem (s : State) (b : Nat) : (s.cause b).mem = s.mem := rfl
@[simp] theorem cause_upset (s : State) (b : Nat) : (s.cause b).upset = s.upset := rfl
@[simp] theorem cause_mc (s : State) (b : Nat) : (s.cause b).mc = s.mc := rfl
@[simp] theorem cause_clusters (s : State) (b : Nat) : (s.cause b).clusters = s.clusters := rfl
@[simp] theorem cause_gut (s : State) (b : Nat) : (s.cause b).gut = s.gut := rfl
@[simp] theorem cause_frame (s : State) (b : Nat) : (s.cause b).frame = s.frame := rfl
@[simp] theorem cause_tables (s : State) (b : Nat) : (s.cause b).tables = s.tables := rfl
@[simp] theorem cause_ylm (s : State) (b : Nat) : (s.cause b).ylm = s.ylm := rfl
@[simp] theorem cause_replay (s : State) (b : Nat) : (s.cause b).replay = s.replay := rfl
@[simp] theorem cause_queues (s : State) (b : Nat) : (s.cause b).queues = s.queues := rfl
@[simp] theorem cause_host (s : State) (b : Nat) : (s.cause b).host = s.host := rfl
@[simp] theorem cause_pwr (s : State) (b : Nat) : (s.cause b).pwr = s.pwr := rfl
@[simp] theorem cause_sec (s : State) (b : Nat) : (s.cause b).sec = s.sec := rfl
@[simp] theorem cause_start (s : State) (b : Nat) : (s.cause b).start = s.start := rfl
@[simp] theorem cause_fab (s : State) (b : Nat) : (s.cause b).fab = s.fab := rfl
@[simp] theorem cause_upd (s : State) (b : Nat) : (s.cause b).upd = s.upd := rfl
@[simp] theorem cause_eth (s : State) (b : Nat) : (s.cause b).eth = s.eth := rfl
@[simp] theorem cause_sent (s : State) (b : Nat) : (s.cause b).sent = s.sent := rfl
@[simp] theorem cause_free (s : State) (b : Nat) : (s.cause b).free = s.free := rfl
@[simp] theorem cause_pending (s : State) (b : Nat) : (s.cause b).pending = s.pending := rfl
@[simp] theorem cause_rd (s : State) (b : Nat) (k : Reg) (m n : Nat) : (s.cause b).rd k m n = s.rd k m n := rfl
@[simp] theorem cause_get (s : State) (b : Nat) (k : Fld) (m n : Nat) : (s.cause b).get k m n = s.get k m n := rfl
@[simp] theorem cause_bit (s : State) (b : Nat) (k : Fld) (m n : Nat) : (s.cause b).bit k m n = s.bit k m n := rfl

/-! ## setCl -/

@[simp] theorem setCl_regs (s : State) (g : Nat) (c : Cluster) : (s.setCl g c).regs = s.regs := rfl
@[simp] theorem setCl_mem (s : State) (g : Nat) (c : Cluster) : (s.setCl g c).mem = s.mem := rfl
@[simp] theorem setCl_upset (s : State) (g : Nat) (c : Cluster) : (s.setCl g c).upset = s.upset := rfl
@[simp] theorem setCl_mc (s : State) (g : Nat) (c : Cluster) : (s.setCl g c).mc = s.mc := rfl
@[simp] theorem setCl_clusters (s : State) (g : Nat) (c : Cluster) : (s.setCl g c).clusters = Sparse.put .init s.clusters g c := rfl
@[simp] theorem setCl_gut (s : State) (g : Nat) (c : Cluster) : (s.setCl g c).gut = s.gut := rfl
@[simp] theorem setCl_frame (s : State) (g : Nat) (c : Cluster) : (s.setCl g c).frame = s.frame := rfl
@[simp] theorem setCl_course (s : State) (g : Nat) (c : Cluster) : (s.setCl g c).course = s.course := rfl
@[simp] theorem setCl_tables (s : State) (g : Nat) (c : Cluster) : (s.setCl g c).tables = s.tables := rfl
@[simp] theorem setCl_ylm (s : State) (g : Nat) (c : Cluster) : (s.setCl g c).ylm = s.ylm := rfl
@[simp] theorem setCl_replay (s : State) (g : Nat) (c : Cluster) : (s.setCl g c).replay = s.replay := rfl
@[simp] theorem setCl_queues (s : State) (g : Nat) (c : Cluster) : (s.setCl g c).queues = s.queues := rfl
@[simp] theorem setCl_host (s : State) (g : Nat) (c : Cluster) : (s.setCl g c).host = s.host := rfl
@[simp] theorem setCl_pwr (s : State) (g : Nat) (c : Cluster) : (s.setCl g c).pwr = s.pwr := rfl
@[simp] theorem setCl_sec (s : State) (g : Nat) (c : Cluster) : (s.setCl g c).sec = s.sec := rfl
@[simp] theorem setCl_start (s : State) (g : Nat) (c : Cluster) : (s.setCl g c).start = s.start := rfl
@[simp] theorem setCl_fab (s : State) (g : Nat) (c : Cluster) : (s.setCl g c).fab = s.fab := rfl
@[simp] theorem setCl_upd (s : State) (g : Nat) (c : Cluster) : (s.setCl g c).upd = s.upd := rfl
@[simp] theorem setCl_eth (s : State) (g : Nat) (c : Cluster) : (s.setCl g c).eth = s.eth := rfl
@[simp] theorem setCl_sent (s : State) (g : Nat) (c : Cluster) : (s.setCl g c).sent = s.sent := rfl
@[simp] theorem setCl_free (s : State) (g : Nat) (c : Cluster) : (s.setCl g c).free = s.free := rfl
@[simp] theorem setCl_pending (s : State) (g : Nat) (c : Cluster) : (s.setCl g c).pending = s.pending := rfl
@[simp] theorem setCl_rd (s : State) (g : Nat) (c : Cluster) (k : Reg) (m n : Nat) : (s.setCl g c).rd k m n = s.rd k m n := rfl
@[simp] theorem setCl_get (s : State) (g : Nat) (c : Cluster) (k : Fld) (m n : Nat) : (s.setCl g c).get k m n = s.get k m n := rfl
@[simp] theorem setCl_bit (s : State) (g : Nat) (c : Cluster) (k : Fld) (m n : Nat) : (s.setCl g c).bit k m n = s.bit k m n := rfl

/-! ## updCl -/

@[simp] theorem updCl_regs (s : State) (g : Nat) (f : Cluster → Cluster) : (s.updCl g f).regs = s.regs := rfl
@[simp] theorem updCl_mem (s : State) (g : Nat) (f : Cluster → Cluster) : (s.updCl g f).mem = s.mem := rfl
@[simp] theorem updCl_upset (s : State) (g : Nat) (f : Cluster → Cluster) : (s.updCl g f).upset = s.upset := rfl
@[simp] theorem updCl_mc (s : State) (g : Nat) (f : Cluster → Cluster) : (s.updCl g f).mc = s.mc := rfl
@[simp] theorem updCl_clusters (s : State) (g : Nat) (f : Cluster → Cluster) : (s.updCl g f).clusters = Sparse.put .init s.clusters g (f (s.cl g)) := rfl
@[simp] theorem updCl_gut (s : State) (g : Nat) (f : Cluster → Cluster) : (s.updCl g f).gut = s.gut := rfl
@[simp] theorem updCl_frame (s : State) (g : Nat) (f : Cluster → Cluster) : (s.updCl g f).frame = s.frame := rfl
@[simp] theorem updCl_course (s : State) (g : Nat) (f : Cluster → Cluster) : (s.updCl g f).course = s.course := rfl
@[simp] theorem updCl_tables (s : State) (g : Nat) (f : Cluster → Cluster) : (s.updCl g f).tables = s.tables := rfl
@[simp] theorem updCl_ylm (s : State) (g : Nat) (f : Cluster → Cluster) : (s.updCl g f).ylm = s.ylm := rfl
@[simp] theorem updCl_replay (s : State) (g : Nat) (f : Cluster → Cluster) : (s.updCl g f).replay = s.replay := rfl
@[simp] theorem updCl_queues (s : State) (g : Nat) (f : Cluster → Cluster) : (s.updCl g f).queues = s.queues := rfl
@[simp] theorem updCl_host (s : State) (g : Nat) (f : Cluster → Cluster) : (s.updCl g f).host = s.host := rfl
@[simp] theorem updCl_pwr (s : State) (g : Nat) (f : Cluster → Cluster) : (s.updCl g f).pwr = s.pwr := rfl
@[simp] theorem updCl_sec (s : State) (g : Nat) (f : Cluster → Cluster) : (s.updCl g f).sec = s.sec := rfl
@[simp] theorem updCl_start (s : State) (g : Nat) (f : Cluster → Cluster) : (s.updCl g f).start = s.start := rfl
@[simp] theorem updCl_fab (s : State) (g : Nat) (f : Cluster → Cluster) : (s.updCl g f).fab = s.fab := rfl
@[simp] theorem updCl_upd (s : State) (g : Nat) (f : Cluster → Cluster) : (s.updCl g f).upd = s.upd := rfl
@[simp] theorem updCl_eth (s : State) (g : Nat) (f : Cluster → Cluster) : (s.updCl g f).eth = s.eth := rfl
@[simp] theorem updCl_sent (s : State) (g : Nat) (f : Cluster → Cluster) : (s.updCl g f).sent = s.sent := rfl
@[simp] theorem updCl_free (s : State) (g : Nat) (f : Cluster → Cluster) : (s.updCl g f).free = s.free := rfl
@[simp] theorem updCl_pending (s : State) (g : Nat) (f : Cluster → Cluster) : (s.updCl g f).pending = s.pending := rfl
@[simp] theorem updCl_rd (s : State) (g : Nat) (f : Cluster → Cluster) (k : Reg) (m n : Nat) : (s.updCl g f).rd k m n = s.rd k m n := rfl
@[simp] theorem updCl_get (s : State) (g : Nat) (f : Cluster → Cluster) (k : Fld) (m n : Nat) : (s.updCl g f).get k m n = s.get k m n := rfl
@[simp] theorem updCl_bit (s : State) (g : Nat) (f : Cluster → Cluster) (k : Fld) (m n : Nat) : (s.updCl g f).bit k m n = s.bit k m n := rfl

/-! ## setCourse -/

@[simp] theorem setCourse_regs (s : State) (x : Course) : (s.setCourse x).regs = s.regs := rfl
@[simp] theorem setCourse_mem (s : State) (x : Course) : (s.setCourse x).mem = s.mem := rfl
@[simp] theorem setCourse_upset (s : State) (x : Course) : (s.setCourse x).upset = s.upset := rfl
@[simp] theorem setCourse_mc (s : State) (x : Course) : (s.setCourse x).mc = s.mc := rfl
@[simp] theorem setCourse_clusters (s : State) (x : Course) : (s.setCourse x).clusters = s.clusters := rfl
@[simp] theorem setCourse_gut (s : State) (x : Course) : (s.setCourse x).gut = s.gut := rfl
@[simp] theorem setCourse_frame (s : State) (x : Course) : (s.setCourse x).frame = s.frame := rfl
@[simp] theorem setCourse_course (s : State) (x : Course) : (s.setCourse x).course = x := rfl
@[simp] theorem setCourse_tables (s : State) (x : Course) : (s.setCourse x).tables = s.tables := rfl
@[simp] theorem setCourse_ylm (s : State) (x : Course) : (s.setCourse x).ylm = s.ylm := rfl
@[simp] theorem setCourse_replay (s : State) (x : Course) : (s.setCourse x).replay = s.replay := rfl
@[simp] theorem setCourse_queues (s : State) (x : Course) : (s.setCourse x).queues = s.queues := rfl
@[simp] theorem setCourse_host (s : State) (x : Course) : (s.setCourse x).host = s.host := rfl
@[simp] theorem setCourse_pwr (s : State) (x : Course) : (s.setCourse x).pwr = s.pwr := rfl
@[simp] theorem setCourse_sec (s : State) (x : Course) : (s.setCourse x).sec = s.sec := rfl
@[simp] theorem setCourse_start (s : State) (x : Course) : (s.setCourse x).start = s.start := rfl
@[simp] theorem setCourse_fab (s : State) (x : Course) : (s.setCourse x).fab = s.fab := rfl
@[simp] theorem setCourse_upd (s : State) (x : Course) : (s.setCourse x).upd = s.upd := rfl
@[simp] theorem setCourse_eth (s : State) (x : Course) : (s.setCourse x).eth = s.eth := rfl
@[simp] theorem setCourse_sent (s : State) (x : Course) : (s.setCourse x).sent = s.sent := rfl
@[simp] theorem setCourse_free (s : State) (x : Course) : (s.setCourse x).free = s.free := rfl
@[simp] theorem setCourse_pending (s : State) (x : Course) : (s.setCourse x).pending = s.pending := rfl
@[simp] theorem setCourse_rd (s : State) (x : Course) (k : Reg) (m n : Nat) : (s.setCourse x).rd k m n = s.rd k m n := rfl
@[simp] theorem setCourse_get (s : State) (x : Course) (k : Fld) (m n : Nat) : (s.setCourse x).get k m n = s.get k m n := rfl
@[simp] theorem setCourse_bit (s : State) (x : Course) (k : Fld) (m n : Nat) : (s.setCourse x).bit k m n = s.bit k m n := rfl

/-! ## updFrame -/

@[simp] theorem updFrame_regs (s : State) (f : Frame → Frame) : (s.updFrame f).regs = s.regs := rfl
@[simp] theorem updFrame_mem (s : State) (f : Frame → Frame) : (s.updFrame f).mem = s.mem := rfl
@[simp] theorem updFrame_upset (s : State) (f : Frame → Frame) : (s.updFrame f).upset = s.upset := rfl
@[simp] theorem updFrame_mc (s : State) (f : Frame → Frame) : (s.updFrame f).mc = s.mc := rfl
@[simp] theorem updFrame_clusters (s : State) (f : Frame → Frame) : (s.updFrame f).clusters = s.clusters := rfl
@[simp] theorem updFrame_gut (s : State) (f : Frame → Frame) : (s.updFrame f).gut = s.gut := rfl
@[simp] theorem updFrame_frame (s : State) (f : Frame → Frame) : (s.updFrame f).frame = f s.frame := rfl
@[simp] theorem updFrame_course (s : State) (f : Frame → Frame) : (s.updFrame f).course = s.course := rfl
@[simp] theorem updFrame_tables (s : State) (f : Frame → Frame) : (s.updFrame f).tables = s.tables := rfl
@[simp] theorem updFrame_ylm (s : State) (f : Frame → Frame) : (s.updFrame f).ylm = s.ylm := rfl
@[simp] theorem updFrame_replay (s : State) (f : Frame → Frame) : (s.updFrame f).replay = s.replay := rfl
@[simp] theorem updFrame_queues (s : State) (f : Frame → Frame) : (s.updFrame f).queues = s.queues := rfl
@[simp] theorem updFrame_host (s : State) (f : Frame → Frame) : (s.updFrame f).host = s.host := rfl
@[simp] theorem updFrame_pwr (s : State) (f : Frame → Frame) : (s.updFrame f).pwr = s.pwr := rfl
@[simp] theorem updFrame_sec (s : State) (f : Frame → Frame) : (s.updFrame f).sec = s.sec := rfl
@[simp] theorem updFrame_start (s : State) (f : Frame → Frame) : (s.updFrame f).start = s.start := rfl
@[simp] theorem updFrame_fab (s : State) (f : Frame → Frame) : (s.updFrame f).fab = s.fab := rfl
@[simp] theorem updFrame_upd (s : State) (f : Frame → Frame) : (s.updFrame f).upd = s.upd := rfl
@[simp] theorem updFrame_eth (s : State) (f : Frame → Frame) : (s.updFrame f).eth = s.eth := rfl
@[simp] theorem updFrame_sent (s : State) (f : Frame → Frame) : (s.updFrame f).sent = s.sent := rfl
@[simp] theorem updFrame_free (s : State) (f : Frame → Frame) : (s.updFrame f).free = s.free := rfl
@[simp] theorem updFrame_pending (s : State) (f : Frame → Frame) : (s.updFrame f).pending = s.pending := rfl
@[simp] theorem updFrame_rd (s : State) (f : Frame → Frame) (k : Reg) (m n : Nat) : (s.updFrame f).rd k m n = s.rd k m n := rfl
@[simp] theorem updFrame_get (s : State) (f : Frame → Frame) (k : Fld) (m n : Nat) : (s.updFrame f).get k m n = s.get k m n := rfl
@[simp] theorem updFrame_bit (s : State) (f : Frame → Frame) (k : Fld) (m n : Nat) : (s.updFrame f).bit k m n = s.bit k m n := rfl

/-! ## updFab -/

@[simp] theorem updFab_regs (s : State) (f : Fab → Fab) : (s.updFab f).regs = s.regs := rfl
@[simp] theorem updFab_mem (s : State) (f : Fab → Fab) : (s.updFab f).mem = s.mem := rfl
@[simp] theorem updFab_upset (s : State) (f : Fab → Fab) : (s.updFab f).upset = s.upset := rfl
@[simp] theorem updFab_mc (s : State) (f : Fab → Fab) : (s.updFab f).mc = s.mc := rfl
@[simp] theorem updFab_clusters (s : State) (f : Fab → Fab) : (s.updFab f).clusters = s.clusters := rfl
@[simp] theorem updFab_gut (s : State) (f : Fab → Fab) : (s.updFab f).gut = s.gut := rfl
@[simp] theorem updFab_frame (s : State) (f : Fab → Fab) : (s.updFab f).frame = s.frame := rfl
@[simp] theorem updFab_course (s : State) (f : Fab → Fab) : (s.updFab f).course = s.course := rfl
@[simp] theorem updFab_tables (s : State) (f : Fab → Fab) : (s.updFab f).tables = s.tables := rfl
@[simp] theorem updFab_ylm (s : State) (f : Fab → Fab) : (s.updFab f).ylm = s.ylm := rfl
@[simp] theorem updFab_replay (s : State) (f : Fab → Fab) : (s.updFab f).replay = s.replay := rfl
@[simp] theorem updFab_queues (s : State) (f : Fab → Fab) : (s.updFab f).queues = s.queues := rfl
@[simp] theorem updFab_host (s : State) (f : Fab → Fab) : (s.updFab f).host = s.host := rfl
@[simp] theorem updFab_pwr (s : State) (f : Fab → Fab) : (s.updFab f).pwr = s.pwr := rfl
@[simp] theorem updFab_sec (s : State) (f : Fab → Fab) : (s.updFab f).sec = s.sec := rfl
@[simp] theorem updFab_start (s : State) (f : Fab → Fab) : (s.updFab f).start = s.start := rfl
@[simp] theorem updFab_fab (s : State) (f : Fab → Fab) : (s.updFab f).fab = f s.fab := rfl
@[simp] theorem updFab_upd (s : State) (f : Fab → Fab) : (s.updFab f).upd = s.upd := rfl
@[simp] theorem updFab_eth (s : State) (f : Fab → Fab) : (s.updFab f).eth = s.eth := rfl
@[simp] theorem updFab_sent (s : State) (f : Fab → Fab) : (s.updFab f).sent = s.sent := rfl
@[simp] theorem updFab_free (s : State) (f : Fab → Fab) : (s.updFab f).free = s.free := rfl
@[simp] theorem updFab_pending (s : State) (f : Fab → Fab) : (s.updFab f).pending = s.pending := rfl
@[simp] theorem updFab_rd (s : State) (f : Fab → Fab) (k : Reg) (m n : Nat) : (s.updFab f).rd k m n = s.rd k m n := rfl
@[simp] theorem updFab_get (s : State) (f : Fab → Fab) (k : Fld) (m n : Nat) : (s.updFab f).get k m n = s.get k m n := rfl
@[simp] theorem updFab_bit (s : State) (f : Fab → Fab) (k : Fld) (m n : Nat) : (s.updFab f).bit k m n = s.bit k m n := rfl

/-! ## updReplay -/

@[simp] theorem updReplay_regs (s : State) (f : Replay → Replay) : (s.updReplay f).regs = s.regs := rfl
@[simp] theorem updReplay_mem (s : State) (f : Replay → Replay) : (s.updReplay f).mem = s.mem := rfl
@[simp] theorem updReplay_upset (s : State) (f : Replay → Replay) : (s.updReplay f).upset = s.upset := rfl
@[simp] theorem updReplay_mc (s : State) (f : Replay → Replay) : (s.updReplay f).mc = s.mc := rfl
@[simp] theorem updReplay_clusters (s : State) (f : Replay → Replay) : (s.updReplay f).clusters = s.clusters := rfl
@[simp] theorem updReplay_gut (s : State) (f : Replay → Replay) : (s.updReplay f).gut = s.gut := rfl
@[simp] theorem updReplay_frame (s : State) (f : Replay → Replay) : (s.updReplay f).frame = s.frame := rfl
@[simp] theorem updReplay_course (s : State) (f : Replay → Replay) : (s.updReplay f).course = s.course := rfl
@[simp] theorem updReplay_tables (s : State) (f : Replay → Replay) : (s.updReplay f).tables = s.tables := rfl
@[simp] theorem updReplay_ylm (s : State) (f : Replay → Replay) : (s.updReplay f).ylm = s.ylm := rfl
@[simp] theorem updReplay_replay (s : State) (f : Replay → Replay) : (s.updReplay f).replay = f s.replay := rfl
@[simp] theorem updReplay_queues (s : State) (f : Replay → Replay) : (s.updReplay f).queues = s.queues := rfl
@[simp] theorem updReplay_host (s : State) (f : Replay → Replay) : (s.updReplay f).host = s.host := rfl
@[simp] theorem updReplay_pwr (s : State) (f : Replay → Replay) : (s.updReplay f).pwr = s.pwr := rfl
@[simp] theorem updReplay_sec (s : State) (f : Replay → Replay) : (s.updReplay f).sec = s.sec := rfl
@[simp] theorem updReplay_start (s : State) (f : Replay → Replay) : (s.updReplay f).start = s.start := rfl
@[simp] theorem updReplay_fab (s : State) (f : Replay → Replay) : (s.updReplay f).fab = s.fab := rfl
@[simp] theorem updReplay_upd (s : State) (f : Replay → Replay) : (s.updReplay f).upd = s.upd := rfl
@[simp] theorem updReplay_eth (s : State) (f : Replay → Replay) : (s.updReplay f).eth = s.eth := rfl
@[simp] theorem updReplay_sent (s : State) (f : Replay → Replay) : (s.updReplay f).sent = s.sent := rfl
@[simp] theorem updReplay_free (s : State) (f : Replay → Replay) : (s.updReplay f).free = s.free := rfl
@[simp] theorem updReplay_pending (s : State) (f : Replay → Replay) : (s.updReplay f).pending = s.pending := rfl
@[simp] theorem updReplay_rd (s : State) (f : Replay → Replay) (k : Reg) (m n : Nat) : (s.updReplay f).rd k m n = s.rd k m n := rfl
@[simp] theorem updReplay_get (s : State) (f : Replay → Replay) (k : Fld) (m n : Nat) : (s.updReplay f).get k m n = s.get k m n := rfl
@[simp] theorem updReplay_bit (s : State) (f : Replay → Replay) (k : Fld) (m n : Nat) : (s.updReplay f).bit k m n = s.bit k m n := rfl

/-! ## updEth -/

@[simp] theorem updEth_regs (s : State) (f : Eth → Eth) : (s.updEth f).regs = s.regs := rfl
@[simp] theorem updEth_mem (s : State) (f : Eth → Eth) : (s.updEth f).mem = s.mem := rfl
@[simp] theorem updEth_upset (s : State) (f : Eth → Eth) : (s.updEth f).upset = s.upset := rfl
@[simp] theorem updEth_mc (s : State) (f : Eth → Eth) : (s.updEth f).mc = s.mc := rfl
@[simp] theorem updEth_clusters (s : State) (f : Eth → Eth) : (s.updEth f).clusters = s.clusters := rfl
@[simp] theorem updEth_gut (s : State) (f : Eth → Eth) : (s.updEth f).gut = s.gut := rfl
@[simp] theorem updEth_frame (s : State) (f : Eth → Eth) : (s.updEth f).frame = s.frame := rfl
@[simp] theorem updEth_course (s : State) (f : Eth → Eth) : (s.updEth f).course = s.course := rfl
@[simp] theorem updEth_tables (s : State) (f : Eth → Eth) : (s.updEth f).tables = s.tables := rfl
@[simp] theorem updEth_ylm (s : State) (f : Eth → Eth) : (s.updEth f).ylm = s.ylm := rfl
@[simp] theorem updEth_replay (s : State) (f : Eth → Eth) : (s.updEth f).replay = s.replay := rfl
@[simp] theorem updEth_queues (s : State) (f : Eth → Eth) : (s.updEth f).queues = s.queues := rfl
@[simp] theorem updEth_host (s : State) (f : Eth → Eth) : (s.updEth f).host = s.host := rfl
@[simp] theorem updEth_pwr (s : State) (f : Eth → Eth) : (s.updEth f).pwr = s.pwr := rfl
@[simp] theorem updEth_sec (s : State) (f : Eth → Eth) : (s.updEth f).sec = s.sec := rfl
@[simp] theorem updEth_start (s : State) (f : Eth → Eth) : (s.updEth f).start = s.start := rfl
@[simp] theorem updEth_fab (s : State) (f : Eth → Eth) : (s.updEth f).fab = s.fab := rfl
@[simp] theorem updEth_upd (s : State) (f : Eth → Eth) : (s.updEth f).upd = s.upd := rfl
@[simp] theorem updEth_eth (s : State) (f : Eth → Eth) : (s.updEth f).eth = f s.eth := rfl
@[simp] theorem updEth_sent (s : State) (f : Eth → Eth) : (s.updEth f).sent = s.sent := rfl
@[simp] theorem updEth_free (s : State) (f : Eth → Eth) : (s.updEth f).free = s.free := rfl
@[simp] theorem updEth_pending (s : State) (f : Eth → Eth) : (s.updEth f).pending = s.pending := rfl
@[simp] theorem updEth_rd (s : State) (f : Eth → Eth) (k : Reg) (m n : Nat) : (s.updEth f).rd k m n = s.rd k m n := rfl
@[simp] theorem updEth_get (s : State) (f : Eth → Eth) (k : Fld) (m n : Nat) : (s.updEth f).get k m n = s.get k m n := rfl
@[simp] theorem updEth_bit (s : State) (f : Eth → Eth) (k : Fld) (m n : Nat) : (s.updEth f).bit k m n = s.bit k m n := rfl

/-! ## setHost -/

@[simp] theorem setHost_regs (s : State) (x : HostIf) : (s.setHost x).regs = s.regs := rfl
@[simp] theorem setHost_mem (s : State) (x : HostIf) : (s.setHost x).mem = s.mem := rfl
@[simp] theorem setHost_upset (s : State) (x : HostIf) : (s.setHost x).upset = s.upset := rfl
@[simp] theorem setHost_mc (s : State) (x : HostIf) : (s.setHost x).mc = s.mc := rfl
@[simp] theorem setHost_clusters (s : State) (x : HostIf) : (s.setHost x).clusters = s.clusters := rfl
@[simp] theorem setHost_gut (s : State) (x : HostIf) : (s.setHost x).gut = s.gut := rfl
@[simp] theorem setHost_frame (s : State) (x : HostIf) : (s.setHost x).frame = s.frame := rfl
@[simp] theorem setHost_course (s : State) (x : HostIf) : (s.setHost x).course = s.course := rfl
@[simp] theorem setHost_tables (s : State) (x : HostIf) : (s.setHost x).tables = s.tables := rfl
@[simp] theorem setHost_ylm (s : State) (x : HostIf) : (s.setHost x).ylm = s.ylm := rfl
@[simp] theorem setHost_replay (s : State) (x : HostIf) : (s.setHost x).replay = s.replay := rfl
@[simp] theorem setHost_queues (s : State) (x : HostIf) : (s.setHost x).queues = s.queues := rfl
@[simp] theorem setHost_host (s : State) (x : HostIf) : (s.setHost x).host = x := rfl
@[simp] theorem setHost_pwr (s : State) (x : HostIf) : (s.setHost x).pwr = s.pwr := rfl
@[simp] theorem setHost_sec (s : State) (x : HostIf) : (s.setHost x).sec = s.sec := rfl
@[simp] theorem setHost_start (s : State) (x : HostIf) : (s.setHost x).start = s.start := rfl
@[simp] theorem setHost_fab (s : State) (x : HostIf) : (s.setHost x).fab = s.fab := rfl
@[simp] theorem setHost_upd (s : State) (x : HostIf) : (s.setHost x).upd = s.upd := rfl
@[simp] theorem setHost_eth (s : State) (x : HostIf) : (s.setHost x).eth = s.eth := rfl
@[simp] theorem setHost_sent (s : State) (x : HostIf) : (s.setHost x).sent = s.sent := rfl
@[simp] theorem setHost_free (s : State) (x : HostIf) : (s.setHost x).free = s.free := rfl
@[simp] theorem setHost_pending (s : State) (x : HostIf) : (s.setHost x).pending = s.pending := rfl
@[simp] theorem setHost_rd (s : State) (x : HostIf) (k : Reg) (m n : Nat) : (s.setHost x).rd k m n = s.rd k m n := rfl
@[simp] theorem setHost_get (s : State) (x : HostIf) (k : Fld) (m n : Nat) : (s.setHost x).get k m n = s.get k m n := rfl
@[simp] theorem setHost_bit (s : State) (x : HostIf) (k : Fld) (m n : Nat) : (s.setHost x).bit k m n = s.bit k m n := rfl

/-! ## setStart -/

@[simp] theorem setStart_regs (s : State) (x : Start) : (s.setStart x).regs = s.regs := rfl
@[simp] theorem setStart_mem (s : State) (x : Start) : (s.setStart x).mem = s.mem := rfl
@[simp] theorem setStart_upset (s : State) (x : Start) : (s.setStart x).upset = s.upset := rfl
@[simp] theorem setStart_mc (s : State) (x : Start) : (s.setStart x).mc = s.mc := rfl
@[simp] theorem setStart_clusters (s : State) (x : Start) : (s.setStart x).clusters = s.clusters := rfl
@[simp] theorem setStart_gut (s : State) (x : Start) : (s.setStart x).gut = s.gut := rfl
@[simp] theorem setStart_frame (s : State) (x : Start) : (s.setStart x).frame = s.frame := rfl
@[simp] theorem setStart_course (s : State) (x : Start) : (s.setStart x).course = s.course := rfl
@[simp] theorem setStart_tables (s : State) (x : Start) : (s.setStart x).tables = s.tables := rfl
@[simp] theorem setStart_ylm (s : State) (x : Start) : (s.setStart x).ylm = s.ylm := rfl
@[simp] theorem setStart_replay (s : State) (x : Start) : (s.setStart x).replay = s.replay := rfl
@[simp] theorem setStart_queues (s : State) (x : Start) : (s.setStart x).queues = s.queues := rfl
@[simp] theorem setStart_host (s : State) (x : Start) : (s.setStart x).host = s.host := rfl
@[simp] theorem setStart_pwr (s : State) (x : Start) : (s.setStart x).pwr = s.pwr := rfl
@[simp] theorem setStart_sec (s : State) (x : Start) : (s.setStart x).sec = s.sec := rfl
@[simp] theorem setStart_start (s : State) (x : Start) : (s.setStart x).start = x := rfl
@[simp] theorem setStart_fab (s : State) (x : Start) : (s.setStart x).fab = s.fab := rfl
@[simp] theorem setStart_upd (s : State) (x : Start) : (s.setStart x).upd = s.upd := rfl
@[simp] theorem setStart_eth (s : State) (x : Start) : (s.setStart x).eth = s.eth := rfl
@[simp] theorem setStart_sent (s : State) (x : Start) : (s.setStart x).sent = s.sent := rfl
@[simp] theorem setStart_free (s : State) (x : Start) : (s.setStart x).free = s.free := rfl
@[simp] theorem setStart_pending (s : State) (x : Start) : (s.setStart x).pending = s.pending := rfl
@[simp] theorem setStart_rd (s : State) (x : Start) (k : Reg) (m n : Nat) : (s.setStart x).rd k m n = s.rd k m n := rfl
@[simp] theorem setStart_get (s : State) (x : Start) (k : Fld) (m n : Nat) : (s.setStart x).get k m n = s.get k m n := rfl
@[simp] theorem setStart_bit (s : State) (x : Start) (k : Fld) (m n : Nat) : (s.setStart x).bit k m n = s.bit k m n := rfl

/-! ## setInflight -/

@[simp] theorem setInflight_regs (s : State) (l : List Cmd) : (s.setInflight l).regs = s.regs := rfl
@[simp] theorem setInflight_mem (s : State) (l : List Cmd) : (s.setInflight l).mem = s.mem := rfl
@[simp] theorem setInflight_upset (s : State) (l : List Cmd) : (s.setInflight l).upset = s.upset := rfl
@[simp] theorem setInflight_mc (s : State) (l : List Cmd) : (s.setInflight l).mc = s.mc := rfl
@[simp] theorem setInflight_clusters (s : State) (l : List Cmd) : (s.setInflight l).clusters = s.clusters := rfl
@[simp] theorem setInflight_gut (s : State) (l : List Cmd) : (s.setInflight l).gut = s.gut := rfl
@[simp] theorem setInflight_frame (s : State) (l : List Cmd) : (s.setInflight l).frame = s.frame := rfl
@[simp] theorem setInflight_course (s : State) (l : List Cmd) : (s.setInflight l).course = s.course := rfl
@[simp] theorem setInflight_tables (s : State) (l : List Cmd) : (s.setInflight l).tables = s.tables := rfl
@[simp] theorem setInflight_ylm (s : State) (l : List Cmd) : (s.setInflight l).ylm = s.ylm := rfl
@[simp] theorem setInflight_replay (s : State) (l : List Cmd) : (s.setInflight l).replay = s.replay := rfl
@[simp] theorem setInflight_host (s : State) (l : List Cmd) : (s.setInflight l).host = s.host := rfl
@[simp] theorem setInflight_pwr (s : State) (l : List Cmd) : (s.setInflight l).pwr = s.pwr := rfl
@[simp] theorem setInflight_sec (s : State) (l : List Cmd) : (s.setInflight l).sec = s.sec := rfl
@[simp] theorem setInflight_start (s : State) (l : List Cmd) : (s.setInflight l).start = s.start := rfl
@[simp] theorem setInflight_fab (s : State) (l : List Cmd) : (s.setInflight l).fab = s.fab := rfl
@[simp] theorem setInflight_upd (s : State) (l : List Cmd) : (s.setInflight l).upd = s.upd := rfl
@[simp] theorem setInflight_eth (s : State) (l : List Cmd) : (s.setInflight l).eth = s.eth := rfl
@[simp] theorem setInflight_sent (s : State) (l : List Cmd) : (s.setInflight l).sent = s.sent := rfl
@[simp] theorem setInflight_free (s : State) (l : List Cmd) : (s.setInflight l).free = s.free := rfl
@[simp] theorem setInflight_pending (s : State) (l : List Cmd) : (s.setInflight l).pending = s.pending := rfl
@[simp] theorem setInflight_rd (s : State) (l : List Cmd) (k : Reg) (m n : Nat) : (s.setInflight l).rd k m n = s.rd k m n := rfl
@[simp] theorem setInflight_get (s : State) (l : List Cmd) (k : Fld) (m n : Nat) : (s.setInflight l).get k m n = s.get k m n := rfl
@[simp] theorem setInflight_bit (s : State) (l : List Cmd) (k : Fld) (m n : Nat) : (s.setInflight l).bit k m n = s.bit k m n := rfl

/-! ## setQx -/

@[simp] theorem setQx_regs (s : State) (q : Nat) (x : QExtra) : (s.setQx q x).regs = s.regs := rfl
@[simp] theorem setQx_mem (s : State) (q : Nat) (x : QExtra) : (s.setQx q x).mem = s.mem := rfl
@[simp] theorem setQx_upset (s : State) (q : Nat) (x : QExtra) : (s.setQx q x).upset = s.upset := rfl
@[simp] theorem setQx_mc (s : State) (q : Nat) (x : QExtra) : (s.setQx q x).mc = s.mc := rfl
@[simp] theorem setQx_clusters (s : State) (q : Nat) (x : QExtra) : (s.setQx q x).clusters = s.clusters := rfl
@[simp] theorem setQx_gut (s : State) (q : Nat) (x : QExtra) : (s.setQx q x).gut = s.gut := rfl
@[simp] theorem setQx_frame (s : State) (q : Nat) (x : QExtra) : (s.setQx q x).frame = s.frame := rfl
@[simp] theorem setQx_course (s : State) (q : Nat) (x : QExtra) : (s.setQx q x).course = s.course := rfl
@[simp] theorem setQx_tables (s : State) (q : Nat) (x : QExtra) : (s.setQx q x).tables = s.tables := rfl
@[simp] theorem setQx_ylm (s : State) (q : Nat) (x : QExtra) : (s.setQx q x).ylm = s.ylm := rfl
@[simp] theorem setQx_replay (s : State) (q : Nat) (x : QExtra) : (s.setQx q x).replay = s.replay := rfl
@[simp] theorem setQx_host (s : State) (q : Nat) (x : QExtra) : (s.setQx q x).host = s.host := rfl
@[simp] theorem setQx_pwr (s : State) (q : Nat) (x : QExtra) : (s.setQx q x).pwr = s.pwr := rfl
@[simp] theorem setQx_sec (s : State) (q : Nat) (x : QExtra) : (s.setQx q x).sec = s.sec := rfl
@[simp] theorem setQx_start (s : State) (q : Nat) (x : QExtra) : (s.setQx q x).start = s.start := rfl
@[simp] theorem setQx_fab (s : State) (q : Nat) (x : QExtra) : (s.setQx q x).fab = s.fab := rfl
@[simp] theorem setQx_upd (s : State) (q : Nat) (x : QExtra) : (s.setQx q x).upd = s.upd := rfl
@[simp] theorem setQx_eth (s : State) (q : Nat) (x : QExtra) : (s.setQx q x).eth = s.eth := rfl
@[simp] theorem setQx_sent (s : State) (q : Nat) (x : QExtra) : (s.setQx q x).sent = s.sent := rfl
@[simp] theorem setQx_free (s : State) (q : Nat) (x : QExtra) : (s.setQx q x).free = s.free := rfl
@[simp] theorem setQx_pending (s : State) (q : Nat) (x : QExtra) : (s.setQx q x).pending = s.pending := rfl
@[simp] theorem setQx_rd (s : State) (q : Nat) (x : QExtra) (k : Reg) (m n : Nat) : (s.setQx q x).rd k m n = s.rd k m n := rfl
@[simp] theorem setQx_get (s : State) (q : Nat) (x : QExtra) (k : Fld) (m n : Nat) : (s.setQx q x).get k m n = s.get k m n := rfl
@[simp] theorem setQx_bit (s : State) (q : Nat) (x : QExtra) (k : Fld) (m n : Nat) : (s.setQx q x).bit k m n = s.bit k m n := rfl

end Sys2Proof.Laws
end

