-- ==== Sys2Proof/Laws/Registers.lean ====
section
/-! SUPPORT. Laws of registers and their fields: what a register reads as after a write of it or of another one, and that
the register table keeps its canonical form. -/
namespace Sys2Proof.Laws
open Sys2Proof.Machine

/-! ## Words -/

/-- Keys of register instances with instances and indexes below 2^20 are equal only for one instance of one register. -/
theorem regCode_inj {r r' : Reg} {i j i' j' : Nat} (hi : i < 2 ^ 20) (hj : j < 2 ^ 20) (hi' : i' < 2 ^ 20)
    (hj' : j' < 2 ^ 20) (h : regCode r i j = regCode r' i' j') : r.num = r'.num ∧ i = i' ∧ j = j' := by
  unfold regCode at h; omega

theorem num_inj {r r' : Reg} (h : r.num = r'.num) : r = r' := by
  rw [← Reg.ofNat_ctorIdx r, ← Reg.ofNat_ctorIdx r']; exact congrArg Reg.ofNat h

/-- Instances of different registers have different keys. -/
theorem regCode_ne_of_reg {r r' : Reg} (h : r ≠ r') (i j i' j' : Nat) : regCode r i j ≠ regCode r' i' j' := by
  intro e
  refine h (num_inj ?_)
  unfold regCode at e; omega

/-- A register that was written reads as what was written. -/
@[simp] theorem rd_wr_self (s : State) (r : Reg) (i j : Nat) (w : Word) : (s.wr r i j w).rd r i j = w :=
  get_put_self _ _ _ _

/-- Another register instance reads as before. -/
theorem rd_wr_of_ne (s : State) (r k : Reg) (i j x y : Nat) (w : Word) (h : regCode k x y ≠ regCode r i j) :
    (s.wr r i j w).rd k x y = s.rd k x y := get_put_of_ne _ _ _ _ h

/-! ## Fields -/

theorem fget_lt (lo wid : Nat) (w : Word) : fget lo wid w < 2 ^ wid := Nat.mod_lt _ (Nat.two_pow_pos _)

theorem get_lt (s : State) (f : Fld) (i j : Nat) : s.get f i j < 2 ^ f.wid := fget_lt _ _ _

theorem toNat_fset (lo wid : Nat) (w : Word) (v : Nat) (h : lo + wid ≤ 64) :
    (fset lo wid w v).toNat = w.toNat % 2 ^ lo + v % 2 ^ wid * 2 ^ lo + w.toNat / 2 ^ (lo + wid) * 2 ^ (lo + wid) := by
  unfold fset
  rw [BitVec.toNat_ofNat, Nat.mod_eq_of_lt]
  have h1 : w.toNat % 2 ^ lo < 2 ^ lo := Nat.mod_lt _ (Nat.two_pow_pos _)
  have h2 : v % 2 ^ wid + 1 ≤ 2 ^ wid := Nat.mod_lt _ (Nat.two_pow_pos _)
  have h3 : w.toNat < 2 ^ (64 - (lo + wid)) * 2 ^ (lo + wid) := by rw [← Nat.pow_add, Nat.sub_add_cancel h]; exact w.isLt
  have h4 : w.toNat / 2 ^ (lo + wid) + 1 ≤ 2 ^ (64 - (lo + wid)) := (Nat.div_lt_iff_lt_mul (Nat.two_pow_pos _)).2 h3
  have h5 : (w.toNat / 2 ^ (lo + wid) + 1) * 2 ^ (lo + wid) ≤ 2 ^ (64 - (lo + wid)) * 2 ^ (lo + wid) :=
    Nat.mul_le_mul_right _ h4
  have h6 : (v % 2 ^ wid + 1) * 2 ^ lo ≤ 2 ^ wid * 2 ^ lo := Nat.mul_le_mul_right _ h2
  rw [← Nat.pow_add, Nat.sub_add_cancel h] at h5
  rw [← Nat.pow_add, Nat.add_comm wid lo] at h6
  rw [Nat.add_mul] at h5 h6
  omega

/-- The number of a word with a field set, from its low part, the field and the rest. -/
theorem toNat_fset' (lo wid : Nat) (w : Word) (v : Nat) (h : lo + wid ≤ 64) :
    (fset lo wid w v).toNat = w.toNat % 2 ^ lo + 2 ^ lo * (v % 2 ^ wid + 2 ^ wid * (w.toNat / 2 ^ (lo + wid))) := by
  rw [toNat_fset _ _ _ _ h, Nat.pow_add]; ring

/-- A field that was set has the value, cut to its width. -/
theorem fget_fset (lo wid : Nat) (w : Word) (v : Nat) (h : lo + wid ≤ 64) : fget lo wid (fset lo wid w v) = v % 2 ^ wid := by
  unfold fget
  rw [toNat_fset' _ _ _ _ h, Nat.add_mul_div_left _ _ (Nat.two_pow_pos _),
    Nat.div_eq_of_lt (Nat.mod_lt _ (Nat.two_pow_pos _)), Nat.zero_add, Nat.add_mul_mod_self_left, Nat.mod_mod]

/-- Setting a field leaves every disjoint field alone. -/
theorem fget_fset_of_disjoint (lo wid lo' wid' : Nat) (w : Word) (v : Nat) (h : lo + wid ≤ 64)
    (d : lo' + wid' ≤ lo ∨ lo + wid ≤ lo') : fget lo' wid' (fset lo wid w v) = fget lo' wid' w := by
  unfold fget
  rw [toNat_fset' _ _ _ _ h]
  rcases d with d | d
  · obtain ⟨k, rfl⟩ := Nat.exists_eq_add_of_le d
    have e : ∀ x : Nat, x / 2 ^ lo' % 2 ^ wid' = x % 2 ^ (lo' + wid') / 2 ^ lo' := fun x => by
      rw [Nat.pow_add, Nat.mod_mul_right_div_self]
    rw [e, e w.toNat]
    congr 1
    rw [Nat.pow_add _ (lo' + wid') k, Nat.mul_assoc, Nat.add_mul_mod_self_left, Nat.mod_mul_right_mod]
  · obtain ⟨k, rfl⟩ := Nat.exists_eq_add_of_le d
    have e : ∀ x : Nat, x / 2 ^ (lo + wid + k) = x / 2 ^ lo / 2 ^ wid / 2 ^ k := fun x => by
      rw [Nat.div_div_eq_div_mul, Nat.div_div_eq_div_mul, Nat.pow_add, Nat.pow_add, Nat.mul_assoc]
    rw [e, Nat.add_mul_div_left _ _ (Nat.two_pow_pos _), Nat.div_eq_of_lt (Nat.mod_lt _ (Nat.two_pow_pos _)),
      Nat.zero_add, Nat.add_mul_div_left _ _ (Nat.two_pow_pos _), Nat.div_eq_of_lt (Nat.mod_lt _ (Nat.two_pow_pos _)),
      Nat.zero_add]
    simp only [Nat.div_div_eq_div_mul, Nat.pow_add, Nat.mul_assoc]

/-- A field that was set has the value, cut to its width. -/
theorem get_set_self (s : State) (f : Fld) (v i j : Nat) (h : f.lo + f.wid ≤ 64) : (s.set f v i j).get f i j = v % 2 ^ f.wid := by
  unfold State.get State.set
  rw [rd_wr_self, fget_fset _ _ _ _ h]

/-- A disjoint field of the register that was written reads as before. -/
theorem get_set_of_disjoint (s : State) (f k : Fld) (v i j : Nat) (hr : k.reg = f.reg) (h : f.lo + f.wid ≤ 64)
    (d : k.lo + k.wid ≤ f.lo ∨ f.lo + f.wid ≤ k.lo) : (s.set f v i j).get k i j = s.get k i j := by
  unfold State.get State.set
  rw [hr, rd_wr_self, fget_fset_of_disjoint _ _ _ _ _ _ h d]

/-- A field of another register instance reads as before. -/
theorem get_set_of_ne (s : State) (f k : Fld) (v i j x y : Nat) (h : regCode k.reg x y ≠ regCode f.reg i j) :
    (s.set f v i j).get k x y = s.get k x y := by
  unfold State.get State.set
  rw [rd_wr_of_ne _ _ _ _ _ _ _ _ h]

/-- A field of another register reads as before, whatever the instances. -/
theorem get_set_of_reg (s : State) (f k : Fld) (v i j x y : Nat) (h : k.reg ≠ f.reg) : (s.set f v i j).get k x y = s.get k x y :=
  get_set_of_ne _ _ _ _ _ _ _ _ (regCode_ne_of_reg h _ _ _ _)

/-- A field of another register instance reads as before a write of a whole word. -/
theorem get_wr_of_ne (s : State) (r : Reg) (k : Fld) (w : Word) (i j x y : Nat) (h : regCode k.reg x y ≠ regCode r i j) :
    (s.wr r i j w).get k x y = s.get k x y := by
  unfold State.get
  rw [rd_wr_of_ne _ _ _ _ _ _ _ _ h]

/-! ## The canonical form of the register table -/

/-- A write of a register keeps the canonical form of the register table. -/
theorem wf_wr (s : State) (r : Reg) (i j : Nat) (w : Word) (h : Sparse.wf regDefault s.regs = true) :
    Sparse.wf regDefault (s.wr r i j w).regs = true := wf_put regDefault _ _ _ h

end Sys2Proof.Laws
end

