-- ==== Sys2Proof/Laws/Tile.lean ====
section
/-! SUPPORT. How an instruction of a tile program issues, in one lemma. -/
namespace Sys2Proof.Laws
open Sys2Proof.Machine Sys2Proof.Safety

/-- An instruction that its core issues acts and retires. -/
theorem issue_of_issues {s : State} {g : Nat} {t : TileOp} (h : Issues s g t) (ho : tileOps.contains t.op = true) :
    s.issue g t = (t.run s (s.fetchWord g)).retire g (t.next s (s.fetchWord g)) := by
  obtain ⟨h1, h2, h3, h4, h5, h6, h7⟩ := h
  have part : (s.isWadding g && !((t.regs (s.fetchWord g)).all wadReg && t.wad (s.fetchWord g))) = false := by
    cases hw : s.isWadding g with
    | false => rfl
    | true => obtain ⟨a, b⟩ := h6 hw; rw [a, b]; rfl
  unfold State.issue
  simp only [h1, Bool.not_true, Bool.false_eq_true, if_false, h2, ho, bne_self_eq_false, h3, h4, h5, h7, part, faultIf,
    List.append_nil, leastFault]

/-- A fault of an instruction at issue is all that happens. -/
theorem issue_of_fault {s : State} {g : Nat} {t : TileOp} {f : TFault} (h1 : s.canIssue g = true)
    (h2 : bits (s.fetchWord g) 0 8 = t.op) (ho : tileOps.contains t.op = true) (h3 : t.legal (s.fetchWord g) = true)
    (h4 : (t.regs (s.fetchWord g)).any (s.cl g).regPending = false) (h5 : t.wait s (s.fetchWord g) = none)
    (h6 : s.isWadding g = false ∨ ((t.regs (s.fetchWord g)).all wadReg = true ∧ t.wad (s.fetchWord g) = true))
    (h7 : leastFault (t.faults s (s.fetchWord g)) = some f) :
    s.issue g t = (if f.miss then s.missEvent (.tile g) f.addr else s).raiseTile g f.code f.addr := by
  have part : (s.isWadding g && !((t.regs (s.fetchWord g)).all wadReg && t.wad (s.fetchWord g))) = false := by
    rcases h6 with h | ⟨a, b⟩
    · rw [h]; rfl
    · rw [a, b]; simp
  unfold State.issue
  simp only [h1, Bool.not_true, Bool.false_eq_true, if_false, h2, ho, bne_self_eq_false, h3, h4, h5, h7, part, faultIf,
    List.append_nil]

end Sys2Proof.Laws
end

