-- ==== Sys2Proof/Tests/Slice0.lean ====
section
/-! SUPPORT. Tests: ill-formed commands are refused by their check, small facts read off the manual, and for every
statement with hypotheses states and operands that meet them. -/
namespace Sys2Proof.Tests
open Sys2Proof Sys2Proof.Machine Sys2Proof.Safety

-- one test at a time keeps the memory of a compile small
set_option Elab.async false

/-! ## Ill-formed commands, one for each check -/

def good : FabHdr := ⟨0, 0, 0, 0, 0, 0, false, false⟩
def eth : EthFrame := ⟨0, false, 0, 4791, false, true, true, 0⟩
def msg : RoceHdr := ⟨0, 0, 0, true, eth⟩
def flit : Flit := ⟨0, 0, [0, 0, 0, 0], List.replicate 240 0#8⟩
theorem test_wf_good : good.wf = true ∧ msg.wf = true ∧ Instr.tick.wf = true ∧ (Instr.store good 0 [(0#8, true)]).wf = true := by
  decide +kernel
theorem test_wf_writers : [
    Instr.registerWrite (2 ^ 43) [0#8] .host, .registerWrite 0 [] .host, .registerWrite 0 [0#8] (.tile 1024),
    .registerWrite 0 [0#8] (.command 16384), .registerWrite 0 [0#8] (.ingest 2), .readClear (2 ^ 43) .host,
    .readClear 0 (.remote 2048 0), .readClear 0 (.remote 0 (2 ^ 32))].all (fun c => !c.wf) = true := by decide +kernel
theorem test_wf_frame : [
    Instr.retrainEnd 0 true 256, .scrubSlot [(2176, 0)], .energyRefit [], .sync { good with src := 2048 } 0 0 0 0 0 0, .sync good (2 ^ 64) 0 0 0 0 0,
    .sync good 0 (2 ^ 64) 0 0 0 0, .delayReq { good with tag := 2 ^ 32 } 0 0, .delayRsp ⟨2048, 0⟩ 0 ⟨0, 0⟩ ⟨0, 0⟩, .delayRsp ⟨0, 0⟩ 256 ⟨0, 0⟩ ⟨0, 0⟩].all (fun c => !c.wf) = true := by decide +kernel
theorem test_wf_headers : [
    Instr.notDone { good with src := 2048 } 0, .extend { good with dst := 2048 } 0, .proceed { good with epoch := 65536 } 0,
    .addsDone { good with tag := 2 ^ 32 } 0, .allAddsDone { good with course := 2 ^ 32 } 0,
    .notDone { good with pbatten := 2 ^ 32 } 0, .notDone good (2 ^ 32), .extend good (2 ^ 32), .proceed good (2 ^ 32),
    .addsDone good (2 ^ 32), .allAddsDone good (2 ^ 32), .abortCourseMsg good (2 ^ 32) 1, .abortCourseMsg good 0 0,
    .abortCourseMsg good 0 11, .digest good (2 ^ 32) 0 0 0 [], .digest good 0 4 0 0 [], .digest good 0 0 64 0 [],
    .digestWaitTimeout 64].all (fun c => !c.wf) = true := by decide +kernel
theorem test_wf_cluster : [
    Instr.sqCredit { good with src := 2048 } 0, .sqCredit good (2 ^ 43), .programMemoryWrite 0 0 [], .programMemoryWrite 0 0x40000 [0#8],
    .accumulatorAccess 0 0x20000 0 (some [0#8]), .accumulatorAccess 0 0x20000 1 none, .chainSum good 65536 0 0 ⟨0, []⟩,
    .chainSum good 0 0 32 ⟨0, []⟩, .collResult good 65536 ⟨0, []⟩].all (fun c => !c.wf) = true := by decide +kernel
theorem test_wf_memory : [
    Instr.memRead 0x180_0000_0000 .host 0, .memRead 0 .host (2 ^ 576), .writeBack 0x180_0000_0000,
    .memWrite 0x180_0000_0000 (List.replicate 64 0#8) .host false, .memWrite 0 [] .host false,
    .memWrite 0 (List.replicate 64 0#8) (.tile 1024) false, .partialWrite 0x180_0000_0000 0 [0#8] .host false,
    .partialWrite 0 0 [] .host false, .partialWrite 0 64 [0#8] .host false, .partialWrite 0 0 [0#8] (.tile 1024) false,
    .refresh 0 0 8, .digestScanEnd 8192, .moveCopyEnd 65536 0, .moveCopyEnd 0 65536, .moveForwardClose 65536 0,
    .moveForwardClose 0 65536].all (fun c => !c.wf) = true := by decide +kernel
theorem test_wf_links : [
    Instr.flitReceive 0 { flit with vc := 4 } 0 true, .flitReceive 0 { flit with credits := [] } 0 true,
    .flitReceive 0 { flit with data := [] } 0 true, .linkTrainingEnd 0 true 0 256 0 true 0 0, .linkTrainingEnd 0 true 0 0 2048 true 0 0,
    .probe 0 2048 0, .probe 0 0 (2 ^ 32), .probeRsp 0 2048 0, .ident 0 2048 0 0, .ident 0 0 (2 ^ 32) 0,
    .identRsp 0 (2 ^ 32) 0 true 0 0, .identRsp 0 0 2048 true 0 0, .reqTimeoutExpiry (2 ^ 32)].all (fun c => !c.wf) = true := by decide +kernel
theorem test_wf_requests : [
    Instr.read { good with src := 2048 } 0 1, .read good (2 ^ 43) 1, .read good 0 0, .read good 0 4097,
    .store { good with src := 2048 } 0 [(0#8, true)], .store good (2 ^ 43) [(0#8, true)], .store good 0 [],
    .atomicW96 { good with src := 2048 } 0 [0], .atomicW96 good (2 ^ 43) [0], .atomicW96 good 0 [],
    .atomicW96 good 0 (List.replicate 65 0), .atomicW96 good 0 [2 ^ 104], .rowAdd { good with src := 2048 } 0 0 0 [],
    .rowAdd good 65536 0 0 [], .rowAdd good 0 (2 ^ 64) 0 [], .rowAdd good 0 0 (2 ^ 56) [], .rowAdd good 0 0 0 [2 ^ 104],
    .yealmReq { good with src := 2048 } 0 [0], .yealmReq good 65536 [0], .yealmReq good 0 [],
    .yealmReq good 0 (List.replicate 257 0), .readRsp ⟨0, 2 ^ 32⟩ 0 false [], .readRsp ⟨0, 0⟩ 256 false [], .ack ⟨2048, 0⟩ 0,
    .ack ⟨0, 0⟩ 256, .yealmRsp ⟨0, 2 ^ 32⟩ 0 false [] [], .yealmRsp ⟨0, 0⟩ 256 false [] []].all (fun c => !c.wf) = true := by decide +kernel
theorem test_wf_ingest : [
    Instr.responderRdmaWrite { msg with psn := 2 ^ 24 } 0 0 [], .responderRdmaWrite msg (2 ^ 32) 0 [],
    .responderRdmaWrite msg 0 (2 ^ 64) [], .responderWriteWithImmediate { msg with psn := 2 ^ 24 } 0 0 [] 0,
    .responderWriteWithImmediate msg (2 ^ 32) 0 [] 0, .responderWriteWithImmediate msg 0 (2 ^ 64) [] 0,
    .responderWriteWithImmediate msg 0 0 [] (2 ^ 32), .responderRdmaRead { msg with psn := 2 ^ 24 } 0 0 0,
    .responderRdmaRead msg (2 ^ 32) 0 0, .responderRdmaRead msg 0 (2 ^ 64) 0, .responderRdmaRead msg 0 0 (2 ^ 32),
    .roceAck 0 ⟨0, eth⟩ (2 ^ 24) none, .cnp 0 ⟨0, { eth with udp := 65536 }⟩, .roceAck 0 ⟨0, { eth with dst := 2 ^ 32 }⟩ 0 none,
    .rateRestore 0 0 0, .rateRestore 0 0 2, .rdmaReadResponse 0 ⟨0, eth⟩ (2 ^ 24) [], .roceQpSet 0 (2 ^ 32) ⟨0, false, 0, 0, 0⟩,
    .roceQpSet 0 0 ⟨2 ^ 24, false, 0, 0, 0⟩, .roceQpSet 0 0 ⟨0, false, 2 ^ 24, 0, 0⟩, .roceQpSet 0 0 ⟨0, false, 0, 2 ^ 24, 0⟩].all (fun c => !c.wf) = true := by decide +kernel
theorem test_wf_host : [
    Instr.hostWrite (2 ^ 64) [0#8] false, .hostWrite 0 [] false, .hostRead (2 ^ 64) 1, .hostRead 0 0, .hostRead 0 4097,
    .doorbell 0 true (2 ^ 32), .fencedDoorbell 0 true (2 ^ 32) 0, .packetTake 0 (.data []), .packetReread 0 (.data []),
    .hostLinkTrain false 0 1, .hostLinkTrain false 8 1, .hostLinkTrain false 1 3, .cxlMemRequest 0x18_0000_0000 none,
    .cxlMemRequest 0 (some []), .hostMemoryReadCompletion 0 0 (.data []), .cxlCacheResponse 0x30_0000,
    .configurationAccess (.bars (some (2 ^ 64)) none), .configurationAccess (.bars none (some (2 ^ 64))), .cmdNop 0 (2 ^ 32),
    .powerCap 0 (2 ^ 32), .hostCompletionTimeout 0 (2 ^ 32)].all (fun c => !c.wf) = true := by decide +kernel
theorem test_wf_services : [
    Instr.intakeData true (2 ^ 32) [], .gutRead true (2 ^ 32) 0, .moduleReset 3, .moduleReset 8, .budgetUpdate [],
    .thermalSample 0 [], .gutterEvent 0 65536 0, .gutterEvent 0 0 (2 ^ 128)].all (fun c => !c.wf) = true := by decide +kernel

/-! ### StepKeepsForm -/

theorem test_stepKeepsForm : State.reset.canon = true := by decide +kernel

/-! ### StepTakesFront -/

theorem test_stepTakesFront : ({ State.reset with pending := [.powerOn, .perst] } : State).pending.tail = [.perst] := rfl

/-! ### RollbackCounter -/

theorem test_rollbackCounter : (match step { State.reset with pending := [.supplyQualified] } with
    | .next t => t.start.stage == 1 | _ => false) = true := by decide +kernel

/-! ### StepRunsFront -/

theorem test_emptyQueue : State.reset.pending = [] := rfl

/-! ### RegisterAccessRuns -/

/-- TBN_STAGGER of die 3 through its window. -/
theorem test_registerAccess :
    let addr := winBase + 3 * winSize + 0x8_6000_0058
    inWindow addr = true ∧ addr % 8 = 0 ∧
    placeOf ((addr - winBase) / winSize) ((addr - winBase) % winSize) = .reg ⟨.tbnStagger, 0, 0⟩ ∧
    State.reset.hostSees 144 = true ∧ remoteShut addr 8 = false := by decide +kernel

/-! ### AccessTypes -/

/-- TBN_OVR: MODE 1, QUANTUM_US 20, MAXDEFER 64 is accepted, MODE 3 is not. -/
theorem test_accessTypes :
    (applyWrite .tbnOvr 0x40028 (1 + 20 * 4 + 64 * 4096)).isSome = true ∧
    applyWrite .tbnOvr 0x40028 (3 + 20 * 4 + 64 * 4096) = none := by decide +kernel

/-! ### SettingWritesRun -/

theorem test_settings_ports : ∀ p : Nat, p < 32 → State.reset.get F.JFL_PSTATUS_STATE p = 0 := by decide +kernel
theorem test_settings_interval : State.reset.cstate = 0 ∧ State.reset.get F.TBN_SYNC_ROLE ≠ 2 ∧
    applyWrite (settingReg 0) (State.reset.settingNext 0).toNat 20000 = some 20000 ∧
    State.reset.halfKept 0 (BitVec.ofNat 64 20000) = true := by decide +kernel
theorem test_settings_stagger : applyWrite .tbnStagger (State.reset.settingNext 4).toNat 0x1F40 = some 0x1F40 := by
  decide +kernel
theorem test_settings_port : State.reset.bit F.JFL_PCTRL_EN 31 = false := by decide +kernel

/-! ### HostAccessRuns -/

/-- A module with its link up under PCIe, BARs assigned, ready. -/
def up : State :=
  { State.reset.set F.HIF_LINK_MODE 1 with
    start := { Start.init with stage := 8 }, host := { HostIf.init with bar0 := some 0, bar2 := some (2 ^ 43) } }

theorem test_host_bars : up.linkUp = true ∧ up.barOf 0x100 8 = some (false, 0x100) ∧
    up.barOf (2 ^ 43 + 0xA_BE00) 8 = some (true, 0xA_BE00) ∧ up.bellOpen = true := by decide +kernel
/-- A read whose last byte is the last byte of BAR0, and one beyond BAR2. -/
theorem test_host_edges : up.barOf (2 ^ 43 - 8) 8 = some (false, 2 ^ 43 - 8) ∧ up.barOf (2 ^ 43 + 2 ^ 24 - 4) 8 = none := by
  decide +kernel

/-! ### DoorbellValues -/

/-- Queue 5 ARMED with 16 SQ and 16 CQ entries, SQ_HEAD and CQ_TAIL at 2^32 − 1, rings at 0 in a stack in service. -/
def armed : State :=
  let s := (up.set F.CFG_MEMSTATE_NEAR_UP 1).wr .qpQcfg 5 0 0x0001000000200404#64
  let s := ((s.set F.QP_QIDX_SQ_HEAD (2 ^ 32 - 1) 5).set F.QP_QIDX_CQ_TAIL (2 ^ 32 - 1) 5).set F.QP_QSTATE_STATE 1 5
  s.setQx 5 { QExtra.init with sqTail := 2 ^ 32 - 1, cqHead := 2 ^ 32 - 2 }

/-- Values at the edges: the ring size ahead across the wrap is valid, one more is not, nor one behind; CQ_HEAD may reach
CQ_TAIL and not pass it. -/
theorem test_doorbell_edges : armed.qState 5 = 1 ∧ armed.tailOk 5 15 = true ∧ armed.tailOk 5 16 = false ∧
    armed.tailOk 5 (2 ^ 32 - 2) = false ∧ armed.headOk 5 (2 ^ 32 - 1) = true ∧ armed.headOk 5 0 = false ∧
    armed.qState 6 ≠ 1 := by decide +kernel

/-! ### QueueSetRuns -/

theorem test_arm_hyps : up.qState 5 ≠ 1 ∧ qcfgOk (0x230404#64 ||| 0x1000000000000#64).toNat = true ∧
    (up.wr .qpQcfg 5 0 0x230404#64).bit F.QP_QCFG_SQ_HOST 5 = true ∧
    (up.wr .qpQcfg 5 0 0x230404#64).bit F.QP_QCFG_CQ_HOST 5 = true ∧ armed.qState 5 = 1 ∧
    qcfgOk (0x230404#64 &&& ~~~0x1000000000000#64).toNat = true ∧ qcfgOk (0x230403#64 &&& ~~~0x1000000000000#64).toNat = false := by
  decide +kernel

/-! ### PacketsRun -/

/-- A NOP packet of sequence 7 and IFVER 2, and its CRC. -/
def nopPacket : List Byte :=
  let b := [0#8, 0#8, 0#8, 2#8, 7#8, 0#8, 0#8, 0#8] ++ List.replicate 56 0#8
  patch b 12 (leBytes 2 (crc16 b))

/-- Queue 5 ARMED with rings in host memory and one packet to take; HIF_EPOCH and QEPOCH agree. -/
def hostQueue : State :=
  let s := ((armed.set F.QP_QCFG_SQ_HOST 1 5).set F.QP_QCFG_CQ_HOST 1 5).set F.QP_QSEQ_NEXT_SEQ 7 5
  s.setQx 5 { s.qx 5 with sqTail := 0 }

theorem test_packet_take : (hostQueue.qx 5).fence = none ∧ hostQueue.turn 0 = some 5 ∧
    hostQueue.bit F.QP_QCFG_SQ_HOST 5 = true ∧ nopPacket.length = 64 ∧
    packetOk nopPacket (hostQueue.get F.QP_QSEQ_NEXT_SEQ 5) = true := by decide +kernel
/-- A packet with another sequence is not valid. -/
theorem test_packet_reread :
    let s := hostQueue.setQx 5 { hostQueue.qx 5 with rereading := true, rereads := 6 }
    (s.qx 5).rereading = true ∧ s.qState 5 = 1 ∧ (s.qx 5).readAt + 250 < 2 ^ 64 ∧ (s.qx 5).rereads < 7 ∧ packetOk nopPacket 8 = false := by decide +kernel
def doneNop : DoneCmd := ⟨5, 7, 0, 0, 0, 0, false, 0, false, false, 100, none⟩
def withDone : State := { hostQueue with queues := { hostQueue.queues with done := [doneNop] } }
theorem test_completion_record : withDone.queues.done.find? (fun x => x.q == 5) = some doneNop ∧
    withDone.hostReach 5 = true ∧ withDone.cqFull 5 = false ∧ withDone.bit F.QP_QCFG_IRQ_EN 5 = false ∧ withDone.recordWaits doneNop = false := by decide +kernel
/-- The record of the worked example of chapter 13: index 9,000 of a CQ of 1,024 has PHASE 1. -/
theorem test_record_phase : (doneNop.record 9000 1024 8).getD 10 0#8 = 3#8 := by decide +kernel

/-! ### LinkEventsRun -/

theorem test_link_train :
    let s := { up.set F.HIF_LINK_MODE 0 with start := { Start.init with stage := 2 } }
    s.linkUp = false ∧ s.powered = true ∧ (true && s.bit F.HIF_CTRL_CXL_EN) = false := by decide +kernel
theorem test_link_events : up.linkUp = true ∧ up.powered = true ∧ up.get F.HIF_CTRL_PERST_SCOPE = 0 ∧ up.cstate ≠ 1 ∧
    up.cstate ≠ 2 ∧ up.queues.inflight = [] := by decide +kernel

/-! ### HostCommandsRun -/

/-- A state in which queue 5 has one accepted command of an opcode with its parameter bytes from offset 16 on. -/
def accepted (op : Nat) (params : List Byte) (s : State) : State :=
  s.setInflight [⟨5, 7, op, padTo 64 (leBytes 2 op ++ [0#8, 2#8] ++ leBytes 4 7 ++ List.replicate 8 0#8 ++ params), 0, false, false,
    [], false, 0⟩]

/-- Reads the front of the list of commands in flight. -/
def front (s : State) : Cmd := s.queues.inflight.headD ⟨0, 0, 0, [], 0, false, false, [], false, 0⟩

theorem test_cmd_accepted :
    let s := accepted 0x0001 [9#8] armed
    (s.cmd? 5 7 = some (front s) ∧ (front s).op = 1 ∧ (front s).running = false) ∧ 1 ≤ (front s).par 16 1 := by decide +kernel
theorem test_launch_hyps :
    let c := front (accepted 0x0002 [0xFF#8, 0x03#8, 0xFF#8, 0x7F#8] armed)
    c.par 16 2 / 2 ^ 10 % 32 = 0 ∧ (c.par 16 2 / 2 ^ 15 == 1) = c.wadding ∧ c.par 18 2 ≤ 32767 ∧ c.par 24 8 = 0 := by
  decide +kernel
theorem test_bias_hyps :
    let c := front (accepted 0x0207 (leBytes 8 (0x600_0000_0000 - 0x20_0000) ++ leBytes 4 1 ++ [1#8]) up)
    c.par 16 8 % pageSize = 0 ∧ c.par 16 8 + c.par 24 4 * pageSize ≤ hdmSize ∧ c.par 28 1 = 1 := by decide +kernel
theorem test_fill_hyps :
    let s := accepted 0x0201 (leBytes 8 0x40 ++ leBytes 8 5 ++ leBytes 8 8) armed
    let c := front s
    c.par 32 8 % 8 = 0 ∧ c.par 40 1 = 0 ∧ s.dmaJudge 5 (c.par 16 8) (c.par 32 8) true = none := by decide +kernel
theorem test_copy_hyps :
    let s := accepted 0x0200 (leBytes 8 0x40 ++ leBytes 8 0x1000 ++ leBytes 8 16) armed
    let c := front s
    s.dmaJudge 5 (c.par 16 8) (c.par 32 8) false = none ∧ s.dmaJudge 5 (c.par 24 8) (c.par 32 8) true = none ∧
    (s.busRead (.command 5) (c.par 16 8) (c.par 32 8)).waits = false ∧
    (s.busRead (.command 5) (c.par 16 8) (c.par 32 8)).bytes.length = 16 := by decide +kernel

/-! ### HostAnswersRun -/

/-- A copy of 16 bytes from the host to 0x1000 whose read of them is outstanding. -/
def copying : State :=
  let s := accepted 0x0200 (leBytes 8 0x40 ++ leBytes 8 0x1000 ++ leBytes 8 16 ++ [1#8]) armed
  (s.cmdWaits (front s) [0]).setHost { s.host with reads := [⟨5, 7, 0x40, 16⟩] }
theorem test_answer_hyps : copying.linkUp = true ∧
    copying.host.reads.find? (fun r => r.q == 5 && r.seq == 7) = some ⟨5, 7, 0x40, 16⟩ ∧
    copying.cmd? 5 7 = some (front copying) ∧ (front copying).par 24 8 = 0x1000 ∧
    copying.memRange 0x1000 16 = true ∧
    (match copying.busWrite (.command 5) (copying.queueWadding 5) 0x1000 (List.replicate 16 0#8) with | .done _ => true | _ => false) = true := by
  decide +kernel
theorem test_cxl_hyps : (up.set F.HIF_LINK_MODE 2).get F.HIF_LINK_MODE = 2 ∧
    (0x600_0000_0000 / 64 - 1) * 64 / pageSize = 0x2F_FFFF ∧ 0x2F_FFFF ∉ up.host.shared := by decide +kernel
theorem test_recall_hyps :
    let s := accepted 0x0207 [] (up.setHost { up.host with shared := [3] })
    let c := { front s with running := true, aux := [0, 3] }
    (s.setInflight [c]).queues.inflight.find? (fun c => c.op == 0x0207 && c.running &&
      (match c.aux with | _ :: p :: _ => p == 3 | _ => false)) = some c ∧ 3 ∈ s.host.shared := by decide +kernel

/-! ### ScalarRuns -/

/-- Cluster 1023 runs a course program in a work slot, with one instruction word at PC 0. -/
def running (w : Nat) (s : State) : State :=
  let s := (s.set F.CC_STATE_STATE 1 1023).updCl 1023 (fun c => { c with
    run := some ⟨5, none, none, 0, 0, false⟩, pm := tablePut [] 0 (leBytes 8 w) })
  { s with frame := { s.frame with slot := 0 } }

/-- A word of format R. -/
def wordR (op rd ra rb fn imm : Nat) : Nat := op + rd * 2 ^ 8 + ra * 2 ^ 14 + rb * 2 ^ 20 + fn * 2 ^ 26 + imm * 2 ^ 32

theorem test_scalar_issues :
    Issues (running (wordR 0x01 63 1 2 12 0) .reset) 1023 (aluOp 1023) ∧
    Issues (running (wordR 0x02 0 63 0 0 0xFFFFFFFF) .reset) 1023 (aluiOp 1023) ∧
    Issues (running (wordR 0x03 5 0 0 0 0x80000000) .reset) 1023 (lihOp 1023) ∧
    Issues (running (wordR 0x04 5 6 0 9 0) .reset) 1023 (faluOp 1023) := by
  unfold Issues; decide +kernel
theorem test_control_issues :
    Issues (running (wordR 0x05 5 6 7 0x16 0) .reset) 1023 (sscaleOp 1023) ∧
    Issues (running (wordR 0x08 0 0 0 8 0) .reset) 1023 (brOp 1023) ∧
    Issues (running (wordR 0x09 1 0 0 0 3) .reset) 1023 (jalOp 1023) ∧
    Issues (running (wordR 0x0A 1 2 0 0 0) .reset) 1023 (jalrOp 1023) ∧
    Issues (running (wordR 0x25 0 0 0 0 0x1FF) .reset) 1023 (waitOp 1023) := by
  unfold Issues; decide +kernel
theorem test_nop_issues : (running 0 .reset).fetchWord 1023 = 0 ∧ (running 0 .reset).canIssue 1023 = true := by
  decide +kernel

/-! ### TileMemoryRuns -/

theorem test_local_issues :
    Issues (running (wordR 0x20 63 0 0 0 0x1FFFF8) .reset) 1023 (ldlOp 1023) ∧
    Issues (running (wordR 0x21 0 0 63 0 0x1FFFF8) .reset) 1023 (stlOp 1023) := by unfold Issues; decide +kernel
/-- STM and LDM at the last word of the near memory's stack 0. -/
theorem test_memory_issues :
    Issues (running (wordR 0x22 63 0 0 0 8) (.reset |>.set F.CFG_MEMSTATE_NEAR_UP 1)) 1023 (ldmOp 1023) ∧
    Issues (running (wordR 0x23 0 0 63 0 8) (.reset |>.set F.CFG_MEMSTATE_NEAR_UP 1)) 1023 (stmOp 1023) := by
  unfold Issues; decide +kernel
theorem test_stm_done : (match (running (wordR 0x23 0 0 63 0 8) (.reset |>.set F.CFG_MEMSTATE_NEAR_UP 1)).busWrite (.tile 1023)
    false 8 (leBytes 8 0) with | .done _ => true | _ => false) = true := by decide +kernel
/-- Two loads of register 0 from one die: the older one has its response first (R12). -/
theorem test_ldm_response : (((running 0 .reset).updCl 1023 (fun c => { c with ldm := [(0, 7#64, 3, 0), (0, 8#64, 3, 1)] })).cl
    1023).ldmHeads.find? (fun p => p.1 == 0) = some (0, 7#64, 3, 0) := by decide +kernel
/-- A transfer of one row of 64 bytes within the local buffer, descriptor at offset 0x100. -/
def withDma (s : State) : State :=
  s.updCl 1023 (fun c => { c with lb := tablePut [] 0x100 (leBytes 8 0 ++ leBytes 8 0x1FFFC0 ++ leBytes 4 64 ++ leBytes 12 0),
                                  sreg := [(3, 0x100#64)] })
theorem test_dma_issues : Issues (withDma (running (wordR 0x24 0 3 0 2 3) .reset)) 1023 (dmaOp 1023) := by
  unfold Issues; decide +kernel
theorem test_dma_rows :
    let s := withDma (running (wordR 0x24 0 3 0 2 3) .reset)
    let d := s.dmaDesc 1023 2 0x100
    (dmaParts 1023 d d.byRow d.row s).how = .moved := by decide +kernel

/-! ### TileFaults -/

theorem test_fault_code : (running 0xFF .reset).canIssue 1023 = true ∧
    tileOps.contains (bits ((running 0xFF .reset).fetchWord 1023) 0 8) = false := by decide +kernel
/-- An LDL beyond the local buffer has one fault, of code 3. -/
theorem test_fault_least :
    let s := running (wordR 0x20 63 0 0 0 0x200000) .reset
    leastFault ((ldlOp 1023).faults s (s.fetchWord 1023)) = some (tf 3 0x200000) := by decide +kernel

/-! ### MatrixRuns -/

/-- Formats F8-A and I8, per-tensor scales, tensor 5. -/
theorem test_mcfg_issues : Issues (running (0x30 + 2 ^ 12 * 5 + 5 * 2 ^ 32) .reset) 1023 (mcfgOp 1023) := by
  unfold Issues; decide +kernel
/-- K = 16,384 with F32 panels at 0: each fills the whole local buffer. -/
theorem test_mma_issues : Issues (running (0x31 + 2 ^ 8 * 3 + 16383 * 2 ^ 46) .reset) 1023 (mmaOp 1023) := by
  unfold Issues; decide +kernel
/-- One matrix instruction of 70 K steps on tile 3. -/
def oneMma (entered : Bool) (steps : Nat) : MmaOp :=
  { serial := 7, tile := 3, aAddr := 0, bAddr := 0, sAddr := 0, tAddr := 0, k := 70, clear := true, fmtA := 0, fmtB := 0,
    sgA := 0, sgB := 0, tid := 5, wadding := false, steps := steps, entered := entered, audit := none, excl := false }
def withMma (o : MmaOp) : State := State.reset.updCl 1023 (fun c => { c with mq := [o] })
theorem test_mma_enters : ((withMma (oneMma false 0)).cl 1023).mq.find? (fun o => !o.entered) = some (oneMma false 0) ∧
    ((withMma (oneMma false 0)).cl 1023).tileClear 3 7 true = true := by decide +kernel
theorem test_mma_promotes :
    ((withMma (oneMma true 64)).cl 1023).mq.find? (fun o => o.entered && decide (o.steps < o.k)) = some (oneMma true 64) ∧
    (withMma (oneMma true 64)).segmentFull 1023 3 = false ∧ (withMma (oneMma true 64)).chunkLen 1023 (oneMma true 64) = 6 := by
  decide +kernel
theorem test_segment_full :
    ((withMma (oneMma true 64)).updCl 1023 (fun c => { c with segTerms := [(3, 2 ^ 20)] })).segmentFull 1023 3 = true := by
  decide +kernel
theorem test_mma_done : ((withMma (oneMma true 70)).cl 1023).mq = [oneMma true 70] ∧
    (withMma (oneMma true 70)).segmentFull 1023 3 = false := by decide +kernel
/-- An ended instruction under audit, none and 64 of its 70 K steps done. -/
def withAudit (steps : Nat) : State := State.reset.updCl 1023 (fun c => { c with
  audits := [⟨oneMma true 70, 0, 31, [], some [], steps, [], false⟩] })
theorem test_audit_waits : ((withAudit 0).cl 1023).audits.find? (fun u => u.after.isSome) =
      some ⟨oneMma true 70, 0, 31, [], some [], 0, [], false⟩ ∧ ((withAudit 0).cl 1023).vq = [] ∧
    ((withAudit 64).cl 1023).audits.find? (fun u => u.after.isSome) =
      some ⟨oneMma true 70, 0, 31, [], some [], 64, [], false⟩ := by decide +kernel

/-! ### ChunkExact -/

/-- (+3) × (−2) + (+1) × (+6) = 0. -/
theorem test_chunk_sum : (chunkSum 0 [(.fin false 3, false), (.fin false 1, true)] [(.fin true 2, false), (.fin false 6, false)]).1.val
    = 0 := by decide +kernel

/-! ### VectorRuns -/

/-- A word of format V with FN, FMT and VD. -/
def wordV (op vd fn fmt : Nat) : Nat := op + vd * 2 ^ 8 + fn * 2 ^ 35 + fmt * 2 ^ 40
/-- A state in which mask 1 selects element 1,023. -/
def masked (s : State) : State := s.updCl 1023 (fun c => { c with masks := [(1, 2 ^ 1023)] })
theorem test_vld_issues : Issues (masked (running (wordV 0x41 3 0 0 + 2 ^ 14) .reset)) 1023 (vecTile 1023 0x41) := by
  unfold Issues; decide +kernel
theorem test_vst_issues : Issues (masked (running (wordV 0x42 0 0 0 + 2 ^ 14) .reset)) 1023 (vecTile 1023 0x42) := by
  unfold Issues; decide +kernel
theorem test_vgather_issues : Issues (masked (running (wordV 0x43 3 0 0 + 2 ^ 14) .reset)) 1023 (vecTile 1023 0x43) := by
  unfold Issues; decide +kernel
theorem test_vscatter_issues : Issues (masked (running (wordV 0x44 0 0 0 + 2 ^ 14) .reset)) 1023 (vecTile 1023 0x44) := by
  unfold Issues; decide +kernel
theorem test_vector_issues_b :
    Issues (running (wordV 0x45 3 0 0) .reset) 1023 (vecTile 1023 0x45) ∧
    Issues (running (wordV 0x46 3 0 0) .reset) 1023 (vecTile 1023 0x46) ∧
    Issues (running (wordV 0x48 3 8 0) .reset) 1023 (vecTile 1023 0x48) ∧
    Issues (running (wordV 0x49 3 7 0) .reset) 1023 (vecTile 1023 0x49) ∧
    Issues (running (wordV 0x4A 3 5 0) .reset) 1023 (vecTile 1023 0x4A) := by unfold Issues; decide +kernel
theorem test_vector_issues_c :
    Issues (running (wordV 0x4B 3 7 0) .reset) 1023 (vecTile 1023 0x4B) ∧
    Issues (running (wordV 0x4C 2 0 0) .reset) 1023 (vecTile 1023 0x4C) ∧
    Issues (running (wordV 0x4D 3 11 0) .reset) 1023 (vecTile 1023 0x4D) ∧
    Issues (running (wordV 0x4E 3 1 3) .reset) 1023 (vecTile 1023 0x4E) ∧
    Issues (running (wordV 0x50 0 6 0) .reset) 1023 (vecTile 1023 0x50) ∧
    Issues (running (wordV 0x40 0 0 0) .reset) 1023 (vecTile 1023 0x40) := by unfold Issues; decide +kernel
theorem test_vector_idle : VecIdle (running (wordV 0x48 3 8 0) .reset) 1023 :=
  ⟨by decide +kernel, by decide +kernel, by decide +kernel, by decide +kernel, fun t h => absurd h (by
    have : vtrdTile ((running (wordV 0x48 3 8 0) .reset).fetchWord 1023) = none := by decide +kernel
    rw [this]; simp)⟩
theorem test_vtrd_idle : VecIdle (running (wordV 0x45 3 0 0) .reset) 1023 :=
  ⟨by decide +kernel, by decide +kernel, by decide +kernel, by decide +kernel, fun t h => by
    have : vtrdTile ((running (wordV 0x45 3 0 0) .reset).fetchWord 1023) = some 0 := by decide +kernel
    rw [this] at h; cases h; exact ⟨by decide +kernel, by decide +kernel⟩⟩

/-! ### VectorCompletes -/

theorem test_vec_head : ((State.reset.updCl 1023 (fun c => { c with
    vq := [⟨0, wordV 0x50 0 3 0, 0#64, 0#64, 0#64, 0, 0, 0, false, true, 32⟩] })).cl 1023).vq ≠ [] := by decide +kernel

/-! ### ProgramsRun -/

/-- A launch waits on the idle cluster 1023; END at the last word of program memory; an ended program. -/
def launched : State := State.reset.updCl 1023 (fun c => { c with waiting := [⟨5, none, none, 0, 0, true⟩, ⟨5, none, none, 8, 0, false⟩] })
theorem test_start_hyps : (launched.cl 1023).run = none ∧ (launched.cl 1023).enginesIdle = true ∧
    (launched.cl 1023).waiting.find? (fun l => !l.wadding) = some ⟨5, none, none, 8, 0, false⟩ := by decide +kernel
theorem test_end_issues : Issues (((running 0 .reset).set F.CC_STATE_PC 0x3FFF8 1023).updCl 1023 (fun c => { c with
    pm := tablePut [] 0x3FFF8 (leBytes 8 0x66) })) 1023 (endOp 1023) := by unfold Issues; decide +kernel
theorem test_complete_hyps : (((running 0 .reset).updCl 1023 (fun c => { c with ending := true })).cl 1023).run =
    some ⟨5, none, none, 0, 0, false⟩ ∧
    (((running 0 .reset).updCl 1023 (fun c => { c with ending := true })).cl 1023).enginesIdle = true := by decide +kernel

/-! ### SyncRuns -/

/-- A course whose program has one barrier over two groups, one stage queue, one chain of two tiles. -/
def coursePr : CourseProgram :=
  { number := 9, startBatten := 1, planned := 4, runSeed := 0#64, inputDigest := 0#64, repro := false, ieee := false, gradMode := 0,
    counterBase := 0, devices := [0], queues := [5], tensors := [], products := [],
    stages := [⟨7, 511, .cluster 1023, .local (.cluster 1023), 0x1000, 64, 8⟩]
    chains := [⟨9, 2, 0, 32, [⟨0, 1023, 31⟩, ⟨0, 1023, 30⟩], 0x2000, 5⟩], barriers := [⟨255, [0, 1023]⟩], lockRanges := [],
    tables := [], trained := [], layers := [], items := [] }
def inCourse (s : State) : State := { s.set F.TBN_CSTATE_STATE 2 with
  course := { s.course with prog := some coursePr, barriers := [(255, [0, 1023])], stages := [(4095, { StageQ.init with credits := 8 })] } }
theorem test_eob_issues : Issues (inCourse (running (wordR 0x60 0 0 0 0 0) .reset)) 1023 (eobOp 1023) ∧
    (inCourse (running 0 .reset)).courseRuns = true := by unfold Issues; decide +kernel
theorem test_bar_issues : Issues (inCourse (running (wordR 0x61 0 0 0 0 255) .reset)) 1023 (barOp 1023) := by
  unfold Issues; decide +kernel
theorem test_barrier_full : (inCourse .reset).barrier? 255 = some ⟨255, [0, 1023]⟩ ∧
    Sparse.get [] (inCourse .reset).course.barriers 255 = [0, 1023] := by decide +kernel
theorem test_release_state : Sparse.get 0 ({ State.reset with frame := { State.reset.frame with release := [(7, 2)] } } : State).frame.release 7
    = 2 := by decide +kernel

/-! ### StageRuns -/

theorem test_sqpush_issues : Issues (inCourse ((running (wordR 0x62 0 1 2 0 0) (State.reset.set F.CFG_MEMSTATE_NEAR_UP 1)).updCl 1023 (fun c => { c with
    sreg := [(1, 4095#64), (2, 0x1FFFC0#64)] }))) 1023 (sqpushOp 1023) := by unfold Issues; decide +kernel
/-- One ready entry in the queue. -/
def withEntry (s : State) : State := { s with course := { s.course with
  stages := [(4095, { StageQ.init with entries := [⟨0, 64, true, false, none⟩] })] } }
theorem test_sqpop_issues : Issues (withEntry (inCourse ((running (wordR 0x63 0 1 2 0 0) (State.reset.set F.CFG_MEMSTATE_NEAR_UP 1)).updCl 1023 (fun c => { c with
    sreg := [(1, 4095#64), (2, 0x1FFFC0#64)] })))) 1023 (sqpopOp 1023) := by unfold Issues; decide +kernel
theorem test_copy_hyps2 : (inCourse .reset).stage? 4095 = some ⟨7, 511, .cluster 1023, .local (.cluster 1023), 0x1000, 64, 8⟩ := by decide +kernel

/-! ### ChainsRun -/

theorem test_chn_issues : Issues (inCourse ((running (wordR 0x64 0 1 0 0 31) .reset).updCl 1023 (fun c => { c with
    sreg := [(1, 9#64)] }))) 1023 (chnOp 1023) := by unfold Issues; decide +kernel
/-- The first member of chain 9 has begun. -/
def chained : State :=
  let s := inCourse (State.reset.updCl 1023 (fun c => { c with chains := [(9, 31, 3)] }))
  s.setChain 9 { ChainRun.init with waiting := [0] }
theorem test_chain_row : chained.chain? 9 = some ⟨9, 2, 0, 32, [⟨0, 1023, 31⟩, ⟨0, 1023, 30⟩], 0x2000, 5⟩ ∧ chained.devnum = 0 ∧
    (chained.cl 1023).chains.find? (fun o => o.1 == 9 && o.2.1 == 31) = some (9, 31, 3) ∧
    (chained.cl 1023).tileClear 31 3 false = true ∧ (chained.chainRun 9).waiting = [0] ∧ (chained.chainRun 9).got = [] := by
  decide +kernel
/-- An allreduce of 0x10000 F32 elements over modules 0 and 1, this one first: four chunks; a first chunk's read. -/
def coll (kind : Nat) : CollRun := ⟨5, 7, kind, false, 0, 3, 0x10000, 0x1000, 0x80000, [0, 1], 5, 0, 2, 0, 0⟩
theorem test_coll_chunks : (coll 1).chunks = 4 ∧ (coll 1).kind = 1 ∧ (coll 1).written = 0 := by decide +kernel
theorem test_coll_desc : collOk (leBytes 1 0 ++ leBytes 1 0 ++ leBytes 2 3 ++ leBytes 4 2 ++ leBytes 8 0x10000 ++ leBytes 8 0x1000 ++
    leBytes 8 0x80000 ++ leBytes 8 0x40 ++ leBytes 3 5 ++ List.replicate 21 0#8) = true := by decide +kernel

/-! ### DormerRuns -/

/-- The dormer is open with every scope; cluster 1023 is halted and its tile 31 busy with one instruction. -/
def opened : State :=
  ((State.reset.set F.SEC_STATUS_DORMER 1).set F.SEC_DORMER_SCOPE 15).set F.CC_STATE_HALTED 1 1023
theorem test_dormer_open : opened.dormer 0 = true ∧ opened.dormer 1 = true ∧ opened.bit F.CC_STATE_HALTED 1023 = true ∧
    opened.runsAny 1023 = false ∧ (running 0 .reset).runsAny 1023 = true := by decide +kernel
theorem test_acc_busy : opened.accBusy 1023 0x1_F000 0x1000 true = false ∧
    (opened.updCl 1023 (fun c => { c with mq := [{ oneMma false 0 with tile := 31 }] })).accBusy 1023 0x1_F000 0x1000 true = true := by
  decide +kernel
theorem test_comp_busy : ((opened.updCl 1023 (fun c => { c with mq := [{ oneMma false 0 with tile := 7 }] })).cl 1023).tileBusy 7 = true ∧
    (opened.cl 1023).tileBusy 7 = false ∧ (opened.cl 1023).tileBusy 31 = false := by decide +kernel
theorem test_mismatch : (State.reset.set F.LDG_STATUS_MISMATCH 1).bit F.LDG_STATUS_MISMATCH = true ∧
    (State.reset.set F.LDG_STATUS_MISMATCH 1).bit F.LDG_STATUS_COMPARING = false := by decide +kernel
theorem test_cap_ok : capOk 1400 = true ∧ State.reset.cstate = 0 := by decide +kernel

/-! ### GutterRuns -/

/-- Slice 7 has one record in its intake; `win` a ring whose newest record equals it. -/
def rec7 : GRec := ⟨0x0202, 2, 0, 0, 1, 7, 5, 0⟩
def sliced (win : Bool) : State :=
  (State.reset.set F.GUT_HEAD_RAM_NEXT 0 7).setSlice 7 { (State.reset.slice 7) with
    intake := [rec7], win := win, ring := if win then [(16383, { rec7 with rep := 253 })] else [], dropAt := some 3 }
theorem test_drain_folds : ((sliced true).slice 7).folds (Sparse.get .blank ((sliced true).slice 7).ring (lastSlot 0)) rec7 = true ∧
    ((sliced false).slice 7).folds (Sparse.get .blank ((sliced false).slice 7).ring (lastSlot 0)) rec7 = false ∧
    (sliced true).gut.frozenAt = none ∧ ((sliced true).slice 7).win = true ∧ ((sliced true).slice 7).dropAt = some 3 := by
  decide +kernel
theorem test_gut_read : up.soffitUp = true := by decide +kernel
/-- Five records wait for the NV ring, whose pointer stands at its last page. -/
def nvFull : State :=
  let s := State.reset.set F.GUT_CTRL_NV_EN 1
  { s with gut := { s.gut with nvQueue := List.replicate 5 (rec7, 0), nvAbs := 131068, frozenAt := none } }
theorem test_nv_ready : nvFull.nvReady = true ∧ nvFull.nvInhibit = false ∧ nvFull.sec.job = none ∧
    nvFull.gut.nvAbs < nvFull.gut.nvOld + 131072 := by decide +kernel
/-- The second lap begins: the sector of the oldest 1,024 records is erased, and 130,048 stay readable. -/
theorem test_sector_erased : (({ nvFull.gut with nvAbs := 131072 } : Gut).eraseSector 131072).nvOld = 1024 ∧
    ({ nvFull.gut with nvAbs := 131072 } : Gut).erased 131072 = false ∧
    (({ nvFull.gut with nvAbs := 131072 } : Gut).eraseSector 131072).erased 131072 = true := by decide +kernel
theorem test_ev_codes : execGutterEvent.evCodes.contains 0x0805 = true := by decide +kernel
/-- A table with one entry for code 0x0202 at rate and burst 255 is sound; one for a class-0 code is not. -/
theorem test_filter_ok : filterOk (0xFFFF0202 :: List.replicate 255 0) = true ∧ filterOk (0xFFFF0101 :: List.replicate 255 0) = false := by
  decide +kernel
theorem test_gut_copy : (accepted 0x0702 ([7#8] ++ List.replicate 7 0#8 ++ leBytes 8 0x40 ++ leBytes 4 1) armed).memRange 0x40
    (64 * (armed.ramNewest 7 1).length) = true ∧
    (front (accepted 0x0702 ([7#8] ++ List.replicate 7 0#8 ++ leBytes 8 0x40 ++ leBytes 4 1) armed)).par 24 8 = 0x40 := by decide +kernel

/-! ### GutterBounds -/

theorem test_bounds : ∀ j : Fin 8, (State.reset.slice j).intake.length ≤ 256 := by decide +kernel

/-! ### MemoryRuns -/

/-- Near stack 0 is in service; one request of its channel 0 waits; an upset of one symbol awaits its write-back. -/
def nearOne : State :=
  let s := State.reset.set F.CFG_MEMSTATE_NEAR_UP 1
  { s with mc := { s.mc with queue := [(0, [⟨0, false, 63⟩])], writeBack := [(0, 0)] }, upset := [(0, 5)] }
theorem test_line_up : nearOne.lineUp 0 = true ∧ nearOne.chanRoom 0 = true ∧ nearOne.stoppedReqs (lineChan 0) = [] ∧ nearOne.writeStop .host false 0 64 = none ∧
    nearOne.writeStop .host false 63 1 = none := by decide +kernel
theorem test_one_symbol : decodeLine 5 = .corrected [(0, 5)] := by decide +kernel
theorem test_issue_hyps : (nearOne.chanQueue 0).length = 1 ∧ nearOne.retraining 0 = false := by decide +kernel
theorem test_retrain_hyps : (nearOne.set F.MEM_STATUS_CAL_ACTIVE 1 23).bit F.MEM_STATUS_CAL_ACTIVE 23 = true := by decide +kernel

/-! ### SymbolCorrected -/

theorem test_symbol_last : decodeLine (0x8001 * 2 ^ (16 * 35)) = .corrected [(35, 0x8001)] := by decide +kernel

/-! ### FrameRuns -/

/-- A powered module at stage 8, with one slot of its frame over. -/
def atSlot (n : Nat) : State := { up with frame := { up.frame with slot := n } }
theorem test_time_runs : (atSlot 4).timeRuns = true ∧ (atSlot 4).frame.slot = 4 := by decide +kernel
/-- The course's only item, a conversion, is due. -/
def itemDue : State :=
  let pr := { coursePr with items := [⟨.queue 5, 0, .convert 5 0x1000 0x2000⟩] }
  { (atSlot 0).set F.TBN_CSTATE_STATE 2 with course := { State.reset.course with prog := some pr } }
theorem test_item_due : itemDue.item? 0 = some ⟨.queue 5, 0, .convert 5 0x1000 0x2000⟩ ∧
    itemDue.itemsBefore 0 ⟨.queue 5, 0, .convert 5 0x1000 0x2000⟩ = true ∧ itemDue.course.issued = [] := by decide +kernel

/-! ### OverrunModes -/

theorem test_overrun_hyps : (atSlot 0).timeRuns = true ∧ (atSlot 0).get F.TBN_SYNC_ROLE = 0 ∧ (atSlot 0).frame.deferring = false ∧
    (atSlot 0).incomplete = false := by decide +kernel
/-- The conversion of the due course has not run: the work set of the present batten is incomplete. -/
theorem test_overrun_late : itemDue.incomplete = true := by decide +kernel

/-! ### SyncDomainRuns -/

theorem test_roles : ((atSlot 0).set F.TBN_SYNC_ROLE 2).timeRuns = true ∧ ((atSlot 0).set F.TBN_SYNC_ROLE 2).get F.TBN_SYNC_ROLE = 2 ∧
    ((atSlot 0).set F.TBN_SYNC_ROLE 1).get F.TBN_SYNC_ROLE = 1 := by decide +kernel

/-! ### CourseRuns -/

/-- A program of four battens with nothing to do passes every check of a module at reset. -/
def emptyPr : CourseProgram := { coursePr with barriers := [], stages := [], chains := [] }
theorem test_course_check : State.reset.courseCheck emptyPr = none := by decide +kernel
theorem test_course_hyps : armed.cstate = 0 ∧ armed.role = 0 ∧ armed.memRange 0x40 64 = true := by decide +kernel
/-- The last planned batten of that program has begun. -/
def closing (fold : Nat) : State :=
  { (atSlot 0).set F.TBN_CSTATE_STATE 3 with course := { State.reset.course with prog := some emptyPr, fold := fold } }
theorem test_fold_ready : (closing 0).foldReady = true ∧ (closing 0).alone = true := by decide +kernel
theorem test_fold_done : (List.range 24).all (closing 1).unitFolded = true := by decide +kernel
theorem test_closed : ({ closing 2 with course := { (closing 2).course with captured := true, accounted := true } } : State).closed = true := by
  decide +kernel
theorem test_drained : ((closing 0).set F.TBN_CSTATE_STATE 4).cstate = 4 ∧ ((closing 0).set F.TBN_CSTATE_STATE 4).drained = true ∧
    ((closing 0).set F.TBN_CSTATE_STATE 4).audited = true := by decide +kernel
theorem test_capture_hyps : (closing 2).collsOver = true ∧ (closing 2).openCommands (closing 2).course.plan = [] ∧
    (closing 2).course.captured = false := by decide +kernel

/-! ### CompareRuns -/

theorem test_region_range : regionRange (front (accepted 0x0500 (leBytes 2 0 ++ leBytes 2 1) armed)) = some [0] := by decide +kernel
theorem test_scan_hyps : (0 : Nat) ∈ ({ State.reset with replay := { State.reset.replay with scans := [0] } } : State).replay.scans ∧
    (State.reset.scanLines .engine 0 (2 ^ 30)).1 = false := by decide +kernel

/-! ### UnitInstructionsRun -/

/-- Unit 23 processes a row under a binding of program 0, whose first word has an opcode. -/
def unitRun : UpdRun := ⟨none, 0, 0, List.replicate 64 0#8, 0, 0, 0, 0, 16384, 2, 0, [], true, [], [], [], none⟩
def unitAt (op : Nat) : State :=
  let s := State.reset.setRun 23 (some unitRun)
  { s with upd := { s.upd with prog := tablePut [] 8 (leBytes 4 op) } }
theorem test_unit_runs : ∀ op : Fin 25, UnitRuns (unitAt op) 23 unitRun op := by unfold UnitRuns; decide +kernel

/-! ### UnitFrame -/

theorem test_unit_frame : (unitAt 8).runOf 23 = some unitRun ∧ (23 : Fin 24) ≠ 0 ∧ unitRun.n ≤ 16384 := by decide +kernel

/-! ### UpdateRuns -/

/-- LDG u0, STW u0, END is a program; END alone stores no row and offends at word 0. -/
theorem test_program_end : checkProgram (leBytes 8 0 ++ leBytes 4 0x01 ++ leBytes 4 0x18 ++ leBytes 4 0) = none ∧
    checkProgram (leBytes 8 0 ++ leBytes 4 0) = some 0 := by decide +kernel
theorem test_bind_hyps : armed.deltaFree = true ∧ armed.memRange 0x40 64 = true := by decide +kernel
/-- An add for unit 23 of a table that is not defined is refused. -/
theorem test_add_refused : (match (State.reset.applyAdd 23 0 0 [] 1 (some 5)).1 with | .refused => true | _ => false) = true := by
  decide +kernel

/-! ### TablesRun -/

/-- A table of 8 rows of 4 F32 elements, one shard in near stack 0: descriptor and list. -/
def tableD : List Byte := leBytes 2 3 ++ leBytes 1 0 ++ leBytes 1 0 ++ leBytes 8 8 ++ leBytes 2 4 ++ leBytes 2 1 ++ leBytes 4 0 ++
  leBytes 4 0 ++ leBytes 8 0x1000 ++ leBytes 8 0x2000 ++ List.replicate 24 0#8
theorem test_eaves_empty : State.reset.eavesOk 7 0 0 0 = true ∧ armed.memRange 0x40 192 = true := by decide +kernel
/-- A move under way whose copy has ended; one whose window is open. -/
def moving (fwd : Bool) : MoveRun := ⟨3, 0, 0x4000, [(0x8000, 0x4000, 64)], false, fwd, none, none, 0, false, [], 0, false, false, 0⟩
theorem test_moving : ({ State.reset with tables := { State.reset.tables with moves := [moving true] } } : State).move? 3 0 =
    some (moving true) := by decide +kernel
theorem test_batch_live : ({ State.reset with tables := { State.reset.tables with batches := [⟨3, 0, 2, 0x40, 1, none, some 5⟩] } } :
    State).tables.batches.find? (fun b => b.live.isSome) = some ⟨3, 0, 2, 0x40, 1, none, some 5⟩ := by decide +kernel

/-! ### YealmRuns -/

theorem test_ylm_run : armed.memRange 0x40 128 = true := by decide +kernel
/-- A prefetch for course 1 on its way to die 7 with no row, and one row under way there. -/
def prefetched : State :=
  { State.reset with ylm := { State.reset.ylm with prefetch := [⟨5, 7, 1, [], [7], 0⟩],
                                                   rows := [(7, [⟨1, 0, 3, 0, 0, 0x40, 64, 0, 0, 0, false, true, 1⟩])] } }
theorem test_prefetched : prefetched.ylm.prefetch.find? (fun p => p.homes.contains 7) = some ⟨5, 7, 1, [], [7], 0⟩ ∧ (prefetched.stageRows 7).find? (·.issued) =
    some ⟨1, 0, 3, 0, 0, 0x40, 64, 0, 0, 0, false, true, 1⟩ := by decide +kernel

/-! ### LinksRun -/

theorem test_port_up : (State.reset.set F.JFL_PSTATUS_STATE 2 31).portUp 31 = true ∧
    (State.reset.set F.JFL_PSTATUS_STATE 1 31).get F.JFL_PSTATUS_STATE 31 = 1 := by decide +kernel
/-- Port 31 lies at a level above 0, where only the level is compared. -/
theorem test_miswired : miswired 31 0 31 3 = false ∧ miswired 31 0 0 3 = true := by decide +kernel
/-- A request of module 3 to this module, 7, of epoch 0 from a peer of which nothing is known. -/
def hdr : FabHdr := { src := 3, dst := 7, epoch := 0, tag := 9, course := 0, pbatten := 0, reissue := false, wadding := false }
/-- An outstanding IDENT of queue 5, command 7, and a peer that is probed. -/
def asked (op : Nat) (o : FabOwner) : State :=
  { State.reset with fab := { State.reset.fab with reqs := [⟨9, 3, op, 31, 0, [], o, 0, 31, 31, [31], 0, false, hdr⟩] } }
theorem test_ident_asked : (asked 0x31 (.ident 5 7)).fab.reqs.find? (fun r => r.tag == 9 && r.op == 0x31 && r.addr == 31) =
    some ⟨9, 3, 0x31, 31, 0, [], .ident 5 7, 0, 31, 31, [31], 0, false, hdr⟩ := by decide +kernel

/-! ### FabricRuns -/

def seven : State := (up.set F.CFG_DEVNUM_DEVNUM 7).set F.CFG_DEVNUM_VALID 1
theorem test_fresh : Fresh seven hdr :=
  ⟨by decide +kernel, by decide +kernel, by decide +kernel, by decide +kernel, (fun e h => by
    have : Sparse.get none (seven.heard hdr.src).fab.newest hdr.src = none := by decide +kernel
    rw [this] at h; cases h), rfl⟩
/-- Near stack 0 of that module is in service: its first page reads and may be written, and a count of rows may be added. -/
def sevenUp : State := seven.set F.CFG_MEMSTATE_NEAR_UP 1
theorem test_remote : ((arrived sevenUp hdr).busRead (.remote 3 0) 0xFF8 8).miss = false ∧
    ((arrived seven hdr).busRead (.remote 3 0) 0xFF8 8).miss = true ∧
    (arrived sevenUp hdr).remoteStop hdr 0xFC0 64 = none ∧ fabricSpan 0xFC0 64 = true ∧
    (arrived sevenUp hdr).memRange 0 1024 = true := by decide +kernel
theorem test_asked : Asked (asked 0x01 (.copyRead 5 7 0)) 9 0x01 ⟨9, 3, 0x01, 31, 0, [], .copyRead 5 7 0, 0, 31, 31, [31], 0, false, hdr⟩ := by
  unfold Asked; decide +kernel

/-! ### RoceResponderRuns -/

def pair : QueuePair := ⟨⟨3, false, 9, 2 ^ 24 - 1, 7⟩, false, 0, [], 1, none, none⟩
/-- Ingest port 1 runs, with an IPv4 address; its queue pair 1023 awaits PSN 2^24 − 1; region 5 is a page at 1 MiB, readable and writable. -/
def ingest : State :=
  let s := (((sevenUp.set F.ETH_CTRL_EN 1 1).set F.ETH_STATUS_LINK_UP 1 1).set F.ETH_IP4_ADDR 5 1).putQp 1 1023 pair
  s.updEth (fun e => { e with regions := Sparse.put none e.regions (4096 + 5) (some ⟨4096 * 7 + 5, 0x10_0000, 4096, true, true, 9⟩) })
def frame : EthFrame := ⟨1024, false, 5, 4791, false, true, true, 0⟩
def roceHdr : RoceHdr := ⟨1, 1023, 2 ^ 24 - 1, true, frame⟩
theorem test_frame_ok : FrameOk ingest 1 frame := by unfold FrameOk; decide +kernel
theorem test_roce_in_order : RoceInOrder ingest roceHdr pair := by unfold RoceInOrder FrameOk; decide +kernel
theorem test_roce_region : (roceTaken ingest roceHdr pair 8).region? 1 (4096 * 7 + 5) = some ⟨4096 * 7 + 5, 0x10_0000, 4096, true, true, 9⟩ ∧
    (⟨4096 * 7 + 5, 0x10_0000, 4096, true, true, 9⟩ : MemRegion).admits true 0x10_0FF8 8 = true ∧
    (⟨4096 * 7 + 5, 0x10_0000, 4096, true, true, 9⟩ : MemRegion).admits true 0x10_0FF9 8 = false ∧
    (⟨4096 * 7 + 5, 0x10_0000, 4096, true, true, 9⟩ : MemRegion).admits false 0x10_0FF8 8 = true ∧
    (roceTaken ingest roceHdr pair 8).region? 1 6 = none := by decide +kernel
/-- Region 5's first bytes may be written; with that range locked they may not. -/
theorem test_roce_bus : (match (roceTaken ingest roceHdr pair 8).busPost (.ingest 1) false 0x10_0000 (leBytes 8 5) with
      | .done _ => true | _ => false) = true ∧
    ((roceTaken ingest roceHdr pair 8).busRead (.ingest 1) 0x10_0000 8).miss = false := by decide +kernel
theorem test_roce_psn : psnAdd (2 ^ 24 - 1) 1 = 0 ∧ psnDiff 0 (2 ^ 24 - 1) = 1 := by decide +kernel
theorem test_pfc : (ingest.set F.ETH_CTRL_PFC_EN 1 1).portRuns 1 = true ∧ ingest.qp? 1 1023 = some pair ∧
    (ingest.set F.ETH_CTRL_PFC_EN 1 1).bit F.ETH_CTRL_PFC_EN 1 = true := by decide +kernel
theorem test_pfc_prio : ∃ prio : Fin 8, (ingest.set F.ETH_CTRL_PFC_EN 1 1).get F.ETH_CTRL_PFC_PRIO 1 = prio.val := by decide +kernel
theorem test_ecn : (ingest.set F.ETH_CTRL_ECN_EN 1 1).bit F.ETH_CTRL_ECN_EN 1 = true ∧
    ingest.bit F.ETH_CTRL_EN 1 = true := by decide +kernel

/-! ### RoceRequesterRuns -/

theorem test_rdma_hyps :
    let s := accepted 0x0202 ([1#8, 0#8] ++ leBytes 2 1023 ++ leBytes 4 0 ++ leBytes 8 0x10_0000 ++ leBytes 8 0 ++ leBytes 4 64) ingest
    let c := front s
    c.par 16 1 = 1 ∧ c.par 18 2 = 1023 ∧ s.qp? 1 1023 = some pair ∧ s.rangeMapped (c.par 24 8) (c.par 40 4) = true ∧
    s.writeStop (.command c.q) c.wadding (c.par 24 8) (c.par 40 4) = none := by decide +kernel
/-- A read of 64 bytes that is on its way for command 7 of queue 5. -/
def aRead : RoceReq := ⟨some (5, 7), none, true, 9, 1, 0x10_0000, 0, 64, 3, true, 0⟩
def reading : State := ingest.putQp 1 1023 { pair with reqs := [aRead] }
theorem test_reading : reading.qp? 1 1023 = some { pair with reqs := [aRead] } ∧ reading.portRuns 1 = true ∧
    ([aRead].any (fun r => r.sent)) = true ∧
    (match (((reading.putQp 1 1023 { pair with reqs := [aRead] }).bump F.ETH_RXBYTES_BYTES 64 1).act 5 9 1).busPost (.command 5)
        false 0x10_0000 (List.replicate 64 1#8) with
      | .done t => t.qp? 1 1023 == some { pair with reqs := [aRead] } | _ => false) = true := by decide +kernel
theorem test_mr_hyps :
    let s := accepted 0x0204 (leBytes 8 64 ++ leBytes 8 64 ++ [3#8, 1#8] ++ leBytes 2 16383) ingest
    let c := front s
    c.par 16 8 = 64 ∧ c.par 32 1 = 3 ∧ c.par 33 1 = 1 ∧ c.par 34 2 = 16383 ∧ s.freeRegion 1 = some 0 := by decide +kernel
theorem test_mr_free_hyps :
    let s := accepted 0x0205 (leBytes 4 (4096 * 7 + 5) ++ [1#8]) ingest
    s.region? ((front s).par 20 1) ((front s).par 16 4) = some ⟨4096 * 7 + 5, 0x10_0000, 4096, true, true, 9⟩ := by decide +kernel
theorem test_qp_hyps :
    let s := accepted 0x0206 (leBytes 8 64 ++ leBytes 2 1022 ++ [1#8]) ingest
    let c := front s
    c.par 24 2 = 1022 ∧ s.memRange (c.par 16 8) 256 = true ∧
    s.memRange (s.get F.ETH_QP_BASE_BASE 1 * 64 + 256 * 1022) 256 = true ∧
    (s.readMem .engine (c.par 16 8) 256).st.qp? 1 1022 = none := by decide +kernel

/-! ### PowerControlRuns -/

/-- Die 7 has had its duty lowered, its power low, its sensors hot and cool, and a guard held, all since 3 µs; a hint of
class 15 starts at 1 ms, and group 2 droops. A refit is due. -/
def controlled : State :=
  let s := State.reset.setDp 7 { DiePwr.init with dutySince := some 3000, belowSince := some 3000, hotSince := some 3000,
                                                  coolSince := some 3000, holdUntil := some 3000,
                                                  hint := some ⟨1000000, 5000, 15, 1⟩, droop := 4 }
  let s := s.set F.PWR_CTRL_REFIT_EN 1
  { s with pwr := { s.pwr with refit := 1000 }, frame := { s.frame with slot := 4 } }
theorem test_controlled : (controlled.dp 7).dutySince = some 3000 ∧ (controlled.dp 7).belowSince = some 3000 ∧
    (controlled.dp 7).hotSince = some 3000 ∧ (controlled.dp 7).coolSince = some 3000 ∧ (controlled.dp 7).thermReq = 0 ∧
    (controlled.dp 7).thermCut = 0 := by decide +kernel
theorem test_refit_due : controlled.bit F.PWR_CTRL_REFIT_EN = true ∧ controlled.pwr.refit = 1000 ∧ controlled.frame.slot = 4 ∧
    (dec32 0x3F800000#32).neg = false ∧ (dec32 0x3F800000#32).nonfinite = false := by decide +kernel
/-- A sensor at 100 °C is at the throttle limit of reset, 101 °C above it. -/
theorem test_throttle : (4 : Int) * ((State.reset.get F.PWR_CTRL_THROTTLE_C 7 : Nat) : Int) = 400 := by decide +kernel
theorem test_cap_hyps : capOk ((front (accepted 0x0601 (leBytes 2 1200) armed)).par 16 2) = true ∧
    capOk ((front (accepted 0x0601 (leBytes 2 2801) armed)).par 16 2) = false ∧ capOk 2800 = true := by decide +kernel
/-- A cap request of 3 and a floor of 5 give step 5, and one more in a sag. -/
theorem test_step_target :
    let s := (State.reset.setDp 7 { DiePwr.init with capReq := 3 }).set F.PWR_CTRL_MIN_STEP 5 7
    s.stepTarget 7 = 5 ∧ ({ s with pwr := { s.pwr with sag := some (0, 0, 0) } } : State).stepTarget 7 = 6 := by decide +kernel

/-! ### HintsAndDroopRun -/

theorem test_hints : (controlled.dp 7).hint = some ⟨1000000, 5000, 15, 1⟩ ∧ (controlled.dp 7).holdUntil = some 3000 ∧
    (controlled.dp 7).granted = false ∧ (controlled.dp 7).droop / 4 % 2 = 1 ∧ (controlled.dp 7).droop / 128 % 2 = 0 := by
  decide +kernel
theorem test_hint_hyps :
    let c := front (accepted 0x0600 (leBytes 8 1000000 ++ [15#8, 0x80#8] ++ leBytes 2 65535) armed)
    c.par 24 1 = 15 ∧ c.par 25 1 = 0x80 ∧ c.par 26 2 = 65535 := by decide +kernel

/-! ### SupplyRuns -/

/-- In a sag since 5 µs, with the voltage back since 9 µs and a page being written. -/
def sagging : State :=
  { State.reset with pwr := { State.reset.pwr with sag := some (5000, 0, 40000), okSince := some 9000 }
                     sec := { State.reset.sec with job := some .page } }
theorem test_sagging : sagging.pwr.sag = some (5000, 0, 40000) ∧ sagging.pwr.okSince = some 9000 ∧
    sagging.sec.job = some .page ∧ sagging.start.stage ≠ 11 ∧ sagging.start.request = none ∧
    sagging.jobDone.start.request = none ∧ sagging.writeDirectory.jobDone.start.request = none ∧ State.reset.pwr.sag = none ∧ State.reset.sec.job = none := by decide +kernel
/-- The power stage is off. -/
def dark : State := { State.reset with start := { State.reset.start with stage := 11 }, pwr := { State.reset.pwr with off := true } }
theorem test_dark : dark.start.stage = 11 ∧ dark.pwr.off = true ∧ dark.start.trip = none := by decide +kernel

/-! ### SecurityRuns -/

theorem test_attest_hyps :
    let s := accepted 0x0800 (leBytes 8 0 ++ leBytes 8 64 ++ [0#8]) sevenUp
    let c := front s
    c.par 16 8 = 0 ∧ c.par 24 8 = 64 ∧ c.par 32 1 % 2 = 0 ∧ s.memRange 64 400 = true ∧ s.inLock 64 400 = false ∧
    s.inDirectory 64 400 = false ∧ s.memRange 0 192 = true := by decide +kernel
theorem test_put_output : sevenUp.memRange 64 256 = true ∧ sevenUp.writeStop (.command 0) false 64 256 = none := by decide +kernel
/-- With a lock that covers it the output is refused. -/
def sevenLocked : State :=
  { sevenUp with course := { sevenUp.course with lock := true, prog := some { emptyPr with lockRanges := [(64, 256)] } } }
theorem test_put_locked : sevenLocked.memRange 64 256 = true ∧
    sevenLocked.writeStop (.command 0) false 64 256 = some .locked := by decide +kernel
/-- A token of zeros fails the first check. -/
theorem test_token : State.reset.tokenFails (List.replicate 192 0#8) = some 1 := by decide +kernel
def dormering : State := { State.reset with sec := { State.reset.sec with dormerEnd := some 3600000000000 } }
theorem test_dormering : dormering.sec.dormerEnd = some 3600000000000 := by decide +kernel
def committing : State := { State.reset with sec := { State.reset.sec with job := some (.settings []) } }
theorem test_committing : committing.sec.job = some (.settings []) := by decide +kernel

/-! ### SoffitRuns -/

/-- Ready, with an intake open at the last byte of bank 1, or ended well. -/
def intaking : State := { up with sec := { up.sec with intake := ⟨1, 2 ^ 27 - 1, true, false⟩ } }
def intaken : State := { up with sec := { up.sec with intake := ⟨1, 512, false, true⟩ } }
theorem test_intake_hyps : intaking.soffitUp = true ∧ intaking.sec.intake.busy = true ∧ intaking.nvInhibit = false ∧
    up.nvInhibit = false ∧ up.sec.intake.busy = false ∧ up.sec.flash.trial = false ∧ up.bit F.SEC_STATUS_TRIAL = false ∧ up.sec.live = [] := by decide +kernel
theorem test_activate_hyps : intaken.sec.intake.done = true ∧ intaken.courseLive = false ∧ intaken.nvInhibit = false ∧ intaken.soffitUp = true := by decide +kernel
/-- Erased flash holds no header. -/
theorem test_header : headerOk (intaking.header 1) = false := by decide +kernel

/-! ### StartUpRuns -/

/-- A module at stage `n` of its start. -/
def atStage (n : Nat) : State := { State.reset with start := { State.reset.start with stage := n } }
theorem test_stages : (atStage 2).sec.flash.active < 2 ∧ (atStage 2).sec.flash.trial = false ∧ (atStage 4).sec.live = [] ∧ (atStage 5).powered = true ∧
    (atStage 7).start.services = false ∧ (atStage 8).powered = true ∧ dark.start.trip = none := by decide +kernel
/-- At S6 package 47 waits for training with the rest. -/
theorem test_training : ((ctlDevs 23).filter (fun d => d ∈ (atStage 5).start.full ∧ d ∉ (atStage 5).start.dead ∧
      d ∉ (atStage 5).start.trained)) = [44, 45, 46, 47] ∧
    Sparse.get 0 (atStage 5).start.rounds 47 + 1 < trainRounds 23 ∧ chanDev 23 15 = 47 ∧ (atStage 5).start.failed = [] := by decide +kernel
/-- One more round of controller 23 trains every channel of package 47. -/
def trainedOnce : State :=
  (atStage 5).setStart { (atStage 5).start with rounds := [(47, 3)] }
theorem test_trained_once : Sparse.get 0 trainedOnce.start.rounds 47 + 1 = trainRounds 23 := by decide +kernel
theorem test_filling : 47 ∈ ((atStage 5).setStart { (atStage 5).start with trained := [47] }).start.trained := by decide +kernel
/-- After a module reset that kept every memory. -/
theorem test_restoring :
    let s := (atStage 5).setStart { (atStage 5).start with full := [] }
    chanDev (16 + (2175 - 2048) / 16) ((2175 - 2048) % 16) = 47 ∧ s.start.full = [] ∧ s.inService = 0 ∧ s.start.restored = [] := by
  decide +kernel
theorem test_services : ((atStage 7).setStart { (atStage 7).start with services := true }).start.services = true := by decide +kernel
/-- With erased banks the ROM finds none that passes. -/
theorem test_erased_banks : (atStage 2).bankFails 0 = some 1 ∧ (atStage 2).bankFails 1 = some 1 := by decide +kernel

/-! ### AccumulatorOrder -/

theorem test_addends : [1, -(2 ^ 103), 2].Perm [2, 1, -(2 ^ 103 : Int)] ∧ 0 < 2 ^ 104 := by decide +kernel
/-- The sum wraps: −1 is all ones. -/
theorem test_wrap : accAdd 0 (-1) = 2 ^ 104 - 1 ∧ accAdd (2 ^ 104 - 1) 1 = 0 := by decide +kernel

/-! ### WriteExact -/

theorem test_write_hyps : sevenUp.upset = [] ∧ sevenUp.tables.moves = [] ∧
    ((63 : Nat) / 64 < 64 / 64 ∨ (64 + 1 + 63) / 64 ≤ (63 : Nat) / 64) ∧ ((64 : Nat) + 1 + 63) / 64 ≤ 128 / 64 := by decide +kernel

/-! ### LockHolds -/

/-- Near stack 0 in service with its line at 64 locked; the directory at 0x40_0000. -/
def locked : State :=
  { sevenUp with course := { sevenUp.course with lock := true, prog := some { emptyPr with lockRanges := [(64, 64)] } }
                 tables := { sevenUp.tables with dir := some 0x40_0000 } }
theorem test_locked : locked.inLock 127 1 = true ∧ locked.inLock 128 64 = false ∧ locked.inDirectory 0x7F_FFFF 1 = true ∧
    locked.memRange 127 1 = true := by decide +kernel

/-! ### ScalarFrames -/

/-- The programs of the completion tests go on at address 8. -/
theorem test_onward : (running 0 .reset).seqPc 1023 % 8 = 0 ∧ (running 0 .reset).seqPc 1023 ≤ 0x3FFF8 := by decide +kernel

/-! ### StoreFrames -/

theorem test_store_hyps :
    let s := running (wordR 0x23 0 0 63 0 8) (State.reset.set F.CFG_MEMSTATE_NEAR_UP 1)
    s.memRange (s.effAddr 1023 (s.fetchWord 1023)) 8 = true ∧
    s.writeStop (.tile 1023) (s.isWadding 1023) (s.effAddr 1023 (s.fetchWord 1023)) 8 = none ∧ s.upset = [] ∧
    s.tables.moves = [] ∧ s.seqPc 1023 % 8 = 0 ∧ s.seqPc 1023 ≤ 0x3FFF8 := by decide +kernel

end Sys2Proof.Tests
end

/-! ## Register accesses through a die window (R7, R8, R13, R17, R19) -/

namespace Sys2Proof.Proofs
open Sys2Proof.Machine Sys2Proof.Laws

/-- A naturally aligned access of a source to a register that it reaches through a die window. -/
structure ReachesReg (s : State) (addr : Nat) (w : Writer) (r : RegId) : Prop where
  inside : inWindow addr = true
  aligned : addr % 8 = 0
  place : placeOf ((addr - winBase) / winSize) ((addr - winBase) % winSize) = .reg r
  seen : w = .host → s.hostSees ((addr - winBase) % winSize / 0x1000_0000) = true
  admitted : ∀ d c, w = .remote d c → remoteShut addr 8 = false

theorem locOf_of_inWindow {addr : Nat} (h : inWindow addr = true) :
    locOf addr = .window ((addr - winBase) / winSize) (addr % winSize) := by
  obtain ⟨hlow, hhigh⟩ : winBase ≤ addr ∧ addr < winBase + 8 * winSize := by simpa [inWindow] using h
  unfold locOf
  rw [if_neg (by unfold winBase at hlow; omega), if_neg (by unfold winBase at hlow; omega), if_pos ⟨hlow, hhigh⟩]

theorem length_leBytes (n v : Nat) : (leBytes n v).length = n := by
  induction n generalizing v with
  | zero => rfl
  | succ n ih => simp [leBytes, ih]

theorem padTo_of_length {n : Nat} {bs : List Byte} (h : bs.length = n) : padTo n bs = bs := by
  simp [padTo, h]

section
variable {s : State} {addr : Nat} {w : Writer} {r : RegId} {bytes : List Byte}

/-- An aligned access ends within the windows. -/
theorem ReachesReg.end_le (h : ReachesReg s addr w r) : addr + 8 ≤ winBase + 8 * winSize := by
  have hlt : addr < winBase + 8 * winSize := by simpa [inWindow] using (Bool.and_eq_true_iff.1 h.inside).2
  have := h.aligned
  simp only [winBase, winSize] at hlt ⊢
  omega

/-- A register is no accumulator file, so no access to it waits for a tile (R131). -/
theorem ReachesReg.pieceAcc_eq_none (h : ReachesReg s addr w r) : s.pieceAcc addr = none := by
  simp [State.pieceAcc, h.place]

theorem ReachesReg.pieceWaits_eq_false (h : ReachesReg s addr w r) (n : Nat) (write : Bool) :
    s.pieceWaits w addr n write = false := by
  simp [State.pieceWaits, h.pieceAcc_eq_none]

/-- The source sees the block. -/
theorem ReachesReg.not_hidden (h : ReachesReg s addr w r) :
    (w == .host && !s.hostSees ((addr - winBase) % winSize / 0x1000_0000)) = false := by
  by_cases hw : w = .host
  · simp [h.seen hw]
  · simp [hw]

theorem ReachesReg.turnWrite_eq (h : ReachesReg s addr w r) (hlen : bytes.length = 8) :
    s.turnWrite w addr bytes = s.regWrite ((addr - winBase) / winSize) r (BitVec.ofNat 64 (ofLe bytes)) := by
  simp only [State.turnWrite, h.pieceAcc_eq_none, State.pieceWrite, State.placeWrite, h.not_hidden, h.place, hlen,
    h.aligned]
  rfl

theorem ReachesReg.turnRead_eq (h : ReachesReg s addr w r) :
    s.turnRead w addr 8 =
      ⟨leBytes 8 (s.regValue ((addr - winBase) / winSize) r).toNat, false, false, false, s.clearRc r⟩ := by
  simp only [State.turnRead, h.pieceAcc_eq_none, State.pieceRead, State.placeRead, h.not_hidden, h.place, h.aligned,
    padTo_of_length (length_leBytes _ _)]
  rfl

/-- An aligned access of 8 bytes is one piece: it stays within 64 bytes. -/
theorem ReachesReg.one_piece (h : ReachesReg s addr w r) : addr % 64 + 8 ≤ 64 := by
  have := h.aligned
  omega

theorem ReachesReg.windowWrite_eq (h : ReachesReg s addr w r) (hlen : bytes.length = 8) :
    s.windowWrite w addr bytes = (false, s.regWrite ((addr - winBase) / winSize) r (BitVec.ofNat 64 (ofLe bytes))) := by
  have hpart : (bytes.drop (addr - addr)).take 8 = bytes := by
    rw [Nat.sub_self, List.drop_zero, ← hlen, List.take_length]
  simp only [State.windowWrite, hlen, if_pos h.one_piece, List.any_cons, List.any_nil, h.pieceWaits_eq_false,
    List.foldl_cons, List.foldl_nil, hpart, h.turnWrite_eq hlen]
  rfl

theorem ReachesReg.windowRead_eq (h : ReachesReg s addr w r) :
    s.windowRead w addr 8 =
      ⟨leBytes 8 (s.regValue ((addr - winBase) / winSize) r).toNat, false, false, false, s.clearRc r⟩ := by
  simp only [State.windowRead, if_pos h.one_piece, List.any_cons, List.any_nil, h.pieceWaits_eq_false,
    List.foldl_cons, List.foldl_nil, h.turnRead_eq]
  rfl

/-- A write of the local address space by a source that R19 admits goes to the window. -/
theorem ReachesReg.busWrite_eq (h : ReachesReg s addr w r) (wad : Bool) (hlen : bytes.length = 8) :
    s.busWrite w wad addr bytes = .done (s.regWrite ((addr - winBase) / winSize) r (BitVec.ofNat 64 (ofLe bytes))) := by
  have hbus : s.windowBus w addr bytes =
      .done (s.regWrite ((addr - winBase) / winSize) r (BitVec.ofNat 64 (ofLe bytes))) := by
    have := h.end_le
    simp [State.windowBus, hlen, h.windowWrite_eq hlen, this]
  cases w with
  | remote d c => simp [State.busWrite, State.locWrite, locOf_of_inWindow h.inside, hlen, h.admitted d c rfl, hbus]
  | _ => simp [State.busWrite, State.locWrite, locOf_of_inWindow h.inside, hbus]

/-- A read of the local address space by a source that R19 admits goes to the window. -/
theorem ReachesReg.busRead_eq (h : ReachesReg s addr w r) :
    s.busRead w addr 8 =
      ⟨leBytes 8 (s.regValue ((addr - winBase) / winSize) r).toNat, false, false, false, s.clearRc r⟩ := by
  have hend := h.end_le
  cases w with
  | remote d c => simp [State.busRead, locOf_of_inWindow h.inside, hend, h.admitted d c rfl, h.windowRead_eq]
  | _ => simp [State.busRead, locOf_of_inWindow h.inside, hend, h.windowRead_eq]

theorem ReachesReg.execRegisterWrite_eq (h : ReachesReg s addr w r) (hlen : bytes.length = 8) :
    execRegisterWrite addr bytes w s =
      .next (s.regWrite ((addr - winBase) / winSize) r (BitVec.ofNat 64 (ofLe bytes))) := by
  have hne : bytes ≠ [] := by rintro rfl; cases hlen
  simp [execRegisterWrite, h.inside, hne, h.busWrite_eq false hlen]

theorem ReachesReg.execReadClear_eq (h : ReachesReg s addr w r) :
    execReadClear addr w s = .next ((s.clearRc r).send
      (.hostCpl addr (leBytes 8 (s.regValue ((addr - winBase) / winSize) r).toNat) false)) := by
  simp [execReadClear, h.inside, h.busRead_eq]

end

/-- Settles O7: the access is one piece of the window, meets no busy tile and lands on the register. -/
theorem registerAccessRuns : Obligations.RegisterAccessRuns := by
  unfold Obligations.RegisterAccessRuns
  intro addr bytes w r s die off hin hal hplace hseen hshut
  have h : ReachesReg s addr w r := ⟨hin, hal, hplace, hseen, hshut⟩
  exact ⟨h.execRegisterWrite_eq, h.execReadClear_eq⟩

end Sys2Proof.Proofs

/-! ## What a register write does to each field (R8, R431) -/

namespace Sys2Proof.Proofs
open Sys2Proof.Machine Sys2Proof.Laws

/-- The value of a field in the number of a word. -/
def fieldVal (f : FieldInfo) (w : Nat) : Nat := w / 2 ^ f.lo % 2 ^ f.wid

/-- A field lies within a 64-bit word. -/
abbrev InWord (f : FieldInfo) : Prop := f.lo + f.wid ≤ 64

/-- Two fields share no bit. -/
abbrev Apart (f g : FieldInfo) : Prop := f.lo + f.wid ≤ g.lo ∨ g.lo + g.wid ≤ f.lo

/-- The register tables keep the fields of a register within its word and apart from each other. -/
theorem fields_inWord_apart (r : Reg) : (∀ f ∈ r.fields, InWord f) ∧ r.fields.Pairwise Apart := by
  cases r <;> decide +kernel

theorem fieldVal_lt (f : FieldInfo) (w : Nat) : fieldVal f w < 2 ^ f.wid := Nat.mod_lt _ (Nat.two_pow_pos _)

/-- A word's number with one field replaced. -/
def putField (f : FieldInfo) (w x : Nat) : Nat := (fset f.lo f.wid (BitVec.ofNat 64 w) x).toNat

theorem fieldVal_eq_fget (f : FieldInfo) {w : Nat} (hw : w < 2 ^ 64) :
    fieldVal f w = fget f.lo f.wid (BitVec.ofNat 64 w) := by
  rw [fget, BitVec.toNat_ofNat, Nat.mod_eq_of_lt hw, fieldVal]

theorem putField_lt (f : FieldInfo) (w x : Nat) : putField f w x < 2 ^ 64 := (fset _ _ _ _).isLt

theorem fieldVal_putField (f : FieldInfo) (hf : InWord f) (w : Nat) {x : Nat} (hx : x < 2 ^ f.wid) :
    fieldVal f (putField f w x) = x :=
  (fget_fset _ _ _ _ hf).trans (Nat.mod_eq_of_lt hx)

theorem fieldVal_putField_of_apart {f g : FieldInfo} (hf : InWord f) (hfg : Apart f g) {w : Nat} (hw : w < 2 ^ 64)
    (x : Nat) : fieldVal g (putField f w x) = fieldVal g w := by
  rw [fieldVal_eq_fget g hw]
  exact fget_fset_of_disjoint _ _ _ _ _ _ hf hfg.symm

/-- What the access type of one field makes of a write of `v`: none where an RW field leaves its range. -/
def writeField (v w : Nat) (f : FieldInfo) : Option Nat :=
  match f.acc with
  | .rw => if f.least ≤ fieldVal f v ∧ fieldVal f v ≤ f.most then some (putField f w (fieldVal f v)) else none
  | .w1c => some (putField f w (fieldVal f w &&& (2 ^ f.wid - 1 - fieldVal f v)))
  | _ => some w

/-- A fold over answers that keeps a failure is the fold of the option monad. -/
theorem foldl_eq_bind_foldlM {α β : Type} {f : β → α → Option β} {step : Option β → α → Option β}
    (hnone : ∀ a, step none a = none) (hsome : ∀ b a, step (some b) a = f b a) (l : List α) (o : Option β) :
    l.foldl step o = o.bind (l.foldlM f) := by
  induction l generalizing o with
  | nil => cases o <;> rfl
  | cons a l ih =>
    cases o with
    | none => rw [List.foldl_cons, hnone, ih]; rfl
    | some b => rw [List.foldl_cons, hsome, ih]; rfl

/-- A write of a register writes its fields one after the other, and is rejected when one of them is. -/
theorem applyWrite_eq_foldlM (r : Reg) (old v : Nat) : applyWrite r old v = r.fields.foldlM (writeField v) old :=
  foldl_eq_bind_foldlM (f := writeField v) (fun _ => rfl) (fun _ _ => rfl) r.fields (some old)

/-- What the access type of a field promises of a write of `v` that turns `old` into `new`. -/
structure Written (v : Nat) (f : FieldInfo) (old new : Nat) : Prop where
  set : f.acc = .rw → fieldVal f new = fieldVal f v ∧ f.least ≤ fieldVal f v ∧ fieldVal f v ≤ f.most
  cleared : f.acc = .w1c → fieldVal f new = fieldVal f old &&& (2 ^ f.wid - 1 - fieldVal f v)
  kept : f.acc ≠ .rw → f.acc ≠ .w1c → fieldVal f new = fieldVal f old

/-- The promise looks at the words' values of that field only. -/
theorem Written.congr {v : Nat} {f : FieldInfo} {old new old' new' : Nat} (h : Written v f old new)
    (hold : fieldVal f old' = fieldVal f old) (hnew : fieldVal f new' = fieldVal f new) : Written v f old' new' := by
  obtain ⟨hset, hcleared, hkept⟩ := h
  rw [← hold, ← hnew] at hcleared hkept
  rw [← hnew] at hset
  exact ⟨hset, hcleared, hkept⟩

/-- The step for one field keeps its promise and leaves the fields apart from it alone. -/
theorem writeField_spec {v w w' : Nat} {f : FieldInfo} (hf : InWord f) (hw : w < 2 ^ 64)
    (h : writeField v w f = some w') :
    w' < 2 ^ 64 ∧ Written v f w w' ∧ ∀ g, Apart f g → fieldVal g w' = fieldVal g w := by
  have put : ∀ x, putField f w x < 2 ^ 64 ∧ ∀ g, Apart f g → fieldVal g (putField f w x) = fieldVal g w :=
    fun x => ⟨putField_lt f w x, fun g hg => fieldVal_putField_of_apart hf hg hw x⟩
  unfold writeField at h
  split at h
  next hacc =>
    split at h
    next hrange =>
      cases h
      have hval := fieldVal_putField f hf w (fieldVal_lt f v)
      exact ⟨(put _).1, ⟨fun _ => ⟨hval, hrange⟩, by simp [hacc], by simp [hacc]⟩, (put _).2⟩
    next => cases h
  next hacc =>
    cases h
    have hcleared : fieldVal f w &&& (2 ^ f.wid - 1 - fieldVal f v) < 2 ^ f.wid :=
      Nat.and_le_left.trans_lt (fieldVal_lt f w)
    exact ⟨(put _).1, ⟨by simp [hacc], fun _ => fieldVal_putField f hf w hcleared, by simp [hacc]⟩, (put _).2⟩
  next hrw hw1c =>
    cases h
    exact ⟨hw, ⟨fun e => absurd e hrw, fun e => absurd e hw1c, fun _ _ => rfl⟩, fun _ _ => rfl⟩

/-- Fields that are apart from each other each keep their promise, and a field apart from all of them is left alone. -/
theorem foldlM_writeField_spec {v new : Nat} {l : List FieldInfo} (hin : ∀ f ∈ l, InWord f) (hap : l.Pairwise Apart)
    {old : Nat} (hold : old < 2 ^ 64) (h : l.foldlM (writeField v) old = some new) :
    (∀ f ∈ l, Written v f old new) ∧ ∀ g, (∀ f ∈ l, Apart f g) → fieldVal g new = fieldVal g old := by
  induction l generalizing old with
  | nil => cases h; exact ⟨by simp, fun _ _ => rfl⟩
  | cons f l ih =>
    obtain ⟨mid, hmid, hrest⟩ := Option.bind_eq_some_iff.1 h
    obtain ⟨hf, hin⟩ := List.forall_mem_cons.1 hin
    obtain ⟨hfl, hap⟩ := List.pairwise_cons.1 hap
    obtain ⟨hmidlt, hwritten, hothers⟩ := writeField_spec hf hold hmid
    obtain ⟨hwl, hkl⟩ := ih hin hap hmidlt hrest
    constructor
    · rintro g (_ | ⟨_, hg⟩)
      · exact hwritten.congr rfl (hkl f fun g hg => (hfl g hg).symm)
      · exact (hwl g hg).congr (hothers g (hfl g hg)).symm rfl
    · intro g hg
      obtain ⟨hfg, hlg⟩ := List.forall_mem_cons.1 hg
      rw [hkl g hlg, hothers g hfg]

/-- Settles O8: the fields of a register lie apart from each other, so the write of one field is the last word on it. -/
theorem accessTypes : Obligations.AccessTypes := by
  unfold Obligations.AccessTypes
  intro r old v new hold _ h f hf
  obtain ⟨hin, hap⟩ := fields_inWord_apart r
  rw [applyWrite_eq_foldlM] at h
  obtain ⟨hset, hcleared, hkept⟩ := (foldlM_writeField_spec hin hap hold h).1 f hf
  exact ⟨hset, hcleared, hkept⟩

end Sys2Proof.Proofs

/-! ## Every step keeps the canonical forms, the queue, the messages sent and the rollback counter -/

namespace Sys2Proof.Proofs
open Sys2Proof.Machine Sys2Proof.Laws

/-- Every command keeps what no operation breaks: one arm for each arm of `exec`. -/
theorem exec_keeps {s0 : State} (c : Instr) (s : State) (hs : Keeps s0 s) : OutKeeps s0 (exec c s) :=
  match c with
  | .registerWrite addr bytes by_ => execRegisterWrite_keeps addr bytes by_ s hs
  | .readClear addr by_ => execReadClear_keeps addr by_ s hs
  | .cfgDevnumWrite die value => execCfgDevnumWrite_keeps die value s hs
  | .tbnSettingWrite die which value => execTbnSettingWrite_keeps die which value s hs
  | .tbnStaggerWrite die value => execTbnStaggerWrite_keeps die value s hs
  | .tick => execTick_keeps s hs
  | .workSlotBegin => execWorkSlotBegin_keeps s hs
  | .courseItemIssue item => execCourseItemIssue_keeps item s hs
  | .workSlotEnd => execWorkSlotEnd_keeps s hs
  | .quantumEnd => execQuantumEnd_keeps s hs
  | .calibrationSlot => execCalibrationSlot_keeps s hs
  | .retrainEnd ctl converged margin => execRetrainEnd_keeps ctl converged margin s hs
  | .scrubSlot cut => execScrubSlot_keeps cut s hs
  | .ledgerSlot => execLedgerSlot_keeps s hs
  | .energyRefit coef => execEnergyRefit_keeps coef s hs
  | .sync h batten time interval slots ovr stagger => execSync_keeps h batten time interval slots ovr stagger s hs
  | .syncMissed => execSyncMissed_keeps s hs
  | .delayReq h rtt held => execDelayReq_keeps h rtt held s hs
  | .delayRsp h status own peer => execDelayRsp_keeps h status own peer s hs
  | .notDone h course => execNotDone_keeps h course s hs
  | .extend h course => execExtend_keeps h course s hs
  | .proceed h course => execProceed_keeps h course s hs
  | .abortCourseMsg h course cause => execAbortCourseMsg_keeps h course cause s hs
  | .addsDone h course => execAddsDone_keeps h course s hs
  | .allAddsDone h course => execAllAddsDone_keeps h course s hs
  | .foldBegin => execFoldBegin_keeps s hs
  | .foldRow u whole => execFoldRow_keeps u whole s hs
  | .denseFoldItem u whole => execDenseFoldItem_keeps u whole s hs
  | .foldEnd => execFoldEnd_keeps s hs
  | .digestCapture => execDigestCapture_keeps s hs
  | .digest h course level rank base entries => execDigest_keeps h course level rank base entries s hs
  | .digestWaitTimeout rank => execDigestWaitTimeout_keeps rank s hs
  | .ledgerRecordWrite => execLedgerRecordWrite_keeps s hs
  | .courseEndPoint => execCourseEndPoint_keeps s hs
  | .abortComplete => execAbortComplete_keeps s hs
  | .repair => execRepair_keeps s hs
  | .compareHaltRelease => execCompareHaltRelease_keeps s hs
  | .barrierSatisfied id => execBarrierSatisfied_keeps id s hs
  | .powerReady die => execPowerReady_keeps die s hs
  | .pwrWaitTimeout die => execPwrWaitTimeout_keeps die s hs
  | .groupRelease die k => execGroupRelease_keeps die k s hs
  | .sqCredit h addr => execSqCredit_keeps h addr s hs
  | .programStart g => execProgramStart_keeps g s hs
  | .programComplete g => execProgramComplete_keeps g s hs
  | .ccHalt g halt => execCcHalt_keeps g halt s hs
  | .ccStep g => execCcStep_keeps g s hs
  | .scalarRegisterWrite g n value => execScalarRegisterWrite_keeps g n value s hs
  | .programMemoryWrite g off bytes => execProgramMemoryWrite_keeps g off bytes s hs
  | .nop g => execNop_keeps g s hs
  | .alu g => execAlu_keeps g s hs
  | .alui g => execAlui_keeps g s hs
  | .lih g => execLih_keeps g s hs
  | .falu g => execFalu_keeps g s hs
  | .sscale g => execSscale_keeps g s hs
  | .br g => execBr_keeps g s hs
  | .jal g => execJal_keeps g s hs
  | .jalr g => execJalr_keeps g s hs
  | .ldl g => execLdl_keeps g s hs
  | .stl g => execStl_keeps g s hs
  | .ldm g => execLdm_keeps g s hs
  | .ldmResponse g rd => execLdmResponse_keeps g rd s hs
  | .stm g => execStm_keeps g s hs
  | .dma g => execDma_keeps g s hs
  | .dmaComplete g ch => execDmaComplete_keeps g ch s hs
  | .wait g => execWait_keeps g s hs
  | .mcfg g => execMcfg_keeps g s hs
  | .mma g => execMma_keeps g s hs
  | .mmaArrayEntry g => execMmaArrayEntry_keeps g s hs
  | .chunkPromotion g => execChunkPromotion_keeps g s hs
  | .segmentClose g => execSegmentClose_keeps g s hs
  | .mmaComplete g => execMmaComplete_keeps g s hs
  | .auditUnit g => execAuditUnit_keeps g s hs
  | .compChange g value => execCompChange_keeps g value s hs
  | .accumulatorAccess g off len data => execAccumulatorAccess_keeps g off len data s hs
  | .dormerAccessTimeout g => execDormerAccessTimeout_keeps g s hs
  | .accSegWrite g t value => execAccSegWrite_keeps g t value s hs
  | .vctx g => execVctx_keeps g s hs
  | .vld g => execVld_keeps g s hs
  | .vst g => execVst_keeps g s hs
  | .vgather g => execVgather_keeps g s hs
  | .vscatter g => execVscatter_keeps g s hs
  | .vtrd g => execVtrd_keeps g s hs
  | .vbcast g => execVbcast_keeps g s hs
  | .vop g => execVop_keeps g s hs
  | .vfn g => execVfn_keeps g s hs
  | .vcmp g => execVcmp_keeps g s hs
  | .vmsk g => execVmsk_keeps g s hs
  | .vhad g => execVhad_keeps g s hs
  | .vrow g => execVrow_keeps g s hs
  | .vscale g => execVscale_keeps g s hs
  | .vsum g => execVsum_keeps g s hs
  | .vectorOpComplete g => execVectorOpComplete_keeps g s hs
  | .eob g => execEob_keeps g s hs
  | .bar g => execBar_keeps g s hs
  | .sqpush g => execSqpush_keeps g s hs
  | .sqpop g => execSqpop_keeps g s hs
  | .chn g => execChn_keeps g s hs
  | .endProgram g => execEndProgram_keeps g s hs
  | .chainSum h id member row sum => execChainSum_keeps h id member row sum s hs
  | .collResult h id chunk => execCollResult_keeps h id chunk s hs
  | .lineResponse die pick => execLineResponse_keeps die pick s hs
  | .descriptorComplete die q => execDescriptorComplete_keeps die q s hs
  | .stageRows die => execStageRows_keeps die s hs
  | .stagingReadIssue die => execStagingReadIssue_keeps die s hs
  | .stagingCopyDone die => execStagingCopyDone_keeps die s hs
  | .localRowAdd u => execLocalRowAdd_keeps u s hs
  | .updEnd u => execUpdEnd_keeps u s hs
  | .ldg u => execLdg_keeps u s hs
  | .ldw u => execLdw_keeps u s hs
  | .lds u => execLds_keeps u s hs
  | .ldp u => execLdp_keeps u s hs
  | .ldk u => execLdk_keeps u s hs
  | .ldcol u => execLdcol_keeps u s hs
  | .fadd u => execFadd_keeps u s hs
  | .fsub u => execFsub_keeps u s hs
  | .fmul u => execFmul_keeps u s hs
  | .fdiv u => execFdiv_keeps u s hs
  | .fma u => execFma_keeps u s hs
  | .fmin u => execFmin_keeps u s hs
  | .fmax u => execFmax_keeps u s hs
  | .fabs u => execFabs_keeps u s hs
  | .fneg u => execFneg_keeps u s hs
  | .fsqrt u => execFsqrt_keeps u s hs
  | .frsqrt u => execFrsqrt_keeps u s hs
  | .fsel u => execFsel_keeps u s hs
  | .rsum u => execRsum_keeps u s hs
  | .ramax u => execRamax_keeps u s hs
  | .cacc u => execCacc_keeps u s hs
  | .sts u => execSts_keeps u s hs
  | .stw u => execStw_keeps u s hs
  | .memRead line who upset => execMemRead_keeps line who upset s hs
  | .writeBack line => execWriteBack_keeps line s hs
  | .memWrite line bytes by_ wadding => execMemWrite_keeps line bytes by_ wadding s hs
  | .partialWrite line off bytes by_ wadding => execPartialWrite_keeps line off bytes by_ wadding s hs
  | .channelIssue chan pick => execChannelIssue_keeps chan pick s hs
  | .refresh chan bank mr4 => execRefresh_keeps chan bank mr4 s hs
  | .digestScanEnd region => execDigestScanEnd_keeps region s hs
  | .dkeyWrite die value => execDkeyWrite_keeps die value s hs
  | .moveItem item => execMoveItem_keeps item s hs
  | .moveCopyEnd table shard => execMoveCopyEnd_keeps table shard s hs
  | .moveForwardClose table shard => execMoveForwardClose_keeps table shard s hs
  | .streamRowWrite => execStreamRowWrite_keeps s hs
  | .flitReceive port f fec crcOk => execFlitReceive_keeps port f fec crcOk s hs
  | .replayRequest port seq => execReplayRequest_keeps port seq s hs
  | .fecLockLoss port => execFecLockLoss_keeps port s hs
  | .linkTrainingEnd port ok strap maxver dev valid peerPort slot =>
    execLinkTrainingEnd_keeps port ok strap maxver dev valid peerPort slot s hs
  | .portRetrain port value => execPortRetrain_keeps port value s hs
  | .read h addr len => execRead_keeps h addr len s hs
  | .store h addr data => execStore_keeps h addr data s hs
  | .atomicW96 h addr accs => execAtomicW96_keeps h addr accs s hs
  | .rowAdd h table row count accs => execRowAdd_keeps h table row count accs s hs
  | .yealmReq h table rows => execYealmReq_keeps h table rows s hs
  | .readRsp h status unc bytes => execReadRsp_keeps h status unc bytes s hs
  | .ack h status => execAck_keeps h status s hs
  | .yealmRsp h status unc bytes shards => execYealmRsp_keeps h status unc bytes shards s hs
  | .probe port src tag => execProbe_keeps port src tag s hs
  | .probeRsp port src rtt => execProbeRsp_keeps port src rtt s hs
  | .ident port src tag strap => execIdent_keeps port src tag strap s hs
  | .identRsp port tag dev valid peerPort slot => execIdentRsp_keeps port tag dev valid peerPort slot s hs
  | .reqTimeoutExpiry tag => execReqTimeoutExpiry_keeps tag s hs
  | .probeWaitExpiry dev => execProbeWaitExpiry_keeps dev s hs
  | .probeRound dev => execProbeRound_keeps dev s hs
  | .levelProbe => execLevelProbe_keeps s hs
  | .jflLostClear word mask => execJflLostClear_keeps word mask s hs
  | .responderRdmaWrite h rkey va data => execResponderRdmaWrite_keeps h rkey va data s hs
  | .responderWriteWithImmediate h rkey va data imm => execResponderWriteWithImmediate_keeps h rkey va data imm s hs
  | .responderRdmaRead h rkey va len => execResponderRdmaRead_keeps h rkey va len s hs
  | .roceAck port dest psn nak => execRoceAck_keeps port dest psn nak s hs
  | .roceAckTimeout port qp => execRoceAckTimeout_keeps port qp s hs
  | .cnp port dest => execCnp_keeps port dest s hs
  | .rateRestore port qp rate => execRateRestore_keeps port qp rate s hs
  | .hostWrite addr bytes poison => execHostWrite_keeps addr bytes poison s hs
  | .hostRead addr len => execHostRead_keeps addr len s hs
  | .doorbell q head value => execDoorbell_keeps q head value s hs
  | .fencedDoorbell q head value drain => execFencedDoorbell_keeps q head value drain s hs
  | .qpQdbWrite q value => execQpQdbWrite_keeps q value s hs
  | .queueArm q value => execQueueArm_keeps q value s hs
  | .queueDisarm q value => execQueueDisarm_keeps q value s hs
  | .packetTake q ring => execPacketTake_keeps q ring s hs
  | .packetReread q ring => execPacketReread_keeps q ring s hs
  | .completionRecord q => execCompletionRecord_keeps q s hs
  | .hostLinkDown => execHostLinkDown_keeps s hs
  | .perst => execPerst_keeps s hs
  | .hotReset => execHotReset_keeps s hs
  | .linkDisable => execLinkDisable_keeps s hs
  | .functionLevelReset => execFunctionLevelReset_keeps s hs
  | .hostLinkTrain cxl speed width => execHostLinkTrain_keeps cxl speed width s hs
  | .cxlMemRequest line data => execCxlMemRequest_keeps line data s hs
  | .cmdNop q seq => execCmdNop_keeps q seq s hs
  | .getInterface q seq => execGetInterface_keeps q seq s hs
  | .launch q seq => execLaunch_keeps q seq s hs
  | .abortCourse q seq => execAbortCourse_keeps q seq s hs
  | .courseLoad q seq prog => execCourseLoad_keeps q seq prog s hs
  | .courseWait q seq => execCourseWait_keeps q seq s hs
  | .dmaCopy q seq => execDmaCopy_keeps q seq s hs
  | .dmaFill q seq => execDmaFill_keeps q seq s hs
  | .rdmaWrite q seq => execRdmaWrite_keeps q seq s hs
  | .rdmaRead q seq => execRdmaRead_keeps q seq s hs
  | .mrRegister q seq => execMrRegister_keeps q seq s hs
  | .mrDeregister q seq => execMrDeregister_keeps q seq s hs
  | .roceQpSet q seq ctx => execRoceQpSet_keeps q seq ctx s hs
  | .biasSet q seq => execBiasSet_keeps q seq s hs
  | .tableDirectory q seq => execTableDirectory_keeps q seq s hs
  | .tableDefine q seq => execTableDefine_keeps q seq s hs
  | .tableDelete q seq => execTableDelete_keeps q seq s hs
  | .shardMove q seq => execShardMove_keeps q seq s hs
  | .eavesDefine q seq => execEavesDefine_keeps q seq s hs
  | .ylmRun q seq => execYlmRun_keeps q seq s hs
  | .ylmPrefetch q seq => execYlmPrefetch_keeps q seq s hs
  | .updProgram q seq => execUpdProgram_keeps q seq s hs
  | .updBind q seq => execUpdBind_keeps q seq s hs
  | .tableFlip q seq => execTableFlip_keeps q seq s hs
  | .streamBatch q seq => execStreamBatch_keeps q seq s hs
  | .collective q seq => execCollective_keeps q seq s hs
  | .fabricCopy q seq => execFabricCopy_keeps q seq s hs
  | .fabricIdent q seq => execFabricIdent_keeps q seq s hs
  | .digestEnable q seq => execDigestEnable_keeps q seq s hs
  | .digestDisable q seq => execDigestDisable_keeps q seq s hs
  | .ldgSubdigest q seq => execLdgSubdigest_keeps q seq s hs
  | .ldgRangeDigest q seq => execLdgRangeDigest_keeps q seq s hs
  | .ldgTableDigest q seq => execLdgTableDigest_keeps q seq s hs
  | .loadHint q seq => execLoadHint_keeps q seq s hs
  | .powerCap q seq => execPowerCap_keeps q seq s hs
  | .gutFreeze q seq => execGutFreeze_keeps q seq s hs
  | .gutThaw q seq => execGutThaw_keeps q seq s hs
  | .gutCopy q seq => execGutCopy_keeps q seq s hs
  | .gutFilter q seq => execGutFilter_keeps q seq s hs
  | .attest q seq => execAttest_keeps q seq s hs
  | .dormerUnlock q seq => execDormerUnlock_keeps q seq s hs
  | .dormerLock q seq => execDormerLock_keeps q seq s hs
  | .measurements q seq => execMeasurements_keeps q seq s hs
  | .dormerExpiry => execDormerExpiry_keeps s hs
  | .settingsCommit => execSettingsCommit_keeps s hs
  | .settingsRevert => execSettingsRevert_keeps s hs
  | .commitDone ok => execCommitDone_keeps ok s hs
  | .status crcOk => execStatus_keeps crcOk s hs
  | .intakeBegin crcOk uart => execIntakeBegin_keeps crcOk uart s hs
  | .intakeData crcOk off bytes => execIntakeData_keeps crcOk off bytes s hs
  | .intakeEnd crcOk => execIntakeEnd_keeps crcOk s hs
  | .activate crcOk force => execActivate_keeps crcOk force s hs
  | .reset crcOk => execReset_keeps crcOk s hs
  | .gutRead crcOk start count => execGutRead_keeps crcOk start count s hs
  | .powerOn => execPowerOn_keeps s hs
  | .supplyQualified => execSupplyQualified_keeps s hs
  | .powerGood => execPowerGood_keeps s hs
  | .romBoot => execRomBoot_keeps s hs
  | .dieBringUp bad => execDieBringUp_keeps bad s hs
  | .settingsRead fresh => execSettingsRead_keeps fresh s hs
  | .channelTrainingRound ctl bad => execChannelTrainingRound_keeps ctl bad s hs
  | .stackFill dev => execStackFill_keeps dev s hs
  | .servicesStart => execServicesStart_keeps s hs
  | .ready => execReady_keeps s hs
  | .moduleReset cause => execModuleReset_keeps cause s hs
  | .channelRestore chan ok => execChannelRestore_keeps chan ok s hs
  | .watchdogExpiry die => execWatchdogExpiry_keeps die s hs
  | .inputSample mv ma => execInputSample_keeps mv ma s hs
  | .budgetUpdate b => execBudgetUpdate_keeps b s hs
  | .capStep die duty => execCapStep_keeps die duty s hs
  | .capRelax die => execCapRelax_keeps die s hs
  | .vfStepChange die => execVfStepChange_keeps die s hs
  | .grantRequest die matrix memory => execGrantRequest_keeps die matrix memory s hs
  | .hintLead die => execHintLead_keeps die s hs
  | .hintHoldEnd die => execHintHoldEnd_keeps die s hs
  | .hintExpiry die => execHintExpiry_keeps die s hs
  | .pwrCoefWrite die k value => execPwrCoefWrite_keeps die k value s hs
  | .pwrPolicyWrite die cls value => execPwrPolicyWrite_keeps die cls value s hs
  | .pwrCapWrite die value => execPwrCapWrite_keeps die value s hs
  | .droopDetect die group => execDroopDetect_keeps die group s hs
  | .droopRecover die group cycles => execDroopRecover_keeps die group cycles s hs
  | .thermalSample die temps => execThermalSample_keeps die temps s hs
  | .thermalStep die => execThermalStep_keeps die s hs
  | .thermalRelax die => execThermalRelax_keeps die s hs
  | .trip die temp => execTrip_keeps die temp s hs
  | .sagBegin mv => execSagBegin_keeps mv s hs
  | .sagEnd => execSagEnd_keeps s hs
  | .supplyCollapse mv => execSupplyCollapse_keeps mv s hs
  | .overvoltage mv => execOvervoltage_keeps mv s hs
  | .overvoltageClear mv => execOvervoltageClear_keeps mv s hs
  | .flashPageDone => execFlashPageDone_keeps s hs
  | .gutterEvent die code payload => execGutterEvent_keeps die code payload s hs
  | .gutterDrain die => execGutterDrain_keeps die s hs
  | .foldWindowClose die => execFoldWindowClose_keeps die s hs
  | .dropReport die => execDropReport_keeps die s hs
  | .nvPageProgram firstOk secondOk => execNvPageProgram_keeps firstOk secondOk s hs
  | .sectorErase => execSectorErase_keeps s hs
  | .freezeTimeout => execFreezeTimeout_keeps s hs
  | .opsecAdvance => execOpsecAdvance_keeps s hs
  | .stageQueueCopyComplete g => execStageQueueCopyComplete_keeps g s hs
  | .hostMemoryReadCompletion q seq ans => execHostMemoryReadCompletion_keeps q seq ans s hs
  | .hostCompletionTimeout q seq => execHostCompletionTimeout_keeps q seq s hs
  | .cxlCacheResponse page => execCxlCacheResponse_keeps page s hs
  | .configurationAccess req => execConfigurationAccess_keeps req s hs
  | .ingestLinkStateChange port up fec => execIngestLinkStateChange_keeps port up fec s hs
  | .transceiverPresenceChange port present => execTransceiverPresenceChange_keeps port present s hs
  | .rdmaReadResponse port dest psn bytes => execRdmaReadResponse_keeps port dest psn bytes s hs
  | .priorityFlowControlFrame port prio pause => execPriorityFlowControlFrame_keeps port prio pause s hs
  | .hintStart die => execHintStart_keeps die s hs

/-- A step takes the front command off the queue and keeps everything else that no operation breaks. On an empty queue
nothing is taken. -/
theorem step_keeps {s t : State} (h : step s = .next t) : Keeps { s with pending := s.pending.tail } t := by
  unfold step at h
  split at h
  next hempty =>
    have hsame : { s with pending := s.pending.tail } = s := by rw [hempty, List.tail_nil, ← hempty]
    rw [hsame, ← Host.Outcome.next.inj h]
    exact idle_keeps s (Keeps.refl s)
  next c rest hfront =>
    rw [hfront]
    exact (exec_keeps c _ (Keeps.refl _)).use t h

/-- Settles O1: the queue is no part of the canonical forms, so what `step_keeps` says of the state without its front
command it says of the state itself. -/
theorem stepKeepsForm : Obligations.StepKeepsForm := by
  unfold Obligations.StepKeepsForm
  intro s t hcanon hstep
  exact (step_keeps hstep).canon hcanon

end Sys2Proof.Proofs

/-! ## Writes of settings and of port registers (R22, R30, R54, R285, R297, R305) -/

namespace Sys2Proof.Proofs
open Sys2Proof.Machine Sys2Proof.Laws

section
variable {s : State}

theorem writeDevnum_of_portsDown (h : ∀ p : Nat, p < 32 → s.get F.JFL_PSTATUS_STATE p = 0) (v : Word) :
    s.writeDevnum 0 v =
      (s.set F.CFG_DEVNUM_DEVNUM (v.toNat % 2048)).set F.CFG_DEVNUM_VALID (v.toNat / 2 ^ 16 % 2) := by
  have hdown : (List.range 32).all (fun p => s.get F.JFL_PSTATUS_STATE p == 0) = true := by
    simpa only [List.all_eq_true, List.mem_range, beq_iff_eq] using h
  simp only [State.writeDevnum, ne_eq, not_true_eq_false, if_false, hdown, if_true]

/-! ### Timebase settings -/

/-- Only TBN_INTERVAL and TBN_SLOTS bound the work slot (R31). -/
theorem halfKept_of_two_le {k : Nat} (hk : 2 ≤ k) (w : Word) : s.halfKept k w = true := by
  simp [State.halfKept, hk]

/-- An accepted write of a timebase setting on die 0 is pending until the next tick: no follower's mirror, in IDLE where
the setting asks for it, with every field in its range and half the interval kept. -/
theorem writeSetting_of_accepted {k w : Nat} {v : Word} (hrole : k ≤ 2 → s.get F.TBN_SYNC_ROLE ≠ 2)
    (hidle : k ≤ 3 → s.cstate = 0) (happly : applyWrite (settingReg k) (s.settingNext k).toNat v.toNat = some w)
    (hhalf : s.halfKept k (BitVec.ofNat 64 w) = true) :
    s.writeSetting 0 k v =
      { s with frame := { s.frame with pend := Sparse.put none s.frame.pend k (some (BitVec.ofNat 64 w)) } } := by
  have hmirror : ¬ (k ≤ 2 ∧ s.get F.TBN_SYNC_ROLE = 2) := fun h => hrole h.1 h.2
  have hbusy : ¬ (k ≤ 3 ∧ s.cstate ≠ 0) := fun h => h.2 (hidle h.1)
  simp only [State.writeSetting, ne_eq, not_true_eq_false, if_false, hmirror, hbusy, happly, hhalf, if_true]

/-! ### Digest key -/

theorem writeDkey_of_idle (h : s.cstate = 0) (v : Word) :
    s.writeDkey v = (s.wr .ldgDkey 0 0 v).startScans s.enabledRegions := if_pos h

/-! ### Port control -/

theorem writePctrl_of_badVersion {p : Nat} {v : Word} (h : v.toNat / 4 % 4 = 0 ∨ v.toNat / 4 % 4 = 3) :
    s.writePctrl p v = s.set F.JFL_STATUS_SETTING_REJECTED 1 := if_pos h

/-- The fields of JFL_PCTRL after an accepted write with EN. -/
def enablePort (s : State) (p : Nat) (v : Word) : State :=
  (s.set F.JFL_PCTRL_EN 1 p).set F.JFL_PCTRL_MAXVER (v.toNat / 4 % 4) p

/-- A write with EN and a version in range takes the link down when it has RETRAIN, and otherwise starts training where
EN was 0. -/
theorem writePctrl_of_enable {p : Nat} {v : Word} (hlow : 1 ≤ v.toNat / 4 % 4) (hhigh : v.toNat / 4 % 4 ≤ 2)
    (hen : v.toNat % 2 = 1) :
    s.writePctrl p v =
      if v.toNat / 2 % 2 = 1 then (enablePort s p v).linkDown p
      else if s.bit F.JFL_PCTRL_EN p then enablePort s p v
      else (enablePort s p v).set F.JFL_PSTATUS_STATE 1 p := by
  have hver : ¬ (v.toNat / 4 % 4 = 0 ∨ v.toNat / 4 % 4 = 3) := by omega
  simp only [State.writePctrl, hver, if_false, hen, Nat.one_ne_zero, enablePort]

/-! ### Lost devices -/

/-- What a clearing write of word `w` of JFL_LOST does for its bit `b`, `n` the bits that it clears: the device is
readmitted, so its next request sets its newest epoch. -/
def readmit (w n : Nat) (s : State) (b : Nat) : State :=
  if n / 2 ^ b % 2 = 1 then s.updFab (fun f => { f with newest := Sparse.put none f.newest (64 * w + b) none }) else s

theorem clearLost_eq_foldl_readmit (w : Nat) (m : Word) :
    s.clearLost w m = (List.range 64).foldl (readmit w (s.rd .jflLost 0 w &&& m).toNat)
      (s.wr .jflLost 0 w (s.rd .jflLost 0 w &&& ~~~m)) := rfl

theorem readmit_rd (w n b : Nat) (r : Reg) (i j : Nat) : (readmit w n s b).rd r i j = s.rd r i j := by
  unfold readmit; split <;> rfl

theorem readmit_mem (w n b : Nat) : (readmit w n s b).mem = s.mem := by
  unfold readmit; split <;> rfl

theorem readmit_newest_self {w n b : Nat} (h : n / 2 ^ b % 2 = 1) :
    Sparse.get none (readmit w n s b).fab.newest (64 * w + b) = none := by
  rw [readmit, if_pos h]
  exact get_put_self none s.fab.newest (64 * w + b) none

/-- Readmitting a device gives no device a newest epoch. -/
theorem readmit_newest_none {j : Nat} (h : Sparse.get none s.fab.newest j = none) (w n b : Nat) :
    Sparse.get none (readmit w n s b).fab.newest j = none := by
  unfold readmit
  split
  · exact (get_put none s.fab.newest (64 * w + b) j none).trans (by rw [h, ite_self])
  · exact h

theorem foldl_readmit_rd_mem (w n : Nat) (l : List Nat) (r : Reg) (i j : Nat) :
    (l.foldl (readmit w n) s).rd r i j = s.rd r i j ∧ (l.foldl (readmit w n) s).mem = s.mem := by
  induction l generalizing s with
  | nil => exact ⟨rfl, rfl⟩
  | cons b l ih =>
    obtain ⟨hrd, hmem⟩ := ih (s := readmit w n s b)
    exact ⟨hrd.trans (readmit_rd ..), hmem.trans (readmit_mem ..)⟩

/-- A device that has no newest epoch, or whose bit is still to be cleared, has none in the end. -/
theorem foldl_readmit_newest {w n b : Nat} (hbit : n / 2 ^ b % 2 = 1) (l : List Nat)
    (h : b ∈ l ∨ Sparse.get none s.fab.newest (64 * w + b) = none) :
    Sparse.get none (l.foldl (readmit w n) s).fab.newest (64 * w + b) = none := by
  induction l generalizing s with
  | nil => exact h.resolve_left List.not_mem_nil
  | cons a l ih =>
    refine ih ?_
    rcases h with hmem | hnone
    · rcases List.mem_cons.1 hmem with rfl | hmem
      · exact .inr (readmit_newest_self hbit)
      · exact .inl hmem
    · exact .inr (readmit_newest_none hnone w n a)

theorem clearLost_rd (w : Nat) (m : Word) :
    (s.clearLost w m).rd .jflLost 0 w = (s.rd .jflLost 0 w &&& ~~~m) := by
  rw [clearLost_eq_foldl_readmit, (foldl_readmit_rd_mem _ _ _ _ _ _).1, rd_wr_self]

theorem clearLost_mem (w : Nat) (m : Word) : (s.clearLost w m).mem = s.mem := by
  rw [clearLost_eq_foldl_readmit, (foldl_readmit_rd_mem _ _ _ .jflLost 0 w).2]
  rfl

theorem clearLost_newest {w b : Nat} {m : Word} (hb : b < 64)
    (hbit : (s.rd .jflLost 0 w &&& m).toNat / 2 ^ b % 2 = 1) :
    Sparse.get none (s.clearLost w m).fab.newest (64 * w + b) = none := by
  rw [clearLost_eq_foldl_readmit]
  exact foldl_readmit_newest hbit _ (.inl (List.mem_range.2 hb))

end

/-- Settles O9: each row is the write of its register, and the state that its rule requires selects the branch that
accepts it. -/
theorem settingWritesRun : Obligations.SettingWritesRun := by
  unfold Obligations.SettingWritesRun
  refine ⟨?devnum, ?setting, ?stagger, ?dkey, ?lost, ?train, ?retrain, ?rejected⟩
  case devnum =>
    intro v s hdown
    exact congrArg Host.Outcome.next (writeDevnum_of_portsDown hdown v)
  case setting =>
    intro k v w s hidle hrole happly hhalf
    exact congrArg Host.Outcome.next (writeSetting_of_accepted (fun _ => hrole) (fun _ => hidle) happly hhalf)
  case stagger =>
    intro v w s happly
    exact congrArg Host.Outcome.next
      (writeSetting_of_accepted (by omega) (by omega) happly (halfKept_of_two_le (by omega) _))
  case dkey =>
    intro v s hidle
    exact congrArg Host.Outcome.next (writeDkey_of_idle hidle v)
  case lost =>
    intro k m s
    exact ⟨s.clearLost k m, rfl, clearLost_rd k m, clearLost_mem k m, fun b hb hbit => clearLost_newest hb hbit⟩
  case train =>
    intro p v s hlow hhigh hen hretrain hoff
    refine congrArg Host.Outcome.next ((writePctrl_of_enable hlow hhigh hen).trans ?_)
    simp only [hretrain, Nat.zero_ne_one, if_false, hoff, Bool.false_eq_true, enablePort]
  case retrain =>
    intro p v s hlow hhigh hen hretrain
    exact congrArg Host.Outcome.next ((writePctrl_of_enable hlow hhigh hen).trans (if_pos hretrain))
  case rejected =>
    intro p v s hver
    exact congrArg Host.Outcome.next (writePctrl_of_badVersion hver)

end Sys2Proof.Proofs

/-! ## The slots of the batten frame and its overruns (R28, R32, R36, R41, R43, R44, R49, R53) -/

namespace Sys2Proof.Proofs
open Sys2Proof.Machine Sys2Proof.Laws

section
variable {s : State} {late : Bool}

/-! ### What moving the time and noting an overrun leave alone -/

/-- Of memory, the batten frame and the registers an operation writes one register and nothing else. -/
structure WritesOnly (r : Reg) (s u : State) : Prop where
  mem : u.mem = s.mem
  frame : u.frame = s.frame
  get : ∀ k : Fld, k.reg ≠ r → ∀ i j, u.get k i j = s.get k i j

theorem WritesOnly.refl (r : Reg) (s : State) : WritesOnly r s s := ⟨rfl, rfl, fun _ _ _ _ => rfl⟩

theorem WritesOnly.trans {r : Reg} {u v : State} (h : WritesOnly r s u) (k : WritesOnly r u v) : WritesOnly r s v :=
  ⟨k.mem.trans h.mem, k.frame.trans h.frame, fun f hf i j => (k.get f hf i j).trans (h.get f hf i j)⟩

theorem set_writesOnly (s : State) (f : Fld) (v i j : Nat) : WritesOnly f.reg s (s.set f v i j) :=
  ⟨rfl, rfl, fun _ hk _ _ => get_set_of_reg _ _ _ _ _ _ _ _ hk⟩

theorem advanceTo_writesOnly (s : State) (t : Nat) : WritesOnly .tbnTime s (s.advanceTo t) := by
  unfold State.advanceTo
  split
  · exact set_writesOnly s F.TBN_TIME_TIME t 0 0
  · exact .refl _ s

/-- What an operation keeps on one die it keeps on the eight dies. -/
theorem eachDie_eq {α : Type} (p : State → α) {f : State → Nat → State} (hf : ∀ u d, p (f u d) = p u) (s : State) :
    p (s.eachDie f) = p s :=
  List.foldlRecOn (motive := fun u => p u = p s) (List.range 8) f rfl (fun u hu d _ => (hf u d).trans hu)

theorem ledBump_get (f : LFld) (n : Nat) (k : Fld) (i j : Nat) : (s.ledBump f n).get k i j = s.get k i j := by
  unfold State.ledBump; split <;> rfl

theorem ledBump_frame (f : LFld) (n : Nat) : (s.ledBump f n).frame = s.frame := by
  unfold State.ledBump; split <;> rfl

/-- Noting an overrun writes TBN_OVRCNT and TBN_STATUS and no other register. -/
theorem noteOverrun_get_of_reg {k : Fld} (hcnt : k.reg ≠ .tbnOvrcnt) (hstatus : k.reg ≠ .tbnStatus) (i j : Nat) :
    s.noteOverrun.get k i j = s.get k i j := by
  unfold State.noteOverrun
  split
  · rfl
  · rw [updFrame_get, ledBump_get]
    refine eachDie_eq (fun u => u.get k i j) (fun u d => ?_) s
    exact (get_set_of_reg _ _ _ _ _ _ _ _ hstatus).trans (get_set_of_reg _ _ _ _ _ _ _ _ hcnt)

theorem noteOverrun_quanta : s.noteOverrun.frame.quanta = s.frame.quanta := by
  unfold State.noteOverrun
  split
  · rfl
  · rw [updFrame_frame, ledBump_frame]
    exact eachDie_eq (fun u => u.frame.quanta) (fun _ _ => rfl) s

/-! ### A module without a sync domain decides for itself (R41) -/

theorem awaits_of_standalone (h : s.role = 0) : s.awaits = false := by
  simp [State.awaits, h]

theorem askExtension_of_standalone (h : s.role = 0) : s.askExtension late = s := by
  simp [State.askExtension, awaits_of_standalone h]

theorem elasticChoice_of_standalone (h : s.role = 0) : s.elasticChoice late = (some late, s) := by
  simp [State.elasticChoice, awaits_of_standalone h, h]

theorem advanceTo_role (t : Nat) : (s.advanceTo t).role = s.role :=
  (advanceTo_writesOnly s t).get _ (by decide) 0 0

theorem noteOverrun_role : s.noteOverrun.role = s.role := noteOverrun_get_of_reg (by decide) (by decide) 0 0

/-! ### The elastic limit: fewer than MAXDEFER quanta were taken, or not -/

/-- The choice to extend, held against a limit and a count that `u` has from `s`. -/
theorem out_of_extendOrFault {u : State} {out : Out} (hout : out = .next u.extendOrFault)
    (hquanta : u.frame.quanta = s.frame.quanta) (hmax : u.get F.TBN_OVR_MAXDEFER = s.get F.TBN_OVR_MAXDEFER) :
    (s.frame.quanta < s.get F.TBN_OVR_MAXDEFER → out = .next u.growBatten) ∧
    (s.get F.TBN_OVR_MAXDEFER ≤ s.frame.quanta → out = .next u.overrunFault.endWork) := by
  rw [← hquanta, ← hmax, hout]
  exact ⟨fun h => congrArg _ (if_neg (Nat.not_le.2 h)), fun h => congrArg _ (if_pos h)⟩

theorem advanceTo_quanta (t : Nat) : (s.advanceTo t).frame.quanta = s.frame.quanta := by rw [advanceTo_frame]

theorem advanceTo_maxdefer (t : Nat) : (s.advanceTo t).get F.TBN_OVR_MAXDEFER = s.get F.TBN_OVR_MAXDEFER :=
  (advanceTo_writesOnly s t).get _ (by decide) 0 0

theorem noteOverrun_maxdefer : s.noteOverrun.get F.TBN_OVR_MAXDEFER = s.get F.TBN_OVR_MAXDEFER :=
  noteOverrun_get_of_reg (by decide) (by decide) 0 0

/-! ### The end of the work slot, for each mode -/

/-- The state at the end of the work slot of an incomplete work set under skip: the overrun noted, CARRY set. -/
def carriedOver (s : State) : State := s.noteOverrun.eachDie (fun s d => s.set F.TBN_STATUS_CARRY 1 d)

section
variable (hrun : s.timeRuns = true) (hslot : s.frame.slot = 0) (hdef : s.frame.deferring = false)
include hrun hslot hdef

theorem workSlotEnd_of_elastic (hrole : s.role = 0) (hmode : s.get F.TBN_OVR_MODE = 0) :
    exec .workSlotEnd s = .next (if s.incomplete then (s.advanceTo s.calAt).noteOverrun.extendOrFault
      else (s.advanceTo s.calAt).endWork) := by
  have hend : (s.advanceTo s.calAt).role = 0 := (advanceTo_role _).trans hrole
  have hnoted : (s.advanceTo s.calAt).noteOverrun.role = 0 := noteOverrun_role.trans hend
  simp only [exec, execWorkSlotEnd, hrun, hslot, hdef, hmode, askExtension_of_standalone hrole]
  cases s.incomplete with
  | true => simp [elasticChoice_of_standalone hnoted]
  | false => simp [elasticChoice_of_standalone hend]

theorem workSlotEnd_of_strict (hmode : s.get F.TBN_OVR_MODE = 1) :
    exec .workSlotEnd s = .next (if s.incomplete then (s.advanceTo s.calAt).noteOverrun.overrunFault.endWork
      else (s.advanceTo s.calAt).endWork) := by
  simp [exec, execWorkSlotEnd, hrun, hslot, hdef, hmode]

theorem workSlotEnd_of_skip (h0 : s.get F.TBN_OVR_MODE ≠ 0) (h1 : s.get F.TBN_OVR_MODE ≠ 1) :
    exec .workSlotEnd s =
      if s.incomplete then
        let u := carriedOver (s.advanceTo s.calAt)
        if u.lastPlan u.course.plan then
          if 255 ≤ u.course.added then .next u.overrunFault.endWork
          else .next ((u.setCourse { u.course with added := u.course.added + 1 }).ledBump ⟨168, 4⟩ 1).endWork
        else .next u.endWork
      else .next (s.advanceTo s.calAt).endWork := by
  simp only [exec, execWorkSlotEnd, hrun, hslot, hdef, beq_self_eq_true, Bool.and_self, Bool.not_false, if_true]
  rfl

/-- A complete work set ends the slot whatever the mode. -/
theorem workSlotEnd_of_complete (hrole : s.role = 0) (hwork : s.incomplete = false) :
    exec .workSlotEnd s = .next (s.advanceTo s.calAt).endWork := by
  by_cases h0 : s.get F.TBN_OVR_MODE = 0
  · simp [workSlotEnd_of_elastic hrun hslot hdef hrole h0, hwork]
  · by_cases h1 : s.get F.TBN_OVR_MODE = 1
    · simp [workSlotEnd_of_strict hrun hslot hdef h1, hwork]
    · simp [workSlotEnd_of_skip hrun hslot hdef h0 h1, hwork]

end

/-- The end of a quantum of a standalone module decides as the elastic end of the work slot does, and notes nothing. -/
theorem quantumEnd_of_standalone (hrun : s.timeRuns = true) (hslot : s.frame.slot = 0) (hdef : s.frame.deferring = true)
    (hrole : s.role = 0) :
    exec .quantumEnd s = .next (if s.incomplete then (s.advanceTo s.calAt).extendOrFault
      else (s.advanceTo s.calAt).endWork) := by
  have hend : (s.advanceTo s.calAt).role = 0 := (advanceTo_role _).trans hrole
  simp [exec, execQuantumEnd, hrun, hslot, hdef, askExtension_of_standalone hrole, hend,
    elasticChoice_of_standalone hend]

end

/-- Settles O36: the mode selects the branch, a standalone module's elastic choice is its own, and neither the time nor
the note of the overrun touches the limit that the choice is held against. -/
theorem overrunModes : Obligations.OverrunModes := by
  unfold Obligations.OverrunModes
  intro s hrun hslot hrole late t n carried
  refine ⟨?complete, ?incomplete, ?quantumComplete, ?quantumIncomplete⟩
  case complete =>
    exact fun hdef hwork => workSlotEnd_of_complete hrun hslot hdef hrole hwork
  case incomplete =>
    intro hdef hlate
    refine ⟨fun hmode => ?elastic, fun hmode => ?strict, fun hmode => ?skip⟩
    case elastic =>
      have hend := workSlotEnd_of_elastic hrun hslot hdef hrole hmode
      rw [if_pos hlate] at hend
      exact out_of_extendOrFault hend (noteOverrun_quanta.trans (advanceTo_quanta _))
        (noteOverrun_maxdefer.trans (advanceTo_maxdefer _))
    case strict =>
      exact (workSlotEnd_of_strict hrun hslot hdef hmode).trans (congrArg _ (if_pos hlate))
    case skip =>
      have hend := workSlotEnd_of_skip hrun hslot hdef (by omega) (by omega)
      rw [if_pos hlate] at hend
      refine ⟨fun hlast => ?_, fun hlast hroom => ?_, fun hlast hfull => ?_⟩
      · exact hend.trans (if_neg (Bool.not_eq_true _ ▸ hlast))
      · exact hend.trans ((if_pos hlast).trans (if_neg (Nat.not_le.2 hroom)))
      · exact hend.trans ((if_pos hlast).trans (if_pos hfull))
  case quantumComplete =>
    intro hdef hwork
    exact (quantumEnd_of_standalone hrun hslot hdef hrole).trans
      (congrArg _ (if_neg (Bool.not_eq_true _ ▸ hwork)))
  case quantumIncomplete =>
    intro hdef hlate
    have hend := quantumEnd_of_standalone hrun hslot hdef hrole
    rw [if_pos hlate] at hend
    exact out_of_extendOrFault hend (advanceTo_quanta _) (advanceTo_maxdefer _)

/-! ### The rows of a frame in their places -/

theorem frame_guard {s : State} {n : Nat} (hrun : s.timeRuns = true) (hslot : s.frame.slot = n) :
    (s.timeRuns && s.frame.slot == n) = true := by simp [hrun, hslot]

/-- Settles O35: each row is taken in its slot, where its guard holds. -/
theorem frameRuns : Obligations.FrameRuns := by
  unfold Obligations.FrameRuns
  refine ⟨?tick, ?workSlotBegin, ?item, ?ledgerSlot⟩
  case tick =>
    exact fun s hrun hslot => if_pos (frame_guard hrun hslot)
  case workSlotBegin =>
    exact fun s hrun hslot => if_pos (frame_guard hrun hslot)
  case item =>
    intro i x s hitem hslot hkind hplan hnew hbefore
    simp only [exec, execCourseItemIssue, hitem]
    exact if_pos ⟨hslot, hkind, hplan, hnew, hbefore⟩
  case ledgerSlot =>
    exact fun s hrun hslot => if_pos (frame_guard hrun hslot)

end Sys2Proof.Proofs

/-! ## End-of-batten markers, barriers and their release (R39, R53, R380) -/

namespace Sys2Proof.Proofs
open Sys2Proof.Machine Sys2Proof.Laws Sys2Proof.Safety

section
variable {s : State}

/-- The run of EOB for a course program in a running course: the marker is set, and the program waits for the work slot
of the next planned batten when that has not begun. -/
theorem eobOp_run {g : Nat} (hwad : s.isWadding g = false) (hruns : s.courseRuns = true) (w : Nat) :
    let n := Sparse.get 0 s.course.eob g + 1
    let t := ((s.setCourse { s.course with eob := Sparse.put 0 s.course.eob g n }).updCl g (fun c => { c with
      marks := Sparse.put 0 c.marks (n - 1) c.serial })).noteDone (true, g)
    (eobOp g).run s w = if t.course.plan < n then (t.set F.CC_STATE_SLOT_WAIT 1 g).updCl g (fun c => { c with
      eobWait := true }) else t :=
  if_neg (by simp [hwad, hruns])

/-- A barrier at which every member waits is satisfied, within one cluster group or across groups. -/
theorem barrierSatisfied_of_all {id : Fin 256} {b : BarrierDesc} (hb : s.barrier? id = some b) (hne : b.members ≠ [])
    (hall : ∀ g ∈ b.members, g ∈ Sparse.get [] s.course.barriers id.val) :
    let t := s.setCourse { s.course with barriers := Sparse.put [] s.course.barriers id.val [] }
    let one := b.members.all (fun g => g / 16 == b.members.headD 0 / 16)
    let u := b.members.foldl (fun u g =>
      if one then (u.updCl g (fun c => { c with bar := none })).set F.CC_STATE_BAR_WAIT 0 g
      else u.updCl g (fun c => { c with bar := none })) t
    exec (.barrierSatisfied id) s = .next (if one then u else (List.range 8).foldl State.signalRelease u) := by
  have hwait : b.members.all (fun g => (Sparse.get [] s.course.barriers id.val).contains g) = true := by
    simpa [List.all_eq_true] using hall
  simp only [exec, execBarrierSatisfied, hb]
  exact if_pos ⟨hne, hwait⟩

end

/-- Settles O27: each row is taken where its guard holds, and whether a barrier lies within one cluster group decides
how its members are released. -/
theorem syncRuns : Obligations.SyncRuns := by
  unfold Obligations.SyncRuns
  refine ⟨?eob, ?bar, ?barrier, ?power, ?group⟩
  case eob =>
    intro g s h hwad hruns n t
    have hexec : exec (.eob g) s = .next (((eobOp g).run s (s.fetchWord g)).retire g (s.seqPc g)) :=
      congrArg Host.Outcome.next (issue_of_issues h rfl)
    rw [eobOp_run hwad hruns] at hexec
    exact ⟨fun hn => by rw [hexec, if_neg (Nat.not_lt.2 hn)], fun hn => by rw [hexec, if_pos hn]⟩
  case bar =>
    exact fun g s h => congrArg Host.Outcome.next (issue_of_issues h rfl)
  case barrier =>
    intro id b s hb hne hall t
    have hexec := barrierSatisfied_of_all hb hne hall
    refine ⟨fun hone => ?_, fun hmany => ?_⟩
    · have hgroup : b.members.all (fun g => g / 16 == b.members.headD 0 / 16) = true := by simpa using hone
      simpa only [hgroup, if_true] using hexec
    · have hgroups : b.members.all (fun g => g / 16 == b.members.headD 0 / 16) = false := by simpa using hmany
      simpa only [hgroups, Bool.false_eq_true, if_false] using hexec
  case power =>
    intro d s hrelease
    exact ⟨fun hready htime => if_pos ⟨hrelease, hready, htime⟩, if_pos hrelease⟩
  case group =>
    exact fun d k s hrelease hdone => if_pos ⟨hrelease, hdone⟩

end Sys2Proof.Proofs

/-! ## What arrives from another module and is not refused (R273, R281, R285) -/

namespace Sys2Proof.Proofs
open Sys2Proof.Machine Sys2Proof.Laws Sys2Proof.Safety

section
variable {s : State} {h : FabHdr}

/-- A fresh request is refused for none of the reasons of R273 and R285. -/
theorem refuses_of_fresh (f : Fresh s h) : (s.heard h.src).refuses h = none := by
  obtain ⟨_, hvalid, hdst, hlost, hepoch, _⟩ := f
  simp only [State.refuses, hvalid, hdst, hlost]
  cases hn : Sparse.get none (s.heard h.src).fab.newest h.src with
  | none => simp
  | some e => simp [hepoch e hn]

/-- A message of another module that is no reissue of an old one is taken. -/
theorem takes_of_fresh (f : Fresh s h) (hother : h.src ≠ s.devnum) (act : State → State) :
    s.takes h act = act (arrived s h) := by
  obtain ⟨hpower, _⟩ := id f
  simp only [State.takes, hpower, Bool.not_true, Bool.false_eq_true, if_false, hother, refuses_of_fresh f]
  rfl

end

end Sys2Proof.Proofs

/-! ## Stage queues (R47, R48, R156) -/

namespace Sys2Proof.Proofs
open Sys2Proof.Machine Sys2Proof.Laws Sys2Proof.Safety

section
variable {s : State} {g : Fin 1024} {p : SqCopy} {rest : List SqCopy} {d : StageDesc}

/-- The oldest copy of a cluster is a push within the module, and its write is done: its entry becomes poppable. -/
theorem stageQueueCopyComplete_of_push {t : State} (hcopies : (s.cl g).copies = p :: rest)
    (hstage : s.stage? p.key = some d) (hpush : p.push = true) (hlocal : p.sent = false)
    (hwrite : s.busWrite (.tile g) false (faLocal (stageSlot d p.slot)) (s.lbRead g p.off d.size) = .done t) :
    let u := t.actMem (t.launchQueue g) (faLocal (stageSlot d p.slot)) d.size
    let x := u.stageQ p.key
    exec (.stageQueueCopyComplete g) s = .next (((u.setStageQ p.key { x with entries := x.entries.map (fun e =>
      if e.slot = p.slot ∧ e.ready = false then { e with ready := true, got := d.size } else e) }).updCl g (fun c =>
        { c with copies := rest })).drainFaulted g) := by
  simp only [exec, execStageQueueCopyComplete, hcopies, hstage, hpush, hlocal, if_true, Bool.false_eq_true, if_false,
    hwrite]

/-- The oldest copy of a cluster is a pop whose read waits for nothing and whose range in the local buffer is not
pinned: its bytes arrive and its credit goes back. -/
theorem stageQueueCopyComplete_of_pop (hcopies : (s.cl g).copies = p :: rest) (hstage : s.stage? p.key = some d)
    (hpop : p.push = false) (hread : (s.busRead (.tile g) (faLocal (stageSlot d p.slot)) d.size).waits = false)
    (hpin : (s.cl g).pinned p.off d.size = false) :
    let a := faLocal (stageSlot d p.slot)
    let r := s.busRead (.tile g) a d.size
    exec (.stageQueueCopyComplete g) s = .next (((((r.st.actMem (s.launchQueue g) a d.size).lbPut g p.off
      r.bytes).creditBack g p.key d p.slot).updCl g (fun c => { c with copies := rest })).drainFaulted g) := by
  simp only [exec, execStageQueueCopyComplete, hcopies, hstage, hpop, hread, hpin, Bool.false_eq_true, if_false]

end

/-- Settles O28: SQPUSH and SQPOP act where they issue, the oldest copy ends by what it is, and a credit that is not
refused finds its queue. -/
theorem stageRuns : Obligations.StageRuns := by
  unfold Obligations.StageRuns
  refine ⟨?push, ?pop, ?pushed, ?popped, ?credit⟩
  case push =>
    exact fun g s h => congrArg Host.Outcome.next (issue_of_issues h rfl)
  case pop =>
    exact fun g s h => congrArg Host.Outcome.next (issue_of_issues h rfl)
  case pushed =>
    exact fun g p rest d t s => stageQueueCopyComplete_of_push
  case popped =>
    exact fun g p rest d s hcopies hstage hpop => stageQueueCopyComplete_of_pop hcopies hstage hpop
  case credit =>
    intro h addr pr d s hfresh hother hprog hruns hfind
    have hprog' : (arrived s h).course.prog = some pr := hprog
    have hruns' : (arrived s h).courseRuns = true := hruns
    have hfind' : pr.stages.find? (fun d => (arrived s h).stageConsumer d == some h.src &&
        decide (faLocal d.buffer ≤ addr ∧ addr < faLocal d.buffer + d.size * d.depth)) = some d := hfind
    simp only [exec, execSqCredit, takes_of_fresh hfresh hother, hprog', hfind', hruns', if_true]
    rfl

end Sys2Proof.Proofs

/-! ## The answer to a request of this module, and what messages that leave do not touch (R272, R275) -/

namespace Sys2Proof.Proofs
open Sys2Proof.Machine Sys2Proof.Laws Sys2Proof.Safety

/-- Between the states only messages have left: memory, the batten frame, start-up, the power stage and every register
but the flit counts of the ports are as they were. -/
structure OnlySends (s u : State) : Prop where
  mem : u.mem = s.mem
  frame : u.frame = s.frame
  start : u.start = s.start
  stopped : u.pwr.stopped = s.pwr.stopped
  rd : ∀ r, r ≠ .jflPtx → ∀ i j, u.rd r i j = s.rd r i j

section
variable {s u v : State}

theorem OnlySends.refl (s : State) : OnlySends s s := ⟨rfl, rfl, rfl, rfl, fun _ _ _ _ => rfl⟩

theorem OnlySends.trans (h : OnlySends s u) (k : OnlySends u v) : OnlySends s v :=
  ⟨k.mem.trans h.mem, k.frame.trans h.frame, k.start.trans h.start, k.stopped.trans h.stopped,
    fun r hr i j => (k.rd r hr i j).trans (h.rd r hr i j)⟩

theorem OnlySends.get (h : OnlySends s u) {k : Fld} (hk : k.reg ≠ .jflPtx) (i j : Nat) : u.get k i j = s.get k i j :=
  congrArg (fget k.lo k.wid) (h.rd k.reg hk i j)

theorem OnlySends.timeRuns (h : OnlySends s u) : u.timeRuns = s.timeRuns := by
  simp only [State.timeRuns, State.powered, h.start, h.stopped]

theorem updFab_onlySends (f : Fab → Fab) : OnlySends s (s.updFab f) := ⟨rfl, rfl, rfl, rfl, fun _ _ _ _ => rfl⟩

theorem send_onlySends (m : Msg) : OnlySends s (s.send m) := ⟨rfl, rfl, rfl, rfl, fun _ _ _ _ => rfl⟩

theorem act_onlySends (q k n : Nat) : OnlySends s (s.act q k n) := by
  unfold State.act
  split
  · exact .refl s
  · exact ⟨rfl, rfl, rfl, rfl, fun _ _ _ _ => rfl⟩

theorem bumpFlits_onlySends (n p : Nat) : OnlySends s (s.bump F.JFL_PTX_FLITS n p) :=
  ⟨rfl, rfl, rfl, rfl, fun _ hr _ _ => rd_wr_of_ne _ _ _ _ _ _ _ _ (regCode_ne_of_reg hr _ _ _ _)⟩

theorem sendFlits_onlySends (q p vc : Nat) (bytes : List Byte) (m : Msg) : OnlySends s (s.sendFlits q p vc bytes m) :=
  (updFab_onlySends _).trans ((bumpFlits_onlySends _ p).trans ((act_onlySends q 8 _).trans (send_onlySends m)))

theorem emit_onlySends (r : FabReq) : OnlySends s (s.emit r) := by
  unfold State.emit
  split
  · exact .refl s
  · exact sendFlits_onlySends ..

theorem release_onlySends (r : FabReq) : OnlySends s (s.release r) := by
  unfold State.release
  extract_lets port r'
  split
  · exact .refl s
  · exact (updFab_onlySends _).trans (emit_onlySends r')

/-- A request that is no longer outstanding makes way for held ones, which are sent. -/
theorem dropReq_onlySends (tag : Nat) : OnlySends s (s.dropReq tag) :=
  (updFab_onlySends _).trans
    (List.foldlRecOn (motive := OnlySends _) _ _ (.refl _) fun _ hu r _ => hu.trans (release_onlySends r))

/-- A good response to the request that is outstanding under its tag goes on with that request. -/
theorem answer_of_asked {tag op : Nat} {r : FabReq} {ops : List Nat} (h : Asked s tag op r)
    (hop : ops.contains op = true) (src : Nat) (act : FabReq → State → State) :
    s.answer src tag 0 ops act = act r ((s.heard src).dropReq tag) := by
  obtain ⟨hreqs, hheld, rfl⟩ := h
  have hfind : (s.heard src).fab.reqs.find? (fun r => r.tag == tag && !r.held && ops.contains r.op) = some r := by
    calc s.fab.reqs.find? (fun r => r.tag == tag && !r.held && ops.contains r.op)
      _ = (s.fab.reqs.filter (fun r => r.tag == tag)).find? (fun r => !r.held && ops.contains r.op) := by
          simp only [List.find?_filter, Bool.and_assoc, Bool.decide_and, Bool.decide_eq_true]
      _ = some r := by rw [hreqs, List.find?_cons_of_pos (by rw [hheld, hop]; rfl)]
  simp only [State.answer, hfind, if_true]

end

end Sys2Proof.Proofs

/-! ## Sync, time measurement and domain control (R33 to R35, R42, R286, R287) -/

namespace Sys2Proof.Proofs
open Sys2Proof.Machine Sys2Proof.Laws Sys2Proof.Safety

section
variable {s : State}

theorem timeRuns_and_role {n : Nat} (hrun : s.timeRuns = true) (hrole : s.role = n) :
    (s.timeRuns && s.role == n) = true := by simp [hrun, hrole]

/-! ### SYNC at a follower -/

/-- The settings that a follower takes from a SYNC of the module `src`. -/
def syncSettings (s : State) (src : Nat) (w1 w2 w3 w4 : Word) : State :=
  let s := s.set F.TBN_SYNC_MISSED 0
  let s : State := { s with frame := { s.frame with master := some src } }
  (((s.wr .tbnInterval 0 0 w1).wr .tbnSlots 0 0 w2).wr .tbnOvr 0 0 w3).wr .tbnStagger 0 0 w4

theorem sync_of_follower {h : FabHdr} (hrun : s.timeRuns = true) (hrole : s.role = 2) (hfresh : Fresh s h)
    (hother : h.src ≠ s.devnum) (batten time : Nat) (w1 w2 w3 w4 : Word) :
    let c := syncSettings (arrived s h) h.src w1 w2 w3 w4
    let next := time + w1.toNat % 2 ^ 15 * 1000
    exec (.sync h batten time w1 w2 w3 w4) s = .next (
      if c.frame.resync = true ∧ c.cstate = 0 then
        ((((c.set F.TBN_BATTEN_BATTEN batten).set F.TBN_TIME_TIME time).set F.TBN_NEXT_TICK_NEXT next).set
          F.TBN_SYNC_LOCKED 0).updFrame (fun f => { f with resync := false, good := 0 })
      else if batten = c.get F.TBN_BATTEN_BATTEN then c.set F.TBN_NEXT_TICK_NEXT (next + c.frame.deferTb)
      else c.slip) := by
  intro c next
  have hinterval : fget 0 15 w1 = w1.toNat % 2 ^ 15 := by rw [fget, Nat.pow_zero, Nat.div_one]
  simp only [exec, execSync, takes_of_fresh hfresh hother, hinterval]
  exact congrArg Host.Outcome.next (if_pos (timeRuns_and_role (s := arrived s h) hrun hrole))

/-! ### The time measurement -/

theorem discipline_writesOnly (s : State) (off : Int) : WritesOnly .tbnTime s (s.discipline off) := by
  unfold State.discipline
  split
  · exact .refl _ s
  · exact set_writesOnly s F.TBN_TIME_TIME _ 0 0

theorem discipline_time {off : Int} (h : s.frame.resync = false) : (s.discipline off).get F.TBN_TIME_TIME =
    (((s.get F.TBN_TIME_TIME : Nat) : Int) + off / 4).toNat % 2 ^ 64 := by
  rw [State.discipline, h]
  exact get_set_self _ _ _ _ _ (by decide)

/-- The number of good measurements in a row after one of the offset `off` (R34). -/
def goodAfter (s : State) (off : Int) : Nat := if -160 ≤ off ∧ off ≤ 160 then min 16 (s.frame.good + 1) else 0

theorem goodAfter_of_onlySends {u : State} (h : OnlySends s u) (off : Int) : goodAfter u off = goodAfter s off := by
  rw [goodAfter, goodAfter, h.frame]

/-- A measured offset and round trip stand in their registers. -/
def measured (s : State) (off rtt : Int) : State :=
  (s.set F.TBN_OFFSET_OFFSET (off % 2 ^ 32).toNat).set F.JFL_SYNC_RTT_RTT_NS rtt.toNat

theorem measured_offset (off rtt : Int) : (measured s off rtt).get F.TBN_OFFSET_OFFSET = (off % 2 ^ 32).toNat := by
  have hread : (measured s off rtt).get F.TBN_OFFSET_OFFSET = (off % 2 ^ 32).toNat % 2 ^ 32 :=
    ((set_writesOnly ..).get F.TBN_OFFSET_OFFSET (by decide) 0 0).trans (get_set_self _ _ _ _ _ (by decide))
  omega

theorem measured_time (off rtt : Int) : (measured s off rtt).get F.TBN_TIME_TIME = s.get F.TBN_TIME_TIME :=
  ((set_writesOnly ..).get _ (by decide) 0 0).trans ((set_writesOnly ..).get _ (by decide) 0 0)

/-- A follower brings its time base to its master's and counts the good measurements. -/
def disciplined (s : State) (off : Int) : State :=
  (s.discipline off).updFrame (fun f => { f with good := goodAfter s off })

/-- An offset beyond ±50 ns unlocks a follower (R34). -/
def unlockBeyond (s : State) (off : Int) : State :=
  if -200 ≤ off ∧ off ≤ 200 then s else s.set F.TBN_SYNC_LOCKED 0

/-- The sixteenth good measurement in a row locks a follower that has not slipped (R34). -/
def lockAfter (s : State) (n : Nat) : State :=
  if n = 16 ∧ s.frame.resync = false then (s.set F.TBN_SYNC_LOCKED 1).set F.TBN_SYNC_HOLDOVER 0 else s

theorem unlockBeyond_writesOnly (s : State) (off : Int) : WritesOnly .tbnSync s (unlockBeyond s off) := by
  unfold unlockBeyond
  split
  · exact .refl _ s
  · exact set_writesOnly s F.TBN_SYNC_LOCKED 0 0 0

theorem lockAfter_writesOnly (s : State) (n : Nat) : WritesOnly .tbnSync s (lockAfter s n) := by
  unfold lockAfter
  split
  · exact (set_writesOnly s F.TBN_SYNC_LOCKED 1 0 0).trans (set_writesOnly _ F.TBN_SYNC_HOLDOVER 0 0 0)
  · exact .refl _ s

theorem unlockBeyond_locked {off : Int} (h : off < -200 ∨ 200 < off) :
    (unlockBeyond s off).get F.TBN_SYNC_LOCKED = 0 := by
  rw [unlockBeyond, if_neg (by omega)]
  exact get_set_self _ _ _ _ _ (by decide)

theorem lockAfter_of_ne {n : Nat} (h : n ≠ 16) : lockAfter s n = s := if_neg fun hn => h hn.1

theorem lockAfter_locked (h : s.frame.resync = false) :
    (lockAfter s 16).get F.TBN_SYNC_LOCKED = 1 ∧ (lockAfter s 16).get F.TBN_SYNC_HOLDOVER = 0 := by
  rw [lockAfter, if_pos ⟨rfl, h⟩]
  constructor
  · exact (get_set_of_disjoint _ F.TBN_SYNC_HOLDOVER F.TBN_SYNC_LOCKED 0 0 0 rfl (by decide) (by decide)).trans
      (get_set_self _ _ _ _ _ (by decide))
  · exact get_set_self _ _ _ _ _ (by decide)

/-- An offset beyond ±50 ns is no good measurement. -/
theorem goodAfter_of_beyond {off : Int} (h : off < -200 ∨ 200 < off) : goodAfter s off = 0 := if_neg (by omega)

/-- A follower after the measurement of an offset and a round trip. -/
def afterDelayRsp (s : State) (off rtt : Int) : State :=
  lockAfter (unlockBeyond (disciplined (measured s off rtt) off) off) (goodAfter s off)

section
variable (s : State) (off rtt : Int)

/-- The lock is written after the time base: only TBN_SYNC changes any more. -/
theorem afterDelayRsp_writesOnly :
    WritesOnly .tbnSync (disciplined (measured s off rtt) off) (afterDelayRsp s off rtt) :=
  (unlockBeyond_writesOnly _ off).trans (lockAfter_writesOnly _ _)

theorem afterDelayRsp_mem : (afterDelayRsp s off rtt).mem = s.mem :=
  (afterDelayRsp_writesOnly s off rtt).mem.trans (discipline_writesOnly _ off).mem

theorem afterDelayRsp_good : (afterDelayRsp s off rtt).frame.good = goodAfter s off := by
  rw [(afterDelayRsp_writesOnly s off rtt).frame, disciplined, updFrame_frame]
  rfl

theorem afterDelayRsp_offset : (afterDelayRsp s off rtt).get F.TBN_OFFSET_OFFSET = (off % 2 ^ 32).toNat :=
  ((afterDelayRsp_writesOnly s off rtt).get _ (by decide) 0 0).trans
    (((discipline_writesOnly _ off).get _ (by decide) 0 0).trans (measured_offset off rtt))

theorem afterDelayRsp_time (h : s.frame.resync = false) : (afterDelayRsp s off rtt).get F.TBN_TIME_TIME =
    (((s.get F.TBN_TIME_TIME : Nat) : Int) + off / 4).toNat % 2 ^ 64 := by
  refine ((afterDelayRsp_writesOnly s off rtt).get _ (by decide) 0 0).trans
    ((discipline_time (s := measured s off rtt) h).trans ?_)
  rw [measured_time]

variable {off}

theorem afterDelayRsp_unlocks (h : off < -200 ∨ 200 < off) : (afterDelayRsp s off rtt).get F.TBN_SYNC_LOCKED = 0 := by
  rw [afterDelayRsp, lockAfter_of_ne (by rw [goodAfter_of_beyond h]; decide)]
  exact unlockBeyond_locked h

theorem afterDelayRsp_locks (hgood : goodAfter s off = 16) (h : s.frame.resync = false) :
    (afterDelayRsp s off rtt).get F.TBN_SYNC_LOCKED = 1 ∧ (afterDelayRsp s off rtt).get F.TBN_SYNC_HOLDOVER = 0 := by
  rw [afterDelayRsp, hgood]
  refine lockAfter_locked ?_
  rw [(unlockBeyond_writesOnly _ off).frame, disciplined, updFrame_frame, (discipline_writesOnly _ off).frame]
  exact h

end

theorem delayRsp_of_asked {src tag t1 t2 t3 t4 : Nat} {r : FabReq} (hrun : s.timeRuns = true) (hrole : s.role = 2)
    (h : Asked s tag 0x21 r) :
    let off : Int := (((t2 : Int) - t1) - ((t4 : Int) - t3)) / 2
    let rtt : Int := (((t4 : Int) - t1) - ((t3 : Int) - t2)) / 4
    let u := (s.heard src).dropReq tag
    exec (.delayRsp ⟨src, tag⟩ 0 ⟨t1, t4⟩ ⟨t2, t3⟩) s = .next (afterDelayRsp u off rtt) ∧ OnlySends s u := by
  intro off rtt u
  have hsends : OnlySends s u := (updFab_onlySends _).trans (dropReq_onlySends tag)
  have hrole' : u.role = 2 := (hsends.get (by decide) 0 0).trans hrole
  refine ⟨?_, hsends⟩
  exact congrArg Host.Outcome.next ((answer_of_asked (ops := [0x21]) h rfl src _).trans
    (if_pos (timeRuns_and_role (hsends.timeRuns.trans hrun) hrole')))

end

/-- Settles O37: a follower's and the master's rows act on what has arrived, a measurement is written before the lock is
judged by it, and domain control is served under one guard. -/
theorem syncDomainRuns : Obligations.SyncDomainRuns := by
  unfold Obligations.SyncDomainRuns
  refine ⟨?sync, ?missed, ?delayReq, ?delayRsp, ?control⟩
  case sync =>
    intro h batten time w1 w2 w3 w4 s hrun hrole hfresh hother a b c next
    have hexec := sync_of_follower hrun hrole hfresh hother batten time w1 w2 w3 w4
    refine ⟨fun hkept hsame => ?_, fun hkept hdiffers => ?_, fun hslipped hidle => ?_⟩
    · have hkeep : ¬ (c.frame.resync = true ∧ c.cstate = 0) := fun x => Bool.false_ne_true (hkept.symm.trans x.1)
      exact hexec.trans (congrArg _ ((if_neg hkeep).trans (if_pos hsame)))
    · have hkeep : ¬ (c.frame.resync = true ∧ c.cstate = 0) := fun x => Bool.false_ne_true (hkept.symm.trans x.1)
      exact hexec.trans (congrArg _ ((if_neg hkeep).trans (if_neg hdiffers)))
    · exact hexec.trans (congrArg _ (if_pos ⟨hslipped, hidle⟩))
  case missed =>
    intro s hrun hrole t
    have hexec : exec .syncMissed s = .next (if t.get F.TBN_SYNC_MISSED = 4 then t.enterHoldover else t) :=
      if_pos (timeRuns_and_role hrun hrole)
    exact ⟨fun hn => hexec.trans (congrArg _ (if_neg hn)), fun hn => hexec.trans (congrArg _ (if_pos hn))⟩
  case delayReq =>
    intro h rtt held s hrun hrole hfresh
    refine (if_pos (timeRuns_and_role hrun hrole)).trans (congrArg Host.Outcome.next ?_)
    rw [serve_of_fresh hfresh]
    rfl
  case delayRsp =>
    intro src tag t1 t2 t3 t4 r s hrun hrole hasked
    obtain ⟨hexec, hsends⟩ :=
      delayRsp_of_asked (src := src) (t1 := t1) (t2 := t2) (t3 := t3) (t4 := t4) hrun hrole hasked
    generalize (s.heard src).dropReq tag = u at hexec hsends
    refine ⟨_, hexec, (afterDelayRsp_mem ..).trans hsends.mem, ?_⟩
    intro off
    have hresync : u.frame.resync = s.frame.resync := congrArg Frame.resync hsends.frame
    refine ⟨afterDelayRsp_offset .., (afterDelayRsp_good ..).trans (goodAfter_of_onlySends hsends off), fun hkept => ?_,
      afterDelayRsp_unlocks u _, fun hgood hkept => ?_⟩
    · rw [← hsends.get (k := F.TBN_TIME_TIME) (by decide)]
      exact afterDelayRsp_time u off _ (hresync.trans hkept)
    · exact afterDelayRsp_locks u _ ((afterDelayRsp_good ..).symm.trans hgood) (hresync.trans hkept)
  case control =>
    exact fun h course cause s => ⟨rfl, rfl, rfl, rfl, rfl, rfl⟩

end Sys2Proof.Proofs

/-! ## Accumulation modulo 2^104 (R66) -/

namespace Sys2Proof.Proofs
open Sys2Proof.Machine

section
variable (acc : Nat)

theorem accAdd_cast (a : Int) : (accAdd acc a : Int) = (acc + a) % 2 ^ 104 :=
  Int.toNat_of_nonneg (Int.emod_nonneg _ (by decide))

theorem accAdd_lt (a : Int) : accAdd acc a < 2 ^ 104 := by
  have h := accAdd_cast acc a
  omega

theorem accAdd_modEq (a : Int) : accAdd acc a ≡ acc + a [ZMOD 2 ^ 104] := by
  rw [accAdd_cast]
  exact Int.mod_modEq _ _

/-- An accumulator sees no more of an addend than its residue modulo 2^104. -/
theorem accAdd_eq_iff {acc₁ acc₂ : Nat} {a b : Int} :
    accAdd acc₁ a = accAdd acc₂ b ↔ acc₁ + a ≡ acc₂ + b [ZMOD 2 ^ 104] := by
  rw [← Int.ofNat_inj, accAdd_cast, accAdd_cast, Int.ModEq]

theorem accAdd_accAdd (a b : Int) : accAdd (accAdd acc a) b = accAdd acc (a + b) := by
  rw [accAdd_eq_iff, ← add_assoc]
  exact (accAdd_modEq acc a).add_right b

theorem accAdd_right_comm (a b : Int) : accAdd (accAdd acc a) b = accAdd (accAdd acc b) a := by
  rw [accAdd_accAdd, accAdd_accAdd, add_comm]

theorem accInt_modEq : accInt acc ≡ acc [ZMOD 2 ^ 104] := by
  unfold accInt
  split
  · rfl
  · exact Int.sub_modulus_modEq_iff.mpr rfl

variable {acc}

theorem accAdd_zero (h : acc < 2 ^ 104) : accAdd acc 0 = acc := by
  have hcast := accAdd_cast acc 0
  omega

/-- Adding one by one is adding the sum. -/
theorem foldl_accAdd (h : acc < 2 ^ 104) (xs : List Int) : xs.foldl accAdd acc = accAdd acc xs.sum := by
  induction xs generalizing acc with
  | nil => exact (accAdd_zero h).symm
  | cons x xs ih => rw [List.foldl_cons, ih (accAdd_lt acc x), accAdd_accAdd, List.sum_cons]

theorem foldl_accAdd_lt (h : acc < 2 ^ 104) (xs : List Int) : xs.foldl accAdd acc < 2 ^ 104 := by
  rw [foldl_accAdd h]
  exact accAdd_lt acc _

/-- The integer that an accumulator collected from zero is the sum of its addends, up to multiples of 2^104. -/
theorem accInt_foldl_modEq (xs : List Int) : accInt (xs.foldl accAdd 0) ≡ xs.sum [ZMOD 2 ^ 104] := by
  rw [foldl_accAdd (by decide)]
  simpa using (accInt_modEq _).trans (accAdd_modEq 0 xs.sum)

end

/-- Settles O55: an accumulator holds a residue modulo 2^104, so addends commute and a list of them acts as its sum. -/
theorem accumulatorOrder : Obligations.AccumulatorOrder := by
  unfold Obligations.AccumulatorOrder
  refine ⟨fun acc a => ⟨accAdd_lt acc a, ?congruent⟩, fun acc xs ys hperm => ?order, fun acc xs ys hacc => ?split⟩
  case congruent =>
    obtain ⟨k, hk⟩ := (accAdd_modEq acc a).symm.dvd
    exact ⟨k, by linarith⟩
  case order =>
    have : RightCommutative accAdd := ⟨accAdd_right_comm⟩
    exact hperm.foldl_eq acc
  case split =>
    rw [List.foldl_append, foldl_accAdd (foldl_accAdd_lt hacc xs) ys, accAdd_eq_iff]
    exact (accInt_foldl_modEq ys).add_left _

end Sys2Proof.Proofs

/-! ## The codes of the 8-bit floating formats (R57, R58) -/

namespace Sys2Proof.Proofs
open Sys2Proof.Machine

theorem pow2_eq_zpow (e : Int) : pow2 e = (2 : Rat) ^ e := by
  unfold pow2
  split
  case isTrue h =>
    obtain ⟨n, rfl⟩ := Int.eq_ofNat_of_zero_le h
    simp
  case isFalse h =>
    obtain ⟨n, rfl⟩ := Int.exists_eq_neg_ofNat (Int.le_of_not_le h)
    simp [Rat.mkRat_eq_div]

theorem two_zpow_sub (a b : Nat) : (2 : Rat) ^ ((a : Int) - b) = 2 ^ a / 2 ^ b := by
  rw [zpow_sub₀ two_ne_zero, zpow_natCast, zpow_natCast]

/-- The value of an exponent field and a mantissa field, with the bias and the place of the mantissa in one
denominator. -/
def fieldsValue (sp : FSpec) (e m : Nat) : Rat :=
  if e = 0 then (m : Rat) * 2 / 2 ^ (sp.bias + sp.fbits) else ((2 ^ sp.fbits + m : Nat) : Rat) * 2 ^ e / 2 ^ (sp.bias + sp.fbits)

/-- A format without infinities has no code that is not finite. -/
theorem decodeFloat_of_hasInf_eq_false {sp : FSpec} (h : sp.hasInf = false) (code : Nat) :
    decodeFloat sp code = .fin (code / 2 ^ (sp.fbits + sp.ebits) % 2 == 1)
      (fieldsValue sp (code / 2 ^ sp.fbits % 2 ^ sp.ebits) (code % 2 ^ sp.fbits)) := by
  have hpow (a : Nat) : pow2 ((a : Int) - sp.bias - sp.fbits) = 2 ^ a / 2 ^ (sp.bias + sp.fbits) := by
    rw [pow2_eq_zpow, sub_sub, ← Nat.cast_add, two_zpow_sub]
  by_cases he : code / 2 ^ sp.fbits % 2 ^ sp.ebits = 0
  · have hone := hpow 1
    rw [Nat.cast_one, pow_one] at hone
    simp [decodeFloat, fieldsValue, h, he, hone, mul_div_assoc]
  · simp only [decodeFloat, fieldsValue, h, Bool.false_and, Bool.false_eq_true, if_false, he, hpow, mul_div_assoc]

/-- Of a code of eight bits the top one is the sign. -/
theorem sign_of_byte (c : Fin 256) : (c.val / 2 ^ 7 % 2 == 1) = decide (128 ≤ c.val) := by
  rw [Bool.beq_eq_decide_eq, decide_eq_decide]
  omega

theorem decodeFloat_specF8a (c : Fin 256) :
    decodeFloat specF8a c = .fin (decide (128 ≤ c.val)) (fieldsValue specF8a (c.val / 8 % 16) (c.val % 8)) := by
  rw [← sign_of_byte]
  exact decodeFloat_of_hasInf_eq_false rfl c

theorem decodeFloat_specF8b (c : Fin 256) :
    decodeFloat specF8b c = .fin (decide (128 ≤ c.val)) (fieldsValue specF8b (c.val / 4 % 32) (c.val % 4)) := by
  rw [← sign_of_byte]
  exact decodeFloat_of_hasInf_eq_false rfl c

theorem fieldsValue_specF8a (e m : Nat) :
    fieldsValue specF8a e m = if e = 0 then (m : Rat) / 512 else ((8 + m : Nat) : Rat) * 2 ^ e / 1024 := by
  unfold fieldsValue
  refine if_congr Iff.rfl ?subnormal ?normal
  case subnormal =>
    change (m : Rat) * 2 / 2 ^ 10 = m / 512
    ring
  case normal =>
    change ((8 + m : Nat) : Rat) * 2 ^ e / 2 ^ 10 = (8 + m : Nat) * 2 ^ e / 1024
    ring

theorem fieldsValue_specF8b (e m : Nat) :
    fieldsValue specF8b e m = if e = 0 then (m : Rat) / 65536 else ((4 + m : Nat) : Rat) * 2 ^ e / 131072 := by
  unfold fieldsValue
  refine if_congr Iff.rfl ?subnormal ?normal
  case subnormal =>
    change (m : Rat) * 2 / 2 ^ 17 = m / 65536
    ring
  case normal =>
    change ((4 + m : Nat) : Rat) * 2 ^ e / 2 ^ 17 = (4 + m : Nat) * 2 ^ e / 131072
    ring

/-- Settles O56: no code is special, its fields give its value, and each format's constants give the rule's form. -/
theorem floatCodes : Obligations.FloatCodes := by
  unfold Obligations.FloatCodes
  intro c
  constructor
  · intro e m v
    rw [decodeFloat_specF8a, fieldsValue_specF8a]
  · intro e m v
    rw [decodeFloat_specF8b, fieldsValue_specF8b]

end Sys2Proof.Proofs

/-! ## The chunk sum of the formats whose register is exact (R114, R115) -/

namespace Sys2Proof.Proofs
open Sys2Proof.Machine

section
variable {a b : FV}

/-- Products of finite operands are exact, with the sign of a product. -/
theorem fvMul_of_finite (ha : a.nonfinite = false) (hb : b.nonfinite = false) :
    (fvMul a b).nonfinite = false ∧ (fvMul a b).val = a.val * b.val := by
  cases a with
  | fin n x =>
    cases b with
    | fin m y => cases n <;> cases m <;> simp [fvMul, FV.nonfinite, FV.val]
    | _ => cases hb
  | _ => cases ha

/-- A rational as a signed value is finite and keeps its value. -/
theorem fvOf_exact (x : Rat) : (fvOf x).nonfinite = false ∧ (fvOf x).val = x := by
  unfold fvOf
  split
  · exact ⟨rfl, neg_neg x⟩
  · exact ⟨rfl, rfl⟩

/-- The exact register (significand width 0) adds finite values without rounding. -/
theorem chunkAdd_of_finite (ha : a.nonfinite = false) (hb : b.nonfinite = false) :
    (chunkAdd 0 a b).nonfinite = false ∧ (chunkAdd 0 a b).val = a.val + b.val := by
  cases a with
  | fin n x =>
    cases b with
    | fin m y => exact fvOf_exact _
    | _ => cases hb
  | _ => cases ha

/-- One K step of a chunk: the register takes the product of the pair, the mark takes whether an operand was special. -/
def chunkStep (bits : Nat) (r : FV × Bool) (p : (FV × Bool) × (FV × Bool)) : FV × Bool :=
  (chunkAdd bits r.1 (fvMul p.1.1 p.2.1), r.2 || p.1.2 || p.2.2)

theorem chunkSum_eq_foldl_chunkStep (bits : Nat) (l : List ((FV × Bool) × (FV × Bool))) :
    chunkSum bits (l.map Prod.fst) (l.map Prod.snd) = l.foldl (chunkStep bits) (.fin false 0, false) := by
  rw [chunkSum, List.zip_map', List.map_id'']
  · rfl
  · exact fun _ => rfl

/-- From a finite register on, K steps of finite operands add the exact sum of their products to it. -/
theorem foldl_chunkStep_exact (l : List ((FV × Bool) × (FV × Bool)))
    (hl : ∀ p ∈ l, p.1.1.nonfinite = false ∧ p.2.1.nonfinite = false) (r : FV × Bool)
    (hr : r.1.nonfinite = false) :
    (l.foldl (chunkStep 0) r).1.nonfinite = false ∧
    (l.foldl (chunkStep 0) r).1.val = r.1.val + (l.map (fun p => p.1.1.val * p.2.1.val)).sum ∧
    (l.foldl (chunkStep 0) r).2 = (r.2 || l.any (fun p => p.1.2 || p.2.2)) := by
  induction l generalizing r with
  | nil => exact ⟨hr, (add_zero _).symm, (Bool.or_false _).symm⟩
  | cons p l ih =>
    obtain ⟨⟨hleft, hright⟩, hl⟩ := List.forall_mem_cons.1 hl
    obtain ⟨hprod, hprodVal⟩ := fvMul_of_finite hleft hright
    obtain ⟨hstep, hstepVal⟩ := chunkAdd_of_finite hr hprod
    obtain ⟨hfin, hval, hmark⟩ := ih hl (chunkStep 0 r p) hstep
    refine ⟨hfin, ?_, ?_⟩
    · rw [List.foldl_cons, hval, List.map_cons, List.sum_cons, chunkStep, hstepVal, hprodVal, add_assoc]
    · rw [List.foldl_cons, hmark, List.any_cons, chunkStep, Bool.or_assoc, Bool.or_assoc, Bool.or_assoc]

end

/-- Settles O22: each K step is exact, so the sum is, by induction on the steps. -/
theorem chunkExact : Obligations.ChunkExact := by
  unfold Obligations.ChunkExact
  intro l hl
  obtain ⟨hfin, hval, hmark⟩ := foldl_chunkStep_exact l hl (.fin false 0, false) rfl
  rw [chunkSum_eq_foldl_chunkStep]
  exact ⟨hfin, hval.trans (zero_add _), hmark.trans (Bool.false_or _)⟩

end Sys2Proof.Proofs

/-! ## What an instruction that issues has passed (R130, R157) -/

namespace Sys2Proof.Proofs
open Sys2Proof.Machine Sys2Proof.Laws Sys2Proof.Safety

section
variable {s : State} {g : Nat} {t : TileOp}

theorem faults_of_issues (h : Issues s g t) : t.faults s (s.fetchWord g) = [] := by
  obtain ⟨_, _, _, _, _, _, hfaults⟩ := h
  exact hfaults

theorem wait_of_issues (h : Issues s g t) : t.wait s (s.fetchWord g) = none := by
  obtain ⟨_, _, _, _, hwait, _⟩ := h
  exact hwait

theorem faultIf_eq_nil {c : Bool} {code addr : Nat} (h : faultIf c code addr = []) : c = false := by
  cases c with
  | false => rfl
  | true => cases h

/-- An instruction that waits while a queue is full has found room in it. -/
theorem lt_of_wait_eq_none {n k : Nat} {u : State} (h : (if n ≤ k then some u else none) = none) : k < n := by
  by_contra hle
  rw [if_pos (Nat.not_lt.1 hle)] at h
  cases h

end

end Sys2Proof.Proofs

/-! ## The rows of the matrix engine and its audit (R109 to R122, R158 to R162) -/

namespace Sys2Proof.Proofs
open Sys2Proof.Machine Sys2Proof.Laws Sys2Proof.Safety

section
variable {s : State} {g : Fin 1024} {o : MmaOp}

/-- The first instruction that has not entered enters: at most one instruction drains before it, its tile is clear, and an
audit unit is free where it is sampled (R112, R130, R159). -/
theorem mmaArrayEntry_of_clear (hfirst : (s.cl g).mq.find? (fun o => !o.entered) = some o)
    (harray : ((s.cl g).mq.filter (fun o => o.entered)).length ≤ 1)
    (hdrained : ∀ p ∈ (s.cl g).mq, p.entered = true → p.steps = p.k)
    (hclear : (s.cl g).tileClear o.tile o.serial true = true) (haudit : o.audit = none ∨ (s.cl g).audits.length < 2) :
    exec (.mmaArrayEntry g) s = .next (s.mmaEnter g o) := by
  have hall : ((s.cl g).mq.filter (fun o => o.entered)).all (fun p => p.steps == p.k) = true :=
    List.all_eq_true.2 fun p hp => beq_iff_eq.2 (hdrained p (List.mem_filter.1 hp).1 (List.mem_filter.1 hp).2)
  have hroom : (!(o.audit.isSome && decide (2 ≤ (s.cl g).audits.length))) = true := by
    rcases haudit with hnone | hlt
    · simp [hnone]
    · simp [Nat.not_le.2 hlt]
  simp only [exec, execMmaArrayEntry, hfirst, harray, hall, hclear, hroom, decide_true, Bool.and_self, if_true]

/-- A chunk of the instruction in the array is promoted while its tile's segment is not full (R116, R118). -/
theorem chunkPromotion_of_open (hfirst : (s.cl g).mq.find? (fun o => o.entered && decide (o.steps < o.k)) = some o)
    (hopen : s.segmentFull g o.tile = false) : exec (.chunkPromotion g) s = .next (s.promote g o (s.chunkLen g o)) := by
  simp only [exec, execChunkPromotion, hfirst, hopen, Bool.false_eq_true, if_false]

theorem segmentClose_of_full (hfirst : (s.cl g).mq.find? (fun o => o.entered && s.segmentFull g o.tile) = some o) :
    exec (.segmentClose g) s = .next (s.closeSegment g o) := by
  simp only [exec, execSegmentClose, hfirst]

/-- The oldest instruction leaves when every K step is promoted and no segment of its tile has to close (R112). -/
theorem mmaComplete_of_promoted {rest : List MmaOp} (hqueue : (s.cl g).mq = o :: rest) (hentered : o.entered = true)
    (hsteps : o.steps = o.k) (hopen : s.segmentFull g o.tile = false) :
    exec (.mmaComplete g) s =
      .next (((s.auditAfter g o).updCl g (fun c => { c with mq := rest })).tileFreed g) := by
  simp only [exec, execMmaComplete, hqueue, hentered, hsteps, hopen, beq_self_eq_true, Bool.not_false, Bool.and_self,
    if_true]

end

section
variable {s : State} {g : Fin 1024} {u : Audit}

/-- The audit `u` after `n` K steps more of every column. -/
def audited (s : State) (g : Nat) (u : Audit) (n : Nat) : Audit :=
  { u with steps := u.steps + n, cols := u.cols.zipIdx.map (fun p => s.auditColumn g u n p.2 p.1) }

/-- An audit unit runs while the vector engine executes nothing: the audit goes on, or ends with its last step (R161). -/
theorem auditUnit_of_idle (hfirst : (s.cl g).audits.find? (fun u => u.after.isSome) = some u)
    (hidle : (s.cl g).vq.any (·.started) = false) :
    let u' := audited s g u (min 64 (u.op.k - u.steps))
    exec (.auditUnit g) s = .next (if u'.steps < u.op.k
      then s.updCl g (fun c => { c with audits := c.audits.map (fun x => if x.op.serial = u.op.serial then u' else x) })
      else (((((s.updCl g (fun c => { c with
        audits := c.audits.filter (fun x => x.op.serial ≠ u.op.serial) })).auditEnd g u').releasePins g).syncEngines
          g).vecStart g)) := by
  simp only [exec, execAuditUnit, hfirst, hidle, Bool.not_false, if_true]
  exact (apply_ite Host.Outcome.next _ _ _).symm

end

/-- Settles O21: an instruction that issues acts and retires, each row of the engine is taken where its guard holds, and
the steps left decide whether an audit ends. -/
theorem matrixRuns : Obligations.MatrixRuns := by
  unfold Obligations.MatrixRuns
  intro g s w
  refine ⟨?mcfg, ?mma, ?entry, ?promotion, ?close, ?complete, ?audit⟩
  case mcfg =>
    exact fun h => congrArg Host.Outcome.next (issue_of_issues h rfl)
  case mma =>
    exact fun h => ⟨lt_of_wait_eq_none (wait_of_issues h), congrArg Host.Outcome.next (issue_of_issues h rfl)⟩
  case entry =>
    exact fun o => mmaArrayEntry_of_clear
  case promotion =>
    exact fun o => chunkPromotion_of_open
  case close =>
    exact fun o => segmentClose_of_full
  case complete =>
    exact fun o rest => mmaComplete_of_promoted
  case audit =>
    intro u hfirst hidle n u'
    have hexec := auditUnit_of_idle hfirst hidle
    exact ⟨fun hmore => hexec.trans (congrArg _ (if_pos hmore)),
      fun hdone => hexec.trans (congrArg _ (if_neg (Nat.not_lt.2 hdone)))⟩

end Sys2Proof.Proofs

/-! ## Loads, stores and transfers of tile programs (R138, R145, R146) -/

namespace Sys2Proof.Proofs
open Sys2Proof.Machine Sys2Proof.Laws Sys2Proof.Safety

section
variable {s : State} {g : Nat} {w : Nat}

/-- An access of the local buffer without a fault is aligned and lies within it. -/
theorem lbFaults_eq_nil (h : s.lbFaults g w = []) : s.effAddr g w % 8 = 0 ∧ s.effAddr g w ≤ 0x1FFFF8 := by
  simpa using faultIf_eq_nil h

/-- A load of module memory without a fault is aligned and of mapped bytes. -/
theorem memFaults_eq_nil (h : s.memFaults g w = []) :
    s.effAddr g w % 8 = 0 ∧ s.rangeMapped (s.effAddr g w) 8 = true := by
  unfold State.memFaults at h
  simp only at h
  split at h
  · cases h
  · split at h
    · exact ⟨by omega, by assumption⟩
    · cases h

/-- A descriptor without a fault gives rows of 1 byte to 1 MiB. -/
theorem dmaFaults_eq_nil (h : s.dmaFaults g w = []) :
    1 ≤ (s.dmaDesc g (rFn w) (s.sreg g (rRa w)).toNat).rowBytes ∧
    (s.dmaDesc g (rFn w) (s.sreg g (rRa w)).toNat).rowBytes ≤ 2 ^ 20 := by
  unfold State.dmaFaults at h
  simp only at h
  split at h
  · cases h
  · split at h
    · cases h
    · omega

end

section
variable {s : State} {g : Fin 1024}

theorem ldmResponse_of_head {rd : Fin 64} {p : Nat × Word × Nat × Nat}
    (h : (s.cl g).ldmHeads.find? (fun p => p.1 == rd.val) = some p) :
    exec (.ldmResponse g rd) s =
      .next ((s.updCl g (fun c => { c with ldm := c.ldm.erase p })).setSreg g rd p.2.1) := by
  have hrd : p.1 = rd.val := by simpa using List.find?_some h
  simp only [exec, execLdmResponse, h, hrd]

/-- STM acts as its write does. -/
theorem stmOp_run_of_done {t : State} (w : Nat)
    (h : s.busWrite (.tile g) (s.isWadding g) (s.effAddr g w) (leBytes 8 (s.sreg g (rRb w)).toNat) = .done t) :
    (stmOp g).run s w = t.actMem (s.launchQueue g) (s.effAddr g w) 8 := by
  simp only [stmOp, scalarOp, h]

/-- The head of a channel moves its rows; how the last one ended decides what becomes of the transfer. -/
theorem dmaComplete_of_head {ch : Fin 4} {d : DmaOp} {rest : List DmaOp} (h : s.dmaQueue g ch = d :: rest) :
    let r := dmaParts g d d.byRow d.row s
    let held := r.st.setDmaQueue g ch ({ d with row := r.row } :: rest)
    (r.how = .moved →
      exec (.dmaComplete g ch) s =
        .next (((r.st.dmaCount g (d.rows * d.rowBytes)).setDmaQueue g ch rest).drainFaulted g)) ∧
    (r.how = .waits → exec (.dmaComplete g ch) s = .next held) := by
  constructor <;> intro hhow <;> simp only [exec, execDmaComplete, h, hhow]

end

/-- Settles O19: an instruction that issues acts and retires, its operands within the bounds that its faults check; the
row of a response or a channel is taken where it finds its load or transfer. -/
theorem tileMemoryRuns : Obligations.TileMemoryRuns := by
  unfold Obligations.TileMemoryRuns
  intro g s w q a rb
  refine ⟨?ldl, ?stl, ?ldm, ?response, ?stm, ?dma, ?complete⟩
  case ldl =>
    intro h
    obtain ⟨haligned, hinside⟩ := lbFaults_eq_nil (faults_of_issues h)
    exact ⟨haligned, hinside, congrArg Host.Outcome.next (issue_of_issues h rfl)⟩
  case stl =>
    intro h
    obtain ⟨haligned, hinside⟩ := lbFaults_eq_nil (faults_of_issues h)
    exact ⟨haligned, hinside, congrArg Host.Outcome.next (issue_of_issues h rfl)⟩
  case ldm =>
    intro h
    obtain ⟨haligned, hmapped⟩ := memFaults_eq_nil (faults_of_issues h)
    exact ⟨haligned, hmapped, congrArg Host.Outcome.next (issue_of_issues h rfl)⟩
  case response =>
    exact fun rd p => ldmResponse_of_head
  case stm =>
    intro t h hwrite
    refine congrArg Host.Outcome.next ((issue_of_issues h rfl).trans ?_)
    rw [stmOp_run_of_done _ hwrite]
    rfl
  case dma =>
    intro h
    obtain ⟨hleast, hmost⟩ := dmaFaults_eq_nil (faults_of_issues h)
    exact ⟨lt_of_wait_eq_none (wait_of_issues h), hleast, hmost, congrArg Host.Outcome.next (issue_of_issues h rfl)⟩
  case complete =>
    exact fun ch d rest => dmaComplete_of_head

end Sys2Proof.Proofs

/-! ## Chains and collectives (R126, R156, R288 to R290) -/

namespace Sys2Proof.Proofs
open Sys2Proof.Machine Sys2Proof.Laws Sys2Proof.Safety

section
variable {s : State}

/-- One of this module's own steps is no message: it is taken as it is. -/
theorem takes_of_own {h : FabHdr} (hpower : s.powered = true) (hsrc : h.src = s.devnum) (act : State → State) :
    s.takes h act = act s := by
  simp only [State.takes, hpower, Bool.not_true, Bool.false_eq_true, if_false, hsrc, if_true]

/-! ### CHN -/

theorem tileWaits_of_no_conflict {g t : Nat} {write join : Bool} (h : (s.cl g).tileConflict t write = false) :
    s.tileWaits g t write join = s := by
  simp only [State.tileWaits, h, Bool.false_eq_true, if_false]

/-- CHN on a tile without a conflict begins the first member of the chain there that has not begun. -/
theorem chnOp_run {g w : Nat} {c : ChainDesc} (hchain : s.chain? (s.sreg g (rRa w)).toNat = some c)
    (hclear : (s.cl g).tileConflict (rImm w) false = false) :
    let t := rImm w
    let id := (s.sreg g (rRa w)).toNat
    let mine := s.membersAt c g t
    let x := s.chainRun id
    let m := (mine.filter (fun i => !x.waiting.contains i)).headD (mine.headD 0)
    (chnOp g).run s w = ((s.setChain id { x with waiting := x.waiting ++ [m] }).updCl g (fun k => { k with
      chains := k.chains ++ [(id, t, k.serial)], serial := k.serial + 1 })).syncEngines g := by
  simp only [chnOp, scalarOp, tileWaits_of_no_conflict hclear, hchain]

/-! ### The first member of a chain -/

/-- The readouts that the first member's row puts in the running sum's place, without events. -/
def firstSum (rd : List (F32 × Evt)) : List ((F32 × F32) × Evt) := rd.map (fun p => ((p.1, 0#32), none))

/-- The first member adds to nothing: its readouts are the running sum. -/
theorem chainAdd_first (ieee comp : Bool) (n : Nat) (f : Nat → F32 × F32) (g : Nat → F32 × Evt) :
    chainAdd ieee true comp ((List.range n).map f) (((List.range n).map g).map Prod.fst) =
      firstSum ((List.range n).map g) := by
  rw [chainAdd, List.map_map, List.zip_map', List.map_map, firstSum, List.map_map]
  rfl

theorem map_snd_firstSum (rd : List (F32 × Evt)) : (firstSum rd).map Prod.snd = List.replicate rd.length none := by
  rw [firstSum, List.map_map]
  exact List.map_const' ..

theorem foldl_zip_firstSum (l : Sparse (F32 × F32)) (n k : Nat) (rd : List (F32 × Evt)) :
    ((List.range n).zip (firstSum rd)).foldl
      (fun (m : Sparse (F32 × F32)) p => Sparse.put (0#32, 0#32) m (k + p.1) p.2.1) l =
    ((List.range n).zip rd).foldl (fun l p => Sparse.put (0#32, 0#32) l (k + p.1) (p.2.1, 0#32)) l := by
  rw [firstSum, List.zip_map_right, List.foldl_map]
  rfl

theorem passed_eq_false {x : ChainRun} {c : ChainDesc} {i r : Nat} (hr : r < c.rows) (h : Sparse.get 0 x.got r ≤ i) :
    x.passed c i = false := by
  rw [ChainRun.passed, List.all_eq_false]
  exact ⟨r, List.mem_range.2 hr, by simpa using h⟩

/-- The state of a chain whose first member has added the rows below `row`. -/
structure FirstDue (s : State) (c : ChainDesc) (row : Nat) : Prop where
  more : row + 1 < c.rows
  waits : 0 ∈ (s.chainRun c.id).waiting
  got : ∀ k, k < c.rows → Sparse.get 0 (s.chainRun c.id).got k = if k < row then 1 else 0
  next : ∀ n, c.members[1]? = some n → n.dev = s.devnum

/-- The running sum of chain `c` after its first member `m` has added the readouts of a row. -/
def firstRow (s : State) (c : ChainDesc) (m : ChainMember) (row : Nat) : ChainRun :=
  let rd := (List.range 32).map (fun j => s.readout m.cluster m.tile (32 * row + j))
  let x := s.chainRun c.id
  { x with
    got := Sparse.put 0 x.got row 1
    sum := ((List.range 32).zip rd).foldl (fun l p => Sparse.put (0#32, 0#32) l (32 * row + p.1) (p.2.1, 0#32)) x.sum }

section
variable {c : ChainDesc} {m : ChainMember} {row : Nat} (hdue : FirstDue s c row)
include hdue

theorem FirstDue.not_passed : (s.chainRun c.id).passed c 0 = false :=
  passed_eq_false hdue.more (by rw [hdue.got _ hdue.more, if_neg (by omega)])

theorem FirstDue.not_passed_after : (firstRow s c m row).passed c 0 = false :=
  passed_eq_false hdue.more (by
    rw [firstRow, get_put_of_ne _ _ _ _ (by omega), hdue.got _ hdue.more, if_neg (by omega)])

theorem FirstDue.due : ((s.chainRun c.id).waiting.contains 0 && decide (row < c.rows) &&
    Sparse.get 0 (s.chainRun c.id).got row == s.lastHere c 0 &&
    (List.range row).all (fun k => decide (0 < Sparse.get 0 (s.chainRun c.id).got k))) = true := by
  have hrow : row < c.rows := by have := hdue.more; omega
  have hgot : Sparse.get 0 (s.chainRun c.id).got row = 0 := by rw [hdue.got _ hrow, if_neg (by omega)]
  have hbelow : (List.range row).all (fun k => decide (0 < Sparse.get 0 (s.chainRun c.id).got k)) = true := by
    rw [List.all_eq_true]
    intro k hk
    have hk := List.mem_range.1 hk
    rw [hdue.got _ (by omega), if_pos hk]
    rfl
  have hlast : s.lastHere c 0 = 0 := rfl
  simp [hdue.waits, hrow, hgot, hbelow, hlast]

/-- The first member adds a due row, and its local successor finds it in the running sum. -/
theorem FirstDue.chainStep {o : Nat × Nat × Nat} (data : List Byte)
    (hop : (s.cl m.cluster).chains.find? (fun o => o.1 == c.id && o.2.1 == m.tile) = some o)
    (hclear : (s.cl m.cluster).tileClear m.tile o.2.2 false = true) :
    let rd := (List.range 32).map (fun j => s.readout m.cluster m.tile (32 * row + j))
    let t := s.tileEvents m.cluster m.tile c.destTid (EvCount.ofList (rd.map Prod.snd))
    s.chainStep c 0 row m data =
      (t.countEvents (s.launchQueue m.cluster) c.destTid (EvCount.ofList (List.replicate 32 none))).setChain c.id
        (firstRow s c m row) := by
  intro rd t
  have hafter : ¬ (firstRow s c m row).passed c 0 = true := Bool.eq_false_iff.1 hdue.not_passed_after
  have hlocal : ∀ n, c.members[1]? = some n → (n.dev != s.devnum) = false := fun n hn => by simp [hdue.next n hn]
  rw [State.chainStep]
  cases hn : c.members[1]? <;>
  · simp only [hop, hdue.not_passed, hdue.due, hclear, Nat.zero_add, hn, hlocal, true_or, if_true, Bool.and_false,
      Bool.false_eq_true, if_false, Bool.not_true, Bool.or_self, beq_self_eq_true, chainAdd_first, map_snd_firstSum,
      foldl_zip_firstSum, List.length_map, List.length_range]
    exact if_neg hafter

end

/-! ### Members of a collective -/

variable {x : CollRun} {k : Nat} {data : List Byte}

/-- A member that has chunks to pass on is not over. -/
theorem over_eq_false_of_fwd (h : x.fwd ≠ x.chunks) : x.over = false := by
  rw [CollRun.over, beq_false_of_ne h, Bool.false_and]

/-- A member that has chunks to write is not over. -/
theorem over_eq_false_of_written (hwrites : x.writes = true) (h : x.written ≠ x.chunks) : x.over = false := by
  rw [CollRun.over, hwrites, beq_false_of_ne h, Bool.not_true, Bool.or_false, Bool.and_false]

/-- A member whose part is not over keeps its place. -/
theorem collCheckEnd_of_not_over (h : x.over = false) : s.collCheckEnd x = s.putColl x := by
  rw [State.collCheckEnd, h, if_neg Bool.false_ne_true]

/-- The first member of a collective takes a chunk that is not its last: it reads its input and sends the sum on. -/
theorem collStep_first {d : Nat} (hme : x.me = 0) (hfwd : x.fwd = k) (hmore : k + 1 < x.chunks)
    (hnext : x.members[1]? = some d) (hway : s.hopWay d 0x11 x.id 0 x.plain = .goes)
    (hread : (s.busRead (.command x.q) (x.src + k * x.perChunk * x.size) (x.chunkElems k * x.size)).waits = false)
    (digest : Word) :
    let r := s.busRead (.command x.q) (x.src + k * x.perChunk * x.size) (x.chunkElems k * x.size)
    let j := x.join s.ieee k data r.bytes
    let u := (r.st.countEvents x.q x.tid j.2).countEvents x.q x.tid .zero
    let y := { x with fwd := k + 1 }
    s.collStep x k digest data = (u.sendHop x.q d 0x11 x.id 0 k y.digest j.1 (u.collPlan y)).putColl y := by
  have hturn : ¬ (x.fwd ≠ k ∨ x.chunks ≤ k) := by omega
  have hfirst : ¬ (x.me ≠ 0 ∧ k = 0 ∧ digest ≠ x.digest) := fun h => h.1 hme
  have hreads : ¬ (x.kind = 2 ∧ x.me ≠ 0) := fun h => h.2 hme
  have htakes : (x.kind == 2 && x.me != 0) = false := by simp [hme]
  have hnext : x.members[x.me + 1]? = some d := by rw [hme, hnext]
  have hcollWay : s.collWay x = .goes := by
    rw [State.collWay, hnext, ← hway, hme]
  have hover : CollRun.over { x with fwd := k + 1 } = false := over_eq_false_of_fwd (Nat.ne_of_lt hmore)
  rw [State.collStep, if_neg hturn, if_neg hfirst]
  simp only [hcollWay, hnext, hreads, htakes, hread, if_false, Option.isNone_some, Bool.or_self, Bool.false_eq_true,
    collCheckEnd_of_not_over hover]
  rw [hme]

/-- The first member of a chain-allreduce writes a chunk of the result that is not its last. -/
theorem collResult_first {h : FabHdr} {id : Nat} {t : State} (hfresh : Fresh s h) (hother : h.src ≠ s.devnum)
    (hfind : s.fab.colls.find? (fun x => x.id == id && x.kind == 1) = some x) (hme : x.me = 0) (hkind : x.kind = 1)
    (hwritten : x.written = k) (hfwd : k < x.fwd) (hmore : k + 1 < x.chunks)
    (hwrite : (arrived s h).busWrite (.command x.q) (s.queueWadding x.q) (x.dest + k * x.perChunk * x.size) data =
      .done t) :
    exec (.collResult h id ⟨k, data⟩) s = .next (t.putColl (x.wrote 0)) := by
  have hturn : ¬ (x.written ≠ k ∨ x.fwd ≤ k) := by omega
  have hfind' : (arrived s h).fab.colls.find? (fun x => x.id == id && x.kind == 1) = some x := hfind
  have hcoll : (arrived s h).collWrite x k data = (some 0, t) := by
    have hwad : (arrived s h).queueWadding x.q = s.queueWadding x.q := rfl
    rw [State.collWrite, hwad, hwrite]
  have hover : (x.wrote 0).over = false := by
    have hwrites : (x.wrote 0).writes = true := by simp [CollRun.writes, CollRun.wrote, hkind]
    have hlast : x.written + 1 ≠ x.chunks := by omega
    exact over_eq_false_of_written hwrites hlast
  simp only [exec, execCollResult, takes_of_fresh hfresh hother, hfind', hturn, if_false, hme, if_true, hcoll,
    collCheckEnd_of_not_over hover]

/-! ### COLLECTIVE -/

theorem addSection_if_mem (own : Bool) (ty : Nat) (bs : List Byte) :
    (if own then s.addSection ty bs else s).mem = s.mem := by
  unfold State.addSection
  split
  · split <;> rfl
  · rfl

/-- What becomes of a collective `x` whose descriptor and list of `len` modules are sound, once its hops are chosen anew:
it is refused for the module, a range, a peer or a link, or joins. -/
def joinColl (q : Nat) (c : Cmd) (len : Nat) (x : CollRun) (s : State) : State :=
  let n := x.elems * x.size
  if !s.devValid then s.fail c stRefused 4
  else if (x.kind != 2 || x.me == 0) && !s.rangeMapped x.src n then (s.missEvent (.command q) x.src).fail c stUnmapped 0
  else if x.writes && !s.rangeMapped x.dest n then (s.missEvent (.command q) x.dest).fail c stUnmapped 0
  else if x.writes && (s.writeStop (.command q) (s.queueWadding q) x.dest n).isSome then
    s.fail c (match s.writeStop (.command q) (s.queueWadding q) x.dest n with
      | some .wadding => stWadding
      | _ => stLocked) 0
  else if x.members.any s.devLost then s.fail c stPeerLost 0
  else if s.collLink1 x then (s.set F.JFL_STATUS_VERSION_LINK1 1).fail c stRefused 9
  else
    let own := s.courseLive && (c.course != 0 ||
      (match s.course.prog with | some p => p.queues.contains q | none => false))
    let s := if own then s.addSection 3 (leBytes 2 x.id ++ leBytes 2 len ++ leBytes 1 (if x.comp then 1 else 0) ++
      leBytes 1 x.kind ++ leBytes 2 0 ++ leBytes 8 x.digest.toNat) else s
    (s.cmdWaits c [x.id]).updFab (fun fb => { fb with colls := fb.colls ++ [x] })

/-- A collective whose input is mapped joins where nothing refuses it, and no memory changes. -/
theorem joinColl_of_sound {q len : Nat} {c : Cmd} (hvalid : s.devValid = true)
    (hsrc : s.rangeMapped x.src (x.elems * x.size) = true)
    (hdest : x.writes = true → s.rangeMapped x.dest (x.elems * x.size) = true ∧
      s.writeStop (.command q) (s.queueWadding q) x.dest (x.elems * x.size) = none)
    (hpeers : ∀ d ∈ x.members, s.devLost d = false) (hlink : s.collLink1 x = false) :
    x ∈ (joinColl q c len x s).fab.colls ∧ (joinColl q c len x s).mem = s.mem := by
  have hmapped : (x.writes && !s.rangeMapped x.dest (x.elems * x.size)) = false := by
    cases hw : x.writes with
    | false => rfl
    | true => simp [(hdest hw).1]
  have hfree : (x.writes && (s.writeStop (.command q) (s.queueWadding q) x.dest (x.elems * x.size)).isSome) = false := by
    cases hw : x.writes with
    | false => rfl
    | true => simp [(hdest hw).2]
  have hlost : x.members.any s.devLost = false := by simpa using hpeers
  simp only [joinColl, hvalid, hsrc, hmapped, hfree, hlost, hlink, Bool.not_true, Bool.and_false, Bool.false_eq_true,
    if_false, updFab_mem, updFab_fab]
  exact ⟨List.mem_append_right _ (List.mem_singleton_self x), addSection_if_mem _ _ _⟩

/-- The collective that a descriptor asks of member `me` of the modules `ms` (Table 11.8). -/
def collOf (q seq : Nat) (b : List Byte) (ms : List Nat) (me : Nat) : CollRun :=
  ⟨q, seq, fieldLe b 0 1 % 4, fieldLe b 0 1 / 4 == 1,
    if fmtOfCode (fieldLe b 1 1) = some .f32 then 0 else fieldLe b 1 1, fieldLe b 2 2, fieldLe b 8 8, fieldLe b 16 8,
    fieldLe b 24 8, ms, fieldLe b 40 3, me, 0, 0, 0⟩

/-- A descriptor of KIND 0 without COMP in F32 asks for a chain-reduce. -/
theorem collOf_chainReduce {q seq me : Nat} {b : List Byte} {ms : List Nat} (hkind : fieldLe b 0 1 = 0)
    (hfmt : fmtOfCode (fieldLe b 1 1) = some .f32) :
    collOf q seq b ms me = ⟨q, seq, 0, false, 0, fieldLe b 2 2, fieldLe b 8 8, fieldLe b 16 8, fieldLe b 24 8, ms,
      fieldLe b 40 3, me, 0, 0, 0⟩ := by
  rw [collOf, hkind, if_pos hfmt]
  rfl

/-- An accepted COLLECTIVE whose descriptor and list of modules are sound is judged by what it asks for. -/
theorem collective_of_sound {q : Fin 16384} {seq : Nat} {c : Cmd} (hacc : Accepted 0x0400 q seq c s)
    (haligned : c.par 16 8 % 64 = 0) (hlocal : c.par 16 8 < 2 ^ 43) (hmem : s.memRange (c.par 16 8) 64 = true) :
    let r := s.busRead (.command q) (c.par 16 8) 64
    let b := r.bytes
    let len := fieldLe b 4 2
    let mr := r.st.busRead (.command q) (fieldLe b 32 8) (2 * len)
    let ms := (List.range len).map (fun i => fieldLe mr.bytes (2 * i) 2)
    let x := collOf q seq b ms (ms.idxOf mr.st.devnum)
    collOk b = true → r.st.rangeMapped (fieldLe b 32 8) (2 * len) = true → ms.Nodup → mr.st.devnum ∈ ms →
    (∀ d ∈ ms, d < 2048) → exec (.collective q seq) s = .next (joinColl q c len x (mr.st.newHops x.id)) := by
  intro r b len mr ms x hok hlist hnodup hme hnums
  have hms : ¬ (¬ ms.Nodup ∨ ms.contains mr.st.devnum = false ∨ ms.any (fun d => decide (2048 ≤ d)) = true) := by
    rintro (h | h | h)
    · exact h hnodup
    · exact Bool.false_ne_true (h.symm.trans (List.contains_iff_mem.2 hme))
    · obtain ⟨d, hd, hbig⟩ := List.any_eq_true.1 h
      exact absurd (hnums d hd) (Nat.not_lt.2 (of_decide_eq_true hbig))
  refine congrArg Host.Outcome.next ((runCmd_of_accepted hacc _).trans ?_)
  refine (needA_of_aligned haligned hlocal _).trans ((needMem_of_range hmem _).trans ?_)
  exact (if_neg (ne_false_of_eq_true hok)).trans ((if_neg (ne_false_of_eq_true hlist)).trans (if_neg hms))

end

/-- Settles O29: CHN acts and retires; a first member finds its row due and its successor local; a member of a collective
that is not over keeps its place; a sound chain-reduce is refused for nothing. -/
theorem chainsRun : Obligations.ChainsRun := by
  unfold Obligations.ChainsRun
  refine ⟨?chn, ?first, ?reduce, ?result, ?collective⟩
  case chn =>
    intro g c s h hchain hclear t id mine x m
    refine congrArg Host.Outcome.next ((issue_of_issues h rfl).trans ?_)
    rw [chnOp_run hchain hclear]
    rfl
  case first =>
    intro h id row digest data c m o s hpower hsrc hchain hid hm hdev hmore hop hclear hwaits hgot hnext rd t u x
    subst hid
    have hdue : FirstDue s c row := ⟨hmore, hwaits, hgot, hnext⟩
    refine congrArg Host.Outcome.next ((takes_of_own hpower hsrc _).trans ?_)
    simp only [hchain, hm, hdev, if_true]
    exact hdue.chainStep data hop hclear
  case reduce =>
    intro h id k digest data x d s hpower hsrc hchain hfind hme hid hfwd hmore hkind hnext hway r j u y hread
    subst hid
    refine congrArg Host.Outcome.next ((takes_of_own hpower hsrc _).trans ?_)
    simp only [hchain, hfind]
    exact collStep_first hme hfwd hmore hnext hway hread digest
  case result =>
    exact fun h id k data x t s => collResult_first
  case collective =>
    intro q seq c s hacc haligned hlocal hmem r b len mr ms n x u hok hkind hfmt hlist hnodup hme hpeers hvalid hsrc
      hdest hlink
    have hexec := collective_of_sound hacc haligned hlocal hmem hok hlist hnodup hme fun d hd => (hpeers d hd).1
    rw [collOf_chainReduce hkind hfmt] at hexec
    have hjoin : x ∈ (joinColl q c len x u).fab.colls ∧ (joinColl q c len x u).mem = u.mem :=
      joinColl_of_sound hvalid hsrc hdest (fun d hd => (hpeers d hd).2) hlink
    exact ⟨_, hexec, hjoin⟩

end Sys2Proof.Proofs

/-! ## Dormer access, compensated tiles and power settings (R121, R123, R131, R132, R140, R163, R377, R379, R388) -/

namespace Sys2Proof.Proofs
open Sys2Proof.Machine Sys2Proof.Laws Sys2Proof.Safety

section
variable {s : State} {g : Fin 1024}

/-! ### Core, registers and program memory -/

theorem ccCtrl_of_dormer (h : s.dormer 1 = true) (g : Nat) (v : Word) :
    s.ccCtrl g v = ((s.set F.CC_CTRL_HALT (v.toNat % 2) g).set F.CC_STATE_HALTED (v.toNat % 2) g).updCl g (fun c =>
      { c with step := s.bit F.CC_STATE_HALTED g && v.toNat / 2 % 2 == 1 && v.toNat % 2 == 1 }) := if_pos h

/-- A write of CC_CTRL without STEP halts or releases the core. -/
theorem ccHalt_of_dormer (hdormer : s.dormer 1 = true) (h : Bool) : exec (.ccHalt g h) s = .next
    (((s.set F.CC_CTRL_HALT (if h then 1 else 0) g).set F.CC_STATE_HALTED (if h then 1 else 0) g).updCl g (fun c =>
      { c with step := false })) := by
  cases h <;> simp [exec, execCcHalt, ccCtrl_of_dormer hdormer]

/-- STEP beside HALT lets a halted core issue one instruction. -/
theorem ccStep_of_halted (hdormer : s.dormer 1 = true) (hhalted : s.bit F.CC_STATE_HALTED g = true) :
    exec (.ccStep g) s = .next (((s.set F.CC_CTRL_HALT 1 g).set F.CC_STATE_HALTED 1 g).updCl g (fun c => { c with
      step := true })) := by
  simp [exec, execCcStep, ccCtrl_of_dormer hdormer, hhalted]

/-- The scalar window takes a write while the cluster runs nothing, and otherwise records an event (R140). -/
theorem scalarRegisterWrite_eq (n : Fin 64) (v : Word) : exec (.scalarRegisterWrite g n v) s = .next (if s.runsAny g
    then s.raise (g / 128) 0x0203 (plAt 16 (clusterAddr g (0x70_0000 + 8 * n))) else s.setSreg g n v) := rfl

/-- Program memory takes the bytes within it while the cluster runs nothing, and otherwise records an event (R140). -/
theorem programMemoryWrite_eq {off : Nat} {bs : List Byte} (h : off + bs.length ≤ 0x4_0000) :
    exec (.programMemoryWrite g off bs) s = .next (if s.runsAny g
      then s.raise (g / 128) 0x0203 (plAt 16 (clusterAddr g (0x100_0000 + off)))
      else s.updCl g (fun c => { c with pm := tablePut c.pm off bs })) := by
  have hwhole : bs.take (pmSize - off) = bs := List.take_of_length_le (by unfold pmSize; omega)
  simp only [exec, execProgramMemoryWrite, hwhole, State.programWrite]

/-! ### Tiles and segment registers -/

/-- The pairs of tiles whose compensation a value of COMP changes. -/
def changedPairs (s : State) (g new : Nat) : List Nat :=
  (List.range 8).filter (fun j => decide (s.get F.ACC_CTRL_COMP g / 2 ^ j % 2 ≠ new / 2 ^ j % 2))

/-- COMP changes as a whole, or not at all while one tile of a changed pair is busy (R123). -/
theorem compChange_eq (v : Word) :
    let new := v.toNat / 2 ^ 8 % 256
    let changed := changedPairs s g new
    exec (.compChange g v) s = .next (
      if changed.any (fun j => (s.cl g).tileBusy j || (s.cl g).tileBusy (j + 24)) then
        s.set F.ACC_STATUS_COMP_CHANGE_REJECTED 1 g
      else changed.foldl (fun s j =>
        (((s.clearTile g j).clearTile g (j + 24)).set F.ACC_TSTAT_COMP (new / 2 ^ j % 2) g j).set F.ACC_TSTAT_PARTNER
          (new / 2 ^ j % 2) g (j + 24)) ((s.set F.ACC_CTRL_STRICT (v.toNat % 2) g).set F.ACC_CTRL_COMP new g)) := rfl

/-! ### The accumulator window -/

/-- With the dormer, a write within the accumulator window takes its place behind a busy tile or takes effect (R131). -/
theorem accumulatorAccess_write {off : Nat} {bs : List Byte} (hne : bs ≠ []) (hin : off + bs.length ≤ 0x2_0000)
    (hdormer : s.dormer 0 = true) :
    exec (.accumulatorAccess g off 0 (some bs)) s = .next (if s.accBusy g off bs.length true
      then s.accHold .host g off bs.length true (some bs) else s.accWrite g off bs) := by
  have hsome : ¬ (bs.length = 0 ∨ 0x2_0000 < off + bs.length) := by
    have := List.length_pos_of_ne_nil hne
    omega
  simp only [exec, execAccumulatorAccess, hsome, if_false, hdormer, Bool.true_and, Option.isSome_some, State.accServe]

/-- A posted write that has waited 500 µs is given up with its event (R131). -/
theorem dormerAccessTimeout_of_write {x : AccWait} (hfirst : (s.cl g).accWait.find? (fun x => !x.expired) = some x)
    (hdata : x.data.isSome = true) (hwrite : x.write = true) :
    let u := (s.advanceTo (x.since + 500000)).updCl g (fun c => { c with accWait := c.accWait.erase x })
    exec (.dormerAccessTimeout g) s =
      .next ((u.raise (g.val / 128) 0x0205 (plAt 16 (accAddr g x.off) + plAt 25 1)).tileFreed g) := by
  simp only [exec, execDormerAccessTimeout, hfirst, hdata, hwrite, or_true, if_true, Bool.true_eq_false, and_false,
    if_false]

end

/-! ### Clearing MISMATCH -/

section
variable {s : State}

/-- A register without RW fields takes every write. -/
theorem foldlM_writeField_of_no_rw {v : Nat} {l : List FieldInfo} (h : ∀ f ∈ l, f.acc ≠ .rw) (old : Nat) :
    ∃ w, l.foldlM (writeField v) old = some w := by
  induction l generalizing old with
  | nil => exact ⟨old, rfl⟩
  | cons f l ih =>
    obtain ⟨hf, hl⟩ := List.forall_mem_cons.1 h
    have hstep : ∃ w, writeField v old f = some w := by
      unfold writeField
      split
      · contradiction
      · exact ⟨_, rfl⟩
      · exact ⟨_, rfl⟩
    obtain ⟨mid, hmid⟩ := hstep
    obtain ⟨w, hw⟩ := ih hl mid
    exact ⟨w, by rw [List.foldlM_cons, hmid]; exact hw⟩

/-- The plain write of a register without RW fields writes a word in which each field keeps the promise of its type. -/
theorem plainWrite_of_no_rw {r : RegId} (h : ∀ f ∈ r.reg.fields, f.acc ≠ .rw) (v : Word) (rej : State → State) :
    ∃ w, s.plainWrite r v rej = s.wr r.reg r.inst r.idx (BitVec.ofNat 64 w) ∧
      ∀ f ∈ r.reg.fields, Written v.toNat f (s.rd r.reg r.inst r.idx).toNat w := by
  obtain ⟨w, hw⟩ := foldlM_writeField_of_no_rw (v := v.toNat) h (s.rd r.reg r.inst r.idx).toNat
  obtain ⟨hin, hap⟩ := fields_inWord_apart r.reg
  refine ⟨w, ?_, (foldlM_writeField_spec hin hap (BitVec.isLt _) hw).1⟩
  rw [State.plainWrite, applyWrite_eq_foldlM, hw]

/-- A field of a register word is a field of its number, however large that is. -/
theorem fget_ofNat {f : FieldInfo} (hf : InWord f) (w : Nat) : fget f.lo f.wid (BitVec.ofNat 64 w) = fieldVal f w := by
  have hsplit : 2 ^ 64 = 2 ^ f.lo * 2 ^ (64 - f.lo) := by
    rw [← Nat.pow_add, Nat.add_sub_of_le (Nat.le_of_add_right_le hf)]
  have hwid : f.wid ≤ 64 - f.lo := Nat.le_sub_of_add_le' hf
  rw [fget, BitVec.toNat_ofNat, hsplit, Nat.mod_mul_right_div_self,
    Nat.mod_mod_of_dvd _ (Nat.pow_dvd_pow 2 hwid), fieldVal]

/-- After the write of a register word, its fields read as those of the number. -/
theorem bit_wr_self {f : FieldInfo} (hf : InWord f) (r : Reg) (i j w : Nat) :
    (s.wr r i j (BitVec.ofNat 64 w)).bit ⟨r, f.lo, f.wid⟩ i j = (fieldVal f w == 1) := by
  rw [State.bit, State.get, rd_wr_self, fget_ofNat hf]

/-- A write of MISMATCH as 1 clears it and leaves COMPARING alone, so a held course is released (R314). -/
theorem compareHaltRelease_releases (hidle : s.bit F.LDG_STATUS_COMPARING = false) :
    ∃ t, exec .compareHaltRelease s = .next t ∧ t.bit F.LDG_STATUS_MISMATCH = false ∧ t.replay.held = false ∧
      t.mem = s.mem := by
  obtain ⟨w, hwrite, hfields⟩ := plainWrite_of_no_rw (s := s) (r := ⟨.ldgStatus, 0, 0⟩) (by decide) 2#64 (fun s => s)
  have hexec : exec .compareHaltRelease s = .next (s.wr .ldgStatus 0 0 (BitVec.ofNat 64 w)).haltRelease :=
    congrArg (fun t : State => Host.Outcome.next t.haltRelease) hwrite
  have hmismatch : (s.wr .ldgStatus 0 0 (BitVec.ofNat 64 w)).bit F.LDG_STATUS_MISMATCH = false := by
    have hcleared : fieldVal (fi 1 1 .w1c 0) w = 0 :=
      ((hfields (fi 1 1 .w1c 0) (by decide)).cleared rfl).trans (Nat.and_zero _)
    exact (bit_wr_self (f := fi 1 1 .w1c 0) (by decide) _ _ _ w).trans (by rw [hcleared]; rfl)
  have hcomparing : (s.wr .ldgStatus 0 0 (BitVec.ofNat 64 w)).bit F.LDG_STATUS_COMPARING = false := by
    have hkept := (hfields (fi 17 1 .ro 0) (by decide)).kept (by decide) (by decide)
    exact (bit_wr_self (f := fi 17 1 .ro 0) (by decide) _ _ _ w).trans (by rw [hkept]; exact hidle)
  rw [State.haltRelease, hcomparing] at hexec
  exact ⟨_, hexec, hmismatch, rfl, rfl⟩

end

/-! ### Power settings -/

section
variable {s : State}

theorem fget_zero (n : Nat) (v : Word) : fget 0 n v = v.toNat % 2 ^ n := by
  rw [fget, Nat.pow_zero, Nat.div_one]

/-- A policy entry within its ranges is taken in IDLE through die 0, and waits for the next tick elsewhere (R379). -/
theorem writePolicy_of_idle {k : Nat} {v : Word} (hidle : s.cstate = 0) (hguard : v.toNat / 2 ^ 16 % 2 ^ 8 ≤ 50)
    (hfloor : v.toNat / 2 ^ 40 % 2 ^ 8 ≤ 15) :
    let w : Word := BitVec.ofNat 64 (v.toNat % 2 ^ 48)
    s.writePolicy 0 k v = ({ s.wr .pwrPolicy 0 k w with pwr := { s.pwr with
      policyPend := Sparse.put none s.pwr.policyPend k (some w) } } : State).refreshPwr 0 := by
  have hok : ¬ (0 ≠ 0 ∨ s.cstate ≠ 0 ∨ 50 < fget 16 8 v ∨ 15 < fget 40 8 v) := by
    simp only [fget]
    omega
  rw [State.writePolicy, if_neg hok, fget_zero]

/-- A cap that R374 allows is set through die 0. -/
theorem writeCap_of_ok {v : Word} (h : capOk (v.toNat % 2 ^ 12) = true) :
    s.writeCap 0 v = s.setCap (v.toNat % 2 ^ 12) := by
  rw [State.writeCap, fget_zero, if_pos h]
  rfl

end

/-- Settles O30: the dormer opens each access, and a busy tile, a running program or a value out of range selects its
branch. -/
theorem dormerRuns : Obligations.DormerRuns := by
  unfold Obligations.DormerRuns
  refine ⟨?halt, ?step, ?scalar, ?program, ?comp, ?segment, ?access, ?timeout, ?release, ?coefficient, ?policy, ?cap⟩
  case halt =>
    exact fun g h s hdormer => ccHalt_of_dormer hdormer h
  case step =>
    exact fun g s => ccStep_of_halted
  case scalar =>
    intro g n v s
    refine ⟨fun hidle => ?_, fun hruns => ?_⟩
    · exact (scalarRegisterWrite_eq n v).trans (congrArg _ (if_neg (Bool.eq_false_iff.1 hidle)))
    · exact (scalarRegisterWrite_eq n v).trans (congrArg _ (if_pos hruns))
  case program =>
    intro g off bs s hin
    refine ⟨fun hidle => ?_, fun hruns => ?_⟩
    · exact (programMemoryWrite_eq hin).trans (congrArg _ (if_neg (Bool.eq_false_iff.1 hidle)))
    · exact (programMemoryWrite_eq hin).trans (congrArg _ (if_pos hruns))
  case comp =>
    intro g v s new changed
    refine ⟨fun hbusy => ?_, fun hfree => ?_⟩
    · have hany : changed.any (fun j => (s.cl g).tileBusy j || (s.cl g).tileBusy (j + 24)) = true := by
        simpa only [List.any_eq_true, Bool.or_eq_true] using hbusy
      exact (compChange_eq v).trans (congrArg _ (if_pos hany))
    · have hnone : ¬ changed.any (fun j => (s.cl g).tileBusy j || (s.cl g).tileBusy (j + 24)) = true := by
        simpa only [List.any_eq_true, Bool.or_eq_true, not_exists, not_and, not_or, Bool.not_eq_true] using hfree
      exact (compChange_eq v).trans (congrArg _ (if_neg hnone))
  case segment =>
    exact fun g t v s hdormer => congrArg Host.Outcome.next (if_pos hdormer)
  case access =>
    intro g off bs s hne hin hdormer
    refine ⟨fun hfree => ?_, fun hbusy => ?_⟩
    · exact (accumulatorAccess_write hne hin hdormer).trans (congrArg _ (if_neg (Bool.eq_false_iff.1 hfree)))
    · exact (accumulatorAccess_write hne hin hdormer).trans (congrArg _ (if_pos hbusy))
  case timeout =>
    exact fun g x s => dormerAccessTimeout_of_write
  case release =>
    exact fun s _ hidle => compareHaltRelease_releases hidle
  case coefficient =>
    intro d k v s
    simp only [exec, execPwrCoefWrite, State.writeCoef, fget_zero]
  case policy =>
    intro k v s hidle hguard hfloor w
    exact congrArg Host.Outcome.next (writePolicy_of_idle hidle hguard hfloor)
  case cap =>
    exact fun v s hok => congrArg Host.Outcome.next (writeCap_of_ok hok)

end Sys2Proof.Proofs

/-! ## What updates of one cluster leave of the others and of its registers (R138) -/

namespace Sys2Proof.Proofs
open Sys2Proof.Machine Sys2Proof.Laws Sys2Proof.Safety

section
variable {s : State} {g h : Nat}

@[simp] theorem cl_set (f : Fld) (v i j : Nat) : (s.set f v i j).cl h = s.cl h := rfl

@[simp] theorem cl_setCl_self (c : Cluster) : (s.setCl g c).cl g = c := get_put_self ..

theorem cl_setCl_of_ne (c : Cluster) (hne : h ≠ g) : (s.setCl g c).cl h = s.cl h := get_put_of_ne _ _ _ _ hne

@[simp] theorem cl_updCl_self (f : Cluster → Cluster) : (s.updCl g f).cl g = f (s.cl g) := cl_setCl_self _

theorem cl_updCl_of_ne (f : Cluster → Cluster) (hne : h ≠ g) : (s.updCl g f).cl h = s.cl h := cl_setCl_of_ne _ hne

@[simp] theorem cl_act (q k n : Nat) : (s.act q k n).cl h = s.cl h := by
  unfold State.act; split <;> rfl

@[simp] theorem mem_act (q k n : Nat) : (s.act q k n).mem = s.mem := by
  unfold State.act; split <;> rfl

@[simp] theorem upset_act (q k n : Nat) : (s.act q k n).upset = s.upset := by
  unfold State.act; split <;> rfl

/-- s0 reads as zero. -/
@[simp] theorem sreg_zero : s.sreg g 0 = 0#64 := if_pos rfl

/-- The scalar registers of a cluster are among its parts. -/
theorem sreg_congr {u : State} (h : (u.cl g).sreg = (s.cl g).sreg) (n : Nat) : u.sreg g n = s.sreg g n := by
  simp only [State.sreg, h]

/-- The key of a register of another cluster, or of another register, is another key. -/
theorem regCode_ne_of_inst {r r' : Reg} {i : Nat} (j : Nat) (hi : i < 2 ^ 20) (hg : g < 2 ^ 20) (hne : r = r' → i ≠ g)
    (j' : Nat) : regCode r i j ≠ regCode r' g j' := by
  by_cases hr : r = r'
  · have := hne hr
    subst hr
    unfold regCode
    omega
  · exact regCode_ne_of_reg hr i j g j'

end

/-! ### The frame of a scalar instruction -/

section
variable {s t u : State} {g : Nat} {rd : Nat}

theorem scalarFrame_refl : ScalarFrame s s g rd :=
  ⟨rfl, rfl, fun _ _ => rfl, rfl, rfl, rfl, rfl, fun _ _ => rfl, sreg_zero, rfl, rfl, rfl, fun _ _ _ _ _ _ => rfl⟩

theorem scalarFrame_trans (h : ScalarFrame s t g rd) (k : ScalarFrame t u g rd) : ScalarFrame s u g rd := by
  obtain ⟨hmem, hupset, hcl, hlb, hmq, hvq, hpm, hsreg, -, htables, hqueues, hcourse, hrd⟩ := h
  obtain ⟨kmem, kupset, kcl, klb, kmq, kvq, kpm, ksreg, kzero, ktables, kqueues, kcourse, krd⟩ := k
  exact ⟨kmem.trans hmem, kupset.trans hupset, fun n hn => (kcl n hn).trans (hcl n hn), klb.trans hlb, kmq.trans hmq,
    kvq.trans hvq, kpm.trans hpm, fun n hn => (ksreg n hn).trans (hsreg n hn), kzero, ktables.trans htables,
    kqueues.trans hqueues, kcourse.trans hcourse,
    fun r i j hi hj hne => (krd r i j hi hj hne).trans (hrd r i j hi hj hne)⟩

/-- Setting a field of the state or of the retire counter of the core stays within the frame. -/
theorem set_scalarFrame {f : Fld} (hf : f.reg = .ccState ∨ f.reg = .ccRetired) (hg : g < 2 ^ 20) (v j : Nat) :
    ScalarFrame s (s.set f v g j) g rd :=
  ⟨rfl, rfl, fun _ _ => rfl, rfl, rfl, rfl, rfl, fun _ _ => rfl, sreg_zero, rfl, rfl, rfl, fun _ _ j' hi _ hne =>
    rd_wr_of_ne _ _ _ _ _ _ _ _ (regCode_ne_of_inst j' hi hg (fun hr => hne (by rwa [hr])) j)⟩

/-- So does a change of the cluster that leaves its buffers, queues, program memory and other scalar registers alone. -/
theorem updCl_scalarFrame {f : Cluster → Cluster} (hlb : (f (s.cl g)).lb = (s.cl g).lb) (hmq : (f (s.cl g)).mq = (s.cl g).mq)
    (hvq : (f (s.cl g)).vq = (s.cl g).vq) (hpm : (f (s.cl g)).pm = (s.cl g).pm)
    (hsreg : ∀ n, n ≠ rd → Sparse.get 0#64 (f (s.cl g)).sreg n = Sparse.get 0#64 (s.cl g).sreg n) :
    ScalarFrame s (s.updCl g f) g rd := by
  refine ⟨rfl, rfl, fun h hne => cl_updCl_of_ne f hne, ?_, ?_, ?_, ?_, fun n hn => ?_, sreg_zero, rfl, rfl, rfl,
    fun _ _ _ _ _ _ => rfl⟩
  · rw [cl_updCl_self, hlb]
  · rw [cl_updCl_self, hmq]
  · rw [cl_updCl_self, hvq]
  · rw [cl_updCl_self, hpm]
  · rw [State.sreg, State.sreg, cl_updCl_self, hsreg n hn]

theorem setSreg_scalarFrame (v : Word) : ScalarFrame s (s.setSreg g rd v) g rd := by
  unfold State.setSreg
  split
  · exact scalarFrame_refl
  · exact updCl_scalarFrame rfl rfl rfl rfl fun n hn => get_put_of_ne _ _ _ _ hn

/-- An instruction that goes on inside program memory retires without a fault (R143). -/
theorem retire_of_onward {n : Nat} (hon : n % 8 = 0 ∧ n ≤ 0x3FFF8) :
    s.retire g n = ((((s.bumpWrap F.CC_RETIRED_COUNT 1 g).set F.CC_STATE_PC n g).set F.CC_STATE_REG_WAIT 0 g).set
      F.CC_STATE_SQ_WAIT 0 g).updCl g (fun c => { c with step := false, sqSince := none }) := if_pos hon

theorem retire_scalarFrame {n : Nat} (hon : n % 8 = 0 ∧ n ≤ 0x3FFF8) (hg : g < 2 ^ 20) :
    ScalarFrame s (s.retire g n) g rd := by
  rw [retire_of_onward hon]
  have hcount : ScalarFrame s (s.bumpWrap F.CC_RETIRED_COUNT 1 g) g rd := set_scalarFrame (.inr rfl) hg _ _
  have hset (t : State) (v : Nat) {f : Fld} (hf : f.reg = .ccState) : ScalarFrame t (t.set f v g) g rd :=
    set_scalarFrame (.inl hf) hg v 0
  exact scalarFrame_trans hcount (scalarFrame_trans (hset _ n rfl) (scalarFrame_trans (hset _ 0 rfl)
    (scalarFrame_trans (hset _ 0 rfl) (updCl_scalarFrame rfl rfl rfl rfl fun _ _ => rfl))))

end

end Sys2Proof.Proofs

/-! ## Scalar and control instructions (R138, R141, R143, R144, R147) -/

namespace Sys2Proof.Proofs
open Sys2Proof.Machine Sys2Proof.Laws Sys2Proof.Safety

section
variable {s : State} {g : Fin 1024}

/-- The word 0 is a legal NOP that waits for nothing. -/
theorem issues_nop (hop : bits (s.fetchWord g) 0 8 = 0) (hword : s.fetchWord g = 0) (hcan : s.canIssue g = true) :
    Issues s g (scalarOp g 0x00 (fun w => legalR w false false false 0 0) (fun _ => []) noFaults (fun s _ => s)) :=
  ⟨hcan, hop, by rw [hword]; rfl, rfl, rfl, fun _ => ⟨rfl, rfl⟩, rfl⟩

theorem sscaleOp_run {f : Fmt} {w : Nat} (hfmt : scaleFmt (rFn w % 16) = some f) :
    (sscaleOp g).run s w =
      (let r := scaleFrom f (rFn w / 16 % 2 == 1) (lowF32 (s.sreg g (rRa w))) (lowF32 (s.sreg g (rRb w)))
       (s.setSreg g (rRd w) (BitVec.ofNat 64 (r.1.scale + r.1.zp * 2 ^ 16))).ctxEvents g r.2) := by
  simp only [sscaleOp, scalarOp, hfmt]

/-- A WAIT that issues has found its operations completed. -/
theorem waitDone_of_issues (h : Issues s g (waitOp g)) : (s.cl g).waitDone (rImm (s.fetchWord g)) = true := by
  have hwait : (if (s.cl g).waitDone (rImm (s.fetchWord g)) then none else some s) = none := wait_of_issues h
  by_contra hdone
  rw [if_neg hdone] at hwait
  cases hwait

end

/-- Settles O17: each instruction that issues acts and retires, and a WAIT that does not wait is done. -/
theorem scalarRuns : Obligations.ScalarRuns := by
  unfold Obligations.ScalarRuns
  intro g s w ra rb
  have runs {t : TileOp} (h : Issues s g t) (ho : tileOps.contains t.op = true) :=
    congrArg (Host.Outcome.next (φ := Fault) (ρ := Refusal)) (issue_of_issues h ho)
  refine ⟨?nop, fun h => runs h rfl, fun h => runs h rfl, fun h => runs h rfl, fun h => runs h rfl, ?sscale,
    fun h => runs h rfl, fun h => runs h rfl, fun h => runs h rfl, fun h => ⟨waitDone_of_issues h, runs h rfl⟩⟩
  case nop =>
    exact fun hop hword hcan => runs (issues_nop hop hword hcan) rfl
  case sscale =>
    intro f h hfmt
    refine (runs h rfl).trans ?_
    rw [sscaleOp_run hfmt]
    rfl

section
variable {s t u : State} {g : Fin 1024} {rd n : Nat} {out : Out}

/-- An instruction whose effect stays within the frame and that retires inside program memory stays within it. -/
theorem scalarFrame_of_retire (hnext : out = .next u) (hout : out = .next (t.retire g n)) (hon : n % 8 = 0 ∧ n ≤ 0x3FFF8)
    (ht : ScalarFrame s t g rd) : ScalarFrame s u g rd := by
  cases hnext.symm.trans hout
  exact scalarFrame_trans ht (retire_scalarFrame hon (by omega))

end

/-- Settles O59: the effect of each instruction is a write of its destination or none, and retiring it touches only the
state and the retire counter of the core. -/
theorem scalarFrames : Obligations.ScalarFrames := by
  unfold Obligations.ScalarFrames
  intro g s u w onward
  obtain ⟨-, halu, halui, hlih, -, -, hbr, hjal, hjalr, hwait⟩ := scalarRuns g s
  refine ⟨?alu, ?alui, ?lih, ?br, ?jal, ?jalr, ?wait⟩
  case alu =>
    exact fun h hon hu => scalarFrame_of_retire hu (halu h) hon (setSreg_scalarFrame _)
  case alui =>
    exact fun h hon hu => scalarFrame_of_retire hu (halui h) hon (setSreg_scalarFrame _)
  case lih =>
    exact fun h hon hu => scalarFrame_of_retire hu (hlih h) hon (setSreg_scalarFrame _)
  case br =>
    intro h htaken hseq hu
    refine scalarFrame_of_retire hu (hbr h) ?_ scalarFrame_refl
    split
    · exact htaken
    · exact hseq
  case jal =>
    exact fun h hon hu => scalarFrame_of_retire hu (hjal h) hon (setSreg_scalarFrame _)
  case jalr =>
    exact fun h hon hu => scalarFrame_of_retire hu (hjalr h) hon (setSreg_scalarFrame _)
  case wait =>
    exact fun h hon hu => scalarFrame_of_retire hu (hwait h).2 hon scalarFrame_refl

end Sys2Proof.Proofs

/-! ## The integer operations as numbers (R143, Table 6.3) -/

namespace Sys2Proof.Proofs
open Sys2Proof.Machine

section
variable {a b : Word}

/-- Subtraction wraps. -/
theorem toNat_sub_emod : ((a - b).toNat : Int) = ((a.toNat : Int) - b.toNat) % 2 ^ 64 := by
  rw [BitVec.toNat_sub]
  omega

theorem toInt_ite_min : (if a.toInt ≤ b.toInt then a else b).toInt = min a.toInt b.toInt := by
  rw [apply_ite BitVec.toInt, min_def]

theorem toInt_ite_max : (if a.toInt ≤ b.toInt then b else a).toInt = max a.toInt b.toInt := by
  rw [apply_ite BitVec.toInt, max_def]

theorem toNat_ite_one (c : Prop) [Decidable c] : (if c then 1#64 else 0#64).toNat = if c then 1 else 0 :=
  apply_ite BitVec.toNat c 1#64 0#64

end

/-- Settles O18: each operation is the one of bit vectors, whose value the library gives. -/
theorem aluValues : Obligations.AluValues := by
  unfold Obligations.AluValues
  intro a b
  refine ⟨BitVec.toNat_add a b, toNat_sub_emod, BitVec.toNat_mul a b,
    fun i => ⟨BitVec.getLsbD_and, BitVec.getLsbD_or, BitVec.getLsbD_xor⟩, ?shl, ?shr, ?sar, toInt_ite_min, toInt_ite_max,
    toNat_ite_one _, toNat_ite_one _⟩
  case shl =>
    exact (BitVec.toNat_shiftLeft ..).trans (by rw [Nat.shiftLeft_eq])
  case shr =>
    exact (BitVec.toNat_ushiftRight ..).trans (Nat.shiftRight_eq_div_pow _ _)
  case sar =>
    exact (BitVec.toInt_sshiftRight ..).trans (Int.shiftRight_eq_div_pow _ _)

end Sys2Proof.Proofs

/-! ## Blocks of a table of F32 patterns (R150) -/

namespace Sys2Proof.Proofs
open Sys2Proof.Machine Sys2Proof.Laws

section
variable {V : Type}

/-- A part of a table that is chosen by key reads as the table at the keys chosen. -/
theorem get_filter_key (d : V) (c : Nat → Bool) (m : Sparse V) (k : Nat) :
    Sparse.get d (m.filter (fun p => c p.1)) k = if c k = true then Sparse.get d m k else d := by
  induction m with
  | nil => exact (ite_self d).symm
  | cons p m ih =>
    by_cases hc : c p.1 = true
    · have hkept : (p :: m).filter (fun p => c p.1) = p :: m.filter (fun p => c p.1) := List.filter_cons_of_pos hc
      rw [hkept, Sparse.get, Sparse.get, ih]
      split
      case isTrue hp => rw [if_pos (hp ▸ hc)]
      case isFalse => rfl
    · have hdropped : (p :: m).filter (fun p => c p.1) = m.filter (fun p => c p.1) := List.filter_cons_of_neg hc
      rw [hdropped, ih, Sparse.get]
      by_cases hp : p.1 = k
      · subst hp
        rw [if_neg hc, if_neg hc]
      · rw [if_neg hp]

/-- What the first of two tables does not list is looked up in the second. -/
theorem get_append (d : V) (m m' : Sparse V) (k : Nat) :
    Sparse.get d (m ++ m') k = Sparse.get (Sparse.get d m' k) m k := by
  induction m with
  | nil => rfl
  | cons p m ih => rw [List.cons_append, Sparse.get, Sparse.get, ih]

end

/-- A key that no entry has reads as the default. -/
theorem get_of_not_listed {V : Type} {d : V} {m : Sparse V} {k : Nat} (h : ∀ p ∈ m, p.1 ≠ k) : Sparse.get d m k = d := by
  induction m with
  | nil => rfl
  | cons p m ih =>
    obtain ⟨hp, hm⟩ := List.forall_mem_cons.1 h
    rw [Sparse.get, if_neg hp, ih hm]

section
variable {m : Sparse F32} {t : Nat} {vs : List F32}

theorem blockVals_eq_map (m : Sparse F32) (t : Nat) :
    blockVals m t = (List.range 1024).map (fun e => Sparse.get 0#32 m (t * 1024 + e)) := by
  refine List.map_congr_left fun e he => ?_
  have hkey : ((t * 1024 + e) / 1024 == t) = true := by
    rw [List.mem_range] at he
    simp only [beq_iff_eq]
    omega
  exact (get_filter_key 0#32 (fun k => k / 1024 == t) m _).trans (if_pos hkey)

theorem getD_blockVals {e : Nat} (he : e < 1024) : (blockVals m t).getD e 0#32 = Sparse.get 0#32 m (t * 1024 + e) := by
  rw [blockVals_eq_map, List.getD_eq_getElem?_getD, List.getElem?_map, List.getElem?_range he]
  rfl

theorem length_blockVals : (blockVals m t).length = 1024 := by
  rw [blockVals_eq_map, List.length_map, List.length_range]

/-- The entries that a list of values becomes, from place `n` of a block at `b` on; zeros are not listed. -/
def listed (b n : Nat) (vs : List F32) : Sparse F32 :=
  (vs.zipIdx n).filterMap (fun p => if p.1 = 0#32 then none else some (b + p.2, p.1))

/-- A zero that is not listed reads as the default, a place outside the list too. -/
theorem get_listed (b n k : Nat) (vs : List F32) :
    Sparse.get 0#32 (listed b n vs) k = if b + n ≤ k then vs.getD (k - (b + n)) 0#32 else 0#32 := by
  induction vs generalizing n with
  | nil => simp [listed, Sparse.get]
  | cons v vs ih =>
    have hcons : Sparse.get 0#32 (listed b n (v :: vs)) k =
        if b + n = k then v else Sparse.get 0#32 (listed b (n + 1) vs) k := by
      by_cases hv : v = 0#32
      · have hskip : listed b n (v :: vs) = listed b (n + 1) vs := by simp [listed, List.zipIdx_cons, hv]
        rw [hskip, hv]
        split
        case isTrue => rw [ih, if_neg (by omega)]
        case isFalse => rfl
      · have hlist : listed b n (v :: vs) = (b + n, v) :: listed b (n + 1) vs := by simp [listed, List.zipIdx_cons, hv]
        rw [hlist, Sparse.get]
    rw [hcons, ih]
    by_cases hk : b + n = k
    · subst hk
      simp
    · rw [if_neg hk]
      by_cases hle : b + n ≤ k
      · obtain ⟨j, rfl⟩ := Nat.exists_eq_add_of_lt (lt_of_le_of_ne hle hk)
        rw [if_pos (by omega), if_pos hle, show b + n + j + 1 - (b + n) = j + 1 by omega,
          show b + n + j + 1 - (b + (n + 1)) = j by omega, List.getD_cons_succ]
      · rw [if_neg (by omega), if_neg hle]

theorem mem_listed {b n : Nat} {p : Nat × F32} (hp : p ∈ listed b n vs) : b + n ≤ p.1 ∧ p.1 < b + n + vs.length := by
  obtain ⟨q, hq, hsome⟩ := List.mem_filterMap.1 hp
  obtain ⟨hlow, hhigh, -⟩ := List.mem_zipIdx hq
  split at hsome
  · cases hsome
  · cases hsome
    dsimp only
    omega

/-- A replaced block reads as its new values, every other block as before. -/
theorem get_putBlock (hlen : vs.length = 1024) (k : Nat) :
    Sparse.get 0#32 (putBlock m t vs) k =
      if k / 1024 = t then vs.getD (k % 1024) 0#32 else Sparse.get 0#32 m k := by
  have hput : putBlock m t vs = m.filter (fun p => decide (p.1 < t * 1024)) ++ listed (t * 1024) 0 vs ++
      m.filter (fun p => decide ((t + 1) * 1024 ≤ p.1)) := by
    rw [putBlock, List.take_of_length_le hlen.le]
    rfl
  have hbelow (d : F32) := get_filter_key d (fun k => decide (k < t * 1024)) m k
  have habove := get_filter_key 0#32 (fun k => decide ((t + 1) * 1024 ≤ k)) m k
  have houtside (d : F32) (hk : k < t * 1024 ∨ (t + 1) * 1024 ≤ k) : Sparse.get d (listed (t * 1024) 0 vs) k = d :=
    get_of_not_listed fun p hp => by have := mem_listed hp; omega
  simp only [decide_eq_true_eq] at hbelow habove
  rw [hput, get_append, get_append, hbelow, habove]
  rcases lt_or_ge k (t * 1024) with hlow | hlow
  · rw [if_pos hlow, if_neg (show ¬ (t + 1) * 1024 ≤ k by omega), houtside _ (.inl hlow),
      if_neg (show ¬ k / 1024 = t by omega)]
  · rw [if_neg hlow.not_gt]
    rcases lt_or_ge k ((t + 1) * 1024) with hhigh | hhigh
    · have hplace : k - t * 1024 = k % 1024 := by omega
      rw [if_neg hhigh.not_ge, get_listed, Nat.add_zero, if_pos hlow, hplace, if_pos (by omega)]
    · rw [if_pos hhigh, houtside _ (.inr hhigh), if_neg (show ¬ k / 1024 = t by omega)]

theorem blockVals_putBlock_of_ne (hlen : vs.length = 1024) {k : Nat} (hk : k ≠ t) :
    blockVals (putBlock m t vs) k = blockVals m k := by
  rw [blockVals_eq_map, blockVals_eq_map]
  refine List.map_congr_left fun e he => ?_
  rw [List.mem_range] at he
  rw [get_putBlock hlen, if_neg (by omega)]

theorem getD_blockVals_putBlock_self (hlen : vs.length = 1024) {e : Nat} (he : e < 1024) :
    (blockVals (putBlock m t vs) t).getD e 0#32 = vs.getD e 0#32 := by
  rw [getD_blockVals he, get_putBlock hlen, if_pos (by omega), show (t * 1024 + e) % 1024 = e by omega]

end

end Sys2Proof.Proofs

/-! ## Results of vector instructions (R150, R151) -/

namespace Sys2Proof.Proofs
open Sys2Proof.Machine Sys2Proof.Laws

section
variable {α : Type}

theorem length_foldl_set (es : List Nat) (v : Nat → α) (l : List α) :
    (es.foldl (fun l e => l.set e (v e)) l).length = l.length :=
  List.foldlRecOn (motive := fun l' : List α => l'.length = l.length) es _ rfl fun _ h _ _ => by rw [List.length_set, h]

/-- Places that take values one after the other hold them, the others what they held. -/
theorem getD_foldl_set (es : List Nat) (v : Nat → α) (l : List α) {e : Nat} (he : e < l.length) (d : α) :
    (es.foldl (fun l e => l.set e (v e)) l).getD e d = if e ∈ es then v e else l.getD e d := by
  induction es generalizing l with
  | nil => rfl
  | cons a es ih =>
    rw [List.foldl_cons, ih _ (by rwa [List.length_set])]
    by_cases hmem : e ∈ es
    · rw [if_pos hmem, if_pos (List.mem_cons_of_mem _ hmem)]
    · rw [if_neg hmem]
      by_cases hea : e = a
      · subst hea
        simp [he]
      · simp [hmem, hea, List.getElem?_set_ne (Ne.symm hea)]

end

theorem mem_setElems {m e : Nat} (he : e < 1024) : e ∈ setElems m ↔ m.testBit e = true := by
  simp [setElems, he]

/-- The numbers below `n` of the set `m` of which `c` holds, as a set: the sum of their powers of two. -/
def pickedBits (c : Nat → Prop) [DecidablePred c] (m n : Nat) : Nat :=
  ((List.range n).filter (fun e => m.testBit e)).foldl (fun b e => if c e then b + 2 ^ e else b) 0

section
variable {c : Nat → Prop} [DecidablePred c] {m : Nat}

theorem pickedBits_succ (n : Nat) : pickedBits c m (n + 1) =
    if m.testBit n = true ∧ c n then pickedBits c m n + 2 ^ n else pickedBits c m n := by
  rw [pickedBits, List.range_succ, List.filter_append, List.foldl_append, ← pickedBits]
  by_cases hm : m.testBit n = true <;> simp [hm]

theorem pickedBits_lt (n : Nat) : pickedBits c m n < 2 ^ n := by
  induction n with
  | zero => exact Nat.one_pos
  | succ n ih =>
    rw [pickedBits_succ, Nat.pow_succ]
    split <;> omega

theorem testBit_pickedBits (n e : Nat) : (pickedBits c m n).testBit e = true ↔ e < n ∧ m.testBit e = true ∧ c e := by
  induction n with
  | zero => simp [pickedBits]
  | succ n ih =>
    rw [pickedBits_succ]
    rcases lt_trichotomy e n with he | rfl | he
    · have hsum : (pickedBits c m n + 2 ^ n).testBit e = (pickedBits c m n).testBit e := by
        rw [Nat.add_comm, Nat.testBit_two_pow_add_gt he]
      rw [apply_ite (Nat.testBit · e), hsum, ite_self, ih]
      simp [he, he.le]
    · have hzero : (pickedBits c m e).testBit e = false := Nat.testBit_lt_two_pow (pickedBits_lt e)
      have hone : (pickedBits c m e + 2 ^ e).testBit e = true := by
        rw [Nat.add_comm, Nat.testBit_two_pow_add_eq, hzero, Bool.not_false]
      rw [apply_ite (Nat.testBit · e), hzero, hone]
      simp
    · have hlt : pickedBits c m (n + 1) < 2 ^ e := (pickedBits_lt _).trans_le (Nat.pow_le_pow_right (by decide) he)
      rw [← pickedBits_succ, Nat.testBit_lt_two_pow hlt]
      simp only [Bool.false_eq_true, false_iff]
      omega

end

/-- Sets without a common element are added without a carry. -/
theorem add_eq_or_of_disjoint {a b : Nat} (h : a &&& b = 0) : a + b = a ||| b := by
  have hlt : a + b < 2 ^ (a + b) := Nat.lt_two_pow_self
  have hand : BitVec.ofNat (a + b) a &&& BitVec.ofNat (a + b) b = 0#(a + b) := by
    rw [← BitVec.ofNat_and, h]
  have hsum := congrArg BitVec.toNat (BitVec.add_eq_or_of_and_eq_zero _ _ hand)
  rwa [← BitVec.ofNat_add, ← BitVec.ofNat_or, BitVec.toNat_ofNat, BitVec.toNat_ofNat, Nat.mod_eq_of_lt hlt,
    Nat.mod_eq_of_lt (Nat.or_lt_two_pow ((Nat.le_add_right a b).trans_lt hlt) ((Nat.le_add_left b a).trans_lt hlt))]
    at hsum

theorem sub_and_eq_ldiff (o m : Nat) : o - (o &&& m) = Nat.ldiff o m := by
  have hdisjoint : (o &&& m) &&& Nat.ldiff o m = 0 :=
    Nat.eq_of_testBit_eq fun i => by
      rw [Nat.testBit_and, Nat.testBit_and, Nat.testBit_ldiff, Nat.zero_testBit]
      cases o.testBit i <;> cases m.testBit i <;> rfl
  have hunion : (o &&& m) ||| Nat.ldiff o m = o :=
    Nat.eq_of_testBit_eq fun i => by
      rw [Nat.testBit_or, Nat.testBit_and, Nat.testBit_ldiff]
      cases o.testBit i <;> cases m.testBit i <;> rfl
  have hsum := add_eq_or_of_disjoint hdisjoint
  omega

/-- Of a set the elements of `m` are taken out, and elements of `m` are added. -/
theorem testBit_cut_add {o m p : Nat} (hp : ∀ e, p.testBit e = true → m.testBit e = true) (e : Nat) :
    (o - (o &&& m) + p).testBit e = if m.testBit e = true then p.testBit e else o.testBit e := by
  have hdisjoint : Nat.ldiff o m &&& p = 0 := by
    refine Nat.eq_of_testBit_eq fun i => ?_
    have := hp i
    cases hpi : p.testBit i <;> simp_all [Nat.testBit_ldiff]
  rw [sub_and_eq_ldiff, add_eq_or_of_disjoint hdisjoint, Nat.testBit_or, Nat.testBit_ldiff]
  have := hp e
  cases hpe : p.testBit e <;> cases hme : m.testBit e <;> simp_all

theorem setElems_foldl (c : Nat → Prop) [DecidablePred c] (m : Nat) :
    (setElems m).foldl (fun b e => if c e then b + 2 ^ e else b) 0 = pickedBits c m 1024 := rfl

section
variable {c : Cluster} {n m : Nat} {f : Nat → F32 × Evt}

theorem vecPut_vbuf : (c.vecPut n m f).vbuf =
    putBlock c.vbuf n ((setElems m).foldl (fun l e => l.set e (f e).1) (blockVals c.vbuf n)) := by
  simp only [Cluster.vecPut, List.foldl_map]

theorem vecPut_satb : (c.vecPut n m f).satb = Sparse.put 0 c.satb n
    (Sparse.get 0 c.satb n - (Sparse.get 0 c.satb n &&& m) + pickedBits (fun e => (f e).2 = some Ev.sat) m 1024) := by
  simp only [Cluster.vecPut, List.foldl_map, ← setElems_foldl]

theorem vecPut_nfb : (c.vecPut n m f).nfb = Sparse.put 0 c.nfb n
    (Sparse.get 0 c.nfb n - (Sparse.get 0 c.nfb n &&& m) + pickedBits (fun e => (f e).2 = some Ev.nonfin) m 1024) := by
  simp only [Cluster.vecPut, List.foldl_map, ← setElems_foldl]

/-- A set of status bits after results: those of the mask are replaced by the ones of the new results. -/
theorem testBit_replaced (o : Nat) (x : Ev) {e : Nat} (he : e < 1024) :
    (o - (o &&& m) + pickedBits (fun e => (f e).2 = some x) m 1024).testBit e =
      if m.testBit e = true then decide ((f e).2 = some x) else o.testBit e := by
  rw [testBit_cut_add fun i hi => ((testBit_pickedBits _ _).1 hi).2.1]
  split
  case isTrue hm =>
    rw [Bool.eq_iff_iff, testBit_pickedBits, decide_eq_true_eq]
    exact ⟨fun h => h.2.2, fun h => ⟨he, hm, h⟩⟩
  case isFalse => rfl

end

/-- Settles O25: results go through the block of their buffer, status bits through the set of theirs. -/
theorem vectorResults : Obligations.VectorResults := by
  unfold Obligations.VectorResults
  intro c n m f e hn he d
  have hlen : ((setElems m).foldl (fun l e => l.set e (f e).1) (blockVals c.vbuf n)).length = 1024 :=
    (length_foldl_set _ _ _).trans length_blockVals
  refine ⟨?values, ?satb, ?nfb, fun k hk => ⟨?buffers, ?satbs, ?nfbs⟩⟩
  case values =>
    rw [vecPut_vbuf, getD_blockVals_putBlock_self hlen he,
      getD_foldl_set _ _ _ (by rwa [length_blockVals]) _, if_congr (mem_setElems he) rfl rfl]
  case satb =>
    rw [vecPut_satb, get_put_self, testBit_replaced _ _ he]
  case nfb =>
    rw [vecPut_nfb, get_put_self, testBit_replaced _ _ he]
  case buffers =>
    rw [vecPut_vbuf, blockVals_putBlock_of_ne hlen hk]
  case satbs =>
    rw [vecPut_satb, get_put_of_ne _ _ _ _ hk]
  case nfbs =>
    rw [vecPut_nfb, get_put_of_ne _ _ _ _ hk]

end Sys2Proof.Proofs

/-! ## Faults of tile programs (R128, R141, R157) -/

namespace Sys2Proof.Proofs
open Sys2Proof.Machine Sys2Proof.Laws Sys2Proof.Safety

/-- The registers that show the fault of a core: its state, CC_FAULT and CC_FADDR. -/
abbrev FaultReg (r : Reg) : Prop := r = .ccState ∨ r = .ccFault ∨ r = .ccFaddr

/-- Between the states memory and what the core of cluster `g` shows of its fault are unchanged. -/
structure ShowsSame (g : Nat) (s u : State) : Prop where
  mem : u.mem = s.mem
  rd : ∀ r, FaultReg r → u.rd r g 0 = s.rd r g 0

section
variable {g : Nat} {s t u : State}

theorem ShowsSame.refl (s : State) : ShowsSame g s s := ⟨rfl, fun _ _ => rfl⟩

theorem ShowsSame.trans (h : ShowsSame g s t) (k : ShowsSame g t u) : ShowsSame g s u :=
  ⟨k.mem.trans h.mem, fun r hr => (k.rd r hr).trans (h.rd r hr)⟩

theorem ShowsSame.get (h : ShowsSame g s u) {f : Fld} (hf : FaultReg f.reg) : u.get f g 0 = s.get f g 0 :=
  congrArg (fget f.lo f.wid) (h.rd f.reg hf)

/-- An update that leaves memory and the register file alone. -/
theorem showsSame_of_eq (hmem : u.mem = s.mem) (hregs : u.regs = s.regs) : ShowsSame g s u :=
  ⟨hmem, fun r _ => by rw [State.rd, State.rd, hregs]⟩

theorem showsSame_of_onlySends (h : OnlySends s u) : ShowsSame g s u :=
  ⟨h.mem, fun r hr => h.rd r (by rintro rfl; simp [FaultReg] at hr) g 0⟩

theorem set_showsSame {f : Fld} (hf : ¬ FaultReg f.reg) (v i j : Nat) : ShowsSame g s (s.set f v i j) :=
  ⟨rfl, fun _ hr => rd_wr_of_ne _ _ _ _ _ _ _ _ (regCode_ne_of_reg (by rintro rfl; exact hf hr) _ _ _ _)⟩

/-- A field of another core. -/
theorem set_showsSame_of_ne {f : Fld} {i : Nat} (hi : i < 2 ^ 20) (hg : g < 2 ^ 20) (hne : i ≠ g) (v j : Nat) :
    ShowsSame g s (s.set f v i j) :=
  ⟨rfl, fun _ _ => rd_wr_of_ne _ _ _ _ _ _ _ _ (regCode_ne_of_inst 0 hg hi (fun _ => hne.symm) j)⟩

theorem bump_showsSame {f : Fld} (hf : ¬ FaultReg f.reg) (n i j : Nat) : ShowsSame g s (s.bump f n i j) :=
  set_showsSame hf _ i j

/-- What holds of every step of a walk through a list holds of the walk. -/
theorem foldl_showsSame {α : Type} {f : State → α → State} (l : List α) (hf : ∀ u x, ShowsSame g u (f u x)) (s : State) :
    ShowsSame g s (l.foldl f s) :=
  List.foldlRecOn (motive := ShowsSame g s) l f (.refl s) fun u hu x _ => hu.trans (hf u x)

/-! ### Completion of commands -/

theorem noteDone_showsSame (x : Bool × Nat) : ShowsSame g s (s.noteDone x) := by
  unfold State.noteDone; split <;> exact showsSame_of_eq rfl rfl

theorem completeFull_showsSame (c : Cmd) (status detail result : Nat) (written : Bool) :
    ShowsSame g s (s.completeFull c status detail result written) := by
  unfold State.completeFull
  extract_lets s1 s2 s3 s4 s5 s6 flags d
  have h1 : ShowsSame g s s1 := by
    unfold s1; split
    · exact noteDone_showsSame _
    · exact .refl _
  have h2 : ShowsSame g s1 s2 := showsSame_of_eq rfl rfl
  have h3 : ShowsSame g s2 s3 := (set_showsSame (by decide) _ _ _).trans (set_showsSame (by decide) _ _ _)
  have h4 : ShowsSame g s3 s4 := bump_showsSame (by decide) _ _ _
  have h5 : ShowsSame g s4 s5 := by
    unfold s5; split
    · exact .refl _
    · exact (((bump_showsSame (by decide) _ _ _).trans (set_showsSame (by decide) _ _ _)).trans
        (set_showsSame (by decide) _ _ _)).trans (set_showsSame (by decide) _ _ _)
  have h6 : ShowsSame g s5 s6 := by
    unfold s6; split
    · exact set_showsSame (by decide) _ _ _
    · exact .refl _
  refine (h1.trans (h2.trans (h3.trans (h4.trans (h5.trans h6))))).trans ?_
  split
  · exact .refl _
  · exact showsSame_of_eq rfl rfl

theorem completeFull_clusters (c : Cmd) (status detail result : Nat) (written : Bool) :
    (s.completeFull c status detail result written).clusters = s.clusters := by
  have hdone (x : Bool × Nat) : (s.noteDone x).clusters = s.clusters := by
    unfold State.noteDone; split <;> rfl
  unfold State.completeFull
  extract_lets s1 s2 s3 s4 s5 s6 flags d
  have h1 : s1.clusters = s.clusters := by
    unfold s1; split
    · exact hdone _
    · rfl
  have h4 : s4.clusters = s1.clusters := by
    simp only [s4, s3, s2, bump_clusters, set_clusters, State.syncInflight, setInflight_clusters]
  have h5 : s5.clusters = s4.clusters := by
    unfold s5; split
    · rfl
    · simp only [bump_clusters, set_clusters]
  have h6 : s6.clusters = s5.clusters := by
    unfold s6; split
    · exact set_clusters ..
    · rfl
  have hall : s6.clusters = s.clusters := by rw [h6, h5, h4, h1]
  split <;> exact hall

/-- The command that launched the program fails, where it still waits. -/
theorem withWaiting_fail_showsSame (qs : Option (Nat × Nat)) (status detail : Nat) :
    ShowsSame g s (s.withWaiting qs (fun c s => s.fail c status detail)) := by
  unfold State.withWaiting
  split
  · exact .refl s
  · split
    · exact completeFull_showsSame ..
    · exact .refl s

theorem withWaiting_fail_clusters (qs : Option (Nat × Nat)) (status detail : Nat) :
    (s.withWaiting qs (fun c s => s.fail c status detail)).clusters = s.clusters := by
  unfold State.withWaiting
  split
  · rfl
  · split
    · exact completeFull_clusters ..
    · rfl

theorem setCl_showsSame (i : Nat) (c : Cluster) : ShowsSame g s (s.setCl i c) := showsSame_of_eq rfl rfl

theorem endFaulted_showsSame : ShowsSame g s (s.endFaulted g) := by
  unfold State.endFaulted
  split
  · exact .refl s
  · exact (setCl_showsSame g _).trans (withWaiting_fail_showsSame _ _ _)

theorem endFaulted_run : ((s.endFaulted g).cl g).run = (s.cl g).run := by
  unfold State.endFaulted
  split
  · rfl
  · rw [State.cl, withWaiting_fail_clusters, ← State.cl, cl_setCl_self]

theorem drainFaulted_showsSame : ShowsSame g s (s.drainFaulted g) := by
  unfold State.drainFaulted
  split
  · exact endFaulted_showsSame
  · exact .refl _

theorem drainFaulted_run : ((s.drainFaulted g).cl g).run = (s.cl g).run := by
  unfold State.drainFaulted
  split
  · exact endFaulted_run
  · rfl

/-! ### The abort of the course -/

/-- The core of another cluster stops. -/
theorem coreIdle_showsSame_of_ne {i : Nat} (hi : i < 2 ^ 20) (hg : g < 2 ^ 20) (hne : i ≠ g) :
    ShowsSame g s (s.coreIdle i) := by
  have hset (t : State) (f : Fld) : ShowsSame g t (t.set f 0 i 0) := set_showsSame_of_ne hi hg hne 0 0
  unfold State.coreIdle
  extract_lets s1 c
  have h1 : ShowsSame g s s1 := (((hset _ _).trans (hset _ _)).trans (hset _ _)).trans (hset _ _)
  exact (h1.trans (hset s1 _)).trans (setCl_showsSame i _)

/-- Stopping the cores of a course leaves a core that runs no program as it is. -/
theorem stopCourseCore_showsSame {i : Nat} (hi : i < 2 ^ 20) (hg : g < 2 ^ 20) (hrun : (s.cl g).run = none) :
    ShowsSame g s (s.stopCourseCore i) ∧ ((s.stopCourseCore i).cl g).run = none := by
  unfold State.stopCourseCore
  extract_lets c bound s1
  have h1 : ShowsSame g s s1 := showsSame_of_eq rfl rfl
  by_cases hig : i = g
  · subst hig
    have hc : c.run = none := hrun
    have hrun1 : (s1.cl i).run = none := by
      rw [cl_setCl_self]
      exact hrun
    simp only [hc]
    exact ⟨h1, hrun1⟩
  · have hrun1 : (s1.cl g).run = none := by
      rw [cl_setCl_of_ne _ (Ne.symm hig)]
      exact hrun
    have hidle : ((s1.coreIdle i).cl g).run = none := by
      rw [State.coreIdle, cl_setCl_of_ne _ (Ne.symm hig)]
      exact hrun1
    split
    · split
      · exact ⟨h1.trans (coreIdle_showsSame_of_ne hi hg hig), hidle⟩
      · exact ⟨h1, hrun1⟩
    · exact ⟨h1, hrun1⟩

theorem stopCores_showsSame {l : List Nat} (hl : ∀ i ∈ l, i < 2 ^ 20) (hg : g < 2 ^ 20) (hrun : (s.cl g).run = none) :
    ShowsSame g s (l.foldl (fun s i => s.stopCourseCore i) s) :=
  (List.foldlRecOn (motive := fun u => ShowsSame g s u ∧ (u.cl g).run = none) l _ ⟨.refl s, hrun⟩ fun u hu i hi => by
    obtain ⟨hstep, hnone⟩ := stopCourseCore_showsSame (hl i hi) hg hu.2
    exact ⟨hu.1.trans hstep, hnone⟩).1

theorem completeBound_showsSame (status detail : Nat) : ShowsSame g s (s.completeBound status detail) :=
  foldl_showsSame _ (fun _ _ => completeFull_showsSame ..) s

theorem haltRelease_showsSame : ShowsSame g s s.haltRelease ∧ s.haltRelease.clusters = s.clusters := by
  unfold State.haltRelease
  split
  · exact ⟨.refl _, rfl⟩
  · exact ⟨showsSame_of_eq rfl rfl, rfl⟩

theorem abortHere_showsSame (hg : g < 2 ^ 20) (hrun : (s.cl g).run = none) (why : Nat) :
    ShowsSame g s (s.abortHere why) := by
  unfold State.abortHere
  split
  case isFalse => exact .refl s
  case isTrue =>
    extract_lets s1 s2 s3 s4 s5
    have h1 : ShowsSame g s s1 := showsSame_of_eq rfl rfl
    have h2 : ShowsSame g s1 s2 ∧ s2.clusters = s1.clusters := by
      unfold s2
      split
      · exact haltRelease_showsSame
      · exact ⟨.refl _, rfl⟩
    have h3 : ShowsSame g s2 s3 := set_showsSame (by decide) _ _ _
    have hrun3 : (s3.cl g).run = none := by
      rw [cl_set, State.cl, h2.2]
      exact hrun
    have hkeys : ∀ i ∈ s3.clusterKeys, i < 2 ^ 20 := fun i hi => by
      have : i < 1024 := of_decide_eq_true (List.mem_filter.1 hi).2
      omega
    have h4 : ShowsSame g s3 s4 := stopCores_showsSame hkeys hg hrun3
    have h5 : ShowsSame g s4 s5 := by
      unfold s5
      split <;> exact completeBound_showsSame ..
    exact (h1.trans (h2.1.trans (h3.trans (h4.trans h5)))).trans (showsSame_of_eq rfl rfl)

theorem pickPort_showsSame (d op addr : Nat) : ShowsSame g s (s.pickPort d op addr).2 := by
  unfold State.pickPort
  extract_lets ps l
  split
  · exact .refl s
  · split
    · exact .refl s
    · split
      · exact .refl s
      · exact showsSame_of_eq rfl rfl

theorem request_showsSame (q dev op addr len : Nat) (payload : List Byte) (owner : FabOwner) (plan : Nat) (wad : Bool) :
    ShowsSame g s (s.request q dev op addr len payload owner plan wad).2 := by
  unfold State.request
  extract_lets p port s1 r r' s2
  split
  · exact set_showsSame (by decide) _ _ _
  · have h2 : ShowsSame g s s2 := (pickPort_showsSame dev op addr).trans (showsSame_of_eq rfl rfl)
    refine h2.trans ?_
    dsimp only
    split
    · exact .refl _
    · exact showsSame_of_onlySends (emit_onlySends r')

theorem tellAll_showsSame (msg : Nat) (extra : List Byte) : ShowsSame g s (s.tellAll msg extra) := by
  unfold State.tellAll
  split
  · exact .refl s
  · refine foldl_showsSame _ (fun u d => ?_) s
    split
    · exact .refl u
    · exact request_showsSame ..

theorem abortCourse_showsSame (hg : g < 2 ^ 20) (hrun : (s.cl g).run = none) (why : Nat) :
    ShowsSame g s (s.abortCourse why) := by
  unfold State.abortCourse
  split
  · exact (abortHere_showsSame hg hrun why).trans (tellAll_showsSame _ _)
  · exact .refl s

/-! ### The fault itself -/

/-- A core that leaves its program writes its state register alone. -/
theorem coreIdle_rd {r : Reg} (hr : r ≠ .ccState) (i j : Nat) : (s.coreIdle g).rd r i j = s.rd r i j := by
  have hset (t : State) (f : Fld) (hf : f.reg = .ccState) : (t.set f 0 g 0).rd r i j = t.rd r i j :=
    rd_wr_of_ne _ _ _ _ _ _ _ _ (regCode_ne_of_reg (by rwa [hf]) _ _ _ _)
  rw [State.coreIdle, setCl_rd, hset _ _ rfl, hset _ _ rfl, hset _ _ rfl, hset _ _ rfl, hset _ _ rfl]

theorem coreIdle_mem : (s.coreIdle g).mem = s.mem := by
  simp only [State.coreIdle, setCl_mem, set_mem]

theorem coreIdle_run : ((s.coreIdle g).cl g).run = none := by
  rw [State.coreIdle, cl_setCl_self]

/-- CC_FAULT and CC_FADDR take a fault at the PC. -/
def faultNoted (s : State) (g code addr : Nat) : State :=
  (((s.set F.CC_FAULT_CODE code g).set F.CC_FAULT_VALID 1 g).set F.CC_FAULT_PC (s.get F.CC_STATE_PC g) g).wr .ccFaddr g 0
    (BitVec.ofNat 64 addr)

theorem faultNoted_code {code addr : Nat} (h : code < 2 ^ 8) : (faultNoted s g code addr).get F.CC_FAULT_CODE g = code := by
  rw [faultNoted, get_wr_of_ne _ _ _ _ _ _ _ _ (regCode_ne_of_reg (by decide) _ _ _ _),
    get_set_of_disjoint _ F.CC_FAULT_PC F.CC_FAULT_CODE _ _ _ rfl (by decide) (by decide),
    get_set_of_disjoint _ F.CC_FAULT_VALID F.CC_FAULT_CODE _ _ _ rfl (by decide) (by decide),
    get_set_self _ _ _ _ _ (by decide)]
  exact Nat.mod_eq_of_lt h

theorem faultNoted_pc {code addr : Nat} : (faultNoted s g code addr).get F.CC_FAULT_PC g = s.get F.CC_STATE_PC g := by
  rw [faultNoted, get_wr_of_ne _ _ _ _ _ _ _ _ (regCode_ne_of_reg (by decide) _ _ _ _), get_set_self _ _ _ _ _ (by decide)]
  exact Nat.mod_eq_of_lt (get_lt s F.CC_STATE_PC g 0)

/-- A fault stops its core, which shows it, whatever the abort of its course does elsewhere (R157). -/
theorem tileFault_shows (hg : g < 2 ^ 20) (code addr : Nat) :
    (s.tileFault g code addr).get F.CC_STATE_STATE g = 3 ∧ (s.tileFault g code addr).mem = s.mem ∧
      ∀ r, r = .ccFault ∨ r = .ccFaddr → (s.tileFault g code addr).rd r g 0 = (faultNoted s g code addr).rd r g 0 := by
  unfold State.tileFault
  extract_lets pc s1 run wad s2 c s3 s4
  have hrun3 : (s3.cl g).run = none := by
    rw [cl_setCl_self]
    exact coreIdle_run
  have hrun4 : (s4.cl g).run = none := by rw [cl_set, drainFaulted_run, hrun3]
  have hstate : s4.get F.CC_STATE_STATE g = 3 := get_set_self _ _ _ _ _ (by decide)
  have hmem : s4.mem = s.mem := by
    rw [set_mem, drainFaulted_showsSame.mem, setCl_mem, coreIdle_mem]
    rfl
  have hrd (r : Reg) (hr : r = .ccFault ∨ r = .ccFaddr) : s4.rd r g 0 = (faultNoted s g code addr).rd r g 0 := by
    have hne : r ≠ .ccState := by rcases hr with rfl | rfl <;> decide
    have hset : s4.rd r g 0 = (s3.drainFaulted g).rd r g 0 :=
      rd_wr_of_ne _ _ _ _ _ _ _ _ (regCode_ne_of_reg hne _ _ _ _)
    rw [hset, drainFaulted_showsSame.rd r (.inr hr), setCl_rd, coreIdle_rd hne]
    rfl
  have hend : ShowsSame g s4 (if wad = true then s4 else s4.abortCourse (if s4.chainOwes g = true then 5 else 4)) := by
    split
    · exact .refl s4
    · exact abortCourse_showsSame hg hrun4 _
  exact ⟨(hend.get (f := F.CC_STATE_STATE) (.inl rfl)).trans hstate, hend.mem.trans hmem,
    fun r hr => (hend.rd r (.inr hr)).trans (hrd r hr)⟩

/-- The status that a fault's rule names lies outside what the core shows (R120, R121, R130). -/
theorem raiseTile_eq (code addr : Nat) :
    ∃ t, s.raiseTile g code addr = t.tileFault g code addr ∧ ShowsSame g s t := by
  refine ⟨_, rfl, ?_⟩
  split
  · exact set_showsSame (by decide) _ _ _
  · split
    · exact set_showsSame (by decide) _ _ _
    · split
      · exact (set_showsSame (by decide) _ _ _).trans (bump_showsSame (by decide) _ _ _)
      · exact .refl s

theorem raiseTile_shows (hg : g < 2 ^ 20) {code addr : Nat} (hcode : code < 2 ^ 8) (haddr : addr < 2 ^ 64) :
    (s.raiseTile g code addr).get F.CC_STATE_STATE g = 3 ∧ (s.raiseTile g code addr).get F.CC_FAULT_CODE g = code ∧
      (s.raiseTile g code addr).get F.CC_FAULT_PC g = s.get F.CC_STATE_PC g ∧
      ((s.raiseTile g code addr).rd .ccFaddr g 0).toNat = addr ∧ (s.raiseTile g code addr).mem = s.mem := by
  obtain ⟨t, heq, hsame⟩ := raiseTile_eq (s := s) (g := g) code addr
  obtain ⟨hstate, hmem, hrd⟩ := tileFault_shows (s := t) hg code addr
  have hfield (f : Fld) (hf : f.reg = .ccFault) :
      (t.tileFault g code addr).get f g = (faultNoted t g code addr).get f g :=
    congrArg (fget f.lo f.wid) (hrd f.reg (.inl hf))
  rw [heq]
  refine ⟨hstate, (hfield _ rfl).trans (faultNoted_code hcode), ?_, ?_, hmem.trans hsame.mem⟩
  · rw [hfield _ rfl, faultNoted_pc]
    exact hsame.get (f := F.CC_STATE_PC) (.inl rfl)
  · rw [hrd _ (.inr rfl), faultNoted, rd_wr_self, BitVec.toNat_ofNat, Nat.mod_eq_of_lt haddr]

/-! ### Which fault an instruction raises -/

variable {op : TileOp}

theorem issue_of_reserved (hcan : s.canIssue g = true) (hop : tileOps.contains (bits (s.fetchWord g) 0 8) = false) :
    s.issue g op = s.raiseTile g 1 0 := by
  simp only [State.issue, hcan, hop, Bool.not_true, Bool.not_false, Bool.false_eq_true, if_false, if_true]

theorem issue_of_illegal (hcan : s.canIssue g = true) (hop : tileOps.contains (bits (s.fetchWord g) 0 8) = true)
    (heq : bits (s.fetchWord g) 0 8 = op.op) (hlegal : op.legal (s.fetchWord g) = false) :
    s.issue g op = s.raiseTile g 1 0 := by
  rw [heq] at hop
  simp only [State.issue, hcan, heq, hop, hlegal, bne_self_eq_false, Bool.not_true, Bool.not_false, Bool.false_eq_true,
    if_false, if_true]

end

/-- Settles O20: an instruction that faults does nothing but raise its fault, and neither the end of its launch nor the
abort of its course touches memory or what its core shows. -/
theorem tileFaults : Obligations.TileFaults := by
  unfold Obligations.TileFaults
  intro g s t hcan w
  refine ⟨issue_of_reserved hcan, fun hop heq => ⟨issue_of_illegal hcan hop heq, ?fault⟩, ?shown⟩
  case fault =>
    intro hlegal hregs hwait hpart f hleast
    exact issue_of_fault hcan heq (heq ▸ hop) hlegal hregs hwait hpart hleast
  case shown =>
    exact fun code addr _ hcode haddr => raiseTile_shows (by omega) (by omega) haddr

end Sys2Proof.Proofs

/-! ## Bytes of tables and lines (R5, R243, R244) -/

namespace Sys2Proof.Proofs
open Sys2Proof.Machine Sys2Proof.Laws

section
variable {m : Sparse Byte} {bs : List Byte}

theorem getD_tableBytes (m : Sparse Byte) (a : Nat) {i n : Nat} (hi : i < n) :
    (tableBytes m a n).getD i 0#8 = Sparse.get 0#8 m (a + i) := by
  induction n generalizing a i with
  | zero => omega
  | succ n ih =>
    cases i with
    | zero => rfl
    | succ i => rw [tableBytes, List.getD_cons_succ, ih _ (by omega), show a + 1 + i = a + (i + 1) by omega]

/-- A byte table after a write, byte by byte. -/
theorem get_tablePut (m : Sparse Byte) (a : Nat) (bs : List Byte) (x : Nat) :
    Sparse.get 0#8 (tablePut m a bs) x =
      if a ≤ x ∧ x < a + bs.length then bs.getD (x - a) 0#8 else Sparse.get 0#8 m x := by
  split
  case isTrue hx =>
    obtain ⟨hlow, hhigh⟩ := hx
    have hread := getD_tableBytes (tablePut m a bs) a (show x - a < bs.length by omega)
    rw [tableBytes_tablePut, Nat.add_sub_cancel' hlow] at hread
    exact hread.symm
  case isFalse hx =>
    exact get_tablePut_outside m a x bs (by omega)

/-- A byte string with bytes replaced, byte by byte. -/
theorem getD_patch {l : List Byte} {o : Nat} (h : o + bs.length ≤ l.length) (i : Nat) :
    (patch l o bs).getD i 0#8 = if o ≤ i ∧ i < o + bs.length then bs.getD (i - o) 0#8 else l.getD i 0#8 := by
  have htake : (l.take o).length = o := List.length_take_of_le (by omega)
  rw [patch, List.append_assoc]
  rcases lt_or_ge i o with hlow | hlow
  · rw [List.getD_append _ _ _ _ (by omega), if_neg (by omega), List.getD_eq_getElem?_getD, List.getElem?_take_of_lt hlow,
      ← List.getD_eq_getElem?_getD]
  · rw [List.getD_append_right _ _ _ _ (by omega), htake]
    rcases lt_or_ge i (o + bs.length) with hhigh | hhigh
    · rw [List.getD_append _ _ _ _ (by omega), if_pos ⟨hlow, hhigh⟩]
    · rw [List.getD_append_right _ _ _ _ (by omega), if_neg (by omega), List.getD_eq_getElem?_getD, List.getElem?_drop,
        show o + bs.length + (i - o - bs.length) = i by omega, ← List.getD_eq_getElem?_getD]

/-- Bytes replaced within a string that was read from a table, and the string written back: the table with just those
bytes written. -/
theorem get_tablePut_patch (m : Sparse Byte) (a : Nat) {o n : Nat} (h : o + bs.length ≤ n) (x : Nat) :
    Sparse.get 0#8 (tablePut m a (patch (tableBytes m a n) o bs)) x = Sparse.get 0#8 (tablePut m (a + o) bs) x := by
  have hread : (tableBytes m a n).length = n := length_tableBytes ..
  have hlen : (patch (tableBytes m a n) o bs).length = n := by
    simp only [patch, List.length_append, List.length_take, List.length_drop, hread]
    omega
  rw [get_tablePut, get_tablePut, hlen]
  by_cases hline : a ≤ x ∧ x < a + n
  · have hold : (tableBytes m a n).getD (x - a) 0#8 = Sparse.get 0#8 m x := by
      rw [getD_tableBytes _ _ (by omega), Nat.add_sub_cancel' hline.1]
    rw [if_pos hline, getD_patch (by omega), hold, Nat.sub_sub]
    exact if_congr (by omega) rfl rfl
  · rw [if_neg hline, if_neg (by omega)]

theorem leBytes_ofLe (bs : List Byte) : leBytes bs.length (ofLe bs) = bs := by
  induction bs with
  | nil => rfl
  | cons b bs ih =>
    have hlow : BitVec.ofNat 8 (b.toNat + 256 * ofLe bs) = b :=
      BitVec.eq_of_toNat_eq (by rw [BitVec.toNat_ofNat]; omega)
    have hrest : (b.toNat + 256 * ofLe bs) / 256 = ofLe bs := by omega
    rw [List.length_cons, ofLe, leBytes, hlow, hrest, ih]

/-- A codeword without wrong symbols reads as it was written. -/
theorem xorLine_zero (h : bs.length = 64) : xorLine bs 0 = bs := by
  rw [xorLine, Nat.zero_mod, Nat.xor_zero, ← h, leBytes_ofLe]

end

/-! ### A write within one line of a memory without wrong symbols -/

section
variable {s : State} {bs : List Byte}

/-- A line without wrong symbols is read as it stands, and the read changes nothing. -/
theorem readLine_of_clean (h : s.upset = []) (who : Req) (ln : Nat) :
    s.readLine who ln = ⟨s.raw (ln * 64) 64, false, s⟩ := by
  unfold State.readLine
  rw [h]
  exact congrArg (LineRead.mk · false s) (xorLine_zero (length_tableBytes ..))

/-- The update of a region's digest touches registers alone. -/
theorem digestWrite_parts (ln : Nat) (old new : List Byte) :
    (s.digestWrite ln old new).mem = s.mem ∧ (s.digestWrite ln old new).upset = s.upset ∧
      (s.digestWrite ln old new).clusters = s.clusters ∧ (s.digestWrite ln old new).tables = s.tables := by
  unfold State.digestWrite
  extract_lets r
  split <;> exact ⟨rfl, rfl, rfl, rfl⟩

/-- A partial write of a clean line: its bytes are written, and nothing of codewords, clusters or moves changes. -/
theorem writePartAt_parts (h : s.upset = []) {ln off : Nat} (hin : off + bs.length ≤ 64) :
    (∀ x, Sparse.get 0#8 (s.writePartAt ln off bs).mem x = Sparse.get 0#8 (tablePut s.mem (ln * 64 + off) bs) x) ∧
      (s.writePartAt ln off bs).upset = [] ∧ (s.writePartAt ln off bs).clusters = s.clusters ∧
      (s.writePartAt ln off bs).tables = s.tables := by
  have hwrite : s.writePartAt ln off bs = (s.storeLine ln (patch (s.raw (ln * 64) 64) off bs)).digestWrite ln
      (s.raw (ln * 64) 64) (patch (s.raw (ln * 64) 64) off bs) := by
    simp only [State.writePartAt, readLine_of_clean h, Bool.false_eq_true, if_false]
  obtain ⟨hmem, hupset, hclusters, htables⟩ := digestWrite_parts (s := s.storeLine ln (patch (s.raw (ln * 64) 64) off bs)) ln
    (s.raw (ln * 64) 64) (patch (s.raw (ln * 64) 64) off bs)
  rw [hwrite, hmem, hupset, hclusters, htables]
  refine ⟨get_tablePut_patch s.mem (ln * 64) hin, ?_, rfl, rfl⟩
  change Sparse.put 0 s.upset ln 0 = []
  rw [h]
  rfl

/-- With no move under way nothing is forwarded or owed (R175, R177). -/
theorem forwardOut_noteDirty_of_no_moves (h : s.tables.moves = []) (ln off : Nat) :
    (s.forwardOut ln off bs).noteDirty ln = s := by
  have hforward : s.forwardOut ln off bs = s := by simp only [State.forwardOut, h, List.find?_nil]
  rw [hforward]
  simp [State.noteDirty, h]

/-- With no move under way a partial write of a clean line reaches that line and no other. -/
theorem writeLine_of_part (hclean : s.upset = []) (hmoves : s.tables.moves = []) {ln off : Nat} (hshort : bs.length < 64)
    (hin : off + bs.length ≤ 64) : s.writeLine ln off bs = s.writePartAt ln off bs := by
  have htargets : s.writeTargets ln = [ln] := by simp [State.writeTargets, hmoves]
  have hpart : s.writeIn ln off bs = s.writePartAt ln off bs := if_neg (by omega)
  obtain ⟨-, -, -, htables⟩ := writePartAt_parts hclean (ln := ln) hin
  rw [State.writeLine, htargets, List.foldl_cons, List.foldl_nil, hpart,
    forwardOut_noteDirty_of_no_moves (by rw [htables, hmoves])]

/-- Some bytes of one line are written in one step. -/
theorem writeMem_of_within {a : Nat} (hne : bs ≠ []) (hin : a % 64 + bs.length ≤ 64) :
    s.writeMem a bs = s.writeLine (a / 64) (a % 64) bs := by
  have htake : bs.take (64 - a % 64) = bs := List.take_of_length_le (by omega)
  have hdrop : bs.drop (64 - a % 64) = [] := List.drop_eq_nil_of_le (by omega)
  simp only [State.writeMem, writeLines, if_neg hne, htake, hdrop, if_true]

/-- A write of fewer bytes than a line, within one, changes those bytes and no other. -/
theorem writeMem_parts {a : Nat} (hclean : s.upset = []) (hmoves : s.tables.moves = []) (hne : bs ≠ [])
    (hshort : bs.length < 64) (hin : a % 64 + bs.length ≤ 64) :
    (∀ x, Sparse.get 0#8 (s.writeMem a bs).mem x = Sparse.get 0#8 (tablePut s.mem a bs) x) ∧
      (s.writeMem a bs).upset = [] ∧ (s.writeMem a bs).clusters = s.clusters := by
  obtain ⟨hmem, hupset, hclusters, -⟩ := writePartAt_parts hclean (ln := a / 64) hin
  rw [Nat.div_add_mod'] at hmem
  rw [writeMem_of_within hne hin, writeLine_of_part hclean hmoves hshort hin]
  exact ⟨hmem, hupset, hclusters⟩

end

end Sys2Proof.Proofs

/-! ## The frames of STL and STM (R138, R145) -/

namespace Sys2Proof.Proofs
open Sys2Proof.Machine Sys2Proof.Laws Sys2Proof.Safety

section
variable {s : State} {g : Nat}

/-- A range of memory lies below the die windows. -/
theorem locOf_of_memory {a : Nat} (h : a < 0x600_0000_0000) :
    (∃ i o, locOf a = .near i o) ∨ ∃ i o, locOf a = .bulk i o := by
  unfold locOf
  by_cases hnear : a < 0x200_0000_0000
  · exact .inl ⟨_, _, if_pos hnear⟩
  · exact .inr ⟨_, _, by rw [if_neg hnear, if_pos h]⟩

/-- A write of memory by a tile program that nothing refuses is done. -/
theorem busWrite_of_tile {a : Nat} {bs : List Byte} {wad : Bool} (hne : bs ≠ []) (hrange : s.memRange a bs.length = true)
    (hstop : s.writeStop (.tile g) wad a bs.length = none) :
    s.busWrite (.tile g) wad a bs = .done (s.writeMem a bs) := by
  have hlow : a < 0x600_0000_0000 := by
    have hle : a + bs.length ≤ 0x600_0000_0000 := of_decide_eq_true (Bool.and_eq_true_iff.1 hrange).1
    have := List.length_pos_iff.2 hne
    omega
  unfold State.busWrite
  rcases locOf_of_memory hlow with ⟨i, o, hloc⟩ | ⟨i, o, hloc⟩ <;>
    simp only [hloc, State.locWrite, hrange, hstop, if_true, State.actBus, State.noteWriter]

/-- An STM that issues has found its address aligned. -/
theorem aligned_of_issues_stm (h : Issues s g (stmOp g)) : s.effAddr g (s.fetchWord g) % 8 = 0 := by
  have hfaults : (if (s.memFaults g (s.fetchWord g)).isEmpty = true then
      s.storeFaults g (s.effAddr g (s.fetchWord g)) 8 else s.memFaults g (s.fetchWord g)) = [] := faults_of_issues h
  split at hfaults
  case isTrue hnone => exact (memFaults_eq_nil (List.isEmpty_iff.1 hnone)).1
  case isFalse hsome => exact absurd (List.isEmpty_iff.2 hfaults) hsome

/-- Retiring inside program memory leaves memory, its check codes, every other cluster, and the local buffer and scalar
registers of its own. -/
theorem retire_parts {n : Nat} (hon : n % 8 = 0 ∧ n ≤ 0x3FFF8) :
    (s.retire g n).mem = s.mem ∧ (s.retire g n).upset = s.upset ∧ (∀ h, h ≠ g → (s.retire g n).cl h = s.cl h) ∧
      ((s.retire g n).cl g).lb = (s.cl g).lb ∧ ∀ k, (s.retire g n).sreg g k = s.sreg g k := by
  rw [retire_of_onward hon]
  refine ⟨rfl, rfl, fun h hne => cl_updCl_of_ne _ hne, ?_, fun k => sreg_congr ?_ k⟩ <;> rw [cl_updCl_self] <;> rfl

end

/-- Settles O60: STL writes the table of its local buffer, STM a part of one line, and retiring touches neither. -/
theorem storeFrames : Obligations.StoreFrames := by
  unfold Obligations.StoreFrames
  intro g s u w a v hmod hle
  have hlen : v.length = 8 := length_leBytes 8 _
  have hne : v ≠ [] := List.ne_nil_of_length_eq_add_one hlen
  obtain ⟨-, hstl, -, -, hstm, -⟩ := tileMemoryRuns g s
  constructor
  case left =>
    intro h hu
    obtain ⟨-, -, hexec⟩ := hstl h
    have hrun : exec (.stl g) s = .next (((s.lbPut g a v).act (s.launchQueue g) 4 1).retire g (s.seqPc g)) := hexec
    obtain rfl := Host.Outcome.next.inj (hu.symm.trans hrun)
    obtain ⟨hmem, hupset, hother, hlb, hsreg⟩ :=
      retire_parts (s := (s.lbPut g a v).act (s.launchQueue g) 4 1) (g := g) ⟨hmod, hle⟩
    refine ⟨hmem.trans (mem_act ..), hupset.trans (upset_act ..), fun h hh => ?_, fun n => ?_, fun x => ?_⟩
    · rw [hother h hh, cl_act, State.lbPut, cl_updCl_of_ne _ hh]
    · exact (hsreg n).trans (sreg_congr (by rw [cl_act, State.lbPut, cl_updCl_self]) n)
    · rw [hlb, cl_act, State.lbPut, cl_updCl_self, get_tablePut, hlen]
  case right =>
    intro h hrange hstop hclean hmoves hu
    have haligned : a % 8 = 0 := aligned_of_issues_stm h
    have hbus : s.busWrite (.tile g) (s.isWadding g) a v = .done (s.writeMem a v) :=
      busWrite_of_tile hne (by rwa [hlen]) (by rwa [hlen])
    have hrun : exec (.stm g) s = .next (((s.writeMem a v).actMem (s.launchQueue g) a 8).retire g (s.seqPc g)) :=
      hstm _ h hbus
    obtain rfl := Host.Outcome.next.inj (hu.symm.trans hrun)
    obtain ⟨kmem, kupset, kclusters⟩ := writeMem_parts hclean hmoves hne (by omega) (by omega : a % 64 + v.length ≤ 64)
    obtain ⟨hmem, hupset, hother, hlb, hsreg⟩ :=
      retire_parts (s := (s.writeMem a v).actMem (s.launchQueue g) a 8) (g := g) ⟨hmod, hle⟩
    have kcl (h : Nat) : ((s.writeMem a v).actMem (s.launchQueue g) a 8).cl h = s.cl h := by
      rw [State.actMem, cl_act, State.cl, kclusters, State.cl]
    refine ⟨(hupset.trans (upset_act ..)).trans kupset, fun h hh => ?_, ?_, fun n => ?_, fun x => ?_⟩
    · rw [hother h hh, kcl]
    · rw [hlb, kcl]
    · exact (hsreg n).trans (sreg_congr (by rw [kcl]) n)
    · rw [hmem, State.actMem, mem_act, kmem, get_tablePut, hlen]

end Sys2Proof.Proofs

/-! ## The vector queue (R138, R150 to R155) -/

namespace Sys2Proof.Proofs
open Sys2Proof.Machine Sys2Proof.Laws Sys2Proof.Safety

section
variable {s : State} {g : Nat} {op : Nat}

theorem opcode_of_issues (h : Issues s g (vecTile g op)) : bits (s.fetchWord g) 0 8 = op := by
  obtain ⟨-, hop, -⟩ := h
  exact hop

/-- The entry that joins an idle engine starts with its effect. -/
theorem vecStart_of_idle (h : VecIdle s g) :
    ((vecJoined s g).vecStart g).syncEngines g =
      vecStarted ((vecJoined s g).vecRun g (vecEntry s g)) g (vecEntry s g) := by
  obtain ⟨hcourse, hempty, haudit, hpinned, htile⟩ := h
  have hqueue : ((vecJoined s g).cl g).vq = [vecEntry s g] := by
    rw [vecJoined, cl_updCl_self, hempty, List.nil_append]
  have hbit : (vecJoined s g).bit F.VEC_STATUS_AUDIT_PRIORITY g = false := by
    rw [vecJoined, updCl_bit, State.bit, haudit]
    rfl
  have hfresh : (vecEntry s g).started = false := rfl
  have hwadding : (vecEntry s g).wadding = false := hcourse
  cases hread : vtrdTile (vecEntry s g).word with
  | none =>
    simp only [State.vecStart, hqueue, hread, hfresh, hbit, hpinned, hwadding, Bool.not_true, Bool.or_self,
      Bool.false_eq_true, if_false, vecStarted]
  | some t =>
    have hclear : ((vecJoined s g).cl g).tileClear t (vecEntry s g).serial false = true := (htile t hread).2
    simp only [State.vecStart, hqueue, hread, hfresh, hbit, hpinned, hwadding, hclear, Bool.not_true, Bool.or_self,
      Bool.false_eq_true, if_false, vecStarted]

/-- An instruction but VCTX joins the queue with its operands and the conversion context (R152, R154). -/
theorem vecPush_of_op (hop : bits (s.fetchWord g) 0 8 ≠ 0x40) :
    s.vecPush g (s.fetchWord g) = ((vecJoined s g).vecStart g).syncEngines g := by
  have hf : (vecF (s.fetchWord g)).op ≠ 0x40 := hop
  simp only [State.vecPush, if_neg hf]
  rfl

/-- A vector instruction of an idle engine meets no conflict at the tile that it names. -/
theorem vecTile_run_of_idle (h : VecIdle s g) :
    (vecTile g op).run s (s.fetchWord g) = s.vecPush g (s.fetchWord g) := by
  obtain ⟨-, -, -, -, htile⟩ := h
  by_cases hop : bits (s.fetchWord g) 0 8 = 0x45
  · obtain ⟨hfree, -⟩ := htile (bits (s.fetchWord g) 46 5) (if_pos hop)
    have hwaits : s.tileWaits g (vecF (s.fetchWord g)).t false ((vecF (s.fetchWord g)).ss == 1) = s :=
      tileWaits_of_no_conflict hfree
    simp only [vecTile, hwaits, ite_self]
  · have hf : (vecF (s.fetchWord g)).op ≠ 0x45 := hop
    simp only [vecTile, if_neg hf]

/-- A vector instruction but VCTX that issues to an idle engine starts at once and retires. -/
theorem issue_of_vecIdle (hidle : VecIdle s g) (h : Issues s g (vecTile g op)) (ho : tileOps.contains op = true)
    (hne : op ≠ 0x40) : s.issue g (vecTile g op) =
      (vecStarted ((vecJoined s g).vecRun g (vecEntry s g)) g (vecEntry s g)).retire g (s.seqPc g) := by
  have hop : bits (s.fetchWord g) 0 8 ≠ 0x40 := by rwa [opcode_of_issues h]
  rw [issue_of_issues h ho, vecTile_run_of_idle hidle, vecPush_of_op hop, vecStart_of_idle hidle]
  rfl

/-! ### VCTX -/

/-- The conversion context that VCTX sets from its three registers (R152). -/
def vecContext (s : State) (g : Nat) : State :=
  s.updCl g (fun c => { c with ctxTid := (vecEntry s g).ra.toNat % 2 ^ 24, ctxBase := (vecEntry s g).rb.toNat % 2 ^ 40,
                               ctxPitch := (vecEntry s g).rs.toNat % 2 ^ 40 })

theorem vecContext_fetchWord : (vecContext s g).fetchWord g = s.fetchWord g := by
  rw [State.fetchWord, vecContext, cl_updCl_self]
  rfl

theorem vecPush_of_vctx (hop : bits (s.fetchWord g) 0 8 = 0x40) :
    s.vecPush g (s.fetchWord g) = ((vecJoined (vecContext s g) g).vecStart g).syncEngines g := by
  have hf : (vecF (s.fetchWord g)).op = 0x40 := hop
  simp only [State.vecPush, if_pos hf, vecJoined, vecEntry, vecContext_fetchWord]
  rfl

/-- VCTX reads no tile and writes no range, so with the context set the engine is as idle as before. -/
theorem vecIdle_vecContext (h : VecIdle s g) (hop : bits (s.fetchWord g) 0 8 = 0x40) : VecIdle (vecContext s g) g := by
  obtain ⟨hcourse, hempty, haudit, -, -⟩ := h
  have hword : bits ((vecContext s g).fetchWord g) 0 8 = 0x40 := by rw [vecContext_fetchWord, hop]
  refine ⟨hcourse, ?_, haudit, ?_, fun t ht => ?_⟩
  · rw [vecContext, cl_updCl_self]
    exact hempty
  · have hf : (vecF (vecEntry (vecContext s g) g).word).op = 0x40 := hword
    simp [State.vecPinned, hf]
  · rw [vtrdTile, if_neg (by rw [hword]; decide)] at ht
    cases ht

theorem issue_of_vctx (hidle : VecIdle s g) (h : Issues s g (vecTile g 0x40)) : s.issue g (vecTile g 0x40) =
    (vecStarted (vecJoined (vecContext s g) g) g (vecEntry (vecContext s g) g)).retire g (s.seqPc g) := by
  have hop := opcode_of_issues h
  have hword : bits (vecEntry (vecContext s g) g).word 0 8 = 0x40 := by rw [vecEntry, vecContext_fetchWord, hop]
  have heffect : (vecJoined (vecContext s g) g).vecRun g (vecEntry (vecContext s g) g) = vecJoined (vecContext s g) g := by
    simp only [State.vecRun, hword]
  rw [issue_of_issues h rfl, vecTile_run_of_idle hidle, vecPush_of_vctx hop,
    vecStart_of_idle (vecIdle_vecContext hidle hop), heffect]
  rfl

end

/-- Settles O23: an entry that joins an idle engine starts with the effect that its opcode names. -/
theorem vectorRuns : Obligations.VectorRuns := by
  unfold Obligations.VectorRuns
  intro g s hidle v j n
  have runs {op : Nat} {t : State} (h : Issues s g (vecTile g op)) (ho : tileOps.contains op = true) (hne : op ≠ 0x40)
      (ht : j.vecRun g v = t) :
      Host.Outcome.next (φ := Fault) (ρ := Refusal) (s.issue g (vecTile g op)) = .next ((vecStarted t g v).retire g n) := by
    rw [issue_of_vecIdle hidle h ho hne, ← ht]
  have opcode {op : Nat} (h : Issues s g (vecTile g op)) : bits v.word 0 8 = op := opcode_of_issues h
  refine ⟨?vld, ?vst, ?vgather, ?vscatter, ?vtrd, ?vbcast, ?vop, ?vfn, ?vcmp, ?vmsk, ?vhad, ?vrow, ?vscale, ?vsum, ?vctx⟩
  case vctx => exact fun h => congrArg Host.Outcome.next (issue_of_vctx hidle h)
  all_goals exact fun h => runs h rfl (by decide) (by simp only [State.vecRun, opcode h])

end Sys2Proof.Proofs

/-! ## Programs start and end (R51, R134 to R137) -/

namespace Sys2Proof.Proofs
open Sys2Proof.Machine Sys2Proof.Laws Sys2Proof.Safety

section
variable {s : State} {g : Fin 1024} {l : Launch}

/-- A free cluster takes its first course launch, and its first launch where no course launch waits. -/
theorem programStart_of_free (hrun : (s.cl g).run = none) (hidle : (s.cl g).enginesIdle = true) (hldm : (s.cl g).ldm = [])
    (hnext : (s.cl g).waiting.find? (fun l => !l.wadding) = some l ∨
      ((s.cl g).waiting.find? (fun l => !l.wadding) = none ∧ (s.cl g).waiting.head? = some l))
    (hargs : l.args = 0 ∨ s.rangeMapped l.args 48 = true) :
    exec (.programStart g) s = .next (s.startProgram g l) := by
  have hfree : ((s.cl g).run.isSome || !(s.cl g).enginesIdle || !(s.cl g).ldm.isEmpty) = false := by
    rw [hrun, hidle, hldm]
    rfl
  rcases hnext with hcourse | ⟨hnone, hhead⟩
  · simp only [exec, execProgramStart, hfree, hcourse, hargs, Bool.false_eq_true, if_false, if_true]
  · simp only [exec, execProgramStart, hfree, hnone, hhead, hargs, Bool.false_eq_true, if_false, if_true]

/-- A program past END completes once its engines are idle. -/
theorem programComplete_of_idle (hrun : (s.cl g).run = some l) (hending : (s.cl g).ending = true)
    (hidle : (s.cl g).enginesIdle = true) :
    exec (.programComplete g) s = .next ((s.launchDone l stSuccess 0).coreIdle g) := by
  simp only [exec, execProgramComplete, hrun, hending, hidle, Bool.and_self, if_true]

end

/-- Settles O26: each row is taken where its guard holds, and END acts and retires as it issues. -/
theorem programsRun : Obligations.ProgramsRun := by
  unfold Obligations.ProgramsRun
  intro g s
  refine ⟨fun l => programStart_of_free, fun h => ?finish, fun l => programComplete_of_idle⟩
  case finish =>
    exact congrArg Host.Outcome.next (issue_of_issues h rfl)

end Sys2Proof.Proofs

/-! ## The executing vector instruction leaves the engine (R154, R155) -/

namespace Sys2Proof.Proofs
open Sys2Proof.Machine Sys2Proof.Laws Sys2Proof.Safety

section
variable {s : State} {g : Fin 1024} {v : VecOp} {rest : List VecOp}

/-- The state in which the started instruction `v` leaves: one of a wadding program takes its effect first. -/
def vecEffected (s : State) (g : Nat) (v : VecOp) : State := if v.wadding = true then (s.vecRun g v).vecAct g v else s

theorem vectorOpComplete_of_started (hqueue : (s.cl g).vq = v :: rest) (hstarted : v.started = true)
    (hop : bits v.word 0 8 ≠ 0x50) : exec (.vectorOpComplete g) s =
      .next (((vecEffected s g v).updCl g (fun c => { c with vq := rest })).tileFreed g) := by
  simp only [exec, execVectorOpComplete, hqueue, hstarted, hop, if_true, if_false, vecEffected]

/-- VSUM writes its summary and counts its event before the next instruction may start. -/
theorem vectorOpComplete_of_sum (hqueue : (s.cl g).vq = v :: rest) (hstarted : v.started = true)
    (hop : bits v.word 0 8 = 0x50) :
    let e := vecEffected s g v
    let r := (e.cl g).summary e.ieee (vecF v.word)
    exec (.vectorOpComplete g) s = .next (((((e.updCl g (fun c => { c with vq := rest })).setSreg g (vecF v.word).rs
      r.1).vecEvents g v (EvCount.zero.add r.2)).tileFreed g)) := by
  simp only [exec, execVectorOpComplete, hqueue, hstarted, hop, if_true, vecEffected]

end

/-- Settles O24: the head of the queue is started, and its opcode says whether a summary is written. -/
theorem vectorCompletes : Obligations.VectorCompletes := by
  unfold Obligations.VectorCompletes
  exact fun g s v rest hqueue hstarted =>
    ⟨vectorOpComplete_of_started hqueue hstarted, vectorOpComplete_of_sum hqueue hstarted⟩

end Sys2Proof.Proofs

/-! ## Locked ranges and the table directory (R52, R164, R183, R184) -/

namespace Sys2Proof.Proofs
open Sys2Proof.Machine Sys2Proof.Laws

/-- Between the states events were recorded: only the gutter and registers differ. -/
def OnlyRecords (s u : State) : Prop := ∃ gut regs, u = { s with gut := gut, regs := regs }

section
variable {s t u : State}

theorem OnlyRecords.refl (s : State) : OnlyRecords s s := ⟨_, _, rfl⟩

theorem OnlyRecords.trans (h : OnlyRecords s t) (k : OnlyRecords t u) : OnlyRecords s u := by
  obtain ⟨_, _, rfl⟩ := h
  obtain ⟨_, _, rfl⟩ := k
  exact ⟨_, _, rfl⟩

theorem OnlyRecords.mem (h : OnlyRecords s u) : u.mem = s.mem := by
  obtain ⟨_, _, rfl⟩ := h
  rfl

theorem OnlyRecords.upset (h : OnlyRecords s u) : u.upset = s.upset := by
  obtain ⟨_, _, rfl⟩ := h
  rfl

theorem OnlyRecords.tables (h : OnlyRecords s u) : u.tables = s.tables := by
  obtain ⟨_, _, rfl⟩ := h
  rfl

theorem set_onlyRecords (s : State) (f : Fld) (v i j : Nat) : OnlyRecords s (s.set f v i j) := ⟨_, _, rfl⟩

theorem bump_onlyRecords (s : State) (f : Fld) (n i j : Nat) : OnlyRecords s (s.bump f n i j) := ⟨_, _, rfl⟩

theorem setSlice_onlyRecords (s : State) (die : Nat) (x : Slice) : OnlyRecords s (s.setSlice die x) := ⟨_, _, rfl⟩

theorem gutDropped_onlyRecords (s : State) (die c : Nat) : OnlyRecords s (s.gutDropped die c) := by
  unfold State.gutDropped
  extract_lets s1 s2 x
  have h1 : OnlyRecords s s1 := (bump_onlyRecords s _ 1 die 0).trans (set_onlyRecords _ _ _ _ _)
  have h2 : OnlyRecords s1 s2 := by
    unfold s2
    split
    · exact bump_onlyRecords ..
    · exact .refl _
  exact h1.trans (h2.trans (setSlice_onlyRecords ..))

theorem intake_onlyRecords (s : State) (die : Nat) (r : GRec) : OnlyRecords s (s.intake die r).2 := by
  unfold State.intake
  extract_lets x hold
  have hhold (v : State) : OnlyRecords v (hold v) := by
    unfold hold
    split
    · exact bump_onlyRecords ..
    · exact .refl _
  split
  · exact (setSlice_onlyRecords ..).trans (hhold _)
  · split
    · exact (setSlice_onlyRecords ..).trans (gutDropped_onlyRecords ..)
    · exact gutDropped_onlyRecords ..

theorem dropReport_onlyRecords (s : State) (die : Nat) : OnlyRecords s (s.dropReport die) := by
  unfold State.dropReport
  extract_lets x r s0 p
  split
  · exact (setSlice_onlyRecords ..).trans (intake_onlyRecords ..)
  · exact intake_onlyRecords ..

theorem takeToken_onlyRecords {die code : Nat} (h : s.takeToken die code = some u) : OnlyRecords s u := by
  unfold State.takeToken at h
  extract_lets x p d left at h
  split at h
  · obtain rfl := Option.some.inj h
    exact setSlice_onlyRecords ..
  · cases h

/-- Raising an event records it, drops it or suppresses it. -/
theorem raise_onlyRecords (s : State) (die code payload : Nat) : OnlyRecords s (s.raise die code payload) := by
  unfold State.raise
  split
  case isTrue => exact bump_onlyRecords ..
  case isFalse =>
    split
    case h_1 => exact bump_onlyRecords ..
    case h_2 s1 htoken =>
      have h1 : OnlyRecords s s1 := by
        split at htoken
        · obtain rfl := Option.some.inj htoken
          exact .refl _
        · exact takeToken_onlyRecords htoken
      extract_lets before s2
      have h2 : OnlyRecords s s2 := h1.trans (intake_onlyRecords ..)
      split
      · exact h2.trans (dropReport_onlyRecords ..)
      · exact h2

theorem refuseWrite_onlyRecords (s : State) (w : Writer) (a : Nat) : OnlyRecords s (s.refuseWrite w a) := by
  unfold State.refuseWrite
  split
  · exact raise_onlyRecords ..
  · exact .refl _

theorem missEvent_onlyRecords (s : State) (w : Writer) (a : Nat) : OnlyRecords s (s.missEvent w a) :=
  raise_onlyRecords ..

end

section
variable {s : State} {w : Writer} {wad : Bool} {a n : Nat} {bs : List Byte}

/-- The writers that the lock and the directory keep out: all but the A8 itself and those that R184 admits. -/
abbrev Outside (w : Writer) : Prop := w ≠ .update ∧ w ≠ .migration ∧ w ≠ .streaming ∧ w ≠ .device

theorem pos_of_overlaps {b m : Nat} (h : overlaps a n b m = true) : 0 < n := by
  simp only [overlaps, Bool.and_eq_true, bne_iff_ne] at h
  omega

theorem pos_of_inLock (h : s.inLock a n = true) : 0 < n := by
  unfold State.inLock at h
  split at h
  · simp at h
  · obtain ⟨-, h⟩ := Bool.and_eq_true_iff.1 h
    obtain ⟨r, -, hr⟩ := List.any_eq_true.1 h
    exact pos_of_overlaps hr

theorem pos_of_inRegionTable (h : s.inRegionTable a n = true) : 0 < n := by
  obtain ⟨p, -, hp⟩ := List.any_eq_true.1 h
  exact pos_of_overlaps (Bool.and_eq_true_iff.1 hp).2

theorem pos_of_inDirectory (h : s.inDirectory a n = true) : 0 < n := by
  rcases Bool.or_eq_true_iff.1 h with h | h
  · exact pos_of_inRegionTable h
  · split at h
    · cases h
    · rcases Bool.or_eq_true_iff.1 h with h | h
      · exact pos_of_overlaps h
      · obtain ⟨t, -, ht⟩ := List.any_eq_true.1 h
        exact pos_of_overlaps ht

/-- The lock and the directory stop every writer from outside alike. -/
theorem writeStop_of_outside (hw : Outside w) : s.writeStop w wad a n =
    if wad && (s.rangeEnabled a n || s.inLock a n) then some .wadding
    else if s.inDirectory a n || s.inLock a n then some .locked else none := by
  obtain ⟨hupdate, hmigration, hstreaming, hdevice⟩ := hw
  cases w
  case update | migration | streaming | device => contradiction
  all_goals rfl

/-- Into such a range wadding is stopped for one of two reasons, anything else as locked. -/
theorem writeStop_of_held (hw : Outside w) (h : s.inLock a n = true ∨ s.inDirectory a n = true) :
    (∃ why, s.writeStop w wad a n = some why) ∧ (wad = false → s.writeStop w wad a n = some .locked) ∧
      (wad = true → s.inLock a n = true → s.writeStop w wad a n = some .wadding) := by
  have hheld : (s.inDirectory a n || s.inLock a n) = true := Bool.or_eq_true_iff.2 h.symm
  rw [writeStop_of_outside hw, if_pos hheld]
  refine ⟨?_, fun hwad => if_neg (by simp [hwad]), fun hwad hlock => if_pos (by simp [hwad, hlock])⟩
  split
  · exact ⟨_, rfl⟩
  · exact ⟨_, rfl⟩

/-- A write of memory that something stops: the host's is refused with its event, and another writer's is, too, unless
its range is not in service. -/
theorem busWrite_of_stop {why : WriteStop} (hlow : a < 0x600_0000_0000)
    (hstop : s.writeStop w wad a bs.length = some why) :
    (∃ t, s.busWrite w wad a bs = .stopped why t ∧ OnlyRecords s t) ∨
      (s.memRange a bs.length = false ∧ s.busWrite w wad a bs = .miss (s.missEvent w a)) := by
  unfold State.busWrite
  by_cases hhost : w = .host
  · subst hhost
    refine .inl ⟨s.refuseWrite .host a, ?_, refuseWrite_onlyRecords ..⟩
    rcases locOf_of_memory hlow with ⟨i, o, hloc⟩ | ⟨i, o, hloc⟩ <;> simp only [hloc, State.locWrite, hstop]
  · have hrest : s.locWrite w wad a bs (locOf a) =
        if s.memRange a bs.length then .stopped why s else .miss (s.missEvent w a) := by
      rcases locOf_of_memory hlow with ⟨i, o, hloc⟩ | ⟨i, o, hloc⟩ <;> simp only [hloc, State.locWrite, hstop]
    rw [hrest]
    by_cases hmem : s.memRange a bs.length = true
    · exact .inl ⟨s, if_pos hmem, .refl s⟩
    · exact .inr ⟨Bool.eq_false_iff.2 hmem, if_neg hmem⟩

/-- In service, what stops a write is what it is refused for. -/
theorem busWrite_stopped_of_memRange {why : WriteStop} (hlow : a < 0x600_0000_0000)
    (hstop : s.writeStop w wad a bs.length = some why) (hmem : s.memRange a bs.length = true) :
    ∃ t, s.busWrite w wad a bs = .stopped why t := by
  rcases busWrite_of_stop hlow hstop with ⟨t, ht, -⟩ | ⟨hmiss, -⟩
  · exact ⟨t, ht⟩
  · exact absurd hmem (ne_true_of_eq_false hmiss)

end

/-- Settles O58: a writer from outside is stopped by the lock or the directory before anything is written, and the event
of a refusal or of a miss touches the gutter and registers alone. -/
theorem lockHolds : Obligations.LockHolds := by
  unfold Obligations.LockHolds
  intro s w wad a bs hw hend hheld
  have hpos : 0 < bs.length := hheld.elim pos_of_inLock pos_of_inDirectory
  have hlow : a < 0x600_0000_0000 := by omega
  obtain ⟨⟨why, hstop⟩, hlocked, hwadding⟩ := writeStop_of_held (wad := wad) hw hheld
  refine ⟨?unchanged, fun hmem hwad => busWrite_stopped_of_memRange hlow (hlocked hwad) hmem,
    fun hmem hwad hlock => busWrite_stopped_of_memRange hlow (hwadding hwad hlock) hmem⟩
  case unchanged =>
    rcases busWrite_of_stop hlow hstop with ⟨t, ht, hrec⟩ | ⟨-, hmiss⟩
    · exact ⟨t, .inl ⟨why, ht⟩, hrec.mem, hrec.upset⟩
    · have hrec := missEvent_onlyRecords s w a
      exact ⟨_, .inr hmiss, hrec.mem, hrec.upset⟩

end Sys2Proof.Proofs

/-! ## The embedding tables (R164, R165, R169 to R171, R174 to R181, R185) -/

namespace Sys2Proof.Proofs
open Sys2Proof.Machine Sys2Proof.Laws Sys2Proof.Safety

section
variable {q : Fin 16384} {seq : Nat} {c : Cmd} {s : State}

/-! ### The directory and its tables -/

theorem tableDirectory_of_clear (hacc : Accepted 0x0300 q seq c s) (haligned : c.par 16 8 % 64 = 0)
    (hnear : c.par 16 8 < 0x200_0000_0000) (hmem : s.memRange (c.par 16 8) 0x400000 = true)
    (hclear : hitsAny (c.par 16 8, 0x400000)
      (s.descs.map TDesc.listRange ++ s.descs.map TDesc.loadRange ++ s.heldRanges) = false) :
    let a := c.par 16 8
    let t := (s.definedTables.map (fun t => (t, s.descOf t))).foldl (fun s x => s.writeMem (a + 64 * x.1) x.2)
      (s.zeroFill a 0x400000)
    exec (.tableDirectory q seq) s =
      .next (({ t with tables := { t.tables with dir := some a } } : State).succeed c 0) := by
  refine congrArg Host.Outcome.next ((runCmd_of_accepted hacc _).trans ?_)
  refine (needA_of_aligned haligned (by omega) _).trans ((if_neg (Nat.not_le.2 hnear)).trans ?_)
  exact (needMem_of_range hmem _).trans (if_neg (ne_true_of_eq_false hclear))

/-- A table passes the checks of TABLE_DEFINE on its shard list `l` and its rows `mine` in state `u` (R165, R169 to R171). -/
structure PlacedWell (u : State) (t : TDesc) (l : List Byte) (mine : List (Nat × Nat)) : Prop where
  list : listOk t l = true
  shards : u.shardsPlaced t l = true
  rows : ∀ x ∈ mine, hitsAny x (u.listRanges ++ u.heldRanges) = false ∧ u.eavesFits t.slot x.1 = true
  apart : selfOverlap mine = false

/-- The one test of TABLE_DEFINE on its shard list and rows passes. -/
theorem PlacedWell.passes {u : State} {t : TDesc} {l : List Byte} {mine : List (Nat × Nat)} (h : PlacedWell u t l mine) :
    ¬ (listOk t l = false ∨ u.shardsPlaced t l = false ∨
      (mine.any (fun x => hitsAny x (u.listRanges ++ u.heldRanges))) = true ∨ selfOverlap mine = true ∨
      (mine.all (fun x => u.eavesFits t.slot x.1)) = false) := by
  have hany : mine.any (fun x => hitsAny x (u.listRanges ++ u.heldRanges)) = false :=
    List.any_eq_false.2 fun x hx => ne_true_of_eq_false (h.rows x hx).1
  have hall : mine.all (fun x => u.eavesFits t.slot x.1) = true := List.all_eq_true.2 fun x hx => (h.rows x hx).2
  rw [h.list, h.shards, hany, h.apart, hall]
  decide

theorem tableDefine_of_sound {dir : Nat} (hacc : Accepted 0x0301 q seq c s) (hdir : s.tables.dir = some dir) :
    let a := c.par 16 8
    let la := c.par 24 8
    let r := s.readMem .engine a 64
    let t := tdesc r.bytes
    let r2 := r.st.readMem .engine la (64 * t.shards)
    let u := r2.st
    let mine := (List.range t.shards).flatMap (fun k => u.rowRanges t r2.bytes k)
    let fixed := u.listRanges ++ u.heldRanges
    let d := patch (patch r.bytes 2 [BitVec.ofNat 8 (fieldLe r.bytes 2 1 % 128 + 128)]) 16 (List.replicate 4 0#8)
    a % 64 = 0 → a < 2 ^ 43 → la % 64 = 0 → la < 2 ^ 43 → s.memRange a 64 = true → descOk r.bytes = true →
    (tdesc (r.st.descOf t.id)).valid = false → r.st.memRange la (64 * t.shards) = true →
    r.st.memRange t.list (64 * t.shards) = true → PlacedWell u t r2.bytes mine →
    hitsAny t.listRange (t.loadRange :: (fixed ++ mine)) = false → hitsAny t.loadRange (fixed ++ mine) = false →
    exec (.tableDefine q seq) s = .next
      (((u.writeMem t.list (freshList t.shards r2.bytes)).writeMem (dir + 64 * t.id) d).succeed c 0) := by
  intro a la r t r2 u mine fixed d ha haLocal hla hlaLocal hdesc hok hnew hload hlist hplaced hlistFree hloadFree
  have hfree : ¬ (hitsAny t.listRange (t.loadRange :: (fixed ++ mine)) = true ∨
      hitsAny t.loadRange (fixed ++ mine) = true) := by
    rw [hlistFree, hloadFree]
    decide
  refine congrArg Host.Outcome.next ((runCmd_of_accepted hacc _).trans ?_)
  refine (needA_of_aligned ha haLocal _).trans ((needA_of_aligned hla hlaLocal _).trans ?_)
  rw [hdir]
  refine (needMem_of_range hdesc _).trans ((if_neg (ne_false_of_eq_true hok)).trans ?_)
  refine (if_neg (ne_true_of_eq_false hnew)).trans ((needMem_of_range hload _).trans ?_)
  exact (needMem_of_range hlist _).trans ((if_neg hplaced.passes).trans (if_neg hfree))

/-- While no delta table is in use, a table is deleted by clearing its VALID, and deleting an undefined one succeeds. -/
theorem tableDelete_eq {dir : Nat} (hacc : Accepted 0x0302 q seq c s) (hdir : s.tables.dir = some dir)
    (hfree : s.deltaFree = true) : exec (.tableDelete q seq) s = .next
      (if (tdesc (s.descOf (c.par 16 2))).valid = true then
        (s.writeMem (dir + 64 * c.par 16 2 + 2) (leBytes 1 (fieldLe (s.descOf (c.par 16 2)) 2 1 % 128))).succeed c 1
      else s.succeed c 0) := by
  refine congrArg Host.Outcome.next ((runCmd_of_accepted hacc _).trans ?_)
  simp only [hdir]
  exact if_neg (ne_false_of_eq_true hfree)

/-! ### Moves -/

theorem shardMove_of_legal (hacc : Accepted 0x0303 q seq c s)
    (hlegal : s.moveCheck (c.par 16 2) (c.par 18 2) (c.par 24 8) false = none) : exec (.shardMove q seq) s =
      .next ((s.moveStart (c.par 16 2) (c.par 18 2) (c.par 24 8) (some (c.q, c.seq)) none s.course.plan).cmdWaits c []) := by
  refine congrArg Host.Outcome.next ((runCmd_of_accepted hacc _).trans ?_)
  simp only [hlegal]

theorem moveItem_of_legal {i b t k dev dest : Nat} {x : Issuer} (hitem : s.item? i = some ⟨x, b, .move t k dev dest⟩)
    (hissued : i ∉ s.course.issued) (hslot : s.frame.slot = 0)
    (hlegal : (s.itemIssued i).moveCheck t k (dev * 2 ^ 43 + dest % 2 ^ 43) true = none) : exec (.moveItem i) s =
      .next ((s.itemIssued i).moveStart t k (dev * 2 ^ 43 + dest % 2 ^ 43) none (some i) b) := by
  have hturn : ¬ (i ∈ s.course.issued ∨ s.frame.slot ≠ 0) := by simp [hissued, hslot]
  simp only [exec, execMoveItem, hitem, if_neg hturn, hlegal]

/-- A move within the module copies its ranges, and is then marked as copied. -/
theorem moveCopyEnd_of_local {t k : Nat} {m : MoveRun} (hmove : s.move? t k = some m) (hcopied : m.copied = false)
    (hranges : m.ranges ≠ []) (hremote : m.remote = false)
    (hstays : ((m.ranges.foldl State.copyRange s).move? t k).isSome = true) : exec (.moveCopyEnd t k) s =
      .next ((m.ranges.foldl State.copyRange s).updMove t k
        (fun m => { m with copied := true, told := m.ranges.isEmpty })) := by
  have hsome : m.ranges.isEmpty = false := Bool.eq_false_iff.2 (mt List.isEmpty_iff.1 hranges)
  simp only [exec, execMoveCopyEnd, hmove, hcopied, hsome, hremote, hstays, Bool.false_and, Bool.or_self,
    Bool.false_eq_true, if_false, if_true]

/-- An open window closes when no operation that saw the old shard is left and nothing is owed to another module. -/
theorem moveForwardClose_of_clear {t k : Nat} {m : MoveRun} (hmove : s.move? t k = some m) (hopen : m.fwd = true)
    (hops : s.opsUpTo m.plan = false) (hitem : m.item = none)
    (hout : s.tables.outbound.any (fun w => w.1 == t && w.2.1 == k) = false) (hasking : s.asking (.move t k) = false) :
    let u : State := { s with tables := { s.tables with moves := s.tables.moves.erase m } }
    (u.tableNow t).isSome = true → exec (.moveForwardClose t k) s =
      .next (((u.writeMem (u.entryAddr t k + 40) (leBytes 8 0)).setShardState t k 0).withWaiting m.cmd
        (fun c s => s.succeed c m.effect)) := by
  intro u htable
  have hdue : ¬ (m.fwd = false ∨ (s.tables.outbound.any (fun w => w.1 == t && w.2.1 == k) || s.asking (.move t k)) = true ∨
      (m.ended = false ∧ s.opsUpTo m.plan = true)) := by
    rw [hopen, hout, hasking, hops]
    simp
  simp only [exec, execMoveForwardClose, hmove, if_neg hdue, hitem]
  exact congrArg (fun v : State => Host.Outcome.next (v.withWaiting m.cmd (fun c s => s.succeed c m.effect)))
    (if_pos htable)

/-! ### Replacement -/

theorem tableFlip_of_replaceable {v : List Byte × List Byte} {d : Nat} (hacc : Accepted 0x0309 q seq c s)
    (hdir : s.tables.dir = some d) (htable : s.tableNow (c.par 16 2) = some v) (hreplace : (tdesc v.1).replace = 1) :
    exec (.tableFlip q seq) s = .next (({ s with tables := { s.tables with
      flips := s.tables.flips ++ [(c.par 16 2, some (c.q, c.seq))] } } : State).cmdWaits c []) := by
  refine congrArg Host.Outcome.next ((runCmd_of_accepted hacc _).trans ?_)
  simp only [hdir, htable]
  exact if_pos hreplace

theorem streamBatch_of_sound {v : List Byte × List Byte} {d : Nat} (hacc : Accepted 0x030A q seq c s)
    (hdir : s.tables.dir = some d) (htable : s.tableNow (c.par 16 2) = some v)
    (hcheck : s.batchCheck (c.par 16 2) (c.par 24 8) (c.par 32 4) = none) (haligned : c.par 40 8 % 64 = 0)
    (hlocal : c.par 40 8 < 2 ^ 43) (hmem : s.memRange (c.par 40 8) (c.par 32 4 * (tdesc v.1).slot) = true) :
    exec (.streamBatch q seq) s = .next (({ s with tables := { s.tables with batches := s.tables.batches ++
      [⟨c.par 16 2, c.par 24 8, c.par 32 4, c.par 40 8, 0, some (c.q, c.seq), none⟩] } } : State).cmdWaits c []) := by
  refine congrArg Host.Outcome.next ((runCmd_of_accepted hacc _).trans ?_)
  simp only [hdir, hcheck, htable]
  exact (needA_of_aligned haligned hlocal _).trans (needMem_of_range hmem _)

/-- The batches `l` after their batch `b` has written one row more. -/
def batchAdvanced (l : List Batch) (b : Batch) : List Batch :=
  l.map (fun x => if x = b then { b with written := b.written + 1 } else x)

/-- The oldest batch in effect writes its next row unless a lookup has read a part of it (R181). -/
theorem streamRowWrite_eq {b : Batch} (hlive : s.tables.batches.find? (fun b => b.live.isSome) = some b) :
    let t := s.writeStreamRow b
    exec .streamRowWrite s = if s.rowHalfRead b then .next s
      else if b.written + 1 < b.count then
        .next { t with tables := { t.tables with batches := batchAdvanced t.tables.batches b } }
      else .next (({ t with tables := { t.tables with batches := t.tables.batches.erase b } } : State).withWaiting b.cmd
        (fun c s => s.succeed c (b.live.getD 0))) := by
  simp only [exec, execStreamRowWrite, hlive, batchAdvanced]

/-! ### Eaves -/

/-- EAVES_DEFINE for one die, `f` the three numbers of each die. -/
def eavesStep (f : Nat → Nat → Nat) (s : State) (d : Nat) : State :=
  let e := (List.range 3).foldl (fun m k => Sparse.put 0 m (4 * d + k) (f d k)) s.tables.eaves
  let s : State := { s with tables := { s.tables with eaves := e } }
  let n := f d 1 / f d 2
  (s.set F.YLM_EAVES_ENTRIES n d).set F.YLM_EAVES_HALF (n / 2) d

theorem eavesStep_eavesFld (f : Nat → Nat → Nat) (s : State) (d j : Nat) {k : Nat} (hk : k < 3) :
    (eavesStep f s d).eavesFld j k = if j = d then f d k else s.eavesFld j k := by
  have htable : (eavesStep f s d).eavesFld j k = Sparse.get 0
      (Sparse.put 0 (Sparse.put 0 (Sparse.put 0 s.tables.eaves (4 * d + 0) (f d 0)) (4 * d + 1) (f d 1)) (4 * d + 2) (f d 2))
      (4 * j + k) := rfl
  rw [htable, get_put, get_put, get_put]
  by_cases hj : j = d
  · subst hj
    have hcases : k = 0 ∨ k = 1 ∨ k = 2 := by omega
    rcases hcases with rfl | rfl | rfl <;> simp
  · rw [if_neg (by omega), if_neg (by omega), if_neg (by omega), if_neg hj]
    rfl

/-- Each die of the list gets its numbers, every other die keeps its own. -/
theorem eavesFld_foldl (f : Nat → Nat → Nat) (l : List Nat) (s : State) (j : Nat) {k : Nat} (hk : k < 3) :
    (l.foldl (eavesStep f) s).eavesFld j k = if j ∈ l then f j k else s.eavesFld j k := by
  induction l generalizing s with
  | nil => simp
  | cons d l ih =>
    rw [List.foldl_cons, ih, eavesStep_eavesFld f s d j hk]
    by_cases hj : j = d
    · subst hj
      simp
    · simp [hj]

theorem eavesStep_foldl_mem (f : Nat → Nat → Nat) (l : List Nat) (s : State) : (l.foldl (eavesStep f) s).mem = s.mem :=
  List.foldlRecOn (motive := fun u : State => u.mem = s.mem) l _ rfl fun _ hu _ _ => hu

theorem eavesDefine_of_sound (hacc : Accepted 0x0304 q seq c s) (haligned : c.par 16 8 % 64 = 0)
    (hlocal : c.par 16 8 < 2 ^ 43) (hmem : s.memRange (c.par 16 8) 192 = true) :
    let r := s.readMem .engine (c.par 16 8) 192
    let f (d k : Nat) : Nat := fieldLe r.bytes (24 * d + 8 * k) 8
    (∀ d, d < 8 → r.st.eavesOk d (f d 0) (f d 1) (f d 2) = true) →
    exec (.eavesDefine q seq) s = .next (((List.range 8).foldl (eavesStep f) r.st).succeed c 0) := by
  intro r f hok
  have hall : (List.range 8).all (fun d => r.st.eavesOk d (f d 0) (f d 1) (f d 2)) = true :=
    List.all_eq_true.2 fun d hd => hok d (List.mem_range.1 hd)
  refine congrArg Host.Outcome.next ((runCmd_of_accepted hacc _).trans ?_)
  refine (needA_of_aligned haligned hlocal _).trans ((needMem_of_range hmem _).trans ?_)
  exact if_pos hall

end

/-- Settles O43: each row is taken where its checks pass, and the eaves of every die hold the numbers of the definition. -/
theorem tablesRun : Obligations.TablesRun := by
  unfold Obligations.TablesRun
  refine ⟨?directory, ?define, ?delete, ?move, ?item, ?copied, ?closed, ?flip, ?batch, ?row, ?eaves⟩
  case directory =>
    exact fun q seq c s => tableDirectory_of_clear
  case define =>
    intro q seq c dir s hacc hdir a la r t r2 u mine fixed ha haLocal hla hlaLocal hdesc hok hnew hload hlist hlistOk
      hshards hrows hapart
    exact tableDefine_of_sound hacc hdir ha haLocal hla hlaLocal hdesc hok hnew hload hlist
      ⟨hlistOk, hshards, hrows, hapart⟩
  case delete =>
    intro q seq c dir s hacc hdir hfree d
    rw [tableDelete_eq hacc hdir hfree]
    exact ⟨fun hvalid => congrArg _ (if_pos hvalid), fun hvalid => congrArg _ (if_neg (ne_true_of_eq_false hvalid))⟩
  case move =>
    exact fun q seq c s => shardMove_of_legal
  case item =>
    exact fun i b t k dev dest x s => moveItem_of_legal
  case copied =>
    exact fun t k m s => moveCopyEnd_of_local
  case closed =>
    exact fun t k m s => moveForwardClose_of_clear
  case flip =>
    exact fun q seq c v d s => tableFlip_of_replaceable
  case batch =>
    exact fun q seq c v d s => streamBatch_of_sound
  case row =>
    intro b s hlive
    refine ⟨fun hread => ?_, fun hread => ⟨fun hmore => ?_, fun hlast => ?_⟩⟩
    · exact (streamRowWrite_eq hlive).trans (if_pos hread)
    · exact (streamRowWrite_eq hlive).trans ((if_neg (ne_true_of_eq_false hread)).trans (if_pos hmore))
    · exact (streamRowWrite_eq hlive).trans ((if_neg (ne_true_of_eq_false hread)).trans (if_neg (Nat.not_lt.2 hlast)))
  case eaves =>
    intro q seq c s hacc haligned hlocal hmem r f hok
    refine ⟨(List.range 8).foldl (eavesStep f) r.st, eavesDefine_of_sound hacc haligned hlocal hmem hok,
      eavesStep_foldl_mem .., fun d hd => ?_⟩
    have hfld {k : Nat} (hk : k < 3) : ((List.range 8).foldl (eavesStep f) r.st).eavesFld d k = f d k := by
      rw [eavesFld_foldl f _ _ d hk, if_pos (List.mem_range.2 hd)]
    exact ⟨Prod.ext (hfld (by decide)) (hfld (by decide)), hfld (by decide)⟩

end Sys2Proof.Proofs

/-! ## The yealm engine: descriptors, lines and staging (R186, R189, R194, R204 to R208) -/

namespace Sys2Proof.Proofs
open Sys2Proof.Machine Sys2Proof.Laws Sys2Proof.Safety

/-! ### Descriptors and their lines -/

section
variable {q : Fin 16384} {seq : Nat} {c : Cmd} {s : State} {d : Fin 8}

theorem ylmRun_of_mapped (hacc : Accepted 0x0305 q seq c s) (haligned : c.par 16 8 % 64 = 0) (hlocal : c.par 16 8 < 2 ^ 43)
    (hmem : s.memRange (c.par 16 8) 128 = true) :
    let own := s.courseLive && (c.course != 0 || s.listed q)
    exec (.ylmRun q seq) s = .next ((s.cmdWaits c []).ylmReceive (queueDie q) q (c.par 16 8) (some (q.val, seq)) none own 0
      (if s.running then some s.course.plan else none) (s.queueWadding q)) :=
  congrArg Host.Outcome.next ((runCmd_of_accepted hacc _).trans
    ((needA_of_aligned haligned hlocal _).trans (needMem_of_range hmem _)))

/-- A scatter's row leaves for its unit when its turn comes. -/
theorem lineResponse_of_row {i id u : Nat} {y : YDesc} (hhead : (s.ylmHeads d)[i]? = some (id, .unit u))
    (hdesc : (s.unsend d (id, .unit u)).ydesc? d id = some y) (hruns : y.halted = false) :
    exec (.lineResponse d i) s = .next (((s.unsend d (id, .unit u)).sendRowAdd d id u).pump d) := by
  simp only [exec, execLineResponse, hhead, hdesc, hruns, Bool.false_eq_true, if_false]

/-- A line that returns gives its unit the bytes of the unit's range that lie in it. -/
theorem lineResponse_of_line {i id u k : Nat} {y : YDesc} {x : YUnit} (hhead : (s.ylmHeads d)[i]? = some (id, .line u k))
    (hdesc : (s.unsend d (id, .line u k)).ydesc? d id = some y) (hruns : y.halted = false) (hunit : y.units[u]? = some x) :
    let lo := if k = 0 then x.addr else (x.addr / 64 + k) * 64
    let hi := min (x.addr + x.len) ((x.addr / 64 + k + 1) * 64)
    let r := ((s.unsend d (id, .line u k)).actMem y.q lo (hi - lo)).readMem .engine lo (hi - lo)
    exec (.lineResponse d i) s = .next ((r.st.unitBytes d id u k r.bytes).pump d) := by
  simp only [exec, execLineResponse, hhead, hdesc, hruns, hunit, Bool.false_eq_true, if_false]

theorem descriptorComplete_of_over {y : YDesc} (hfirst : (s.ydescs d).find? (fun y => y.q == q.val) = some y)
    (hover : y.over = true) :
    exec (.descriptorComplete d q) s = .next (((s.freeOutputs d y).endDesc d y y.err).ylmGo d) := by
  simp only [exec, execDescriptorComplete, hfirst, hover, if_true]

end

/-! ### Prefetches -/

section
variable {q : Fin 16384} {seq : Nat} {c : Cmd} {s : State}

/-- A prefetch with no descriptor, or too many, fails at its count. -/
theorem ylmPrefetch_of_count (hacc : Accepted 0x0306 q seq c s) (haligned : c.par 24 8 % 64 = 0)
    (hlocal : c.par 24 8 < 2 ^ 43) (hcount : c.par 32 2 = 0 ∨ 1024 < c.par 32 2) :
    exec (.ylmPrefetch q seq) s = .next (s.failPrefetch c stBadParam 32) :=
  congrArg Host.Outcome.next ((runCmd_of_accepted hacc _).trans
    ((needA_of_aligned haligned hlocal _).trans (if_pos hcount)))

/-- A prefetch is for the next course, and only the first one for it goes on. -/
theorem ylmPrefetch_of_wrong_course (hacc : Accepted 0x0306 q seq c s) (haligned : c.par 24 8 % 64 = 0)
    (hlocal : c.par 24 8 < 2 ^ 43) (hlow : 1 ≤ c.par 32 2) (hhigh : c.par 32 2 ≤ 1024)
    (hcourse : c.par 16 8 ≠ s.get F.TBN_COURSE_COURSE + 1 ∨ s.ylm.targets.contains (c.par 16 8) = true) :
    exec (.ylmPrefetch q seq) s = .next (s.failPrefetch c stDescInvalid 0) := by
  refine congrArg Host.Outcome.next ((runCmd_of_accepted hacc _).trans ?_)
  refine (needA_of_aligned haligned hlocal _).trans ((if_neg (by omega)).trans ?_)
  by_cases hnext : c.par 16 8 = s.get F.TBN_COURSE_COURSE + 1
  · exact (if_neg (not_not_intro hnext)).trans (if_pos (hcourse.resolve_left (not_not_intro hnext)))
  · exact if_pos hnext

/-- A sound prefetch for the next course sends its rows to their home engines. -/
theorem ylmPrefetch_of_sound (hacc : Accepted 0x0306 q seq c s) (haligned : c.par 24 8 % 64 = 0)
    (hlocal : c.par 24 8 < 2 ^ 43) (hlow : 1 ≤ c.par 32 2) (hhigh : c.par 32 2 ≤ 1024)
    (hcourse : c.par 16 8 = s.get F.TBN_COURSE_COURSE + 1) (hfirst : s.ylm.targets.contains (c.par 16 8) = false)
    (hmem : s.memRange (c.par 24 8) (8 * c.par 32 2) = true) :
    let die := queueDie q
    let r := s.yread die (c.par 24 8) (8 * c.par 32 2)
    let addrs := leList 8 (c.par 32 2) r.1
    let ds := addrs.foldl (fun (x : List (List Byte) × State) a =>
      (x.1 ++ [(x.2.yread die a 128).1], (x.2.yread die a 128).2)) ([], r.2)
    (∀ a ∈ addrs, a % 64 = 0 ∧ r.2.memRange a 128 = true) → ds.1.findSome? (ds.2.planCheck die) = none →
    (List.range 8).all ds.2.stageOk = true → ∀ plans, (plansOf die ds.1 ds.2).1 = .inr plans →
    (let p0 : Prefetch := ⟨q, seq, c.par 16 8, plans, [], 0⟩
     let p : Prefetch := { p0 with homes := (List.range 8).filter (fun d => (p0.rowsAt d) != []) }
     let t := (plansOf die ds.1 ds.2).2.cmdWaits c []
     exec (.ylmPrefetch q seq) s = .next (State.settlePrefetch { t with ylm := { t.ylm with
       prefetch := t.ylm.prefetch ++ [p], targets := t.ylm.targets ++ [c.par 16 8] } })) := by
  intro die r addrs ds haddrs hchecks hstage plans hplans p0 p t
  have hfound : addrs.find? (fun a => a % 64 != 0 || !r.2.memRange a 128) = none :=
    List.find?_eq_none.2 fun a ha => by simp [haddrs a ha]
  refine congrArg Host.Outcome.next ((runCmd_of_accepted hacc _).trans ?_)
  refine (needA_of_aligned haligned hlocal _).trans ((if_neg (by omega)).trans ?_)
  refine (if_neg (not_not_intro hcourse)).trans ((if_neg (ne_true_of_eq_false hfirst)).trans ?_)
  refine (needMem_of_range hmem _).trans ?_
  simp only [die, r, addrs, ds] at hfound hchecks hstage hplans
  simp only [hfound, hchecks, hstage, hplans, Bool.not_true, Bool.false_eq_true, if_false]
  rfl

end

/-! ### What reads and the ledger leave alone -/

section
variable {s : State}

/-- A ledger counter lies in the record of the course. -/
theorem ledBump_eq (s : State) (f : LFld) (n : Nat) : ∃ course, s.ledBump f n = { s with course := course } := by
  unfold State.ledBump
  split
  · exact ⟨_, rfl⟩
  · exact ⟨_, rfl⟩

theorem ledBump_tables (s : State) (f : LFld) (n : Nat) : (s.ledBump f n).tables = s.tables := by
  obtain ⟨_, h⟩ := ledBump_eq s f n
  rw [h]

theorem ledBump_mem (s : State) (f : LFld) (n : Nat) : (s.ledBump f n).mem = s.mem := by
  obtain ⟨_, h⟩ := ledBump_eq s f n
  rw [h]

theorem ledBump_ylm (s : State) (f : LFld) (n : Nat) : (s.ledBump f n).ylm = s.ylm := by
  obtain ⟨_, h⟩ := ledBump_eq s f n
  rw [h]

theorem logError_tables (s : State) (ctl ch ln : Nat) (scrub : Bool) (fix : List (Nat × Nat)) (unc : Bool) :
    (s.logError ctl ch ln scrub fix unc).tables = s.tables := by
  unfold State.logError
  split
  · rfl
  · rfl

theorem corrected_tables (s : State) (who : Req) (ln : Nat) (fix : List (Nat × Nat)) :
    (s.corrected who ln fix).tables = s.tables := by
  unfold State.corrected
  extract_lets ctl ch scrub s1 s2 s3 s4 s5
  have hlog : s3.tables = s.tables := logError_tables ..
  have hevent : s4.tables = s3.tables := (raise_onlyRecords ..).tables
  have hcount : s5.tables = s4.tables := ledBump_tables ..
  exact hcount.trans (hevent.trans hlog)

theorem uncorrected_tables (s : State) (who : Req) (ln : Nat) : (s.uncorrected who ln).tables = s.tables := by
  unfold State.uncorrected
  extract_lets ctl ch scrub s1 s2 s3 s4 s5
  have hlog : s3.tables = s.tables := logError_tables ..
  have hevent : s4.tables = s3.tables := (raise_onlyRecords ..).tables
  have hcount : s5.tables = s4.tables := ledBump_tables ..
  have hmark : (s5.markLive 1).tables = s5.tables := by
    unfold State.markLive
    split
    · rfl
    · rfl
  have hall : s5.tables = s.tables := hcount.trans (hevent.trans hlog)
  split
  · exact hall
  · exact hmark.trans hall

theorem readLine_tables (s : State) (who : Req) (ln : Nat) : (s.readLine who ln).st.tables = s.tables := by
  unfold State.readLine
  extract_lets e bs
  cases decodeLine e with
  | clean => rfl
  | corrected fix => exact corrected_tables ..
  | uncorrectable => exact uncorrected_tables ..

/-- A read of memory touches no table. -/
theorem readLines_tables (who : Req) (k : Nat) (s : State) (a n : Nat) : (readLines who k s a n).st.tables = s.tables := by
  induction k generalizing s a n with
  | zero => rfl
  | succ k ih =>
    unfold readLines
    split
    · rfl
    · exact (ih ..).trans (readLine_tables ..)

theorem engineRead_tables (s : State) (die a n : Nat) : (s.engineRead die a n).2.tables = s.tables := by
  unfold State.engineRead
  split
  · exact readLines_tables ..
  · exact (raise_onlyRecords ..).tables

/-- Where an entry of the eaves lies is said by the tables. -/
theorem eavesAddr_congr {u : State} (h : u.tables = s.tables) (die i : Nat) : u.eavesAddr die i = s.eavesAddr die i := by
  unfold State.eavesAddr State.eavesFld
  rw [h]

/-- Showing an engine's counts writes registers alone. -/
theorem syncYlm_eq (s : State) (die : Nat) : ∃ regs, s.syncYlm die = { s with regs := regs } := by
  unfold State.syncYlm
  extract_lets n staging s1 s2
  have h2 : ∃ regs, s2 = { s with regs := regs } := by
    unfold s2
    split
    · exact ⟨_, rfl⟩
    · exact ⟨_, rfl⟩
  obtain ⟨_, h⟩ := h2
  rw [h]
  exact ⟨_, rfl⟩

theorem setStageRows_mem (s : State) (die : Nat) (l : List StageRow) : (s.setStageRows die l).mem = s.mem := by
  obtain ⟨_, h⟩ := syncYlm_eq { s with ylm := { s.ylm with rows := Sparse.put [] s.ylm.rows die l } } die
  rw [State.setStageRows, h]

theorem setStageRows_prefetch (s : State) (die : Nat) (l : List StageRow) :
    (s.setStageRows die l).ylm.prefetch = s.ylm.prefetch := by
  obtain ⟨_, h⟩ := syncYlm_eq { s with ylm := { s.ylm with rows := Sparse.put [] s.ylm.rows die l } } die
  rw [State.setStageRows, h]

end

/-! ### Staging -/

section
variable {s : State} {d : Fin 8}

/-- A home engine takes its rows of the oldest prefetch that it has still to serve, as many as half its eaves holds. -/
theorem stageRows_of_prefetch {p : Prefetch} (hfirst : s.ylm.prefetch.find? (fun p => p.homes.contains d.val) = some p) :
    ∃ t, exec (.stageRows d) s = .next (State.settlePrefetch t) ∧ t.mem = s.mem ∧
      (let taken : Prefetch := { p with
         homes := p.homes.erase d.val, staged := p.staged + min (p.rowsAt d).length (s.eavesHalf d) }
       t.ylm.prefetch = s.ylm.prefetch.map (fun x => if x = p then taken else x)) := by
  simp only [exec, execStageRows, hfirst]
  refine ⟨_, rfl, ?mem, ?prefetch⟩
  case mem =>
    rw [setStageRows_mem]
    exact ledBump_mem ..
  case prefetch =>
    have htaken (h : Nat) (l : List (Nat × Nat)) : (l.take h).zipIdx.length = min l.length h := by
      rw [List.length_zipIdx, List.length_take, min_comm]
    rw [setStageRows_prefetch]
    simp only [ledBump_ylm, List.length_map, htaken]
    rfl

theorem stagingReadIssue_of_row {r : StageRow} {v : List Byte × List Byte}
    (hfirst : (s.stageRows d).find? (fun r => !r.issued && !r.trained) = some r) (htable : s.tableNow r.table = some v) :
    let t := tdesc v.1
    let p := rowPlace t v.2 r.row
    let a := faLocal (p.row t)
    let k := ceilDiv (a % 64 + t.payload) 64
    r.row < t.rows → s.here (p.row t) = true → s.memRange a t.payload = true →
    s.get F.YLM_OUTSTANDING_CURRENT d + k ≤ ylmLimit →
    (let r' : StageRow := { r with
       shard := p.shard, addr := a, len := t.payload, base := p.entry.rowBase, bank := p.entry.bank
       ver := p.entry.version, issued := true, lines := k }
     let w := s.engineWrite d (s.stageAddr d r.slot) (r'.record 1)
     let u := (w.bump F.YLM_FETCHES_LINES k d).shardLoad r.table p.shard 0 1
     exec (.stagingReadIssue d) s = .next (u.setStageRows d ((u.stageRows d).map (fun x => if x = r then r' else x)))) := by
  intro t p a k hrow hhere hmem hroom r' w u
  have hlives : r.row < t.rows ∧ s.here (p.row t) = true ∧ s.memRange (faLocal (p.row t)) t.payload = true :=
    ⟨hrow, hhere, hmem⟩
  simp only [exec, execStagingReadIssue, hfirst, htable]
  exact (if_pos hlives).trans (if_neg (Nat.not_lt.2 hroom))

theorem stagingCopyDone_of_issued {r : StageRow} (hfirst : (s.stageRows d).find? (·.issued) = some r) :
    let b := s.engineRead d r.addr r.len
    let t := b.2.engineWrite d (b.2.eavesAddr d r.slot) b.1
    let u := (t.engineWrite d (t.stageAddr d r.slot) (r.record 2)).bump F.YLM_STAGE_CNT_STAGED 1 d
    exec (.stagingCopyDone d) s =
      .next ((List.range 8).foldl (fun s d => s.pump d) (u.setStageRows d ((u.stageRows d).erase r))) := by
  intro b t u
  have hplace : s.eavesAddr d r.slot = b.2.eavesAddr d r.slot := (eavesAddr_congr (engineRead_tables ..) _ _).symm
  simp only [exec, execStagingCopyDone, hfirst, hplace]
  rfl

end

/-- Settles O44: each row of the engine is taken where its guard holds, and a prefetch fails or goes on by the checks of
R204 in their order. -/
theorem yealmRuns : Obligations.YealmRuns := by
  unfold Obligations.YealmRuns
  refine ⟨?run, ?line, ?complete, ?prefetch, ?rows, ?issue, ?copied⟩
  case run =>
    exact fun q seq c s => ylmRun_of_mapped
  case line =>
    exact fun d i id u k y x s => ⟨lineResponse_of_row, lineResponse_of_line⟩
  case complete =>
    exact fun d q y s => descriptorComplete_of_over
  case prefetch =>
    intro q seq c s hacc haligned hlocal
    refine ⟨ylmPrefetch_of_count hacc haligned hlocal, fun hlow hhigh hcourse => ?_, fun hlow hhigh htwice => ?_,
      ylmPrefetch_of_sound hacc haligned hlocal⟩
    · exact ylmPrefetch_of_wrong_course hacc haligned hlocal hlow hhigh (.inl hcourse)
    · exact ylmPrefetch_of_wrong_course hacc haligned hlocal hlow hhigh (.inr htwice)
  case rows =>
    exact fun d p s => stageRows_of_prefetch
  case issue =>
    exact fun d r v s => stagingReadIssue_of_row
  case copied =>
    exact fun d r s => stagingCopyDone_of_issued

end Sys2Proof.Proofs

/-! ## The update units (R216, R225 to R238) -/

namespace Sys2Proof.Proofs
open Sys2Proof.Machine Sys2Proof.Laws Sys2Proof.Safety

/-! ### What counting an event leaves alone -/

/-- Between the states neither a cluster nor an update unit has changed. -/
structure LeavesUnits (s u : State) : Prop where
  clusters : u.clusters = s.clusters
  upd : u.upd = s.upd

section
variable {s t u : State}

theorem LeavesUnits.refl (s : State) : LeavesUnits s s := ⟨rfl, rfl⟩

theorem LeavesUnits.trans (h : LeavesUnits s t) (k : LeavesUnits t u) : LeavesUnits s u :=
  ⟨k.clusters.trans h.clusters, k.upd.trans h.upd⟩

theorem OnlyRecords.leavesUnits (h : OnlyRecords s u) : LeavesUnits s u := by
  obtain ⟨_, _, rfl⟩ := h
  exact ⟨rfl, rfl⟩

theorem ledBump_leavesUnits (s : State) (f : LFld) (n : Nat) : LeavesUnits s (s.ledBump f n) := by
  obtain ⟨_, h⟩ := ledBump_eq s f n
  rw [h]
  exact ⟨rfl, rfl⟩

theorem markLive_leavesUnits (s : State) (b : Nat) : LeavesUnits s (s.markLive b) := by
  unfold State.markLive
  split
  · exact ⟨rfl, rfl⟩
  · exact .refl s

theorem logError_leavesUnits (s : State) (ctl ch ln : Nat) (scrub : Bool) (fix : List (Nat × Nat)) (unc : Bool) :
    LeavesUnits s (s.logError ctl ch ln scrub fix unc) := by
  unfold State.logError
  split
  · exact ⟨rfl, rfl⟩
  · exact .refl s

/-- What a read notes of wrong symbols before it goes on: flags and counters, the error log, the event and the ledger. -/
theorem errorNoted_leavesUnits {ctl ch ln die code payload : Nat} {scrub unc : Bool} {fix : List (Nat × Nat)} {f : LFld}
    (h : OnlyRecords s t) :
    LeavesUnits s (((t.logError ctl ch ln scrub fix unc).raise die code payload).ledBump f 1) :=
  h.leavesUnits.trans ((logError_leavesUnits ..).trans
    ((raise_onlyRecords ..).leavesUnits.trans (ledBump_leavesUnits ..)))

theorem corrected_leavesUnits (s : State) (who : Req) (ln : Nat) (fix : List (Nat × Nat)) :
    LeavesUnits s (s.corrected who ln fix) := by
  unfold State.corrected
  extract_lets ctl ch scrub s1 s2 s3 s4 s5
  have hflags : OnlyRecords s s2 :=
    (set_onlyRecords ..).trans ((bump_onlyRecords ..).trans (bump_onlyRecords ..))
  have hnoted : LeavesUnits s s5 := errorNoted_leavesUnits hflags
  exact hnoted.trans ⟨rfl, rfl⟩

theorem uncorrected_leavesUnits (s : State) (who : Req) (ln : Nat) : LeavesUnits s (s.uncorrected who ln) := by
  unfold State.uncorrected
  extract_lets ctl ch scrub s1 s2 s3 s4 s5
  have hflags : OnlyRecords s s2 :=
    (set_onlyRecords ..).trans ((bump_onlyRecords ..).trans (bump_onlyRecords ..))
  have hnoted : LeavesUnits s s5 := errorNoted_leavesUnits hflags
  split
  · exact hnoted
  · exact hnoted.trans (markLive_leavesUnits ..)

theorem readLine_leavesUnits (s : State) (who : Req) (ln : Nat) : LeavesUnits s (s.readLine who ln).st := by
  unfold State.readLine
  extract_lets e bs
  cases decodeLine e with
  | clean => exact .refl s
  | corrected fix => exact corrected_leavesUnits ..
  | uncorrectable => exact uncorrected_leavesUnits ..

theorem readLines_leavesUnits (who : Req) (k : Nat) (s : State) (a n : Nat) : LeavesUnits s (readLines who k s a n).st := by
  induction k generalizing s a n with
  | zero => exact .refl s
  | succ k ih =>
    unfold readLines
    split
    · exact .refl s
    · exact (readLine_leavesUnits ..).trans (ih ..)

theorem storeLine_leavesUnits (s : State) (ln : Nat) (bs : List Byte) : LeavesUnits s (s.storeLine ln bs) := ⟨rfl, rfl⟩

theorem invalidate_leavesUnits (s : State) (r : Nat) : LeavesUnits s (s.invalidate r) := by
  unfold State.invalidate
  split
  · exact ⟨rfl, rfl⟩
  · exact .refl s

theorem digestWrite_leavesUnits (s : State) (ln : Nat) (old new : List Byte) :
    LeavesUnits s (s.digestWrite ln old new) := by
  unfold State.digestWrite
  extract_lets r
  split
  · exact ⟨rfl, rfl⟩
  · exact .refl s

theorem writeLineAt_leavesUnits (s : State) (ln : Nat) (bs : List Byte) : LeavesUnits s (s.writeLineAt ln bs) := by
  unfold State.writeLineAt
  extract_lets r o
  have hstored : LeavesUnits s (o.st.storeLine ln bs) := (readLine_leavesUnits ..).trans (storeLine_leavesUnits ..)
  split
  · split
    · exact hstored.trans (invalidate_leavesUnits ..)
    · exact hstored.trans (digestWrite_leavesUnits ..)
  · exact storeLine_leavesUnits ..

theorem writePartAt_leavesUnits (s : State) (ln off : Nat) (bs : List Byte) : LeavesUnits s (s.writePartAt ln off bs) := by
  unfold State.writePartAt
  extract_lets o ctl dropped new
  have hread : LeavesUnits s o.st := readLine_leavesUnits ..
  split
  · have hdropped : OnlyRecords o.st dropped := (set_onlyRecords ..).trans (raise_onlyRecords ..)
    exact hread.trans (hdropped.leavesUnits.trans (invalidate_leavesUnits ..))
  · exact hread.trans ((storeLine_leavesUnits ..).trans (digestWrite_leavesUnits ..))

theorem writeIn_leavesUnits (s : State) (ln off : Nat) (bs : List Byte) : LeavesUnits s (s.writeIn ln off bs) := by
  unfold State.writeIn
  split
  · exact writeLineAt_leavesUnits ..
  · exact writePartAt_leavesUnits ..

/-- What a move owes for a write is noted with the tables. -/
theorem forwardOut_noteDirty_leavesUnits (s : State) (ln off : Nat) (bs : List Byte) :
    LeavesUnits s ((s.forwardOut ln off bs).noteDirty ln) := by
  have hforward : LeavesUnits s (s.forwardOut ln off bs) := by
    unfold State.forwardOut
    split
    · exact .refl s
    · exact ⟨rfl, rfl⟩
  refine hforward.trans ?_
  unfold State.noteDirty
  split
  · exact ⟨rfl, rfl⟩
  · exact .refl _

theorem writeLine_leavesUnits (s : State) (ln off : Nat) (bs : List Byte) : LeavesUnits s (s.writeLine ln off bs) :=
  (List.foldlRecOn (motive := LeavesUnits s) (s.writeTargets ln) _ (.refl s)
    fun _ hu _ _ => hu.trans (writeIn_leavesUnits ..)).trans (forwardOut_noteDirty_leavesUnits ..)

theorem writeLines_leavesUnits (k : Nat) (s : State) (a : Nat) (bs : List Byte) : LeavesUnits s (writeLines k s a bs) := by
  induction k generalizing s a bs with
  | zero => exact .refl s
  | succ k ih =>
    unfold writeLines
    split
    · exact .refl s
    · exact (writeLine_leavesUnits ..).trans (ih ..)

theorem counterAdd_leavesUnits (s : State) (a n : Nat) : LeavesUnits s (s.counterAdd a n) := by
  unfold State.counterAdd
  split
  · exact .refl s
  · exact (readLines_leavesUnits ..).trans (writeLines_leavesUnits ..)

theorem entryAdd_leavesUnits (s : State) (tid : Nat) (c : EvCount) : LeavesUnits s (s.entryAdd tid c) := by
  unfold State.entryAdd
  split
  case h_1 => exact .refl s
  case h_2 =>
    split
    · exact .refl s
    extract_lets a course dropped
    split
    · exact (counterAdd_leavesUnits ..).trans ((counterAdd_leavesUnits ..).trans
        ((counterAdd_leavesUnits ..).trans (counterAdd_leavesUnits ..)))
    split
    · exact .refl s
    · have hdropped : LeavesUnits s dropped := ⟨rfl, rfl⟩
      exact hdropped.trans (raise_onlyRecords ..).leavesUnits

theorem layerBump_leavesUnits (s : State) (layer : Nat) (f : LFld) (n : Nat) : LeavesUnits s (s.layerBump layer f n) := by
  unfold State.layerBump
  split
  · exact .refl s
  · exact ⟨rfl, rfl⟩

theorem countEvents_leavesUnits (s : State) (q tid : Nat) (c : EvCount) : LeavesUnits s (s.countEvents q tid c) := by
  unfold State.countEvents
  split
  · exact .refl s
  extract_lets s1 s2 s3 l
  have hqueue : LeavesUnits s s1 := ⟨rfl, rfl⟩
  have hentry : LeavesUnits s s2 := hqueue.trans (entryAdd_leavesUnits ..)
  split
  · exact hentry
  · have hled : LeavesUnits s2 s3 := (ledBump_leavesUnits ..).trans ((ledBump_leavesUnits ..).trans
      ((ledBump_leavesUnits ..).trans (ledBump_leavesUnits ..)))
    exact hentry.trans (hled.trans ((layerBump_leavesUnits ..).trans ((layerBump_leavesUnits ..).trans
      ((layerBump_leavesUnits ..).trans (layerBump_leavesUnits ..)))))

/-- The events of a row's results leave every cluster and every unit as it is (R78, R233). -/
theorem unitEvents_leavesUnits (s : State) (q : Option Nat) (tid : Nat) (c : EvCount) :
    LeavesUnits s (s.unitEvents q tid c) := by
  cases q with
  | none => exact entryAdd_leavesUnits ..
  | some q => exact countEvents_leavesUnits ..

end

/-! ### What the activity of an instruction leaves alone -/

section
variable {s : State}

theorem act_eq (s : State) (q k n : Nat) : ∃ pwr, s.act q k n = { s with pwr := pwr } := by
  unfold State.act
  split
  · exact ⟨_, rfl⟩
  · exact ⟨_, rfl⟩

/-- Activity is counted in the power stage (R387). -/
theorem unitAct_eq (s : State) (r : UpdRun) (w : UWord) : ∃ pwr, s.unitAct r w = { s with pwr := pwr } := by
  unfold State.unitAct
  cases r.q with
  | none => exact ⟨_, rfl⟩
  | some q =>
    refine List.foldlRecOn (motive := fun u : State => ∃ pwr, u = { s with pwr := pwr }) _ _ (act_eq s q 7 r.n) ?_
    rintro _ ⟨_, rfl⟩ p -
    exact act_eq _ q _ _

end

/-! ### Registers of a row -/

section
variable {r : UpdRun} {d k : Nat} {vs : List F32}

/-- Values written to places from `b` on leave every other place as it was. -/
theorem get_foldl_put_of_outside {b x : Nat} (vs : List F32) (n : Nat) (m : Sparse F32)
    (h : x < b + n ∨ b + n + vs.length ≤ x) :
    Sparse.get 0#32 ((vs.zipIdx n).foldl (fun m p => Sparse.put 0#32 m (b + p.2) p.1) m) x = Sparse.get 0#32 m x := by
  induction vs generalizing n m with
  | nil => rfl
  | cons v vs ih =>
    rw [List.length_cons] at h
    rw [List.zipIdx_cons, List.foldl_cons, ih _ _ (by omega), get_put_of_ne _ _ _ _ (by omega)]

/-- The registers of a row lie 16,384 places apart, so that a row of no more elements writes one of them (R227). -/
theorem reg_put_of_ne (hlen : vs.length = r.n) (hrow : r.n ≤ 16384) (hk : k ≠ d) : (r.put d vs).reg k = r.reg k := by
  refine List.map_congr_left fun i hi => ?_
  have hi : i < r.n := List.mem_range.1 hi
  exact get_foldl_put_of_outside vs 0 r.regs (by omega)

end

/-! ### The instructions of Table 9.5 -/

section
variable {u : Nat} {r : UpdRun} {op : Nat} {s : State}

/-- At its own word an instruction applies its effect to the row, which goes on at the next word. -/
theorem unitInstr_of_runs (h : UnitRuns s u r op) (f : UEffect) : s.unitInstr u op f = unitDone s u r f := by
  obtain ⟨hrun, hop⟩ := h
  simp only [State.unitInstr, hrun, hop, if_true]
  rfl

theorem updEnd_of_runs {u : Fin 24} (h : UnitRuns s u r 0x00) : exec (.updEnd u) s = .next (s.closeRun u r) := by
  obtain ⟨hrun, hop⟩ := h
  simp only [exec, execUpdEnd, hrun, hop, if_true]

/-- An effect that computes: of its row it writes the destination register alone, one value for each element, and it
touches no cluster and no unit. -/
structure Computes (f : UEffect) : Prop where
  leaves : ∀ s u r w, LeavesUnits s (f s u r w).1
  puts : ∀ s u r w, ∃ vs : List F32, vs.length = r.n ∧ (f s u r w).2 = r.put w.d vs

/-- The instructions that count no events. -/
abbrev quietEffects : List UEffect := [effFsel, effRamax, effLdk, effLdcol]

theorem quietEffect_eq {f : UEffect} (hf : f ∈ quietEffects) (s : State) (u : Nat) (r : UpdRun) (w : UWord) :
    ∃ vs : List F32, vs.length = r.n ∧ f s u r w = (s, r.put w.d vs) := by
  simp only [quietEffects, List.mem_cons, List.not_mem_nil, or_false] at hf
  obtain rfl | rfl | rfl | rfl := hf <;> exact ⟨_, by simp, rfl⟩

theorem computes_of_quiet {f : UEffect} (hf : f ∈ quietEffects) : Computes f where
  leaves s u r w := by
    obtain ⟨_, -, h⟩ := quietEffect_eq hf s u r w
    rw [h]
    exact .refl s
  puts s u r w := by
    obtain ⟨vs, hlen, h⟩ := quietEffect_eq hf s u r w
    exact ⟨vs, hlen, congrArg Prod.snd h⟩

theorem computes_effArith (op : FOp) : Computes (effArith op) where
  leaves _ _ _ _ := unitEvents_leavesUnits ..
  puts _ _ _ _ := ⟨_, by simp, rfl⟩

/-- The frame of an instruction that computes. -/
theorem Computes.frame {f : UEffect} (hf : Computes f) {v : Nat} (hv : v ≠ u) (hn : r.n ≤ 16384) :
    let t := unitDone s u r f
    t.clusters = s.clusters ∧ t.runOf v = s.runOf v ∧
      ∃ r', t.runOf u = some r' ∧ r'.pc = r.pc + 1 ∧ r'.binding = r.binding ∧ r'.accs = r.accs ∧ r'.row = r.row ∧
        r'.sums = r.sums ∧ r'.cols = r.cols ∧ ∀ k, k ≠ (s.nextWord r).d → r'.reg k = r.reg k := by
  intro t
  let x := f (s.unitAct r (s.nextWord r)) u r (s.nextWord r)
  have hact : LeavesUnits s (s.unitAct r (s.nextWord r)) := by
    obtain ⟨_, h⟩ := unitAct_eq s r (s.nextWord r)
    rw [h]
    exact ⟨rfl, rfl⟩
  have hx : LeavesUnits s x.1 := hact.trans (hf.leaves ..)
  obtain ⟨vs, hlen, hput⟩ : ∃ vs : List F32, vs.length = r.n ∧ x.2 = r.put (s.nextWord r).d vs := hf.puts ..
  have hother : t.runOf v = x.1.runOf v := get_put_of_ne _ _ _ _ hv
  have hown : t.runOf u = some { x.2 with pc := r.pc + 1 } := get_put_self ..
  refine ⟨hx.clusters, ?_, _, hown, rfl, ?_⟩
  · rw [hother, State.runOf, hx.upd, State.runOf]
  · rw [hput]
    exact ⟨rfl, rfl, rfl, rfl, rfl, fun k hk => reg_put_of_ne hlen hn hk⟩

/-- An instruction that counts no events changes the units and the power stage's counts of activity, and nothing else. -/
theorem unitDone_of_quiet {f : UEffect} (hf : f ∈ quietEffects) (s : State) (u : Nat) (r : UpdRun) :
    ∃ pwr upd, unitDone s u r f = { s with pwr := pwr, upd := upd } := by
  obtain ⟨pwr, hact⟩ := unitAct_eq s r (s.nextWord r)
  let x := f (s.unitAct r (s.nextWord r)) u r (s.nextWord r)
  obtain ⟨_, -, heffect⟩ := quietEffect_eq hf (s.unitAct r (s.nextWord r)) u r (s.nextWord r)
  have hx : x.1 = { s with pwr := pwr } := (congrArg Prod.fst heffect).trans hact
  exact ⟨pwr, _, congrArg (State.setRun · u (some { x.2 with pc := r.pc + 1 })) hx⟩

end

/-- Settles O41: a computing instruction writes one register of its row, whose places no other register shares, and
counting its events touches no cluster and no unit. -/
theorem unitFrame : Obligations.UnitFrame := by
  unfold Obligations.UnitFrame
  intro u v r s _ huv hn
  have hv : v.val ≠ u.val := fun h => huv (Fin.ext h.symm)
  refine ⟨fun f hf => ?quiet, fun f hf => ?computes⟩
  case quiet =>
    obtain ⟨_, _, h⟩ := unitDone_of_quiet hf s u r
    rw [h]
    exact ⟨rfl, rfl, rfl, rfl, rfl⟩
  case computes =>
    have hcomputes : Computes f := by
      obtain hquiet | ⟨op, rfl⟩ := hf
      · exact computes_of_quiet hquiet
      · exact computes_effArith op
    exact hcomputes.frame hv hn

/-- Settles O40: every opcode but END is an instruction of the unit with its own effect. -/
theorem unitInstructionsRun : Obligations.UnitInstructionsRun := by
  unfold Obligations.UnitInstructionsRun
  intro u r s
  have runs {op : Nat} (f : UEffect) (h : UnitRuns s u r op) :
      (Host.Outcome.next (s.unitInstr u op f) : Out) = .next (unitDone s u r f) :=
    congrArg Host.Outcome.next (unitInstr_of_runs h f)
  exact ⟨updEnd_of_runs, runs _, runs _, runs _, runs _, runs _, runs _, runs _, runs _, runs _, runs _, runs _, runs _,
    runs _, runs _, runs _, runs _, runs _, runs _, runs _, runs _, runs _, runs _, runs _⟩

/-! ### Adds and the fold -/

section
variable {u : Fin 24} {s : State}

theorem localRowAdd_of_waiting {a : RowAdd} (hfirst : s.upd.adds.find? (fun a => a.unit == u.val) = some a) :
    let t : State := { s with upd := { s.upd with adds := s.upd.adds.erase a } }
    let r := t.applyAdd u a.table a.row a.accs a.count (some a.q)
    (r.1 = .ok → exec (.localRowAdd u) s = .next (r.2.addAnswered a.die a.desc)) ∧
      (r.1 = .refused → exec (.localRowAdd u) s = .next (r.2.addRefused a.die a.desc true)) ∧
      (r.1 = .full → exec (.localRowAdd u) s = .next (r.2.addRefused a.die a.desc false)) := by
  intro t r
  have hexec : exec (.localRowAdd u) s = .next (match r.1 with
      | .ok => r.2.addAnswered a.die a.desc
      | .refused => r.2.addRefused a.die a.desc true
      | .full => r.2.addRefused a.die a.desc false
      | .away dev => r.2.ask a.q dev 0x04 (a.table * 64) 0 (rowAddBytes a.table a.row a.count a.accs) (.add a.die a.desc)
        (t.queueWadding a.q)) := by
    simp only [exec, execLocalRowAdd, hfirst]
    rfl
  exact ⟨fun h => by rw [hexec, h], fun h => by rw [hexec, h], fun h => by rw [hexec, h]⟩

/-- The least touched row of an idle unit: skipped when its count is too high, opened otherwise (R225, R237). -/
theorem foldRow_of_touched {k : Nat × Nat} {rest : List (Nat × Nat)} (hfold : s.course.fold = 1) (hidle : s.runOf u = none)
    (htouched : s.touched u = k :: rest) :
    let n := match s.tableNow k.1 with | some v => (tdesc v.1).elems | none => 0
    let sums := s.keySums u k n
    let h := sums.2.2.headroom u k.1 k.2 sums.2.1
    (h.1 = false → ∀ b, exec (.foldRow u b) s = .next ((h.2.freeKey u k).syncFolding u)) ∧
      (∀ r, h.1 = true → h.2.openRow k.1 k.2 sums.1 true (some s.course.queue) = some r →
        exec (.foldRow u false) s = .next (h.2.setRun u (some r)) ∧
        exec (.foldRow u true) s = .next (runRow 65 (h.2.setRun u (some r)) u)) := by
  intro n sums h
  have hexec (b : Bool) : exec (.foldRow u b) s = if h.1 then
        match h.2.openRow k.1 k.2 sums.1 true (some s.course.queue) with
        | none => .next ((h.2.freeKey u k).syncFolding u)
        | some r => .next (if b then runRow 65 (h.2.setRun u (some r)) u else h.2.setRun u (some r))
      else .next ((h.2.freeKey u k).syncFolding u) := by
    simp only [exec, execFoldRow, hfold, hidle, htouched, Option.isNone_none, and_self, if_true]
    rfl
  refine ⟨fun hskip b => ?_, fun r hroom hopen => ⟨?_, ?_⟩⟩
  · rw [hexec, hskip]
    rfl
  · rw [hexec, hroom, hopen]
    rfl
  · rw [hexec, hroom, hopen]
    rfl

/-- The next dense item of an idle unit is opened in STAT, or in UPD when its program has no STAT (R227). -/
theorem denseFoldItem_of_left {i b : Nat} {x : Issuer} {d : DenseItem} {p : CourseProgram} {rest : List Nat}
    (hfold : s.course.fold = 1) (hidle : s.runOf u = none) (hleft : s.denseLeft u = i :: rest)
    (hprog : s.course.prog = some p) (hitem : p.items[i]? = some ⟨x, b, .denseFold d⟩) :
    let phase := if s.progStat (bindProg d.binding) then 0 else 2
    let t := s.setRun u (some (s.openDense i d phase 0 none))
    exec (.denseFoldItem u false) s = .next t ∧ exec (.denseFoldItem u true) s = .next (runRows (2 * d.rows + 2) t u) := by
  intro phase t
  have hexec (whole : Bool) :
      exec (.denseFoldItem u whole) s = .next (if whole then runRows (2 * d.rows + 2) t u else t) := by
    simp only [exec, execDenseFoldItem, hfold, hidle, hleft, hprog, hitem, Option.isNone_none, and_self, if_true]
    rfl
  exact ⟨hexec false, hexec true⟩

end

/-! ### UPD_PROGRAM and UPD_BIND -/

section
variable {q : Fin 16384} {seq : Nat} {c : Cmd} {s : State}

theorem updProgram_of_mapped (hacc : Accepted 0x0307 q seq c s) (hslot : c.par 16 1 < 64) (haligned : c.par 24 8 % 64 = 0)
    (hlocal : c.par 24 8 < 2 ^ 43) (hmem : s.memRange (c.par 24 8) (c.par 32 2) = true) :
    let r := s.readMem .engine (c.par 24 8) (c.par 32 2)
    (∀ k, checkProgram r.bytes = some k → exec (.updProgram q seq) s = .next (r.st.fail c stProgramInvalid k)) ∧
      (checkProgram r.bytes = none →
        (let im := tablePut r.st.upd.prog (c.par 16 1 * 512) (padTo 512 r.bytes)
         let t : State := { r.st with upd := { r.st.upd with prog := im } }
         exec (.updProgram q seq) s =
          .next ((t.set F.UPD_PROG_VALID_VALID (t.get F.UPD_PROG_VALID_VALID ||| 2 ^ c.par 16 1)).succeed c 0))) := by
  intro r
  have hexec : exec (.updProgram q seq) s = .next (match checkProgram r.bytes with
      | some k => r.st.fail c stProgramInvalid k
      | none =>
        let im := tablePut r.st.upd.prog (c.par 16 1 * 512) (padTo 512 r.bytes)
        let t : State := { r.st with upd := { r.st.upd with prog := im } }
        (t.set F.UPD_PROG_VALID_VALID (t.get F.UPD_PROG_VALID_VALID ||| 2 ^ c.par 16 1)).succeed c 0) := by
    simp only [exec, execUpdProgram, runCmd_of_accepted hacc, if_neg hslot.not_ge, needA_of_aligned haligned hlocal,
      needMem_of_range hmem]
    rfl
  exact ⟨fun k hbad => by rw [hexec, hbad], fun hsound => by rw [hexec, hsound]⟩

theorem updBind_of_sound (hacc : Accepted 0x0308 q seq c s) (haligned : c.par 24 8 % 64 = 0)
    (hlocal : c.par 24 8 < 2 ^ 43) (hfree : s.deltaFree = true) (hmem : s.memRange (c.par 24 8) 64 = true)
    (hplace : s.memRange (s.bindAddr (c.par 16 2)) 64 = true) :
    let r := s.readMem .engine (c.par 24 8) 64
    let a := r.st.bindAddr (c.par 16 2)
    r.st.bindingOk r.bytes false = true → r.st.bindingFits (c.par 16 2) r.bytes = true →
      r.st.writeStop .update false a 64 = none →
      exec (.updBind q seq) s = .next ((r.st.writeMem a r.bytes).succeed c 0) := by
  intro r a hsound hfits hunlocked
  simp only [exec, execUpdBind, runCmd_of_accepted hacc, needA_of_aligned haligned hlocal, hfree, Bool.not_true,
    Bool.false_eq_true, if_false, needMem_of_range hmem, needMem_of_range hplace]
  rw [if_pos (Bool.and_eq_true_iff.2 ⟨hsound, hfits⟩), hunlocked]
  rfl

end

/-- Settles O42: each row is taken where its guard holds, and the two commands pass their checks in order. -/
theorem updateRuns : Obligations.UpdateRuns := by
  unfold Obligations.UpdateRuns
  refine ⟨?add, ?fold, ?dense, ?program, ?bind⟩
  case add =>
    exact fun u a s => localRowAdd_of_waiting
  case fold =>
    exact fun u k rest s => foldRow_of_touched
  case dense =>
    exact fun u i b x d p rest s => denseFoldItem_of_left
  case program =>
    exact fun q seq c s => updProgram_of_mapped
  case bind =>
    exact fun q seq c s => updBind_of_sound

end Sys2Proof.Proofs

/-! ## The check code of a line (R248 to R252) -/

namespace Sys2Proof.Proofs
open Sys2Proof.Machine

/-! ### Multiplication in GF(2^16), whose addition is the exclusive or -/

section
variable {a b n k v : Nat}

/-- Doubling shifts, and reduces by the field's polynomial when the top bit leaves the symbol. -/
theorem gfDouble_eq (ha : a < 2 ^ 16) : gfDouble a = 2 * a ^^^ if a.testBit 15 then 0x1100B else 0 := by
  have htop : a.testBit 15 = true ↔ ¬ a < 0x8000 := by
    rw [Nat.testBit_eq_decide_div_mod_eq, decide_eq_true_iff]
    omega
  by_cases hlow : a < 0x8000
  · rw [gfDouble, if_pos hlow, if_neg (by rwa [htop, not_not]), Nat.xor_zero]
  · rw [gfDouble, if_neg hlow, if_pos (htop.2 hlow)]

theorem gfDouble_lt (ha : a < 2 ^ 16) : gfDouble a < 2 ^ 16 := by
  unfold gfDouble
  split
  case isTrue hlow => omega
  case isFalse hhigh =>
    have hcarry : 2 * a / 2 ^ 16 = 1 := by omega
    refine Nat.lt_of_div_eq_zero (by decide) ?_
    rw [Nat.xor_div_two_pow, hcarry]
    rfl

theorem gfDouble_xor (ha : a < 2 ^ 16) (hb : b < 2 ^ 16) : gfDouble (a ^^^ b) = gfDouble a ^^^ gfDouble b := by
  have hshift : 2 * (a ^^^ b) = 2 * a ^^^ 2 * b := by
    simpa only [Nat.shiftLeft_eq, pow_one, Nat.mul_comm] using Nat.shiftLeft_xor_distrib (i := 1) (a := a) (b := b)
  rw [gfDouble_eq ha, gfDouble_eq hb, gfDouble_eq (Nat.xor_lt_two_pow ha hb), Nat.testBit_xor, hshift]
  have hreduce (p q : Bool) : (if (p ^^ q) = true then 0x1100B else 0) =
      (if p = true then 0x1100B else 0) ^^^ (if q = true then 0x1100B else 0 : Nat) := by
    revert p q
    decide
  rw [hreduce]
  ac_rfl

/-- Only zero doubles to zero: what a carry brings in is odd. -/
theorem gfDouble_eq_zero (h : gfDouble a = 0) : a = 0 := by
  unfold gfDouble at h
  split at h
  case isTrue => omega
  case isFalse =>
    have heq : 2 * a = 0x1100B := Nat.xor_eq_zero_iff.1 h
    omega

theorem iterate_gfDouble_lt (ha : a < 2 ^ 16) (k : Nat) : gfDouble^[k] a < 2 ^ 16 :=
  Function.Iterate.rec (fun x => x < 2 ^ 16) ha (fun _ => gfDouble_lt) k

theorem iterate_gfDouble_xor (ha : a < 2 ^ 16) (hb : b < 2 ^ 16) (k : Nat) :
    gfDouble^[k] (a ^^^ b) = gfDouble^[k] a ^^^ gfDouble^[k] b := by
  induction k generalizing a b with
  | zero => rfl
  | succ k ih =>
    simp only [Function.iterate_succ_apply, gfDouble_xor ha hb, ih (gfDouble_lt ha) (gfDouble_lt hb)]

theorem iterate_gfDouble_eq_zero (h : gfDouble^[k] a = 0) : a = 0 := by
  induction k with
  | zero => exact h
  | succ k ih => exact ih (gfDouble_eq_zero (by rwa [Function.iterate_succ_apply'] at h))

theorem gfMulBits_zero (n a : Nat) : gfMulBits n a 0 = 0 := by
  induction n generalizing a with
  | zero => rfl
  | succ n ih => simpa [gfMulBits] using ih _

theorem gfMulBits_xor (n a b c : Nat) : gfMulBits n a (b ^^^ c) = gfMulBits n a b ^^^ gfMulBits n a c := by
  induction n generalizing a b c with
  | zero => exact (Nat.xor_self 0).symm
  | succ n ih =>
    have hbit : (if (b ^^^ c) % 2 = 1 then a else 0) = (if b % 2 = 1 then a else 0) ^^^ (if c % 2 = 1 then a else 0) := by
      rw [Nat.xor_mod_two_eq, Nat.add_mod]
      rcases Nat.mod_two_eq_zero_or_one b with hb | hb <;> rcases Nat.mod_two_eq_zero_or_one c with hc | hc <;>
        simp [hb, hc]
    rw [gfMulBits, gfMulBits, gfMulBits, hbit, Nat.xor_div_two, ih]
    ac_rfl

/-- Multiplication by a power of two doubles that often. -/
theorem gfMulBits_two_pow (h : k < n) (a : Nat) : gfMulBits n a (2 ^ k) = gfDouble^[k] a := by
  induction k generalizing n a with
  | zero =>
    obtain ⟨n, rfl⟩ := Nat.exists_eq_succ_of_ne_zero (Nat.ne_of_gt h)
    have hone : gfMulBits (n + 1) a 1 = a ^^^ gfMulBits n (gfDouble a) 0 := rfl
    rw [pow_zero, hone, gfMulBits_zero, Nat.xor_zero]
    rfl
  | succ k ih =>
    obtain ⟨n, rfl⟩ := Nat.exists_eq_succ_of_ne_zero (Nat.ne_of_gt (Nat.zero_lt_of_lt h))
    have heven : 2 ^ (k + 1) % 2 = 0 := by omega
    have hhalf : 2 ^ (k + 1) / 2 = 2 ^ k := by omega
    rw [gfMulBits, if_neg (by omega), Nat.zero_xor, hhalf, ih (by omega), Function.iterate_succ_apply]

theorem gfMulBits_lt (ha : a < 2 ^ 16) (n b : Nat) : gfMulBits n a b < 2 ^ 16 := by
  induction n generalizing a b with
  | zero => exact Nat.two_pow_pos 16
  | succ n ih => exact Nat.xor_lt_two_pow (by split <;> omega) (ih (gfDouble_lt ha) _)

theorem gfMulBits_gfDouble (ha : a < 2 ^ 16) (n b : Nat) :
    gfMulBits n (gfDouble a) b = gfDouble (gfMulBits n a b) := by
  induction n generalizing a b with
  | zero => rfl
  | succ n ih =>
    have hbit : (if b % 2 = 1 then gfDouble a else 0) = gfDouble (if b % 2 = 1 then a else 0) :=
      (apply_ite gfDouble _ a 0).symm
    rw [gfMulBits, gfMulBits, hbit, ih (gfDouble_lt ha),
      gfDouble_xor (by split <;> omega) (gfMulBits_lt (gfDouble_lt ha) ..)]

/-- An operation on symbols that respects sums and keeps every single bit keeps every symbol. -/
theorem eq_self_of_xor {f : Nat → Nat} (hxor : ∀ a b, a < 2 ^ 16 → b < 2 ^ 16 → f (a ^^^ b) = f a ^^^ f b)
    (hbit : ∀ k < 16, f (2 ^ k) = 2 ^ k) (hn : n ≤ 16) (ha : a < 2 ^ n) : f a = a := by
  induction n generalizing a with
  | zero =>
    obtain rfl : a = 0 := by omega
    have h := hxor 0 0 (by decide) (by decide)
    rwa [Nat.xor_self, Nat.xor_self] at h
  | succ n ih =>
    by_cases hlow : a < 2 ^ n
    · exact ih (by omega) hlow
    · have hle : (2 : Nat) ^ n ≤ 2 ^ 15 := Nat.pow_le_pow_right (by decide) (by omega)
      have htop : a / 2 ^ n = 1 := Nat.div_eq_of_lt_le (by omega) (by omega)
      have hrest : a ^^^ 2 ^ n < 2 ^ n := by
        refine Nat.lt_of_div_eq_zero (Nat.two_pow_pos n) ?_
        rw [Nat.xor_div_two_pow, htop, Nat.div_self (Nat.two_pow_pos n), Nat.xor_self]
      calc f a = f ((a ^^^ 2 ^ n) ^^^ 2 ^ n) := by rw [Nat.xor_xor_cancel_right]
        _ = f (a ^^^ 2 ^ n) ^^^ f (2 ^ n) := hxor _ _ (by omega) (by omega)
        _ = (a ^^^ 2 ^ n) ^^^ 2 ^ n := by rw [ih (by omega) hrest, hbit n (by omega)]
        _ = a := Nat.xor_xor_cancel_right ..

theorem gfMul_one (ha : a < 2 ^ 16) : gfMul 1 a = a := by
  refine eq_self_of_xor (fun b c _ _ => gfMulBits_xor ..) (fun k hk => ?_) le_rfl ha
  rw [gfMul, gfMulBits_two_pow hk]
  revert k
  decide

theorem alphaPow_lt (k : Nat) : alphaPow k < 2 ^ 16 := by
  induction k with
  | zero => decide
  | succ k ih => exact gfDouble_lt ih

/-- Multiplication by a power of α doubles that often. -/
theorem gfMul_alphaPow (ha : a < 2 ^ 16) (k : Nat) : gfMul (alphaPow k) a = gfDouble^[k] a := by
  induction k with
  | zero => exact gfMul_one ha
  | succ k ih =>
    rw [alphaPow, gfMul, gfMulBits_gfDouble (alphaPow_lt k), Function.iterate_succ_apply', ← ih]
    rfl

/-- The factor α^k − 1 between two places of a codeword has an inverse. -/
theorem gfInv_gfMul_bit : ∀ k < 36, k ≠ 0 → ∀ i < 16,
    gfMul (gfInv (alphaPow k ^^^ 1)) (gfDouble^[k] (2 ^ i) ^^^ 2 ^ i) = 2 ^ i := by
  decide +kernel

/-- No symbol but zero has the same multiple at two places of a codeword. -/
theorem eq_zero_of_iterate_gfDouble_eq_self (ha : a < 2 ^ 16) (hk : k < 36) (hpos : k ≠ 0) (h : gfDouble^[k] a = a) :
    a = 0 := by
  have hinv : gfMul (gfInv (alphaPow k ^^^ 1)) (gfDouble^[k] a ^^^ a) = a := by
    refine eq_self_of_xor (f := fun a => gfMul (gfInv (alphaPow k ^^^ 1)) (gfDouble^[k] a ^^^ a)) (fun b c hb hc => ?_)
      (gfInv_gfMul_bit k hk hpos) le_rfl ha
    have hsplit : gfDouble^[k] (b ^^^ c) ^^^ (b ^^^ c) = (gfDouble^[k] b ^^^ b) ^^^ (gfDouble^[k] c ^^^ c) := by
      rw [iterate_gfDouble_xor hb hc]
      ac_rfl
    simp only [hsplit]
    exact gfMulBits_xor ..
  rw [h, Nat.xor_self] at hinv
  exact hinv.symm.trans (gfMulBits_zero ..)

theorem iterate_gfDouble_inj (hv : v < 2 ^ 16) (hne : v ≠ 0) (hn : n < 36) (hk : k < 36)
    (h : gfDouble^[n] v = gfDouble^[k] v) : n = k := by
  wlog hle : n ≤ k generalizing n k
  · exact (this hk hn h.symm (by omega)).symm
  by_contra hdiff
  obtain ⟨d, rfl⟩ := Nat.exists_eq_add_of_le hle
  rw [Nat.add_comm, Function.iterate_add_apply] at h
  exact hne (iterate_gfDouble_eq_zero
    (eq_zero_of_iterate_gfDouble_eq_self (iterate_gfDouble_lt hv n) (by omega) (by omega) h.symm))

end

/-! ### The decoder meets one wrong symbol -/

section
variable {i j v : Nat}

/-- The pattern of one wrong symbol. -/
theorem symOf_single (hv : v < 2 ^ 16) (j k : Nat) : symOf (v * 2 ^ (16 * j)) k = if k = j then v else 0 := by
  unfold symOf
  rcases lt_trichotomy k j with hk | rfl | hk
  · obtain ⟨d, rfl⟩ := Nat.exists_eq_add_of_lt hk
    have hshift : v * 2 ^ (16 * (k + d + 1)) = v * 2 ^ (16 * d) * 65536 * 2 ^ (16 * k) := by ring
    rw [hshift, Nat.mul_div_cancel _ (Nat.two_pow_pos _), Nat.mul_mod_left, if_neg (by omega)]
  · rw [Nat.mul_div_cancel _ (Nat.two_pow_pos _), if_pos rfl]
    exact Nat.mod_eq_of_lt hv
  · obtain ⟨d, rfl⟩ := Nat.exists_eq_add_of_lt hk
    have hshift : 2 ^ (16 * (j + d + 1)) = 2 ^ (16 * j) * (2 ^ 16 * 2 ^ (16 * d)) := by ring
    have hsmall : v < 2 ^ 16 * 2 ^ (16 * d) := hv.trans_le (Nat.le_mul_of_pos_right _ (Nat.two_pow_pos _))
    rw [hshift, Nat.mul_comm v, Nat.mul_div_mul_left _ _ (Nat.two_pow_pos _), Nat.div_eq_of_lt hsmall, if_neg (by omega)]

/-- The syndrome polynomial after the first `n` symbols: zero until the wrong one, then multiplied on at each. -/
theorem syndrome_steps (hi : i < 4) (hv : v < 2 ^ 16) (j n : Nat) :
    (List.range n).foldl (fun acc k => gfMul acc (alphaPow i) ^^^ symOf (v * 2 ^ (16 * j)) k) 0 =
      if n ≤ j then 0 else gfDouble^[i * (n - 1 - j)] v := by
  have hpow : alphaPow i = 2 ^ i := by
    revert i
    decide
  induction n with
  | zero => rw [if_pos (Nat.zero_le j)]; rfl
  | succ n ih =>
    have hmul (a : Nat) : gfMul a (alphaPow i) = gfDouble^[i] a := by rw [hpow, gfMul, gfMulBits_two_pow (by omega)]
    have hzero : gfDouble^[i] 0 = 0 := Function.iterate_fixed rfl i
    rw [List.range_succ, List.foldl_append, ih, List.foldl_cons, List.foldl_nil, hmul, symOf_single hv]
    rcases lt_trichotomy n j with hn | rfl | hn
    · rw [if_pos (by omega), if_neg (by omega), if_pos (by omega), hzero, Nat.xor_zero]
    · rw [if_pos le_rfl, if_pos rfl, if_neg (by omega), hzero, Nat.zero_xor, Nat.add_sub_cancel, Nat.sub_self, Nat.mul_zero]
      rfl
    · have hexp : i * (n + 1 - 1 - j) = i + i * (n - 1 - j) := by
        rw [show n + 1 - 1 - j = n - 1 - j + 1 by omega]
        ring
      rw [if_neg (by omega), if_neg (by omega), if_neg (by omega), Nat.xor_zero, hexp, Function.iterate_add_apply]

theorem syndrome_single (hi : i < 4) (hj : j < 36) (hv : v < 2 ^ 16) :
    syndrome (v * 2 ^ (16 * j)) i = gfDouble^[i * (35 - j)] v :=
  (syndrome_steps hi hv j 36).trans (if_neg (by omega))

/-- Each syndrome of one wrong symbol is the multiple of the one before by its place. -/
theorem gfMul_syndrome_single (hi : i < 3) (hj : j < 36) (hv : v < 2 ^ 16) :
    gfMul (alphaPow (35 - j)) (syndrome (v * 2 ^ (16 * j)) i) = syndrome (v * 2 ^ (16 * j)) (i + 1) := by
  rw [syndrome_single (by omega) hj hv, syndrome_single (by omega) hj hv, gfMul_alphaPow (iterate_gfDouble_lt hv _),
    ← Function.iterate_add_apply]
  congr 2
  ring

theorem syndrome_single_zero (hj : j < 36) (hv : v < 2 ^ 16) : syndrome (v * 2 ^ (16 * j)) 0 = v :=
  (syndrome_single (by decide) hj hv).trans (by rw [Nat.zero_mul]; rfl)

/-- The first step of the search for one wrong symbol finds it, and no other place fits. -/
theorem decodeOne_single (hj : j < 36) (hv : v < 2 ^ 16) (hne : v ≠ 0) :
    decodeOne (syndrome (v * 2 ^ (16 * j)) 0) (syndrome (v * 2 ^ (16 * j)) 1) (syndrome (v * 2 ^ (16 * j)) 2)
      (syndrome (v * 2 ^ (16 * j)) 3) = some [(j, v)] := by
  unfold decodeOne
  cases hfound : List.findSome? _ (List.range 36) with
  | none =>
    have hj' := List.findSome?_eq_none_iff.1 hfound j (List.mem_range.2 hj)
    simp only [gfMul_syndrome_single (i := 0) (by decide) hj hv, gfMul_syndrome_single (i := 1) (by decide) hj hv,
      gfMul_syndrome_single (i := 2) (by decide) hj hv, and_self, if_true] at hj'
    cases hj'
  | some fix =>
    obtain ⟨p, hp, hfix⟩ := List.exists_of_findSome?_eq_some hfound
    obtain ⟨⟨hplace, -⟩, hvalue⟩ := (Option.ite_none_right_eq_some ..).1 hfix
    rw [syndrome_single_zero hj hv, gfMul_alphaPow hv, syndrome_single (by decide) hj hv, Nat.one_mul] at hplace
    have hsame : 35 - p = 35 - j := iterate_gfDouble_inj hv hne (by omega) (by omega) hplace
    rw [List.mem_range] at hp
    rw [← hvalue, syndrome_single_zero hj hv, show p = j by omega]

theorem decodeLine_single (hj : j < 36) (hv : v < 2 ^ 16) (hne : v ≠ 0) :
    decodeLine (v * 2 ^ (16 * j)) = .corrected [(j, v)] := by
  have hpattern : v * 2 ^ (16 * j) ≠ 0 := Nat.mul_ne_zero hne (Nat.two_pow_pos _).ne'
  have hs0 : syndrome (v * 2 ^ (16 * j)) 0 ≠ 0 := by rwa [syndrome_single_zero hj hv]
  simp only [decodeLine, if_neg hpattern, hs0, false_and, if_false, decodeOne_single hj hv hne]

end

/-- Settles O34: the syndromes of one wrong symbol are its value times the powers of its place, and no two places of a
codeword have a power in common. -/
theorem symbolCorrected : Obligations.SymbolCorrected := by
  unfold Obligations.SymbolCorrected
  exact ⟨rfl, fun j v hj hpos hv => ⟨decodeLine_single hj hv (by omega), Nat.xor_self _⟩⟩

end Sys2Proof.Proofs

/-! ## Writes and reads of memory, line by line (R5, R243, R244) -/

namespace Sys2Proof.Proofs
open Sys2Proof.Machine Sys2Proof.Laws

/-! ### Byte tables in parts -/

section
variable {m m' : Sparse Byte}

theorem tableBytes_add (m : Sparse Byte) (a i n : Nat) :
    tableBytes m a (i + n) = tableBytes m a i ++ tableBytes m (a + i) n := by
  induction i generalizing a with
  | zero => rw [Nat.zero_add]; rfl
  | succ i ih =>
    rw [Nat.add_right_comm, tableBytes, tableBytes, ih, Nat.add_right_comm a 1 i, Nat.add_assoc a i 1]
    rfl

theorem tableBytes_congr (h : ∀ x, Sparse.get 0#8 m x = Sparse.get 0#8 m' x) (a n : Nat) :
    tableBytes m a n = tableBytes m' a n := by
  induction n generalizing a with
  | zero => rfl
  | succ n ih => rw [tableBytes, tableBytes, h, ih]

/-- A part of the bytes of a range. -/
theorem tableBytes_drop_take (m : Sparse Byte) (a : Nat) {o i n : Nat} (h : o + i ≤ n) :
    ((tableBytes m a n).drop o).take i = tableBytes m (a + o) i := by
  obtain ⟨r, rfl⟩ := Nat.exists_eq_add_of_le h
  rw [tableBytes_add, tableBytes_add, List.append_assoc, List.drop_left' (length_tableBytes ..),
    List.take_left' (length_tableBytes ..)]

/-- A write in two parts, the second where the first ends. -/
theorem tablePut_take_drop (m : Sparse Byte) (a k : Nat) (bs : List Byte) :
    tablePut (tablePut m a (bs.take k)) (a + k) (bs.drop k) = tablePut m a bs := by
  induction bs generalizing m a k with
  | nil => rw [List.take_nil, List.drop_nil]; rfl
  | cons b bs ih =>
    cases k with
    | zero => rfl
    | succ k =>
      rw [List.take_succ_cons, List.drop_succ_cons, tablePut, tablePut, ← ih, Nat.add_right_comm, Nat.add_assoc]

theorem get_tablePut_congr (h : ∀ x, Sparse.get 0#8 m x = Sparse.get 0#8 m' x) (a : Nat) (bs : List Byte) (x : Nat) :
    Sparse.get 0#8 (tablePut m a bs) x = Sparse.get 0#8 (tablePut m' a bs) x := by
  rw [get_tablePut, get_tablePut, h]

end

/-! ### What reads, digests and events leave of memory and of the tables -/

/-- Between the states neither a byte of memory nor the tables have changed. -/
structure LeavesMemory (s u : State) : Prop where
  mem : u.mem = s.mem
  tables : u.tables = s.tables

section
variable {s t u : State}

theorem LeavesMemory.refl (s : State) : LeavesMemory s s := ⟨rfl, rfl⟩

theorem LeavesMemory.trans (h : LeavesMemory s t) (k : LeavesMemory t u) : LeavesMemory s u :=
  ⟨k.mem.trans h.mem, k.tables.trans h.tables⟩

theorem OnlyRecords.leavesMemory (h : OnlyRecords s u) : LeavesMemory s u := ⟨h.mem, h.tables⟩

theorem logError_mem (s : State) (ctl ch ln : Nat) (scrub : Bool) (fix : List (Nat × Nat)) (unc : Bool) :
    (s.logError ctl ch ln scrub fix unc).mem = s.mem := by
  unfold State.logError
  split
  · rfl
  · rfl

theorem markLive_mem (s : State) (b : Nat) : (s.markLive b).mem = s.mem := by
  unfold State.markLive
  split
  · rfl
  · rfl

/-- A read of a line with its error logged, its event raised and its count in the ledger. -/
theorem errorNoted_mem {ctl ch ln die code payload : Nat} {scrub unc : Bool} {fix : List (Nat × Nat)} {f : LFld} :
    (((s.logError ctl ch ln scrub fix unc).raise die code payload).ledBump f 1).mem = s.mem :=
  (ledBump_mem ..).trans ((raise_onlyRecords ..).mem.trans (logError_mem ..))

theorem readLine_leavesMemory (s : State) (who : Req) (ln : Nat) : LeavesMemory s (s.readLine who ln).st := by
  refine ⟨?_, readLine_tables s who ln⟩
  unfold State.readLine
  extract_lets e bs
  cases decodeLine e with
  | clean => rfl
  | corrected fix => exact errorNoted_mem
  | uncorrectable =>
    change (s.uncorrected who ln).mem = s.mem
    unfold State.uncorrected
    extract_lets ctl ch scrub s1 s2 s3 s4 s5
    have hnoted : s5.mem = s.mem := errorNoted_mem
    split
    · exact hnoted
    · exact (markLive_mem ..).trans hnoted

theorem readLine_length (s : State) (who : Req) (ln : Nat) : (s.readLine who ln).bytes.length = 64 := by
  unfold State.readLine
  extract_lets e bs
  cases decodeLine e with
  | clean | corrected | uncorrectable => exact length_leBytes ..

theorem invalidate_leavesMemory (s : State) (r : Nat) : LeavesMemory s (s.invalidate r) := by
  unfold State.invalidate
  split
  · exact ⟨rfl, rfl⟩
  · exact .refl s

theorem digestWrite_leavesMemory (s : State) (ln : Nat) (old new : List Byte) :
    LeavesMemory s (s.digestWrite ln old new) := by
  obtain ⟨hmem, -, -, htables⟩ := digestWrite_parts (s := s) ln old new
  exact ⟨hmem, htables⟩

end

/-! ### A write leaves what lies outside its lines -/

/-- Between the states no byte outside a line has changed, nor have the tables. -/
structure LeavesOtherLines (ln : Nat) (s u : State) : Prop where
  mem : ∀ x, x / 64 ≠ ln → Sparse.get 0#8 u.mem x = Sparse.get 0#8 s.mem x
  tables : u.tables = s.tables

section
variable {s t u : State} {ln off : Nat} {bs : List Byte}

theorem LeavesMemory.leavesOtherLines (h : LeavesMemory s u) : LeavesOtherLines ln s u :=
  ⟨fun x _ => by rw [h.mem], h.tables⟩

theorem LeavesOtherLines.trans (h : LeavesOtherLines ln s t) (k : LeavesOtherLines ln t u) : LeavesOtherLines ln s u :=
  ⟨fun x hx => (k.mem x hx).trans (h.mem x hx), k.tables.trans h.tables⟩

theorem storeLine_leavesOtherLines (h : bs.length = 64) : LeavesOtherLines ln s (s.storeLine ln bs) :=
  ⟨fun x hx => get_tablePut_outside s.mem (ln * 64) x bs (by omega), rfl⟩

theorem writeLineAt_leavesOtherLines (h : bs.length = 64) : LeavesOtherLines ln s (s.writeLineAt ln bs) := by
  unfold State.writeLineAt
  extract_lets r o
  have hstored : LeavesOtherLines ln s (o.st.storeLine ln bs) :=
    (readLine_leavesMemory s .oldLine ln).leavesOtherLines.trans (storeLine_leavesOtherLines h)
  split
  · split
    · exact hstored.trans (invalidate_leavesMemory ..).leavesOtherLines
    · exact hstored.trans (digestWrite_leavesMemory ..).leavesOtherLines
  · exact storeLine_leavesOtherLines h

theorem length_patch {l : List Byte} (h : off + bs.length ≤ l.length) : (patch l off bs).length = l.length := by
  simp only [patch, List.length_append, List.length_take, List.length_drop]
  omega

theorem writePartAt_leavesOtherLines (h : off + bs.length ≤ 64) : LeavesOtherLines ln s (s.writePartAt ln off bs) := by
  unfold State.writePartAt
  extract_lets o ctl dropped new
  have hread : LeavesMemory s o.st := readLine_leavesMemory ..
  have hlen : o.bytes.length = 64 := readLine_length ..
  split
  · have hdropped : OnlyRecords o.st dropped := (set_onlyRecords ..).trans (raise_onlyRecords ..)
    exact (hread.trans (hdropped.leavesMemory.trans (invalidate_leavesMemory ..))).leavesOtherLines
  · have hnew : new.length = 64 := (length_patch (by rwa [hlen])).trans hlen
    exact hread.leavesOtherLines.trans
      ((storeLine_leavesOtherLines hnew).trans (digestWrite_leavesMemory ..).leavesOtherLines)

theorem writeIn_leavesOtherLines (h : off + bs.length ≤ 64) : LeavesOtherLines ln s (s.writeIn ln off bs) := by
  unfold State.writeIn
  split
  case isTrue hwhole => exact writeLineAt_leavesOtherLines hwhole.2
  case isFalse => exact writePartAt_leavesOtherLines h

/-- With no move under way a write within a line reaches that line and no other. -/
theorem writeLine_of_no_moves (hmoves : s.tables.moves = []) (h : off + bs.length ≤ 64) :
    s.writeLine ln off bs = s.writeIn ln off bs := by
  have htargets : s.writeTargets ln = [ln] := by simp [State.writeTargets, hmoves]
  have htables : (s.writeIn ln off bs).tables = s.tables := (writeIn_leavesOtherLines h).tables
  rw [State.writeLine, htargets, List.foldl_cons, List.foldl_nil,
    forwardOut_noteDirty_of_no_moves (by rw [htables, hmoves])]

theorem writeLine_leavesOtherLines (hmoves : s.tables.moves = []) (h : off + bs.length ≤ 64) :
    LeavesOtherLines ln s (s.writeLine ln off bs) := by
  rw [writeLine_of_no_moves hmoves h]
  exact writeIn_leavesOtherLines h

/-- The first part of a write ends with its line. -/
theorem first_part_fits (a : Nat) (bs : List Byte) : a % 64 + (bs.take (64 - a % 64)).length ≤ 64 := by
  rw [List.length_take]
  omega

theorem get_writeLines_outside (k : Nat) {a x : Nat} (hmoves : s.tables.moves = [])
    (hx : x / 64 < a / 64 ∨ (a + bs.length + 63) / 64 ≤ x / 64) :
    Sparse.get 0#8 (writeLines k s a bs).mem x = Sparse.get 0#8 s.mem x := by
  induction k generalizing s a bs with
  | zero => rfl
  | succ k ih =>
    unfold writeLines
    split
    case isTrue => rfl
    case isFalse hne =>
      have hpos : 0 < bs.length := List.length_pos_iff.2 hne
      have hline := writeLine_leavesOtherLines (ln := a / 64) hmoves (first_part_fits a bs)
      refine (ih (by rw [hline.tables, hmoves]) ?_).trans (hline.mem x (by omega))
      rw [List.length_drop]
      omega

end

/-! ### A write and a read of a memory without wrong symbols -/

section
variable {s : State} {ln off : Nat} {bs : List Byte}

/-- A whole-line write of a clean line writes its bytes. -/
theorem writeLineAt_parts (h : s.upset = []) (ln : Nat) (bs : List Byte) :
    (s.writeLineAt ln bs).mem = tablePut s.mem (ln * 64) bs ∧ (s.writeLineAt ln bs).upset = [] := by
  have hstored : (s.storeLine ln bs).upset = [] := by
    change Sparse.put 0 s.upset ln 0 = []
    rw [h]
    rfl
  unfold State.writeLineAt
  extract_lets r o
  have hread : o = ⟨s.raw (ln * 64) 64, false, s⟩ := readLine_of_clean h ..
  split
  · simp only [hread, Bool.false_eq_true, if_false]
    obtain ⟨hmem, hupset, -, -⟩ := digestWrite_parts (s := s.storeLine ln bs) ln (s.raw (ln * 64) 64) bs
    exact ⟨hmem, hupset.trans hstored⟩
  · exact ⟨rfl, hstored⟩

/-- A write within a clean line writes its bytes. -/
theorem writeIn_parts (h : s.upset = []) (hin : off + bs.length ≤ 64) :
    (∀ x, Sparse.get 0#8 (s.writeIn ln off bs).mem x = Sparse.get 0#8 (tablePut s.mem (ln * 64 + off) bs) x) ∧
      (s.writeIn ln off bs).upset = [] := by
  unfold State.writeIn
  split
  case isTrue hwhole =>
    obtain ⟨rfl, -⟩ := hwhole
    obtain ⟨hmem, hupset⟩ := writeLineAt_parts h ln bs
    exact ⟨fun x => congrArg (Sparse.get 0#8 · x) hmem, hupset⟩
  case isFalse =>
    obtain ⟨hmem, hupset, -⟩ := writePartAt_parts h (ln := ln) hin
    exact ⟨hmem, hupset⟩

/-- A write of memory whose `k` lines suffice for its bytes writes all of them, and leaves memory clean. -/
theorem writeLines_parts (k : Nat) {a : Nat} (hclean : s.upset = []) (hmoves : s.tables.moves = [])
    (hk : bs.length ≤ 64 * k - a % 64) :
    (∀ x, Sparse.get 0#8 (writeLines k s a bs).mem x = Sparse.get 0#8 (tablePut s.mem a bs) x) ∧
      (writeLines k s a bs).upset = [] := by
  induction k generalizing s a bs with
  | zero =>
    obtain rfl : bs = [] := List.eq_nil_of_length_eq_zero (by omega)
    exact ⟨fun _ => rfl, hclean⟩
  | succ k ih =>
    unfold writeLines
    split
    case isTrue hnil =>
      subst hnil
      exact ⟨fun _ => rfl, hclean⟩
    case isFalse =>
      have hfits := first_part_fits a bs
      have htables := (writeLine_leavesOtherLines (ln := a / 64) hmoves hfits).tables
      obtain ⟨hmem, hupset⟩ := writeIn_parts (ln := a / 64) hclean hfits
      rw [← writeLine_of_no_moves hmoves hfits] at hmem hupset
      obtain ⟨hrest, hfinal⟩ := ih (a := a + (64 - a % 64)) (bs := bs.drop (64 - a % 64)) hupset (by rw [htables, hmoves])
        (by rw [List.length_drop]; omega)
      refine ⟨fun x => ?_, hfinal⟩
      rw [hrest, get_tablePut_congr hmem, Nat.div_add_mod', tablePut_take_drop]

theorem writeMem_clean (hclean : s.upset = []) (hmoves : s.tables.moves = []) (a : Nat) (bs : List Byte) :
    (∀ x, Sparse.get 0#8 (s.writeMem a bs).mem x = Sparse.get 0#8 (tablePut s.mem a bs) x) ∧ (s.writeMem a bs).upset = [] :=
  writeLines_parts _ hclean hmoves (by omega)

/-- A read of a clean memory gives the bytes as they stand, and changes nothing. -/
theorem readLines_of_clean (h : s.upset = []) (who : Req) (k : Nat) {a n : Nat} (hk : n ≤ 64 * k - a % 64) :
    readLines who k s a n = ⟨tableBytes s.mem a n, false, s⟩ := by
  induction k generalizing a n with
  | zero =>
    obtain rfl : n = 0 := by omega
    rfl
  | succ k ih =>
    unfold readLines
    split
    case isTrue hzero =>
      subst hzero
      rfl
    case isFalse =>
      extract_lets m r rest
      have hm : m = min n (64 - a % 64) := rfl
      have hr : r = ⟨s.raw (a / 64 * 64) 64, false, s⟩ := readLine_of_clean h ..
      have hrest : rest = ⟨tableBytes s.mem (a + m) (n - m), false, s⟩ := by
        unfold rest
        rw [hr]
        exact ih (by omega)
      have hline : ((s.raw (a / 64 * 64) 64).drop (a % 64)).take m = tableBytes s.mem a m := by
        rw [State.raw, tableBytes_drop_take _ _ (by omega), Nat.div_add_mod']
      have hboth : tableBytes s.mem a n = tableBytes s.mem a m ++ tableBytes s.mem (a + m) (n - m) := by
        rw [← tableBytes_add, Nat.add_sub_cancel' (by omega)]
      rw [hr, hrest, hline, hboth]
      rfl

end

/-- Settles O57: each line takes its part of the bytes and no line another's, and a clean memory reads as it stands. -/
theorem writeExact : Obligations.WriteExact := by
  unfold Obligations.WriteExact
  refine ⟨fun s a bs hclean hmoves => ?exact, fun s a x bs hmoves hx => get_writeLines_outside _ hmoves hx⟩
  case exact =>
    obtain ⟨hmem, hupset⟩ := writeMem_clean hclean hmoves a bs
    refine ⟨fun x => (hmem x).trans (get_tablePut ..), fun who => ?_⟩
    have hread : (s.writeMem a bs).readMem who a bs.length =
        ⟨tableBytes (s.writeMem a bs).mem a bs.length, false, s.writeMem a bs⟩ :=
      readLines_of_clean hupset who _ (by omega)
    rw [hread]
    exact ⟨(tableBytes_congr hmem ..).trans (tableBytes_tablePut ..), rfl⟩

end Sys2Proof.Proofs

/-! ## The rows of the memory controllers (R242 to R244, R254, R258 to R266) -/

namespace Sys2Proof.Proofs
open Sys2Proof.Machine Sys2Proof.Laws

/-! ### Requests at their controller -/

section
variable {s : State} {r : HeldReq} {ln off up : Nat} {bs : List Byte} {w : Writer} {wad : Bool}

theorem take_of_room (hroom : s.chanRoom r.line = true) (hnone : s.stoppedReqs (lineChan r.line) = []) :
    s.take r = s.arrive r := by
  simp [State.take, hroom, hnone]

theorem take_of_full (hfull : s.chanRoom r.line = false) :
    s.take r = s.setStopped (lineChan r.line) (s.stoppedReqs (lineChan r.line) ++ [r]) := by
  simp [State.take, hfull]

/-- A read takes effect on the codeword with all of the pattern that has struck it. -/
theorem arriveRead_of_lt (h : up < 2 ^ 576) (who : Req) : s.arriveRead ln who up =
    let t : State := { s.enqueue ln false with upset := Sparse.put 0 s.upset ln (Sparse.get 0 s.upset ln ^^^ up) }
    let r := t.readLine who ln
    { r.st with mc := { r.st.mc with resp :=
      if who = .scrub ∨ who = .oldLine ∨ who = .partialWrite then r.st.mc.resp else some ⟨ln, r.bytes, r.unc⟩ } } := by
  rw [State.arriveRead, Nat.mod_eq_of_lt h]
  rfl

theorem arriveWrite_of_unstopped (h : s.writeStop w wad (ln * 64 + off) bs.length = none) :
    s.arriveWrite ln off bs w wad =
      ((s.enqueue ln true).noteWriter w (ln * 64 + off) bs.length).writeLine ln off bs := by
  rw [State.arriveWrite, h]

section
variable (hup : s.lineUp ln = true) (hroom : s.chanRoom ln = true) (hnone : s.stoppedReqs (lineChan ln) = [])
include hup hroom hnone

theorem take_read (who : Req) :
    s.take ⟨ln, 0, none, .host, false, who, up⟩ = s.arriveRead ln who up := by
  rw [take_of_room (r := ⟨ln, 0, none, .host, false, who, up⟩) hroom hnone]
  simp only [State.arrive, hup, if_true]

theorem take_write : s.take ⟨ln, off, some bs, w, wad, .engine, 0⟩ = s.arriveWrite ln off bs w wad := by
  rw [take_of_room (r := ⟨ln, off, some bs, w, wad, .engine, 0⟩) hroom hnone]
  simp only [State.arrive, hup, if_true]

theorem memRead_of_up (who : Req) (h : up < 2 ^ 576) : exec (.memRead ln who up) s =
    let t : State := { s.enqueue ln false with upset := Sparse.put 0 s.upset ln (Sparse.get 0 s.upset ln ^^^ up) }
    let r := t.readLine who ln
    .next { r.st with mc := { r.st.mc with resp :=
      if who = .scrub ∨ who = .oldLine ∨ who = .partialWrite then r.st.mc.resp else some ⟨ln, r.bytes, r.unc⟩ } } :=
  congrArg Host.Outcome.next ((take_read hup hroom hnone who).trans (arriveRead_of_lt h who))

theorem memWrite_of_up (hlen : bs.length = 64) (hstop : s.writeStop w wad (ln * 64) 64 = none) :
    exec (.memWrite ln bs w wad) s =
      .next (((s.enqueue ln true).noteWriter w (ln * 64) 64).writeLine ln 0 bs) := by
  have hwrite := arriveWrite_of_unstopped (s := s) (ln := ln) (off := 0) (bs := bs) (w := w) (wad := wad) (by rwa [hlen])
  rw [hlen] at hwrite
  simp only [exec, execMemWrite, padTo_of_length hlen, take_write hup hroom hnone, hwrite, Nat.add_zero]

theorem partialWrite_of_up (hne : bs ≠ []) (hshort : bs.length < 64) (hin : off + bs.length ≤ 64)
    (hstop : s.writeStop w wad (ln * 64 + off) bs.length = none) :
    exec (.partialWrite ln off bs w wad) s =
      .next (((s.enqueue ln true).noteWriter w (ln * 64 + off) bs.length).writeLine ln off bs) := by
  rw [← arriveWrite_of_unstopped hstop, ← take_write hup hroom hnone]
  exact congrArg Host.Outcome.next (if_pos ⟨hne, hshort, hin⟩)

end

theorem memRead_of_full (hfull : s.chanRoom ln = false) (who : Req) : exec (.memRead ln who up) s =
    .next (s.setStopped (lineChan ln) (s.stoppedReqs (lineChan ln) ++ [⟨ln, 0, none, .host, false, who, up⟩])) :=
  congrArg Host.Outcome.next (take_of_full hfull)

theorem writeBack_of_due {v : Nat} (h : s.mc.writeBack.find? (fun p => p.1 == ln) = some (ln, v)) :
    exec (.writeBack ln) s = .next { s with
      upset := Sparse.put 0 s.upset ln v
      mc := { s.mc with writeBack := s.mc.writeBack.filter (fun p => p.1 != ln) } } := by
  simp only [exec, execWriteBack, h]

end

/-! ### Issue and refresh -/

section
variable {s : State}

/-- While no request has been passed 64 times, the picked one issues. -/
theorem issuePick_of_fresh {q : List ChReq} {i : Nat} (hi : i < q.length) (hfresh : ∀ r ∈ q, r.passed < 64) :
    issuePick q i = i := by
  have hnone : (List.range q.length).find? (fun k => decide (64 ≤ (q.getD k ⟨0, false, 0⟩).passed)) = none := by
    rw [List.find?_eq_none]
    intro k hk
    have hlt : k < q.length := List.mem_range.1 hk
    rw [List.getD_eq_getElem _ _ hlt, decide_eq_true_iff, Nat.not_le]
    exact hfresh _ (List.getElem_mem hlt)
  rw [issuePick, hnone]
  exact if_pos hi

theorem channelIssue_of_fresh {ch : Fin 2176} {i : Nat} (hi : i < (s.chanQueue ch).length)
    (hfresh : ∀ r ∈ s.chanQueue ch, r.passed < 64) (hidle : s.retraining ch = false) :
    exec (.channelIssue ch i) s =
      .next (({ s with mc := { s.mc with queue := Sparse.put [] s.mc.queue ch (issueAt (s.chanQueue ch) i) } } : State).takeIn
        ch (s.stoppedReqs ch)) := by
  have hne : s.chanQueue ch ≠ [] := List.length_pos_iff.1 (Nat.zero_lt_of_lt hi)
  have hrun : ¬ (s.chanQueue ch = [] ∨ s.retraining ch = true) := by simp [hne, hidle]
  simp only [exec, execChannelIssue, if_neg hrun, issuePick_of_fresh hi hfresh]
  rfl

/-- The rate read of a bulk package is shown, and the package is not read again in this batten. -/
theorem refresh_shows (ch : Fin 2176) (b : Fin 64) (mr4 : Nat) (s : State) :
    ∃ t, exec (.refresh ch b mr4) s = .next t ∧ t.mem = s.mem ∧
      Sparse.get 0 t.mc.refreshes (ch * 64 + b) = Sparse.get 0 s.mc.refreshes (ch * 64 + b) + 1 ∧
      (let p := (ch.val - 2048) / 4
       2048 ≤ ch.val → p ∉ s.mc.mr4 → t.get ⟨.blkRefrate, 4 * (p % 4), 4⟩ (p / 4) = mr4 % 16 ∧ p ∈ t.mc.mr4) := by
  by_cases hread : 2048 ≤ ch.val ∧ (ch.val - 2048) / 4 ∉ s.mc.mr4
  · refine ⟨_, congrArg Host.Outcome.next (if_pos hread), rfl, get_put_self .., fun _ _ => ⟨?_, ?_⟩⟩
    · exact get_set_self _ ⟨.blkRefrate, 4 * ((ch.val - 2048) / 4 % 4), 4⟩ _ _ _ (show 4 * _ + 4 ≤ 64 by omega)
    · exact List.mem_append_right _ (List.mem_singleton_self _)
  · exact ⟨_, congrArg Host.Outcome.next (if_neg hread), rfl, get_put_self ..,
      fun hbulk hnew => absurd ⟨hbulk, hnew⟩ hread⟩

end

/-! ### What an event leaves of the registers -/

/-- The registers in which a slice of the gutter counts its records. -/
abbrev GutReg (r : Reg) : Prop := r = .gutDrop ∨ r = .gutStatus ∨ r = .gutHeld ∨ r = .gutSuppress

/-- Between the states no field has changed but in registers of the gutter. -/
structure KeepsFields (s u : State) : Prop where
  get : ∀ f : Fld, ¬ GutReg f.reg → ∀ i j, u.get f i j = s.get f i j

section
variable {s t u : State}

theorem KeepsFields.refl (s : State) : KeepsFields s s := ⟨fun _ _ _ _ => rfl⟩

theorem KeepsFields.trans (h : KeepsFields s t) (k : KeepsFields t u) : KeepsFields s u :=
  ⟨fun f hf i j => (k.get f hf i j).trans (h.get f hf i j)⟩

theorem set_keepsFields {f : Fld} (hf : GutReg f.reg) (v i j : Nat) : KeepsFields s (s.set f v i j) :=
  ⟨fun _ hk _ _ => get_set_of_reg _ _ _ _ _ _ _ _ fun h => hk (h ▸ hf)⟩

theorem bump_keepsFields {f : Fld} (hf : GutReg f.reg) (n i j : Nat) : KeepsFields s (s.bump f n i j) :=
  set_keepsFields hf _ i j

theorem setSlice_keepsFields (s : State) (die : Nat) (x : Slice) : KeepsFields s (s.setSlice die x) :=
  ⟨fun _ _ _ _ => rfl⟩

theorem gutDropped_keepsFields (s : State) (die c : Nat) : KeepsFields s (s.gutDropped die c) := by
  unfold State.gutDropped
  extract_lets s1 s2 x
  have h1 : KeepsFields s s1 := (bump_keepsFields (.inl rfl) 1 die 0).trans (set_keepsFields (.inr (.inl rfl)) 1 die 0)
  have h2 : KeepsFields s1 s2 := by
    unfold s2
    split
    · exact bump_keepsFields (.inr (.inr (.inl rfl))) 1 die 0
    · exact .refl _
  exact h1.trans (h2.trans (setSlice_keepsFields ..))

theorem intake_keepsFields (s : State) (die : Nat) (r : GRec) : KeepsFields s (s.intake die r).2 := by
  unfold State.intake
  extract_lets x hold
  have hhold (v : State) : KeepsFields v (hold v) := by
    unfold hold
    split
    · exact bump_keepsFields (.inr (.inr (.inl rfl))) 1 die 0
    · exact .refl _
  split
  · exact (setSlice_keepsFields ..).trans (hhold _)
  · split
    · exact (setSlice_keepsFields ..).trans (gutDropped_keepsFields ..)
    · exact gutDropped_keepsFields ..

theorem dropReport_keepsFields (s : State) (die : Nat) : KeepsFields s (s.dropReport die) := by
  unfold State.dropReport
  extract_lets x r s0 p
  split
  · exact (setSlice_keepsFields ..).trans (intake_keepsFields ..)
  · exact intake_keepsFields ..

theorem takeToken_keepsFields {die code : Nat} (h : s.takeToken die code = some u) : KeepsFields s u := by
  unfold State.takeToken at h
  extract_lets x p d left at h
  obtain ⟨-, htaken⟩ := (Option.ite_none_right_eq_some ..).1 h
  obtain rfl := Option.some.inj htaken
  exact setSlice_keepsFields ..

/-- An event is recorded, dropped or suppressed by its slice alone. -/
theorem raise_keepsFields (s : State) (die code payload : Nat) : KeepsFields s (s.raise die code payload) := by
  have hsuppress : KeepsFields s (s.bump F.GUT_SUPPRESS_SUPPRESSED 1 die) :=
    bump_keepsFields (.inr (.inr (.inr rfl))) 1 die 0
  unfold State.raise
  split
  case isTrue => exact hsuppress
  case isFalse =>
    split
    case h_1 => exact hsuppress
    case h_2 s1 htoken =>
      have h1 : KeepsFields s s1 := by
        split at htoken
        · obtain rfl := Option.some.inj htoken
          exact .refl _
        · exact takeToken_keepsFields htoken
      extract_lets before s2
      have h2 : KeepsFields s s2 := h1.trans (intake_keepsFields ..)
      split
      · exact h2.trans (dropReport_keepsFields ..)
      · exact h2

end

/-! ### Retraining -/

section
variable {s : State} {ctl m : Nat}

theorem chanReg_eq (ctl : Nat) : chanReg ctl = .memCh ∨ chanReg ctl = .blkCh := by
  unfold chanReg
  split
  · exact .inl rfl
  · exact .inr rfl

/-- The state after a retrain of channel `ch` that converged: its margin is shown and its failures in sequence end. -/
def retrained (s : State) (ctl ch m : Nat) : State :=
  (((s.set F.MEM_STATUS_CAL_ACTIVE 0 ctl).bump F.MEM_CAL_RETRAINS 1 ctl).set ⟨chanReg ctl, 40, 8⟩ m (chanInst ctl) ch).set
    ⟨chanReg ctl, 32, 4⟩ 0 (chanInst ctl) ch

theorem retrained_active (s : State) (ctl ch m : Nat) : (retrained s ctl ch m).get F.MEM_STATUS_CAL_ACTIVE ctl = 0 := by
  have hreg : Reg.memStatus ≠ chanReg ctl := by rcases chanReg_eq ctl with h | h <;> rw [h] <;> decide
  rw [retrained, get_set_of_reg _ ⟨chanReg ctl, 32, 4⟩ _ _ _ _ _ _ hreg,
    get_set_of_reg _ ⟨chanReg ctl, 40, 8⟩ _ _ _ _ _ _ hreg, State.bump, get_set_of_reg _ _ _ _ _ _ _ _ (by decide),
    get_set_self _ _ _ _ _ (by decide)]
  rfl

theorem retrained_margin (s : State) (ctl ch m : Nat) :
    (retrained s ctl ch m).get ⟨chanReg ctl, 40, 8⟩ (chanInst ctl) ch = m % 256 :=
  (get_set_of_disjoint _ ⟨chanReg ctl, 32, 4⟩ ⟨chanReg ctl, 40, 8⟩ _ _ _ rfl (Nat.le_add_left 36 28)
    (.inr (Nat.le_add_left 36 4))).trans
    (get_set_self _ ⟨chanReg ctl, 40, 8⟩ _ _ _ (Nat.le_add_left 48 16))

theorem retrained_failures (s : State) (ctl ch m : Nat) :
    (retrained s ctl ch m).get ⟨chanReg ctl, 32, 4⟩ (chanInst ctl) ch = 0 :=
  get_set_self _ ⟨chanReg ctl, 32, 4⟩ _ _ _ (Nat.le_add_left 36 28)

/-- Noting a margin below the floor touches neither CAL_ACTIVE nor a channel's register nor memory. -/
theorem lowMargin_keeps (t : State) (ctl die code payload : Nat) :
    let u := (t.set F.MEM_STATUS_MARGIN_LOW 1 ctl).raise die code payload
    u.mem = t.mem ∧ u.get F.MEM_STATUS_CAL_ACTIVE ctl = t.get F.MEM_STATUS_CAL_ACTIVE ctl ∧
      ∀ f : Fld, f.reg = chanReg ctl → ∀ i j, u.get f i j = t.get f i j := by
  intro u
  have hu : KeepsFields (t.set F.MEM_STATUS_MARGIN_LOW 1 ctl) u := raise_keepsFields ..
  refine ⟨(raise_onlyRecords ..).mem, ?_, fun f hf i j => ?_⟩
  · exact (hu.get F.MEM_STATUS_CAL_ACTIVE (by decide) ctl 0).trans
      (get_set_of_disjoint _ F.MEM_STATUS_MARGIN_LOW F.MEM_STATUS_CAL_ACTIVE _ _ _ rfl (by decide) (by decide))
  · have hgut : ¬ GutReg f.reg := by rw [hf]; rcases chanReg_eq ctl with h | h <;> rw [h] <;> decide
    have hstatus : f.reg ≠ .memStatus := by rw [hf]; rcases chanReg_eq ctl with h | h <;> rw [h] <;> decide
    exact (hu.get f hgut i j).trans (get_set_of_reg _ _ _ _ _ _ _ _ hstatus)

/-- The margin below which a controller reports a channel. -/
def marginFloor (s : State) (ctl : Nat) : Nat :=
  s.get (if ctl < 16 then F.MEM_CTRL_MARGIN_FLOOR else F.BLK_CTRL_MARGIN_FLOOR) (chanInst ctl)

/-- A retrain that converges notes its margin, and an event where that is below the floor (R262). -/
theorem retrainEnd_of_converged {ctl : Fin 24} (h : s.bit F.MEM_STATUS_CAL_ACTIVE ctl = true) (m : Nat) :
    exec (.retrainEnd ctl true m) s = .next (
      let t := retrained s ctl (s.get F.MEM_STATUS_CAL_CH ctl) m
      if m < marginFloor t ctl then
        (t.set F.MEM_STATUS_MARGIN_LOW 1 ctl).raise (ctlDie ctl) 0x0505 (t.memPayload ctl (s.get F.MEM_STATUS_CAL_CH ctl))
      else t) := by
  simp only [exec, execRetrainEnd, h, if_true]
  rfl

theorem retrainEnd_shows {ctl : Fin 24} (h : s.bit F.MEM_STATUS_CAL_ACTIVE ctl = true) (m : Nat) :
    let ch := s.get F.MEM_STATUS_CAL_CH ctl
    ∃ u, exec (.retrainEnd ctl true m) s = .next u ∧ u.mem = s.mem ∧ u.bit F.MEM_STATUS_CAL_ACTIVE ctl = false ∧
      u.get ⟨chanReg ctl, 40, 8⟩ (chanInst ctl) ch = m % 256 ∧ u.get ⟨chanReg ctl, 32, 4⟩ (chanInst ctl) ch = 0 := by
  intro ch
  have hbit {u : State} (hu : u.get F.MEM_STATUS_CAL_ACTIVE ctl = 0) : u.bit F.MEM_STATUS_CAL_ACTIVE ctl = false := by
    rw [State.bit, hu]
    rfl
  have hactive := retrained_active s ctl ch m
  have hmargin := retrained_margin s ctl ch m
  have hfailures := retrained_failures s ctl ch m
  refine ⟨_, retrainEnd_of_converged h m, ?_⟩
  extract_lets t
  split
  case isTrue =>
    obtain ⟨hmem, hstatus, hchan⟩ := lowMargin_keeps t ctl (ctlDie ctl) 0x0505 (t.memPayload ctl ch)
    exact ⟨hmem, hbit (hstatus.trans hactive), (hchan _ rfl ..).trans hmargin, (hchan _ rfl ..).trans hfailures⟩
  case isFalse => exact ⟨rfl, hbit hactive, hmargin, hfailures⟩

/-- The payload of a memory event is in the error log's registers. -/
theorem memPayload_set {f : Fld} (h : f.reg ≠ .memErraddr ∧ f.reg ≠ .memErrinfo ∧ f.reg ≠ .blkErrinfo)
    (v i j ctl ch : Nat) : (s.set f v i j).memPayload ctl ch = s.memPayload ctl ch := by
  obtain ⟨haddr, hnear, hbulk⟩ := h
  have hinfo : errInfoReg ctl ≠ f.reg := by
    unfold errInfoReg
    split
    · exact hnear.symm
    · exact hbulk.symm
  have hrd {r : Reg} (hr : r ≠ f.reg) (x : Nat) : (s.set f v i j).rd r x 0 = s.rd r x 0 :=
    rd_wr_of_ne _ _ _ _ _ _ _ _ (regCode_ne_of_reg hr _ _ _ _)
  rw [State.memPayload, State.memPayload, hrd haddr.symm, hrd hinfo]

theorem memPayload_bump {f : Fld} (h : f.reg ≠ .memErraddr ∧ f.reg ≠ .memErrinfo ∧ f.reg ≠ .blkErrinfo)
    (n i j ctl ch : Nat) : (s.bump f n i j).memPayload ctl ch = s.memPayload ctl ch := by
  rw [State.bump, memPayload_set h]

/-- A retrain that fails counts its failure, and its event names what the error log showed before (R262). -/
theorem retrainEnd_of_failed {ctl : Fin 24} (h : s.bit F.MEM_STATUS_CAL_ACTIVE ctl = true) (m : Nat) :
    let ch := s.get F.MEM_STATUS_CAL_CH ctl
    let t := (s.set F.MEM_STATUS_CAL_ACTIVE 0 ctl).bump F.MEM_CAL_RETRAINS 1 ctl
    exec (.retrainEnd ctl false m) s = .next ((((t.set F.MEM_STATUS_CAL_FAIL 1 ctl).bump ⟨chanReg ctl, 32, 4⟩ 1 (chanInst ctl)
      ch).bump F.MEM_CAL_FAILS 1 ctl).raise (ctlDie ctl) 0x0504 (s.memPayload ctl ch)) := by
  intro ch t
  have hchan : chanReg ctl ≠ .memErraddr ∧ chanReg ctl ≠ .memErrinfo ∧ chanReg ctl ≠ .blkErrinfo := by
    rcases chanReg_eq ctl with h | h <;> rw [h] <;> decide
  have hpayload : (((t.set F.MEM_STATUS_CAL_FAIL 1 ctl).bump ⟨chanReg ctl, 32, 4⟩ 1 (chanInst ctl) ch).bump
      F.MEM_CAL_FAILS 1 ctl).memPayload ctl ch = s.memPayload ctl ch := by
    rw [memPayload_bump (by decide), memPayload_bump hchan, memPayload_set (by decide), memPayload_bump (by decide),
      memPayload_set (by decide)]
  rw [← hpayload]
  simp only [exec, execRetrainEnd, h, if_true, Bool.false_eq_true, if_false]
  rfl

end

/-! ### The slots -/

section
variable {s : State}

/-- The lines with wrong symbols that a scrub slot reads, in its order. -/
def scrubHits (cut : List (Nat × Nat)) (u : State) : List Nat :=
  ((Sparse.keys u.upset).filter (u.scrubbed cut)).mergeSort (fun a b => u.scrubRank a ≤ u.scrubRank b)

/-- The pointers of the channels after a scrub slot that began in `u` with the pointers `before`. -/
def scrubAfter (cut : List (Nat × Nat)) (u : State) (before : Sparse Nat) : Sparse Nat :=
  ((List.range 2176).map (fun k => (k, Sparse.get 0 before k + u.scrubCount cut k))).filter (fun p => p.2 ≠ 0)

/-- A scrub slot that reads the lines `hit` and moves the pointers from `before` to `after`. -/
def scrubRun (hit : List Nat) (before after : Sparse Nat) (u : State) : State :=
  let v := hit.foldl (fun s ln => (s.readLine .scrub ln).st) u
  (List.range 24).foldl (fun x ctl => x.scrubRegs before ctl) { v with mc := { v.mc with scrub := after } }

theorem scrubSlot_of_slot (cut : List (Nat × Nat)) (hslot : s.frame.slot = 2) :
    let t := s.advanceTo s.scrubAt
    let u : State := { t with frame := { t.frame with slot := 3 } }
    exec (.scrubSlot cut) s = .next (scrubRun (scrubHits cut u) u.mc.scrub (scrubAfter cut u u.mc.scrub) u) := by
  intro t u
  have hpointers : scrubAfter cut u u.mc.scrub =
      (((List.range 2176).map (fun k => (k, u.scrubCount cut k))).map
        (fun p => (p.1, Sparse.get 0 u.mc.scrub p.1 + p.2))).filter (fun p => p.2 ≠ 0) := by
    rw [List.map_map]
    rfl
  rw [hpointers]
  exact congrArg Host.Outcome.next (if_pos hslot)

/-- With no wrong symbol in memory the scrub slot only moves its pointers. -/
theorem scrubSlot_of_clean (cut : List (Nat × Nat)) (hslot : s.frame.slot = 2) (hclean : s.upset = []) :
    let t := s.advanceTo s.scrubAt
    let u : State := { t with frame := { t.frame with slot := 3 } }
    exec (.scrubSlot cut) s = .next (scrubRun [] s.mc.scrub (scrubAfter cut u s.mc.scrub) u) := by
  intro t u
  have hupset : u.upset = [] := (advanceTo_upset ..).trans hclean
  have hhits : scrubHits cut u = [] := by
    rw [scrubHits, hupset]
    exact List.mergeSort_nil
  have hbefore : u.mc.scrub = s.mc.scrub := congrArg Mc.scrub (advanceTo_mc ..)
  rw [scrubSlot_of_slot cut hslot, hhits, hbefore]

end

/-- Settles O33: each row is taken where its guard holds; an event leaves the fields that a retrain shows, and a retrain
leaves the error log that its event names. -/
theorem memoryRuns : Obligations.MemoryRuns := by
  unfold Obligations.MemoryRuns
  refine ⟨?read, ?full, ?write, ?part, ?writeBack, ?issue, ?refresh, ?calibration, ?retrain, ?scrub⟩
  case read => exact fun ln up who s hup hroom hnone hlt => memRead_of_up hup hroom hnone who hlt
  case full => exact fun ln up who s hfull => memRead_of_full hfull who
  case write =>
    exact fun ln bs w wad s hlen hup hroom hnone hstop => memWrite_of_up hup hroom hnone hlen hstop
  case part =>
    exact fun ln off bs w wad s hne hshort hin hup hroom hnone hstop =>
      partialWrite_of_up hup hroom hnone hne hshort hin hstop
  case writeBack => exact fun ln v s h => writeBack_of_due h
  case issue => exact fun ch i s hi hfresh hidle => channelIssue_of_fresh hi hfresh hidle
  case refresh => exact fun ch b mr4 s => refresh_shows ch b mr4 s
  case calibration => exact fun s hslot => congrArg Host.Outcome.next (if_pos hslot)
  case retrain =>
    exact fun ctl m s h => ⟨retrainEnd_of_failed h m, retrainEnd_shows h m⟩
  case scrub => exact fun cut s hslot hclean => scrubSlot_of_clean cut hslot hclean

end Sys2Proof.Proofs

/-! ## Jefort links and peers (R267 to R270, R273, R282 to R284, R291) -/

namespace Sys2Proof.Proofs
open Sys2Proof.Machine Sys2Proof.Laws Sys2Proof.Safety

section
variable {s : State}

/-! ### Replays (R269) -/

/-- The flits asked for leave again out of the replay buffer, which is the `n`th replay from that flit in a row. -/
def sentAgain (s : State) (p seq n : Nat) : State :=
  ((Sparse.get ([], 0) s.fab.tx p).1.filter (fun f => decide (seq ≤ f.seq))).foldl (fun s f => s.send (.flit p f))
    ((s.bump F.JFL_PERR_REPLAYS 1 p).updFab (fun f => { f with replay := Sparse.put (0, 0) f.replay p (seq, n) }))

/-- The number of a replay in its row of replays of the same flit, `old` the flit and number of the last one. -/
def replayNumber (old : Nat × Nat) (seq : Nat) : Nat := if old.1 = seq ∧ old.2 ≠ 0 then old.2 + 1 else 1

theorem replayNumber_of_other {old : Nat × Nat} {seq : Nat} (h : old.1 ≠ seq ∨ old.2 = 0) : replayNumber old seq = 1 :=
  if_neg (by omega)

theorem replayNumber_of_same {old : Nat × Nat} {seq : Nat} (hseq : old.1 = seq) (hn : 1 ≤ old.2) :
    replayNumber old seq = old.2 + 1 :=
  if_pos ⟨hseq, Nat.one_le_iff_ne_zero.1 hn⟩

/-- The eighth replay of a flit in a row takes the link down, and one before it sends the flits again. -/
theorem replayRequest_of_up {p : Fin 32} {seq n : Nat} (hup : s.portUp p = true)
    (hn : replayNumber (Sparse.get (0, 0) (s.bump F.JFL_PERR_REPLAYS 1 p).fab.replay p) seq = n) :
    exec (.replayRequest p seq) s =
      if 8 ≤ n then .next ((s.bump F.JFL_PERR_REPLAYS 1 p).linkDown p) else .next (sentAgain s p seq n) := by
  subst hn
  exact if_pos hup

/-! ### Training (R268 to R270) -/

/-- A link that has trained is miswired or up, as the peer's IDENT says. -/
theorem linkTrainingEnd_of_trained {p peer : Fin 32} {strap slot : Fin 4} (htraining : s.get F.JFL_PSTATUS_STATE p = 1)
    (maxver dev : Nat) (valid : Bool) :
    let u := (s.bump F.JFL_PSTATUS_TRAININGS 1 p).setPeer p dev valid peer slot
    exec (.linkTrainingEnd p true strap maxver dev valid peer slot) s =
      if miswired p strap peer slot then
        .next (((u.set F.JFL_PSTATUS_STATE 4 p).set F.JFL_STATUS_MISWIRED 1).raise (p / 4) 0x0601
          (plAt 16 p + plAt 18 (u.get F.JFL_PSTATUS_PEER_DEVNUM p)))
      else .next (((u.set F.JFL_PSTATUS_VERSION (min (u.get F.JFL_PCTRL_MAXVER p) maxver) p).set
        F.JFL_PSTATUS_STATE 2 p).syncLevels.rehop) :=
  if_pos htraining

/-! ### The round trip of a level (R291) -/

/-- The round trips of ports that have measured one. -/
theorem filterMap_measured (f : Nat → Nat) (l : List Nat) :
    l.filterMap (fun p => if f p = 0 then none else some (f p)) = (l.map f).filter (· ≠ 0) := by
  rw [← List.filterMap_eq_filter, List.filterMap_map]
  refine congrArg (List.filterMap · l) (funext fun p => ?_)
  by_cases h : f p = 0 <;> simp [Option.guard, h]

/-- A PROBE_RSP gives the median round trip of the ports of its level that are up and have one. -/
theorem probeRsp_of_up {p : Fin 32} (hup : s.portUp p = true) (src rtt : Nat) :
    let t := (s.heard src).updFab (fun f => { f with rtt := Sparse.put 0 f.rtt p rtt })
    let vals := (((levelPorts (portLevel p)).filter t.portUp).map (Sparse.get 0 t.fab.rtt)).filter (· ≠ 0)
    exec (.probeRsp p src rtt) s =
      .next (t.set F.JFL_LEVEL_RTT_NS (min (median vals) (2 ^ 24 - 1)) 0 (portLevel p)) := by
  intro t vals
  have hvals : vals = ((levelPorts (portLevel p)).filter t.portUp).filterMap (fun p =>
      let x := Sparse.get 0 t.fab.rtt p
      if x = 0 then none else some x) := (filterMap_measured _ _).symm
  rw [hvals]
  exact if_pos hup

/-! ### Probing and timeouts (R282 to R284) -/

theorem probeRound_of_probed {d : Fin 2048} {p : Probing} (hfirst : s.fab.probing.find? (fun p => p.dev == d.val) = some p) :
    exec (.probeRound d) s =
      if s.get F.JFL_CFG_LOSS_COUNT ≤ p.rounds then .next (s.peerLost d)
      else
        let t := s.updFab (fun f => { f with probing := f.probing.map (fun x =>
          if x.dev = d.val then { x with rounds := x.rounds + 1 } else x) })
        .next ((t.portsTo d).foldl (fun s k => s.probePort d k) t) := by
  simp only [exec, execProbeRound, hfirst]

/-- The port by which a request that has timed out leaves again. -/
def reissuePort (s : State) (r : FabReq) : Nat :=
  let ports := s.portsTo r.dev
  if isSync r.op then ports.headD noPort
  else if r.op = 0x31 then r.port
  else (ports.filter (fun p => p != r.port && !s.link1Stops p r.op)).headD
    (if ports.contains r.port then r.port else noPort)

/-- The cases in which the ports that reach the target leave one choice: IDENT keeps its port, the only port is taken
again, and of two ports the other one is taken when its link carries the operation. -/
theorem reissuePort_eq {r : FabReq} {p : Nat} (h : (r.op = 0x31 ∧ p = r.port) ∨
      (r.op ≠ 0x31 ∧ s.portsTo r.dev = [p] ∧ r.port = p) ∨
      (r.op ≠ 0x31 ∧ isSync r.op = false ∧ r.port ≠ p ∧ s.portsTo r.dev = [r.port, p] ∧
        s.link1Stops p r.op = false)) :
    reissuePort s r = p := by
  rcases h with ⟨hop, hport⟩ | ⟨hop, hports, hport⟩ | ⟨hop, hsync, hne, hports, hcarries⟩
  · simp [reissuePort, isSync, hop, hport]
  · simp [reissuePort, hop, hports, hport]
  · simp [reissuePort, hop, hsync, hports, hcarries, hne.symm]

/-- The request `r` as it is issued again by a port. -/
def reissued (r : FabReq) (port : Nat) : FabReq :=
  { r with tries := r.tries + 1, port := port, hdr := { r.hdr with reissue := true } }

section
variable {tag : Nat} {r : FabReq} (hfirst : s.fab.reqs.find? (fun r => r.tag == tag && !r.held) = some r)
include hfirst

theorem reqTimeoutExpiry_of_left (hleft : r.tries < s.get F.JFL_CFG_RETRIES) :
    let again := reissued r (reissuePort s r)
    exec (.reqTimeoutExpiry tag) s = .next ((((s.bump F.JFL_CNT_REISSUES 1).ledBump ⟨292, 4⟩ 1).updFab (fun f =>
      { f with reqs := f.reqs.map (fun x => if x.tag = tag then again else x) })).emit again) := by
  simp only [exec, execReqTimeoutExpiry, hfirst, if_pos hleft]
  rfl

theorem reqTimeoutExpiry_of_last (hlast : s.get F.JFL_CFG_RETRIES ≤ r.tries) :
    exec (.reqTimeoutExpiry tag) s = .next ((((((s.bump F.JFL_CNT_TIMEOUTS 1).set F.JFL_STATUS_TIMEOUT 1).ledBump
      ⟨288, 4⟩ 1).raise 0 0x0602 (plAt 16 r.dev + plAt 18 r.op)).startProbing r.dev).reqFailed r fsTimeout) := by
  simp only [exec, execReqTimeoutExpiry, hfirst, if_neg hlast.not_gt]

end

/-! ### FABRIC_IDENT (R273) -/

/-- The port of an accepted FABRIC_IDENT is up, and its peer is asked, or it answers at once. -/
theorem fabricIdent_of_port {q : Fin 16384} {seq : Nat} {c : Cmd} (hacc : Accepted 0x0402 q seq c s)
    (hport : c.par 16 1 < 32) :
    let p := c.par 16 1
    let t := s.cmdWaits c []
    let dev := t.get F.JFL_PSTATUS_PEER_DEVNUM p
    let r : FabReq := ⟨t.fab.tag, dev, 0x31, p, 0, [], .ident q seq, q, p, p, [p], 0, false,
      t.hdr dev t.fab.tag c.plan (t.queueWadding q)⟩
    exec (.fabricIdent q seq) s = .next (if s.portUp p then
      (t.updFab (fun f => { f with reqs := f.reqs ++ [r] })).nextTag.emit r else s.succeed c (s.rd .jflPstatus p 0).toNat) :=
  congrArg Host.Outcome.next ((runCmd_of_accepted hacc _).trans (if_neg hport.not_ge))

/-- The answer to an IDENT updates the status of its port and completes the FABRIC_IDENT that asked. -/
theorem identRsp_of_ident {p peer : Fin 32} {slot : Fin 4} {tag q seq : Nat} {r : FabReq}
    (hfirst : s.fab.reqs.find? (fun r => r.tag == tag && r.op == 0x31 && r.addr == p.val) = some r)
    (howner : r.owner = .ident q seq) (dev : Nat) (valid : Bool) :
    exec (.identRsp p tag dev valid peer slot) s = .next ((((s.heard r.dev).dropReq tag).setPeer p dev valid peer
      slot).withWaiting (some (q, seq)) (fun c s => s.succeed c (s.rd .jflPstatus p 0).toNat)) := by
  simp only [exec, execIdentRsp, hfirst, howner]

end

/-- Settles O45: each row is taken on a port that is up or for a request that is outstanding, and counts of replays,
rounds and attempts select its branch. -/
theorem linksRun : Obligations.LinksRun := by
  unfold Obligations.LinksRun
  refine ⟨?flit, ?replay, ?lock, ?training, ?probe, ?rtt, ?level, ?wait, ?round, ?timeout, ?identify, ?identified⟩
  case flit =>
    intro p fl fec s hup t want u
    exact ⟨fun hnext => (if_pos hup).trans (congrArg Host.Outcome.next (if_pos hnext)),
      fun hother => (if_pos hup).trans (congrArg Host.Outcome.next (if_neg hother)), if_pos hup⟩
  case replay =>
    intro p seq s hup t old again
    refine ⟨fun hother => ?first, fun hsame hpos hfew => ?more, fun hsame hmany => ?eighth⟩
    case first => exact (replayRequest_of_up hup (replayNumber_of_other hother)).trans (if_neg (by decide))
    case more =>
      exact (replayRequest_of_up hup (replayNumber_of_same hsame hpos)).trans
        (if_neg (Nat.not_le.2 (Nat.succ_lt_succ hfew)))
    case eighth =>
      have hpos : 1 ≤ old.2 := le_trans (by decide) hmany
      exact (replayRequest_of_up hup (replayNumber_of_same hsame hpos)).trans (if_pos (Nat.succ_le_succ hmany))
  case lock => exact fun p s hup => if_pos hup
  case training =>
    intro p peer strap slot maxver dev valid s htraining t u
    have hexec := linkTrainingEnd_of_trained (peer := peer) (strap := strap) (slot := slot) htraining maxver dev valid
    exact ⟨if_pos htraining, fun hwrong => hexec.trans (if_pos hwrong),
      fun hright => hexec.trans (if_neg (Bool.not_eq_true _ ▸ hright))⟩
  case probe => exact fun p src tag strap s hup => ⟨if_pos hup, if_pos hup⟩
  case rtt => exact fun p src rtt s hup => probeRsp_of_up hup src rtt
  case level => exact fun s hpower hdue => if_pos (by simp [hpower, hdue])
  case wait => exact fun d s hcourse => if_pos (by simp [hcourse])
  case round =>
    intro d p s hfirst
    have hexec := probeRound_of_probed hfirst
    exact ⟨fun hlost => hexec.trans (if_pos hlost), fun hleft => hexec.trans (if_neg hleft.not_ge)⟩
  case timeout =>
    intro tag r s hfirst
    refine ⟨reqTimeoutExpiry_of_last hfirst, fun p hleft hway => ?_⟩
    have hexec := reqTimeoutExpiry_of_left hfirst hleft
    rwa [reissuePort_eq hway] at hexec
  case identify =>
    intro q seq c s hacc hport
    have hexec := fabricIdent_of_port hacc hport
    exact ⟨fun hdown => hexec.trans (congrArg _ (if_neg (Bool.not_eq_true _ ▸ hdown))),
      fun hup => hexec.trans (congrArg _ (if_pos hup))⟩
  case identified =>
    exact fun p peer slot tag dev q seq valid r s hfirst howner => identRsp_of_ident hfirst howner dev valid

end Sys2Proof.Proofs

/-! ## Requests of other modules and copies between modules (R20, R197, R274, R276 to R281) -/

namespace Sys2Proof.Proofs
open Sys2Proof.Machine Sys2Proof.Laws Sys2Proof.Safety

/-! ### Requests served -/

/-- What the module answers to a fresh request. -/
abbrev answered (h : FabHdr) (t : State) (op st : Nat) (unc : Bool) (bs : List Byte) : State :=
  t.respond h.src h.epoch h.tag op st unc bs

/-- The bytes of a mask run reach their place, or what refuses them happens (R276). -/
def storeRun (h : FabHdr) (addr n : Nat) (u : State) (r : Nat × List Byte) : State :=
  match u.busWrite (u.storeWriter h.src h.course addr n) h.wadding (addr + r.1) r.2 with
  | .done t | .miss t | .stopped _ t | .waits t => t

/-- A store whose bytes have reached their places: those that wait for audits carry the request. -/
def stored (h : FabHdr) (addr : Nat) (data : List (Byte × Bool)) (a : State) : State :=
  ((maskRuns 0 data).foldl (storeRun h addr data.length) a).holdAck a (h.src, h.epoch, h.tag)

/-- A sum joins its W96 container; the bits above the sum stay (R277). -/
def addW96 (addr : Nat) (u : State) (p : Nat × Nat) : State :=
  let r := u.readMem .remote (addr + 16 * p.2) 16
  r.st.writeMem (addr + 16 * p.2) (leBytes 13 ((fieldLe r.bytes 0 13 + p.1) % 2 ^ 104) ++ r.bytes.drop 13)

/-- The table that a YEALM_REQ sees: as of its planned batten when it belongs to the running course (R278). -/
def seenTable (a : State) (h : FabHdr) (t : Nat) : Option (List Byte × List Byte) :=
  a.tableAt (if a.running && h.course == a.courseLow then some h.pbatten else none) t

/-- The payload of a stored row joins the answer. -/
def rowRead (t : Nat) (d : TDesc) (y : List Byte × Bool × State) (p : Nat × RowPlace) : List Byte × Bool × State :=
  let r := y.2.2.readMem .remote (faLocal (p.2.row d)) d.payload
  (y.1 ++ padTo (ceilDiv d.payload 8 * 8) r.bytes, y.2.1 || r.unc, r.st.shardLoad t p.2.shard 0 1)

/-- The shards of an answer with their versions and banks. -/
def shardList (entries : List Byte) (ps : List (Nat × RowPlace)) : List Byte :=
  ((ps.map (fun p => p.2.shard)).eraseDups).flatMap (fun k =>
    leBytes 2 k ++ leBytes 4 (sentry entries k).version ++ leBytes 2 (sentry entries k).bank)

section
variable {s : State} {h : FabHdr} (f : Fresh s h)
include f

/-- A fresh request whose service is over is answered with what came of it. -/
theorem serve_of_answered {rsp : Nat} {g : State → Served} {r : Served} (hr : g (arrived s h) = r)
    (hnow : r.later = false) : s.serve h rsp g = answered h r.st rsp r.status r.unc r.payload := by
  rw [serve_of_fresh f, hr]
  exact if_neg (ne_true_of_eq_false hnow)

theorem read_of_span {addr n : Nat} (hpos : 1 ≤ n) (hpage : addr % 4096 + n ≤ 4096) (hlocal : addr + n ≤ 2 ^ 43) :
    let r := (arrived s h).busRead (.remote h.src h.course) addr n
    exec (.read h addr n) s =
      .next (if r.miss then answered h r.st 0x81 1 false [] else answered h r.st 0x81 0 r.unc r.bytes) := by
  intro r
  have hspan : fabricSpan addr n = true := by simp only [fabricSpan, hpos, hpage, hlocal, decide_true, Bool.and_self]
  simp only [exec, execRead, serve_of_fresh f, hspan, if_true]
  cases r.miss <;> rfl

theorem read_of_bad_span {addr n : Nat} (hbad : n = 0 ∨ 4096 < addr % 4096 + n ∨ 2 ^ 43 < addr + n) :
    exec (.read h addr n) s = .next (answered h (arrived s h) 0x81 5 false []) := by
  have hspan : fabricSpan addr n = false := by simp [fabricSpan]; omega
  simp only [exec, execRead, serve_of_fresh f, hspan, Bool.false_eq_true, if_false]

theorem store_of_unrefused {addr : Nat} {data : List (Byte × Bool)} (hspan : fabricSpan addr data.length = true)
    (hstop : (arrived s h).remoteStop h addr data.length = none) :
    let t := stored h addr data (arrived s h)
    exec (.store h addr data) s = .next (if t.answerDue (h.src, h.epoch, h.tag) then t.stageStored h.src addr data.length
      else answered h (t.stageStored h.src addr data.length) 0x82 0 false []) := by
  simp only [exec, execStore, serve_of_fresh f, hspan, if_true, hstop]
  rfl

theorem atomicW96_of_mapped {addr : Nat} {accs : List Nat} (hpos : 1 ≤ accs.length) (hmany : accs.length ≤ 64)
    (haligned : addr % 16 = 0) (hlocal : addr + 16 * accs.length ≤ 2 ^ 43)
    (hmem : (arrived s h).memRange addr (16 * accs.length) = true)
    (hstop : (arrived s h).remoteStop h addr (16 * accs.length) = none) :
    exec (.atomicW96 h addr accs) s = .next (answered h (accs.zipIdx.foldl (addW96 addr)
      ((arrived s h).noteWriter (.remote h.src h.course) addr (16 * accs.length))) 0x82 0 false []) := by
  simp only [exec, execAtomicW96, serve_of_fresh f, hpos, hmany, haligned, hlocal, hmem, hstop, and_self, if_true,
    Bool.not_true, Bool.false_eq_true, if_false]
  rfl

theorem rowAdd_of_unrefused {t row : Nat} {accs : List Nat} (hstop : (arrived s h).rowAddStop h t row accs.length = none)
    (n : Nat) :
    let a := arrived s h
    let r := a.applyAdd (a.addUnit t row) t row accs n (if a.cstate = 0 then none else some a.course.queue)
    (r.1 = .ok → exec (.rowAdd h t row n accs) s = .next (answered h r.2 0x82 0 false [])) ∧
      (r.1 = .refused ∨ r.1 = .full → exec (.rowAdd h t row n accs) s = .next (answered h r.2 0x82 2 false [])) := by
  intro a r
  refine ⟨fun hr => congrArg Host.Outcome.next (serve_of_answered f (r := ⟨0, r.2, false, [], false⟩) ?_ rfl),
    fun hr => congrArg Host.Outcome.next (serve_of_answered f (r := ⟨2, r.2, false, [], false⟩) ?_ rfl)⟩
  · simp only [r, a] at hr
    simp only [hstop, hr]
    rfl
  · simp only [r, a] at hr
    rcases hr with hr | hr
    all_goals
      simp only [hstop, hr]
      rfl

theorem rowAdd_of_refused {t row st : Nat} {accs : List Nat}
    (hstop : (arrived s h).rowAddStop h t row accs.length = some st) (n : Nat) :
    exec (.rowAdd h t row n accs) s = .next (answered h (arrived s h) 0x82 st false []) := by
  simp only [exec, execRowAdd, serve_of_fresh f, hstop, Bool.false_eq_true, if_false]

section
variable {t : Nat} {rows : List Nat} (hpos : 1 ≤ rows.length) (hmany : rows.length ≤ 256)
include hpos hmany

theorem yealmReq_of_unknown (hnone : seenTable (arrived s h) h t = none) :
    exec (.yealmReq h t rows) s = .next (answered h (arrived s h) 0x85 7 false []) := by
  have hcount : ¬ (rows.length = 0 ∨ 256 < rows.length) := by omega
  rw [seenTable] at hnone
  simp only [exec, execYealmReq, serve_of_fresh f, if_neg hcount, hnone, Bool.false_eq_true, if_false]

theorem yealmReq_of_here {x : List Byte × List Byte} (hsome : seenTable (arrived s h) h t = some x) :
    let a := arrived s h
    let d := tdesc x.1
    let ps := rows.map (fun r => (r, rowPlace d x.2 r))
    (∀ p ∈ ps, p.1 < d.rows ∧ a.here (p.2.row d) = true ∧ a.memRange (faLocal (p.2.row d)) d.payload = true) →
    let out := ps.foldl (rowRead t d) ([], false, a)
    exec (.yealmReq h t rows) s = .next (answered h out.2.2 0x85 0 out.2.1 (out.1 ++ shardList x.2 ps)) := by
  intro a d ps hrows out
  have hcount : ¬ (rows.length = 0 ∨ 256 < rows.length) := by omega
  have hhere : ps.any (fun p => decide (d.rows ≤ p.1) || !a.here (p.2.row d)) = false := by
    refine List.any_eq_false.2 fun p hp => ?_
    obtain ⟨hlt, hhere, _⟩ := hrows p hp
    simp [hhere, hlt]
  have hmapped : ps.any (fun p => !a.memRange (faLocal (p.2.row d)) d.payload) = false := by
    refine List.any_eq_false.2 fun p hp => ?_
    obtain ⟨_, _, hmem⟩ := hrows p hp
    simp [hmem]
  rw [seenTable] at hsome
  refine congrArg Host.Outcome.next (serve_of_answered f (r := ⟨0, out.2.2, out.2.1, out.1 ++ shardList x.2 ps, false⟩)
    ((if_neg hcount).trans ?_) rfl)
  simp only [hsome]
  exact (if_neg (ne_true_of_eq_false hhere)).trans (if_neg (ne_true_of_eq_false hmapped))

end

end

/-! ### Good responses -/

section
variable {s : State} {src tag : Nat} {r : FabReq}

/-- The request that is outstanding under its tag is the first one there. -/
theorem find_of_asked {op : Nat} (h : Asked s tag op r) :
    s.fab.reqs.find? (fun r => r.tag == tag && !r.held && r.op == op) = some r := by
  obtain ⟨hreqs, hheld, hop⟩ := h
  calc s.fab.reqs.find? (fun r => r.tag == tag && !r.held && r.op == op)
    _ = (s.fab.reqs.filter (fun r => r.tag == tag)).find? (fun r => !r.held && r.op == op) := by
        simp only [List.find?_filter, Bool.and_assoc, Bool.decide_and, Bool.decide_eq_true]
    _ = some r := by rw [hreqs, List.find?_cons_of_pos (by simp [hheld, hop])]

/-- Whether the bytes of a good READ_RSP wait is asked of the copy that asked for them. -/
theorem rspWaits_of_copy {q seq off : Nat} (hasked : Asked s tag 0x01 r) (howner : r.owner = .copyRead q seq off)
    (bs : List Byte) : (s.heard src).rspWaits tag 0 bs = (s.heard src).copyWaits q seq off bs := by
  have hfirst : (s.heard src).fab.reqs.find? (fun r => r.tag == tag && !r.held && r.op == 0x01) = some r :=
    find_of_asked hasked
  simp only [State.rspWaits, hfirst, howner, if_true]

theorem readRsp_of_copy {q seq off : Nat} (hasked : Asked s tag 0x01 r) (howner : r.owner = .copyRead q seq off) (unc : Bool)
    (bs : List Byte) :
    let t := (s.heard src).dropReq tag
    let u := if unc then t.markLive 1 else t
    ((s.heard src).copyWaits q seq off bs = none →
      exec (.readRsp ⟨src, tag⟩ 0 unc bs) s = .next ((u.copyPut q seq off bs).copySettle q seq)) ∧
    (∀ w, (s.heard src).copyWaits q seq off bs = some w → exec (.readRsp ⟨src, tag⟩ 0 unc bs) s = .next w) := by
  intro t u
  refine ⟨fun hfree => ?_, fun w hbusy => ?_⟩
  · simp only [exec, execReadRsp, rspWaits_of_copy hasked howner, hfree]
    refine congrArg Host.Outcome.next ((answer_of_asked hasked (by decide) src _).trans ?_)
    simp only [howner]
    rfl
  · simp only [exec, execReadRsp, rspWaits_of_copy hasked howner, hbusy]

theorem ack_of_copy {q seq off n : Nat} (hasked : Asked s tag 0x02 r) (howner : r.owner = .copyStore q seq off n) :
    exec (.ack ⟨src, tag⟩ 0) s = .next (((s.heard src).dropReq tag).copySettle q seq) := by
  refine congrArg Host.Outcome.next ((answer_of_asked hasked (by decide) src _).trans ?_)
  simp only [howner]

/-- The rows that a part of a descriptor asks for. -/
def partUnits (y : YDesc) (k : Nat) : Nat := match y.parts[k]? with | some p => p.units.length | none => 0

theorem yealmRsp_of_part {die id k : Nat} {y : YDesc} (hasked : Asked s tag 0x05 r) (howner : r.owner = .yealm die id k)
    (hdesc : ((s.heard src).dropReq tag).ydesc? die id = some y) (bs : List Byte) (shards : List (Nat × Nat × Nat)) :
    exec (.yealmRsp ⟨src, tag⟩ 0 false bs shards) s = .next (State.partArrived (shards.foldl (fun s x =>
      s.driftReport y.drift y.f.table x.1 x.2.1 x.2.2) ((s.heard src).dropReq tag)) die id k
        (rspChunks (tdesc y.table).payload (partUnits y k) bs)) := by
  refine congrArg Host.Outcome.next ((answer_of_asked hasked (by decide) src _).trans ?_)
  simp only [howner, hdesc, Bool.false_eq_true, if_false]
  rfl

end

/-! ### FABRIC_COPY -/

section
variable {s : State} {q : Fin 16384} {seq : Nat} {c : Cmd}

/-- A copy whose ends pass their checks takes its bytes on this module, or asks another module for them in pieces. -/
theorem fabricCopy_of_sound (hacc : Accepted 0x0401 q seq c s) (hsrc : c.par 16 8 + c.par 32 8 ≤ 2 ^ 54)
    (hdst : c.par 24 8 + c.par 32 8 ≤ 2 ^ 54) (hpos : 0 < c.par 32 8)
    (hread : s.copyEnd c (c.par 16 8) (c.par 32 8) false = none)
    (hwrite : s.copyEnd c (c.par 24 8) (c.par 32 8) true = none) :
    let src := c.par 16 8
    let n := c.par 32 8
    (s.here src = true → (let r := s.busRead (.command q) (faLocal src) n
      (r.waits = true → exec (.fabricCopy q seq) s = .next r.st) ∧
      (∀ w, r.waits = false → r.st.copyWaits q seq 0 r.bytes = some w → exec (.fabricCopy q seq) s = .next w) ∧
      (r.waits = false → r.st.copyWaits q seq 0 r.bytes = none →
        exec (.fabricCopy q seq) s = .next (((r.st.cmdWaits c []).copyPut q seq 0 r.bytes).copySettle q seq)))) ∧
    (s.here src = false → exec (.fabricCopy q seq) s = .next ((fabPieces (faLocal src) n).foldl (fun s p =>
      s.ask q (faDev src) 0x01 p.1 p.2 [] (.copyRead q seq (p.1 - faLocal src)) (s.queueWadding q)) (s.cmdWaits c []))) := by
  intro src n
  simp only [exec, execFabricCopy, runCmd_of_accepted hacc, if_neg hsrc.not_gt, if_neg hdst.not_gt, if_neg hpos.ne',
    hread, hwrite, Option.or_none]
  refine ⟨fun hhere => ⟨fun hwaits => ?_, fun w hread hbusy => ?_, fun hread hfree => ?_⟩, fun haway => ?_⟩
  · simp only [src, n] at hhere hwaits
    simp only [hhere, hwaits, if_true]
    rfl
  · simp only [src, n] at hhere hread hbusy
    simp only [hhere, hread, hbusy, if_true, Bool.false_eq_true, if_false]
  · simp only [src, n] at hhere hread hfree
    simp only [hhere, hread, hfree, if_true, Bool.false_eq_true, if_false]
    rfl
  · exact congrArg Host.Outcome.next (if_neg (ne_true_of_eq_false haway))

end

/-- Settles O46: a fresh request passes the checks of its operation in turn, a good response finds its owner by its tag,
and a copy is judged by where its source lies. -/
theorem fabricRuns : Obligations.FabricRuns := by
  unfold Obligations.FabricRuns
  refine ⟨?served, ?readRsp, ?ack, ?yealmRsp, ?copy⟩
  case served =>
    intro h s f a answer
    refine ⟨?read, ?badRead, ?store, ?atomic, ?add, ?badAdd, ?rows⟩
    case read =>
      intro addr n hpos hpage hlocal r
      have hexec := read_of_span f hpos hpage hlocal
      exact ⟨fun hm => hexec.trans (congrArg _ (if_neg (ne_true_of_eq_false hm))),
        fun hm => hexec.trans (congrArg _ (if_pos hm))⟩
    case badRead => exact fun addr n hbad => read_of_bad_span f hbad
    case store =>
      intro addr data hspan hstop w k t
      have hexec := store_of_unrefused f hspan hstop
      exact ⟨fun hdone => hexec.trans (congrArg _ (if_neg (ne_true_of_eq_false hdone))),
        fun hdue => hexec.trans (congrArg _ (if_pos hdue))⟩
    case atomic =>
      exact fun addr accs hpos hmany haligned hlocal hmem hstop =>
        atomicW96_of_mapped f hpos hmany haligned hlocal hmem hstop
    case add => exact fun t row n accs hstop => rowAdd_of_unrefused f hstop n
    case badAdd => exact fun t row n st accs hstop => rowAdd_of_refused f hstop n
    case rows =>
      exact fun t rows hpos hmany => ⟨yealmReq_of_unknown f hpos hmany, fun x => yealmReq_of_here f hpos hmany⟩
  case readRsp => exact fun src tag q seq off unc bs r s hasked howner => readRsp_of_copy hasked howner unc bs
  case ack => exact fun src tag q seq off n r s hasked howner => ack_of_copy hasked howner
  case yealmRsp =>
    exact fun src tag die id k y bs shards r s hasked howner hdesc => yealmRsp_of_part hasked howner hdesc bs shards
  case copy =>
    intro q seq c s hacc src n hsrc hdst hpos hread hwrite
    exact fabricCopy_of_sound hacc hsrc hdst hpos hread hwrite

end Sys2Proof.Proofs

/-! ## The ingest ports as responder (R293 to R296) -/

namespace Sys2Proof.Proofs
open Sys2Proof.Machine Sys2Proof.Laws Sys2Proof.Safety

section
variable {s : State}

/-! ### Frames -/

theorem frameIn_of_frameOk {p : Nat} {f : EthFrame} (h : FrameOk s p f) (q : Nat) (k : State → State) :
    s.frameIn p q f k = k s := by
  obtain ⟨hruns, hfec, hfcs, hlen, hon, hdst, hudp, hicrc, hecn⟩ := h
  have hmine : ¬ (maxFrame < f.len ∨ s.ipOn p f.ip6 = false ∨ f.dst ≠ s.ipAddr p f.ip6 ∨ f.udp ≠ roceUdp) := by
    simp [hlen, hon, hdst, hudp]
  simp only [State.frameIn, hruns, hfec, hfcs, if_neg hmine, hicrc, hecn, Bool.not_true, Bool.false_eq_true, if_true,
    if_false]

/-- The port when a frame has come whose FEC may have failed: its uncorrectable codewords are counted. -/
def fecNoted (s : State) (p : Nat) (f : EthFrame) : State :=
  if f.fec = 0 then s else s.bump F.ETH_ERRCNT_FEC_UNCORR f.fec p

section
variable {p : Nat} {f : EthFrame} (hruns : s.portRuns p = true)
include hruns

theorem frameIn_of_bad_fcs (hfcs : f.fcsOk = false) (q : Nat) (k : State → State) :
    s.frameIn p q f k = (fecNoted s p f).bump F.ETH_ERRCNT_FCS_ERR 1 p := by
  simp only [State.frameIn, hruns, hfcs, Bool.not_true, Bool.not_false, Bool.false_eq_true, if_true, if_false]
  rfl

theorem frameIn_of_foreign (hfcs : f.fcsOk = true)
    (hforeign : maxFrame < f.len ∨ (fecNoted s p f).ipOn p f.ip6 = false ∨ f.dst ≠ (fecNoted s p f).ipAddr p f.ip6 ∨
      f.udp ≠ roceUdp) (q : Nat) (k : State → State) : s.frameIn p q f k = fecNoted s p f := by
  simp only [State.frameIn, hruns, hfcs, Bool.not_true, Bool.false_eq_true, if_false]
  exact if_pos hforeign

theorem frameIn_of_bad_icrc (hfcs : f.fcsOk = true)
    (hmine : ¬ (maxFrame < f.len ∨ (fecNoted s p f).ipOn p f.ip6 = false ∨ f.dst ≠ (fecNoted s p f).ipAddr p f.ip6 ∨
      f.udp ≠ roceUdp)) (hicrc : f.icrcOk = false) (q : Nat) (k : State → State) :
    s.frameIn p q f k = (fecNoted s p f).bump F.ETH_ERRCNT_ICRC_ERR 1 p := by
  simp only [State.frameIn, hruns, hfcs, hicrc, Bool.not_true, Bool.not_false, Bool.false_eq_true, if_true, if_false]
  exact if_neg hmine

end

/-- A message whose frame goes no further leaves what became of the frame, whichever message it carries. -/
theorem message_of_dropped {h : RoceHdr} {t : State} (hdropped : ∀ k, s.frameIn h.port h.qp h.f k = t) {rkey va n : Nat}
    {data : List Byte} :
    exec (.responderRdmaWrite h rkey va data) s = .next t ∧ exec (.responderRdmaRead h rkey va n) s = .next t := by
  simp only [exec, execResponderRdmaWrite, State.ingestWrite, execResponderRdmaRead, State.takeRoce, hdropped, and_self]

/-! ### Messages in order -/

section
variable {h : RoceHdr} {x : QueuePair} (hin : RoceInOrder s h x)
include hin

/-- A message in order is taken, and the next PSN is awaited. -/
theorem takeRoce_of_inOrder (n : Nat) (dup act : State → State) :
    s.takeRoce h (s.packets h.port n) dup (fun _ => act) = act (roceTaken s h x n) := by
  obtain ⟨hframe, hsupported, hpair, hok, hpsn⟩ := hin
  simp only [State.takeRoce, frameIn_of_frameOk hframe, hpair, hok, hpsn, ne_eq, not_true_eq_false, hsupported,
    Bool.not_true, Bool.false_eq_true, if_false, roceTaken]

section
variable {rkey va : Nat} {data : List Byte} (done : MemRegion → State → State)

theorem ingestWrite_of_refused (hrefused : (roceTaken s h x data.length).region? h.port rkey = none ∨
      ∃ m, (roceTaken s h x data.length).region? h.port rkey = some m ∧ m.admits true va data.length = false) :
    s.ingestWrite h rkey va data done = (roceTaken s h x data.length).sendNak h.port h.qp h.psn 2 := by
  unfold State.ingestWrite
  rw [takeRoce_of_inOrder hin]
  rcases hrefused with hnone | ⟨m, hm, hout⟩
  · simp only [hnone]
  · simp only [hm, hout, Bool.not_false, if_true]

section
variable {m : MemRegion} {t : State} (hm : (roceTaken s h x data.length).region? h.port rkey = some m)
  (hadmits : m.admits true va data.length = true)
include hm hadmits

theorem ingestWrite_of_done
    (hdone : (roceTaken s h x data.length).busPost (.ingest h.port) false va data = .done t) :
    s.ingestWrite h rkey va data done = done m ((t.bump F.ETH_RXBYTES_BYTES data.length h.port).sendAck h.port h.qp
      (psnAdd h.psn (t.packets h.port data.length - 1))) := by
  simp only [State.ingestWrite, takeRoce_of_inOrder hin, hm, hadmits, Bool.not_true, Bool.false_eq_true, if_false, hdone]

theorem ingestWrite_of_stopped {why : WriteStop}
    (hstopped : (roceTaken s h x data.length).busPost (.ingest h.port) false va data = .stopped why t) :
    s.ingestWrite h rkey va data done = (((t.sendNak h.port h.qp h.psn 2).set F.ETH_STATUS_LOCK_REFUSED 1 h.port).qpError
      h.port h.qp stRefused 2).ingestRecord (h.port * 1024 + h.qp) m.queue stLocked := by
  simp only [State.ingestWrite, takeRoce_of_inOrder hin, hm, hadmits, Bool.not_true, Bool.false_eq_true, if_false,
    hstopped]

end

end

section
variable {rkey va n : Nat} {m : MemRegion} (hm : (roceTaken s h x n).region? h.port rkey = some m)
include hm

theorem responderRdmaRead_of_admitted (hadmits : m.admits false va n = true) :
    let r := (roceTaken s h x n).busRead (.ingest h.port) va n
    r.miss = false → exec (.responderRdmaRead h rkey va n) s =
      .next ((r.st.bump F.ETH_TXBYTES_BYTES n h.port).portSend h.port h.qp (.roce h.port h.qp 2 h.psn 0 0 r.bytes)) := by
  intro r hmapped
  refine congrArg Host.Outcome.next ((takeRoce_of_inOrder hin n _ _).trans ?_)
  simp only [State.readAnswer, hm, hadmits, Bool.not_true, Bool.false_eq_true, if_false]
  exact if_neg (ne_true_of_eq_false hmapped)

theorem responderRdmaRead_of_refused (hrefused : m.admits false va n = false) :
    exec (.responderRdmaRead h rkey va n) s = .next ((roceTaken s h x n).sendNak h.port h.qp h.psn 2) := by
  refine congrArg Host.Outcome.next ((takeRoce_of_inOrder hin n _ _).trans ?_)
  simp only [State.readAnswer, hm, hrefused, Bool.not_false, if_true]

end

end

/-! ### Congestion, flow control and the link -/

section
variable {p : Fin 2}

theorem cnp_of_ecn {q : Fin 1024} {f : EthFrame} {x : QueuePair} (hpair : s.qp? p q = some x) (hframe : FrameOk s p f)
    (hecn : s.bit F.ETH_CTRL_ECN_EN p = true) :
    exec (.cnp p ⟨q, f⟩) s = .next (s.putQp p q { x with rate := x.rate / 2, cutAt := some s.now }) := by
  refine congrArg Host.Outcome.next ((frameIn_of_frameOk hframe q _).trans ?_)
  simp only [hpair, hecn, if_true]

/-- A pair whose rate a CNP has cut is back at its full rate 55 µs later, and below it before. -/
theorem rateRestore_of_cut {q : Fin 1024} {x : QueuePair} {t : Nat} (hpair : s.qp? p q = some x)
    (hcut : x.cutAt = some t) (rate : Rat) :
    exec (.rateRestore p q rate) s = .next (if t + 55000 ≤ s.now then s.putQp p q { x with rate := 1, cutAt := none }
      else s.putQp p q { x with rate := max x.rate (min rate 1) }) := by
  simp only [exec, execRateRestore, hpair, hcut]

theorem priorityFlowControlFrame_of_own {prio : Fin 8} (hruns : s.portRuns p = true)
    (hpfc : s.bit F.ETH_CTRL_PFC_EN p = true) (hprio : s.get F.ETH_CTRL_PFC_PRIO p = prio.val) (pause : Bool) :
    let others := s.eth.paused.filter (fun k => k != p.val)
    exec (.priorityFlowControlFrame p prio pause) s = .next (if pause then s.updEth (fun e => { e with
        paused := (others ++ [p.val]).mergeSort (fun a b => decide (a ≤ b)) })
      else (s.updEth (fun e => { e with paused := others })).pumpPort p) :=
  congrArg Host.Outcome.next (if_pos (by simp [hruns, hpfc, hprio]))

theorem ingestLinkStateChange_of_up (hen : s.bit F.ETH_CTRL_EN p = true) :
    exec (.ingestLinkStateChange p true true) s =
      .next (((s.set F.ETH_STATUS_FEC_LOCK 1 p).set F.ETH_STATUS_LINK_UP 1 p).pumpPort p) := by
  simp only [exec, execIngestLinkStateChange, hen, Bool.and_self, if_true]

end

end

/-- Settles O47: a message that a good frame brings in order meets its region, its right and the address space in turn, and
a bad frame ends where its check fails. -/
theorem roceResponderRuns : Obligations.RoceResponderRuns := by
  unfold Obligations.RoceResponderRuns
  refine ⟨?write, ?read, ?frame, ?congestion, ?flow, ?link⟩
  case write =>
    intro h rkey va data x s hin u
    refine ⟨fun m hm hadmits => ⟨fun t hdone => ?_, fun why t hstopped => ?_⟩, fun hrefused => ?_⟩
    · exact ⟨congrArg Host.Outcome.next (ingestWrite_of_done hin _ hm hadmits hdone),
        fun imm => congrArg Host.Outcome.next (ingestWrite_of_done hin _ hm hadmits hdone)⟩
    · exact congrArg Host.Outcome.next (ingestWrite_of_stopped hin _ hm hadmits hstopped)
    · exact ⟨congrArg Host.Outcome.next (ingestWrite_of_refused hin _ hrefused),
        fun imm => congrArg Host.Outcome.next (ingestWrite_of_refused hin _ hrefused)⟩
  case read =>
    intro h rkey va n m x s hin u r hm
    exact ⟨responderRdmaRead_of_admitted hin hm, responderRdmaRead_of_refused hin hm⟩
  case frame =>
    intro h rkey va n data s hruns u
    refine ⟨fun hfcs => ?_, fun hfcs hforeign => ?_, fun hfcs hlen hon hdst hudp hicrc => ?_⟩
    · exact message_of_dropped (frameIn_of_bad_fcs hruns hfcs h.qp)
    · exact message_of_dropped (frameIn_of_foreign hruns hfcs hforeign h.qp)
    · have hmine : ¬ (maxFrame < h.f.len ∨ u.ipOn h.port h.f.ip6 = false ∨ h.f.dst ≠ u.ipAddr h.port h.f.ip6 ∨
          h.f.udp ≠ roceUdp) := by simp [hlen, hon, hdst, hudp]
      exact message_of_dropped (frameIn_of_bad_icrc hruns hfcs hmine hicrc h.qp)
  case congestion =>
    intro p q x s hpair
    refine ⟨fun f hframe hecn => cnp_of_ecn hpair hframe hecn, fun rate t hcut => ?_⟩
    have hexec := rateRestore_of_cut hpair hcut rate
    exact ⟨fun hover => hexec.trans (congrArg _ (if_pos hover)),
      fun hearly => hexec.trans (congrArg _ (if_neg hearly.not_ge))⟩
  case flow =>
    intro p prio s hruns hpfc hprio others
    exact ⟨priorityFlowControlFrame_of_own hruns hpfc hprio true, priorityFlowControlFrame_of_own hruns hpfc hprio false⟩
  case link => exact fun p s => ⟨ingestLinkStateChange_of_up, fun fec => rfl, rfl, rfl⟩

end Sys2Proof.Proofs

/-! ## The ingest ports as requester, regions and queue pairs (R294, R295, R351) -/

namespace Sys2Proof.Proofs
open Sys2Proof.Machine Sys2Proof.Laws Sys2Proof.Safety

section
variable {s : State}

/-! ### Requests and their answers -/

/-- A transfer on a set queue pair whose local range passes the checks becomes a request of the pair. -/
theorem rdmaStart_of_sound {c : Cmd} {x : QueuePair} {read : Bool} (hpair : s.qp? (c.par 16 1) (c.par 18 2) = some x)
    (hok : x.err = false) (hport : c.par 16 1 < 2) (hqp : c.par 18 2 < 1024) (hlocal : c.par 24 8 + c.par 40 4 ≤ 2 ^ 43)
    (hmapped : s.rangeMapped (c.par 24 8) (c.par 40 4) = true)
    (hstop : read = true → s.writeStop (.command c.q) c.wadding (c.par 24 8) (c.par 40 4) = none) :
    s.rdmaStart c read = (s.cmdWaits c []).makeRoce (c.par 16 1) (c.par 18 2) (some (c.q, c.seq)) none read
      (c.par 24 8) (c.par 32 8) (c.par 40 4) (c.par 44 4) := by
  simp only [State.rdmaStart, if_neg hport.not_ge, if_neg hqp.not_ge, if_neg hlocal.not_gt, hpair, hok, hmapped,
    Bool.not_true, Bool.false_eq_true, if_false]
  cases read with
  | false => rfl
  | true => simp only [hstop rfl, if_true]

section
variable {p : Fin 2} {q : Fin 1024} {x : QueuePair} (hpair : s.qp? p q = some x) (hok : x.err = false)
include hpair hok

/-- What an ACK or a NAK makes of a queue pair that is not in error. -/
theorem roceAck_of_pair {f : EthFrame} (hframe : FrameOk s p f) (psn : Nat) :
    exec (.roceAck p ⟨q, f⟩ psn none) s = .next (s.roceAcked p q psn x) ∧
      exec (.roceAck p ⟨q, f⟩ psn (some 0)) s = .next ((s.roceAcked p q (psnAdd psn (2 ^ 24 - 1)) x).goBack p q) ∧
      ∀ k, exec (.roceAck p ⟨q, f⟩ psn (some (k + 1))) s = .next (s.qpError p q stRefused (k + 1)) := by
  simp only [exec, execRoceAck, frameIn_of_frameOk hframe, hpair, hok, Bool.false_eq_true, if_false]
  exact ⟨trivial, trivial, fun _ => trivial⟩

theorem roceAckTimeout_of_sent (hsent : x.reqs.any (fun r => r.sent) = true) :
    exec (.roceAckTimeout p q) s = .next (if x.ctx.retries ≤ x.tries then s.qpError p q stTimeout 0
      else (s.putQp p q { x with tries := x.tries + 1 }).goBack p q) := by
  simp only [exec, execRoceAckTimeout, hpair, hok, hsent, Bool.not_true, Bool.or_self, Bool.false_eq_true, if_false]

/-- All data of the only request of a queue pair, a read, arrive at once: they are written, and the read has ended. -/
theorem rdmaReadResponse_of_whole {f : EthFrame} {psn cq cs : Nat} {bs : List Byte} {r : RoceReq} {y : QueuePair} {t : State}
    (hframe : FrameOk s p f) (hreqs : x.reqs = [r]) (hread : r.read = true) (hsent : r.sent = true) (hgot : r.got = 0)
    (hpsn : psn = psnAdd r.psn 0) (hcmd : r.cmd = some (cq, cs)) (hlen : bs.length = r.len) :
    let u := ((s.putQp p q { x with reqs := [r], tries := 0 }).bump F.ETH_RXBYTES_BYTES r.len p).act cq 9 (ceilDiv r.len 64)
    u.busPost (.command cq) (u.queueWadding cq) r.laddr bs = .done t → t.qp? p q = some y → y.reqs = [r] →
      exec (.rdmaReadResponse p ⟨q, f⟩ psn bs) s = .next ((t.putQp p q { y with reqs := [] }).roceDone r) := by
  intro u hdone hafter hleft
  have hfirst : [r].find? (fun r => r.read && r.sent) = some r := by simp [hread, hsent]
  have hbefore : [r].takeWhile (fun y => !y.read) = [] := by simp [hread]
  have hdata : bs.take (r.len - 0) = bs := by simp [← hlen]
  have hended : y.reqs.erase r = [] := by simp [hleft]
  simp only [u, hok] at hdone
  simp only [exec, execRdmaReadResponse, frameIn_of_frameOk hframe, hpair, hok, hreqs, hfirst, hbefore, List.length_nil,
    List.drop_zero, List.foldl_nil, hgot, hpsn, Nat.zero_div, ne_eq, not_true_eq_false, Bool.false_eq_true, if_false,
    hdata, hcmd, hlen, Nat.add_zero, Nat.zero_add, hdone, Nat.lt_irrefl, hafter, hended]

end

/-! ### Regions -/

theorem freeRegion_lt {port i : Nat} (h : s.freeRegion port = some i) : i < 4096 := by
  unfold State.freeRegion at h
  exact List.mem_range.1 (List.mem_of_find?_eq_some h)

/-- An rkey, 20 free bits above the number of its entry, is a word of 32 bits with that entry in its low 12. -/
theorem rkey_spec (v : Nat) {i : Nat} (h : i < 4096) :
    v % 2 ^ 20 * 4096 + i < 2 ^ 32 ∧ (v % 2 ^ 20 * 4096 + i) % 4096 = i := by
  omega

section
variable {q : Fin 16384} {seq : Nat} {c : Cmd}

theorem mrRegister_of_free {i : Nat} (hacc : Accepted 0x0204 q seq c s) (haligned : c.par 16 8 % 64 = 0)
    (hlocal : c.par 16 8 < 2 ^ 43) (hrights : c.par 32 1 < 4) (hport : c.par 33 1 < 2) (hqueue : c.par 34 2 < 16384)
    (hfree : s.freeRegion (c.par 33 1) = some i) :
    let k := s.draw.1.toNat % 2 ^ 20 * 4096 + i
    let m : MemRegion := ⟨k, c.par 16 8, c.par 24 8, c.par 32 1 % 2 == 1, c.par 32 1 / 2 % 2 == 1, c.par 34 2⟩
    let u := s.draw.2.updEth (fun e => { e with regions := Sparse.put none e.regions (c.par 33 1 * 4096 + i) (some m) })
    exec (.mrRegister q seq) s = .next ((u.writeEntry (c.par 33 1) i).succeed c k) := by
  simp only [exec, execMrRegister, runCmd_of_accepted hacc, needA_of_aligned haligned hlocal, if_neg hrights.not_ge,
    if_neg hport.not_ge, if_neg hqueue.not_ge, hfree]

theorem mrDeregister_of_region {m : MemRegion} (hacc : Accepted 0x0205 q seq c s) (hport : c.par 20 1 < 2)
    (hm : s.region? (c.par 20 1) (c.par 16 4) = some m) :
    let u := s.updEth (fun e =>
      { e with regions := Sparse.put none e.regions (c.par 20 1 * 4096 + c.par 16 4 % 4096) none })
    exec (.mrDeregister q seq) s = .next ((u.writeEntry (c.par 20 1) (c.par 16 4 % 4096)).succeed c 0) := by
  simp only [exec, execMrDeregister, runCmd_of_accepted hacc, if_neg hport.not_ge, hm]

/-- A queue pair that had not been set takes its context, whose bytes go to the contexts of its port. -/
theorem roceQpSet_of_unset {ctx : QpContext} (hacc : Accepted 0x0206 q seq c s) (haligned : c.par 16 8 % 64 = 0)
    (hlocal : c.par 16 8 < 2 ^ 43) (hqp : c.par 24 2 < 1024) (hport : c.par 26 1 < 2)
    (hmem : s.memRange (c.par 16 8) 256 = true) :
    let dst := s.get F.ETH_QP_BASE_BASE (c.par 26 1) * 64 + 256 * c.par 24 2
    let r := s.readMem .engine (c.par 16 8) 256
    s.memRange dst 256 = true → r.st.qp? (c.par 26 1) (c.par 24 2) = none →
    exec (.roceQpSet q seq ctx) s = .next (((r.st.writeMem dst r.bytes).putQp (c.par 26 1) (c.par 24 2)
      ⟨{ ctx with sendPsn := ctx.sendPsn % 2 ^ 24, recvPsn := ctx.recvPsn % 2 ^ 24 }, false, 0, [], 1, none, none⟩).succeed c
        0) := by
  intro dst r hdst hunset
  simp only [dst] at hdst
  simp only [r] at hunset
  simp only [exec, execRoceQpSet, runCmd_of_accepted hacc, needA_of_aligned haligned hlocal, if_neg hqp.not_ge,
    if_neg hport.not_ge, needMem_of_range hmem, needMem_of_range hdst, hunset, List.foldl_nil]
  rfl

end

end

/-- Settles O48: each command passes its checks in order, and what arrives meets a queue pair that is not in error. -/
theorem roceRequesterRuns : Obligations.RoceRequesterRuns := by
  unfold Obligations.RoceRequesterRuns
  refine ⟨?start, ?ack, ?timeout, ?response, ?register, ?deregister, ?pair⟩
  case start =>
    intro q seq c x s hpair hok hport hqp hlocal hmapped made
    refine ⟨fun hacc => ?_, fun hacc hstop => ?_⟩
    · exact congrArg Host.Outcome.next ((runCmd_of_accepted hacc _).trans
        (rdmaStart_of_sound hpair hok hport hqp hlocal hmapped nofun))
    · exact congrArg Host.Outcome.next ((runCmd_of_accepted hacc _).trans
        (rdmaStart_of_sound hpair hok hport hqp hlocal hmapped fun _ => hstop))
  case ack => exact fun p q f psn x s hpair hok hframe => roceAck_of_pair hpair hok hframe psn
  case timeout =>
    intro p q x s hpair hok hsent
    have hexec := roceAckTimeout_of_sent hpair hok hsent
    exact ⟨fun hleft => hexec.trans (congrArg _ (if_neg hleft.not_ge)),
      fun hlast => hexec.trans (congrArg _ (if_pos hlast))⟩
  case response =>
    intro p q f psn cq cs bs r x t s hpair hok hframe hreqs hread hsent hgot hpsn hcmd hlen u hdone y
    exact rdmaReadResponse_of_whole hpair hok hframe hreqs hread hsent hgot hpsn hcmd hlen hdone
  case register =>
    intro q seq i c s hacc haligned hlocal hrights hport hqueue hfree
    obtain ⟨hlt, hentry⟩ := rkey_spec s.draw.1.toNat (freeRegion_lt hfree)
    exact ⟨_, hlt, hentry, mrRegister_of_free hacc haligned hlocal hrights hport hqueue hfree⟩
  case deregister => exact fun q seq m c s hacc hport hm => mrDeregister_of_region hacc hport hm
  case pair =>
    exact fun q seq ctx c s hacc haligned hlocal hqp hport hmem => roceQpSet_of_unset hacc haligned hlocal hqp hport hmem

end Sys2Proof.Proofs

/-! ## Digests, the replica compare and its repair (R303, R305, R308, R309, R311, R313, R315) -/

namespace Sys2Proof.Proofs
open Sys2Proof.Machine Sys2Proof.Laws Sys2Proof.Safety

section
variable {s : State}

/-! ### The exchange of digests -/

/-- The compare of a captured course starts: the own digests go to every peer and count as those of this rank. -/
theorem digestCapture_of_compared (hclosing : s.cstate = 3) (hfolded : s.course.fold = 2)
    (huncaptured : s.course.captured = false) (hcolls : s.collsOver = true) (hopen : s.openCommands s.course.plan = [])
    (hcompares : s.capture.compares = true) (hregions : s.capture.comparedRegions ≠ []) :
    let a := s.capture.set F.LDG_STATUS_COMPARING 1
    let b := sendLevel0 9 a a.capturedPairs
    exec .digestCapture s = .next (State.judgeIfReady (b.updReplay fun x => { x with
      peerDigest := a.capturedPairs.foldl (fun m e => Sparse.put none m (b.rank * 8192 + e.1) (some e.2)) x.peerDigest
      ranksIn := if x.ranksIn.contains b.rank then x.ranksIn else x.ranksIn ++ [b.rank] })) := by
  have hoccasion : s.cstate = 3 ∧ s.course.fold = 2 ∧ s.course.captured = false ∧ s.collsOver = true ∧
      (s.openCommands s.course.plan).isEmpty = true :=
    ⟨hclosing, hfolded, huncaptured, hcolls, List.isEmpty_iff.2 hopen⟩
  have hstarts : (s.capture.compares && s.capture.comparedRegions != []) = true := by simp [hcompares, hregions]
  simp only [exec, execDigestCapture, if_pos hoccasion, if_pos hstarts]

/-- What the digests of a lower level make of the module that takes them (R313). -/
def lowerTaken (rank level base : Nat) (es : List (Nat × Word)) (s : State) : State :=
  let t := s.updReplay fun x => { x with subs := x.subs ++ [(rank, level, base, es.map Prod.snd)] }
  if t.replay.narrowing = [] then t else narrowAll 100000 t

/-- With no unit being narrowed the digests are kept for the unit that they name. -/
theorem lowerTaken_of_idle (rank level base : Nat) (es : List (Nat × Word)) (h : s.replay.narrowing = []) :
    lowerTaken rank level base es s =
      { s with replay := { s.replay with subs := s.replay.subs ++ [(rank, level, base, es.map Prod.snd)] } } :=
  if_pos h

section
variable (h : FabHdr) (course rank base : Nat) (es : List (Nat × Word)) (s : State)

theorem digest_level0 : exec (.digest h course 0 rank base es) s =
    .next (s.serve h 0x82 (fun s => ⟨0, s.takeLevel0 rank es, false, [], false⟩)) := by
  simp only [exec, execDigest, if_true]

theorem digest_lower {level : Nat} (hlower : 0 < level) : exec (.digest h course level rank base es) s =
    .next (s.serve h 0x82 (fun s => ⟨0, lowerTaken rank level base es s, false, [], false⟩)) := by
  simp only [exec, execDigest, if_neg hlower.ne', lowerTaken]

end

theorem digestWaitTimeout_of_silent {rank : Nat} (hcaptured : s.course.captured = true)
    (hcomparing : s.bit F.LDG_STATUS_COMPARING = true) (hmember : rank < s.nrepl) (hother : rank ≠ s.rank)
    (hsilent : rank ∉ s.replay.ranksIn) :
    exec (.digestWaitTimeout rank) s = .next (s.startProbing (s.peerDev rank)) := by
  simp [exec, execDigestWaitTimeout, hcaptured, hcomparing, hmember, hother, hsilent]

/-- The one range of a repair, in the region of the first deviant, is asked of that region's reference rank. -/
theorem repair_of_first {a n : Nat} {d : Nat × Nat × Nat} {rest : List (Nat × Nat × Nat)}
    (hrange : s.replay.repairs = [(a, n)]) (hdeviants : s.replay.deviants = d :: rest) (hregion : d.1 = a / 2 ^ 30) :
    let t := s.updReplay fun x => { x with
      repairs := [], priorLines := if n = 64 then 1 else 0, priorRegions := if n = 64 then 0 else 1 }
    exec .repair s = .next ((fabPieces a n).foldl
      (fun u p => u.ask 0 (u.peerDev d.2.1) 0x01 p.1 p.2 [] (.repair p.1 p.2) false) t) := by
  have hfirst : (d :: rest).find? (fun d => d.1 == a / 2 ^ 30) = some d := by simp [hregion]
  have hlines : ([(a, n)].filter (fun r => r.2 == 64)).length = if n = 64 then 1 else 0 := by
    by_cases h : n = 64 <;> simp [h]
  have hparts : ([(a, n)].filter (fun r => r.2 != 64)).length = if n = 64 then 0 else 1 := by
    by_cases h : n = 64 <;> simp [h]
  simp only [exec, execRepair, hrange, hdeviants, hfirst, hlines, hparts, List.cons_ne_nil, if_false, List.foldl_cons,
    List.foldl_nil]

/-! ### Regions -/

/-- A scan without an uncorrectable line makes its region valid; the scans of other regions go on. -/
theorem digestScanEnd_of_clean {k : Nat} (hscan : k ∈ s.replay.scans)
    (hclean : (s.scanLines .engine (k * 2 ^ 30) (2 ^ 30)).1 = false) :
    let b := (s.scanLines .engine (k * 2 ^ 30) (2 ^ 30)).2.updReplay fun x => { x with scans := x.scans.erase k }
    let c := b.set F.LDG_STATUS_BUILDING (if b.replay.scans = [] then 0 else 1)
    exec (.digestScanEnd k) s =
      .next ((c.setRegBit .ldgDinv k false).wr .ldgDigest 0 k (c.digestOf (k * 2 ^ 30) (2 ^ 30))).settleEnables := by
  simp only [exec, execDigestScanEnd, not_not.2 hscan, hclean, Bool.false_eq_true, if_false]

section
variable {q : Fin 16384} {seq : Nat} {c : Cmd}

theorem digestEnable_of_mapped {l : List Nat} (hregions : regionRange c = some l) (hacc : Accepted 0x0500 q seq c s)
    (hmapped : ∀ r ∈ l, s.memRange (r * 2 ^ 30) (2 ^ 30) = true) :
    exec (.digestEnable q seq) s =
      .next (((l.foldl (fun s r => s.setRegBit .ldgDen r true) s).startScans l).cmdWaits c []) := by
  have hall : l.find? (fun r => !s.memRange (r * 2 ^ 30) (2 ^ 30)) = none :=
    List.find?_eq_none.2 fun r hr => by simp only [hmapped r hr, Bool.not_true, Bool.false_eq_true, not_false_iff]
  simp only [exec, execDigestEnable, runCmd_of_accepted hacc, hregions, hall]

theorem digestDisable_of_regions {l : List Nat} (hregions : regionRange c = some l) (hacc : Accepted 0x0501 q seq c s) :
    let a := l.foldl (fun s r => ((s.setRegBit .ldgDen r false).setRegBit .ldgDinv r false).wr .ldgDigest 0 r 0#64) s
    let b := a.updReplay fun x => { x with scans := x.scans.filter (fun r => !l.contains r) }
    exec (.digestDisable q seq) s =
      .next ((b.set F.LDG_STATUS_BUILDING (if b.replay.scans = [] then 0 else 1)).succeed c 0).settleEnables := by
  simp only [exec, execDigestDisable, runCmd_of_accepted hacc, hregions]

/-! ### Digests on demand -/

theorem ldgSubdigest_of_unit (hacc : Accepted 0x0502 q seq c s) (hbase : c.par 16 8 < 2 ^ 43) (hlevel : c.par 24 1 < 3)
    (hunit : c.par 16 8 % unitBytes (c.par 24 1) = 0) (hline : c.par 16 8 % 64 = 0) (haligned : c.par 32 8 % 64 = 0)
    (hout : c.par 32 8 < 2 ^ 43) (hmem : s.memRange (c.par 16 8) (unitBytes (c.par 24 1)) = true)
    (hroom : s.memRange (c.par 32 8) (8 * unitParts (c.par 24 1)) = true) :
    let t := (s.scanLines .engine (c.par 16 8) (unitBytes (c.par 24 1))).2
    let l := t.subDigests (c.par 24 1) (c.par 16 8)
    exec (.ldgSubdigest q seq) s = .next (t.putOutput c (c.par 32 8) (l.flatMap (fun w => leBytes 8 w.toNat))
      (fun s => s.succeed c (l.foldl (· + ·) 0#64).toNat)) := by
  have hlegal : ¬ (2 ^ 43 ≤ c.par 16 8 ∨ c.par 16 8 % 64 ≠ 0) := fun h => h.elim hbase.not_ge fun hodd => hodd hline
  simp only [exec, execLdgSubdigest, runCmd_of_accepted hacc, if_neg hlegal, if_neg hlevel.not_ge, if_neg (not_not.2 hunit),
    needA_of_aligned haligned hout, needMem_of_range hmem, needMem_of_range hroom]

theorem ldgRangeDigest_of_range (hacc : Accepted 0x0503 q seq c s) (haligned : c.par 16 8 % 64 = 0)
    (hlocal : c.par 16 8 < 2 ^ 43) (hmem : s.memRange (c.par 16 8) (c.par 24 8) = true) :
    let t := (s.scanLines .engine (c.par 16 8) (c.par 24 8)).2
    exec (.ldgRangeDigest q seq) s = .next (t.succeed c (t.rangeDigest (c.par 16 8) (c.par 24 8)).toNat) := by
  simp only [exec, execLdgRangeDigest, runCmd_of_accepted hacc, needA_of_aligned haligned hlocal, needMem_of_range hmem]

end
end

/-! ### Occasions of the exchange

The states of the compare, of a silent rank and of a repair, each of which meets the hypotheses of its rule. -/

/-- Rank 0 of three, whose course has folded and closes, compares region 0. -/
def replica : State :=
  let s := (((State.reset.set F.TBN_CSTATE_STATE 3).set F.LDG_CMP_NREPL 3).set F.LDG_CTRL_CMP_EN 1).set F.LDG_CTRL_EN 1
  { (s.setRegBit .ldgDen 0 true).setRegBit .ldgCmpen 0 true with course := { s.course with fold := 2 } }

theorem replica_compares : replica.cstate = 3 ∧ replica.course.fold = 2 ∧ replica.course.captured = false ∧
    replica.collsOver = true ∧ replica.openCommands replica.course.plan = [] ∧ replica.capture.compares = true ∧
    replica.capture.comparedRegions ≠ [] := by decide +kernel

/-- Rank 1 has sent nothing since the replica captured. -/
def awaitingRank : State :=
  { replica.set F.LDG_STATUS_COMPARING 1 with course := { replica.course with captured := true } }

theorem digestWaitTimeout_awaitingRank :
    exec (.digestWaitTimeout 1) awaitingRank = .next (awaitingRank.startProbing (awaitingRank.peerDev 1)) :=
  digestWaitTimeout_of_silent (by decide +kernel) (by decide +kernel) (by decide +kernel) (by decide +kernel)
    (by decide +kernel)

/-- A line of region 1, in which this rank deviates from rank 1, is to be repaired. -/
def deviantLine : State :=
  replica.updReplay fun x => { x with repairs := [(2 ^ 30 + 64, 64)], deviants := [(1, 1, 1)] }

theorem repair_deviantLine :
    exec .repair deviantLine = .next ((fabPieces (2 ^ 30 + 64) 64).foldl
      (fun u p => u.ask 0 (u.peerDev 1) 0x01 p.1 p.2 [] (.repair p.1 p.2) false)
      (deviantLine.updReplay fun x => { x with repairs := [], priorLines := 1, priorRegions := 0 })) := by
  simpa only [if_true] using repair_of_first (s := deviantLine) rfl rfl (by decide)

/-- Settles O39: each row meets its occasion, and each command passes its checks in order. -/
theorem compareRuns : Obligations.CompareRuns := by
  unfold Obligations.CompareRuns
  refine ⟨?capture, ?digest, ?silent, ?repair, ?scan, ?regions, ?unit, ?range, ?table⟩
  case capture =>
    intro s hclosing hfolded huncaptured hcolls hopen hcompares hregions
    exact digestCapture_of_compared hclosing hfolded huncaptured hcolls hopen hcompares hregions
  case digest =>
    intro h course rank base es s
    exact ⟨digest_level0 h course rank base es s, fun k hk =>
      ⟨lowerTaken rank k base es, digest_lower h course rank base es s hk, fun s => lowerTaken_of_idle rank k base es⟩⟩
  case silent =>
    exact fun rank s hcaptured hcomparing hmember hother hsilent =>
      digestWaitTimeout_of_silent hcaptured hcomparing hmember hother hsilent
  case repair => exact fun a n d rest s hrange hdeviants hregion => repair_of_first hrange hdeviants hregion
  case scan => exact fun k s hscan hclean => digestScanEnd_of_clean hscan hclean
  case regions =>
    exact fun q seq c l s hregions => ⟨digestEnable_of_mapped hregions, digestDisable_of_regions hregions⟩
  case unit =>
    intro q seq c s hacc hbase hlevel hunit hline haligned hout hmem hroom
    exact ldgSubdigest_of_unit hacc hbase hlevel hunit hline haligned hout hmem hroom
  case range => exact fun q seq c s hacc haligned hlocal hmem => ldgRangeDigest_of_range hacc haligned hlocal hmem
  case table =>
    intro q seq c v d s hacc hdir htable haligned hout hroom
    refine congrArg Host.Outcome.next ((runCmd_of_accepted hacc _).trans ?_)
    simp only [hdir, htable]
    exact (needA_of_aligned haligned hout _).trans (needMem_of_range hroom _)

end Sys2Proof.Proofs

/-! ## The front of the queue, the rollback counter, and the state after reset (R362, R394, R397) -/

namespace Sys2Proof.Proofs
open Sys2Proof.Machine Sys2Proof.Laws

/-- Settles O4: no command lowers the counter or takes back a message, whatever its meaning, as `step_keeps` says. -/
theorem rollbackCounter : Obligations.RollbackCounter := by
  unfold Obligations.RollbackCounter
  intro s t hstep
  have hkept := step_keeps hstep
  exact ⟨hkept.counter, hkept.sent⟩

/-- Settles O3: a step acts on the state with the front command taken off, and no command touches what waits. -/
theorem stepTakesFront : Obligations.StepTakesFront := by
  unfold Obligations.StepTakesFront
  exact fun s t hstep => (step_keeps hstep).pending

/-- Settles O5: the front command is all that a step looks at of the queue. -/
theorem stepRunsFront : Obligations.StepRunsFront := by
  unfold Obligations.StepRunsFront
  refine ⟨fun c s => rfl, fun s hempty => ?_⟩
  simp only [step, hempty]

/-- Settles O2: the tables of the state after reset list nothing. -/
theorem resetForm : Obligations.ResetForm := rfl

theorem getD_allRegs (r : Reg) : allRegs.getD r.num .cfgIdent = r := by
  cases r <;> rfl

theorem regDefault_regCode (r : Reg) (i j : Nat) :
    regDefault (regCode r i j) = regReset r (i % 2 ^ 20) (j % 2 ^ 20) := by
  have hnum : regCode r i j / 2 ^ 40 = r.num := by unfold regCode; omega
  have hinst : regCode r i j / 2 ^ 20 % 2 ^ 20 = i % 2 ^ 20 := by unfold regCode; omega
  have hidx : regCode r i j % 2 ^ 20 = j % 2 ^ 20 := by unfold regCode; omega
  rw [regDefault, hnum, hinst, hidx, getD_allRegs]

theorem get_nil {V : Type} (d : V) (k : Nat) : Sparse.get d [] k = d := rfl

theorem reset_regs : State.reset.regs = [] := rfl

theorem rd_reset (r : Reg) (i j : Nat) : State.reset.rd r i j = regDefault (regCode r i j) := by
  rw [State.rd, reset_regs, get_nil]

/-- A field of the state after reset is that of the reset word. -/
theorem get_reset (f : Fld) (i j : Nat) :
    State.reset.get f i j = fget f.lo f.wid (regReset f.reg (i % 2 ^ 20) (j % 2 ^ 20)) := by
  rw [State.get, rd_reset, regDefault_regCode]

theorem qState_reset (q : Nat) : State.reset.qState q = 0 := by
  rw [State.qState, get_reset]
  simp only [F.QP_QSTATE_STATE, regReset]
  rfl

/-- The level of a port is the one field of JFL_PSTATUS that differs from port to port. -/
theorem portState_reset (p : Fin 32) : State.reset.get F.JFL_PSTATUS_STATE p = 0 := by
  decide +revert

/-- Settles O6: no register is listed, so each field is that of its reset word. -/
theorem resetState : Obligations.ResetState := by
  unfold Obligations.ResetState
  exact ⟨rd_reset, rfl, rfl, rfl, rfl, rfl, rfl, rfl, rfl, rfl, fun q => qState_reset q, portState_reset, rfl, rfl⟩

end Sys2Proof.Proofs

/-! ## Doorbells, host requests and the arming of queues (R325, R329 to R333, R336, R338, R355) -/

namespace Sys2Proof.Proofs
open Sys2Proof.Machine Sys2Proof.Laws

section
variable {s t u : State} {q v : Nat}

/-- Writing one field of a register leaves every field alone that shares no bit with it, whatever the instances. -/
theorem get_set_of_apart {f k : Fld} (hfit : f.lo + f.wid ≤ 64)
    (hapart : k.reg ≠ f.reg ∨ k.lo + k.wid ≤ f.lo ∨ f.lo + f.wid ≤ k.lo) (s : State) (v i j x y : Nat) :
    (s.set f v i j).get k x y = s.get k x y := by
  by_cases hcode : regCode k.reg x y = regCode f.reg i j
  · have hreg : k.reg = f.reg := by
      by_contra hne
      exact regCode_ne_of_reg hne x y i j hcode
    have hbits := hapart.resolve_left (not_not_intro hreg)
    have hword : (s.set f v i j).rd k.reg x y = fset f.lo f.wid (s.rd k.reg x y) v := by
      simp only [State.set, State.wr, State.rd, hcode, get_put_self]
    rw [State.get, hword, fget_fset_of_disjoint _ _ _ _ _ _ hfit hbits, State.get]
  · exact get_set_of_ne s f k v i j x y hcode

/-! ### Doorbell values -/

theorem doorbell_of_armed (h : s.qState q = 1) (head : Bool) (v : Nat) : s.doorbell q head v = s.bell q head v :=
  if_pos h

theorem doorbell_tail_of_not_armed (h : s.qState q ≠ 1) (v : Nat) :
    s.doorbell q false v = s.setQx q { s.qx q with recTail := some v } := if_neg h

theorem doorbell_head_of_not_armed (h : s.qState q ≠ 1) (v : Nat) :
    s.doorbell q true v = s.setQx q { s.qx q with recHead := some v } := if_neg h

theorem tailOk_iff : s.tailOk q v = true ↔ sub32 v (s.get F.QP_QIDX_SQ_HEAD q) ≤ s.sqEntries q ∧
    sub32 (s.qx q).sqTail (s.get F.QP_QIDX_SQ_HEAD q) ≤ sub32 v (s.get F.QP_QIDX_SQ_HEAD q) := by
  simp only [State.tailOk, Bool.and_eq_true, decide_eq_true_eq]

theorem headOk_iff : s.headOk q v = true ↔ sub32 (s.get F.QP_QIDX_CQ_TAIL q) v < 2 ^ 31 := by
  simp only [State.headOk, decide_eq_true_eq]

/-- What an invalid doorbell value does: its bit and its event. -/
def bellRefused (s : State) (q v : Nat) : State :=
  (s.set F.QP_STATUS_DOORBELL_RANGE 1 (queueDie q)).raise (queueDie q) 0x0701 (plAt 16 q + plAt 20 v)

theorem bell_tail : s.bell q false v = if s.tailOk q v then s.setQx q { s.qx q with sqTail := v } else bellRefused s q v := by
  simp only [State.bell, bellRefused, Bool.false_eq_true, if_false]

theorem bell_head : s.bell q true v = if s.headOk q v then s.setQx q { s.qx q with cqHead := v } else bellRefused s q v := by
  simp only [State.bell, bellRefused, if_true]

end

/-- Settles O11: an armed queue holds a value against its indexes, and any other records it. -/
theorem doorbellValues : Obligations.DoorbellValues := by
  unfold Obligations.DoorbellValues
  intro q v s _ _
  refine ⟨fun harmed => ⟨?tail, ?badTail, ?head, ?badHead⟩, fun hidle => ⟨?recTail, ?recHead⟩⟩
  case tail =>
    intro hring hlast
    rw [doorbell_of_armed harmed, bell_tail, if_pos (tailOk_iff.2 ⟨hring, hlast⟩)]
  case badTail =>
    intro hbad
    rw [doorbell_of_armed harmed, bell_tail, if_neg (by rw [tailOk_iff]; omega)]
    rfl
  case head =>
    intro hreach
    rw [doorbell_of_armed harmed, bell_head, if_pos (headOk_iff.2 hreach)]
  case badHead =>
    intro hbeyond
    rw [doorbell_of_armed harmed, bell_head, if_neg (by rw [headOk_iff]; omega)]
    rfl
  case recTail => exact doorbell_tail_of_not_armed hidle v
  case recHead => exact doorbell_head_of_not_armed hidle v

section
variable {s : State}

/-! ### Host requests -/

theorem hostWrite_of_decoded {addr o : Nat} {bs : List Byte} {two : Bool} (hup : s.linkUp = true) (hne : bs ≠ [])
    (hbar : s.barOf addr bs.length = some (two, o)) :
    exec (.hostWrite addr bs false) s = .next (if two then s.bar2Write o bs else s.bar0Write o bs) := by
  simp only [exec, execHostWrite, hup, hne, Bool.true_eq_false, or_self, if_false, hbar, Bool.false_eq_true]

theorem hostRead_of_decoded {addr o n : Nat} {two : Bool} (hup : s.linkUp = true) (hpos : 0 < n)
    (hbar : s.barOf addr n = some (two, o)) :
    exec (.hostRead addr n) s = .next (if two then s.bar2Read o n else s.bar0Read o n) := by
  simp only [exec, execHostRead, hup, hpos.ne', Bool.true_eq_false, or_self, if_false, hbar]

theorem doorbell_of_open (hopen : s.bellOpen = true) (q : Fin 16384) (head : Bool) (v : Nat) :
    exec (.doorbell q head v) s = .next (s.doorbell q head (v % 2 ^ 32)) := by
  simp only [exec, execDoorbell, hopen, if_true]

/-- The state in which a fenced doorbell acts: it is counted, and the drain has passed (R333). -/
def fenced (s : State) (drain : Nat) : State :=
  let c := s.bump F.HIF_FENCE_FENCED 1
  let m := c.set F.HIF_FENCE_MAX_DRAIN_NS (max (c.get F.HIF_FENCE_MAX_DRAIN_NS) (min drain (2 ^ 32 - 1)))
  m.advanceTo (m.now + drain)

theorem fencedDoorbell_of_open (hopen : s.bellOpen = true) (q : Fin 16384) (head : Bool) (v drain : Nat) :
    exec (.fencedDoorbell q head v drain) s = .next ((fenced s drain).doorbell q head (v % 2 ^ 32)) := by
  have hdrain : (s.bump F.HIF_FENCE_FENCED 1).get F.HIF_FENCE_MAX_DRAIN_NS = s.get F.HIF_FENCE_MAX_DRAIN_NS :=
    get_set_of_apart (by decide) (by decide) ..
  simp only [exec, execFencedDoorbell, hopen, if_true, State.fencedBell, fenced, hdrain]

theorem configurationAccess_of_up (hup : s.linkUp = true) (req : ConfigReq) :
    exec (.configurationAccess req) s = .next (match req with
      | .bars a b => (s.setHost { s.host with
          bar0 := a.map (fun x => x / 2 ^ 43 * 2 ^ 43), bar2 := b.map (fun x => x / 2 ^ 24 * 2 ^ 24) }).send (.hostStatus 0)
      | .power d => (s.setHost { s.host with d3hot := d }).send (.hostStatus 0)
      | .msix on => ((s.setHost { s.host with msixOn := on }).msixFlush).send (.hostStatus 0)
      | .other => s.send (.hostStatus 0)
      | .unsupported => s.unsupported.send (.hostStatus 1)) :=
  congrArg Host.Outcome.next (if_neg (by rw [hup]; decide))

end

/-- Settles O10: a request that a BAR decodes is served there, and a doorbell that can arrive acts. -/
theorem hostAccessRuns : Obligations.HostAccessRuns := by
  unfold Obligations.HostAccessRuns
  refine ⟨?write0, ?write2, ?read0, ?read2, ?doorbell, ?fenced, ?bars, ?power⟩
  case write0 => exact fun addr o bs s hup hne hbar => hostWrite_of_decoded hup hne hbar
  case write2 => exact fun addr o bs s hup hne hbar => hostWrite_of_decoded hup hne hbar
  case read0 => exact fun addr o n s hup hpos hbar => hostRead_of_decoded hup hpos hbar
  case read2 => exact fun addr o n s hup hpos hbar => hostRead_of_decoded hup hpos hbar
  case doorbell => exact fun q head v s hopen => doorbell_of_open hopen q head v
  case fenced => exact fun q head v d s hopen => ⟨_, fenced s d, fencedDoorbell_of_open hopen q head v d, rfl, rfl⟩
  case bars => exact fun a b s hup => configurationAccess_of_up hup (.bars a b)
  case power => exact fun d s hup => configurationAccess_of_up hup (.power d)

/-! ### What a doorbell value leaves alone -/

/-- Between the states memory, the commands in flight, the registers that show the states of queues, and the recorded
doorbells of queue `q` are unchanged. -/
structure KeepsQueue (q : Nat) (s u : State) : Prop where
  mem : u.mem = s.mem
  inflight : u.queues.inflight = s.queues.inflight
  get : ∀ f : Fld, f.reg = .qpQstate → ∀ i j, u.get f i j = s.get f i j
  recTail : (u.qx q).recTail = (s.qx q).recTail
  recHead : (u.qx q).recHead = (s.qx q).recHead

section
variable {s t u : State} {q v : Nat}

theorem KeepsQueue.refl (q : Nat) (s : State) : KeepsQueue q s s := ⟨rfl, rfl, fun _ _ _ _ => rfl, rfl, rfl⟩

theorem KeepsQueue.trans (h : KeepsQueue q s t) (k : KeepsQueue q t u) : KeepsQueue q s u :=
  ⟨k.mem.trans h.mem, k.inflight.trans h.inflight, fun f hf i j => (k.get f hf i j).trans (h.get f hf i j),
    k.recTail.trans h.recTail, k.recHead.trans h.recHead⟩

theorem OnlyRecords.queues (h : OnlyRecords s u) : u.queues = s.queues := by
  obtain ⟨_, _, rfl⟩ := h
  rfl

theorem raise_keepsQueue (die code payload : Nat) : KeepsQueue q s (s.raise die code payload) := by
  have hrec := raise_onlyRecords s die code payload
  have hx : (s.raise die code payload).qx q = s.qx q := by rw [State.qx, State.qx, hrec.queues]
  refine ⟨hrec.mem, by rw [hrec.queues], fun f hf i j => ?_, by rw [hx], by rw [hx]⟩
  exact (raise_keepsFields s die code payload).get f (by rw [hf]; decide) i j

@[simp] theorem qx_setQx_self (x : QExtra) : (s.setQx q x).qx q = x := get_put_self _ _ _ _

/-- The queue's own record may change but for the doorbells that wait in it. -/
theorem setQx_keepsQueue {x : QExtra} (htail : x.recTail = (s.qx q).recTail) (hhead : x.recHead = (s.qx q).recHead) :
    KeepsQueue q s (s.setQx q x) :=
  ⟨rfl, rfl, fun _ _ _ _ => rfl, by rw [qx_setQx_self, htail], by rw [qx_setQx_self, hhead]⟩

theorem set_keepsQueue {f : Fld} (hf : f.reg ≠ .qpQstate) (v i j : Nat) : KeepsQueue q s (s.set f v i j) :=
  ⟨rfl, rfl, fun _ hk _ _ => get_set_of_reg _ _ _ _ _ _ _ _ (hk ▸ hf.symm), rfl, rfl⟩

theorem bellRefused_keepsQueue : KeepsQueue q s (bellRefused s q v) :=
  (set_keepsQueue (by decide) 1 (queueDie q) 0).trans (raise_keepsQueue ..)

theorem bell_keepsQueue (head : Bool) : KeepsQueue q s (s.bell q head v) := by
  cases head with
  | false =>
    rw [bell_tail]
    split
    · exact setQx_keepsQueue rfl rfl
    · exact bellRefused_keepsQueue
  | true =>
    rw [bell_head]
    split
    · exact setQx_keepsQueue rfl rfl
    · exact bellRefused_keepsQueue

/-! ### The state of a queue -/

/-- Of QP_QSTATE a queue that enters a state changes the field STATE alone. -/
theorem setQState_get {f : Fld} (hf : f.reg = .qpQstate) (q st i j : Nat) :
    ∃ u : State, (s.setQState q st).get f i j = (u.set F.QP_QSTATE_STATE st q).get f i j ∧ u.get f i j = s.get f i j := by
  have hother (w : State) (k : Fld) (hk : k.reg ≠ .qpQstate) (v x y : Nat) : (w.set k v x y).get f i j = w.get f i j :=
    get_set_of_reg w k f v x y i j (by rw [hf]; exact hk.symm)
  unfold State.setQState
  extract_lets d old adj s1 s2
  refine ⟨s2, hother _ F.QP_QCFG_ARM (by decide) _ q 0, ?_⟩
  exact (hother s1 F.QP_STATUS_SUSPENDED (by decide) _ d 0).trans (hother s F.QP_STATUS_ARMED (by decide) _ d 0)

theorem qState_setQState (q st : Nat) : (s.setQState q st).qState q = st % 2 ^ 2 := by
  obtain ⟨u, hset, -⟩ := setQState_get (s := s) (f := F.QP_QSTATE_STATE) rfl q st q 0
  rw [State.qState, hset, get_set_self u F.QP_QSTATE_STATE st q 0 (by decide)]
  rfl

/-- A queue that enters a state keeps its epoch. -/
theorem setQState_epoch (st : Nat) :
    (s.setQState q st).get F.QP_QSTATE_QEPOCH q = s.get F.QP_QSTATE_QEPOCH q := by
  obtain ⟨u, hset, hkept⟩ := setQState_get (s := s) (f := F.QP_QSTATE_QEPOCH) rfl q st q 0
  rw [hset, get_set_of_apart (by decide) (by decide), hkept]

/-! ### Arming -/

/-- A queue that has just been armed, before its recorded doorbells act. -/
def armed (s : State) (q : Nat) : State :=
  ((s.set F.QP_QSTATE_QEPOCH (s.get F.HIF_EPOCH_EPOCH) q).setQState q 1).armIndexes q

theorem armed_qState : (armed s q).qState q = 1 := by
  rw [armed, State.armIndexes, State.qState, setQx_get]
  exact qState_setQState q 1

theorem armed_epoch : (armed s q).get F.QP_QSTATE_QEPOCH q = s.get F.HIF_EPOCH_EPOCH := by
  rw [armed, State.armIndexes, setQx_get, setQState_epoch, get_set_self _ _ _ _ _ (by decide)]
  exact Nat.mod_eq_of_lt (get_lt s F.HIF_EPOCH_EPOCH 0 0)

theorem armed_recorded : ((armed s q).qx q).recTail = none ∧ ((armed s q).qx q).recHead = none := by
  simp only [armed, State.armIndexes, qx_setQx_self, and_self]

/-- What arming a queue leaves behind: the queue is ARMED, of the current epoch, and no recorded doorbell waits. -/
structure Armed (q : Nat) (s t : State) : Prop where
  qState : t.qState q = 1
  epoch : t.get F.QP_QSTATE_QEPOCH q = s.get F.HIF_EPOCH_EPOCH
  mem : t.mem = s.mem
  inflight : t.queues.inflight = s.queues.inflight
  recTail : (t.qx q).recTail = none
  recHead : (t.qx q).recHead = none

theorem armed_armed : Armed q s (armed s q) :=
  ⟨armed_qState, armed_epoch, rfl, rfl, armed_recorded.1, armed_recorded.2⟩

theorem Armed.keep (h : Armed q s t) (k : KeepsQueue q t u) : Armed q s u :=
  ⟨(k.get F.QP_QSTATE_STATE rfl q 0).trans h.qState, (k.get F.QP_QSTATE_QEPOCH rfl q 0).trans h.epoch,
    k.mem.trans h.mem, k.inflight.trans h.inflight, k.recTail.trans h.recTail, k.recHead.trans h.recHead⟩

/-- Rings that are in range and in host memory or in memory that answers are armed. -/
theorem armQueue_armed (hsq : 4 ≤ s.get F.QP_QCFG_SQ_LOG2 q ∧ s.get F.QP_QCFG_SQ_LOG2 q ≤ 16)
    (hcq : 4 ≤ s.get F.QP_QCFG_CQ_LOG2 q ∧ s.get F.QP_QCFG_CQ_LOG2 q ≤ 17)
    (hsqMem : s.bit F.QP_QCFG_SQ_HOST q = true ∨ s.memRange (s.sqBase q) (64 * 2 ^ s.get F.QP_QCFG_SQ_LOG2 q) = true)
    (hcqMem : s.bit F.QP_QCFG_CQ_HOST q = true ∨ s.memRange (s.cqBase q) (32 * 2 ^ s.get F.QP_QCFG_CQ_LOG2 q) = true) :
    Armed q s (s.armQueue q) := by
  obtain ⟨hsqLow, hsqHigh⟩ := hsq
  obtain ⟨hcqLow, hcqHigh⟩ := hcq
  have hbell (o : Option Nat) (head : Bool) (u : State) (hu : Armed q s u) :
      Armed q s (match o with | some v => u.bell q head v | none => u) := by
    cases o with
    | none => exact hu
    | some v => exact hu.keep (bell_keepsQueue head)
  unfold State.armQueue
  extract_lets n m x s1 s2
  rw [if_pos ⟨hsqLow, hsqHigh, hcqLow, hcqHigh, Bool.or_eq_true_iff.2 hsqMem, Bool.or_eq_true_iff.2 hcqMem⟩]
  exact hbell x.recHead true s2 (hbell x.recTail false s1 armed_armed)

/-! ### Writes of QP_QCFG -/

theorem toNat_or_arm (v : Word) : (v ||| 0x1000000000000#64).toNat / 2 ^ 48 % 2 = 1 := by
  rw [BitVec.toNat_or, ← Nat.toNat_testBit, Nat.testBit_or,
    show (0x1000000000000#64).toNat.testBit 48 = true from rfl, Bool.or_true]
  rfl

theorem toNat_and_not_arm (v : Word) : (v &&& ~~~0x1000000000000#64).toNat / 2 ^ 48 % 2 = 0 := by
  rw [BitVec.toNat_and, ← Nat.toNat_testBit, Nat.testBit_and,
    show (~~~0x1000000000000#64).toNat.testBit 48 = false from rfl, Bool.and_false]
  rfl

/-- The ring sizes of a word that QP_QCFG takes are those of the word that is written. -/
theorem qcfg_sizes (v b : Nat) :
    fget 0 5 (BitVec.ofNat 64 ((v &&& qcfgMask) + b * 2 ^ 48)) = v % 32 ∧
    fget 8 5 (BitVec.ofNat 64 ((v &&& qcfgMask) + b * 2 ^ 48)) = v / 2 ^ 8 % 32 := by
  have hlt : v &&& qcfgMask ≤ qcfgMask := Nat.and_le_right
  have hsq : (v &&& qcfgMask) % 2 ^ 5 = v % 2 ^ 5 := by
    rw [Nat.and_mod_two_pow, show qcfgMask % 2 ^ 5 = 2 ^ 5 - 1 from rfl, Nat.and_two_pow_sub_one_eq_mod, Nat.mod_mod]
  have hcq : (v &&& qcfgMask) / 2 ^ 8 % 2 ^ 5 = v / 2 ^ 8 % 2 ^ 5 := by
    rw [Nat.and_div_two_pow, Nat.and_mod_two_pow, show qcfgMask / 2 ^ 8 % 2 ^ 5 = 2 ^ 5 - 1 from rfl,
      Nat.and_two_pow_sub_one_eq_mod, Nat.mod_mod]
  have hmask : qcfgMask < 2 ^ 44 := by decide
  simp only [fget, BitVec.toNat_ofNat]
  omega

theorem writeQcfg_arm (hidle : s.qState q ≠ 1) {w : Word} (hok : qcfgOk w.toNat = true) (harm : w.toNat / 2 ^ 48 % 2 = 1) :
    s.writeQcfg q w = (s.wr .qpQcfg q 0 (BitVec.ofNat 64 ((w.toNat &&& qcfgMask) +
      (s.rd .qpQcfg q 0).toNat / 2 ^ 48 % 2 * 2 ^ 48))).armQueue q := by
  simp only [State.writeQcfg, hok, Bool.true_eq_false, if_false, hidle, harm, if_true]

theorem writeQcfg_of_bad {w : Word} (hbad : qcfgOk w.toNat = false) :
    s.writeQcfg q w = s.set F.QP_STATUS_SETTING_REJECTED 1 (queueDie q) := if_pos hbad

/-- A queue that is ARMED takes no new fields, but a write without ARM disarms it. -/
theorem writeQcfg_disarm (harmed : s.qState q = 1) {w : Word} (hok : qcfgOk w.toNat = true)
    (harm : w.toNat / 2 ^ 48 % 2 = 0) :
    ∃ u, s.writeQcfg q w = u.setQState q 0 ∧ KeepsQueue q s u := by
  have hstill (u : State) (hu : KeepsQueue q s u) : u.qState q ≠ 0 := by
    have hsame : u.qState q = s.qState q := hu.get F.QP_QSTATE_STATE rfl q 0
    rw [hsame, harmed]
    exact Nat.one_ne_zero
  simp only [State.writeQcfg, hok, Bool.true_eq_false, if_false, harmed, if_true, harm, Nat.zero_ne_one]
  split
  · have hkept : KeepsQueue q s (s.set F.QP_STATUS_SETTING_REJECTED 1 (queueDie q)) := set_keepsQueue (by decide) ..
    exact ⟨_, if_neg (hstill _ hkept), hkept⟩
  · exact ⟨_, if_neg (hstill s (.refl q s)), .refl q s⟩

end

/-- Settles O12: a word that QP_QCFG takes holds ring sizes that may be armed, and what the recorded doorbells do leaves
the queue ARMED. -/
theorem queueSetRuns : Obligations.QueueSetRuns := by
  unfold Obligations.QueueSetRuns
  refine ⟨?arm, ?disarm, ?bell⟩
  case arm =>
    intro q v s hidle hok u hsqMem hcqMem
    have hsizes := qcfg_sizes (v ||| 0x1000000000000#64).toNat ((s.rd .qpQcfg q 0).toNat / 2 ^ 48 % 2)
    obtain ⟨hsq, hcq⟩ : u.get F.QP_QCFG_SQ_LOG2 q = (v ||| 0x1000000000000#64).toNat % 32 ∧
        u.get F.QP_QCFG_CQ_LOG2 q = (v ||| 0x1000000000000#64).toNat / 2 ^ 8 % 32 := by
      have hword := rd_wr_self s .qpQcfg q 0 (BitVec.ofNat 64 (((v ||| 0x1000000000000#64).toNat &&& qcfgMask) +
        (s.rd .qpQcfg q 0).toNat / 2 ^ 48 % 2 * 2 ^ 48))
      exact ⟨(congrArg (fget 0 5) hword).trans hsizes.1, (congrArg (fget 8 5) hword).trans hsizes.2⟩
    have hrange := hok
    simp only [qcfgOk, Bool.and_eq_true, decide_eq_true_eq] at hrange
    obtain ⟨⟨hn, hm⟩, -⟩ := hrange
    obtain ⟨hstate, hepoch, hmem, hinflight, htail, hhead⟩ :=
      armQueue_armed (s := u) (q := q) (hsq ▸ hn) (hcq ▸ hm) hsqMem hcqMem
    refine ⟨u.armQueue q, congrArg Host.Outcome.next (writeQcfg_arm hidle hok (toNat_or_arm v)), hstate, hepoch.trans ?_,
      hmem, hinflight, htail, hhead⟩
    exact get_wr_of_ne s .qpQcfg F.HIF_EPOCH_EPOCH _ q 0 0 0 (regCode_ne_of_reg (by decide) 0 0 q 0)
  case disarm =>
    intro q v s harmed
    refine ⟨fun hok => ?_, fun hbad => congrArg Host.Outcome.next (writeQcfg_of_bad hbad)⟩
    obtain ⟨u, hwrite, hkept⟩ := writeQcfg_disarm harmed hok (toNat_and_not_arm v)
    exact ⟨u.setQState q 0, congrArg Host.Outcome.next hwrite, qState_setQState q 0, hkept.mem, hkept.inflight⟩
  case bell => exact fun q v s => rfl

end Sys2Proof.Proofs

/-! ## Which registers an operation writes -/

namespace Sys2Proof.Proofs
open Sys2Proof.Machine Sys2Proof.Laws

/-- Between the states memory is unchanged, and no register has changed but those listed. -/
structure OnlyRegs (rs : List Reg) (s u : State) : Prop where
  mem : u.mem = s.mem
  get : ∀ f : Fld, f.reg ∉ rs → ∀ i j, u.get f i j = s.get f i j

section
variable {rs rs' : List Reg} {s t u : State}

theorem OnlyRegs.refl (rs : List Reg) (s : State) : OnlyRegs rs s s := ⟨rfl, fun _ _ _ _ => rfl⟩

theorem OnlyRegs.trans (h : OnlyRegs rs s t) (k : OnlyRegs rs t u) : OnlyRegs rs s u :=
  ⟨k.mem.trans h.mem, fun f hf i j => (k.get f hf i j).trans (h.get f hf i j)⟩

theorem OnlyRegs.mono (h : OnlyRegs rs s u) (hsub : rs ⊆ rs') : OnlyRegs rs' s u :=
  ⟨h.mem, fun f hf => h.get f fun hmem => hf (hsub hmem)⟩

theorem OnlyRegs.bit (h : OnlyRegs rs s u) {f : Fld} (hf : f.reg ∉ rs) (i j : Nat) : u.bit f i j = s.bit f i j :=
  congrArg (fun n => n == 1) (h.get f hf i j)

/-- An update of neither memory nor a register. -/
theorem onlyRegs_of_eq (hmem : u.mem = s.mem) (hregs : u.regs = s.regs) : OnlyRegs rs s u :=
  ⟨hmem, fun f _ i j => by rw [State.get, State.get, State.rd, State.rd, hregs]⟩

theorem OnlyRegs.before_eq (k : OnlyRegs rs t u) (hmem : t.mem = s.mem) (hregs : t.regs = s.regs) : OnlyRegs rs s u :=
  (onlyRegs_of_eq hmem hregs).trans k

theorem OnlyRegs.then_eq (h : OnlyRegs rs s t) (hmem : u.mem = t.mem) (hregs : u.regs = t.regs) : OnlyRegs rs s u :=
  h.trans (onlyRegs_of_eq hmem hregs)

theorem wr_onlyRegs {r : Reg} (hr : r ∈ rs) (s : State) (i j : Nat) (w : Word) : OnlyRegs rs s (s.wr r i j w) :=
  ⟨rfl, fun _ hk _ _ => get_wr_of_ne _ _ _ _ _ _ _ _ (regCode_ne_of_reg (fun h => hk (by rw [h]; exact hr)) _ _ _ _)⟩

theorem set_onlyRegs {f : Fld} (hf : f.reg ∈ rs) (s : State) (v i j : Nat) : OnlyRegs rs s (s.set f v i j) :=
  wr_onlyRegs hf s i j _

theorem bump_onlyRegs {f : Fld} (hf : f.reg ∈ rs) (s : State) (n i j : Nat) : OnlyRegs rs s (s.bump f n i j) :=
  set_onlyRegs hf s _ i j

theorem advanceTo_onlyRegs (h : .tbnTime ∈ rs) (s : State) (t : Nat) : OnlyRegs rs s (s.advanceTo t) := by
  unfold State.advanceTo
  split
  · exact set_onlyRegs h s t 0 0
  · exact .refl rs s

theorem ite_onlyRegs {c : Prop} [Decidable c] (ht : OnlyRegs rs s t) (hu : OnlyRegs rs s u) :
    OnlyRegs rs s (if c then t else u) := by
  split
  · exact ht
  · exact hu

/-- What every step of a walk through a list writes, the walk writes. -/
theorem foldl_onlyRegs {α : Type} {f : State → α → State} (l : List α) (hf : ∀ u x, OnlyRegs rs u (f u x)) (s : State) :
    OnlyRegs rs s (l.foldl f s) :=
  List.foldlRecOn (motive := OnlyRegs rs s) l f (.refl rs s) fun u hu x _ => hu.trans (hf u x)

/-- The registers in which a slice of the gutter counts its records. -/
abbrev gutRegs : List Reg := [.gutDrop, .gutStatus, .gutHeld, .gutSuppress]

theorem raise_onlyRegs (hrs : gutRegs ⊆ rs) (s : State) (die code payload : Nat) :
    OnlyRegs rs s (s.raise die code payload) :=
  ⟨(raise_onlyRecords s die code payload).mem, fun f hf => (raise_keepsFields s die code payload).get f fun hgut =>
    hf (hrs (by simpa [GutReg] using hgut))⟩

/-- The registers that a completion of a command writes. -/
abbrev completionRegs : List Reg := [.qpQstate, .qpQseq, .qpQcnt, .qpQerr, .ylmStatus]

theorem noteDone_onlyRegs (s : State) (x : Bool × Nat) : OnlyRegs rs s (s.noteDone x) := by
  unfold State.noteDone
  split <;> exact onlyRegs_of_eq rfl rfl

theorem completeFull_onlyRegs (hrs : completionRegs ⊆ rs) (s : State) (c : Cmd) (status detail result : Nat)
    (written : Bool) : OnlyRegs rs s (s.completeFull c status detail result written) := by
  unfold State.completeFull
  extract_lets s1 s2 s3 s4 s5 s6 flags d
  have h1 : OnlyRegs rs s s1 := ite_onlyRegs (noteDone_onlyRegs s _) (.refl rs s)
  have h2 : OnlyRegs rs s1 s2 := onlyRegs_of_eq rfl rfl
  have h3 : OnlyRegs rs s2 s3 := (set_onlyRegs (hrs (by decide)) s2 _ c.q 0).trans (set_onlyRegs (hrs (by decide)) _ _ c.q 0)
  have h4 : OnlyRegs rs s3 s4 := bump_onlyRegs (hrs (by decide)) s3 1 c.q 5
  have h5 : OnlyRegs rs s4 s5 := ite_onlyRegs (.refl rs s4) <|
    (bump_onlyRegs (hrs (by decide)) s4 1 c.q 6).trans <| (set_onlyRegs (hrs (by decide)) _ _ c.q 0).trans <|
      (set_onlyRegs (hrs (by decide)) _ _ c.q 0).trans <| set_onlyRegs (hrs (by decide)) _ _ c.q 0
  have h6 : OnlyRegs rs s5 s6 := ite_onlyRegs (set_onlyRegs (hrs (by decide)) s5 1 _ 0) (.refl rs s5)
  have h7 := h1.trans (h2.trans (h3.trans (h4.trans (h5.trans h6))))
  exact ite_onlyRegs h7 (h7.trans (onlyRegs_of_eq rfl rfl))

theorem now_advanceTo {n : Nat} (h : n < 2 ^ 64) (s : State) : n ≤ (s.advanceTo n).now := by
  unfold State.advanceTo
  split
  next hlt => rw [State.now, get_set_self _ _ _ _ _ (by decide)]; exact (Nat.mod_eq_of_lt h).ge
  next hge => exact Nat.not_lt.1 hge

end

end Sys2Proof.Proofs

/-! ## Packets, completion records and the events of the host link (R327, R334, R336, R337, R340, R342, R343) -/

namespace Sys2Proof.Proofs
open Sys2Proof.Machine Sys2Proof.Laws

section
variable {s : State} {q : Nat}

/-! ### Packets -/

/-- What a read of a ring in host memory has given. -/
theorem packetAt_of_data {pkt : List Byte} (hhost : s.bit F.QP_QCFG_SQ_HOST q = true) (hup : s.linkUp = true)
    (hlen : pkt.length = 64) : s.packetAt q (.data pkt) = (some pkt, s) := by
  simp only [State.packetAt, hhost, hup, if_true, padTo_of_length hlen]

/-- A queue is served: the round robin of its class goes on behind it. -/
def served (s : State) (q : Nat) : State :=
  { s with queues := { s.queues with served := Sparse.put 0 s.queues.served (queueDie q * 8 + s.serviceClass q) (q + 1) } }

theorem packetTake_of_valid {q : Fin 16384} {pkt : List Byte} (hfence : (s.qx q).fence = none)
    (hturn : s.turn (queueDie q) = some q.val) (hhost : s.bit F.QP_QCFG_SQ_HOST q = true) (hup : s.linkUp = true)
    (hlen : pkt.length = 64) (hok : packetOk pkt (s.get F.QP_QSEQ_NEXT_SEQ q) = true) :
    exec (.packetTake q (.data pkt)) s = .next ((served s q).takePacket q pkt) := by
  have hread : (served s q).packetAt q (.data pkt) = (some pkt, served s q) := packetAt_of_data hhost hup hlen
  have hseq : (served s q).get F.QP_QSEQ_NEXT_SEQ q = s.get F.QP_QSEQ_NEXT_SEQ q := rfl
  unfold served at hread hseq ⊢
  simp only [exec, execPacketTake, hfence, hturn, hread, hseq, hok, if_true]

/-- The state in which a packet has been read again: when the wait is over, one more try counted. -/
def reread (s : State) (q : Nat) : State :=
  let u := s.advanceTo ((s.qx q).readAt + 250)
  u.setQx q { s.qx q with rereads := (s.qx q).rereads + 1, readAt := u.now }

theorem packetReread_of_invalid {q : Fin 16384} {pkt : List Byte} (hagain : (s.qx q).rereading = true)
    (harmed : s.qState q = 1) (hleft : (s.qx q).rereads < 7) (hhost : s.bit F.QP_QCFG_SQ_HOST q = true)
    (hup : s.linkUp = true) (hlen : pkt.length = 64) (hbad : packetOk pkt (s.get F.QP_QSEQ_NEXT_SEQ q) = false) :
    exec (.packetReread q (.data pkt)) s = .next (reread s q) := by
  have htime := advanceTo_onlyRegs (rs := [.tbnTime]) (by decide) s ((s.qx q).readAt + 250)
  have hup' : (s.advanceTo ((s.qx q).readAt + 250)).linkUp = true := by
    rw [State.linkUp, htime.get _ (by decide)]
    exact hup
  have hread := packetAt_of_data ((htime.bit (f := F.QP_QCFG_SQ_HOST) (by decide) q 0).trans hhost) hup' hlen
  have hseq := htime.get F.QP_QSEQ_NEXT_SEQ (by decide) q 0
  have hcount : ¬ (s.qx q).rereads + 1 = 8 := by omega
  simp only [exec, execPacketReread, hagain, harmed, and_self, if_true, hread, setQx_get, hseq, hbad, Bool.false_eq_true,
    if_false, hcount, reread]

/-- With interrupts off the record is all that a completion sends. -/
theorem recordIrq_of_off {d : DoneCmd} (hoff : s.bit F.QP_QCFG_IRQ_EN d.q = false) (written : Bool) :
    s.recordIrq d written = s := by
  simp only [State.recordIrq, hoff, Bool.false_and, Bool.false_eq_true, if_false]

/-- The state in which the record of the oldest completion has gone to a CQ in host memory. -/
def recorded (s : State) (q : Nat) (d : DoneCmd) : State :=
  let gone : State := { s with queues := { s.queues with done := s.queues.done.erase d } }
  (gone.bumpWrap F.QP_QIDX_CQ_TAIL 1 q).send (.hostRecord (s.cqBase q + s.get F.QP_QIDX_CQ_TAIL q % s.cqEntries q * 32)
    (d.record (s.get F.QP_QIDX_CQ_TAIL q) (s.cqEntries q) (s.get F.QP_QSTATE_QEPOCH q)))

theorem completionRecord_of_host {q : Fin 16384} {d : DoneCmd} (hfirst : s.queues.done.find? (fun x => x.q == q.val) = some d)
    (hkept : d.dropped = false) (hhost : s.bit F.QP_QCFG_CQ_HOST q = true) (hreach : s.hostReach q = true)
    (hroom : s.cqFull q = false) (hirq : s.bit F.QP_QCFG_IRQ_EN q = false) (hready : s.recordWaits d = false) :
    exec (.completionRecord q) s = .next (recorded s q d) := by
  have hcq : s.cqReach q = true := by rw [State.cqReach, if_pos hhost]; exact hreach
  have hq : d.q = q.val := by simpa using List.find?_some hfirst
  have hoff : (recorded s q d).bit F.QP_QCFG_IRQ_EN d.q = false := by
    rw [hq]
    exact ((set_onlyRegs (rs := [.qpQidx]) (by decide) _ _ q 0).bit (f := F.QP_QCFG_IRQ_EN) (by decide) q 0).trans hirq
  have hsend := recordIrq_of_off hoff true
  unfold recorded at hsend ⊢
  simp only [exec, execCompletionRecord, hfirst, hkept, hhost, hcq, hroom, hready, Bool.not_true, Bool.false_and,
    Bool.true_eq_false, Bool.false_eq_true, or_self, if_false, if_true]
  exact congrArg Host.Outcome.next hsend

end

/-- Settles O13: what is read at the head of the ring is the packet given, and with room in the CQ its record goes out. -/
theorem packetsRun : Obligations.PacketsRun := by
  unfold Obligations.PacketsRun
  refine ⟨?take, ?reread, ?record⟩
  case take =>
    exact fun q pkt s hfence hturn hhost hup hlen hok => packetTake_of_valid hfence hturn hhost hup hlen hok
  case reread =>
    intro q pkt s hagain harmed hleft htime hhost hup hlen hbad
    refine ⟨reread s q, packetReread_of_invalid hagain harmed hleft hhost hup hlen hbad, ?_, ?_, ?_, ?_, ?_⟩
    · rw [reread, qx_setQx_self]
    · rw [reread, qx_setQx_self, hagain]
    · exact now_advanceTo htime s
    · have htime := congrArg Queues.inflight (advanceTo_queues s ((s.qx q).readAt + 250))
      exact htime
    · exact advanceTo_mem s _
  case record =>
    intro q d s hfirst hkept hhost hreach hroom hirq hready
    exact ⟨recorded s q d, completionRecord_of_host hfirst hkept hhost hreach hroom hirq hready, rfl, rfl, rfl⟩

/-! ### What the events of the link do to the queues -/

/-- The registers that show the states of queues and their set-up. -/
abbrev queueRegs : List Reg := [.qpQcfg, .qpSqbase, .qpCqbase, .qpQidx, .qpQstate, .qpStatus]

/-- Between the states only the states of queues, their set-up and the indexes behind them have changed. -/
structure OnlyQueueStates (s u : State) : Prop where
  regs : OnlyRegs queueRegs s u
  host : u.host = s.host
  inflight : u.queues.inflight = s.queues.inflight
  done : u.queues.done = s.queues.done

section
variable {s t u : State} {q : Nat}

theorem OnlyQueueStates.refl (s : State) : OnlyQueueStates s s := ⟨.refl _ s, rfl, rfl, rfl⟩

theorem OnlyQueueStates.trans (h : OnlyQueueStates s t) (k : OnlyQueueStates t u) : OnlyQueueStates s u :=
  ⟨h.regs.trans k.regs, k.host.trans h.host, k.inflight.trans h.inflight, k.done.trans h.done⟩

theorem foldl_onlyQueueStates {α : Type} {f : State → α → State} (l : List α)
    (hf : ∀ u x, OnlyQueueStates u (f u x)) (s : State) : OnlyQueueStates s (l.foldl f s) :=
  List.foldlRecOn (motive := OnlyQueueStates s) l f (.refl s) fun u hu x _ => hu.trans (hf u x)

theorem setQState_onlyQueueStates (s : State) (q st : Nat) : OnlyQueueStates s (s.setQState q st) := by
  have hset {f : Fld} (hf : f.reg ∈ queueRegs) (u : State) (v i : Nat) : OnlyRegs queueRegs u (u.set f v i) :=
    set_onlyRegs hf u v i 0
  refine ⟨?_, rfl, rfl, rfl⟩
  unfold State.setQState
  extract_lets d old adj s1 s2
  have h1 : OnlyRegs queueRegs s s1 := hset (f := F.QP_STATUS_ARMED) (by decide) s _ d
  have h2 : OnlyRegs queueRegs s1 s2 := hset (f := F.QP_STATUS_SUSPENDED) (by decide) s1 _ d
  exact h1.trans (h2.trans ((hset (by decide) s2 _ q).trans (hset (by decide) _ _ q)))

theorem suspendQueues_onlyQueueStates (s : State) : OnlyQueueStates s s.suspendQueues := by
  refine foldl_onlyQueueStates _ (fun u q => ?_) s
  split
  · exact setQState_onlyQueueStates u q 2
  · exact .refl u

/-- A register of a queue returns to its reset value. -/
def resetQueueReg (s : State) (q : Nat) (r : Reg) : State := s.wr r q 0 (regReset r q 0)

/-- A queue is DISARMED, its set-up at its reset values; a fenced packet that it holds will leave no record. -/
def resetQueue (u : State) (q : Nat) : State :=
  let s := if u.qState q = 0 then u else u.setQState q 0
  (resetQueueReg (resetQueueReg (resetQueueReg (resetQueueReg s q .qpQcfg) q .qpSqbase) q .qpCqbase) q .qpQidx).setQx q
    { QExtra.init with fence := (s.qx q).fence.map (fun p => (p.1, p.2.1, true)) }

/-- Completions are discarded, and counted, and the commands in flight will leave no record. -/
def discardCompletions (s : State) : State :=
  ({ s with queues := { s.queues with
    inflight := s.queues.inflight.map (fun (c : Cmd) => { c with dropped := true }), done := [] } } : State).bump
    F.HIF_DROPCNT_COMPLETIONS s.queues.done.length

theorem resetQueues_eq (s : State) : s.resetQueues = discardCompletions
    ((s.usedQueues [.qpQstate, .qpQcfg, .qpSqbase, .qpCqbase, .qpQidx] ++ Sparse.keys s.queues.extra).eraseDups.foldl
      resetQueue s) := rfl

theorem resetQueueReg_onlyRegs {r : Reg} (hr : r ∈ queueRegs) (s : State) (q : Nat) :
    OnlyRegs queueRegs s (resetQueueReg s q r) := wr_onlyRegs hr s q 0 (regReset r q 0)

theorem resetQueue_onlyQueueStates (u : State) (q : Nat) : OnlyQueueStates u (resetQueue u q) := by
  unfold resetQueue
  extract_lets s
  have hstate : OnlyQueueStates u s := by
    unfold s
    split
    · exact .refl u
    · exact setQState_onlyQueueStates u q 0
  have hregs := (resetQueueReg_onlyRegs (r := .qpQcfg) (by decide) s q).trans <|
    (resetQueueReg_onlyRegs (r := .qpSqbase) (by decide) _ q).trans <|
    (resetQueueReg_onlyRegs (r := .qpCqbase) (by decide) _ q).trans (resetQueueReg_onlyRegs (r := .qpQidx) (by decide) _ q)
  exact hstate.trans ⟨hregs.then_eq (setQx_mem ..) (setQx_regs ..), rfl, rfl, rfl⟩

theorem discardCompletions_onlyRegs (s : State) : OnlyRegs [.hifDropcnt] s (discardCompletions s) := by
  unfold discardCompletions
  exact (bump_onlyRegs (by decide) _ _ 0 0).before_eq rfl rfl

/-- What a scope 1 event leaves of the queues (Table 13.4). -/
theorem resetQueues_parts (s : State) : OnlyRegs (.hifDropcnt :: queueRegs) s s.resetQueues ∧
    s.resetQueues.host = s.host ∧ s.resetQueues.queues.done = [] ∧
    s.resetQueues.queues.inflight = s.queues.inflight.map (fun (c : Cmd) => { c with dropped := true }) := by
  rw [resetQueues_eq]
  have hqueues := foldl_onlyQueueStates (s.usedQueues [.qpQstate, .qpQcfg, .qpSqbase, .qpCqbase, .qpQidx] ++
    Sparse.keys s.queues.extra).eraseDups resetQueue_onlyQueueStates s
  refine ⟨(hqueues.regs.mono (by decide)).trans ((discardCompletions_onlyRegs _).mono (by decide)), hqueues.host, rfl, ?_⟩
  rw [← hqueues.inflight]
  rfl

/-! ### What the events do to the link and to the epoch -/

/-- The registers of the link, the epoch and the events seen. -/
abbrev linkRegs : List Reg := [.hifLink, .hifEpoch, .hifStatus]

theorem nextEpoch_epoch (s : State) : s.nextEpoch.get F.HIF_EPOCH_EPOCH = (s.get F.HIF_EPOCH_EPOCH + 1) % 65536 :=
  get_set_self s F.HIF_EPOCH_EPOCH _ 0 0 (by decide)

/-- The epoch moves on, the bit of the event is set, and the link goes down. -/
def linkLost (s : State) (f : Fld) : State := (s.nextEpoch.set f 1).dropLink

/-- An event of the link that is one bit of HIF_STATUS. -/
abbrev StatusBit (f : Fld) : Prop := f.reg = .hifStatus ∧ f.wid = 1 ∧ f.lo < 64

theorem nextEpoch_set_onlyRegs {f : Fld} (hf : f.reg = .hifStatus) (s : State) :
    OnlyRegs linkRegs s (s.nextEpoch.set f 1) :=
  (set_onlyRegs (by decide) s _ 0 0).trans (set_onlyRegs (by rw [hf]; decide) _ 1 0 0)

theorem dropLink_onlyRegs (s : State) : OnlyRegs [.hifLink] s s.dropLink := by
  have hset {f : Fld} (hf : f.reg = .hifLink) (u : State) : OnlyRegs [.hifLink] u (u.set f 0) :=
    set_onlyRegs (by rw [hf]; decide) u 0 0 0
  exact (hset rfl s).trans <| (hset rfl _).trans <| (hset rfl _).then_eq rfl rfl

theorem dropLink_linkUp (s : State) : s.dropLink.linkUp = false := by
  have hmode : s.dropLink.get F.HIF_LINK_MODE = 0 := by
    refine (get_set_of_apart (f := F.HIF_LINK_WIDTH) (by decide) (by decide) ..).trans ?_
    refine (get_set_of_apart (f := F.HIF_LINK_SPEED) (by decide) (by decide) ..).trans ?_
    exact get_set_self s F.HIF_LINK_MODE 0 0 0 (by decide)
  rw [State.linkUp, hmode]
  rfl

/-- What an event that takes the link down leaves behind (R336, R337). -/
structure LinkLost (f : Fld) (s t : State) : Prop where
  linkUp : t.linkUp = false
  epoch : t.get F.HIF_EPOCH_EPOCH = (s.get F.HIF_EPOCH_EPOCH + 1) % 65536
  seen : t.get f = 1
  bar0 : t.host.bar0 = none
  bar2 : t.host.bar2 = none
  msixOn : t.host.msixOn = false
  mem : t.mem = s.mem
  cstate : t.cstate = s.cstate
  inflight : t.queues.inflight = s.queues.inflight

/-- The event has been seen, in the epoch after it. -/
theorem nextEpoch_set_get {f : Fld} (hf : StatusBit f) (s : State) :
    (s.nextEpoch.set f 1).get F.HIF_EPOCH_EPOCH = (s.get F.HIF_EPOCH_EPOCH + 1) % 65536 ∧
    (s.nextEpoch.set f 1).get f = 1 := by
  obtain ⟨hreg, hwid, hlo⟩ := hf
  refine ⟨(get_set_of_reg _ _ _ _ _ _ _ _ (by rw [hreg]; decide)).trans (nextEpoch_epoch s), ?_⟩
  rw [get_set_self _ f 1 0 0 (by omega), hwid]
  rfl

theorem linkLost_linkLost {f : Fld} (hf : StatusBit f) (s : State) : LinkLost f s (linkLost s f) := by
  obtain ⟨hepoch, hseen⟩ := nextEpoch_set_get hf s
  obtain ⟨hreg, -, -⟩ := hf
  have hevent := nextEpoch_set_onlyRegs hreg s
  have hdrop := dropLink_onlyRegs (s.nextEpoch.set f 1)
  refine ⟨dropLink_linkUp _, ?_, ?_, rfl, rfl, rfl, rfl, ?_, rfl⟩
  · exact (hdrop.get F.HIF_EPOCH_EPOCH (by decide) 0 0).trans hepoch
  · exact (hdrop.get f (by rw [hreg]; decide) 0 0).trans hseen
  · exact (hdrop.get F.TBN_CSTATE_STATE (by decide) 0 0).trans (hevent.get F.TBN_CSTATE_STATE (by decide) 0 0)

/-- The queues may follow, and configuration space may note that the biases are kept. -/
theorem LinkLost.suspended {f : Fld} (hf : f.reg = .hifStatus) (h : LinkLost f s t) : LinkLost f s t.suspendQueues := by
  have hqueues := suspendQueues_onlyQueueStates t
  obtain ⟨hregs, hhost, hinflight, -⟩ := hqueues
  refine ⟨?_, (hregs.get _ (by decide) 0 0).trans h.epoch, (hregs.get f (by rw [hf]; decide) 0 0).trans h.seen, ?_, ?_, ?_,
    hregs.mem.trans h.mem, (hregs.get F.TBN_CSTATE_STATE (by decide) 0 0).trans h.cstate, hinflight.trans h.inflight⟩
  · rw [State.linkUp, hregs.get F.HIF_LINK_MODE (by decide)]
    exact h.linkUp
  · rw [hhost, h.bar0]
  · rw [hhost, h.bar2]
  · rw [hhost, h.msixOn]

theorem LinkLost.keepingBias {f : Fld} (h : LinkLost f s t) : LinkLost f s (t.setHost { t.host with keepBias := true }) :=
  ⟨h.linkUp, h.epoch, h.seen, h.bar0, h.bar2, h.msixOn, h.mem, h.cstate, h.inflight⟩

theorem hostLinkDown_of_up (hup : s.linkUp = true) :
    exec .hostLinkDown s = .next (linkLost s F.HIF_STATUS_LINK_DOWN).suspendQueues :=
  congrArg Host.Outcome.next (if_pos hup)

theorem perst_of_scope0 (hscope : s.get F.HIF_CTRL_PERST_SCOPE = 0) :
    s.perst = (let t := linkLost s F.HIF_STATUS_PERST
      (t.setHost { t.host with keepBias := true }).suspendQueues) := by
  simp only [State.perst, hscope, OfNat.zero_ne_ofNat, Nat.zero_ne_one, if_false, linkLost]

/-! ### BIAS_SET goes on when the link trains -/

/-- The registers that a BIAS_SET writes as it goes on or completes. -/
abbrev biasRegs : List Reg := .hifBiasCnt :: completionRegs

theorem succeed_onlyRegs {rs : List Reg} (hrs : completionRegs ⊆ rs) (s : State) (c : Cmd) (r : Nat) :
    OnlyRegs rs s (s.succeed c r) := completeFull_onlyRegs hrs s c _ _ r _

theorem biasGo_onlyRegs (s : State) (c : Cmd) (done : Nat) (left : List Nat) : OnlyRegs biasRegs s (s.biasGo c done left) := by
  unfold State.biasGo
  dsimp only
  split
  · exact succeed_onlyRegs (by decide) s c done
  · split
    · exact onlyRegs_of_eq rfl rfl
    · split
      · exact ((bump_onlyRegs (by decide) _ _ 0 0).trans (succeed_onlyRegs (by decide) _ c _)).before_eq rfl rfl
      · exact onlyRegs_of_eq rfl rfl

theorem biasResume_onlyRegs (s : State) : OnlyRegs biasRegs s s.biasResume := by
  unfold State.biasResume
  refine foldl_onlyRegs _ (fun u c => ?_) s
  split
  · exact biasGo_onlyRegs ..
  · exact .refl _ u

theorem biasResume_of_none (h : ∀ c ∈ s.queues.inflight, c.op ≠ 0x0207) : s.biasResume = s := by
  have hnone : s.queues.inflight.filter (fun c => c.op == 0x0207 && c.running) = [] := by
    simp only [List.filter_eq_nil_iff, Bool.and_eq_true, beq_iff_eq, not_and]
    exact fun c hc hop => absurd hop (h c hc)
  rw [State.biasResume, hnone, List.foldl_nil]

/-! ### Training -/

/-- The link is up at a speed and width, and the training counted. -/
def linkTrained (s : State) (mode speed width : Nat) : State :=
  (((s.set F.HIF_LINK_MODE mode).set F.HIF_LINK_SPEED speed).set F.HIF_LINK_WIDTH width).bump F.HIF_LINK_TRAININGS 1

theorem linkTrained_get (s : State) (mode speed width : Nat) :
    (linkTrained s mode speed width).get F.HIF_LINK_MODE = mode % 2 ^ 2 ∧
    (linkTrained s mode speed width).get F.HIF_LINK_SPEED = speed % 2 ^ 3 ∧
    (linkTrained s mode speed width).get F.HIF_LINK_WIDTH = width % 2 ^ 4 := by
  have hcount {k : Fld} (hk : k.reg = .hifLink ∧ k.lo + k.wid ≤ 32) (u : State) :
      (u.bump F.HIF_LINK_TRAININGS 1).get k = u.get k :=
    get_set_of_apart (by decide) (.inr (.inl hk.2)) ..
  refine ⟨?_, ?_, ?_⟩
  · rw [linkTrained, hcount (by decide), get_set_of_apart (by decide) (by decide), get_set_of_apart (by decide) (by decide),
      get_set_self _ _ _ _ _ (by decide)]
    rfl
  · rw [linkTrained, hcount (by decide), get_set_of_apart (by decide) (by decide), get_set_self _ _ _ _ _ (by decide)]
    rfl
  · rw [linkTrained, hcount (by decide), get_set_self _ _ _ _ _ (by decide)]
    rfl

/-- A link that was down trains in PCIe mode when CXL is not offered or not enabled; biases stay as they are and a BIAS_SET
that waited for the link goes on. -/
theorem hostLinkTrain_of_down {cxl : Bool} {speed width : Nat} (hdown : s.linkUp = false) (hpowered : s.powered = true)
    (hstage : 2 ≤ s.start.stage) (hwidth : width ∈ [1, 2, 4, 8]) (hpcie : (cxl && s.bit F.HIF_CTRL_CXL_EN) = false)
    (hlow : 1 ≤ speed) (hhigh : speed ≤ 7) :
    exec (.hostLinkTrain cxl speed width) s = .next (let t := linkTrained s 1 speed width
      (t.setHost { t.host with shared := t.host.shared, keepBias := false }).biasResume) := by
  have hw : (width == 1 || width == 2 || width == 4 || width == 8) = true := by simpa [or_assoc] using hwidth
  have hboot : ¬ s.start.stage < 2 := Nat.not_lt.2 hstage
  simp only [exec, execHostLinkTrain, hdown, hpcie, hpowered, hw, hboot, hlow, hhigh, linkTrained, Bool.false_eq_true,
    if_false, Bool.true_eq_false, Bool.not_true, or_self, OfNat.one_ne_ofNat, and_self, if_true, decide_false,
    Bool.false_and]

/-! ### Function level reset -/

theorem abortCourse_skipped (h1 : s.cstate ≠ 1) (h2 : s.cstate ≠ 2) :
    (if s.cstate = 1 ∨ s.cstate = 2 then s.abortCourse 3 else s) = s := if_neg (by simp [h1, h2])

/-- Configuration space at its reset values, every event's bit and the epoch apart. -/
def flrSeen (s : State) : State := (s.nextEpoch.set F.HIF_STATUS_FLR 1).configReset

theorem functionLevelReset_of_up (hup : s.linkUp = true) (h1 : s.cstate ≠ 1) (h2 : s.cstate ≠ 2)
    (hbias : ∀ c ∈ s.queues.inflight, c.op ≠ 0x0207) :
    exec .functionLevelReset s = .next (let t := (flrSeen s).resetQueues
      t.setHost { t.host with shared := [] }) := by
  obtain ⟨hregs, -, -, hinflight⟩ := resetQueues_parts (flrSeen s)
  have hcstate : (flrSeen s).resetQueues.cstate = s.cstate :=
    (hregs.get F.TBN_CSTATE_STATE (by decide) 0 0).trans
      ((nextEpoch_set_onlyRegs (f := F.HIF_STATUS_FLR) rfl s).get F.TBN_CSTATE_STATE (by decide) 0 0)
  have hnone : ∀ c ∈ (flrSeen s).resetQueues.queues.inflight, c.op ≠ 0x0207 := by
    rw [hinflight]
    intro c hc
    obtain ⟨a, ha, rfl⟩ := List.mem_map.1 hc
    exact hbias a ha
  have hresume := biasResume_of_none
    (s := (flrSeen s).resetQueues.setHost { (flrSeen s).resetQueues.host with shared := [] }) hnone
  have hskip := abortCourse_skipped (hcstate ▸ h1) (hcstate ▸ h2)
  unfold flrSeen at hresume hskip ⊢
  simp only [exec, execFunctionLevelReset, hup, if_true, State.scopeOne, hskip, hresume]

end

/-- Settles O14: the registers that the queues and a BIAS_SET write are none of the link's. -/
theorem linkEventsRun : Obligations.LinkEventsRun := by
  unfold Obligations.LinkEventsRun
  refine ⟨?train, ?down, ?perst, ?flr⟩
  case train =>
    intro cxl speed width s hdown hpowered hstage hwidth hpcie hlow hhigh
    obtain ⟨hmode, hspeed, hwid⟩ := linkTrained_get s 1 speed width
    have hresume := biasResume_onlyRegs ((linkTrained s 1 speed width).setHost
      { (linkTrained s 1 speed width).host with shared := (linkTrained s 1 speed width).host.shared, keepBias := false })
    refine ⟨_, hostLinkTrain_of_down hdown hpowered hstage hwidth hpcie hlow hhigh, ?_, ?_, ?_, hresume.mem⟩
    · exact (hresume.get F.HIF_LINK_MODE (by decide) 0 0).trans ((setHost_get ..).trans hmode)
    · rw [hresume.get F.HIF_LINK_SPEED (by decide), setHost_get, hspeed]
      omega
    · rw [hresume.get F.HIF_LINK_WIDTH (by decide), setHost_get, hwid]
      simp only [List.mem_cons, List.not_mem_nil, or_false] at hwidth
      omega
  case down =>
    intro s hup
    obtain ⟨hlink, hepoch, hseen, hbar0, hbar2, hmsix, hmem, hcstate, hinflight⟩ :=
      (linkLost_linkLost (f := F.HIF_STATUS_LINK_DOWN) (by decide) s).suspended rfl
    exact ⟨_, hostLinkDown_of_up hup, hlink, hepoch, hseen, hbar0, hbar2, hmsix, hmem, hcstate, hinflight⟩
  case perst =>
    intro c s _ hup hpowered hscope
    have hboth : (s.powered && s.linkUp) = true := by rw [hpowered, hup]; rfl
    have hlost : LinkLost F.HIF_STATUS_PERST s s.perst := by
      rw [perst_of_scope0 hscope]
      exact (linkLost_linkLost (by decide) s).keepingBias.suspended rfl
    obtain ⟨hlink, hepoch, hseen, hbar0, -, -, hmem, hcstate, hinflight⟩ := hlost
    exact ⟨⟨fun _ => congrArg Host.Outcome.next (if_pos hpowered), fun _ => congrArg Host.Outcome.next (if_pos hboth),
      fun _ => congrArg Host.Outcome.next (if_pos hboth)⟩, hlink, hepoch, hseen, hbar0, hmem, hcstate, hinflight⟩
  case flr =>
    intro s hup h1 h2 hbias
    obtain ⟨hregs, hhost, hdone, hinflight⟩ := resetQueues_parts (flrSeen s)
    obtain ⟨hepoch, hseen⟩ := nextEpoch_set_get (f := F.HIF_STATUS_FLR) (by decide) s
    refine ⟨_, functionLevelReset_of_up hup h1 h2 hbias, ?_, ?_, ?_, ?_, hregs.mem, rfl, hdone, hinflight⟩
    · have hmode : (flrSeen s).resetQueues.get F.HIF_LINK_MODE = s.get F.HIF_LINK_MODE :=
        (hregs.get F.HIF_LINK_MODE (by decide) 0 0).trans <|
          (get_set_of_reg _ _ _ _ _ _ _ _ (by decide)).trans (get_set_of_reg _ _ _ _ _ _ _ _ (by decide))
      rw [State.linkUp, setHost_get, hmode]
      exact hup
    · rw [setHost_get]
      exact (hregs.get F.HIF_EPOCH_EPOCH (by decide) 0 0).trans hepoch
    · rw [setHost_get]
      exact (hregs.get F.HIF_STATUS_FLR (by decide) 0 0).trans hseen
    · exact congrArg HostIf.bar0 hhost

end Sys2Proof.Proofs

/-! ## The commands of the host chapter and the answers of the host (R328, R344, R347, R348, R350) -/

namespace Sys2Proof.Proofs
open Sys2Proof.Machine Sys2Proof.Laws Sys2Proof.Safety

section
variable {s t : State} {q : Fin 16384} {seq : Nat} {c : Cmd}

/-! ### NOP, GET_INTERFACE, LAUNCH -/

theorem getInterface_of_version (hacc : Accepted 0x0001 q seq c s) (hver : 1 ≤ c.par 16 1) :
    exec (.getInterface q seq) s = .next ((s.set F.QP_QCFG_VERSION (min (c.par 16 1) 2) q).succeed c
      (min (c.par 16 1) 2 + 0x100 + 0x20000 + 16383 * 2 ^ 24)) :=
  congrArg Host.Outcome.next ((runCmd_of_accepted hacc _).trans (if_neg (by omega)))

theorem launch_of_legal (hacc : Accepted 0x0002 q seq c s) (hreserved : c.par 16 2 / 2 ^ 10 % 32 = 0)
    (hkind : (c.par 16 2 / 2 ^ 15 == 1) = c.wadding) (hentry : c.par 18 2 ≤ 32767) (haligned : c.par 24 8 % 8 = 0)
    (hargs : c.par 24 8 = 0 ∨ s.rangeMapped (c.par 24 8) 48 = true) :
    exec (.launch q seq) s = .next ((s.cmdWaits c []).deliver (c.par 16 2 % 1024)
      ⟨q, some (q.val, seq), none, c.par 18 2 * 8, c.par 24 8, c.wadding⟩) := by
  have hmapped : ¬ (c.par 24 8 ≠ 0 ∧ s.rangeMapped (c.par 24 8) 48 = false) := by
    rintro ⟨hne, hout⟩
    rw [hargs.resolve_left hne] at hout
    exact Bool.noConfusion hout
  refine congrArg Host.Outcome.next ((runCmd_of_accepted hacc _).trans ?_)
  simp only [hreserved, hkind, ne_eq, not_true_eq_false, or_self, if_false, Nat.not_lt.2 hentry, haligned]
  exact if_neg hmapped

/-! ### BIAS_SET to shared -/

/-- The pages of a BIAS_SET, and those of them that are device-owned. -/
def biasPages (c : Cmd) : List Nat := (List.range (c.par 24 4)).map (fun i => c.par 16 8 / pageSize + i)

def freshPages (s : State) (c : Cmd) : List Nat := (biasPages c).filter (fun p => !s.host.shared.contains p)

theorem mem_biasPages {p : Nat} :
    p ∈ biasPages c ↔ c.par 16 8 / pageSize ≤ p ∧ p < c.par 16 8 / pageSize + c.par 24 4 := by
  simp only [biasPages, List.mem_map, List.mem_range]
  constructor
  · rintro ⟨i, hi, rfl⟩
    omega
  · rintro ⟨hlow, hhigh⟩
    exact ⟨p - c.par 16 8 / pageSize, by omega, by omega⟩

theorem length_freshPages_le : (freshPages s c).length ≤ c.par 24 4 :=
  calc (freshPages s c).length ≤ (biasPages c).length := List.length_filter_le ..
    _ = c.par 24 4 := by rw [biasPages, List.length_map, List.length_range]

theorem mem_shared_append_freshPages {p : Nat} :
    p ∈ s.host.shared ++ freshPages s c ↔ p ∈ s.host.shared ∨ p ∈ biasPages c := by
  simp only [freshPages, List.mem_append, List.mem_filter, Bool.not_eq_true', List.contains_eq_mem, decide_eq_false_iff_not]
  tauto

/-- The module once the pages of a BIAS_SET are shared. -/
def sharedPages (s : State) (c : Cmd) : State :=
  (s.setHost { s.host with shared := s.host.shared ++ freshPages s c }).bump F.HIF_BIAS_CNT_BIAS_SETS (freshPages s c).length

theorem biasSet_of_shared (hacc : Accepted 0x0207 q seq c s) (haligned : c.par 16 8 % pageSize = 0)
    (hin : c.par 16 8 + c.par 24 4 * pageSize ≤ hdmSize) (hshared : c.par 28 1 = 1) :
    exec (.biasSet q seq) s = .next ((sharedPages s c).succeed c (freshPages s c).length) := by
  refine congrArg Host.Outcome.next ((runCmd_of_accepted hacc _).trans ?_)
  simp only [haligned, ne_eq, not_true_eq_false, Nat.not_lt.2 hin, or_self, if_false, hshared, Nat.lt_irrefl, if_true]
  rfl

/-! ### DMA -/

theorem dmaPut_of_done {a done : Nat} {bs : List Byte} {k : State → State}
    (hwrite : s.busWrite (.command c.q) (s.queueWadding c.q) a bs = .done t) :
    s.dmaPut c a bs done k = k (t.act c.q 4 (ceilDiv bs.length 64)) := by
  simp only [State.dmaPut, hwrite]

theorem q_of_cmd (h : s.cmd? q seq = some c) : c.q = q := by
  have hfound := List.find?_some h
  simp only [Bool.and_eq_true, beq_iff_eq] at hfound
  exact hfound.1

theorem length_fill (n v : Nat) (h : n % 8 = 0) : ((List.replicate (n / 8) (leBytes 8 v)).flatten).length = n := by
  have hword : (leBytes 8 v).length = 8 := by simp only [leBytes, List.length_cons, List.length_nil]
  simp only [List.length_flatten, List.map_replicate, hword, List.sum_replicate, smul_eq_mul]
  omega

theorem dmaFill_of_legal (hacc : Accepted 0x0201 q seq c s) (hlen : c.par 32 8 % 8 = 0) (hflags : c.par 40 1 = 0)
    (hjudge : s.dmaJudge q (c.par 16 8) (c.par 32 8) true = none)
    (hwrite : s.busWrite (.command q) (s.queueWadding q) (c.par 16 8)
      (List.replicate (c.par 32 8 / 8) (leBytes 8 (c.par 24 8))).flatten = .done t) :
    exec (.dmaFill q seq) s = .next ((t.act q 4 (ceilDiv (c.par 32 8) 64)).succeed c (c.par 32 8)) := by
  have hq := q_of_cmd hacc.1
  refine congrArg Host.Outcome.next ((runCmd_of_accepted hacc _).trans ?_)
  simp only [hlen, hflags, hjudge, ne_eq, not_true_eq_false, false_and, OfNat.zero_ne_ofNat, if_false]
  rw [← hq] at hwrite ⊢
  rw [dmaPut_of_done hwrite, length_fill _ _ hlen]

/-- A copy that reads no byte which it has itself overwritten moves what it has read. -/
theorem copyBytes_of_apart {src dst : Nat} {bs : List Byte} (h : dst ≤ src ∨ src + bs.length ≤ dst) :
    s.copyBytes src dst bs = (bs, s) := if_neg (by omega)

theorem dmaCopy_within (hacc : Accepted 0x0200 q seq c s) (hpos : 1 ≤ c.par 32 8) (hmost : c.par 32 8 ≤ 2 ^ 40)
    (hflags : c.par 40 1 = 0) (hsrc : s.dmaJudge q (c.par 16 8) (c.par 32 8) false = none)
    (hdst : s.dmaJudge q (c.par 24 8) (c.par 32 8) true = none)
    (hready : (s.busRead (.command q) (c.par 16 8) (c.par 32 8)).waits = false)
    (hread : (s.busRead (.command q) (c.par 16 8) (c.par 32 8)).bytes.length = c.par 32 8)
    (hapart : c.par 24 8 ≤ c.par 16 8 ∨ c.par 16 8 + c.par 32 8 ≤ c.par 24 8)
    (hwrite : (s.busRead (.command q) (c.par 16 8) (c.par 32 8)).st.busWrite (.command q)
      ((s.busRead (.command q) (c.par 16 8) (c.par 32 8)).st.queueWadding q) (c.par 24 8)
      (s.busRead (.command q) (c.par 16 8) (c.par 32 8)).bytes = .done t) :
    exec (.dmaCopy q seq) s = .next ((t.act q 4 (ceilDiv (c.par 32 8) 64)).succeed c (c.par 32 8)) := by
  have hq := q_of_cmd hacc.1
  have hlen : ¬ (c.par 32 8 = 0 ∨ 2 ^ 40 < c.par 32 8) := by omega
  refine congrArg Host.Outcome.next ((runCmd_of_accepted hacc _).trans ?_)
  simp only [hlen, hflags, hsrc, hdst, hready, if_false, Nat.reduceLeDiff, Nat.zero_mod, Nat.zero_div, beq_iff_eq,
    Nat.zero_ne_one, Bool.false_eq_true, Option.map_none, Option.or_none, copyBytes_of_apart (hread ▸ hapart)]
  rw [← hq] at hwrite hread ⊢
  rw [dmaPut_of_done hwrite, hread]

end

/-- Settles O15: each command passes its checks in order, and what it writes is as long as it says. -/
theorem hostCommandsRun : Obligations.HostCommandsRun := by
  unfold Obligations.HostCommandsRun
  refine ⟨?nop, ?interface, ?launch, ?bias, ?fill, ?copy⟩
  case nop => exact fun q seq c s hacc => congrArg Host.Outcome.next (runCmd_of_accepted hacc _)
  case interface => exact fun q seq c s hacc hver => getInterface_of_version hacc hver
  case launch =>
    exact fun q seq c s hacc hreserved hkind hentry haligned hargs =>
      launch_of_legal hacc hreserved hkind hentry haligned hargs
  case bias =>
    intro q seq c s hacc haligned hin hshared
    exact ⟨sharedPages s c, (freshPages s c).length, biasSet_of_shared hacc haligned hin hshared, rfl, length_freshPages_le,
      fun p => mem_shared_append_freshPages.trans (or_congr_right mem_biasPages)⟩
  case fill => exact fun q seq c t s hacc hlen hflags hjudge hwrite => dmaFill_of_legal hacc hlen hflags hjudge hwrite
  case copy =>
    exact fun q seq c t s hacc hpos hmost hflags hsrc hdst hready hread hapart hwrite =>
      dmaCopy_within hacc hpos hmost hflags hsrc hdst hready hread hapart hwrite

section
variable {s t : State} {q : Fin 16384} {seq : Nat} {c : Cmd} {r : HostRead}

/-! ### Answers of the host -/

/-- The read is no longer outstanding. -/
def readGone (s : State) (r : HostRead) : State := { s with host := { s.host with reads := s.host.reads.erase r } }

theorem hostAnswered_of_data {bs : List Byte} (hread : s.host.reads.find? (fun r => r.q == q.val && r.seq == seq) = some r)
    (hcmd : s.cmd? q seq = some c) (hlen : bs.length = r.len)
    (hwrite : (readGone s r).busWrite (.command q) (s.queueWadding q) (c.par 24 8 + c.aux.headD 0) bs = .done t)
    (hready : ∀ u, s.busWrite (.command q) (s.queueWadding q) (c.par 24 8 + c.aux.headD 0) bs ≠ .waits u) :
    s.hostAnswered q seq (.data bs) = (t.act q 4 (ceilDiv r.len 64)).dmaAsk c (c.aux.headD 0 + r.len) := by
  have hput : (readGone s r).dmaPut c (c.par 24 8 + c.aux.headD 0) bs (c.aux.headD 0)
      (fun t => t.dmaAsk c (c.aux.headD 0 + r.len)) = (t.act q 4 (ceilDiv r.len 64)).dmaAsk c (c.aux.headD 0 + r.len) := by
    have hq := q_of_cmd hcmd
    rw [← hq] at hwrite ⊢
    rw [dmaPut_of_done hwrite, hlen]
  simp only [State.hostAnswered, hread, hcmd, hlen, if_true]
  exact hput

theorem hostAnswered_of_failed (hread : s.host.reads.find? (fun r => r.q == q.val && r.seq == seq) = some r)
    (hcmd : s.cmd? q seq = some c) :
    s.hostAnswered q seq .error =
      (((readGone s r).set F.HIF_STATUS_HOST_ERROR 1).complete c stHostError 1 (c.aux.headD 0)) ∧
    s.hostAnswered q seq .poison =
      (((readGone s r).set F.HIF_STATUS_HOST_ERROR 1).complete c stHostError 2 (c.aux.headD 0)) ∧
    s.hostAnswered q seq .timeout = ((((readGone s r).set F.HIF_STATUS_HOST_ERROR 1).bump
      F.HIF_ERRCNT_CPL_TIMEOUT 1).complete c stHostError 3 (c.aux.headD 0)) := by
  simp only [State.hostAnswered, hread, hcmd, State.hostFailed, Bool.false_eq_true, if_false, if_true]
  exact ⟨rfl, rfl, rfl⟩

theorem hostMemoryReadCompletion_of_up (hup : s.linkUp = true) (ans : HostAns) :
    exec (.hostMemoryReadCompletion q seq ans) s = .next (s.hostAnswered q seq ans) :=
  congrArg Host.Outcome.next (if_pos hup)

/-! ### Page bias under CXL -/

/-- A page becomes shared for a request of the host. -/
def pageFlipped (s : State) (p : Nat) : State :=
  (s.setHost { s.host with shared := s.host.shared ++ [p] }).bump F.HIF_BIAS_CNT_HOST_FLIPS 1

theorem cxlMemRequest_of_owned {line : Nat} (hcxl : s.get F.HIF_LINK_MODE = 2) (hin : line * 64 < hdmSize)
    (howned : line * 64 / pageSize ∉ s.host.shared) (data : Option (List Byte)) :
    exec (.cxlMemRequest line data) s = .next (match data with
      | some bs => (pageFlipped s (line * 64 / pageSize)).bar0Write (line * 64) (padTo 64 bs)
      | none => (pageFlipped s (line * 64 / pageSize)).hostLines (line * 64) 64 true) := by
  simp only [exec, execCxlMemRequest, hcxl, ne_eq, not_true_eq_false, Nat.not_le.2 hin, or_self, if_false, howned]
  rfl

/-- The host has given up a page that a BIAS_SET recalls. -/
theorem cxlCacheResponse_of_recall {page d : Nat} {left : List Nat} (hcxl : s.get F.HIF_LINK_MODE = 2)
    (hwaits : s.queues.inflight.find? (fun c => c.op == 0x0207 && c.running &&
      (match c.aux with | _ :: p :: _ => p == page | _ => false)) = some c)
    (haux : c.aux = d :: page :: left) (hshared : page ∈ s.host.shared) :
    exec (.cxlCacheResponse page) s = .next (((s.setHost { s.host with
      shared := s.host.shared.filter (fun p => p != page) }).bump F.HIF_BIAS_CNT_BIAS_SETS 1).biasGo c (d + 1) left) := by
  refine congrArg Host.Outcome.next ((if_neg (not_not_intro hcxl)).trans ?_)
  dsimp only
  generalize hfound : List.find? _ s.queues.inflight = o
  obtain rfl : o = some c := hfound.symm.trans hwaits
  simp only [haux, hshared, if_true]

end

/-- Settles O16: an answer finds the read and the command that it belongs to, and the page that is asked for is in no list
of shared pages until then. -/
theorem hostAnswersRun : Obligations.HostAnswersRun := by
  unfold Obligations.HostAnswersRun
  refine ⟨?data, ?failed, ?request, ?response⟩
  case data =>
    intro q seq c r bs t s hup hread hcmd hlen hwrite hready
    exact (hostMemoryReadCompletion_of_up hup _).trans
      (congrArg Host.Outcome.next (hostAnswered_of_data hread hcmd hlen hwrite hready))
  case failed =>
    intro q seq c r s hread hcmd u
    obtain ⟨herror, hpoison, htimeout⟩ := hostAnswered_of_failed hread hcmd
    exact ⟨fun hup => (hostMemoryReadCompletion_of_up hup _).trans (congrArg Host.Outcome.next herror),
      fun hup => (hostMemoryReadCompletion_of_up hup _).trans (congrArg Host.Outcome.next hpoison),
      congrArg Host.Outcome.next htimeout⟩
  case request =>
    intro line s hcxl hin howned u
    refine ⟨cxlMemRequest_of_owned hcxl hin howned none, fun bs hlen => ?_⟩
    refine (cxlMemRequest_of_owned hcxl hin howned (some bs)).trans ?_
    simp only [padTo_of_length hlen]
    rfl
  case response =>
    exact fun page d left c s hcxl hwaits haux hshared => cxlCacheResponse_of_recall hcxl hwaits haux hshared

end Sys2Proof.Proofs

/-! ## The course commands and the end of a course (R36, R37, R44, R50, R224, R308, R317, R318, R349, R352) -/

namespace Sys2Proof.Proofs
open Sys2Proof.Machine Sys2Proof.Laws Sys2Proof.Safety

section
variable {s : State} {q : Fin 16384} {seq : Nat} {c : Cmd}

/-! ### The commands -/

/-- A sound program for a batten that is still to come arms its course. -/
theorem courseLoad_of_sound {p : CourseProgram} (hacc : Accepted 0x0100 q seq c s) (haligned : c.par 16 8 % 64 = 0)
    (hlocal : c.par 16 8 < 2 ^ 43) (hmem : s.memRange (c.par 16 8) (c.par 24 4) = true) (hpos : 0 < c.par 24 4)
    (hidle : s.cstate = 0) (hlocked : s.role ≠ 2 ∨ s.get F.TBN_SYNC_LOCKED = 1)
    (hsound : (s.readMem .engine (c.par 16 8) (c.par 24 4)).st.courseCheck p = none)
    (hahead : p.startBatten = 0 ∨
      (s.readMem .engine (c.par 16 8) (c.par 24 4)).st.get F.TBN_BATTEN_BATTEN < p.startBatten) :
    let r := s.readMem .engine (c.par 16 8) (c.par 24 4)
    let start := if p.startBatten = 0 then r.st.get F.TBN_BATTEN_BATTEN + 1 else p.startBatten
    exec (.courseLoad q seq (some p)) s = .next ((r.st.armCourse p c.q start (listDigest r.bytes)).succeed c start) := by
  have hsync : ¬ (s.role = 2 ∧ s.get F.TBN_SYNC_LOCKED = 0) := fun ⟨hrole, hopen⟩ =>
    hlocked.elim (fun h => h hrole) (fun h => by rw [h] at hopen; exact Nat.one_ne_zero hopen)
  refine congrArg Host.Outcome.next ((runCmd_of_accepted hacc _).trans ?_)
  refine ((needA_of_aligned haligned hlocal _).trans (needMem_of_range hmem _)).trans ?_
  simp only [hidle, ne_eq, not_true_eq_false, if_false, hsync, hpos.ne', hsound]
  exact if_neg fun ⟨hset, hpast⟩ => hahead.elim hset (fun h => absurd hpast (Nat.not_le.2 h))

theorem courseWait_of_accepted (hacc : Accepted 0x0101 q seq c s) :
    exec (.courseWait q seq) s = .next (s.cmdWaits c
      (if s.cstate ≠ 0 ∧ s.get F.TBN_COURSE_COURSE = c.par 16 8 then [1] else [])) :=
  congrArg Host.Outcome.next (runCmd_of_accepted hacc _)

theorem abortCourse_of_running (hacc : Accepted 0x0003 q seq c s) (hruns : s.cstate = 2)
    (hnamed : s.get F.TBN_COURSE_COURSE = c.par 16 8) :
    exec (.abortCourse q seq) s = .next ((s.cmdWaits c []).abortCourse 3) := by
  refine congrArg Host.Outcome.next ((runCmd_of_accepted hacc _).trans ?_)
  simp only [hruns, hnamed, or_true, and_self, if_true, OfNat.ofNat_ne_one, false_and, if_false]

theorem abortCourse_of_none (hacc : Accepted 0x0003 q seq c s)
    (hother : s.cstate = 0 ∨ s.get F.TBN_COURSE_COURSE ≠ c.par 16 8) :
    exec (.abortCourse q seq) s = .next (s.succeed c 0) := by
  refine congrArg Host.Outcome.next ((runCmd_of_accepted hacc _).trans (if_neg ?_))
  rintro ⟨hlive, hnamed⟩
  rcases hother with hidle | hne
  · omega
  · exact hne hnamed

/-! ### The fold and the end -/

theorem foldBegin_of_alone (hready : s.foldReady = true) (halone : s.alone = true) :
    exec .foldBegin s = .next ((List.range 24).foldl State.syncFolding
      (State.stageResidue (s.setCourse { s.course with fold := 1 }))) := by
  simp only [exec, execFoldBegin, hready, halone, Bool.true_or, if_true]

theorem foldEnd_of_folded (hfold : s.course.fold = 1) (hunits : (List.range 24).all s.unitFolded = true) :
    let t := s.appendHistory.writeRanges.stagingFolded
    exec .foldEnd s = .next ((List.range 24).foldl State.syncFolding (t.setCourse { t.course with fold := 2 })) :=
  if_pos ⟨hfold, hunits⟩

/-- With nothing to compare the capture of the digests is all. -/
theorem digestCapture_of_uncompared (hclosing : s.cstate = 3) (hfolded : s.course.fold = 2)
    (huncaptured : s.course.captured = false) (hcolls : s.collsOver = true) (hopen : s.openCommands s.course.plan = [])
    (hnone : s.capture.compares = false ∨ s.capture.comparedRegions = []) :
    exec .digestCapture s = .next s.capture := by
  have hoccasion : s.cstate = 3 ∧ s.course.fold = 2 ∧ s.course.captured = false ∧ s.collsOver = true ∧
      (s.openCommands s.course.plan).isEmpty = true :=
    ⟨hclosing, hfolded, huncaptured, hcolls, List.isEmpty_iff.2 hopen⟩
  have hquiet : ¬ (s.capture.compares && s.capture.comparedRegions != []) = true := by
    rcases hnone with h | h <;> simp [h]
  simp only [exec, execDigestCapture, if_pos hoccasion, if_neg hquiet]

theorem ledgerRecordWrite_of_closed (hclosed : s.closed = true) (hon : s.bit F.LDG_CTRL_EN = true) :
    exec .ledgerRecordWrite s = .next s.endCourse :=
  congrArg Host.Outcome.next (if_pos (by rw [hclosed, hon]; rfl))

theorem courseEndPoint_of_closed (hclosed : s.closed = true) (hoff : s.bit F.LDG_CTRL_EN = false) :
    exec .courseEndPoint s = .next s.endCourse :=
  congrArg Host.Outcome.next (if_pos (by rw [hclosed, hoff]; rfl))

end

/-- Settles O38: each command passes its checks in order, and each event of the course meets its occasion. -/
theorem courseRuns : Obligations.CourseRuns := by
  unfold Obligations.CourseRuns
  refine ⟨?load, ?wait, ?abort, ?begins, ?ends, ?capture, ?closed, ?aborted⟩
  case load =>
    exact fun q seq c p s hacc haligned hlocal hmem hpos hidle hlocked hsound hahead =>
      courseLoad_of_sound hacc haligned hlocal hmem hpos hidle hlocked hsound hahead
  case wait =>
    refine fun q seq c s hacc => ⟨fun hlive hnamed => ?_, fun hother => ?_⟩
    · rw [courseWait_of_accepted hacc, if_pos ⟨hlive, hnamed⟩]
    · rw [courseWait_of_accepted hacc, if_neg fun ⟨hlive, hnamed⟩ => hother.elim hlive fun h => h hnamed]
  case abort =>
    exact fun q seq c s hacc => ⟨fun hruns hnamed => abortCourse_of_running hacc hruns hnamed,
      fun hother => abortCourse_of_none hacc hother⟩
  case begins => exact fun s hready halone => foldBegin_of_alone hready halone
  case ends => exact fun s hfold hunits => foldEnd_of_folded hfold hunits
  case capture =>
    exact fun s hclosing hfolded huncaptured hcolls hopen hnone =>
      digestCapture_of_uncompared hclosing hfolded huncaptured hcolls hopen hnone
  case closed => exact fun s hclosed => ⟨ledgerRecordWrite_of_closed hclosed, courseEndPoint_of_closed hclosed⟩
  case aborted =>
    exact fun s hstate hdrained haudited haccounted =>
      congrArg Host.Outcome.next (if_pos ⟨hstate, hdrained, haudited, haccounted⟩)

end Sys2Proof.Proofs

/-! ## The bounds of the gutter's queues (R412, R414) -/

namespace Sys2Proof.Proofs
open Sys2Proof.Machine Sys2Proof.Laws

/-- The intake queue of every slice holds at most 256 records. -/
def IntakeBound (s : State) : Prop := ∀ j, (s.slice j).intake.length ≤ 256

section
variable {s u : State} {d : Nat} {r : GRec}

theorem slice_setSlice (s : State) (d j : Nat) (x : Slice) :
    (s.setSlice d x).slice j = if j = d then x else s.slice j := get_put Slice.init s.gut.slices d j x

@[simp] theorem slice_setSlice_self (x : Slice) : (s.setSlice d x).slice d = x := by
  rw [slice_setSlice, if_pos rfl]

/-- A slice whose queue is short enough takes the place of one. -/
theorem setSlice_intakeBound (h : IntakeBound s) {x : Slice} (hx : x.intake.length ≤ 256) :
    IntakeBound (s.setSlice d x) := by
  intro j
  rw [slice_setSlice]
  split
  · exact hx
  · exact h j

theorem youngestAbove_lt {c i : Nat} {l : List GRec} (h : youngestAbove c l = some i) : i < l.length := by
  have hmem := List.mem_of_find?_eq_some h
  simpa using hmem

/-- What a drop or a displacement leaves of the slice's queue. -/
theorem gutDropped_slice (s : State) (d c j : Nat) : ((s.gutDropped d c).slice j).intake = (s.slice j).intake := by
  unfold State.gutDropped
  extract_lets s1 s2 x
  have h2 : s2.slice = s.slice := by
    unfold s2
    split <;> rfl
  rw [slice_setSlice]
  split
  next hj => rw [hj, ← h2]
  next => rw [h2]

theorem gutDropped_intakeBound (h : IntakeBound s) (c : Nat) : IntakeBound (s.gutDropped d c) := fun j => by
  rw [gutDropped_slice]
  exact h j

/-- A record joins a queue that has room, or takes the place of one of a higher class number, or is dropped. -/
theorem intake_intakeBound (h : IntakeBound s) (d : Nat) (r : GRec) : IntakeBound (s.intake d r).2 := by
  unfold State.intake
  extract_lets x hold
  have hhold (v : State) (hv : IntakeBound v) : IntakeBound (hold v) := by
    unfold hold
    split
    · exact hv
    · exact hv
  split
  next hroom =>
    refine hhold _ (setSlice_intakeBound h ?_)
    simp only [List.length_append, List.length_singleton]
    omega
  next =>
    split
    next i hyoung =>
      have hlt := youngestAbove_lt hyoung
      refine gutDropped_intakeBound (setSlice_intakeBound h ?_) _
      simp only [List.length_append, List.length_singleton, List.length_eraseIdx_of_lt hlt]
      have hfull : x.intake.length ≤ 256 := h d
      omega
    next => exact gutDropped_intakeBound h _

theorem dropReport_intakeBound (h : IntakeBound s) (d : Nat) : IntakeBound (s.dropReport d) := by
  unfold State.dropReport
  extract_lets x r s0 p
  have hs0 : IntakeBound s0 := setSlice_intakeBound h (show x.intake.length ≤ 256 from h d)
  have hp : IntakeBound p.2 := intake_intakeBound hs0 d r
  split
  · exact hp
  · exact intake_intakeBound h d r

theorem takeToken_intakeBound {code : Nat} (h : IntakeBound s) (htoken : s.takeToken d code = some u) : IntakeBound u := by
  unfold State.takeToken at htoken
  extract_lets x p e left at htoken
  obtain ⟨-, htaken⟩ := (Option.ite_none_right_eq_some ..).1 htoken
  obtain rfl := Option.some.inj htaken
  exact setSlice_intakeBound h (h d)

theorem raise_intakeBound (h : IntakeBound s) (d code payload : Nat) : IntakeBound (s.raise d code payload) := by
  unfold State.raise
  split
  case isTrue => exact h
  case isFalse =>
    split
    case h_1 => exact h
    case h_2 s1 htoken =>
      have h1 : IntakeBound s1 := by
        split at htoken
        · obtain rfl := Option.some.inj htoken
          exact h
        · exact takeToken_intakeBound h htoken
      extract_lets before s2
      have h2 : IntakeBound s2 := intake_intakeBound h1 d _
      split
      · exact dropReport_intakeBound h2 d
      · exact h2

/-- With no record of a higher class number none is displaced. -/
theorem youngestAbove_eq_none {c : Nat} {l : List GRec} (h : ∀ x ∈ l, x.cls ≤ c) : youngestAbove c l = none := by
  simp only [youngestAbove, List.find?_eq_none, List.mem_reverse, List.mem_range, decide_eq_true_eq, Nat.not_lt]
  intro i hi
  rw [List.getD_eq_getElem _ _ hi]
  exact h _ (List.getElem_mem hi)

theorem intake_of_full (hfull : (s.slice d).intake.length = 256) (hclass : ∀ x ∈ (s.slice d).intake, x.cls ≤ r.cls) :
    s.intake d r = (false, s.gutDropped d r.cls) := by
  simp only [State.intake, hfull, Nat.lt_irrefl, if_false, youngestAbove_eq_none hclass]

/-! ### The NV queue -/

theorem nvPush_bound (h : s.gut.nvQueue.length ≤ 4096) (r : GRec) : (s.nvPush r).gut.nvQueue.length ≤ 4096 := by
  unfold State.nvPush
  dsimp only
  rw [set_gut]
  split
  next hroom =>
    simp only [List.length_append, List.length_singleton]
    omega
  next =>
    split
    next i hyoung =>
      have hlt : i < s.gut.nvQueue.length := by simpa using youngestAbove_lt hyoung
      simp only [List.length_append, List.length_singleton, List.length_eraseIdx_of_lt hlt]
      omega
    next => exact h

theorem closeWindow_bound (h : s.gut.nvQueue.length ≤ 4096) (d : Nat) : (s.closeWindow d).gut.nvQueue.length ≤ 4096 := by
  unfold State.closeWindow
  dsimp only
  split
  · split
    · exact nvPush_bound (s := s.setSlice d _) h _
    · exact h
  · exact h

end

/-- Settles O32: a record joins a full queue only where it displaces another, in the intake and in the NV queue. -/
theorem gutterBounds : Obligations.GutterBounds := by
  unfold Obligations.GutterBounds
  refine ⟨fun d code payload k s h => raise_intakeBound h d code payload k, fun d r s hfull hclass => ?_,
    fun d s h => closeWindow_bound h d⟩
  rw [intake_of_full hfull hclass]
  exact ⟨rfl, gutDropped_slice s d r.cls d⟩

/-! ## The rows of the gutter (R385, R408, R410 to R417) -/

open Sys2Proof.Safety

section
variable {s : State} {d : Fin 8} {q : Fin 16384} {seq : Nat} {c : Cmd}

/-! ### Events, drains, windows and drop reports -/

theorem gutterEvent_of_listed {code payload : Nat} (hcode : execGutterEvent.evCodes.contains code = true)
    (hpayload : payload < 256 ^ 44) : exec (.gutterEvent d code payload) s = .next (s.raise d code payload) := by
  simp only [exec, execGutterEvent, hcode, if_true, Nat.mod_eq_of_lt hpayload]

theorem gutterDrain_of_running (h : s.gut.frozenAt = none) : exec (.gutterDrain d) s = .next (s.drain d) := by
  simp only [exec, execGutterDrain, h, Option.isSome_none, Bool.false_eq_true, if_false]

/-- The newest record of a slice's ring. -/
def newest (s : State) (d : Nat) : GRec := Sparse.get .blank (s.slice d).ring (lastSlot (s.get F.GUT_HEAD_RAM_NEXT d))

theorem drain_of_fold {r : GRec} {rest : List GRec} (hfirst : (s.slice d).intake = r :: rest)
    (hfolds : (s.slice d).folds (newest s d) r = true) (hroom : (newest s d).rep + 1 < 255) :
    s.drain d = (s.setSlice d { s.slice d with
      intake := rest
      ring := Sparse.put .blank (s.slice d).ring (lastSlot (s.get F.GUT_HEAD_RAM_NEXT d))
        { newest s d with rep := (newest s d).rep + 1 } }).bump F.GUT_SUPPRESS_FOLDED 1 d := by
  unfold newest at hfolds hroom ⊢
  simp only [State.drain, hfirst, hfolds, if_true, hroom.ne, if_false]

theorem drain_of_new {r : GRec} {rest : List GRec} (hfirst : (s.slice d).intake = r :: rest)
    (hfolds : (s.slice d).folds (newest s d) r = false) :
    let n := s.get F.GUT_HEAD_RAM_NEXT d
    let t := (s.setSlice d { s.slice d with intake := rest }).closeWindow d
    s.drain d = ((t.setSlice d { t.slice d with ring := Sparse.put .blank (t.slice d).ring n r, win := true }).set
      F.GUT_HEAD_RAM_NEXT ((n + 1) % 16384) d).bumpWrap F.GUT_HEAD_WRITTEN 1 d := by
  unfold newest at hfolds
  simp only [State.drain, hfirst, hfolds, Bool.false_eq_true, if_false]

theorem foldWindowClose_of_open (h : (s.slice d).win = true) :
    exec (.foldWindowClose d) s = .next ((s.advanceTo ((newest s d).time + 1000000000)).closeWindow d) :=
  congrArg Host.Outcome.next (if_pos h)

theorem dropReport_of_due {t : Nat} (h : (s.slice d).dropAt = some t) :
    exec (.dropReport d) s = .next (if (s.slice d).drops = [] then
      (s.advanceTo (t + 1000000000)).setSlice d { s.slice d with dropAt := none }
      else (s.advanceTo (t + 1000000000)).dropReport d) := by
  simp only [exec, execDropReport, h]

/-! ### Pages and sectors of the NV ring -/

theorem nvPlace_nvQueue (g : Gut) (l : List GRec) : (nvPlace g l).nvQueue = g.nvQueue := by
  induction l generalizing g with
  | nil => rfl
  | cons r l ih => exact ih _

theorem skipPage_nvQueue (g : Gut) : g.skipPage.nvQueue = g.nvQueue := by
  unfold Gut.skipPage
  dsimp only
  split <;> rfl

/-- What a page program leaves: the page is placed, the flash busy, and the registers show both pointers. -/
def pageDone (s : State) (g : Gut) (failed : Bool) : State :=
  let t := ({ s with gut := g } : State).flashBusy .page
  let t := if failed then t.set F.GUT_STATUS_NV_ERROR 1 else t
  (t.set F.GUT_NV_NV_NEXT (g.nvAbs % 131072)).set F.GUT_NV_QUEUED g.nvQueue.length

section
variable {w x y z : GRec × Nat} {rest : List (GRec × Nat)} (hqueue : s.gut.nvQueue = w :: x :: y :: z :: rest)
  (hready : s.nvReady = true) (herased : s.gut.nvAbs < s.gut.nvOld + 131072)
include hqueue hready herased

/-- A page of four records is placed at the write pointer, or at the next page when its verify fails there. -/
theorem nvPageProgram_of_four {firstOk secondOk : Bool} (hok : firstOk = true ∨ secondOk = true) :
    exec (.nvPageProgram firstOk secondOk) s = .next (pageDone s
      (nvPlace (if firstOk then { s.gut with nvQueue := rest } else Gut.skipPage { s.gut with nvQueue := rest })
        [w.1, x.1, y.1, z.1]) (!firstOk)) := by
  have hstands : s.gut.erased s.gut.nvAbs = true := decide_eq_true herased
  have hfour : ¬ rest.length + 1 + 1 + 1 + 1 < 4 := by omega
  simp only [exec, execNvPageProgram, hqueue, hready, hstands, List.length_cons, hfour, Bool.true_eq_false, or_self,
    if_false, List.take_succ_cons, List.take_zero, List.map_cons, List.map_nil, List.drop_succ_cons, List.drop_zero,
    List.length_nil, Nat.zero_add, Nat.reduceAdd, Nat.sub_self, List.replicate_zero, List.append_nil, pageDone]
  cases firstOk with
  | true => simp only [if_true, Bool.not_true, Bool.false_eq_true, if_false]
  | false => simp only [hok.resolve_left Bool.false_ne_true, if_true, Bool.not_false, Bool.false_eq_true, if_false]

end

theorem sectorErase_of_full (hwrites : s.nvInhibit = false) (hfrozen : s.gut.frozenAt = none) (hidle : s.sec.job = none)
    (hfull : s.gut.nvAbs % 1024 = 0) :
    exec .sectorErase s = .next (({ s with gut := s.gut.eraseSector s.gut.nvAbs } : State).flashBusy .erase) := by
  simp only [exec, execSectorErase, hwrites, hfrozen, hidle, hfull, Option.isSome_none, bne_self_eq_false, Bool.or_self,
    Bool.false_eq_true, if_false]

/-! ### The freeze, OPSEC, and what reads the rings -/

theorem freezeTimeout_of_frozen {t : Nat} (h : s.gut.frozenAt = some t) :
    exec .freezeTimeout s = .next ((s.advanceTo (t + 10000000000)).thaw) := by
  simp only [exec, execFreezeTimeout, h]

theorem gutFreeze_of_frozen (hacc : Accepted 0x0700 q seq c s) (h : s.gut.frozenAt.isSome = true) :
    exec (.gutFreeze q seq) s = .next (s.succeed c 0) :=
  congrArg Host.Outcome.next ((runCmd_of_accepted hacc _).trans (if_pos h))

theorem gutFreeze_of_running (hacc : Accepted 0x0700 q seq c s) (h : s.gut.frozenAt = none) :
    exec (.gutFreeze q seq) s = .next (((List.range 8).foldl (fun s d => s.wr .gutHeld d 0 0#64)
      (({ s with gut := { s.gut with frozenAt := some s.now } } : State).set F.GUT_CTRL_FROZEN 1)).succeed c 0) :=
  congrArg Host.Outcome.next ((runCmd_of_accepted hacc _).trans (if_neg (by rw [h]; exact Bool.false_ne_true)))

theorem gutThaw_of_frozen (hacc : Accepted 0x0701 q seq c s) (h : s.gut.frozenAt.isSome = true) :
    exec (.gutThaw q seq) s = .next (s.thaw.succeed c s.heldTotal) :=
  congrArg Host.Outcome.next ((runCmd_of_accepted hacc _).trans (if_pos h))

/-- An output is written where it is memory and nothing protects it. -/
theorem putOutput_of_free {a : Nat} {bs : List Byte} (hmem : s.memRange a bs.length = true)
    (hfree : s.writeStop (.command c.q) c.wadding a bs.length = none) (k : State → State) :
    s.putOutput c a bs k = k ((s.noteWriter (.command c.q) a bs.length).writeMem a bs) := by
  rw [State.putOutput, needMem_of_range hmem, hfree]

theorem putOutput_of_locked {a : Nat} {bs : List Byte} (hmem : s.memRange a bs.length = true)
    (hlock : s.writeStop (.command c.q) c.wadding a bs.length = some .locked) (k : State → State) :
    s.putOutput c a bs k = s.fail c stLocked 0 := by
  rw [State.putOutput, needMem_of_range hmem, hlock]

theorem gutCopy_of_die (hacc : Accepted 0x0702 q seq c s) (hdie : c.par 16 1 < 8) (haligned : c.par 24 8 % 64 = 0)
    (hlocal : c.par 24 8 < 2 ^ 43) :
    let recs := s.ramNewest (c.par 16 1) (c.par 32 4)
    exec (.gutCopy q seq) s = .next (s.putOutput c (c.par 24 8) (recs.map GRec.bytes).flatten
      (fun s => s.succeed c recs.length)) := by
  have hring : ¬ (8 ≤ c.par 16 1 ∧ c.par 16 1 ≠ 0xFF) := by omega
  have hram : c.par 16 1 ≠ 0xFF := by omega
  refine congrArg Host.Outcome.next ((runCmd_of_accepted hacc _).trans ?_)
  simp only [hring, hram, if_false]
  exact needA_of_aligned haligned hlocal _

theorem gutFilter_of_sound (hacc : Accepted 0x0703 q seq c s) (haligned : c.par 16 8 % 64 = 0)
    (hlocal : c.par 16 8 < 2 ^ 43) (hmem : s.memRange (c.par 16 8) 2048 = true)
    (hok : filterOk (filterEntries (s.readMem .engine (c.par 16 8) 2048).bytes) = true) :
    let r := s.readMem .engine (c.par 16 8) 2048
    exec (.gutFilter q seq) s = .next (({ r.st with gut := { r.st.gut with
      filter := ((List.range 256).zip (filterEntries r.bytes)).filter (fun p => p.2 ≠ 0)
      slices := r.st.gut.slices.map (fun p => (p.1, { p.2 with deficit := [] })) } } : State).succeed c 0) := by
  refine congrArg Host.Outcome.next ((runCmd_of_accepted hacc _).trans ?_)
  simp only [needA_of_aligned haligned hlocal, needMem_of_range hmem, hok, if_true]

theorem gutRead_of_up (hup : s.soffitUp = true) {a n : Nat} (hlow : 1 ≤ n) (hhigh : n ≤ 1024) :
    exec (.gutRead true a n) s = .next (s.send (.soffit 0 (leBytes 4 (s.gut.nvOld % 131072) ++
      leBytes 4 (s.gut.nvAbs % 131072) ++ (((List.range n).map (fun i => Sparse.get .blank s.gut.nvRing ((a + i) %
        131072))).map GRec.bytes).flatten))) := by
  have hcount : ¬ (n = 0 ∨ 1024 < n) := by omega
  simp only [exec, execGutRead, hup, Bool.true_eq_false, or_self, if_false, hcount]

end

/-- Settles O31: each row is taken where its guard holds. -/
theorem gutterRuns : Obligations.GutterRuns := by
  unfold Obligations.GutterRuns
  refine ⟨?event, ?drain, ?window, ?report, ?page, ?sector, ?timeout, ?opsec, ?freeze, ?thaw, ?copy, ?filter, ?read⟩
  case event => exact fun d code payload s hcode hpayload => gutterEvent_of_listed hcode hpayload
  case drain =>
    intro d r rest s hrun hfirst n last
    exact ⟨fun hfolds hroom => (gutterDrain_of_running hrun).trans (congrArg _ (drain_of_fold hfirst hfolds hroom)),
      fun hfolds => (gutterDrain_of_running hrun).trans (congrArg _ (drain_of_new hfirst hfolds))⟩
  case window => exact fun d s hopen => foldWindowClose_of_open hopen
  case report =>
    intro d t s hdue
    have hreport := dropReport_of_due hdue
    exact ⟨fun hnone => hreport.trans (congrArg _ (if_pos hnone)), fun hsome => hreport.trans (congrArg _ (if_neg hsome))⟩
  case page =>
    intro a b c d rest second s hqueue hready herased page g1 g2
    have hfirst := nvPageProgram_of_four (secondOk := second) hqueue hready herased (.inl rfl)
    have hsecond := nvPageProgram_of_four (firstOk := false) hqueue hready herased (.inr rfl)
    rw [pageDone, nvPlace_nvQueue] at hfirst hsecond
    rw [if_neg Bool.false_ne_true, skipPage_nvQueue] at hsecond
    exact ⟨hfirst, hsecond⟩
  case sector => exact fun s hwrites hfrozen hidle hfull => sectorErase_of_full hwrites hfrozen hidle hfull
  case timeout => exact fun t s hfrozen => freezeTimeout_of_frozen hfrozen
  case opsec => exact fun s => rfl
  case freeze =>
    exact fun q seq c s hacc => ⟨gutFreeze_of_frozen hacc, gutFreeze_of_running hacc⟩
  case thaw => exact fun q seq c s hacc hfrozen => gutThaw_of_frozen hacc hfrozen
  case copy =>
    intro q seq c s hacc hdie haligned hlocal recs bs hmem hfree
    exact (gutCopy_of_die hacc hdie haligned hlocal).trans (congrArg _ (putOutput_of_free hmem hfree _))
  case filter =>
    exact fun q seq c s hacc haligned hlocal hmem hok => gutFilter_of_sound hacc haligned hlocal hmem hok
  case read => exact fun a n s hup hlow hhigh => gutRead_of_up hup hlow hhigh

end Sys2Proof.Proofs

/-! ## Power control (R372, R373, R375, R377, R382, R388) -/

namespace Sys2Proof.Proofs
open Sys2Proof.Machine Sys2Proof.Laws Sys2Proof.Safety

/-- What the step for one member of a list sets up, and no other step breaks, holds after the walk through the list. -/
theorem foldl_of_mem {α σ : Type} {f : σ → α → σ} {P : σ → Prop} {a : α} {l : List α} (hmem : a ∈ l)
    (hset : ∀ u, P (f u a)) (hkeep : ∀ u, ∀ b ∈ l, b ≠ a → P u → P (f u b)) (s : σ) : P (l.foldl f s) := by
  have hstep (u : σ) (b : α) (hb : b ∈ l) (hu : P u) : P (f u b) := by
    by_cases hba : b = a
    · exact hba ▸ hset u
    · exact hkeep u b hb hba hu
  obtain ⟨l₁, l₂, rfl⟩ := List.append_of_mem hmem
  rw [List.foldl_append, List.foldl_cons]
  exact List.foldlRecOn (motive := P) l₂ f (hset _) fun u hu b hb =>
    hstep u b (List.mem_append_right _ (List.mem_cons_of_mem _ hb)) hu

/-- Pairs of a list of different keys with another list agree when their keys do. -/
theorem eq_of_mem_zip {α β : Type} {ks : List α} {l : List β} {a b : α × β} (hks : ks.Nodup) (ha : a ∈ ks.zip l)
    (hb : b ∈ ks.zip l) (hkey : b.1 = a.1) : b = a := by
  obtain ⟨i, hi⟩ := List.mem_iff_getElem?.1 ha
  obtain ⟨j, hj⟩ := List.mem_iff_getElem?.1 hb
  rw [List.getElem?_zip_eq_some] at hi hj
  obtain ⟨hki, hli⟩ := hi
  obtain ⟨hkj, hlj⟩ := hj
  have hij : j = i := by
    obtain ⟨hjlt, hjeq⟩ := List.getElem?_eq_some_iff.1 hkj
    obtain ⟨hilt, hieq⟩ := List.getElem?_eq_some_iff.1 hki
    exact (hks.getElem_inj_iff).1 (hjeq.trans (hkey.trans hieq.symm))
  subst hij
  exact Prod.ext hkey (Option.some.inj (hlj.symm.trans hli))

section
variable {s u : State} {d : Fin 8} {q : Fin 16384} {seq : Nat} {c : Cmd}

/-! ### A die's controller -/

theorem dp_setDp (s : State) (d j : Nat) (x : DiePwr) : (s.setDp d x).dp j = if j = d then x else s.dp j :=
  get_put DiePwr.init s.pwr.dies d j x

theorem ledBump_pwr (s : State) (f : LFld) (n : Nat) : (s.ledBump f n).pwr = s.pwr := by
  unfold State.ledBump
  split <;> rfl

theorem settleThrottle_dies (s : State) : s.settleThrottle.pwr.dies = s.pwr.dies := by
  unfold State.settleThrottle
  dsimp only
  split
  · rw [ledBump_pwr]
  · rfl

theorem settleThrottle_dp (s : State) (j : Nat) : s.settleThrottle.dp j = s.dp j := by
  rw [State.dp, State.dp, settleThrottle_dies]

theorem OnlyRecords.dp (h : OnlyRecords s u) (j : Nat) : u.dp j = s.dp j := by
  obtain ⟨_, _, rfl⟩ := h
  rfl

theorem advanceTo_dp (s : State) (t j : Nat) : (s.advanceTo t).dp j = s.dp j := by
  rw [State.dp, State.dp, advanceTo_pwr]

/-! ### Steps of the requests -/

theorem capStep_of_lowered {duty t : Nat} (h : (s.dp d).dutySince = some t) :
    let u := s.advanceTo (t + 100000)
    let x := s.dp d
    let m := max x.capDuty (min 16 duty)
    exec (.capStep d duty) s = .next (((u.setDp d { x with
      capReq := min 15 (x.capReq + 1), capDuty := m, dutySince := if m = 16 then none else some u.now
      memDuty := if m = 4 ∧ 15 ≤ x.capReq + 1 then x.memDuty else 16 }).set F.PWR_STATUS_CAP_THROTTLE 1 d).refreshPwr d) := by
  simp only [exec, execCapStep, h]

theorem capRelax_of_below {t : Nat} (h : (s.dp d).belowSince = some t) :
    let u := s.advanceTo (t + 1000000)
    exec (.capRelax d) s = .next (u.updDp d (fun x =>
      { x with capReq := x.capReq - 1, belowSince := some u.now, memDuty := 16 })) := by
  simp only [exec, execCapRelax, h]

/-- What 100 µs at the throttle temperature ask of a die, the time being `now`. -/
def hotter (now : Nat) (x : DiePwr) : DiePwr :=
  if x.thermReq < 15 then { x with thermReq := x.thermReq + 1, hotSince := some now }
  else { x with thermCut := min 6 (x.thermCut + 1), hotSince := some now }

theorem thermalStep_of_hot {t : Nat} (h : (s.dp d).hotSince = some t) :
    let u := s.advanceTo (t + 100000)
    let v := if (s.dp d).thermReq = 0 ∧ (s.dp d).thermCut = 0 then
      (u.set F.PWR_STATUS_THERM_THROTTLE 1 d).raise d 0x0803 (plAt 16 (u.get F.PWR_TEMP_TJ_MAX d)) else u
    exec (.thermalStep d) s = .next (v.updDp d (hotter v.now)) := by
  simp only [exec, execThermalStep, h]
  rfl

/-- The first step for temperature raises the request from 0 to 1. -/
theorem hotter_of_cool {x : DiePwr} (hreq : x.thermReq = 0) (hcut : x.thermCut = 0) (now : Nat) :
    (hotter now x).thermReq = 1 ∧ (hotter now x).thermCut = 0 := by
  simp only [hotter, hreq, Nat.zero_lt_succ, if_true, hcut, and_self]

theorem thermalRelax_of_cool {t : Nat} (h : (s.dp d).coolSince = some t) :
    let u := s.advanceTo (t + 1000000)
    exec (.thermalRelax d) s = .next (u.updDp d (fun x =>
      if 0 < x.thermCut then { x with thermCut := x.thermCut - 1, coolSince := some u.now }
      else { x with thermReq := x.thermReq - 1, coolSince := some u.now })) := by
  simp only [exec, execThermalRelax, h]

/-! ### Temperature samples -/

/-- The sample shows its largest reading: the peak follows, and a warning is raised where the reading reaches its limit. -/
def shown (v : State) (d : Nat) (hot : Int) : State :=
  let w := v.set F.PWR_TEMP_TJ_MAX (field12 hot) d
  let w := if signed12 (w.get F.PWR_TEMP_TJ_PEAK d) < hot then w.set F.PWR_TEMP_TJ_PEAK (field12 hot) d else w
  if signed12 (v.get F.PWR_TEMP_TJ_MAX d) < 4 * (v.get F.PWR_CTRL_WARN_C d : Nat) ∧
      4 * (v.get F.PWR_CTRL_WARN_C d : Nat) ≤ hot then
    (w.set F.PWR_STATUS_THERM_WARN 1 d).raise d 0x0802 (plAt 16 (field12 hot)) else w

/-- Since when a die is at its throttle temperature, and since when it is cool, after a sample. -/
def sampled (x : DiePwr) (hot limit : Int) (now : Nat) : DiePwr := { x with
  hotSince := if hot < limit then none else if x.hotSince.isSome then x.hotSince else some now
  coolSince := if limit - 12 ≤ hot then none else if x.coolSince.isSome then x.coolSince else some now }

theorem thermalSample_of_readings (t : Int) (ts : List Int) :
    let v := s.advanceTo ((s.now / 10000 + 1) * 10000)
    let hot := ts.foldl max t
    let w := shown v d hot
    exec (.thermalSample d (t :: ts)) s =
      .next (w.setDp d (sampled (w.dp d) hot (4 * (v.get F.PWR_CTRL_THROTTLE_C d : Nat)) w.now)) := rfl

theorem field12_lt (i : Int) : field12 i < 2 ^ 12 := by
  unfold field12
  omega

/-- What a sample shows, and what it leaves alone. -/
theorem shown_parts (v : State) (d : Nat) (hot : Int) : (shown v d hot).mem = v.mem ∧
    (shown v d hot).get F.PWR_TEMP_TJ_MAX d = field12 hot ∧ (shown v d hot).dp d = v.dp d ∧ (shown v d hot).now = v.now := by
  unfold shown
  extract_lets w w'
  have hmax : w.get F.PWR_TEMP_TJ_MAX d = field12 hot := by
    rw [get_set_self _ _ _ _ _ (by decide)]
    exact Nat.mod_eq_of_lt (field12_lt hot)
  have hw : OnlyRecords v w := set_onlyRecords ..
  have hnow : w.now = v.now := get_set_of_reg _ _ _ _ _ _ _ _ (by decide)
  obtain ⟨hrec', hmax', hnow'⟩ : OnlyRecords v w' ∧ w'.get F.PWR_TEMP_TJ_MAX d = field12 hot ∧ w'.now = v.now := by
    unfold w'
    split
    · exact ⟨hw.trans (set_onlyRecords ..), (get_set_of_apart (by decide) (by decide) ..).trans hmax,
        (get_set_of_reg _ _ _ _ _ _ _ _ (by decide)).trans hnow⟩
    · exact ⟨hw, hmax, hnow⟩
  split
  · have hevent := raise_onlyRecords (w'.set F.PWR_STATUS_THERM_WARN 1 d) d 0x0802 (plAt 16 (field12 hot))
    have hregs := (set_onlyRegs (rs := .pwrStatus :: gutRegs) (f := F.PWR_STATUS_THERM_WARN) (by decide) w' 1 d 0).trans
      (raise_onlyRegs (by decide) _ d 0x0802 (plAt 16 (field12 hot)))
    have hall := hrec'.trans ((set_onlyRecords ..).trans hevent)
    exact ⟨hall.mem, (hregs.get _ (by decide) d 0).trans hmax', hall.dp d, (hregs.get _ (by decide) 0 0).trans hnow'⟩
  · exact ⟨hrec'.mem, hmax', hrec'.dp d, hnow'⟩

theorem sampled_hotSince (x : DiePwr) {hot limit : Int} (now : Nat) (h : limit ≤ hot) :
    (sampled x hot limit now).hotSince = some (x.hotSince.getD now) := by
  simp only [sampled, if_neg (Int.not_lt.2 h)]
  cases x.hotSince <;> rfl

/-! ### Budgets -/

/-- A budget reaches its die and no other. -/
theorem giveBudget_dp (s : State) (d j : Nat) (b : DieBudget) :
    (j = d → ((s.giveBudget d b).dp j).budget = b.watts ∧ ((s.giveBudget d b).dp j).capDuty = max 4 (min 16 b.matrix)) ∧
    (j ≠ d → (s.giveBudget d b).dp j = s.dp j) := by
  unfold State.giveBudget
  extract_lets x mm mem y t
  have hdp : (if mm < x.capDuty ∨ mem < x.memDuty then t.set F.PWR_STATUS_CAP_THROTTLE 1 d else t).dp j =
      if j = d then y else s.dp j := by
    rw [← dp_setDp s d j y]
    split <;> rfl
  rw [hdp]
  exact ⟨fun hj => by rw [if_pos hj]; exact ⟨rfl, rfl⟩, fun hj => if_neg hj⟩

theorem mem_zip_range {α : Type} {n i : Nat} {l : List α} {x : α} (hi : i < n) (h : l[i]? = some x) :
    (i, x) ∈ (List.range n).zip l := by
  rw [List.mem_iff_getElem?]
  exact ⟨i, List.getElem?_zip_eq_some.2 ⟨List.getElem?_range hi, h⟩⟩

theorem giveBudgets_dp (s : State) {b : List DieBudget} {j : Nat} (hj : j < 8) {x : DieBudget} (h : b[j]? = some x) :
    let u := ((List.range 8).zip b).foldl (fun s p => s.giveBudget p.1 p.2) s
    (u.dp j).budget = x.watts ∧ (u.dp j).capDuty = max 4 (min 16 x.matrix) := by
  have hmem := mem_zip_range hj h
  refine foldl_of_mem (f := fun s (p : Nat × DieBudget) => s.giveBudget p.1 p.2)
    (P := fun u => (u.dp j).budget = x.watts ∧ (u.dp j).capDuty = max 4 (min 16 x.matrix)) hmem
    (fun u => (giveBudget_dp u j j x).1 rfl) (fun u p hp hne hu => ?_) s
  have hkey : j ≠ p.1 := fun heq => hne (eq_of_mem_zip List.nodup_range hmem hp heq.symm)
  rw [(giveBudget_dp u p.1 j p.2).2 hkey]
  exact hu

/-! ### The cap -/

theorem powerCap_of_legal (hacc : Accepted 0x0601 q seq c s) (hok : capOk (c.par 16 2) = true) :
    exec (.powerCap q seq) s = .next ((if c.par 18 1 = 1 then
      (s.setCap (c.par 16 2)).commitFields (leBytes 2 (c.par 16 2) ++ (s.setCap (c.par 16 2)).sec.fields.drop 2)
      else s.setCap (c.par 16 2)).succeed c (c.par 16 2)) := by
  refine congrArg Host.Outcome.next ((runCmd_of_accepted hacc _).trans ?_)
  simp only [hok, Bool.true_eq_false, if_false]

theorem powerCap_of_illegal (hacc : Accepted 0x0601 q seq c s) (hbad : capOk (c.par 16 2) = false) :
    exec (.powerCap q seq) s = .next (s.fail c stBadParam 16) :=
  congrArg Host.Outcome.next ((runCmd_of_accepted hacc _).trans (if_pos hbad))

/-! ### The refit of the coefficients -/

/-- The coefficients that the fit gives. -/
abbrev fitted : List Nat := [0, 1, 2, 3, 4, 5, 6, 7, 8, 9, 15]

theorem fitted_getElem? : ∀ i : Fin 11, fitted[i.val]? = some (if i = 10 then 15 else i.val) := by decide

/-- A fitted coefficient waits on every die; a negative or missing one counts as 0. -/
def refitOne (s : State) (p : Nat × F32) : State :=
  let v : F32 := if (dec32 p.2).neg || (dec32 p.2).nonfinite then 0#32 else p.2
  (List.range 8).foldl (fun s d => s.writeCoef d p.1 (v.setWidth 64)) s

/-- The coefficients of a fit wait for the next batten. -/
def refitted (s : State) (coef : List F32) : State :=
  let t := (fitted.zip (coef ++ List.replicate 11 0#32)).foldl refitOne s
  { t with pwr := { t.pwr with refit := 0 } }

theorem energyRefit_of_due {coef : List F32} (hon : s.bit F.PWR_CTRL_REFIT_EN = true) (hdue : 1000 ≤ s.pwr.refit)
    (hslot : s.frame.slot = 4) : exec (.energyRefit coef) s = .next (refitted s coef) :=
  congrArg Host.Outcome.next (if_pos (by simp [hon, hdue, hslot]))

theorem refitOne_mem (s : State) (p : Nat × F32) : (refitOne s p).mem = s.mem :=
  List.foldlRecOn (motive := fun u : State => u.mem = s.mem) _ _ rfl fun _ hu _ _ => hu

theorem refitted_mem (s : State) (coef : List F32) : (refitted s coef).mem = s.mem :=
  List.foldlRecOn (motive := fun u : State => u.mem = s.mem) (fitted.zip (coef ++ List.replicate 11 0#32)) refitOne rfl
    fun u hu p _ => (refitOne_mem u p).trans hu

theorem writeCoef_coefPend (s : State) (d k j : Nat) (v : F32) :
    Sparse.get none (s.writeCoef d k (v.setWidth 64)).pwr.coefPend j =
      if j = 16 * d + k then some (v.setWidth 64) else Sparse.get none s.pwr.coefPend j := by
  have hword : BitVec.ofNat 64 (fget 0 32 (v.setWidth 64)) = v.setWidth 64 := by
    apply BitVec.eq_of_toNat_eq
    simp only [fget, BitVec.toNat_ofNat, BitVec.toNat_setWidth]
    omega
  rw [State.writeCoef, hword]
  exact get_put none s.pwr.coefPend (16 * d + k) j (some (v.setWidth 64))

theorem refitOne_coefPend (s : State) {d k : Nat} (hd : d < 8) {v : F32} (hneg : (dec32 v).neg = false)
    (hfinite : (dec32 v).nonfinite = false) :
    Sparse.get none (refitOne s (k, v)).pwr.coefPend (16 * d + k) = some (v.setWidth 64) := by
  unfold refitOne
  simp only [hneg, hfinite, Bool.or_self, Bool.false_eq_true, if_false]
  refine foldl_of_mem (P := fun u : State => Sparse.get none u.pwr.coefPend (16 * d + k) = some (v.setWidth 64))
    (List.mem_range.2 hd) (fun u => ?_) (fun u j _ hne hu => ?_) s
  · rw [writeCoef_coefPend, if_pos rfl]
  · rw [writeCoef_coefPend, if_neg (by omega)]
    exact hu

/-- Another coefficient's fit leaves it alone. -/
theorem refitOne_coefPend_of_ne (s : State) {d k : Nat} {p : Nat × F32} (hk : k < 16) (hp : p.1 < 16) (hne : k ≠ p.1) :
    Sparse.get none (refitOne s p).pwr.coefPend (16 * d + k) = Sparse.get none s.pwr.coefPend (16 * d + k) := by
  unfold refitOne
  refine List.foldlRecOn (motive := fun u : State => Sparse.get none u.pwr.coefPend (16 * d + k) =
    Sparse.get none s.pwr.coefPend (16 * d + k)) _ _ rfl fun u hu j _ => ?_
  rw [writeCoef_coefPend, if_neg (by omega)]
  exact hu

theorem refitted_coefPend (s : State) {coef : List F32} {k i : Nat} (hk : fitted[i]? = some k) {v : F32}
    (hv : coef[i]? = some v) {d : Nat} (hd : d < 8) (hneg : (dec32 v).neg = false) (hfinite : (dec32 v).nonfinite = false) :
    Sparse.get none (refitted s coef).pwr.coefPend (16 * d + k) = some (v.setWidth 64) := by
  have hfitted : ∀ k ∈ fitted, k < 16 := by decide
  have hmem : (k, v) ∈ fitted.zip (coef ++ List.replicate 11 0#32) := by
    rw [List.mem_iff_getElem?]
    refine ⟨i, List.getElem?_zip_eq_some.2 ⟨hk, ?_⟩⟩
    rw [List.getElem?_append_left (List.getElem?_eq_some_iff.1 hv).1]
    exact hv
  have hall := foldl_of_mem (f := refitOne) (P := fun u : State => Sparse.get none u.pwr.coefPend (16 * d + k) =
    some (v.setWidth 64)) hmem (fun u => refitOne_coefPend u hd hneg hfinite) (fun u p hp hne hu => ?_) s
  · exact hall
  · have hkey : k ≠ p.1 := fun heq => hne (eq_of_mem_zip (by decide) hmem hp heq.symm)
    exact (refitOne_coefPend_of_ne u (hfitted k (List.of_mem_zip hmem).1) (hfitted p.1 (List.of_mem_zip hp).1) hkey).trans hu

end

/-- Settles O49: each row is taken where its time has begun to run, and budgets and coefficients reach each die apart. -/
theorem powerControlRuns : Obligations.PowerControlRuns := by
  unfold Obligations.PowerControlRuns
  refine ⟨?step, ?capStep, ?capRelax, ?thermalStep, ?thermalRelax, ?sample, ?budget, ?cap, ?refit⟩
  case step => exact fun d s => rfl
  case capStep => exact fun d duty t s h => capStep_of_lowered h
  case capRelax => exact fun d t s h => capRelax_of_below h
  case thermalStep =>
    intro d t s h u
    have hexec := thermalStep_of_hot h
    refine ⟨fun hreq _ => ?_, fun hreq hcut => ?_⟩
    · have hbegun : ¬ ((s.dp d).thermReq = 0 ∧ (s.dp d).thermCut = 0) := fun hboth => hreq hboth.1
      simp only [hbegun, if_false] at hexec
      exact hexec
    · simp only [hreq, hcut, and_self, if_true] at hexec
      intro v
      have hdp : v.dp d = s.dp d := ((set_onlyRecords ..).trans (raise_onlyRecords ..)).dp d |>.trans (advanceTo_dp s _ d)
      obtain ⟨hreq', hcut'⟩ := hotter_of_cool (x := v.dp d) (hdp ▸ hreq) (hdp ▸ hcut) v.now
      exact ⟨hotter v.now (v.dp d), hreq', hcut', hexec⟩
  case thermalRelax => exact fun d t s h => thermalRelax_of_cool h
  case sample =>
    intro d t ts s v hot
    obtain ⟨hmem, hmax, hdp, hnow⟩ := shown_parts v d hot
    refine ⟨_, thermalSample_of_readings t ts, hmem, hmax, ?_, ?_, ?_⟩
    · intro hbelow
      rw [dp_setDp, if_pos rfl]
      exact if_pos hbelow
    · intro hlimit
      rw [dp_setDp, if_pos rfl, sampled_hotSince _ _ hlimit, hdp, hnow]
    · intro hwarm
      rw [dp_setDp, if_pos rfl]
      exact if_pos hwarm
  case budget =>
    intro b s u
    refine ⟨rfl, fun d x hx => ?_⟩
    rw [settleThrottle_dp]
    exact giveBudgets_dp _ d.isLt hx
  case cap =>
    intro q seq c s hacc
    refine ⟨fun hok hplain => ?_, fun hok hcommit => ?_, powerCap_of_illegal hacc⟩
    · rw [powerCap_of_legal hacc hok, if_neg hplain]
    · rw [powerCap_of_legal hacc hok, if_pos hcommit]
  case refit =>
    intro coef s hon hdue hslot _
    refine ⟨refitted s coef, energyRefit_of_due hon hdue hslot, refitted_mem s coef, rfl, fun d i v hv hneg hfinite => ?_⟩
    exact refitted_coefPend s (fitted_getElem? i) hv d.isLt hneg hfinite

end Sys2Proof.Proofs

/-! ## Load hints, grants and droops (R378, R380, R381) -/

namespace Sys2Proof.Proofs
open Sys2Proof.Machine Sys2Proof.Laws Sys2Proof.Safety

section
variable {s : State} {d g : Fin 8} {q : Fin 16384} {seq : Nat} {c : Cmd} {h : Hint}

theorem loadHint_of_legal (hacc : Accepted 0x0600 q seq c s) (hlow : 1 ≤ c.par 24 1) (hhigh : c.par 24 1 ≤ 15)
    (hmask : c.par 25 1 ≠ 0) (hdur : c.par 26 2 ≠ 0) :
    let h : Hint := ⟨c.par 16 8, c.par 26 2 * 1000, c.par 24 1, 0⟩
    exec (.loadHint q seq) s = .next ((((List.range 8).filter (fun d => c.par 25 1 / 2 ^ d % 2 == 1)).foldl (fun s d =>
      s.takeHint h d) s).succeed c 0) := by
  have hcls : ¬ (c.par 24 1 = 0 ∨ 15 < c.par 24 1) := by omega
  refine congrArg Host.Outcome.next ((runCmd_of_accepted hacc _).trans ?_)
  simp only [hcls, hmask, hdur, if_false]

theorem hintLead_of_waiting (hhint : (s.dp d).hint = some h) (hphase : h.phase = 0) (hstart : h.start ≠ 0) :
    let u := s.advanceTo (h.start - s.policy d h.cls 3 1 * 1000)
    exec (.hintLead d) s =
      .next ((u.updDp d (fun x => { x with hint := some { h with phase := 1 } })).prepare d h.cls) := by
  simp only [exec, execHintLead, hhint]
  exact congrArg Host.Outcome.next (if_pos ⟨hphase, hstart⟩)

theorem hintStart_of_prepared (hhint : (s.dp d).hint = some h) (hphase : h.phase = 1) (hstart : h.start ≠ 0) :
    exec (.hintStart d) s =
      .next ((s.advanceTo h.start).updDp d (fun x => { x with hint := some { h with phase := 2 } })) := by
  simp only [exec, execHintStart, hhint, hphase, Nat.one_lt_ofNat, ne_eq, hstart, not_false_eq_true, and_self, if_true,
    Nat.one_ne_zero, if_false]

theorem hintExpiry_of_started (hhint : (s.dp d).hint = some h) (hphase : h.phase = 2) :
    exec (.hintExpiry d) s = .next ((s.advanceTo (h.start + h.dur)).updDp d (fun x => { x with hint := none })) := by
  simp only [exec, execHintExpiry, hhint, hphase, if_true]

theorem hintHoldEnd_of_held {t : Nat} (hheld : (s.dp d).holdUntil = some t) :
    exec (.hintHoldEnd d) s =
      .next ((s.advanceTo t).updDp d (fun x => { x with holdUntil := none, guard := 0, granted := false })) := by
  simp only [exec, execHintHoldEnd, hheld]

/-- What a grant makes of a die's controller: duties that fit the cap, never above those in force (R380). -/
def grantedAt (x : DiePwr) (matrix memory now : Nat) : DiePwr :=
  let mm := min x.capDuty (max 4 (min 16 matrix))
  { x with
    granted := true, capDuty := mm
    dutySince := if mm = 16 then none else if x.dutySince.isSome then x.dutySince else some now
    memDuty := if mm = 4 ∧ x.capReq = 15 then min x.memDuty (max 4 (min 16 memory)) else x.memDuty }

theorem grantedAt_duties (x : DiePwr) (matrix memory now : Nat) :
    (grantedAt x matrix memory now).capDuty ≤ x.capDuty ∧ (grantedAt x matrix memory now).memDuty ≤ x.memDuty := by
  refine ⟨Nat.min_le_left .., ?_⟩
  unfold grantedAt
  dsimp only
  split
  · exact Nat.min_le_left ..
  · exact Nat.le_refl _

theorem grantRequest_of_ungranted (h : (s.dp d).granted = false) (matrix memory : Nat) :
    exec (.grantRequest d matrix memory) s =
      .next (s.updDp d (fun _ => grantedAt (s.dp d) matrix memory s.now)) :=
  congrArg Host.Outcome.next (if_neg (by rw [h]; exact Bool.false_ne_true))

theorem droopDetect_of_steady (h : (s.dp d).droop / 2 ^ g.val % 2 = 0) :
    exec (.droopDetect d g) s =
      .next ((s.setDp d { s.dp d with droop := (s.dp d).droop ||| 2 ^ g.val }).bump F.PWR_DROOPCNT_DROOP_EVENTS 1 d) :=
  congrArg Host.Outcome.next (if_neg (by rw [h]; exact Nat.zero_ne_one))

theorem droopRecover_of_stretched (h : (s.dp d).droop / 2 ^ g.val % 2 = 1) (n : Nat) :
    exec (.droopRecover d g n) s =
      .next ((s.setDp d { s.dp d with droop := (s.dp d).droop ^^^ 2 ^ g.val }).bump F.PWR_DROOPCNT_STRETCHED n d) :=
  congrArg Host.Outcome.next (if_pos h)

end

/-- Settles O50: the phase of a hint, the grant and the bit of a group say whether a row has anything to do. -/
theorem hintsAndDroopRun : Obligations.HintsAndDroopRun := by
  unfold Obligations.HintsAndDroopRun
  refine ⟨?load, ?hint, ?hold, ?grant, ?droop⟩
  case load => exact fun q seq c s hacc hlow hhigh hmask hdur => loadHint_of_legal hacc hlow hhigh hmask hdur
  case hint =>
    exact fun d h s hhint => ⟨hintLead_of_waiting hhint, hintStart_of_prepared hhint, hintExpiry_of_started hhint⟩
  case hold => exact fun d t s hheld => hintHoldEnd_of_held hheld
  case grant =>
    intro d mm mem s hungranted
    obtain ⟨hcap, hmem⟩ := grantedAt_duties (s.dp d) mm mem s.now
    exact ⟨grantedAt (s.dp d) mm mem s.now, rfl, hcap, hmem, rfl, rfl, rfl, grantRequest_of_ungranted hungranted mm mem⟩
  case droop => exact fun d g n s => ⟨droopDetect_of_steady, fun h => droopRecover_of_stretched h n⟩

end Sys2Proof.Proofs

/-! ## The supply, the trip and the flash (R366, R370, R374, R376, R383 to R386, R397) -/

namespace Sys2Proof.Proofs
open Sys2Proof.Machine Sys2Proof.Laws

section
variable {s : State} {mv ma : Nat}

/-! ### Input samples -/

/-- The record of an input sample: its power, since when the voltage holds, and the lowest voltage of a sag. -/
def inputTaken (s : State) (mv ma : Nat) : State :=
  { s with pwr := { s.pwr with
      samples := (mv * ma / 1000000 :: s.pwr.samples).take 1000
      okSince := if mv < 42000 then none else if s.pwr.okSince.isSome then s.pwr.okSince else some s.now
      sag := s.pwr.sag.map (fun p => (p.1, p.2.1, min p.2.2 mv)) } }

/-- The registers of the input show a sample: voltage, mean power and their extremes. -/
def inputShown (s : State) (mv : Nat) (xs : List Nat) : State :=
  let s := (s.set F.PWR_SUPPLY_VIN_MV (min mv 65535)).set F.PWR_INPUT_P1MS_W (min 4095 (xs.sum / xs.length))
  let low := s.get F.PWR_SUPPLY_MIN_MV
  let s : State := if low = 0 ∨ mv < low then s.set F.PWR_SUPPLY_MIN_MV (min mv 65535) else s
  let p10 := min 4095 (sampleSum xs 10 / (min 10 xs.length))
  if s.get F.PWR_INPUT_P10US_PEAK_W < p10 then s.set F.PWR_INPUT_P10US_PEAK_W p10 else s

/-- A whole millisecond above the cap is noted with its excess. -/
def excessNoted (s : State) (xs : List Nat) : State :=
  if s.now % 1000000 = 0 ∧ xs.length = 1000 ∧ s.capNow * 1000 < xs.sum then
    let excess := xs.sum - s.capNow * 1000
    ((s.set F.PWR_STATUS_CAP_EXCESS 1).bump F.PWR_CNT_CAP_EXCESS_UJ excess).raise 0 0x0801 (plAt 16 excess)
  else s

theorem inputShown_onlyRecords (s : State) (mv : Nat) (xs : List Nat) : OnlyRecords s (inputShown s mv xs) := by
  unfold inputShown
  extract_lets s1 low s2 p10
  have h1 : OnlyRecords s s1 := (set_onlyRecords ..).trans (set_onlyRecords ..)
  have h2 : OnlyRecords s s2 := by
    unfold s2
    split
    · exact h1.trans (set_onlyRecords ..)
    · exact h1
  split
  · exact h2.trans (set_onlyRecords ..)
  · exact h2

/-- Showing a sample leaves the voltage on show. -/
theorem inputShown_vin (s : State) (mv : Nat) (xs : List Nat) :
    (inputShown s mv xs).get F.PWR_SUPPLY_VIN_MV = min mv 65535 := by
  unfold inputShown
  extract_lets s1 low s2 p10
  have h1 : s1.get F.PWR_SUPPLY_VIN_MV = min mv 65535 := by
    rw [get_set_of_apart (by decide) (by decide), get_set_self _ _ _ _ _ (by decide)]
    exact Nat.mod_eq_of_lt (show min mv 65535 < 2 ^ 16 by omega)
  have h2 : s2.get F.PWR_SUPPLY_VIN_MV = min mv 65535 := by
    unfold s2
    split
    · exact (get_set_of_apart (by decide) (by decide) ..).trans h1
    · exact h1
  split
  · exact (get_set_of_apart (by decide) (by decide) ..).trans h2
  · exact h2

theorem excessNoted_onlyRecords (s : State) (xs : List Nat) : OnlyRecords s (excessNoted s xs) := by
  unfold excessNoted
  dsimp only
  split
  · exact (set_onlyRecords ..).trans ((bump_onlyRecords ..).trans (raise_onlyRecords ..))
  · exact .refl s

theorem excessNoted_vin (s : State) (xs : List Nat) :
    (excessNoted s xs).get F.PWR_SUPPLY_VIN_MV = s.get F.PWR_SUPPLY_VIN_MV := by
  unfold excessNoted
  dsimp only
  split
  · rw [(raise_onlyRegs (rs := gutRegs) (List.Subset.refl _) _ 0 0x0801 _).get _ (by decide)]
    exact (get_set_of_apart (by decide) (by decide) ..).trans (get_set_of_apart (by decide) (by decide) ..)
  · rfl

theorem OnlyRecords.pwr {u : State} (h : OnlyRecords s u) : u.pwr = s.pwr := by
  obtain ⟨_, _, rfl⟩ := h
  rfl

/-- The time of the next input sample, at the next whole microsecond. -/
def atSample (s : State) : State := s.advanceTo ((s.now / 1000 + 1) * 1000)

theorem inputSample_eq (mv ma : Nat) (s : State) :
    let t := inputTaken (atSample s) mv ma
    exec (.inputSample mv ma) s = .next (excessNoted (inputShown t mv t.pwr.samples) t.pwr.samples) := rfl

/-! ### Sags, collapse, overvoltage and trip -/

theorem sagBegin_of_low (hlow : mv < 41000) (hnone : s.pwr.sag = none) :
    let t : State := { s with pwr := { s.pwr with sag := some (s.now, s.get F.GUT_TIME_OPSEC, mv), okSince := none } }
    let u := ((t.set F.PWR_SUPPLY_SAG 1).set F.PWR_SUPPLY_NV_INHIBIT 1).set F.PWR_SUPPLY_VIN_MV mv
    exec (.sagBegin mv) s = .next ((((u.set F.PWR_STATUS_SAG 1).bump F.PWR_CNT_SAG_EPISODES 1).refreshAll).raise 0 0x0804
      (plAt 16 mv)) := by
  simp only [exec, execSagBegin, hnone, Option.isSome_none, Nat.not_le.2 hlow, Bool.false_eq_true, or_self, if_false]

theorem sagEnd_of_steady {b o low ok : Nat} (hsag : s.pwr.sag = some (b, o, low)) (hok : s.pwr.okSince = some ok) :
    let t := s.advanceTo (ok + 10000000)
    let u : State := { t with pwr := { t.pwr with sag := none } }
    let v := ((u.set F.PWR_SUPPLY_SAG 0).set F.PWR_SUPPLY_NV_INHIBIT 0).refreshAll
    exec .sagEnd s = .next ((v.raise 0 0x0805 (plAt 16 o + plAt 20 (b % 2 ^ 32) +
      plAt 24 ((v.now - b) / 1000 % 2 ^ 32) + plAt 28 low)).flashStart) := by
  simp only [exec, execSagEnd, hsag, hok]

theorem supplyCollapse_of_low (hlow : mv < 38000) (hon : s.start.stage ≠ 11) :
    exec (.supplyCollapse mv) s = .next (if s.sec.job.isSome && s.sec.job != some .erase then
      { s with pwr := { s.pwr with stopped := true }, start := { s.start with request := some 2 } }
      else s.powerOnReset 2 0) := by
  simp only [exec, execSupplyCollapse, Nat.not_le.2 hlow, hon, or_self, if_false]

theorem overvoltage_of_high (hhigh : 62000 < mv) (hon : s.start.stage ≠ 11) :
    exec (.overvoltage mv) s =
      .next { s.powerOnReset 1 11 with pwr := { (s.powerOnReset 1 11).pwr with off := true } } := by
  simp only [exec, execOvervoltage, Nat.not_le.2 hhigh, hon, or_self, if_false]

theorem overvoltageClear_of_low (hlow : mv < 60000) (hstage : s.start.stage = 11) (hoff : s.pwr.off = true)
    (htrip : s.start.trip = none) : exec (.overvoltageClear mv) s = .next (s.powerOnReset 1 0) := by
  simp only [exec, execOvervoltageClear, Nat.not_le.2 hlow, hstage, hoff, htrip, ne_eq, not_true_eq_false,
    Bool.true_eq_false, Option.isSome_none, Bool.false_eq_true, or_self, if_false]

theorem trip_of_hot {d : Fin 8} {temp : Nat} (hhot : 460 ≤ temp) (hon : s.start.stage ≠ 11) :
    let t := ({ s with start := { s.start with trip := some (d.val, temp) } } : State).powerOnReset 3 11
    exec (.trip d temp) s = .next { t with pwr := { t.pwr with off := true } } := by
  simp only [exec, execTrip, Nat.not_lt.2 hhot, hon, or_self, if_false]

/-! ### Flash pages -/

theorem flashPageDone_of_directory (hjob : s.sec.job = some .directory)
    (hnone : s.writeDirectory.jobDone.start.request = none) :
    exec .flashPageDone s = .next s.writeDirectory.jobDone := by
  simp only [exec, execFlashPageDone, hjob, hnone]

theorem flashPageDone_of_page (hjob : s.sec.job = some .page) (hnone : s.jobDone.start.request = none) :
    exec .flashPageDone s = .next s.jobDone := by
  simp only [exec, execFlashPageDone, hjob, hnone]

/-- The directory page with what is in use (R370). -/
def directoryWritten (s : State) : State := { s with sec := { s.sec with
  flash := { s.sec.flash with
    epoch := s.get F.JFL_EPOCH_EPOCH, pwrcyc := s.get F.GUT_TIME_PWRCYC
    active := if s.sec.confirm then s.get F.SEC_STATUS_BANK else s.sec.flash.active }
  confirm := false } }

theorem writeDirectory_eq (s : State) :
    s.writeDirectory = if s.sec.confirm then (directoryWritten s).confirmed else directoryWritten s := rfl

theorem extend_sec (s : State) (i : Nat) (v : List Byte) : (s.extend i v).sec = s.sec := rfl

theorem extend_onlyRegs (s : State) (i : Nat) (v : List Byte) : OnlyRegs [.secMeas] s (s.extend i v) :=
  foldl_onlyRegs _ (fun u w => wr_onlyRegs (by decide) u 0 (4 * i + w) _) s

theorem OnlyRecords.sec {u : State} (h : OnlyRecords s u) : u.sec = s.sec := by
  obtain ⟨_, _, rfl⟩ := h
  rfl

/-- The rollback counter follows the image that is in use. -/
def counterRaised (s : State) : State :=
  if s.sec.flash.counter < s.sec.svn then
    let s : State := { s with sec := { s.sec with flash := { s.sec.flash with counter := s.sec.svn } } }
    (s.set F.SEC_ROLLBACK_COUNTER s.sec.svn).extend 4 (leBytes 8 s.sec.svn)
  else s

theorem confirmed_eq (s : State) :
    let t := counterRaised (s.set F.SEC_STATUS_TRIAL 0)
    s.confirmed = t.raise 0 0x0105 (plAt 16 (t.get F.SEC_STATUS_BANK) + plAt 20 t.sec.svn) := rfl

theorem counterRaised_sec (s : State) : (counterRaised s).sec =
    { s.sec with flash := { s.sec.flash with counter := max s.sec.flash.counter s.sec.svn } } := by
  unfold counterRaised
  split
  next hlt =>
    rw [extend_sec, set_sec, max_eq_right hlt.le]
  next hge =>
    rw [max_eq_left (Nat.not_lt.1 hge)]

theorem counterRaised_onlyRegs (s : State) : OnlyRegs [.secRollback, .secMeas] s (counterRaised s) := by
  unfold counterRaised
  dsimp only
  split
  · have hset : OnlyRegs [.secRollback, .secMeas] s (({ s with sec := { s.sec with
        flash := { s.sec.flash with counter := s.sec.svn } } } : State).set F.SEC_ROLLBACK_COUNTER s.sec.svn) :=
      (set_onlyRegs (by decide) _ _ 0 0).before_eq rfl rfl
    exact hset.trans ((extend_onlyRegs ..).mono (by decide))
  · exact .refl _ s

/-- An image that is confirmed is on trial no longer, and the counter is raised to its SVN (R397). -/
theorem confirmed_parts (s : State) : s.confirmed.sec =
      { s.sec with flash := { s.sec.flash with counter := max s.sec.flash.counter s.sec.svn } } ∧
    s.confirmed.bit F.SEC_STATUS_TRIAL = false := by
  rw [confirmed_eq]
  refine ⟨(raise_onlyRecords ..).sec.trans (counterRaised_sec _), ?_⟩
  rw [(raise_onlyRegs (rs := gutRegs) (List.Subset.refl _) ..).bit (by decide), (counterRaised_onlyRegs _).bit (by decide)]
  rw [State.bit, get_set_self _ _ _ _ _ (by decide)]
  rfl

end

/-- Settles O51: the voltage and the state of the supply select the branch, and nothing after it hides what is shown. -/
theorem supplyRuns : Obligations.SupplyRuns := by
  unfold Obligations.SupplyRuns
  refine ⟨?sample, ?sag, ?sagEnd, ?collapse, ?overvoltage, ?trip, ?flash⟩
  case sample =>
    intro mv ma s
    have hshown := inputShown_onlyRecords (inputTaken (atSample s) mv ma) mv (inputTaken (atSample s) mv ma).pwr.samples
    have hall := hshown.trans (excessNoted_onlyRecords _ (inputTaken (atSample s) mv ma).pwr.samples)
    have hpwr : (atSample s).pwr = s.pwr := advanceTo_pwr ..
    refine ⟨_, inputSample_eq mv ma s, hall.mem.trans (advanceTo_mem ..), ?_, ?_⟩
    · rw [hall.pwr, inputTaken, hpwr]
    · rw [excessNoted_vin, inputShown_vin]
  case sag => exact fun mv s hlow hnone => sagBegin_of_low hlow hnone
  case sagEnd => exact fun b o low ok s hsag hok => sagEnd_of_steady hsag hok
  case collapse =>
    intro mv s hlow hon
    have hexec := supplyCollapse_of_low hlow hon
    refine ⟨fun hfree => hexec.trans (congrArg _ (if_neg ?_)), fun j hjob hprogram => hexec.trans (congrArg _ (if_pos ?_))⟩
    · rcases hfree with h | h <;> simp [h]
    · simp [hjob, hprogram]
  case overvoltage =>
    exact fun mv s => ⟨overvoltage_of_high, overvoltageClear_of_low⟩
  case trip => exact fun d temp s hhot hon => trip_of_hot hhot hon
  case flash =>
    intro s _
    refine ⟨fun hjob hnone => ?_, flashPageDone_of_page⟩
    obtain ⟨hsec, htrial⟩ := confirmed_parts (directoryWritten s)
    cases hconfirm : s.sec.confirm with
    | true =>
      have hdir : s.writeDirectory = (directoryWritten s).confirmed := (writeDirectory_eq s).trans (if_pos hconfirm)
      refine ⟨flashPageDone_of_directory hjob hnone, ?_⟩
      rw [hdir, hsec]
      exact ⟨rfl, rfl, rfl, if_pos hconfirm, fun _ => ⟨rfl, htrial⟩⟩
    | false =>
      have hdir : s.writeDirectory = directoryWritten s :=
        (writeDirectory_eq s).trans (if_neg (by rw [hconfirm]; exact Bool.false_ne_true))
      refine ⟨flashPageDone_of_directory hjob hnone, ?_⟩
      rw [hdir]
      exact ⟨rfl, rfl, rfl, if_neg (by rw [hconfirm]; exact Bool.false_ne_true), fun h => absurd h Bool.false_ne_true⟩

end Sys2Proof.Proofs

/-! ## Attestation, dormer mode and the settings window (R395, R400 to R405) -/

namespace Sys2Proof.Proofs
open Sys2Proof.Machine Sys2Proof.Laws Sys2Proof.Safety

section
variable {s : State} {q : Fin 16384} {seq : Nat} {c : Cmd}

theorem attest_of_range (hacc : Accepted 0x0800 q seq c s) (haligned : c.par 16 8 % 64 = 0) (hlocal : c.par 16 8 < 2 ^ 43)
    (houtAligned : c.par 24 8 % 64 = 0) (houtLocal : c.par 24 8 < 2 ^ 43) (hmem : s.memRange (c.par 16 8) 32 = true) :
    let cert := if c.par 32 1 % 2 = 1 then Config.certificate.take 2048 else []
    let r := s.readMem .engine (c.par 16 8) 32
    let rep := r.st.report r.bytes
    exec (.attest q seq) s = .next (r.st.putOutput c (c.par 24 8) (rep ++ padTo 64 (Config.sm2Sign rep) ++ cert)
      (fun s => s.succeed c (400 + cert.length))) := by
  refine congrArg Host.Outcome.next ((runCmd_of_accepted hacc _).trans ?_)
  exact (needA_of_aligned haligned hlocal _).trans ((needA_of_aligned houtAligned houtLocal _).trans (needMem_of_range hmem _))

theorem measurements_of_aligned (hacc : Accepted 0x0803 q seq c s) (haligned : c.par 16 8 % 64 = 0)
    (hlocal : c.par 16 8 < 2 ^ 43) :
    exec (.measurements q seq) s = .next (s.putOutput c (c.par 16 8) s.allMeas (fun s => s.succeed c 256)) :=
  congrArg Host.Outcome.next ((runCmd_of_accepted hacc _).trans (needA_of_aligned haligned hlocal _))

theorem dormerUnlock_of_range (hacc : Accepted 0x0801 q seq c s) (haligned : c.par 16 8 % 64 = 0)
    (hlocal : c.par 16 8 < 2 ^ 43) (hmem : s.memRange (c.par 16 8) 192 = true) :
    let r := s.readMem .engine (c.par 16 8) 192
    let p := r.st.draw
    let t := p.2.wr .secChallenge 0 0 p.1
    let dur := fieldLe r.bytes 24 4
    let u := (((t.extend 3 (Config.sm3 r.bytes)).set F.SEC_STATUS_DORMER 1).set F.SEC_DORMER_SCOPE (fieldLe r.bytes 28 1)).set
      F.SEC_DORMER_REMAINING_S dur
    let v : State := { u with sec := { u.sec with dormerEnd := some (u.now + dur * 1000000000), unlocked := true } }
    exec (.dormerUnlock q seq) s = .next (match r.st.tokenFails r.bytes with
      | some d => (t.set F.SEC_STATUS_UNLOCK_FAIL 1).fail c stDenied d
      | none => v.assess.succeed c 0) := by
  refine congrArg Host.Outcome.next ((runCmd_of_accepted hacc _).trans ?_)
  exact (needA_of_aligned haligned hlocal _).trans (needMem_of_range hmem _)

theorem dormerExpiry_of_open {t : Nat} (h : s.sec.dormerEnd = some t) :
    exec .dormerExpiry s = .next (s.advanceTo t).endDormer := by
  simp only [exec, execDormerExpiry, h]

/-- Dormer mode that has ended shows neither its bit nor a scope. -/
theorem endDormer_shows (s : State) :
    s.endDormer.bit F.SEC_STATUS_DORMER = false ∧ s.endDormer.get F.SEC_DORMER_SCOPE = 0 := by
  have hclosed : OnlyRegs [.secDormer] (s.set F.SEC_STATUS_DORMER 0) s.endDormer :=
    (wr_onlyRegs (by decide) (s.set F.SEC_STATUS_DORMER 0) 0 0 0#64).then_eq rfl rfl
  refine ⟨(hclosed.bit (by decide) 0 0).trans ?_, ?_⟩
  · exact congrArg (fun n => n == 1) (get_set_self s F.SEC_STATUS_DORMER 0 0 0 (by decide))
  · have hzero : s.endDormer.rd .secDormer 0 0 = 0#64 := rd_wr_self ..
    exact congrArg (fget F.SEC_DORMER_SCOPE.lo F.SEC_DORMER_SCOPE.wid) hzero

/-- Another settings block waits for the flash. -/
def moreCommits (s : State) : Nat :=
  if s.sec.jobs.any (fun j => match j with | .settings _ => true | _ => false) then 1 else 0

/-- The copy that a commit writes holds a block, and PENDING shows whether more wait. -/
def copyPut (s : State) (block : List Byte) : State :=
  ({ s with sec := { s.sec with
    flash := { s.sec.flash with copies := s.sec.flash.copies.set (1 - s.sec.copy) block } } } : State).set
    F.CFG_SETSTATUS_PENDING (moreCommits s)

theorem commitDone_of_verified {f : List Byte} (hjob : s.sec.job = some (.settings f)) :
    let n := s.get F.CFG_SETSTATUS_SEQUENCE + 1
    let t := ((copyPut s (settingsBlock 3 n f)).set F.CFG_SETSTATUS_VERSION 3).set F.CFG_SETSTATUS_SEQUENCE n
    exec (.commitDone true) s =
      .next ({ t with sec := { t.sec with fields := f, copy := 1 - s.sec.copy } } : State).jobDone := by
  simp only [exec, execCommitDone, hjob, if_true]
  rfl

theorem commitDone_of_failed {f : List Byte} (hjob : s.sec.job = some (.settings f)) :
    exec (.commitDone false) s = .next ((copyPut s []).set F.CFG_SETSTATUS_COMMIT_ERROR 1).jobDone := by
  simp only [exec, execCommitDone, hjob, Bool.false_eq_true, if_false]
  rfl

end

/-- Settles O52: the conditions of each command select its branch; what a commit leaves is read off its two outcomes. -/
theorem securityRuns : Obligations.SecurityRuns := by
  unfold Obligations.SecurityRuns
  refine ⟨?attest, ?measurements, ?output, ?unlock, ?lock, ?expiry, ?ended, ?window, ?committed⟩
  case attest =>
    exact fun q seq c s hacc haligned hlocal houtAligned houtLocal hmem =>
      attest_of_range hacc haligned hlocal houtAligned houtLocal hmem
  case measurements => exact fun q seq c s hacc haligned hlocal => measurements_of_aligned hacc haligned hlocal
  case output =>
    exact fun c a bs k s => ⟨fun hmem hfree => putOutput_of_free hmem hfree k,
      fun hmem hlock => putOutput_of_locked hmem hlock k⟩
  case unlock => exact fun q seq c s hacc haligned hlocal hmem => dormerUnlock_of_range hacc haligned hlocal hmem
  case lock => exact fun q seq c s hacc => congrArg Host.Outcome.next (runCmd_of_accepted hacc _)
  case expiry => exact fun t s hopen => dormerExpiry_of_open hopen
  case ended => exact fun s => ⟨(endDormer_shows s).1, (endDormer_shows s).2, rfl, rfl⟩
  case window => exact fun s => ⟨rfl, rfl⟩
  case committed => exact fun f s hjob => ⟨commitDone_of_verified hjob, commitDone_of_failed hjob⟩

end Sys2Proof.Proofs

/-! ## The soffit service (R396, R398, R399, R406) -/

namespace Sys2Proof.Proofs
open Sys2Proof.Machine Sys2Proof.Laws Sys2Proof.Safety

section
variable {s : State}

theorem onSoffit_of_up (hup : s.soffitUp = true) (f : State → State) : s.onSoffit true f = f s := by
  rw [State.onSoffit, hup]
  rfl

theorem soffitReset_of_up (hup : s.soffitUp = true) :
    exec (.reset true) s = .next ((s.send (.soffit 0 [])).moduleReset 5) :=
  congrArg Host.Outcome.next (onSoffit_of_up hup _)

/-- The bank that intake writes is erased and open. -/
def intakeOpened (s : State) : State :=
  { s with sec := { s.sec with
    flash := { s.sec.flash with banks := s.sec.flash.banks.filter (fun p => p.1 / 2 ^ 27 != s.intakeBank) }
    intake := ⟨s.intakeBank, 0, true, s.sec.intake.done⟩ } }

theorem intakeBegin_of_idle (hup : s.soffitUp = true) (hidle : s.sec.intake.busy = false)
    (htrial : s.sec.flash.trial = false) (hconfirmed : s.bit F.SEC_STATUS_TRIAL = false) (hlive : s.sec.live = [])
    (hwrites : s.nvInhibit = false) (uart : Bool) :
    exec (.intakeBegin true uart) s =
      .next (((intakeOpened s).noteOther.set F.SEC_STATUS_INTAKE_BUSY 1).send (.soffit 0 [])) := by
  refine congrArg Host.Outcome.next ((onSoffit_of_up hup _).trans ((if_neg ?closed).trans (if_neg ?writes)))
  case closed => simp [hidle, htrial, hconfirmed, hlive]
  case writes => rw [hwrites]; exact Bool.false_ne_true

theorem intakeBegin_of_busy (hup : s.soffitUp = true) (hbusy : s.sec.intake.busy = true) (uart : Bool) :
    exec (.intakeBegin true uart) s = .next (s.send (.soffit 1 [])) := by
  refine congrArg Host.Outcome.next ((onSoffit_of_up hup _).trans (if_pos ?_))
  simp [hbusy]

/-- Bytes of the image stand where the intake had come to. -/
def intakeWritten (s : State) (bs : List Byte) : State :=
  let put := (List.range bs.length).foldl (fun m k =>
    Sparse.put 0xFF#8 m (s.sec.intake.bank * 2 ^ 27 + s.sec.intake.next + k) (bs.getD k 0xFF#8)) s.sec.flash.banks
  { s with sec := { s.sec with
    flash := { s.sec.flash with banks := put }, intake := { s.sec.intake with next := s.sec.intake.next + bs.length } } }

theorem intakeData_of_next {bs : List Byte} (hup : s.soffitUp = true) (hbusy : s.sec.intake.busy = true)
    (hlen : bs.length ≤ 65536) (hbank : s.sec.intake.next + bs.length ≤ 2 ^ 27) (hwrites : s.nvInhibit = false) :
    exec (.intakeData true s.sec.intake.next bs) s = .next ((intakeWritten s bs).noteOther.send (.soffit 0 [])) := by
  refine congrArg Host.Outcome.next ((onSoffit_of_up hup _).trans ((if_neg ?inOrder).trans (if_neg ?writes)))
  case inOrder => simpa [hbusy, Nat.not_lt.2 hlen] using hbank
  case writes => rw [hwrites]; exact Bool.false_ne_true

theorem intakeData_of_other {off : Nat} (hup : s.soffitUp = true) (hoff : off ≠ s.sec.intake.next) (bs : List Byte) :
    exec (.intakeData true off bs) s = .next (s.send (.soffit 1 [])) := by
  refine congrArg Host.Outcome.next ((onSoffit_of_up hup _).trans (if_pos ?_))
  simp [hoff]

/-- The header and the length of the image that an intake has written are as Table 16.3 has them. -/
def intakeOk (s : State) : Bool :=
  let h := s.header s.sec.intake.bank
  headerOk h && s.sec.intake.next == 512 + fieldLe h 24 4

/-- The intake is closed. -/
def intakeClosed (s : State) : State :=
  ({ s with sec := { s.sec with
    intake := { s.sec.intake with busy := false, done := s.sec.intake.done || intakeOk s } } } : State).set
    F.SEC_STATUS_INTAKE_BUSY 0

theorem intakeEnd_of_busy (hup : s.soffitUp = true) (hbusy : s.sec.intake.busy = true) :
    exec (.intakeEnd true) s = .next (((intakeClosed s).set
      (if intakeOk s then F.SEC_STATUS_INTAKE_DONE else F.SEC_STATUS_INTAKE_ERROR) 1).send
        (.soffit (if intakeOk s then 0 else 2) [])) := by
  refine congrArg Host.Outcome.next ((onSoffit_of_up hup _).trans (if_neg ?_))
  simp [hbusy]

theorem activate_of_intake {force : Bool} (hup : s.soffitUp = true) (hdone : s.sec.intake.done = true)
    (hfree : s.courseLive = false ∨ force = true) (hwrites : s.nvInhibit = false) :
    let t : State := { s with sec := { s.sec with flash := { s.sec.flash with trial := true } } }
    exec (.activate true force) s = .next ((t.send (.soffit 0 [])).moduleReset 7) := by
  refine congrArg Host.Outcome.next ((onSoffit_of_up hup _).trans ((if_neg ?admitted).trans (if_neg ?writes)))
  case admitted => rcases hfree with h | h <;> simp [hdone, h]
  case writes => rw [hwrites]; exact Bool.false_ne_true

theorem activate_of_refused {force : Bool} (hup : s.soffitUp = true)
    (hrefused : s.sec.intake.done = false ∨ (s.courseLive = true ∧ force = false)) :
    exec (.activate true force) s = .next (s.send (.soffit 1 [])) := by
  refine congrArg Host.Outcome.next ((onSoffit_of_up hup _).trans (if_pos ?_))
  rcases hrefused with h | ⟨hlive, hforce⟩
  · simp [h]
  · simp [hlive, hforce]

end

/-- Settles O53: the state of the intake selects the answer to each message. -/
theorem soffitRuns : Obligations.SoffitRuns := by
  unfold Obligations.SoffitRuns
  refine ⟨fun _ _ _ _ s => ⟨rfl, rfl, rfl, rfl, rfl, rfl⟩, fun s hup =>
    ⟨?status, ?reset, ?begins, ?busy, ?data, ?other, ?ends, ?activate, ?refused⟩⟩
  case status => exact congrArg Host.Outcome.next (onSoffit_of_up hup _)
  case reset => exact soffitReset_of_up hup
  case begins =>
    exact fun hidle htrial hconfirmed hlive hwrites uart =>
      intakeBegin_of_idle hup hidle htrial hconfirmed hlive hwrites uart
  case busy => exact fun hbusy uart => intakeBegin_of_busy hup hbusy uart
  case data => exact fun bs hbusy hlen hbank hwrites => intakeData_of_next hup hbusy hlen hbank hwrites
  case other => exact fun off bs hoff => intakeData_of_other hup hoff bs
  case ends =>
    intro hbusy
    have hexec := intakeEnd_of_busy hup hbusy
    refine ⟨fun hok => ?_, fun hbad => ?_⟩
    · replace hok : intakeOk s = true := hok
      rw [if_pos hok, if_pos hok] at hexec
      exact hexec
    · replace hbad : ¬ intakeOk s = true := by rw [show intakeOk s = false from hbad]; exact Bool.false_ne_true
      rw [if_neg hbad, if_neg hbad] at hexec
      exact hexec
  case activate => exact fun force hdone hfree hwrites => activate_of_intake hup hdone hfree hwrites
  case refused => exact fun force hrefused => activate_of_refused hup hrefused

end Sys2Proof.Proofs

/-! ## The ROM and the settings (R360, R366, R394 to R396, R400) -/

namespace Sys2Proof.Proofs
open Sys2Proof.Machine Sys2Proof.Laws

/-- Memory and the state of flash and firmware are unchanged. -/
structure KeepsFlash (s u : State) : Prop where
  mem : u.mem = s.mem
  sec : u.sec = s.sec

section
variable {s t u : State}

theorem KeepsFlash.refl (s : State) : KeepsFlash s s := ⟨rfl, rfl⟩

theorem KeepsFlash.trans (h : KeepsFlash s t) (k : KeepsFlash t u) : KeepsFlash s u :=
  ⟨k.mem.trans h.mem, k.sec.trans h.sec⟩

theorem OnlyRecords.keepsFlash (h : OnlyRecords s u) : KeepsFlash s u := ⟨h.mem, h.sec⟩

theorem raise_keepsFlash (s : State) (die code payload : Nat) : KeepsFlash s (s.raise die code payload) :=
  OnlyRecords.keepsFlash (raise_onlyRecords ..)

theorem extend_keepsFlash (s : State) (i : Nat) (v : List Byte) : KeepsFlash s (s.extend i v) :=
  ⟨(extend_onlyRegs s i v).mem, extend_sec s i v⟩

/-! ### Verification of the banks -/

theorem header_congr (h : u.sec.flash.banks = s.sec.flash.banks) (b : Nat) : u.header b = s.header b := by
  simp only [State.header, State.bankBytes, h]

theorem bankBytes_congr (h : u.sec.flash.banks = s.sec.flash.banks) (b o n : Nat) :
    u.bankBytes b o n = s.bankBytes b o n := by
  simp only [State.bankBytes, h]

theorem bankFails_congr (hbanks : u.sec.flash.banks = s.sec.flash.banks)
    (hrevoked : u.sec.flash.imageRevoked = s.sec.flash.imageRevoked)
    (hcounter : u.sec.flash.counter = s.sec.flash.counter) (b : Nat) : u.bankFails b = s.bankFails b := by
  unfold State.bankFails
  dsimp only
  rw [header_congr hbanks, bankBytes_congr hbanks, hrevoked, hcounter]

theorem KeepsFlash.bankFails (h : KeepsFlash s u) (b : Nat) : u.bankFails b = s.bankFails b :=
  bankFails_congr (by rw [h.sec]) (by rw [h.sec]) (by rw [h.sec]) b

/-- The first bank of a list that passes verification is the one picked. -/
theorem pickBank_fst (s : State) (l : List Nat) : (s.pickBank l).1 = l.find? (fun b => s.bankFails b = none) := by
  induction l generalizing s with
  | nil => rfl
  | cons b bs ih =>
    rw [State.pickBank, State.tryBank]
    cases hb : s.bankFails b with
    | none => exact (List.find?_cons_of_pos (by simp [hb])).symm
    | some step =>
      rw [List.find?_cons_of_neg (by simp [hb])]
      refine (ih _).trans ?_
      simp only [State.bankFailed, (raise_keepsFlash s _ _ _).bankFails]

theorem pickBank_keepsFlash (s : State) (l : List Nat) : KeepsFlash s (s.pickBank l).2 := by
  induction l generalizing s with
  | nil => exact .refl s
  | cons b bs ih =>
    rw [State.pickBank, State.tryBank]
    split
    · exact .refl s
    · exact (raise_keepsFlash ..).trans (ih _)

/-! ### The boot -/

theorem resumeTime_keepsFlash (s : State) : KeepsFlash s s.resumeTime := by
  unfold State.resumeTime
  split
  · exact .refl s
  · exact ⟨rfl, rfl⟩

theorem recordCause_keepsFlash (s : State) : KeepsFlash s s.recordCause := by
  have hraise := raise_keepsFlash s 0 0x0101 (plAt 16 s.start.cause)
  unfold State.recordCause
  dsimp only
  split
  · exact hraise.trans ((raise_keepsFlash ..).trans ⟨rfl, rfl⟩)
  · exact hraise

/-- What the ROM records and measures before it verifies a bank. -/
def romMeasured (s : State) : State :=
  let s := s.resumeTime.recordCause
  (s.extend 0 Config.romHash).extend 4 (leBytes 8 (s.get F.SEC_ROLLBACK_COUNTER))

/-- TRIAL is cleared in flash. -/
def trialCleared (s : State) : State :=
  { s with sec := { s.sec with flash := { s.sec.flash with trial := false } } }

/-- The banks in the order in which the ROM verifies them. -/
def bankOrder (f : Flash) : List Nat := if f.trial then [1 - f.active, f.active] else [f.active, 1 - f.active]

/-- The picked bank boots; without one, recovery. -/
def bootPicked (a : Nat) (p : Option Nat × State) : State :=
  match p.1 with
  | some b => p.2.bootImage b (b ≠ a)
  | none => p.2.setStart { p.2.start with stage := 9 }

theorem romMeasured_keepsFlash (s : State) : KeepsFlash s (romMeasured s) :=
  ((resumeTime_keepsFlash s).trans (recordCause_keepsFlash _)).trans
    ((extend_keepsFlash ..).trans (extend_keepsFlash ..))

theorem romBoot_eq (hstage : s.start.stage = 2) (hwrites : (s.sec.flash.trial && s.nvInhibit) = false) :
    exec .romBoot s = .next (bootPicked s.sec.flash.active
      ((trialCleared (romMeasured s)).pickBank (bankOrder s.sec.flash))) := by
  have hstart : ¬ (s.start.stage ≠ 2 ∨ (s.sec.flash.trial && s.nvInhibit) = true) := by simp [hstage, hwrites]
  rw [← (romMeasured_keepsFlash s).sec]
  exact congrArg Host.Outcome.next (if_neg hstart)

theorem trialCleared_bankFails (s : State) (b : Nat) : (trialCleared s).bankFails b = s.bankFails b :=
  bankFails_congr (s := s) (u := trialCleared s) rfl rfl rfl b

theorem assess_onlyRegs (s : State) : OnlyRegs [.secStatus] s s.assess := set_onlyRegs (by decide) s _ 0 0

theorem get_assess {f : Fld} (h : f.reg ≠ .secStatus ∨ f.lo + f.wid ≤ F.SEC_STATUS_CERTIFIED.lo ∨
    F.SEC_STATUS_CERTIFIED.lo + F.SEC_STATUS_CERTIFIED.wid ≤ f.lo) (s : State) (i j : Nat) :
    s.assess.get f i j = s.get f i j :=
  get_set_of_apart (by decide) h ..

theorem withSec_onlyRegs {rs : List Reg} (s : State) (x : Sec) : OnlyRegs rs s { s with sec := x } :=
  onlyRegs_of_eq rfl rfl

theorem setStart_onlyRegs {rs : List Reg} (s : State) (x : Start) : OnlyRegs rs s (s.setStart x) :=
  onlyRegs_of_eq rfl rfl

theorem setStart_sec (s : State) (x : Start) : (s.setStart x).sec = s.sec := rfl

theorem assess_sec (s : State) : s.assess.sec = s.sec := rfl

/-! What an image that boots keeps, and what it shows of its bank and of a trial. -/

theorem bootImage_mem (s : State) (b : Nat) (unconfirmed : Bool) : (s.bootImage b unconfirmed).mem = s.mem := rfl

theorem bootImage_stage (s : State) (b : Nat) (unconfirmed : Bool) : (s.bootImage b unconfirmed).start.stage = 3 := rfl

theorem bootImage_flash (s : State) (b : Nat) (unconfirmed : Bool) :
    (s.bootImage b unconfirmed).sec.flash = s.sec.flash := by
  unfold State.bootImage
  simp only [setStart_sec, assess_sec, set_sec, extend_sec]

/-- Behind its bank and its trial, a boot writes of SEC_STATUS only CERTIFIED. -/
theorem bootImage_get {f : Fld} (hreg : f.reg = .secStatus) (hapart : f.lo + f.wid ≤ F.SEC_STATUS_CERTIFIED.lo ∨
    F.SEC_STATUS_CERTIFIED.lo + F.SEC_STATUS_CERTIFIED.wid ≤ f.lo) (s : State) (b : Nat) (unconfirmed : Bool) :
    ∃ v, (s.bootImage b unconfirmed).get f =
      (((s.extend 1 v).set F.SEC_STATUS_BANK b).set F.SEC_STATUS_TRIAL (if unconfirmed then 1 else 0)).get f := by
  have hother (u : State) (k : Fld) (v : Nat) (hk : Reg.secStatus ≠ k.reg) : (u.set k v).get f = u.get f :=
    get_set_of_reg _ _ _ _ _ _ _ _ (hreg ▸ hk)
  unfold State.bootImage
  extract_lets h o svn s1 s2 s3 s4 sec s5
  rw [(setStart_onlyRegs (rs := []) _ _).get _ List.not_mem_nil, get_assess (.inr hapart),
    (withSec_onlyRegs (rs := []) s4 _).get _ List.not_mem_nil]
  rw [hother _ _ _ (by decide), hother _ _ _ (by decide), hother _ _ _ (by decide), hother _ _ _ (by decide)]
  exact ⟨_, rfl⟩

theorem bootImage_bank (s : State) (b : Nat) (unconfirmed : Bool) :
    (s.bootImage b unconfirmed).get F.SEC_STATUS_BANK = b % 2 := by
  obtain ⟨v, hget⟩ := bootImage_get (f := F.SEC_STATUS_BANK) rfl (by decide) s b unconfirmed
  rw [hget, get_set_of_apart (by decide) (by decide), get_set_self _ _ _ _ _ (by decide)]
  rfl

theorem bootImage_trial (s : State) (b : Nat) (unconfirmed : Bool) :
    (s.bootImage b unconfirmed).bit F.SEC_STATUS_TRIAL = unconfirmed := by
  obtain ⟨v, hget⟩ := bootImage_get (f := F.SEC_STATUS_TRIAL) rfl (by decide) s b unconfirmed
  rw [State.bit, hget, get_set_self _ _ _ _ _ (by decide)]
  cases unconfirmed <;> rfl

/-- The boot of S2: what the module has when the ROM has ended. -/
theorem romBoot_parts (hstage : s.start.stage = 2) (hactive : s.sec.flash.active < 2)
    (hwrites : (s.sec.flash.trial && s.nvInhibit) = false) :
    ∃ t, exec .romBoot s = .next t ∧ t.mem = s.mem ∧ t.sec.flash = { s.sec.flash with trial := false } ∧
      ((t.start.stage = 3 ∧ s.bankFails (t.get F.SEC_STATUS_BANK) = none ∧
          (s.sec.flash.trial = false → s.bankFails s.sec.flash.active = none →
            t.get F.SEC_STATUS_BANK = s.sec.flash.active) ∧
          (t.bit F.SEC_STATUS_TRIAL = true ↔ t.get F.SEC_STATUS_BANK ≠ s.sec.flash.active)) ∨
        (t.start.stage = 9 ∧ s.bankFails 0 ≠ none ∧ s.bankFails 1 ≠ none)) := by
  have hmeasured := romMeasured_keepsFlash s
  have hpicked := pickBank_keepsFlash (trialCleared (romMeasured s)) (bankOrder s.sec.flash)
  have hflash : (trialCleared (romMeasured s)).sec.flash = { s.sec.flash with trial := false } := by
    rw [trialCleared, hmeasured.sec]
  have hfirst : ((trialCleared (romMeasured s)).pickBank (bankOrder s.sec.flash)).1 =
      (bankOrder s.sec.flash).find? (fun b => s.bankFails b = none) := by
    simp only [pickBank_fst, trialCleared_bankFails, hmeasured.bankFails]
  refine ⟨_, romBoot_eq hstage hwrites, ?_⟩
  rw [bootPicked, hfirst]
  cases hfind : (bankOrder s.sec.flash).find? (fun b => s.bankFails b = none) with
  | some b =>
    have hpass : s.bankFails b = none := by simpa using List.find?_some hfind
    have hmem : b ∈ bankOrder s.sec.flash := List.mem_of_find?_eq_some hfind
    have hbank : b % 2 = b := by
      unfold bankOrder at hmem
      split at hmem <;> simp at hmem <;> omega
    refine ⟨(bootImage_mem ..).trans (hpicked.mem.trans hmeasured.mem), ?_, .inl ⟨bootImage_stage .., ?_, ?_, ?_⟩⟩
    · rw [bootImage_flash, hpicked.sec, hflash]
    · rw [bootImage_bank, hbank, hpass]
    · intro htrial hok
      have hfound : (bankOrder s.sec.flash).find? (fun b => s.bankFails b = none) = some s.sec.flash.active := by
        rw [bankOrder, htrial]
        exact List.find?_cons_of_pos (by simp [hok])
      rw [bootImage_bank, hbank]
      exact Option.some.inj (hfind.symm.trans hfound)
    · rw [bootImage_trial, bootImage_bank, hbank, decide_eq_true_iff]
  | none =>
    have hnone (b : Nat) (hb : b ∈ bankOrder s.sec.flash) : s.bankFails b ≠ none := by
      simpa using List.find?_eq_none.1 hfind b hb
    refine ⟨hpicked.mem.trans hmeasured.mem, ?_, .inr ⟨rfl, hnone 0 ?_, hnone 1 ?_⟩⟩
    · rw [setStart_sec, hpicked.sec, hflash]
    all_goals
      unfold bankOrder
      split <;> simp <;> omega

end

end Sys2Proof.Proofs

/-! ## The settings of S4 (R360, R370, R400, R408) -/

namespace Sys2Proof.Proofs
open Sys2Proof.Machine Sys2Proof.Laws

section
variable {s u : State} {fd : Found}

theorem flashStart_onlyRegs (rs : List Reg) (s : State) : OnlyRegs rs s s.flashStart := by
  unfold State.flashStart
  split
  · split
    · exact .refl rs s
    · exact withSec_onlyRegs ..
  · exact .refl rs s

theorem flashAdd_onlyRegs (rs : List Reg) (s : State) (j : FlashJob) : OnlyRegs rs s (s.flashAdd j) :=
  (withSec_onlyRegs s _).trans (flashStart_onlyRegs ..)

/-- Flash work changes nothing of the settings. -/
structure SameSettings (s u : State) : Prop where
  fields : u.sec.fields = s.sec.fields
  live : u.sec.live = s.sec.live
  copy : u.sec.copy = s.sec.copy

theorem SameSettings.trans {t : State} (h : SameSettings s t) (k : SameSettings t u) : SameSettings s u :=
  ⟨k.fields.trans h.fields, k.live.trans h.live, k.copy.trans h.copy⟩

theorem flashStart_sameSettings (s : State) : SameSettings s s.flashStart := by
  unfold State.flashStart
  split
  · split <;> exact ⟨rfl, rfl, rfl⟩
  · exact ⟨rfl, rfl, rfl⟩

theorem flashAdd_sameSettings (s : State) (j : FlashJob) : SameSettings s (s.flashAdd j) :=
  .trans (t := { s with sec := { s.sec with jobs := s.sec.jobs ++ [j] } }) ⟨rfl, rfl, rfl⟩ (flashStart_sameSettings _)

/-- Fields of a block that lie out of their range. -/
def badFields (bs : List Byte) : List (Nat × Nat × Nat × Nat × Nat) := settingsFields.filter (fun f => !fieldInRange bs f)

/-- The fields in force: those of the block, each out of its range at its default. -/
def liveFields (bs : List Byte) : List Byte :=
  (badFields bs).foldl (fun bs f => patch bs f.1 (leBytes f.2.1 f.2.2.2.2)) bs

/-- S4 records a block that is not the module's own, and each field out of its range. -/
def settingsNoted (s : State) (fd : Found) : State :=
  let s := if fd.kind = 0 then s else s.raise 0 0x0103 (plAt 16 fd.stored + plAt 18 3 + plAt 20 fd.kind)
  (badFields fd.fields).foldl (fun s f => s.raise 0 0x0106 (plAt 16 f.1)) s

/-- The block is in force. -/
def settingsTaken (s : State) (fd : Found) : State :=
  let s := (s.set F.CFG_SETSTATUS_VERSION 3).set F.CFG_SETSTATUS_SEQUENCE fd.seq
  { s with sec := { s.sec with fields := fd.fields, live := liveFields fd.fields, copy := fd.copy } }

/-- The block is staged and measured, and its cap and the next epoch are in use. -/
def settingsUsed (s : State) (fd : Found) : State :=
  let s := (s.loadStaging fd.fields).extend 2 (Config.sm3 (settingsBlock 3 fd.seq fd.fields))
  let s := (s.set F.PWR_CAP_CAP_W (fieldLe (liveFields fd.fields) 0 2)).set F.JFL_EPOCH_EPOCH (s.sec.flash.epoch + 1)
  (s.raise 0 1 0).assess

/-- What S4 writes to flash. -/
def settingsKept (s : State) (fd : Found) : State :=
  (if fd.write then s.commitFields fd.fields else s).flashAdd .directory

theorem settingsRead_eq {fresh : List Nat} (hstage : s.start.stage = 4) (hlive : s.sec.live = []) :
    let fd := s.findSettings fresh
    exec (.settingsRead fresh) s = .next (settingsKept (settingsUsed (settingsTaken (settingsNoted s fd) fd) fd) fd) := by
  have hfirst : ¬ (s.start.stage ≠ 4 ∨ s.sec.live ≠ []) := by simp [hstage, hlive]
  exact congrArg Host.Outcome.next (if_neg hfirst)

theorem settingsNoted_onlyRecords (s : State) (fd : Found) : OnlyRecords s (settingsNoted s fd) := by
  unfold settingsNoted
  extract_lets t
  have hfirst : OnlyRecords s t := by
    unfold t
    split
    · exact .refl s
    · exact raise_onlyRecords ..
  exact List.foldlRecOn (motive := OnlyRecords s) _ _ hfirst fun u hu f _ => hu.trans (raise_onlyRecords ..)

theorem settingsTaken_parts (s : State) (fd : Found) :
    (settingsTaken s fd).mem = s.mem ∧ (settingsTaken s fd).sec.fields = fd.fields ∧
    (settingsTaken s fd).sec.live = liveFields fd.fields ∧ (settingsTaken s fd).sec.copy = fd.copy ∧
    (settingsTaken s fd).sec.flash.epoch = s.sec.flash.epoch := ⟨rfl, rfl, rfl, rfl, rfl⟩

theorem settingsTaken_version (s : State) (fd : Found) : (settingsTaken s fd).get F.CFG_SETSTATUS_VERSION = 3 := by
  unfold settingsTaken
  dsimp only
  rw [(withSec_onlyRegs (rs := []) _ _).get _ List.not_mem_nil, get_set_of_apart (by decide) (by decide),
    get_set_self _ _ _ _ _ (by decide)]
  rfl

theorem loadStaging_onlyRegs (rs : List Reg) (s : State) (bs : List Byte) : OnlyRegs rs s (s.loadStaging bs) :=
  withSec_onlyRegs ..

theorem staged_keeps (s : State) (bs v : List Byte) :
    SameSettings s ((s.loadStaging bs).extend 2 v) ∧ ((s.loadStaging bs).extend 2 v).sec.flash = s.sec.flash := by
  refine ⟨⟨?_, ?_, ?_⟩, ?_⟩ <;> rw [extend_sec] <;> rfl

/-- The start record and the assessment write none of the registers that the settings set. -/
theorem assessed_onlyRegs (s : State) : OnlyRegs (.secStatus :: gutRegs) s (s.raise 0 1 0).assess :=
  (raise_onlyRegs (List.subset_cons_self _ _) ..).trans ((assess_onlyRegs _).mono (by decide))

theorem settingsUsed_parts (s : State) (fd : Found) :
    (settingsUsed s fd).mem = s.mem ∧ SameSettings s (settingsUsed s fd) ∧
    (settingsUsed s fd).get F.CFG_SETSTATUS_VERSION = s.get F.CFG_SETSTATUS_VERSION ∧
    (settingsUsed s fd).get F.JFL_EPOCH_EPOCH = (s.sec.flash.epoch + 1) % 2 ^ 16 ∧
    (settingsUsed s fd).get F.PWR_CAP_CAP_W = fieldLe (liveFields fd.fields) 0 2 % 2 ^ 12 := by
  unfold settingsUsed
  extract_lets s1 s2
  have hstaged : OnlyRegs [.secMeas] s s1 := (loadStaging_onlyRegs ..).trans (extend_onlyRegs ..)
  obtain ⟨hsame, hflash⟩ : SameSettings s s1 ∧ s1.sec.flash = s.sec.flash := staged_keeps ..
  have hset : OnlyRegs [.pwrCap, .jflEpoch] s1 s2 :=
    (set_onlyRegs (by decide) s1 _ 0 0).trans (set_onlyRegs (by decide) _ _ 0 0)
  have hlater := assessed_onlyRegs s2
  have hsec : (s2.raise 0 1 0).assess.sec = s1.sec := by
    rw [assess_sec, (raise_keepsFlash ..).sec, set_sec, set_sec]
  refine ⟨hlater.mem.trans (hset.mem.trans hstaged.mem),
    hsame.trans ⟨by rw [hsec], by rw [hsec], by rw [hsec]⟩, ?_, ?_, ?_⟩
  · rw [hlater.get _ (by decide), hset.get _ (by decide), hstaged.get _ (by decide)]
  · rw [hlater.get _ (by decide), get_set_self _ _ _ _ _ (by decide), hflash]
    rfl
  · rw [hlater.get _ (by decide), get_set_of_reg _ _ _ _ _ _ _ _ (by decide), get_set_self _ _ _ _ _ (by decide)]
    rfl

theorem commitFields_version (s : State) (bs : List Byte) :
    (s.commitFields bs).get F.CFG_SETSTATUS_VERSION = s.get F.CFG_SETSTATUS_VERSION := by
  unfold State.commitFields
  rw [(flashAdd_onlyRegs [] _ _).get _ List.not_mem_nil, get_set_of_apart (by decide) (by decide)]

theorem commitFields_onlyRegs (s : State) (bs : List Byte) : OnlyRegs [.cfgSetstatus] s (s.commitFields bs) :=
  (set_onlyRegs (by decide) s 1 0 0).trans (flashAdd_onlyRegs ..)

theorem commitFields_sameSettings (s : State) (bs : List Byte) : SameSettings s (s.commitFields bs) :=
  .trans (t := s.set F.CFG_SETSTATUS_PENDING 1) ⟨rfl, rfl, rfl⟩ (flashAdd_sameSettings ..)

theorem settingsKept_parts (s : State) (fd : Found) :
    OnlyRegs [.cfgSetstatus] s (settingsKept s fd) ∧ SameSettings s (settingsKept s fd) ∧
    (settingsKept s fd).get F.CFG_SETSTATUS_VERSION = s.get F.CFG_SETSTATUS_VERSION := by
  unfold settingsKept
  rw [(flashAdd_onlyRegs [] _ _).get _ List.not_mem_nil]
  split
  · exact ⟨(commitFields_onlyRegs ..).trans (flashAdd_onlyRegs ..),
      (commitFields_sameSettings ..).trans (flashAdd_sameSettings ..), commitFields_version ..⟩
  · exact ⟨flashAdd_onlyRegs .., flashAdd_sameSettings .., rfl⟩

/-- What S4 leaves: the settings in force, their version, the next epoch and the cap. -/
theorem settingsRead_parts {fresh : List Nat} (hstage : s.start.stage = 4) (hlive : s.sec.live = []) :
    let fd := s.findSettings fresh
    ∃ t, exec (.settingsRead fresh) s = .next t ∧ t.mem = s.mem ∧ t.sec.fields = fd.fields ∧ t.sec.copy = fd.copy ∧
      t.sec.live = liveFields fd.fields ∧ t.get F.CFG_SETSTATUS_VERSION = 3 ∧
      t.get F.JFL_EPOCH_EPOCH = (s.sec.flash.epoch + 1) % 2 ^ 16 ∧
      t.get F.PWR_CAP_CAP_W = fieldLe t.sec.live 0 2 % 2 ^ 12 := by
  intro fd
  have hnoted := settingsNoted_onlyRecords s fd
  obtain ⟨hmem, hfields, hlive', hcopy, hepoch⟩ := settingsTaken_parts (settingsNoted s fd) fd
  obtain ⟨husedMem, husedSame, husedVersion, husedEpoch, husedCap⟩ :=
    settingsUsed_parts (settingsTaken (settingsNoted s fd) fd) fd
  obtain ⟨hkept, hkeptSame, hkeptVersion⟩ := settingsKept_parts (settingsUsed (settingsTaken (settingsNoted s fd) fd) fd) fd
  have hsame := husedSame.trans hkeptSame
  refine ⟨_, settingsRead_eq hstage hlive, hkept.mem.trans (husedMem.trans (hmem.trans hnoted.mem)),
    hsame.fields.trans hfields, hsame.copy.trans hcopy, hsame.live.trans hlive', ?_, ?_, ?_⟩
  · rw [hkeptVersion, husedVersion, settingsTaken_version]
  · rw [hkept.get _ (by decide), husedEpoch, hepoch, hnoted.sec]
  · rw [hkept.get _ (by decide), husedCap, hsame.live, hlive']

end

end Sys2Proof.Proofs

/-! ## Training of the memories (R361, R362) -/

namespace Sys2Proof.Proofs
open Sys2Proof.Machine Sys2Proof.Laws

section
variable {s t u : State} {ctl dev other : Nat} {bad : List Nat}

/-- A channel (controller × 256 + channel) of a controller that serves a memory. -/
def serves (ctl dev k : Nat) : Bool := k / 256 == ctl && chanDev ctl (k % 256) == dev

theorem serves_channel {ch : Nat} (hch : ch < 256) (hdev : chanDev ctl ch = dev) : serves ctl dev (ctl * 256 + ch) = true := by
  have hdiv : (ctl * 256 + ch) / 256 = ctl := by omega
  have hmod : (ctl * 256 + ch) % 256 = ch := by omega
  simp only [serves, hdiv, hmod, hdev, beq_self_eq_true, Bool.and_self]

/-- The channels that a round did not train of a memory. -/
def untrained (ctl dev : Nat) (bad : List Nat) : List Nat := (bad.map (fun ch => ctl * 256 + ch)).filter (serves ctl dev)

/-- The failed channels after round `n` of a memory. -/
def failedAfter (x : Start) (ctl dev n : Nat) (bad : List Nat) : List Nat :=
  if n ≤ trainRounds ctl then x.failed ++ (untrained ctl dev bad).filter (fun k => decide (k ∉ x.failed))
  else x.failed.filter (fun k => !serves ctl dev k || decide (k ∈ untrained ctl dev bad))

/-- Round `n` of a memory is counted, with the channels that it did not train. -/
def roundCounted (x : Start) (ctl dev : Nat) (bad : List Nat) : Start :=
  let n := Sparse.get 0 x.rounds dev + 1
  { x with rounds := Sparse.put 0 x.rounds dev n, failed := failedAfter x ctl dev n bad }

theorem trainDev_eq (s : State) (ctl : Nat) (bad : List Nat) (dev : Nat) :
    let n := Sparse.get 0 s.start.rounds dev + 1
    let x := roundCounted s.start ctl dev bad
    s.trainDev ctl bad dev =
      if n < trainRounds ctl then s.setStart x
      else if (failedAfter s.start ctl dev n bad).any (serves ctl dev) = false then
        s.setStart { x with trained := x.trained ++ [dev] }
      else if n < trainRounds ctl + 2 then s.setStart x
      else (s.setStart x).devDead ctl dev := rfl

theorem raise_start (s : State) (die code payload : Nat) : (s.raise die code payload).start = s.start := by
  obtain ⟨_, _, heq⟩ := raise_onlyRecords s die code payload
  rw [heq]

theorem devDead_mem (s : State) (ctl dev : Nat) : (s.devDead ctl dev).mem = s.mem :=
  (raise_keepsFlash ..).mem

/-- A round counts itself; it ends with the memory trained, or only when all its rounds have ended. -/
theorem trainDev_parts (s : State) (ctl : Nat) (bad : List Nat) (dev : Nat) :
    let n := Sparse.get 0 s.start.rounds dev + 1
    let v := s.trainDev ctl bad dev
    v.mem = s.mem ∧ v.start.rounds = Sparse.put 0 s.start.rounds dev n ∧
    v.start.failed = failedAfter s.start ctl dev n bad ∧
    (v.start.trained = s.start.trained ∨ v.start.trained = s.start.trained ++ [dev]) ∧
    (n < trainRounds ctl → v.start.trained = s.start.trained) ∧
    (trainRounds ctl ≤ n → (failedAfter s.start ctl dev n bad).any (serves ctl dev) = false → dev ∈ v.start.trained) := by
  intro n v
  have hv : v = _ := trainDev_eq s ctl bad dev
  clear_value v
  by_cases hearly : n < trainRounds ctl
  · rw [if_pos hearly] at hv
    subst hv
    exact ⟨rfl, rfl, rfl, .inl rfl, fun _ => rfl, fun hlate => absurd hearly (Nat.not_lt.2 hlate)⟩
  rw [if_neg hearly] at hv
  by_cases hclean : (failedAfter s.start ctl dev n bad).any (serves ctl dev) = false
  · rw [if_pos hclean] at hv
    subst hv
    exact ⟨rfl, rfl, rfl, .inr rfl, fun h => absurd h hearly,
      fun _ _ => List.mem_append_right _ (List.mem_singleton_self dev)⟩
  rw [if_neg hclean] at hv
  split at hv <;> subst hv
  · exact ⟨rfl, rfl, rfl, .inl rfl, fun _ => rfl, fun _ h => absurd h hclean⟩
  · exact ⟨devDead_mem .., rfl, rfl, .inl rfl, fun _ => rfl, fun _ h => absurd h hclean⟩

/-- Training of other memories leaves a memory's rounds, whether it has trained, and its failed channels. -/
structure LeavesTraining (ctl dev : Nat) (bad : List Nat) (s u : State) : Prop where
  rounds : Sparse.get 0 u.start.rounds dev = Sparse.get 0 s.start.rounds dev
  trained : dev ∈ u.start.trained ↔ dev ∈ s.start.trained
  failed : ∀ k, serves ctl dev k = true → k ∈ s.start.failed → k ∈ u.start.failed
  clean : s.start.failed = [] → bad = [] → u.start.failed = []

theorem LeavesTraining.refl (ctl dev : Nat) (bad : List Nat) (s : State) : LeavesTraining ctl dev bad s s :=
  ⟨rfl, .rfl, fun _ _ h => h, fun h _ => h⟩

theorem LeavesTraining.trans (h : LeavesTraining ctl dev bad s t) (k : LeavesTraining ctl dev bad t u) :
    LeavesTraining ctl dev bad s u :=
  ⟨k.rounds.trans h.rounds, k.trained.trans h.trained, fun c hc hm => k.failed c hc (h.failed c hc hm),
    fun hf hb => k.clean (h.clean hf hb) hb⟩

theorem failedAfter_nil {x : Start} (hfailed : x.failed = []) (hbad : bad = []) (n : Nat) :
    failedAfter x ctl dev n bad = [] := by
  subst hbad
  rw [failedAfter, hfailed]
  split <;> rfl

/-- A channel serves one memory only, so the retries of another leave it. -/
theorem mem_failedAfter_of_other {x : Start} {k : Nat} (hne : other ≠ dev) (hk : serves ctl dev k = true)
    (hmem : k ∈ x.failed) (n : Nat) : k ∈ failedAfter x ctl other n bad := by
  have hother : serves ctl other k = false := by
    simp only [serves, Bool.and_eq_true, beq_iff_eq] at hk
    simp [serves, hk.2, hne.symm]
  unfold failedAfter
  split
  · exact List.mem_append_left _ hmem
  · exact List.mem_filter.2 ⟨hmem, by simp [hother]⟩

theorem mem_failedAfter_of_untrained {x : Start} {n k : Nat} (hn : n ≤ trainRounds ctl) (hk : k ∈ untrained ctl dev bad) :
    k ∈ failedAfter x ctl dev n bad := by
  rw [failedAfter, if_pos hn, List.mem_append]
  by_cases hold : k ∈ x.failed
  · exact .inl hold
  · exact .inr (List.mem_filter.2 ⟨hk, decide_eq_true hold⟩)

theorem trainDev_leavesTraining (hne : other ≠ dev) (s : State) :
    LeavesTraining ctl dev bad s (s.trainDev ctl bad other) := by
  obtain ⟨_, hrounds, hfailed, htrained, _, _⟩ := trainDev_parts s ctl bad other
  refine ⟨?_, ?_, fun k hk hmem => ?_, fun hf hb => ?_⟩
  · rw [hrounds, get_put_of_ne _ _ _ _ hne.symm]
  · rcases htrained with h | h
    · rw [h]
    · rw [h, List.mem_append, List.mem_singleton, or_iff_left hne.symm]
  · rw [hfailed]
    exact mem_failedAfter_of_other hne hk hmem _
  · rw [hfailed]
    exact failedAfter_nil hf hb _

/-- A round of a controller: the memories in training, one by one. -/
theorem foldl_leavesTraining {l : List Nat} (hl : dev ∉ l) (s : State) :
    LeavesTraining ctl dev bad s (l.foldl (fun s d => s.trainDev ctl bad d) s) :=
  List.foldlRecOn (motive := LeavesTraining ctl dev bad s) l _ (.refl ..) fun u hu d hd =>
    hu.trans (trainDev_leavesTraining (fun h : d = dev => hl (h ▸ hd)) u)

theorem foldl_trainDev_mem (l : List Nat) (s : State) : (l.foldl (fun s d => s.trainDev ctl bad d) s).mem = s.mem :=
  List.foldlRecOn (motive := fun u => u.mem = s.mem) l _ rfl fun u hu d _ => (trainDev_parts u ctl bad d).1.trans hu

/-- What a round of its controller does to a memory in training. -/
theorem round_parts {l : List Nat} (hnodup : l.Nodup) (hmem : dev ∈ l) (s : State) (huntrained : dev ∉ s.start.trained) :
    let n := Sparse.get 0 s.start.rounds dev + 1
    let t := l.foldl (fun s d => s.trainDev ctl bad d) s
    Sparse.get 0 t.start.rounds dev = n ∧
    (n < trainRounds ctl → dev ∉ t.start.trained ∧ ∀ ch ∈ bad, chanDev ctl ch = dev → ch < 256 →
      ctl * 256 + ch ∈ t.start.failed) ∧
    (trainRounds ctl ≤ n → s.start.failed = [] → bad = [] → dev ∈ t.start.trained) := by
  intro n
  obtain ⟨before, after, rfl⟩ := List.append_of_mem hmem
  obtain ⟨_, hafter, hapart⟩ := List.nodup_append.1 hnodup
  have hbefore : dev ∉ before := fun h => hapart dev h dev (List.mem_cons_self ..) rfl
  rw [List.foldl_append, List.foldl_cons]
  have hu := foldl_leavesTraining (ctl := ctl) (bad := bad) hbefore s
  generalize before.foldl (fun s d => s.trainDev ctl bad d) s = u at hu ⊢
  have ht := foldl_leavesTraining (ctl := ctl) (bad := bad) (List.nodup_cons.1 hafter).1 (u.trainDev ctl bad dev)
  obtain ⟨_, hrounds, hfailed, _, hearly, hlate⟩ := trainDev_parts u ctl bad dev
  rw [hu.rounds] at hrounds hfailed hearly hlate
  refine ⟨?_, fun hn => ⟨?_, fun ch hch hdev hlt => ?_⟩, fun hn hf hb => ?_⟩
  · rw [ht.rounds, hrounds, get_put_self]
  · rw [ht.trained, hearly hn, hu.trained]
    exact huntrained
  · have hserves := serves_channel hlt hdev
    refine ht.failed _ hserves ?_
    rw [hfailed]
    exact mem_failedAfter_of_untrained hn.le (List.mem_filter.2 ⟨List.mem_map_of_mem hch, hserves⟩)
  · refine ht.trained.2 (hlate hn ?_)
    rw [failedAfter_nil (hu.clean hf hb) hb]
    rfl

end

end Sys2Proof.Proofs

/-! ## Start-up and reset run through their stages (R356 to R358, R361 to R365, R368, R397) -/

namespace Sys2Proof.Proofs
open Sys2Proof.Machine Sys2Proof.Laws

section
variable {s : State}

/-! ### The stages -/

theorem powerOn_of_off (hstage : s.start.stage = 11) (htrip : s.start.trip = none) :
    exec .powerOn s = .next (s.powerOnReset 1 0) := by
  simp only [exec, execPowerOn, hstage, htrip, Option.isSome_none, Bool.false_eq_true, if_true, if_false]

theorem powerOn_of_tripped (hstage : s.start.stage = 11) (htrip : s.start.trip ≠ none) :
    exec .powerOn s = .next (s.powerOnReset 3 0) := by
  simp only [exec, execPowerOn, hstage, Option.isSome_iff_ne_none.2 htrip, if_true]

theorem supplyQualified_of_s0 (hstage : s.start.stage = 0) :
    exec .supplyQualified s = .next (s.setStart { s.start with stage := 1 }) :=
  congrArg Host.Outcome.next (if_pos hstage)

theorem powerGood_of_s1 (hstage : s.start.stage = 1) : exec .powerGood s = .next (s.setStart { s.start with stage := 2 }) :=
  congrArg Host.Outcome.next (if_pos hstage)

theorem dieBringUp_of_good (hstage : s.start.stage = 3) :
    exec (.dieBringUp none) s = .next (((s.set F.TBN_TIME_TIME 0).openSlot).setStart { s.start with stage := 4 }) :=
  congrArg Host.Outcome.next (if_neg (not_not_intro hstage))

theorem dieBringUp_of_bad (hstage : s.start.stage = 3) (d : Fin 8) :
    exec (.dieBringUp (some d)) s =
      .next ((s.raise 0 0x0107 (plAt 16 d.val + plAt 17 3)).setStart { s.start with stage := 10 }) :=
  congrArg Host.Outcome.next (if_neg (not_not_intro hstage))

/-! ### Training, fill and restore -/

theorem endS6_start (s : State) : s.endS6.start.rounds = s.start.rounds ∧ s.endS6.start.trained = s.start.trained ∧
    s.endS6.start.failed = s.start.failed := by
  unfold State.endS6
  split <;> exact ⟨rfl, rfl, rfl⟩

theorem endS6_mem (s : State) : s.endS6.mem = s.mem := by
  unfold State.endS6
  split <;> rfl

/-- The memories of a controller that are in training. -/
def inTraining (s : State) (ctl : Nat) : List Nat :=
  (ctlDevs ctl).filter (fun d => d ∈ s.start.full ∧ d ∉ s.start.dead ∧ d ∉ s.start.trained)

theorem channelTrainingRound_of_s5 (hstage : s.start.stage = 5) (ctl : Fin 24) (bad : List Nat) :
    exec (.channelTrainingRound ctl bad) s =
      .next ((inTraining s ctl).foldl (fun s d => s.trainDev ctl bad d) s).endS6 :=
  congrArg Host.Outcome.next (if_neg (not_not_intro hstage))

theorem ctlDevs_nodup : ∀ ctl : Fin 24, (ctlDevs ctl).Nodup := by decide

theorem stackFill_of_trained {dev : Fin 48} (hstage : s.start.stage = 5) (htrained : dev.val ∈ s.start.trained) :
    let lo := devBase dev
    let t : State := { s with
      mem := s.mem.filter (fun p => !(decide (lo ≤ p.1) && decide (p.1 < lo + windowSize)))
      upset := s.upset.filter (fun p => !(decide (lo ≤ p.1 * 64) && decide (p.1 * 64 < lo + windowSize)))
      start := { s.start with
        trained := s.start.trained.filter (fun d => decide (d ≠ dev.val))
        full := s.start.full.filter (fun d => decide (d ≠ dev.val)) } }
    exec (.stackFill dev) s = .next (t.enterService dev).endS6 :=
  congrArg Host.Outcome.next (if_neg (by simp [hstage, htrained]))

/-- The controller of a channel of the module, and its number there. -/
def chanCtl (chan : Nat) : Nat := if chan < 2048 then chan / 128 else 16 + (chan - 2048) / 16
def chanOfCtl (chan : Nat) : Nat := if chan < 2048 then chan % 128 else (chan - 2048) % 16
/-- The memory of a channel of the module. -/
def chanMem (chan : Nat) : Nat := chanDev (chanCtl chan) (chanOfCtl chan)

section
variable {chan : Fin 2176} (hstage : s.start.stage = 5) (hkept : chanMem chan ∉ s.start.full)
  (hout : s.inService / 2 ^ chanMem chan % 2 = 0)
include hstage hkept hout

theorem channelRestore_of_failed :
    exec (.channelRestore chan false) s =
      .next ((s.raise (ctlDie (chanCtl chan)) 0x0506 (s.memPayload (chanCtl chan) (chanOfCtl chan))).setStart
        { s.start with full := s.start.full ++ [chanMem chan] }) := by
  have hcond : ¬ (s.start.stage ≠ 5 ∨ chanMem chan ∈ s.start.full ∨ s.inService / 2 ^ chanMem chan % 2 = 1) := by
    simp [hstage, hkept, hout]
  exact congrArg Host.Outcome.next ((if_neg hcond).trans (if_neg Bool.false_ne_true))

/-- The first channel restored is not the last of its memory. -/
theorem channelRestore_of_first (hnone : s.start.restored = []) :
    exec (.channelRestore chan true) s = .next (s.setStart { s.start with restored := [chan.val] }) := by
  have hcond : ¬ (s.start.stage ≠ 5 ∨ chanMem chan ∈ s.start.full ∨ s.inService / 2 ^ chanMem chan % 2 = 1) := by
    simp [hstage, hkept, hout]
  refine congrArg Host.Outcome.next ((if_neg hcond).trans ((if_pos rfl).trans ?_))
  rw [hnone]
  refine if_neg fun hlen => ?_
  have hle : (if chanMem chan < 16 then 128 else 4) ≤ [chan.val].length := hlen ▸ List.length_filter_le ..
  rw [List.length_singleton] at hle
  split at hle <;> omega

end

/-! ### Services and readiness -/

theorem servicesStart_of_s7 (hstage : s.start.stage = 7) (hfirst : s.start.services = false) :
    exec .servicesStart s = .next (((((({ s with clusters := [] } : State).set F.HIF_CTRL_PERST_SCOPE
      (s.setting 2 1)).set F.HIF_CTRL_CXL_EN (s.setting 3 1)).set F.LDG_DKEY_KEY (s.setting 16 8))).setStart
        { s.start with services := true }) :=
  congrArg Host.Outcome.next (if_neg (by simp [hstage, hfirst]))

/-- The firmware of every die shows its version. -/
def versionsShown (s : State) (v : Nat) : State := (List.range 8).foldl (fun s d => s.set F.QP_FWVER_VERSION v d) s

/-- READY behind the versions: the stage, its record, and a trial image to be confirmed. -/
def madeReady (s : State) : State :=
  let s := s.setStart { s.start with stage := 8 }
  (s.raise 0 0x0102 (plAt 16 (s.rd .cfgMemstate 0 0).toNat)).confirmImage

theorem ready_eq (hstage : s.start.stage = 7) (hservices : s.start.services = true) :
    exec .ready s = .next (madeReady (versionsShown s.draw.2 (1 + s.draw.1.toNat % (2 ^ 32 - 1)))) :=
  congrArg Host.Outcome.next (if_neg (by simp [hstage, hservices]))

theorem versionsShown_get {v : Nat} (hv : v < 2 ^ 32) (s : State) (d : Fin 8) :
    (versionsShown s v).get F.QP_FWVER_VERSION d = v := by
  refine foldl_of_mem (a := d.val) (P := fun u : State => u.get F.QP_FWVER_VERSION d = v) (List.mem_range.2 d.isLt)
    (fun u => ?set) (fun u e he hne hu => ?keep) s
  case set => exact (get_set_self u F.QP_FWVER_VERSION v d 0 (by decide)).trans (Nat.mod_eq_of_lt hv)
  case keep =>
    have he8 : e < 8 := List.mem_range.1 he
    refine (get_set_of_ne u _ _ v e 0 d 0 ((regCode_ne_of_inst 0 ?_ ?_ fun _ => hne.symm) 0)).trans hu <;> omega

theorem versionsShown_bit {f : Fld} (hf : f.reg ≠ .qpFwver) (s : State) (v : Nat) :
    (versionsShown s v).mem = s.mem ∧ (versionsShown s v).bit f = s.bit f := by
  have honly : OnlyRegs [.qpFwver] s (versionsShown s v) :=
    foldl_onlyRegs _ (fun u d => set_onlyRegs (by decide) u v d 0) s
  exact ⟨honly.mem, honly.bit (by simpa using hf) 0 0⟩

theorem flashStart_keepsConfirm (s : State) : s.flashStart.start = s.start ∧ s.flashStart.sec.confirm = s.sec.confirm := by
  unfold State.flashStart
  split
  · split <;> exact ⟨rfl, rfl⟩
  · exact ⟨rfl, rfl⟩

theorem confirmImage_parts (s : State) : OnlyRegs [] s s.confirmImage ∧ s.confirmImage.start = s.start ∧
    (s.bit F.SEC_STATUS_TRIAL = true → s.confirmImage.sec.confirm = true) := by
  unfold State.confirmImage
  split
  next htrial =>
    refine ⟨(withSec_onlyRegs ..).trans (flashAdd_onlyRegs ..), (flashStart_keepsConfirm _).1,
      fun _ => (flashStart_keepsConfirm _).2⟩
  next hnone => exact ⟨.refl .., rfl, fun htrial => absurd htrial hnone⟩

theorem madeReady_parts (s : State) : OnlyRegs gutRegs s (madeReady s) ∧ (madeReady s).start.stage = 8 ∧
    (s.bit F.SEC_STATUS_TRIAL = true → (madeReady s).sec.confirm = true) := by
  unfold madeReady
  extract_lets start t
  have hraise : OnlyRegs gutRegs s (t.raise 0 0x0102 (plAt 16 (t.rd .cfgMemstate 0 0).toNat)) :=
    (setStart_onlyRegs ..).trans (raise_onlyRegs (List.Subset.refl _) ..)
  obtain ⟨honly, hstart, hconfirm⟩ := confirmImage_parts (t.raise 0 0x0102 (plAt 16 (t.rd .cfgMemstate 0 0).toNat))
  refine ⟨hraise.trans (honly.mono (List.nil_subset _)), ?_, fun htrial => hconfirm ?_⟩
  · rw [hstart, raise_start]
    rfl
  · exact (hraise.bit (by decide) 0 0).trans htrial

theorem ready_parts (hstage : s.start.stage = 7) (hservices : s.start.services = true) :
    ∃ t v, exec .ready s = .next t ∧ t.start.stage = 8 ∧ t.mem = s.mem ∧
      (s.bit F.SEC_STATUS_TRIAL = true → t.sec.confirm = true) ∧ 1 ≤ v ∧
      ∀ d : Fin 8, t.get F.QP_FWVER_VERSION d = v := by
  have hlt : 1 + s.draw.1.toNat % (2 ^ 32 - 1) < 2 ^ 32 := by omega
  refine ⟨_, 1 + s.draw.1.toNat % (2 ^ 32 - 1), ready_eq hstage hservices, ?_⟩
  obtain ⟨hmem, hbit⟩ := versionsShown_bit (f := F.SEC_STATUS_TRIAL) (by decide) s.draw.2 (1 + s.draw.1.toNat % (2 ^ 32 - 1))
  have hversions := versionsShown_get hlt s.draw.2
  generalize versionsShown s.draw.2 (1 + s.draw.1.toNat % (2 ^ 32 - 1)) = u at hmem hbit hversions ⊢
  obtain ⟨honly, hstage', hconfirm⟩ := madeReady_parts u
  exact ⟨hstage', honly.mem.trans hmem, fun htrial => hconfirm (hbit.trans htrial), Nat.le_add_right ..,
    fun d => (honly.get _ (by decide) d 0).trans (hversions d)⟩

/-! ### Resets -/

theorem moduleReset_of_powered {cause : Nat} (hpowered : s.powered = true) (hleast : 4 ≤ cause) (hmost : cause ≤ 7) :
    exec (.moduleReset cause) s = .next (s.moduleReset cause) :=
  congrArg Host.Outcome.next (if_pos ⟨hleast, hmost, hpowered⟩)

theorem watchdogExpiry_of_running (hpowered : s.powered = true) (hleast : 4 ≤ s.start.stage) (hmost : s.start.stage ≤ 8)
    (d : Fin 8) : exec (.watchdogExpiry d) s = .next (s.moduleReset 6) :=
  congrArg Host.Outcome.next (if_pos ⟨hpowered, hleast, hmost⟩)

theorem loadFuses_keeps (s : State) : s.loadFuses.mem = s.mem ∧ s.loadFuses.start = s.start := ⟨rfl, rfl⟩

/-- The gutter's heads carry over into a module reset. -/
theorem headsCopied_keeps (s t : State) :
    let u := (List.range 8).foldl (fun t d => t.set F.GUT_HEAD_RAM_NEXT (s.get F.GUT_HEAD_RAM_NEXT d) d) t
    u.mem = t.mem ∧ u.start = t.start :=
  List.foldlRecOn (motive := fun u : State => u.mem = t.mem ∧ u.start = t.start) _ _ ⟨rfl, rfl⟩ fun _ hu _ _ => hu

theorem moduleReset_parts (s : State) (cause : Nat) :
    (s.moduleReset cause).mem = s.mem ∧ (s.moduleReset cause).start.stage = 1 ∧
    (s.moduleReset cause).start.cause = cause := by
  unfold State.moduleReset
  extract_lets fresh freshSec freshStart t u
  obtain ⟨hmem, hstart⟩ := headsCopied_keeps s u
  rw [(loadFuses_keeps _).1, (loadFuses_keeps _).2, hmem, hstart, set_mem, set_mem, set_start, set_start]
  exact ⟨rfl, rfl, rfl⟩

end

/-- Settles O54: each row acts in its stage, and what it leaves is read off the parts of its effect. -/
theorem startUpRuns : Obligations.StartUpRuns := by
  unfold Obligations.StartUpRuns
  refine ⟨?stages, ?boot, ?settings, ?round, ?fill, ?restore, ?services, ?reset, ?watchdog⟩
  case stages =>
    refine fun s => ⟨powerOn_of_off, powerOn_of_tripped, supplyQualified_of_s0, powerGood_of_s1, fun hstage =>
      ⟨dieBringUp_of_good hstage, fun d => ⟨_, dieBringUp_of_bad hstage d, rfl, ?_⟩⟩⟩
    exact (raise_keepsFlash ..).mem
  case boot => exact fun s hstage hactive hwrites => romBoot_parts hstage hactive hwrites
  case settings => exact fun fresh s hstage hlive => settingsRead_parts hstage hlive
  case round =>
    intro ctl bad s hstage
    refine ⟨_, channelTrainingRound_of_s5 hstage ctl bad, (endS6_mem _).trans (foldl_trainDev_mem ..),
      fun dev hdev hfull halive huntrained => ?_⟩
    obtain ⟨hrounds, htrained, hfailed⟩ := endS6_start ((inTraining s ctl).foldl (fun s d => s.trainDev ctl bad d) s)
    rw [hrounds, htrained, hfailed]
    exact round_parts ((ctlDevs_nodup ctl).filter _)
      (List.mem_filter.2 ⟨hdev, decide_eq_true ⟨hfull, halive, huntrained⟩⟩) s huntrained
  case fill => exact fun dev s hstage htrained => stackFill_of_trained hstage htrained
  case restore =>
    exact fun chan s hstage hkept hout =>
      ⟨channelRestore_of_failed hstage hkept hout, channelRestore_of_first hstage hkept hout⟩
  case services => exact fun s hstage => ⟨servicesStart_of_s7 hstage, ready_parts hstage⟩
  case reset =>
    exact fun cause s hpowered hleast hmost => ⟨moduleReset_of_powered hpowered hleast hmost, moduleReset_parts s cause⟩
  case watchdog => exact fun d s hpowered hleast hmost => watchdogExpiry_of_running hpowered hleast hmost d

end Sys2Proof.Proofs
